-- ==== Sys2Proof/Word.lean ====
section
/-! DEFINITION. The word types of the device: a register word, a byte, a 64-bit register. -/

namespace Sys2Proof

/-- A 32-bit register word (s registers, vector lanes). -/
abbrev Word := BitVec 32

/-- A byte of memory. -/
abbrev Byte := BitVec 8

/-- A 64-bit word (register pairs, token words, control-space slots). -/
abbrev DWord := BitVec 64

end Sys2Proof
end

