-- ==== Sys2Proof/Syntax.lean ====
section
/-! DEFINITION. The commands of the device: one constructor of `Instr` for each row of spec/opcode_table.json.
A thread instruction carries the thread that executes it and the fields of its instruction word (04, R107 to R110);
an event carries what it acts on and what comes from outside the device (a sensor, a peer, the host, a vote). -/

namespace Sys2Proof

/-- A thread of a context: the cell's number in the context (R89), the group and the thread number (R100). -/
structure ThreadId where
  ctx : Nat
  cell : Nat
  group : Nat
  thread : Nat
  deriving DecidableEq, Repr, Inhabited

/-- The common fields of an instruction word (R107, Table 4.1), MAJOR aside. -/
structure Common where
  gen : Bool
  gneg : Bool
  gp : Fin 8
  tag : BitVec 12
  deriving DecidableEq, Repr, Inhabited

/-- The operands of an R-format word (Table 4.2). -/
structure RArgs where
  dst : Fin 32
  a : Fin 32
  b : Fin 32
  c : Fin 32
  minor : Fin 16
  deriving DecidableEq, Repr, Inhabited

/-- The operands of an I-format word (Table 4.2). -/
structure IArgs where
  dst : Fin 32
  a : Fin 32
  minor : Fin 16
  imm : BitVec 25
  deriving DecidableEq, Repr, Inhabited

/-- The operands of an L-format word (Table 4.2). -/
structure LArgs where
  dst : Fin 32
  imm32 : BitVec 32
  deriving DecidableEq, Repr, Inhabited

/-- The operands of a C-format word (Table 4.2). -/
structure CArgs where
  a : Fin 32
  ci : Bool
  imm16 : BitVec 16
  target : BitVec 14
  deriving DecidableEq, Repr, Inhabited

/-- The operands of a V-format word (Table 4.2). -/
structure VArgs where
  vd : Fin 32
  va : Fin 32
  vb : Fin 32
  vc : Fin 32
  me : Bool
  vm : Fin 32
  minor : Fin 16
  deriving DecidableEq, Repr, Inhabited

/-- The operands of an A-format word (Table 4.2). -/
structure AArgs where
  data : Fin 32
  areg : Fin 32
  win : BitVec 8
  minor : Fin 16
  disp : BitVec 17
  deriving DecidableEq, Repr, Inhabited

/-- The operands of an M-format word (Table 4.2). -/
structure MArgs where
  dc : Fin 16
  da : Fin 16
  db : Fin 16
  xae : Bool
  xa : Fin 8
  xce : Bool
  xc : Fin 8
  rig : Fin 8
  fmta : Fin 8
  fmtb : Fin 8
  ta : Bool
  tb : Bool
  acc : Bool
  spa : Fin 4
  spb : Fin 4
  skip : Bool
  deriving DecidableEq, Repr, Inhabited

/-- The operands of a T-format word (Table 4.2). -/
structure TArgs where
  d1 : Fin 16
  d2 : Fin 16
  xe1 : Bool
  x1 : Fin 8
  xe2 : Bool
  x2 : Fin 8
  sreg : Fin 32
  minor : Fin 16
  deriving DecidableEq, Repr, Inhabited

/-- A destination resource that lends credits (R54, R56, Table 2.2). -/
inductive Resource where
  /-- service credits of one T1 bank of a physical region (or of the standby that is a ballast slot) -/
  | bank (phys bank : Nat)
  /-- service credits of one channel of one stack, for reads or for writes (R364) -/
  | channel (stack chan : Nat) (write : Bool)
  /-- T0 port slots of one cell of a physical region -/
  | t0port (phys cell : Nat)
  /-- egress space of the Bridle port of a physical region -/
  | egress (phys : Nat)
  /-- ingress space of the Bridle port of a physical region -/
  | ingress (phys : Nat)
  /-- one direction of one of the five Bridle ports of a link die (R21, R57): `out` from the die onto the Bridle -/
  | linkDie (die port : Nat) (out : Bool)
  /-- flit credits of a device-link port, toward the peer -/
  | flits (port : Nat)
  /-- flit credits of a device-link port, from the peer -/
  | rxFlits (port : Nat)
  /-- credits of the peer's own path, lent to the sending link die -/
  | peer (device : Nat)
  /-- PCIe transmit credits of a port -/
  | pcie (port : Nat)
  /-- signal slots of the watch unit of one cell of a physical region -/
  | cellSignal (phys cell : Nat)
  /-- signal slots of the watch directory of a physical region -/
  | regionSignal (phys : Nat)
  /-- response slots at a requester: a cell of a logical region, or the region's units -/
  | respSlot (region : Nat) (cell : Option Nat)
  /-- inbox credits of 64 KiB of a region's gather inbox (R212) -/
  | gatherInbox (region : Nat)
  /-- inbox credits of 16 KiB of a region's reduction inbox (R318) -/
  | reduceInbox (region : Nat)
  deriving DecidableEq, Repr, Inhabited

/-- An admission point that keeps a ledger (R50): the admission unit at a region's Bridle port, a cell for T0 of its
own block, or a link die that admits for a peer. -/
inductive AdmPoint where
  | region (logical : Nat)
  | cell (logical cell : Nat)
  | linkDie (die : Nat)
  deriving DecidableEq, Repr, Inhabited

/-- The header of an owner batch (Table 7.6). -/
structure BatchHeader where
  op : Nat
  table : Nat
  version : Nat
  epoch : Nat
  source : Nat
  fwd : Bool
  job : Nat
  reply : Nat
  dstride : Nat
  arrive : Nat
  deriving DecidableEq, Repr, Inhabited

/-- An owner batch as it arrives in an inbox (R211): its header, its entries (row, DEST) and its payload rows. -/
structure OwnerBatch where
  hdr : BatchHeader
  entries : List (Nat × Nat)
  payload : List (List Byte)
  deriving DecidableEq, Repr, Inhabited

/-- A reduction packet (Table 11.4) with its payload bytes. -/
structure Packet where
  op : Nat
  last : Bool
  flag : Bool
  ch : Nat
  count : Nat
  seq : Nat
  job : Nat
  sender : Nat
  topk : Nat
  group : Nat
  elems : Nat
  first : Nat
  contrib : Nat
  owners : Nat
  payload : List Byte
  deriving DecidableEq, Repr, Inhabited

/-- A staged move of a hot row, chosen by the balancer (R215): the firmware's choice is an operand. -/
structure RowMove where
  table : Nat
  row : Nat
  newOwner : Nat
  newSlot : Nat
  deriving DecidableEq, Repr, Inhabited

/-- The 16-byte operation header of a data flit (Table 14.6). -/
structure OpHeader where
  op : Nat
  fn : Nat
  tag : Nat
  len : Nat
  space : Nat
  inner : Nat
  minor : Nat
  poison : Bool
  deriving DecidableEq, Repr, Inhabited

/-- A lift report (Table 17.5). -/
structure LiftReport where
  device : Nat
  group : Nat
  outcomes : Nat
  tOutcome : Nat
  wait : Nat
  cap : Nat
  offset : Int
  deriving DecidableEq, Repr, Inhabited

/-- What the sensors and activity counts of one control interval give the Burner of one physical region (R467 to R475). -/
structure BurnerInput where
  /-- hottest junction sensor, degrees Celsius -/
  tj : Int
  /-- the rail the regulator reports, mV -/
  railMv : Nat
  /-- windowed pace of the last window, M beats/s (R70) -/
  paceNow : Nat
  /-- lowest windowed pace of the interval, M beats/s (R70) -/
  paceMin : Nat
  deriving DecidableEq, Repr, Inhabited

/-- Where an uncorrectable word lies (R376, log code 0x0E of Table 16.3). -/
inductive ErrorPlace where
  | t0 (addr : Nat)
  | instrMem (region cell : Nat)
  | t1 (addr : Nat)
  | t2 (addr : Nat)
  | cellPath (region cell : Nat)
  | regionPath (region : Nat)
  deriving DecidableEq, Repr, Inhabited

/-- The unit whose handshake is not answered (R435). -/
inductive TimeoutUnit where
  | cell (region cell : Nat)
  | regionUnit (region : Nat)
  deriving DecidableEq, Repr, Inhabited

/-- A management message over I3C (R407, Table 14.10). -/
inductive MctpRequest where
  | control
  | pldm
  | spdmMeasurements
  | holdStatus
  | wiringFaults
  | regionMap
  | lifetimeRecord
  /-- SETDASA and ENTDAA: the bus controller gives the target its dynamic address -/
  | setdasa (addr : Nat)
  | entdaa (addr : Nat)
  deriving DecidableEq, Repr, Inhabited

/-- An IEEE 1149.1 instruction loaded into the TAP (R493). -/
inductive TapOp where
  | bypass
  | idcode
  | samplePreload
  | extest
  | extestPulse
  deriving DecidableEq, Repr, Inhabited

/-- A PCIe configuration request, and the host port that it comes by (R401, R402, R404 to R406). -/
inductive ConfigOp where
  | read (port offset : Nat)
  | readSerial (port : Nat)
  | readAer (port : Nat)
  | clearAer (port mask : Nat)
  | setBusMaster (port : Nat) (on : Bool)
  | setVfEnable (port : Nat) (on : Bool)
  | setCompletionTimeout (port ns : Nat)
  deriving DecidableEq, Repr, Inhabited

/-- How the voters of the quorum stand on an action (R32, R448): the Keels that agree, and those that fail the
self-check which a disagreement starts. -/
structure Votes where
  agree : List Nat
  failing : List Nat
  deriving DecidableEq, Repr, Inhabited

/-- The commands of the device, one constructor per row of spec/opcode_table.json, in the table's order. -/
inductive Instr where
  | nop (t : ThreadId) (k : Common) (o : CArgs)
  | br (t : ThreadId) (k : Common) (o : CArgs)
  | loop (t : ThreadId) (k : Common) (o : CArgs)
  | lrd (t : ThreadId) (k : Common) (o : IArgs)
  | halt (t : ThreadId) (k : Common) (o : CArgs)
  | add (t : ThreadId) (k : Common) (o : RArgs)
  | sub (t : ThreadId) (k : Common) (o : RArgs)
  | mul (t : ThreadId) (k : Common) (o : RArgs)
  | mulhu (t : ThreadId) (k : Common) (o : RArgs)
  | mulhs (t : ThreadId) (k : Common) (o : RArgs)
  | divu (t : ThreadId) (k : Common) (o : RArgs)
  | remu (t : ThreadId) (k : Common) (o : RArgs)
  | divs (t : ThreadId) (k : Common) (o : RArgs)
  | rems (t : ThreadId) (k : Common) (o : RArgs)
  | and (t : ThreadId) (k : Common) (o : RArgs)
  | or (t : ThreadId) (k : Common) (o : RArgs)
  | xor (t : ThreadId) (k : Common) (o : RArgs)
  | shl (t : ThreadId) (k : Common) (o : RArgs)
  | shr (t : ThreadId) (k : Common) (o : RArgs)
  | sra (t : ThreadId) (k : Common) (o : RArgs)
  | minmax (t : ThreadId) (k : Common) (o : RArgs)
  | addi (t : ThreadId) (k : Common) (o : IArgs)
  | andi (t : ThreadId) (k : Common) (o : IArgs)
  | ori (t : ThreadId) (k : Common) (o : IArgs)
  | xori (t : ThreadId) (k : Common) (o : IArgs)
  | shifti (t : ThreadId) (k : Common) (o : IArgs)
  | movi (t : ThreadId) (k : Common) (o : LArgs)
  | cmp (t : ThreadId) (k : Common) (o : RArgs)
  | cmpi (t : ThreadId) (k : Common) (o : IArgs)
  | sel (t : ThreadId) (k : Common) (o : RArgs)
  | plog (t : ThreadId) (k : Common) (o : RArgs)
  | fadd (t : ThreadId) (k : Common) (o : RArgs)
  | fmul (t : ThreadId) (k : Common) (o : RArgs)
  | ffma (t : ThreadId) (k : Common) (o : RArgs)
  | fminmax (t : ThreadId) (k : Common) (o : RArgs)
  | fcmp (t : ThreadId) (k : Common) (o : RArgs)
  | fcvt (t : ThreadId) (k : Common) (o : RArgs)
  | vadd (t : ThreadId) (k : Common) (o : VArgs)
  | vsub (t : ThreadId) (k : Common) (o : VArgs)
  | vmul (t : ThreadId) (k : Common) (o : VArgs)
  | vfma (t : ThreadId) (k : Common) (o : VArgs)
  | vmin (t : ThreadId) (k : Common) (o : VArgs)
  | vmax (t : ThreadId) (k : Common) (o : VArgs)
  | vcmp (t : ThreadId) (k : Common) (o : VArgs)
  | vsel (t : ThreadId) (k : Common) (o : VArgs)
  | vexp2 (t : ThreadId) (k : Common) (o : VArgs)
  | vrcp (t : ThreadId) (k : Common) (o : VArgs)
  | vrsq (t : ThreadId) (k : Common) (o : VArgs)
  | viadd (t : ThreadId) (k : Common) (o : VArgs)
  | visub (t : ThreadId) (k : Common) (o : VArgs)
  | vimul (t : ThreadId) (k : Common) (o : VArgs)
  | vlogic (t : ThreadId) (k : Common) (o : VArgs)
  | vrsum (t : ThreadId) (k : Common) (o : VArgs)
  | vrmax (t : ThreadId) (k : Common) (o : VArgs)
  | vperm (t : ThreadId) (k : Common) (o : VArgs)
  | vbcast (t : ThreadId) (k : Common) (o : VArgs)
  | vext (t : ThreadId) (k : Common) (o : VArgs)
  | vflag (t : ThreadId) (k : Common) (o : VArgs)
  | vmov (t : ThreadId) (k : Common) (o : VArgs)
  | vcvt (t : ThreadId) (k : Common) (o : VArgs)
  | vmaxabs (t : ThreadId) (k : Common) (o : VArgs)
  | mma (t : ThreadId) (k : Common) (o : MArgs)
  | twait (t : ThreadId) (k : Common) (o : IArgs)
  | ld (t : ThreadId) (k : Common) (o : AArgs)
  | st (t : ThreadId) (k : Common) (o : AArgs)
  | vld (t : ThreadId) (k : Common) (o : AArgs)
  | vst (t : ThreadId) (k : Common) (o : AArgs)
  | atom (t : ThreadId) (k : Common) (o : AArgs)
  | atomp (t : ThreadId) (k : Common) (o : AArgs)
  | fence (t : ThreadId) (k : Common) (o : AArgs)
  | tcopy (t : ThreadId) (k : Common) (o : TArgs)
  | tscadd (t : ThreadId) (k : Common) (o : TArgs)
  | tmaxabs (t : ThreadId) (k : Common) (o : TArgs)
  | sig (t : ThreadId) (k : Common) (o : AArgs)
  | sigw (t : ThreadId) (k : Common) (o : AArgs)
  | watch (t : ThreadId) (k : Common) (o : AArgs)
  | unwatch (t : ThreadId) (k : Common) (o : IArgs)
  | park (t : ThreadId) (k : Common) (o : IArgs)
  | take (t : ThreadId) (k : Common) (o : IArgs)
  | token (t : ThreadId) (k : Common) (o : RArgs)
  | delay (t : ThreadId) (k : Common) (o : RArgs)
  | time (t : ThreadId) (k : Common) (o : IArgs)
  | reel (t : ThreadId) (k : Common) (o : AArgs)
  | dld (t : ThreadId) (k : Common) (o : AArgs)
  | dstr (t : ThreadId) (k : Common) (o : AArgs)
  | dsetw (t : ThreadId) (k : Common) (o : IArgs)
  | dgetw (t : ThreadId) (k : Common) (o : IArgs)
  | breakStopDone (ctx : Nat)
  | requestAcceptance (req : Nat)
  | lendingRequest (led : AdmPoint) (res : Resource) (n : Nat)
  | creditGiveBack (led : AdmPoint) (res : Resource)
  | transferAcceptance (xfer : Nat)
  | requestPerform (req : Nat)
  /-- `resp` and `poison` are the response of a peer device, for a request performed there. -/
  | requestCompletion (req : Nat) (resp : List Byte) (poison : Bool)
  | signalPerform (req : Nat)
  | watchAck (req : Nat)
  | wakeNotification (t : ThreadId)
  | tokenPerform (req : Nat)
  | waitingFiringPlaced (region : Nat)
  | delayTick (region : Nat)
  | reelJobAccept (region reel : Nat)
  | reelJobComplete (region reel : Nat)
  | gatherRecordRead (ctx region : Nat)
  | gather (region job : Nat)
  | scatterAdd (region job : Nat)
  | write (region job : Nat)
  | loftFill (region job : Nat)
  | ownerBatch (region : Nat) (b : OwnerBatch)
  | gatherJobComplete (region job : Nat)
  | rowHandover (table row : Nat)
  /-- `rowData`, `accData`: the copied row and accumulator, when the old owner is a peer device. -/
  | handoverCopyDone (table row : Nat) (rowData accData : List Byte)
  /-- `peersClear`: no pin on any peer device holds an older epoch. -/
  | forwardEntryFree (table row : Nat) (peersClear : Bool)
  | balancerRead (moves : List RowMove)
  | mmaGrant (op : Nat)
  | mmaComplete (op : Nat)
  | tensorOpComplete (op : Nat)
  | reduce (ctx region : Nat)
  | outcome (ctx region : Nat)
  | grant (region : Nat) (p : Packet)
  | max (region : Nat) (p : Packet)
  | exp (region : Nat) (p : Packet)
  | data (region : Nat) (p : Packet)
  | outcomePacket (region : Nat) (p : Packet)
  | abort (region : Nat) (p : Packet)
  | reduceDisableDeadline (region job : Nat)
  | batchSteering (ctx : Nat) (recordAddr : Nat)
  | stage (ctx region : Nat)
  | winchCopy (ctx region : Nat)
  | winchRelease (ctx region : Nat)
  | winchEntryComplete (region entry : Nat)
  | objectRemapBoundary
  | nopCommand (cmd : Nat)
  | create (cmd : Nat)
  | destroy (cmd : Nat)
  | load (cmd : Nat)
  | start (cmd : Nat)
  | pause (cmd : Nat)
  | resume (cmd : Nat)
  | disable (cmd : Nat)
  | disableForce (cmd : Nat)
  | drainComplete (ctx : Nat)
  | allocT2Frames (cmd : Nat)
  | allocPinnedT1 (cmd : Nat)
  | allocObject (cmd : Nat)
  | free (cmd : Nat)
  | window (cmd : Nat)
  | apply (cmd : Nat)
  | publish (cmd : Nat)
  | lend (cmd : Nat)
  | returnFrames (cmd : Nat)
  | copy (cmd : Nat)
  | balance (cmd : Nat)
  | selfTest (cmd : Nat)
  | calibration (cmd : Nat)
  | exchange (cmd : Nat)
  | checkpoint (cmd : Nat)
  | restore (cmd : Nat)
  | addendum (cmd : Nat)
  | commandAccept (fn queue : Nat) (v : Votes)
  | commandCompletion (cmd : Nat)
  | completionPost (fn queue : Nat)
  /-- `host`: the bytes the host has written into its own memory before this doorbell (address, byte). -/
  | sqTail (fn queue : Nat) (value : Word) (port : Nat) (host : List (Nat × Byte))
  | cqHead (fn queue : Nat) (value : Word) (port : Nat)
  | qctl (fn queue : Nat) (value : DWord)
  /-- a write of the bytes `be` of the 8-byte slot at offset `off` of the function's BAR0 -/
  | registerWrite (fn off : Nat) (value : DWord) (be : BitVec 8)
  | groupVote (device group boundary : Nat) (pass : Bool)
  | groupVoteDeadline (fn : Nat)
  | stagedApplyBoundary (fn : Nat)
  | portDrain (port : Nat)
  | laneWithdraw (port : Nat)
  | freeLendTakeEffect
  | loftHalfActivate
  | regionMapApply
  | epochPulse
  | epochEdge
  | epochMasterTakeover
  | burnerControlInterval (regions : List (Nat × BurnerInput)) (linkW : Nat) (linkTj : Int)
  | railRise (region : Nat)
  | liftFlit (crcOk : Bool) (r : LiftReport)
  | liftOffsetApply
  | portBringup (port : Nat) (lanes : BitVec 9)
  | identityFlit (port device peerPort : Nat) (serial : DWord)
  | dataFlit (port seq ack credits : Nat) (crcOk : Bool) (ops : List (OpHeader × List Byte))
  | nak (port ack : Nat) (crcOk : Bool)
  | idleFlit (port ack credits : Nat) (crcOk : Bool)
  | timeFlit (port boundary : Nat) (crcOk : Bool)
  | laneChangeFlit (port lane : Nat) (crcOk : Bool)
  | linkRetrain (port : Nat)
  | laneFailure (port lane : Nat)
  | remoteOperationReceive (port : Nat) (h : OpHeader) (payload : List Byte)
  | peerLoss (device : Nat)
  | pcieLinkDown (port : Nat)
  | perstDeassert (port : Nat)
  | perstAssert (port : Nat)
  | functionLevelReset (fn : Nat)
  | completionTimeout (req : Nat)
  | mctpMessage (m : MctpRequest)
  | tapInstruction (op : TapOp)
  | vaonValid (straps : Fin 8)
  /-- the outcomes of the power-on self-checks: failing Keels, failing physical regions -/
  | powerGoodRise (keelFail regionFail : List Nat)
  | corePgLoss (phys : Nat)
  | sharedPgLoss
  | trefLoss
  | lrefclkLoss (die : Nat)
  | prefclkLoss (port : Nat)
  | handshakeTimeout (u : TimeoutUnit)
  | uncorrectableError (p : ErrorPlace)
  | cellRetire (region cell : Nat)
  /-- `lost`: some copied word of thread, group, vector, descriptor, matching-entry or watch state is poisoned, or the
  state cannot be read (R440); `poisonT0`: T0 words copied as poisoned -/
  | spareSplice (region cell : Nat) (lost : Bool) (poisonT0 : List Nat)
  | regionMigration (phys : Nat)
  | migrationCopyDone (region : Nat) (poisoned : List Nat)
  | regionFailure (phys : Nat)
  | serviceActionDone (phys : Nat) (passed : Bool)
  /-- the Keels whose heartbeat was not seen in this period, and those voted against by two others on an action -/
  | keelHeartbeat (missing against : List Nat)
  | keelStandbyJoin
  | keelRotation (passed : Bool)
  /-- a scrub of the word (or T2 granule) at `addr`: 0 clean, 1 corrected, 2 uncorrectable -/
  | patrolScrub (place : ErrorPlace) (flips : Nat)
  | lifetimeWrite (ok : Bool)
  | lifetimeWriteRetry (ok : Bool)
  | retirementListAppend
  | keelPeriodicSelfCheck (keel : Nat) (passed : Bool)
  | trefReturn
  | vaonLoss
  | configurationRequest (fn : Nat) (op : ConfigOp)
  deriving DecidableEq, Repr

end Sys2Proof
end

