-- ==== Sys2Proof/WellFormed.lean ====
section
/-! DEFINITION. Which instruction words are statically legal (R108, R109, R111), judged on the fields of the word alone.
The rules that need the whole code section (targets, loop bodies) stand with LOAD. A command that is no thread
instruction has no word, and is well formed. -/

namespace Sys2Proof

/-- When GEN is 0, GNEG and GP are zero (R108). -/
def Common.ok (k : Common) : Bool := k.gen || (!k.gneg && k.gp.val == 0)

/-- Every operand field of a C-format word is unused. -/
def CArgs.none (o : CArgs) : Bool := o.a.val == 0 && !o.ci && o.imm16 == 0 && o.target == 0

/-- DST, A and B are used, C and MINOR are not. -/
def RArgs.two (o : RArgs) : Bool := o.c.val == 0 && o.minor.val == 0

/-- Only the even pairs A and B are used. -/
def RArgs.pairs (o : RArgs) : Bool :=
  o.dst.val == 0 && o.c.val == 0 && o.minor.val == 0 && o.a.val % 2 == 0 && o.b.val % 2 == 0

/-- PLOG: p registers only; the variants that set a constant use neither A nor B. -/
def RArgs.plog (o : RArgs) : Bool :=
  decide (o.dst.val ≤ 7) && o.c.val == 0 &&
    (if o.minor.val ≤ 3 then decide (o.a.val ≤ 7 ∧ o.b.val ≤ 7)
     else decide (o.minor.val ≤ 5) && o.a.val == 0 && o.b.val == 0)

/-- VA and VB are used, VC and MINOR are not. -/
def VArgs.ab (o : VArgs) : Bool := o.vc.val == 0 && o.minor.val == 0

/-- VA alone is used. -/
def VArgs.aOnly (o : VArgs) : Bool := o.vb.val == 0 && o.vc.val == 0 && o.minor.val == 0

/-- AREG is even (R111). -/
def AArgs.even (o : AArgs) : Bool := o.areg.val % 2 == 0

/-- The operations of Table 4.4; the pair operations name an even register. -/
def AArgs.atomMinor (o : AArgs) : Bool :=
  decide (o.minor.val ≤ 10) && ((o.minor.val != 1 && o.minor.val != 10) || o.data.val % 2 == 0)

/-- An index descriptor that is not used is named 0. -/
def TArgs.indexed (o : TArgs) : Bool := (o.xe1 || o.x1.val == 0) && (o.xe2 || o.x2.val == 0)

/-- The permitted pairs of product formats (R134, Table 4.7). -/
def fmtPair (a b : Nat) : Bool :=
  (a == 0 && b == 0) || (a == 1 && b == 1) || ((a == 2 || a == 3) && (b == 2 || b == 3)) ||
    ((a == 4 || a == 5) && (b == 4 || b == 5)) || (a == 6 && b == 6)

/-- The rules for MMA (R111). -/
def MArgs.legal (o : MArgs) : Bool :=
  decide (o.rig.val ≤ 4) && fmtPair o.fmta.val o.fmtb.val && !(o.xae && o.ta) && o.spa.val != 3 && o.spb.val != 3 &&
    (o.xae || o.xa.val == 0) && (o.xce || o.xc.val == 0)

/-- The format codes VCVT accepts (R282). -/
def vcvtCode (c : Nat) : Bool := decide (c ≤ 9) || c == 0x0C || c == 0x0D

/-- Static legality of a word's own fields. -/
def Instr.wf : Instr → Bool
  | .nop _ k o => k.ok && (o.none)
  | .br _ k o => k.ok && (o.a.val == 0 && !o.ci && o.imm16 == 0)
  | .loop _ k o => k.ok && ((if o.ci then o.a.val == 0 else o.imm16 == 0))
  | .lrd _ k o => k.ok && (o.a.val == 0 && decide (o.minor.val ≤ 1) && decide (o.imm.toNat ≤ 3))
  | .halt _ k o => k.ok && (o.none)
  | .add _ k o => k.ok && (o.two)
  | .sub _ k o => k.ok && (o.two)
  | .mul _ k o => k.ok && (o.two)
  | .mulhu _ k o => k.ok && (o.two)
  | .mulhs _ k o => k.ok && (o.two)
  | .divu _ k o => k.ok && (o.two)
  | .remu _ k o => k.ok && (o.two)
  | .divs _ k o => k.ok && (o.two)
  | .rems _ k o => k.ok && (o.two)
  | .and _ k o => k.ok && (o.two)
  | .or _ k o => k.ok && (o.two)
  | .xor _ k o => k.ok && (o.two)
  | .shl _ k o => k.ok && (o.two)
  | .shr _ k o => k.ok && (o.two)
  | .sra _ k o => k.ok && (o.two)
  | .minmax _ k o => k.ok && (o.c.val == 0 && decide (o.minor.val ≤ 3))
  | .addi _ k o => k.ok && (o.minor.val == 0)
  | .andi _ k o => k.ok && (o.minor.val == 0)
  | .ori _ k o => k.ok && (o.minor.val == 0)
  | .xori _ k o => k.ok && (o.minor.val == 0)
  | .shifti _ k o => k.ok && (decide (o.minor.val ≤ 2) && decide (o.imm.toNat ≤ 31))
  | .movi _ k _ => k.ok
  | .cmp _ k o => k.ok && (decide (o.dst.val ≤ 7) && o.c.val == 0 && decide (o.minor.val ≤ 5))
  | .cmpi _ k o => k.ok && (decide (o.dst.val ≤ 7) && decide (o.minor.val ≤ 5))
  | .sel _ k o => k.ok && (decide (o.c.val ≤ 7) && o.minor.val == 0)
  | .plog _ k o => k.ok && (o.plog)
  | .fadd _ k o => k.ok && (o.two)
  | .fmul _ k o => k.ok && (o.two)
  | .ffma _ k o => k.ok && (o.minor.val == 0)
  | .fminmax _ k o => k.ok && (o.c.val == 0 && decide (o.minor.val ≤ 1))
  | .fcmp _ k o => k.ok && (decide (o.dst.val ≤ 7) && o.c.val == 0 && decide (o.minor.val ≤ 3))
  | .fcvt _ k o => k.ok && (o.b.val == 0 && o.c.val == 0 && decide (o.minor.val ≤ 3))
  | .vadd _ k o => k.ok && (o.ab)
  | .vsub _ k o => k.ok && (o.ab)
  | .vmul _ k o => k.ok && (o.ab)
  | .vfma _ k o => k.ok && (o.minor.val == 0)
  | .vmin _ k o => k.ok && (o.ab)
  | .vmax _ k o => k.ok && (o.ab)
  | .vcmp _ k o => k.ok && (o.vc.val == 0 && decide (o.minor.val ≤ 3))
  | .vsel _ k o => k.ok && (o.minor.val == 0)
  | .vexp2 _ k o => k.ok && (o.aOnly)
  | .vrcp _ k o => k.ok && (o.aOnly)
  | .vrsq _ k o => k.ok && (o.aOnly)
  | .viadd _ k o => k.ok && (o.vc.val == 0 && decide (o.minor.val ≤ 1))
  | .visub _ k o => k.ok && (o.vc.val == 0 && decide (o.minor.val ≤ 1))
  | .vimul _ k o => k.ok && (o.ab)
  | .vlogic _ k o => k.ok && (o.vc.val == 0 && decide (o.minor.val ≤ 5))
  | .vrsum _ k o => k.ok && (o.aOnly)
  | .vrmax _ k o => k.ok && (o.aOnly)
  | .vperm _ k o => k.ok && (o.ab)
  | .vbcast _ k o => k.ok && (o.aOnly)
  | .vext _ k o => k.ok && (o.ab)
  | .vflag _ k o => k.ok && (o.aOnly && o.va.val == 0 && !o.me && o.vm.val == 0)
  | .vmov _ k o => k.ok && (o.aOnly)
  | .mma _ k o => k.ok && (o.legal)
  | .twait _ k o => k.ok && (o.dst.val == 0 && o.a.val == 0 && o.minor.val == 0 && decide (o.imm.toNat ≤ 8))
  | .ld _ k o => k.ok && (o.even && decide (o.minor.val ≤ 5) && (o.minor.val != 3 || o.data.val % 2 == 0))
  | .st _ k o => k.ok && (o.even && decide (o.minor.val ≤ 3) && (o.minor.val != 3 || o.data.val % 2 == 0))
  | .vld _ k o => k.ok && (o.even && o.minor.val == 0)
  | .vst _ k o => k.ok && (o.even && o.minor.val == 0)
  | .atom _ k o => k.ok && (o.even && o.atomMinor)
  | .atomp _ k o => k.ok && (o.even && o.atomMinor)
  | .fence _ k o => k.ok && (o.data.val == 0 && o.areg.val == 0 && o.win == 0 && o.minor.val == 0 && o.disp == 0)
  | .tcopy _ k o => k.ok && (o.indexed && decide (o.minor.val ≤ 1) && (o.minor.val == 1 || o.sreg.val == 0))
  | .tscadd _ k o => k.ok && (o.indexed && decide (o.minor.val ≤ 1) && (o.minor.val == 1 || o.sreg.val == 0))
  | .tmaxabs _ k o => k.ok && (o.indexed && o.minor.val == 0 && o.d1.val == 0 && !o.xe1)
  | .sig _ k o => k.ok && (o.even && decide (o.minor.val ≤ 2))
  | .sigw _ k o => k.ok && (o.even && decide (o.minor.val ≤ 2))
  | .watch _ k o => k.ok && (o.even && o.minor.val == 0 && decide (o.data.val ≤ 15))
  | .unwatch _ k o => k.ok && (o.dst.val == 0 && o.a.val == 0 && o.minor.val == 0 && decide (o.imm.toNat ≤ 15))
  | .park _ k o => k.ok && (o.a.val == 0 && o.minor.val == 0 && o.imm == 0)
  | .take _ k o => k.ok && (o.dst.val % 2 == 0 && o.a.val == 0 && o.imm == 0)
  | .token _ k o => k.ok && (o.pairs)
  | .delay _ k o => k.ok && (o.pairs)
  | .time _ k o => k.ok && (o.dst.val % 2 == 0 && o.a.val == 0 && o.minor.val == 0 && o.imm == 0)
  | .reel _ k o => k.ok && (o.even && (decide (o.minor.val ≤ 3) || o.minor.val == 15))
  | .vcvt _ k o => k.ok && (vcvtCode o.vb.val && vcvtCode o.vc.val && decide (o.minor.val ≤ 1))
  | .vmaxabs _ k o => k.ok && (o.aOnly)
  | .dld _ k o => k.ok && (o.even && decide (o.minor.val ≤ 1) && decide (o.data.val ≤ (if o.minor.val == 0 then 15 else 7)))
  | .dstr _ k o => k.ok && (o.even && decide (o.minor.val ≤ 1) && decide (o.data.val ≤ (if o.minor.val == 0 then 15 else 7)))
  | .dsetw _ k o => k.ok && (decide (o.minor.val ≤ 1) && decide (o.dst.val ≤ (if o.minor.val == 0 then 15 else 7)) && decide (o.imm.toNat ≤ 15))
  | .dgetw _ k o => k.ok && (decide (o.minor.val ≤ 1) && decide (o.a.val ≤ (if o.minor.val == 0 then 15 else 7)) && decide (o.imm.toNat ≤ 15))
  | _ => true

end Sys2Proof
end

