-- ==== Sys2Proof/Decode.lean ====
section
/-! DEFINITION. The table gives no row any bits, so no word spells a command by the table (log entry 7). The words of the
thread instructions have an encoding in the spec all the same (R107 to R110): the decoder and encoder of those words
stand here, and LOAD judges a code section with them. -/

namespace Sys2Proof

/-- The command that a word spells by the bits of spec/opcode_table.json: no row of the table gives bits. -/
def decodeTableWord (_nbits _w : Nat) : Option Instr := none

/-! ### Fields of an instruction word (Tables 4.1 and 4.2), the word read as a number -/

/-- The bits [hi:lo] of a word. -/
def wordBits (w hi lo : Nat) : Nat := (w / 2 ^ lo) % 2 ^ (hi + 1 - lo)

/-- One bit of a word. -/
def wordBit (w n : Nat) : Bool := wordBits w n n == 1

def getFin (n : Nat) [NeZero n] (w hi lo : Nat) : Fin n := Fin.ofNat n (wordBits w hi lo)

def getCommon (w : Nat) : Common :=
  { gen := wordBit w 55, gneg := wordBit w 54, gp := getFin 8 w 53 51, tag := BitVec.ofNat 12 w }

def getR (w : Nat) : RArgs :=
  { dst := getFin 32 w 50 46, a := getFin 32 w 45 41, b := getFin 32 w 40 36, c := getFin 32 w 35 31,
    minor := getFin 16 w 30 27 }

def getI (w : Nat) : IArgs :=
  { dst := getFin 32 w 50 46, a := getFin 32 w 45 41, minor := getFin 16 w 40 37,
    imm := BitVec.ofNat 25 (wordBits w 36 12) }

def getL (w : Nat) : LArgs := { dst := getFin 32 w 50 46, imm32 := BitVec.ofNat 32 (wordBits w 43 12) }

def getC (w : Nat) : CArgs :=
  { a := getFin 32 w 50 46, ci := wordBit w 45, imm16 := BitVec.ofNat 16 (wordBits w 44 29),
    target := BitVec.ofNat 14 (wordBits w 27 14) }

def getV (w : Nat) : VArgs :=
  { vd := getFin 32 w 50 46, va := getFin 32 w 45 41, vb := getFin 32 w 40 36, vc := getFin 32 w 35 31,
    me := wordBit w 30, vm := getFin 32 w 29 25, minor := getFin 16 w 24 21 }

def getA (w : Nat) : AArgs :=
  { data := getFin 32 w 50 46, areg := getFin 32 w 45 41, win := BitVec.ofNat 8 (wordBits w 40 33),
    minor := getFin 16 w 32 29, disp := BitVec.ofNat 17 (wordBits w 28 12) }

def getM (w : Nat) : MArgs :=
  { dc := getFin 16 w 50 47, da := getFin 16 w 46 43, db := getFin 16 w 42 39, xae := wordBit w 38,
    xa := getFin 8 w 37 35, xce := wordBit w 34, xc := getFin 8 w 33 31, rig := getFin 8 w 30 28,
    fmta := getFin 8 w 27 25, fmtb := getFin 8 w 24 22, ta := wordBit w 21, tb := wordBit w 20, acc := wordBit w 19,
    spa := getFin 4 w 18 17, spb := getFin 4 w 16 15, skip := wordBit w 14 }

def getT (w : Nat) : TArgs :=
  { d1 := getFin 16 w 50 47, d2 := getFin 16 w 46 43, xe1 := wordBit w 42, x1 := getFin 8 w 41 39,
    xe2 := wordBit w 38, x2 := getFin 8 w 37 35, sreg := getFin 32 w 34 30, minor := getFin 16 w 29 26 }

/-! ### The encoder: the same fields put in their places -/

def putBit (b : Bool) (n : Nat) : Nat := if b then 2 ^ n else 0

def putCommon (major : Nat) (k : Common) : Nat :=
  major * 2 ^ 56 + putBit k.gen 55 + putBit k.gneg 54 + k.gp.val * 2 ^ 51 + k.tag.toNat

def putR (o : RArgs) : Nat :=
  o.dst.val * 2 ^ 46 + o.a.val * 2 ^ 41 + o.b.val * 2 ^ 36 + o.c.val * 2 ^ 31 + o.minor.val * 2 ^ 27

def putI (o : IArgs) : Nat :=
  o.dst.val * 2 ^ 46 + o.a.val * 2 ^ 41 + o.minor.val * 2 ^ 37 + o.imm.toNat * 2 ^ 12

def putL (o : LArgs) : Nat := o.dst.val * 2 ^ 46 + o.imm32.toNat * 2 ^ 12

def putC (o : CArgs) : Nat :=
  o.a.val * 2 ^ 46 + putBit o.ci 45 + o.imm16.toNat * 2 ^ 29 + o.target.toNat * 2 ^ 14

def putV (o : VArgs) : Nat :=
  o.vd.val * 2 ^ 46 + o.va.val * 2 ^ 41 + o.vb.val * 2 ^ 36 + o.vc.val * 2 ^ 31 + putBit o.me 30 + o.vm.val * 2 ^ 25 +
    o.minor.val * 2 ^ 21

def putA (o : AArgs) : Nat :=
  o.data.val * 2 ^ 46 + o.areg.val * 2 ^ 41 + o.win.toNat * 2 ^ 33 + o.minor.val * 2 ^ 29 + o.disp.toNat * 2 ^ 12

def putM (o : MArgs) : Nat :=
  o.dc.val * 2 ^ 47 + o.da.val * 2 ^ 43 + o.db.val * 2 ^ 39 + putBit o.xae 38 + o.xa.val * 2 ^ 35 + putBit o.xce 34 +
    o.xc.val * 2 ^ 31 + o.rig.val * 2 ^ 28 + o.fmta.val * 2 ^ 25 + o.fmtb.val * 2 ^ 22 + putBit o.ta 21 +
    putBit o.tb 20 + putBit o.acc 19 + o.spa.val * 2 ^ 17 + o.spb.val * 2 ^ 15 + putBit o.skip 14

def putT (o : TArgs) : Nat :=
  o.d1.val * 2 ^ 47 + o.d2.val * 2 ^ 43 + putBit o.xe1 42 + o.x1.val * 2 ^ 39 + putBit o.xe2 38 + o.x2.val * 2 ^ 35 +
    o.sreg.val * 2 ^ 30 + o.minor.val * 2 ^ 26

/-- The word of a thread instruction (R107 to R110, Table 4.3); no other command has one. -/
def encodeWord : Instr → Option Nat
  | .nop _ k o => some (putCommon 0x00 k + putC o)
  | .br _ k o => some (putCommon 0x01 k + putC o)
  | .loop _ k o => some (putCommon 0x02 k + putC o)
  | .lrd _ k o => some (putCommon 0x03 k + putI o)
  | .halt _ k o => some (putCommon 0x04 k + putC o)
  | .add _ k o => some (putCommon 0x10 k + putR o)
  | .sub _ k o => some (putCommon 0x11 k + putR o)
  | .mul _ k o => some (putCommon 0x12 k + putR o)
  | .mulhu _ k o => some (putCommon 0x13 k + putR o)
  | .mulhs _ k o => some (putCommon 0x14 k + putR o)
  | .divu _ k o => some (putCommon 0x15 k + putR o)
  | .remu _ k o => some (putCommon 0x16 k + putR o)
  | .divs _ k o => some (putCommon 0x17 k + putR o)
  | .rems _ k o => some (putCommon 0x18 k + putR o)
  | .and _ k o => some (putCommon 0x19 k + putR o)
  | .or _ k o => some (putCommon 0x1A k + putR o)
  | .xor _ k o => some (putCommon 0x1B k + putR o)
  | .shl _ k o => some (putCommon 0x1C k + putR o)
  | .shr _ k o => some (putCommon 0x1D k + putR o)
  | .sra _ k o => some (putCommon 0x1E k + putR o)
  | .minmax _ k o => some (putCommon 0x1F k + putR o)
  | .addi _ k o => some (putCommon 0x20 k + putI o)
  | .andi _ k o => some (putCommon 0x21 k + putI o)
  | .ori _ k o => some (putCommon 0x22 k + putI o)
  | .xori _ k o => some (putCommon 0x23 k + putI o)
  | .shifti _ k o => some (putCommon 0x24 k + putI o)
  | .movi _ k o => some (putCommon 0x25 k + putL o)
  | .cmp _ k o => some (putCommon 0x26 k + putR o)
  | .cmpi _ k o => some (putCommon 0x27 k + putI o)
  | .sel _ k o => some (putCommon 0x28 k + putR o)
  | .plog _ k o => some (putCommon 0x29 k + putR o)
  | .fadd _ k o => some (putCommon 0x2A k + putR o)
  | .fmul _ k o => some (putCommon 0x2B k + putR o)
  | .ffma _ k o => some (putCommon 0x2C k + putR o)
  | .fminmax _ k o => some (putCommon 0x2D k + putR o)
  | .fcmp _ k o => some (putCommon 0x2E k + putR o)
  | .fcvt _ k o => some (putCommon 0x2F k + putR o)
  | .vadd _ k o => some (putCommon 0x30 k + putV o)
  | .vsub _ k o => some (putCommon 0x31 k + putV o)
  | .vmul _ k o => some (putCommon 0x32 k + putV o)
  | .vfma _ k o => some (putCommon 0x33 k + putV o)
  | .vmin _ k o => some (putCommon 0x34 k + putV o)
  | .vmax _ k o => some (putCommon 0x35 k + putV o)
  | .vcmp _ k o => some (putCommon 0x36 k + putV o)
  | .vsel _ k o => some (putCommon 0x37 k + putV o)
  | .vexp2 _ k o => some (putCommon 0x38 k + putV o)
  | .vrcp _ k o => some (putCommon 0x39 k + putV o)
  | .vrsq _ k o => some (putCommon 0x3A k + putV o)
  | .viadd _ k o => some (putCommon 0x3B k + putV o)
  | .visub _ k o => some (putCommon 0x3C k + putV o)
  | .vimul _ k o => some (putCommon 0x3D k + putV o)
  | .vlogic _ k o => some (putCommon 0x3E k + putV o)
  | .vrsum _ k o => some (putCommon 0x3F k + putV o)
  | .vrmax _ k o => some (putCommon 0x40 k + putV o)
  | .vperm _ k o => some (putCommon 0x41 k + putV o)
  | .vbcast _ k o => some (putCommon 0x42 k + putV o)
  | .vext _ k o => some (putCommon 0x43 k + putV o)
  | .vflag _ k o => some (putCommon 0x44 k + putV o)
  | .vmov _ k o => some (putCommon 0x45 k + putV o)
  | .mma _ k o => some (putCommon 0x50 k + putM o)
  | .twait _ k o => some (putCommon 0x51 k + putI o)
  | .ld _ k o => some (putCommon 0x60 k + putA o)
  | .st _ k o => some (putCommon 0x61 k + putA o)
  | .vld _ k o => some (putCommon 0x62 k + putA o)
  | .vst _ k o => some (putCommon 0x63 k + putA o)
  | .atom _ k o => some (putCommon 0x64 k + putA o)
  | .atomp _ k o => some (putCommon 0x65 k + putA o)
  | .fence _ k o => some (putCommon 0x66 k + putA o)
  | .tcopy _ k o => some (putCommon 0x67 k + putT o)
  | .tscadd _ k o => some (putCommon 0x68 k + putT o)
  | .tmaxabs _ k o => some (putCommon 0x69 k + putT o)
  | .sig _ k o => some (putCommon 0x70 k + putA o)
  | .sigw _ k o => some (putCommon 0x71 k + putA o)
  | .watch _ k o => some (putCommon 0x80 k + putA o)
  | .unwatch _ k o => some (putCommon 0x81 k + putI o)
  | .park _ k o => some (putCommon 0x82 k + putI o)
  | .take _ k o => some (putCommon 0x83 k + putI o)
  | .token _ k o => some (putCommon 0x84 k + putR o)
  | .delay _ k o => some (putCommon 0x85 k + putR o)
  | .time _ k o => some (putCommon 0x86 k + putI o)
  | .reel _ k o => some (putCommon 0x90 k + putA o)
  | .vcvt _ k o => some (putCommon 0xA0 k + putV o)
  | .vmaxabs _ k o => some (putCommon 0xA1 k + putV o)
  | .dld _ k o => some (putCommon 0xB0 k + putA o)
  | .dstr _ k o => some (putCommon 0xB1 k + putA o)
  | .dsetw _ k o => some (putCommon 0xB2 k + putI o)
  | .dgetw _ k o => some (putCommon 0xB3 k + putI o)
  | _ => none

/-- The instruction of the major opcode of a word, its fields read by the opcode's format (Table 4.3). -/
def readWord (t : ThreadId) (w : Nat) : Option Instr :=
  let k := getCommon w
  match wordBits w 63 56 with
  | 0x00 => some (.nop t k (getC w))
  | 0x01 => some (.br t k (getC w))
  | 0x02 => some (.loop t k (getC w))
  | 0x03 => some (.lrd t k (getI w))
  | 0x04 => some (.halt t k (getC w))
  | 0x10 => some (.add t k (getR w))
  | 0x11 => some (.sub t k (getR w))
  | 0x12 => some (.mul t k (getR w))
  | 0x13 => some (.mulhu t k (getR w))
  | 0x14 => some (.mulhs t k (getR w))
  | 0x15 => some (.divu t k (getR w))
  | 0x16 => some (.remu t k (getR w))
  | 0x17 => some (.divs t k (getR w))
  | 0x18 => some (.rems t k (getR w))
  | 0x19 => some (.and t k (getR w))
  | 0x1A => some (.or t k (getR w))
  | 0x1B => some (.xor t k (getR w))
  | 0x1C => some (.shl t k (getR w))
  | 0x1D => some (.shr t k (getR w))
  | 0x1E => some (.sra t k (getR w))
  | 0x1F => some (.minmax t k (getR w))
  | 0x20 => some (.addi t k (getI w))
  | 0x21 => some (.andi t k (getI w))
  | 0x22 => some (.ori t k (getI w))
  | 0x23 => some (.xori t k (getI w))
  | 0x24 => some (.shifti t k (getI w))
  | 0x25 => some (.movi t k (getL w))
  | 0x26 => some (.cmp t k (getR w))
  | 0x27 => some (.cmpi t k (getI w))
  | 0x28 => some (.sel t k (getR w))
  | 0x29 => some (.plog t k (getR w))
  | 0x2A => some (.fadd t k (getR w))
  | 0x2B => some (.fmul t k (getR w))
  | 0x2C => some (.ffma t k (getR w))
  | 0x2D => some (.fminmax t k (getR w))
  | 0x2E => some (.fcmp t k (getR w))
  | 0x2F => some (.fcvt t k (getR w))
  | 0x30 => some (.vadd t k (getV w))
  | 0x31 => some (.vsub t k (getV w))
  | 0x32 => some (.vmul t k (getV w))
  | 0x33 => some (.vfma t k (getV w))
  | 0x34 => some (.vmin t k (getV w))
  | 0x35 => some (.vmax t k (getV w))
  | 0x36 => some (.vcmp t k (getV w))
  | 0x37 => some (.vsel t k (getV w))
  | 0x38 => some (.vexp2 t k (getV w))
  | 0x39 => some (.vrcp t k (getV w))
  | 0x3A => some (.vrsq t k (getV w))
  | 0x3B => some (.viadd t k (getV w))
  | 0x3C => some (.visub t k (getV w))
  | 0x3D => some (.vimul t k (getV w))
  | 0x3E => some (.vlogic t k (getV w))
  | 0x3F => some (.vrsum t k (getV w))
  | 0x40 => some (.vrmax t k (getV w))
  | 0x41 => some (.vperm t k (getV w))
  | 0x42 => some (.vbcast t k (getV w))
  | 0x43 => some (.vext t k (getV w))
  | 0x44 => some (.vflag t k (getV w))
  | 0x45 => some (.vmov t k (getV w))
  | 0x50 => some (.mma t k (getM w))
  | 0x51 => some (.twait t k (getI w))
  | 0x60 => some (.ld t k (getA w))
  | 0x61 => some (.st t k (getA w))
  | 0x62 => some (.vld t k (getA w))
  | 0x63 => some (.vst t k (getA w))
  | 0x64 => some (.atom t k (getA w))
  | 0x65 => some (.atomp t k (getA w))
  | 0x66 => some (.fence t k (getA w))
  | 0x67 => some (.tcopy t k (getT w))
  | 0x68 => some (.tscadd t k (getT w))
  | 0x69 => some (.tmaxabs t k (getT w))
  | 0x70 => some (.sig t k (getA w))
  | 0x71 => some (.sigw t k (getA w))
  | 0x80 => some (.watch t k (getA w))
  | 0x81 => some (.unwatch t k (getI w))
  | 0x82 => some (.park t k (getI w))
  | 0x83 => some (.take t k (getI w))
  | 0x84 => some (.token t k (getR w))
  | 0x85 => some (.delay t k (getR w))
  | 0x86 => some (.time t k (getI w))
  | 0x90 => some (.reel t k (getA w))
  | 0xA0 => some (.vcvt t k (getV w))
  | 0xA1 => some (.vmaxabs t k (getV w))
  | 0xB0 => some (.dld t k (getA w))
  | 0xB1 => some (.dstr t k (getA w))
  | 0xB2 => some (.dsetw t k (getI w))
  | 0xB3 => some (.dgetw t k (getI w))
  | _ => none

/-- The instruction that a 64-bit word of the code section is, for the thread that executes it; none when the word is
statically illegal (R109 to R111): its major opcode is unassigned, a field is out of its range, or a reserved bit is
set, which the encoder would not give back. -/
def decodeWord (t : ThreadId) (w : Nat) : Option Instr :=
  match readWord t w with
  | none => none
  | some i => if i.wf && encodeWord i == some w then some i else none

end Sys2Proof
end

