-- ==== Sys2Proof/Config.lean ====
section
/-! DEFINITION. What an implementation fixes and what the spec leaves open: free values, each an opaque constant that no
proof can see through. A counter in the state picks a fresh one at each use (log entry 5). -/

namespace Sys2Proof.Config

open Sys2Proof

/-- A free 32-bit value: the result of a dynamically inconsistent operation (R98, R99). -/
opaque freeWord : Nat → Word

/-- A free byte, by use and position: bytes written by a dynamically inconsistent operation (R99). -/
opaque freeByte : Nat → Nat → Byte

/-- A free natural number, by use: durations and placements the spec leaves open. -/
opaque freeNat : Nat → Nat

/-- The stores of an undefined result (R99), by use: context addresses and bytes. -/
opaque undefinedStores : Nat → List (Nat × Byte)

/-- What an undefined result leaves in a register (R99), by use, register and old value. -/
opaque undefinedWord : Nat → Nat → Word → Word

/-- How an undefined result leaves a thread (R99), by use and thread: 0 as it was, 1 parked, any other running; and by use the
context: 1 at a break. -/
opaque undefinedRun : Nat → Nat → Nat

/-- The native size in bytes of a lowered image: private to the generation (R80). -/
opaque nativeBytes : List DWord → Nat → Nat

/-- The SHA-384 digest of the native code of an image at a lowering revision (R79, R106). -/
opaque nativeDigest : List DWord → Nat → BitVec 384

/-- SHA-384 of a byte string (R83, R456): named by the spec, its computation lies in no rule. -/
opaque sha384 : List Byte → BitVec 384

/-- Whether the ECDSA P-384 signature of an addendum verifies under the key of a slot (R432). -/
opaque ecdsaVerifies : List Byte → Nat → Bool

/-- Whether the key slot of the ROM has been revoked by fuse (R432). -/
opaque keyRevoked : Nat → Bool

/-- The body of a checkpoint, private to the generation (R456): byte i of the copy that use n makes. -/
opaque checkpointByte : Nat → Nat → Byte

/-- Whether no peer device holds a pin on a version of a table (R201, R215): by use, table and version. -/
opaque peersUnpinned : Nat → Nat → Nat → Bool

/-- Whether no peer device holds a pin on a table whose epoch lies 32,768 or more behind an epoch (R214): by use, table and
epoch. -/
opaque peersRecent : Nat → Nat → Nat → Bool

/-- Whether no peer device holds a pin on a table with an epoch older than one (R214): by use, table and epoch. -/
opaque peersNoOlder : Nat → Nat → Nat → Bool

/-- Where the firmware places the migration area of an owner region (R200): the T2 addresses of slot 0's row and accumulator,
by use, table and owner. -/
opaque migrationArea : Nat → Nat → Nat → Nat × Nat

/-- Whether the owner device of a shard has failed, is in hold, or is being replaced by the host driver (R202): by use and
device. -/
opaque ownerGone : Nat → Nat → Bool

/-- Whether the firmware of a peer device has allocated a range of memory to a function (R93): by use, function, address and
bytes. -/
opaque peerAllocated : Nat → Nat → Nat → Nat → Bool

/-- The energy in pJ of one count of an activity at 0.75 V, by unit and class: calibrated per part (R478). -/
opaque energyCoefficient : Nat → Nat → Nat

/-- The leakage of a region in pJ per ns, by physical region, rail in mV and junction in °C: the fused table (R478). -/
opaque leakage : Nat → Nat → Int → Nat

/-- The base granule that the device chooses for the run of a relocated page (R362): open. -/
opaque pageBase : Nat → Nat

end Sys2Proof.Config
end

