-- ==== Sys2Proof/Machine/State.lean ====
section
/-! DEFINITION. The state of the device as plain data, its reset value, and the reasons a command can stop.
Every map is an association list; a key that is not listed has the reset value of its kind (Ops.lean). -/

namespace Sys2Proof.Machine

open Sys2Proof

/-- Sparse data by key. -/
abbrev Map (α β : Type) := List (α × β)

/-- The two grades (R1). -/
inductive Grade where
  | T
  | S
  deriving DecidableEq, Repr, Inhabited

/-- What one part is: fixed at test and by the straps (R1 to R4, R381, R430). -/
structure Part where
  grade : Grade
  revision : Byte
  disabled : List Nat
  serial : DWord
  romRev : Word
  device : Nat
  deriving DecidableEq, Repr, Inhabited

/-- Memory: bytes at unified device addresses in canonical form, and the poisoned bytes (R376; a 32-bit word is delivered
as poisoned when one of its bytes is, R64). -/
structure Memory where
  cells : List Host.Cell
  poison : List Nat
  deriving DecidableEq, Repr, Inhabited

/-- The run of granules that stores a T2 page (R360, Table 13.4). -/
structure PageRun where
  granules : Nat
  base : Nat
  deriving DecidableEq, Repr, Inhabited

/-- The always-on time base (R45, R397 to R399, R490). -/
structure Clock where
  bootCount : Nat
  time : Nat
  running : Bool
  aligned : Bool
  master : Bool
  /-- ns since the last falling edge that was detected -/
  silence : Nat
  /-- boundary carried by the last time control flit not yet used by an edge -/
  announced : Option Nat
  /-- ns for which the count is still held (R398) -/
  holdNs : Nat
  /-- ns that the count is still behind (R398) -/
  behindNs : Nat
  /-- a count that catches up stands in the middle of a nanosecond: it advances one step every half (R398) -/
  half : Bool
  /-- offsets at the last two pulses, newest first (R400) -/
  offsets : List Nat
  internalOsc : Bool
  oscPosted : Bool
  deriving DecidableEq, Repr, Inhabited

/-! ### Threads -/

/-- A hardware loop level (R140). -/
structure LoopLevel where
  start : Nat
  stop : Nat
  count : Nat
  index : Nat
  deriving DecidableEq, Repr, Inhabited

/-- A watch slot: the word it registers, whether the registration has been acknowledged, the written bit (R147), and the
tenth of a ns by which the wake of its write is due, 0 when none is (R153). -/
structure WatchSlot where
  addr : Option Nat
  acked : Bool
  written : Bool
  due : Nat
  deriving DecidableEq, Repr, Inhabited

/-- What a thread is doing. -/
inductive RunState where
  /-- may issue its next word -/
  | ready
  /-- held until a request completes (R122, R147, R155) -/
  | waitReq (req : Nat)
  /-- held at a word that reads or writes a descriptor register until the DLD of another thread into it completes (R129) -/
  | waitRecord (req : Nat)
  /-- held by FENCE (R123) -/
  | waitFence
  /-- held by TWAIT until at most n tensor operations are pending, or at issue by a full set of eight (R137) -/
  | waitTensor (n : Nat)
  /-- held by a TMAXABS (R139) -/
  | waitOp (op : Nat)
  /-- parked by PARK (R150) -/
  | parked (dst : Fin 32)
  /-- waiting in TAKE (R164) -/
  | taking (list : Nat) (dst : Fin 32)
  /-- ended by HALT (R144) -/
  | ended
  /-- stopped for good: the state of its cell or region has been lost (R440, R443) -/
  | lost
  deriving DecidableEq, Repr, Inhabited

/-- A hardware thread (Table 3.11). -/
structure Thread where
  pc : Nat
  s : Vector Word 32
  p : Vector Bool 8
  loops : List LoopLevel
  watch : Vector WatchSlot 16
  run : RunState
  /-- since when it stands at its present word: its age among the ready threads of its cell (R33) -/
  readyAt : Nat
  deriving DecidableEq, Repr

/-- A thread group of one cell: its descriptors and T0 quota (R100). -/
structure Group where
  d : Vector (List Byte) 16
  x : Vector (List Byte) 8
  quotaKib : Nat
  vec : Bool
  deriving DecidableEq, Repr

/-- A vector context (R100, R119). -/
structure VectorCtx where
  v : Vector (Vector Word 64) 32
  ovf : Bool
  deriving DecidableEq, Repr

/-! ### Images -/

/-- A launch record (Table 3.6). -/
structure Launch where
  entry : Nat
  threads : Nat
  group : Nat
  vec : Bool
  quotaKib : Nat
  desc : Nat
  deriving DecidableEq, Repr, Inhabited

/-- A binding record (Table 3.5). -/
structure Binding where
  window : Nat
  kind : Nat
  access : BitVec 8
  spaces : BitVec 8
  minSize : Nat
  /-- the 16 bytes of NAME -/
  name : List Byte
  deriving DecidableEq, Repr, Inhabited

/-- What a loaded image leaves in the context (R78 to R85). -/
structure Image where
  code : List DWord
  descriptors : List (List Byte)
  bindings : List Binding
  launches : List Launch
  nativeLines : Nat
  digest : BitVec 384
  nativeDigest : BitVec 384
  lowerRev : Nat
  deriving DecidableEq, Repr, Inhabited

/-! ### Contexts -/

/-- The states of a context (Table 3.9), in the coding of Table 3.15. -/
inductive CtxState where
  | empty
  | created
  | loaded
  | running
  | paused
  | draining
  | stopped
  deriving DecidableEq, Repr, Inhabited

/-- An object of the T1 pool (R352 to R355). -/
structure PoolObject where
  handle : Nat
  fn : Nat
  /-- the address that ALLOC gave: a window whose BASE it is maps the object (log entry 61) -/
  base : Nat
  backing : Nat
  units : Nat
  /-- the windows that map it: context and index -/
  windows : List (Nat × Nat)
  /-- home: logical region or ballast slot, first unit -/
  home : Option (Nat × Nat)
  hold : Nat
  lastStage : Nat
  /-- region whose Winch issued the last STAGE (R358) -/
  stagedBy : Nat
  /-- run that a re-homing copy has filled, to be mapped at the next boundary (R355, R358) -/
  nextHome : Option (Nat × Nat)
  /-- selected for eviction at the next boundary (R354) -/
  evicting : Bool
  deriving DecidableEq, Repr, Inhabited

/-- Per-region status of a context (Tables 5.5, 13.7, 11.10) and ring positions. -/
structure CtxRegion where
  tokenFaults : Nat
  watchFaults : Nat
  late : Nat
  atRisk : Nat
  lateUs : Nat
  nonfinite : Nat
  abortedJobs : Nat
  refusedJobs : Nat
  jobsDone : Nat
  gatherNext : Nat
  reduceNext : Nat
  winchNext : Nat
  deriving DecidableEq, Repr, Inhabited

/-- Why a context is being stopped, or was (R104, Table 3.14). -/
structure BreakInfo where
  cause : Nat
  comparator : Nat
  thread : Nat
  cell : Nat
  tag : BitVec 12
  group : Nat
  time : Nat
  deriving DecidableEq, Repr, Inhabited

/-- A context (R88 to R106, R275, R297, R459, R480). -/
structure Context where
  state : CtxState
  fn : Nat
  slot : Nat
  /-- owned blocks (logical region, block), in cell order (R89) -/
  blocks : List (Nat × Nat)
  image : Option Image
  winFaults : Nat
  brk : BreakInfo
  /-- a break or pause is in progress: threads issue nothing until BREAK_STOP_DONE (R104) -/
  breaking : Bool
  /-- the threads whose arrival at their present word has been counted, by a break that stopped them there (R102, R105,
  R145) -/
  stoppedAt : List ThreadId
  /-- instant and thread of the last arrival that a comparator counted (R102) -/
  lastCount : Option (Nat × ThreadId)
  recipeLeft : Nat
  skipped : Nat
  outcomes : Nat
  convertFlags : Nat
  patternFaults : Nat
  skipMisses : Nat
  tilesSkipped : Nat
  indexFaults : Nat
  winchRefused : Nat
  /-- flag of the last step outcome and the instant by which batch steering runs on it (R325) -/
  steer : Option (Bool × Nat)
  restores : Nat
  exchanges : Nat
  /-- energy since its create, and at its last start, in pJ (R479, R480) -/
  energyPj : Nat
  startEnergyPj : Nat
  /-- an exchange has applied since the last outcome (R445) -/
  exchanged : Bool
  /-- RECIPE_LEFT that a START after a RESTORE takes (R459) -/
  restoredLeft : Option Nat
  /-- event codes already reported since the last start (R95, R262, R371) -/
  reported : List Nat
  regions : Map Nat CtxRegion
  /-- OUTCOMES of the checkpoint last restored (Table 16.8) -/
  lastOutcomes : Nat
  /-- disable deadline and the command that drains (R90, R327) -/
  drainCmd : Option Nat
  deriving DecidableEq, Repr

/-! ### Requests and credits -/

/-- Who issues a request (R50). -/
inductive Origin where
  | thread (t : ThreadId)
  | reel (region reel : Nat)
  | gather (region job : Nat)
  | sequencer (region job : Nat)
  | winch (region entry : Nat)
  /-- the gather engine of an owner region, serving a batch on a table of a function (R212) -/
  | owner (region fn : Nat)
  /-- the reduction sequencer of a region, sending packets (R318) -/
  | packets (region : Nat)
  /-- feeder A (side 0) or B (1) of a spar, or the drain of its rig (2 writes, 3 reads), for an operation that a thread issued (R238, R242):
  the cell's position in its region and the spar within the arrangement -/
  | feeder (op : Nat) (t : ThreadId) (region cell spar side : Nat)
  deriving DecidableEq, Repr, Inhabited

/-- What a request does at its target. -/
inductive ReqKind where
  | load (bytes : Nat) (signed : Bool) (dst : Fin 32)
  | store (bytes : List Byte)
  | vload (dst : Fin 32)
  /-- an atomic operation: MINOR of Table 4.4, operand, comparand, and the register for the old value (none for ATOMP) -/
  | atomic (minor : Nat) (wide : Bool) (operand swap : DWord) (dst : Option (Fin 32))
  | dload (index : Bool) (slot : Fin 16)
  /-- a signal: MINOR, value, whether it is SIGW -/
  | signal (minor : Nat) (value : Word) (held : Bool)
  | watch (slot : Fin 16)
  | token (word task : DWord)
  | delay (task : DWord) (due : Nat)
  /-- a slab or a plane piece that a feeder reads, or a C row that the drain reads (R237, R239, R242) -/
  | feed (bytes : Nat)
  /-- a C row piece that the drain writes (R242) -/
  | drain (bytes : List Byte)
  deriving DecidableEq, Repr, Inhabited

/-- How far a request has come (R49, R59). -/
inductive ReqStage where
  | waiting
  | accepted
  | performed
  deriving DecidableEq, Repr, Inhabited

/-- The promise of a unit's job, judged when the last of what completes it is performed: the instant in ns, 0 for none, the physical
region and the row of Table 2.4 or of the job (R176, R206, R370). -/
structure JobPromise where
  due : Nat
  phys : Nat
  row : Nat
  /-- the job, which leaves its unit when it is judged -/
  job : Option Origin
  deriving DecidableEq, Repr, Inhabited

/-- A request in flight. -/
structure Request where
  id : Nat
  ctx : Nat
  origin : Origin
  kind : ReqKind
  /-- context address (window in [47:40]); a device address when `direct` -/
  ctxAddr : Nat
  direct : Bool
  /-- requests that must have completed before this one is performed (R125, R159, R167) -/
  after : List Nat
  /-- bypass of the windows' permission by an accepted translation: the device address -/
  devAddr : Nat
  /-- physical region that serves it, chosen at admission (R36) -/
  phys : Nat
  stage : ReqStage
  accepted : Nat
  /-- the instant from which its promise runs: the acceptance, or when the order of R125 was met (R157) -/
  start : Nat
  /-- the promised time in tenths of a ns (R48), 0 for none -/
  promise : Nat
  /-- request tag: 0 none yet, 1 one of the cell's private tags, 2 one of the region's pool (R348) -/
  tag : Nat
  credits : List (Resource × Nat)
  /-- since when it waits at admission, and the stall cause of Table 17.4 -/
  since : Nat
  cause : Nat
  result : List Byte
  /-- device address of the first poisoned word of the data (R501) -/
  poisonAt : Option Nat
  /-- DEADLINE of the Winch entry whose token this is (R371, R372) -/
  deadline : Option Nat
  /-- the job whose completion event its performing is -/
  judge : Option JobPromise
  deriving DecidableEq, Repr, Inhabited

/-- The destination's side of a resource (R54). -/
structure Destination where
  free : Nat
  /-- the lending requests not yet served: the ledger, what it asks for and how much -/
  waiting : List (AdmPoint × Resource × Nat)
  deriving DecidableEq, Repr, Inhabited

/-- A ledger's side: the lots of credits it holds unused and since when, oldest first (R54). -/
structure Ledger where
  lots : List (Nat × Nat)
  deriving DecidableEq, Repr, Inhabited

/-- A hop that transfers reserve rate on (R58, Table 2.3). -/
inductive Hop where
  /-- the 256 banks of T1 over which the bytes are interleaved (R344) -/
  | banks (phys : Nat)
  | portOut (phys : Nat)
  | portIn (phys : Nat)
  | dieOut (die port : Nat)
  | dieIn (die port : Nat)
  | channels (stack : Nat)
  /-- one direction of a device link: `out` toward the peer (R388) -/
  | link (port : Nat) (out : Bool)
  | pcie (port : Nat)
  | cellT0 (region cell : Nat)
  | engine (region : Nat)
  deriving DecidableEq, Repr, Inhabited

/-- What a transfer is for. -/
inductive XferUse where
  | copyCmd (cmd : Nat)
  /-- the movement of a LOAD's code and constants into one region of its context (R82) -/
  | load (cmd region : Nat)
  | winch (region entry : Nat)
  | reel (region reel : Nat)
  | gather (region job : Nat)
  | reduce (region job : Nat)
  /-- the copy of a handed-over row (R215) -/
  | handover (table row : Nat)
  /-- the copy of a region's state into the standby that takes its place (R442) -/
  | migration (region : Nat)
  deriving DecidableEq, Repr, Inhabited

/-- A transfer, waiting for its rates or accepted (R58). -/
structure Transfer where
  id : Nat
  purpose : XferUse
  /-- the context it works for -/
  ctx : Option Nat
  hops : List (Hop × Nat)
  /-- the T2 stack that it writes to -/
  intoStack : Option Nat
  accepted : Bool
  tAccept : Nat
  deriving DecidableEq, Repr, Inhabited

/-! ### Task unit -/

/-- A matching entry (R160, R161). -/
structure MatchEntry where
  armed : Bool
  required : BitVec 16
  arrived : BitVec 16
  rearm : Bool
  argstep : BitVec 7
  task : DWord
  waiting : Option DWord
  /-- instants at which the operands arrived, for the tier-late stall (R372) -/
  arrivedAt : Map Nat Nat
  deriving DecidableEq, Repr, Inhabited

/-- A thread that waits in TAKE, and since when (R164). -/
structure Taker where
  t : ThreadId
  list : Nat
  dst : Fin 32
  since : Nat
  deriving DecidableEq, Repr, Inhabited

/-- A task word on a ready list: when it became ready, whether the delay list gave it, and the entry that fired (R163). -/
structure ReadyTask where
  task : DWord
  at_ : Nat
  delayed : Bool
  cell : Nat
  entry : Nat
  deriving DecidableEq, Repr, Inhabited

/-- A task word that a thread has just been handed: what the thread had in the pair, and where it stood. Until the instant is
over, a firing or a TAKE that the order of R163 or R164 puts first takes its place. -/
structure Handed where
  taker : Taker
  task : ReadyTask
  pc : Nat
  old : DWord
  at_ : Nat
  deriving DecidableEq, Repr, Inhabited

/-- A waiting firing: its instant and its entry (R161). -/
structure Firing where
  at_ : Nat
  cell : Nat
  entry : Nat
  deriving DecidableEq, Repr, Inhabited

/-- A wake credit that a registration holds: the credits of one wake notification from the word's home to the watching
cell (R153). -/
structure WakeCredit where
  t : ThreadId
  slot : Fin 16
  res : Resource
  n : Nat
  deriving DecidableEq, Repr, Inhabited

/-- An atomic flow in service (R165). -/
structure FlowHeld where
  ctx : Nat
  flow : Nat
  holder : ThreadId
  deriving DecidableEq, Repr, Inhabited

/-- A task on the delay list (R166). -/
structure Delayed where
  ctx : Nat
  task : DWord
  due : Nat
  deriving DecidableEq, Repr, Inhabited

/-! ### Reels -/

/-- A Reel job descriptor, read at acceptance (Table 6.3). -/
structure ReelDesc where
  hops : Nat
  flags : Nat
  seeds : Nat
  seedList : Nat
  jobSeed : DWord
  step : Nat
  graph : Nat
  frame : Nat
  frameMax : Nat
  token : DWord
  done : Nat
  walkP : Word
  walkQ : Word
  tries : Nat
  /-- METHOD and FANOUT of each used hop -/
  hop : List (Nat × Nat)
  deriving DecidableEq, Repr, Inhabited

/-- A queued or running Reel job. -/
structure ReelJob where
  ctx : Nat
  handle : Word
  descAddr : Nat
  seq : Nat
  deriving DecidableEq, Repr, Inhabited

/-- The accepted job of a Reel. -/
structure ReelRun where
  job : ReelJob
  desc : ReelDesc
  /-- the graph descriptor, read at acceptance (Table 6.5) -/
  graphRec : List Byte
  tAccept : Nat
  promise : Nat
  /-- the window entries of what it names, as they were at its acceptance (R94) -/
  wins : Map Nat DWord
  /-- its frame is written; it is complete once its token and its signal are performed (R176) -/
  written : Bool
  /-- its frame overlaps what it reads or another frame in flight: the results are undefined (R196) -/
  tainted : Bool
  deriving DecidableEq, Repr, Inhabited

/-- A Reel's queue and accepted job; region state (R197). -/
structure ReelUnit where
  queue : List ReelJob
  running : Option ReelRun
  deriving DecidableEq, Repr, Inhabited

/-- Counters of one physical Reel (Table 6.12). -/
structure ReelCount where
  refused : Nat
  units : Nat
  nextSeq : Nat
  deriving DecidableEq, Repr, Inhabited

/-! ### Tables, gather engines, lofts -/

/-- A table descriptor (Table 7.1). -/
structure TableDesc where
  table : Nat
  format : Nat
  tflags : Nat
  gradExp : Int
  version : Nat
  rows : Nat
  rowElems : Nat
  rowBytes : Nat
  rps : Nat
  shards : Nat
  headroom : Nat
  migSlots : Nat
  deriving DecidableEq, Repr, Inhabited

/-- A shard map entry (Table 7.2). -/
structure ShardEntry where
  base : Nat
  accBase : Nat
  device : Nat
  region : Nat
  deriving DecidableEq, Repr, Inhabited

/-- An owner directory entry (Table 7.7). -/
structure DirEntry where
  epoch : Nat
  away : Bool
  prevAway : Bool
  owner : Nat
  prevOwner : Nat
  slot : Nat
  prevSlot : Nat
  deriving DecidableEq, Repr, Inhabited

/-- A staged move of a row and the boundary H at which it hands over (R215). -/
structure StagedMove where
  row : Nat
  newOwner : Nat
  newSlot : Nat
  boundary : Nat
  deriving DecidableEq, Repr, Inhabited

/-- A handover whose copy or forwarding entry is still live (R215). -/
structure Handover where
  row : Nat
  epoch : Nat
  oldOwner : Nat
  newOwner : Nat
  /-- H, from which the promise of the copy runs -/
  tAccept : Nat
  copied : Bool
  /-- batches held by the new owner until the copy is written -/
  held : List (Nat × OwnerBatch)
  deriving DecidableEq, Repr, Inhabited

/-- One live version of a table. -/
structure TableVersion where
  desc : TableDesc
  shards : List ShardEntry
  /-- the migration area of each owner region, by owner code: the T2 addresses on its device of slot 0's row and
  accumulator (R200) -/
  mig : Map Nat (Nat × Nat)
  deriving DecidableEq, Repr, Inhabited

/-- A published table (R199 to R202, R213). -/
structure TableState where
  fn : Nat
  current : Nat
  versions : List TableVersion
  epoch : Nat
  dir : Map Nat DirEntry
  moves : List StagedMove
  handovers : List Handover
  deriving DecidableEq, Repr, Inhabited

/-- A gather job record (Table 7.4). -/
structure GatherRec where
  op : Nat
  table : Nat
  jflags : Nat
  lists : Nat
  rate : Nat
  ids : Nat
  data : Nat
  dstride : Nat
  token : DWord
  done : Nat
  pin : Nat
  result : Nat
  clean : Bool
  deriving DecidableEq, Repr, Inhabited

/-- A taken gather job (R205 to R210). -/
structure GatherJob where
  tag : Nat
  ctx : Nat
  ringIndex : Nat
  rcd : GatherRec
  version : Nat
  epoch : Nat
  accepted : Bool
  tAccept : Nat
  promise : Nat
  rows : List Nat
  /-- batches not yet sent, by owner (R212) -/
  toSend : List (Nat × OwnerBatch)
  /-- batches of the job in all, and the device address of its arrival word (R212) -/
  batches : Nat
  arriveAddr : Nat
  unique : Nat
  loftHits : Nat
  indexFaults : Nat
  ovf : Bool
  half : Option Nat
  /-- version and epoch of the kept pin that completion releases (RELEASE, R209) -/
  release : Option (Nat × Nat)
  /-- the window entries of DATA, RESULT and PIN as they were at its acceptance (R94) -/
  wins : Map Nat DWord
  /-- the rows that owners of this device have returned, by first position (R208) -/
  fetched : Map Nat (List Byte)
  /-- the data rows have been handed over, and when the last write of one completed (R209, R210) -/
  dataOut : Bool
  lastData : Nat
  /-- RESULT is written; it is complete once TOKEN and DONE are performed (R206) -/
  reported : Bool
  deriving DecidableEq, Repr, Inhabited

/-- A kept pin (R209) or checkpoint pin (R457; then `area` is its AREA and there is no epoch). -/
structure KeptPin where
  ctx : Nat
  fn : Nat
  table : Nat
  version : Nat
  epoch : Option Nat
  area : Option Nat
  deriving DecidableEq, Repr, Inhabited

/-- A row held by a loft half. -/
structure LoftRow where
  table : Nat
  version : Nat
  row : Nat
  bytes : List Byte
  deriving DecidableEq, Repr, Inhabited

/-- A loft of one context in one region (R219, R220). -/
structure Loft where
  half0 : List LoftRow
  half1 : List LoftRow
  active : Nat
  ready : Bool
  overRows : Nat
  deriving DecidableEq, Repr, Inhabited

/-- A sketch entry (Table 7.10). -/
structure SketchEntry where
  row : Nat
  table : Nat
  count : Nat
  error : Nat
  deriving DecidableEq, Repr, Inhabited

/-! ### Spars -/

/-- The three kinds of tensor operation (R137), and TMAXABS, which holds its thread (R139). -/
inductive TensorKind where
  | mma (o : MArgs) (tag : BitVec 12)
  | tcopy (o : TArgs)
  | tscadd (o : TArgs)
  | tmaxabs (o : TArgs)
  deriving DecidableEq, Repr, Inhabited

/-- How far a tensor operation has come (R231 to R234). -/
inductive OpStage where
  /-- waiting behind its cell's presented MMA -/
  | queued
  /-- presented to the block arbiter: first when, which is its age, and since when it waits now -/
  | presented (at_ since : Nat)
  /-- granted: the first spar, the count, when, and when it had been presented first -/
  | granted (first count at_ since : Nat)
  /-- a copy, scatter-add or scale pass that runs -/
  | running
  deriving DecidableEq, Repr, Inhabited

/-- A read or write of the feeders or the drain of an MMA (R237 to R239, R242): the side (0 feeder A, 1 feeder B, 2 a C row
written, 3 a C row or an entry of its index list read), the spar within the arrangement, the pair of N tile and M block that it
serves, for a C row its position and the byte within it, the context address and the bytes. -/
structure FeedReq where
  side : Nat
  spar : Nat
  pair : Nat
  pos : Nat
  off : Nat
  addr : Nat
  bytes : Nat
  deriving DecidableEq, Repr, Inhabited

/-- A pending tensor operation with the descriptors it copied at issue (R129). -/
structure TensorOp where
  id : Nat
  t : ThreadId
  kind : TensorKind
  region : Nat
  cell : Nat
  /-- descriptor records: C or D1, A or D2, B -/
  d1 : List Byte
  d2 : List Byte
  d3 : List Byte
  /-- all index descriptors of the group, for chains (R130) -/
  xs : List (List Byte)
  /-- the registers among those that it names whose DLD was pending when it issued: their records reach it with the DLD (R129) -/
  awaits : List (Bool × Nat)
  stream : Word
  stage : OpStage
  /-- what its feeders and its drain have not issued yet, in order -/
  feeds : List FeedReq
  /-- those of its feeders and drain that are under way, by request (R24, R237, R239, R242) -/
  reading : List (Nat × FeedReq)
  /-- what its reads have delivered, by context address, the newest first; zeros where one faulted (R94, R95, R238) -/
  fed : List (Nat × List Byte)
  /-- its C writes that have reached their completion event, and their bytes (R247, R273) -/
  drained : List (FeedReq × List Byte)
  /-- the entries of the windows that it names, as they were at its issue (R94, R502) -/
  wins : Map Nat DWord
  /-- from when its stream runs: its grant, or the end of the MMA that it follows; the beats of its first plane's load that are
  left then (R234, R244) -/
  startAt : Nat
  loadBeats : Nat
  /-- its first grant has been counted: faulted tiles and skipped tiles count once for an MMA (R262) -/
  counted : Bool
  /-- when its last operand read was delivered (R240) -/
  fedAt : Nat
  mask : List Bool
  /-- recipe mode in effect at the issue of a TMAXABS (R294, R295): E of the window's KIND -/
  recipe : Option Int
  /-- a conflicting operation has been pending at the same time: the results are undefined (R235) -/
  tainted : Bool
  deriving DecidableEq, Repr, Inhabited

/-- A predictor entry (R269). -/
structure PredEntry where
  ctx : Nat
  tag : BitVec 12
  window : Nat
  base : Nat
  mask : List Bool
  /-- when and by whose MMA it was written last (R273) -/
  at_ : Nat
  by_ : ThreadId
  deriving DecidableEq, Repr, Inhabited

/-- A block of a logical region (R26, R236, R269). -/
structure BlockState where
  waitNs : Nat
  /-- least recently written first -/
  predictor : List PredEntry
  deriving DecidableEq, Repr, Inhabited

/-! ### Reduction -/

/-- A reduction job record (Table 11.1). -/
structure ReduceRec where
  op : Nat
  flags : Nat
  ch : Nat
  topk : Nat
  job : Nat
  group : Nat
  contrib : Nat
  owners : Nat
  myc : Nat
  myo : Nat
  adders : Nat
  srcfmt : Nat
  elems : Nat
  rate : Nat
  source : Nat
  tailBase : Nat
  scratch : Nat
  acc : Nat
  result : Nat
  map : List Nat
  mapAddr : Nat
  stats : Nat
  token : DWord
  done : Nat
  loss : Nat
  flagword : Nat
  samples : Nat
  clean : Bool
  deriving DecidableEq, Repr, Inhabited

/-- An accepted reduction or outcome job (R310, R321). -/
structure ReduceJob where
  tag : Nat
  ctx : Nat
  ringIndex : Nat
  rcd : ReduceRec
  tAccept : Nat
  /-- end of the promised interval the job is in, when it is in one (R311, R327) -/
  intervalEnd : Option Nat
  grants : List Nat
  localDone : Bool
  maxLast : List Nat
  /-- agreed words of the own blocks, by block -/
  agreed : Map Nat Int
  expLast : List Nat
  /-- block exponents: received as contributor, derived as owner -/
  exps : Map Nat (BitVec 8)
  sentData : Bool
  dataLast : List Nat
  /-- OUTCOME: packets performed per sender, announced per sender, OR of FLAGs -/
  performed : Map Nat Nat
  announced : Map Nat Nat
  flag : Bool
  tSent : Nat
  deadline : Option Nat
  lossL : Int
  /-- packets still to be sent, by channel and receiving region (R319) -/
  left : Map (Nat × Nat) Nat
  /-- RESULT has been written -/
  resultDone : Bool
  /-- its areas overlap those of another job in flight: the results are undefined (R319) -/
  tainted : Bool
  /-- agreement words of the blocks, from the local pass (R312) -/
  words : List Int
  /-- TOKEN and DONE have been delivered -/
  reported : Bool
  /-- promised end of the completion interval, once the last DATA packet is in (R311, R327) -/
  doneBy : Option Nat
  /-- the entries of its windows at acceptance (R94) -/
  wins : Map Nat DWord
  deriving DecidableEq, Repr, Inhabited

/-- A pending tail (R317, R322). -/
structure PendingTail where
  ctx : Nat
  base : Nat
  l : Int
  jobTag : Nat
  deriving DecidableEq, Repr, Inhabited

/-- The reduction sequencer of a logical region. -/
structure Sequencer where
  jobs : List ReduceJob
  nextTag : Nat
  /-- packets not yet sent: the tag of their job, the receiving region, the packet (R318, R319) -/
  outq : List (Nat × Nat × Packet)
  /-- next SEQ to send, by receiving region (device × 16 + region) and channel -/
  sendSeq : Map (Nat × Nat) Nat
  /-- next SEQ to perform, by sender and channel -/
  recvSeq : Map (Nat × Nat) Nat
  /-- packets held in the inbox (early, or naming a job not yet accepted) -/
  inbox : List Packet
  /-- JOBs of the last 64 ended jobs, by context, newest first -/
  ended : Map Nat (List Nat)
  /-- channels used since the context's previous outcome -/
  channels : Map Nat (List Nat)
  /-- contribution gathered since the context's previous outcome (R321) -/
  contribution : Map Nat Bool
  tails : List PendingTail
  /-- packets of this device on their way to the inbox, with the instant by which they are due, in tenths of a nanosecond (R311) -/
  underWay : List (Packet × Nat)
  deriving DecidableEq, Repr, Inhabited

/-! ### Winch -/

/-- A Winch entry record (Table 13.6). -/
structure WinchRec where
  op : Nat
  eflags : Nat
  window : Nat
  rate : Nat
  src : Nat
  dst : Nat
  bytes : Nat
  gateValue : Word
  deadline : Nat
  gateAddr : Nat
  token : DWord
  done : Nat
  clean : Bool
  deriving DecidableEq, Repr, Inhabited

/-- An accepted Winch entry (R369, R370). -/
structure WinchEntry where
  tag : Nat
  ctx : Nat
  ringIndex : Nat
  rcd : WinchRec
  tAccept : Nat
  promise : Option Nat
  /-- run chosen for a STAGE into an evicted object -/
  newHome : Option (Nat × Nat)
  /-- bytes copied; a re-homing STAGE then waits for the boundary that maps its run -/
  copied : Bool
  /-- its writes are complete; it is complete once TOKEN and DONE are performed (R370) -/
  reported : Bool
  /-- the window entries of SRC and DST as they were at its acceptance (R94) -/
  wins : Map Nat DWord
  deriving DecidableEq, Repr, Inhabited

/-- The watch that the Winch has registered for the gate of the entry at the head of a ring (R369): its word, whether it is
acknowledged, the written mark, and the credits of its wake. -/
structure GateWatch where
  addr : Nat
  acked : Bool
  written : Bool
  wake : List (Resource × Nat)
  deriving DecidableEq, Repr, Inhabited

/-! ### Regions -/

/-- What a unit of T1 is used for (R351). -/
inductive UnitUse where
  | pinned (handle : Nat)
  | home (handle : Nat)
  /-- old units of an evicted home, free once their requests have completed (R355) -/
  | leaving (boundary : Nat)
  /-- the loft of a context (R219) -/
  | loft (ctx : Nat)
  deriving DecidableEq, Repr, Inhabited

/-- What counts activity: a region or a link die (R478). -/
inductive ActUnit where
  | region (phys : Nat)
  | linkDie (die : Nat)
  deriving DecidableEq, Repr, Inhabited

/-- The classes of Table 17.7. -/
inductive ActClass where
  /-- beats of spars, by the code of the product format -/
  | spar (fmt : Nat)
  | vector
  | t0
  | t1
  | reel
  /-- bytes at a Bridle port crossing: the port of the die (0 for a compute die) -/
  | bridle (port : Nat)
  /-- stored bytes of one channel of one stack -/
  | t2 (stack chan : Nat)
  /-- flits of one device-link port -/
  | link (port : Nat)
  /-- bytes of one PCIe port -/
  | pcie (port : Nat)
  /-- operations performed for a peer -/
  | remote
  deriving DecidableEq, Repr, Inhabited

/-- Where an activity count stands: the unit that counts it, the context it is charged to (none: no context, R479) and its
class. -/
structure ActKey where
  unit : ActUnit
  ctx : Option Nat
  cls : ActClass
  deriving DecidableEq, Repr, Inhabited

/-- Why a region is exchanged. -/
inductive ExchangeKind where
  | migration
  | failure
  | service
  deriving DecidableEq, Repr, Inhabited

/-- An exchange of a logical region in progress (R442, R443). -/
structure RegionExchange where
  kind : ExchangeKind
  leaving : Nat
  entering : Option Nat
  fencedAt : Nat
  copied : Bool
  boundary : Option Nat
  deriving DecidableEq, Repr, Inhabited

/-- A logical region, or ballast slot 16 or 17: the region state that moves with it (R170, R197, R223, R327, R373). -/
structure LogRegion where
  vacant : Bool
  exchange : Option RegionExchange
  units : Map Nat UnitUse
  entries : Map (Nat × Nat) MatchEntry
  ready : Map (Nat × Nat) (List ReadyTask)
  takers : List Taker
  handed : List Handed
  flows : List FlowHeld
  delay : List Delayed
  /-- the waiting firings, oldest first, those of one instant by cell and entry (R161, R163) -/
  firings : List Firing
  reels : Map Nat ReelUnit
  gatherJobs : List GatherJob
  nextGather : Nat
  /-- forwarded entries that wait for an inbox credit of their new owner (R212, R215) -/
  forwards : List (Nat × OwnerBatch)
  /-- batches and packets received, which number the places of the two inboxes in turn (R212, R318) -/
  inboxNext : Nat
  packetNext : Nat
  winch : List WinchEntry
  nextWinch : Nat
  winchTurn : Nat
  /-- the gate watches of the rings, by context (R369) -/
  gates : Map Nat GateWatch
  seqr : Sequencer
  blocks : Map Nat BlockState
  lofts : Map Nat Loft
  /-- contexts whose loft waits until a run of units is free of the requests of the objects that left it (R355) -/
  loftWaits : List Nat
  /-- cells whose retirement is in progress, not yet spliced -/
  retiring : List Nat
  deriving DecidableEq, Repr, Inhabited

/-- The role of a physical region (R429). -/
inductive Role where
  | active (logical : Nat)
  | standby (slot : Nat)
  | failed
  | disabled
  deriving DecidableEq, Repr, Inhabited

/-- Counters of a region's lifetime entry (Table 16.11). -/
structure RegionLife where
  activeNs : Nat
  standbyNs : Nat
  ce : Nat
  ue : Nat
  timeouts : Nat
  retired : Nat
  exchanges : Nat
  misses : Nat
  tempNs : Map Nat Nat
  voltNs : Map Nat Nat
  paceNs : Map Nat Nat
  /-- stalls of earlier power-ons, by cause -/
  stallNs : Map Nat Nat
  deriving DecidableEq, Repr, Inhabited

/-- A physical region (R34, R70, R198, R217, R356, Table 17.3). -/
structure PhysRegion where
  role : Role
  fixedLost : Bool
  miss : Bool
  missCount : Nat
  paceMin : Nat
  paceNow : Nat
  vcore : Nat
  tj : Int
  budgetW : Nat
  powerW : Nat
  targetMv : Nat
  throttled : Bool
  throttling : Bool
  capped : Bool
  stallNs : Map Nat Nat
  evictions : Nat
  reels : Map Nat ReelCount
  shardLoad : Map Nat (Nat × Nat)
  sketch : List SketchEntry
  /-- retired cell position and the spare spliced for it -/
  retired : List (Nat × Option Nat)
  coreEn : Bool
  corePg : Bool
  /-- service in progress: ACTION and command -/
  service : Option (Nat × Nat)
  /-- to be recorded as failed at the next boundary (R36, R474, R484) -/
  failing : Bool
  lastMissLog : Option Nat
  life : RegionLife
  deriving DecidableEq, Repr, Inhabited

/-! ### Links, ports, functions -/

/-- A device-link port (R383 to R391, Table 14.4). -/
structure Link where
  up : Bool
  training : Bool
  lanes : List Nat
  spareFor : Option Nat
  failedLanes : List Nat
  retrains : Nat
  crcErrors : Nat
  replays : Nat
  sendSeq : Nat
  /-- payloads of data flits that wait to leave, and whether the request that sends one holds its flit credit (R385, R387) -/
  outq : List (Bool × List Byte)
  /-- data flits sent and not yet covered by an ACK: SEQ and payload -/
  replay : List (Nat × List Byte)
  recvSeq : Nat
  discarding : Bool
  failSeq : Nat
  failCount : Nat
  /-- ACK of the last NAK received, and how many in succession carried it -/
  nakAck : Nat
  nakCount : Nat
  /-- operations received and not yet performed, oldest first (R394) -/
  inbox : List (OpHeader × List Byte)
  refclk : Bool
  draining : Bool
  withdrawing : Bool
  /-- after a fall to 7 lanes: no new transfer until the reserved rate is below 87.5 GB/s (R390) -/
  rateBlocked : Bool
  wiringFault : Bool
  /-- flit slots of the receive buffer that have become free and are not yet returned in CREDITS (R387) -/
  freed : Nat
  /-- flit credits of the receive buffer that the peer holds (R387, R396) -/
  lent : Nat
  deriving DecidableEq, Repr, Inhabited

/-- The fields of a flit before its payload (Table 14.3). -/
structure FlitHead where
  kind : Nat
  seq : Nat
  ack : Nat
  credits : Nat
  deriving DecidableEq, Repr, Inhabited

/-- A host port (R401 to R404). -/
structure PciePort where
  perst : Bool
  /-- device time (or count) from which configuration requests are answered -/
  readyAt : Option Nat
  linkUp : Bool
  speed : Nat
  width : Nat
  refclk : Bool
  deriving DecidableEq, Repr, Inhabited

/-- A queue register set (Tables 15.2 to 15.4). -/
structure Queue where
  sqBase : DWord
  cqBase : DWord
  en : Bool
  irqEn : Bool
  sqLog2 : Nat
  cqLog2 : Nat
  vector : Nat
  sqTail : Nat
  cqHead : Nat
  sqHead : Nat
  cqTail : Nat
  started : Nat
  phase : Bool
  deriving DecidableEq, Repr, Inhabited

/-- A staged publish (R199, R202). -/
structure Publish where
  desc : TableDesc
  shards : List ShardEntry
  /-- the migration area of each owner region, by owner code (R200) -/
  mig : Map Nat (Nat × Nat)
  deriving DecidableEq, Repr, Inhabited

/-- A firmware addendum that has passed its checks (R432, R433). -/
structure Addendum where
  seq : Nat
  lowerRev : Nat
  vectors : List (Nat × Nat)
  romRev : Word
  key : Nat
  /-- the whole image of Table 15.18, its code and its signature among it -/
  image : List Byte
  deriving DecidableEq, Repr, Inhabited

/-- A staged copy: register words by control-space offset with the mask of the bits it holds, publishes, an addendum
(R422). -/
structure StagedCopy where
  regs : List (Nat × DWord × DWord)
  publishes : List Publish
  addendum : Option Addendum
  deriving DecidableEq, Repr, Inhabited

/-- A frozen copy and its APPLY (R423 to R425). -/
structure FrozenCopy where
  copy : StagedCopy
  cmd : Nat
  boundary : Nat
  group : Nat
  devices : Nat
  passed : Bool
  deriving DecidableEq, Repr, Inhabited

/-- A PCIe function (R408, R427). -/
structure Function where
  queues : Map Nat Queue
  open_ : StagedCopy
  frozen : Option FrozenCopy
  denied : Nat
  eventsLost : Nat
  lastStatus : Nat
  /-- T2 quota in bytes (R363) -/
  t2Quota : Nat
  deriving DecidableEq, Repr, Inhabited

/-- The configuration space and the interrupt state of a function at one host port (R401, R404 to R406). -/
structure FnConfig where
  busMaster : Bool
  vfEnable : Bool
  timeoutNs : Nat
  /-- AER: the uncorrectable error status -/
  aer : Nat
  /-- raw words of the MSI-X table, by offset in it, and the vectors pending (Table 15.1) -/
  msix : Map Nat DWord
  msixPending : List Nat
  deriving DecidableEq, Repr, Inhabited

/-- How far a command has come (R411 to R415). -/
inductive CmdStage where
  | fetched
  | accepted
  /-- its work has ended; the record is not ready yet -/
  | ended
  deriving DecidableEq, Repr, Inhabited

/-- A fetched or accepted command (R412). -/
structure Cmd where
  id : Nat
  fn : Nat
  queue : Nat
  entry : List Byte
  number : Nat
  stage : CmdStage
  tAccept : Nat
  promised : Option Nat
  status : Nat
  detail : Nat
  result : Nat
  retried : Bool
  /-- the lowering revision at its acceptance (R83) -/
  rev : Nat
  /-- WS fields as they were at its acceptance: what it is checked against and works with (R424) -/
  regs : Map Nat DWord
  /-- the promised interval of the jobs that a DISABLE drains, as it stood at its acceptance (R327): D of each job, by region and
  tag -/
  intervals : Map (Nat × Nat) Nat
  /-- energy of the work it has carried out, in pJ (R415) -/
  energyPj : Nat
  /-- what a running command keeps: B of CHECKPOINT and RESTORE, the items of DISABLE -/
  size : Nat
  /-- how far a command of several parts has come -/
  phase : Nat
  deriving DecidableEq, Repr, Inhabited

/-- A record ready to be posted (Table 15.6); `word` replaces PROMISED and ACTUAL in an event record. -/
structure Record where
  fn : Nat
  queue : Nat
  cid : Nat
  status : Nat
  detail : Nat
  tDone : Nat
  promised : Nat
  actual : Nat
  noPromise : Bool
  missed : Bool
  energyMj : Nat
  result : Nat
  word : Option Nat
  deriving DecidableEq, Repr, Inhabited

/-- An allocation (R420). -/
structure Allocation where
  handle : Nat
  fn : Nat
  tier : Nat
  base : Nat
  units : Nat
  backing : Nat
  width : Nat
  deriving DecidableEq, Repr, Inhabited

/-- A loan of T2 frames to a function of a peer device (R359). -/
structure Loan where
  peer : Nat
  fn : Nat
  lender : Nat
  base : Nat
  deriving DecidableEq, Repr, Inhabited

/-- A FREE, LEND or return that waits for its boundary (R421). -/
inductive LaterEffect where
  | free (cmd handle : Nat)
  | lend (cmd : Nat) (loans : List Loan)
  | giveBack (cmd : Nat) (loans : List Loan)
  deriving DecidableEq, Repr, Inhabited

/-- A vote of another device's quorum (R425). -/
structure Vote where
  device : Nat
  group : Nat
  boundary : Nat
  pass : Bool
  at_ : Nat
  deriving DecidableEq, Repr, Inhabited

/-! ### Keels, logs, flash -/

/-- The Keels (R446 to R450). -/
structure Keels where
  /-- voting Keels, the one that has voted longest first -/
  voting : List Nat
  standby : Option Nat
  failed : List Nat
  /-- heartbeats missed in a row -/
  missed : Map Nat Nat
  formed : Bool
  joinBy : Option Nat
  lastRotation : Nat
  /-- the voters have disagreed once on the change of the region map (R448) -/
  mapRetried : Bool
  /-- how the Keels vote on the next action that the quorum takes of itself: a map change, or the digest of a native result. A free
  value (log entry 142), drawn anew for each -/
  ballot : Votes
  deriving DecidableEq, Repr, Inhabited

/-- A fault log entry (Table 16.2). -/
structure LogEntry where
  t : Nat
  code : Nat
  phys : Nat
  unit : Nat
  ctx : Nat
  detail : Nat
  deriving DecidableEq, Repr, Inhabited

/-- An entry of the retirement list (R465). -/
structure Retirement where
  t : Nat
  kind : Nat
  place : Nat
  item : Nat
  deriving DecidableEq, Repr, Inhabited

/-- The device entry of the lifetime record (Table 16.10). -/
structure DeviceLife where
  powerOnNs : Nat
  powerCycles : Nat
  holds : Nat
  stackCe : Map Nat Nat
  stackUe : Map Nat Nat
  stackRetired : Map Nat Nat
  portRetrains : Map Nat Nat
  portCrc : Map Nat Nat
  portLanes : Map Nat (List Nat)
  deriving DecidableEq, Repr, Inhabited

/-- A slot of the redundancy record (Table 16.9): its SEQ, whether its CRC-32 holds, and what it records. -/
structure RedundancySlot where
  seq : Nat
  crcOk : Bool
  regionMap : Option (List Role)
  failedKeels : List Nat
  floor : Nat
  activeSlot : Nat
  deriving DecidableEq, Repr, Inhabited

/-- An addendum slot of the flash (Table 16.9). -/
structure AddendumSlot where
  seq : Nat
  crcOk : Bool
  held : Option Addendum
  deriving DecidableEq, Repr, Inhabited

/-- A lifetime slot of the flash (R464). -/
structure LifeSlot where
  seq : Nat
  crcOk : Bool
  time : Nat
  device : DeviceLife
  regions : Map Nat RegionLife
  deriving DecidableEq, Repr, Inhabited

/-- The board flash (R463 to R465). -/
structure Flash where
  present : Bool
  boardSerial : DWord
  deviceSerial : DWord
  /-- the redundancy record as the Keels hold it, from the slot that the last power-on used: the region map (none before the
  first power-on), the failed Keels, the floor and the slot of the active addendum -/
  regionMap : Option (List Role)
  failedKeels : List Nat
  floor : Nat
  activeSlot : Nat
  record0 : RedundancySlot
  record1 : RedundancySlot
  addendum0 : AddendumSlot
  addendum1 : AddendumSlot
  slot0 : LifeSlot
  slot1 : LifeSlot
  lastLifeWrite : Nat
  retryAt : Option Nat
  retirements : List Retirement
  pendingRetirements : List Retirement
  deriving DecidableEq, Repr, Inhabited

/-- Package power and lift (Tables 17.2, 17.5; R476, R477). -/
structure Power where
  capped : Bool
  capOver : Bool
  hot : Bool
  linkW : Nat
  /-- hottest junction of the link dies, °C -/
  linkTj : Int
  pkgW : Nat
  liftOffset : Int
  reports : List LiftReport
  /-- energy since power-on, in pJ, and the boot count up to which it has been charged (R478, R480) -/
  energyPj : Nat
  energyAt : Nat
  deriving DecidableEq, Repr, Inhabited

/-- What the board and the test access drive (R485 to R493). -/
structure Board where
  vaon : Bool
  sharedPg : Bool
  tap : TapOp
  /-- a power-on sequence has reached the point at which commands may be admitted -/
  started : Bool
  /-- device-link ports that the board connects (R381) -/
  wired : List Nat
  /-- boot count at which the last shared power-good rose (P of R487) -/
  poweredAt : Option Nat
  /-- boundary at which the other port becomes the serving one, and the vector that then signals it (R403) -/
  serveSwitch : Option Nat
  serveVector : Option Nat
  /-- dynamic address of the management interface, once the controller has given it one (Table 14.10) -/
  i3cAddr : Option Nat
  deriving DecidableEq, Repr, Inhabited

/-- What leaves the device: flits, pulses, interrupts and management answers, oldest first. -/
inductive Output where
  | timeFlit (port boundary : Nat)
  | epochPulse (boundary : Nat)
  | identity (port device peerPort : Nat) (serial : DWord) (revision : Word)
  /-- a flit: its head, the bytes of its payload that are not zero padding, and its CRC (Table 14.3) -/
  | flit (port : Nat) (h : FlitHead) (payload : List Byte) (crc : Word)
  | laneChange (port lane : Nat)
  | lift (port : Nat) (r : LiftReport)
  | op (port : Nat) (h : OpHeader) (payload : List Byte)
  | batch (dest : Nat) (b : OwnerBatch)
  | packet (dest : Nat) (p : Packet)
  | vote (device group boundary : Nat) (pass : Bool)
  | msix (fn vector : Nat)
  /-- a host request on a PCIe port, with the requester identity of a function (R347) -/
  | hostRequest (port fn : Nat) (write : Bool) (addr n : Nat)
  /-- a write into host memory as a poisoned TLP (R501) -/
  | poisonedTlp (port fn addr n : Nat)
  | wiringFault (port : Nat)
  | lossOfRedundancy (port : Nat)
  | mctp (m : MctpRequest) (payload : List Byte)
  | retryStatus (fn : Nat)
  | configData (port fn offset : Nat) (value : DWord)
  /-- a management target that has no address yet asks for one, and one that has something to report interrupts (Table 14.10) -/
  | hotJoin
  | inBandInterrupt
  | heldReport
  deriving DecidableEq, Repr, Inhabited

/-- The bytes of one window that a checkpoint holds: those that are not zero, by offset, and the poisoned offsets. -/
structure WindowPart where
  window : Nat
  size : Nat
  cells : List (Nat × Byte)
  poison : List Nat
  deriving DecidableEq, Repr, Inhabited

/-- The rows of one version of a table that a checkpoint holds: row, packed row, accumulator. -/
structure TablePart where
  table : Nat
  version : Nat
  rows : List (Nat × List Byte × List Byte)
  deriving DecidableEq, Repr, Inhabited

/-- What a checkpoint holds (Table 16.6). -/
structure CheckpointParts where
  windows : List WindowPart
  tables : List TablePart
  /-- table and version of each kept pin -/
  pins : List (Nat × Nat)
  lofts : List (Nat × Loft)
  /-- matching entries by the cell's number in the context and the entry -/
  entries : List (Nat × Nat × MatchEntry)
  recipe : DWord
  scaleMode : DWord
  roundSeed : DWord
  recipeLeft : Nat
  deriving DecidableEq, Repr, Inhabited

/-- An entry of the lowered-image cache (R83). -/
structure Lowered where
  digest : BitVec 384
  rev : Nat
  deriving DecidableEq, Repr, Inhabited

/-- The device. -/
structure State where
  /-- the commands that are waiting, first in first out -/
  pending : List Instr
  part : Part
  clock : Clock
  mem : Memory
  pages : Map Nat PageRun
  retiredGranules : List (Nat × Nat × Nat)
  granuleErrors : Map (Nat × Nat) Nat
  /-- WS and RW fields of the control space, by offset (Table 15.12) -/
  regs : Map Nat DWord
  contexts : Map Nat Context
  threads : Map ThreadId Thread
  /-- groups and vector contexts by context, cell, group -/
  groups : Map (Nat × Nat × Nat) Group
  vectors : Map (Nat × Nat × Nat) VectorCtx
  requests : List Request
  nextReq : Nat
  dests : Map Resource Destination
  ledgers : Map (AdmPoint × Resource) Ledger
  /-- wake credits of the registered watch slots (R153) -/
  wakes : List WakeCredit
  /-- activity counted since energy was last charged (R478) -/
  activity : Map ActKey Nat
  transfers : List Transfer
  nextXfer : Nat
  ops : List TensorOp
  nextOp : Nat
  logs : Map Nat LogRegion
  phys : Map Nat PhysRegion
  tables : Map Nat TableState
  keptPins : List KeptPin
  links : Map Nat Link
  ports : Map Nat PciePort
  fns : Map Nat Function
  /-- configuration spaces, by host port and function (R402, R404) -/
  cfgs : Map (Nat × Nat) FnConfig
  cmds : List Cmd
  nextCmd : Nat
  records : List Record
  allocs : List Allocation
  nextHandle : Nat
  loans : List Loan
  later : List (LaterEffect × Nat)
  votes : List Vote
  keels : Keels
  hold : Bool
  faultLog : Map Nat LogEntry
  logTotal : Nat
  flash : Flash
  life : DeviceLife
  power : Power
  board : Board
  out : List Output
  lowered : List Lowered
  objects : List PoolObject
  /-- checkpoint bodies that this device has written, and what they hold (R456) -/
  checkpoints : List (List Byte × CheckpointParts)
  /-- function and queue served last (R412) -/
  cmdTurn : Nat × Nat
  /-- the active bank, and the loading bank (R433, R434) -/
  addendum : Option Addendum
  loadBank : Option Addendum
  /-- a stored addendum was refused at power-on: DETAIL and SEQ of the event still to be posted (R434) -/
  notice : Option (Nat × Nat)
  lowerRev : Nat
  /-- time of the last event posted, by event code and context (rate limits of R436, R471, R474, R501) -/
  lastEvent : Map (Nat × Nat) Nat
  /-- the instant at which the event of a W1C field occurred last, by control-space offset and top bit (R13) -/
  w1cAt : Map (Nat × Nat) Nat
  /-- the model's own: picks a fresh free value at each use -/
  freeCounter : Nat
  deriving DecidableEq, Repr

/-- Why the device stops. The spec names no event that stops the device: faults are counted and work goes on (R33, R95).
No command of the table ends in a fault. -/
inductive Fault where
  /-- raised by nothing in this model; safe -/
  | none
  deriving DecidableEq, Repr

/-- Why a command has no meaning. -/
inductive Refusal where
  /-- raised only by an arm of `exec` that has no meaning yet; safe -/
  | notModelled (mnemonic : String)
  /-- raised by every thread instruction on a word that is statically illegal under R111: lowering refuses it, so no
  thread ever executes it; safe -/
  | staticallyIllegal
  deriving DecidableEq, Repr

/-- A memory with nothing listed. -/
def Memory.empty : Memory := { cells := [], poison := [] }

/-- The power-on values of the always-on time base (R398, R399). -/
def Clock.reset : Clock :=
  { bootCount := 0, time := 0, running := false, aligned := false, master := false, silence := 0, announced := none,
    holdNs := 0, behindNs := 0, half := false, offsets := [], internalOsc := false, oscPosted := false }

/-- Keels before the quorum has formed (R20, Table 1.2). -/
def Keels.reset : Keels :=
  { voting := [], standby := none, failed := [], missed := [], formed := false, joinBy := none, lastRotation := 0,
    mapRetried := false, ballot := { agree := [0, 1, 2, 3], failing := [] } }

/-- Lifetime counters of a part at its first power-on (Table 16.10). -/
def DeviceLife.reset : DeviceLife :=
  { powerOnNs := 0, powerCycles := 0, holds := 0, stackCe := [], stackUe := [], stackRetired := [],
    portRetrains := [], portCrc := [], portLanes := [] }

/-- The flash of a part at its first power-on (R35, R463). -/
def Flash.reset : Flash :=
  { present := true, boardSerial := 0, deviceSerial := 0, regionMap := none, failedKeels := [], floor := 0, activeSlot := 0,
    record0 := { seq := 0, crcOk := false, regionMap := none, failedKeels := [], floor := 0, activeSlot := 0 },
    record1 := { seq := 0, crcOk := false, regionMap := none, failedKeels := [], floor := 0, activeSlot := 0 },
    addendum0 := { seq := 0, crcOk := false, held := none },
    addendum1 := { seq := 0, crcOk := false, held := none },
    slot0 := { seq := 0, crcOk := false, time := 0, device := DeviceLife.reset, regions := [] },
    slot1 := { seq := 0, crcOk := false, time := 0, device := DeviceLife.reset, regions := [] },
    lastLifeWrite := 0, retryAt := none, retirements := [], pendingRetirements := [] }

/-- Reset of the package power state (Table 17.2). -/
def Power.reset : Power :=
  { capped := false, capOver := false, hot := false, linkW := 0, linkTj := 0, pkgW := 0, liftOffset := 0, reports := [],
    energyPj := 0, energyAt := 0 }

/-- The board as the always-on rail becomes valid: every port connected (log entry 1), the TAP in BYPASS (R493). -/
def Board.reset : Board :=
  { vaon := true, sharedPg := false, tap := .bypass, started := false, wired := [0, 1, 2, 3, 4, 5, 6, 7],
    poweredAt := none, serveSwitch := none, serveVector := none, i3cAddr := none }

/-- The device right after the always-on rail has become valid, every other rail still down (log entry 2). Maps are
empty: what they do not list has its reset value. -/
def State.reset : State :=
  { pending := [],
    part := { grade := .T, revision := 0x41, disabled := [], serial := 0, romRev := 1, device := 0 },
    clock := Clock.reset, mem := Memory.empty, pages := [], retiredGranules := [], granuleErrors := [], regs := [],
    contexts := [], threads := [], groups := [], vectors := [], requests := [], nextReq := 0,
    dests := [], ledgers := [], wakes := [], activity := [], transfers := [], nextXfer := 0, ops := [], nextOp := 0, logs := [], phys := [],
    tables := [], keptPins := [], links := [], ports := [], fns := [], cfgs := [], cmds := [], nextCmd := 0, records := [],
    allocs := [], nextHandle := 0, loans := [], later := [], votes := [], keels := Keels.reset, hold := false,
    faultLog := [], logTotal := 0, flash := Flash.reset, life := DeviceLife.reset, power := Power.reset,
    board := Board.reset,
    out := [], lowered := [], objects := [], checkpoints := [], cmdTurn := (0, 0), addendum := none, loadBank := none,
    notice := none, lowerRev := 1, lastEvent := [], w1cAt := [], freeCounter := 0 }

end Sys2Proof.Machine
end

