-- ==== Sys2Proof/Machine/Ops.lean ====
section
/-! DEFINITION. The named operations over the state: maps, bytes, memory, registers of the control space, contexts,
regions, events, the fault log and the passing of time. -/

namespace Sys2Proof.Machine

open Sys2Proof

/-! ### Maps -/

/-- The value of a key, if it is listed. -/
def mget? {α β : Type} [DecidableEq α] : Map α β → α → Option β
  | [], _ => none
  | (a, b) :: r, k => if a = k then some b else mget? r k

/-- The value of a key, or the reset value of its kind. -/
def mget {α β : Type} [DecidableEq α] (d : β) (m : Map α β) (k : α) : β := (mget? m k).getD d

/-- Sets the value of a key. -/
def mset {α β : Type} [DecidableEq α] : Map α β → α → β → Map α β
  | [], k, v => [(k, v)]
  | (a, b) :: r, k, v => if a = k then (k, v) :: r else (a, b) :: mset r k v

/-- Drops a key. -/
def mdel {α β : Type} [DecidableEq α] (m : Map α β) (k : α) : Map α β := m.filter (fun e => e.1 ≠ k)

/-- Changes the value of a key. -/
def mmod {α β : Type} [DecidableEq α] (d : β) (m : Map α β) (k : α) (f : β → β) : Map α β := mset m k (f (mget d m k))

/-- The numbers of listed things are all different and below the next number to be given. -/
def freshIds {α : Type} (id : α → Nat) (l : List α) (next : Nat) : Prop := (l.map id).Nodup ∧ ∀ x ∈ l, id x < next

/-! ### Numbers and bytes -/

/-- Addition that saturates at a maximum. -/
def satAdd (max a b : Nat) : Nat := Nat.min max (a + b)

/-- The bits [hi:lo] of a number (R7). -/
def bits (v hi lo : Nat) : Nat := (v / 2 ^ lo) % 2 ^ (hi + 1 - lo)

/-- The bit n of a number. -/
def bitOf (v n : Nat) : Bool := (v / 2 ^ n) % 2 == 1

/-- A bit as a number. -/
def b2n (b : Bool) : Nat := if b then 1 else 0

/-- ⌈a ÷ b⌉. -/
def ceilDiv (a b : Nat) : Nat := (a + b - 1) / b

/-- Rounds up to a multiple of 64 (R190). -/
def r64 (n : Nat) : Nat := ceilDiv n 64 * 64

/-- The value of little-endian bytes (R6). -/
def leNat : List Byte → Nat
  | [] => 0
  | b :: r => b.toNat + 256 * leNat r

/-- The n little-endian bytes of a value (R6). -/
def leBytes : Nat → Nat → List Byte
  | 0, _ => []
  | n + 1, v => BitVec.ofNat 8 v :: leBytes n (v / 256)

/-- The field of `n` bytes at an offset of a record (R6). -/
def fieldAt (r : List Byte) (off n : Nat) : Nat := leNat ((r.drop off).take n)

/-- Two's complement of w bits. -/
def toSigned (w v : Nat) : Int := if v % 2 ^ w < 2 ^ (w - 1) then (v % 2 ^ w : Nat) else (v % 2 ^ w : Nat) - (2 ^ w : Nat)

/-- The w-bit pattern of an integer. -/
def ofSigned (w : Nat) (i : Int) : Nat := (i % (2 ^ w : Nat)).toNat

/-- Replaces the element at a position, when there is one. -/
def setAt {α : Type} (l : List α) (i : Nat) (x : α) : List α := l.set i x

/-- Overwrites the bytes of a record from an offset on. -/
def patch (r : List Byte) (off : Nat) (bs : List Byte) : List Byte :=
  r.take off ++ bs ++ r.drop (off + bs.length)

/-! ### Memory -/

/-- What an address reads as: unlisted addresses read 0 (log entry 4). -/
def cellsRead : List Host.Cell → Nat → Byte
  | [], _ => 0
  | (b, v) :: r, a => if b = a then v else if a < b then 0 else cellsRead r a

/-- Writes one byte and keeps the canonical form: rising addresses, no listed zero. -/
def cellsWrite : List Host.Cell → Nat → Byte → List Host.Cell
  | [], a, v => if v = 0 then [] else [(a, v)]
  | (b, w) :: r, a, v =>
    if a < b then (if v = 0 then (b, w) :: r else (a, v) :: (b, w) :: r)
    else if a = b then (if v = 0 then r else (a, v) :: r)
    else (b, w) :: cellsWrite r a v

/-- Strictly rising addresses above a bound, no listed zero. -/
def cellsWf : Nat → List Host.Cell → Bool
  | _, [] => true
  | lo, (a, v) :: r => decide (lo ≤ a) && decide (v ≠ 0) && cellsWf (a + 1) r

/-- The canonical form of memory. -/
def Memory.wf (m : Memory) : Bool := cellsWf 0 m.cells

/-- The byte at an address. -/
def Memory.readByte (m : Memory) (a : Nat) : Byte := cellsRead m.cells a

/-- Stores a byte. -/
def Memory.writeByte (m : Memory) (a : Nat) (v : Byte) : Memory := { m with cells := cellsWrite m.cells a v }

/-- The n bytes from an address on. -/
def Memory.readBytes (m : Memory) (a : Nat) : Nat → List Byte
  | 0 => []
  | n + 1 => m.readByte a :: Memory.readBytes m (a + 1) n

/-- Stores bytes from an address on. -/
def Memory.writeBytes (m : Memory) (a : Nat) : List Byte → Memory
  | [] => m
  | b :: r => (m.writeByte a b).writeBytes (a + 1) r

/-- The space code of a unified device address (R343). -/
def spaceOf (a : Nat) : Nat := bits a 55 52

/-- A 32-bit word that holds a poisoned byte (R64, R376). -/
def wordPoisoned (m : Memory) (a : Nat) : Bool := m.poison.any (fun p => p / 4 == a / 4)

/-- The bytes a read delivers: four zero bytes in place of every poisoned word (R64). -/
def Memory.fetchBytes (m : Memory) (a n : Nat) : List Byte :=
  (List.range n).map fun i => if wordPoisoned m (a + i) then 0 else m.readByte (a + i)

/-- Whether a read of n bytes meets poison: the address of the first poisoned word. -/
def firstPoison (m : Memory) (a n : Nat) : Option Nat :=
  ((List.range n).map (a + ·)).find? (fun x => wordPoisoned m x)

/-- Whether the byte at `x` of a write of the range [a, a + n) is stored: in T0 and T1, a write that covers only part of
a poisoned word is discarded (R376). -/
def storeAllowed (m : Memory) (a n x : Nat) : Bool :=
  let sp := spaceOf x
  if (sp = 1 ∨ sp = 2) ∧ wordPoisoned m x then decide (a ≤ x / 4 * 4 ∧ x / 4 * 4 + 4 ≤ a + n) else true

/-- One byte of a store: written and its poison cleared. -/
def Memory.putByte (m : Memory) (x : Nat) (b : Byte) : Memory :=
  { (m.writeByte x b) with poison := m.poison.filter (· ≠ x) }

/-- A store of bytes under the poison rules of R376. -/
def Memory.store (m : Memory) (a : Nat) (bs : List Byte) : Memory :=
  (bs.zipIdx).foldl (fun acc (b, i) => if storeAllowed m a bs.length (a + i) then acc.putByte (a + i) b else acc) m

/-- Marks the words of a range poisoned; their bytes read as delivered zeros. -/
def Memory.poisonRange (m : Memory) (a n : Nat) : Memory :=
  { m with poison := m.poison ++ ((List.range n).map (a + ·)).filter (fun x => !m.poison.contains x) }

/-- Poisons what an uncorrectable word destroys: the whole 256-byte line in T2, the word elsewhere (R376). -/
def Memory.poisonAt (m : Memory) (a : Nat) : Memory :=
  if spaceOf a = 0 then m.poisonRange (a / 256 * 256) 256 else m.poisonRange (a / 4 * 4) 4

/-- Moves bytes and carries poison onward (R501): a destination word written from a poisoned word is poisoned, in T2 its
whole line. -/
def Memory.move (m : Memory) (src dst n : Nat) : Memory :=
  let m1 := m.store dst (m.fetchBytes src n)
  (List.range n).foldl (fun acc i =>
    if wordPoisoned m (src + i) ∧ spaceOf dst < 3 then acc.poisonAt (dst + i) else acc) m1

/-- Drops every byte and every poison mark that satisfies a test: a replaced region's T0 and T1 are zero (R443). -/
def Memory.eraseWhere (m : Memory) (f : Nat → Bool) : Memory :=
  { cells := m.cells.filter (fun c => !f c.1), poison := m.poison.filter (fun a => !f a) }

/-! ### Unified device addresses (R343) -/

/-- T2 address of a stack. -/
def t2Addr (stack off : Nat) : Nat := stack * 2 ^ 37 + off

/-- T1 address of a logical region or ballast slot. -/
def t1Addr (region off : Nat) : Nat := 1 * 2 ^ 52 + region * 2 ^ 29 + off

/-- T0 address of a cell. -/
def t0Addr (region cell off : Nat) : Nat := 2 * 2 ^ 52 + region * 2 ^ 29 + cell * 2 ^ 20 + off

/-- Peer address. -/
def peerAddr (dev space inner : Nat) : Nat := 4 * 2 ^ 52 + dev * 2 ^ 48 + space * 2 ^ 44 + inner

/-- Host address of a port. -/
def hostAddr (port bus : Nat) : Nat := 5 * 2 ^ 52 + port * 2 ^ 51 + bus % 2 ^ 48

/-- Logical region of a T1 or T0 address. -/
def addrRegion (a : Nat) : Nat := bits a 33 29

/-- Cell of a T0 address. -/
def addrCell (a : Nat) : Nat := bits a 27 20

/-- T1 bank (R344). -/
def addrBank (a : Nat) : Nat := bits a 15 8

/-- T2 stack and channel (R345). -/
def addrStack (a : Nat) : Nat := bits a 40 37

def addrChannel (a : Nat) : Nat := bits a 16 12

/-! ### Contexts, regions, ports -/

/-- A fresh per-region status of a context. -/
def CtxRegion.zero : CtxRegion :=
  { tokenFaults := 0, watchFaults := 0, late := 0, atRisk := 0, lateUs := 0, nonfinite := 0, abortedJobs := 0,
    refusedJobs := 0, jobsDone := 0, gatherNext := 0, reduceNext := 0, winchNext := 0 }

/-- No break. -/
def BreakInfo.zero : BreakInfo := { cause := 0, comparator := 0, thread := 0, cell := 0, tag := 0, group := 0, time := 0 }

/-- The empty context (Table 3.9). -/
def Context.blank : Context :=
  { state := .empty, fn := 0, slot := 0xFF, blocks := [], image := none, winFaults := 0, brk := BreakInfo.zero,
    breaking := false, stoppedAt := [], lastCount := none, recipeLeft := 0, skipped := 0, outcomes := 0, convertFlags := 0,
    patternFaults := 0, skipMisses := 0, tilesSkipped := 0, indexFaults := 0, winchRefused := 0, steer := none,
    restores := 0, exchanges := 0, energyPj := 0, startEnergyPj := 0, exchanged := false, restoredLeft := none,
    reported := [], regions := [], lastOutcomes := 0, drainCmd := none }

def ctxOf (s : State) (c : Nat) : Context := mget Context.blank s.contexts c

def setCtx (s : State) (c : Nat) (x : Context) : State := { s with contexts := mset s.contexts c x }

def modCtx (s : State) (c : Nat) (f : Context → Context) : State := setCtx s c (f (ctxOf s c))

/-- A reset matching entry (R160). -/
def MatchEntry.zero : MatchEntry :=
  { armed := false, required := 0, arrived := 0, rearm := false, argstep := 0, task := 0, waiting := none,
    arrivedAt := [] }

/-- A sequencer that has done nothing since power-on (R319). -/
def Sequencer.zero : Sequencer :=
  { jobs := [], nextTag := 0, outq := [], sendSeq := [], recvSeq := [], inbox := [], ended := [], channels := [], contribution := [],
    tails := [], underWay := [] }

/-- A logical region in which nothing has happened. -/
def LogRegion.zero : LogRegion :=
  { vacant := false, exchange := none, units := [], entries := [], ready := [], takers := [], handed := [],
    flows := [], delay := [], firings := [], reels := [], gatherJobs := [], nextGather := 0, forwards := [], inboxNext := 0, packetNext := 0, winch := [], nextWinch := 0,
    winchTurn := 0, gates := [], seqr := Sequencer.zero, blocks := [], lofts := [], loftWaits := [], retiring := [] }

def regionOf (s : State) (L : Nat) : LogRegion := mget LogRegion.zero s.logs L

def setRegion (s : State) (L : Nat) (x : LogRegion) : State := { s with logs := mset s.logs L x }

def modRegion (s : State) (L : Nat) (f : LogRegion → LogRegion) : State := setRegion s L (f (regionOf s L))

/-- Active regions of a grade (Table 0.2). -/
def activeCount (g : Grade) : Nat := match g with | .T => 16 | .S => 14

/-- The role of a physical region at first power-on (R35): the lowest-numbered regions not disabled at test are active
in order, the next two are the standbys in slots 16 and 17. -/
def firstRole (part : Part) (p : Nat) : Role :=
  if part.grade = .S ∧ p ∈ part.disabled then .disabled
  else
    let n := ((List.range p).filter (fun q => !(part.grade == .S && part.disabled.contains q))).length
    if n < activeCount part.grade then .active n else .standby (16 + (n - activeCount part.grade))

def RegionLife.zero : RegionLife :=
  { activeNs := 0, standbyNs := 0, ce := 0, ue := 0, timeouts := 0, retired := 0, exchanges := 0, misses := 0,
    tempNs := [], voltNs := [], paceNs := [], stallNs := [] }

/-- Reset of a physical region's registers (Tables 2.9, 6.12, 7.9, 13.3, 17.3, 17.4). -/
def PhysRegion.zero (r : Role) : PhysRegion :=
  { role := r, fixedLost := false, miss := false, missCount := 0, paceMin := 0xFFF, paceNow := 0, vcore := 0, tj := 0,
    budgetW := 0, powerW := 0, targetMv := 0, throttled := false, throttling := false, capped := false, stallNs := [],
    evictions := 0, reels := [], shardLoad := [], sketch := [], retired := [], coreEn := false, corePg := false,
    service := none, failing := false, lastMissLog := none, life := RegionLife.zero }

def physOf (s : State) (p : Nat) : PhysRegion := mget (PhysRegion.zero (firstRole s.part p)) s.phys p

def setPhys (s : State) (p : Nat) (x : PhysRegion) : State := { s with phys := mset s.phys p x }

def modPhys (s : State) (p : Nat) (f : PhysRegion → PhysRegion) : State := setPhys s p (f (physOf s p))

/-- The physical region that a logical region, or a ballast slot, maps to (R34, R36, R357). -/
def physOfLogical (s : State) (L : Nat) : Option Nat :=
  (List.range 18).find? fun p =>
    match (physOf s p).role with
    | .active n => n == L
    | .standby k => k == L
    | _ => false

/-- A loft with nothing in it. -/
def Loft.zero : Loft := { half0 := [], half1 := [], active := 0, ready := false, overRows := 0 }

def ReelUnit.zero : ReelUnit := { queue := [], running := none }

def ReelCount.zero : ReelCount := { refused := 0, units := 0, nextSeq := 0 }

def BlockState.zero : BlockState := { waitNs := 0, predictor := [] }

/-- Reset of a link port (Table 14.4). -/
def Link.zero : Link :=
  { up := false, training := false, lanes := [], spareFor := none, failedLanes := [], retrains := 0, crcErrors := 0,
    replays := 0, sendSeq := 0, outq := [], replay := [], recvSeq := 0, discarding := false, failSeq := 0, failCount := 0,
    nakAck := 0, nakCount := 0, inbox := [], refclk := true, draining := false, withdrawing := false, rateBlocked := false, wiringFault := false,
    freed := 0, lent := 768 }

def linkOf (s : State) (n : Nat) : Link := mget Link.zero s.links n

def modLink (s : State) (n : Nat) (f : Link → Link) : State := { s with links := mset s.links n (f (linkOf s n)) }

/-- Reset of a host port (R404): PERST# is asserted, the link is down. -/
def PciePort.zero : PciePort :=
  { perst := true, readyAt := none, linkUp := false, speed := 0, width := 0, refclk := true }

def portOf (s : State) (n : Nat) : PciePort := mget PciePort.zero s.ports n

def modPort (s : State) (n : Nat) (f : PciePort → PciePort) : State := { s with ports := mset s.ports n (f (portOf s n)) }

def StagedCopy.zero : StagedCopy := { regs := [], publishes := [], addendum := none }

/-- Reset of a function (Tables 15.3, 15.4, 15.10). -/
def Function.zero : Function :=
  { queues := [], open_ := StagedCopy.zero, frozen := none, denied := 0, eventsLost := 0, lastStatus := 0,
    t2Quota := 2 ^ 63 }

/-- Reset of a configuration space and of its interrupt state (R404, R406). -/
def FnConfig.zero : FnConfig :=
  { busMaster := false, vfEnable := false, timeoutNs := 50000000, aer := 0, msix := [], msixPending := [] }

def fnOf (s : State) (f : Nat) : Function := mget Function.zero s.fns f

def modFn (s : State) (f : Nat) (g : Function → Function) : State := { s with fns := mset s.fns f (g (fnOf s f)) }

def Queue.zero : Queue :=
  { sqBase := 0, cqBase := 0, en := false, irqEn := false, sqLog2 := 0, cqLog2 := 0, vector := 0, sqTail := 0,
    cqHead := 0, sqHead := 0, cqTail := 0, started := 0, phase := true }

def queueOf (s : State) (f q : Nat) : Queue := mget Queue.zero (fnOf s f).queues q

def modQueue (s : State) (f q : Nat) (g : Queue → Queue) : State :=
  modFn s f fun x => { x with queues := mmod Queue.zero x.queues q g }

def ctxRegionOf (c : Context) (L : Nat) : CtxRegion := mget CtxRegion.zero c.regions L

def modCtxRegion (s : State) (c L : Nat) (f : CtxRegion → CtxRegion) : State :=
  modCtx s c fun x => { x with regions := mmod CtxRegion.zero x.regions L f }

/-! ### Control-space words that are kept raw (WS and RW fields) -/

/-- Offset of a context's block (Table 15.12). -/
def ctxBlock (c : Nat) : Nat := 0x400000 + 0x4000 * c

def offPace : Nat := 0x100
def offPcie : Nat := 0x108
def offPower : Nat := 0x400
def offLinkCtl (n : Nat) : Nat := 0x300008 + 0x1000 * n
def offWindow (c w : Nat) : Nat := ctxBlock c + 8 * w
def offTagBreak (c i : Nat) : Nat := ctxBlock c + 0x850 + 8 * i
def offCmdBreak (c i : Nat) : Nat := ctxBlock c + 0x870 + 8 * i
def offRecipe (c : Nat) : Nat := ctxBlock c + 0x880
def offScaleMode (c : Nat) : Nat := ctxBlock c + 0x888
def offRoundSeed (c : Nat) : Nat := ctxBlock c + 0x890
def offRecovery (c : Nat) : Nat := ctxBlock c + 0x8B0
/-- the rings of a context in a region: 0 gather, 1 reduction, 2 Winch -/
def offRing (c L k : Nat) : Nat := ctxBlock c + 0x900 + 0x80 * L + 8 * k
def offLoft (c L : Nat) : Nat := ctxBlock c + 0x900 + 0x80 * L + 0x18

/-- Reset of the raw words (Tables 2.8, 10.7, 10.8, 14.5, 14.9, 17.1); every other raw word is 0 at reset. -/
def regReset (off : Nat) : DWord :=
  if off = offPace then 0x640
  else if off = offPcie then BitVec.ofNat 64 (0x10 * 2 ^ 57)
  else if off = offPower then BitVec.ofNat 64 (0x19 * 2 ^ 40 + 0x64 * 2 ^ 19 + 0xBB8)
  else if 0x300000 ≤ off ∧ off < 0x308000 ∧ off % 0x1000 = 8 then BitVec.ofNat 64 (2 ^ 63)
  else if 0x400000 ≤ off ∧ off < 0x500000 then
    if off % 0x4000 = 0x880 then BitVec.ofNat 64 (0xFA * 2 ^ 48 + 0x04 * 2 ^ 8 + 0x04)
    else if off % 0x4000 = 0x888 then BitVec.ofNat 64 (0x10 * 2 ^ 48)
    else 0
  else 0

/-- The active raw word at an offset. -/
def rawReg (s : State) (off : Nat) : DWord := mget (regReset off) s.regs off

def setRaw (s : State) (off : Nat) (v : DWord) : State := { s with regs := mset s.regs off v }

/-- A field of a raw word. -/
def rawField (s : State) (off hi lo : Nat) : Nat := bits (rawReg s off).toNat hi lo

/-- Mode 1 of the host ports (R402). -/
def twoHosts (s : State) : Bool := bitOf (rawReg s offPcie).toNat 63

/-- The serving port of mode 0 (R402); from the boundary that follows the loss of its link, the other one (R403). -/
def servingPort (s : State) : Nat :=
  let p := b2n (bitOf (rawReg s offPcie).toNat 62)
  match s.board.serveSwitch with
  | some t => if t ≤ s.clock.time then 1 - p else p
  | none => p

/-- Host memory is one memory in mode 0, whichever port a request names (R402): bit 51 does not select a second host. -/
def memKey (s : State) (a : Nat) : Nat :=
  if spaceOf a = 5 ∧ !twoHosts s then a - b2n (bitOf a 51) * 2 ^ 51 else a

/-- The parent physical function of a function (R409). -/
def parentFn (s : State) (f : Nat) : Nat :=
  if f < 16 then f
  else if twoHosts s ∧ rawField s offPcie 61 57 ≤ f - 16 then 1 else 0

/-- The host port of a function: its own in mode 1, the serving one in mode 0 (R347, R402). -/
def fnPort (s : State) (f : Nat) : Nat := if twoHosts s then parentFn s f else servingPort s

/-- The configuration space of a function at a host port. -/
def cfgAt (s : State) (port f : Nat) : FnConfig := mget FnConfig.zero s.cfgs (port, f)

def modCfgAt (s : State) (port f : Nat) (g : FnConfig → FnConfig) : State :=
  { s with cfgs := mset s.cfgs (port, f) (g (cfgAt s port f)) }

/-- The configuration space of a function at the port that serves it. -/
def cfgOf (s : State) (f : Nat) : FnConfig := cfgAt s (fnPort s f) f

def modCfg (s : State) (f : Nat) (g : FnConfig → FnConfig) : State := modCfgAt s (fnPort s f) f g

/-- AER records an uncorrectable error of a function at the port that serves it, by the bit that PCIe gives it: 12 a poisoned TLP
received, 14 a completion timeout (R401; PRESUMED, log entry 162). -/
def aerError (s : State) (f bit : Nat) : State :=
  modCfg s f fun x => { x with aer := if x.aer.testBit bit then x.aer else x.aer + 2 ^ bit }

/-- Vector control of a vector, in its MSI-X table entry: masked at reset, as PCIe has it (log entry 70). -/
def vectorMasked (x : FnConfig) (v : Nat) : Bool := bitOf (mget 0x100000000 x.msix (16 * v + 8)).toNat 32

/-- The port by which a host request to an address leaves: the one it names, in mode 0 the other one while that port is
down (R347, R402). -/
def hostPort (s : State) (a : Nat) : Nat :=
  let p := b2n (bitOf a 51)
  if twoHosts s || (portOf s p).linkUp then p else 1 - p

/-- A host request leaves, with the requester identity of the function (R347). -/
def hostRequest (s : State) (fn : Nat) (write : Bool) (a n : Nat) : State :=
  { s with out := s.out ++ [.hostRequest (hostPort s a) fn write (a % 2 ^ 48) n] }

/-- Host bytes at a bus address, as a function sees them. -/
def hostRead (s : State) (f bus n : Nat) : List Byte :=
  s.mem.fetchBytes (memKey s (hostAddr (fnPort s f) bus)) n

/-- The device writes host memory. -/
def hostWrite (s : State) (f bus : Nat) (bs : List Byte) : State :=
  hostRequest { s with mem := s.mem.store (memKey s (hostAddr (fnPort s f) bus)) bs } f true (hostAddr (fnPort s f) bus)
    bs.length

/-! ### Device time -/

/-- Device time (R45). -/
def now (s : State) : Nat := s.clock.time

/-- The first epoch boundary at or after an instant (R47). -/
def boundaryAt (t : Nat) : Nat := ceilDiv t 1048576 * 1048576

/-- The first epoch boundary after an instant. -/
def boundaryAfter (t : Nat) : Nat := (t / 1048576 + 1) * 1048576

/-- An epoch boundary (R47). -/
def isBoundary (t : Nat) : Bool := t % 1048576 == 0

/-- A count that catches up advances in the middle of the nanosecond too (R398). -/
def Clock.midStep (c : Clock) : Bool := c.running && decide (0 < c.behindNs) && !c.half

/-- A nanosecond of the boot count ends: device time takes a step, unless it is held (R45, R398). -/
def Clock.wholeStep (c : Clock) : Clock :=
  let c := { c with bootCount := c.bootCount + 1, silence := c.silence + 1, half := false }
  if !c.running then c
  else if 0 < c.holdNs then { c with holdNs := c.holdNs - 1 }
  else { c with time := c.time + 1, behindNs := c.behindNs - 1 }

/-- The always-on time base goes on by a nanosecond, or by half of one while it catches up: device time takes no step of more
than 1 ns (R45, R398). -/
def Clock.tick (c : Clock) : Clock := if c.midStep then { c with time := c.time + 1, half := true } else c.wholeStep

/-- Something leaves the device. -/
def emit (s : State) (o : Output) : State := { s with out := s.out ++ [o] }

/-- A vector is signalled, or pends while it is masked (Table 14.8). -/
def signalVector (s : State) (f v : Nat) : State :=
  if vectorMasked (cfgOf s f) v then
    modCfg s f fun x => { x with msixPending := if x.msixPending.contains v then x.msixPending else x.msixPending ++ [v] }
  else emit s (.msix f v)

/-- At its boundary the port that takes over signals the change with a vector (R403). -/
def signalServing (s : State) : State :=
  match s.board.serveSwitch, s.board.serveVector with
  | some t, some v =>
    if s.clock.time < t then s
    else signalVector { s with board := { s.board with serveVector := none } } 0 v
  | _, _ => s

/-- The block idles for one nanosecond, or for half of one while its count catches up (log entry 3). -/
def idle (s : State) : State :=
  if s.board.vaon then
    signalServing { s with
      clock := s.clock.tick
      life := { s.life with powerOnNs := s.life.powerOnNs + (if s.clock.midStep then 0 else 1) } }
  else s

/-! ### Free values -/

/-- A fresh free word (log entry 5). -/
def freshWord (s : State) : Word × State := (Config.freeWord s.freeCounter, { s with freeCounter := s.freeCounter + 1 })

/-- A fresh free number. -/
def freshNat (s : State) : Nat × State := (Config.freeNat s.freeCounter, { s with freeCounter := s.freeCounter + 1 })

/-- Fresh free bytes. -/
def freshBytes (s : State) (n : Nat) : List Byte × State :=
  ((List.range n).map (Config.freeByte s.freeCounter), { s with freeCounter := s.freeCounter + 1 })

/-! ### Records, events and the fault log -/

/-- The queue records of events go to (R418): the admin queue of the function; in mode 0 both ports present function 0. -/
def postRecord (s : State) (r : Record) : State := { s with records := s.records ++ [r] }

/-- Status codes (Table 15.7). -/
def stOk : Nat := 0
def stRejected : Nat := 1
def stAbsent : Nat := 2
def stDeferred : Nat := 3
def stAborted : Nat := 4
def stPattern : Nat := 5
def stIndexFault : Nat := 6
def stTierLate : Nat := 7

/-- Status of an event record (R418). -/
def eventStatus (code : Nat) : Nat := if code = 2 then stPattern else if code = 3 then stTierLate else stOk

/-- An event record to the admin queue of a function, or a count in EVENTS_LOST when that queue is closed (R418). Its
T_DONE is the always-on count itself (DEDUCED: R46 allows 8 ns, log entry 31). -/
def postEvent (s : State) (f code ctx detail word : Nat) : State :=
  if (queueOf s f 0).en then
    postRecord s
      { fn := f, queue := 0, cid := 0xFFFE, status := eventStatus code, detail := 0, tDone := now s, promised := 0,
        actual := 0, noPromise := false, missed := false, energyMj := 0,
        result := code * 2 ^ 24 + ctx % 256 * 2 ^ 16 + detail % 65536, word := some word }
  else modFn s f fun x => { x with eventsLost := satAdd 0xFFFF x.eventsLost 1 }

/-- A device-level event goes to the managing function (R418). -/
def deviceEvent (s : State) (code word : Nat) : State := postEvent s 0 code 0xFF (word % 65536) word

/-- A context event, which goes to the context's owning function (R431). -/
def ctxEvent (s : State) (c code word : Nat) : State := postEvent s (ctxOf s c).fn code c (word % 65536) word

/-- A context event that only the first occurrence after a start reports (R95, R262, R371). -/
def ctxEventOnce (s : State) (c code word : Nat) : State :=
  if (ctxOf s c).reported.contains code then s
  else ctxEvent (modCtx s c fun x => { x with reported := code :: x.reported }) c code word

/-- An event posted at most once per key in 1,000,000 ns (R436, R471, R474, R501). -/
def limited (s : State) (key : Nat × Nat) (f : State → State) : State :=
  match mget? s.lastEvent key with
  | some t => if now s < t + 1000000 then s else f { s with lastEvent := mset s.lastEvent key (now s) }
  | none => f { s with lastEvent := mset s.lastEvent key (now s) }

/-- An entry of the fault log: a ring of 64, overwritten oldest first (R436). -/
def logFault (s : State) (code phys unit ctx detail : Nat) : State :=
  { s with
    faultLog := mset s.faultLog (s.logTotal % 64)
      { t := now s, code := code, phys := phys, unit := unit, ctx := ctx, detail := detail }
    logTotal := s.logTotal + 1 }

/-- Poisoned data consumed by a context (R501): event 0x08 at most once per context per 1,000,000 ns. -/
def poisonEvent (s : State) (c addr : Nat) : State := limited s (8, c) fun s => ctxEvent s c 8 addr

/-- An instant: device time advances by at most one step within it. -/
def instant (s : State) : Nat := 2 * s.clock.bootCount + b2n s.clock.half

/-- The event of a W1C field occurs now (R13). -/
def w1cEvent (s : State) (off hi : Nat) : State := { s with w1cAt := mset s.w1cAt (off, hi) (instant s) }

/-- The event of a W1C field has occurred at this very instant. -/
def w1cNow (s : State) (off hi : Nat) : Bool := mget? s.w1cAt (off, hi) == some (instant s)

/-- Offset of a physical region's block (Table 15.12). -/
def offPhys (p : Nat) : Nat := 0x100000 + 0x10000 * p

/-- A promise miss (R63, R70, R436): counted in the region, logged at most once per region per 1,000,000 ns, reported to
the owning function at most once per context per 1,000,000 ns. `row` is the row of Table 2.4. -/
def promiseMiss (s : State) (phys : Nat) (c row : Nat) : State :=
  let s := modPhys (w1cEvent s (offPhys phys) 62) phys fun x =>
    { x with miss := true, missCount := satAdd 0xFFFF x.missCount 1, life := { x.life with misses := x.life.misses + 1 } }
  let s := limited s (0x100, phys) fun s => logFault s 0x0C phys 0xFF c row
  limited s (0x0C, c) fun s => ctxEvent s c 0x0C row

/-- Time added to a stall counter of a physical region (R475). -/
def addStall (s : State) (phys cause ns : Nat) : State :=
  modPhys s phys fun x => { x with stallNs := mmod 0 x.stallNs cause (· + ns) }

/-- Activity counted by a unit for a context (R478, R479). -/
def countAct (s : State) (u : ActUnit) (c : Option Nat) (k : ActClass) (n : Nat) : State :=
  if n = 0 then s else { s with activity := mmod 0 s.activity { unit := u, ctx := c, cls := k } (· + n) }

/-- The outcome of a command whose event cannot occur in this state: nothing happens (log entry 8). -/
def notNow (s : State) : Host.Outcome State Fault Refusal := .next s

/-- A context counts index faults (R131). -/
def addIndexFaults (s : State) (c n : Nat) : State :=
  modCtx s c fun x => { x with indexFaults := satAdd 0xFFFFFFFF x.indexFaults n }

/-! ### Cells and threads -/

/-- The logical region and the cell position (block × 8 + cell) of a context's cell (R89, R158). -/
def cellPlace (c : Context) (cell : Nat) : Option (Nat × Nat) :=
  match c.blocks[cell / 8]? with
  | some (L, b) => some (L, b * 8 + cell % 8)
  | none => none

/-- The context that owns a block of a logical region (R28). -/
def blockOwner (s : State) (L b : Nat) : Option Nat :=
  (s.contexts.find? fun e => e.2.state ≠ .empty ∧ e.2.blocks.contains (L, b)).map (·.1)

/-- The number in its context of the cell at a position of a logical region (R89). -/
def cellNumber (c : Context) (L pos : Nat) : Option Nat :=
  (c.blocks.findIdx? (fun b => b == (L, pos / 8))).map (fun i => i * 8 + pos % 8)

def threadOf (s : State) (t : ThreadId) : Option Thread := mget? s.threads t

def setThread (s : State) (t : ThreadId) (x : Thread) : State := { s with threads := mset s.threads t x }

def modThread (s : State) (t : ThreadId) (f : Thread → Thread) : State :=
  match threadOf s t with
  | some x => setThread s t (f x)
  | none => s

/-- The s register of a thread. -/
def Thread.rd (th : Thread) (r : Fin 32) : Word := th.s[r]

/-- Writes an s register. -/
def Thread.wr (th : Thread) (r : Fin 32) (v : Word) : Thread := { th with s := th.s.set r v }

/-- The pair r, r + 1, low word first (R120, R146). -/
def Thread.rdPair (th : Thread) (r : Fin 32) : DWord := th.s[r + 1] ++ th.s[r]

/-- Writes a pair, low word first. -/
def Thread.wrPair (th : Thread) (r : Fin 32) (v : DWord) : Thread :=
  (th.wr r (v.setWidth 32)).wr (r + 1) ((v >>> 32).setWidth 32)

/-- A predicate register. -/
def Thread.rdP (th : Thread) (r : Fin 8) : Bool := th.p[r]

/-- Writes a predicate register. -/
def Thread.wrP (th : Thread) (r : Fin 8) (v : Bool) : Thread := { th with p := th.p.set r v }

end Sys2Proof.Machine
end

