-- ==== Sys2Proof/Machine/Float.lean ====
section
/-! DEFINITION. Exact values, rounding and the FP32 operations (04 R115, R116; 10 R276, R277, R280, R287). A finite
value is held as sign, magnitude and a power of two, so every sum and product is exact before its one rounding. -/

namespace Sys2Proof.Machine

open Sys2Proof

/-- An exact value: NaN, a signed infinity, or (−1)^neg × m × 2^e. -/
inductive FpVal where
  | nan
  | inf (neg : Bool)
  | fin (neg : Bool) (m : Nat) (e : Int)
  deriving DecidableEq, Repr, Inhabited

/-- A floating-point format (Table 10.1): widths, bias, the bits of the largest finite magnitude, the canonical NaN of
R277, and the bits of infinity where the format has one. `saturates`: Table 10.3 maps what lies beyond to the largest
finite value. -/
structure FpFmt where
  eBits : Nat
  fBits : Nat
  bias : Nat
  maxBits : Nat
  nanBits : Nat
  infBits : Option Nat
  hasNan : Bool
  saturates : Bool
  deriving DecidableEq, Repr, Inhabited

def fmtFP32 : FpFmt := ⟨8, 23, 127, 0x7F7FFFFF, 0x7FC00000, some 0x7F800000, true, false⟩
def fmtBF16 : FpFmt := ⟨8, 7, 127, 0x7F7F, 0x7FC0, some 0x7F80, true, false⟩
def fmtFP16 : FpFmt := ⟨5, 10, 15, 0x7BFF, 0x7E00, some 0x7C00, true, false⟩
def fmtE4M3 : FpFmt := ⟨4, 3, 7, 0x7E, 0x7F, none, true, true⟩
def fmtE5M2 : FpFmt := ⟨5, 2, 15, 0x7B, 0x7F, some 0x7C, true, true⟩
def fmtE2M1 : FpFmt := ⟨2, 1, 1, 7, 0, none, false, true⟩
def fmtFP48M : FpFmt := ⟨8, 39, 127, 0x7F7FFFFFFFFF, 0x7FC000000000, some 0x7F8000000000, true, false⟩

/-- The value of a bit pattern (R276, R279). -/
def FpFmt.value (f : FpFmt) (bits_ : Nat) : FpVal :=
  let neg := bitOf bits_ (f.eBits + f.fBits)
  let mag := bits_ % 2 ^ (f.eBits + f.fBits)
  let E := mag / 2 ^ f.fBits
  let F := mag % 2 ^ f.fBits
  if f.maxBits < mag ∧ f.hasNan then
    match f.infBits with
    | some i => if mag = i then .inf neg else .nan
    | none => .nan
  else if E = 0 then .fin neg F (1 - (f.bias : Int) - f.fBits)
  else .fin neg (2 ^ f.fBits + F) ((E : Int) - f.bias - f.fBits)

/-- How a conversion rounds: to nearest even, or stochastically with the word w0 of its draw (R280, R287). -/
inductive RoundMode where
  | nearest
  | stochastic (w0 : Nat)
  deriving DecidableEq, Repr, Inhabited

/-- m × 2^e in units of 2^q, rounded to an integer. -/
def roundUnits (mode : RoundMode) (m : Nat) (e q : Int) : Nat :=
  if q ≤ e then m * 2 ^ (e - q).toNat
  else
    let d := (q - e).toNat
    let n := m / 2 ^ d
    let rem := m % 2 ^ d
    match mode with
    | .nearest =>
      let half := 2 ^ (d - 1)
      if half < rem ∨ (rem = half ∧ n % 2 = 1) then n + 1 else n
    | .stochastic w0 =>
      if rem = 0 then n else if 2 ^ 32 ≤ rem * 2 ^ 32 / 2 ^ d + w0 then n + 1 else n

/-- ⌊log2⌋ of a non-zero finite magnitude. -/
def ilog2 (m : Nat) (e : Int) : Int := e + Nat.log2 m

/-- The bits of a rounded magnitude, the exponent range unbounded above (R280: subnormal spacing included). -/
def FpFmt.roundMag (f : FpFmt) (mode : RoundMode) (m : Nat) (e : Int) : Nat :=
  if m = 0 then 0
  else
    let emin : Int := 1 - (f.bias : Int)
    let E := if ilog2 m e < emin then emin else ilog2 m e
    let n := roundUnits mode m e (E - f.fBits)
    (E - emin).toNat * 2 ^ f.fBits + n

/-- Puts the sign above a magnitude. -/
def FpFmt.signed (f : FpFmt) (neg : Bool) (mag : Nat) : Nat := (if neg then 2 ^ (f.eBits + f.fBits) else 0) + mag

/-- The bits of a value in a format, and whether the conversion is flagged (R280, R281, Table 10.3). -/
def FpFmt.convert (f : FpFmt) (mode : RoundMode) : FpVal → Nat × Bool
  | .nan => (f.nanBits, true)
  | .inf neg =>
    match f.saturates, f.infBits with
    | false, some i => (f.signed neg i, true)
    | _, _ => (f.signed neg f.maxBits, true)
  | .fin neg m e =>
    let r := f.roundMag mode m e
    if r ≤ f.maxBits then (f.signed neg r, false)
    else
      match f.saturates, f.infBits with
      | false, some i => (f.signed neg i, true)
      | _, _ => (f.signed neg f.maxBits, true)

/-- Rounding to nearest even. -/
def FpFmt.rne (f : FpFmt) (v : FpVal) : Nat := (f.convert .nearest v).1

/-! ### Exact arithmetic -/

def FpVal.isNan : FpVal → Bool
  | .nan => true
  | _ => false

def FpVal.isFinite : FpVal → Bool
  | .fin _ _ _ => true
  | _ => false

def FpVal.neg : FpVal → FpVal
  | .nan => .nan
  | .inf s => .inf (!s)
  | .fin s m e => .fin (!s) m e

def FpVal.abs : FpVal → FpVal
  | .nan => .nan
  | .inf _ => .inf false
  | .fin _ m e => .fin false m e

/-- The integer coefficient of a finite value at exponent e0. -/
def coeff (neg : Bool) (m : Nat) (e e0 : Int) : Int :=
  let k : Int := ((m * 2 ^ (e - e0).toNat : Nat) : Int)
  if neg then -k else k

/-- The exact sum; an exact zero is +0 unless both operands are −0 (IEEE 754, round to nearest). -/
def FpVal.add : FpVal → FpVal → FpVal
  | .nan, _ => .nan
  | _, .nan => .nan
  | .inf a, .inf b => if a = b then .inf a else .nan
  | .inf a, _ => .inf a
  | _, .inf b => .inf b
  | .fin s m e, .fin t n f =>
    let e0 := min e f
    let c := coeff s m e e0 + coeff t n f e0
    if c = 0 then .fin (s && t && m == 0 && n == 0) 0 0 else .fin (decide (c < 0)) c.natAbs e0

/-- The exact product. -/
def FpVal.mul : FpVal → FpVal → FpVal
  | .nan, _ => .nan
  | _, .nan => .nan
  | .inf a, .inf b => .inf (xor a b)
  | .inf a, .fin t n _ => if n = 0 then .nan else .inf (xor a t)
  | .fin s m _, .inf b => if m = 0 then .nan else .inf (xor s b)
  | .fin s m e, .fin t n f => .fin (xor s t) (m * n) (e + f)

/-- Scaling by a power of two, exact. -/
def FpVal.scale (k : Int) : FpVal → FpVal
  | .fin s m e => .fin s m (e + k)
  | v => v

/-- The quotient to 192 bits below the leading one, with a sticky bit when it is not exact. -/
def quotient (s : Bool) (m : Nat) (e : Int) (n : Nat) (f : Int) : FpVal :=
  let num := m * 2 ^ (Nat.log2 n + 192)
  let q := num / n
  let sticky := if num % n = 0 then 0 else 1
  .fin s (2 * q + sticky) (e - f - (Nat.log2 n + 192) - 1)

def FpVal.div : FpVal → FpVal → FpVal
  | .nan, _ => .nan
  | _, .nan => .nan
  | .inf _, .inf _ => .nan
  | .inf a, .fin t _ _ => .inf (xor a t)
  | .fin s _ _, .inf b => .fin (xor s b) 0 0
  | .fin s m e, .fin t n f =>
    if n = 0 then (if m = 0 then .nan else .inf (xor s t)) else quotient (xor s t) m e n f

/-- 1/√x to more than 90 bits with a sticky bit; ±0 gives ±∞ and a negative value NaN (IEEE 754 rSqrt). -/
def FpVal.rsqrt : FpVal → FpVal
  | .nan => .nan
  | .inf s => if s then .nan else .fin false 0 0
  | .fin s m e =>
    if m = 0 then .inf s
    else if s then .nan
    else
      -- x = m' * 2^(2h); 1/√x = √(2^k / m') * 2^(-h - k/2) with k even
      let m' := if e % 2 = 0 then m else 2 * m
      let h := if e % 2 = 0 then e / 2 else (e - 1) / 2
      let k := 2 * (Nat.log2 m' + 100)
      let num := 2 ^ k / m'
      let r := Nat.sqrt num
      let sticky := if r * r * m' = 2 ^ k then 0 else 1
      .fin false (2 * r + sticky) (-h - ((k / 2 : Nat) : Int) - 1)

/-- ⌊ln 2 × 2^256⌋. -/
def ln2Fixed : Nat := 0xb17217f7d1cf79abc9e3b39803f2f6af40f343267298b62d8a0d175b8baafa2b

/-- Σ z^n / n! in fixed point with 256 fraction bits, n counting up to a bound. -/
def expSeries (z : Nat) : Nat → Nat → Nat → Nat
  | 0, _, _ => 0
  | fuel + 1, n, term => term + expSeries z fuel (n + 1) (term * z / 2 ^ 256 / (n + 1))

/-- 2^x (R116): an exact power of two for an integer, otherwise more than 190 bits with a sticky bit. Every FP32 result
is then correctly rounded (log entry 11). -/
def FpVal.exp2 : FpVal → FpVal
  | .nan => .nan
  | .inf s => if s then .fin false 0 0 else .inf false
  | .fin s m e =>
    if m = 0 then .fin false 1 0
    else if 20 ≤ ilog2 m e then (if s then .fin false 1 (-1048576) else .inf false)
    else if 0 ≤ e then
      let k : Int := ((m * 2 ^ e.toNat : Nat) : Int)
      .fin false 1 (if s then -k else k)
    else
      let d := (-e).toNat
      let c : Int := if s then -(m : Int) else m
      let n := c / ((2 ^ d : Nat) : Int)
      let f := (c % ((2 ^ d : Nat) : Int)).toNat
      if f = 0 then .fin false 1 n
      else
        let z := f * ln2Fixed / 2 ^ d
        let t := expSeries z 60 0 (2 ^ 256)
        -- drop the bits the series leaves uncertain
        .fin false (2 * (t / 2 ^ 60) + 1) (n - 256 + 60 - 1)

/-- Whether a value orders below another (no NaN); zeros are equal. -/
def FpVal.lt : FpVal → FpVal → Bool
  | .nan, _ => false
  | _, .nan => false
  | .inf a, .inf b => a && !b
  | .inf a, _ => a
  | _, .inf b => !b
  | .fin s m e, .fin t n f =>
    let e0 := min e f
    decide (coeff s m e e0 < coeff t n f e0)

/-- Equality of values: NaN equals nothing, −0 equals +0. -/
def FpVal.eq (a b : FpVal) : Bool := !a.isNan && !b.isNan && !a.lt b && !b.lt a

def FpVal.isNegZero : FpVal → Bool
  | .fin s m _ => s && m == 0
  | _ => false

/-- Minimum under R115: the other operand when one is NaN, −0 below +0. -/
def FpVal.min (a b : FpVal) : FpVal :=
  if a.isNan then b else if b.isNan then a
  else if a.lt b then a else if b.lt a then b else if b.isNegZero then b else a

/-- Maximum under R115. -/
def FpVal.max (a b : FpVal) : FpVal :=
  if a.isNan then b else if b.isNan then a
  else if a.lt b then b else if b.lt a then a else if a.isNegZero then b else a

/-! ### FP32 on register words -/

def f32 (w : Word) : FpVal := fmtFP32.value w.toNat

def toF32 (v : FpVal) : Word := BitVec.ofNat 32 (fmtFP32.rne v)

def fadd (a b : Word) : Word := toF32 ((f32 a).add (f32 b))
def fsub (a b : Word) : Word := toF32 ((f32 a).add (f32 b).neg)
def fmul (a b : Word) : Word := toF32 ((f32 a).mul (f32 b))
def ffma (a b c : Word) : Word := toF32 (((f32 a).mul (f32 b)).add (f32 c))
def fdiv (a b : Word) : Word := toF32 ((f32 a).div (f32 b))
def fmin (a b : Word) : Word := toF32 ((f32 a).min (f32 b))
def fmax (a b : Word) : Word := toF32 ((f32 a).max (f32 b))
def fexp2 (a : Word) : Word := toF32 (f32 a).exp2
def frcp (a : Word) : Word := toF32 ((FpVal.fin false 1 0).div (f32 a))
def frsq (a : Word) : Word := toF32 (f32 a).rsqrt

/-- The comparisons of FCMP and VCMP: 0 eq, 1 lt, 2 le, 3 unordered. -/
def fcmp (minor : Nat) (a b : Word) : Bool :=
  let x := f32 a
  let y := f32 b
  match minor with
  | 0 => x.eq y
  | 1 => x.lt y
  | 2 => x.lt y || x.eq y
  | _ => x.isNan || y.isNan

/-! ### Integers -/

/-- An integer as an exact value. -/
def intVal (i : Int) : FpVal := .fin (decide (i < 0)) i.natAbs 0

/-- A value rounded to an integer and held to a range, with the flag of R281 (Table 10.3: infinities saturate, NaN
gives 0). -/
def toIntRange (mode : RoundMode) (lo hi : Int) : FpVal → Int × Bool
  | .nan => (0, true)
  | .inf s => (if s then lo else hi, true)
  | .fin s m e =>
    let k : Int := (roundUnits mode m e 0 : Nat)
    let v := if s then -k else k
    if v < lo then (lo, true) else if hi < v then (hi, true) else (v, false)

/-- FCVT (R115): 0 signed to FP32, 1 unsigned to FP32, 2 FP32 to signed, 3 FP32 to unsigned. -/
def fcvt (minor : Nat) (a : Word) : Word :=
  match minor with
  | 0 => toF32 (intVal a.toInt)
  | 1 => toF32 (intVal a.toNat)
  | 2 => BitVec.ofInt 32 (toIntRange .nearest (-2147483648) 2147483647 (f32 a)).1
  | _ => BitVec.ofInt 32 (toIntRange .nearest 0 4294967295 (f32 a)).1

/-! ### The generator of R182 -/

/-- One round of Philox-4×32. -/
def philoxRound (k0 k1 : Nat) (c : Nat × Nat × Nat × Nat) : Nat × Nat × Nat × Nat :=
  let (c0, c1, c2, c3) := c
  let p0 := 0xD2511F53 * c0
  let p1 := 0xCD9E8D57 * c2
  (((p1 / 2 ^ 32) ^^^ c1) ^^^ k0, p1 % 2 ^ 32, ((p0 / 2 ^ 32) ^^^ c3) ^^^ k1, p0 % 2 ^ 32)

/-- `n` rounds. -/
def philoxRounds : Nat → Nat → Nat → (Nat × Nat × Nat × Nat) → Nat × Nat × Nat × Nat
  | 0, _, _, c => c
  | n + 1, k0, k1, c =>
    philoxRounds n ((k0 + 0x9E3779B9) % 2 ^ 32) ((k1 + 0xBB67AE85) % 2 ^ 32) (philoxRound k0 k1 c)

/-- gen(key, c) with the key as one 64-bit number (R182, R183, R288). -/
def gen (key : Nat) (c0 c1 c2 c3 : Nat) : Nat × Nat × Nat × Nat :=
  philoxRounds 10 (key % 2 ^ 32) (key / 2 ^ 32 % 2 ^ 32) (c0 % 2 ^ 32, c1 % 2 ^ 32, c2 % 2 ^ 32, c3 % 2 ^ 32)

/-- uniform(n, w0, w1) (R182). -/
def uniform (n w0 w1 : Nat) : Nat := ((w1 * 2 ^ 32 + w0) * n) / 2 ^ 64

end Sys2Proof.Machine
end

