-- ==== Sys2Proof/Machine/Formats.lean ====
section
/-! DEFINITION. The element formats of Table 4.6: widths, values and conversions of single elements, block sizes and
scales (04 R128; 10 R276 to R286). -/

namespace Sys2Proof.Machine

open Sys2Proof

/-- Bits of an element of a format code (Table 4.6). -/
def elemBits (code : Nat) : Nat :=
  match code with
  | 0x00 => 32 | 0x01 => 16 | 0x02 => 16 | 0x03 => 8 | 0x04 => 8 | 0x05 => 8 | 0x06 => 8 | 0x07 => 4
  | 0x08 => 16 | 0x09 => 32 | 0x0A => 8 | 0x0B => 48 | 0x0C => 32 | 0x0D => 32
  | _ => 8

/-- Elements of a block and bytes of its scale (Table 10.2); a block of 1 has no scale. -/
def blockSize (code : Nat) : Nat :=
  match code with
  | 0x05 => 32 | 0x06 => 32 | 0x07 => 32 | 0x08 => 64 | 0x09 => 64 | 0x0A => 128
  | _ => 1

def scaleBytes (code : Nat) : Nat :=
  match code with
  | 0x05 => 1 | 0x06 => 1 | 0x07 => 1 | 0x08 => 1 | 0x09 => 1 | 0x0A => 2
  | _ => 0

/-- The floating-point layout of an element code, where it has one. -/
def floatFmt (code : Nat) : Option FpFmt :=
  match code with
  | 0x00 => some fmtFP32 | 0x01 => some fmtBF16 | 0x02 => some fmtFP16 | 0x03 => some fmtE4M3
  | 0x04 => some fmtE5M2 | 0x05 => some fmtE4M3 | 0x06 => some fmtE5M2 | 0x07 => some fmtE2M1
  | 0x0A => some fmtE4M3 | 0x0B => some fmtFP48M
  | _ => none

/-- The element alone as an exact value: scale 1, exponent 0. -/
def elemValue (code bits_ : Nat) : FpVal :=
  match floatFmt code with
  | some f => f.value bits_
  | none =>
    if code = 0x08 then intVal (toSigned 16 bits_)
    else if code = 0x0D then intVal (bits_ % 2 ^ 32)
    else intVal (toSigned 32 bits_)

/-- The bits of a value as an element alone, and whether the conversion is flagged (R280, R281). -/
def elemConvert (code : Nat) (mode : RoundMode) (v : FpVal) : Nat × Bool :=
  match floatFmt code with
  | some f => f.convert mode v
  | none =>
    if code = 0x08 then
      let r := toIntRange mode (-32768) 32767 v
      (ofSigned 16 r.1, r.2)
    else if code = 0x0D then
      let r := toIntRange mode 0 4294967295 v
      (ofSigned 32 r.1, r.2)
    else
      let r := toIntRange mode (-2147483648) 2147483647 v
      (ofSigned 32 r.1, r.2)

/-- An element read with its block's scale (Table 10.2): E8M0 b, exponent e, or the FP16 scale of M8 with one FP32
rounding. -/
def scaledValue (code bits_ scale : Nat) : FpVal :=
  match code with
  | 0x05 | 0x06 | 0x07 => if scale = 0xFF then .nan else (elemValue code bits_).scale ((scale : Int) - 127)
  | 0x08 | 0x09 => (elemValue code bits_).scale (toSigned 8 scale)
  | 0x0A => f32 (toF32 ((elemValue code bits_).mul (fmtFP16.value scale)))
  | _ => elemValue code bits_

/-- The largest finite magnitude of a block, as a value. -/
def maxFinite (vs : List FpVal) : FpVal :=
  vs.foldl (fun a v => if v.isFinite then a.max v.abs else a) (.fin false 0 0)

/-- Whether a block holds an infinity or a NaN. -/
def hasSpecial (vs : List FpVal) : Bool := vs.any (fun v => !v.isFinite)

/-- The scale byte chosen for an MXFP8 block (R284). -/
def mxScale (code : Nat) (vs : List FpVal) : Nat :=
  if hasSpecial vs then 0xFF
  else
    match maxFinite vs with
    | .fin _ m e =>
      if m = 0 then 0
      else
        let X := ilog2 m e - (if code = 0x05 then 8 else 15)
        let X := if X < -127 then -127 else if 127 < X then 127 else X
        (X + 127).toNat
    | _ => 0xFF

/-- The elements of an MXFP8 block under its chosen scale, with their flags (R284). `mode i` rounds element i. -/
def mxElems (code : Nat) (mode : Nat → RoundMode) (vs : List FpVal) : List (Nat × Bool) :=
  if hasSpecial vs then vs.map fun _ => (0x7F, true)
  else
    let b := mxScale code vs
    vs.zipIdx.map fun (v, i) =>
      match maxFinite vs with
      | .fin _ 0 _ => elemConvert code .nearest v
      | _ => elemConvert code (mode i) (v.scale (127 - (b : Int)))

/-- The FP16 value of a positive magnitude rounded toward +∞, held at 65,504 (R285). -/
def fp16Up (v : FpVal) : Nat :=
  match v with
  | .fin _ m e =>
    if m = 0 then 0
    else
      let E := if ilog2 m e < -14 then -14 else ilog2 m e
      let q : Int := E - 10
      let n := if q ≤ e then m * 2 ^ (e - q).toNat else ceilDiv m (2 ^ (q - e).toNat)
      Nat.min 0x7BFF ((E + 14).toNat * 2 ^ 10 + n)
  | _ => 0x7BFF

/-- The FP16 scale of an M8 block (R285). -/
def m8Scale (vs : List FpVal) : Nat :=
  if hasSpecial vs then 0x7E00
  else
    match maxFinite vs with
    | .fin _ 0 _ => 0
    | a => fp16Up (a.div (.fin false 448 0))

/-- The elements of an M8 block under its scale, with their flags (R285). -/
def m8Elems (mode : Nat → RoundMode) (vs : List FpVal) : List (Nat × Bool) :=
  if hasSpecial vs then vs.map fun _ => (0x7F, true)
  else
    let S := m8Scale vs
    if S = 0 then vs.map fun _ => (0, false)
    else
      vs.zipIdx.map fun (v, i) =>
        let q := f32 (toF32 (v.div (fmtFP16.value S)))
        elemConvert 0x0A (mode i) q

/-- The conversions of TCOPY between different formats (Table 10.4); a format may always be copied to itself. -/
def copyPair (dst src : Nat) : Bool :=
  if dst = src then decide (dst ≤ 0x0D)
  else
    match dst with
    | 0x00 | 0x01 | 0x02 | 0x03 | 0x04 => decide (src ≤ 0x06) || (decide (0x08 ≤ src) && decide (src ≤ 0x0B))
    | 0x05 | 0x06 => decide (src ≤ 0x06)
    | 0x08 | 0x09 => decide (src ≤ 0x06) || src == 0x08 || src == 0x09
    | 0x0A => decide (src ≤ 0x02)
    | 0x0B => decide (src ≤ 0x02)
    | 0x0C | 0x0D => src == 0x00
    | _ => false

end Sys2Proof.Machine
end

