-- ==== Sys2Proof/Machine/Pins.lean ====
section
/-! DEFINITION. The tables of this device, the pins on their versions, and when a version stops being live (07 R199 to R202,
R205, R209). -/

namespace Sys2Proof.Machine

open Sys2Proof

/-! ### Tables and pins -/

def TableState.zero : TableState :=
  { fn := 0, current := 0, versions := [], epoch := 0, dir := [], moves := [], handovers := [] }

def tableOf (s : State) (t : Nat) : TableState := mget TableState.zero s.tables t

def modTable (s : State) (t : Nat) (f : TableState → TableState) : State :=
  { s with tables := mset s.tables t (f (tableOf s t)) }

def findVersion (s : State) (t v : Nat) : Option TableVersion := (tableOf s t).versions.find? fun x => x.desc.version == v

/-- Every pin that this device holds on a table: version, and directory epoch where it has one (R205, R209, R457). -/
def pinsOf (s : State) (t : Nat) : List (Nat × Option Nat) :=
  (s.logs.flatMap fun e => (e.2.gatherJobs.filter fun j => j.rcd.table == t).map fun j => (j.version, some j.epoch)) ++
    (s.keptPins.filter fun k => k.table == t).map fun k => (k.version, k.epoch)

/-- An epoch not after another, modulo 2^16 (R214). -/
def epochLe (a b : Nat) : Bool := decide ((b + 65536 - a % 65536) % 65536 < 32768)

/-- No pin of this device holds an epoch older than one. -/
def noOlderPin (s : State) (t e : Nat) : Bool :=
  (pinsOf s t).all fun p => match p.2 with
    | some x => epochLe e x
    | none => true

/-- Owner code of a region of this device (Table 7.7). -/
def ownCode (s : State) (L : Nat) : Nat := s.part.device * 16 + L

/-- Every shard of a version lies on this device. -/
def allHere (s : State) (v : TableVersion) : Bool := v.shards.all fun e => e.device == s.part.device

/-- A version is no longer pinned on any device of the table (R201). -/
def unpinned (s : State) (t : Nat) (v : TableVersion) : Bool :=
  (pinsOf s t).all (fun p => p.1 != v.desc.version) &&
    (allHere s v || Config.peersUnpinned s.freeCounter t v.desc.version)

/-- Old versions that no pin holds stop being live, each with its event (TABLE_RELEASE, R201). -/
def releaseVersions (s : State) (t : Nat) : State :=
  let T := tableOf s t
  let gone := T.versions.filter fun v => v.desc.version != T.current && unpinned s t v
  let s := modTable { s with freeCounter := s.freeCounter + 1 } t fun x =>
    { x with versions := x.versions.filter fun v => !(gone.map (·.desc.version)).contains v.desc.version }
  gone.foldl (fun s v => postEvent s T.fn 0x09 0xFF (v.desc.version % 65536) (t * 2 ^ 32 + v.desc.version)) s

end Sys2Proof.Machine
end

