-- ==== Sys2Proof/Machine/Credits.lean ====
section
/-! DEFINITION. Credits (02 R49 to R57; 05 R153; 13 R364): what a destination resource lends, the ledgers of the admission
points, lending in arrival order, and the wake credits that watch registrations hold. -/

namespace Sys2Proof.Machine

open Sys2Proof

/-! ### Free granules of a channel (R342, R364) -/

/-- Granules of a channel: 64 GiB or 48 GiB per stack less the page metadata (R342), over 32 channels. -/
def channelGranules (g : Grade) : Nat := match g with | .T => 8323072 | .S => 6242304

def pageStack (page : Nat) : Nat := page / 2 ^ 25
def pageChannel (page : Nat) : Nat := page % 32

/-- Free granules of a channel. -/
def channelFree (s : State) (stack ch : Nat) : Nat :=
  channelGranules s.part.grade
    - (s.pages.map fun e => if pageStack e.1 = stack ∧ pageChannel e.1 = ch then e.2.granules else 0).sum
    - (s.retiredGranules.filter fun x => x.1 == stack && x.2.1 == ch).length

/-! ### Destination resources (Tables 2.2 and 2.3) -/

/-- Credits that a destination has in all (Tables 2.2 and 2.3): 24 per bank, 512 per channel, 8 KiB per T0 port, 256 KiB
for each direction of each Bridle port, 768 flits per link and direction, 256 KiB per PCIe port, 64 and 1,024 signal slots
(R154), 4 MiB of gather and of reduction inbox. What a peer lends for its own path, and the response slots of a requester,
are not stated (log entry 14). -/
def resourceTotal : Resource → Nat
  | .bank _ _ => 24
  | .channel _ _ _ => 512
  | .t0port _ _ => 128
  | .egress _ => 4096
  | .ingress _ => 4096
  | .linkDie _ _ _ => 4096
  | .flits _ => 768
  | .rxFlits _ => 768
  | .peer _ => 768
  | .pcie _ => 4096
  | .cellSignal _ _ => 64
  | .regionSignal _ => 1024
  | .respSlot _ (some _) => 1280
  | .respSlot _ none => 24576
  | .gatherInbox _ => 64
  | .reduceInbox _ => 256

/-- The pool from which a resource is lent: the read and write credits of a channel are one pool of 512 (R364). -/
def destKey : Resource → Resource
  | .channel k c _ => .channel k c false
  | r => r

def destOf (s : State) (res : Resource) : Destination :=
  mget { free := resourceTotal res, waiting := [] } s.dests (destKey res)

def setDest (s : State) (res : Resource) (d : Destination) : State := { s with dests := mset s.dests (destKey res) d }

def ledgerOf (s : State) (led : AdmPoint) (res : Resource) : Ledger := mget { lots := [] } s.ledgers (led, res)

def setLedger (s : State) (led : AdmPoint) (res : Resource) (l : Ledger) : State :=
  { s with ledgers := mset s.ledgers (led, res) l }

/-- The credits that a ledger holds unused. -/
def Ledger.unused (l : Ledger) : Nat := (l.lots.map (·.1)).sum

/-- A ledger after n of its credits are reserved, from the oldest lot on (log entry 14). -/
def takeLots : List (Nat × Nat) → Nat → List (Nat × Nat)
  | [], _ => []
  | (k, t) :: r, n => if n < k then (k - n, t) :: r else takeLots r (n - k)

/-- The requester's own response slots are reserved where they lie; every other credit is lent to a ledger first (R54). -/
def isOwnSlot : Resource → Bool
  | .respSlot _ _ => true
  | _ => false

/-- The credits that an admission point can reserve now. -/
def available (s : State) (led : AdmPoint) (res : Resource) : Nat :=
  if isOwnSlot res then (destOf s res).free else (ledgerOf s led res).unused

/-- Reserves credits of one resource. -/
def reserve (s : State) (x : AdmPoint × Resource × Nat) : State :=
  let (led, res, n) := x
  if isOwnSlot res then setDest s res { destOf s res with free := (destOf s res).free - n }
  else setLedger s led res { lots := takeLots (ledgerOf s led res).lots n }

/-- Whether a destination lends now: write credits of a channel only above its growth floor (R364), and nothing to a peer
while the device holds (R396). -/
def lends (s : State) (res : Resource) : Bool :=
  match res with
  | .channel k c true => decide (16384 ≤ channelFree s k c)
  | .rxFlits _ => !s.hold
  | _ => true

/-- A destination serves its lending requests in arrival order while it has credits (R54); a request for what it does not
lend now holds up no other. -/
def serveLending (s : State) (res : Resource) : Nat → State
  | 0 => s
  | k + 1 =>
    match (destOf s res).waiting.find? fun w => lends s w.2.1 with
    | some (led, what, n) =>
      if n ≤ (destOf s res).free then
        let s := setDest s res
          { free := (destOf s res).free - n, waiting := (destOf s res).waiting.erase (led, what, n) }
        let s := setLedger s led what { lots := (ledgerOf s led what).lots ++ [(n, now s)] }
        serveLending s res k
      else s
    | none => s

/-- A ledger sends one lending request to the destination (R54). -/
def askLending (s : State) (led : AdmPoint) (res : Resource) (n : Nat) : State :=
  if (destOf s res).waiting.any fun w => w.1 == led && w.2.1 == res then s
  else
    let s := setDest s res { destOf s res with waiting := (destOf s res).waiting ++ [(led, res, n)] }
    serveLending s res (destOf s res).waiting.length

/-- Credits return to their destination, which lends them on (R54). -/
def giveBack (s : State) (res : Resource) (n : Nat) : State :=
  let s := setDest s res { destOf s res with free := (destOf s res).free + n }
  serveLending s res (destOf s res).waiting.length

/-- The physical region that lends the credits of a destination (R55). -/
def resourcePhys : Resource → Option Nat
  | .bank p _ => some p
  | .t0port p _ => some p
  | .egress p => some p
  | .ingress p => some p
  | .cellSignal p _ => some p
  | .regionSignal p => some p
  | _ => none

/-- Flit credits return in the CREDITS field of the peer's flits, not with the operation (R387). -/
def isFlits : Resource → Bool
  | .flits _ => true
  | _ => false

/-- Credits return, flit credits aside. -/
def returnCredits (s : State) (l : List (Resource × Nat)) : State :=
  l.foldl (fun s x => if isFlits x.1 then s else giveBack s x.1 x.2) s

/-! ### Wake credits (R153) -/

/-- A watch slot that holds a registration. -/
def slotHolds (s : State) (t : ThreadId) (slot : Fin 16) : Bool :=
  match mget? s.threads t with
  | some th => th.watch[slot].addr.isSome
  | none => false

/-- The wake credits of slots that no longer hold a registration return (R151, R153). -/
def sweepWakes (s : State) : State :=
  let gone := s.wakes.filter fun w => !slotHolds s w.t w.slot
  if gone = [] then s
  else
    returnCredits { s with wakes := s.wakes.filter fun w => slotHolds s w.t w.slot } (gone.map fun w => (w.res, w.n))

end Sys2Proof.Machine
end

