-- ==== Sys2Proof/Machine/Tasks.lean ====
section
/-! DEFINITION. The task unit of a region (05 R158 to R171): token words and task words, firing, ready lists, takers,
atomic flows and the delay list; and how a thread ends (04 R144). -/

namespace Sys2Proof.Machine

open Sys2Proof

/-! ### Token words (Table 5.3) and task words (Table 5.4) -/

def tokKind (w : DWord) : Nat := bits w.toNat 63 62
def tokRegion (w : DWord) : Nat := bits w.toNat 57 54
def tokCell (w : DWord) : Nat := bits w.toNat 53 46
def tokEntry (w : DWord) : Nat := bits w.toNat 45 36
def tokOpnd (w : DWord) : Nat := bits w.toNat 35 32
def tokRequired (w : DWord) : BitVec 16 := BitVec.ofNat 16 (bits w.toNat 31 16)
def tokRearm (w : DWord) : Bool := bitOf w.toNat 15
def tokArgstep (w : DWord) : Nat := bits w.toNat 14 8
def tokReserved (w : DWord) : Bool := bits w.toNat 61 58 != 0 || bits w.toNat 7 0 != 0

def taskFlow (w : DWord) : Nat := bits w.toNat 31 20
def taskList (w : DWord) : Nat := bits w.toNat 19 16

/-- The task word with ARG stepped (R160). -/
def taskStep (w : DWord) (n : Nat) : DWord :=
  BitVec.ofNat 64 ((bits w.toNat 63 32 + n) % 2 ^ 32 * 2 ^ 32 + bits w.toNat 31 0)

/-- The reserved-field test of R160, on the word alone. -/
def tokenMalformed (w : DWord) : Bool :=
  tokReserved w || tokKind w == 3 || (tokOpnd w != 0 && tokKind w != 0) ||
    ((tokRequired w != 0 || tokRearm w || tokArgstep w != 0) && tokKind w != 1)

/-! ### Threads that end or wake -/

def codeWords (c : Context) : Nat :=
  match c.image with
  | some im => im.code.length
  | none => 0

/-- An empty watch slot. -/
def WatchSlot.empty : WatchSlot := { addr := none, acked := false, written := false, due := 0 }

/-- The 16-bit mask of written slots (R150). -/
def Thread.writtenMask (th : Thread) : Nat :=
  (List.range 16).foldl (fun a i => a + (match th.watch.toList[i]? with
    | some w => if w.written then 2 ^ i else 0
    | none => 0)) 0

/-- A thread as HALT leaves it: its watch set and loop stack are cleared (R144). -/
def Thread.halted (th : Thread) : Thread :=
  { th with run := .ended, loops := [], watch := Vector.replicate 16 WatchSlot.empty }

/-- Whether a flow of a context is in service in a region (R165). -/
def flowBusy (R : LogRegion) (ctx flow : Nat) : Bool := R.flows.any fun f => f.ctx == ctx && f.flow == flow

/-- The first task word whose flow is not in service, with what is left of the list (R164). -/
def firstEligible (R : LogRegion) (ctx : Nat) : List ReadyTask → Option (ReadyTask × List ReadyTask)
  | [] => none
  | w :: r =>
    if taskFlow w.task = 0 ∨ !flowBusy R ctx (taskFlow w.task) then some (w, r)
    else match firstEligible R ctx r with
      | some (x, r') => some (x, w :: r')
      | none => none

/-- The task words of all contexts on a region's ready lists. -/
def readyCount (R : LogRegion) : Nat := (R.ready.map fun e => e.2.length).sum

def readyTasks (R : LogRegion) (ctx l : Nat) : List ReadyTask := mget [] R.ready (ctx, l)

/-- The task words of a ready list, the oldest first. -/
def readyList (R : LogRegion) (ctx l : Nat) : List DWord := (readyTasks R ctx l).map (·.task)

/-- Whether a task of the same instant comes first: a firing before an expired delay, firings by cell and entry (R163). -/
def ReadyTask.precedes (x y : ReadyTask) : Bool :=
  x.at_ == y.at_ &&
    (if x.delayed || y.delayed then !x.delayed && y.delayed
     else decide (x.cell < y.cell) || (x.cell == y.cell && decide (x.entry < y.entry)))

/-- A task word takes its place at the end of a list, before what it precedes. -/
def insertTask (x : ReadyTask) (l : List ReadyTask) : List ReadyTask :=
  l.takeWhile (fun y => !x.precedes y) ++ x :: l.dropWhile (fun y => !x.precedes y)

/-- A context whose threads may take and issue (R104, R168). -/
def ctxRuns (s : State) (c : Nat) : Bool := (ctxOf s c).state == .running && !(ctxOf s c).breaking

/-- Whether the word at which a thread stands is one past the last (R144). -/
def atEnd (s : State) (t : ThreadId) : Bool :=
  match threadOf s t with
  | some th => decide (codeWords (ctxOf s t.ctx) ≤ th.pc)
  | none => false

/-- What is kept of a handing until its instant is over. -/
def handedTo (s : State) (k : Taker) (x : ReadyTask) : Option Handed :=
  (threadOf s k.t).map fun th => { taker := k, task := x, pc := th.pc, old := th.rdPair k.dst, at_ := instant s }

/-- Hands a task word to a thread that waits in TAKE: the pair is written low word first and the thread runs again; a flow
goes into service (R164, R165). A thread whose TAKE was the last word of the code ends at once (R144), and so does its
flow's service. -/
def giveTask (s : State) (L : Nat) (k : Taker) (x : ReadyTask) : State :=
  let w := x.task
  let ends := atEnd s k.t
  let s := modRegion s L fun R =>
    { R with
      takers := R.takers.filter (fun x => x.t ≠ k.t)
      handed := R.handed.filter (fun h => h.at_ == instant s) ++ (if ends then [] else (handedTo s k x).toList)
      flows := if taskFlow w = 0 ∨ ends then R.flows
               else R.flows ++ [{ ctx := k.t.ctx, flow := taskFlow w, holder := k.t }] }
  let s := modThread s k.t fun th =>
    if ends then (th.wrPair k.dst w).halted else { (th.wrPair k.dst w) with run := .ready, readyAt := now s }
  if ends then sweepWakes s else s

/-- A taker whose thread still waits in TAKE. -/
def takerWaits (s : State) (k : Taker) : Bool :=
  match threadOf s k.t with
  | some th => th.run == .taking k.list k.dst
  | none => false

/-- The order of threads at one instant: by cell, then group, then thread number (R102, R164). -/
def threadBefore (x y : ThreadId) : Bool :=
  decide (x.cell < y.cell) ||
    (x.cell == y.cell && (decide (x.group < y.group) || (x.group == y.group && decide (x.thread < y.thread))))

/-- Whether a taker of the same instant comes first (R164). -/
def Taker.precedes (x y : Taker) : Bool := x.since == y.since && threadBefore x.t y.t

/-- A thread joins those that wait in TAKE. -/
def insertTaker (x : Taker) (l : List Taker) : List Taker :=
  l.takeWhile (fun y => !x.precedes y) ++ x :: l.dropWhile (fun y => !x.precedes y)

/-- The threads of a context that satisfy a test leave the lists of takers: they wait in TAKE no longer (R168, R169). -/
def dropTakers (s : State) (p : ThreadId → Bool) : State :=
  { s with logs := s.logs.map fun e => (e.1, { e.2 with takers := e.2.takers.filter fun k => !p k.t }) }

/-- Serves the takers of one list, oldest first, while an eligible task word stands on it; `n` bounds the turns. -/
def serveTakers (s : State) (L ctx l : Nat) : Nat → State
  | 0 => s
  | n + 1 =>
    if !ctxRuns s ctx then s
    else
      match (regionOf s L).takers.find? (fun k => k.t.ctx == ctx && k.list == l && takerWaits s k),
            firstEligible (regionOf s L) ctx (readyTasks (regionOf s L) ctx l) with
      | some k, some (w, rest) =>
        serveTakers (giveTask (modRegion s L fun R => { R with ready := mset R.ready (ctx, l) rest }) L k w) L ctx l n
      | _, _ => s

/-- Serves the takers of every list of a context in a region, the lowest-numbered list first (DESIGN CHOICE: the spec orders
the threads of one list only; log entry 114). -/
def serveAll (s : State) (L ctx : Nat) : State :=
  (List.range 16).foldl (fun s l => serveTakers s L ctx l (regionOf s L).takers.length) s

/-- A thread that was handed a task word at this very instant and has executed nothing since. -/
def Handed.fresh (s : State) (h : Handed) : Bool :=
  h.at_ == instant s && (match threadOf s h.taker.t with
    | some th => th.run == .ready && th.pc == h.pc && th.readyAt == now s && th.rdPair h.taker.dst == h.task.task
    | none => false)

/-- A task word goes back to its place on a list. -/
def returnTask (x : ReadyTask) (l : List ReadyTask) : List ReadyTask :=
  let after := fun y : ReadyTask => decide (x.at_ < y.at_) || (x.at_ == y.at_ && !y.precedes x)
  l.takeWhile (fun y => !after y) ++ x :: l.dropWhile (fun y => !after y)

/-- What has been handed to threads of a list at this very instant is taken back, for the order of R163 and R164 to decide anew:
the model takes the events of one instant one after the other, and the rules order them all. -/
def recallTasks (s : State) (L ctx l : Nat) : State :=
  let hs := (regionOf s L).handed.filter fun h => h.taker.t.ctx == ctx && h.taker.list == l && h.fresh s
  let s := hs.foldl (fun s h => modThread s h.taker.t fun th =>
    { th.wrPair h.taker.dst h.old with run := .taking h.taker.list h.taker.dst }) s
  modRegion s L fun R =>
    { R with
      takers := hs.map (·.taker) ++ R.takers
      handed := R.handed.filter fun h => !hs.contains h
      flows := R.flows.filter fun f => !hs.any fun h => h.taker.t == f.holder
      ready := if hs = [] then R.ready
        else mset R.ready (ctx, l) (hs.foldr (fun h r => returnTask h.task r) (readyTasks R ctx l)) }

/-- Serves every taker of a list that an eligible task word can be given to. -/
def serveList (s : State) (L ctx l : Nat) : State := serveTakers s L ctx l (regionOf s L).takers.length

/-- Places a task word on its ready list and serves the list (R163, R164). -/
def placeTask (s : State) (L ctx : Nat) (x : ReadyTask) : State :=
  let l := taskList x.task
  serveList (modRegion (recallTasks s L ctx l) L fun R =>
    { R with ready := mset R.ready (ctx, l) (insertTask x (readyTasks R ctx l)) }) L ctx l

/-- Flows that satisfy a test leave service, and the waiting takers of the context are served (R165). -/
def releaseFlows (s : State) (L ctx : Nat) (p : FlowHeld → Bool) : State :=
  if (regionOf s L).flows.any p then
    serveAll (modRegion s L fun R => { R with flows := R.flows.filter fun f => !p f }) L ctx
  else s

/-- The logical region of a thread's cell. -/
def threadRegion (s : State) (t : ThreadId) : Nat :=
  match cellPlace (ctxOf s t.ctx) t.cell with
  | some (L, _) => L
  | none => 0

/-- A thread ends (R144): its flow leaves service (R165). -/
def endThread (s : State) (t : ThreadId) : State :=
  releaseFlows (sweepWakes (modThread s t Thread.halted)) (threadRegion s t) t.ctx (fun f => f.holder == t)

/-- A thread that may run on with its program counter one past the last word ends as at HALT (R144). -/
def settle (s : State) (t : ThreadId) : State :=
  match threadOf s t with
  | some th => if th.run = .ready ∧ atEnd s t then endThread s t else s
  | none => s

/-- A thread that was held runs again. -/
def wake (s : State) (t : ThreadId) : State :=
  settle (modThread s t fun th => { th with run := .ready, readyAt := now s }) t

/-! ### Watch slots (R147 to R153) -/

/-- Tenths of a ns from the write of a watched word to the wake of a thread (Table 5.1, R153): 4 beats in the home's own
cell, 40 ns in its region, 250 ns in another region. -/
def wakeTenths (s : State) (t : ThreadId) (a : Nat) : Nat :=
  match cellPlace (ctxOf s t.ctx) t.cell with
  | some (L, pos) =>
    if L ≠ addrRegion a then 2500 else if spaceOf a = 2 ∧ addrCell a = pos then 32 else 400
  | none => 2500

/-- Marks every acknowledged slot whose word lies in [a, a + n) (R149); the wake of a first write is due by `due`. -/
def markSlots (due a n : Nat) (w : WatchSlot) : WatchSlot :=
  match w.addr with
  | some x =>
    if w.acked ∧ x < a + n ∧ a < x + 4 then
      { w with written := true, due := if w.written then w.due else due }
    else w
  | none => w

/-- A write of n bytes marks an acknowledged gate watch of one of its words (R149, R369). -/
def GateWatch.mark (a n : Nat) (g : GateWatch) : GateWatch :=
  if g.acked ∧ g.addr < a + n ∧ a < g.addr + 4 then { g with written := true } else g

/-- A write of n bytes at a device address marks the slots that watch its words (R149). -/
def markWritten (s : State) (a n : Nat) : State :=
  { s with
    threads := s.threads.map fun e =>
      (e.1, { e.2 with watch := e.2.watch.map (markSlots (10 * now s + wakeTenths s e.1 a) a n) })
    logs := s.logs.map fun e => (e.1, { e.2 with gates := e.2.gates.map fun g => (g.1, g.2.mark a n) }) }

/-- The distinct watched words that satisfy a test (R152): those of threads' slots and of the Winches' gates. -/
def watchedWords (s : State) (p : Nat → Bool) : List Nat :=
  (((s.threads.flatMap fun e => e.2.watch.toList.filterMap fun w => w.addr) ++
    s.logs.flatMap fun e => e.2.gates.map fun g => g.2.addr).filter p).dedup

/-! ### Matching entries (R160, R161) -/

/-- A token fault, counted in the register of the entry's region (R160, R171). -/
def tokenFault (s : State) (ctx L : Nat) : State :=
  modCtxRegion s ctx L fun x => { x with tokenFaults := satAdd 0xFFFF x.tokenFaults 1 }

def entryOf (s : State) (L cell e : Nat) : MatchEntry := mget MatchEntry.zero (regionOf s L).entries (cell, e)

def setEntry (s : State) (L cell e : Nat) (x : MatchEntry) : State :=
  modRegion s L fun R => { R with entries := mset R.entries (cell, e) x }

/-- Whether the entry's operands are complete (R160). -/
def MatchEntry.complete (e : MatchEntry) : Bool := e.armed && (e.arrived &&& e.required) == e.required

/-- The fields of an entry after it fires: the operands that arrived outside REQUIRED stay, and so do their instants. -/
def MatchEntry.fired (e : MatchEntry) : MatchEntry :=
  let e := { e with arrived := e.arrived &&& ~~~e.required, arrivedAt := e.arrivedAt.filter fun x => !e.required.getLsbD x.1 }
  if e.rearm then { e with task := taskStep e.task e.argstep.toNat } else { e with armed := false }

/-- Whether a firing of the same instant comes first: by cell, then by entry (R163). -/
def Firing.precedes (x y : Firing) : Bool :=
  x.at_ == y.at_ && (decide (x.cell < y.cell) || (x.cell == y.cell && decide (x.entry < y.entry)))

/-- A firing joins those that wait, oldest first (R161). -/
def insertFiring (x : Firing) (l : List Firing) : List Firing :=
  l.takeWhile (fun y => !x.precedes y) ++ x :: l.dropWhile (fun y => !x.precedes y)

/-- fire(e) of R160: the task word goes to its ready list, or stays as the entry's waiting firing while the region's
lists hold 16,384 words or an older firing still waits (R161). -/
def fire (s : State) (ctx L cell e : Nat) : State :=
  let x := entryOf s L cell e
  if readyCount (regionOf s L) < 16384 ∧ (regionOf s L).firings = [] then
    placeTask (setEntry s L cell e x.fired) L ctx
      { task := x.task, at_ := now s, delayed := false, cell := cell, entry := e }
  else
    modRegion (setEntry s L cell e { x.fired with waiting := some x.task }) L fun R =>
      { R with firings := insertFiring { at_ := now s, cell := cell, entry := e } R.firings }

/-- The match test that ends every token (R160): an entry with a waiting firing makes none (R161). -/
def matchTest (s : State) (ctx L cell e : Nat) : State :=
  let x := entryOf s L cell e
  if x.waiting = none ∧ x.complete then fire s ctx L cell e else s

/-- The effect of a well-formed token on its entry: none when it is a token fault (R160). -/
def tokenEffect (t : Nat) (w task : DWord) (x : MatchEntry) : Option MatchEntry :=
  match tokKind w with
  | 0 =>
    if x.arrived.getLsbD (tokOpnd w) then none
    else some { x with arrived := x.arrived ||| BitVec.ofNat 16 (2 ^ tokOpnd w), arrivedAt := mset x.arrivedAt (tokOpnd w) t }
  | 1 =>
    if x.armed then none
    else some { x with armed := true, required := tokRequired w, rearm := tokRearm w,
                       argstep := BitVec.ofNat 7 (tokArgstep w), task := task }
  | _ => some { x with armed := false, arrived := 0, arrivedAt := [] }

/-- The tier-late stall of R372: from the later of DEADLINE and the arrival of the last other REQUIRED operand. -/
def tierLate (s : State) (L deadline : Nat) (w : DWord) (x : MatchEntry) : State :=
  if deadline < now s ∧ tokKind w = 0 ∧ x.waiting = none ∧ x.complete ∧ x.required.getLsbD (tokOpnd w) then
    let others := (x.arrivedAt.filter fun e => x.required.getLsbD e.1 && e.1 != tokOpnd w).map (·.2)
    match physOfLogical s L with
    | some p => addStall s p 7 (now s - others.foldl Nat.max deadline)
    | none => s
  else s

/-- A token of a context is performed at its entry (R160); `deadline` is that of a Winch token (R372). -/
def performToken (s : State) (ctx : Nat) (w task : DWord) (deadline : Option Nat) : State :=
  let L := tokRegion w
  let c := tokCell w
  let e := tokEntry w
  if tokenMalformed w ∨ !(ctxOf s ctx).blocks.contains (L, c / 8) then tokenFault s ctx L
  else
    match tokenEffect (now s) w task (entryOf s L c e) with
    | none => tokenFault s ctx L
    | some x =>
      let s := setEntry s L c e x
      let s := match deadline with
        | some d => tierLate s L d w x
        | none => s
      matchTest s ctx L c e

/-- The oldest waiting firing is placed, and its entry makes the test that it owed (R161). -/
def placeFiring (s : State) (L : Nat) : State :=
  match (regionOf s L).firings with
  | [] => s
  | f :: rest =>
    if readyCount (regionOf s L) < 16384 then
      let x := entryOf s L f.cell f.entry
      match blockOwner s L (f.cell / 8), x.waiting with
      | some ctx, some w =>
        let s := modRegion s L fun R => { R with firings := rest }
        let s := setEntry s L f.cell f.entry { x with waiting := none }
        matchTest (placeTask s L ctx { task := w, at_ := now s, delayed := false, cell := f.cell, entry := f.entry })
          ctx L f.cell f.entry
      | _, _ => modRegion s L fun R => { R with firings := rest }
    else s

/-! ### Delay list (R166) -/

/-- Rounds a due time up to a tick; one that is past, or falls on the present instant, is due at the next tick (DESIGN CHOICE for
the present instant, log entry 150). -/
def delayDue (t due : Nat) : Nat :=
  let d := ceilDiv due 100 * 100
  if d ≤ t then (t / 100 + 1) * 100 else d

/-- The task with the earliest due time, first arrival first, among those that may move, and the others. -/
def earliest (ok : Delayed → Bool) (l : List Delayed) : Option Delayed :=
  l.foldl (fun a d => if ok d then (match a with
    | some x => if d.due < x.due then some d else a
    | none => some d) else a) none

/-- Moves the due tasks of contexts that are not paused to their ready lists, while there is room and no firing waits
(R104, R163, R166). -/
def moveDue (s : State) (L boundary : Nat) : Nat → State
  | 0 => s
  | n + 1 =>
    let ok := fun (d : Delayed) => decide (d.due ≤ boundary) && (ctxOf s d.ctx).state != .paused
    match earliest ok (regionOf s L).delay with
    | some d =>
      if readyCount (regionOf s L) < 16384 ∧ (regionOf s L).firings = [] then
        moveDue (placeTask (modRegion s L fun R => { R with delay := R.delay.erase d }) L d.ctx
          { task := d.task, at_ := now s, delayed := true, cell := 0, entry := 0 }) L boundary n
      else s
    | none => s

/-- Everything the task unit of a region holds for a context is discarded (R169, R160, R165). -/
def dropTasks (s : State) (L ctx : Nat) : State :=
  let blocks := (ctxOf s ctx).blocks
  modRegion s L fun R =>
    { R with
      ready := R.ready.filter (fun e => e.1.1 ≠ ctx)
      takers := R.takers.filter (fun k => k.t.ctx ≠ ctx)
      flows := R.flows.filter (fun f => f.ctx ≠ ctx)
      delay := R.delay.filter (fun d => d.ctx ≠ ctx)
      entries := R.entries.filter (fun e => !blocks.contains (L, e.1.1 / 8))
      firings := R.firings.filter (fun e => !blocks.contains (L, e.cell / 8)) }

end Sys2Proof.Machine
end

