-- ==== Sys2Proof/Machine/Operands.lean ====
section
/-! DEFINITION. How a thread instruction issues: which threads may issue, the tag comparators (03 R102; 04 R145), the guard
(R108), the step of the program counter through hardware loops (R142), and the operand forms of each format. -/

namespace Sys2Proof.Machine

open Sys2Proof

/-! ### The end of a word (R142) -/

/-- end_step(p): the next word and the loop stack that is left, the innermost level first. -/
def endStep (p : Nat) : List LoopLevel → Nat × List LoopLevel
  | [] => (p + 1, [])
  | l :: r =>
    if l.stop = p then
      if l.index + 1 < l.count then (l.start, { l with index := l.index + 1 } :: r) else endStep p r
    else (p + 1, l :: r)

/-- The program counter steps past the word that a thread has executed. -/
def Thread.advance (th : Thread) : Thread :=
  { th with pc := (endStep th.pc th.loops).1, loops := (endStep th.pc th.loops).2 }

/-- A LOOP whose guard fails or whose count is zero: its body counts as completed at its end (R142). -/
def Thread.skipTo (th : Thread) (e : Nat) : Thread :=
  { th with pc := (endStep e th.loops).1, loops := (endStep e th.loops).2 }

/-! ### Tag comparators (R102, Table 3.12) -/

/-- A comparator that counts an arrival of a word with this tag. -/
def tagCounts (r : DWord) (tag : BitVec 12) : Bool :=
  bitOf r.toNat 31 && tag != 0 && bits r.toNat 27 16 == tag.toNat && bits r.toNat 15 0 != 0

/-- The register after it has counted: REMAIN falls, and HIT is set when it goes from 1 to 0. -/
def tagCounted (r : DWord) : DWord :=
  let n := r.toNat - 1
  BitVec.ofNat 64 (if bits r.toNat 15 0 = 1 ∧ !bitOf r.toNat 30 then n + 2 ^ 30 else n)

/-- A comparator that breaks at this arrival. -/
def tagBreaks (r : DWord) (tag : BitVec 12) : Bool := tagCounts r tag && bits r.toNat 15 0 == 1

/-- The arrival is counted in comparator i. -/
def countTag (s : State) (c i : Nat) (tag : BitVec 12) : State :=
  let r := rawReg s (offTagBreak c i)
  let s := if tagBreaks r tag then w1cEvent s (offTagBreak c i) 30 else s
  if tagCounts r tag then setRaw s (offTagBreak c i) (tagCounted r) else s

/-- The arrival is counted in all four comparators. -/
def countTags (s : State) (c : Nat) (tag : BitVec 12) : State :=
  countTag (countTag (countTag (countTag s c 0 tag) c 1 tag) c 2 tag) c 3 tag

/-- The comparator that the status names when several break at this arrival: the first (DESIGN CHOICE, log entry 148: R104 names
one field and no order). -/
def breakingTag (s : State) (c : Nat) (tag : BitVec 12) : Option Nat :=
  [0, 1, 2, 3].find? fun i => tagBreaks (rawReg s (offTagBreak c i)) tag

/-- A context begins to break: its threads issue nothing more until it is paused (R104, Table 3.14). -/
def beginBreak (s : State) (c : Nat) (b : BreakInfo) (at_ : Option ThreadId) : State :=
  modCtx s c fun x => { x with breaking := true, brk := b, stoppedAt := x.stoppedAt ++ at_.toList }

/-- A tag break at a thread (TAG_BREAK). -/
def tagBreak (s : State) (t : ThreadId) (i : Nat) (tag : BitVec 12) : State :=
  beginBreak s t.ctx
    { cause := 1, comparator := i, thread := t.thread, cell := t.cell, tag := tag, group := t.group, time := now s } (some t)

/-- A comparator of the context counts this arrival. -/
def anyCounts (s : State) (c : Nat) (tag : BitVec 12) : Bool :=
  [0, 1, 2, 3].any fun i => tagCounts (rawReg s (offTagBreak c i)) tag

/-- In the same nanosecond a thread that comes later in the order of R102 has been counted already: this arrival falls in
a later nanosecond (log entry 112). -/
def countedAhead (s : State) (t : ThreadId) (tag : BitVec 12) : Bool :=
  match (ctxOf s t.ctx).lastCount with
  | some (at_, u) => decide (at_ = now s) && threadBefore t u && anyCounts s t.ctx tag
  | none => false

/-- The arrival is counted, and remembered as the last one counted. -/
def countArrival (s : State) (t : ThreadId) (tag : BitVec 12) : State :=
  let s1 := countTags s t.ctx tag
  if anyCounts s t.ctx tag then modCtx s1 t.ctx fun x => { x with lastCount := some (now s, t) } else s1

/-- Arrival of a word at the comparators (R102, R145): the new state, and whether the thread stops before the word. An
arrival that has already stopped its thread is not counted again when the thread resumes at the same word (DESIGN CHOICE:
the spec does not say; log entry 115). -/
def arrive (s : State) (t : ThreadId) (tag : BitVec 12) : Bool × State :=
  if (ctxOf s t.ctx).stoppedAt.contains t then
    (false, modCtx s t.ctx fun x => { x with stoppedAt := x.stoppedAt.filter (· ≠ t) })
  else
    match breakingTag s t.ctx tag with
    | some i => (true, tagBreak (countArrival s t tag) t i tag)
    | none => (false, countArrival s t tag)

/-! ### Issue -/

/-- The guard of a word holds (R108). -/
def guardOk (k : Common) (th : Thread) : Bool := !k.gen || xor (th.rdP k.gp) k.gneg

/-- A cell whose threads run: its region is neither vacant nor fenced, and the cell is not being retired (R439, R442,
R444). -/
def cellRuns (s : State) (t : ThreadId) : Bool :=
  match cellPlace (ctxOf s t.ctx) t.cell with
  | some (L, pos) =>
    !(regionOf s L).vacant && (regionOf s L).exchange.isNone && !(regionOf s L).retiring.contains pos
  | none => false

/-- No ready thread of the same cell has stood at its word for longer: a cell issues among its ready threads in age order
(R33, Table 1.3; log entry 116). -/
def oldestReady (s : State) (t : ThreadId) (since : Nat) : Bool :=
  s.threads.all fun e =>
    decide (e.1.ctx ≠ t.ctx ∨ e.1.cell ≠ t.cell ∨ e.2.run ≠ .ready ∨ since ≤ e.2.readyAt)

/-- A thread that may issue its next word. -/
def canIssue (s : State) (t : ThreadId) : Bool :=
  match threadOf s t with
  | some th => th.run == .ready && ctxRuns s t.ctx && cellRuns s t && oldestReady s t th.readyAt
  | none => false

/-- The thread as it stands, for operand reads. -/
def theThread (s : State) (t : ThreadId) : Thread :=
  (threadOf s t).getD
    { pc := 0, s := Vector.replicate 32 0, p := Vector.replicate 8 false, loops := [],
      watch := Vector.replicate 16 WatchSlot.empty, run := .ended, readyAt := 0 }

/-- The key of a thread's group (R100). -/
def groupKey (t : ThreadId) : Nat × Nat × Nat := (t.ctx, t.cell, t.group)

/-- An invalid descriptor record (R126). -/
def blankRecord : List Byte := List.replicate 64 0

def Group.blank : Group :=
  { d := Vector.replicate 16 blankRecord, x := Vector.replicate 8 blankRecord, quotaKib := 0, vec := false }

def groupOf (s : State) (t : ThreadId) : Group := mget Group.blank s.groups (groupKey t)

def setGroup (s : State) (t : ThreadId) (g : Group) : State := { s with groups := mset s.groups (groupKey t) g }

/-- An index descriptor register and the one that its record chains to (R130). -/
def chained (g : Group) (n : Fin 8) : List (Bool × Nat) :=
  (true, n.val) :: if bitOf (fieldAt g.x[n] 2 1) 7 then [(true, fieldAt g.x[n] 2 1 % 8)] else []

/-- The descriptor registers that a word names and whose record it needs, or replaces, at its issue: whether an index
descriptor, and the number (R126, R129, R139). -/
def namedRecords (g : Group) : Instr → List (Bool × Nat)
  | .dld _ _ o => [(o.minor.val == 1, if o.minor.val == 1 then o.data.val % 8 else o.data.val % 16)]
  | .dstr _ _ o => [(o.minor.val == 1, if o.minor.val == 1 then o.data.val % 8 else o.data.val % 16)]
  | .dsetw _ _ o => [(o.minor.val == 1, if o.minor.val == 1 then o.dst.val % 8 else o.dst.val % 16)]
  | .dgetw _ _ o => [(o.minor.val == 1, if o.minor.val == 1 then o.a.val % 8 else o.a.val % 16)]
  | .tmaxabs _ _ o => (false, o.d2.val) :: if o.xe2 then chained g o.x2 else []
  | _ => []

/-- The guard of a word that names such a register. -/
def recordGuard : Instr → Common
  | .dld _ k _ => k
  | .dstr _ k _ => k
  | .dsetw _ k _ => k
  | .dgetw _ k _ => k
  | .tmaxabs _ k _ => k
  | _ => { gen := false, gneg := false, gp := 0, tag := 0 }

/-- The DLD under way into a descriptor register of the thread's group. -/
def pendingDld (s : State) (t : ThreadId) (n : Bool × Nat) : Option Nat :=
  (s.requests.find? fun q =>
    match q.kind, q.origin with
    | .dload x slot, .thread u =>
      groupKey u == groupKey t && x == n.1 && (if x then slot.val % 8 else slot.val) == n.2
    | _, _ => false).map (·.id)

/-- A DLD is under way into a register that the word names: what issues after it sees its record, and writes of descriptors
keep the order of their issue (R129), so the word waits for it; a word whose guard does not hold does not (R108). -/
def awaitsDld (i : Instr) (s : State) (t : ThreadId) : Option Nat :=
  if guardOk (recordGuard i) (theThread s t) then ((namedRecords (groupOf s t) i).filterMap (pendingDld s t)).head? else none

/-- The thread stands at this word and has its turn. -/
def arrives (s : State) (t : ThreadId) (tag : BitVec 12) : Bool := canIssue s t && !countedAhead s t tag

/-- The thread issues this word now. -/
def issues (i : Instr) (s : State) (t : ThreadId) (tag : BitVec 12) : Bool :=
  arrives s t tag && (awaitsDld i s t).isNone

/-- The thread is held at its word, and the others of its cell issue on (R122). -/
def holdAt (s : State) (t : ThreadId) (run : RunState) : State := modThread s t fun th => { th with run := run }

/-- What a thread does at a word that it does not issue now: held for a DLD, or nothing. -/
def notIssued (i : Instr) (s : State) (t : ThreadId) (tag : BitVec 12) : State :=
  if arrives s t tag then
    match awaitsDld i s t with
    | some req => holdAt s t (.waitRecord req)
    | none => s
  else s

/-- The word has been executed: the thread's age at its next word begins (R33). -/
def standsAt (s : State) (t : ThreadId) : State := modThread s t fun th => { th with readyAt := now s }

/-- A thread arrives at a word and executes it: `eff` when its guard holds, `off` when it does not. -/
def issueWord (i : Instr) (t : ThreadId) (k : Common) (eff off : State → State) (s : State) :
    Host.Outcome State Fault Refusal :=
  if !i.wf then .refused .staticallyIllegal
  else if !issues i s t k.tag then .next (notIssued i s t k.tag)
  else if (arrive s t k.tag).1 then .next (arrive s t k.tag).2
  else if guardOk k (theThread s t) then .next (settle (standsAt (eff (arrive s t k.tag).2) t) t)
  else .next (settle (standsAt (off (arrive s t k.tag).2) t) t)

/-- The program counter of a thread steps past its word. -/
def stepPc (t : ThreadId) (s : State) : State := modThread s t Thread.advance

/-- An instruction that changes its thread's registers only. -/
def regWord (i : Instr) (t : ThreadId) (k : Common) (f : Thread → Thread) (s : State) :
    Host.Outcome State Fault Refusal :=
  issueWord i t k (fun s => modThread s t fun th => (f th).advance) (stepPc t) s

/-- An instruction with an effect on the whole state; the program counter steps past it. -/
def stateWord (i : Instr) (t : ThreadId) (k : Common) (f : State → State) (s : State) :
    Host.Outcome State Fault Refusal :=
  issueWord i t k (fun s => stepPc t (f s)) (stepPc t) s

/-! ### Operand forms of the scalar formats -/

/-- s[DST] ← op of s[A] and s[B]. -/
def rForm (o : RArgs) (f : Word → Word → Word) (th : Thread) : Thread := th.wr o.dst (f (th.rd o.a) (th.rd o.b))

/-- The sign-extended 25-bit immediate. -/
def immWord (o : IArgs) : Word := o.imm.signExtend 32

/-- s[DST] ← op of s[A] and IMM. -/
def iForm (o : IArgs) (f : Word → Word → Word) (th : Thread) : Thread := th.wr o.dst (f (th.rd o.a) (immWord o))

/-- p[DST] ← a test of s[A] and s[B]. -/
def pForm (o : RArgs) (f : Word → Word → Bool) (th : Thread) : Thread :=
  th.wrP (Fin.ofNat 8 o.dst.val) (f (th.rd o.a) (th.rd o.b))

/-- The context address of an A-format word, its device alignment applied (R120, R121): window and offset. -/
def ctxAddress (o : AArgs) (align : Nat) (th : Thread) : Nat :=
  let base : Nat := (th.rd (o.areg + 1)).toNat % 256 * 2 ^ 32 + (th.rd o.areg).toNat
  let off := ofSigned 40 (Int.ofNat base + o.disp.toInt)
  o.win.toNat * 2 ^ 40 + off / align * align

/-! ### Vector contexts -/

def VectorCtx.blank : VectorCtx := { v := Vector.replicate 32 (Vector.replicate 64 0), ovf := false }

def vectorOf (s : State) (t : ThreadId) : VectorCtx := mget VectorCtx.blank s.vectors (groupKey t)

def setVector (s : State) (t : ThreadId) (v : VectorCtx) : State := { s with vectors := mset s.vectors (groupKey t) v }

/-- A vector instruction: a thread of a group without VEC never executes one, since lowering refuses its image (R101). -/
def vectorWord (i : Instr) (t : ThreadId) (k : Common) (f : State → State) (s : State) :
    Host.Outcome State Fault Refusal :=
  if !(groupOf s t).vec ∧ canIssue s t then .refused .staticallyIllegal else stateWord i t k f s

/-- The lane operations of a vector instruction are activity of its region (Table 17.7). -/
def countLanes (s : State) (t : ThreadId) : State :=
  match physOfLogical s (threadRegion s t) with
  | some p => countAct s (.region p) (some t.ctx) .vector 64
  | none => s

/-- A vector instruction that operates on lanes. -/
def laneWord (i : Instr) (t : ThreadId) (k : Common) (f : State → State) (s : State) :
    Host.Outcome State Fault Refusal :=
  vectorWord i t k (fun s => countLanes (f s) t) s

end Sys2Proof.Machine
end

