-- ==== Sys2Proof/Machine/Pages.lean ====
section
/-! DEFINITION. T2 below the windows (13 R360 to R364): the stored form of a line, the run of granules of a page, charge and
capacity; and the one write that every unit makes to a unified device address. -/

namespace Sys2Proof.Machine

open Sys2Proof

/-! ### Stored form of a line (R361) -/

/-- The elements of a line for a WIDTH code: 0 byte, 1 16-bit, 2 32-bit. -/
def lineElems (w : Nat) : List Byte → Nat → List Nat
  | _, 0 => []
  | l, n + 1 => leNat (l.take w) :: lineElems w (l.drop w) n

/-- ⌈log2(d + 1)⌉. -/
def spanBits (d : Nat) : Nat := if d = 0 then 0 else Nat.log2 d + 1

/-- Stored sectors of a line of 256 bytes. -/
def lineSectors (width : Nat) (line : List Byte) : Nat :=
  let w := 2 ^ width
  let nz := (lineElems w line (256 / w)).filter (· ≠ 0)
  let n := nz.length
  if n = 0 then 0
  else
    let size :=
      if w = 1 then 4 + 32 + n
      else
        let xs := nz.map fun x => bits x (8 * w - 2) (8 * w - 9)
        let lo := xs.foldl Nat.min 255
        let hi := xs.foldl Nat.max 0
        4 + 256 / (8 * w) + ceilDiv (n * spanBits (hi - lo)) 8 + n * (w - 1)
    Nat.min 8 (ceilDiv size 32)

/-- SIZES of a page: stored sectors of its 16 lines. -/
def pageSizes (m : Memory) (width page : Nat) : List Nat :=
  (List.range 16).map fun i => lineSectors width (m.readBytes (page * 4096 + 256 * i) 256)

/-- GRANULES of a page. -/
def pageGranules (m : Memory) (width page : Nat) : Nat := ceilDiv (32 * (pageSizes m width page).sum) 256

/-! ### Frames, charge and capacity -/

/-- The T2 allocation that holds an address. -/
def frameOf (s : State) (a : Nat) : Option Allocation :=
  s.allocs.find? fun x => x.tier == 0 && decide (x.base ≤ a) && decide (a < x.base + x.units * 2097152)

/-- WIDTH of the frame of a page (R360); frames lent to a peer have width 0 (log entry 12). -/
def pageWidth (s : State) (page : Nat) : Nat :=
  match frameOf s (page * 4096) with
  | some x => x.width
  | none => 0

/-- The loan of the T2 frame that holds an address (R359). -/
def loanOf (s : State) (a : Nat) : Option Loan :=
  s.loans.find? fun x => decide (x.base ≤ a) && decide (a < x.base + 2097152)

/-- The function that the page at an address is charged to: the one its frame is allocated or lent to (R363). -/
def chargedFn (s : State) (a : Nat) : Option Nat :=
  match loanOf s a with
  | some x => some x.fn
  | none => (frameOf s a).map (·.fn)

/-- Granules of a function's pages, in bytes (R363): frames allocated or lent to it on this device. -/
def charge (s : State) (f : Nat) : Nat :=
  256 * (s.pages.map fun e => if chargedFn s (e.1 * 4096) = some f then e.2.granules else 0).sum

def pageRun (s : State) (page : Nat) : PageRun := mget { granules := 0, base := 0 } s.pages page

/-- The over-quota event when a change from `s` to `t` takes a function's charge through its quota (R363). -/
def quotaEvent (s t : State) (f : Nat) : State :=
  if charge s f < (fnOf s f).t2Quota ∧ (fnOf s f).t2Quota ≤ charge t f then
    postEvent t f 0x0A 0xFF (charge t f % 65536) (charge t f)
  else t

/-- The capacity event when a change from `s` to `t` takes a channel's free granules to the growth floor (R364). -/
def floorEvent (s t : State) (st ch : Nat) : State :=
  if 16384 < channelFree s st ch ∧ channelFree t st ch ≤ 16384 then deviceEvent t 0x0B (st * 32 + ch) else t

/-- The first base from `b` on at which a run of n granules meets none of `bad`; `k` bounds the search. -/
def clearBase (bad : List Nat) (n : Nat) : Nat → Nat → Nat
  | 0, b => b
  | k + 1, b =>
    match bad.find? fun g => decide (b ≤ g ∧ g < b + n) with
    | some g => clearBase bad n k (g + 1)
    | none => b

/-- The base of a new run of a page: a free value, clear of the channel's retired granules (R362, R379). -/
def newBase (s : State) (page n i : Nat) : Nat :=
  let bad := (s.retiredGranules.filter fun x => x.1 == pageStack page && x.2.1 == pageChannel page).map (·.2.2)
  clearBase bad n bad.length (Config.pageBase i % 2 ^ 23)

/-- A page after its bytes have changed: its run takes the granules that the bytes need; a run that grows moves
(PAGE_RELOCATION, R362). The events of R363 and R364 are raised when the charge rises through the quota and when the
channel's free granules fall to the growth floor. -/
def updatePage (s : State) (page : Nat) : State :=
  let old := pageRun s page
  let g := pageGranules s.mem (pageWidth s page) page
  if g = old.granules then s
  else
    let base := if old.granules < g then newBase s page g s.freeCounter else old.base
    let s1 := { s with pages := mset s.pages page { granules := g, base := base }, freeCounter := s.freeCounter + 1 }
    let s1 :=
      match chargedFn s (page * 4096) with
      | some f => quotaEvent s s1 f
      | none => s1
    floorEvent s s1 (pageStack page) (pageChannel page)

/-- The pages that a range of T2 touches. -/
def pagesOf (a n : Nat) : List Nat := (List.range ((a + n - 1) / 4096 - a / 4096 + 1)).map (a / 4096 + ·)

/-! ### Peer ports (14 R380, R393) -/

/-- The link die of a device-link port (R380). -/
def portDie (port : Nat) : Nat := port / 2

/-- The port that leads to a peer device (R380); over the double link bit 6 of the inner address chooses (R393). -/
def peerPort (s : State) (dev inner : Nat) : Option Nat :=
  let me := s.part.device
  if dev = me ∨ 8 ≤ dev then none
  else
    let p := (dev + 8 - me - 1) % 8
    if p = 3 then
      let want := if bitOf inner 6 then 7 else 3
      if (linkOf s want).up then some want else some (10 - want)
    else some p

/-- The port is up. -/
def portUp (s : State) (p : Nat) : Bool := (linkOf s p).up

/-- A peer that can be reached. -/
def peerReachable (s : State) (dev : Nat) : Bool :=
  match peerPort s dev 0 with
  | some p => portUp s p || (p == 3 && portUp s 7) || (p == 7 && portUp s 3)
  | none => false

/-- Data flits that an operation with n data bytes takes (R387). -/
def opFlits (n : Nat) : Nat := Nat.max 1 (ceilDiv (16 + n) 248)

/-- Brings bytes to a length. -/
def padTo (n : Nat) (bs : List Byte) : List Byte := (bs ++ List.replicate n 0).take n

/-! ### CRC-32 (IEEE 802.3) -/

/-- One bit of the reflected CRC-32. -/
def crcBit (c : Word) : Word := if c.getLsbD 0 then (c >>> 1) ^^^ 0xEDB88320 else c >>> 1

/-- One byte. -/
def crcByte (c : Word) (b : Byte) : Word :=
  crcBit (crcBit (crcBit (crcBit (crcBit (crcBit (crcBit (crcBit (c ^^^ b.setWidth 32))))))))

/-- CRC-32 of bytes. -/
def crc32 (bs : List Byte) : Word := ~~~ (bs.foldl crcByte 0xFFFFFFFF)

/-! ### Flits that leave (14 R384 to R387, R392) -/

/-- The bytes of an operation header (Table 14.6). -/
def opBytesOf (h : OpHeader) : List Byte :=
  leBytes 1 h.op ++ leBytes 1 h.fn ++ leBytes 2 h.tag ++ leBytes 4 h.len ++ leBytes 6 (h.inner + 2 ^ 44 * h.space) ++
    leBytes 1 (h.minor + (if h.poison then 16 else 0)) ++ [0]

/-- The payloads of n data flits over a stream of bytes. -/
def flitPayloads : Nat → List Byte → List (List Byte)
  | 0, _ => []
  | n + 1, bs => bs.take 248 :: flitPayloads n (bs.drop 248)

/-- The first word of a flit (Table 14.3). -/
def FlitHead.word (h : FlitHead) : Nat := h.kind * 2 ^ 29 + h.seq * 2 ^ 17 + h.ack * 2 ^ 5 + h.credits

/-- The CRC of a flit, over its first 252 bytes. -/
def flitCrc (h : FlitHead) (payload : List Byte) : Word := crc32 (leBytes 4 h.word ++ padTo 248 payload)

/-- The head of the next flit of a port: ACK is the SEQ of the last good data flit, CREDITS the slots that its receive buffer has
freed, in units of 8; a device in hold lends no more (R384, R387, R396). -/
def flitHead (s : State) (port kind seq : Nat) : FlitHead :=
  let l := linkOf s port
  { kind := kind, seq := seq, ack := (l.recvSeq + 4095) % 4096
    credits := if s.hold then 0 else Nat.min 31 (l.freed / 8) }

/-- A flit leaves. -/
def emitFlit (s : State) (port kind seq : Nat) (payload : List Byte) : State :=
  let h := flitHead s port kind seq
  emit (modLink s port fun l => { l with freed := l.freed - 8 * h.credits, lent := l.lent + 8 * h.credits })
    (.flit port h payload (flitCrc h payload))

/-- The ledger of a port's link die over the flit credits of the port. -/
def flitCredit (port : Nat) : AdmPoint × Resource × Nat := (.linkDie (portDie port), .flits port, 1)

/-- A waiting data flit finds its credit: the one that its request reserved, or one of the ledger's (R54, R387). -/
def flitReady (s : State) (port : Nat) (held : Bool) : Bool :=
  held || decide (0 < available s (.linkDie (portDie port)) (.flits port))

/-- The waiting data flits of a port leave in order, each with the next SEQ, while the replay buffer holds fewer than 1,024 and they
find their credits (R385, R387); `k` bounds them. -/
def sendFlits (port : Nat) : Nat → State → State
  | 0, s => s
  | k + 1, s =>
    match (linkOf s port).outq with
    | [] => s
    | (held, bs) :: rest =>
      if 1024 ≤ (linkOf s port).replay.length then s
      else if !flitReady s port held then askLending s (.linkDie (portDie port)) (.flits port) 1
      else
        let seq := (linkOf s port).sendSeq
        let s := if held then s else reserve s (flitCredit port)
        let s := modLink s port fun l =>
          { l with sendSeq := (seq + 1) % 4096, replay := l.replay ++ [(seq, bs)], outq := rest }
        sendFlits port k (emitFlit s port 0 seq bs)

/-- An operation is handed to a port, in data flits of its own (R392); `held`: its request has reserved their credits. -/
def queueOp (held : Bool) (s : State) (port : Nat) (h : OpHeader) (payload : List Byte) : State :=
  let n := opFlits payload.length
  let flits := (flitPayloads n (opBytesOf h ++ payload)).map fun bs => (held, bs)
  let s := emit (modLink s port fun l => { l with outq := if l.up then l.outq ++ flits else l.outq }) (.op port h payload)
  sendFlits port (linkOf s port).outq.length s

/-- An operation whose requester holds its flit credits, or the answer to one (R387). -/
def sendOp (s : State) (port : Nat) (h : OpHeader) (payload : List Byte) : State := queueOp true s port h payload

/-- An operation of a unit: its flits take their credits as they leave (R387). -/
def sendUnitOp (s : State) (port : Nat) (h : OpHeader) (payload : List Byte) : State := queueOp false s port h payload

/-- The header of an operation on a peer address (Table 14.6). -/
def opHeader (op fn tag len addr minor : Nat) (poison : Bool) : OpHeader :=
  { op := op, fn := fn, tag := tag, len := len, space := bits addr 47 44, inner := bits addr 40 0, minor := minor,
    poison := poison }

/-! ### Bytes at a unified device address -/

/-- An address on a peer that cannot answer (R359, R396). -/
def peerGone (s : State) (a : Nat) : Bool := spaceOf a == 4 && !peerReachable s (bits a 50 48)

/-- What stands at a device address, poisoned words as zeros (R64). The bytes of a peer device are not in this machine's state:
a unit reads free bytes there (log entry 13), and zeros from a peer that cannot answer (R359). -/
def coreRead (s : State) (a n : Nat) : List Byte :=
  if peerGone s a then List.replicate n 0
  else if spaceOf a = 4 then (List.range n).map fun i => Config.freeByte s.freeCounter (a + i)
  else s.mem.fetchBytes (memKey s a) n

/-- Where a read of a device range meets poison (R501): all of it on a peer that cannot answer (R359). -/
def corePoison (s : State) (a n : Nat) : Option Nat :=
  if spaceOf a = 4 then (if peerGone s a then some a else none) else firstPoison s.mem (memKey s a) n

/-- A logical region that is vacant, or whose physical region has failed (R438, R443, R444). -/
def regionLost (s : State) (L : Nat) : Bool :=
  (regionOf s L).vacant || (match (regionOf s L).exchange with
    | some x => x.kind == .failure
    | none => false)

/-- An address in such a region: reads deliver poisoned zeros there, and writes are discarded (R438, R444). -/
def lostAt (s : State) (a : Nat) : Bool := (spaceOf a == 1 || spaceOf a == 2) && regionLost s (addrRegion a)

/-- What a unit of a function reads at a device address. -/
def devRead (s : State) (a n : Nat) : List Byte := if lostAt s a then List.replicate n 0 else coreRead s a n

/-- Where what it reads is poisoned: all of it in a lost region (R438). -/
def devPoison (s : State) (a n : Nat) : Option Nat := if lostAt s a then some a else corePoison s a n

/-- The peer-loss event, once per function and peer (R359, R396). -/
def peerLossEvent (s : State) (c dev : Nat) : State :=
  let key := (0x600 + dev, (ctxOf s c).fn)
  match mget? s.lastEvent key with
  | some _ => s
  | none => ctxEvent { s with lastEvent := mset s.lastEvent key (now s) } c 0x06 dev

/-- What a context receives for a read that met poison: the poison event (R501), and the peer-loss event when the data
came from a peer that cannot answer (R359). -/
def poisonedRead (s : State) (c a p : Nat) : State :=
  let s := poisonEvent s c p
  if peerGone s a then peerLossEvent s c (bits a 50 48) else s

/-- A write to a peer leaves as operations of at most 65,536 bytes (R392); `k` bounds them. -/
def sendPieces (s : State) (fn a : Nat) (bs : List Byte) : Nat → State
  | 0 => s
  | k + 1 =>
    if bs = [] then s
    else
      match peerPort s (bits a 50 48) (bits a 40 0) with
      | some p =>
        sendPieces (sendUnitOp s p (opHeader 2 fn 0 (Nat.min 65536 bs.length) a 0 false) (bs.take 65536)) fn (a + 65536)
          (bs.drop 65536) k
      | none => s

/-- The read operations with which a unit of a function asks a peer for a range (R392, R393). The answers come before the unit's
own completion event: what they bring are the free bytes of `coreRead` (log entry 13). -/
def askPeer (s : State) (fn a n : Nat) : State :=
  if spaceOf a = 4 ∧ !peerGone s a then
    (List.range (ceilDiv n 65536)).foldl (fun s i =>
      match peerPort s (bits a 50 48) (bits (a + 65536 * i) 40 0) with
      | some p => sendUnitOp s p (opHeader 1 fn 0 (Nat.min 65536 (n - 65536 * i)) (a + 65536 * i) 0 false) []
      | none => s) s
  else s

/-- A write at a device address by a function: memory with its poison rules (R376), watch slots of T0 and T1 words
(R149), the page run in T2 (R362), an operation on the link for a peer (R392). -/
def coreWrite (s : State) (fn a : Nat) (bs : List Byte) : State :=
  if bs = [] then s
  else if spaceOf a = 4 then
    if peerGone s a then s else sendPieces s fn a bs (bs.length / 65536 + 1)
  else
    let s1 := { s with mem := s.mem.store (memKey s a) bs }
    if spaceOf a = 0 then (pagesOf a bs.length).foldl updatePage s1
    else if spaceOf a = 5 then hostRequest s1 fn true a bs.length
    else markWritten s1 a bs.length

/-- What a unit of a function writes at a device address: discarded in a lost region (R438). -/
def devWrite (s : State) (fn a : Nat) (bs : List Byte) : State := if lostAt s a then s else coreWrite s fn a bs

/-- Marks the words of a range of this device poisoned, in T2 whole lines (R376, R501). -/
def poisonOut (s : State) (a n : Nat) : State :=
  if spaceOf a < 3 then { s with mem := (List.range n).foldl (fun m i => m.poisonAt (a + i)) s.mem } else s

/-- The pieces in which the bytes of a range leave the device: offset, length, and whether POISON marks them. At most 65,536 bytes
each, and word by word where a word is poisoned, so that the mark covers those words alone (R392, R501). -/
def plainPieces (s : State) (a n : Nat) : List (Nat × Nat × Bool) :=
  (List.range (ceilDiv n 65536)).flatMap fun i =>
    let off := 65536 * i
    let len := Nat.min 65536 (n - off)
    if (devPoison s (a + off) len).isNone then [(off, len, false)]
    else
      (List.range (ceilDiv len 4)).map fun j =>
        let m := Nat.min 4 (len - 4 * j)
        (off + 4 * j, m, (devPoison s (a + off + 4 * j) m).isSome)

/-- Bytes of this device go into host memory; poisoned words as poisoned TLPs (R501). -/
def hostMove (s : State) (fn src dst n : Nat) : State :=
  (plainPieces s src n).foldl (fun s x =>
      if x.2.2 then { s with out := s.out ++ [.poisonedTlp (hostPort s dst) fn ((dst + x.1) % 2 ^ 48) x.2.1] }
      else hostRequest s fn true (dst + x.1) x.2.1)
    { s with mem := s.mem.store (memKey s dst) (devRead s src n) }

/-- A move of bytes that carries poison onward (R501); from a peer that cannot answer, or a lost region, every word comes
poisoned (R359, R438). -/
def devMove (s : State) (fn src dst n : Nat) : State :=
  if n = 0 ∨ lostAt s dst then s
  else
    let s := if spaceOf src = 5 then hostRequest s fn false src n else askPeer s fn src n
    if spaceOf dst = 5 then hostMove s fn src dst n
    else if lostAt s src ∨ spaceOf src = 4 ∨ spaceOf dst = 4 then
      let s1 := devWrite { s with freeCounter := s.freeCounter + 1 } fn dst (devRead s src n)
      if lostAt s src ∨ peerGone s src then poisonOut s1 dst n else s1
    else
      let s1 := { s with mem := s.mem.move (memKey s src) (memKey s dst) n }
      if spaceOf dst = 0 then (pagesOf dst n).foldl updatePage s1 else markWritten s1 dst n

end Sys2Proof.Machine
end

