-- ==== Sys2Proof/Machine/Windows.lean ====
section
/-! DEFINITION. Windows and isolation (03 R92 to R95): the translation of a context address, its checks, the T0 ranges of
thread groups (13 R350), window faults, and reads and writes through a window. -/

namespace Sys2Proof.Machine

open Sys2Proof

/-! ### Window entries (Table 3.10) -/

def winEntry (s : State) (c w : Nat) : Nat := (rawReg s (offWindow c w)).toNat

def winValid (e : Nat) : Bool := bitOf e 63
def winRd (e : Nat) : Bool := bitOf e 62
def winWr (e : Nat) : Bool := bitOf e 61
def winAtom (e : Nat) : Bool := bitOf e 60
def winSize (e : Nat) : Nat := bits e 54 35 * 2097152
def winBase (e : Nat) : Nat := bits e 34 0 * 2097152
def winSpace (e : Nat) : Nat := spaceOf (winBase e)

/-- What an access needs of its window (R95). -/
inductive Need where
  | read
  | write
  | atomic
  deriving DecidableEq, Repr, Inhabited

def permitted (e : Nat) : Need → Bool
  | .read => winRd e
  | .write => winWr e
  | .atomic => winAtom e

/-- The T0 range of a group number in every cell of its context (R350): first byte and length. -/
def groupRange (c : Context) (g : Nat) : Nat × Nat :=
  match c.image with
  | some im =>
    (1024 * ((im.launches.filter fun l => decide (l.group < g)).map (·.quotaKib)).sum,
     1024 * ((im.launches.filter fun l => l.group == g).map (·.quotaKib)).sum)
  | none => (0, 0)

/-- T0 bytes that a requester reaches: a thread, feeder or tensor operation only its group's range; the units that act for
the context all of it (R350). -/
def t0Reach (c : Context) (grp : Option Nat) (a n : Nat) : Bool :=
  match grp with
  | none => true
  | some g =>
    let off := a % 1048576
    decide ((groupRange c g).1 ≤ off ∧ off + n ≤ (groupRange c g).1 + (groupRange c g).2)

/-- The host serves the function on the port that an address names, and the function may master the bus (R347, R405). -/
def hostServes (s : State) (fn a : Nat) : Bool :=
  (cfgAt s (hostPort s a) fn).busMaster && (!twoHosts s || parentFn s fn == b2n (bitOf a 51))

/-- The device address of n bytes at a context address, or none for a window fault (R92, R95, R347, R350). -/
def translate (s : State) (c : Nat) (grp : Option Nat) (need : Need) (ca n : Nat) : Option Nat :=
  let e := winEntry s c (bits ca 47 40)
  let off := bits ca 39 0
  let a := winBase e + off
  if ca / 2 ^ 48 ≠ 0 ∨ !winValid e ∨ winSize e < off + n ∨ !permitted e need then none
  else if spaceOf a = 2 ∧ !t0Reach (ctxOf s c) grp a n then none
  else if spaceOf a = 5 ∧ !hostServes s (ctxOf s c).fn a then none
  else some a

/-- A context address some bytes further in its window. -/
def ctxPlus (ca k : Nat) : Nat := ca / 2 ^ 40 * 2 ^ 40 + (ca + k) % 2 ^ 40

/-- A window fault: counted; the first after a start is reported (R95, R106). -/
def windowFault (s : State) (c ca : Nat) : State :=
  ctxEventOnce (modCtx s c fun x => { x with winFaults := satAdd 0xFFFF x.winFaults 1 }) c 0x01 ca

/-- A read by a unit or a tensor operation: zeros where it faults (R95). -/
def winRead (s : State) (c : Nat) (grp : Option Nat) (ca n : Nat) : List Byte :=
  match translate s c grp .read ca n with
  | some a => devRead s a n
  | none => List.replicate n 0

/-- What a read leaves: a window fault counted (R95), the poison event when it met poison (R501). -/
def winReadMark (s : State) (c : Nat) (grp : Option Nat) (ca n : Nat) : State :=
  match translate s c grp .read ca n with
  | some a =>
    let s := if spaceOf a = 5 then hostRequest s (ctxOf s c).fn false a n else s
    match devPoison s a n with
    | some p => poisonedRead s c a p
    | none => s
  | none => windowFault s c ca

/-- A write by a unit or a tensor operation: discarded and counted where it faults (R95). -/
def winWrite (s : State) (c : Nat) (grp : Option Nat) (ca : Nat) (bs : List Byte) : State :=
  match translate s c grp .write ca bs.length with
  | some a => devWrite s (ctxOf s c).fn a bs
  | none => windowFault s c ca

/-- The entries of the windows that some context addresses name (R94). -/
def windowsAt (s : State) (c : Nat) (l : List Nat) : Map Nat DWord :=
  l.map fun ca => (bits ca 47 40, rawReg s (offWindow c (bits ca 47 40)))

/-- The state with window entries as they were when something was accepted. -/
def withWindows (s : State) (c : Nat) (ws : Map Nat DWord) : State :=
  { s with regs := ws.foldl (fun m e => mset m (offWindow c e.1) e.2) s.regs }

/-- Accepted work keeps the translations that it was given at its acceptance (R94). -/
def underWindows (s : State) (c : Nat) (ws : Map Nat DWord) (f : State → State) : State :=
  { f (withWindows s c ws) with regs := s.regs }

/-- The rows or accumulators of an old version of a table that is still live lie under a range of T2 (R201). -/
def oldShard (s : State) (a n : Nat) : Bool :=
  spaceOf a == 0 && s.tables.any fun e => (e.2.versions.filter fun v => v.desc.version != e.2.current).any fun v =>
    v.shards.any fun x => x.device == s.part.device &&
      (decide (x.base < a + n ∧ a < x.base + v.desc.rps * v.desc.rowBytes) ||
        (bitOf v.desc.tflags 2 && decide (x.accBase < a + n ∧ a < x.accBase + v.desc.rps * (4 * v.desc.rowElems))))

/-! ### Fences (R37, R439) -/

/-- An address that names a fenced logical region, or a cell that is being replaced (R37, R439). -/
def fencedAt (s : State) (a : Nat) : Bool :=
  match spaceOf a with
  | 1 => (regionOf s (addrRegion a)).exchange.isSome
  | 2 => (regionOf s (addrRegion a)).exchange.isSome || (regionOf s (addrRegion a)).retiring.contains (addrCell a)
  | _ => false

/-! ### Activity of accesses (R478) -/

/-- The link die of a stack (R380). -/
def stackDie (stack : Nat) : Nat := stack / 4

/-- The Bridle port of a link die that an access crosses: the five ports of a die carry all of its traffic together, line by
line in turn (R21; log entry 117). -/
def diePort (a : Nat) : Nat := a / 256 % 5

/-- Stored bytes of the lines of T2 that a range touches (R361). -/
def storedBytes (s : State) (a n : Nat) : Nat :=
  32 * ((List.range ((a + n - 1) / 256 - a / 256 + 1)).map fun i =>
    lineSectors (pageWidth s (a / 4096)) (s.mem.readBytes ((a / 256 + i) * 256) 256)).sum

/-- The bytes of an access cross the port of the requesting region, when it comes from one, and a port of a link die. -/
def countCrossing (s : State) (own : Nat) (c : Option Nat) (die port n : Nat) : State :=
  let s := if own < 18 then countAct s (.region own) c (.bridle 0) n else s
  countAct s (.linkDie die) c (.bridle port) n

/-- The activity of an access of n bytes at a device address from a physical region, for a context (R478, R479). -/
def countAccess (s : State) (own : Nat) (c : Option Nat) (a n : Nat) : State :=
  let far := (physOfLogical s (addrRegion a)).getD 0xFF
  let between := fun s : State =>
    let s1 := if own < 18 ∧ far ≠ own then countAct s (.region own) c (.bridle 0) n else s
    if far ≠ own then countAct s1 (.region far) c (.bridle 0) n else s1
  if n = 0 then s
  else
    match spaceOf a with
    | 0 =>
      (pagesOf a n).foldl (fun s p =>
          let lo := Nat.max a (p * 4096)
          let hi := Nat.min (a + n) (p * 4096 + 4096)
          countAct s (.linkDie (stackDie (pageStack p))) c (.t2 (pageStack p) (pageChannel p)) (storedBytes s lo (hi - lo)))
        (countCrossing s own c (stackDie (addrStack a)) (diePort a) n)
    | 1 => countAct (between s) (.region far) c .t1 n
    | 2 => countAct (between s) (.region far) c .t0 n
    | 4 =>
      match peerPort s (bits a 50 48) (bits a 40 0) with
      | some p =>
        countAct (countAct (countCrossing s own c (portDie p) (diePort a) n) (.linkDie (portDie p)) c (.link p) (opFlits n + 1))
          (.linkDie (portDie p)) c .remote 1
      | none => s
    | _ =>
      let p := hostPort s a
      countAct (countCrossing s own c (2 * p) (diePort a) n) (.linkDie (2 * p)) c (.pcie p) n

/-! ### Atomic operations (Table 4.4) -/

/-- The new value of a 32-bit atomic operation; none when a compare-and-swap fails. -/
def atomic32 (minor : Nat) (old operand swap : Word) : Option Word :=
  match minor with
  | 0 => some (old + operand)
  | 2 => some (if operand.slt old then operand else old)
  | 3 => some (if old.slt operand then operand else old)
  | 4 => some (if operand.ult old then operand else old)
  | 5 => some (if old.ult operand then operand else old)
  | 6 => some (old &&& operand)
  | 7 => some (old ||| operand)
  | 8 => some (old ^^^ operand)
  | 9 => some operand
  | 10 => if old = operand then some swap else none
  | _ => some old

/-- The bytes an atomic operation stores, if it stores: the 64-bit add for MINOR 1. -/
def atomicStore (minor : Nat) (old operand swap : Nat) : Option (List Byte) :=
  if minor = 1 then some (leBytes 8 ((old + operand) % 2 ^ 64))
  else
    (atomic32 minor (BitVec.ofNat 32 old) (BitVec.ofNat 32 operand) (BitVec.ofNat 32 swap)).map fun w => leBytes 4 w.toNat

def atomicBytes (minor : Nat) : Nat := if minor = 1 then 8 else 4

/-- An atomic operation at a device address of this device or its host: the old value and the new state. A poisoned target
is left alone and reads as zero (R124, R376). -/
def devAtomic (s : State) (fn a minor operand swap : Nat) : Nat × State :=
  let n := atomicBytes minor
  match devPoison s a n with
  | some _ => (0, s)
  | none =>
    let old := leNat (devRead s a n)
    match atomicStore minor old operand swap with
    | some bs => (old, devWrite s fn a bs)
    | none => (old, s)

end Sys2Proof.Machine
end

