-- ==== Sys2Proof/Machine/Undefined.lean ====
section
/-! DEFINITION. The undefined results of a dynamically inconsistent operation (03 R98, R99): free values for any byte that
the context's windows permit it to write, for any register of its threads and groups, and for whether its threads run,
are parked or stand at a break. Nothing else changes (R97). -/

namespace Sys2Proof.Machine

open Sys2Proof

/-- A number of a thread within its context. -/
def threadIndex (t : ThreadId) : Nat := ((t.cell * 16 + t.group) * 1024 + t.thread) * 128

/-- What a thread does under an undefined result: as it did, parked, or running; a thread that has ended stays so. -/
def undefinedRunState (use i : Nat) (r : RunState) : RunState :=
  if r = .ended ∨ r = .lost ∨ Config.undefinedRun use i = 0 then r
  else if Config.undefinedRun use i = 1 then .parked (Fin.ofNat 32 (Config.undefinedRun use (i + 1)))
  else .ready

/-- A thread under an undefined result: its registers and program counter are free, and it may be left running or
parked. -/
def undefinedThread (use words : Nat) (t : ThreadId) (th : Thread) : Thread :=
  let i := threadIndex t
  { th with
    s := Vector.ofFn fun r => Config.undefinedWord use (i + r) th.s[r]
    p := Vector.ofFn fun r => (Config.undefinedWord use (i + 32 + r) (if th.p[r] then 1 else 0)).getLsbD 0
    pc := (Config.undefinedWord use (i + 40) (BitVec.ofNat 32 th.pc)).toNat % (words + 1)
    run := undefinedRunState use i th.run }

/-- A descriptor record under an undefined result. -/
def undefinedRecord (use i : Nat) (r : List Byte) : List Byte :=
  (List.range 16).flatMap fun k => leBytes 4 (Config.undefinedWord use (i + k) (BitVec.ofNat 32 (fieldAt r (4 * k) 4))).toNat

/-- A group's descriptors under an undefined result. -/
def undefinedGroup (use : Nat) (k : Nat × Nat × Nat) (g : Group) : Group :=
  let i := 2 ^ 48 + (k.2.1 * 16 + k.2.2) * 4096
  { g with
    d := Vector.ofFn fun r => undefinedRecord use (i + 16 * r) g.d[r]
    x := Vector.ofFn fun r => undefinedRecord use (i + 256 + 16 * r) g.x[r] }

/-- A vector context under an undefined result. -/
def undefinedVector (use : Nat) (k : Nat × Nat × Nat) (v : VectorCtx) : VectorCtx :=
  let i := 2 ^ 56 + (k.2.1 * 16 + k.2.2) * 4096
  { v := Vector.ofFn fun r => Vector.ofFn fun l => Config.undefinedWord use (i + 64 * r + l) v.v[r][l]
    ovf := (Config.undefinedWord use (i + 2048) (if v.ovf then 1 else 0)).getLsbD 0 }

/-- One byte of an undefined result, stored only where a window of the context permits a write (R97, R99). -/
def undefinedStore (c : Nat) (s : State) (x : Nat × Byte) : State :=
  match translate s c none .write x.1 1 with
  | some a => devWrite s (ctxOf s c).fn a [x.2]
  | none => s

/-- The whole undefined result of one operation of a context (R99). -/
def undefinedEffect (s : State) (c : Nat) : State :=
  let use := s.freeCounter
  let words := codeWords (ctxOf s c)
  let s := { s with freeCounter := use + 1 }
  let s := (Config.undefinedStores use).foldl (undefinedStore c) s
  let s :=
    { s with
      threads := s.threads.map fun e => if e.1.ctx = c then (e.1, undefinedThread use words e.1 e.2) else e
      groups := s.groups.map fun e => if e.1.1 = c then (e.1, undefinedGroup use e.1 e.2) else e
      vectors := s.vectors.map fun e => if e.1.1 = c then (e.1, undefinedVector use e.1 e.2) else e }
  if Config.undefinedRun use (2 ^ 60) = 1 ∧ ctxRuns s c then
    beginBreak s c { BreakInfo.zero with cause := Config.undefinedRun use (2 ^ 60 + 1) % 4, time := now s } none
  else s

end Sys2Proof.Machine
end

