-- ==== Sys2Proof/Machine/Descriptors.lean ====
section
/-! DEFINITION. Descriptors (04 R126 to R132): the records of Tables 4.8 and 4.9, the resolution of rows, the addresses of
elements and scales; and sparse operands as their dense equivalent (09 R251 to R263). A tensor operation reads and writes
memory one row segment, one entry, one run of scales at a time (log entry 15). -/

namespace Sys2Proof.Machine

open Sys2Proof

/-! ### Records -/

/-- A tensor descriptor (Table 4.8). -/
structure Tensor where
  format : Nat
  layout : Nat
  window : Nat
  base : Nat
  d0 : Nat
  d1 : Nat
  d2 : Nat
  d3 : Nat
  s1 : Nat
  s2 : Nat
  s3 : Nat
  scaleOff : Nat
  deriving DecidableEq, Repr, Inhabited

def Tensor.rl (t : Tensor) : Bool := bitOf t.layout 0
def Tensor.s24 (t : Tensor) : Bool := bitOf t.layout 1

/-- Bytes of `n` packed elements. -/
def packedBytes (fmt n : Nat) : Nat := ceilDiv (n * elemBits fmt) 8

def readTensor (r : List Byte) : Tensor :=
  { format := fieldAt r 1 1, layout := fieldAt r 3 1, window := fieldAt r 4 1, base := fieldAt r 8 8,
    d0 := fieldAt r 0x10 4, d1 := fieldAt r 0x14 4, d2 := fieldAt r 0x18 4, d3 := fieldAt r 0x1C 4,
    s1 := fieldAt r 0x20 8, s2 := fieldAt r 0x28 8, s3 := fieldAt r 0x30 8, scaleOff := fieldAt r 0x38 8 }

/-- The rules of one sparse form on its own descriptor (R251, R256, R260). -/
def sparseOk (t : Tensor) : Bool :=
  if t.rl ∧ t.s24 then false
  else if t.rl then decide (t.format ≤ 7 ∧ t.d0 % 32 = 0 ∧ 32 ≤ t.s1 ∧ t.s1 % 8 = 0)
  else if t.s24 then
    decide (1 ≤ t.format ∧ t.format ≤ 7 ∧ t.d0 % 4 = 0 ∧ t.d1 % 4 = 0 ∧ t.d0 / 4 * (elemBits t.format + 2) ≤ t.s1)
  else true

/-- A valid tensor descriptor (R126, R129). An extent of 0 in DIM1 to DIM3 is invalid (DESIGN CHOICE: Table 4.8 gives a lower
bound for DIM0 only; log entry 122). -/
def tensorOk (r : List Byte) : Bool :=
  let t := readTensor r
  let rank := fieldAt r 2 1
  fieldAt r 0 1 == 1 && decide (t.format ≤ 0x0D) && decide (1 ≤ rank ∧ rank ≤ 4) && decide (t.layout ≤ 3) &&
    fieldAt r 5 3 == 0 && decide (t.base < 2 ^ 40) && decide (1 ≤ t.d0 ∧ t.d0 ≤ 16777216) &&
    decide (1 ≤ t.d1 ∧ 1 ≤ t.d2 ∧ 1 ≤ t.d3) &&
    (decide (2 ≤ rank) || t.d1 == 1) && (decide (3 ≤ rank) || t.d2 == 1) && (decide (4 ≤ rank) || t.d3 == 1) &&
    (if scaleBytes t.format = 0 then t.scaleOff == 0 else t.d0 % blockSize t.format == 0) && sparseOk t

/-- An index descriptor (Table 4.9). -/
structure Index where
  ifmt : Nat
  chain : Option Nat
  window : Nat
  base : Nat
  count : Nat
  bias : Int
  limit : Nat
  estride : Nat
  deriving DecidableEq, Repr, Inhabited

def readIndex (r : List Byte) : Index :=
  { ifmt := fieldAt r 1 1, chain := if bitOf (fieldAt r 2 1) 7 then some (fieldAt r 2 1 % 8) else none,
    window := fieldAt r 4 1, base := fieldAt r 8 8, count := fieldAt r 0x10 4, bias := toSigned 64 (fieldAt r 0x18 8),
    limit := fieldAt r 0x20 8, estride := fieldAt r 0x28 8 }

def Index.width (z : Index) : Nat := if z.ifmt = 1 then 8 else 4

/-- A valid index descriptor (R127, R129). -/
def indexOk (r : List Byte) : Bool :=
  let z := readIndex r
  fieldAt r 0 1 == 2 && decide (z.ifmt ≤ 1) && bits (fieldAt r 2 1) 6 3 == 0 && fieldAt r 3 1 == 0 &&
    fieldAt r 5 3 == 0 && decide (z.base < 2 ^ 40) && decide (1 ≤ z.count ∧ z.count ≤ 16777216) &&
    fieldAt r 0x14 4 == 0 && decide (z.width ≤ z.estride) && fieldAt r 0x30 16 == 0

/-- A record of the descriptors section that is well formed (R126, step 9 of Table 3.7). The rules of the sparse forms on a
descriptor are part of it (DESIGN CHOICE: R256 names them as dynamic inconsistencies and Table 3.7 does not; log
entry 123). -/
def recordOk (r : List Byte) : Bool :=
  (fieldAt r 0 1 == 0 && (r.drop 1).all (· == 0)) || tensorOk r || indexOk r

/-! ### Operands -/

/-- An operand: its tensor descriptor, its index descriptor, and the one resolved first. -/
structure Operand where
  t : Tensor
  x : Option Index
  y : Option Index
  deriving DecidableEq, Repr, Inhabited

/-- An operand from the records copied at issue; none when a record is invalid (R129). -/
def operand (rec_ : List Byte) (xs : List (List Byte)) (xe : Bool) (n : Nat) : Option Operand :=
  if !tensorOk rec_ then none
  else if !xe then some { t := readTensor rec_, x := none, y := none }
  else
    let xr := xs.getD n []
    if !indexOk xr then none
    else
      match (readIndex xr).chain with
      | none => some { t := readTensor rec_, x := some (readIndex xr), y := none }
      | some k =>
        let yr := xs.getD k []
        if indexOk yr then some { t := readTensor rec_, x := some (readIndex xr), y := some (readIndex yr) } else none

/-- rows(x), or DIM1 (R130, R139). -/
def Operand.rows (o : Operand) : Nat :=
  match o.y, o.x with
  | some y, _ => y.count
  | none, some x => x.count
  | none, none => o.t.d1

/-- A span of a window: context address and length; one that passes the end of the 40-bit offsets wraps (R132). -/
def span (w off n : Nat) : List (Nat × Nat) :=
  let o := off % 2 ^ 40
  if n = 0 then []
  else if o + n ≤ 2 ^ 40 then [(w * 2 ^ 40 + o, n)]
  else [(w * 2 ^ 40 + o, 2 ^ 40 - o), (w * 2 ^ 40, n - (2 ^ 40 - o))]

/-- Where an operation reads its operands from: the bytes at a context address. -/
abbrev Reads := Nat → Nat → List Byte

/-- The parts of a range within lines of 256 bytes: the accesses that a copy, a scatter-add or a scale pass makes (log
entry 15). -/
def cutLines (ca n : Nat) : List (Nat × Nat) :=
  (List.range ((ca + n - 1) / 256 - ca / 256 + 1)).map fun i =>
    (Nat.max ca ((ca / 256 + i) * 256), Nat.min (ca + n) ((ca / 256 + i + 1) * 256) - Nat.max ca ((ca / 256 + i) * 256))

/-- What a group of a context reads through its windows now. -/
def winReads (s : State) (c g : Nat) : Reads := fun ca n => (cutLines ca n).flatMap fun x => winRead s c (some g) x.1 x.2

/-- The byte at a context address that requests have delivered, the newest first; 0 where none has. -/
def fedByte : List (Nat × List Byte) → Nat → Byte
  | [], _ => 0
  | (ca, bs) :: r, x => if ca ≤ x ∧ x < ca + bs.length then bs.getD (x - ca) 0 else fedByte r x

/-- What the requests of an operation have delivered to it (R238). -/
def fedReads (l : List (Nat × List Byte)) : Reads := fun ca n => (List.range n).map fun i => fedByte l (ca + i)

/-- The bytes of spans. -/
def readSpans (R : Reads) (l : List (Nat × Nat)) : List Byte := l.flatMap fun x => R x.1 x.2

/-- What reading spans leaves. -/
def markSpans (s : State) (c g : Nat) (l : List (Nat × Nat)) : State :=
  (l.flatMap fun x => cutLines x.1 x.2).foldl (fun s x => winReadMark s c (some g) x.1 x.2) s

/-- Writes bytes over ranges, one after another. -/
def writeRanges (s : State) (c g : Nat) : List (Nat × Nat) → List Byte → State
  | [], _ => s
  | x :: r, bs => writeRanges (winWrite s c (some g) x.1 (bs.take x.2)) c g r (bs.drop x.2)

/-- Writes bytes over spans. -/
def writeSpans (s : State) (c g : Nat) (l : List (Nat × Nat)) (bs : List Byte) : State :=
  writeRanges s c g (l.flatMap fun x => cutLines x.1 x.2) bs

/-- The entry k of an index descriptor: an ordinary aligned access (R121, R130). -/
def Index.entrySpan (z : Index) (k : Nat) : List (Nat × Nat) :=
  span z.window ((z.base + k * z.estride) % 2 ^ 40 / z.width * z.width) z.width

def entryValue (R : Reads) (z : Index) (k : Nat) : Nat := leNat (readSpans R (z.entrySpan k)) % 2 ^ 40

/-- An entry with its bias, if it is in range. -/
def biased (z : Index) (e : Nat) : Option Nat :=
  let r := (e : Int) + z.bias
  if r < 0 ∨ (z.limit : Int) ≤ r then none else some r.toNat

/-- resolve(x, p) of R130: the row, or none for OUT. -/
def Operand.row (R : Reads) (o : Operand) (p : Nat) : Option Nat :=
  match o.x, o.y with
  | none, _ => some p
  | some x, none => biased x (entryValue R x p)
  | some x, some y =>
    match biased y (entryValue R y p) with
    | some q => if x.count ≤ q then none else biased x (entryValue R x q)
    | none => none

/-- The entries read to resolve a position. -/
def Operand.entrySpans (R : Reads) (o : Operand) (p : Nat) : List (Nat × Nat) :=
  match o.x, o.y with
  | none, _ => []
  | some x, none => x.entrySpan p
  | some x, some y =>
    y.entrySpan p ++
      (match biased y (entryValue R y p) with
       | some q => if x.count ≤ q then [] else x.entrySpan q
       | none => [])

/-- The rows of the positions 0 to n − 1. -/
def Operand.rowList (R : Reads) (o : Operand) (n : Nat) : List (Option Nat) :=
  (List.range n).map (o.row R)

/-- Resolving n positions: the entries are read, and each OUT is an index fault (R131). -/
def markRows (s : State) (c g : Nat) (o : Operand) (n : Nat) : State :=
  let R := winReads s c g
  let outs := ((o.rowList R n).filter (·.isNone)).length
  addIndexFaults (markSpans s c g ((List.range n).flatMap (o.entrySpans R))) c outs

/-! ### Elements and scales of a dense operand -/

/-- Offset of element (0, row, i2, i3) (R132). -/
def Tensor.rowOff (t : Tensor) (row i2 i3 : Nat) : Nat := t.base + row * t.s1 + i2 * t.s2 + i3 * t.s3

/-- The element bytes of a row. -/
def Tensor.rowSpan (t : Tensor) (row i2 i3 : Nat) : List (Nat × Nat) :=
  span t.window (t.rowOff row i2 i3) (packedBytes t.format t.d0)

/-- The scales of a row (R126). -/
def Tensor.scaleSpan (t : Tensor) (row i2 i3 : Nat) : List (Nat × Nat) :=
  let nb := t.d0 / blockSize t.format
  span t.window (t.scaleOff + ((i3 * t.d2 + i2) * t.d1 + row) * nb * scaleBytes t.format) (nb * scaleBytes t.format)

/-- `n` elements of a format in packed bytes: 4-bit elements low nibble first. -/
def unpack (fmt : Nat) (bs : List Byte) (n : Nat) : List Nat :=
  if elemBits fmt = 4 then (List.range n).map fun i => bits (fieldAt bs (i / 2) 1) (4 * (i % 2) + 3) (4 * (i % 2))
  else (List.range n).map fun i => fieldAt bs (i * (elemBits fmt / 8)) (elemBits fmt / 8)

/-- Pairs of nibbles as bytes. -/
def packNibbles : List Nat → List Byte
  | [] => []
  | [a] => [BitVec.ofNat 8 (a % 16)]
  | a :: b :: r => BitVec.ofNat 8 (a % 16 + 16 * (b % 16)) :: packNibbles r

/-- Packs elements. -/
def pack (fmt : Nat) (es : List Nat) : List Byte :=
  if elemBits fmt = 4 then packNibbles es else es.flatMap (leBytes (elemBits fmt / 8))

/-- The scale of block j of a run of scales; 0 for a format without scales. -/
def scaleAt (fmt : Nat) (bs : List Byte) (j : Nat) : Nat := fieldAt bs (j * scaleBytes fmt) (scaleBytes fmt)

/-- Elements with their scales as values. -/
def valuesOf (fmt : Nat) (es : List Nat) (scales : List Byte) : List FpVal :=
  es.zipIdx.map fun (e, i) => scaledValue fmt e (scaleAt fmt scales (i / blockSize fmt))

/-! ### Run-length form (R251 to R255) -/

/-- Bytes of a payload block (Table 9.3). -/
def payloadBytes (fmt : Nat) : Nat := 32 * elemBits fmt

/-- The directory entry of the block row of a row (R251, Table 9.1). -/
def Tensor.dirSpan (t : Tensor) (b i2 i3 : Nat) : List (Nat × Nat) :=
  span t.window (t.base + b * t.s1 + i2 * t.s2 + i3 * t.s3) 32

/-- A directory entry: RUNS, PAYLOAD, SCALES, COUNT, and whether its reserved field is 0. -/
structure BlockRow where
  runs : Nat
  payload : Nat
  scales : Nat
  count : Nat
  clean : Bool
  deriving DecidableEq, Repr, Inhabited

def blockRow (R : Reads) (t : Tensor) (b i2 i3 : Nat) : BlockRow :=
  let r := readSpans R (t.dirSpan b i2 i3)
  { runs := fieldAt r 0 8, payload := fieldAt r 8 8, scales := fieldAt r 0x10 8, count := fieldAt r 0x18 4,
    clean := fieldAt r 0x1C 4 == 0 }

/-- The run words that are read: never more than the block columns. -/
def Tensor.runSpan (t : Tensor) (e : BlockRow) : List (Nat × Nat) :=
  span t.window (e.runs / 4 * 4) (4 * Nat.min e.count (t.d0 / 32))

/-- The columns of the present blocks, until one falls at or beyond `bc` (R253, R255); `j` is the next column. -/
def runColumns (bc : Nat) : Nat → List Nat → List Nat
  | _, [] => []
  | j, w :: r => if bc ≤ j + w % 2 ^ 20 then [] else (j + w % 2 ^ 20) :: runColumns bc (j + w % 2 ^ 20 + 1) r

def runWords (R : Reads) (t : Tensor) (e : BlockRow) : List Nat :=
  unpack 0x0D (readSpans R (t.runSpan e)) (Nat.min e.count (t.d0 / 32))

def blockColumns (R : Reads) (t : Tensor) (e : BlockRow) : List Nat :=
  runColumns (t.d0 / 32) 0 (runWords R t e)

/-- The block row has ignored run words: one index fault (R255). -/
def runFault (R : Reads) (t : Tensor) (e : BlockRow) : Bool :=
  decide ((blockColumns R t e).length < e.count)

/-- A non-zero reserved field of the entry or of a run word (R255). -/
def runClean (R : Reads) (t : Tensor) (e : BlockRow) : Bool :=
  e.clean && (runWords R t e).all (fun w => decide (w < 2 ^ 20))

/-- Payload of present block i, its eight rows (R254). -/
def Tensor.payloadSpan (t : Tensor) (e : BlockRow) (i : Nat) : List (Nat × Nat) :=
  span t.window (e.payload / 64 * 64 + i * payloadBytes t.format) (payloadBytes t.format)

def Tensor.blockScaleSpan (t : Tensor) (e : BlockRow) (i : Nat) : List (Nat × Nat) :=
  span t.window (e.scales + i * 8) (8 * scaleBytes t.format)

/-- The 32 values of a row of present block i. -/
def blockValues (R : Reads) (t : Tensor) (e : BlockRow) (row i : Nat) : List FpVal :=
  let es := unpack t.format (readSpans R (t.payloadSpan e i)) 256
  let sc := fieldAt (readSpans R (t.blockScaleSpan e i)) (row % 8) 1
  ((es.drop (row % 8 * 32)).take 32).map fun x => scaledValue t.format x sc

/-- A row of a run-length operand: absent elements are none (R258). -/
def rlRow (R : Reads) (t : Tensor) (row i2 i3 : Nat) : List (Option FpVal) :=
  let e := blockRow R t (row / 8) i2 i3
  let cols := blockColumns R t e
  (List.range (t.d0 / 32)).flatMap fun j =>
    match cols.findIdx? (· == j) with
    | some i => (blockValues R t e row i).map some
    | none => List.replicate 32 none

/-! ### Structured 2:4 form (R260 to R263) -/

/-- A tile row (R260, Table 9.4). -/
def Tensor.tileSpan (t : Tensor) (tr i2 i3 : Nat) : List (Nat × Nat) :=
  span t.window (t.base + tr * t.s1 + i2 * t.s2 + i3 * t.s3) (t.d0 / 4 * (elemBits t.format + 2))

/-- MASK of a tile. -/
def tileMask (t : Tensor) (bs : List Byte) (tile : Nat) : Nat := fieldAt bs (t.d0 / 4 * elemBits t.format + 2 * tile) 2

/-- Set bits of a mask below a position. -/
def maskRank (m n : Nat) : Nat := ((List.range n).filter (bitOf m)).length

/-- Element (r, c) of a tile: present when its bit is set among the first eight (R263). -/
def tileElem (t : Tensor) (bs : List Byte) (tile r cidx : Nat) : Option Nat :=
  let m := tileMask t bs tile
  let b := 4 * r + cidx
  if bitOf m b ∧ maskRank m b < 8 then
    some ((unpack t.format ((bs.drop (tile * elemBits t.format)).take (elemBits t.format)) 8).getD (maskRank m b) 0)
  else none

/-- A row of a 2:4 operand; its scales lie as those of the dense equivalent (R260). -/
def s24Row (R : Reads) (t : Tensor) (row i2 i3 : Nat) : List (Option FpVal) :=
  let bs := readSpans R (t.tileSpan (row / 4) i2 i3)
  let sc := readSpans R (t.scaleSpan row i2 i3)
  (List.range t.d0).map fun i =>
    (tileElem t bs (i / 4) (row % 4) (i % 4)).map fun x =>
      scaledValue t.format x (scaleAt t.format sc (i / blockSize t.format))

/-- Set bits of the mask that count: the first eight (R263). -/
def maskKept (m : Nat) : Nat := (List.range 16).foldl (fun a b => if bitOf m b ∧ maskRank m b < 8 then a + 2 ^ b else a) 0

/-- A tile breaks the declared pattern: more than two set bits in a tile row, or in a tile column when the groups run
along columns, or more than eight in all (R262, R263). -/
def tileFaulty (m : Nat) (columns : Bool) : Bool :=
  decide (8 < maskRank m 16) ||
    (List.range 4).any fun i =>
      decide (2 < ((List.range 4).filter fun j => bitOf m (if columns then 4 * j + i else 4 * i + j)).length)

/-! ### Rows of any operand -/

/-- A row of an operand, element by element; none is an absent element. A row that is OUT is a row of zeros (R131). -/
def rowElems (R : Reads) (t : Tensor) (row : Option Nat) (i2 i3 : Nat) : List (Option FpVal) :=
  match row with
  | none => List.replicate t.d0 (some (.fin false 0 0))
  | some r =>
    if t.rl then rlRow R t r i2 i3
    else if t.s24 then s24Row R t r i2 i3
    else
      (valuesOf t.format (unpack t.format (readSpans R (t.rowSpan r i2 i3)) t.d0)
        (readSpans R (t.scaleSpan r i2 i3))).map some

/-- The dense equivalent of a row: an absent element is +0 (R258). -/
def denseRow (R : Reads) (t : Tensor) (row : Option Nat) (i2 i3 : Nat) : List FpVal :=
  (rowElems R t row i2 i3).map fun x => x.getD (.fin false 0 0)

/-- The spans of a block row of a run-length operand: its directory entry, run words, present payload blocks and scales
(R257). -/
def blockRowSpans (R : Reads) (t : Tensor) (b i2 i3 : Nat) : List (Nat × Nat) :=
  let e := blockRow R t b i2 i3
  t.dirSpan b i2 i3 ++ t.runSpan e ++
    (List.range (blockColumns R t e).length).flatMap fun i => t.payloadSpan e i ++ t.blockScaleSpan e i

/-- Index faults of a block row: run words that are ignored (R255). -/
def blockRowFaults (R : Reads) (t : Tensor) (b i2 i3 : Nat) : Nat :=
  b2n (runFault R t (blockRow R t b i2 i3))

/-- Index faults of a tile row: one for each mask of more than eight bits (R263). -/
def tileRowFaults (R : Reads) (t : Tensor) (b i2 i3 : Nat) : Nat :=
  let bs := readSpans R (t.tileSpan b i2 i3)
  ((List.range (t.d0 / 4)).filter fun k => decide (8 < maskRank (tileMask t bs k) 16)).length

/-- A row that is dynamically inconsistent: a block-scaled indexed row at or above DIM1 (R126), a reserved field of a
run list (R255). -/
def rowInconsistent (R : Reads) (o : Operand) (row : Option Nat) (i2 i3 : Nat) : Bool :=
  match row with
  | none => false
  | some r =>
    (o.x.isSome && scaleBytes o.t.format != 0 && decide (o.t.d1 ≤ r)) ||
      (o.t.rl && !runClean R o.t (blockRow R o.t (r / 8) i2 i3))

/-- The positions of an operand with P rows, (i3, i2, p), in ascending order of p (R139). -/
def positions (t : Tensor) (P : Nat) : List (Nat × Nat × Nat) :=
  (List.range P).flatMap fun p => (List.range t.d3).flatMap fun i3 => (List.range t.d2).map fun i2 => (i3, i2, p)

/-- Every position of an operand as (row, i2, i3). -/
def Operand.places (R : Reads) (o : Operand) (P : Nat) : List (Option Nat × Nat × Nat) :=
  (positions o.t P).map fun x => (o.row R x.2.2, x.2.1, x.1)

def Operand.inconsistent (R : Reads) (o : Operand) (P : Nat) : Bool :=
  (o.places R P).any fun x => rowInconsistent R o x.1 x.2.1 x.2.2

/-- The block rows or tile rows of n rows each that the rows of an operand lie in, once each: (number, i2, i3). -/
def Operand.groupsOf (R : Reads) (o : Operand) (P n : Nat) : List (Nat × Nat × Nat) :=
  ((o.places R P).filterMap fun x => x.1.map fun r => (r / n, x.2.1, x.2.2)).dedup

/-- The scale spans of an operand's rows; a run-length operand keeps its scales with its blocks. -/
def Operand.scaleSpans (R : Reads) (o : Operand) (P : Nat) : List (Nat × Nat) :=
  if o.t.rl then []
  else
    (o.places R P).flatMap fun x => match x.1 with
      | some r => o.t.scaleSpan r x.2.1 x.2.2
      | none => []

/-- The spans of an operand's elements, directories and masks. -/
def Operand.elemSpans (R : Reads) (o : Operand) (P : Nat) : List (Nat × Nat) :=
  if o.t.rl then (o.groupsOf R P 8).flatMap fun x => blockRowSpans R o.t x.1 x.2.1 x.2.2
  else if o.t.s24 then (o.groupsOf R P 4).flatMap fun x => o.t.tileSpan x.1 x.2.1 x.2.2
  else
    (o.places R P).flatMap fun x => match x.1 with
      | some r => o.t.rowSpan r x.2.1 x.2.2
      | none => []

/-- The spans of an operand's elements and scales. -/
def Operand.spans (R : Reads) (o : Operand) (P : Nat) : List (Nat × Nat) :=
  o.elemSpans R P ++ o.scaleSpans R P

/-- Index faults of the sparse form itself: for each block row or tile row once for an operation that reads some row of it
(R255, R263). -/
def Operand.sparseFaults (R : Reads) (o : Operand) (P : Nat) : Nat :=
  if o.t.rl then ((o.groupsOf R P 8).map fun x => blockRowFaults R o.t x.1 x.2.1 x.2.2).sum
  else if o.t.s24 then ((o.groupsOf R P 4).map fun x => tileRowFaults R o.t x.1 x.2.1 x.2.2).sum
  else 0

/-- Reading an operand: entries, rows and scales, with their faults (R95, R131, R255, R263). -/
def markOperand (s : State) (c g : Nat) (o : Operand) (P : Nat) : State :=
  addIndexFaults (markSpans (markRows s c g o P) c g (o.spans (winReads s c g) P)) c (o.sparseFaults (winReads s c g) P)

/-! ### Overlap (R502) -/

/-- The device ranges of spans, after translation: what lies beyond a window maps no byte. -/
def deviceRanges (s : State) (c g : Nat) (need : Need) (l : List (Nat × Nat)) : List (Nat × Nat) :=
  (l.flatMap fun x => cutLines x.1 x.2).filterMap fun x =>
    (translate s c (some g) need x.1 x.2).map fun a => (memKey s a, x.2)

/-- Two lists of device ranges share a byte. -/
def rangesMeet (a b : List (Nat × Nat)) : Bool :=
  a.any fun x => b.any fun y => decide (x.1 < y.1 + y.2) && decide (y.1 < x.1 + x.2)

end Sys2Proof.Machine
end

