-- ==== Sys2Proof/Machine/Products.lean ====
section
/-! DEFINITION. The product of an MMA (04 R133 to R136; 08 R229; 10 R289, R290), from the bytes that its feeders have
delivered, and the bytes that its drain writes. -/

namespace Sys2Proof.Machine

open Sys2Proof

/-! ### Operands and shapes (R133, R256) -/

/-- The operands of an MMA: C, A and B. -/
def mmaOperands (q : TensorOp) (o : MArgs) : Option (Operand × Operand × Operand) :=
  match operand q.d1 q.xs o.xce o.xc.val, operand q.d2 q.xs o.xae o.xa.val, operand q.d3 [] false 0 with
  | some c, some a, some b => some (c, a, b)
  | _, _, _ => none

/-- A sparsity field agrees with a descriptor's layout (R256). -/
def layoutAgrees (sp : Nat) (t : Tensor) : Bool := t.rl == (sp == 1) && t.s24 == (sp == 2)

/-- M, K and N of an MMA (R133). -/
def mmaM (o : MArgs) (a : Operand) : Nat := if o.ta then a.t.d0 else a.rows
def mmaK (o : MArgs) (a : Operand) : Nat := if o.ta then a.t.d1 else a.t.d0
def mmaN (o : MArgs) (b : Operand) : Nat := if o.tb then b.t.d1 else b.t.d0

/-- The shapes, formats and layouts of an MMA agree (R133, R256). -/
def mmaShapes (o : MArgs) (c a b : Operand) : Bool :=
  mmaK o a == (if o.tb then b.t.d0 else b.t.d1) && c.t.d0 == mmaN o b && c.rows == mmaM o a &&
    a.t.d2 == 1 && a.t.d3 == 1 && b.t.d2 == 1 && b.t.d3 == 1 && c.t.d2 == 1 && c.t.d3 == 1 &&
    a.t.format == o.fmta.val + 1 && b.t.format == o.fmtb.val + 1 && decide (c.t.format ≤ 1) && c.t.layout == 0 &&
    layoutAgrees o.spa.val a.t && layoutAgrees o.spb.val b.t && (o.spa.val == 0 || !o.xae)

/-- Depth of a spar: 64 for MXFP4, 32 for every other product format (R225). -/
def sparDepth (fmta : Nat) : Nat := if fmta = 6 then 64 else 32

/-! ### The product (R229, R289, R290) -/

/-- A chunk's contribution: the exact sum of the products of its present elements, rounded once; none when it has none
(R258, R259). -/
def chunkSum (a b : List (Option FpVal)) : Option Word :=
  let ps := (a.zip b).filterMap fun (x, y) => match x, y with
    | some u, some v => some (u.mul v)
    | _, _ => none
  match ps with
  | [] => none
  | p :: r => some (toF32 (r.foldl FpVal.add p))

/-- The running sum over chunks of depth D, from +0 in ascending order; `n` chunks are left. -/
def runningSum (D : Nat) : Nat → Word → List (Option FpVal) → List (Option FpVal) → Word
  | 0, r, _, _ => r
  | n + 1, r, a, b =>
    let r := match chunkSum (a.take D) (b.take D) with
      | some c => fadd r c
      | none => r
    runningSum D n r (a.drop D) (b.drop D)

/-- The element of C that a row of A and a column of B give. -/
def dot (D : Nat) (a b : List (Option FpVal)) : Word := runningSum D (ceilDiv a.length D) 0 a b

/-- Column j of a list of rows. -/
def columnOf (rows : List (List (Option FpVal))) (j : Nat) : List (Option FpVal) := rows.map fun r => (r[j]?).getD none

/-- Every stored row of an operand. -/
def storedRows (R : Reads) (o : Operand) (n : Nat) : List (List (Option FpVal)) :=
  (List.range n).map fun p => rowElems R o.t (o.row R p) 0 0

/-- Row p of A along k (R133). -/
def rowOfA (R : Reads) (o : MArgs) (a : Operand) (p : Nat) : List (Option FpVal) :=
  if o.ta then columnOf (storedRows R a a.rows) p else rowElems R a.t (a.row R p) 0 0

/-- `n` columns of B along k, from column j (R133). -/
def columnsOfB (R : Reads) (o : MArgs) (b : Operand) (j n : Nat) : List (List (Option FpVal)) :=
  if o.tb then (List.range n).map fun i => rowElems R b.t (b.row R (j + i)) 0 0
  else
    let rows := storedRows R b b.rows
    (List.range n).map fun i => columnOf rows (j + i)

/-- The finished sums of position p, columns j to j + n − 1. -/
def productAt (R : Reads) (o : MArgs) (a b : Operand) (p j n : Nat) : List Word :=
  (columnsOfB R o b j n).map (dot (sparDepth o.fmta.val) (rowOfA R o a p))

/-- Old values of C, widened to FP32 (R290). -/
def oldElems (fmt : Nat) (bs : List Byte) (n : Nat) : List Word :=
  (unpack fmt bs n).map fun x => if fmt = 0 then BitVec.ofNat 32 x else BitVec.ofNat 32 (x * 2 ^ 16)

/-- A word of C in its format (R290). -/
def cElem (fmt : Nat) (w : Word) : Nat := if fmt = 0 then w.toNat else fmtBF16.rne (f32 w)

/-- The elements of C at position p, columns j to j + n − 1: the finished sums, with ACC added once to what the drain has read
of the row (R229, R242, R290). -/
def rowOfC (R : Reads) (o : MArgs) (fmt : Nat) (a b : Operand) (p j n : Nat) (old : List Byte) : List Nat :=
  let prod := productAt R o a b p j n
  (if o.acc then ((oldElems fmt old n).zip prod).map fun (x, y) => fadd x y else prod).map (cElem fmt)

/-- The bytes of a piece of a C row, when the operands read as `R`. -/
def pieceData (R : Reads) (o : MArgs) (cc a b : Operand) (f : FeedReq) : List Byte :=
  let w := elemBits cc.t.format / 8
  pack cc.t.format (rowOfC R o cc.t.format a b f.pos (f.off / w) (f.bytes / w) (R f.addr f.bytes))

/-- The bytes that a C write of the drain carries. -/
def drainData (q : TensorOp) (f : FeedReq) : List Byte :=
  match q.kind with
  | .mma o _ =>
    match mmaOperands q o with
    | some (cc, a, b) => pieceData (fedReads q.fed) o cc a b f
    | none => []
  | _ => []

end Sys2Proof.Machine
end

