-- ==== Sys2Proof/Machine/Requests.lean ====
section
/-! DEFINITION. Requests (02 R49 to R65; 04 R122 to R125; 13 R348, R349): creation, credits and tags, acceptance,
performance at the target and completion. -/

namespace Sys2Proof.Machine

open Sys2Proof

/-! ### Kinds of request -/

/-- Bytes of an access (R121). -/
def kindBytes : ReqKind → Nat
  | .load n _ _ => n
  | .store bs => bs.length
  | .vload _ => 256
  | .atomic m _ _ _ _ => atomicBytes m
  | .dload _ _ => 64
  | .signal _ _ _ => 4
  | .watch _ => 4
  | .token _ _ => 8
  | .delay _ _ => 8
  | .feed n => n
  | .drain bs => bs.length

/-- What the window must permit: WATCH is a read (R147), a signal a write (R154). -/
def kindNeed : ReqKind → Need
  | .store _ => .write
  | .drain _ => .write
  | .signal _ _ _ => .write
  | .atomic _ _ _ _ _ => .atomic
  | _ => .read

/-- A request that names memory through an address. -/
def kindAddressed : ReqKind → Bool
  | .token _ _ => false
  | .delay _ _ => false
  | _ => true

/-- ST, VST, DSTR and ATOMP: what a signal follows (R125). -/
def isStore : ReqKind → Bool
  | .store _ => true
  | .atomic _ _ _ _ none => true
  | _ => false

/-- What a token and FENCE follow: the stores and SIG (R123, R159). -/
def isPosted : ReqKind → Bool
  | .signal _ _ held => !held
  | k => isStore k

/-- A request without return: writes, signals and ATOMP. -/
def isWriteLike : ReqKind → Bool
  | .signal _ _ _ => true
  | .drain _ => true
  | k => isStore k

/-- A request that holds its thread (R122, R147). -/
def holds : ReqKind → Bool
  | .load _ _ _ => true
  | .vload _ => true
  | .dload _ _ => true
  | .atomic _ _ _ _ (some _) => true
  | .signal _ _ held => held
  | .watch _ => true
  | _ => false

/-! ### Where a request comes from -/

def originThread : Origin → Option ThreadId
  | .thread t => some t
  | _ => none

/-- Logical region of the requester. -/
def originRegion (s : State) : Origin → Nat
  | .thread t => threadRegion s t
  | .reel L _ => L
  | .gather L _ => L
  | .sequencer L _ => L
  | .winch L _ => L
  | .owner L _ => L
  | .packets L => L
  | .feeder _ _ L _ _ _ => L

/-- Cell position of the requester, for a thread or a feeder. -/
def originCell (s : State) : Origin → Option Nat
  | .thread t => (cellPlace (ctxOf s t.ctx) t.cell).map (·.2)
  | .feeder _ _ _ pos _ _ => some pos
  | _ => none

/-- The group whose T0 range bounds the request (R350). -/
def originGroup : Origin → Option Nat
  | .thread t => some t.group
  | .feeder _ t _ _ _ _ => some t.group
  | _ => none

def originPhys (s : State) (o : Origin) : Nat := (physOfLogical s (originRegion s o)).getD 0xFF

/-- The outstanding requests of a thread. -/
def requestsOf (s : State) (t : ThreadId) : List Request := s.requests.filter fun r => r.origin == .thread t

/-- Identifiers of a thread's outstanding requests of some kinds. -/
def outstanding (s : State) (t : ThreadId) (p : ReqKind → Bool) : List Nat :=
  ((requestsOf s t).filter fun r => p r.kind).map (·.id)

/-- A new request, waiting at admission. -/
def newRequest (s : State) (ctx : Nat) (o : Origin) (k : ReqKind) (ca a : Nat) (direct : Bool) (after : List Nat) :
    Request :=
  { id := s.nextReq, ctx := ctx, origin := o, kind := k, ctxAddr := ca, direct := direct, after := after, devAddr := a,
    phys := 0xFF, stage := .waiting, accepted := 0, start := 0, promise := 0, tag := 0, credits := [], since := now s, cause := 0,
    result := [], poisonAt := none, deadline := none, judge := none }

def addRequest (s : State) (r : Request) : State :=
  { s with requests := s.requests ++ [{ r with id := s.nextReq }], nextReq := s.nextReq + 1 }

def findRequest (s : State) (id : Nat) : Option Request := s.requests.find? fun r => r.id == id

def setRequest (s : State) (r : Request) : State :=
  { s with requests := s.requests.map fun x => if x.id = r.id then r else x }

/-! ### Targets, promised times (Table 2.4, Table 5.1) and credits (Table 2.2) -/

/-- Logical region and cell that a request names, if it names a region of this device. -/
def targetRegion (s : State) (r : Request) : Option (Nat × Option Nat) :=
  match r.kind with
  | .token w _ => some (tokRegion w, some (tokCell w))
  | .delay _ _ => some (originRegion s r.origin, none)
  | _ =>
    match spaceOf r.devAddr with
    | 1 => some (addrRegion r.devAddr, none)
    | 2 => some (addrRegion r.devAddr, some (addrCell r.devAddr))
    | _ => none

/-- How far a region and cell lie from the requester: 0 own cell, 1 own block, 2 own region, 3 another region. -/
def distance (s : State) (r : Request) (L : Nat) (cell : Option Nat) : Nat :=
  if L ≠ originRegion s r.origin then 3
  else
    match cell, originCell s r.origin with
    | some c, some o => if c = o then 0 else if c / 8 = o / 8 then 1 else 2
    | _, _ => 2

/-- Promised time in tenths of a ns and row of Table 2.4 of a signal or token, by distance (Table 5.1); 4 beats are bounded
by 3.2 ns (R48). -/
def signalPromise : Nat → Nat × Nat
  | 0 => (32, 1)
  | 1 => (400, 2)
  | 2 => (400, 2)
  | _ => (2500, 3)

/-- Promised read time in tenths of a ns and row of Table 2.4; 24 beats are bounded by 19.2 ns (R48). A write or atomic
operation takes the read time of its target (R60). -/
def readPromise (s : State) (r : Request) : Nat × Nat :=
  match spaceOf r.devAddr with
  | 0 => (15000, 8)
  | 1 => if distance s r (addrRegion r.devAddr) none = 3 then (4000, 7) else (1200, 6)
  | 2 =>
    match distance s r (addrRegion r.devAddr) (some (addrCell r.devAddr)) with
    | 0 => (192, 4)
    | 1 => (600, 5)
    | 2 => (1200, 11)
    | _ => (4000, 12)
  | 4 => (30000, 9)
  | _ => (5000, 10)

/-- The promise of a request when it is accepted, or when the order it waits for is met: of a token its delivery, of a
signal or of a write between regions the time by which it is performed at its target (R60, R157), of all else the time of
its completion. -/
def requestPromise (s : State) (r : Request) : Nat × Nat :=
  match r.kind, targetRegion s r with
  | .token _ _, some (L, c) => signalPromise (distance s r L c)
  | .signal _ _ _, some (L, c) => signalPromise (distance s r L c)
  | .delay _ _, _ => (0, 0)
  | k, some (L, c) => if isWriteLike k ∧ distance s r L c = 3 then (2500, 3) else readPromise s r
  | _, none => readPromise s r

/-- A request that is due at its target first and acknowledged within the read time after that (R60, R157). -/
def twoPhase (s : State) (r : Request) : Bool :=
  match r.kind, targetRegion s r with
  | .signal _ _ _, some _ => true
  | k, some _ => isWriteLike k && (requestPromise s r).2 == 3
  | _, none => false

/-- Units of 64 bytes or part. -/
def units64 (n : Nat) : Nat := Nat.max 1 (ceilDiv n 64)

/-- Bridle credits between two physical regions, for request and response. -/
def bridleCredits (ownL own target n : Nat) : List (AdmPoint × Resource × Nat) :=
  [(.region ownL, .egress own, n), (.region ownL, .ingress target, n), (.region ownL, .egress target, n),
   (.region ownL, .ingress own, n)]

/-- Data bytes that a request carries to its target, and that its response carries back. -/
def sentBytes : ReqKind → Nat
  | .store bs => bs.length
  | .atomic m wide _ _ _ => (if wide then 8 else 4) + if m = 10 then 4 else 0
  | .signal _ _ _ => 4
  | .drain bs => bs.length
  | _ => 0

def backBytes (k : ReqKind) : Nat := if isWriteLike k then 0 else kindBytes k

/-- A request that takes write credits of a T2 channel (R364). -/
def takesWrite : ReqKind → Bool
  | .atomic _ _ _ _ _ => true
  | k => isWriteLike k

/-- Physical region of a logical region; none is region 0xFF. -/
def physAt (s : State) (L : Nat) : Nat := (physOfLogical s L).getD 0xFF

/-- The credits of a signal or of an access at its home: a signal slot, or bank credits or port slots (Table 2.2). -/
def homeCredit (s : State) (k : ReqKind) (a : Nat) : Resource × Nat :=
  let phys := physAt s (addrRegion a)
  match k, spaceOf a with
  | .signal _ _ _, 1 => (.regionSignal phys, 1)
  | .signal _ _ _, _ => (.cellSignal phys (addrCell a), 1)
  | _, 1 => (.bank phys (addrBank a), units64 (kindBytes k))
  | _, _ => (.t0port phys (addrCell a), units64 (kindBytes k))

/-- Bridle credits to a link die's port and back (Table 2.2). -/
def dieCredits (L own die port n : Nat) : List (AdmPoint × Resource × Nat) :=
  [(.region L, .egress own, n), (.region L, .ingress own, n), (.region L, .linkDie die port false, n),
   (.region L, .linkDie die port true, n)]

/-- The credits a request reserves, with the admission point that reserves each (R50, R56). For the own cell and block the
admission point is the cell itself. A PCIe transmit credit stands for 64 bytes (DESIGN CHOICE: Table 2.2 gives no unit; log
entry 145). -/
def pathNeeds (s : State) (r : Request) : List (AdmPoint × Resource × Nat) :=
  let L := originRegion s r.origin
  let own := originPhys s r.origin
  let n := units64 (kindBytes r.kind)
  let cell := originCell s r.origin
  let a := r.devAddr
  match r.kind with
  | .token w _ => if tokRegion w = L then [] else bridleCredits L own (physAt s (tokRegion w)) 1
  | .delay _ _ => []
  | k =>
    let h := homeCredit s k a
    let bridle := if addrRegion a = L then [] else bridleCredits L own (physAt s (addrRegion a)) n
    let slot := match k with
      | .signal _ _ _ => []
      | _ => [((.region L : AdmPoint), Resource.respSlot L cell, 1)]
    match spaceOf a with
    | 0 =>
      dieCredits L own (stackDie (addrStack a)) (diePort a) n ++
        [(.region L, .channel (addrStack a) (addrChannel a) (takesWrite k), Nat.max 1 (ceilDiv (kindBytes k) 32))]
    | 1 => (.region L, h.1, h.2) :: if addrRegion a = L then slot else bridle
    | 2 =>
      if distance s r (addrRegion a) (some (addrCell a)) ≤ 1 then [(.cell L (cell.getD 0), h.1, h.2)]
      else (.region L, h.1, h.2) :: (slot ++ bridle)
    | 4 =>
      let port := (peerPort s (bits a 50 48) (bits a 40 0)).getD 0
      dieCredits L own (portDie port) (diePort a) n ++
        [(.linkDie (portDie port), .flits port, opFlits (sentBytes k)),
         (.linkDie (portDie port), .rxFlits port, opFlits (backBytes k)),
         (.linkDie (portDie port), .peer (bits a 50 48), opFlits (backBytes k))]
    | _ =>
      let port := hostPort s a
      [(.region L, .egress own, n), (.region L, .linkDie (2 * port) (diePort a) false, n), (.region L, .pcie port, n)]

/-- What a registration keeps for its wake: the credits of one notification from the word's home to the watching cell
(R153). Within a region no credit of Table 2.2 is on that path. -/
def wakeShare (s : State) (r : Request) : List (Resource × Nat) :=
  match r.kind with
  | .watch _ =>
    if addrRegion r.devAddr = originRegion s r.origin then []
    else [(.egress (physAt s (addrRegion r.devAddr)), 1), (.ingress (originPhys s r.origin), 1)]
  | _ => []

/-- What a request holds of a resource that its registration will keep. -/
def shareOf (l : List (Resource × Nat)) (res : Resource) : Nat := ((l.filter fun x => x.1 == res).map (·.2)).sum

/-- Every credit that a request needs at its admission: those of its path, and those of the wake it registers for. -/
def creditNeeds (s : State) (r : Request) : List (AdmPoint × Resource × Nat) :=
  (pathNeeds s r).map fun x => (x.1, x.2.1, x.2.2 + shareOf (wakeShare s r) x.2.1)

/-- A credit of the response's path that the response frees as it leaves its target: every hop but the requester's own
(R51; log entry 118). -/
def leavesFirst (own : Nat) : Resource → Bool
  | .egress p => p != own
  | .linkDie _ _ out => out
  | _ => false

/-! ### Tags and caps (R52, R348, R349) -/

/-- Requests of the same cell that hold a tag of a kind. -/
def cellTags (s : State) (o : Origin) (kind : Nat) : Nat :=
  (s.requests.filter fun q => q.tag == kind && originRegion s q.origin == originRegion s o &&
    (originCell s q.origin).isSome && originCell s q.origin == originCell s o).length

/-- The region whose pool a transfer's data requests take a tag from: those of the Reels, the Winch, the gather engine and
the reduction sequencer (R348). -/
def useRegion : XferUse → Option Nat
  | .reel L _ => some L
  | .winch L _ => some L
  | .gather L _ => some L
  | .reduce L _ => some L
  | _ => none

/-- Pool tags of a region in use: one by each request that took one, and one by each accepted transfer of its units for its
data requests (log entry 119). -/
def poolTags (s : State) (L : Nat) : Nat :=
  (s.requests.filter fun q => q.tag == 2 && originRegion s q.origin == L).length +
    (s.transfers.filter fun x => x.accepted && useRegion x.purpose == some L).length

/-- The tag that a requester can take now: private first, then the pool; 0 when it finds none. -/
def freeTag (s : State) (o : Origin) : Nat :=
  let L := originRegion s o
  match originCell s o with
  | some _ =>
    if cellTags s o 1 < 256 then 1
    else if poolTags s L < 24576 ∧ cellTags s o 2 < 1024 then 2 else 0
  | none => if poolTags s L < 24576 then 2 else 0

/-- The T1 bank or T2 channel that caps a request. -/
def capPlace (s : State) (r : Request) : Option Resource :=
  if !kindAddressed r.kind then none
  else
    match spaceOf r.devAddr with
    | 0 => some (.channel (addrStack r.devAddr) (addrChannel r.devAddr) false)
    | 1 => some (.bank (physAt s (addrRegion r.devAddr)) (addrBank r.devAddr))
    | _ => none

/-- A hop of a transfer that lies over a bank or channel: its bytes are interleaved over all of them. -/
def hopCovers (p : Resource) (h : Hop) : Bool :=
  match p, h with
  | .channel k _ _, .channels k' => k == k'
  | .bank q _, .banks q' => q == q'
  | _, _ => false

/-- The bank or channel that an operation of a peer device names. -/
def opPlace (s : State) (h : OpHeader) : Option Resource :=
  if h.op = 0 ∨ 4 < h.op then none
  else
    match h.space with
    | 0 => some (.channel (addrStack h.inner) (addrChannel h.inner) false)
    | 1 => some (.bank (physAt s (addrRegion h.inner)) (addrBank h.inner))
    | _ => none

/-- Tags that count toward the cap of a bank or channel (R349): of requests, of the accepted transfers that cover it, and of
the operations of peers that wait to be performed. -/
def capCount (s : State) (p : Resource) : Nat :=
  (s.requests.filter fun q => q.tag != 0 && capPlace s q == some p).length +
    (s.transfers.filter fun x => x.accepted && x.hops.any fun e => hopCovers p e.1).length +
    ((s.links.flatMap fun e => e.2.inbox).filter fun x => opPlace s x.1 == some p).length

/-- A tag for a waiting request, when the cap and the pools allow it. -/
def takeTag (s : State) (r : Request) : Nat :=
  match capPlace s r with
  | some p => if capCount s p < 2048 then freeTag s r.origin else 0
  | none => freeTag s r.origin

/-! ### Waiting at admission -/

/-- A region below 0.60 V admits nothing (R43). -/
def railLow (s : State) (phys : Nat) : Bool := decide ((physOf s phys).vcore < 600)

/-- Room for the registration of a watched word at its home (R152). -/
def watchRoom (s : State) (a : Nat) : Bool :=
  if spaceOf a = 2 then
    let w := watchedWords s fun x => spaceOf x == 2 && addrRegion x == addrRegion a && addrCell x == addrCell a
    w.contains a || decide (w.length < 4096)
  else
    let w := watchedWords s fun x => spaceOf x == 1 && addrRegion x == addrRegion a
    w.contains a || decide (w.length < 65536)

/-- Delay tasks of a region, the accepted ones included (R166). -/
def delayCount (s : State) (L : Nat) : Nat :=
  (regionOf s L).delay.length +
    (s.requests.filter fun q => q.stage == .accepted && originRegion s q.origin == L &&
      match q.kind with
      | .delay _ _ => true
      | _ => false).length

/-- Room at the target for kinds that need it: a watch entry (R152), the delay list (R166), free granules above the growth
floor of a T2 channel (R364). -/
def roomAtTarget (s : State) (r : Request) : Bool :=
  match r.kind with
  | .watch _ => watchRoom s r.devAddr
  | .delay _ _ => decide (delayCount s (originRegion s r.origin) < 8192)
  | k =>
    !takesWrite k || spaceOf r.devAddr != 0 ||
      decide (16384 ≤ channelFree s (addrStack r.devAddr) (addrChannel r.devAddr))

/-- The spars an MMA holds, and when it was granted. -/
def heldSpars (q : TensorOp) : Option ((Nat × Nat) × Nat) :=
  match q.stage with
  | .granted f n t _ => some ((f, n), t)
  | _ => none

/-- Operations of one block of a region. -/
def blockOps (s : State) (L b : Nat) : List TensorOp := s.ops.filter fun q => q.region == L && q.cell / 8 == b

def findOp (s : State) (id : Nat) : Option TensorOp := s.ops.find? fun x => x.id == id

def setOp (s : State) (q : TensorOp) : State := { s with ops := s.ops.map fun x => if x.id = q.id then q else x }

/-- A feeder or the drain of a granted MMA reads or writes the region in which it works: a region that can still be read lets
its granted MMAs complete there (R250). -/
def completesThere (s : State) (r : Request) (L : Nat) : Bool :=
  match r.origin with
  | .feeder op _ own _ _ _ =>
    own == L && ((findOp s op).bind heldSpars).isSome &&
      (match (regionOf s L).exchange with
        | some x => x.kind != .failure
        | none => true)
  | _ => false

/-- A request that names a fenced logical region, or a cell that is being replaced (R37, R439). -/
def namesFenced (s : State) (r : Request) : Bool :=
  match targetRegion s r with
  | some (L, c) =>
    ((regionOf s L).exchange.isSome && !completesThere s r L) || (match c with
      | some pos => (regionOf s L).retiring.contains pos
      | none => false)
  | none => false

/-- The requesting region, or the region that a request names, lies below 0.60 V (R43). -/
def railWait (s : State) (r : Request) : Bool :=
  railLow s (originPhys s r.origin) ||
    match targetRegion s r with
    | some (L, _) =>
      match physOfLogical s L with
      | some p => railLow s p
      | none => false
    | none => false

/-- The port that leads to the named peer drains (R388). -/
def portDrains (s : State) (r : Request) : Bool :=
  kindAddressed r.kind && spaceOf r.devAddr == 4 &&
    (linkOf s ((peerPort s (bits r.devAddr 50 48) (bits r.devAddr 40 0)).getD 0)).draining

/-- The requester may be admitted: the device does not hold, and a thread's context runs (R104, R449). -/
def mayAdmit (s : State) (r : Request) : Bool :=
  !s.hold && (match r.origin with
    | .thread t => (ctxOf s t.ctx).state == .running
    | _ => true)

/-- Credits that a request lacks. -/
def lacking (s : State) (r : Request) : List (AdmPoint × Resource × Nat) :=
  (creditNeeds s r).filter fun x => decide (available s x.1 x.2.1 < x.2.2)

/-- A waiting request that waits for nothing but credits. -/
def waitsForCredits (s : State) (q : Request) : Bool :=
  q.stage == .waiting && q.tag != 0 && mayAdmit s q && !namesFenced s q && !railWait s q && !portDrains s q &&
    roomAtTarget s q

/-- Where a waiting request queues, when earlier ones queue at `l`: at each resource that it lacks or where one of those
waits, and at no other (R53). One that waits nowhere is accepted first. -/
def queuesAt (s : State) (l : List (AdmPoint × Resource)) (q : Request) : List (AdmPoint × Resource) :=
  let needs := creditNeeds s q
  let here := ((needs.filter fun x => decide (available s x.1 x.2.1 < x.2.2)).map fun x => (x.1, x.2.1)) ++
    ((needs.map fun x => (x.1, x.2.1)).filter l.contains)
  if here = [] then needs.map fun x => (x.1, x.2.1) else here

/-- Where the requests that came before one queue, in the order in which they arrived. -/
def queuedBefore (s : State) (id : Nat) : List (AdmPoint × Resource) :=
  (s.requests.filter fun q => decide (q.id < id) && waitsForCredits s q).foldl (fun l q => l ++ queuesAt s l q) []

/-- An earlier request at the same admission point waits for a resource that this one also needs (R53). -/
def behindEarlier (s : State) (r : Request) : Bool :=
  (creditNeeds s r).any fun y => (queuedBefore s r.id).contains (y.1, y.2.1)

/-- Why a request with a tag waits, by the stall causes of Table 17.4; none when it can be accepted. -/
def waitCause (s : State) (r : Request) : Option Nat :=
  if namesFenced s r then some 3
  else if railWait s r then some 4
  else if portDrains s r then some 0
  else if !roomAtTarget s r then some 0
  else if lacking s r ≠ [] then some 0
  else if behindEarlier s r then some 0
  else none

/-- The wait so far is added to the stall counter of its cause (R475). -/
def countWait (s : State) (r : Request) : State := addStall s (originPhys s r.origin) r.cause (now s - r.since)

/-! ### Delivery and completion -/

/-- The value of a load (Table 4.3): zero-extended, or sign-extended from 8 or 16 bits. -/
def loadValue (n : Nat) (signed : Bool) (bs : List Byte) : Nat :=
  if signed then ofSigned 32 (toSigned (8 * n) (leNat bs)) else leNat bs

/-- The 64 lanes of 256 bytes, in ascending order of address (R121). -/
def lanesOf (bs : List Byte) : Vector Word 64 := Vector.ofFn fun i => BitVec.ofNat 32 (fieldAt bs (4 * i.val) 4)

/-- The tensor descriptor registers that an operation names, in the order of its records. -/
def opSlots : TensorKind → List Nat
  | .mma o _ => [o.dc.val, o.da.val, o.db.val]
  | .tcopy o => [o.d1.val, o.d2.val]
  | .tscadd o => [o.d1.val, o.d2.val]
  | .tmaxabs _ => []

/-- A record that a DLD brings reaches an operation that issued after it (R129). -/
def bindRecord (q : TensorOp) (n : Bool × Nat) (bs : List Byte) : TensorOp :=
  let q := { q with awaits := q.awaits.filter (· ≠ n) }
  if n.1 then { q with xs := q.xs.set n.2 bs }
  else
    let at_ := fun i => (opSlots q.kind)[i]? == some n.2
    { q with d1 := if at_ 0 then bs else q.d1, d2 := if at_ 1 then bs else q.d2, d3 := if at_ 2 then bs else q.d3 }

/-- The entries of the windows that the records of an operation name (R94, R502). -/
def opWindows (s : State) (q : TensorOp) : Map Nat DWord :=
  windowsAt s q.t.ctx (((q.d1 :: q.d2 :: q.d3 :: q.xs).map fun r => fieldAt r 4 1 * 2 ^ 40).dedup)

/-- The result of a request reaches its thread. -/
def deliver (s : State) (r : Request) (bs : List Byte) : State :=
  match r.origin with
  | .thread t =>
    match r.kind with
    | .load n signed dst =>
      modThread s t fun th =>
        if n = 8 then th.wrPair dst (BitVec.ofNat 64 (leNat bs)) else th.wr dst (BitVec.ofNat 32 (loadValue n signed bs))
    | .vload dst => setVector s t { vectorOf s t with v := (vectorOf s t).v.set dst (lanesOf bs) }
    | .atomic _ wide _ _ (some dst) =>
      modThread s t fun th =>
        if wide then th.wrPair dst (BitVec.ofNat 64 (leNat bs)) else th.wr dst (BitVec.ofNat 32 (leNat bs))
    | .dload index slot =>
      let g := groupOf s t
      let n := if index then slot.val % 8 else slot.val
      let s := setGroup s t (if index then { g with x := g.x.set (Fin.ofNat 8 slot.val) bs } else { g with d := g.d.set slot bs })
      { s with ops := s.ops.map fun q => if groupKey q.t = groupKey t ∧ q.awaits.contains (index, n) then
          let q := bindRecord q (index, n) bs
          { q with wins := opWindows s q }
        else q }
    | _ => s
  | _ => s

/-- A thread that FENCE holds runs on when nothing it waits for is outstanding (R123). -/
def fenceCheck (s : State) (t : ThreadId) : State :=
  match threadOf s t with
  | some th => if th.run = .waitFence ∧ outstanding s t isPosted = [] then wake s t else s
  | none => s

/-- A completed request frees those that waited for it; their promises run from now (R125, R157). -/
def releaseAfter (s : State) (id : Nat) : State :=
  { s with
    requests := s.requests.map fun q =>
      if q.after.contains id then
        let q' := { q with after := q.after.filter (· ≠ id) }
        if q'.after = [] ∧ q.stage = .accepted then
          { q' with start := now s, promise := 10 * now s + (requestPromise s q).1 }
        else q'
      else q }

/-! ### Feeders and drains of tensor operations (R237 to R239, R242) -/

/-- How many requests a feeder keeps outstanding: A 64, B 16, and the drain one row piece at a time, read before it is
written with ACC (R237, R239, R242). -/
def feederLimit (side : Nat) : Nat := if side = 0 then 64 else if side = 1 then 16 else 1

/-- The feeder of its operation that issues a request: a spar's A or B, or the one drain. -/
def FeedReq.lane (f : FeedReq) : Nat × Nat := (f.spar, Nat.min f.side 2)

/-- The first spar that an operation holds. -/
def firstSpar (q : TensorOp) : Nat := ((heldSpars q).map (·.1.1)).getD 0

/-- What is under way at the feeder of a spar of a block, for whichever operation: a holder and its follow-on share it. -/
def feederLoad (s : State) (q : TensorOp) (f : FeedReq) : List FeedReq :=
  (blockOps s q.region (q.cell / 8)).flatMap fun p =>
    ((p.reading.map (·.2)).filter fun g => decide (g.side = f.side) && decide (firstSpar p + g.spar = firstSpar q + f.spar))

/-- Some operand read of an operation that a pair of N tile and M block needs is still to be made, or under way. -/
def pairOpen (q : TensorOp) (pair : Nat) : Bool :=
  (q.feeds ++ q.reading.map (·.2)).any fun g => decide (g.side < 2) && decide (g.pair ≤ pair)

/-- The feeder may issue its next request: fewer than its limit are outstanding and 16 KiB are not exceeded (R24, R237, R239);
the drain of a pair begins when every operand of it has been read. -/
def feedMay (s : State) (q : TensorOp) (f : FeedReq) : Bool :=
  if 2 ≤ f.side then !pairOpen q f.pair && (q.reading.all fun x => decide (x.2.side < 2))
  else
    let l := feederLoad s q f
    decide (l.length < feederLimit f.side) && decide ((l.map (·.bytes)).sum + f.bytes ≤ 16384)

/-- The cell whose tags and admission a feeder uses (R238): that of its spar, two to a cell, from the first granted spar;
the drain writes through the issuing cell (R242). -/
def feedCell (q : TensorOp) (f : FeedReq) : Nat :=
  match q.stage with
  | .granted first _ _ _ => if 2 ≤ f.side then q.cell else q.cell / 8 * 8 + (first + f.spar) / 2
  | _ => q.cell

/-- The request of a feeder or of the drain; the window of its address is resolved at admission (R94). A C write carries what
the products of its row come to (R242). -/
def feedRequest (s : State) (q : TensorOp) (f : FeedReq) : Request :=
  newRequest s q.t.ctx (.feeder q.id q.t q.region (feedCell q f) f.spar f.side)
    (if f.side = 2 then .drain (drainData q f) else .feed f.bytes) f.addr 0 false []

/-- Feeder f issues its request: it leaves the list, and its bytes enter the staging. -/
def issueFeed (s : State) (q : TensorOp) (f : FeedReq) : State :=
  setOp (addRequest s (feedRequest s q f)) { q with feeds := q.feeds.erase f, reading := q.reading ++ [(s.nextReq, f)] }

/-- The first request that some feeder of an operation may issue, each feeder in its own order. -/
def nextFeed (s : State) (q : TensorOp) : List FeedReq → List (Nat × Nat) → Option FeedReq
  | [], _ => none
  | f :: r, stuck =>
    if stuck.contains f.lane then nextFeed s q r stuck
    else if feedMay s q f then some f else nextFeed s q r (f.lane :: stuck)

/-- The feeders of an operation issue what they may; `n` bounds the requests. -/
def issueFeeds (s : State) (op : Nat) : Nat → State
  | 0 => s
  | n + 1 =>
    match findOp s op with
    | some q =>
      match nextFeed s q q.feeds [] with
      | some f => issueFeeds (issueFeed s q f) op n
      | none => s
    | none => s

/-- What an operation holds after one of its requests has ended: the bytes that a read has delivered, zeros where it faulted,
or the C write that is done; what a read delivers leaves the staging at once (log entry 125). -/
def TensorOp.ended (q : TensorOp) (r : Request) (f : FeedReq) (at_ : Nat) : TensorOp :=
  let q := { q with reading := q.reading.filter fun x => x.1 != r.id }
  match r.kind with
  | .drain bs => { q with drained := q.drained ++ [(f, bs)] }
  | _ =>
    { q with
      fed := (f.addr, (r.result ++ List.replicate f.bytes 0).take f.bytes) ::
        q.fed.filter fun x => !(x.1 == f.addr && x.2.length == f.bytes)
      fedAt := if f.side < 2 then at_ else q.fedAt }

/-- A feeder's request has ended: its operation takes what it brings, and the feeders that share its block issue on. -/
def feedDone (s : State) (op : Nat) (r : Request) : State :=
  match findOp s op with
  | some q =>
    match q.reading.find? fun x => x.1 == r.id with
    | some x =>
      let s := setOp s (q.ended r x.2 (now s))
      (blockOps s q.region (q.cell / 8)).foldl (fun s p => issueFeeds s p.id p.feeds.length) s
    | none => s
  | none => s

/-- The threads that stand at a word until a DLD completes issue it now (R129). -/
def wakeRecord (s : State) (req : Nat) : State :=
  s.threads.foldl (fun s e => if e.2.run = .waitRecord req then wake s e.1 else s) s

/-- A request leaves: its credits return, its tag is free, what waited for it goes on, its thread runs again
(R51, R122, R123). -/
def finishRequest (s : State) (r : Request) : State :=
  let s := { s with requests := s.requests.filter fun q => q.id ≠ r.id }
  let s := returnCredits s r.credits
  let s := releaseAfter s r.id
  match r.origin with
  | .feeder op _ _ _ _ _ => feedDone s op r
  | .thread t =>
    let s :=
      match threadOf s t with
      | some th => if th.run = .waitReq r.id then wake s t else s
      | none => s
    fenceCheck (wakeRecord s r.id) t
  | .gather L tag =>
    modRegion s L fun R => { R with gatherJobs := R.gatherJobs.map fun j => if j.tag = tag then { j with lastData := now s } else j }
  | _ => s

/-- The row of Table 2.4 that a request is judged by: once performed, that of its acknowledgement or data (R60). -/
def promiseRow (s : State) (r : Request) : Nat :=
  if r.stage = .performed then (readPromise s r).2 else (requestPromise s r).2

/-- A promise miss of a request, in the region of its admission point (R63). -/
def checkPromise (s : State) (r : Request) : State :=
  if r.promise ≠ 0 ∧ r.promise < 10 * now s then promiseMiss s (originPhys s r.origin) r.ctx (promiseRow s r) else s

/-- A watch that registers nothing: the slot is marked written at once (R148). -/
def watchFault (s : State) (t : ThreadId) (slot : Fin 16) : State :=
  modCtxRegion
    (sweepWakes (modThread s t fun th =>
      { th with watch := th.watch.set slot { addr := none, acked := true, written := true, due := 0 } }))
    t.ctx (threadRegion s t) fun x => { x with watchFaults := satAdd 0xFFFF x.watchFaults 1 }

/-- WATCH registers only words of T0 and T1 of this device (R148). -/
def watchable (a : Nat) : Bool := spaceOf a == 1 || spaceOf a == 2

/-- The access is not issued: a read returns zeros, a write is discarded, an atomic operation returns zero (R95). -/
def faulted (s : State) (r : Request) : State :=
  let s := windowFault s r.ctx r.ctxAddr
  match r.kind, r.origin with
  | .watch slot, .thread t => finishRequest (watchFault s t slot) r
  | k, _ => finishRequest (deliver s r (List.replicate (kindBytes k) 0)) r

/-- A job is complete: it leaves its unit, and its pins their versions (R176, R201, R206, R370). -/
def closeJob (s : State) : Origin → State
  | .reel L r => modRegion s L fun R =>
      { R with reels := R.reels.map fun e => if e.1 = r then (e.1, { e.2 with running := none }) else e }
  | .gather L tag =>
    match (regionOf s L).gatherJobs.find? fun j => j.tag == tag with
    | some j => releaseVersions (modRegion s L fun R => { R with gatherJobs := R.gatherJobs.filter fun k => k.tag != tag }) j.rcd.table
    | none => s
  | .winch L tag => modRegion s L fun R => { R with winch := R.winch.filter fun e => e.tag != tag }
  | _ => s

/-- A job is judged when what completes it is performed, and leaves its unit (R176, R206, R370). -/
def judgeJob (s : State) (ctx : Nat) : Option JobPromise → State
  | some j =>
    let s := if j.due ≠ 0 ∧ j.due < now s then promiseMiss s j.phys ctx j.row else s
    match j.job with
    | some o => closeJob s o
    | none => s
  | none => s

/-- An item whose target has failed or cannot be reached: a read delivers poisoned zeros, everything else is discarded
(R438, R396). It completes, and is judged by its promise as any other (R63). -/
def lost (s : State) (r : Request) : State :=
  let s := if r.stage = .waiting then s else checkPromise s r
  let s := if r.stage = .performed ∧ !isStore r.kind then s else judgeJob s r.ctx r.judge
  let s := deliver s r (List.replicate (kindBytes r.kind) 0)
  let s := match r.kind with
    | .load _ _ _ => poisonEvent s r.ctx r.devAddr
    | .vload _ => poisonEvent s r.ctx r.devAddr
    | .dload _ _ => poisonEvent s r.ctx r.devAddr
    | .feed _ => poisonEvent s r.ctx r.devAddr
    | .atomic _ _ _ _ (some _) => poisonEvent s r.ctx r.devAddr
    | _ => s
  match r.kind, r.origin with
  | .watch slot, .thread t => finishRequest (watchFault s t slot) r
  | _, _ => finishRequest s r

/-! ### The rows of 02 R49 to R65 -/

/-- The logical region that a request names is vacant (R444). -/
def namesVacant (s : State) (r : Request) : Bool :=
  match targetRegion s r with
  | some (L, _) => (regionOf s L).vacant
  | none => false

/-- A thread that a full delay list held at its DELAY runs on once the task is admitted (R166). -/
def freeDelay (s : State) (r : Request) : State :=
  match r.kind, r.origin with
  | .delay _ _, .thread t =>
    match threadOf s t with
    | some th => if th.run = .waitReq r.id then wake s t else s
    | none => s
  | _, _ => s

/-- Every credit is reserved at once: the request is accepted (R49, R51). The credits of a wake stay with the registered
slot (R153). -/
def acceptRequest (s : State) (r : Request) : State :=
  let s := countWait s r
  let share := wakeShare s r
  let held := (pathNeeds s r).map fun x => x.2
  let s := (creditNeeds s r).foldl reserve s
  let phys := match targetRegion s r with
    | some (L, _) => physAt s L
    | none => 0xFF
  let p := (requestPromise s r).1
  let s := setRequest s
    { r with
      stage := .accepted, accepted := now s, start := now s, phys := phys, credits := held
      promise := if p = 0 then 0 else 10 * now s + p }
  match r.kind, r.origin with
  | .watch slot, .thread t =>
    let s := modThread s t fun th =>
      { th with watch := th.watch.set slot { addr := some r.devAddr, acked := false, written := false, due := 0 } }
    { s with wakes := s.wakes ++ share.map fun x => { t := t, slot := slot, res := x.1, n := x.2 } }
  | .watch _, .winch L c =>
    modRegion s L fun R =>
      { R with gates := mset R.gates c { addr := r.devAddr, acked := false, written := false, wake := share } }
  | _, _ => freeDelay s r

/-- A DELAY that finds the list full holds its thread until one task leaves (R166). -/
def holdDelay (s : State) (r : Request) : State :=
  match r.kind, r.origin with
  | .delay _ _, .thread t =>
    if roomAtTarget s r then s
    else modThread s t fun th => if th.run = .ready then { th with run := .waitReq r.id } else th
  | _, _ => s

/-- A WATCH that comes to its home when the word lies in no T0 or T1 of this device registers nothing (R148). -/
def strayWatch (r : Request) : Bool :=
  match r.kind with
  | .watch _ => !watchable r.devAddr
  | _ => false

/-- A watch that registers nothing ends with its slot marked. -/
def endWatch (s : State) (r : Request) : State :=
  match r.kind, r.origin with
  | .watch slot, .thread t => finishRequest (watchFault s t slot) r
  | _, _ => finishRequest s r

/-- REQUEST_ACCEPTANCE (R49 to R53): the translation is made here (R94); a request that cannot reserve everything waits
where it stands, with its tag and no credit (R51, R52). -/
def execRequestAcceptance (req : Nat) (s : State) : Host.Outcome State Fault Refusal :=
  match findRequest s req with
  | none => notNow s
  | some r =>
    if r.stage ≠ .waiting ∨ !mayAdmit s r then notNow s
    else
      let place := if r.direct ∨ !kindAddressed r.kind then some r.devAddr
        else translate s r.ctx (originGroup r.origin) (kindNeed r.kind) r.ctxAddr (kindBytes r.kind)
      match place with
      | none => .next (faulted s r)
      | some a =>
        let r := { r with devAddr := a }
        if strayWatch r then .next (endWatch s r)
        else if namesVacant s r then .next (lost s r)
        else if kindAddressed r.kind ∧ spaceOf a = 4 ∧ !peerReachable s (bits a 50 48) then
          .next (peerLossEvent (lost s r) r.ctx (bits a 50 48))
        else
          let tag := if r.tag = 0 then takeTag s r else r.tag
          if tag = 0 then
            let c := match capPlace s r with
              | some p => if capCount s p < 2048 then 1 else 2
              | none => 1
            .next (setRequest (countWait s r) { r with since := now s, cause := c })
          else
            let r := { r with tag := tag }
            match waitCause s r with
            | some c => .next (holdDelay (setRequest (countWait s r) { r with since := now s, cause := c }) r)
            | none => .next (acceptRequest s r)

/-- LENDING_REQUEST (R54): a ledger that lacks credits for a waiting request asks its destination for them. -/
def execLendingRequest (led : AdmPoint) (res : Resource) (n : Nat) (s : State) : Host.Outcome State Fault Refusal :=
  let lacking := s.requests.any fun q =>
    q.stage == .waiting && (creditNeeds s q).any fun x =>
      x.1 == led && x.2.1 == res && decide ((ledgerOf s led res).unused < x.2.2)
  if isOwnSlot res ∨ !lacking ∨ n = 0 ∨ resourceTotal res < n ∨
      (destOf s res).waiting.any (fun w => w.1 == led && w.2.1 == res) then
    notNow s
  else
    .next (askLending s led res n)

/-- CREDIT_GIVE_BACK (R54): credits held unused for 2,000 ns go back to the destination. -/
def execCreditGiveBack (led : AdmPoint) (res : Resource) (s : State) : Host.Outcome State Fault Refusal :=
  let l := ledgerOf s led res
  let old := l.lots.filter fun x => decide (x.2 + 2000 ≤ now s)
  if old.isEmpty then notNow s
  else
    .next (giveBack (setLedger s led res { lots := l.lots.filter fun x => !decide (x.2 + 2000 ≤ now s) }) res
      (old.map (·.1)).sum)

/-- The 64-byte lines of a window that two requests share (R122). -/
def linesMeet (a b : Request) : Bool :=
  kindAddressed a.kind && kindAddressed b.kind &&
    decide (a.ctxAddr / 64 ≤ (b.ctxAddr + kindBytes b.kind - 1) / 64) &&
    decide (b.ctxAddr / 64 ≤ (a.ctxAddr + kindBytes a.kind - 1) / 64)

/-- The operations of two requests to a peer leave by different ports of the double link: the first of them takes more than one line,
and leaves by the port of its first (R393, R394; log entry 159). -/
def otherLink (s : State) (q r : Request) : Bool :=
  spaceOf q.devAddr == 4 && spaceOf r.devAddr == 4 &&
    peerPort s (bits q.devAddr 50 48) (bits q.devAddr 40 0) != peerPort s (bits r.devAddr 50 48) (bits r.devAddr 40 0)

/-- An earlier access of the same thread to the same line has not been performed (R122), or has not been answered by the peer that it
reached by another link (R394). -/
def earlierOnLine (s : State) (r : Request) : Bool :=
  match originThread r.origin with
  | some t => (requestsOf s t).any fun q =>
      decide (q.id < r.id) && (q.stage != .performed || otherLink s q r) && linesMeet q r
  | none => false

/-- The physical region has failed: its role says so, or it is fenced as failed until the map changes (R438, R443). -/
def physFailed (s : State) (p : Nat) : Bool :=
  (match (physOf s p).role with
    | .failed => true
    | .disabled => true
    | _ => false) ||
    s.logs.any fun e => match e.2.exchange with
      | some x => x.kind == .failure && x.leaving == p
      | none => false

/-- A physical region below 0.60 V performs nothing: its Burner raises the rail first (R43). -/
def railOf (s : State) (a : Nat) : Bool :=
  (spaceOf a == 1 || spaceOf a == 2) && (match physOfLogical s (addrRegion a) with
    | some p => railLow s p
    | none => false)

/-- The physical region that serves the request has failed (R438). -/
def targetFailed (s : State) (r : Request) : Bool := decide (r.phys < 18) && physFailed s r.phys

/-- A request stands at the channel of a page of T2. -/
def atPage (s : State) (q : Request) : Bool :=
  q.stage == .accepted && q.after == [] && kindAddressed q.kind && spaceOf q.devAddr == 0 && !earlierOnLine s q

/-- The channel performs requests to one page in the order in which it admitted them (R362). -/
def earlierOnPage (s : State) (r : Request) : Bool :=
  kindAddressed r.kind && spaceOf r.devAddr == 0 && s.requests.any fun q =>
    atPage s q && decide (q.accepted < r.accepted ∨ (q.accepted = r.accepted ∧ q.id < r.id)) &&
      decide (q.devAddr / 4096 ≤ (r.devAddr + kindBytes r.kind - 1) / 4096) &&
      decide (r.devAddr / 4096 ≤ (q.devAddr + kindBytes q.kind - 1) / 4096)

/-- A request may be performed now. -/
def mayPerform (s : State) (r : Request) : Bool :=
  r.stage == .accepted && r.after == [] && !earlierOnLine s r && !earlierOnPage s r

/-- The port by which a host request leaves is up (R402). -/
def hostPathUp (s : State) (a : Nat) : Bool :=
  if twoHosts s then (portOf s (b2n (bitOf a 51))).linkUp else (portOf s 0).linkUp || (portOf s 1).linkUp

/-- The credits that return when a request is performed: of a host request all of them, since its transmission is its
completion event (R51, R61); of one that this device performs those of the response's path that it passes first; of one that a
peer performs none, until its response arrives (log entry 118). -/
def freesNow (own : Nat) (r : Request) (x : Resource) : Bool :=
  if !kindAddressed r.kind then leavesFirst own x
  else if spaceOf r.devAddr = 5 then true
  else spaceOf r.devAddr != 4 && leavesFirst own x

/-- A signal or a write between regions is due at its target, a host request on the port; the acknowledgement takes the
read time from the start (R59 to R61, R157). -/
def performed (s : State) (r : Request) (bs : List Byte) (poison : Option Nat) : State :=
  let early := twoPhase s r
  let host := kindAddressed r.kind && spaceOf r.devAddr == 5
  let own := originPhys s r.origin
  let s1 := if early ∨ host then checkPromise s r else s
  let s1 := if isStore r.kind then s1 else judgeJob s1 r.ctx r.judge
  let promise :=
    if host ∨ ((early : Bool) ∧ r.promise < 10 * now s) then 0
    else if early then 10 * r.start + (readPromise s r).1 else r.promise
  let s2 := setRequest s1
    { r with stage := .performed, result := bs, poisonAt := poison, promise := promise
             credits := r.credits.filter fun x => !freesNow own r x.1 }
  returnCredits s2 (r.credits.filter fun x => freesNow own r x.1)

/-- The function that a request works for. -/
def requestFn (s : State) (r : Request) : Nat :=
  match r.origin with
  | .owner _ f => f
  | _ => (ctxOf s r.ctx).fn

/-- The operation that carries a request to a peer device (R392). -/
def peerOp (s : State) (r : Request) : State :=
  let a := r.devAddr
  let fn := requestFn s r
  let tag := r.id % 65536
  match peerPort s (bits a 50 48) (bits a 40 0) with
  | none => s
  | some p =>
    match r.kind with
    | .store bs => sendOp s p (opHeader 2 fn tag bs.length a 0 r.poisonAt.isSome) bs
    | .atomic m wide x y _ =>
      let n := if wide then 8 else 4
      let body := leBytes n x.toNat ++ (if m = 10 then leBytes 4 y.toNat else [])
      sendOp s p (opHeader 3 fn tag body.length a m false) body
    | .signal m v _ => sendOp s p (opHeader 4 fn tag 4 a m false) (leBytes 4 v.toNat)
    | .drain bs => sendOp s p (opHeader 2 fn tag bs.length a 0 false) bs
    | k => sendOp s p (opHeader 1 fn tag (kindBytes k) a 0 false) []

/-- A write to the shard memory of an old live version of a table, by a path other than a table job (R201). -/
def strayWrite (s : State) (r : Request) : Bool :=
  (match r.origin with
    | .gather _ _ => false
    | .owner _ _ => false
    | _ => true) && takesWrite r.kind && oldShard s r.devAddr (kindBytes r.kind)

/-- The effect of a load, store or atomic operation at its target on this device or its host. -/
def performAt (s : State) (r : Request) : State :=
  let fn := requestFn s r
  let a := r.devAddr
  match r.kind with
  | .store bs => performed (coreWrite s fn a bs) r [] none
  | .drain bs => performed (coreWrite s fn a bs) r [] none
  | .atomic m _ x y _ =>
    performed (devAtomic s fn a m x.toNat y.toNat).2 r (leBytes (atomicBytes m) (devAtomic s fn a m x.toNat y.toNat).1)
      (devPoison s a (atomicBytes m))
  | k =>
    performed (if spaceOf a = 5 then hostRequest s fn false a (kindBytes k) else s) r (coreRead s a (kindBytes k))
      (corePoison s a (kindBytes k))

/-- The activity of a request, charged to its context (R478, R479). -/
def countRequest (s : State) (r : Request) : State :=
  countAccess s (originPhys s r.origin) (if r.ctx = 0xFF then none else some r.ctx) r.devAddr (kindBytes r.kind)

/-- REQUEST_PERFORM (R122, R124, R149): a read, write or atomic operation is performed at its target, or sent to the peer
that performs it; a DELAY reaches its list (R166). -/
def execRequestPerform (req : Nat) (s : State) : Host.Outcome State Fault Refusal :=
  match findRequest s req with
  | none => notNow s
  | some r =>
    if !mayPerform s r then notNow s
    else
      match r.kind with
      | .delay task due =>
        let L := originRegion s r.origin
        .next (performed (modRegion s L fun R =>
          { R with delay := R.delay ++ [{ ctx := r.ctx, task := task, due := delayDue (now s) due }] }) r [] none)
      | .signal _ _ _ => notNow s
      | .token _ _ => notNow s
      | .watch _ => notNow s
      | k =>
        if targetFailed s r then .next (performed s r (List.replicate (kindBytes k) 0) (some r.devAddr))
        else if spaceOf r.devAddr = 4 then .next (performed (peerOp (countRequest s r) r) r [] none)
        else if spaceOf r.devAddr = 5 ∧ !hostPathUp s r.devAddr then notNow s
        else if strayWrite s r then
          .next (performed (undefinedEffect s r.ctx) r ((List.range (kindBytes k)).map (Config.freeByte s.freeCounter)) none)
        else .next (performAt (countRequest s r) r)

/-- The cell of the requesting thread is being replaced: responses are held at the Bridle port (R439). -/
def heldForCell (s : State) (r : Request) : Bool :=
  match originCell s r.origin with
  | some pos => (regionOf s (originRegion s r.origin)).retiring.contains pos
  | none => false

/-- Bytes brought to a length. -/
def fit (n : Nat) (bs : List Byte) : List Byte := (bs ++ List.replicate n 0).take n

/-- The first word of a poisoned response that can be the poisoned one: a poisoned word arrives as four zero bytes (R64).
The header's POISON bit does not say which word it is (log entry 120). -/
def poisonedWord (a : Nat) (bs : List Byte) : Nat :=
  match (List.range (ceilDiv bs.length 4)).find? fun i => ((bs.drop (4 * i)).take 4).all (· == 0) with
  | some i => a + 4 * i
  | none => a

/-- A host read is answered with a poisoned TLP (R401). -/
def poisonedTlp (r : Request) (poison : Bool) : Bool :=
  poison && kindAddressed r.kind && spaceOf r.devAddr == 5 && !isWriteLike r.kind

/-- The bytes, and the place of poison, that a completion delivers: for space 0x4 those of the response, which a data flit
has brought or the command carries (log entry 10); a poisoned TLP of the host delivers poisoned data (R64, R401). -/
def completionData (r : Request) (resp : List Byte) (poison : Bool) : List Byte × Option Nat :=
  if poisonedTlp r poison then (List.replicate (kindBytes r.kind) 0, some r.devAddr) else
  if kindAddressed r.kind ∧ spaceOf r.devAddr = 4 ∧ r.result = [] ∧ r.poisonAt = none then
    (fit (kindBytes r.kind) resp, if poison then some (poisonedWord r.devAddr (fit (kindBytes r.kind) resp)) else none)
  else (r.result, r.poisonAt)

/-- The completion event of a request that is performed (R51, R59, R63, R64). -/
def completed (s : State) (r : Request) (resp : List Byte) (poison : Bool) : State :=
  let d := completionData r resp poison
  let s := checkPromise (if poisonedTlp r poison then aerError s (ctxOf s r.ctx).fn 12 else s) r
  let s := match d.2 with
    | some a => if isWriteLike r.kind then s else poisonedRead s r.ctx r.devAddr a
    | none => s
  let s := if isStore r.kind then judgeJob s r.ctx r.judge else s
  finishRequest (deliver s r d.1) { r with result := d.1 }

/-- The word a signal leaves: MINOR 0 set, 1 add, 2 or (R154); an add or or on a poisoned word is not performed (R376). -/
def signalAt (s : State) (fn a minor : Nat) (v : Word) : State :=
  match minor with
  | 0 => devWrite s fn a (leBytes 4 v.toNat)
  | 1 => (devAtomic s fn a 0 v.toNat 0).2
  | _ => (devAtomic s fn a 7 v.toNat 0).2

/-- The watchers in the home's own cell are runnable within the signal's own time (Table 5.1). -/
def signalWakes (s : State) (r : Request) : State :=
  { s with
    threads := s.threads.map fun e =>
      if wakeTenths s e.1 r.devAddr = 32 then
        (e.1, { e.2 with watch := e.2.watch.map fun w =>
          if w.written ∧ w.addr = some (r.devAddr / 4 * 4) ∧ w.due = 10 * now s + 32 then { w with due := r.promise }
          else w })
      else e }

/-- SIGNAL_PERFORM (R125, R149, R154 to R156). -/
def execSignalPerform (req : Nat) (s : State) : Host.Outcome State Fault Refusal :=
  match findRequest s req with
  | none => notNow s
  | some r =>
    match r.kind with
    | .signal m v _ =>
      if !mayPerform s r then notNow s
      else if targetFailed s r then .next (performed s r [] none)
      else if spaceOf r.devAddr = 4 then .next (performed (peerOp (countRequest s r) r) r [] none)
      else if spaceOf r.devAddr = 5 ∧ !hostPathUp s r.devAddr then notNow s
      else if strayWrite s r then .next (performed (undefinedEffect s r.ctx) r [] none)
      else
        .next (performed (signalWakes (signalAt (countRequest s r) (ctxOf s r.ctx).fn r.devAddr m v) r) r [] none)
    | _ => notNow s

/-- WATCH_ACK (R147): the registration is acknowledged and the thread runs on. A home whose region has failed registers
nothing and counts a watch fault (DESIGN CHOICE: the spec does not say; log entry 121). -/
def execWatchAck (req : Nat) (s : State) : Host.Outcome State Fault Refusal :=
  match findRequest s req with
  | none => notNow s
  | some r =>
    match r.kind, r.origin with
    | .watch slot, .thread t =>
      if !mayPerform s r ∨ heldForCell s r then notNow s
      else
        let s := checkPromise s r
        let s := if targetFailed s r then watchFault s t slot
          else modThread s t fun th =>
            { th with watch := th.watch.set slot { addr := some r.devAddr, acked := true, written := false, due := 0 } }
        .next (finishRequest s r)
    | .watch _, .winch L c =>
      if !mayPerform s r then notNow s
      else
        .next (finishRequest (modRegion (checkPromise s r) L fun R =>
          { R with gates := R.gates.map fun g => if g.1 = c then (g.1, { g.2 with acked := true }) else g }) r)
    | _, _ => notNow s

/-- A Winch token performed after its DEADLINE is late (R371): counted in the region, reported once per start, and a
timing-budget event names the context and the region. -/
def winchLate (s : State) (r : Request) : State :=
  match r.origin, r.deadline with
  | .winch L _, some d =>
    if d < now s then
      let s := modCtxRegion s r.ctx L fun x =>
        { x with late := satAdd 0xFFFF x.late 1, lateUs := (x.lateUs + (now s - d) / 1000) % 2 ^ 24 }
      postEvent (ctxEventOnce s r.ctx 3 d) (ctxOf s r.ctx).fn 0x0C r.ctx L 7
    else s
  | _, _ => s

/-- TOKEN_PERFORM (R157, R159, R160): the token is performed at its entry, which is its completion event. -/
def execTokenPerform (req : Nat) (s : State) : Host.Outcome State Fault Refusal :=
  match findRequest s req with
  | none => notNow s
  | some r =>
    match r.kind with
    | .token w task =>
      if !mayPerform s r then notNow s
      else
        let s := checkPromise s r
        let s := if targetFailed s r then s else performToken s r.ctx w task r.deadline
        .next (finishRequest (winchLate (judgeJob s r.ctx r.judge) r) r)
    | _ => notNow s

/-! ### Requests of units: remote writes, tokens and DONE signals (R167) -/

/-- One operation of a unit's write to a peer device, of at most 65,536 bytes, which the peer acknowledges (R392): the logical bytes,
which its LEN counts, what crosses the link for them (R366), where they met poison, which it carries onward (R501), and the credits
that it holds until then beside the rate that its transfer reserved (R58). -/
def remotePiece (s : State) (ctx : Nat) (o : Origin) (a : Nat) (bs payload : List Byte) (poison : Option Nat)
    (cr : List (Resource × Nat)) : State :=
  let r := { newRequest s ctx o (.store bs) 0 a true [] with
             id := s.nextReq, stage := .performed, accepted := now s, start := now s, poisonAt := poison, credits := cr }
  let s := countRequest (addRequest s r) r
  match peerPort s (bits a 50 48) (bits a 40 0) with
  | some p => sendUnitOp s p (opHeader 2 (requestFn s r) (r.id % 65536) bs.length a 0 poison.isSome) payload
  | none => s

/-- A unit's write of clean bytes to a peer device, sent as operations (R392); `n` bounds the pieces. -/
def remoteStore (s : State) (ctx : Nat) (o : Origin) (a : Nat) (bs : List Byte) : Nat → State
  | 0 => s
  | n + 1 =>
    if bs = [] then s
    else
      let b := bs.take 65536
      remoteStore (remotePiece s ctx o a b b none []) ctx o (a + 65536) (bs.drop 65536) n

/-- A write by a unit for a context at a device address: to a peer device as acknowledged operations, discarded when the peer
cannot be reached (R396). -/
def unitStore (s : State) (ctx : Nat) (o : Origin) (a : Nat) (bs : List Byte) : State :=
  if spaceOf a = 4 then
    if peerGone s a then peerLossEvent s ctx (bits a 50 48)
    else remoteStore s ctx o a bs (bs.length / 65536 + 1)
  else if oldShard s a bs.length then undefinedEffect s ctx
  else devWrite (countAccess s (originPhys s o) (some ctx) a bs.length) (ctxOf s ctx).fn a bs

/-- A write by a unit through a window of its context (R95). -/
def unitWrite (s : State) (ctx : Nat) (o : Origin) (ca : Nat) (bs : List Byte) : State :=
  match translate s ctx none .write ca bs.length with
  | some a => unitStore s ctx o a bs
  | none => windowFault s ctx ca

/-- The reads of a unit through windows of its context: their activity, and what they leave (R95, R478, R501). -/
def unitReads (s : State) (ctx : Nat) (o : Origin) (l : List (Nat × Nat)) : State :=
  l.foldl (fun s x => winReadMark (match translate s ctx none .read x.1 x.2 with
    | some a => askPeer (countAccess s (originPhys s o) (some ctx) a x.2) (ctxOf s ctx).fn a x.2
    | none => s) ctx none x.1 x.2) s

/-- The writes of a unit's job that a peer has not acknowledged yet: its token follows them (R167). -/
def unitWrites (s : State) (o : Origin) : List Nat :=
  (s.requests.filter fun q => q.origin == o && isStore q.kind).map (·.id)

/-- A unit writes bytes in units of 64, each within the windows or discarded (R95); `n` bounds the units. -/
def writeChunks (s : State) (c : Nat) (o : Origin) (ca : Nat) : Nat → List Byte → State
  | 0, _ => s
  | n + 1, bs =>
    if bs = [] then s else writeChunks (unitWrite s c o ca (bs.take 64)) c o (ctxPlus ca 64) n (bs.drop 64)

/-- All of the bytes. -/
def writeOut (s : State) (c : Nat) (o : Origin) (ca : Nat) (bs : List Byte) : State :=
  writeChunks s c o ca (bs.length / 64 + 1) bs

/-- A unit's token, to be performed at its entry; none when the token word is 0. -/
def unitToken (s : State) (ctx : Nat) (o : Origin) (w : DWord) (deadline : Option Nat) (j : Option JobPromise) : State :=
  if w = 0 then s
  else addRequest s { newRequest s ctx o (.token w 0) 0 0 true (unitWrites s o) with deadline := deadline, judge := j }

/-- A unit's signal that adds 1 at a context address, after its writes and its token; none when the address is 0. -/
def unitSignal (s : State) (ctx : Nat) (o : Origin) (ca v : Nat) (after : List Nat) (j : Option JobPromise) : State :=
  if ca = 0 then s
  else
    match translate s ctx none .write (ca / 4 * 4) 4 with
    | some a =>
      addRequest s
        { newRequest s ctx o (.signal 1 (BitVec.ofNat 32 v) false) (ca / 4 * 4) a false (unitWrites s o ++ after) with
          judge := j }
    | none => windowFault s ctx ca

/-- A job without TOKEN and DONE ends with its last acknowledged write, or at once. -/
def unitEnd (s : State) (ctx : Nat) (o : Origin) (j : Option JobPromise) : State :=
  match (unitWrites s o).getLast? with
  | some id => { s with requests := s.requests.map fun q => if q.id = id then { q with judge := j } else q }
  | none => judgeJob s ctx j

/-- TOKEN, then 1 added at DONE, in that order (R167, R192); the promise of the job is judged when the last of them is
performed. -/
def unitReport (s : State) (ctx : Nat) (o : Origin) (token : DWord) (done : Nat) (deadline : Option Nat)
    (j : Option JobPromise) : State :=
  let signals := done ≠ 0 ∧ (translate s ctx none .write (done / 4 * 4) 4).isSome
  let after := if token = 0 then [] else [s.nextReq]
  let s1 := unitToken s ctx o token deadline (if signals then none else j)
  let s2 := unitSignal s1 ctx o done 1 after j
  if token = 0 ∧ ¬signals then unitEnd s2 ctx o j else s2

end Sys2Proof.Machine
end

