-- ==== Sys2Proof/Machine/Transfers.lean ====
section
/-! DEFINITION. Transfers (02 R58): the hops of a path, the rate each hop has, and the order in which transfers that wait
for rate are accepted. -/

namespace Sys2Proof.Machine

open Sys2Proof

/-- GB/s that accepted transfers may reserve at a hop: half its rate at the guarantee corner (Table 2.3, R58, R205); the 256
banks of a T1 together, over which a transfer is interleaved (R344; log entry 18); a link with seven lanes carries seven
eighths (R390). -/
def hopLimit (s : State) : Hop → Nat
  | .banks _ => 5004
  | .portOut _ => 625
  | .portIn _ => 625
  | .dieOut _ _ => 950
  | .dieIn _ _ => 950
  | .channels _ => 1024
  | .link p _ => if (linkOf s p).lanes.length = 7 then 87 else 100
  | .pcie _ => 59
  | .cellT0 _ _ => 160
  | .engine _ => 160

/-- Rate reserved at a hop by accepted transfers. -/
def hopUsed (s : State) (h : Hop) : Nat :=
  ((s.transfers.filter (·.accepted)).flatMap fun x => (x.hops.filter fun e => e.1 == h).map (·.2)).sum

/-- The physical region serves a logical region that is fenced (R37). -/
def physFenced (s : State) (p : Nat) : Bool :=
  s.logs.any fun e => e.2.exchange.isSome && physOfLogical s e.1 == some p

/-- A channel of a stack has come to its growth floor: writes to it wait (R364). -/
def stackAtFloor (s : State) (stack : Nat) : Bool :=
  (List.range 32).any fun ch => decide (channelFree s stack ch < 16384)

/-- A hop that takes new transfers: a link port that is up and does not drain (R388, R390), a region that is not fenced
(R37) and not below 0.60 V (R43). -/
def hopOpen (s : State) : Hop → Bool
  | .link p out =>
    let l := linkOf s p
    l.up && !l.draining && !l.withdrawing && !(l.rateBlocked && decide (87 < hopUsed s (.link p out)))
  | .banks p => !physFenced s p && !railLow s p
  | .portIn p => !physFenced s p && !railLow s p
  | .portOut p => !physFenced s p && !railLow s p
  | .cellT0 L pos => !fencedAt s (t0Addr L pos 0) && (match physOfLogical s L with
    | some p => !railLow s p
    | none => true)
  | _ => true

/-- Room for a rate at a hop. -/
def hopRoom (s : State) (e : Hop × Nat) : Bool := hopOpen s e.1 && decide (hopUsed s e.1 + e.2 ≤ hopLimit s e.1)

/-- A pool tag for the data requests of a transfer, when its unit's region has one, and none of the banks or channels that it
covers stands at its cap (R348, R349). -/
def xferTag (s : State) (x : Transfer) : Bool :=
  (match useRegion x.purpose with
    | some L => decide (poolTags s L < 24576)
    | none => true) &&
    (decide (s.requests.length + s.transfers.length + (s.links.flatMap fun e => e.2.inbox).length < 2048) ||
      x.hops.all fun e => match e.1 with
        | .channels k => (List.range 32).all fun c => decide (capCount s (.channel k c false) < 2048)
        | .banks p => (List.range 256).all fun b => decide (capCount s (.bank p b) < 2048)
        | _ => true)

/-- A stack that the transfer writes to, when it writes to T2. -/
def floorWait (s : State) (x : Transfer) : Bool :=
  match x.intoStack with
  | some k => stackAtFloor s k
  | none => false

/-- A Reel job of a paused context is not accepted (R196). -/
def pausedReel (s : State) (x : Transfer) : Bool :=
  match x.purpose, x.ctx with
  | .reel _ _, some c => (ctxOf s c).state == .paused
  | _, _ => false

/-- What holds a transfer apart from rates: a tag, a channel at its growth floor, the pause of its context. -/
def xferHeld (s : State) (x : Transfer) : Bool := !xferTag s x || floorWait s x || pausedReel s x

/-- Room for a transfer at a hop; the copy of a migration passes the fence (R442). -/
def hopFree (s : State) (x : Transfer) (e : Hop × Nat) : Bool :=
  match x.purpose with
  | .migration _ => decide (hopUsed s e.1 + e.2 ≤ hopLimit s e.1)
  | _ => hopRoom s e

/-- Where a waiting transfer queues, when earlier ones queue at `l`: at each hop where it lacks room or where one of those
waits, and at no other (R58). One that waits nowhere is accepted first. -/
def xferQueues (s : State) (l : List Hop) (y : Transfer) : List Hop :=
  let here := (y.hops.filter fun e => !hopFree s y e || l.contains e.1).map (·.1)
  if here = [] then y.hops.map (·.1) else here

/-- The hops at which the transfers that came before one queue, in the order in which they arrived. -/
def hopsQueued (s : State) (id : Nat) : List Hop :=
  (s.transfers.filter fun y => !y.accepted && decide (y.id < id) && !xferHeld s y).foldl (fun l y => l ++ xferQueues s l y) []

/-- Every hop has room, and no earlier transfer queues at one of them (R53, R58). -/
def canReserve (s : State) (x : Transfer) : Bool :=
  !s.hold && x.hops.all (hopFree s x) && !xferHeld s x && x.hops.all fun e => !(hopsQueued s x.id).contains e.1

/-- One hop once; the rates that a path needs there joined by `f`. -/
def joinHops (f : Nat → Nat → Nat) : List (Hop × Nat) → List (Hop × Nat)
  | [] => []
  | e :: r =>
    let t := joinHops f r
    match t.find? fun d => d.1 == e.1 with
    | some d => (e.1, f e.2 d.2) :: t.filter fun d => d.1 != e.1
    | none => e :: t

/-- The hops of one stream that comes from, or goes to, several places in turn: its rate once at each. -/
def mergeHops (l : List (Hop × Nat)) : List (Hop × Nat) := joinHops Nat.max l

/-- The hops of a transfer: what it reads and what it writes at a hop, together (R173). -/
def sumHops (l : List (Hop × Nat)) : List (Hop × Nat) := joinHops (· + ·) l

/-- Every hop of a list at one rate. -/
def atRate (r : Nat) (l : List Hop) : List (Hop × Nat) := l.map fun h => (h, r)

/-- A rate through a link die, over its five Bridle ports (R21; log entry 117). -/
def dieHops (f : Nat → Hop) (r : Nat) : List (Hop × Nat) := (List.range 5).map fun p => (f p, ceilDiv r 5)

/-- The hops through a link die: out of it toward a compute die, or into it. -/
def throughDie (into : Bool) (die r : Nat) : List (Hop × Nat) :=
  dieHops (if into then Hop.dieIn die else Hop.dieOut die) r

/-- The link hops toward or from the peer of an address: over the double link half the rate on each link while both are up
(R393). A reserved rate is one of operation bytes, headers included (R388). -/
def peerHops (s : State) (into : Bool) (a r : Nat) : List (Hop × Nat) :=
  match peerPort s (bits a 50 48) 0 with
  | some p =>
    if p = 3 ∧ portUp s 3 ∧ portUp s 7 then
      let h := ceilDiv r 2
      (.link 3 into, h) :: (.link 7 into, h) :: (throughDie into (portDie 3) h ++ throughDie into (portDie 7) h)
    else (.link p into, r) :: throughDie into (portDie p) r
  | none => []

/-- The hops from a device address into a physical region, at a rate; T1 and T0 of the region itself are on no Bridle port. -/
def readHops (s : State) (own a r : Nat) : List (Hop × Nat) :=
  let far := physAt s (addrRegion a)
  let between := if far = own then [] else [(Hop.portIn own, r), (.portOut far, r)]
  match spaceOf a with
  | 0 => (.portIn own, r) :: (.channels (addrStack a), r) :: throughDie false (stackDie (addrStack a)) r
  | 1 => (.banks far, r) :: between
  | 2 => (.cellT0 (addrRegion a) (addrCell a), r) :: between
  | 4 => (.portIn own, r) :: peerHops s false a r
  | _ => (.portIn own, r) :: (.pcie (hostPort s a), r) :: throughDie false (2 * hostPort s a) r

/-- The hops from a physical region to a device address, at a rate. -/
def writeHops (s : State) (own a r : Nat) : List (Hop × Nat) :=
  let far := physAt s (addrRegion a)
  let between := if far = own then [] else [(Hop.portOut own, r), (.portIn far, r)]
  match spaceOf a with
  | 0 => (.portOut own, r) :: (.channels (addrStack a), r) :: throughDie true (stackDie (addrStack a)) r
  | 1 => (.banks far, r) :: between
  | 2 => (.cellT0 (addrRegion a) (addrCell a), r) :: between
  | 4 => (.portOut own, r) :: peerHops s true a r
  | _ => (.portOut own, r) :: (.pcie (hostPort s a), r) :: throughDie true (2 * hostPort s a) r

def findTransfer (s : State) (u : XferUse) : Option Transfer := s.transfers.find? fun x => x.purpose == u

/-- The stack of a T2 address. -/
def stackAt (a : Nat) : Option Nat := if spaceOf a = 0 then some (addrStack a) else none

/-- A transfer asks for its rates: it joins those that wait, in order of arrival; while it waits, its hops follow what its
job reads now (R173). `c` is the context it works for, `into` the stack it writes to. -/
def askTransfer (s : State) (u : XferUse) (c into : Option Nat) (hops : List (Hop × Nat)) : State :=
  match findTransfer s u with
  | some x =>
    if x.accepted then s
    else
      { s with
        transfers := s.transfers.map fun y => if y.id = x.id then { y with hops := sumHops hops, intoStack := into } else y }
  | none =>
    { s with
      transfers := s.transfers ++
        [{ id := s.nextXfer, purpose := u, ctx := c, hops := sumHops hops, intoStack := into, accepted := false, tAccept := 0 }]
      nextXfer := s.nextXfer + 1 }

/-- A waiting transfer reserves its rates if it can (R58). -/
def tryTransfer (s : State) (x : Transfer) : State :=
  if !x.accepted ∧ canReserve s x then
    { s with transfers := s.transfers.map fun y => if y.id = x.id then { y with accepted := true, tAccept := now s } else y }
  else s

/-- A transfer asks and reserves at once where it can. -/
def reserveRates (s : State) (u : XferUse) (c into : Option Nat) (hops : List (Hop × Nat)) : State :=
  let s := askTransfer s u c into hops
  match findTransfer s u with
  | some x => tryTransfer s x
  | none => s

/-- The instant at which a transfer was accepted, if it has been. -/
def ratesSince (s : State) (u : XferUse) : Option Nat :=
  match findTransfer s u with
  | some x => if x.accepted then some x.tAccept else none
  | none => none

/-- A transfer ends: its rates are free. -/
def endTransfer (s : State) (u : XferUse) : State :=
  { s with transfers := s.transfers.filter fun x => x.purpose != u }

end Sys2Proof.Machine
end

