-- ==== Sys2Proof/Machine/Owners.lean ====
section
/-! DEFINITION. Tables at their owners (07 R199 to R202, R211 to R218): pins, the owner directory, where a row lies, how an
owner serves a batch, the sketch, and the handover of a row. -/

namespace Sys2Proof.Machine

open Sys2Proof

/-! ### Table descriptors -/

def TableDesc.grad (d : TableDesc) : Bool := bitOf d.tflags 2
def TableDesc.frozen (d : TableDesc) : Bool := bitOf d.tflags 3
def TableDesc.loft (d : TableDesc) : Nat := d.tflags % 4

/-- Bytes of a packed row. -/
def TableDesc.packed (d : TableDesc) : Nat := ceilDiv (d.rowElems * elemBits d.format) 8

/-! ### Where a row lies (R200, R214) -/

/-- A place of a row: its owner, and the migration slot, or none at home. -/
abbrev RowPlace := Nat × Option Nat

def homeShard (v : TableVersion) (r : Nat) : ShardEntry := v.shards.getD (r / v.desc.rps) default

/-- The owner of a row's home. -/
def homeOwner (v : TableVersion) (r : Nat) : Nat := (homeShard v r).device * 16 + (homeShard v r).region

/-- Home address of a row, and of its accumulator (R200, Table 7.2). -/
def homeAddr (v : TableVersion) (r : Nat) : Nat := (homeShard v r).base + (r - r / v.desc.rps * v.desc.rps) * v.desc.rowBytes

def homeAcc (v : TableVersion) (r : Nat) : Nat :=
  (homeShard v r).accBase + (r - r / v.desc.rps * v.desc.rps) * (v.desc.rowElems * 4)

/-- route(V, r, E) of R214. -/
def route (T : TableState) (v : TableVersion) (r E : Nat) : RowPlace :=
  match mget? T.dir r with
  | none => (homeOwner v r, none)
  | some e =>
    if epochLe e.epoch E then (if e.away then (e.owner, some e.slot) else (homeOwner v r, none))
    else (if e.prevAway then (e.prevOwner, some e.prevSlot) else (homeOwner v r, none))

/-- Where a row lies under the directory as it stands. -/
def placeNow (T : TableState) (v : TableVersion) (r : Nat) : RowPlace := route T v r T.epoch

/-- The T2 address of a row at a place, on the device of its owner: its home, or a slot of the migration area (R200). -/
def rowAddr (v : TableVersion) (r : Nat) (p : RowPlace) : Nat :=
  match p.2 with
  | some k => (mget (0, 0) v.mig p.1).1 + k * v.desc.rowBytes
  | none => homeAddr v r

/-- The T2 address of the accumulator of a row at a place. -/
def rowAcc (v : TableVersion) (r : Nat) (p : RowPlace) : Nat :=
  match p.2 with
  | some k => (mget (0, 0) v.mig p.1).2 + k * (v.desc.rowElems * 4)
  | none => homeAcc v r

/-- The packed bytes of a row at a place of this device. -/
def readRow (s : State) (v : TableVersion) (r : Nat) (p : RowPlace) : List Byte := devRead s (rowAddr v r p) v.desc.packed

/-- Where reading a row meets poison (R501). -/
def rowPoison (s : State) (v : TableVersion) (r : Nat) (p : RowPlace) : Option Nat :=
  devPoison s (rowAddr v r p) v.desc.packed

/-- Writes the packed bytes of a row at its place. -/
def writeRow (s : State) (t : Nat) (v : TableVersion) (r : Nat) (p : RowPlace) (bs : List Byte) : State :=
  devWrite s (tableOf s t).fn (rowAddr v r p) bs

/-- 32-bit words added modulo 2^32. -/
def addWords (a b : List Byte) (n : Nat) : List Byte :=
  (List.range n).flatMap fun i => leBytes 4 ((fieldAt a (4 * i) 4 + fieldAt b (4 * i) 4) % 2 ^ 32)

/-- Adds merged values into the accumulator of a row (R207). -/
def addRow (s : State) (t : Nat) (v : TableVersion) (r : Nat) (p : RowPlace) (bs : List Byte) : State :=
  let n := v.desc.rowElems
  devWrite s (tableOf s t).fn (rowAcc v r p) (addWords (devRead s (rowAcc v r p) (4 * n)) bs n)

/-! ### The sketch and the load counters (R217) -/

/-- Space-Saving: a served row takes or raises an entry of 1,024. -/
def sketchAdd (t r : Nat) (l : List SketchEntry) : List SketchEntry :=
  if l.any fun e => e.table == t && e.row == r then
    l.map fun e => if e.table = t ∧ e.row = r then { e with count := e.count + 1 } else e
  else if l.length < 1024 then l ++ [{ row := r, table := t, count := 1, error := 0 }]
  else
    let m := l.foldl (fun a e => Nat.min a e.count) ((l.headD default).count)
    match l.findIdx? fun e => e.count == m with
    | some i => l.set i { row := r, table := t, count := m + 1, error := m }
    | none => l

/-- A row has been served by a region. -/
def countServed (s : State) (L t r : Nat) : State :=
  modPhys s ((physOfLogical s L).getD 0xFF) fun p =>
    { p with sketch := sketchAdd t r p.sketch,
             shardLoad := mmod (0, 0) p.shardLoad t fun x => ((x.1 + 1) % 2 ^ 40, x.2) }

/-- A request has been forwarded by a region. -/
def countForward (s : State) (L t : Nat) : State :=
  modPhys s ((physOfLogical s L).getD 0xFF) fun p =>
    { p with shardLoad := mmod (0, 0) p.shardLoad t fun x => (x.1, satAdd 0xFFFF x.2 1) }

/-! ### Serving a batch (R211, R212, R215) -/

/-- A device address of a requester as this device names it (R343). -/
def seenFrom (s : State) (dev a : Nat) : Nat :=
  if spaceOf a = 4 then (if bits a 50 48 = s.part.device then bits a 47 44 * 2 ^ 52 + bits a 40 0 else a)
  else if dev = s.part.device then a else peerAddr dev (spaceOf a) (a % 2 ^ 41)

/-- What becomes of one entry of a batch at an owner: served where the row lies, forwarded, or held for a copy. -/
inductive EntryFate where
  | serve (p : RowPlace)
  | forward (owner : Nat)
  | hold
  deriving DecidableEq, Repr, Inhabited

/-- R215: after a handover the old owner forwards, once; the new owner holds until its copy is written. -/
def entryFate (s : State) (L : Nat) (b : OwnerBatch) (v : TableVersion) (r : Nat) : EntryFate :=
  let T := tableOf s b.hdr.table
  let p := placeNow T v r
  if p.1 ≠ ownCode s L ∧ !b.hdr.fwd then .forward p.1
  else if T.handovers.any fun h => h.row == r && !h.copied && h.newOwner == ownCode s L then .hold
  else .serve p

/-- The context of a batch that this device's own engine sent. -/
def batchCtx (s : State) (b : OwnerBatch) : Option Nat :=
  if b.hdr.source / 16 = s.part.device then
    ((regionOf s (b.hdr.source % 16)).gatherJobs.find? fun j => j.tag == b.hdr.job).map (·.ctx)
  else none

/-- Reading a poisoned row is poison consumed by the requester's context (R501). -/
def servePoison (s : State) (b : OwnerBatch) (v : TableVersion) (r : Nat) (p : RowPlace) : State :=
  match rowPoison s v r p, batchCtx s b with
  | some a, some c => poisonEvent s c a
  | _, _ => s

/-- The requesting engine of this device receives a row for its first position (R208). -/
def noteFetched (s : State) (b : OwnerBatch) (dest : Nat) (bs : List Byte) : State :=
  if b.hdr.source / 16 = s.part.device then
    modRegion s (b.hdr.source % 16) fun R =>
      { R with gatherJobs := R.gatherJobs.map fun j =>
          if j.tag = b.hdr.job then { j with fetched := mset j.fetched dest bs } else j }
  else s

/-- A write of an engine at a device address: to a peer as an acknowledged operation, discarded when the peer cannot be reached
(R396). -/
def engineStore (s : State) (o : Origin) (fn : Nat) (c : Option Nat) (a : Nat) (bs : List Byte) : State :=
  if spaceOf a = 4 then (if peerGone s a then s else remoteStore s (c.getD 0xFF) o a bs (bs.length / 65536 + 1))
  else devWrite (countAccess s (originPhys s o) c a bs.length) fn a bs

/-- A write by an owner's engine. -/
def ownerStore (s : State) (L fn : Nat) (c : Option Nat) (a : Nat) (bs : List Byte) : State :=
  engineStore s (.owner L fn) fn c a bs

/-- Serves one entry (R207, R212); `o` is the engine that serves it, as an owner or for its own job. -/
def serveEntry (s : State) (o : Origin) (L : Nat) (b : OwnerBatch) (v : TableVersion) (e : Nat × Nat) (payload : List Byte)
    (p : RowPlace) : State :=
  let t := b.hdr.table
  let c := batchCtx s b
  let s := countServed s L t e.1
  match b.hdr.op with
  | 1 =>
    let s := countAccess (servePoison s b v e.1 p) ((physOfLogical s L).getD 0xFF) c (rowAddr v e.1 p) v.desc.packed
    let bs := readRow s v e.1 p
    engineStore (noteFetched s b e.2 bs) o (tableOf s t).fn c
      (seenFrom s (b.hdr.source / 16) (b.hdr.reply + e.2 * b.hdr.dstride)) bs
  | 2 => addRow s t v e.1 p payload
  | _ => writeRow s t v e.1 p (payload.take v.desc.packed)

/-- The batch with one entry of another, marked as forwarded or not. -/
def oneEntry (b : OwnerBatch) (fwd : Bool) (e : Nat × Nat) (payload : List Byte) (arrive : Nat) : OwnerBatch :=
  { hdr := { b.hdr with fwd := fwd, arrive := arrive }, entries := [e], payload := if payload = [] then [] else [payload] }

/-- The bytes of a batch (R211, Table 7.6). -/
def batchBytes (b : OwnerBatch) : List Byte :=
  leBytes 1 b.hdr.op ++ leBytes 1 b.hdr.table ++ leBytes 2 b.entries.length ++ leBytes 4 b.hdr.version ++
    leBytes 2 b.hdr.epoch ++ leBytes 1 (b.hdr.source % 128 + 128 * b2n b.hdr.fwd) ++ [0] ++ leBytes 4 b.hdr.job ++
    leBytes 8 b.hdr.reply ++ leBytes 4 b.hdr.dstride ++ leBytes 4 0 ++ leBytes 8 b.hdr.arrive ++
    List.replicate 24 0 ++ (b.entries.flatMap fun e => leBytes 8 (e.1 + e.2 * 2 ^ 40)) ++ b.payload.flatten

/-- The T1 address of a place of 64 KiB of a region's inbox, in units 252 and 253 (R212, R351). -/
def inboxAddr (L k : Nat) : Nat := t1Addr L (252 * 2097152 + k % 64 * 65536)

/-- The arrival word of a job, outside what the firmware's reservations and the windows of contexts reach (log entry 20). -/
def arrivalWord (L tag : Nat) : Nat := t0Addr L 0xFF (tag % 262144 * 4)

/-- 1 is added at ARRIVE, when the batch carries one, after the writes that it follows (R212, log entry 20). -/
def arriveAdd (s : State) (L : Nat) (b : OwnerBatch) (after : List Nat) : State :=
  let a := seenFrom s (b.hdr.source / 16) b.hdr.arrive
  let fn := (tableOf s b.hdr.table).fn
  let r := { newRequest s ((batchCtx s b).getD 0xFF) (.owner L fn) (.atomic 0 false 1 0 none) 0 a true after with
             stage := .accepted, accepted := now s, start := now s }
  if b.hdr.arrive = 0 then s
  else if after ≠ [] then addRequest s r
  else if spaceOf a = 4 then (if peerGone s a then s else performed (peerOp (addRequest s r) r) r [] none)
  else (devAtomic s fn a 0 1 0).2

/-- A batch of a job of this device: the job counts the parts that an owner splits from it, each with an ARRIVE of its own (R212,
log entry 20). -/
def countPart (s : State) (b : OwnerBatch) : State :=
  if b.hdr.source / 16 = s.part.device then
    modRegion s (b.hdr.source % 16) fun R =>
      { R with gatherJobs := R.gatherJobs.map fun j => if j.tag = b.hdr.job then { j with batches := j.batches + 1 } else j }
  else s

/-- ARRIVE of a part that is split from a batch: its own for a job of this device; of a peer's batch only the last carries it on (log
entry 20). -/
def partArrive (s : State) (b : OwnerBatch) (lastOne : Bool) : Nat :=
  if b.hdr.source / 16 = s.part.device ∨ lastOne then b.hdr.arrive else 0

/-- Serves the entries of a batch in order: the state, and whether the ARRIVE of the batch has gone on with a part of it. -/
def serveEntries (o : Origin) (L : Nat) (b : OwnerBatch) (v : TableVersion) :
    List ((Nat × Nat) × List Byte) → Bool → State → Bool × State
  | [], gone, s => (gone, s)
  | (e, payload) :: rest, gone, s =>
    let here := b.hdr.source / 16 == s.part.device
    let restServed := rest.all fun x => match entryFate s L b v x.1.1 with
      | .serve _ => true
      | _ => false
    let arrive := partArrive s b restServed
    match entryFate s L b v e.1 with
    | .serve p => serveEntries o L b v rest gone (serveEntry s o L b v e payload p)
    | .forward w =>
      serveEntries o L b v rest (gone || !here)
        (modRegion (countForward (countPart s b) L b.hdr.table) L fun R =>
          { R with forwards := R.forwards ++ [(w, oneEntry b true e payload arrive)] })
    | .hold =>
      serveEntries o L b v rest (gone || !here)
        (modTable (countPart s b) b.hdr.table fun T =>
          { T with handovers := T.handovers.map fun h =>
              if h.row = e.1 ∧ !h.copied ∧ h.newOwner = ownCode s L then
                { h with held := h.held ++ [(L, oneEntry b b.hdr.fwd e payload arrive)] }
              else h })

/-- The entries of a batch with their payload rows. -/
def batchRows (b : OwnerBatch) : List ((Nat × Nat) × List Byte) :=
  b.entries.zipIdx.map fun (e, i) => (e, b.payload.getD i [])

/-- The writes of an owner's engine under way that are not older than a request number. -/
def writesSince (s : State) (L fn n : Nat) : List Nat := (unitWrites s (.owner L fn)).filter fun k => decide (n ≤ k)

/-- Serves a batch that stands in an inbox. A version that the owner no longer holds is a dynamic inconsistency of the
requester (R224). -/
def serveBatch (s : State) (L : Nat) (b : OwnerBatch) : State :=
  match findVersion s b.hdr.table b.hdr.version with
  | none =>
    let s := match batchCtx s b with
      | some c => undefinedEffect s c
      | none => s
    arriveAdd s L b []
  | some v =>
    let x := serveEntries (.owner L (tableOf s b.hdr.table).fn) L b v (batchRows b) false s
    if x.1 then x.2 else arriveAdd x.2 L b (writesSince x.2 L (tableOf s b.hdr.table).fn s.nextReq)

/-! ### Sending batches (R211, R212) -/

/-- A batch to an owner that cannot be reached (R396): the rows of a read come poisoned, adds and writes are discarded, and
the batch counts as served. -/
def lostBatch (s : State) (L owner : Nat) (b : OwnerBatch) : State :=
  let n := match findVersion s b.hdr.table b.hdr.version with
    | some v => v.desc.packed
    | none => 0
  let s := if b.hdr.op = 1 then
      b.entries.foldl (fun s e =>
        let a := seenFrom s (b.hdr.source / 16) (b.hdr.reply + e.2 * b.hdr.dstride)
        poisonOut (devWrite s (tableOf s b.hdr.table).fn a (List.replicate n 0)) a n) s
    else s
  let s := match batchCtx s b with
    | some c => peerLossEvent (if b.hdr.op = 1 then poisonEvent s c b.hdr.reply else s) c (owner / 16)
    | none => s
  arriveAdd s L b []

/-- The inbox of an owner as a resource: of a region of this device, or of one of a peer (R212, log entry 14). -/
def inboxOf (s : State) (owner : Nat) : Resource :=
  .gatherInbox (if owner / 16 = s.part.device then owner % 16 else 128 + owner)

/-- A batch leaves region L: within the device it is on its way to the owner's inbox; to a peer it is one remote write into
the place of the inbox that its credit stands for, which returns with the acknowledgement (R211; log entry 14). -/
def sendBatch (s : State) (L owner : Nat) (b : OwnerBatch) : State :=
  if owner / 16 = s.part.device then emit s (.batch owner b)
  else if !peerReachable s (owner / 16) then giveBack (lostBatch s L owner b) (inboxOf s owner) 1
  else
    let k := freshNat s
    remotePiece k.2 ((batchCtx s b).getD 0xFF) (if b.hdr.fwd then .owner L (tableOf s b.hdr.table).fn else .gather L b.hdr.job)
      (peerAddr (owner / 16) 1 (inboxAddr (owner % 16) k.1 % 2 ^ 41)) (batchBytes b) (batchBytes b) none [(inboxOf s owner, 1)]

/-- Region L holds a credit of 64 KiB of an owner's inbox, asking for one where it holds none (R54, R212). -/
def askInbox (s : State) (L owner : Nat) : State :=
  if 0 < available s (.region L) (inboxOf s owner) then s else askLending s (.region L) (inboxOf s owner) 1

/-- A batch may leave for an owner: it has a credit, and the owner's region is not fenced, but for the jobs of that region itself,
which complete there (R37, R212, R223). -/
def inboxFree (s : State) (L owner : Nat) : Bool :=
  decide (0 < available s (.region L) (inboxOf s owner)) &&
    !(owner / 16 == s.part.device && owner % 16 != L && (regionOf s (owner % 16)).exchange.isSome)

def takeInbox (s : State) (L owner : Nat) : State := reserve s (.region L, inboxOf s owner, 1)

/-- Sends what it can of a list of batches, in order: the state and those that still wait for an inbox credit. -/
def sendBatches (L : Nat) : List (Nat × OwnerBatch) → State → State × List (Nat × OwnerBatch)
  | [], s => (s, [])
  | (o, b) :: r, s =>
    let s := askInbox s L o
    if inboxFree s L o then sendBatches L r (sendBatch (takeInbox s L o) L o b)
    else
      let t := sendBatches L r s
      (t.1, (o, b) :: t.2)

/-- A region sends the entries that it forwards. -/
def sendForwards (s : State) (L : Nat) : State :=
  let r := sendBatches L (regionOf s L).forwards s
  modRegion r.1 L fun R => { R with forwards := r.2 }

/-- Every region sends the forwarded entries, and every accepted job the batches, for which credits have come free. -/
def sendWaiting (s : State) : State :=
  let s := (s.logs.map (·.1)).foldl sendForwards s
  (s.logs.flatMap fun e => e.2.gatherJobs.map fun j => (e.1, j.tag)).foldl (fun s x =>
    match (regionOf s x.1).gatherJobs.find? fun j => j.tag == x.2 with
    | some j =>
      let r := sendBatches x.1 j.toSend s
      modRegion r.1 x.1 fun R =>
        { R with gatherJobs := R.gatherJobs.map fun k => if k.tag = j.tag then { k with toSend := r.2 } else k }
    | none => s) s

/-- A batch leaves the way it was on. -/
def dropSent (s : State) (owner : Nat) (b : OwnerBatch) : State := { s with out := s.out.erase (.batch owner b) }

/-- The remote write of a batch into its place of the inbox (R211). -/
def storeBatch (s : State) (L : Nat) (b : OwnerBatch) : State :=
  modRegion (devWrite s (tableOf s b.hdr.table).fn (inboxAddr L (regionOf s L).inboxNext) (batchBytes b)) L fun R =>
    { R with inboxNext := R.inboxNext + 1 }

/-- OWNER_BATCH (R207, R211, R212, R215, R217, R224): a batch reaches an owner's inbox and is served. One that was not sent
within the device comes within a credit that the inbox has lent to a peer. -/
def execOwnerBatch (region : Nat) (b : OwnerBatch) (s : State) : Host.Outcome State Fault Refusal :=
  let here := s.out.contains (.batch (ownCode s region) b)
  if regionLost s region ∨ b.hdr.op = 0 ∨ 3 < b.hdr.op ∨
      (!here ∧ (destOf s (.gatherInbox region)).free = 0) then notNow s
  else
    let s := storeBatch (dropSent s (ownCode s region) b) region b
    let s := serveBatch s region b
    let s := if here then giveBack s (.gatherInbox region) 1 else s
    .next (sendWaiting s)

/-! ### Moving a row (R213 to R218) -/

/-- Entry of the directory after a move. -/
def movedEntry (T : TableState) (m : StagedMove) (epoch : Nat) : DirEntry :=
  match mget? T.dir m.row with
  | some e => { epoch := epoch, away := true, prevAway := e.away, owner := m.newOwner, prevOwner := e.owner,
                slot := m.newSlot, prevSlot := e.slot }
  | none => { epoch := epoch, away := true, prevAway := false, owner := m.newOwner, prevOwner := 0, slot := m.newSlot,
              prevSlot := 0 }

/-- The owner of a row now, by its current version. -/
def ownerNow (s : State) (t r : Nat) : Nat :=
  let T := tableOf s t
  match findVersion s t T.current with
  | some v => (placeNow T v r).1
  | none => 0

/-- The place a row had before its present entry. -/
def placeBefore (T : TableState) (v : TableVersion) (r : Nat) : RowPlace :=
  match mget? T.dir r with
  | some e => if e.prevAway then (e.prevOwner, some e.prevSlot) else (homeOwner v r, none)
  | none => (homeOwner v r, none)

/-- The pins on a table that a handover looks at: none on any device lies 32,768 or more epochs behind (R214). -/
def pinsRecent (s : State) (t : Nat) : Bool :=
  let T := tableOf s t
  (pinsOf s t).all (fun p => match p.2 with
    | some e => decide ((T.epoch + 65536 - e % 65536) % 65536 < 32768)
    | none => true) && (T.versions.all (allHere s) || Config.peersRecent s.freeCounter t T.epoch)

/-- The old owner of this device sends a row, with its accumulator under GRAD, to its new owner on a peer (R215). -/
def sendCopy (s : State) (t r : Nat) (v : TableVersion) : State :=
  let T := tableOf s t
  let p := placeBefore T v r
  let q := placeNow T v r
  let at_ := fun a : Nat => peerAddr (q.1 / 16) 0 (a % 2 ^ 41)
  if p.1 / 16 ≠ s.part.device ∨ q.1 / 16 = s.part.device then s
  else
    let s := ownerStore s (p.1 % 16) T.fn none (at_ (rowAddr v r q)) (devRead s (rowAddr v r p) v.desc.rowBytes)
    if v.desc.grad then
      ownerStore s (p.1 % 16) T.fn none (at_ (rowAcc v r q)) (devRead s (rowAcc v r p) (v.desc.rowElems * 4))
    else s

/-- The copy of a row is one transfer, accepted at H. No rate is stated for it (log entry 131). -/
def startCopy (s : State) (t r : Nat) : State :=
  let T := tableOf s t
  let s := { s with
    transfers := s.transfers ++ [{ id := s.nextXfer, purpose := .handover t r, ctx := none, hops := [], intoStack := none,
                                   accepted := true, tAccept := now s }]
    nextXfer := s.nextXfer + 1 }
  T.versions.foldl (fun s v => sendCopy s t r v) s

/-- ROW_HANDOVER (R213 to R215): at boundary H every move of the table that is due applies; the directory epoch advances by
one, and the old owners start to copy. -/
def execRowHandover (table row : Nat) (s : State) : Host.Outcome State Fault Refusal :=
  let T := tableOf s table
  match T.moves.find? fun m => m.row == row with
  | none => notNow s
  | some m0 =>
    if now s < m0.boundary ∨ !isBoundary (now s) ∨ !pinsRecent s table then notNow s
    else
      let e := (T.epoch + 1) % 65536
      let ms := T.moves.filter fun m => decide (m.boundary ≤ now s)
      let t := modTable s table fun x =>
        { x with
          epoch := e
          dir := ms.foldl (fun d m => mset d m.row (movedEntry x m e)) x.dir
          moves := x.moves.filter fun m => !decide (m.boundary ≤ now s)
          handovers := x.handovers ++ ms.map fun m =>
            { row := m.row, epoch := e, oldOwner := ownerNow s table m.row, newOwner := m.newOwner, tAccept := now s,
              copied := false, held := [] } }
      .next (ms.foldl (fun s m => startCopy s table m.row) t)

/-- One version of a handed-over row, and its accumulator under GRAD, reaches its slot on this device: moved from the old
place here, or brought by a peer; `i` numbers the version. -/
def writeCopy (s : State) (t r : Nat) (rowData accData : List Byte) (v : TableVersion) (i : Nat) : State :=
  let T := tableOf s t
  let p := placeBefore T v r
  let q := placeNow T v r
  let n := v.desc.rowBytes
  let k := v.desc.rowElems * 4
  if q.1 / 16 ≠ s.part.device then s
  else if p.1 / 16 = s.part.device then
    let s := devMove s T.fn (rowAddr v r p) (rowAddr v r q) n
    if v.desc.grad then devMove s T.fn (rowAcc v r p) (rowAcc v r q) k else s
  else
    let s := devWrite s T.fn (rowAddr v r q) (fit n (rowData.drop (i * n)))
    if v.desc.grad then devWrite s T.fn (rowAcc v r q) (fit k (accData.drop (i * k))) else s

/-- The copies of every live version of a row. -/
def writeCopies (s : State) (t r : Nat) (rowData accData : List Byte) : State :=
  (tableOf s t).versions.zipIdx.foldl (fun s (v, i) => writeCopy s t r rowData accData v i) s

/-- The promise of a copy, judged on the device of its old owner (R215, Table 2.4): to a peer 3,000 ns, within the device the
time of a T2 access (log entry 131). -/
def judgeCopy (s : State) (h : Handover) : State :=
  let far := h.newOwner / 16 ≠ s.part.device
  if h.oldOwner / 16 = s.part.device ∧ h.tAccept + (if far then 3000 else 1500) < now s then
    promiseMiss s ((physOfLogical s (h.oldOwner % 16)).getD 0xFF) 0xFF (if far then 9 else 8)
  else s

/-- The old owner's writes of a copy to a peer are still to be acknowledged. -/
def copyUnderWay (s : State) (t : Nat) (h : Handover) : Bool :=
  h.oldOwner / 16 == s.part.device && unitWrites s (.owner (h.oldOwner % 16) (tableOf s t).fn) != []

/-- A version that is published while the directory has moved rows away: each such row comes from its home to its slot at once,
so that routing gives its bytes (DESIGN CHOICE: R216 has a move change no result byte, and no rule fills the migration area of a
later version; log entry 154). -/
def fillMoved (s : State) (t : Nat) (v : TableVersion) : State :=
  let T := tableOf s t
  T.dir.foldl (fun s e =>
    let q := placeNow T v e.1
    let home : RowPlace := (homeOwner v e.1, none)
    let move := fun (s : State) (a b n : Nat) =>
      if q.1 / 16 = s.part.device then devMove s T.fn a b n
      else ownerStore s (home.1 % 16) T.fn none (peerAddr (q.1 / 16) 0 (b % 2 ^ 41)) (devRead s a n)
    if q.2.isNone ∨ home.1 / 16 ≠ s.part.device then s
    else
      let s := move s (rowAddr v e.1 home) (rowAddr v e.1 q) v.desc.rowBytes
      if v.desc.grad then move s (rowAcc v e.1 home) (rowAcc v e.1 q) (v.desc.rowElems * 4) else s) s

/-- HANDOVER_COPY_DONE (R215): the copy is written, and the new owner serves what it held, in order. -/
def execHandoverCopyDone (table row : Nat) (rowData accData : List Byte) (s : State) : Host.Outcome State Fault Refusal :=
  match (tableOf s table).handovers.find? fun h => h.row == row && !h.copied with
  | none => notNow s
  | some h =>
    if copyUnderWay s table h then notNow s
    else
      let s := judgeCopy (endTransfer (writeCopies s table row rowData accData) (.handover table row)) h
      let s := modTable s table fun T =>
        { T with handovers := T.handovers.map fun x => if x.row = row ∧ !x.copied then { x with copied := true, held := [] } else x }
      .next (sendWaiting (h.held.foldl (fun s x => serveBatch s x.1 x.2) s))

/-- FORWARD_ENTRY_FREE (R215): no pin on any device holds an older epoch; the old slot is free. -/
def execForwardEntryFree (table row : Nat) (peersClear : Bool) (s : State) : Host.Outcome State Fault Refusal :=
  match (tableOf s table).handovers.find? fun h => h.row == row && h.copied with
  | none => notNow s
  | some h =>
    if !peersClear ∨ !noOlderPin s table h.epoch then notNow s
    else
      .next (modTable s table fun T =>
        { T with handovers := T.handovers.filter fun x => !(x.row == row && x.epoch == h.epoch) })

/-- A migration slot that no row holds, is moving to, or has yet to leave. -/
def slotFree (T : TableState) (owner slot : Nat) : Bool :=
  (T.dir.all fun e => !(e.2.away && e.2.owner == owner && e.2.slot == slot)) &&
    (T.moves.all fun m => !(m.newOwner == owner && m.newSlot == slot)) &&
    (T.handovers.all fun h => match mget? T.dir h.row with
      | some e => !(e.prevAway && e.prevOwner == owner && e.prevSlot == slot)
      | none => true)

/-- The boundary H of a move staged now (R215). -/
def moveBoundary (t : Nat) : Nat := boundaryAt (t + 1048576)

/-- No pin on any device holds an epoch older than that of a directory entry (R214). -/
def noOlderAnywhere (s : State) (t e : Nat) : Bool :=
  noOlderPin s t e && ((tableOf s t).versions.all (allHere s) || Config.peersNoOlder s.freeCounter t e)

/-- Entries of the directory, with those that staged moves will add (R213). -/
def dirCount (T : TableState) : Nat :=
  T.dir.length + (T.moves.filter fun m => (mget? T.dir m.row).isNone).length

/-- A move that the balancer may stage (R213, R214, R218): the row is reported by a sketch of its owner, the new owner is an
owner region of the table, the slot is free and every live version holds it, the directory has room, and no pin holds an epoch older than the row's entry. -/
def moveOk (s : State) (m : RowMove) : Bool :=
  let T := tableOf s m.table
  match findVersion s m.table T.current with
  | none => false
  | some v =>
    let o := ownerNow s m.table m.row
    let reported := o / 16 != s.part.device ||
      (match physOfLogical s (o % 16) with
       | some p => (physOf s p).sketch.any fun e => e.table == m.table && e.row == m.row
       | none => false)
    reported && decide (m.row < v.desc.rows) && T.versions.all (fun w => decide (m.newSlot < w.desc.migSlots)) && slotFree T m.newOwner m.newSlot &&
      o != m.newOwner && (T.moves.all fun x => x.row != m.row) && (T.handovers.all fun h => h.row != m.row) &&
      decide ((T.moves.filter fun x => x.boundary == moveBoundary (now s)).length < 4096) &&
      ((mget? T.dir m.row).isSome || decide (dirCount T < Nat.min 65536 (v.desc.migSlots * v.desc.shards))) &&
      (v.shards.any fun x => x.device * 16 + x.region == m.newOwner) &&
      (match mget? T.dir m.row with
       | some e => noOlderAnywhere s m.table e.epoch
       | none => true)

/-- Stages one move of the balancer's choice, if the rules allow it. -/
def stageMove (s : State) (m : RowMove) : State :=
  if moveOk s m then
    modTable s m.table fun T =>
      { T with moves := T.moves ++ [{ row := m.row, newOwner := m.newOwner, newSlot := m.newSlot, boundary := moveBoundary (now s) }] }
  else s

/-- BALANCER_READ (R217, R218): moves are staged, and reading clears the sketches and the load registers. -/
def execBalancerRead (moves : List RowMove) (s : State) : Host.Outcome State Fault Refusal :=
  let due := match mget? s.lastEvent (0x217, 0) with
    | some t => decide (t + 100000000 ≤ now s)
    | none => true
  if !due ∨ s.hold then notNow s
  else
    let s := moves.foldl stageMove s
    .next { s with
      phys := s.phys.map fun e => (e.1, { e.2 with sketch := [], shardLoad := [] })
      lastEvent := mset s.lastEvent (0x217, 0) (now s) }

end Sys2Proof.Machine
end

