-- ==== Sys2Proof/Machine/Sampler.lean ====
section
/-! DEFINITION. What a Reel computes (06 R174 to R191): bounds, draws, selection, walks, expansion order and the bytes of a
frame, as functions of a job descriptor, a graph descriptor and a reader of memory. -/

namespace Sys2Proof.Machine

open Sys2Proof

/-! ### Records (Tables 6.3 to 6.5) -/

def readReelDesc (r : List Byte) : ReelDesc :=
  { hops := fieldAt r 0 1, flags := fieldAt r 1 1, seeds := fieldAt r 4 4, seedList := fieldAt r 8 8,
    jobSeed := BitVec.ofNat 64 (fieldAt r 0x10 8), step := fieldAt r 0x18 8, graph := fieldAt r 0x20 8,
    frame := fieldAt r 0x28 8, frameMax := fieldAt r 0x30 4, token := BitVec.ofNat 64 (fieldAt r 0x38 8),
    done := fieldAt r 0x40 8, walkP := BitVec.ofNat 32 (fieldAt r 0x48 4), walkQ := BitVec.ofNat 32 (fieldAt r 0x4C 4),
    tries := fieldAt r 0x50 1,
    hop := (List.range (fieldAt r 0 1)).map fun h =>
      (bits (fieldAt r (0x60 + 4 * h) 4) 31 28, bits (fieldAt r (0x60 + 4 * h) 4) 10 0) }

def ReelDesc.eids (j : ReelDesc) : Bool := bitOf j.flags 0
def ReelDesc.walk (j : ReelDesc) : Bool := bitOf j.flags 1

/-- FP32 1.0. -/
def one32 : Word := 0x3F800000

/-- p and q are both 1. -/
def ReelDesc.plain (j : ReelDesc) : Bool := j.walkP == one32 && j.walkQ == one32

/-- Positive and finite. -/
def posFinite (w : Word) : Bool := decide (0 < w.toNat ∧ w.toNat < 0x7F800000)

/-- The fields of a job descriptor are in range (Tables 6.3, 6.4, R178). -/
def reelDescOk (r : List Byte) : Bool :=
  let j := readReelDesc r
  decide (1 ≤ j.hops ∧ j.hops ≤ 8) && decide (j.flags ≤ 3) && fieldAt r 2 2 == 0 &&
    decide (1 ≤ j.seeds ∧ j.seeds ≤ 4096) && decide (j.step < 2 ^ 40) && fieldAt r 0x34 4 == 0 &&
    fieldAt r 0x51 15 == 0 && tokKind j.token == 0 &&
    (List.range 8).all (fun h =>
      let e := fieldAt r (0x60 + 4 * h) 4
      if j.hops ≤ h then e == 0 else bits e 27 11 == 0 && decide (1 ≤ bits e 10 0 ∧ bits e 10 0 ≤ 1024)) &&
    (if j.walk then
      posFinite j.walkP && posFinite j.walkQ && decide (1 ≤ j.tries) &&
        (j.hop.all (fun e => e.1 == 5) || j.hop.all (fun e => e.1 == 6)) && (j.hop.drop 1).all (fun e => e.2 == 1)
     else j.plain && j.tries == 0 && j.hop.all (fun e => decide (e.1 ≤ 3)))

/-- A graph descriptor (Table 6.5). -/
structure GraphDesc where
  wide : Bool
  flags : Nat
  nodes : Nat
  offsets : Nat
  neigh : Nat
  weights : Nat
  alias_ : Nat
  edges : Nat
  deriving DecidableEq, Repr, Inhabited

def readGraph (r : List Byte) : GraphDesc :=
  { wide := fieldAt r 1 1 == 1, flags := fieldAt r 2 1, nodes := fieldAt r 8 8, offsets := fieldAt r 0x10 8,
    neigh := fieldAt r 0x18 8, weights := fieldAt r 0x20 8, alias_ := fieldAt r 0x28 8, edges := fieldAt r 0x30 8 }

def GraphDesc.hasWeights (g : GraphDesc) : Bool := bitOf g.flags 0
def GraphDesc.hasAlias (g : GraphDesc) : Bool := bitOf g.flags 1
def GraphDesc.sorted (g : GraphDesc) : Bool := bitOf g.flags 2

/-- The fields of a graph descriptor are in range (R179, Table 6.5). -/
def graphOk (r : List Byte) : Bool :=
  let g := readGraph r
  decide (fieldAt r 0 1 ≤ 1 ∧ fieldAt r 1 1 ≤ 1 ∧ g.flags ≤ 7) && fieldAt r 3 5 == 0 &&
    decide (1 ≤ g.nodes ∧ g.nodes ≤ 2 ^ 40) && (g.hasWeights || g.weights == 0) && (g.hasAlias || g.alias_ == 0) &&
    fieldAt r 0x38 8 == 0

/-- The arrays that the methods need are present (Table 6.11, whose words name every walk method; log entry 127). -/
def methodsOk (j : ReelDesc) (g : GraphDesc) : Bool :=
  j.hop.all fun e =>
    ((e.1 != 1 && decide (e.1 < 5)) || g.hasAlias) && (e.1 != 2 || g.hasWeights) &&
      (decide (e.1 < 5) || j.plain || g.sorted)

/-! ### Bounds (R175, R176, R191) -/

/-- The edge bound and the unit bound of the hops from frontier bound `f` on. -/
def hopBounds : Nat → List (Nat × Nat) → Nat × Nat
  | _, [] => (0, 0)
  | f, (m, k) :: r =>
    let t := hopBounds (f * k) r
    (f * k + t.1, f * (if m = 2 then 1024 + k else k) + t.2)

/-- EB and U. -/
def ReelDesc.bounds (j : ReelDesc) : Nat × Nat :=
  if j.walk then
    let eb := j.seeds * (j.hop.headD (0, 0)).2 * j.hops
    (eb, eb * j.tries * (if j.plain then 1 else 4))
  else hopBounds j.seeds j.hop

/-- FB of R191. -/
def ReelDesc.frameBound (j : ReelDesc) : Nat :=
  let eb := j.bounds.1
  0x100 + r64 (8 * (j.seeds + eb)) + (if j.eids then r64 (16 * eb) + 8 * eb else 16 * eb)

/-- The promised time in ns (R176). -/
def ReelDesc.promiseNs (j : ReelDesc) : Nat := 4000 + 3000 * j.hops + 16 * j.bounds.2 / 10

/-! ### The sampler's working state -/

/-- An edge: SRC, DST, WEIGHT, POS and the row offset of its DST node (Table 6.10). -/
structure FrameEdge where
  src : Nat
  dst : Nat
  weight : Word
  pos : Nat
  base : Nat
  deriving DecidableEq, Repr, Inhabited

/-- A job as it is built: L, edges, directory, counts, and the reads it has made. -/
structure Samp where
  nodes : List Nat
  edges : List FrameEdge
  /-- edges of earlier hops -/
  hopStart : Nat
  dir : List (Nat × Nat × Nat × Nat)
  faults : Nat
  units : Nat
  undedup : Nat
  trunc : Nat
  notUnique : Bool
  reads : List (Nat × Nat)
  deriving DecidableEq, Repr, Inhabited

def Samp.zero : Samp :=
  { nodes := [], edges := [], hopStart := 0, dir := [], faults := 0, units := 0, undedup := 0, trunc := 0,
    notUnique := false, reads := [] }

/-- A reader of little-endian values at context addresses. -/
abbrev Reader := Nat → Nat → Nat

def Samp.fault (x : Samp) : Samp := { x with faults := x.faults + 1 }
def Samp.saw (x : Samp) (ca n : Nat) : Samp := { x with reads := x.reads ++ [(ca, n)] }

/-- A node is found in the deduplication store, or appended (R187 to R189): its local identifier. -/
def Samp.node (x : Samp) (v : Nat) : Nat × Samp :=
  let store := x.nodes.take 131072
  match store.findIdx? (· == v) with
  | some i => (i, x)
  | none =>
    if x.nodes.length < 131072 then (x.nodes.length, { x with nodes := x.nodes ++ [v] })
    else (x.nodes.length, { x with nodes := x.nodes ++ [v], undedup := x.undedup + 1, notUnique := true })

/-- A hop ends: its directory entry (Table 6.9). -/
def Samp.endHop (x : Samp) : Samp :=
  { x with dir := x.dir ++ [(x.nodes.length, x.edges.length, x.undedup, x.trunc)], undedup := 0, trunc := 0,
           hopStart := x.edges.length }

/-- Adds 1.0 to the weight of an edge of this hop with the same (DST, POS), when there is one (R188). -/
def Samp.emit (x : Samp) (e : FrameEdge) : Samp :=
  if (x.edges.drop x.hopStart).any (fun f => f.dst == e.dst && f.pos == e.pos) then
    { x with edges := x.edges.take x.hopStart ++ (x.edges.drop x.hopStart).map fun f =>
        if f.dst = e.dst ∧ f.pos = e.pos then { f with weight := fadd f.weight one32 } else f }
  else { x with edges := x.edges ++ [e] }

/-! ### Rows (R180, R181) -/

/-- Row offset and degree of a node, and whether its offsets are invalid. -/
def rowOf (rd : Reader) (g : GraphDesc) (v : Nat) : Nat × Nat × Bool :=
  let a := rd (ctxPlus g.offsets (8 * v)) 8 % 2 ^ 40
  let b := rd (ctxPlus g.offsets (8 * v + 8)) 8 % 2 ^ 40
  if b < a ∨ g.edges < b then (a, 0, true) else (a, b - a, false)

/-- Reads a row's offsets: an invalid row is an index fault. -/
def Samp.row (rd : Reader) (g : GraphDesc) (v : Nat) (x : Samp) : (Nat × Nat) × Samp :=
  let r := rowOf rd g v
  let x := x.saw (ctxPlus g.offsets (8 * v)) 16
  ((r.1, r.2.1), if r.2.2 then x.fault else x)

/-- The neighbour at a position. -/
def neighbour (rd : Reader) (g : GraphDesc) (pos : Nat) : Nat :=
  if g.wide then rd (ctxPlus g.neigh (8 * pos)) 8 % 2 ^ 40 else rd (ctxPlus g.neigh (4 * pos)) 4

def neighbourSpan (g : GraphDesc) (pos : Nat) : Nat × Nat :=
  if g.wide then (ctxPlus g.neigh (8 * pos), 8) else (ctxPlus g.neigh (4 * pos), 4)

/-- The adjacency weight at a position; 1.0 without WEIGHTS (R180). -/
def weightAt (rd : Reader) (g : GraphDesc) (pos : Nat) : Word :=
  if g.hasWeights then BitVec.ofNat 32 (rd (ctxPlus g.weights (4 * pos)) 4) else one32

/-- A draw (R183, Table 6.6): node, hop, purpose, STEP and the index of c3. -/
def draw (j : ReelDesc) (v h purpose c3 : Nat) : Nat × Nat × Nat × Nat :=
  gen j.jobSeed.toNat (v % 2 ^ 32)
    (v / 2 ^ 32 % 256 + h % 256 * 2 ^ 8 + purpose * 2 ^ 16 + j.step / 2 ^ 32 % 256 * 2 ^ 24) (j.step % 2 ^ 32) c3

/-- An alias draw at position i of a row of degree d (R181, R184): the position kept, and whether A is not below d. -/
def aliasPick (rd : Reader) (g : GraphDesc) (base d i w2 : Nat) : Nat × Bool :=
  let q := rd (ctxPlus g.alias_ (8 * (base + i))) 4
  let a := rd (ctxPlus g.alias_ (8 * (base + i) + 4)) 4
  if d ≤ a then (i, true) else (if w2 < q then i else a, false)

/-! ### Selection (R184, R185) -/

/-- Floyd's selection: draws j to k − 1 into the reservoir S; `n` draws are left. -/
def floyd (j : ReelDesc) (v h d k : Nat) : Nat → Nat → List Nat → List Nat
  | 0, _, S => S
  | n + 1, i, S =>
    let w := draw j v h 1 i
    let t := uniform (d - k + i + 1) w.1 w.2.1
    floyd j v h d k n (i + 1) (S ++ [if S.contains t then d - k + i else t])

/-- The k positions drawn by the alias method, in draw order, with the faults. -/
def aliasDraws (rd : Reader) (j : ReelDesc) (g : GraphDesc) (v h base d k : Nat) : List (Nat × Bool) :=
  (List.range k).map fun i =>
    let w := draw j v h 2 i
    aliasPick rd g base d (uniform d w.1 w.2.1) w.2.2.1

/-- Weight order of top-k: greatest first, NaN below every number, −0 equal to +0, then lower position (R184). -/
def topBefore (a b : Word × Nat) : Bool :=
  let x := f32 a.1
  let y := f32 b.1
  if x.isNan ∨ y.isNan then (!x.isNan && y.isNan) || ((x.isNan && y.isNan) && decide (a.2 ≤ b.2))
  else y.lt x || (!x.lt y && decide (a.2 ≤ b.2))

/-- The positions that an expansion selects with the weights of their edges, ascending; and the sampler after it. -/
def Samp.select (rd : Reader) (j : ReelDesc) (g : GraphDesc) (v h base d k method : Nat) (x : Samp) :
    List (Nat × Word) × Samp :=
  let adj := fun (l : List Nat) => (l.map fun p => (p, weightAt rd g (base + p)), l.map fun p => (ctxPlus g.weights (4 * (base + p)), 4))
  let seen := fun (y : Samp) (l : List (Nat × Nat)) => if g.hasWeights then { y with reads := y.reads ++ l } else y
  match method with
  | 0 =>
    let l := if d ≤ k then List.range d else (List.range d).filter (floyd j v h d k k 0 []).contains
    ((adj l).1, seen { x with units := x.units + Nat.min d k } (adj l).2)
  | 1 =>
    if d = 0 then ([], x)
    else
      let ds := aliasDraws rd j g v h base d k
      let l := (List.range d).filter fun p => ds.any fun e => e.1 == p
      (l.map fun p => (p, BitVec.ofNat 32 (fmtFP32.rne (.fin false (ds.filter fun e => e.1 == p).length 0))),
        { x with units := x.units + k, faults := x.faults + (ds.filter (·.2)).length,
                 reads := x.reads ++ (List.range k).map fun i =>
                   let w := draw j v h 2 i
                   (ctxPlus g.alias_ (8 * (base + uniform d w.1 w.2.1)), 8) })
  | 2 =>
    let c := Nat.min d 16384
    let ranked := ((List.range c).map fun p => (weightAt rd g (base + p), p)).mergeSort topBefore
    let top := (ranked.take (Nat.min k c)).map (·.2)
    ((adj ((List.range c).filter top.contains)).1,
      seen { x with units := x.units + ceilDiv c 16 + Nat.min d k, trunc := x.trunc + b2n (decide (16384 < d)) }
        [(ctxPlus g.weights (4 * base), 4 * c)])
  | _ =>
    ((adj (List.range (Nat.min d k))).1,
      seen { x with units := x.units + Nat.min d k, trunc := x.trunc + b2n (decide (k < d)) }
        (adj (List.range (Nat.min d k))).2)

/-! ### Expansion (R188) -/

/-- One emitted edge of an expansion: a neighbour beyond NODES is dropped. -/
def Samp.edge (rd : Reader) (g : GraphDesc) (dst base : Nat) (x : Samp) (p : Nat × Word) : Samp :=
  let y := neighbour rd g (base + p.1)
  let x := { x with reads := x.reads ++ [neighbourSpan g (base + p.1)] }
  if g.nodes ≤ y then x.fault
  else
    let r := x.node y
    { r.2 with edges := r.2.edges ++ [{ src := r.1, dst := dst, weight := p.2, pos := p.1, base := base }] }

/-- The expansion of the frontier node with a local identifier. -/
def Samp.expand (rd : Reader) (j : ReelDesc) (g : GraphDesc) (h k method : Nat) (x : Samp) (dst : Nat) : Samp :=
  let v := x.nodes.getD dst 0
  let r := x.row rd g v
  let sel := r.2.select rd j g v h r.1.1 r.1.2 k method
  sel.1.foldl (Samp.edge rd g dst r.1.1) sel.2

/-- The hops from h on, with the frontier from `lo` to the present end of L. -/
def Samp.hops (rd : Reader) (j : ReelDesc) (g : GraphDesc) : List (Nat × Nat) → Nat → Nat → Samp → Samp
  | [], _, _, x => x
  | (m, k) :: r, h, lo, x =>
    let hi := x.nodes.length
    let y := ((List.range (hi - lo)).map (lo + ·)).foldl (Samp.expand rd j g h k m) x
    Samp.hops rd j g r (h + 1) hi y.endHop

/-- Hop 0: the seed list in order (R188). -/
def Samp.seeds (rd : Reader) (j : ReelDesc) (g : GraphDesc) : Samp :=
  ((List.range j.seeds).foldl (fun (x : Samp) i =>
    let v := rd (ctxPlus j.seedList (8 * i)) 8 % 2 ^ 40
    if g.nodes ≤ v then x.fault else (x.node v).2)
    (Samp.zero.saw j.seedList (8 * j.seeds))).endHop

/-! ### Walks (R186) -/

/-- A walk in progress: seed, walk number, the previous node, and the present node with its local identifier. -/
structure Walk where
  seed : Nat
  num : Nat
  prev : Option Nat
  cur : Nat
  loc : Nat
  live : Bool
  deriving DecidableEq, Repr, Inhabited

/-- A positive FP32 value as a fraction. -/
def asFraction (w : Word) : Nat × Nat :=
  match f32 w with
  | .fin _ m e => if 0 ≤ e then (m * 2 ^ e.toNat, 1) else (m, 2 ^ (-e).toNat)
  | _ => (1, 1)

/-- The lesser of two fractions. -/
def fracMin (a b : Nat × Nat) : Nat × Nat := if a.1 * b.2 ≤ b.1 * a.2 then a else b

/-- THR of R186 for α = 1 ÷ a: 2^32 × α ÷ max(1/p, 1, 1/q), which is 2^32 × min(p, 1, q) ÷ a, rounded down. -/
def threshold (j : ReelDesc) (a : Nat × Nat) : Nat :=
  let m := fracMin (fracMin (asFraction j.walkP) (1, 1)) (asFraction j.walkQ)
  2 ^ 32 * (m.1 * a.2) / (m.2 * a.1)

/-- A binary search of the positions [lo, hi) of NEIGH for x, at the lower middle (log entry 128): whether it is found, and
the positions read; `n` bounds the turns. -/
def searchRow (rd : Reader) (g : GraphDesc) (x : Nat) : Nat → Nat → Nat → Bool × List Nat
  | 0, _, _ => (false, [])
  | n + 1, lo, hi =>
    if hi ≤ lo then (false, [])
    else
      let mid := (lo + hi - 1) / 2
      let y := neighbour rd g mid
      if y = x then (true, [mid])
      else
        let t := if y < x then searchRow rd g x n (mid + 1) hi else searchRow rd g x n lo mid
        (t.1, mid :: t.2)

/-- Whether x is in the row of a node, and what the search reads (R186). -/
def isNeighbour (rd : Reader) (g : GraphDesc) (v x : Nat) : Bool × List (Nat × Nat) :=
  let r := rowOf rd g v
  let t := searchRow rd g x (r.2.1 + 1) r.1 (r.1 + r.2.1)
  (t.1, (ctxPlus g.offsets (8 * v), 16) :: t.2.map (neighbourSpan g))

/-- THR(prev, x), and what the membership test reads: with p and q both 1 there is none (R186). -/
def walkThr (rd : Reader) (j : ReelDesc) (g : GraphDesc) (prev x : Nat) : Nat × List (Nat × Nat) :=
  if x = prev then (threshold j (asFraction j.walkP), [])
  else if j.plain then (threshold j (1, 1), [])
  else
    let m := isNeighbour rd g prev x
    (if m.1 then threshold j (1, 1) else threshold j (asFraction j.walkQ), m.2)

/-- How the attempts of a step end. -/
inductive StepEnd where
  | accepted (pos x : Nat)
  | fault
  | none
  deriving DecidableEq, Repr, Inhabited

/-- The attempts of step t of a walk from attempt `a` on; `n` are left. The sampler counts them and their faults. -/
def Samp.attempts (rd : Reader) (j : ReelDesc) (g : GraphDesc) (w : Walk) (t base d : Nat) (method : Nat) :
    Nat → Nat → Samp → StepEnd × Samp
  | 0, _, x => (.none, x)
  | n + 1, a, x =>
    let r := draw j w.seed t 3 (w.num * 256 + a)
    let i := uniform d r.1 r.2.1
    let x := { x with units := x.units + (if j.plain then 1 else 4) }
    let pick := if method = 6 then aliasPick rd g base d i r.2.2.1 else (i, false)
    let x := if method = 6 then x.saw (ctxPlus g.alias_ (8 * (base + i))) 8 else x
    let x := if pick.2 then x.fault else x
    let y := neighbour rd g (base + pick.1)
    let x := { x with reads := x.reads ++ [neighbourSpan g (base + pick.1)] }
    if g.nodes ≤ y then (.fault, x.fault)
    else
      let thr := match w.prev with
        | Option.none => (2 ^ 32, [])
        | some p => walkThr rd j g p y
      let x := { x with reads := x.reads ++ thr.2 }
      if r.2.2.2 < thr.1 then (.accepted pick.1 y, x) else Samp.attempts rd j g w t base d method n (a + 1) x

/-- Step t of one walk. WEIGHT of a walk edge at its first emission is 1.0 (DESIGN CHOICE: Table 6.7 has no row for walk methods;
log entry 153). -/
def Samp.walkStep (rd : Reader) (j : ReelDesc) (g : GraphDesc) (t method : Nat) (x : Samp) (w : Walk) : Walk × Samp :=
  if !w.live then (w, x)
  else
    let r := x.row rd g w.cur
    let base := r.1.1
    let d := r.1.2
    if d = 0 then ({ w with live := false }, { r.2 with trunc := r.2.trunc + 1 })
    else
      match r.2.attempts rd j g w t base d method j.tries 0 with
      | (.none, y) => ({ w with live := false }, { y with trunc := y.trunc + 1 })
      | (.fault, y) => ({ w with live := false }, y)
      | (.accepted pos v, y) =>
        let n := y.node v
        ({ w with prev := some w.cur, cur := v, loc := n.1 },
          n.2.emit { src := n.1, dst := w.loc, weight := one32, pos := pos, base := base })

/-- Step t of every walk, in order. -/
def Samp.walkAll (rd : Reader) (j : ReelDesc) (g : GraphDesc) (t method : Nat) : List Walk → Samp → List Walk × Samp
  | [], x => ([], x)
  | w :: r, x =>
    let a := x.walkStep rd j g t method w
    let b := Samp.walkAll rd j g t method r a.2
    (a.1 :: b.1, b.2)

/-- The steps of a walk job from step t on; `n` are left. -/
def Samp.walkSteps (rd : Reader) (j : ReelDesc) (g : GraphDesc) (method : Nat) : Nat → Nat → List Walk → Samp → Samp
  | 0, _, _, x => x
  | n + 1, t, ws, x =>
    let r := x.walkAll rd j g t method ws
    Samp.walkSteps rd j g method n (t + 1) r.1 r.2.endHop

/-- A whole job. -/
def sample (rd : Reader) (j : ReelDesc) (g : GraphDesc) : Samp :=
  let x := Samp.seeds rd j g
  if j.walk then
    let e := j.hop.headD (0, 0)
    let ws := x.nodes.zipIdx.flatMap fun (v, i) =>
      (List.range e.2).map fun n => { seed := v, num := n, prev := none, cur := v, loc := i, live := true }
    x.walkSteps rd j g e.1 j.hops 1 ws
  else x.hops rd j g j.hop 1 0

/-! ### The bytes of a frame (R190) -/

/-- Pads bytes with zeros to a multiple of 64 (DESIGN CHOICE: R190 gives the offsets of the arrays and no content of what lies between
them; log entry 152). -/
def pad64 (bs : List Byte) : List Byte := bs ++ List.replicate (r64 bs.length - bs.length) 0

def edgeBytes (e : FrameEdge) : List Byte := leBytes 4 e.src ++ leBytes 4 e.dst ++ leBytes 4 e.weight.toNat ++ leBytes 4 e.pos

def edgeOff (x : Samp) : Nat := 0x100 + r64 (8 * x.nodes.length)

def eidOff (x : Samp) : Nat := edgeOff x + r64 (16 * x.edges.length)

/-- FRAME_LEN. -/
def frameLen (j : ReelDesc) (x : Samp) : Nat :=
  if j.eids then eidOff x + 8 * x.edges.length else edgeOff x + 16 * x.edges.length

/-- The directory: nine entries, and zeros to offset 0x100. -/
def dirBytes (x : Samp) : List Byte :=
  ((List.range 12).flatMap fun h =>
    let e := x.dir.getD h (0, 0, 0, 0)
    leBytes 4 e.1 ++ leBytes 4 e.2.1 ++ leBytes 4 e.2.2.1 ++ leBytes 4 e.2.2.2)

/-- The arrays: nodes, edges and edge identifiers. -/
def arrayBytes (j : ReelDesc) (x : Samp) : List Byte :=
  pad64 (x.nodes.flatMap (leBytes 8)) ++
    (if j.eids then
      pad64 (x.edges.flatMap edgeBytes) ++ x.edges.flatMap fun e => leBytes 8 (e.base + e.pos)
     else x.edges.flatMap edgeBytes)

/-- The header (Table 6.8). -/
def headerBytes (j : ReelDesc) (x : Samp) (handle : Word) (tAccept tDone : Nat) : List Byte :=
  leBytes 4 (frameLen j x) ++ leBytes 2 (if x.faults = 0 then stOk else stIndexFault) ++ leBytes 1 j.hops ++
    leBytes 1 (b2n x.notUnique + 2 * b2n j.eids + 4 * b2n j.walk + 8) ++ leBytes 4 handle.toNat ++ leBytes 4 j.seeds ++
    leBytes 8 j.jobSeed.toNat ++ leBytes 8 j.step ++ leBytes 4 0x100 ++ leBytes 4 (edgeOff x) ++
    leBytes 4 (if j.eids then eidOff x else 0) ++ leBytes 4 (Nat.min x.faults 0xFFFFFFFF) ++ leBytes 8 tAccept ++
    leBytes 8 tDone

end Sys2Proof.Machine
end

