-- ==== Sys2Proof/Machine/ThreadMem.lean ====
section
/-! DEFINITION. The instructions that reach memory, watch words, the task unit, descriptors and device time
(04 R120 to R129, R146; 05 R147 to R166), and the events that let their threads run on. -/

namespace Sys2Proof.Machine

open Sys2Proof

/-- A request whose translation is `x`: the request is made, or its window faults (R95). -/
def accessAt (t : ThreadId) (kind : ReqKind) (ca : Nat) (after : List Nat) (x : Option Nat) (s : State) : State :=
  match x with
  | none => faulted s (newRequest s t.ctx (.thread t) kind ca 0 false after)
  | some a =>
    let r := newRequest s t.ctx (.thread t) kind ca a false after
    let s := addRequest s { r with tag := takeTag s r }
    if holds kind then modThread s t fun th => { th with run := .waitReq r.id } else s

/-- A thread issues an access (R95, R120, R121): it faults, or becomes a request that may hold the thread (R122). -/
def access (t : ThreadId) (kind : ReqKind) (o : AArgs) (align : Nat) (after : List Nat) (s : State) : State :=
  let ca := ctxAddress o align (theThread s t)
  accessAt t kind ca after (translate s t.ctx (some t.group) (kindNeed kind) ca (kindBytes kind)) s

/-- Bytes of LD by MINOR (Table 4.3). -/
def loadBytes (minor : Nat) : Nat :=
  match minor with
  | 0 => 1 | 1 => 2 | 2 => 4 | 3 => 8 | 4 => 1 | _ => 2

def execLd (t : ThreadId) (k : Common) (o : AArgs) (s : State) : Host.Outcome State Fault Refusal :=
  stateWord (.ld t k o) t k
    (access t (.load (loadBytes o.minor.val) (decide (4 ≤ o.minor.val)) o.data) o (loadBytes o.minor.val) []) s

/-- The bytes of ST by MINOR (Table 4.3). -/
def storeBytes (o : AArgs) (th : Thread) : List Byte :=
  if o.minor.val = 3 then leBytes 8 (th.rdPair o.data).toNat else leBytes (2 ^ o.minor.val) (th.rd o.data).toNat

def execSt (t : ThreadId) (k : Common) (o : AArgs) (s : State) : Host.Outcome State Fault Refusal :=
  stateWord (.st t k o) t k
    (fun s => access t (.store (storeBytes o (theThread s t))) o (2 ^ o.minor.val) [] s) s

def execVld (t : ThreadId) (k : Common) (o : AArgs) (s : State) : Host.Outcome State Fault Refusal :=
  vectorWord (.vld t k o) t k (access t (.vload o.data) o 256 []) s

/-- The 256 bytes of a v register, lane 0 first. -/
def laneBytes (v : Vector Word 64) : List Byte := v.toList.flatMap fun w => leBytes 4 w.toNat

def execVst (t : ThreadId) (k : Common) (o : AArgs) (s : State) : Host.Outcome State Fault Refusal :=
  vectorWord (.vst t k o) t k
    (fun s => access t (.store (laneBytes (vectorOf s t).v[o.data])) o 256 [] s) s

/-- The operands of an atomic operation (Table 4.4). -/
def atomicKind (o : AArgs) (th : Thread) (ret : Bool) : ReqKind :=
  let m := o.minor.val
  if m = 1 then .atomic m true (th.rdPair o.data) 0 (if ret then some o.data else none)
  else
    .atomic m false ((th.rd o.data).setWidth 64) (if m = 10 then (th.rd (o.data + 1)).setWidth 64 else 0)
      (if ret then some o.data else none)

def execAtom (t : ThreadId) (k : Common) (o : AArgs) (s : State) : Host.Outcome State Fault Refusal :=
  stateWord (.atom t k o) t k
    (fun s => access t (atomicKind o (theThread s t) true) o (atomicBytes o.minor.val) [] s) s

def execAtomp (t : ThreadId) (k : Common) (o : AArgs) (s : State) : Host.Outcome State Fault Refusal :=
  stateWord (.atomp t k o) t k
    (fun s => access t (atomicKind o (theThread s t) false) o (atomicBytes o.minor.val) [] s) s

/-- FENCE (R123). -/
def execFence (t : ThreadId) (k : Common) (o : AArgs) (s : State) : Host.Outcome State Fault Refusal :=
  stateWord (.fence t k o) t k
    (fun s => if outstanding s t isPosted = [] then s else modThread s t fun th => { th with run := .waitFence }) s

def execSig (t : ThreadId) (k : Common) (o : AArgs) (s : State) : Host.Outcome State Fault Refusal :=
  stateWord (.sig t k o) t k
    (fun s => access t (.signal o.minor.val ((theThread s t).rd o.data) false) o 4 (outstanding s t isStore) s) s

def execSigw (t : ThreadId) (k : Common) (o : AArgs) (s : State) : Host.Outcome State Fault Refusal :=
  stateWord (.sigw t k o) t k
    (fun s => access t (.signal o.minor.val ((theThread s t).rd o.data) true) o 4 (outstanding s t isStore) s) s

/-! ### Watch words -/

/-- The slot is cleared, both its registration and its written bit (R151). -/
def clearSlot (s : State) (t : ThreadId) (slot : Fin 16) : State :=
  sweepWakes (modThread s t fun th => { th with watch := th.watch.set slot WatchSlot.empty })

/-- A WATCH of a word that translates to `x`; a word that translates but has no watch directory is a watch fault. -/
def watchAt (t : ThreadId) (o : AArgs) (x : Option Nat) (s : State) : State :=
  match x with
  | some a =>
    if watchable a then access t (.watch (Fin.ofNat 16 o.data.val)) o 4 [] s
    else watchFault s t (Fin.ofNat 16 o.data.val)
  | none => access t (.watch (Fin.ofNat 16 o.data.val)) o 4 [] s

/-- WATCH (R147, R148, R151). -/
def watchWord (t : ThreadId) (o : AArgs) (s : State) : State :=
  let s := clearSlot s t (Fin.ofNat 16 o.data.val)
  watchAt t o (translate s t.ctx (some t.group) .read (ctxAddress o 4 (theThread s t)) 4) s

def execWatch (t : ThreadId) (k : Common) (o : AArgs) (s : State) : Host.Outcome State Fault Refusal :=
  stateWord (.watch t k o) t k (watchWord t o) s

def execUnwatch (t : ThreadId) (k : Common) (o : IArgs) (s : State) : Host.Outcome State Fault Refusal :=
  stateWord (.unwatch t k o) t k (fun s => clearSlot s t (Fin.ofNat 16 o.imm.toNat)) s

/-- PARK returns: s[DST] takes the mask of written slots, which are cleared (R150). -/
def Thread.unpark (th : Thread) (dst : Fin 32) : Thread :=
  { th.wr dst (BitVec.ofNat 32 th.writtenMask) with
    run := .ready, watch := th.watch.map fun w => { w with written := false, due := 0 } }

/-- PARK (R150). -/
def Thread.park (th : Thread) (dst : Fin 32) : Thread :=
  if th.writtenMask = 0 then { th with run := .parked dst } else th.unpark dst

def execPark (t : ThreadId) (k : Common) (o : IArgs) (s : State) : Host.Outcome State Fault Refusal :=
  regWord (.park t k o) t k (fun th => th.park o.dst) s

/-- The earliest time, in tenths of a ns, by which a wake of a thread is due; 0 when none is (R153). -/
def Thread.wakeDue (th : Thread) : Nat :=
  (th.watch.toList.filter fun w => w.written && w.due != 0).foldl
    (fun a w => if a = 0 then w.due else Nat.min a w.due) 0

/-- The row of Table 2.4 of a delivery within 4 beats, 40 ns or 250 ns. -/
def wakeRow (tenths : Nat) : Nat := if tenths = 32 then 1 else if tenths = 400 then 2 else 3

/-- A wake later than its time counts as a miss of the watching thread's region, whose admission reserved it (R63, R153,
R157); the row of Table 2.4 is that of its distance. A wake that a pause of the context has held back keeps its time (DESIGN CHOICE,
log entry 156). -/
def judgeWake (s : State) (t : ThreadId) (th : Thread) : State :=
  match th.watch.toList.find? fun w => w.due == th.wakeDue with
  | some w =>
    if th.wakeDue ≠ 0 ∧ th.wakeDue < 10 * now s then
      promiseMiss s (physAt s (threadRegion s t)) t.ctx (wakeRow (wakeTenths s t (w.addr.getD 0)))
    else s
  | none => s

/-- The region's rail lies below 0.60 V: the Burner raises it first, and that wait lies outside the promise (R43). -/
def awaitRail (s : State) (t : ThreadId) : State :=
  modThread s t fun th =>
    { th with watch := th.watch.map fun w =>
      if w.written ∧ w.due ≠ 0 then { w with due := 10 * now s + wakeTenths s t (w.addr.getD 0) } else w }

/-- WAKE_NOTIFICATION (R43, R150, R153): a parked thread with a written slot becomes runnable. -/
def execWakeNotification (t : ThreadId) (s : State) : Host.Outcome State Fault Refusal :=
  match threadOf s t with
  | some th =>
    match th.run with
    | .parked dst =>
      if th.writtenMask = 0 ∨ !ctxRuns s t.ctx ∨ !cellRuns s t then notNow s
      else if railLow s (physAt s (threadRegion s t)) then .next (awaitRail s t)
      else .next (settle (setThread (judgeWake s t th) t { (th.unpark dst) with readyAt := now s }) t)
    | _ => notNow s
  | none => notNow s

/-! ### The task unit -/

/-- TAKE (R164, R165): the thread's flow leaves service, then the thread joins the takers of its list. -/
def takeTask (t : ThreadId) (o : IArgs) (s : State) : State :=
  let L := threadRegion s t
  let l := o.minor.val
  let s := releaseFlows s L t.ctx (fun f => f.holder == t)
  let s := modThread s t fun th => { th with run := .taking l o.dst }
  let s := modRegion (recallTasks s L t.ctx l) L fun R =>
    { R with takers := insertTaker { t := t, list := l, dst := o.dst, since := now s } R.takers }
  serveList s L t.ctx l

/-- TAKE: the program counter has stepped past the word before a task word is given. -/
def execTake (t : ThreadId) (k : Common) (o : IArgs) (s : State) : Host.Outcome State Fault Refusal :=
  issueWord (.take t k o) t k (fun s => takeTask t o (stepPc t s)) (stepPc t) s

/-- TOKEN (R159): the token follows every store and signal of its thread. -/
def sendToken (t : ThreadId) (o : RArgs) (s : State) : State :=
  let th := theThread s t
  let w := th.rdPair o.a
  let task := if tokKind w = 1 then th.rdPair o.b else 0
  let r := newRequest s t.ctx (.thread t) (.token w task) 0 0 true (outstanding s t isPosted)
  addRequest s { r with tag := takeTag s r }

def execToken (t : ThreadId) (k : Common) (o : RArgs) (s : State) : Host.Outcome State Fault Refusal :=
  stateWord (.token t k o) t k (sendToken t o) s

/-- DELAY (R166): a full delay list holds the thread until the task is admitted. -/
def sendDelay (t : ThreadId) (o : RArgs) (s : State) : State :=
  let th := theThread s t
  let r := newRequest s t.ctx (.thread t) (.delay (th.rdPair o.a) (th.rdPair o.b).toNat) 0 0 true []
  holdDelay (addRequest s { r with tag := takeTag s r }) r

def execDelay (t : ThreadId) (k : Common) (o : RArgs) (s : State) : Host.Outcome State Fault Refusal :=
  stateWord (.delay t k o) t k (sendDelay t o) s

/-- A timestamp taken by a unit: within 8 ns of the always-on count (R46). -/
def timestamp (s : State) : Nat := now s + Config.freeNat s.freeCounter % 17 - 8

/-- TIME (R46, R146): device time in the pair, low word first. -/
def execTime (t : ThreadId) (k : Common) (o : IArgs) (s : State) : Host.Outcome State Fault Refusal :=
  stateWord (.time t k o) t k
    (fun s => { modThread s t fun th => th.wrPair o.dst (BitVec.ofNat 64 (timestamp s)) with
                freeCounter := s.freeCounter + 1 }) s

/-- WAITING_FIRING_PLACED (R161). -/
def execWaitingFiringPlaced (region : Nat) (s : State) : Host.Outcome State Fault Refusal :=
  .next (placeFiring s region)

/-- DELAY_TICK (R104, R163, R166): every task due at or before the last tick boundary moves to its ready list. -/
def execDelayTick (region : Nat) (s : State) : Host.Outcome State Fault Refusal :=
  .next (moveDue s region (now s / 100 * 100) (regionOf s region).delay.length)

/-! ### Descriptors -/

def execDld (t : ThreadId) (k : Common) (o : AArgs) (s : State) : Host.Outcome State Fault Refusal :=
  stateWord (.dld t k o) t k (access t (.dload (o.minor.val == 1) (Fin.ofNat 16 o.data.val)) o 64 []) s

/-- A descriptor record of a group: x registers for MINOR 1. -/
def recordOf (g : Group) (index : Bool) (n : Nat) : List Byte :=
  if index then g.x[Fin.ofNat 8 n] else g.d[Fin.ofNat 16 n]

/-- The group with one record replaced. -/
def Group.putRecord (g : Group) (index : Bool) (n : Nat) (r : List Byte) : Group :=
  if index then { g with x := g.x.set (Fin.ofNat 8 n) r } else { g with d := g.d.set (Fin.ofNat 16 n) r }

def execDstr (t : ThreadId) (k : Common) (o : AArgs) (s : State) : Host.Outcome State Fault Refusal :=
  stateWord (.dstr t k o) t k
    (fun s => access t (.store (recordOf (groupOf s t) (o.minor.val == 1) o.data.val)) o 64 [] s) s

/-- DSETW (R129). -/
def setWord (t : ThreadId) (o : IArgs) (s : State) : State :=
  let g := groupOf s t
  let x := o.minor.val == 1
  let r := recordOf g x o.dst.val
  setGroup s t (g.putRecord x o.dst.val (patch r (4 * (o.imm.toNat % 16)) (leBytes 4 ((theThread s t).rd o.a).toNat)))

def execDsetw (t : ThreadId) (k : Common) (o : IArgs) (s : State) : Host.Outcome State Fault Refusal :=
  stateWord (.dsetw t k o) t k (setWord t o) s

def execDgetw (t : ThreadId) (k : Common) (o : IArgs) (s : State) : Host.Outcome State Fault Refusal :=
  stateWord (.dgetw t k o) t k
    (fun s => modThread s t fun th =>
      th.wr o.dst (BitVec.ofNat 32
        (fieldAt (recordOf (groupOf s t) (o.minor.val == 1) o.a.val) (4 * (o.imm.toNat % 16)) 4))) s

end Sys2Proof.Machine
end

