-- ==== Sys2Proof/Machine/Reel.lean ====
section
/-! DEFINITION. The Reels (06 R172 to R198): submission, acceptance and completion of sampling jobs. A frame is computed at
the completion of its job, from what memory holds then (log entry 19). -/

namespace Sys2Proof.Machine

open Sys2Proof

def reelUnit (s : State) (L r : Nat) : ReelUnit := mget ReelUnit.zero (regionOf s L).reels r

def modReel (s : State) (L r : Nat) (f : ReelUnit → ReelUnit) : State :=
  modRegion s L fun R => { R with reels := mmod ReelUnit.zero R.reels r f }

def modReelCount (s : State) (p r : Nat) (f : ReelCount → ReelCount) : State :=
  modPhys s p fun x => { x with reels := mmod ReelCount.zero x.reels r f }

/-- Jobs that a Reel's queue holds. -/
def queued (s : State) (L r : Nat) : Nat := (reelUnit s L r).queue.length

/-- The Reel with the fewest queued jobs, the lowest-numbered among equals (R172). -/
def leastReel (s : State) (L : Nat) : Nat :=
  [1, 2, 3].foldl (fun a r => if queued s L r < queued s L a then r else a) 0

/-- Table 6.1. -/
def reelHandle (L r seq : Nat) : Word := BitVec.ofNat 32 (L % 16 * 2 ^ 27 + r * 2 ^ 25 + seq)

/-- REEL submits a job, or returns BUSY (R172). -/
def submitReel (t : ThreadId) (o : AArgs) (s : State) : State :=
  let L := threadRegion s t
  let p := (physOfLogical s L).getD 0xFF
  let r := if o.minor.val = 15 then leastReel s L else o.minor.val
  if 64 ≤ queued s L r then
    modThread (modReelCount (w1cEvent s (offPhys p + 0x10 + 8 * r) 55) p r fun c => { c with refused := satAdd 0xFFFF c.refused 1 }) t fun th =>
      th.wr o.data 0x80000000
  else
    let seq := (mget ReelCount.zero (physOf s p).reels r).nextSeq
    let job : ReelJob :=
      { ctx := t.ctx, handle := reelHandle L r seq, descAddr := ctxAddress o 64 (theThread s t), seq := seq }
    let s := modReelCount s p r fun c => { c with nextSeq := (c.nextSeq + 1) % 2 ^ 25 }
    let s := modReel s L r fun u => { u with queue := u.queue ++ [job] }
    modThread s t fun th => th.wr o.data (reelHandle L r seq)

def execReel (t : ThreadId) (k : Common) (o : AArgs) (s : State) : Host.Outcome State Fault Refusal :=
  stateWord (.reel t k o) t k (submitReel t o) s

/-! ### Units that read and write through a context's windows -/

/-- Device address that a unit reads or writes at a context address. -/
def unitAddr (s : State) (c : Nat) (need : Need) (ca : Nat) : Option Nat := translate s c none need ca 1

/-- The size of the part of an address space that one path serves: a stack of T2, the T1 of a region, the T0 of a cell. -/
def pathBytes (a : Nat) : Nat :=
  match spaceOf a with
  | 0 => 2 ^ 37
  | 1 => 2 ^ 29
  | 2 => 2 ^ 20
  | _ => 2 ^ 56

/-- The places of a device range that different paths serve: its start, and each further part that it reaches (R173). -/
def pathPlaces (a n : Nat) : List Nat :=
  a :: (List.range ((a + n - 1) / pathBytes a - a / pathBytes a)).map fun i => (a / pathBytes a + i + 1) * pathBytes a

/-- What of n bytes at a context address lies within its window: the device address and the bytes that it maps (R95, R502). -/
def mapped (s : State) (c : Nat) (need : Need) (ca n : Nat) : Option (Nat × Nat) :=
  (unitAddr s c need ca).map fun a => (a, Nat.min n (winSize (winEntry s c (bits ca 47 40)) - bits ca 39 0))

/-- The read hops of ranges of context addresses at a rate, those that translate; a hop that several share once. -/
def readPath (s : State) (c own rate : Nat) (l : List (Nat × Nat)) : List (Hop × Nat) :=
  mergeHops (l.flatMap fun x => match mapped s c .read x.1 x.2 with
    | some y => (pathPlaces y.1 y.2).flatMap fun a => readHops s own a rate
    | none => [])

def writePath (s : State) (c own rate : Nat) (l : List (Nat × Nat)) : List (Hop × Nat) :=
  mergeHops (l.flatMap fun x => match mapped s c .write x.1 x.2 with
    | some y => (pathPlaces y.1 y.2).flatMap fun a => writeHops s own a rate
    | none => [])

/-- A unit's reader. -/
def unitReader (s : State) (c : Nat) : Reader := fun ca n => leNat (winRead s c none ca n)

/-! ### Acceptance (R173 to R177, R191, R192, R195) -/

/-- The arrays that a job reads, with their bytes (R173). -/
def reelArrays (j : ReelDesc) (g : GraphDesc) : List (Nat × Nat) :=
  [(j.seedList, 8 * j.seeds), (j.graph, 64), (g.offsets, 8 * (g.nodes + 1)), (g.neigh, (if g.wide then 8 else 4) * g.edges)] ++
    (if g.hasWeights then [(g.weights, 4 * g.edges)] else []) ++ (if g.hasAlias then [(g.alias_, 8 * g.edges)] else [])

/-- The rates of a job: 40 GB/s from each array it reads, 16 GB/s to its frame, both where a hop carries both (R173). -/
def reelHops (s : State) (c own : Nat) (j : ReelDesc) (g : GraphDesc) : List (Hop × Nat) :=
  mergeHops ((.portIn own, 40) :: readPath s c own 40 (reelArrays j g)) ++ writePath s c own 16 [(j.frame, j.frameBound)]

/-- The stack that a unit writes to at a context address. -/
def stackInto (s : State) (c ca : Nat) : Option Nat := (unitAddr s c .write ca).bind stackAt

/-- FRAME is aligned, and its window permits the header to be written. -/
def frameHeaderOk (s : State) (c : Nat) (j : ReelDesc) : Bool := j.frame % 64 == 0 && (translate s c none .write j.frame 64).isSome

/-- The window of FRAME lies in T1 or T2. -/
def frameSpaceOk (s : State) (j : ReelDesc) (c : Nat) : Bool :=
  let sp := winSpace (winEntry s c (bits j.frame 47 40))
  sp == 0 || sp == 1

/-- A job passes every check of Table 6.11 made at acceptance. -/
def reelOk (s : State) (c : Nat) (r gr : List Byte) : Bool :=
  let j := readReelDesc r
  reelDescOk r && graphOk gr && methodsOk j (readGraph gr) && frameHeaderOk s c j && frameSpaceOk s j c &&
    decide (j.bounds.1 ≤ 16777216 ∧ j.bounds.2 ≤ 268435456 ∧ j.frameBound ≤ j.frameMax)

/-- Device ranges of what a job reads. -/
def reelReads (s : State) (c : Nat) (job : ReelJob) (j : ReelDesc) (g : GraphDesc) : List (Nat × Nat) :=
  ((job.descAddr, 128) :: reelArrays j g).filterMap fun x => (mapped s c .read x.1 x.2).map fun y => (memKey s y.1, y.2)

/-- The device range of a frame. -/
def frameRange (s : State) (c : Nat) (j : ReelDesc) : List (Nat × Nat) :=
  match mapped s c .write j.frame j.frameBound with
  | some y => [(memKey s y.1, y.2)]
  | none => []

/-- The device range of the frame of an accepted job, through the windows of its acceptance (R94, R502). -/
def runFrame (s : State) (r : ReelRun) : List (Nat × Nat) := frameRange (withWindows s r.job.ctx r.wins) r.job.ctx r.desc

/-- Every accepted job of the device: region, Reel, job. -/
def runningReels (s : State) : List (Nat × Nat × ReelRun) :=
  s.logs.flatMap fun e => e.2.reels.filterMap fun u => u.2.running.map fun r => (e.1, u.1, r)

/-- A frame overlaps another: both jobs are dynamically inconsistent (R196, R502). -/
def taintFrames (s : State) (c : Nat) (j : ReelDesc) : State :=
  (runningReels s).foldl (fun s x =>
    if rangesShare (frameRange s c j) (runFrame s x.2.2) then
      modReel s x.1 x.2.1 fun u => { u with running := u.running.map fun r => { r with tainted := true } }
    else s) s
where
  rangesShare (a b : List (Nat × Nat)) : Bool :=
    a.any fun x => b.any fun y => decide (x.1 < y.1 + y.2) && decide (y.1 < x.1 + x.2)

/-- A refused job writes FRAME_LEN 0, STATUS rejected check and FLAGS 0 where it may, and then reports (R195,
REEL_JOB_REFUSED). -/
def refuseReel (s : State) (L r : Nat) (job : ReelJob) (j : ReelDesc) : State :=
  let o : Origin := .reel L r
  let s := if frameHeaderOk s job.ctx j then
      unitWrite (unitWrite s job.ctx o j.frame (leBytes 4 0 ++ leBytes 2 stRejected)) job.ctx o (j.frame + 7) [0]
    else s
  unitReport s job.ctx o j.token j.done none none

/-- The accepted job starts: FLAGS is written as zero (R192). -/
def startReel (s : State) (L r : Nat) (job : ReelJob) (rec_ gr : List Byte) (t : Nat) : State :=
  let j := readReelDesc rec_
  let c := job.ctx
  let bad := taintFrames.rangesShare (frameRange s c j) (reelReads s c job j (readGraph gr)) ||
    (runningReels s).any fun x => taintFrames.rangesShare (frameRange s c j) (runFrame s x.2.2)
  let s := taintFrames s c j
  let s := if bad then s else unitWrite s c (.reel L r) (j.frame + 7) [0]
  modReel s L r fun u =>
    { u with running := some { job := job, desc := j, graphRec := gr, tAccept := t, promise := t + j.promiseNs,
                               wins := windowsAt s c (j.frame :: (reelArrays j (readGraph gr)).map (·.1)), written := false,
                               tainted := bad } }

/-- A region in which units accept work: neither vacant nor fenced, on a device that does not hold (R37, R444, R449). -/
def unitsAccept (s : State) (L : Nat) : Bool :=
  !s.hold && !(regionOf s L).vacant && (regionOf s L).exchange.isNone

/-- REEL_JOB_ACCEPT (R173, R177, R195): the head of the queue reserves its rates and is then accepted and checked. -/
def execReelJobAccept (region reel : Nat) (s : State) : Host.Outcome State Fault Refusal :=
  let u := reelUnit s region reel
  match u.running, u.queue with
  | none, job :: rest =>
    if !unitsAccept s region ∨ (ctxOf s job.ctx).state = .paused then notNow s
    else
      let own := (physOfLogical s region).getD 0xFF
      let rec_ := winRead s job.ctx none job.descAddr 128
      let j := readReelDesc rec_
      let gr := winRead s job.ctx none j.graph 64
      let s := reserveRates s (.reel region reel) (some job.ctx) (stackInto s job.ctx j.frame)
        (reelHops s job.ctx own j (readGraph gr))
      match ratesSince s (.reel region reel) with
      | none => .next s
      | some t =>
        let s := unitReads s job.ctx (.reel region reel) [(job.descAddr, 128), (j.graph, 64)]
        let s := modReel s region reel fun u => { u with queue := rest }
        if reelOk s job.ctx rec_ gr then .next (startReel s region reel job rec_ gr t)
        else .next (endTransfer (refuseReel s region reel job j) (.reel region reel))
  | _, _ => notNow s

/-! ### Completion (R187 to R192) -/

/-- The frame is written: directory and arrays, then the header with VALID (R190, R192). -/
def writeFrame (s : State) (c : Nat) (o : Origin) (r : ReelRun) (x : Samp) : State :=
  let s := writeOut s c o (ctxPlus r.desc.frame 0x40) (dirBytes x ++ arrayBytes r.desc x)
  unitWrite s c o r.desc.frame (headerBytes r.desc x r.job.handle r.tAccept (now s))

/-- What the completed job leaves in memory, through the windows of its acceptance (R94): its reads and its frame. -/
def finishFrame (s : State) (o : Origin) (r : ReelRun) (x : Samp) : State :=
  let c := r.job.ctx
  underWindows s c r.wins fun s => if r.tainted then undefinedEffect s c else writeFrame (unitReads s c o x.reads) c o r x

/-- REEL_JOB_COMPLETE (R174, R188 to R192): the frame, the counts, TOKEN and DONE; the job is complete, and leaves its Reel, once
these are performed (R176). A job in a region that has failed runs again
in the replacement (R197). -/
def execReelJobComplete (region reel : Nat) (s : State) : Host.Outcome State Fault Refusal :=
  match (reelUnit s region reel).running with
  | none => notNow s
  | some r =>
    let c := r.job.ctx
    let o : Origin := .reel region reel
    let p := originPhys s o
    if r.written ∨ (regionOf s region).vacant ∨ physFailed s p then notNow s
    else
      let x := sample (unitReader (withWindows s c r.wins) c) r.desc (readGraph r.graphRec)
      let s := addIndexFaults (finishFrame s o r x) c x.faults
      let s := modReelCount s p reel fun k => { k with units := (k.units + x.units) % 2 ^ 40 }
      let s := countAct s (.region p) (some c) .reel x.units
      let s := endTransfer (modReel s region reel fun u => { u with running := some { r with written := true } }) (.reel region reel)
      .next (unitReport s c o r.desc.token r.desc.done none (some { due := r.promise, phys := p, row := 13, job := some o }))

end Sys2Proof.Machine
end

