-- ==== Sys2Proof/Machine/Gather.lean ====
section
/-! DEFINITION. The gather engines (07 R203 to R210, R219 to R224): rings, job records, acceptance, merging, batches, the
loft, completion. -/

namespace Sys2Proof.Machine

open Sys2Proof

/-! ### Records (Table 7.4) -/

def readGatherRec (r : List Byte) : GatherRec :=
  { op := fieldAt r 0 1, table := fieldAt r 1 1, jflags := fieldAt r 2 1, lists := fieldAt r 3 1, rate := fieldAt r 4 4,
    ids := fieldAt r 8 8, data := fieldAt r 0x10 8, dstride := fieldAt r 0x18 4,
    token := BitVec.ofNat 64 (fieldAt r 0x20 8), done := fieldAt r 0x28 8, pin := fieldAt r 0x30 8,
    result := fieldAt r 0x38 8, clean := fieldAt r 0x1C 4 == 0 && fieldAt r 2 1 / 8 == 0 }

def GatherRec.usePin (r : GatherRec) : Bool := bitOf r.jflags 0
def GatherRec.keepPin (r : GatherRec) : Bool := bitOf r.jflags 1
def GatherRec.release (r : GatherRec) : Bool := bitOf r.jflags 2

/-- ADDR, COUNT and ESTRIDE of each list entry of a job. -/
def listEntries (s : State) (c : Nat) (r : GatherRec) : List (Nat × Nat × Nat) :=
  (List.range r.lists).map fun i =>
    let e := winRead s c none (ctxPlus r.ids (16 * i)) 16
    (fieldAt e 0 8, fieldAt e 8 4, fieldAt e 12 4)

/-- Positions of a job. -/
def positionCount (l : List (Nat × Nat × Nat)) : Nat := (l.map fun e => e.2.1).sum

/-- The context address of each position's identifier. -/
def idAddrs (l : List (Nat × Nat × Nat)) : List Nat :=
  l.flatMap fun e => (List.range e.2.1).map fun k => ctxPlus e.1 (k * e.2.2)

/-- The row of each position: bits [39:0] of its word (R204). -/
def rowsOf (s : State) (c : Nat) (l : List (Nat × Nat × Nat)) : List Nat :=
  (idAddrs l).map fun a => leNat (winRead s c none a 8) % 2 ^ 40

/-! ### Rings and pins -/

/-- A ring register's EN, BASE and number of records (Tables 7.3, 11.2, 13.5). -/
def ringEn (s : State) (c L k : Nat) : Bool := bitOf (rawReg s (offRing c L k)).toNat 63
def ringBase (s : State) (c L k : Nat) : Nat := rawField s (offRing c L k) 47 6 * 64
def ringSize (s : State) (c L k : Nat) : Nat := 2 ^ rawField s (offRing c L k) 62 59

/-- A record stands in a ring past those consumed: comparisons modulo 2^32 (R203). -/
def ringHas (s : State) (c L k next : Nat) : Bool :=
  let ahead := (leNat (winRead s c none (ringBase s c L k) 4) + 2 ^ 32 - next % 2 ^ 32) % 2 ^ 32
  ringEn s c L k && decide (0 < ahead ∧ ahead < 2 ^ 31)

/-- The record of 64, or more, bytes at a ring position. -/
def ringRecordAddr (s : State) (c L k next bytes : Nat) : Nat :=
  ctxPlus (ringBase s c L k) (64 + bytes * (next % ringSize s c L k))

/-- The engine writes the count of records it has consumed at offset 4 of the ring header. -/
def writeConsumed (s : State) (c L k next : Nat) : State :=
  winWrite s c none (ctxPlus (ringBase s c L k) 4) (leBytes 4 next)

/-- The pin handle at an address: VERSION, epoch, TABLE and the reserved byte (R209). -/
def readHandle (s : State) (c ca : Nat) : Nat × Nat × Nat × Nat :=
  let h := winRead s c none ca 8
  (fieldAt h 0 4, fieldAt h 4 2, fieldAt h 6 1, fieldAt h 7 1)

/-- A kept pin of a context on a table. -/
def keptPin? (s : State) (c t v e : Nat) : Option KeptPin :=
  s.keptPins.find? fun k => k.ctx == c && k.table == t && k.version == v && k.epoch == some e && k.area.isNone

/-- The handle that USE_PIN or RELEASE names is a kept pin of the context on the job's table. -/
def handleOk (s : State) (c : Nat) (r : GatherRec) : Bool :=
  if r.usePin ∨ r.release then
    let h := readHandle s c r.pin
    h.2.2.1 == r.table && h.2.2.2 == 0 && (keptPin? s c r.table h.1 h.2.1).isSome
  else true

/-! ### Lofts (R219, R220, Table 7.12) -/

def loftOf (s : State) (L c : Nat) : Loft := mget Loft.zero (regionOf s L).lofts c

def modLoft (s : State) (L c : Nat) (f : Loft → Loft) : State :=
  modRegion s L fun R => { R with lofts := mmod Loft.zero R.lofts c f }

def loftEn (s : State) (L c : Nat) : Bool := bitOf (rawReg s (offLoft c L)).toNat 63

/-- SIZE in 2 MiB units. -/
def loftSize (s : State) (L c : Nat) : Nat := rawField s (offLoft c L) 62 57

def Loft.half (l : Loft) (h : Nat) : List LoftRow := if h = 0 then l.half0 else l.half1

def Loft.setHalf (l : Loft) (h : Nat) (rows : List LoftRow) : Loft :=
  if h = 0 then { l with half0 := rows } else { l with half1 := rows }

/-- Rows of a table that a half may hold: its bytes, and the context's share of the 65,536 tags, in proportion to SIZE of
the 32 units that a region's lofts may take (R219). -/
def loftCapacity (size rowBytes : Nat) : Nat := Nat.min (size * 1048576 / rowBytes) (65536 * size / 32)

/-- Tags of a region's loft store in use or being filled, apart from the rows of a table in one half of a context, which its
fill replaces. -/
def loftTags (s : State) (L c half t : Nat) : Nat :=
  ((regionOf s L).lofts.map fun e =>
    let n := fun h : Nat =>
      (if e.1 = c ∧ h = half then (e.2.half h).filter (fun r => r.table != t) else e.2.half h).length
    n 0 + n 1).sum +
    (((regionOf s L).gatherJobs.filter fun k => k.accepted && k.rcd.op == 4 && k.ctx != c).map (·.unique)).sum

/-- Rows that a fill may take: its half's capacity, and the tags that the region still has (R219). -/
def loftRoom (s : State) (L c half : Nat) (d : TableDesc) : Nat :=
  Nat.min (loftCapacity (loftSize s L c) d.rowBytes) (65536 - loftTags s L c half d.table)

/-- T1 address at which replies for a half arrive. -/
def loftArea (s : State) (L c half : Nat) : Nat :=
  let u := ((regionOf s L).units.find? fun e => e.2 == .loft c).map (·.1)
  t1Addr L (u.getD 0 * 2097152 + half * (loftSize s L c * 1048576))

/-- The bytes of a row that hits the loft (Table 7.11). -/
def loftHit (s : State) (L c : Nat) (v : TableVersion) (r : Nat) (half : Nat) : Option (List Byte) :=
  if v.desc.loft = 0 ∨ !loftEn s L c then none
  else
    (((loftOf s L c).half half).find? fun e =>
      e.table == v.desc.table && e.version == v.desc.version && e.row == r).map (·.bytes)

/-! ### Checks (Table 7.13) -/

/-- Fields in range: Table 7.4. -/
def recordInRange (r : GatherRec) (l : List (Nat × Nat × Nat)) : Bool :=
  r.clean && decide (1 ≤ r.op ∧ r.op ≤ 4 ∧ 1 ≤ r.lists ∧ r.lists ≤ 8 ∧ 1 ≤ r.rate ∧ r.rate ≤ 256) &&
    (r.jflags != 0 || r.pin == 0) && decide (positionCount l ≤ 1048576) && l.all (fun e => decide (8 ≤ e.2.2)) &&
    (if r.op = 4 then r.data == 0 && r.dstride == 0 else r.dstride % 16 == 0)

/-- DSTRIDE holds a row (Table 7.4). -/
def strideHolds (r : GatherRec) (d : TableDesc) : Bool :=
  match r.op with
  | 4 => true
  | 2 => decide (d.rowElems * 4 ≤ r.dstride)
  | _ => decide (d.packed ≤ r.dstride)

/-- The operation is allowed on the version (Table 7.13). -/
def opAllowed (s : State) (L c : Nat) (r : GatherRec) (d : TableDesc) : Bool :=
  match r.op with
  | 2 => d.grad
  | 3 => !d.frozen
  | 4 => loftEn s L c && d.loft != 0
  | _ => true

/-- Version and directory epoch that a record pins (R205). -/
def pairOf (s : State) (c : Nat) (r : GatherRec) : Nat × Nat :=
  if r.usePin then ((readHandle s c r.pin).1, (readHandle s c r.pin).2.1)
  else ((tableOf s r.table).current, (tableOf s r.table).epoch)

/-- A record passes every check of Table 7.13. -/
def gatherOk (s : State) (L c : Nat) (r : GatherRec) : Bool :=
  let T := tableOf s r.table
  recordInRange r (listEntries s c r) && T.versions != [] && T.fn == (ctxOf s c).fn && handleOk s c r &&
    match findVersion s r.table (pairOf s c r).1 with
    | some v => strideHolds r v.desc && opAllowed s L c r v.desc
    | none => false

/-! ### Results (Table 7.5) -/

def resultBytes (status rflags version positions_ unique hits faults tDone : Nat) : List Byte :=
  leBytes 2 status ++ leBytes 1 rflags ++ [0] ++ leBytes 4 version ++ leBytes 4 positions_ ++ leBytes 4 unique ++
    leBytes 4 hits ++ leBytes 4 faults ++ leBytes 8 tDone

/-- A refused job writes RESULT where it may, and reports (GATHER_JOB_REFUSED, R222). -/
def refuseGather (s : State) (L c tag : Nat) (r : GatherRec) : State :=
  let s := if (translate s c none .write r.result 32).isSome then
      unitWrite s c (.gather L tag) r.result (resultBytes stRejected 2 0 0 0 0 0 (now s))
    else s
  unitReport s c (.gather L tag) r.token r.done none none

/-! ### Taking a record (R203, R205) -/

/-- The reads that a record's checks make. -/
def recordReads (r : GatherRec) : List (Nat × Nat) :=
  ((List.range (Nat.min r.lists 8)).map fun i => (ctxPlus r.ids (16 * i), 16)) ++
    (if r.usePin ∨ r.release then [(r.pin, 8)] else [])

/-- A job of the record, pinned. -/
def newGatherJob (s : State) (L c : Nat) (ringIndex : Nat) (r : GatherRec) : GatherJob :=
  { tag := (regionOf s L).nextGather, ctx := c, ringIndex := ringIndex, rcd := r, version := (pairOf s c r).1,
    epoch := (pairOf s c r).2, accepted := false, tAccept := 0, promise := 0, rows := [], toSend := [], batches := 0,
    arriveAddr := 0, unique := 0, loftHits := 0, indexFaults := 0, ovf := false, half := none,
    release := if r.release then some ((readHandle s c r.pin).1, (readHandle s c r.pin).2.1) else none
    wins := [], fetched := [], dataOut := false, lastData := 0, reported := false }

/-- The engine takes the next record of a ring: it joins the taken jobs, pinned, or is refused. -/
def takeRecord (s : State) (L c next : Nat) (r : GatherRec) : State :=
  let tag := (regionOf s L).nextGather
  let s := unitReads s c (.gather L tag) (recordReads r)
  let ok := gatherOk s L c r
  let j := newGatherJob s L c next r
  let s := modRegion s L fun R => { R with nextGather := R.nextGather + 1 }
  if ok then modRegion s L fun R => { R with gatherJobs := R.gatherJobs ++ [j] } else refuseGather s L c tag r

/-- GATHER_RECORD_READ (R203, R205, R222): fewer than four jobs are taken, and none of this ring waits. -/
def execGatherRecordRead (ctx region : Nat) (s : State) : Host.Outcome State Fault Refusal :=
  let jobs := (regionOf s region).gatherJobs
  let next := (ctxRegionOf (ctxOf s ctx) region).gatherNext
  if !ctxRuns s ctx ∨ !unitsAccept s region ∨ 4 ≤ jobs.length ∨ jobs.any (fun j => j.ctx == ctx && !j.accepted) ∨
      !ringHas s ctx region 0 next then notNow s
  else
    let a := ringRecordAddr s ctx region 0 next 64
    let r := readGatherRec (winRead s ctx none a 64)
    let s := unitReads s ctx (.gather region (regionOf s region).nextGather) [(a, 64)]
    let s := modCtxRegion s ctx region fun x => { x with gatherNext := (next + 1) % 2 ^ 32 }
    .next (takeRecord (writeConsumed s ctx region 0 (next + 1)) region ctx next r)

/-! ### Merging (R208) -/

/-- A row to fetch or send: the row, the first position that names it, and whether later positions are merged with it. -/
structure Distinct where
  row : Nat
  first : Nat
  merged : Bool
  deriving DecidableEq, Repr, Inhabited

/-- The distinct rows of positions, in order; past the capacity of the deduplication store an occurrence stands alone. -/
def distinctRows (l : List (Nat × Nat)) : List Distinct :=
  (l.foldl (fun (acc : List Nat × List Distinct) x =>
    if acc.1.contains x.1 then acc
    else if acc.1.length < 262144 then (acc.1 ++ [x.1], acc.2 ++ [⟨x.1, x.2, true⟩])
    else (acc.1, acc.2 ++ [⟨x.1, x.2, false⟩])) ([], [])).2

/-- Context address of position p at DATA. -/
def dataRow (r : GatherRec) (p : Nat) : Nat := ctxPlus r.data (p * r.dstride)

/-- The positions whose row exists, with their rows. -/
def livePositions (d : TableDesc) (rows : List Nat) : List (Nat × Nat) := rows.zipIdx.filter fun x => decide (x.1 < d.rows)

/-- The positions that a job serves: for GATHER those whose DATA row may be written. -/
def servedPositions (s : State) (j : GatherJob) (d : TableDesc) : List (Nat × Nat) :=
  let l := livePositions d j.rows
  if j.rcd.op = 1 then l.filter fun x => (translate s j.ctx none .write (dataRow j.rcd x.2) d.packed).isSome else l

/-- The rows a job fetches or sends: for LOFT_FILL no more than the half may hold (R220). -/
def jobRows (s : State) (L : Nat) (j : GatherJob) (d : TableDesc) : List Distinct :=
  let l := distinctRows (servedPositions s j d)
  if j.rcd.op = 4 then
    (l.take (loftRoom s L j.ctx (1 - (loftOf s L j.ctx).active) d)).zipIdx.map fun (x, i) => { x with first := i }
  else l

/-! ### Payloads (R207) -/

/-- One FP32 source element converted to the accumulator, with OVF. -/
def gradElem (d : TableDesc) (x : Nat) : Int × Bool :=
  let hi : Int := (2 ^ (31 - d.headroom) : Nat) - 1
  toIntRange .nearest (-hi) hi ((f32 (BitVec.ofNat 32 x)).scale (-d.gradExp))

/-- The converted elements of the source row of a position. -/
def gradRow (s : State) (c : Nat) (r : GatherRec) (d : TableDesc) (p : Nat) : List (Int × Bool) :=
  let bs := winRead s c none (dataRow r p) (4 * d.rowElems)
  (List.range d.rowElems).map fun i => gradElem d (fieldAt bs (4 * i) 4)

/-- The positions that a distinct row stands for. -/
def standsFor (l : List (Nat × Nat)) (x : Distinct) : List Nat :=
  if x.merged then (l.filter fun e => e.1 == x.row).map (·.2) else [x.first]

/-- The payload row of a distinct row: merged values for SCATTER_ADD, the row of the highest position for WRITE. -/
def payloadOf (s : State) (j : GatherJob) (d : TableDesc) (l : List (Nat × Nat)) (x : Distinct) : List Byte :=
  let ps := standsFor l x
  match j.rcd.op with
  | 2 =>
    let rows := ps.map fun p => (gradRow s j.ctx j.rcd d p).map fun e => ofSigned 32 e.1
    (rows.foldl (fun a r => (a.zip r).map fun (u, w) => (u + w) % 2 ^ 32) (List.replicate d.rowElems 0)).flatMap (leBytes 4)
  | 3 => fit d.rowBytes (winRead s j.ctx none (dataRow j.rcd (ps.foldl Nat.max x.first)) d.packed)
  | _ => []

/-- Some converted element of the job overflowed. -/
def jobOvf (s : State) (j : GatherJob) (d : TableDesc) : Bool :=
  j.rcd.op == 2 && (livePositions d j.rows).any fun x => (gradRow s j.ctx j.rcd d x.2).any (·.2)

/-! ### Batches (R211, R212) -/

/-- Entries that one batch of at most 64 KiB holds. -/
def batchRoom (op : Nat) (d : TableDesc) : Nat :=
  match op with
  | 2 => Nat.max 1 (65472 / (8 + 4 * d.rowElems))
  | 3 => Nat.max 1 (65472 / (8 + d.rowBytes))
  | _ => 8184

/-- The operation of a job's batches (Table 7.6). -/
def batchOp (op : Nat) : Nat := if op = 4 then 1 else op

/-- One batch of some distinct rows. -/
def makeBatch (s : State) (L : Nat) (j : GatherJob) (d : TableDesc) (l : List (Nat × Nat)) (reply dstride : Nat)
    (xs : List Distinct) : OwnerBatch :=
  { hdr := { op := batchOp j.rcd.op, table := j.rcd.table, version := j.version, epoch := j.epoch, source := ownCode s L,
             fwd := false, job := j.tag, reply := reply, dstride := dstride, arrive := j.arriveAddr },
    entries := xs.map fun x => (x.row, x.first),
    payload := if batchOp j.rcd.op = 1 then [] else xs.map (payloadOf s j d l) }

/-- The distinct owners of some rows, in order of first appearance. -/
def ownersOf (own : Nat → Nat) (xs : List Distinct) : List Nat := (xs.map fun x => own x.row).eraseDups

/-- Cuts a list into pieces of at most k; `n` bounds the pieces. -/
def cut {α : Type} (k : Nat) : Nat → List α → List (List α)
  | 0, _ => []
  | n + 1, l => if l.isEmpty then [] else l.take k :: cut k n (l.drop k)

/-- The batches of a job to owners other than its own region. -/
def jobBatches (s : State) (L : Nat) (j : GatherJob) (v : TableVersion) (l : List (Nat × Nat)) (reply dstride : Nat)
    (xs : List Distinct) : List (Nat × OwnerBatch) :=
  let own := fun r => (route (tableOf s j.rcd.table) v r j.epoch).1
  let others := (ownersOf own xs).filter (· != ownCode s L)
  others.flatMap fun o =>
    let mine := xs.filter fun x => own x.row == o
    (cut (batchRoom j.rcd.op v.desc) mine.length mine).map fun p => (o, makeBatch s L j v.desc l reply dstride p)

/-! ### Acceptance (R205) -/

/-- Rows of a GATHER that hit the loft, with their bytes, and the rows to fetch or send (Table 7.11). -/
def loftSplit (s : State) (L : Nat) (j : GatherJob) (v : TableVersion) (xs : List Distinct) :
    List (Distinct × List Byte) × List Distinct :=
  if j.rcd.op ≠ 1 then ([], xs)
  else
    let hit := fun x : Distinct => loftHit s L j.ctx v x.row (loftOf s L j.ctx).active
    (xs.filterMap fun x => (hit x).map fun bs => (x, bs), xs.filter fun x => (hit x).isNone)

/-- The rates of a job: r at its own port, and its share from each owner region that it will send to (R205). -/
def gatherHops (s : State) (L : Nat) (j : GatherJob) (v : TableVersion) (xs : List Distinct) : List (Hop × Nat) :=
  let own := (physOfLogical s L).getD 0xFF
  let per := if j.rcd.op = 2 then 4 * v.desc.rowElems else v.desc.rowBytes
  let B := j.rows.length * v.desc.rowBytes
  let at_ := fun r => (route (tableOf s j.rcd.table) v r j.epoch).1
  let rest := (loftSplit s L j v xs).2
  let port : Hop := if batchOp j.rcd.op = 1 then .portIn own else .portOut own
  (port, j.rcd.rate) :: ((ownersOf at_ rest).filter (· != ownCode s L)).map fun o =>
    (.engine o, Nat.max 1 (ceilDiv (j.rcd.rate * ((rest.filter fun x => at_ x.row == o).length * per)) (Nat.max 1 B)))

/-- A LOFT_FILL waits until the half it fills has no pins, has become active if it is ready, and no other LOFT_FILL of the context is
accepted here (R220). -/
def fillMayStart (s : State) (L : Nat) (j : GatherJob) : Bool :=
  let filling := 1 - (loftOf s L j.ctx).active
  !(regionOf s L).loftWaits.contains j.ctx && !(loftOf s L j.ctx).ready && (regionOf s L).gatherJobs.all fun k =>
    !k.accepted || k.ctx != j.ctx || (k.rcd.op != 4 && k.half != some filling)

/-- Kept pins in use on the device (R209). -/
def keptCount (s : State) : Nat := s.keptPins.length

def findGather (s : State) (L tag : Nat) : Option GatherJob := (regionOf s L).gatherJobs.find? fun j => j.tag == tag

def modGatherJob (s : State) (L tag : Nat) (f : GatherJob → GatherJob) : State :=
  modRegion s L fun R => { R with gatherJobs := R.gatherJobs.map fun k => if k.tag = tag then f k else k }

/-- The promise of R206: 16,000 + 0.8 × P + P × ROW_BYTES ÷ r ns, rounded up to whole nanoseconds as the example of chapter 12
rounds it. -/
def gatherPromise (p rowBytes r : Nat) : Nat := ceilDiv (80000 * r + 4 * p * r + 5 * p * rowBytes) (5 * r)

/-- The address at which an owner's reply for entry 0 goes: DATA row 0, or the filling half of the loft. -/
def replyOf (s : State) (L : Nat) (j : GatherJob) : Nat :=
  if j.rcd.op = 4 then loftArea s L j.ctx (1 - (loftOf s L j.ctx).active)
  else
    match translate s j.ctx none .write j.rcd.data 1 with
    | some a => a
    | none => 0

/-- Positions with no row: a zero row for GATHER, skipped by the others; one index fault each (R207). -/
def zeroRows (s : State) (o : Origin) (j : GatherJob) (d : TableDesc) : State :=
  if j.rcd.op ≠ 1 then s
  else (j.rows.zipIdx.filter fun x => decide (d.rows ≤ x.1)).foldl
    (fun s x => unitWrite s j.ctx o (dataRow j.rcd x.2) (List.replicate d.packed 0)) s

/-- Window faults of GATHER's positions whose DATA row may not be written (R95). -/
def rowFaults (s : State) (j : GatherJob) (d : TableDesc) : State :=
  if j.rcd.op ≠ 1 then s
  else (livePositions d j.rows).foldl (fun s x =>
    if (translate s j.ctx none .write (dataRow j.rcd x.2) d.packed).isSome then s
    else windowFault s j.ctx (dataRow j.rcd x.2)) s

/-- Reads of the source rows (R222). -/
def sourceReads (j : GatherJob) (d : TableDesc) : List (Nat × Nat) :=
  match j.rcd.op with
  | 2 => (livePositions d j.rows).map fun x => (dataRow j.rcd x.2, 4 * d.rowElems)
  | 3 => (livePositions d j.rows).map fun x => (dataRow j.rcd x.2, d.packed)
  | _ => []

/-- The half a job pins: GATHER the active one, LOFT_FILL the filling one. -/
def halfOf (s : State) (L : Nat) (j : GatherJob) : Option Nat :=
  let a := (loftOf s L j.ctx).active
  if j.rcd.op = 4 then some (1 - a) else if j.rcd.op = 1 ∧ loftEn s L j.ctx then some a else none

/-- The job as it is accepted at t. -/
def acceptedJob (s : State) (L : Nat) (j : GatherJob) (d : TableDesc) (t : Nat) : GatherJob :=
  { j with accepted := true, tAccept := t, promise := t + gatherPromise j.rows.length d.rowBytes j.rcd.rate,
           half := halfOf s L j, indexFaults := (j.rows.filter fun r => decide (d.rows ≤ r)).length,
           ovf := jobOvf s j d, arriveAddr := arrivalWord L j.tag,
           wins := windowsAt s j.ctx [j.rcd.data, j.rcd.result, j.rcd.pin] }

/-- A KEEP_PIN job keeps its version and epoch (R209). -/
def keepPin (s : State) (j : GatherJob) : State :=
  if j.rcd.keepPin then
    { s with keptPins := s.keptPins ++
      [{ ctx := j.ctx, fn := (ctxOf s j.ctx).fn, table := j.rcd.table, version := j.version, epoch := some j.epoch, area := none }] }
  else s

/-- The accepted job runs: loft hits are copied, its own region's rows served, the batches sent (R207 to R212). -/
def runGather (s : State) (L : Nat) (j0 : GatherJob) (v : TableVersion) (t : Nat) : State :=
  let d := v.desc
  let o : Origin := .gather L j0.tag
  let l := servedPositions s j0 d
  let all := jobRows s L j0 d
  let j := acceptedJob s L j0 d t
  let reply := replyOf s L j
  let stride := if j.rcd.op = 4 then d.rowBytes else j.rcd.dstride
  let hits := loftSplit s L j v all
  let mine := hits.2.filter fun x => (route (tableOf s j.rcd.table) v x.row j.epoch).1 == ownCode s L
  let bs := jobBatches s L j v l reply stride hits.2
  let local_ := makeBatch s L j d l reply stride mine
  let s := hits.1.foldl (fun s x => unitWrite s j.ctx o (dataRow j.rcd x.1.first) x.2) s
  let s := rowFaults (zeroRows (unitReads s j.ctx o (sourceReads j d)) o j d) j d
  let s := modGatherJob (devWrite s (ctxOf s j.ctx).fn j.arriveAddr [0, 0, 0, 0]) L j.tag fun _ =>
    { j with fetched := hits.1.map fun x => (x.1.first, x.2) }
  let x := serveEntries o L local_ v (batchRows local_) false s
  let y := sendBatches L bs (sendForwards x.2 L)
  let s := modGatherJob y.1 L j.tag fun k =>
    { k with toSend := y.2, batches := k.batches + bs.length, unique := hits.2.length, loftHits := hits.1.length }
  keepPin s j

/-- The checks of Table 7.13 as they stand at acceptance, under the pin that the job has taken. -/
def stillOk (s : State) (L : Nat) (j : GatherJob) (v : TableVersion) : Bool :=
  recordInRange j.rcd (listEntries s j.ctx j.rcd) && (tableOf s j.rcd.table).fn == (ctxOf s j.ctx).fn &&
    (!j.rcd.usePin || (keptPin? s j.ctx j.rcd.table j.version j.epoch).isSome) &&
    (match j.release with
      | some (a, e) => (keptPin? s j.ctx j.rcd.table a e).isSome
      | none => true) && strideHolds j.rcd v.desc && opAllowed s L j.ctx j.rcd v.desc

/-- The job leaves the engine. -/
def dropGather (s : State) (L tag : Nat) : State :=
  endTransfer (modRegion s L fun R => { R with gatherJobs := R.gatherJobs.filter fun k => k.tag != tag }) (.gather L tag)

/-- A taken job reserves its rates and is then accepted (R205). A job that fails a check at that instant is refused (R222). -/
def acceptGather (op region job : Nat) (s : State) : State :=
  match findGather s region job with
  | none => s
  | some j0 =>
    if j0.accepted ∨ j0.rcd.op ≠ op ∨ !ctxRuns s j0.ctx ∨ !unitsAccept s region ∨
        (j0.rcd.keepPin ∧ 4096 ≤ keptCount s) ∨ (op = 4 ∧ !fillMayStart s region j0) then s
    else
      match findVersion s j0.rcd.table j0.version with
      | none => s
      | some v =>
        let l := listEntries s j0.ctx j0.rcd
        let j := { j0 with rows := rowsOf s j0.ctx l }
        let u : XferUse := .gather region job
        let into := if batchOp op = 1 then stackInto s j.ctx j.rcd.data else none
        if !stillOk s region j v then
          releaseVersions (refuseGather (dropGather s region job) region j.ctx job j.rcd) j.rcd.table
        else
          let s := reserveRates s u (some j.ctx) into (sumHops (gatherHops s region j v (jobRows s region j v.desc)))
          match ratesSince s u with
          | none => s
          | some t => runGather (unitReads s j.ctx (.gather region job) ((idAddrs l).map fun a => (a, 8))) region j v t

/-- GATHER (R205, R207, R208, R211, R214, R219). -/
def execGather (region job : Nat) (s : State) : Host.Outcome State Fault Refusal := .next (acceptGather 1 region job s)

/-- SCATTER_ADD (R205, R207, R208, R211). -/
def execScatterAdd (region job : Nat) (s : State) : Host.Outcome State Fault Refusal := .next (acceptGather 2 region job s)

/-- WRITE (R205, R207, R208, R211). -/
def execWrite (region job : Nat) (s : State) : Host.Outcome State Fault Refusal := .next (acceptGather 3 region job s)

/-- LOFT_FILL (R205, R207, R220). -/
def execLoftFill (region job : Nat) (s : State) : Host.Outcome State Fault Refusal := .next (acceptGather 4 region job s)

/-! ### Completion (R206, R208 to R210, R220) -/

/-- The bytes of a distinct row that the engine fetched: as the loft or an owner of this device gave them, or as an owner
of a peer has written them at the first position. -/
def fetchedRow (s : State) (j : GatherJob) (d : TableDesc) (x : Distinct) : List Byte :=
  match mget? j.fetched x.first with
  | some bs => bs
  | none => devRead s (replyAt x.first) d.packed
where
  replyAt (p : Nat) : Nat :=
    match translate s j.ctx none .write (dataRow j.rcd p) d.packed with
    | some a => a
    | none => 0

/-- Copies merged rows to their other positions (R208, R212). -/
def copyMerged (s : State) (o : Origin) (j : GatherJob) (d : TableDesc) (l : List (Nat × Nat)) : State :=
  if j.rcd.op ≠ 1 then s
  else (distinctRows l).foldl (fun s x =>
    ((standsFor l x).filter (· != x.first)).foldl (fun s p => unitWrite s j.ctx o (dataRow j.rcd p) (fetchedRow s j d x)) s) s

/-- The half that a fill has written: its rows of the table replace those the half held of it, and it is ready (R220). A fill whose
loft has been resized since leaves both halves empty. -/
def fillHalf (s : State) (L : Nat) (j : GatherJob) (d : TableDesc) : State :=
  match j.rcd.op, j.half with
  | 4, some half =>
    let l := distinctRows (servedPositions s j d)
    let xs := (l.take j.unique).zipIdx.map fun (x, i) => { x with first := i }
    let area := loftArea s L j.ctx half
    let rows := xs.map fun x =>
      { table := d.table, version := d.version, row := x.row, bytes := devRead s (area + x.first * d.rowBytes) d.packed : LoftRow }
    modLoft s L j.ctx fun f =>
      { f.setHalf half ((f.half half).filter (fun e => e.table != d.table) ++ rows) with
        ready := true
        overRows := satAdd 0xFFFFFF 0 (l.length - xs.length) }
  | _, _ => s

/-- The pin of a completed job: a handle for KEEP_PIN, and RELEASE frees the kept pin it names (R209). -/
def finishPins (s : State) (o : Origin) (j : GatherJob) : State :=
  let s := if j.rcd.keepPin then
      unitWrite s j.ctx o j.rcd.pin (leBytes 4 j.version ++ leBytes 2 j.epoch ++ leBytes 1 j.rcd.table ++ [0])
    else s
  match j.release with
  | some (v, e) =>
    match keptPin? s j.ctx j.rcd.table v e with
    | some k => { s with keptPins := s.keptPins.erase k }
    | none => s
  | none => s

/-- Every row has reached its place: ARRIVE equals the batches and their parts, none waits to be sent, and every write of the engine
to a peer is acknowledged (R210, R212). -/
def dataDone (s : State) (L : Nat) (j : GatherJob) : Bool :=
  j.accepted && j.toSend.isEmpty && leNat (devRead s j.arriveAddr 4) == j.batches % 2 ^ 32 && unitWrites s (.gather L j.tag) == []

/-- The last data writes of a job: merged rows to their other positions; a fill has its half ready (R208, R212, R220). -/
def finishData (s : State) (L : Nat) (j : GatherJob) (d : TableDesc) : State :=
  modGatherJob (underWindows s j.ctx j.wins fun s =>
      fillHalf (copyMerged s (.gather L j.tag) j d (servedPositions s j d)) L j d) L j.tag fun k =>
    { k with dataOut := true, lastData := now s }

/-- What a completed job writes once its data writes are complete, through the windows of its acceptance: its pin handle and RESULT
(R209, R210). -/
def finishGather (s : State) (L : Nat) (j : GatherJob) : State :=
  let o : Origin := .gather L j.tag
  underWindows s j.ctx j.wins fun s =>
    unitWrite (finishPins s o j) j.ctx o j.rcd.result
      (resultBytes (if j.indexFaults = 0 then stOk else stIndexFault) (b2n j.ovf + 2) j.version j.rows.length j.unique
        j.loftHits j.indexFaults j.lastData)

/-- The job has written RESULT: its rates are free, and it is complete once TOKEN and DONE are performed (R206). -/
def reportGather (s : State) (L : Nat) (j : GatherJob) : State :=
  let o : Origin := .gather L j.tag
  let s := addIndexFaults (finishGather s L j) j.ctx j.indexFaults
  let s := endTransfer (modGatherJob s L j.tag fun k => { k with reported := true }) (.gather L j.tag)
  unitReport s j.ctx o j.rcd.token j.rcd.done none (some { due := j.promise, phys := originPhys s o, row := 14, job := some o })

/-- GATHER_JOB_COMPLETE (R206, R209, R210, R212, R220): the data phase ends, and when its last writes are complete the job reports.
Batches that wait for a credit are sent meanwhile. -/
def execGatherJobComplete (region job : Nat) (s : State) : Host.Outcome State Fault Refusal :=
  match findGather s region job with
  | none => notNow s
  | some j =>
    match findVersion s j.rcd.table j.version with
    | none => notNow s
    | some v =>
      if j.reported ∨ regionLost s region then notNow s
      else if !dataDone s region j then .next (sendWaiting s)
      else
        let s := if j.dataOut then s else finishData s region j v.desc
        match findGather s region job with
        | some j => if unitWrites s (.gather region job) = [] then .next (reportGather s region j) else .next s
        | none => .next s

/-- The half that filled becomes active at the boundary (R220). -/
def Loft.activate (l : Loft) : Loft := if l.ready then { l with active := 1 - l.active, ready := false } else l

/-- LOFT_HALF_ACTIVATE (R220): at an epoch boundary every ready half becomes active. -/
def execLoftHalfActivate (s : State) : Host.Outcome State Fault Refusal :=
  if !isBoundary (now s) then notNow s
  else .next { s with logs := s.logs.map fun e => (e.1, { e.2 with lofts := e.2.lofts.map fun x => (x.1, x.2.activate) }) }

end Sys2Proof.Machine
end

