-- ==== Sys2Proof/Machine/Flags.lean ====
section
/-! DEFINITION. Comparisons that write predicates, and the sticky overflow bit OVF of a vector context (04 R115, R119). -/

namespace Sys2Proof.Machine

open Sys2Proof

/-- CMP and CMPI (Table 4.3): 0 eq, 1 ne, 2 signed lt, 3 signed le, 4 unsigned lt, 5 unsigned le. -/
def cmpWord (minor : Nat) (a b : Word) : Bool :=
  match minor with
  | 0 => a == b
  | 1 => a != b
  | 2 => a.slt b
  | 3 => a.sle b
  | 4 => a.ult b
  | _ => a.ule b

/-- PLOG (Table 4.3): 0 and, 1 or, 2 xor, 3 and-not, 4 set 1, 5 set 0. -/
def plogOp (minor : Nat) (a b : Bool) : Bool :=
  match minor with
  | 0 => a && b
  | 1 => a || b
  | 2 => xor a b
  | 3 => a && !b
  | 4 => true
  | _ => false

/-- An addition that overflows as a signed 32-bit value (R119). -/
def addOverflows (a b : Word) : Bool := decide (a.toInt + b.toInt < -2147483648) || decide (2147483647 < a.toInt + b.toInt)

/-- A subtraction that overflows as a signed 32-bit value (R119). -/
def subOverflows (a b : Word) : Bool := decide (a.toInt - b.toInt < -2147483648) || decide (2147483647 < a.toInt - b.toInt)

/-- OVF is sticky (R119). -/
def VectorCtx.orOvf (v : VectorCtx) (f : Bool) : VectorCtx := { v with ovf := v.ovf || f }

end Sys2Proof.Machine
end

