-- ==== Sys2Proof/Machine/VectorOps.lean ====
section
/-! DEFINITION. The vector instructions (04 R115 to R119; 10 R282, R287, R288). -/

namespace Sys2Proof.Machine

open Sys2Proof

/-- Lane i takes part (R117). -/
def takesPart (v : VectorCtx) (o : VArgs) (i : Fin 64) : Bool := !o.me || v.v[o.vm][i] != 0

/-- Every lane that takes part is written; the others keep their value (R117). -/
def laneMap (o : VArgs) (f : Fin 64 → Word) (v : VectorCtx) : VectorCtx :=
  { v with v := v.v.set o.vd (Vector.ofFn fun i => if takesPart v o i then f i else v.v[o.vd][i]) }

/-- vd[i] ← op of va[i] and vb[i]. -/
def lanes2 (o : VArgs) (f : Word → Word → Word) (v : VectorCtx) : VectorCtx :=
  laneMap o (fun i => f v.v[o.va][i] v.v[o.vb][i]) v

/-- vd[i] ← op of va[i]. -/
def lanes1 (o : VArgs) (f : Word → Word) (v : VectorCtx) : VectorCtx := laneMap o (fun i => f v.v[o.va][i]) v

/-- A lane that takes part satisfies a test. -/
def anyLane (o : VArgs) (f : Word → Word → Bool) (v : VectorCtx) : Bool :=
  (List.finRange 64).any fun i => takesPart v o i && f v.v[o.va][i] v.v[o.vb][i]

/-- An effect on the vector context of the thread's group. -/
def onVector (t : ThreadId) (f : VectorCtx → VectorCtx) (s : State) : State := setVector s t (f (vectorOf s t))

/-- s[VD] ← a result of the vector context. -/
def toScalar (t : ThreadId) (o : VArgs) (f : VectorCtx → Word) (s : State) : State :=
  modThread s t fun th => th.wr o.vd (f (vectorOf s t))

/-- The fixed tree of R118: each level combines a lane with the lane half the width above it. -/
def treeLevels (f : Word → Word → Word) : Nat → List Word → List Word
  | 0, l => l
  | n + 1, l => treeLevels f n (List.zipWith f (l.take (l.length / 2)) (l.drop (l.length / 2)))

/-- The tree over 64 lanes; a lane that does not take part counts as `neutral` (R118). -/
def laneTree (o : VArgs) (f : Word → Word → Word) (pre : Word → Word) (neutral : Word) (v : VectorCtx) : Word :=
  (treeLevels f 6 ((List.finRange 64).map fun i => if takesPart v o i then pre v.v[o.va][i] else neutral)).headD neutral

/-- The magnitude of an FP32 word: a NaN stays a NaN. -/
def fabs (a : Word) : Word := a &&& 0x7FFFFFFF

/-- VLOGIC (Table 4.3): 0 and, 1 or, 2 xor, 3 shl, 4 shr, 5 sra by vb[4:0]. -/
def vlogicOp (minor : Nat) (a b : Word) : Word :=
  match minor with
  | 0 => a &&& b
  | 1 => a ||| b
  | 2 => a ^^^ b
  | 3 => a <<< (b.toNat % 32)
  | 4 => a >>> (b.toNat % 32)
  | _ => a.sshiftRight (b.toNat % 32)

/-- Element i of a register packed with elements of a width (R282). -/
def packedElem (r : Vector Word 64) (width i : Nat) : Nat :=
  match r.toList[i * width / 32]? with
  | some w => w.toNat / 2 ^ (i * width % 32) % 2 ^ width
  | none => 0

/-- The rounding of element i of a VCVT (R287, R288). -/
def vcvtMode (seed : Nat) (o : VArgs) (v : VectorCtx) (i : Nat) : RoundMode :=
  if o.minor.val = 1 then
    .stochastic (gen seed (match v.v[o.vm].toList[i]? with
      | some w => w.toNat
      | none => 0) 0x120000 0 i).1
  else .nearest

/-- Element i of a VCVT: its new bits and its flag (R281, R282). -/
def vcvtElem (seed : Nat) (o : VArgs) (v : VectorCtx) (i : Nat) : Nat × Bool :=
  elemConvert o.vc.val (vcvtMode seed o v i) (elemValue o.vb.val (packedElem v.v[o.va] (elemBits o.vb.val) i))

/-- Whether element i takes part. -/
def elemPart (v : VectorCtx) (o : VArgs) (i : Nat) : Bool := takesPart v o (Fin.ofNat 64 i)

/-- Word j of the destination of a VCVT: the bits of elements that take no part, and the words beyond the packed area,
keep their value (R282). -/
def vcvtWord (seed : Nat) (o : VArgs) (v : VectorCtx) (j : Fin 64) : Word :=
  let width := elemBits o.vc.val
  let per := 32 / width
  if j.val < 64 * width / 32 then
    BitVec.ofNat 32 ((List.range per).foldl (fun a e =>
      let i := j.val * per + e
      a + (if elemPart v o i then (vcvtElem seed o v i).1 else packedElem v.v[o.vd] width i) * 2 ^ (e * width)) 0)
  else v.v[o.vd][j]

/-- VCVT (R282): the destination register and OVF. -/
def vcvtEffect (seed : Nat) (o : VArgs) (v : VectorCtx) : VectorCtx :=
  { v with
    v := v.v.set o.vd (Vector.ofFn fun j => vcvtWord seed o v j)
    ovf := v.ovf || (List.range 64).any fun i => elemPart v o i && (vcvtElem seed o v i).2 }

def execVadd (t : ThreadId) (k : Common) (o : VArgs) (s : State) : Host.Outcome State Fault Refusal :=
  laneWord (.vadd t k o) t k (onVector t (lanes2 o (fadd))) s

def execVsub (t : ThreadId) (k : Common) (o : VArgs) (s : State) : Host.Outcome State Fault Refusal :=
  laneWord (.vsub t k o) t k (onVector t (lanes2 o (fsub))) s

def execVmul (t : ThreadId) (k : Common) (o : VArgs) (s : State) : Host.Outcome State Fault Refusal :=
  laneWord (.vmul t k o) t k (onVector t (lanes2 o (fmul))) s

def execVfma (t : ThreadId) (k : Common) (o : VArgs) (s : State) : Host.Outcome State Fault Refusal :=
  laneWord (.vfma t k o) t k (onVector t fun v => laneMap o (fun i => ffma v.v[o.va][i] v.v[o.vb][i] v.v[o.vc][i]) v) s

def execVmin (t : ThreadId) (k : Common) (o : VArgs) (s : State) : Host.Outcome State Fault Refusal :=
  laneWord (.vmin t k o) t k (onVector t (lanes2 o (fmin))) s

def execVmax (t : ThreadId) (k : Common) (o : VArgs) (s : State) : Host.Outcome State Fault Refusal :=
  laneWord (.vmax t k o) t k (onVector t (lanes2 o (fmax))) s

def execVcmp (t : ThreadId) (k : Common) (o : VArgs) (s : State) : Host.Outcome State Fault Refusal :=
  laneWord (.vcmp t k o) t k (onVector t (lanes2 o (fun a b => if fcmp o.minor.val a b then 0xFFFFFFFF else 0))) s

def execVsel (t : ThreadId) (k : Common) (o : VArgs) (s : State) : Host.Outcome State Fault Refusal :=
  laneWord (.vsel t k o) t k (onVector t fun v => laneMap o (fun i => if v.v[o.vc][i] ≠ 0 then v.v[o.va][i] else v.v[o.vb][i]) v) s

def execVexp2 (t : ThreadId) (k : Common) (o : VArgs) (s : State) : Host.Outcome State Fault Refusal :=
  laneWord (.vexp2 t k o) t k (onVector t (lanes1 o fexp2)) s

def execVrcp (t : ThreadId) (k : Common) (o : VArgs) (s : State) : Host.Outcome State Fault Refusal :=
  laneWord (.vrcp t k o) t k (onVector t (lanes1 o frcp)) s

def execVrsq (t : ThreadId) (k : Common) (o : VArgs) (s : State) : Host.Outcome State Fault Refusal :=
  laneWord (.vrsq t k o) t k (onVector t (lanes1 o frsq)) s

def execViadd (t : ThreadId) (k : Common) (o : VArgs) (s : State) : Host.Outcome State Fault Refusal :=
  laneWord (.viadd t k o) t k (onVector t fun v => (lanes2 o (fun a b => a + b) v).orOvf (o.minor.val == 1 && anyLane o addOverflows v)) s

def execVisub (t : ThreadId) (k : Common) (o : VArgs) (s : State) : Host.Outcome State Fault Refusal :=
  laneWord (.visub t k o) t k (onVector t fun v => (lanes2 o (fun a b => a - b) v).orOvf (o.minor.val == 1 && anyLane o subOverflows v)) s

def execVimul (t : ThreadId) (k : Common) (o : VArgs) (s : State) : Host.Outcome State Fault Refusal :=
  laneWord (.vimul t k o) t k (onVector t (lanes2 o (fun a b => a * b))) s

def execVlogic (t : ThreadId) (k : Common) (o : VArgs) (s : State) : Host.Outcome State Fault Refusal :=
  laneWord (.vlogic t k o) t k (onVector t (lanes2 o (vlogicOp o.minor.val))) s

def execVrsum (t : ThreadId) (k : Common) (o : VArgs) (s : State) : Host.Outcome State Fault Refusal :=
  laneWord (.vrsum t k o) t k (toScalar t o (laneTree o fadd id 0x80000000)) s

def execVrmax (t : ThreadId) (k : Common) (o : VArgs) (s : State) : Host.Outcome State Fault Refusal :=
  laneWord (.vrmax t k o) t k (toScalar t o (laneTree o fmax id 0xFF800000)) s

def execVperm (t : ThreadId) (k : Common) (o : VArgs) (s : State) : Host.Outcome State Fault Refusal :=
  laneWord (.vperm t k o) t k (onVector t fun v => laneMap o (fun i => v.v[o.va][Fin.ofNat 64 v.v[o.vb][i].toNat]) v) s

def execVbcast (t : ThreadId) (k : Common) (o : VArgs) (s : State) : Host.Outcome State Fault Refusal :=
  laneWord (.vbcast t k o) t k (fun s => onVector t (fun v => laneMap o (fun _ => (theThread s t).rd o.va) v) s) s

def execVext (t : ThreadId) (k : Common) (o : VArgs) (s : State) : Host.Outcome State Fault Refusal :=
  laneWord (.vext t k o) t k (fun s =>
    let i := Fin.ofNat 64 ((theThread s t).rd o.vb).toNat
    if takesPart (vectorOf s t) o i then toScalar t o (fun v => v.v[o.va][i]) s else s) s

def execVflag (t : ThreadId) (k : Common) (o : VArgs) (s : State) : Host.Outcome State Fault Refusal :=
  laneWord (.vflag t k o) t k (fun s => onVector t (fun v => { v with ovf := false }) (toScalar t o (fun v => BitVec.ofNat 32 (b2n v.ovf)) s)) s

def execVmov (t : ThreadId) (k : Common) (o : VArgs) (s : State) : Host.Outcome State Fault Refusal :=
  laneWord (.vmov t k o) t k (onVector t (lanes1 o id)) s

def execVcvt (t : ThreadId) (k : Common) (o : VArgs) (s : State) : Host.Outcome State Fault Refusal :=
  laneWord (.vcvt t k o) t k (fun s => onVector t (vcvtEffect (rawReg s (offRoundSeed t.ctx)).toNat o) s) s

def execVmaxabs (t : ThreadId) (k : Common) (o : VArgs) (s : State) : Host.Outcome State Fault Refusal :=
  laneWord (.vmaxabs t k o) t k (toScalar t o (laneTree o fmax fabs 0)) s

end Sys2Proof.Machine
end

