-- ==== Sys2Proof/Machine/Reduce.lean ====
section
/-! DEFINITION. Reduction jobs (11 R306 to R320, R324, R326): records, checks, acceptance, packets and streams, and the
passes of contributors and owners. -/

namespace Sys2Proof.Machine

open Sys2Proof

/-! ### Records (Table 11.1) -/

def readReduceRec (r : List Byte) (map : List Nat) : ReduceRec :=
  { op := fieldAt r 0 1, flags := fieldAt r 1 1, ch := fieldAt r 2 1, topk := fieldAt r 3 1, job := fieldAt r 4 4,
    group := fieldAt r 8 2, contrib := fieldAt r 0x0A 1, owners := fieldAt r 0x0B 1, myc := fieldAt r 0x0C 1,
    myo := fieldAt r 0x0D 1, adders := fieldAt r 0x0E 1, srcfmt := fieldAt r 0x0F 1, elems := fieldAt r 0x10 4,
    rate := fieldAt r 0x14 4, source := fieldAt r 0x18 8, tailBase := fieldAt r 0x20 8, scratch := fieldAt r 0x28 8,
    acc := fieldAt r 0x30 8, result := fieldAt r 0x38 8, map := map, mapAddr := fieldAt r 0x40 8,
    stats := fieldAt r 0x48 8, token := BitVec.ofNat 64 (fieldAt r 0x50 8), done := fieldAt r 0x58 8,
    loss := fieldAt r 0x60 8, flagword := fieldAt r 0x68 8, samples := fieldAt r 0x70 4,
    clean := (r.drop 0x74).all (· == 0) && fieldAt r 1 1 / 32 == 0 }

def ReduceRec.tail (r : ReduceRec) : Bool := bitOf r.flags 0
def ReduceRec.pinned (r : ReduceRec) : Bool := bitOf r.flags 1
def ReduceRec.outFp32 (r : ReduceRec) : Bool := bitOf r.flags 2
def ReduceRec.outBi16 (r : ReduceRec) : Bool := bitOf r.flags 3
def ReduceRec.lead (r : ReduceRec) : Bool := bitOf r.flags 4

/-- Bytes of MAP: CONTRIB + OWNERS. -/
def mapBytes (r : List Byte) : Nat := fieldAt r 0x0A 1 + fieldAt r 0x0B 1

/-- Fields of a REDUCE record in range (Table 11.9, R316, R320). -/
def reduceFieldsOk (r : ReduceRec) : Bool :=
  decide (1 ≤ r.topk ∧ r.topk ≤ 64 ∧ 1 ≤ r.owners ∧ r.owners ≤ 128 ∧ r.group ≤ 4095 ∧ r.srcfmt ≤ 1 ∧ r.elems % 64 = 0 ∧
      64 ≤ r.elems ∧ r.elems ≤ 2 ^ 30 ∧ 1 ≤ r.rate ∧ r.rate ≤ 256 ∧ r.flagword = 0) &&
    !r.lead && (decide (r.myc < r.contrib) || r.myc == 0xFF) && (decide (r.myo < r.owners) || r.myo == 0xFF) &&
    !(r.myc == 0xFF && r.myo == 0xFF) &&
    (if r.myo = 0xFF then r.adders == 0 else decide (1 ≤ r.adders ∧ r.adders ≤ 16)) &&
    (r.tail || (r.tailBase == 0 && r.topk == 64)) && (r.outFp32 || r.outBi16) && (!r.pinned || r.stats == 0)

/-- An OUTCOME record keeps R307. -/
def outcomeFieldsOk (r : ReduceRec) : Bool :=
  r.flags % 16 == 0 && decide (r.myc < r.contrib) && r.myo == 0xFF &&
    [r.topk, r.group, r.owners, r.adders, r.srcfmt, r.elems, r.rate, r.source, r.tailBase, r.scratch, r.acc, r.stats,
      r.samples].all (· == 0) && (r.lead || r.loss == 0)

/-- A record passes the first row of Table 11.9. -/
def reduceRecOk (r : ReduceRec) : Bool :=
  r.clean && decide (r.ch ≤ 3 ∧ 1 ≤ r.contrib ∧ r.contrib ≤ 128) && r.map.all (fun b => decide (b < 128)) &&
    (if r.op = 1 then reduceFieldsOk r else r.op == 2 && outcomeFieldsOk r)

/-! ### Blocks (R308) -/

def ReduceRec.nb (r : ReduceRec) : Nat := r.elems / 64
def ReduceRec.bpo (r : ReduceRec) : Nat := ceilDiv r.nb r.owners

/-- First block of owner o and the first past its range. -/
def ReduceRec.range (r : ReduceRec) (o : Nat) : Nat × Nat := (Nat.min (o * r.bpo) r.nb, Nat.min ((o + 1) * r.bpo) r.nb)

/-- Headroom ⌈log2 CONTRIB⌉. -/
def ReduceRec.headroom (r : ReduceRec) : Nat := if r.contrib ≤ 1 then 0 else Nat.log2 (r.contrib - 1) + 1

def ReduceRec.contribs (r : ReduceRec) : List Nat := r.map.take r.contrib
def ReduceRec.ownerList (r : ReduceRec) : List Nat := (r.map.drop r.contrib).take r.owners

/-- Packets of at most `per` blocks over a range; an empty range takes one packet of no blocks. -/
def pieces (lo hi per : Nat) : List (Nat × Nat) :=
  if hi ≤ lo then [(lo, lo)]
  else (List.range (ceilDiv (hi - lo) per)).map fun i => (lo + i * per, Nat.min (lo + (i + 1) * per) hi)

/-- Bytes of a block in a DATA packet (R315). -/
def dataBlockBytes (topk : Nat) : Nat := if topk = 64 then 128 else 4 * topk

/-- Most blocks of a packet (R318). -/
def blocksPer (op topk : Nat) : Nat :=
  match op with
  | 2 => 4088
  | 3 => 16352
  | _ => if topk = 64 then 127 else 16352 / (4 * topk)

/-! ### The sequencer's state -/

def seqOf (s : State) (L : Nat) : Sequencer := (regionOf s L).seqr

def modSeq (s : State) (L : Nat) (f : Sequencer → Sequencer) : State :=
  modRegion s L fun R => { R with seqr := f R.seqr }

def findReduce (s : State) (L tag : Nat) : Option ReduceJob := (seqOf s L).jobs.find? fun j => j.tag == tag

def setReduce (s : State) (L : Nat) (j : ReduceJob) : State :=
  modSeq s L fun q => { q with jobs := q.jobs.map fun k => if k.tag = j.tag then j else k }

/-- The job's part in the step's contribution has been counted for the context (R321). -/
def contributed (s : State) (L ctx : Nat) : State := modSeq s L fun q => { q with contribution := mset q.contribution ctx true }

/-- The unit that acts for a job. -/
def jobUnit (L : Nat) (j : ReduceJob) : Origin := .sequencer L j.tag

/-- What a pass of a job does, through the windows of the job's acceptance (R94). -/
def jobPass (s : State) (j : ReduceJob) (f : State → State) : State := underWindows s j.ctx j.wins f

/-- The transfer of a job: rates of R58 at r. -/
def reduceXfer (L : Nat) (j : ReduceJob) : XferUse := .reduce L (j.ctx * 2 ^ 32 + j.ringIndex)

/-! ### Sending (R318, R319) -/

/-- The header fields of a packet of a job, with a payload. -/
def packetOf (s : State) (L : Nat) (r : ReduceRec) (op : Nat) (last flag : Bool) (ch count first : Nat) (payload : List Byte) :
    Packet :=
  { op := op, last := last, flag := flag, ch := ch, count := count, seq := 0, job := r.job, sender := ownCode s L,
    topk := r.topk, group := r.group, elems := r.elems, first := first, contrib := r.contrib, owners := r.owners,
    payload := payload }

/-- Queues a packet for sending. -/
def queuePacket (s : State) (L tag dest : Nat) (p : Packet) : State :=
  modSeq s L fun q => { q with outq := q.outq ++ [(tag, dest, p)] }

/-- The bytes of a packet (R318, Table 11.4). -/
def packetBytes (p : Packet) : List Byte :=
  leBytes 1 p.op ++ leBytes 1 (b2n p.last + 2 * b2n p.flag + 4 * (p.ch % 4)) ++ leBytes 2 p.count ++ leBytes 4 p.seq ++
    leBytes 4 p.job ++ leBytes 1 p.sender ++ leBytes 1 p.topk ++ leBytes 2 p.group ++ leBytes 4 p.elems ++ leBytes 4 p.first ++
    leBytes 1 p.contrib ++ leBytes 1 p.owners ++ List.replicate 6 0 ++ p.payload

/-- The T1 address of a place of 16 KiB of a region's reduction inbox, in units 254 and 255 (R318, R351). -/
def packetAddr (L k : Nat) : Nat := t1Addr L (254 * 2097152 + k % 256 * 16384)

/-- The inbox of a receiver: of a region of this device, or of one on a peer (R318; log entry 14). -/
def packetBox (s : State) (dest : Nat) : Resource := .reduceInbox (if dest / 16 = s.part.device then dest % 16 else 128 + dest)

/-- Region L asks for a credit of 16 KiB of an inbox where it holds none (R54, R318). -/
def askPacket (s : State) (L dest : Nat) : State :=
  if 0 < available s (.region L) (packetBox s dest) then s else askLending s (.region L) (packetBox s dest) 1

/-- A receiver of this device is fenced, and its sequencer holds no accepted job that the packet belongs to: the jobs accepted in a
readable region complete there (R37, R327). -/
def packetFenced (s : State) (dest : Nat) (p : Packet) : Bool :=
  dest / 16 == s.part.device && (match (regionOf s (dest % 16)).exchange with
    | some x => x.kind == .failure || !(seqOf s (dest % 16)).jobs.any fun j => j.rcd.job == p.job
    | none => false)

/-- A packet may leave for a receiver: it has a credit, and no fence holds it (R37, R318). -/
def packetFree (s : State) (L dest : Nat) (p : Packet) : Bool :=
  decide (0 < available s (.region L) (packetBox s dest)) && !packetFenced s dest p

/-- Two packets of one stream. -/
def sameStream (x y : Nat × Nat × Packet) : Bool := y.2.1 == x.2.1 && y.2.2.ch == x.2.2.ch

/-- A packet may not be sent yet: an earlier packet of its job for the stream waits, or an earlier job has packets for the
stream that are still to be sent (R319). `kept` stand before it, `rest` behind it. -/
def packetBlocked (s : State) (L : Nat) (x : Nat × Nat × Packet) (kept rest : List (Nat × Nat × Packet)) : Bool :=
  kept.any (fun y => sameStream x y && y.1 == x.1) || (kept ++ rest).any (fun y => sameStream x y && decide (y.1 < x.1)) ||
    (seqOf s L).jobs.any fun j => decide (j.tag < x.1) && decide (0 < mget 0 j.left (x.2.2.ch, x.2.1))

/-- The promise of a packet within the device, in tenths of a nanosecond, and its row of Table 2.4 (R311): to the own region
the time of a write to its T1, to another 250 ns. -/
def packetPromise (L dest : Nat) : Nat × Nat := if dest = L then (1200, 6) else (2500, 3)

/-- A packet on its way within its credit: within the device to the inbox of its receiver; to a peer as one remote write into the
place of the inbox that the credit stands for, due in 3,000 ns, with which it returns (R311, R318; log entry 14); to one that cannot
be reached, nowhere (R396). -/
def deliverPacket (s : State) (L ctx dest : Nat) (p : Packet) : State :=
  if dest / 16 = s.part.device then
    modSeq (emit (reserve s (.region L, packetBox s dest, 1)) (.packet dest p)) (dest % 16) fun q =>
      { q with underWay := q.underWay ++ [(p, 10 * now s + (packetPromise L (dest % 16)).1)] }
  else if !peerReachable s (dest / 16) then peerLossEvent s ctx (dest / 16)
  else
    let k := freshNat (reserve s (.region L, packetBox s dest, 1))
    let a := peerAddr (dest / 16) 1 (packetAddr (dest % 16) k.1 % 2 ^ 41)
    unitEnd (remotePiece k.2 ctx (.packets L) a (packetBytes p) (packetBytes p) none [(packetBox s dest, 1)])
      ctx (.packets L) (some { due := now s + 3000, phys := (physOfLogical s L).getD 0xFF, row := 9, job := none })

/-- Sends one packet: it takes the next SEQ of its stream. -/
def sendPacket (s : State) (L : Nat) (x : Nat × Nat × Packet) : State :=
  let (tag, dest, p) := x
  let key := (dest, p.ch)
  let n := mget 0 (seqOf s L).sendSeq key
  let ctx := ((findReduce s L tag).map (·.ctx)).getD 0xFF
  let s := modSeq s L fun q =>
    { q with
      sendSeq := mset q.sendSeq key ((n + 1) % 2 ^ 32)
      jobs := q.jobs.map fun j => if j.tag = tag then
        { j with left := mmod 0 j.left (p.ch, dest) (· - 1), tSent := if p.op = 5 then now s else j.tSent } else j }
  deliverPacket s L ctx dest { p with seq := n }

/-- One pass over the queue of packets. -/
def sendPass (L : Nat) : List (Nat × Nat × Packet) → List (Nat × Nat × Packet) → State → List (Nat × Nat × Packet) × State
  | [], kept, s => (kept, s)
  | x :: r, kept, s =>
    if packetBlocked s L x kept r then sendPass L r (kept ++ [x]) s
    else
      let s := askPacket s L x.2.1
      if packetFree s L x.2.1 x.2.2 then sendPass L r kept (sendPacket s L x) else sendPass L r (kept ++ [x]) s

/-- Sends what may be sent; `n` bounds the passes. -/
def sendAll (L : Nat) : Nat → State → State
  | 0, s => s
  | n + 1, s =>
    let x := sendPass L (seqOf s L).outq [] s
    let s' := modSeq x.2 L fun q => { q with outq := x.1 }
    if x.1.length = (seqOf s L).outq.length then s' else sendAll L n s'

/-- Some MAX or DATA packet of a job waits to be sent: what the intervals of R311 run to. -/
def unsentBlocks (s : State) (L tag : Nat) : Bool :=
  (seqOf s L).outq.any fun x => x.1 == tag && (x.2.2.op == 2 || x.2.2.op == 4)

/-- Some packet of a job waits to be sent. -/
def unsent (s : State) (L tag : Nat) : Bool := (seqOf s L).outq.any fun x => x.1 == tag

/-- The packets of a job for a range of blocks, the last with LAST. -/
def queueBlocks (s : State) (L : Nat) (j : ReduceJob) (op dest lo hi : Nat) (payload : Nat → Nat → List Byte) : State :=
  let ps := pieces lo hi (blocksPer op j.rcd.topk)
  ps.zipIdx.foldl (fun s (x, i) =>
    queuePacket s L j.tag dest
      (packetOf s L j.rcd op (i + 1 == ps.length) false j.rcd.ch (x.2 - x.1) x.1 (payload x.1 x.2))) s

/-! ### Ending a job (R321, R326) -/

/-- The job leaves the sequencer, which remembers its JOB. -/
def removeReduce (s : State) (L : Nat) (j : ReduceJob) : State :=
  let s := modSeq s L fun q =>
    { q with
      jobs := q.jobs.filter fun k => k.tag != j.tag
      ended := mset q.ended j.ctx ((j.rcd.job :: (mget [] q.ended j.ctx).filter (· != j.rcd.job)).take 64) }
  endTransfer s (reduceXfer L j)

/-- TOKEN and DONE of a job; their performing is judged by the promise of its completion interval, when it has one (R311). -/
def reportReduce (s : State) (L : Nat) (j : ReduceJob) : State :=
  unitReport s j.ctx (jobUnit L j) j.rcd.token j.rcd.done none
    (j.doneBy.map fun t => { due := t, phys := (physOfLogical s L).getD 0xFF, row := 15, job := none })

/-- An outcome record (Table 11.6). -/
def outcomeBytes (flag valid arrived t : Nat) : List Byte := leBytes 1 flag ++ leBytes 1 valid ++ [0, 0] ++ leBytes 4 arrived ++ leBytes 8 t

/-- OUTCOME packets that a job has performed. -/
def arrivedCount (j : ReduceJob) : Nat := (j.performed.map (·.2)).sum

/-- The pending tail that a job wrote is discarded. -/
def dropTail (s : State) (L : Nat) (j : ReduceJob) : State :=
  let mine := (seqOf s L).tails.filter fun x => x.jobTag == j.tag
  let s := modSeq s L fun q => { q with tails := q.tails.filter fun x => x.jobTag != j.tag }
  jobPass s j fun s => mine.foldl (fun s x => unitWrite s x.ctx (jobUnit L j) (ctxPlus x.base 1) [0]) s

/-- The regions that take part in a job, its own aside. -/
def participants (s : State) (L : Nat) (r : ReduceRec) : List Nat := (r.map.filter (· != ownCode s L)).eraseDups

/-- A job ends without completing: `send` ABORT to every other participant, count it as aborted, report it unless it has
reported. -/
def abortReduce (s : State) (L : Nat) (j : ReduceJob) (send aborted report : Bool) : State :=
  let s := modSeq s L fun q => { q with outq := q.outq.filter fun x => x.1 != j.tag }
  let s := dropTail s L j
  let s := if aborted then
      contributed (modCtxRegion s j.ctx L fun x => { x with abortedJobs := satAdd 0xFFFF x.abortedJobs 1 }) L j.ctx
    else s
  let s := if j.rcd.op = 2 then
      jobPass s j fun s => unitWrite s j.ctx (jobUnit L j) j.rcd.result (outcomeBytes (b2n j.flag) 0 (arrivedCount j) (now s))
    else s
  let s := removeReduce s L j
  let s := if send then
      (participants s L j.rcd).foldl (fun s d => queuePacket s L j.tag d (packetOf s L j.rcd 6 true false j.rcd.ch 0 0 [])) s
    else s
  if report ∧ !j.reported then reportReduce s L { j with doneBy := none } else s

/-! ### Acceptance (R306, R307, R309, R310, R321) -/

/-- Vector contexts of a cell that launch records and jobs in the region have claimed (R100, R309). -/
def vectorsTaken (s : State) (L c cell : Nat) : Nat :=
  let groups := match (ctxOf s c).image with
    | some im => (((im.launches.filter (·.vec)).map (·.group)).eraseDups).length
    | none => 0
  groups + ((seqOf s L).jobs.filter fun j =>
    j.ctx == c && j.rcd.op == 1 && j.rcd.myo != 0xFF && decide (cell < j.rcd.adders)).length

/-- Cells of a context in a region. -/
def cellsIn (c : Context) (L : Nat) : Nat := 8 * (c.blocks.filter fun b => b.1 == L).length

/-- The claim of R309 can be met: the lowest-numbered ADDERS cells of the context here. -/
def claimOk (s : State) (L c : Nat) (r : ReduceRec) : Bool :=
  r.myo == 0xFF ||
    (decide (r.adders ≤ cellsIn (ctxOf s c) L) && (List.range r.adders).all fun k => decide (vectorsTaken s L c k < 16))

/-- Pending tails of a context, with those that its accepted jobs have yet to write (R322). -/
def tailCount (s : State) (L c : Nat) : Nat :=
  ((seqOf s L).tails.filter fun x => x.ctx == c).length +
    ((seqOf s L).jobs.filter fun j => j.ctx == c && j.rcd.op == 1 && j.rcd.tail && j.rcd.myc != 0xFF && !j.sentData).length

/-- The job waits at admission, whatever its fields: 8 jobs are accepted (R306), an OUTCOME follows jobs of its context (R321),
64 tails are pending (R322). -/
def reduceWaits (s : State) (L c : Nat) (r : ReduceRec) : Bool :=
  decide (8 ≤ (seqOf s L).jobs.length) ||
    (if r.op = 2 then (seqOf s L).jobs.any fun j => j.ctx == c else decide (64 ≤ tailCount s L c))

/-- The second row of Table 11.9, and R323. -/
def reduceConflict (s : State) (L c : Nat) (r : ReduceRec) : Bool :=
  (seqOf s L).jobs.any (fun j => j.rcd.job == r.job) ||
    (r.op == 1 && r.tail && (leNat (winRead s c none (ctxPlus r.tailBase 1) 1) != 0 ||
      (seqOf s L).tails.any fun x => x.ctx == c && x.base == r.tailBase)) ||
    (r.op == 2 && r.lead && s.logs.any fun e => e.2.seqr.jobs.any fun j => j.rcd.op == 2 && j.rcd.lead && j.rcd.job == r.job)

/-- A refused job (REDUCTION_JOB_REFUSED, R326). -/
def refuseReduce (s : State) (L c : Nat) (r : ReduceRec) : State :=
  let o : Origin := .sequencer L (seqOf s L).nextTag
  let s := modCtxRegion s c L fun x => { x with refusedJobs := satAdd 0xFF x.refusedJobs 1 }
  let s := if r.op = 2 then
      (if (translate s c none .write r.result 16).isSome then unitWrite s c o r.result (outcomeBytes 0 0 0 (now s)) else s)
    else contributed s L c
  modSeq (unitReport s c o r.token r.done none none) L fun q => { q with nextTag := q.nextTag + 1 }

/-- Packets that a job will send, by channel and receiver. -/
def packetPlan (r : ReduceRec) (chans : List Nat) : Map (Nat × Nat) Nat :=
  let add := fun (m : Map (Nat × Nat) Nat) (d n : Nat) => mmod 0 m (r.ch, d) (· + n)
  if r.op = 2 then
    chans.foldl (fun m ch => r.contribs.foldl (fun m d => mmod 0 m (ch, d) (· + 1)) m) []
  else
    let own := r.range r.myo
    let m := if r.myo = 0xFF then []
      else r.contribs.foldl (fun m d => add m d (1 + (pieces own.1 own.2 16352).length)) []
    if r.myc = 0xFF then m
    else
      r.ownerList.zipIdx.foldl (fun m (d, o) =>
        let x := r.range o
        add m d ((pieces x.1 x.2 4088).length + (pieces x.1 x.2 (blocksPer 4 r.topk)).length)) m

def newReduceJob (s : State) (L c ringIndex : Nat) (r : ReduceRec) (chans : List Nat) (t : Nat) : ReduceJob :=
  { tag := (seqOf s L).nextTag, ctx := c, ringIndex := ringIndex, rcd := r, tAccept := t, intervalEnd := none, grants := [],
    localDone := false, maxLast := [], agreed := [], expLast := [], exps := [], sentData := false, dataLast := [],
    performed := [], announced := [], flag := false, tSent := t, deadline := none, lossL := 0,
    left := packetPlan r chans, resultDone := false, tainted := false, words := [], reported := false, doneBy := none,
    wins := windowsAt s c [r.source, r.tailBase, r.scratch, r.acc, r.result, r.stats, r.done, r.loss, r.flagword] }

/-- Device ranges of a job's working areas, as far as its windows map them (R319). -/
def jobAreas (s : State) (c : Nat) (r : ReduceRec) : List (Nat × Nat) :=
  if r.op = 2 then []
  else
    ((if r.myo = 0xFF then [] else [(r.acc, 256 * r.bpo)]) ++
      (if r.myc = 0xFF then [] else [(r.scratch, 4 * r.elems + 4 * r.nb)]) ++
      (if r.tail then [(r.tailBase, 0x40 + 2 * r64 (4 * r.elems))] else [])).filterMap fun x =>
        (mapped s c .write x.1 x.2).map fun y => (memKey s y.1, y.2)

/-- Jobs in flight whose areas overlap are dynamically inconsistent (R319): both are marked. -/
def taintReduce (s : State) (L : Nat) (j : ReduceJob) : State :=
  let areas := fun k : ReduceJob => jobAreas (withWindows s k.ctx k.wins) k.ctx k.rcd
  let hits := s.logs.flatMap fun e => (e.2.seqr.jobs.filter fun k =>
    !(e.1 == L && k.tag == j.tag) && taintFrames.rangesShare (areas j) (areas k)).map fun k => (e.1, k)
  if hits.isEmpty then s
  else (hits ++ [(L, j)]).foldl (fun s x => modSeq s x.1 fun q =>
    { q with jobs := q.jobs.map fun k => if k.tag = x.2.tag then { k with tainted := true } else k }) s

/-- Bytes of zeros in writes of 256. -/
def clearArea (s : State) (c : Nat) (o : Origin) (ca n : Nat) : State :=
  (List.range (n / 256)).foldl (fun s i => unitWrite s c o (ctxPlus ca (256 * i)) (List.replicate 256 0)) s

/-- The accepted job joins the sequencer; a JOB that had ended is no longer among those ended (R326). -/
def addReduce (s : State) (L : Nat) (j : ReduceJob) : State :=
  modSeq s L fun q =>
    { q with
      jobs := q.jobs ++ [j]
      nextTag := q.nextTag + 1
      ended := mmod [] q.ended j.ctx fun l => l.filter (· != j.rcd.job)
      channels := if j.rcd.op = 1 then mmod [] q.channels j.ctx fun l => if l.contains j.rcd.ch then l else l ++ [j.rcd.ch]
                  else q.channels }

/-- An owner clears ACC and sends GRANT to every contributor (R310). -/
def ownerStart (s : State) (L : Nat) (j : ReduceJob) : State :=
  if j.rcd.myo = 0xFF then s
  else
    let s := if j.tainted then s else jobPass s j fun s => clearArea s j.ctx (jobUnit L j) j.rcd.acc (256 * j.rcd.bpo)
    j.rcd.contribs.foldl (fun s d => queuePacket s L j.tag d (packetOf s L j.rcd 1 true false j.rcd.ch 0 0 [])) s

/-! ### The passes of a contributor (R310 to R317, R324) -/

/-- The agreement word of a block (R312). -/
def agreementWord (xs : List Word) : Int :=
  let vs := xs.map f32
  if hasSpecial vs then 0x7FFFFFFF
  else
    match maxFinite vs with
    | .fin _ m e => if m = 0 then -2147483648 else ilog2 m e
    | _ => 0x7FFFFFFF

/-- The squared norm of R324: 64 squares by the tree of R118, then block sums in ascending order. -/
def squaredNorm (blocks : List (List Word)) : Word :=
  blocks.foldl (fun a b => fadd a ((treeLevels fadd 6 (b.map fun x => fmul x x)).headD 0)) 0

/-- The 64 local gradients of a block, as FP32. -/
def sourceBlock (s : State) (j : ReduceJob) (b : Nat) : List Word :=
  let w := if j.rcd.srcfmt = 0 then 4 else 2
  let bs := winRead s j.ctx none (ctxPlus j.rcd.source (64 * w * b)) (64 * w)
  (List.range 64).map fun i => BitVec.ofNat 32 (fieldAt bs (w * i) w * 2 ^ (32 - 8 * w))

/-- Context address of a tail half (Table 11.3). -/
def tailHalf (r : ReduceRec) (h : Nat) : Nat := ctxPlus r.tailBase (0x40 + h * r64 (4 * r.elems))

/-- COMMITTED and the L_T of that half. -/
def tailHeader (s : State) (c : Nat) (r : ReduceRec) : Nat × Int :=
  let h := winRead s c none r.tailBase 4
  let k := fieldAt h 0 1 % 2
  (k, toSigned 8 (fieldAt h (2 + k) 1))

/-- A tail element rescaled by 2^(L − Lt): infinite beyond the range of FP32 (R317). -/
def rescaled (h : Word) (k : Int) : FpVal :=
  match f32 (toF32 ((f32 h).scale k)) with
  | .inf n => .inf n
  | _ => (f32 h).scale k

/-- The words of a block at a context address. -/
def wordsAt (s : State) (c ca : Nat) : List Word :=
  let bs := winRead s c none ca 256
  (List.range 64).map fun i => BitVec.ofNat 32 (fieldAt bs (4 * i) 4)

/-- x of a block (R310). -/
def localBlock (s : State) (j : ReduceJob) (L : Int) (th : Nat × Int) (b : Nat) : List Word :=
  let g := sourceBlock s j b
  if j.rcd.tail then
    (g.zip (wordsAt s j.ctx (ctxPlus (tailHalf j.rcd th.1) (256 * b)))).map fun (x, h) => toF32 ((f32 x).add (rescaled h (L - th.2)))
  else g.map fun x => fadd x 0

/-- The exponent L in LOSS (Table 10.11). -/
def lossExp (s : State) (j : ReduceJob) : Int := toSigned 8 (leNat (winRead s j.ctx none j.rcd.loss 1))

def wordBytes (ws : List Word) : List Byte := ws.flatMap fun w => leBytes 4 w.toNat

/-- Sets bit n % 32 of the word at context address a with an atomic OR: at a peer as one operation of the unit
(R324, R392). -/
def orWord (s : State) (c : Nat) (o : Origin) (a n : Nat) : State :=
  match translate s c none .atomic a 4 with
  | none => windowFault s c a
  | some d =>
    if spaceOf d = 4 then
      if peerGone s d then peerLossEvent s c (bits d 50 48)
      else
        let r := { newRequest s c o (.atomic 7 false (BitVec.ofNat 64 (2 ^ (n % 32))) 0 none) a d true [] with
                   stage := .performed, accepted := now s, start := now s }
        peerOp (countRequest (addRequest s r) r) r
    else
      (devAtomic (countAccess s (originPhys s o) (some c) d 4) (ctxOf s c).fn d 7 (2 ^ (n % 32)) 0).2

/-- Sets bit n of a mask at a context address (R324). -/
def atomicOr (s : State) (c : Nat) (o : Origin) (ca n : Nat) : State := orWord s c o (ctxPlus ca (4 * (n / 32))) n

/-- A statistic, and SAMPLES for a contributor, then its mask bit (Table 11.7). -/
def writeStat (s : State) (o : Origin) (j : ReduceJob) (off idx : Nat) (v : Word) (mask : Nat) (samples : Option Nat) : State :=
  if j.rcd.pinned then s
  else
    let s := unitWrite s j.ctx o (ctxPlus j.rcd.stats (off + 4 * idx)) (leBytes 4 v.toNat)
    let s := match samples with
      | some n => unitWrite s j.ctx o (ctxPlus j.rcd.stats (0x400 + 4 * idx)) (leBytes 4 n)
      | none => s
    atomicOr s j.ctx o (ctxPlus j.rcd.stats mask) idx

/-- Context reads of the local pass. -/
def localReads (r : ReduceRec) (th : Nat) : List (Nat × Nat) :=
  let w := if r.srcfmt = 0 then 4 else 2
  [(r.loss, 1)] ++ ((List.range r.nb).map fun b => (ctxPlus r.source (64 * w * b), 64 * w)) ++
    (if r.tail then (r.tailBase, 4) :: (List.range r.nb).map fun b => (ctxPlus (tailHalf r th) (256 * b), 256) else [])

/-- Promised nanoseconds of an interval of R311. -/
def intervalNs (bytes rate : Nat) : Nat := 3000 + bytes / rate

/-- The promised nanoseconds of the local pass. -/
def localNs (r : ReduceRec) : Nat := intervalNs (r.elems * ((if r.srcfmt = 0 then 4 else 2) + 8)) r.rate

/-- The local pass: x and W are written to SCRATCH, the LOCAL statistic is written (R310, R312, R324). -/
def localPass (s : State) (L : Nat) (j : ReduceJob) : State :=
  let r := j.rcd
  let o := jobUnit L j
  let e := lossExp s j
  let th := tailHeader s j.ctx r
  let g := (List.range r.nb).map (sourceBlock s j)
  let x := (List.range r.nb).map (localBlock s j e th)
  let w := x.map agreementWord
  let s := unitReads s j.ctx o (localReads r th.1)
  let s := if j.tainted then undefinedEffect s j.ctx
    else
      let s := x.zipIdx.foldl (fun s (ws, b) => unitWrite s j.ctx o (ctxPlus r.scratch (256 * b)) (wordBytes ws)) s
      w.zipIdx.foldl (fun s (v, b) =>
        unitWrite s j.ctx o (ctxPlus r.scratch (4 * r.elems + 4 * b)) (leBytes 4 (ofSigned 32 v))) s
  let s := writeStat s o j 0 r.myc (squaredNorm g) 0x600 (some r.samples)
  setReduce s L { j with localDone := true, lossL := e, words := w }

/-- A contributor starts its local pass as soon as it is accepted (R310). -/
def contributorStart (s : State) (L : Nat) (j : ReduceJob) : State :=
  if j.rcd.myc = 0xFF then s else jobPass s j fun s => localPass s L j

/-- MAX packets to the owners at one region, whose GRANT has arrived (R310). -/
def sendMax (s : State) (L : Nat) (j : ReduceJob) (owner : Nat) : State :=
  (j.rcd.ownerList.zipIdx.filter fun x => x.1 == owner).foldl (fun s (d, o) =>
    queueBlocks s L j 2 d (j.rcd.range o).1 (j.rcd.range o).2 fun a b =>
      ((j.words.drop a).take (b - a)).flatMap fun v => leBytes 4 (ofSigned 32 v)) s

/-- The mantissa of an element (R313); 0 in a marked block. -/
def mantissa (h : Nat) (e : BitVec 8) (x : Word) : Int :=
  if e = 0x7F then 0
  else
    let M : Int := (2 ^ (15 - h) : Nat) - 1
    (toIntRange .nearest (-M) M ((f32 x).scale (-e.toInt))).1

/-- The positions of a block that are sent, ascending: the K of greatest magnitude, lower positions first (R315). -/
def selected (k : Nat) (xs : List Word) : List Nat :=
  if k = 64 then List.range 64
  else
    let order := (xs.map fun x => (x &&& 0x7FFFFFFF).toNat).zipIdx.mergeSort fun a b => decide (b.1 < a.1 ∨ (a.1 = b.1 ∧ a.2 ≤ b.2))
    ((order.take k).map (·.2)).mergeSort fun a b => decide (a ≤ b)

/-- Payload of a block in a DATA packet. -/
def dataBlock (k h : Nat) (e : BitVec 8) (xs : List Word) : List Byte :=
  (selected k xs).flatMap fun i =>
    let m := ofSigned 16 (mantissa h e (xs.getD i 0))
    if k = 64 then leBytes 2 m else leBytes 4 (m * 2 ^ 16 + i)

/-- The pending tail of a block (R316): x − m × 2^e for what is sent, x otherwise. -/
def tailBlock (k h : Nat) (e : BitVec 8) (xs : List Word) : List Word :=
  xs.zipIdx.map fun (x, i) =>
    if (selected k xs).contains i ∧ e ≠ 0x7F then
      let m := mantissa h e x
      toF32 ((f32 x).add ((FpVal.fin (decide (0 ≤ m)) m.natAbs 0).scale e.toInt))
    else x

def expOf (j : ReduceJob) (b : Nat) : BitVec 8 := mget 0x7F j.exps b

/-- Conversion, the pending tail, and the DATA packets (R310, R313 to R317). -/
def convertPass (s : State) (L : Nat) (j : ReduceJob) : State :=
  let r := j.rcd
  let o := jobUnit L j
  let x := (List.range r.nb).map fun b => wordsAt s j.ctx (ctxPlus r.scratch (256 * b))
  let s := unitReads s j.ctx o ((List.range r.nb).map fun b => (ctxPlus r.scratch (256 * b), 256))
  let half := 1 - (tailHeader s j.ctx r).1
  let s := if !r.tail then s
    else
      let s := if j.tainted then undefinedEffect s j.ctx
        else unitWrite (x.zipIdx.foldl (fun s (ws, b) =>
          unitWrite s j.ctx o (ctxPlus (tailHalf r half) (256 * b)) (wordBytes (tailBlock r.topk r.headroom (expOf j b) ws))) s)
          j.ctx o (ctxPlus r.tailBase 1) [1]
      modSeq s L fun q => { q with tails := q.tails ++ [{ ctx := j.ctx, base := r.tailBase, l := j.lossL, jobTag := j.tag }] }
  let bytes := r.nb * dataBlockBytes r.topk
  let s := setReduce s L { j with sentData := true, intervalEnd := some (now s + intervalNs (8 * r.elems + bytes) r.rate) }
  r.ownerList.zipIdx.foldl (fun s (d, o) =>
    queueBlocks s L j 4 d (r.range o).1 (r.range o).2 fun a b =>
      ((x.zipIdx.drop a).take (b - a)).flatMap fun (ws, i) => dataBlock r.topk r.headroom (expOf j i) ws) s

/-! ### The passes of an owner (R310, R312, R314, R320, R324) -/

/-- The exponent rule of R312. -/
def blockExponent (wa : Int) (h : Nat) : BitVec 8 :=
  if wa = 0x7FFFFFFF then 0x7F
  else if wa = -2147483648 then BitVec.ofInt 8 (-128)
  else BitVec.ofInt 8 (max (wa + h - 14) (-128))

/-- Exponents that a participant meets: stored, each marked block counted once (R314). -/
def learnExps (s : State) (L : Nat) (j : ReduceJob) (es : List (Nat × BitVec 8)) : ReduceJob × State :=
  let new := es.filter fun x => (mget? j.exps x.1).isNone
  let marked := (new.filter fun x => x.2 == 0x7F).length
  let j := { j with exps := new.foldl (fun m x => mset m x.1 x.2) j.exps }
  let s := setReduce s L j
  if marked = 0 then (j, s)
  else (j, contributed (modCtxRegion s j.ctx L fun x => { x with nonfinite := satAdd 0xFFFF x.nonfinite marked }) L j.ctx)

/-- All MAX packets are in: the owner derives its exponents and sends them. -/
def agreePass (s : State) (L : Nat) (j : ReduceJob) : State :=
  let r := j.rcd
  let own := r.range r.myo
  let es := (List.range (own.2 - own.1)).map fun i =>
    (own.1 + i, blockExponent (mget (-2147483648) j.agreed (own.1 + i)) r.headroom)
  let x := learnExps s L j es
  r.contribs.foldl (fun s d =>
    queueBlocks s L x.1 3 d own.1 own.2 fun a b => (List.range (b - a)).map fun i => expOf x.1 (a + i)) x.2

/-- One block of a DATA packet is added into ACC (R310, R320). -/
def addBlock (s : State) (o : Origin) (j : ReduceJob) (b : Nat) (bs : List Byte) : State :=
  let r := j.rcd
  let own := r.range r.myo
  if b < own.1 ∨ own.2 ≤ b then s
  else
    let a := ctxPlus r.acc (256 * (b - own.1))
    let old := wordsAt s j.ctx a
    let ents : List (Nat × Int) :=
      if r.topk = 64 then (List.range 64).map fun i => (i, toSigned 16 (fieldAt bs (2 * i) 2))
      else (List.range r.topk).map fun i => (fieldAt bs (4 * i) 4 % 64, toSigned 16 (fieldAt bs (4 * i + 2) 2))
    unitWrite s j.ctx o a (wordBytes (ents.foldl (fun l e => l.set e.1 (l.getD e.1 0 + BitVec.ofInt 32 e.2)) old))

/-- FP32 values of a block of the result; zeros in a marked block. -/
def resultWords (e : BitVec 8) (acc : List Word) : List Word :=
  acc.map fun a => if e = 0x7F then 0 else toF32 ((intVal a.toInt).scale e.toInt)

/-- Bytes of the RESULT of n blocks. -/
def reduceOut (r : ReduceRec) (n : Nat) : Nat :=
  (if r.outFp32 then 256 * n else 0) + (if r.outBi16 then 128 * n + n else 0)

/-- RESULT of the own blocks, with their exponents and sums (R320). -/
def writeResult (s : State) (o : Origin) (j : ReduceJob) (accs : List (BitVec 8 × List Word)) : State :=
  let r := j.rcd
  let n := accs.length
  let F := if r.outFp32 then r64 (256 * n) else 0
  let s := if r.outFp32 then accs.zipIdx.foldl (fun s (x, i) =>
      unitWrite s j.ctx o (ctxPlus r.result (256 * i)) (wordBytes (resultWords x.1 x.2))) s else s
  if r.outBi16 then
    let s := accs.zipIdx.foldl (fun s (x, i) =>
      unitWrite s j.ctx o (ctxPlus r.result (F + 128 * i))
        (x.2.flatMap fun a => leBytes 2 (if x.1 = 0x7F then 0 else a.toNat % 2 ^ 16))) s
    accs.zipIdx.foldl (fun s (x, i) =>
      unitWrite s j.ctx o (ctxPlus r.result (F + r64 (128 * n) + i)) [if x.1 = 0x7F then 0 else x.1]) s
  else s

/-- All DATA packets have been added: RESULT and the REDUCED statistic are written (R320, R324). -/
def resultPass (s : State) (L : Nat) (j : ReduceJob) : State :=
  let r := j.rcd
  let o := jobUnit L j
  let own := r.range r.myo
  let n := own.2 - own.1
  let accs := (List.range n).map fun i => (expOf j (own.1 + i), wordsAt s j.ctx (ctxPlus r.acc (256 * i)))
  let s := unitReads s j.ctx o ((List.range n).map fun i => (ctxPlus r.acc (256 * i), 256))
  let s := if j.tainted then undefinedEffect s j.ctx else writeResult s o j accs
  let s := writeStat s o j 0x200 r.myo (squaredNorm (accs.map fun x => resultWords x.1 x.2)) 0x610 none
  setReduce s L
    { j with resultDone := true, doneBy := some (now s + intervalNs (256 * r.bpo + reduceOut r n) r.rate) }

/-! ### Performing packets (R318, R319, R326) -/

/-- The senders that a packet of a kind may come from, for this job; none when the job takes no such packet here. -/
def sendersOf (j : ReduceJob) (op : Nat) : List Nat :=
  match op with
  | 1 => if j.rcd.op = 1 ∧ j.rcd.myc ≠ 0xFF then j.rcd.ownerList else []
  | 2 => if j.rcd.op = 1 ∧ j.rcd.myo ≠ 0xFF then j.rcd.contribs else []
  | 3 => if j.rcd.op = 1 ∧ j.rcd.myc ≠ 0xFF then j.rcd.ownerList else []
  | 4 => if j.rcd.op = 1 ∧ j.rcd.myo ≠ 0xFF then j.rcd.contribs else []
  | 5 => if j.rcd.op = 2 then j.rcd.contribs else []
  | _ => []

/-- A header agrees with the receiver's record (R307, R326). -/
def headerAgrees (j : ReduceJob) (p : Packet) : Bool :=
  p.topk == j.rcd.topk && p.group == j.rcd.group && p.elems == j.rcd.elems && p.contrib == j.rcd.contrib &&
    p.owners == j.rcd.owners && (p.op == 5 || p.ch == j.rcd.ch) && (sendersOf j p.op).contains p.sender

/-- Adds an index to a list once. -/
def insertNew (l : List Nat) (i : Nat) : List Nat := if l.contains i then l else l ++ [i]

/-- The index of the sender among those of a packet's kind. -/
def senderIndex (j : ReduceJob) (p : Packet) : Nat := (sendersOf j p.op).idxOf p.sender

/-- A GRANT lets the MAX packets for its owner go; with the last one the promised interval of the local pass begins
(R310, R311). -/
def performGrant (s : State) (L : Nat) (j : ReduceJob) (p : Packet) : State :=
  if j.grants.contains (senderIndex j p) then s
  else
    let all := j.grants.length + 1 = j.rcd.ownerList.eraseDups.length
    let j := { j with grants := j.grants ++ [senderIndex j p]
                      intervalEnd := if all then some (now s + localNs j.rcd) else j.intervalEnd }
    sendMax (setReduce s L j) L j p.sender

/-- A MAX packet raises the agreed words; the last LAST lets the owner agree. -/
def performMax (s : State) (L : Nat) (j : ReduceJob) (p : Packet) : State :=
  let words := (List.range p.count).map fun i => (p.first + i, toSigned 32 (fieldAt p.payload (4 * i) 4))
  let j := { j with agreed := words.foldl (fun m x => mmod (-2147483648) m x.1 (max x.2)) j.agreed,
                    maxLast := if p.last then insertNew j.maxLast (senderIndex j p) else j.maxLast }
  let s := setReduce s L j
  if p.last ∧ j.maxLast.length = j.rcd.contribs.eraseDups.length then agreePass s L j else s

/-- An EXP packet brings exponents; the last LAST starts the conversion. -/
def performExp (s : State) (L : Nat) (j : ReduceJob) (p : Packet) : State :=
  let x := learnExps s L j ((List.range p.count).map fun i => (p.first + i, BitVec.ofNat 8 (fieldAt p.payload i 1)))
  let j := { x.1 with expLast := if p.last then insertNew x.1.expLast (senderIndex j p) else x.1.expLast }
  let s := setReduce x.2 L j
  if p.last ∧ j.expLast.length = j.rcd.ownerList.eraseDups.length ∧ !j.sentData then jobPass s j fun s => convertPass s L j else s

/-- A DATA packet is added; the last LAST completes the owner's part. -/
def performData (s : State) (L : Nat) (j : ReduceJob) (p : Packet) : State :=
  let k := dataBlockBytes j.rcd.topk
  let s := if j.tainted then s
    else jobPass s j fun s =>
        (List.range p.count).foldl (fun s i => addBlock s (jobUnit L j) j (p.first + i) ((p.payload.drop (k * i)).take k)) s
  let j := { j with dataLast := if p.last then insertNew j.dataLast (senderIndex j p) else j.dataLast }
  let s := setReduce s L j
  if p.last ∧ j.dataLast.length = j.rcd.contribs.eraseDups.length then jobPass s j fun s => resultPass s L j else s

/-- An OUTCOME packet counts toward its sender's announced number (R321). -/
def performOutcome (s : State) (L : Nat) (j : ReduceJob) (p : Packet) : State :=
  setReduce s L { j with performed := mmod 0 j.performed p.sender (· + 1), announced := mset j.announced p.sender p.count,
                         flag := j.flag || p.flag }

/-- A packet of an accepted job is performed; a header that disagrees ends the job (HEADER_DISAGREEMENT, R326). -/
def performPacket (s : State) (L : Nat) (j : ReduceJob) (p : Packet) : State :=
  if p.op = 6 then abortReduce s L j false true true
  else if !headerAgrees j p then abortReduce s L j true false true
  else
    match p.op with
    | 1 => performGrant s L j p
    | 2 => performMax s L j p
    | 3 => performExp s L j p
    | 4 => performData s L j p
    | _ => performOutcome s L j p

/-- The packet is next in its stream, and names a job that is accepted or has ended. -/
def packetReady (q : Sequencer) (p : Packet) : Bool :=
  p.seq == mget 0 q.recvSeq (p.sender, p.ch) &&
    (q.jobs.any (fun j => j.rcd.job == p.job) || q.ended.any fun e => e.2.contains p.job)

/-- Performs, or discards, the packets of the inbox whose turn has come; `n` bounds them. -/
def drainInbox (L : Nat) : Nat → State → State
  | 0, s => s
  | n + 1, s =>
    match (seqOf s L).inbox.find? (packetReady (seqOf s L)) with
    | none => s
    | some p =>
      let s := modSeq s L fun q =>
        { q with inbox := q.inbox.erase p, recvSeq := mset q.recvSeq (p.sender, p.ch) ((p.seq + 1) % 2 ^ 32) }
      let s := giveBack s (.reduceInbox L) 1
      drainInbox L n (match (seqOf s L).jobs.find? fun j => j.rcd.job == p.job with
        | some j => performPacket s L j p
        | none => s)

end Sys2Proof.Machine
end

