-- ==== Sys2Proof/Machine/Outcome.lean ====
section
/-! DEFINITION. The step outcome (11 R321 to R323; 10 R295, R300), lift reports (17 R476), the completion of reduction
jobs, the commands of the reduction sequencer, and batch steering (11 R325). -/

namespace Sys2Proof.Machine

open Sys2Proof

/-! ### The step outcome -/

/-- The loss-scale record after an outcome (R300, Table 10.11). -/
def lossAfter (r : List Byte) (flag : Bool) : Nat × Nat :=
  let L := toSigned 8 (fieldAt r 0 1)
  let factor : Int := (fieldAt r 1 1 : Nat)
  let lo := toSigned 8 (fieldAt r 2 1)
  let hi := toSigned 8 (fieldAt r 3 1)
  let growth := fieldAt r 4 4
  let clean := (fieldAt r 8 4 + 1) % 2 ^ 32
  if flag then (ofSigned 8 (max (L - factor) lo), 0)
  else if growth ≠ 0 ∧ clean = growth then (ofSigned 8 (min (L + 1) hi), 0)
  else (ofSigned 8 L, clean)

/-- R300 applied to the record at LOSS. -/
def applyLoss (s : State) (c : Nat) (o : Origin) (loss : Nat) (flag : Bool) : State :=
  let x := lossAfter (winRead s c none loss 12) flag
  unitWrite (unitWrite (unitReads s c o [(loss, 12)]) c o loss (leBytes 1 x.1)) c o (ctxPlus loss 8) (leBytes 4 x.2)

/-- RECIPE_STEPS of a context. -/
def recipeSteps (s : State) (c : Nat) : Nat := rawField s (offScaleMode c) 55 48

/-- RECIPE_LEFT, OUTCOMES and SKIPPED at a step outcome (R295, R323, R445). -/
def Context.outcome (x : Context) (steps : Nat) (flag : Bool) (due : Nat) : Context :=
  { x with
    recipeLeft := if x.exchanged then steps else x.recipeLeft - 1
    exchanged := false
    outcomes := (x.outcomes + 1) % 2 ^ 20
    skipped := if flag then satAdd 0xFFFFF x.skipped 1 else x.skipped
    steer := some (flag, due) }

/-- Devices that LIFT_GROUP names. -/
def liftGroup (s : State) : Nat := rawField s offPower 55 48

/-- Lift is active on the device (R476). -/
def liftActive (s : State) : Bool :=
  bitOf (rawReg s offPower).toNat 63 && bitOf (liftGroup s) s.part.device &&
    decide (2 ≤ ((List.range 8).filter (bitOf (liftGroup s))).length)

/-- The device's own lift report, sent to every other device of the group and held (R476, R477). -/
def sendLift (s : State) (c tSent : Nat) : State :=
  if !liftActive s ∨ rawField s offPower 61 56 ≠ c ∨ s.hold then s
  else
    let r : LiftReport :=
      { device := s.part.device, group := liftGroup s, outcomes := (ctxOf s c).outcomes, tOutcome := now s,
        wait := now s - tSent, cap := rawField s offPower 11 0, offset := s.power.liftOffset }
    let s := { s with power := { s.power with reports := s.power.reports ++ [r] } }
    ((List.range 8).filter fun d => bitOf (liftGroup s) d && d != s.part.device).foldl (fun s d =>
      match peerPort s d 0 with
      | some p => emit s (.lift p r)
      | none => s) s

/-- STEP_OUTCOME: the LEAD job completes (R323). -/
def stepOutcome (s : State) (o : Origin) (j : ReduceJob) : State :=
  let s := applyLoss s j.ctx o j.rcd.loss j.flag
  let s := modCtx s j.ctx fun x => x.outcome (recipeSteps s j.ctx) j.flag (now s + 200000)
  sendLift s j.ctx j.tSent

/-- A pending tail at the outcome: committed under its L, or dropped (R322). -/
def settleTail (s : State) (o : Origin) (flag : Bool) (x : PendingTail) : State :=
  if flag then unitWrite s x.ctx o (ctxPlus x.base 1) [0]
  else
    let half := 1 - leNat (winRead s x.ctx none x.base 1) % 2
    let s := unitWrite (unitReads s x.ctx o [(x.base, 1)]) x.ctx o x.base (leBytes 1 half ++ [0])
    unitWrite s x.ctx o (ctxPlus x.base (2 + half)) (leBytes 1 (ofSigned 8 x.l))

/-- The completion of an OUTCOME job (R322, R323); its own addresses as they were translated at its acceptance (R94). -/
def outcomeEffect (s : State) (L : Nat) (j : ReduceJob) : State :=
  let o := jobUnit L j
  let s := jobPass s j fun s => unitWrite s j.ctx o j.rcd.result (outcomeBytes (b2n j.flag) 1 (arrivedCount j) (now s))
  let mine := fun (x : PendingTail) => x.ctx == j.ctx && decide (x.jobTag < j.tag)
  let tails := (seqOf s L).tails.filter mine
  let s := modSeq s L fun q => { q with tails := q.tails.filter fun x => !mine x }
  let s := tails.foldl (fun s x => settleTail s o j.flag x) s
  if j.rcd.lead then jobPass s j fun s => stepOutcome s o j else s

/-! ### Completion -/

/-- An OUTCOME job has performed every packet that was announced to it (R321). -/
def outcomeDone (j : ReduceJob) : Bool :=
  j.rcd.contribs.all fun d => match mget? j.announced d with
    | some n => decide (n ≤ mget 0 j.performed d)
    | none => false

/-- A REDUCE job is complete: an owner with its RESULT, a region that only contributes with its last DATA packet (R310). -/
def reduceDone (s : State) (L : Nat) (j : ReduceJob) : Bool :=
  if j.rcd.myo = 0xFF then j.sentData && !unsent s L j.tag else j.resultDone

/-- Nothing of a job is left to do: its packets have left as well. -/
def reduceOver (s : State) (L : Nat) (j : ReduceJob) : Bool :=
  j.reported && (j.rcd.op == 2 || ((j.rcd.myc == 0xFF || j.sentData) && !unsent s L j.tag))

/-- A promised interval of R311 ends when the MAX or DATA packets of its pass have left. -/
def endInterval (s : State) (L : Nat) (j : ReduceJob) : State :=
  match j.intervalEnd with
  | some e =>
    if unsentBlocks s L j.tag then s
    else
      let s := setReduce s L { j with intervalEnd := none }
      if e < now s then promiseMiss s ((physOfLogical s L).getD 0xFF) j.ctx 15 else s
  | none => s

/-- A job completes: JOBS_DONE, TOKEN and DONE (R310, R321, R328). -/
def completeReduce (s : State) (L : Nat) (j : ReduceJob) : State :=
  let s := if j.rcd.op = 2 then outcomeEffect s L j else s
  let s := modCtxRegion s j.ctx L fun x => { x with jobsDone := (x.jobsDone + 1) % 2 ^ 16 }
  setReduce (reportReduce s L j) L { j with reported := true }

/-- What a job's state lets it do: complete, and leave the sequencer. -/
def finishReduce (s : State) (L : Nat) (j : ReduceJob) : State :=
  let s := if !j.reported ∧ (if j.rcd.op = 2 then outcomeDone j else reduceDone s L j) then completeReduce s L j else s
  match findReduce s L j.tag with
  | some k => if reduceOver s L k then removeReduce s L k else s
  | none => s

/-- Every job of a sequencer is brought forward. -/
def settleSeq (s : State) (L : Nat) : State :=
  let s := sendAll L ((seqOf s L).outq.length + 1) s
  ((seqOf s L).jobs.map (·.tag)).foldl (fun s t =>
    match findReduce s L t with
    | some j =>
      let s := endInterval s L j
      match findReduce s L t with
      | some j => finishReduce s L j
      | none => s
    | none => s) s

/-- The sequencer of a region performs what its inbox lets it, and every sequencer sends what credits allow. -/
def runSequencers (s : State) (L : Nat) : State :=
  let s := drainInbox L ((seqOf s L).inbox.length + 1) s
  let s := settleSeq s L
  let s := drainInbox L ((seqOf s L).inbox.length + 1) s
  ((s.logs.map (·.1)).filter fun l => !(seqOf s l).outq.isEmpty).foldl settleSeq s

/-- A job ends without completing, and the sequencers go on. -/
def abortAndRun (s : State) (L : Nat) (j : ReduceJob) (send aborted report : Bool) : State :=
  runSequencers (abortReduce s L j send aborted report) L

/-! ### Taking a record (R203, R306) -/

/-- The record at the head of a context's reduction ring. -/
def reduceHead (s : State) (c L next : Nat) : ReduceRec :=
  let a := ringRecordAddr s c L 1 next 128
  let r := winRead s c none a 128
  readReduceRec r ((winRead s c none (fieldAt r 0x40 8) (mapBytes r)).map (·.toNat))

/-- The record is consumed. -/
def consumeReduce (s : State) (c L next : Nat) (r : ReduceRec) : State :=
  let s := unitReads s c (.sequencer L (seqOf s L).nextTag) [(ringRecordAddr s c L 1 next 128, 128), (r.mapAddr, r.map.length)]
  let s := modCtxRegion s c L fun x => { x with reduceNext := (next + 1) % 2 ^ 32 }
  writeConsumed s c L 1 (next + 1)

/-- The part of r that goes to one region of a job's owners, or across the link to one device: by the share of the owners
that lie there (Table 12.5). -/
def packetShare (r : ReduceRec) (there : Nat → Bool) : Nat := ceilDiv (r.rate * (r.ownerList.filter there).length) r.owners

/-- Hops of the packets of a contributor: the Bridle ports of the owners here, the links to those on other devices. -/
def packetHops (s : State) (L : Nat) (r : ReduceRec) : List (Hop × Nat) :=
  if r.myc = 0xFF then []
  else
    ((r.ownerList.eraseDups.filter fun d => d / 16 == s.part.device && d != ownCode s L).map fun d =>
        (.portIn (physAt s (d % 16)), packetShare r (· == d))) ++
      ((r.ownerList.map (· / 16)).eraseDups.filter (· != s.part.device)).flatMap fun dev =>
        peerHops s true (peerAddr dev 1 0) (packetShare r fun d => d / 16 == dev)

/-- Bytes of RESULT (Table 11.6). -/
def resultLen (r : ReduceRec) : Nat :=
  let n := (r.range r.myo).2 - (r.range r.myo).1
  (if r.outFp32 then r64 (256 * n) else 0) + (if r.outBi16 then r64 (128 * n) + n else 0)

/-- SCRATCH, and the tail where the job has one: context address and bytes. -/
def scratchAreas (r : ReduceRec) : List (Nat × Nat) :=
  (r.scratch, 4 * r.elems + 4 * r.nb) :: if r.tail then [(r.tailBase, 0x40 + 2 * r64 (4 * r.elems))] else []

/-- The arrays that a job reads and writes. -/
def reduceReads (r : ReduceRec) : List (Nat × Nat) :=
  (if r.myc = 0xFF then [] else (r.source, r.elems * if r.srcfmt = 0 then 4 else 2) :: scratchAreas r) ++
    (if r.myo = 0xFF then [] else [(r.acc, 256 * r.bpo)])

def reduceWrites (r : ReduceRec) : List (Nat × Nat) :=
  (if r.myc = 0xFF then [] else scratchAreas r) ++ (if r.myo = 0xFF then [] else [(r.acc, 256 * r.bpo), (r.result, resultLen r)])

/-- Hops of a REDUCE job: one stream at r that reads and writes its arrays in turn and carries its packets (R310, log entry
18). -/
def reduceHops (s : State) (L c : Nat) (r : ReduceRec) : List (Hop × Nat) :=
  let p := (physOfLogical s L).getD 0xFF
  mergeHops (atRate r.rate [.portOut p, .portIn p] ++ readPath s c p r.rate (reduceReads r) ++
    writePath s c p r.rate (reduceWrites r) ++ packetHops s L r)

/-- The head of a ring may be looked at: it is enabled and running, and the units of the region accept work. -/
def reduceMayTake (s : State) (c L : Nat) : Bool :=
  ctxRuns s c && unitsAccept s L && ringHas s c L 1 (ctxRegionOf (ctxOf s c) L).reduceNext

/-- The accepted REDUCE job starts (R310). -/
def startReduce (s : State) (L c next : Nat) (r : ReduceRec) (t : Nat) : State :=
  let j := newReduceJob s L c next r [] t
  let s := taintReduce (addReduce (consumeReduce s c L next r) L j) L j
  let s := match findReduce s L j.tag with
    | some j => contributorStart (ownerStart s L j) L j
    | none => s
  runSequencers s L

/-- REDUCE (R306 to R310, R317, R319, R322, R326): the record at the head of the ring waits, or is accepted, when its checks
are made; one whose fields are out of range waits for no claim and no rate. -/
def execReduce (ctx region : Nat) (s : State) : Host.Outcome State Fault Refusal :=
  let next := (ctxRegionOf (ctxOf s ctx) region).reduceNext
  let r := reduceHead s ctx region next
  let u := XferUse.reduce region (ctx * 2 ^ 32 + next)
  if !reduceMayTake s ctx region ∨ r.op = 2 ∨ reduceWaits s region ctx r then notNow s
  else if !reduceRecOk r then .next (refuseReduce (consumeReduce s ctx region next r) region ctx r)
  else if !claimOk s region ctx r then notNow s
  else
    let s := reserveRates s u (some ctx) ((reduceWrites r).findSome? fun x => stackInto s ctx x.1) (reduceHops s region ctx r)
    match ratesSince s u with
    | none => .next s
    | some t =>
      if reduceConflict s region ctx r then
        .next (endTransfer (refuseReduce (consumeReduce s ctx region next r) region ctx r) u)
      else .next (startReduce s region ctx next r t)

/-- The contribution of a region (R321). -/
def contributionOf (s : State) (L c : Nat) (r : ReduceRec) : Bool :=
  bitOf (leNat (winRead s c none r.flagword 4)) 0 || mget false (seqOf s L).contribution c

/-- An accepted OUTCOME job sends its packets (R321). -/
def startOutcome (s : State) (L c next : Nat) (r : ReduceRec) : State :=
  let used := mget [] (seqOf s L).channels c
  let chans := if used = [] then [r.ch] else used
  let flag := contributionOf s L c r
  let s := unitReads s c (.sequencer L (seqOf s L).nextTag) [(r.flagword, 4)]
  let j := newReduceJob s L c next r chans (now s)
  let s := addReduce (consumeReduce s c L next r) L j
  let s := modSeq s L fun q => { q with channels := mset q.channels c [], contribution := mset q.contribution c false }
  let s := chans.foldl (fun s ch => r.contribs.foldl (fun s d =>
    queuePacket s L j.tag d (packetOf s L r 5 true flag ch chans.length 0 [])) s) s
  runSequencers s L

/-- OUTCOME (R306, R307, R321, R323, R326). -/
def execOutcome (ctx region : Nat) (s : State) : Host.Outcome State Fault Refusal :=
  let next := (ctxRegionOf (ctxOf s ctx) region).reduceNext
  let r := reduceHead s ctx region next
  if !reduceMayTake s ctx region ∨ r.op ≠ 2 ∨ reduceWaits s region ctx r then notNow s
  else if !reduceRecOk r ∨ reduceConflict s region ctx r then
    .next (refuseReduce (consumeReduce s ctx region next r) region ctx r)
  else .next (startOutcome s region ctx next r)

/-! ### Packets -/

/-- A packet of this device on its way to a region's inbox. -/
def onItsWay (s : State) (L : Nat) (p : Packet) : Option (Packet × Nat) := (seqOf s L).underWay.find? fun x => x.1 == p

/-- A packet of this device has come: its delivery is judged (R311). One of a peer comes within a credit that the inbox has
lent to the peer (log entry 14). -/
def takeWay (s : State) (L : Nat) (p : Packet) : State :=
  match onItsWay s L p with
  | some x =>
    let s := modSeq { s with out := s.out.erase (.packet (ownCode s L) p) } L fun q => { q with underWay := q.underWay.erase x }
    let from_ := p.sender % 16
    if x.2 < 10 * now s then promiseMiss s ((physOfLogical s from_).getD 0xFF) 0xFF (packetPromise from_ L).2 else s
  | none => setDest s (.reduceInbox L) { destOf s (.reduceInbox L) with free := (destOf s (.reduceInbox L)).free - 1 }

/-- The function that a packet works for: that of the job that it names here. -/
def packetFn (s : State) (L : Nat) (p : Packet) : Nat :=
  match (seqOf s L).jobs.find? fun j => j.rcd.job == p.job with
  | some j => (ctxOf s j.ctx).fn
  | none => 0

/-- The bytes of a packet are written into its place of the inbox, and the sequencer holds it (R318). -/
def storePacket (s : State) (L : Nat) (p : Packet) : State :=
  modRegion (devWrite s (packetFn s L p) (packetAddr L (regionOf s L).packetNext) (packetBytes p)) L fun R =>
    { R with seqr := { R.seqr with inbox := R.seqr.inbox ++ [p] }, packetNext := R.packetNext + 1 }

/-- A packet reaches the inbox of a region (R318, R319); a region that has failed or is vacant takes none (R443, R444). -/
def packetArrives (op region : Nat) (p0 : Packet) (s : State) : Host.Outcome State Fault Refusal :=
  let p := { p0 with op := op }
  if regionLost s region ∨ ((onItsWay s region p).isNone ∧ (destOf s (.reduceInbox region)).free = 0) then notNow s
  else .next (runSequencers (storePacket (takeWay s region p) region p) region)

/-- GRANT (R310, R311, R312, R324). -/
def execGrant (region : Nat) (p : Packet) (s : State) : Host.Outcome State Fault Refusal := packetArrives 1 region p s

/-- MAX (R310, R312, R314). -/
def execMax (region : Nat) (p : Packet) (s : State) : Host.Outcome State Fault Refusal := packetArrives 2 region p s

/-- EXP (R310, R313 to R317). -/
def execExp (region : Nat) (p : Packet) (s : State) : Host.Outcome State Fault Refusal := packetArrives 3 region p s

/-- DATA (R310, R320, R324). -/
def execData (region : Nat) (p : Packet) (s : State) : Host.Outcome State Fault Refusal := packetArrives 4 region p s

/-- OUTCOME packet (R321 to R323). -/
def execOutcomePacket (region : Nat) (p : Packet) (s : State) : Host.Outcome State Fault Refusal :=
  packetArrives 5 region p s

/-- ABORT (R326). -/
def execAbort (region : Nat) (p : Packet) (s : State) : Host.Outcome State Fault Refusal := packetArrives 6 region p s

/-! ### Batch steering (R325) -/

/-- An unsigned integer as FP32. -/
def fromNat (n : Nat) : Word := toF32 (intVal n)

/-- The smallest integer at or above a finite value; none for a NaN or an infinity. -/
def ceilInt : FpVal → Option Int
  | .fin s m e =>
    if 0 ≤ e then some (let k : Int := ((m * 2 ^ e.toNat : Nat) : Int); if s then -k else k)
    else
      let q := 2 ^ (-e).toNat
      some (if s then -((m / q : Nat) : Int) else ((ceilDiv m q : Nat) : Int))
  | _ => none

/-- Indices of the set bits of a 16-byte mask. -/
def maskBits (r : List Byte) (off : Nat) : List Nat := (List.range 128).filter fun i => bitOf (fieldAt r off 16) i

/-- FP32 values at the set bits of a mask, in ascending order, added one after another. -/
def sumAt (r : List Byte) (off : Nat) : List Nat → Word
  | [] => 0
  | i :: l => l.foldl (fun a k => fadd a (BitVec.ofNat 32 (fieldAt r (off + 4 * k) 4))) (BitVec.ofNat 32 (fieldAt r (off + 4 * i) 4))

/-- A group gives the two estimates, or is passed over. -/
def groupUsable (r : List Byte) : Bool :=
  let c := maskBits r 0x600
  decide (2 ≤ c.length) && !(maskBits r 0x610).isEmpty &&
    c.all fun i => fieldAt r (0x400 + 4 * i) 4 == fieldAt r (0x400 + 4 * c.headD 0) 4

/-- The sums of steering over groups. -/
structure Steer where
  g2 : Word
  sn : Word
  used : Bool
  ignored : Nat
  deriving DecidableEq, Repr, Inhabited

/-- One group's part (R325). -/
def Steer.add (x : Steer) (r : List Byte) : Steer :=
  let c := maskBits r 0x600
  if groupUsable r then
    let C := fromNat c.length
    let b := fromNat (fieldAt r (0x400 + 4 * c.headD 0) 4)
    let B := fmul b C
    let Ls := fdiv (sumAt r 0 c) C
    let Rs := fdiv (sumAt r 0x200 (maskBits r 0x610)) (fmul C C)
    let one := fromNat 1
    { x with
      g2 := fadd x.g2 (fdiv (fsub (fmul B Rs) (fmul b Ls)) (fsub B b))
      sn := fadd x.sn (fdiv (fsub Ls Rs) (fsub (fdiv one b) (fdiv one B)))
      used := true }
  else if c = [] then x else { x with ignored := x.ignored + 1 }

/-- A smoothed estimate: the new value after an estimate of 0, else an eighth of the way. -/
def smooth (old new : Word) : Word :=
  if fcmp 0 old 0 then new else fadd old (fdiv (fsub new old) (fromNat 8))

/-- The next micro-batch count; `free` stands for the result where the quotient is not a number, which the rule leaves
open. -/
def nextBatch (rec_ : List Byte) (g2e se : Word) (free : Nat) : Nat :=
  let mb := fieldAt rec_ 6 2
  let lo : Int := (fieldAt rec_ 2 2 : Nat)
  let hi : Int := (fieldAt rec_ 4 2 : Nat)
  if (f32 0).lt (f32 g2e) ∧ (f32 se).isFinite ∧ (f32 0).lt (f32 se) then
    let q := f32 (fdiv (fdiv se g2e) (fmul (fromNat (fieldAt rec_ 8 4)) (fromNat (fieldAt rec_ 1 1))))
    let T : Int := match q, ceilInt q with
      | _, some k => min (max k lo) hi
      | .inf _, _ => hi
      | _, _ => min (max (free : Int) lo) hi
    if (mb : Int) ≤ 4 * (T - mb).natAbs then T.toNat % 2 ^ 16 else mb
  else mb

/-- Device address of a group's statistics record. -/
def statsAddr (rec_ : List Byte) (n : Nat) : Nat := fieldAt rec_ 0x20 8 + 2048 * n

/-- CMASK and OMASK of every group are cleared. -/
def clearMasks (s : State) (fn : Nat) (rec_ : List Byte) : State :=
  (List.range (fieldAt rec_ 0x16 2)).foldl (fun s n => devWrite s fn (statsAddr rec_ n + 0x600) (List.replicate 32 0)) s

/-- The steering decision on a record, and its signal. -/
def steerEffect (s : State) (c ca : Nat) (flag : Bool) : State :=
  let rec_ := winRead s c none ca 64
  let fn := (ctxOf s c).fn
  let n := fieldAt rec_ 0x16 2
  let x := (List.range n).foldl (fun x i => x.add (devRead s (statsAddr rec_ i) 2048)) (⟨0, 0, false, 0⟩ : Steer)
  let off := flag || fieldAt rec_ 0 1 == 0
  let s := clearMasks (winReadMark s c none ca 64) fn rec_
  let old := fun o => BitVec.ofNat 32 (fieldAt rec_ o 4)
  let use := !off && x.used
  let g2e := if use then smooth (old 0x0C) x.g2 else old 0x0C
  let se := if use then smooth (old 0x10) x.sn else old 0x10
  let f := freshNat s
  let mb := if use then nextBatch rec_ g2e se f.1 else fieldAt rec_ 6 2
  let ignored := if off then fieldAt rec_ 0x28 4 else (fieldAt rec_ 0x28 4 + x.ignored) % 2 ^ 32
  let s := winWrite f.2 c none (ctxPlus ca 6) (leBytes 2 mb)
  let s := winWrite s c none (ctxPlus ca 0x0C) (leBytes 4 g2e.toNat ++ leBytes 4 se.toNat ++ leBytes 2 mb)
  let s := winWrite s c none (ctxPlus ca 0x18) (leBytes 8 (ctxOf s c).outcomes)
  let s := winWrite s c none (ctxPlus ca 0x28) (leBytes 4 ignored)
  winWrite s c none (ctxPlus ca 0x2C) (leBytes 4 ((fieldAt rec_ 0x2C 4 + 1) % 2 ^ 32))

/-- BATCH_STEERING (R325, R332): the firmware's decision after a step outcome. -/
def execBatchSteering (ctx recordAddr : Nat) (s : State) : Host.Outcome State Fault Refusal :=
  match (ctxOf s ctx).steer with
  | none => notNow s
  | some (flag, _) => .next (steerEffect (modCtx s ctx fun x => { x with steer := none }) ctx recordAddr flag)

end Sys2Proof.Machine
end

