-- ==== Sys2Proof/Machine/Packed.lean ====
section
/-! DEFINITION. The stored form of a T2 line as bytes, and the images of whole pages that a packed COPY moves (13 R360, R361,
R366). -/

namespace Sys2Proof.Machine

open Sys2Proof

/-- Fields of K bits each, packed from bit 0, as one number. -/
def packFields (K : Nat) : List Nat → Nat
  | [] => 0
  | x :: r => x % 2 ^ K + 2 ^ K * packFields K r

/-- Field i of K bits. -/
def unpackField (K v i : Nat) : Nat := v / 2 ^ (K * i) % 2 ^ K

/-- The 8 bits below the sign of an element of w bytes. -/
def expBits (w x : Nat) : Nat := bits x (8 * w - 2) (8 * w - 9)

/-- The remaining bits of an element: the sign above the low bits (log entry 63). -/
def restBits (w x : Nat) : Nat := x % 2 ^ (8 * w - 9) + 2 ^ (8 * w - 9) * (x / 2 ^ (8 * w - 1) % 2)

/-- The element of w bytes that its two parts make. -/
def joinBits (w e r : Nat) : Nat :=
  r % 2 ^ (8 * w - 9) + 2 ^ (8 * w - 9) * (e % 256) + 2 ^ (8 * w - 1) * (r / 2 ^ (8 * w - 9) % 2)

/-- The zero mask of a line's elements. -/
def zeroMask (xs : List Nat) : Nat := packFields 1 (xs.map fun x => if x = 0 then 0 else 1)

/-- The stored line of R361, without its padding. -/
def storedBody (w : Nat) (line : List Byte) : List Byte :=
  let xs := lineElems w line (256 / w)
  let nz := xs.filter (· ≠ 0)
  let es := nz.map (expBits w)
  let lo := if w = 1 then 0 else es.foldl Nat.min 255
  let K := if w = 1 then 0 else spanBits (es.foldl Nat.max 0 - lo)
  leBytes 1 lo ++ leBytes 1 K ++ [0, 0] ++ leBytes (256 / (8 * w)) (zeroMask xs) ++
    (if w = 1 then nz.flatMap (leBytes 1)
     else leBytes (ceilDiv (nz.length * K) 8) (packFields K (es.map (· - lo))) ++ nz.flatMap fun x => leBytes (w - 1) (restBits w x))

/-- The sectors that store a line (R361). -/
def storedLine (width : Nat) (line : List Byte) : List Byte :=
  let n := lineSectors width line
  if n = 0 then [] else if n = 8 then line else padTo (32 * n) (storedBody (2 ^ width) line)

/-- The elements of a stored line: each mask bit takes the next non-zero element; `n` elements are left. -/
def readElems (mask : Nat) (elem : Nat → Nat) : Nat → Nat → Nat → List Nat
  | 0, _, _ => []
  | n + 1, i, k => if bitOf mask i then elem k :: readElems mask elem n (i + 1) (k + 1) else 0 :: readElems mask elem n (i + 1) k

/-- Bits set among the first n of a mask. -/
def maskCount (mask n : Nat) : Nat := ((List.range n).filter (bitOf mask)).length

/-- The 256 bytes of a line from its sectors. -/
def readLine (width sectors : Nat) (bs : List Byte) : List Byte :=
  if sectors = 0 then List.replicate 256 0
  else if sectors = 8 then padTo 256 bs
  else
    let w := 2 ^ width
    let lo := fieldAt bs 0 1
    let K := fieldAt bs 1 1
    let mask := fieldAt bs 4 (256 / (8 * w))
    let n := maskCount mask (256 / w)
    let at_ := 4 + 256 / (8 * w)
    let kb := ceilDiv (n * K) 8
    let elem := fun i =>
      if w = 1 then fieldAt bs (at_ + i) 1
      else joinBits w (unpackField K (fieldAt bs at_ kb) i + lo) (fieldAt bs (at_ + kb + i * (w - 1)) (w - 1))
    (readElems mask elem (256 / w) 0 0).flatMap (leBytes w)

/-! ### Page records (Table 13.4) -/

/-- The 16 bytes of a page record. -/
def pageRecord (width granules base : Nat) (sizes : List Nat) : List Byte :=
  leBytes 16 (packFields 4 sizes + 2 ^ 64 * (base % 2 ^ 23) + 2 ^ 87 * granules + 2 ^ 92 * width)

def recWidth (r : Nat) : Nat := bits r 93 92
def recGranules (r : Nat) : Nat := bits r 91 87
def recSizes (r : Nat) : List Nat := (List.range 16).map fun i => bits r (4 * i + 3) (4 * i)

/-- A record that Table 13.4 allows. -/
def pageRecordOk (r : Nat) : Bool :=
  recWidth r != 3 && (recSizes r).all (fun n => decide (n ≤ 8)) && recGranules r == ceilDiv (32 * (recSizes r).sum) 256 &&
    bits r 127 94 == 0

/-- The granules of a page: its lines' sectors in order, padded to whole granules. -/
def pageStored (width : Nat) (page : List Byte) : List Byte :=
  let body := (List.range 16).flatMap fun i => storedLine width ((page.drop (256 * i)).take 256)
  padTo (256 * ceilDiv body.length 256) body

/-- The image of one page: its record, then its granules. -/
def pageImage (width base : Nat) (page : List Byte) : List Byte :=
  let sizes := (List.range 16).map fun i => lineSectors width ((page.drop (256 * i)).take 256)
  let body := pageStored width page
  pageRecord width (body.length / 256) base sizes ++ body

/-- The lines of a page from its granules. -/
def readLines (width : Nat) : List Nat → List Byte → List Byte
  | [], _ => []
  | n :: r, bs => readLine width n (bs.take (32 * n)) ++ readLines width r (bs.drop (32 * n))

/-- The 4,096 bytes of a page from its record and granules. -/
def readPage (rec_ : Nat) (body : List Byte) : List Byte := readLines (recWidth rec_) (recSizes rec_) body

/-! ### Moves between T2 and T3 (R366) -/

/-- Whole lines that a move may carry at once as one page record with its granules: within one page at both ends. -/
def lineRun (a b n : Nat) : Nat :=
  if a % 256 = 0 ∧ b % 256 = 0 then Nat.min (n / 256) (Nat.min (16 - a / 256 % 16) (16 - b / 256 % 16)) else 0

/-- How a move between T2 and T3 is cut: offset, length, whether the piece crosses the link in stored form, and whether its bytes are
poisoned. A line that is poisoned crosses by itself, and so does a part of a line, as logical bytes (log entry 132); `k` bounds the
pieces. -/
def crossPieces (s : State) (a b : Nat) : Nat → Nat → Nat → List (Nat × Nat × Bool × Bool)
  | 0, _, _ => []
  | k + 1, off, n =>
    if n = 0 then []
    else
      let m := lineRun (a + off) (b + off) n
      let m := if m = 0 then Nat.min n (256 - (a + off) % 256)
        else if (devPoison s (a + off) (256 * m)).isSome then 256 else 256 * m
      (off, m, lineRun (a + off) (b + off) n != 0, (devPoison s (a + off) m).isSome) ::
        crossPieces s a b k (off + m) (n - m)

/-- The bytes cross a link between T2 of this device and T2 of a peer. -/
def crossesStored (a b : Nat) : Bool :=
  (spaceOf a == 0 && spaceOf b == 4 && bits b 47 44 == 0) || (spaceOf a == 4 && bits a 47 44 == 0 && spaceOf b == 0)

/-- The pieces in which a move to a peer leaves. -/
def movePieces (s : State) (a b n : Nat) : List (Nat × Nat × Bool × Bool) :=
  if crossesStored a b then crossPieces s a b (n / 256 + 2) 0 n
  else (plainPieces s a n).map fun x => (x.1, x.2.1, false, x.2.2)

/-- The record and the granules of m lines of T2, which stand from line `i` of their page on at the other end. -/
def linesImage (s : State) (a i m : Nat) : List Byte :=
  let w := pageWidth s (a / 4096)
  let line := fun j => devRead s (a + 256 * j) 256
  let sizes := (List.range 16).map fun l => if i ≤ l ∧ l < i + m then lineSectors w (line (l - i)) else 0
  let body := (List.range m).flatMap fun j => storedLine w (line j)
  let g := ceilDiv body.length 256
  pageRecord w g (pageRun s (a / 4096)).base sizes ++ padTo (256 * g) body

/-- What the operation of a piece carries. -/
def piecePayload (s : State) (a b : Nat) (x : Nat × Nat × Bool × Bool) : List Byte :=
  if x.2.2.1 then linesImage s (a + x.1) ((b + x.1) / 256 % 16) (x.2.1 / 256) else devRead s (a + x.1) x.2.1

/-- The write operations of a move to a peer for a function, LEN counting the logical bytes (R366, R392). -/
def sendMove (s : State) (fn a b n : Nat) : State :=
  if peerGone s b then s
  else
    (movePieces s a b n).foldl (fun t x =>
      match peerPort t (bits b 50 48) (bits (b + x.1) 40 0) with
      | some p => sendUnitOp t p (opHeader 2 fn 0 x.2.1 (b + x.1) 0 x.2.2.2) (piecePayload s a b x)
      | none => t) (askPeer { s with freeCounter := s.freeCounter + 1 } fn a n)

/-- Lines that come from T2 of a peer in stored form: a free record with free granules, or free bytes where that record is none that
Table 13.4 allows (log entry 13). -/
def takeLines (s : State) (fn a b n : Nat) : State :=
  (crossPieces s a b (n / 256 + 2) 0 n).foldl (fun t x =>
    let f := freshBytes t (16 + 4096)
    let r := leNat (f.1.take 16)
    let bs := if x.2.2.1 ∧ pageRecordOk r then (readPage r (f.1.drop 16)).drop (256 * ((a + x.1) / 256 % 16)) else f.1.drop 16
    devWrite f.2 fn (b + x.1) (padTo x.2.1 bs)) (askPeer s fn a n)

/-- A move of bytes by a Winch for a function, between any two device addresses: what crosses a link between T2 and T3 goes in stored
form (R366, R501). -/
def crossMove (s : State) (fn a b n : Nat) : State :=
  if spaceOf b = 4 then sendMove s fn a b n
  else if crossesStored a b ∧ !peerGone s a then takeLines s fn a b n
  else devMove s fn a b n

end Sys2Proof.Machine
end

