-- ==== Sys2Proof/Machine/Pool.lean ====
section
/-! DEFINITION. The T1 pool (13 R351 to R358): units, objects, homes, eviction by age and the change of window entries at epoch
boundaries. -/

namespace Sys2Proof.Machine

open Sys2Proof

/-! ### Units -/

/-- The standby of a ballast slot is in service, chosen for an exchange, or about to be recorded as failed (R444, R451). -/
def slotTaken (s : State) (H : Nat) : Bool :=
  decide (16 ≤ H) && (match physOfLogical s H with
    | some p => (physOf s p).service.isSome || (physOf s p).failing ||
        s.logs.any fun e => match e.2.exchange with
          | some x => x.entering == some p
          | none => false
    | none => true)

/-- Units that allocations and homes may take: all but the four reserved ones of an active region (R351); none in a ballast
slot without a standby (R357), or where the region is vacant. -/
def poolLimit (s : State) (H : Nat) : Nat :=
  if (physOfLogical s H).isNone ∨ (regionOf s H).vacant ∨ (regionOf s H).exchange.isSome ∨ slotTaken s H then 0
  else if H < 16 then 252 else 256

/-- A unit that nothing uses. -/
def unitFree (s : State) (H u : Nat) : Bool := (mget? (regionOf s H).units u).isNone

/-- The first run of n units that satisfy a test. -/
def findRun (s : State) (H n : Nat) (ok : Nat → Bool) : Option Nat :=
  if n = 0 then none
  else (List.range (poolLimit s H + 1 - n)).find? fun u => (List.range n).all fun i => ok (u + i)

/-- Gives a run of units a use. -/
def takeUnits (s : State) (H u n : Nat) (x : UnitUse) : State :=
  modRegion s H fun R => { R with units := (List.range n).foldl (fun m i => mset m (u + i) x) R.units }

/-- Frees the units that satisfy a test. -/
def freeUnits (s : State) (H : Nat) (p : UnitUse → Bool) : State :=
  modRegion s H fun R => { R with units := R.units.filter fun e => !p e.2 }

/-- T1 address of a unit. -/
def unitAddr1 (H u : Nat) : Nat := t1Addr H (u * 2097152)

/-- Window entries kept from an acceptance map some of a range of device addresses. -/
def winsMap (ws : Map Nat DWord) (a n : Nat) : Bool :=
  ws.any fun e =>
    winValid e.2.toNat && decide (winBase e.2.toNat < a + n ∧ a < winBase e.2.toNat + winSize e.2.toNat)

/-- Accepted work of a region's units reaches a range through the windows of its acceptance (R94). -/
def unitsMap (R : LogRegion) (a n : Nat) : Bool :=
  (R.reels.any fun u => match u.2.running with
      | some r => winsMap r.wins a n
      | none => false) ||
    (R.gatherJobs.any fun j => j.accepted && winsMap j.wins a n) || (R.winch.any fun e => e.rcd.op == 2 && winsMap e.wins a n) ||
    R.seqr.jobs.any fun j => winsMap j.wins a n

/-- Accepted work other than requests still reaches a range: jobs of the units, and tensor operations with the windows of
their issue (R94, R355). -/
def workMaps (s : State) (a n : Nat) : Bool :=
  (s.ops.any fun q => winsMap q.wins a n) || s.logs.any fun e => unitsMap e.2 a n

/-- Work accepted before a boundary that has not completed holds a unit (R355). -/
def unitBusy (s : State) (H u boundary : Nat) : Bool :=
  workMaps s (unitAddr1 H u) 2097152 || s.requests.any fun r =>
    r.stage != .waiting && decide (r.accepted < boundary) && kindAddressed r.kind &&
      decide (unitAddr1 H u ≤ r.devAddr ∧ r.devAddr < unitAddr1 H (u + 1))

/-- Units of evicted homes become free once the requests accepted against them have completed (R355). -/
def freeLeaving (s : State) : State :=
  { s with logs := s.logs.map fun e =>
      (e.1, { e.2 with units := e.2.units.filter fun x => match x.2 with
        | .leaving b => decide (now s < b) || unitBusy s e.1 x.1 b
        | _ => true }) }

/-! ### Objects (R352, R353) -/

def modObject (s : State) (h : Nat) (f : PoolObject → PoolObject) : State :=
  { s with objects := s.objects.map fun o => if o.handle = h then f o else o }

def findObject (s : State) (h : Nat) : Option PoolObject := s.objects.find? fun o => o.handle == h

/-- The object that a window of a context maps. -/
def objectOf (s : State) (c w : Nat) : Option PoolObject := s.objects.find? fun o => o.windows.contains (c, w)

/-- The address an object's windows map now: its home, or its backing (R352). -/
def PoolObject.place (o : PoolObject) : Nat :=
  match o.home with
  | some (H, u) => unitAddr1 H u
  | none => o.backing

/-- Writes the BASE of every window of an object (R355). -/
def mapObject (s : State) (o : PoolObject) : State :=
  o.windows.foldl (fun s x =>
    let e := winEntry s x.1 x.2
    setRaw s (offWindow x.1 x.2) (BitVec.ofNat 64 (e - bits e 34 0 + o.place / 2097152))) s

/-- An accepted STAGE works on the object. -/
def objectStaged (s : State) (o : PoolObject) : Bool :=
  s.logs.any fun e => e.2.winch.any fun x =>
    x.rcd.op == 1 && !x.reported && o.windows.contains (x.ctx, x.rcd.window)

/-- An accepted STAGE works on the object, or will map it a new home. -/
def objectBusy (s : State) (o : PoolObject) : Bool := o.nextHome.isSome || objectStaged s o

/-! ### Eviction (R354) -/

/-- The order in which released objects are taken: time of the last STAGE, then context, then window. -/
def ageKey (o : PoolObject) : Nat × Nat × Nat :=
  let k := o.windows.foldl (fun (a : Nat × Nat) w => if w.1 < a.1 ∨ (w.1 = a.1 ∧ w.2 < a.2) then w else a) (64, 256)
  (o.lastStage, k.1, k.2)

def ageLt (a b : Nat × Nat × Nat) : Bool :=
  decide (a.1 < b.1 ∨ (a.1 = b.1 ∧ (a.2.1 < b.2.1 ∨ (a.2.1 = b.2.1 ∧ a.2.2 < b.2.2))))

/-- The oldest of some objects. -/
def oldest (l : List PoolObject) : Option PoolObject :=
  l.foldl (fun a o => match a with
    | some x => if ageLt (ageKey o) (ageKey x) then some o else some x
    | none => some o) none

/-- Released objects of a home that may be selected. -/
def evictable (s : State) (H : Nat) : List PoolObject :=
  s.objects.filter fun o => o.hold == 0 && !o.evicting && !objectBusy s o && (match o.home with
    | some h => h.1 == H
    | none => false)

/-- A unit that is free, leaving, or part of an object selected for eviction. -/
def unitComing (s : State) (H u : Nat) : Bool :=
  match mget? (regionOf s H).units u with
  | none => true
  | some (.leaving _) => true
  | some (.home h) => s.objects.any fun o => o.handle == h && o.evicting
  | _ => false

/-- Selects released objects of a home, oldest first, until a run of n units is free or selected (OBJECT_EVICTION); `k`
bounds the selections. -/
def selectEvictions (H n : Nat) : Nat → State → State
  | 0, s => s
  | k + 1, s =>
    if (findRun s H n (unitComing s H)).isSome then s
    else
      match oldest (evictable s H) with
      | some o => selectEvictions H n k (modObject s o.handle fun x => { x with evicting := true })
      | none => s

/-- Selects in homes in order until one of them will have a run; what is selected in a home that gives none stays selected
(R354). -/
def selectIn (n : Nat) : List Nat → State → State
  | [], s => s
  | H :: r, s =>
    let s := selectEvictions H n s.objects.length s
    if (findRun s H n (unitComing s H)).isSome then s else selectIn n r s

/-- A free run in the first of some homes that has one. -/
def freeRun (s : State) (n : Nat) : List Nat → Option (Nat × Nat)
  | [] => none
  | H :: r =>
    match findRun s H n (unitFree s H) with
    | some u => some (H, u)
    | none => freeRun s n r

/-- A loft that waits takes the first run of its SIZE that is free (R219, R355). -/
def placeLoft (L : Nat) (s : State) (c : Nat) : State :=
  let n := rawField s (offLoft c L) 62 57
  match findRun s L n (unitFree s L) with
  | some u => modRegion (takeUnits s L u n (.loft c)) L fun R => { R with loftWaits := R.loftWaits.filter (· != c) }
  | none => s

/-- Units that no request holds any more are free, and lofts that waited for them take them (R355). -/
def freedUnits (s : State) : State :=
  let s := freeLeaving s
  s.logs.foldl (fun s e => e.2.loftWaits.foldl (placeLoft e.1) s) s

/-- Finds a run, or selects objects to make one: the run, and the state. -/
def seekRun (s : State) (n : Nat) (homes : List Nat) : Option (Nat × Nat) × State :=
  let s := freedUnits s
  match freeRun s n homes with
  | some x => (some x, s)
  | none => (none, selectIn n homes s)

/-- The homes that HOME names (Table 13.6); ballast slot 16 before slot 17. -/
def homesOf (L home : Nat) : List Nat :=
  match home with
  | 0 => [L]
  | 1 => [16, 17]
  | _ => [L, 16, 17]

/-! ### The boundary (R355) -/

/-- An evicted object loses its home: its windows map the backing, its units leave. -/
def evict (s : State) (o : PoolObject) : State :=
  match o.home with
  | none => s
  | some (H, _) =>
    let s := modRegion s H fun R =>
      { R with units := R.units.map fun e => if e.2 = .home o.handle then (e.1, .leaving (now s)) else e }
    let s := match physOfLogical s H with
      | some p => modPhys s p fun x => { x with evictions := (x.evictions + 1) % 2 ^ 21 }
      | none => s
    let o' := { o with home := none, evicting := false }
    mapObject (modObject s o.handle fun _ => o') o'

/-- A re-homed object maps the run that its copy has filled; the units of a home it leaves are freed as at an eviction. -/
def rehome (s : State) (o : PoolObject) : State :=
  match o.nextHome with
  | none => s
  | some h =>
    let s := match o.home with
      | some (H, u) =>
        if H = h.1 then s
        else modRegion s H fun R =>
          { R with units := R.units.map fun e =>
              if e.2 = .home o.handle ∧ u ≤ e.1 ∧ e.1 < u + o.units then (e.1, .leaving (now s)) else e }
      | none => s
    let o' := { o with home := some h, nextHome := none, evicting := false }
    mapObject (modObject s o.handle fun _ => o') o'

/-- OBJECT_REMAP_BOUNDARY (R94, R354, R355): at an epoch boundary selected objects are evicted and re-homed ones mapped. -/
def execObjectRemapBoundary (s : State) : Host.Outcome State Fault Refusal :=
  if !isBoundary (now s) then notNow s
  else
    let s := (s.objects.filter fun o => o.nextHome.isSome).foldl rehome s
    .next (freedUnits ((s.objects.filter fun o => o.evicting).foldl evict s))

/-- Every object loses the windows of a context that is gone, and its holds (R353). -/
def dropHolds (s : State) (c : Nat) (windows : Bool) : State :=
  { s with objects := s.objects.map fun o =>
      if o.windows.any fun w => w.1 == c then
        { o with hold := 0, windows := if windows then o.windows.filter fun w => w.1 != c else o.windows }
      else o }

/-! ### Emptying a ballast slot (R358) -/

/-- The runs tried for a held object of a slot. -/
def refuge (s : State) (slot : Nat) (o : PoolObject) : Option (Nat × Nat) :=
  freeRun s o.units ((33 - slot) :: o.stagedBy :: List.range (activeCount s.part.grade))

/-- One object of a slot that is emptied; one that an accepted STAGE is about to hold goes with the held ones. -/
def leaveSlot (slot : Nat) (s : State) (o : PoolObject) : State :=
  match o.home with
  | none => s
  | some (_, u) =>
    if o.hold = 0 ∧ !objectStaged s o then modObject s o.handle fun x => { x with evicting := true }
    else
      match refuge s slot o with
      | some h =>
        let s := takeUnits s h.1 h.2 o.units (.home o.handle)
        let s := devMove s o.fn (unitAddr1 slot u) (unitAddr1 h.1 h.2) (o.units * 2097152)
        modObject s o.handle fun x => { x with nextHome := some h }
      | none =>
        let s := modObject s o.handle fun x => { x with evicting := true }
        match o.windows with
        | (c, w) :: _ => ctxEvent s c 5 w
        | [] => s

/-- The run of a STAGE that a Winch has accepted changes. -/
def moveRun (s : State) (L tag : Nat) (h : Option (Nat × Nat)) : State :=
  modRegion s L fun R => { R with winch := R.winch.map fun e => if e.tag = tag then { e with newHome := h } else e }

/-- A STAGE of an evicted object that an accepted entry brings into a slot that is emptied: it goes on in a free run, or the
object keeps its backing. -/
def leaveRun (slot : Nat) (s : State) (x : Nat × WinchEntry) : State :=
  match x.2.newHome, objectOf s x.2.ctx x.2.rcd.window with
  | some (H, u), some o =>
    if H ≠ slot then s
    else
      let s0 := modRegion s slot fun R =>
        { R with units := R.units.filter fun e => !(e.2 == .home o.handle && decide (u ≤ e.1 ∧ e.1 < u + o.units)) }
      match refuge s slot { o with stagedBy := x.1 } with
      | some h =>
        let s1 := takeUnits s0 h.1 h.2 o.units (.home o.handle)
        if x.2.copied then
          modObject (moveRun (devMove s1 o.fn (unitAddr1 slot u) (unitAddr1 h.1 h.2) (o.units * 2097152)) x.1 x.2.tag (some h))
            o.handle fun y => { y with nextHome := some h }
        else moveRun s1 x.1 x.2.tag (some h)
      | none =>
        ctxEvent (modObject (moveRun s0 x.1 x.2.tag none) o.handle fun y => { y with nextHome := none }) x.2.ctx 5
          x.2.rcd.window
  | _, _ => s

/-- A ballast slot is emptied before its standby is rotated in: the changes of mapping wait for the boundary (R358,
BALLAST_EMPTY). -/
def emptySlot (s : State) (slot : Nat) : State :=
  let s := (s.objects.filter fun o => match o.home with
    | some h => h.1 == slot
    | none => false).foldl (leaveSlot slot) s
  (s.logs.flatMap fun e => e.2.winch.map fun x => (e.1, x)).foldl (leaveRun slot) s

end Sys2Proof.Machine
end

