-- ==== Sys2Proof/Machine/Winch.lean ====
section
/-! DEFINITION. The Winch (13 R366 to R374): ring entries, their checks, gates, acceptance, copies and completion. -/

namespace Sys2Proof.Machine

open Sys2Proof

/-! ### Records (Table 13.6) -/

def readWinchRec (r : List Byte) : WinchRec :=
  { op := fieldAt r 0 1, eflags := fieldAt r 1 1, window := fieldAt r 2 1, rate := fieldAt r 4 4, src := fieldAt r 8 8,
    dst := fieldAt r 0x10 8, bytes := fieldAt r 0x18 4, gateValue := BitVec.ofNat 32 (fieldAt r 0x1C 4),
    deadline := fieldAt r 0x20 8, gateAddr := fieldAt r 0x28 8, token := BitVec.ofNat 64 (fieldAt r 0x30 8),
    done := fieldAt r 0x38 8, clean := fieldAt r 3 1 == 0 }

def WinchRec.home (r : WinchRec) : Nat := r.eflags % 4
def WinchRec.packed (r : WinchRec) : Bool := bitOf r.eflags 2
def WinchRec.gate (r : WinchRec) : Bool := bitOf r.eflags 3

/-- The entry keeps the values of Table 13.6. -/
def winchFieldsOk (r : WinchRec) : Bool :=
  r.clean && decide (1 ≤ r.op ∧ r.op ≤ 3 ∧ r.eflags < 16 ∧ r.home ≠ 3 ∧ r.bytes ≤ 2 ^ 30) &&
    (if r.op = 3 then r.rate == 0 else decide (1 ≤ r.rate ∧ r.rate ≤ 256)) &&
    (if r.op = 2 then r.window == 0 else r.src == 0 && r.dst == 0) &&
    r.bytes % (if r.packed then 4096 else 256) == 0 && (r.gate || r.gateAddr == 0)

/-- Device address of the gate word, when it is a watch word in T0 or T1 of this device. -/
def gateWord (s : State) (c : Nat) (r : WinchRec) : Option Nat :=
  match translate s c none .read r.gateAddr 4 with
  | some a => if (spaceOf a = 1 ∨ spaceOf a = 2) ∧ r.gateAddr % 4 = 0 then some a else none
  | none => none

/-- A context address lies neither in the control space nor in an object window (R368). -/
def copyPlace (s : State) (c ca : Nat) : Bool :=
  winSpace (winEntry s c (bits ca 47 40)) != 3 && (objectOf s c (bits ca 47 40)).isNone

/-- The tiers of a packed COPY: whole pages of T2 on one side, T4 on the other (R366). -/
def packedPlaces (s : State) (c : Nat) (r : WinchRec) : Bool :=
  let sp := fun ca => winSpace (winEntry s c (bits ca 47 40))
  (sp r.src == 0 && sp r.dst == 5 && r.src % 4096 == 0) || (sp r.src == 5 && sp r.dst == 0 && r.dst % 4096 == 0)

/-- An entry breaks neither Table 13.6 nor the rules of R368. -/
def winchOk (s : State) (c : Nat) (r : WinchRec) : Bool :=
  winchFieldsOk r && (!r.gate || (gateWord s c r).isSome) &&
    (if r.op = 2 then
      copyPlace s c r.src && copyPlace s c r.dst && winWr (winEntry s c (bits r.dst 47 40)) && (!r.packed || packedPlaces s c r)
     else
      match objectOf s c r.window with
      | some o => r.op == 3 || decide (r.bytes ≤ o.units * 2097152)
      | none => false)

/-- The gate is met (R369). -/
def gateMet (s : State) (c : Nat) (r : WinchRec) : Bool :=
  !r.gate ||
    (match gateWord s c r with
     | some a => decide ((leNat (devRead s a 4) + 2 ^ 32 - r.gateValue.toNat) % 2 ^ 32 < 2 ^ 31)
     | none => false)

/-- The watch of a ring's gate, registered or asked for. -/
def gateWatch (s : State) (L c : Nat) : Option GateWatch := mget? (regionOf s L).gates c

/-- The Winch has asked for the registration of a ring's gate. -/
def gateAsked (s : State) (L c : Nat) : Bool :=
  (gateWatch s L c).isSome || s.requests.any fun r => r.origin == .winch L c && (match r.kind with
    | .watch _ => true
    | _ => false)

/-- The entry at the head of a ring may pass its gate: it is met, and a registration under way is acknowledged first, after
which the word is read again (R369). -/
def gateOpen (s : State) (L c : Nat) (r : WinchRec) : Bool :=
  !r.gate || (gateMet s c r && (match gateWatch s L c with
    | some g => g.acked
    | none => !gateAsked s L c))

/-- The Winch registers a watch on the word of a gate that is not met (R147, R369). -/
def watchGate (s : State) (L c : Nat) (r : WinchRec) : State :=
  match gateWord s c r with
  | some a => addRequest s (newRequest s c (.winch L c) (.watch 0) r.gateAddr a true [])
  | none => s

/-- The watch of a ring's gate ends, and the credits of its wake return. -/
def endGate (s : State) (L c : Nat) : State :=
  match gateWatch s L c with
  | some g => returnCredits (modRegion s L fun R => { R with gates := mdel R.gates c }) g.wake
  | none => s

/-! ### The head of a ring -/

def winchNextOf (s : State) (c L : Nat) : Nat := (ctxRegionOf (ctxOf s c) L).winchNext

def winchHead (s : State) (c L : Nat) : WinchRec :=
  readWinchRec (winRead s c none (ringRecordAddr s c L 2 (winchNextOf s c L) 64) 64)

/-- A ring of a running context has an entry, and the Winch accepts work (R373). -/
def winchHas (s : State) (c L : Nat) : Bool := ctxRuns s c && unitsAccept s L && ringHas s c L 2 (winchNextOf s c L)

def winchUse (L c ringIndex : Nat) : XferUse := .winch L (c * 2 ^ 32 + ringIndex)

/-- The bytes that an entry moves. -/
def winchBytes (s : State) (c : Nat) (r : WinchRec) : Nat :=
  if r.op = 1 ∧ r.bytes = 0 then ((objectOf s c r.window).getD default).units * 2097152 else r.bytes

/-- An entry that has asked for its rates and cannot have them yet is passed over. -/
def ratesStuck (s : State) (L c : Nat) : Bool :=
  match findTransfer s (winchUse L c (winchNextOf s c L)) with
  | some x => !x.accepted && !canReserve s x
  | none => false

/-- A STAGE waits for its object: it is selected for eviction, or another STAGE works on it. -/
def stageBlocked (s : State) (c : Nat) (r : WinchRec) : Bool :=
  r.op == 1 &&
    (match objectOf s c r.window with
     | some o => o.evicting || (o.home.isNone && objectBusy s o)
     | none => false)

/-- A STAGE of an evicted object finds no run yet, and none of its homes has an object left to select. -/
def homeStuck (s : State) (L c : Nat) (r : WinchRec) : Bool :=
  r.op == 1 &&
    (match objectOf s c r.window with
     | some o =>
       o.home.isNone && (freeRun (freedUnits s) o.units (homesOf L r.home)).isNone &&
         ((homesOf L r.home).any (fun H => (findRun s H o.units (unitComing s H)).isSome) ||
           (homesOf L r.home).all fun H => (evictable s H).isEmpty)
     | none => false)

/-- The Winch has something to do for a ring. -/
def winchReady (s : State) (L c : Nat) : Bool :=
  let r := winchHead s c L
  winchHas s c L &&
    (!winchOk s c r || (r.gate && !gateOpen s L c r && !gateAsked s L c) ||
      (gateOpen s L c r && decide ((regionOf s L).winch.length < 8) && !ratesStuck s L c && !stageBlocked s c r &&
        !homeStuck s L c r))

/-- Rings are served in turn: no ring before this one has something to do (R369). -/
def winchTurnOf (s : State) (L c : Nat) : Bool :=
  let d := fun x => (x + 64 - (regionOf s L).winchTurn) % 64
  (List.range 64).all fun x => decide (d c ≤ d x) || !winchReady s L x

/-- The head is consumed, and the next context's turn comes. -/
def consumeWinch (s : State) (L c : Nat) : State :=
  let next := winchNextOf s c L
  let s := unitReads (endGate s L c) c (.winch L (regionOf s L).nextWinch) [(ringRecordAddr s c L 2 next 64, 64)]
  let s := modCtxRegion s c L fun x => { x with winchNext := (next + 1) % 2 ^ 32 }
  let s := modRegion s L fun R => { R with winchTurn := (c + 1) % 64 }
  writeConsumed s c L 2 (next + 1)

/-- A refused entry is counted and reported, and delivers TOKEN and DONE (WINCH_ENTRY_REFUSED, R368). -/
def refuseWinch (s : State) (L c : Nat) (r : WinchRec) : State :=
  let idx := winchNextOf s c L
  let s := consumeWinch (endTransfer s (winchUse L c idx)) L c
  let s := modCtx s c fun x => { x with winchRefused := satAdd 0xFFFF x.winchRefused 1 }
  let s := ctxEvent s c 4 idx
  let tag := (regionOf s L).nextWinch
  let s := modRegion s L fun R => { R with nextWinch := tag + 1 }
  unitReport s c (.winch L tag) r.token r.done (if r.deadline = 0 then none else some r.deadline) none

/-! ### Acceptance (R369 to R371) -/

/-- Device address from which an entry reads. -/
def winchSource (s : State) (c : Nat) (r : WinchRec) : Option Nat :=
  if r.op = 1 then (objectOf s c r.window).map (·.backing) else translate s c none .read r.src 1

/-- Device address to which an entry writes; a re-homing STAGE writes to its run. -/
def winchDest (s : State) (c : Nat) (r : WinchRec) (run : Option (Nat × Nat)) : Option Nat :=
  if r.op = 1 then
    match run with
    | some (H, u) => some (unitAddr1 H u)
    | none => (objectOf s c r.window).map (·.place)
  else translate s c none .write r.dst 1

/-- The promised read time of the source tier in tenths of a ns, as the Winch of a region sees it (Table 13.1). -/
def sourceTime (s : State) (L c a : Nat) : Nat :=
  (readPromise s (newRequest s c (.winch L 0) (.load 4 false 0) 0 a true [])).1

/-- The parts of a ns in which T of R370 is a whole number: a tenth, over the entry's rate. -/
def winchUnit (r : WinchRec) : Nat := 10 * Nat.max 1 r.rate

/-- T of R370, in those parts; none when a side lies in T4. -/
def winchTime (s : State) (L c : Nat) (r : WinchRec) (run : Option (Nat × Nat)) : Option Nat :=
  let a := winchSource s c r
  let b := winchDest s c r run
  if (a.map spaceOf) = some 5 ∨ (b.map spaceOf) = some 5 then none
  else
    let d := match a with
      | some a => sourceTime s L c a
      | none => 0
    some (r.rate * d + 10 * winchBytes s c r + if run.isSome then winchUnit r * 1048576 else 0)

/-- The hops of an entry at its rate (R58). -/
def winchHops (s : State) (L c : Nat) (r : WinchRec) (run : Option (Nat × Nat)) : List (Hop × Nat) :=
  let own := (physOfLogical s L).getD 0xFF
  let places := fun x : Option Nat => match x with
    | some a => pathPlaces a (winchBytes s c r)
    | none => []
  mergeHops ((places (winchSource s c r)).flatMap fun a => readHops s own a r.rate) ++
    mergeHops ((places (winchDest s c r run)).flatMap fun b => writeHops s own b r.rate)

/-- Accepted later than DEADLINE − T (R371); T in parts of a ns. -/
def atRisk (t : Nat) (r : WinchRec) (T : Option Nat) : Bool :=
  r.deadline != 0 && (match T with
    | some d => decide (winchUnit r * r.deadline < winchUnit r * t + d)
    | none => false)

/-- The entry is accepted: counted at risk, and held by the Winch. -/
def acceptWinch (s : State) (L c : Nat) (r : WinchRec) (run : Option (Nat × Nat)) (T : Option Nat) : State :=
  let idx := winchNextOf s c L
  let s := consumeWinch s L c
  let s := if atRisk (now s) r T then
      modCtxRegion s c L fun x => { x with atRisk := satAdd 0xFFFF x.atRisk 1 }
    else s
  modRegion s L fun R =>
    { R with
      nextWinch := R.nextWinch + 1
      winch := R.winch ++
        [{ tag := R.nextWinch, ctx := c, ringIndex := idx, rcd := r, tAccept := now s, promise := T.map (now s + · / winchUnit r),
           newHome := run, copied := false, reported := false, wins := windowsAt s c [r.src, r.dst] }] }

/-- The turn passes to the next context (R369). -/
def passTurn (s : State) (L c : Nat) : State := modRegion s L fun R => { R with winchTurn := (c + 1) % 64 }

/-- A STAGE or COPY reserves its rates and is accepted when it has them. -/
def reserveWinch (s : State) (L c : Nat) (r : WinchRec) (run : Option (Nat × Nat)) : State :=
  let u := winchUse L c (winchNextOf s c L)
  let T := winchTime s L c r run
  let s' := reserveRates s u (some c) ((winchDest s c r run).bind stackAt) (winchHops s L c r run)
  match ratesSince s' u with
  | none => passTurn s' L c
  | some _ =>
    let s' := match run, objectOf s' c r.window with
      | some h, some o => takeUnits s' h.1 h.2 o.units (.home o.handle)
      | _, _ => s'
    acceptWinch s' L c r run T

/-- STAGE (R354, R355, R368 to R371): the entry at the head of a ring is refused, waits, or is accepted. -/
def execStage (ctx region : Nat) (s : State) : Host.Outcome State Fault Refusal :=
  let r := winchHead s ctx region
  if r.op = 2 ∨ r.op = 3 ∨ !winchReady s region ctx ∨ !winchTurnOf s region ctx then notNow s
  else if !winchOk s ctx r then .next (refuseWinch s region ctx r)
  else if !gateOpen s region ctx r then .next (passTurn (watchGate s region ctx r) region ctx)
  else
    match objectOf s ctx r.window with
    | none => notNow s
    | some o =>
      if o.home.isSome then .next (reserveWinch s region ctx r none)
      else
        match seekRun s o.units (homesOf region r.home) with
        | (some h, s) => .next (reserveWinch s region ctx r (some h))
        | (none, s) => .next (passTurn s region ctx)

/-- WINCH_COPY (R366, R368 to R371). -/
def execWinchCopy (ctx region : Nat) (s : State) : Host.Outcome State Fault Refusal :=
  let r := winchHead s ctx region
  if r.op ≠ 2 ∨ !winchReady s region ctx ∨ !winchTurnOf s region ctx then notNow s
  else if !winchOk s ctx r then .next (refuseWinch s region ctx r)
  else if !gateOpen s region ctx r then .next (passTurn (watchGate s region ctx r) region ctx)
  else .next (reserveWinch s region ctx r none)

/-- The deadline of an entry, if it has one. -/
def WinchRec.due (r : WinchRec) : Option Nat := if r.deadline = 0 then none else some r.deadline

/-- An entry whose work is done delivers TOKEN and DONE; it is complete, and leaves the Winch, when the last of them is performed, and
its promise is judged there (R370). -/
def reportWinch (s : State) (L tag : Nat) : State :=
  match (regionOf s L).winch.find? fun e => e.tag == tag with
  | none => s
  | some e =>
    let o : Origin := .winch L tag
    let s := modRegion s L fun R => { R with winch := R.winch.map fun x => if x.tag = tag then { x with reported := true } else x }
    unitReport s e.ctx o e.rcd.token e.rcd.done e.rcd.due
      (some { due := e.promise.getD 0, phys := originPhys s o, row := 16, job := some o })

/-- WINCH_RELEASE (R353, R368): accepted and completed at once; the hold count falls by one, to no lower than zero. -/
def execWinchRelease (ctx region : Nat) (s : State) : Host.Outcome State Fault Refusal :=
  let r := winchHead s ctx region
  if r.op ≠ 3 ∨ !winchReady s region ctx ∨ !winchTurnOf s region ctx then notNow s
  else if !winchOk s ctx r then .next (refuseWinch s region ctx r)
  else if !gateOpen s region ctx r then .next (passTurn (watchGate s region ctx r) region ctx)
  else
    match objectOf s ctx r.window with
    | none => notNow s
    | some o =>
      let tag := (regionOf s region).nextWinch
      let s := acceptWinch s region ctx r none (some (winchUnit r * 1000))
      let s := modObject s o.handle fun x => { x with hold := x.hold - 1 }
      .next (reportWinch s region tag)

/-! ### Moving bytes -/

/-- Bytes that the Winch moves between two device addresses: within the device as a move that carries poison onward, to a peer
as acknowledged writes (R167, R501), between T2 and T3 in stored form (R366). Its context receives the poison event, and the
peer-loss event for a peer that cannot answer (R359). -/
def winchBytesMove (s : State) (o : Origin) (c a b n : Nat) : State :=
  let own := originPhys s o
  let fn := (ctxOf s c).fn
  let s := countAccess s own (some c) a n
  let s := match devPoison s a n with
    | some p => poisonedRead s c a p
    | none => s
  if spaceOf b = 4 then
    if peerGone s b then peerLossEvent s c (bits b 50 48)
    else
      (movePieces s a b n).foldl (fun t x =>
          remotePiece t c o (b + x.1) (devRead s (a + x.1) x.2.1) (piecePayload s a b x) (if x.2.2.2 then some (a + x.1) else none) [])
        (askPeer { s with freeCounter := s.freeCounter + 1 } fn a n)
  else if oldShard s b n then undefinedEffect s c
  else crossMove (countAccess s own (some c) b n) fn a b n

/-- One chunk of a COPY through windows (R95, R501). -/
def copyChunk (s : State) (o : Origin) (c src dst n : Nat) : State :=
  match translate s c none .read src n, translate s c none .write dst n with
  | some a, some b => winchBytesMove s o c a b n
  | some _, none => windowFault s c dst
  | none, some b => unitStore (windowFault s c src) c o b (List.replicate n 0)
  | none, none => windowFault (windowFault s c src) c dst

/-- Chunks that a COPY moves at once: what one page record may cover between T2 and T3 (R366), else one. -/
def chunksAtOnce (s : State) (c src dst n : Nat) : Nat :=
  match translate s c none .read src 256, translate s c none .write dst 256 with
  | some a, some b =>
    let m := lineRun a b (256 * n)
    if crossesStored a b ∧ m ≠ 0 ∧ (translate s c none .read src (256 * m)).isSome ∧
        (translate s c none .write dst (256 * m)).isSome then m
    else 1
  | _, _ => 1

/-- A COPY in chunks of 256 bytes; `n` chunks are left, and `k` bounds the turns. -/
def copyChunks (o : Origin) (c : Nat) : Nat → Nat → Nat → Nat → State → State
  | 0, _, _, _, s => s
  | k + 1, n, src, dst, s =>
    if n = 0 then s
    else
      let m := chunksAtOnce s c src dst n
      copyChunks o c k (n - m) (ctxPlus src (256 * m)) (ctxPlus dst (256 * m)) (copyChunk s o c src dst (256 * m))

/-- The image of a page goes to T4. The record and the granules of a page that holds a poisoned line are written from poisoned words:
they go as poisoned TLPs (R501; log entry 132). -/
def packWrite (s : State) (c : Nat) (o : Origin) (dst : Nat) (img : List Byte) (poison : Bool) : State :=
  match translate s c none .write dst img.length with
  | some b =>
    if poison then
      let s := countAccess s (originPhys s o) (some c) b img.length
      { s with
        mem := s.mem.store (memKey s b) img
        out := s.out ++ [.poisonedTlp (hostPort s b) (ctxOf s c).fn (b % 2 ^ 48) img.length] }
    else writeOut s c o dst img
  | none => writeOut s c o dst img

/-- Pages of T2 to their image in T4; `n` pages are left. -/
def packPages (o : Origin) (c : Nat) : Nat → Nat → Nat → State → State
  | 0, _, _, s => s
  | n + 1, src, dst, s =>
    let page := match translate s c none .read src 4096 with
      | some a => a / 4096
      | none => 0
    let img := pageImage (pageWidth s page) (pageRun s page).base (winRead s c none src 4096)
    let s := packWrite (unitReads s c o [(src, 4096)]) c o dst img (devPoison s (page * 4096) 4096).isSome
    packPages o c n (ctxPlus src 4096) (ctxPlus dst img.length) s

/-- The image of pages in T4 back to T2: a record that Table 13.4 does not allow gives free bytes; `n` pages are left. -/
def unpackPages (o : Origin) (c : Nat) : Nat → Nat → Nat → State → State
  | 0, _, _, s => s
  | n + 1, src, dst, s =>
    let rec_ := leNat (winRead s c none src 16)
    let len := 256 * Nat.min 16 (recGranules rec_)
    let body := winRead s c none (ctxPlus src 16) len
    let s := unitReads s c o [(src, 16), (ctxPlus src 16, len)]
    let f := freshBytes s 4096
    let s := if pageRecordOk rec_ then writeOut s c o dst (readPage rec_ body) else writeOut f.2 c o dst f.1
    unpackPages o c n (ctxPlus src (16 + len)) (ctxPlus dst 4096) s

/-- The backing of an object comes into a run. A backing in host memory that no host serves for the function is a window
fault, and reads as zeros (R95, R347). -/
def stageBytes (s : State) (o : Origin) (c w a b n : Nat) : State :=
  if spaceOf a = 5 ∧ !hostServes s (ctxOf s c).fn a then unitStore (windowFault s c (w * 2 ^ 40)) c o b (List.replicate n 0)
  else winchBytesMove s o c a b n

/-- The bytes of an accepted entry move, through the windows of its acceptance (R94). -/
def winchMove (s : State) (L : Nat) (e : WinchEntry) : State :=
  let c := e.ctx
  let r := e.rcd
  let o : Origin := .winch L e.tag
  underWindows s c e.wins fun s =>
    if r.op = 1 then
      match objectOf s c r.window, winchDest s c r e.newHome with
      | some x, some b => stageBytes s o c r.window x.backing b (winchBytes s c r)
      | _, _ => s
    else if r.packed then
      if winSpace (winEntry s c (bits r.src 47 40)) = 0 then packPages o c (r.bytes / 4096) r.src r.dst s
      else unpackPages o c (r.bytes / 4096) r.src r.dst s
    else copyChunks o c (r.bytes / 256) (r.bytes / 256) r.src r.dst s

/-! ### Completion (R353, R355, R370) -/

/-- The entry leaves the Winch. -/
def dropWinch (s : State) (L : Nat) (e : WinchEntry) : State :=
  endTransfer (modRegion s L fun R => { R with winch := R.winch.filter fun x => x.tag != e.tag }) (winchUse L e.ctx e.ringIndex)

/-- A finished entry: the hold count rises for STAGE; TOKEN and DONE follow, and the promise is judged when the last of them
is performed (R370). -/
def finishWinch (s : State) (L : Nat) (e : WinchEntry) : State :=
  let s := match objectOf s e.ctx e.rcd.window with
    | some o =>
      if e.rcd.op = 1 then
        modObject s o.handle fun x => { x with hold := x.hold + 1, lastStage := now s, stagedBy := L }
      else s
    | none => s
  reportWinch (endTransfer s (winchUse L e.ctx e.ringIndex)) L e.tag

/-- The bytes have moved; a re-homed object's run waits for its boundary. -/
def movedWinch (s : State) (L : Nat) (e : WinchEntry) : State :=
  let s := winchMove s L e
  match e.newHome with
  | none => finishWinch s L e
  | some h =>
    let s := match objectOf s e.ctx e.rcd.window with
      | some o => modObject s o.handle fun x => { x with nextHome := some h }
      | none => s
    modRegion s L fun R => { R with winch := R.winch.map fun x => if x.tag = e.tag then { x with copied := true } else x }

/-- WINCH_ENTRY_COMPLETE (R355, R368, R370): the writes of a STAGE or COPY are done; the token of a STAGE that re-homes its
object follows the boundary that maps the run. -/
def execWinchEntryComplete (region entry : Nat) (s : State) : Host.Outcome State Fault Refusal :=
  match (regionOf s region).winch.find? fun e => e.tag == entry with
  | none => notNow s
  | some e =>
    if (regionOf s region).vacant ∨ e.reported then notNow s
    else if !e.copied then .next (movedWinch s region e)
    else
      match objectOf s e.ctx e.rcd.window with
      | some o => if o.nextHome.isSome then notNow s else .next (finishWinch s region e)
      | none => .next (finishWinch s region e)

end Sys2Proof.Machine
end

