-- ==== Sys2Proof/Machine/Acceptance.lean ====
section
/-! DEFINITION. The completion event of a request (02 R51), with which units go on that wait for credits; the acceptance of a transfer
that waits for its rates (02 R58), and with it of the job that it belongs to (06 R173, 07 R205, 11 R310, 13 R369). -/

namespace Sys2Proof.Machine

open Sys2Proof

/-- What waits for credits goes on: owner batches and the packets of reductions (R215, R318). -/
def resumeUnits (s : State) : State := (s.logs.map (·.1)).foldl runSequencers (sendWaiting s)

/-- A request of a unit, whose credits others of its kind may wait for. -/
def ofUnit (o : Origin) : Bool :=
  match o with
  | .thread _ => false
  | .feeder _ _ _ _ _ _ => false
  | _ => true

/-- REQUEST_COMPLETION (R51, R59, R63, R64): the completion event; units that wait for the credits of a unit's request go on. -/
def execRequestCompletion (req : Nat) (resp : List Byte) (poison : Bool) (s : State) :
    Host.Outcome State Fault Refusal :=
  match findRequest s req with
  | none => notNow s
  | some r =>
    if r.stage ≠ .performed ∨ heldForCell s r then notNow s
    else if ofUnit r.origin then .next (resumeUnits (completed s r resp poison))
    else .next (completed s r resp poison)

/-- The entry of a ring whose acceptance a transfer is part of: its context and its place. -/
def ringEntry (e : Nat) : Nat × Nat := (e / 2 ^ 32, e % 2 ^ 32)

/-- The Winch entry at the head of a ring is looked at again. -/
def acceptHead (L e : Nat) (s : State) : Host.Outcome State Fault Refusal :=
  let c := (ringEntry e).1
  if winchNextOf s c L ≠ (ringEntry e).2 then notNow s
  else if (winchHead s c L).op = 2 then execWinchCopy c L s
  else execStage c L s

/-- TRANSFER_ACCEPTANCE (R58, R388): a waiting transfer reserves its rate at every hop of its path and is accepted. A job is accepted
at the instant its last rate is reserved (R173, R205, R310, R369): a Reel then reads its descriptor, a gather engine routes its rows,
a sequencer starts its passes, a Winch consumes its entry. -/
def execTransferAcceptance (xfer : Nat) (s : State) : Host.Outcome State Fault Refusal :=
  match s.transfers.find? fun x => x.id == xfer with
  | none => notNow s
  | some x =>
    if x.accepted then notNow s
    else
      match x.purpose with
      | .reel L r => execReelJobAccept L r s
      | .gather L job =>
        match findGather s L job with
        | some j => .next (acceptGather j.rcd.op L job s)
        | none => notNow s
      | .winch L e => acceptHead L e s
      | .reduce L e =>
        if (ctxRegionOf (ctxOf s (ringEntry e).1) L).reduceNext ≠ (ringEntry e).2 then notNow s
        else execReduce (ringEntry e).1 L s
      | _ => .next (tryTransfer s x)

end Sys2Proof.Machine
end

