-- ==== Sys2Proof/Machine/Energy.lean ====
section
/-! DEFINITION. Energy (17 R478 to R480): what the counts of Table 17.7 and the leakage come to, in pJ, and the context that
each is charged to. -/

namespace Sys2Proof.Machine

open Sys2Proof

/-- The number by which a part's coefficients name a unit: physical regions 0 to 17, then the link dies. -/
def ActUnit.index : ActUnit → Nat
  | .region p => p
  | .linkDie d => 18 + d

/-- The number of a class within its unit. -/
def ActClass.index : ActClass → Nat
  | .vector => 0
  | .t0 => 1
  | .t1 => 2
  | .reel => 3
  | .bridle p => 8 + p
  | .link p => 16 + p
  | .pcie p => 24 + p
  | .remote => 4
  | .spar f => 32 + f
  | .t2 k c => 1024 + 32 * k + c

/-- The energy of an activity count in pJ: its coefficient at 0.75 V, and for the classes of a region, which are on its core
rail, the square of the rail's voltage over 0.75 V (R478). -/
def keyPj (s : State) (k : ActKey) (n : Nat) : Nat :=
  let e := n * Config.energyCoefficient k.unit.index k.cls.index
  match k.unit with
  | .region p => e * (physOf s p).vcore ^ 2 / 562500
  | .linkDie _ => e

/-- Leakage of a physical region since energy was last charged: L(V, T) per ns (R478). -/
def leakPj (s : State) (p : Nat) : Nat :=
  if (physOf s p).coreEn then Config.leakage p (physOf s p).vcore (physOf s p).tj * (s.clock.bootCount - s.power.energyAt) else 0

/-- Energy of the counts that a filter keeps. -/
def countedPj (s : State) (f : ActKey → Bool) : Nat :=
  ((s.activity.filter fun e => f e.1).map fun e => keyPj s e.1 e.2).sum

/-- Leakage that is charged to a context: one twentieth of its region's for each block that it owns (R479). -/
def ctxLeakPj (s : State) (c : Nat) : Nat :=
  (((ctxOf s c).blocks.map fun b => match physOfLogical s b.1 with
    | some p => leakPj s p
    | none => 0).sum) / 20

/-- Energy of a context that has not been charged yet. -/
def dueToCtx (s : State) (c : Nat) : Nat := countedPj s (fun k => k.ctx == some c) + ctxLeakPj s c

/-- The energy of a context since its create, in pJ (R480). -/
def ctxPj (s : State) (c : Nat) : Nat := (ctxOf s c).energyPj + dueToCtx s c

/-- Energy of a region, and of the counts of a link die, since energy was last charged. -/
def regionPj (s : State) (p : Nat) : Nat := countedPj s (fun k => k.unit == .region p) + leakPj s p

def linkDiePj (s : State) (d : Nat) : Nat := countedPj s fun k => k.unit == .linkDie d

/-- The counts of a region times their coefficients, at 0.75 V. -/
def regionRawPj (s : State) (p : Nat) : Nat :=
  ((s.activity.filter fun e => e.1.unit == .region p).map fun e =>
    e.2 * Config.energyCoefficient e.1.unit.index e.1.cls.index).sum

/-- Energy of the device that has not been charged yet. -/
def dueToDevice (s : State) : Nat := ((List.range 18).map (regionPj s)).sum + ((List.range 4).map (linkDiePj s)).sum

/-- The energy of the device since power-on, in pJ (R480). -/
def devicePj (s : State) : Nat := s.power.energyPj + dueToDevice s

/-- Energy of the activity alone, in pJ. -/
def activityPj (s : State) : Nat := countedPj s fun _ => true

/-- The time since energy was last charged: the control interval that ends now. -/
def chargedNs (s : State) : Nat := s.clock.bootCount - s.power.energyAt

/-- Energy is charged: to the contexts and to the device, with what the link dies drew beyond their counts, which is no context's;
the counts of the next interval begin (R470, R478 to R480). -/
def chargeEnergy (s : State) (linkW : Nat) : State :=
  { s with
    contexts := s.contexts.map fun e => if e.2.state = .empty then e else (e.1, { e.2 with energyPj := ctxPj s e.1 })
    power := { s.power with energyPj := devicePj s + 1000 * linkW * chargedNs s, energyAt := s.clock.bootCount }
    activity := [] }

/-- What a context has caused is no context's once the context is gone. -/
def disownActivity (s : State) (c : Nat) : State :=
  { s with activity := s.activity.foldl (fun m e =>
      mmod 0 m (if e.1.ctx = some c then { e.1 with ctx := none } else e.1) (· + e.2)) [] }

/-- Watts of an energy in pJ over a number of ns. -/
def wattsOf (pj ns : Nat) : Nat := pj / (1000 * Nat.max 1 ns)

/-- The estimate of a region for the interval that ends now, and that of the counts of the link dies (R470, R478), in W. -/
def regionWatts (s : State) (p : Nat) : Nat := wattsOf (regionPj s p) (chargedNs s)

def linkWatts (s : State) : Nat := wattsOf ((List.range 4).map (linkDiePj s)).sum (chargedNs s)

/-- What the region would draw at a rail and a junction with the activity of the interval that ends now (R468, R478), in W. -/
def wattsAt (s : State) (p mv : Nat) (tj : Int) : Nat :=
  wattsOf (regionRawPj s p * mv ^ 2 / 562500 + Config.leakage p mv tj * chargedNs s) (chargedNs s)

end Sys2Proof.Machine
end

