-- ==== Sys2Proof/Machine/Holdings.lean ====
section
/-! DEFINITION. What a checkpoint of a context holds, and its size (16 R455, R456, Table 16.6). -/

namespace Sys2Proof.Machine

open Sys2Proof

/-- The logical regions in which a context owns blocks. -/
def ctxRegions (s : State) (ctx : Nat) : List Nat := ((ctxOf s ctx).blocks.map (·.1)).eraseDups

/-! ### What a checkpoint holds (Table 16.6) -/

/-- The windows held: KIND 3, 5 or 6, with write or atomic access. -/
def heldWindows (x : Context) : List Nat :=
  match x.image with
  | some im =>
    (im.bindings.filter fun b => (b.kind == 3 || b.kind == 5 || b.kind == 6) && (b.access.getLsbD 1 || b.access.getLsbD 2)).map
      (·.window)
  | none => []

/-- The bytes of a window that are not zero, and its poisoned bytes. -/
def windowPart (s : State) (ctx w : Nat) : WindowPart :=
  let e := winEntry s ctx w
  let a := memKey s (winBase e)
  let n := winSize e
  let inside := fun x => decide (a ≤ x ∧ x < a + n)
  { window := w, size := n, cells := (s.mem.cells.filter fun c => inside c.1).map fun c => (c.1 - a, c.2),
    poison := (s.mem.poison.filter inside).map (· - a) }

/-- The accumulator of a row at a place of this device. -/
def readAcc (s : State) (v : TableVersion) (r : Nat) (p : RowPlace) : List Byte :=
  if v.desc.grad then devRead s (rowAcc v r p) (4 * v.desc.rowElems) else []

/-- Rows of a version that this device owns now, with their accumulators. -/
def tablePart (s : State) (t : Nat) (v : TableVersion) : TablePart :=
  let T := tableOf s t
  { table := t, version := v.desc.version,
    rows := ((List.range v.desc.rows).filter fun r => (placeNow T v r).1 / 16 == s.part.device).map fun r =>
      (r, readRow s v r (placeNow T v r), readAcc s v r (placeNow T v r)) }

/-- The kept pins of a context. -/
def ctxPins (s : State) (ctx : Nat) : List KeptPin := s.keptPins.filter fun k => k.ctx == ctx && k.area.isNone

/-- The tables held: the pinned versions without FROZEN. -/
def heldTables (s : State) (ctx : Nat) : List TablePart :=
  (((ctxPins s ctx).map fun k => (k.table, k.version)).eraseDups).filterMap fun (t, v) =>
    (findVersion s t v).bind fun x => if x.desc.frozen then none else some (tablePart s t x)

/-- The matching entries of a context in a region. -/
def heldEntries (s : State) (ctx L : Nat) : List (Nat × Nat × MatchEntry) :=
  (regionOf s L).entries.filterMap fun e => (cellNumber (ctxOf s ctx) L e.1.1).map fun n => (n, e.1.2, e.2)

/-- Everything that a checkpoint of a context holds. -/
def heldParts (s : State) (ctx : Nat) : CheckpointParts :=
  { windows := (heldWindows (ctxOf s ctx)).map (windowPart s ctx), tables := heldTables s ctx,
    pins := (ctxPins s ctx).map fun k => (k.table, k.version),
    lofts := (ctxRegions s ctx).map fun L => (L, loftOf s L ctx),
    entries := (ctxRegions s ctx).flatMap (heldEntries s ctx), recipe := rawReg s (offRecipe ctx),
    scaleMode := rawReg s (offScaleMode ctx), roundSeed := rawReg s (offRoundSeed ctx), recipeLeft := (ctxOf s ctx).recipeLeft }

/-- Bytes of what is held: whole windows, rows with accumulators, whole lofts, and 16 KiB of matching entries a cell, as the
example of Table 16.12 counts them. -/
def partBytes (s : State) (ctx : Nat) (p : CheckpointParts) : Nat :=
  (p.windows.map (·.size)).sum + (p.tables.map fun t => (t.rows.map fun r => r.2.1.length + r.2.2.length).sum).sum +
    ((ctxRegions s ctx).map fun L => if loftEn s L ctx then 2097152 * loftSize s L ctx else 0).sum +
    16384 * (8 * (ctxOf s ctx).blocks.length)

/-- B of a checkpoint: its header, what it holds, and what its private layout adds, which is free (R420, R456, log entry 71). -/
def checkpointSize (s : State) (ctx : Nat) : Nat :=
  256 + partBytes s ctx (heldParts s ctx) + Config.freeNat s.freeCounter % 65536

end Sys2Proof.Machine
end

