-- ==== Sys2Proof/Machine/Image.lean ====
section
/-! DEFINITION. The Xantis image (03 R71 to R85): container, sections, the order of validation, features and reachability,
and what a loaded image leaves in a context. -/

namespace Sys2Proof.Machine

open Sys2Proof

/-! ### Header and sections (Tables 3.1 to 3.3) -/

/-- A section-table entry. -/
structure Section where
  type : Nat
  clean : Bool
  off : Nat
  size : Nat
  count : Nat
  deriving DecidableEq, Repr, Inhabited

def readSection (r : List Byte) : Section :=
  { type := fieldAt r 0 1, clean := fieldAt r 1 3 == 0, off := fieldAt r 4 4, size := fieldAt r 8 4, count := fieldAt r 12 4 }

def imgSections (b : List Byte) : List Section :=
  (List.range (Nat.min 6 (fieldAt b 0x0C 2))).map fun i => readSection ((b.drop (64 + 16 * i)).take 16)

def imgSection (b : List Byte) (t : Nat) : Option Section := (imgSections b).find? fun x => x.type == t

def sectionBytes (b : List Byte) (t : Nat) : List Byte :=
  match imgSection b t with
  | some x => (b.drop x.off).take x.size
  | none => []

def sectionCount (b : List Byte) (t : Nat) : Nat := ((imgSection b t).map (·.count)).getD 0

def imgWords (b : List Byte) : Nat := fieldAt b 0x20 4
def imgFeatures (b : List Byte) : Nat := fieldAt b 0x10 8
def imgConstants (b : List Byte) : List Byte := sectionBytes b 3

/-- The words of the code section. -/
def imgCode (b : List Byte) : List DWord :=
  let c := sectionBytes b 1
  (List.range (sectionCount b 1)).map fun i => BitVec.ofNat 64 (fieldAt c (8 * i) 8)

/-- The descriptor records. -/
def imgDescriptors (b : List Byte) : List (List Byte) :=
  let c := sectionBytes b 2
  (List.range (sectionCount b 2)).map fun i => (c.drop (64 * i)).take 64

def readBinding (r : List Byte) : Binding :=
  { window := fieldAt r 0 1, kind := fieldAt r 1 1, access := BitVec.ofNat 8 (fieldAt r 2 1),
    spaces := BitVec.ofNat 8 (fieldAt r 3 1), minSize := fieldAt r 4 4, name := (r.drop 8).take 16 }

def bindingRecords (b : List Byte) : List (List Byte) :=
  let c := sectionBytes b 4
  (List.range (sectionCount b 4)).map fun i => (c.drop (32 * i)).take 32

def imgBindings (b : List Byte) : List Binding := (bindingRecords b).map readBinding

def readLaunch (r : List Byte) : Launch :=
  { entry := fieldAt r 0 4, threads := fieldAt r 4 2, group := fieldAt r 6 1, vec := bitOf (fieldAt r 7 1) 0,
    quotaKib := fieldAt r 8 2, desc := fieldAt r 12 2 }

def launchRecords (b : List Byte) : List (List Byte) :=
  let c := sectionBytes b 6
  (List.range (sectionCount b 6)).map fun i => (c.drop (16 * i)).take 16

def imgLaunches (b : List Byte) : List Launch := (launchRecords b).map readLaunch

/-! ### Steps 1 to 5 of Table 3.7 -/

/-- The CRC of an image, its field taken as zero. -/
def imgCrc (b : List Byte) : Nat := (crc32 (patch b 0x2C [0, 0, 0, 0])).toNat

/-- Step 1: magic, table offset, length and CRC. -/
def step1 (b : List Byte) : Bool :=
  fieldAt b 0 4 == 0x53544E58 && fieldAt b 0x1C 4 == 64 && decide (64 ≤ fieldAt b 0x18 4 ∧ fieldAt b 0x18 4 ≤ 16777216) &&
    fieldAt b 0x18 4 == b.length && fieldAt b 0x2C 4 == imgCrc b

/-- Step 2: version, family and generation. -/
def step2 (b : List Byte) : Bool :=
  fieldAt b 4 2 == 1 && fieldAt b 6 2 == 0 && fieldAt b 8 2 == 1 && decide (fieldAt b 0x0A 1 ≤ 1)

/-- Step 3: the reserved feature bits. -/
def step3 (b : List Byte) : Bool := imgFeatures b / 4096 == 0

/-- FEATURES of a grade (Tables 3.4, 15.16). -/
def gradeFeatures (g : Grade) : Nat := match g with | .T => 0xFFF | .S => 0xFD7

/-- Every bit of one bitmap is set in another. -/
def within (a b : Nat) : Bool := (List.range 64).all fun i => !bitOf a i || bitOf b i

/-- Step 4: no declared feature is absent. -/
def step4 (g : Grade) (b : List Byte) : Bool := within (imgFeatures b) (gradeFeatures g)

/-- Bytes of a record of a section; none for the sections whose sizes differ. -/
def sectionSizeOk (x : Section) : Bool :=
  match x.type with
  | 1 => x.size == 8 * x.count
  | 2 => x.size == 64 * x.count && decide (x.count ≤ 4096)
  | 3 => x.size == x.count && decide (x.size ≤ 8388608)
  | 4 => x.size == 32 * x.count
  | 5 => decide (8 * x.count ≤ x.size)
  | 6 => x.size == 16 * x.count
  | _ => false

/-- Two byte ranges share none. -/
def apart (a n b m : Nat) : Bool := n == 0 || m == 0 || decide (a + n ≤ b ∨ b + m ≤ a)

/-- R72: the section table. -/
def sectionTableOk (b : List Byte) : Bool :=
  let l := imgSections b
  let head := 64 + 16 * l.length
  l.all (fun x => x.clean && x.off % 64 == 0 && decide (head ≤ x.off ∧ x.off + x.size ≤ b.length) && sectionSizeOk x) &&
    (l.map (·.type)).dedup.length == l.length &&
    [1, 2, 4, 6].all (fun t => l.any fun x => x.type == t) &&
    l.all fun x => l.all fun y => x.type == y.type || apart x.off x.size y.off y.size

/-- Step 5: reserved fields, ranges, sections and counts. -/
def step5 (b : List Byte) : Bool :=
  fieldAt b 0x0B 1 == 0 && fieldAt b 0x0E 2 == 0 && fieldAt b 0x2A 2 == 0 && fieldAt b 0x38 8 == 0 &&
    decide (4 ≤ fieldAt b 0x0C 2 ∧ fieldAt b 0x0C 2 ≤ 6 ∧ 1 ≤ imgWords b ∧ imgWords b ≤ 16384 ∧
      1 ≤ fieldAt b 0x24 2 ∧ fieldAt b 0x24 2 ≤ 320 ∧ 1 ≤ fieldAt b 0x26 2 ∧ fieldAt b 0x26 2 ≤ 16 ∧ fieldAt b 0x28 2 ≤ 256) &&
    sectionTableOk b && sectionCount b 1 == imgWords b && sectionCount b 6 == fieldAt b 0x26 2 &&
    sectionCount b 4 == fieldAt b 0x28 2

/-! ### Step 6: static legality (R111, R141) -/

/-- A thread that stands for any, where only the word counts. -/
def anyThread : ThreadId := { ctx := 0, cell := 0, group := 0, thread := 0 }

/-- The instructions of a code section; none where a word alone is illegal. -/
def imgInstrs (b : List Byte) : Option (List Instr) := (imgCode b).mapM fun w => decodeWord anyThread w.toNat

/-- The loop bodies: LOOP word, first word, last word. -/
def loopBodies (l : List Instr) : List (Nat × Nat) :=
  l.zipIdx.filterMap fun (i, w) => match i with
    | .loop _ _ o => some (w + 1, o.target.toNat)
    | _ => none

/-- The branches: word and target. -/
def branches (l : List Instr) : List (Nat × Nat) :=
  l.zipIdx.filterMap fun (i, w) => match i with
    | .br _ _ o => some (w, o.target.toNat)
    | _ => none

def inBody (x : Nat × Nat) (w : Nat) : Bool := decide (x.1 ≤ w ∧ w ≤ x.2)

/-- Two bodies are disjoint or one lies within the other. -/
def nested (x y : Nat × Nat) : Bool :=
  decide (x.2 < y.1 ∨ y.2 < x.1 ∨ (y.1 ≤ x.1 ∧ x.2 ≤ y.2) ∨ (x.1 ≤ y.1 ∧ y.2 ≤ x.2))

/-- A word that may not end a body. -/
def isJump : Instr → Bool
  | .br _ _ _ => true
  | .loop _ _ _ => true
  | .halt _ _ _ => true
  | _ => false

/-- The rules of R111 and R141 that need the whole code section. -/
def loopsOk (l : List Instr) : Bool :=
  let n := l.length
  let bs := loopBodies l
  bs.all (fun x => decide (x.1 ≤ x.2 ∧ x.2 < n)) && (branches l).all (fun x => decide (x.2 < n)) &&
    bs.all (fun x => bs.all fun y => nested x y) &&
    (List.range n).all (fun w => decide ((bs.filter fun x => inBody x w).length ≤ 4)) &&
    bs.all (fun x => match l[x.2]? with
      | some i => !isJump i
      | none => false) &&
    (branches l).all fun br => bs.all fun x => !inBody x br.2 || inBody x br.1

/-- Step 6: every word is statically legal. -/
def step6 (b : List Byte) : Bool :=
  match imgInstrs b with
  | some l => loopsOk l
  | none => false

/-! ### Steps 7 and 8: features (Table 4.5) -/

/-- The feature bits that an instruction uses. -/
def usesOf : Instr → List Nat
  | .mma _ _ o =>
    let f := fun (c : Nat) => if c ≤ 1 then 0 else if c ≤ 3 then 1 else if c ≤ 5 then 2 else 3
    [f o.fmta.val, f o.fmtb.val] ++ (if o.rig.val = 3 then [4] else []) ++ (if o.rig.val = 4 then [5] else []) ++
      (if o.spa.val = 2 ∨ o.spb.val = 2 then [6] else []) ++ (if o.spa.val = 1 ∨ o.spb.val = 1 then [7] else [])
  | .vcvt _ _ o => (if o.vb.val = 7 ∨ o.vc.val = 7 then [3] else []) ++ (if o.minor.val = 1 then [11] else [])
  | .tcopy _ _ o => if o.minor.val = 1 then [11] else []
  | .tscadd _ _ o => if o.minor.val = 1 then [11] else []
  | .reel _ _ _ => [8]
  | _ => []

/-- Every feature bit that the code and the bindings use. -/
def imgUses (b : List Byte) : List Nat :=
  ((imgInstrs b).getD []).flatMap usesOf ++
    (imgBindings b).flatMap fun x => (if x.spaces.getLsbD 4 then [9] else []) ++ if x.spaces.getLsbD 5 then [10] else []

/-- Step 7: no use of a feature that the grade lacks. -/
def step7 (g : Grade) (b : List Byte) : Bool := (imgUses b).all (bitOf (gradeFeatures g))

/-- Step 8: every use is declared. -/
def step8 (b : List Byte) : Bool := (imgUses b).all (bitOf (imgFeatures b))

/-! ### Step 9: records, targets, reachability (R74 to R77, R101) -/

/-- ASCII, padded with zero bytes. -/
def nameOk (l : List Byte) : Bool := l.all (fun b => decide (b.toNat < 128)) && (l.dropWhile (· != 0)).all (· == 0)

/-- A binding record (Table 3.5). -/
def bindingOk (r : List Byte) : Bool :=
  let x := readBinding r
  decide (x.kind ≤ 6 ∧ x.access.toNat < 8 ∧ 1 ≤ x.minSize ∧ x.minSize ≤ 524288) && !x.spaces.getLsbD 3 &&
    decide (x.spaces.toNat < 64) && nameOk x.name && fieldAt r 0x18 8 == 0

/-- R75: constants. -/
def constantsOk (b : List Byte) : Bool :=
  let l := (imgBindings b).filter fun x => x.kind == 4
  if (imgSection b 3).isSome then l.length == 1 && l.all fun x => x.access == 1 else l.isEmpty

/-- A launch record (Table 3.6). -/
def launchOk (b : List Byte) (r : List Byte) : Bool :=
  let x := readLaunch r
  decide (x.entry < imgWords b ∧ 1 ≤ x.threads ∧ x.threads ≤ 1024 ∧ x.group ≤ 15 ∧ fieldAt r 7 1 ≤ 1 ∧
      x.quotaKib % 4 = 0 ∧ x.quotaKib ≤ 1024) &&
    fieldAt r 10 2 == 0 && fieldAt r 14 2 == 0 && (x.desc == 0xFFFF || decide (x.desc + 24 ≤ sectionCount b 2))

/-- R76 and R77 over the launch records. -/
def launchesOk (b : List Byte) : Bool :=
  let l := imgLaunches b
  (launchRecords b).all (launchOk b) && (l.map (·.group)).dedup.length == l.length &&
    decide ((l.map (·.threads)).sum ≤ 1024 ∧ (l.map (·.quotaKib)).sum ≤ 1024)

/-- The debug-tags records. -/
def tagsOk (b : List Byte) : Bool :=
  match imgSection b 5 with
  | none => true
  | some x =>
    let c := sectionBytes b 5
    (List.range x.count).all fun i =>
      fieldAt c (8 * i + 2) 2 == 0 && decide (fieldAt c (8 * i + 4) 4 < x.size - 8 * x.count)

/-- A vector instruction (R101). -/
def isVector (i : Instr) : Bool :=
  match i with
  | .vld _ _ _ => true
  | .vst _ _ _ => true
  | i =>
    match encodeWord i with
    | some w => decide (0x30 ≤ wordBits w 63 56 ∧ wordBits w 63 56 ≤ 0x45) || wordBits w 63 56 == 0xA0 || wordBits w 63 56 == 0xA1
    | none => false

/-- The words that may follow a word (R101): BR may be taken or not, a LOOP body run or skipped, a guarded word executed or
not. -/
def followers (w : Nat) : Instr → List Nat
  | .br _ _ o => [o.target.toNat, w + 1]
  | .loop _ _ o => [w + 1, o.target.toNat + 1]
  | .halt _ k _ => if k.gen then [w + 1] else []
  | _ => [w + 1]

/-- Words reachable from a list of words; `n` bounds the visits. -/
def reach (l : List Instr) : Nat → List Nat → List Nat → List Nat
  | 0, _, seen => seen
  | _, [], seen => seen
  | n + 1, w :: r, seen =>
    if seen.contains w then reach l n r seen
    else
      match l[w]? with
      | some i => reach l n (followers w i ++ r) (w :: seen)
      | none => reach l n r seen

/-- No vector instruction is reachable from the ENTRY of a launch record without VEC. -/
def vecOk (b : List Byte) (l : List Instr) : Bool :=
  ((imgLaunches b).filter fun x => !x.vec).all fun x =>
    (reach l (3 * l.length + 1) [x.entry] []).all fun w => match l[w]? with
      | some i => !isVector i
      | none => true

/-- Step 9. -/
def step9 (b : List Byte) : Bool :=
  (imgDescriptors b).all recordOk && (bindingRecords b).all bindingOk &&
    ((imgBindings b).map (·.window)).dedup.length == (imgBindings b).length && constantsOk b && launchesOk b && tagsOk b &&
    vecOk b ((imgInstrs b).getD [])

/-! ### Steps 10 and 11 -/

/-- The window that an instruction's WIN field names. -/
def winOf : Instr → List Nat
  | .ld _ _ o => [o.win.toNat]
  | .st _ _ o => [o.win.toNat]
  | .vld _ _ o => [o.win.toNat]
  | .vst _ _ o => [o.win.toNat]
  | .atom _ _ o => [o.win.toNat]
  | .atomp _ _ o => [o.win.toNat]
  | .sig _ _ o => [o.win.toNat]
  | .sigw _ _ o => [o.win.toNat]
  | .watch _ _ o => [o.win.toNat]
  | .reel _ _ o => [o.win.toNat]
  | .dld _ _ o => [o.win.toNat]
  | .dstr _ _ o => [o.win.toNat]
  | _ => []

/-- Every window that words and descriptor records name. -/
def windowsNamed (b : List Byte) : List Nat :=
  ((imgInstrs b).getD []).flatMap winOf ++
    ((imgDescriptors b).filter fun r => fieldAt r 0 1 == 1 || fieldAt r 0 1 == 2).map fun r => fieldAt r 4 1

/-- Step 10, for a context of some blocks. -/
def step10 (b : List Byte) (blocks : Nat) : Bool :=
  decide (fieldAt b 0x24 2 ≤ blocks) && (windowsNamed b).all fun w => (imgBindings b).any fun x => x.window == w

/-- Step 11: the native code fits (R80). -/
def step11 (b : List Byte) (rev : Nat) : Bool := decide (Config.nativeBytes (imgCode b) rev ≤ 131072)

/-- The first step of Table 3.7 that fails, with its status (R78). -/
def imageFailure (g : Grade) (b : List Byte) (blocks rev : Nat) : Option (Nat × Nat) :=
  if !step1 b then some (1, stRejected)
  else if !step2 b then some (2, stRejected)
  else if !step3 b then some (3, stRejected)
  else if !step4 g b then some (4, stAbsent)
  else if !step5 b then some (5, stRejected)
  else if !step6 b then some (6, stRejected)
  else if !step7 g b then some (7, stAbsent)
  else if !step8 b then some (8, stRejected)
  else if !step9 b then some (9, stRejected)
  else if !step10 b blocks then some (10, stRejected)
  else if !step11 b rev then some (11, stRejected)
  else none

/-- What a loaded image leaves (R79, R80, R106). -/
def loadedImage (b : List Byte) (rev : Nat) : Image :=
  { code := imgCode b, descriptors := imgDescriptors b, bindings := imgBindings b, launches := imgLaunches b,
    nativeLines := ceilDiv (Config.nativeBytes (imgCode b) rev) 64, digest := Config.sha384 b,
    nativeDigest := Config.nativeDigest (imgCode b) rev, lowerRev := rev }

/-! ### The lowered-image area (R83) -/

/-- A lowered image is kept for this image and revision. -/
def lowerHit (s : State) (d : BitVec 384) (rev : Nat) : Bool := s.lowered.any fun x => x.digest == d && x.rev == rev

/-- A lowering of an image, or a load that finds it, makes it the most recent of up to 64 (R83); what an earlier revision began is
not kept once another holds (DESIGN CHOICE: the spec does not say whether it enters the area; log entry 146). -/
def keepLowered (s : State) (d : BitVec 384) (rev : Nat) : State :=
  if rev ≠ s.lowerRev then s
  else
    let l := s.lowered.filter fun x => !(x.digest == d && x.rev == rev)
    let l := l ++ [{ digest := d, rev := rev }]
    { s with lowered := l.drop (l.length - 64) }

/-- A firmware addendum brings a lowering revision: entries of an earlier one are discarded at the same boundary (R83). -/
def newRevision (s : State) (rev : Nat) : State :=
  if rev = 0 then s else { s with lowerRev := rev, lowered := s.lowered.filter fun x => x.rev == rev }

/-- The loader writes the code of the images of some contexts into new cells: from the lowered-image area, or lowered again
(R87), under the revision that the device holds now (DESIGN CHOICE: the spec names none for code of an earlier revision; log entry
147). -/
def reloadCode (s : State) (cs : List Nat) : State :=
  cs.foldl (fun s c => match (ctxOf s c).image with
    | some im => keepLowered s im.digest s.lowerRev
    | none => s) s

/-- The promise of LOAD (R82, R83); the last term in whole nanoseconds, rounded down (DESIGN CHOICE: R82 names no rounding; log
entry 54). -/
def loadPromise (s : State) (b : List Byte) : Nat :=
  2000000 + (if lowerHit s (Config.sha384 b) s.lowerRev then 40 else 400) * imgWords b + 1500 +
    (Config.nativeBytes (imgCode b) s.lowerRev + (imgConstants b).length) / 64

end Sys2Proof.Machine
end

