-- ==== Sys2Proof/Machine/Keels.lean ====
section
/-! DEFINITION. The Keel quorum (01 R32; 16 R446 to R450), hold, and the lifetime record and retirement list in the board flash
(16 R463 to R465). -/

namespace Sys2Proof.Machine

open Sys2Proof

/-! ### The lifetime record and the retirement list -/

/-- The live counters of a region, its stalls of this power-on added in (R464, R475). -/
def regionLifeNow (s : State) (p : Nat) : RegionLife :=
  let x := physOf s p
  { x.life with stallNs := (List.range 16).map fun c => (c, mget 0 x.life.stallNs c + mget 0 x.stallNs c) }

/-- What a lifetime write stores. -/
def lifeImage (s : State) (seq : Nat) : LifeSlot :=
  { seq := seq, crcOk := true, time := now s, device := s.life, regions := (List.range 18).map fun p => (p, regionLifeNow s p) }

/-- Of two slots of the flash the first is the one that a power-on uses: valid, and of the higher SEQ (R463). -/
def firstNewer (ok0 ok1 : Bool) (seq0 seq1 : Nat) : Bool := ok0 && (!ok1 || decide (seq1 < seq0))

/-- The lifetime slot that a power-on uses (R463). -/
def newestLife (f : Flash) : Option LifeSlot :=
  if firstNewer f.slot0.crcOk f.slot1.crcOk f.slot0.seq f.slot1.seq then some f.slot0
  else if f.slot1.crcOk then some f.slot1
  else none

/-- The redundancy record that a power-on uses (R463). -/
def newestRecord (f : Flash) : Option RedundancySlot :=
  if firstNewer f.record0.crcOk f.record1.crcOk f.record0.seq f.record1.seq then some f.record0
  else if f.record1.crcOk then some f.record1
  else none

/-- The stored addendum (R434, R463). -/
def storedAddendum (f : Flash) : Option Addendum :=
  if firstNewer f.addendum0.crcOk f.addendum1.crcOk f.addendum0.seq f.addendum1.seq then f.addendum0.held
  else if f.addendum1.crcOk then f.addendum1.held
  else none

/-- The redundancy record goes into its older slot (R463). -/
def storeRecord (s : State) : State :=
  let f := s.flash
  let x : RedundancySlot :=
    { seq := (((newestRecord f).map (·.seq)).getD 0 + 1) % 2 ^ 32, crcOk := true, regionMap := f.regionMap
      failedKeels := f.failedKeels, floor := f.floor, activeSlot := f.activeSlot }
  if !f.present then s
  else if firstNewer f.record0.crcOk f.record1.crcOk f.record0.seq f.record1.seq then { s with flash := { f with record1 := x } }
  else { s with flash := { f with record0 := x } }

/-- An addendum goes into the slot that does not hold the active one (R433, R463). -/
def storeAddendum (s : State) (a : Addendum) : State :=
  let f := s.flash
  let x : AddendumSlot := { seq := (Nat.max f.addendum0.seq f.addendum1.seq + 1) % 2 ^ 32, crcOk := true, held := some a }
  if !f.present then s
  else if f.activeSlot = 0 then { s with flash := { f with addendum1 := x } }
  else { s with flash := { f with addendum0 := x } }

/-- A lifetime write into the older slot (R464); a write that fails, or finds no flash, is logged and tried again. -/
def writeLifetime (s : State) (ok : Bool) : State :=
  let f := s.flash
  let newest := ((newestLife f).map (·.seq)).getD 0
  let old0 := !firstNewer f.slot0.crcOk f.slot1.crcOk f.slot0.seq f.slot1.seq
  if ok ∧ f.present then
    let x := lifeImage s ((newest + 1) % 2 ^ 32)
    { s with flash :=
        if old0 then { f with slot0 := x, lastLifeWrite := now s, retryAt := none }
        else { f with slot1 := x, lastLifeWrite := now s, retryAt := none } }
  else
    logFault { s with flash := { f with lastLifeWrite := now s, retryAt := some (now s + 60000000000) } } 0x0F 0xFF 0xFF 0xFF
      (if old0 then 0x0110000 else 0x0120000)

/-- A retirement waits to be appended to the list (R465): KIND 1 cell, 2 region, 3 lane, 4 granule, 5 Keel. -/
def recordRetirement (s : State) (kind place item : Nat) : State :=
  { s with flash := { s.flash with
      pendingRetirements := s.flash.pendingRetirements ++ [{ t := now s, kind := kind, place := place, item := item }] } }

/-- LIFETIME_WRITE (R464): every 3,600 s of device time, or at a management request. -/
def execLifetimeWrite (ok : Bool) (s : State) : Host.Outcome State Fault Refusal :=
  if now s < s.flash.lastLifeWrite + 3600000000000 then notNow s else .next (writeLifetime s ok)

/-- LIFETIME_WRITE_RETRY (R464): 60 s after a write that failed. -/
def execLifetimeWriteRetry (ok : Bool) (s : State) : Host.Outcome State Fault Refusal :=
  match s.flash.retryAt with
  | some t => if now s < t then notNow s else .next (writeLifetime s ok)
  | none => notNow s

/-- Entries that the retirement list holds: 8 MiB of 16 bytes. -/
def retirementRoom : Nat := 524288

/-- RETIREMENT_LIST_APPEND (R465): the oldest retirement not yet listed is appended; log code 0x0F when the list is full or
no flash answers (R499). -/
def execRetirementListAppend (s : State) : Host.Outcome State Fault Refusal :=
  match s.flash.pendingRetirements with
  | [] => notNow s
  | r :: rest =>
    let f := { s.flash with pendingRetirements := rest }
    let n := f.retirements.length
    if f.present ∧ n < retirementRoom then .next { s with flash := { f with retirements := f.retirements ++ [r] } }
    else .next (logFault { s with flash := f } 0x0F 0xFF 0xFF 0xFF (0x130000 + 16 * n))

/-! ### Hold (R449) -/

/-- QUORUM of Table 15.14. -/
def quorumBits (s : State) : Nat := ((List.range 4).map fun n => if s.keels.voting.contains n then 2 ^ n else 0).sum

/-- The device enters hold: event 0x0F, log code 0x09, the lifetime record written, the epoch pulse no longer driven; the management
target interrupts its controller (Table 14.10, log entry 79). -/
def enterHold (s : State) : State :=
  if s.hold then s
  else
    let q := quorumBits s
    let s := { s with hold := true, clock := { s.clock with master := false }, life := { s.life with holds := s.life.holds + 1 } }
    let s := logFault (deviceEvent s 0x0F q) 0x09 0xFF 0xFF 0xFF q
    writeLifetime (emit (emit s .heldReport) .inBandInterrupt) true

/-! ### The quorum (R446 to R448, R450) -/

/-- A Keel is recorded failed: in the redundancy record, in the retirement list, and in the fault log with the votes against it, none
for one that withdraws itself (R436). -/
def failKeel (s : State) (k votes : Nat) : State :=
  let s := storeRecord { s with
    keels := { s.keels with failed := s.keels.failed ++ [k] }
    flash := { s.flash with failedKeels := s.flash.failedKeels ++ [k] } }
  logFault (recordRetirement s 5 k 0) 0x07 0xFF k 0xFF votes

/-- A voting Keel leaves the quorum for good: the standby is to join, and with one voter left the device holds. -/
def loseKeel (s : State) (k votes : Nat) : State :=
  let s := failKeel { s with keels := { s.keels with voting := s.keels.voting.filter (· != k) } } k votes
  let s := if s.keels.standby.isSome ∧ s.keels.joinBy.isNone then
      { s with keels := { s.keels with joinBy := some (now s + 10000000) } }
    else s
  if s.keels.voting.length ≤ 1 then enterHold s else s

/-- The standby Keel is found unhealthy. -/
def loseStandby (s : State) (k votes : Nat) : State :=
  failKeel { s with keels := { s.keels with standby := none, joinBy := none } } k votes

/-- An action of the quorum proceeds when two voters agree on it; with one voter it never does (R32, Table 16.4). -/
def quorumAgrees (s : State) (v : Votes) : Bool :=
  decide (2 ≤ (s.keels.voting.filter v.agree.contains).length)

/-- How the Keels vote on the quorum's next action of its own is not known before they do (log entry 142). -/
def newBallot (s : State) : State :=
  let f := freshNat s
  { f.2 with keels := { f.2.keels with ballot :=
      { agree := (List.range 4).filter (bitOf f.1), failing := (List.range 4).filter fun k => bitOf f.1 (k + 4) } } }

/-- The quorum can act at all: it has formed, at least two Keels vote, and the device does not hold (Table 16.4, R449). -/
def quorumActs (s : State) : Bool := s.keels.formed && !s.hold && decide (2 ≤ s.keels.voting.length)

/-- Voters that fail the self-check which a disagreement starts. -/
def failingVoters (s : State) (v : Votes) : List Nat := s.keels.voting.filter v.failing.contains

/-- A disagreement (R448): a voter that fails its self-check is voted out and the device holds; a second disagreement on the
same action puts the device in hold. -/
def disagreement (s : State) (v : Votes) (second : Bool) : State :=
  match failingVoters s v with
  | [] => if second then enterHold s else s
  | l => enterHold (l.foldl (fun s k => loseKeel s k (s.keels.voting.length - 1)) s)

/-- An action of the quorum's own, on a ballot: two voters agree and it proceeds; else their self-checks run and it is tried once
more; a second disagreement puts the device in hold (R32, R448, Table 16.12; log entry 142). -/
def quorumAct (s : State) (act : State → State) : State :=
  if !quorumActs s then s
  else if quorumAgrees s s.keels.ballot then act (newBallot s)
  else
    let s := disagreement (newBallot s) s.keels.ballot false
    if !quorumActs s then s
    else if quorumAgrees s s.keels.ballot then act (newBallot s)
    else disagreement (newBallot s) s.keels.ballot true

/-- Heartbeats missed in a row, after one period. -/
def countMissed (s : State) (missing : List Nat) : State :=
  { s with keels := { s.keels with
      missed := (List.range 4).map fun k => (k, if missing.contains k then mget 0 s.keels.missed k + 1 else 0) } }

/-- KEEL_HEARTBEAT (R446): a voter that has missed three heartbeats, or has voted against two others, is voted out. -/
def execKeelHeartbeat (missing against : List Nat) (s : State) : Host.Outcome State Fault Refusal :=
  if !s.keels.formed then notNow s
  else
    let s := countMissed s missing
    let bad := s.keels.voting.filter fun k => decide (3 ≤ mget 0 s.keels.missed k) || against.contains k
    let good := s.keels.voting.filter fun k => !bad.contains k
    let s := match s.keels.standby with
      | some k => if 3 ≤ mget 0 s.keels.missed k then loseStandby s k good.length else s
      | none => s
    .next (bad.foldl (fun s k => loseKeel s k good.length) s)

/-- A Keel joins the quorum. -/
def joinKeel (s : State) (k : Nat) : State :=
  logFault { s with keels := { s.keels with voting := s.keels.voting ++ [k], standby := none, joinBy := none } } 0x08 0xFF k 0xFF 0

/-- KEEL_STANDBY_JOIN (R447): at an epoch boundary the standby joins in place of a Keel voted out. -/
def execKeelStandbyJoin (s : State) : Host.Outcome State Fault Refusal :=
  match s.keels.standby, s.keels.joinBy with
  | some k, some _ => if isBoundary (now s) ∧ !s.hold then .next (joinKeel s k) else notNow s
  | _, _ => notNow s

/-- KEEL_ROTATION (R450): the standby joins and the longest-voting Keel leaves; it is the standby again when it passes. -/
def execKeelRotation (passed : Bool) (s : State) : Host.Outcome State Fault Refusal :=
  match s.keels.standby, s.keels.voting with
  | some k, first :: rest =>
    if rest.length ≠ 2 ∨ s.keels.joinBy.isSome ∨ s.hold ∨ !isBoundary (now s) ∨
        now s < s.keels.lastRotation + 86400000000000 then notNow s
    else
      let s := joinKeel { s with keels := { s.keels with voting := rest, lastRotation := now s } } k
      if passed then .next { s with keels := { s.keels with standby := some first } } else .next (failKeel s first 0)
  | _, _ => notNow s

/-- KEEL_PERIODIC_SELF_CHECK (R446): a Keel that fails withdraws itself. -/
def execKeelPeriodicSelfCheck (keel : Nat) (passed : Bool) (s : State) : Host.Outcome State Fault Refusal :=
  if passed ∨ !s.keels.formed then notNow s
  else if s.keels.voting.contains keel then .next (loseKeel s keel 0)
  else if s.keels.standby = some keel then .next (loseStandby s keel 0)
  else notNow s

end Sys2Proof.Machine
end

