-- ==== Sys2Proof/Machine/Queues.lean ====
section
/-! DEFINITION. Queues, doorbells, command entries, acceptance, completion records and interrupts (15 R408 to R418). -/

namespace Sys2Proof.Machine

open Sys2Proof

/-! ### Interrupts (Table 14.8) -/

/-- Vectors that pend and are no longer masked are signalled. -/
def flushVectors (s : State) (f : Nat) : State :=
  let l := (cfgOf s f).msixPending.filter fun v => !vectorMasked (cfgOf s f) v
  let s := modCfg s f fun x => { x with msixPending := x.msixPending.filter fun v => vectorMasked x v }
  l.foldl (fun s v => emit s (.msix f v)) s

/-! ### The host path (R402, R405) -/

/-- Function numbers (Table 14.6). -/
def fnNumbers : List Nat := [0, 1] ++ (List.range 16).map (16 + ·)

/-- The device can reach the host of a function: a link is up, and the function may master the bus. -/
def hostReach (s : State) (f : Nat) : Bool :=
  (cfgOf s f).busMaster && hostPathUp s (hostAddr (fnPort s f) 0)

/-- A count in DENIED (R409, R411). -/
def deny (s : State) (f : Nat) : State := modFn s f fun x => { x with denied := satAdd 0xFFFF x.denied 1 }

/-! ### Entries (Tables 15.5 and 15.8) -/

def Cmd.field (c : Cmd) (off n : Nat) : Nat := fieldAt c.entry off n
def Cmd.opcode (c : Cmd) : Nat := c.field 0 1
def Cmd.fence (c : Cmd) : Bool := bitOf (c.field 1 1) 0
def Cmd.force (c : Cmd) : Bool := bitOf (c.field 1 1) 1
def Cmd.cid (c : Cmd) : Nat := c.field 2 2
def Cmd.ctx (c : Cmd) : Nat := c.field 4 1

def findCmd (s : State) (id : Nat) : Option Cmd := s.cmds.find? fun c => c.id == id

def setCmd (s : State) (c : Cmd) : State := { s with cmds := s.cmds.map fun x => if x.id = c.id then c else x }

/-- A command's work has ended with a status, a detail and a result. -/
def endCmd (s : State) (c : Cmd) (status detail result : Nat) : State :=
  setCmd s { c with stage := .ended, status := status, detail := detail, result := result }

/-- The operand fields of each opcode: offset and size. -/
def operandsOf : Nat → List (Nat × Nat)
  | 0x01 => [(8, 2), (0x10, 8)]
  | 0x03 => [(8, 8), (0x10, 4)]
  | 0x08 => [(8, 1), (9, 1), (0x0C, 4), (0x10, 8), (0x18, 8)]
  | 0x09 => [(8, 4)]
  | 0x0A => [(8, 1), (0x0A, 2), (0x10, 8)]
  | 0x0B => [(8, 8), (0x10, 4), (0x14, 1)]
  | 0x0C => [(8, 8), (0x10, 8)]
  | 0x0D => [(8, 1), (9, 1), (0x0A, 1), (0x0B, 1), (0x0C, 4), (0x10, 8)]
  | 0x0E => [(8, 8), (0x10, 8), (0x18, 4), (0x1C, 4), (0x20, 8)]
  | 0x0F => [(8, 1), (0x10, 8)]
  | 0x10 => [(8, 1), (9, 1)]
  | 0x11 => [(8, 8), (0x10, 4), (0x14, 4)]
  | 0x12 => [(8, 8), (0x10, 4), (0x14, 4)]
  | 0x13 => [(8, 8), (0x10, 4)]
  | _ => []

/-- The first reserved operand byte that is not zero (R414). -/
def reservedByte (c : Cmd) : Option Nat :=
  ((List.range 56).map (8 + ·)).find? fun i =>
    c.field i 1 != 0 && !((operandsOf c.opcode).any fun x => decide (x.1 ≤ i ∧ i < x.1 + x.2))

/-- Commands that name a context. -/
def namesContext (op : Nat) : Bool := [0x02, 0x03, 0x04, 0x05, 0x06, 0x07, 0x0A, 0x11, 0x12].contains op

/-- Commands of the managing function only. -/
def managingOnly (op : Nat) : Bool := op == 0x10 || op == 0x13

/-- The states of Table 15.8. -/
def stateAllowed (c : Cmd) (st : CtxState) : Bool :=
  match c.opcode with
  | 0x02 => st == .created || st == .loaded || st == .stopped
  | 0x03 => st == .created || st == .loaded || st == .stopped
  | 0x04 => st == .loaded || st == .stopped
  | 0x05 => st == .running
  | 0x06 => st == .paused
  | 0x07 => st == .running || st == .paused || (c.force && st == .draining)
  | 0x11 => st == .running || st == .paused || st == .stopped
  | 0x12 => st == .loaded || st == .stopped
  | _ => st != .empty

/-- The byte offset of the first header or reserved field that fails (R414, R416). -/
def entryFault (s : State) (c : Cmd) : Option Nat :=
  let own := (ctxOf s c.ctx).fn == c.fn && (ctxOf s c.ctx).state != .empty && decide (c.ctx < 64)
  if 0x13 < c.opcode then some 0
  else if managingOnly c.opcode ∧ c.fn ≠ 0 then some 0xFF
  else if 4 ≤ c.field 1 1 ∨ (c.force ∧ c.opcode ≠ 7) then some 1
  else if 0xFFFD < c.cid then some 2
  else if namesContext c.opcode then
    if !own ∨ !stateAllowed c (ctxOf s c.ctx).state then some 4 else rest
  else if c.ctx ≠ 0xFF ∧ !(c.opcode == 0 && own) then some 4
  else rest
where
  rest : Option Nat := if c.field 5 3 ≠ 0 then some 5 else reservedByte c

/-! ### Promises (Table 15.8) -/

/-- Bytes of host memory or T2 that a command names as its image. -/
def imageBytes (s : State) (c : Cmd) : List Byte :=
  let a := c.field 8 8
  let n := c.field 0x10 4
  if spaceOf a = 5 then hostRead s c.fn (a % 2 ^ 48) n else devRead s a n

/-- The disable deadline of a reduction job, from the acceptance of the DISABLE: 1,000,000 ns after it, or after the promised
end of the interval that the job is in (R327). -/
def disableDeadline (accepted : Nat) (j : ReduceJob) : Nat :=
  Nat.max accepted (Nat.max (j.intervalEnd.getD 0) (j.doneBy.getD 0)) + 1000000

/-- The latest promised completion among the accepted items of a context (P of R420), with the disable deadline of each
reduction job (R327). -/
def latestPromise (s : State) (ctx : Nat) : Nat :=
  let reqs := (s.requests.filter fun r => r.ctx == ctx && r.stage != .waiting).flatMap fun r =>
    ceilDiv r.promise 10 :: (match r.judge with
      | some j => [j.due]
      | none => [])
  let units := s.logs.flatMap fun e =>
    (e.2.reels.filterMap fun u => u.2.running.bind fun r => if r.job.ctx = ctx then some r.promise else none) ++
      (e.2.gatherJobs.filter fun j => j.ctx == ctx && j.accepted).map (·.promise) ++
      (e.2.winch.filter fun w => w.ctx == ctx).filterMap (·.promise) ++
      (e.2.seqr.jobs.filter fun j => j.ctx == ctx).map (disableDeadline (now s))
  (reqs ++ units).foldl Nat.max (now s)

/-- The boundary of an APPLY (R424). -/
def applyBoundary (s : State) (c : Cmd) : Nat :=
  if c.field 8 8 = 0 then boundaryAt (now s + 200000) else c.field 8 8

/-- B of CHECKPOINT and RESTORE as it stands at acceptance: that of the checkpoint to be taken, or LENGTH of the one in AREA (R420). -/
def checkpointB (s : State) (c : Cmd) : Nat :=
  if c.opcode = 0x11 then checkpointSize s c.ctx else fieldAt (devRead s (c.field 8 8) 256) 8 8

/-- The promise in ns of COPY (R370); none with T4. A command's Winch lies in no region: the reads and writes of another
region are those of Table 13.1 from outside it. -/
def copyPromise (c : Cmd) : Option Nat :=
  let src := c.field 8 8
  let dst := c.field 0x10 8
  if spaceOf src = 5 ∨ spaceOf dst = 5 then none
  else
    let D := match spaceOf src with
      | 0 => 1500
      | 4 => 3000
      | _ => 400
    some (D + c.field 0x18 4 / Nat.max 1 (c.field 0x1C 4))

/-- The promise of a command in ns, when it is accepted (Table 15.8). -/
def commandPromise (s : State) (c : Cmd) : Option Nat :=
  match c.opcode with
  | 0x00 => some 10000
  | 0x01 => some 200000
  | 0x02 => some 1000000
  | 0x03 => some (loadPromise s (imageBytes s c))
  | 0x04 => some 200000
  | 0x05 => some 10000
  | 0x06 => some 10000
  | 0x07 => if c.force then some 1000000 else some (latestPromise s c.ctx - now s + 2000000)
  | 0x08 => some 100000
  | 0x09 => some 2200000
  | 0x0A => some (50000 + 100 * c.field 0x0A 2)
  | 0x0B => some (applyBoundary s c - now s + 100000)
  | 0x0C => some (100000 + 40 * fieldAt (hostRead s c.fn (c.field 8 8) 64) 0x20 2)
  | 0x0D => some 2200000
  | 0x0E => copyPromise c
  | 0x0F => some 500000
  | 0x10 =>
    match c.field 8 1 with
    | 0 => some 4000000000
    | 1 => some 1000000000
    | _ => some 500000000
  | 0x11 => some (50000 + checkpointB s c / c.field 0x14 4)
  | 0x12 => some (50000 + checkpointB s c / c.field 0x14 4)
  | 0x13 => some 50000000
  | _ => none

/-! ### Fetching and acceptance (R411 to R413) -/

def queueSize (log2 : Nat) : Nat := 2 ^ log2

/-- The entry of a queue that has been fetched and waits. -/
def fetchedOf (s : State) (f q : Nat) : Option Cmd := s.cmds.find? fun c => c.fn == f && c.queue == q && c.stage == .fetched

/-- Commands accepted and not complete. -/
def acceptedCmds (s : State) : List Cmd := s.cmds.filter fun c => c.stage != .fetched

/-- A command of a queue has not posted its record. -/
def unposted (s : State) (f q : Nat) : Bool :=
  (acceptedCmds s).any (fun c => c.fn == f && c.queue == q) ||
    s.records.any fun r => r.fn == f && r.queue == q && decide (r.cid < 0xFFFE)

/-- An earlier accepted command names the same context (R413; log entry 72). -/
def contextBusy (s : State) (c : Cmd) : Bool := c.ctx != 0xFF && (acceptedCmds s).any fun d => d.ctx == c.ctx

/-- The limits and orders of R412 and R413 let a fetched entry be accepted. -/
def orderAllows (s : State) (c : Cmd) : Bool :=
  !s.hold && decide ((acceptedCmds s).length < 64) &&
    decide (((acceptedCmds s).filter fun d => d.fn == c.fn && d.queue == c.queue).length < 8) &&
    !(c.fence && unposted s c.fn c.queue) && !contextBusy s c

/-- An entry stands in a queue to be fetched. -/
def entryWaits (s : State) (f q : Nat) : Bool :=
  let x := queueOf s f q
  x.en && x.sqHead != x.sqTail && hostReach s f && (fetchedOf s f q).isNone && !s.hold && s.board.started

/-- A queue has an entry to serve in its turn. -/
def queueReady (s : State) (f q : Nat) : Bool :=
  entryWaits s f q || (match fetchedOf s f q with
    | some c => orderAllows s c
    | none => false)

/-- No open queue that is ready stands between the one served last and this one (R412). -/
def queueTurn (s : State) (f q : Nat) : Bool :=
  let d := fun (x y : Nat) => (x * 64 + y + 2047 - (s.cmdTurn.1 * 64 + s.cmdTurn.2)) % 2048
  s.fns.all fun e => e.2.queues.all fun k => decide (d f q ≤ d e.1 k.1) || !queueReady s e.1 k.1

/-- Fetches the entry at SQ_HEAD (R411). -/
def fetchEntry (s : State) (f q : Nat) : State :=
  let x := queueOf s f q
  let c : Cmd :=
    { id := s.nextCmd, fn := f, queue := q, entry := hostRead s f (x.sqBase.toNat + 64 * x.sqHead) 64, number := 0,
      stage := .fetched, tAccept := 0, promised := none, status := 0, detail := 0, result := 0, retried := false, rev := 0, regs := [],
      intervals := [], energyPj := 0, size := 0, phase := 0 }
  modQueue { s with cmds := s.cmds ++ [c], nextCmd := s.nextCmd + 1 } f q fun x =>
    { x with sqHead := (x.sqHead + 1) % queueSize x.sqLog2 }

/-- The enabled comparator of a context that a command number matches (R103): the lower when both do (DESIGN CHOICE, log entry
155). -/
def comparatorHit (s : State) (c f q number : Nat) : Option Nat :=
  if (ctxOf s c).fn ≠ f ∨ (ctxOf s c).state ≠ .running ∨ number = 0 then none
  else [0, 1].find? fun i =>
    let v := (rawReg s (offCmdBreak c i)).toNat
    bitOf v 63 && bits v 53 48 == q && bits v 31 0 == number

/-- Contexts that must break before a command of this number starts. -/
def breakingContexts (s : State) (f q number : Nat) : List (Nat × Nat) :=
  (List.range 64).filterMap fun c => (comparatorHit s c f q number).map fun i => (c, i)

/-- A command break: HIT is set and the context stops (COMMAND_BREAK, R103, R104). -/
def commandBreak (s : State) (x : Nat × Nat) : State :=
  if (ctxOf s x.1).breaking then s
  else
    let off := offCmdBreak x.1 x.2
    let s := setRaw (w1cEvent s off 62) off (rawReg s off ||| BitVec.ofNat 64 (2 ^ 62))
    beginBreak s x.1 { BreakInfo.zero with cause := 2, comparator := x.2, time := now s } none

/-! ### The copy that an APPLY freezes (R421, R423 to R425) -/

/-- More than one device takes part. -/
def isGroup (devices : Nat) : Bool := decide (2 ≤ ((List.range 8).filter (bitOf devices)).length)

def Cmd.devices (c : Cmd) : Nat := c.field 0x14 1
def Cmd.group (c : Cmd) : Nat := c.field 0x10 4

/-- The boundary of an accepted APPLY (R424). -/
def applyTarget (c : Cmd) : Nat := if c.field 8 8 = 0 then boundaryAt (c.tAccept + 200000) else c.field 8 8

/-- Another APPLY of a function is accepted and not complete (R421, R427). -/
def applyPending (s : State) (f id : Nat) : Bool :=
  (acceptedCmds s).any fun d => d.fn == f && d.opcode == 0x0B && d.id != id

/-- The status and detail with which APPLY fails on its operands (R421, R424, R425). -/
def applyFault (s : State) (c : Cmd) : Option (Nat × Nat) :=
  let b := c.field 8 8
  let own := bitOf c.devices s.part.device
  if applyPending s c.fn c.id then some (stDeferred, 0)
  else if b ≠ 0 ∧ (b % 1048576 ≠ 0 ∨ b < c.tAccept + 200000) then some (stRejected, 8)
  else if c.devices ≠ 0 ∧ !own then some (stRejected, 0x14)
  else if isGroup c.devices ∧ b < c.tAccept + 1048576 then some (stRejected, 8)
  else none

/-- When an APPLY is accepted, the function's open copy is frozen, and what is staged later goes into a new one (R423). An APPLY that
fails on its own BOUNDARY or DEVICES leaves the open copy staged (DESIGN CHOICE, log entry 134: R14 speaks of a failed check of the
copy only). -/
def freezeCopy (s : State) (c : Cmd) : State :=
  if c.opcode ≠ 0x0B ∨ (applyFault s c).isSome then s
  else
    modFn s c.fn fun y =>
      { y with
        open_ := StagedCopy.zero
        frozen := some { copy := y.open_, cmd := c.id, boundary := applyTarget c, group := c.group, devices := c.devices, passed := false } }

/-- The disable deadlines of the reduction jobs of a context, by region and tag, as they stand now (R327). -/
def disableDeadlines (s : State) (ctx : Nat) : Map (Nat × Nat) Nat :=
  s.logs.flatMap fun e => (e.2.seqr.jobs.filter fun j => j.ctx == ctx).map fun j => ((e.1, j.tag), disableDeadline (now s) j)

/-- A command as its acceptance leaves it: its number, time and promise, the revision, the WS fields and the intervals that it meets,
and its B (R83, R327, R415, R420, R424). -/
def Cmd.accepted (c : Cmd) (s : State) (number : Nat) : Cmd :=
  { c with
    stage := .accepted, number := number, tAccept := now s, promised := commandPromise s c, retried := false, rev := s.lowerRev
    regs := s.regs, intervals := if c.opcode = 7 then disableDeadlines s c.ctx else []
    size := if c.opcode = 0x11 then checkpointB s c else c.size }

/-- An APPLY that fails is the last that the function has seen (R427). -/
def markApply (s : State) (c : Cmd) (status : Nat) : State :=
  if c.opcode = 0x0B then modFn s c.fn fun y => { y with lastStatus := status } else s

/-- The command is accepted; an entry that fails its header ends at once (R412, R414). -/
def acceptCmd (s : State) (c : Cmd) (number : Nat) : State :=
  let s := modQueue s c.fn c.queue fun x => { x with started := number }
  let c := c.accepted s number
  let s := { s with freeCounter := s.freeCounter + 1 }
  match entryFault s c with
  | some d => endCmd (markApply s c stRejected) c stRejected d 0
  | none => freezeCopy (setCmd s c) c

/-- A fetched entry is accepted, breaks a context first, or waits for the Keels to agree (R412, R448). -/
def tryAccept (s : State) (c : Cmd) (v : Votes) : State :=
  if !orderAllows s c then s
  else if !quorumAgrees s v then disagreement (setCmd s { c with retried := true }) v c.retried
  else
    let number := ((queueOf s c.fn c.queue).started + 1) % 2 ^ 32
    match breakingContexts s c.fn c.queue number with
    | [] => acceptCmd s c number
    | l => l.foldl commandBreak s

/-- COMMAND_ACCEPT (R103, R411 to R414, R448): the queue whose turn it is has its entry fetched, and accepted when the Keels
agree and its order allows. -/
def execCommandAccept (fn queue : Nat) (v : Votes) (s : State) : Host.Outcome State Fault Refusal :=
  if !queueReady s fn queue ∨ !queueTurn s fn queue then notNow s
  else
    let s := if entryWaits s fn queue then fetchEntry s fn queue else s
    let s := { s with cmdTurn := (fn, queue) }
    match fetchedOf s fn queue with
    | some c => .next (tryAccept s c v)
    | none => .next s

/-! ### Completion records (R415 to R417) -/

/-- A promise missed by a command: the quorum lies in no region (R63, R415, log entry 73). -/
def commandMiss (s : State) (c : Cmd) : State :=
  let s := limited s (0x100, 0xFF) fun s => logFault s 0x0C 0xFF 0xFF c.ctx 17
  limited s (0x0C, c.ctx) fun s => postEvent s c.fn 0x0C c.ctx 17 17

/-- Energy in mJ of a context's work since its last start. -/
def ctxEnergy (s : State) (ctx : Nat) : Nat := (ctxPj s ctx - (ctxOf s ctx).startEnergyPj) / 10 ^ 9

/-- Energy in mJ of a command's work: the context's since its start for DISABLE and, taken before it is gone, for DESTROY, else
that of the activity of its own work (R415, R478). -/
def cmdEnergy (s : State) (c : Cmd) : Nat :=
  if c.opcode = 2 then c.size
  else if c.opcode = 7 then ctxEnergy s c.ctx
  else c.energyPj / 10 ^ 9

/-- The energy of what a command has done between two states is its work's (R415). -/
def chargeWork (s t : State) (id : Nat) : State :=
  { t with cmds := t.cmds.map fun c => if c.id = id then { c with energyPj := c.energyPj + (activityPj t - activityPj s) } else c }

/-- The transfers that a command holds end. -/
def endCmdTransfers (s : State) (id : Nat) : State :=
  { s with transfers := s.transfers.filter fun x => match x.purpose with
      | .copyCmd k => k != id
      | .load k _ => k != id
      | _ => true }

/-- The completion record of a command. -/
def cmdRecord (s : State) (c : Cmd) : Record :=
  let actual := Nat.min 0xFFFFFFFF (now s - c.tAccept)
  { fn := c.fn, queue := c.queue, cid := c.cid, status := c.status, detail := c.detail, tDone := now s,
    promised := c.promised.getD 0xFFFFFFFF, actual := actual, noPromise := c.promised.isNone,
    missed := (match c.promised with
      | some p => decide (p < now s - c.tAccept)
      | none => false),
    energyMj := cmdEnergy s c % 2 ^ 32, result := c.result % 2 ^ 32, word := none }

/-- A COPY whose DEADLINE has passed completes tier-late (R371, R421). -/
def lateCopy (s : State) (c : Cmd) : Cmd :=
  if c.opcode = 0x0E ∧ c.status = stOk ∧ c.field 0x20 8 ≠ 0 ∧ c.field 0x20 8 < now s then { c with status := stTierLate } else c

/-- COMMAND_COMPLETION (R415): the record of a command whose work has ended is ready to post. -/
def execCommandCompletion (cmd : Nat) (s : State) : Host.Outcome State Fault Refusal :=
  match findCmd s cmd with
  | none => notNow s
  | some c =>
    if c.stage ≠ .ended then notNow s
    else
      let c := lateCopy s c
      let r := cmdRecord s c
      let s := if r.missed then commandMiss s c else s
      let s := { s with cmds := s.cmds.filter fun x => x.id != c.id }
      .next (postRecord (endCmdTransfers s c.id) r)

/-- An item record (R417): to the queue of the command that caused it, or to the admin queue. -/
def itemRecord (s : State) (f q kind index accepted : Nat) : State :=
  postRecord s
    { fn := f, queue := q, cid := 0xFFFF, status := stAborted, detail := 0, tDone := now s, promised := 0xFFFFFFFF,
      actual := Nat.min 0xFFFFFFFF (now s - accepted), noPromise := true, missed := false, energyMj := 0,
      result := kind * 2 ^ 28 + index % 2 ^ 28, word := none }

/-- The 32 bytes of a record (Table 15.6). -/
def recordBytes (r : Record) (sqHead : Nat) (phase : Bool) : List Byte :=
  leBytes 2 r.cid ++ leBytes 1 r.status ++ leBytes 1 r.detail ++ leBytes 2 sqHead ++ leBytes 1 r.queue ++
    leBytes 1 (b2n phase + 2 * b2n r.noPromise + 4 * b2n r.missed) ++ leBytes 8 r.tDone ++
    (match r.word with
     | some w => leBytes 8 w
     | none => leBytes 4 r.promised ++ leBytes 4 r.actual) ++ leBytes 4 r.energyMj ++ leBytes 4 r.result

/-- COMPLETION_POST (R411, R415): the oldest ready record of a queue is written while the completion queue has room. -/
def execCompletionPost (fn queue : Nat) (s : State) : Host.Outcome State Fault Refusal :=
  let x := queueOf s fn queue
  let n := queueSize x.cqLog2
  match s.records.find? fun r => r.fn == fn && r.queue == queue with
  | none => notNow s
  | some r =>
    if (x.cqTail + 1) % n = x.cqHead ∨ !hostReach s fn then notNow s
    else
      let s := { s with records := s.records.erase r }
      let s := hostWrite s fn (x.cqBase.toNat + 32 * x.cqTail) (recordBytes r x.sqHead x.phase)
      let s := modQueue s fn queue fun y =>
        { y with cqTail := (y.cqTail + 1) % n, phase := if y.cqTail + 1 = n then !y.phase else y.phase }
      .next (if x.irqEn then signalVector s fn x.vector else s)

/-! ### Doorbells and QCTL (R402, R410, R411) -/

/-- The port takes doorbells of a function. -/
def portServes (s : State) (f port : Nat) : Bool := fnPort s f == port

/-- The bytes that the host has written into its memory. -/
def hostStores (s : State) (port : Nat) (host : List (Nat × Byte)) : State :=
  host.foldl (fun s x => { s with mem := s.mem.store (memKey s (hostAddr port x.1)) [x.2] }) s

/-- SQ_TAIL (R402, R411). -/
def execSqTail (fn queue : Nat) (value : Word) (port : Nat) (host : List (Nat × Byte)) (s : State) :
    Host.Outcome State Fault Refusal :=
  let s := hostStores s port host
  if !portServes s fn port ∨ queueSize (queueOf s fn queue).sqLog2 ≤ value.toNat then .next (deny s fn)
  else .next (modQueue s fn queue fun x => { x with sqTail := value.toNat })

/-- CQ_HEAD (R402, R411). -/
def execCqHead (fn queue : Nat) (value : Word) (port : Nat) (s : State) : Host.Outcome State Fault Refusal :=
  if !portServes s fn port ∨ queueSize (queueOf s fn queue).cqLog2 ≤ value.toNat then .next (deny s fn)
  else .next (modQueue s fn queue fun x => { x with cqHead := value.toNat })

/-- A queue after a write of QCTL (R410, Table 15.3). -/
def Queue.control (x : Queue) (v : Nat) : Queue :=
  let sq := bits v 55 52
  let cq := bits v 51 48
  let x := { x with irqEn := bitOf v 62, vector := bits v 43 32 }
  if x.en then { x with en := bitOf v 63 }
  else
    let x := { x with sqLog2 := sq, cqLog2 := cq }
    if bitOf v 63 ∧ 4 ≤ sq ∧ sq ≤ 12 ∧ 4 ≤ cq ∧ cq ≤ 12 then
      { x with en := true, sqHead := 0, cqTail := 0, started := 0, phase := true }
    else x

/-- The refused stored addendum is reported once the admin queue of the managing function is open (R434). -/
def postNotice (s : State) (f q : Nat) : State :=
  match s.notice with
  | some (d, seq) => if f = 0 ∧ q = 0 then postEvent { s with notice := none } 0 0x10 0xFF d (seq * 2 ^ 32 + d) else s
  | none => s

/-- A write of QCTL; a queue that closes drops an entry fetched and not accepted. -/
def writeQctl (s : State) (f q v : Nat) : State :=
  let s := modQueue s f q fun x => x.control v
  if (queueOf s f q).en then postNotice s f q
  else { s with cmds := s.cmds.filter fun c => !(c.fn == f && c.queue == q && c.stage == .fetched) }

/-- QCTL (R410). -/
def execQctl (fn queue : Nat) (value : DWord) (s : State) : Host.Outcome State Fault Refusal :=
  if fnNumbers.contains fn ∧ queue < 64 then .next (writeQctl s fn queue value.toNat) else notNow s

end Sys2Proof.Machine
end

