-- ==== Sys2Proof/Machine/Tensor.lean ====
section
/-! DEFINITION. Tensor operations (04 R133 to R139; 10 R283 to R295): issue, TWAIT, TCOPY, TSCADD, TMAXABS and their
completion. An operation has its effect on memory at its completion (log entry 15). -/

namespace Sys2Proof.Machine

open Sys2Proof

/-! ### Issue -/

/-- A tensor operation proper: TMAXABS holds its thread and is none (R137, R139). -/
def isTensor : TensorKind → Bool
  | .tmaxabs _ => false
  | _ => true

/-- The pending tensor operations of a thread (R137). -/
def pendingOps (s : State) (t : ThreadId) : List TensorOp := s.ops.filter fun q => q.t == t && isTensor q.kind

/-- An instruction that starts a tensor operation: while eight are pending, its thread waits at issue (R137). A tagged word
that waits there, or for a DLD, is counted when it issues (DESIGN CHOICE: R145 names the arrival; log entry 149). -/
def tensorWord (i : Instr) (t : ThreadId) (k : Common) (f : State → State) (s : State) :
    Host.Outcome State Fault Refusal :=
  if i.wf ∧ issues i s t k.tag ∧ guardOk k (theThread s t) ∧ 8 ≤ (pendingOps s t).length then
    .next (holdAt s t (.waitTensor 7))
  else stateWord i t k f s

/-- The registers whose DLD is under way among those that an operation names, and any index descriptor it may chain to: their
records reach it with the DLD, and it does not wait (R129, R138). -/
def awaited (s : State) (t : ThreadId) (kind : TensorKind) : List (Bool × Nat) :=
  let x := match kind with
    | .mma o _ => o.xae || o.xce
    | .tcopy o => o.xe1 || o.xe2
    | .tscadd o => o.xe1 || o.xe2
    | .tmaxabs _ => false
  ((opSlots kind).map (fun n => (false, n)) ++ if x then (List.range 8).map fun n => (true, n) else []).filter fun n =>
    (pendingDld s t n).isSome

/-- A new operation with the records it copies at issue (R129): the descriptors n1, n2 and n3. -/
def newOp (s : State) (t : ThreadId) (kind : TensorKind) (n1 n2 n3 : Fin 16) (stream : Word) (stage : OpStage) : TensorOp :=
  let g := groupOf s t
  let place := (cellPlace (ctxOf s t.ctx) t.cell).getD (0, 0)
  let q : TensorOp :=
    { id := s.nextOp, t := t, kind := kind, region := place.1, cell := place.2, d1 := g.d[n1], d2 := g.d[n2], d3 := g.d[n3],
      xs := g.x.toList, awaits := awaited s t kind, stream := stream, stage := stage, feeds := [], reading := [], fed := [],
      drained := [], wins := [], startAt := 0, loadBeats := 0, counted := false, fedAt := 0, mask := [], recipe := none,
      tainted := false }
  { q with wins := opWindows s q }

def addOp (s : State) (q : TensorOp) : State :=
  { s with ops := s.ops ++ [{ q with id := s.nextOp }], nextOp := s.nextOp + 1 }

/-- TWAIT n: the thread goes on when at most n operations are pending (R137). -/
def execTwait (t : ThreadId) (k : Common) (o : IArgs) (s : State) : Host.Outcome State Fault Refusal :=
  stateWord (.twait t k o) t k
    (fun s => if (pendingOps s t).length ≤ o.imm.toNat then s
              else modThread s t fun th => { th with run := .waitTensor o.imm.toNat }) s

def execTcopy (t : ThreadId) (k : Common) (o : TArgs) (s : State) : Host.Outcome State Fault Refusal :=
  tensorWord (.tcopy t k o) t k
    (fun s => addOp s (newOp s t (.tcopy o) o.d1 o.d2 0 ((theThread s t).rd o.sreg) .running)) s

def execTscadd (t : ThreadId) (k : Common) (o : TArgs) (s : State) : Host.Outcome State Fault Refusal :=
  tensorWord (.tscadd t k o) t k
    (fun s => addOp s (newOp s t (.tscadd o) o.d1 o.d2 0 ((theThread s t).rd o.sreg) .running)) s

/-- KIND of a window's binding; 0 for a window that no binding names (R294). -/
def windowKind (c : Context) (w : Nat) : Nat :=
  match c.image with
  | some im => ((im.bindings.find? fun b => b.window == w).map (·.kind)).getD 0
  | none => 0

/-- Recipe mode is in effect (R295). -/
def recipeMode (s : State) (c : Nat) : Bool := bitOf (rawReg s (offScaleMode c)).toNat 63 || (ctxOf s c).recipeLeft != 0

/-- The recipe exponent of a KIND (Table 10.7). -/
def recipeExp (s : State) (c kind : Nat) : Int := toSigned 8 (rawField s (offRecipe c) (8 * kind + 7) (8 * kind))

/-- TMAXABS: its thread is held, and the recipe in effect now decides (R139, R294, R295). -/
def startMaxabs (t : ThreadId) (o : TArgs) (s : State) : State :=
  let q := newOp s t (.tmaxabs o) 0 o.d2 0 0 .running
  let w := fieldAt q.d2 4 1
  let recipe := if recipeMode s t.ctx then some (recipeExp s t.ctx (windowKind (ctxOf s t.ctx) w)) else none
  modThread (addOp s { q with recipe := recipe }) t fun th => { th with run := .waitOp q.id }

def execTmaxabs (t : ThreadId) (k : Common) (o : TArgs) (s : State) : Host.Outcome State Fault Refusal :=
  stateWord (.tmaxabs t k o) t k (startMaxabs t o) s

/-! ### Operands and shapes -/

/-- The operands of a T-format operation: D1 and D2. -/
def copyOperands (q : TensorOp) (o : TArgs) : Option (Operand × Operand) :=
  match operand q.d1 q.xs o.xe1 o.x1.val, operand q.d2 q.xs o.xe2 o.x2.val with
  | some a, some b => some (a, b)
  | _, _ => none

/-- P of R139. -/
def copyRows (a b : Operand) : Nat :=
  if b.x.isSome then b.rows else if a.x.isSome then a.rows else b.t.d1

/-- The two shapes agree (R139): the same extents in the dimensions that are copied whole, and the same rows when both sides
are indexed. -/
def shapesAgree (a b : Operand) : Bool :=
  (a.x.isNone || b.x.isNone || a.rows == b.rows) && a.t.d0 == b.t.d0 && a.t.d2 == b.t.d2 && a.t.d3 == b.t.d3

/-- The formats that TCOPY pairs; the same format with MINOR and S 0 (R139, Table 10.4). -/
def copyFormats (o : TArgs) (a b : Tensor) : Bool :=
  copyPair a.format b.format && (a.format != b.format || (o.minor.val == 0 && o.sreg.val == 0))

/-- The formats of TSCADD (R139, R291). -/
def scaddFormats (a b : Tensor) : Bool := (a.format == 0x00 || a.format == 0x09) && copyPair a.format b.format

/-! ### What an operation reads and writes -/

/-- The entries an operand reads. -/
def Operand.indexSpans (R : Reads) (o : Operand) (P : Nat) : List (Nat × Nat) := (List.range P).flatMap (o.entrySpans R)

/-- Device ranges read and written by an operation, through the windows of its issue or its grant (R235, R502). A TMAXABS in
recipe mode reads no row (R294). -/
def opAccess (s0 : State) (q : TensorOp) : List (Nat × Nat) × List (Nat × Nat) :=
  let c := q.t.ctx
  let g := q.t.group
  let s := withWindows s0 c q.wins
  let R := winReads s c g
  let rd := deviceRanges s c g .read
  let wr := deviceRanges s c g .write
  match q.kind with
  | .tmaxabs o =>
    match operand q.d2 q.xs o.xe2 o.x2.val, q.recipe with
    | some b, none => (rd (b.spans R b.rows ++ b.indexSpans R b.rows), [])
    | _, _ => ([], [])
  | .tcopy o | .tscadd o =>
    match copyOperands q o with
    | some (a, b) =>
      let P := copyRows a b
      (rd (b.spans R P ++ b.indexSpans R P ++ a.indexSpans R P), wr (a.spans R P))
    | none => ([], [])
  | .mma o _ =>
    match mmaOperands q o with
    | some (cc, a, b) =>
      (rd (a.spans R a.rows ++ a.indexSpans R a.rows ++ b.spans R b.rows ++ cc.indexSpans R cc.rows),
        wr (cc.spans R cc.rows))
    | none => ([], [])

/-- Two pending operations conflict: one writes what the other reads or writes (R235). -/
def opsConflict (s : State) (p q : TensorOp) : Bool :=
  let a := opAccess s p
  let b := opAccess s q
  rangesMeet a.2 (b.1 ++ b.2) || rangesMeet b.2 a.1

/-- The other pending tensor operations of the context that conflict with one that completes. -/
def conflicting (s : State) (q : TensorOp) : List Nat :=
  if !isTensor q.kind then []
  else
    (s.ops.filter fun p => p.id != q.id && p.t.ctx == q.t.ctx && isTensor p.kind && opsConflict s q p).map (·.id)

/-- Marks the operations whose results are undefined because a conflicting one was pending with them (R235). -/
def taint (s : State) (l : List Nat) : State :=
  { s with ops := s.ops.map fun p => if l.contains p.id then { p with tainted := true } else p }

/-! ### Conversion of a row (R283 to R288) -/

/-- The rounding of element i0 at position (i3, i2, p) of an operation with P rows (Table 10.6). -/
def copyMode (seed : Nat) (purpose minor : Nat) (stream : Word) (t : Tensor) (P : Nat) (pos : Nat × Nat × Nat) (i0 : Nat) :
    RoundMode :=
  if minor = 0 then .nearest
  else
    let i := ((pos.1 * t.d2 + pos.2.1) * P + pos.2.2) * t.d0 + i0
    .stochastic (gen seed (i % 2 ^ 32) (bits i 39 32 + purpose * 2 ^ 16) stream.toNat 0).1

/-- The blocks of a row. -/
def blocksOf {α : Type} (n : Nat) (l : List α) : List (List α) :=
  (List.range (l.length / n)).map fun j => (l.drop (j * n)).take n

/-- A row converted to a format: its elements with their flags, and its scales when they are chosen (R284 to R286).
`old`: the scales that stand at the destination. -/
def convertRow (fmt : Nat) (mode : Nat → RoundMode) (vs : List FpVal) (old : List Byte) :
    List (Nat × Bool) × Option (List Byte) :=
  match fmt with
  | 0x05 | 0x06 =>
    let bl := (blocksOf 32 vs).zipIdx
    (bl.flatMap fun (b, j) => mxElems fmt (fun i => mode (32 * j + i)) b,
      some (bl.map fun (b, _) => BitVec.ofNat 8 (mxScale fmt b)))
  | 0x0A =>
    let bl := (blocksOf 128 vs).zipIdx
    (bl.flatMap fun (b, j) => m8Elems (fun i => mode (128 * j + i)) b,
      some (bl.flatMap fun (b, _) => leBytes 2 (m8Scale b)))
  | 0x08 | 0x09 =>
    (vs.zipIdx.map fun (v, i) => elemConvert fmt (mode i) (v.scale (-toSigned 8 (scaleAt fmt old (i / 64)))), none)
  | _ => (vs.zipIdx.map fun (v, i) => elemConvert fmt (mode i) v, none)

/-- Flagged elements are counted (R281, Table 10.10). -/
def addFlags (s : State) (c n : Nat) : State :=
  modCtx s c fun x => { x with convertFlags := satAdd 0xFFFFFFFF x.convertFlags n }

def flagged (es : List (Nat × Bool)) : Nat := (es.filter (·.2)).length

/-- Writes a converted row: elements, then chosen scales. -/
def putRow (s : State) (c g : Nat) (t : Tensor) (r i2 i3 : Nat) (es : List Nat) (scales : Option (List Byte)) : State :=
  let s := writeSpans s c g (t.rowSpan r i2 i3) (pack t.format es)
  match scales with
  | some b => writeSpans s c g (t.scaleSpan r i2 i3) b
  | none => s

/-- The scale written for an absent block of a source: free, but never the NaN scale, since an absent element is +0 in the
dense equivalent (R258, R278; log entry 16). -/
def absentScale (s : State) (j : Nat) : Byte := BitVec.ofNat 8 ((Config.freeByte s.freeCounter j).toNat % 255)

/-- One row of a TCOPY (R139): unchanged bytes and scales between equal formats, else converted. A source row that is OUT
writes zero elements with zero scales (DESIGN CHOICE: R139 gives the scale of no such block; log entry 124). -/
def copyRow (q : TensorOp) (o : TArgs) (a b : Operand) (P seed : Nat) (r1 r2 : Option Nat) (pos : Nat × Nat × Nat)
    (s : State) : State :=
  let c := q.t.ctx
  let g := q.t.group
  let i3 := pos.1
  let i2 := pos.2.1
  match r1 with
  | none => s
  | some r =>
    if a.t.format = b.t.format ∧ b.t.layout = 0 then
      let bytes := match r2 with
        | some x => readSpans (winReads s c g) (b.t.rowSpan x i2 i3)
        | none => List.replicate (packedBytes b.t.format b.t.d0) 0
      let scales := match r2 with
        | some x => readSpans (winReads s c g) (b.t.scaleSpan x i2 i3)
        | none => List.replicate (b.t.d0 / blockSize b.t.format * scaleBytes b.t.format) 0
      writeSpans (writeSpans s c g (a.t.rowSpan r i2 i3) bytes) c g (a.t.scaleSpan r i2 i3) scales
    else if a.t.format = b.t.format then
      let e := sparseBytes s (winReads s c g) b.t r2 i2 i3
      writeSpans (writeSpans s c g (a.t.rowSpan r i2 i3) e.1) c g (a.t.scaleSpan r i2 i3) e.2
    else
      let vs := denseRow (winReads s c g) b.t r2 i2 i3
      let old := readSpans (winReads s c g) (a.t.scaleSpan r i2 i3)
      let w := convertRow a.t.format (copyMode seed 0x10 o.minor.val q.stream a.t P pos) vs old
      let s := if a.t.format = 0x08 ∨ a.t.format = 0x09 then markSpans s c g (a.t.scaleSpan r i2 i3) else s
      addFlags (putRow s c g a.t r i2 i3 (w.1.map (·.1)) w.2) c (flagged w.1)
where
  /-- Element bytes and scales of a sparse source row in the same format: absent elements are +0, and the scale of an
  absent block is a free value (R258, log entry 16). -/
  sparseBytes (s : State) (R : Reads) (t : Tensor) (row : Option Nat) (i2 i3 : Nat) : List Byte × List Byte :=
    match row with
    | none =>
      (List.replicate (packedBytes t.format t.d0) 0, List.replicate (t.d0 / blockSize t.format * scaleBytes t.format) 0)
    | some r =>
      if t.rl then
        let e := blockRow R t (r / 8) i2 i3
        let cols := blockColumns R t e
        let n := 32 * elemBits t.format / 8
        let parts := (List.range (t.d0 / 32)).map fun j =>
          match cols.findIdx? (· == j) with
          | some i =>
            (((readSpans R (t.payloadSpan e i)).drop (r % 8 * n)).take n,
              ((readSpans R (t.blockScaleSpan e i)).drop (r % 8)).take 1)
          | none =>
            (List.replicate n 0, if scaleBytes t.format = 0 then [] else [absentScale s j])
        (parts.flatMap (·.1), parts.flatMap (·.2))
      else
        let bs := readSpans R (t.tileSpan (r / 4) i2 i3)
        (pack t.format ((List.range t.d0).map fun i => (tileElem t bs (i / 4) (r % 4) (i % 4)).getD 0),
          readSpans R (t.scaleSpan r i2 i3))

/-- One row of a TSCADD (R139, R291). -/
def scaddRow (q : TensorOp) (o : TArgs) (a b : Operand) (P seed : Nat) (r1 r2 : Option Nat) (pos : Nat × Nat × Nat)
    (s : State) : State :=
  let c := q.t.ctx
  let g := q.t.group
  let i3 := pos.1
  let i2 := pos.2.1
  match r1 with
  | none => s
  | some r =>
    let vs := denseRow (winReads s c g) b.t r2 i2 i3
    let w := (convertRow a.t.format (copyMode seed 0x11 o.minor.val q.stream a.t P pos) vs
      (readSpans (winReads s c g) (a.t.scaleSpan r i2 i3))).1
    let old := unpack a.t.format (readSpans (winReads s c g) (a.t.rowSpan r i2 i3)) a.t.d0
    let new := (w.zip old).map fun (x, y) =>
      if a.t.format = 0 then (fadd (BitVec.ofNat 32 y) (BitVec.ofNat 32 x.1)).toNat else (y + x.1) % 2 ^ 32
    let s := markSpans s c g (a.t.rowSpan r i2 i3 ++ a.t.scaleSpan r i2 i3)
    addFlags (putRow s c g a.t r i2 i3 new none) c (flagged w)

/-- Every row of a copy or scatter-add, in ascending order, with the rows resolved once. -/
def eachRow (q : TensorOp) (a b : Operand) (P : Nat)
    (f : Option Nat → Option Nat → Nat × Nat × Nat → State → State) (s : State) : State :=
  let R := winReads s q.t.ctx q.t.group
  let rows := (List.range P).map fun p => (a.row R p, b.row R p)
  (positions a.t P).foldl (fun s pos => let r := rows.getD pos.2.2 (none, none); f r.1 r.2 pos s) s

/-! ### Completion -/

/-- A copy or scatter-add that is dynamically inconsistent (R98, R126, R139, R201, R256, R283). -/
def copyInconsistent (s : State) (q : TensorOp) (formats overlap : Bool) (a b : Operand) : Bool :=
  let c := q.t.ctx
  let g := q.t.group
  let P := copyRows a b
  let R := winReads s c g
  !formats || !shapesAgree a b || a.t.layout != 0 || a.inconsistent R P || b.inconsistent R P ||
    ((a.spans R P).any fun x => (cutLines x.1 x.2).any fun y => match translate s c (some g) .write y.1 y.2 with
      | some d => oldShard s d y.2
      | none => false) ||
    (overlap && rangesMeet (deviceRanges s c g .write (a.spans R P)) (deviceRanges s c g .read (b.spans R P)))

/-- Reading the source, resolving both sides, then every row. -/
def copyEffect (q : TensorOp) (a b : Operand)
    (f : Nat → Nat → Option Nat → Option Nat → Nat × Nat × Nat → State → State) (s : State) : State :=
  let P := copyRows a b
  let seed := (rawReg s (offRoundSeed q.t.ctx)).toNat
  let s0 := markRows (markOperand s q.t.ctx q.t.group b P) q.t.ctx q.t.group a P
  let s1 := eachRow q a b P (f P seed) s0
  { s1 with freeCounter := s1.freeCounter + 1 }

/-- The effect of TCOPY at its completion. -/
def tcopyEffect (q : TensorOp) (o : TArgs) (s : State) : State :=
  match copyOperands q o with
  | some (a, b) =>
    if copyInconsistent s q (copyFormats o a.t b.t) true a b then undefinedEffect s q.t.ctx
    else copyEffect q a b (copyRow q o a b) s
  | none => undefinedEffect s q.t.ctx

/-- The effect of TSCADD at its completion. -/
def tscaddEffect (q : TensorOp) (o : TArgs) (s : State) : State :=
  match copyOperands q o with
  | some (a, b) =>
    if copyInconsistent s q (scaddFormats a.t b.t) false a b then undefinedEffect s q.t.ctx
    else copyEffect q a b (scaddRow q o a b) s
  | none => undefinedEffect s q.t.ctx

/-- The FP32 maximum magnitude over the rows of an operand; NaNs as VMAX takes them (R115, R139). -/
def maxMagnitude (R : Reads) (b : Operand) : Word :=
  toF32 (((b.places R b.rows).flatMap fun x => denseRow R b.t x.1 x.2.1 x.2.2).foldl
    (fun a v => a.max v.abs) .nan)

/-- The effect of TMAXABS on the state and on s[S] (R139, R294). -/
def tmaxabsEffect (q : TensorOp) (o : TArgs) (s : State) : State :=
  match operand q.d2 q.xs o.xe2 o.x2.val, q.recipe with
  | some _, some e => modThread s q.t fun th => th.wr o.sreg (BitVec.ofNat 32 ((e + 127).toNat * 2 ^ 23))
  | some b, none =>
    if b.inconsistent (winReads s q.t.ctx q.t.group) b.rows then undefinedEffect s q.t.ctx
    else
      modThread (markOperand s q.t.ctx q.t.group b b.rows) q.t fun th =>
        th.wr o.sreg (maxMagnitude (winReads s q.t.ctx q.t.group) b)
  | none, _ => undefinedEffect s q.t.ctx

/-- A thread that waits in TWAIT or for its TMAXABS goes on once it can (R137, R139). -/
def tensorWake (s : State) (t : ThreadId) (id : Nat) : State :=
  match threadOf s t with
  | some th =>
    match th.run with
    | .waitTensor n => if (pendingOps s t).length ≤ n then wake s t else s
    | .waitOp k => if k = id then wake s t else s
    | _ => s
  | none => s

/-- The cell of an operation works: its region is not vacant and the cell is not being replaced (R247, R248). -/
def opRuns (s : State) (q : TensorOp) : Bool :=
  !(regionOf s q.region).vacant && !(regionOf s q.region).retiring.contains q.cell

/-- An operand of an operation lies in a fenced region, or in a cell that is being replaced: its accesses wait at admission
(R37). -/
def opFenced (s : State) (q : TensorOp) : Bool :=
  let x := opAccess s q
  (x.1 ++ x.2).any fun r => fencedAt s r.1

/-- The activity of the accesses of an operation (R478). -/
def countSpans (s : State) (q : TensorOp) (l : List (Nat × Nat)) : State :=
  l.foldl (fun s x => countAccess s (physAt s q.region) (some q.t.ctx) x.1 x.2) s

/-- An operation completes with an effect, undefined when it conflicted with another; its thread may go on. -/
def completeOp (s : State) (q : TensorOp) (eff : State → State) : State :=
  let l := conflicting s q
  let s := taint s l
  let s := if q.tainted ∨ l ≠ [] then undefinedEffect s q.t.ctx else eff s
  tensorWake { s with ops := s.ops.filter fun p => p.id ≠ q.id } q.t q.id

/-- TENSOR_OP_COMPLETE (R137, R139): a TCOPY, TSCADD or TMAXABS completes. -/
def execTensorOpComplete (op : Nat) (s : State) : Host.Outcome State Fault Refusal :=
  match findOp s op with
  | none => notNow s
  | some q =>
    if !opRuns s q ∨ q.awaits ≠ [] ∨ opFenced s q then notNow s
    else
      let s := countSpans s q ((opAccess s q).1 ++ (opAccess s q).2)
      let under := fun f s => underWindows s q.t.ctx q.wins f
      match q.kind with
      | .tcopy o => .next (completeOp s q (under (tcopyEffect q o)))
      | .tscadd o => .next (completeOp s q (under (tscaddEffect q o)))
      | .tmaxabs o => .next (completeOp s q (under (tmaxabsEffect q o)))
      | .mma _ _ => notNow s

end Sys2Proof.Machine
end

