-- ==== Sys2Proof/Machine/Feeders.lean ====
section
/-! DEFINITION. Feeders and drain of an MMA (08 R225 to R245; 09 R257, R265 to R267, R271, R272): the arrangement of a rig,
the planes of its streams, the reads and writes that its feeders and its drain issue, and the beats that it holds its
spars. -/

namespace Sys2Proof.Machine

open Sys2Proof

/-! ### Arrangements (Table 8.1) -/

/-- Spars along k and along n. -/
def rigK (rig : Nat) : Nat := if rig ≤ 1 then 1 else if rig ≤ 3 then 2 else 4
def rigN (rig : Nat) : Nat := if rig = 0 then 1 else if rig ≤ 2 then 2 else 4

/-- Columns of a plane by RIG: Nr of Table 8.1. -/
def rigWidth (rig : Nat) : Nat := 32 * rigN rig

/-- Kr' of an MMA: the depth of its arrangement's plane (Table 8.1, R265). -/
def planeDepth (o : MArgs) : Nat := rigK o.rig.val * sparDepth o.fmta.val

/-- The parts of [start, start + len) of at most `step`. -/
def cutRange (start len step : Nat) : List (Nat × Nat) :=
  (List.range (ceilDiv len step)).map fun i => (start + i * step, Nat.min step (len - i * step))

/-- The N tiles of an MMA: first column and width. -/
def nTiles (o : MArgs) (b : Operand) : List (Nat × Nat) := cutRange 0 (mmaN o b) (rigWidth o.rig.val)

/-- The M blocks of an MMA: first row and rows. -/
def mBlocks (o : MArgs) (a : Operand) : List (Nat × Nat) := cutRange 0 (mmaM o a) 64

/-- Two ranges (first, length) share a position. -/
def rangesTouch (a b : Nat × Nat) : Bool := decide (a.1 < b.1 + b.2) && decide (b.1 < a.1 + a.2)

/-! ### Planes (R265 to R267) -/

/-- Some present block meets the stored rows and the elements of a run-length operand. -/
def blockMeets (R : Reads) (t : Tensor) (rows cols : Nat × Nat) : Bool :=
  (List.range (ceilDiv t.d1 8)).any fun br => rangesTouch (8 * br, 8) rows &&
    (blockColumns R t (blockRow R t br 0 0)).any fun bc => rangesTouch (32 * bc, 32) cols

/-- The live k-groups of an N tile (R265): by stored row for TB 0, along dimension 0 for TB 1. -/
def liveGroups (R : Reads) (o : MArgs) (b : Operand) (K : Nat) (tile : Nat × Nat) : List Nat :=
  (List.range (ceilDiv K 8)).filter fun kg =>
    if o.tb then blockMeets R b.t tile (8 * kg, 8) else blockMeets R b.t (8 * kg, 8) tile

/-- The planes of an N tile, each a list of ranges of k (R265, R267). -/
def planes (R : Reads) (o : MArgs) (a b : Operand) (tile : Nat × Nat) : List (List (Nat × Nat)) :=
  let K := mmaK o a
  let d := planeDepth o
  if o.spb.val = 1 then
    let live := liveGroups R o b K tile
    (cutRange 0 K (8 * d)).flatMap fun w =>
      let l := live.filter fun kg => decide (w.1 ≤ 8 * kg) && decide (8 * kg < w.1 + w.2)
      if l = [] then [[]]
      else
        (List.range (ceilDiv l.length (d / 8))).map fun i =>
          ((l.drop (i * (d / 8))).take (d / 8)).map fun kg => (8 * kg, Nat.min 8 (K - 8 * kg))
  else
    let depth := if o.spb.val = 2 ∨ (o.spb.val = 0 ∧ o.spa.val = 2) then 2 * d else d
    (cutRange 0 K depth).map fun r => [r]

/-- Neighbouring ranges joined. -/
def joinRanges : List (Nat × Nat) → List (Nat × Nat)
  | [] => []
  | x :: r =>
    match joinRanges r with
    | y :: r' => if x.1 + x.2 = y.1 then (x.1, x.2 + y.2) :: r' else x :: y :: r'
    | [] => [x]

/-! ### The requests of the feeders (R237 to R239, R257) -/

/-- Requests of at most 256 bytes over spans of a window. -/
def feedPieces (side spar pair : Nat) (l : List (Nat × Nat)) : List FeedReq :=
  l.flatMap fun x => (cutRange x.1 x.2 256).map fun y =>
    { side := side, spar := spar, pair := pair, pos := 0, off := 0, addr := y.1, bytes := y.2 }

/-- The bytes of elements [e0, e0 + n) of a stored row. -/
def Tensor.partSpan (t : Tensor) (row e0 n : Nat) : List (Nat × Nat) :=
  span t.window (t.rowOff row 0 0 + e0 * elemBits t.format / 8) (packedBytes t.format n)

/-- The scales of the blocks that elements [e0, e0 + n) of a stored row lie in (R126). -/
def Tensor.partScales (t : Tensor) (row e0 n : Nat) : List (Nat × Nat) :=
  if n = 0 then []
  else
    let nb := t.d0 / blockSize t.format
    let j0 := e0 / blockSize t.format
    let j1 := (e0 + n - 1) / blockSize t.format
    span t.window (t.scaleOff + (row * nb + j0) * scaleBytes t.format) ((j1 + 1 - j0) * scaleBytes t.format)

/-- The value slots and masks of the tiles of a tile row that elements [e0, e0 + n) lie in (R257, R260). -/
def Tensor.tilePart (t : Tensor) (tr e0 n : Nat) : List (Nat × Nat) :=
  let k0 := e0 / 4
  let k := ceilDiv (e0 + n) 4 - k0
  let at_ := t.base + tr * t.s1
  span t.window (at_ + k0 * elemBits t.format) (k * elemBits t.format) ++
    span t.window (at_ + t.d0 / 4 * elemBits t.format + 2 * k0) (2 * k)

/-- What an operand stores of a range of stored rows and elements of dimension 0, beside the directory of a run-length one: present
payload blocks and their scales (R254, R257), tiles with their masks (R260), or row segments, in each case with the block
scales (R126, R237). -/
def storedParts (R : Reads) (t : Tensor) (rows cols : Nat × Nat) : List (Nat × Nat) :=
  let scales := (List.range rows.2).flatMap fun i => t.partScales (rows.1 + i) cols.1 cols.2
  if t.rl then
    ((List.range (ceilDiv t.d1 8)).filter fun br => rangesTouch (8 * br, 8) rows).flatMap fun br =>
      let e := blockRow R t br 0 0
      (((blockColumns R t e).zipIdx).filter fun x => rangesTouch (32 * x.1, 32) cols).flatMap fun x =>
        t.payloadSpan e x.2 ++ t.blockScaleSpan e x.2
  else if t.s24 then
    (((List.range (t.d1 / 4)).filter fun tr => rangesTouch (4 * tr, 4) rows).flatMap fun tr =>
      t.tilePart tr cols.1 cols.2) ++ scales
  else ((List.range rows.2).flatMap fun i => t.partSpan (rows.1 + i) cols.1 cols.2) ++ scales

/-- The directory entries and run words of a run-length operand, read once for an MMA, the block rows shared among the spars of
`places` (R257). -/
def dirFeeds (R : Reads) (t : Tensor) (side : Nat) (places : List Nat) : List FeedReq :=
  if !t.rl then []
  else (List.range (ceilDiv t.d1 8)).flatMap fun br =>
    feedPieces side (places.getD (br % places.length) 0) 0 (t.dirSpan br 0 0 ++ t.runSpan (blockRow R t br 0 0))

/-- The spars in the first n place of an arrangement, whose A feeders fetch (R237), and all of them. -/
def fetchers (rig : Nat) : List Nat := (List.range (rigK rig)).map (· * rigN rig)
def allSpars (rig : Nat) : List Nat := List.range (rigK rig * rigN rig)

/-- The slabs of an M block in one plane, in the order of the stream, each with its scales: one for each row and range of k, of
rows that are not OUT (R237, R238); for TA 1 the stored rows run along m (R241); of a sparse A what it stores there (R257,
R265). With `first`, the entries that resolve a row come before its first slab (R238). -/
def slabs (R : Reads) (o : MArgs) (a : Operand) (m : Nat × Nat) (first : Bool) (plane : List (Nat × Nat)) :
    List (List (Nat × Nat)) :=
  if a.t.layout ≠ 0 then (joinRanges plane).map fun k => if o.ta then storedParts R a.t k m else storedParts R a.t m k
  else
    let slab := fun p e0 n => match a.row R p with
      | some r => a.t.partSpan r e0 n ++ a.t.partScales r e0 n
      | none => []
    if o.ta then plane.flatMap fun k => (List.range k.2).map fun i => slab (k.1 + i) m.1 m.2
    else ((joinRanges plane).zipIdx).flatMap fun k => (List.range m.2).map fun i =>
      (if first && k.2 == 0 then a.entrySpans R (m.1 + i) else []) ++ slab (m.1 + i) k.1.1 k.1.2

/-- The requests of feeder A for an M block of a pass; slab i goes to k place i mod the k places (R237). -/
def feedsA (R : Reads) (o : MArgs) (a : Operand) (pair : Nat) (m : Nat × Nat) (first : Bool) (ps : List (List (Nat × Nat))) :
    List FeedReq :=
  let l := ((ps.zipIdx).flatMap fun p => slabs R o a m (first && p.2 == 0) p.1).filter (· ≠ [])
  ((l.zipIdx).flatMap fun x => feedPieces 0 (x.2 % rigK o.rig.val * rigN o.rig.val) pair x.1).dedup

/-- The part of a plane that the spar at a k place holds: its share of the plane's depth. -/
def sparPart (o : MArgs) (kPlace : Nat) (plane : List (Nat × Nat)) : List (Nat × Nat) :=
  let d := ((plane.map (·.2)).sum + rigK o.rig.val - 1) / rigK o.rig.val
  let cut := fun (x : (Nat × Nat) × Nat) =>
    let lo := Nat.max x.2 (kPlace * d)
    let hi := Nat.min (x.2 + x.1.2) ((kPlace + 1) * d)
    (x.1.1 + (lo - x.2), hi - lo)
  let starts := (plane.foldl (fun (acc : List Nat × Nat) x => (acc.1 ++ [acc.2], acc.2 + x.2)) ([], 0)).1
  ((plane.zip starts).map cut).filter fun x => x.2 != 0

/-- The requests of feeder B of one spar for an N tile (R239): its 32 columns, its share of each plane, in requests of 256 bytes
where the bytes lie together (log entry 151). -/
def feedsB (R : Reads) (o : MArgs) (b : Operand) (tile : Nat × Nat) (ps : List (List (Nat × Nat)))
    (kPlace nPlace : Nat) : List FeedReq :=
  let n0 := tile.1 + 32 * nPlace
  let w := Nat.min 32 (tile.1 + tile.2 - n0)
  let spans := if w = 0 then [] else ps.flatMap fun p => joinRanges ((sparPart o kPlace p).flatMap fun k =>
    if o.tb then storedParts R b.t (n0, w) k else storedParts R b.t k (n0, w))
  feedPieces 1 (kPlace * rigN o.rig.val + nPlace) 0 spans.dedup

/-- Bytes of a list of requests. -/
def feedBytes (l : List FeedReq) : Nat := (l.map (·.bytes)).sum

/-- The requests of every feeder B for an N tile, and those that are read again for each M block because the planes of
the tile exceed the 16 KiB of a feeder (R239). -/
def tileFeedsB (R : Reads) (o : MArgs) (b : Operand) (tile : Nat × Nat) (ps : List (List (Nat × Nat))) :
    List FeedReq × List FeedReq :=
  let each := (List.range (rigK o.rig.val * rigN o.rig.val)).map fun i =>
    feedsB R o b tile ps (i / rigN o.rig.val) (i % rigN o.rig.val)
  ((each.filter fun l => decide (feedBytes l ≤ 16384)).flatten, (each.filter fun l => !decide (feedBytes l ≤ 16384)).flatten)

/-- The accesses of the drain to a part of a C row from byte `off` on, in pieces. -/
def rowPieces (side pair pos : Nat) : Nat → List (Nat × Nat) → List FeedReq
  | _, [] => []
  | off, x :: r =>
    ((cutRange x.1 x.2 256).map fun y =>
      { side := side, spar := 0, pair := pair, pos := pos, off := off + (y.1 - x.1), addr := y.1, bytes := y.2 : FeedReq }) ++
      rowPieces side pair pos (off + x.2) r

/-- The reads and writes of the drain: each C row of an M block once for each N tile, in ascending position; with ACC it is
read first; a row that is OUT is discarded (R131, R242). With `first`, the entries that resolve the row come first. -/
def drainFeeds (R : Reads) (o : MArgs) (cc : Operand) (pair : Nat) (first : Bool) (tile m : Nat × Nat) : List FeedReq :=
  (List.range m.2).flatMap fun i =>
    let p := m.1 + i
    (if first then rowPieces 3 pair p (2 ^ 40) (cc.entrySpans R p) else []) ++
      match cc.row R p with
      | some r =>
        let l := cc.t.partSpan r tile.1 tile.2
        let off := tile.1 * (elemBits cc.t.format / 8)
        (if o.acc then rowPieces 3 pair p off l else []) ++ rowPieces 2 pair p off l
      | none => []

/-- The whole N tiles of which every 32-column group is set in the copied mask (R270). -/
def skippedTiles (rig N : Nat) (mask : List Bool) : List Nat :=
  let w := rigWidth rig
  (List.range (N / w)).filter fun j => (List.range (w / 32)).all fun i => mask.getD (j * (w / 32) + i) false

/-- The passes of an MMA (R272): in each the tile that the spars stream, if one is left, and the skipped tiles whose columns the check
lanes finish, each after eight passes (R271). -/
def passes (tiles : List (Nat × Nat)) (skipped : List Nat) : List (List (Nat × Nat)) :=
  let kept := ((tiles.zipIdx).filter fun x => !skipped.contains x.2).map (·.1)
  let left := ((tiles.zipIdx).filter fun x => skipped.contains x.2).map (·.1)
  (List.range (Nat.max kept.length (8 * left.length))).map fun i =>
    (kept[i]?).toList ++ if i % 8 = 7 then (left[i / 8]?).toList else []

/-- The tile whose planes the A stream of a pass follows: the one it streams or finishes, else the one under way on the check
lanes. -/
def passTile (tiles : List (Nat × Nat)) (skipped : List Nat) (i : Nat) (p : List (Nat × Nat)) : Nat × Nat :=
  match p with
  | x :: _ => x
  | [] => ((((tiles.zipIdx).filter fun x => skipped.contains x.2).map (·.1))[i / 8]?).getD (0, 0)

/-- The same piece of the drain. -/
def samePiece (x f : FeedReq) : Bool := x.pair == f.pair && x.pos == f.pos && x.off == f.off

/-- A request of the drain that an earlier grant has neither finished nor left under way (R247). -/
def undrained (q : TensorOp) (f : FeedReq) : Bool :=
  !(q.drained.any fun x => samePiece x.1 f) && !q.reading.any fun x => x.2.side == 2 && samePiece x.2 f

/-- Everything that the feeders and the drain of an MMA issue in one pass: for each M block its operands, then the drain of its
columns. A pair whose rows an earlier grant has written is left out (R247). -/
def passFeeds (R : Reads) (q : TensorOp) (o : MArgs) (cc a b : Operand) (i : Nat) (p : List (Nat × Nat)) : List FeedReq :=
  let tiles := nTiles o b
  let skipped := skippedTiles o.rig.val (mmaN o b) q.mask
  let stream := passTile tiles skipped i p
  let planesOf := fun tile => planes R o a b tile
  let ps := if o.spb.val = 1 then ((stream :: p).dedup.flatMap planesOf).dedup else planesOf stream
  let ms := mBlocks o a
  let fb := p.map fun tile => tileFeedsB R o b tile (planesOf tile)
  let blocks := (ms.zipIdx).filterMap fun m =>
    let pair := i * ms.length + m.2
    let d := p.flatMap fun tile => drainFeeds R o cc pair (i == 0) tile m.1
    if d ≠ [] ∧ d.all fun f => f.side != 2 || !undrained q f then none
    else some (m.1, pair, d.filter (undrained q))
  let at_ := fun (l : List FeedReq) pair => l.map fun f => { f with pair := pair }
  (match blocks with
    | [] => []
    | x :: _ => at_ (fb.flatMap (·.1)) x.2.1) ++
    blocks.flatMap fun x => at_ (fb.flatMap (·.2)) x.2.1 ++ feedsA R o a x.2.1 x.1 (i == 0) ps ++ x.2.2

/-- Everything that the feeders and the drain of an MMA issue, in order: passes over the N tiles outermost, then M blocks, then
planes (R244, R272). -/
def mmaFeeds (R : Reads) (q : TensorOp) (o : MArgs) (cc a b : Operand) : List FeedReq :=
  dirFeeds R a.t 0 (fetchers o.rig.val) ++ dirFeeds R b.t 1 (allSpars o.rig.val) ++
    ((passes (nTiles o b) (skippedTiles o.rig.val (mmaN o b) q.mask)).zipIdx).flatMap fun x => passFeeds R q o cc a b x.2 x.1

/-! ### The time of an MMA (R244, R267, R272) -/

/-- c of R244: beats of a row segment (R225), 2 as well for an MX operand whose dimension 0 does not run along k (R241). -/
def segmentBeats (o : MArgs) : Nat :=
  if o.fmta.val ≤ 1 ∨ (4 ≤ o.fmta.val ∧ (o.ta ∨ !o.tb)) then 2 else 1

/-- Rows of an M block that are streamed through a plane: with SPA 1 those of its live row groups (R266). -/
def streamedRows (R : Reads) (o : MArgs) (a : Operand) (m : Nat × Nat) (plane : List (Nat × Nat)) : Nat :=
  if o.spa.val ≠ 1 then m.2
  else
    ((cutRange m.1 m.2 8).filter fun rg => plane.any fun k =>
      if o.ta then blockMeets R a.t k rg else blockMeets R a.t rg k).foldl (fun n rg => n + rg.2) 0

/-- A tile with a pattern fault lies in the stored rows and elements (R262, R263). -/
def faultyTile (R : Reads) (t : Tensor) (columns : Bool) (rows cols : Nat × Nat) : Bool :=
  t.s24 &&
    (List.range (t.d1 / 4)).any fun tr => rangesTouch (4 * tr, 4) rows &&
      let bs := readSpans R (t.tileSpan tr 0 0)
      (List.range (t.d0 / 4)).any fun k => rangesTouch (4 * k, 4) cols && tileFaulty (tileMask t bs k) columns

/-- A plane that holds a tile with a pattern fault is streamed as two (R262, R267). -/
def planeFaulty (R : Reads) (o : MArgs) (a b : Operand) (tile m : Nat × Nat) (plane : List (Nat × Nat)) : Bool :=
  plane.any fun k =>
    (if o.ta then faultyTile R a.t true k m else faultyTile R a.t false m k) ||
      (if o.tb then faultyTile R b.t false tile k else faultyTile R b.t true k tile)

/-- compute(N tile, M block) of R267. -/
def computeBeats (R : Reads) (o : MArgs) (a b : Operand) (tile m : Nat × Nat) : Nat :=
  ((planes R o a b tile).map fun p =>
    let beats := Nat.max (segmentBeats o * streamedRows R o a m p) 32
    if planeFaulty R o a b tile m p then 2 * beats else beats).sum

/-- The passes of R244 over M blocks of an N tile: the beats so far and the drain of the block before. -/
def tileBeats (R : Reads) (o : MArgs) (cc a b : Operand) (tile : Nat × Nat) (x : Nat × Nat) : Nat × Nat :=
  (mBlocks o a).foldl
    (fun y m => (y.1 + Nat.max (computeBeats R o a b tile m) y.2,
      m.2 * ceilDiv (tile.2 * (elemBits cc.t.format / 8)) 256)) x

/-- busy(M, K, N, fmt, RIG, bytesC) of R244, with the compute term of R267 and the passes of R272, in two parts: the load of the
first plane and the stream, and the latency and last drain. `load` is what is left of the load: 32 for a fresh grant (R234);
`skipped` names the N tiles that are left to the check lanes. -/
def busyBeats (R : Reads) (o : MArgs) (cc a b : Operand) (load : Nat) (skipped : List Nat) : Nat × Nat :=
  let tiles := nTiles o b
  let x := ((passes tiles skipped).zipIdx).foldl (fun x p => tileBeats R o cc a b (passTile tiles skipped p.2 p.1) x) (load, 0)
  (x.1, 16 + 2 * o.rig.val + x.2)

end Sys2Proof.Machine
end

