-- ==== Sys2Proof/Machine/Spars.lean ====
section
/-! DEFINITION. MMA, the block arbiter and the predictor (08 R225 to R250; 09 R261 to R275; 10 R289, R290). The grant of an
MMA and its completion are events; between them its feeders and its drain make their requests (log entries 15, 17). -/

namespace Sys2Proof.Machine

open Sys2Proof

/-! ### The block arbiter (R230 to R236) -/

/-- RIG of an MMA. -/
def opRig (q : TensorOp) : Nat :=
  match q.kind with
  | .mma o _ => o.rig.val
  | _ => 0

/-- The spars that an MMA needs (R230, R232): the first and their number; both of the cell for RIG 0. -/
def sparGroup (rig cell : Nat) : Nat × Nat :=
  let n := if rig = 0 then 2 else 2 ^ rig
  (2 * (cell % 8) / n * n, n)

/-- Two ranges of spars share one. -/
def sparsMeet (a b : Nat × Nat) : Bool := decide (a.1 < b.1 + b.2) && decide (b.1 < a.1 + a.2)

/-- When an MMA was presented first: its age. -/
def presentedAt (q : TensorOp) : Option Nat :=
  match q.stage with
  | .presented t _ => some t
  | _ => none

/-- A cell presents its next MMA when it has none presented (R231). -/
def presentNext (s : State) (L cell : Nat) : State :=
  let own := s.ops.filter fun q => q.region == L && q.cell == cell
  if own.any fun q => (presentedAt q).isSome then s
  else
    match own.find? fun q => q.stage == .queued with
    | some q => setOp s { q with stage := .presented (now s) (now s) }
    | none => s

/-- MMA (R137, R138, R231): pending from its issue, presented in its turn. RIG 4 and MXFP4 are absent on grade S, where
lowering refuses them (R3, Table 3.7). -/
def startMma (t : ThreadId) (k : Common) (o : MArgs) (s : State) : State :=
  let q := newOp s t (.mma o k.tag) o.dc o.da o.db 0 .queued
  presentNext (addOp s q) q.region q.cell

def execMma (t : ThreadId) (k : Common) (o : MArgs) (s : State) : Host.Outcome State Fault Refusal :=
  if s.part.grade = .S ∧ (o.rig.val = 4 ∨ o.fmta.val = 6) ∧ canIssue s t then .refused .staticallyIllegal
  else tensorWord (.mma t k o) t k (startMma t k o) s

/-- Older of two presented MMAs (R232). -/
def olderMma (p q : TensorOp) : Bool :=
  match presentedAt p, presentedAt q with
  | some a, some b =>
    decide (a < b ∨ (a = b ∧ (p.cell < q.cell ∨ (p.cell = q.cell ∧ (p.t.group < q.t.group ∨
      (p.t.group = q.t.group ∧ p.t.thread < q.t.thread))))))
  | _, _ => false

/-- No older presented MMA of the block needs any of these spars. -/
def noOlder (s : State) (q : TensorOp) (g : Nat × Nat) : Bool :=
  (blockOps s q.region (q.cell / 8)).all fun p => !(olderMma p q && sparsMeet (sparGroup (opRig p) p.cell) g)

/-- No granted MMA of the block holds any of these spars. -/
def sparsFree (s : State) (q : TensorOp) (g : Nat × Nat) : Bool :=
  (blockOps s q.region (q.cell / 8)).all fun p =>
    match heldSpars p with
    | some (h, _) => !sparsMeet h g
    | none => true

/-- The MMA granted last on exactly these spars. -/
def lastHolder (s : State) (q : TensorOp) (g : Nat × Nat) : Option TensorOp :=
  ((blockOps s q.region (q.cell / 8)).filter fun p => (heldSpars p).any (fun h => h.1 == g)).foldl
    (fun a p => match a with
      | some x => if ((heldSpars x).map (·.2)).getD 0 ≤ ((heldSpars p).map (·.2)).getD 0 then some p else some x
      | none => some p) none

/-- A holder of the same cell with the same RIG, which a follow-on may follow (R234). -/
def mayFollow (q : TensorOp) (h : Option TensorOp) : Bool :=
  match h with
  | some p => p.cell == q.cell && opRig p == opRig q
  | none => false

/-- The spars a presented MMA is granted now, fresh (R232) or as a follow-on (R234). -/
def grantOf (s : State) (q : TensorOp) : Option (Nat × Nat) :=
  let g := sparGroup (opRig q) q.cell
  if opRig q ≠ 0 then
    if noOlder s q g ∧ (sparsFree s q g ∨ mayFollow q (lastHolder s q g)) then some g else none
  else
    let a := (g.1, 1)
    let b := (g.1 + 1, 1)
    if sparsFree s q a ∧ noOlder s q a then some a
    else if sparsFree s q b ∧ noOlder s q b then some b
    else if sparsFree s q a ∨ sparsFree s q b then none
    else
      let ta : Nat := (((lastHolder s q a).bind heldSpars).map (·.2)).getD 0
      let tb : Nat := (((lastHolder s q b).bind heldSpars).map (·.2)).getD 0
      let fa := mayFollow q (lastHolder s q a) && noOlder s q a
      let fb := mayFollow q (lastHolder s q b) && noOlder s q b
      if fa ∧ (!fb ∨ ta ≤ tb) then some a else if fb then some b else none

/-- Cell positions of a region that have retired without a spare spliced yet (R31, Table 8.2). -/
def unspliced (s : State) (L pos : Nat) : Bool :=
  (regionOf s L).retiring.contains pos ||
    (match physOfLogical s L with
     | some p => (physOf s p).retired.any fun e => e.1 == pos && e.2.isNone
     | none => false)

/-- A rig that includes an unspliced position is not granted (R31). -/
def rigWhole (s : State) (q : TensorOp) : Bool :=
  let g := sparGroup (opRig q) q.cell
  (List.range 8).all fun c => !(sparsMeet (2 * c, 2) g && unspliced s q.region (q.cell / 8 * 8 + c))

/-- WINDOW and BASE of the descriptor that keys the predictor. -/
def predKey (q : TensorOp) (tag : BitVec 12) (e : PredEntry) : Bool :=
  e.ctx == q.t.ctx && e.tag == tag && e.window == fieldAt q.d3 4 1 && e.base == fieldAt q.d3 8 8

def blockState (s : State) (L b : Nat) : BlockState := mget BlockState.zero (regionOf s L).blocks b

def modBlock (s : State) (L b : Nat) (f : BlockState → BlockState) : State :=
  modRegion s L fun R => { R with blocks := mmod BlockState.zero R.blocks b f }

/-- The mask copied at the grant of an MMA with SKIP and a tag (R269, R270). -/
def copiedMask (s : State) (q : TensorOp) : List Bool :=
  match q.kind with
  | .mma o tag =>
    if o.skip ∧ tag ≠ 0 then
      match (blockState s q.region (q.cell / 8)).predictor.find? (predKey q tag) with
      | some e => e.mask
      | none => []
    else []
  | _ => []

/-- The wait of a presented MMA, added to WAIT_US and to the stall cause rig wait (R236, Table 17.4). -/
def countRigWait (s : State) (q : TensorOp) (since : Nat) : State :=
  let s := modBlock s q.region (q.cell / 8) fun b => { b with waitNs := b.waitNs + (now s - since) }
  match physOfLogical s q.region with
  | some p => addStall s p 6 (now s - since)
  | none => s

/-- An operation is withdrawn: the time that it has waited ungranted counts (R236). -/
def withdrawWait (s : State) (q : TensorOp) : State :=
  match q.stage with
  | .presented _ since => countRigWait s q since
  | _ => s

/-- Operations that satisfy a test are withdrawn. -/
def dropOps (s : State) (p : TensorOp → Bool) : State :=
  let s := (s.ops.filter p).foldl withdrawWait s
  { s with ops := s.ops.filter fun q => !p q }

/-! ### Checks -/

/-- An MMA that is dynamically inconsistent (R98, R126, R133, R255, R256). -/
def mmaInconsistent (s : State) (q : TensorOp) (o : MArgs) (cc a b : Operand) : Bool :=
  let c := q.t.ctx
  let g := q.t.group
  let R := winReads s c g
  !mmaShapes o cc a b || a.inconsistent R a.rows || b.inconsistent R b.rows ||
    rangesMeet (deviceRanges s c g .write (cc.spans R cc.rows)) (deviceRanges s c g .read (a.spans R a.rows ++ b.spans R b.rows))

/-! ### Pattern faults and the predictor (R261 to R263, R269 to R275) -/

/-- Tiles of a 2:4 operand with a pattern fault, when the groups run along its columns or its rows. -/
def patternFaults (R : Reads) (t : Tensor) (columns : Bool) : Nat :=
  if !t.s24 then 0
  else
    ((List.range (t.d1 / 4)).map fun tr =>
      let bs := readSpans R (t.tileSpan tr 0 0)
      ((List.range (t.d0 / 4)).filter fun k => tileFaulty (tileMask t bs k) columns).length).sum

/-- Pattern faults counted, the first reported (R262, Table 15.9). -/
def countPattern (s : State) (c n : Nat) : State :=
  if n = 0 then s
  else ctxEventOnce (modCtx s c fun x => { x with patternFaults := satAdd 0xFFFF x.patternFaults n }) c 0x02 0

/-- A value of C that is −∞, −0, +0 or negative (R273). -/
def notPositive (fmt x : Nat) : Bool :=
  match elemValue fmt x with
  | .nan => false
  | .inf neg => neg
  | .fin neg m _ => neg || m == 0

/-- The values of C that an operation has written, with their columns. -/
def valuesWritten (fmt : Nat) (l : List (FeedReq × List Byte)) : List (Nat × Nat) :=
  let w := elemBits fmt / 8
  l.flatMap fun x => ((unpack fmt x.2 (x.2.length / w)).zipIdx).map fun e => (x.1.off / w + e.2, e.1)

/-- observed[g] of R273, over the values written. -/
def observedMask (fmt N : Nat) (vs : List (Nat × Nat)) : List Bool :=
  (List.range (ceilDiv (Nat.min N 4096) 32)).map fun g => vs.all fun x => x.1 / 32 != g || notPositive fmt x.2

/-- A skipped tile held a positive value or a NaN (R273). -/
def skipMissed (fmt rig : Nat) (tiles : List Nat) (vs : List (Nat × Nat)) : Bool :=
  vs.any fun x => tiles.contains (x.1 / rigWidth rig) && !notPositive fmt x.2

/-- The predictor of a block after a write at an instant: the entry least recently written makes room. At equal instants
the MMA of the lower cell, group and thread comes first, so what a later one has written stands (R273). -/
def predWrite (q : TensorOp) (tag : BitVec 12) (mask : List Bool) (t : Nat) (l : List PredEntry) : List PredEntry :=
  if l.any fun e => predKey q tag e && e.at_ == t && threadBefore q.t e.by_ then l
  else
    let rest := l.filter fun e => !predKey q tag e
    (if rest.length < 32 then rest else rest.drop 1) ++
      [{ ctx := q.t.ctx, tag := tag, window := fieldAt q.d3 4 1, base := fieldAt q.d3 8 8, mask := mask, at_ := t,
         by_ := q.t }]

/-- The predictor after the last C write (R273, PREDICTOR_UPDATE); the counts of Table 9.6. -/
def predictorUpdate (s : State) (q : TensorOp) (o : MArgs) (tag : BitVec 12) (fmt N : Nat) : State :=
  if tag = 0 then s
  else
    let rows := valuesWritten fmt q.drained
    let miss := skipMissed fmt o.rig.val (skippedTiles o.rig.val N q.mask) rows
    let s := modCtx s q.t.ctx fun x => { x with skipMisses := if miss then satAdd 0xFFFF x.skipMisses 1 else x.skipMisses }
    modBlock s q.region (q.cell / 8) fun b =>
      { b with predictor := predWrite q tag (if miss then [] else observedMask fmt N rows) (now s) b.predictor }

/-- What the first grant of an MMA counts: pattern faults once for each faulted tile that it reads (PATTERN_FAULT, R262), and
the N tiles left off its spars (R270, Table 9.6). -/
def grantCounts (s : State) (q : TensorOp) : State :=
  match q.kind with
  | .mma o _ =>
    match mmaOperands q o with
    | some (cc, a, b) =>
      if q.counted ∨ mmaInconsistent s q o cc a b then s
      else
        let c := q.t.ctx
        let R := winReads s c q.t.group
        let s := modCtx s c fun x =>
          { x with tilesSkipped := (x.tilesSkipped + (skippedTiles o.rig.val (mmaN o b) q.mask).length) % 2 ^ 32 }
        countPattern s c (patternFaults R a.t o.ta + patternFaults R b.t (!o.tb))
    | none => s
  | _ => s

/-- A granted MMA with what its feeders and its drain will issue, as the entries and directories stand at its grant (log entry 15);
the results of an inconsistent MMA are undefined, and it issues nothing that the spec states (R98, R237 to R242). -/
def planMma (s : State) (q : TensorOp) : TensorOp :=
  match q.kind with
  | .mma o _ =>
    match mmaOperands q o with
    | some (cc, a, b) =>
      if mmaInconsistent s q o cc a b then { q with tainted := true }
      else { q with feeds := mmaFeeds (winReads s q.t.ctx q.t.group) q o cc a b }
    | none => { q with tainted := true }
  | _ => q

/-- MMA_GRANT (R231 to R236, R249, R270): the presented MMA gets its spars, and its cell presents its next. -/
def execMmaGrant (op : Nat) (s : State) : Host.Outcome State Fault Refusal :=
  match findOp s op with
  | none => notNow s
  | some q =>
    match q.stage with
    | .presented at_ since =>
      if (ctxOf s q.t.ctx).state ≠ .running ∨ !opRuns s q ∨ (regionOf s q.region).exchange.isSome ∨ !rigWhole s q ∨
          q.awaits ≠ [] then
        notNow s
      else
        match grantOf s q with
        | none => notNow s
        | some g =>
          let s := countRigWait s q since
          let q' := planMma s
            { q with stage := .granted g.1 g.2 (now s) at_, mask := copiedMask s q, fedAt := now s, startAt := now s
                     loadBeats := 32, wins := opWindows s q }
          let s := setOp (grantCounts s q') { q' with counted := true }
          .next (issueFeeds (presentNext s q.region q.cell) op q'.feeds.length)
    | _ => notNow s

/-- What an MMA leaves besides the requests of its feeders and drain: the index faults of rows that were OUT and of the sparse
forms (R131, R255, R263). -/
def mmaFaults (q : TensorOp) (cc a b : Operand) : Nat :=
  let R := fedReads q.fed
  let outs := fun (o : Operand) => ((o.rowList R o.rows).filter (·.isNone)).length
  outs a + outs b + outs cc + a.sparseFaults R a.rows + b.sparseFaults R b.rows

/-- What the completion of an MMA adds to the C rows that its drain has written: the faults that it counts, and the predictor
(R131, R273). -/
def mmaEffect (q : TensorOp) (o : MArgs) (tag : BitVec 12) (s : State) : State :=
  match mmaOperands q o with
  | none => undefinedEffect s q.t.ctx
  | some (cc, a, b) =>
    predictorUpdate (addIndexFaults s q.t.ctx (mmaFaults q cc a b)) q o tag cc.t.format (mmaN o b)

/-- MMAs on the same spars run in grant order (R235). -/
def firstOnSpars (s : State) (q : TensorOp) : Bool :=
  match heldSpars q with
  | some (h, t) =>
    (blockOps s q.region (q.cell / 8)).all fun p =>
      match heldSpars p with
      | some (h', t') => p.id == q.id || !sparsMeet h h' || decide (t < t' ∨ (t = t' ∧ q.id < p.id))
      | none => true
  | none => false

/-- Every request of an MMA's feeders and drain has ended. -/
def feedsEnded (s : State) (q : TensorOp) : Bool :=
  q.feeds == [] && s.requests.all fun r => match r.origin with
    | .feeder o _ _ _ _ _ => o != q.id
    | _ => true

/-- Pace of a physical region in M beats/s: the last that its Burner saw, and never below the guarantee corner. -/
def beatRate (s : State) (p : Nat) : Nat := Nat.max 1250 (physOf s p).paceNow

/-- Device time of a number of beats in a physical region, rounded up. -/
def beatsNs (s : State) (p beats : Nat) : Nat := ceilDiv (beats * 1000) (beatRate s p)

/-- The beats of an MMA on its spars: load and stream, and latency and last drain. -/
def mmaBeats (q : TensorOp) : Nat × Nat :=
  match q.kind with
  | .mma o _ =>
    match mmaOperands q o with
    | some (cc, a, b) => busyBeats (fedReads q.fed) o cc a b q.loadBeats (skippedTiles o.rig.val (mmaN o b) q.mask)
    | none => (0, 0)
  | _ => (0, 0)

/-- What an MMA's time on its spars counts: its beats on each spar as activity of its region (Table 17.7), and under operand
wait, for each of its spars, what its last operand came later than its stream was to take it (R240, R244, R475; log
entry 126). -/
def countMma (s : State) (q : TensorOp) (o : MArgs) : State :=
  match heldSpars q, physOfLogical s q.region with
  | some ((_, n), _), some p =>
    if q.tainted ∧ q.fed = [] then s
    else
      let beats := mmaBeats q
      let s := countAct s (.region p) (some q.t.ctx) (.spar o.fmta.val) ((beats.1 + beats.2) * n)
      addStall s p 5 ((q.fedAt - q.startAt - beatsNs s p beats.1) * n)
  | _, _ => s

/-- The holder's last row segment has passed: its follow-on streams from then, after what is left of its plane load (R234; log
entry 126). -/
def startFollow (s : State) (h : TensorOp) : State :=
  match heldSpars h, physOfLogical s h.region with
  | some (g, _), some p =>
    let last := now s - beatsNs s p (mmaBeats h).2
    { s with
      ops := s.ops.map fun q => match heldSpars q with
        | some (g', t) =>
          if q.region = h.region ∧ q.cell / 8 = h.cell / 8 ∧ g' = g ∧ q.id ≠ h.id ∧ q.startAt = t then
            { q with startAt := Nat.max t last, loadBeats := 32 - Nat.min 32 ((last - t) * beatRate s p / 1000) }
          else q
        | none => q }
  | _, _ => s

/-- MMA_COMPLETE (R233, R235, R243): the last C write completes and the spars are released. -/
def execMmaComplete (op : Nat) (s : State) : Host.Outcome State Fault Refusal :=
  match findOp s op with
  | none => notNow s
  | some q =>
    match q.kind with
    | .mma o tag =>
      if !firstOnSpars s q ∨ !opRuns s q ∨ !rigWhole s q ∨ !feedsEnded s q then notNow s
      else .next (completeOp (startFollow (countMma s q o) q) q (mmaEffect q o tag))
    | _ => notNow s

end Sys2Proof.Machine
end

