-- ==== Sys2Proof/Machine/Contexts.lean ====
section
/-! DEFINITION. The commands that make, load, start, stop and destroy a context (03 R88 to R106; 15 R420, R421), a drain and its
end, and the stop of every item of a context (03 R91; 05 R169; 06 R195; 07 R223; 08 R249; 11 R327; 13 R373). -/

namespace Sys2Proof.Machine

open Sys2Proof

/-! ### Commands at work -/

/-- The accepted command that an event names, when it has an opcode and its work has not ended. -/
def runningCmd (s : State) (cmd op : Nat) : Option Cmd :=
  match findCmd s cmd with
  | some c => if c.stage = .accepted ∧ c.opcode = op then some c else none
  | none => none

/-- A command of an opcode does its work, or is not at work (log entry 8). -/
def atCmd (s : State) (cmd op : Nat) (f : Cmd → State) : Host.Outcome State Fault Refusal :=
  match runningCmd s cmd op with
  | some c => .next (chargeWork s (f c) c.id)
  | none => notNow s

/-- NOP (Table 15.8). -/
def execNopCommand (cmd : Nat) (s : State) : Host.Outcome State Fault Refusal :=
  atCmd s cmd 0 fun c => endCmd s c stOk 0 0

/-! ### Memory that a function holds (R93, R420) -/

/-- Every 2 MiB unit of a range lies in allocations of a tier of a function. -/
def inAllocs (s : State) (fn tier a n : Nat) : Bool :=
  (List.range ((a + n - 1) / 2097152 - a / 2097152 + 1)).all fun i =>
    let u := a / 2097152 + i
    s.allocs.any fun x => x.tier == tier && x.fn == fn && decide (x.base / 2097152 ≤ u ∧ u < x.base / 2097152 + x.units)

/-- Every MiB of a range of T0 is T0 of a cell of some blocks. -/
def inBlocks (blocks : List (Nat × Nat)) (a n : Nat) : Bool :=
  (List.range ((a + n - 1) / 1048576 - a / 1048576 + 1)).all fun i =>
    let x := (a / 1048576 + i) * 1048576
    decide (addrCell x < 160) && blocks.contains (addrRegion x, addrCell x / 8)

/-- Blocks of every context of a function. -/
def fnBlocks (s : State) (fn : Nat) : List (Nat × Nat) :=
  s.contexts.flatMap fun e => if e.2.fn = fn ∧ e.2.state ≠ .empty then e.2.blocks else []

/-- No bit of an address that Table 13.2 does not name in T2, T1 or T0 is set, and no field has an unlisted value (R343). -/
def namedBits (space a : Nat) : Bool :=
  match space with
  | 0 => true
  | 1 => bits a 40 34 == 0 && decide (bits a 33 29 ≤ 17)
  | 2 => bits a 40 34 == 0 && bits a 28 28 == 0 && decide (bits a 33 29 ≤ 15 ∧ bits a 27 20 < 160)
  | _ => false

/-- An address of this device, or of a peer as this device names it, that Table 13.2 lists. -/
def listedAddr (a : Nat) : Bool :=
  match spaceOf a with
  | 4 => bits a 51 51 == 0 && bits a 43 41 == 0 && namedBits (bits a 47 44) (a % 2 ^ 41)
  | 5 => bits a 50 48 == 0
  | k => bits a 51 41 == 0 && namedBits k (a % 2 ^ 41)

/-- The ends of a range lie in one space, and on one peer in one inner space (R93). -/
def oneSpace (a n : Nat) : Bool :=
  let e := a + n - 1
  decide (0 < n ∧ a < 2 ^ 56 ∧ spaceOf e = spaceOf a) && (spaceOf a != 4 || bits e 51 41 == bits a 51 41)

/-- A range of unified addresses that a function holds; `blocks`: the T0 it may name. -/
def holdsRange (s : State) (fn : Nat) (blocks : List (Nat × Nat)) (a n : Nat) : Bool :=
  oneSpace a n && listedAddr a && listedAddr (a + n - 1) &&
    match spaceOf a with
    | 0 => inAllocs s fn 0 a n
    | 1 => inAllocs s fn 1 a n
    | 2 => inBlocks blocks a n
    | 4 => Config.peerAllocated s.freeCounter fn a n
    | 5 => bitOf a 51 == bitOf (a + n - 1) 51
    | _ => false

/-! ### CREATE and DESTROY -/

/-- Logical regions that a grade has. -/
def gradeRegions (s : State) : Nat := activeCount s.part.grade

/-- Most blocks of a context (R88). -/
def maxBlocks (s : State) : Nat := 20 * gradeRegions s

/-- The blocks that CREATE names, in the order of its list. -/
def namedBlocks (s : State) (c : Cmd) : List (Nat × Nat) :=
  (List.range (c.field 8 2)).map fun i =>
    let e := leNat (hostRead s c.fn (c.field 0x10 8 + 2 * i) 2)
    (e / 32, e % 32)

/-- Blocks in cell order (R89). -/
def inCellOrder (l : List (Nat × Nat)) : List (Nat × Nat) :=
  l.mergeSort fun a b => decide (a.1 * 32 + a.2 ≤ b.1 * 32 + b.2)

/-- The lowest free context. -/
def freeContext (s : State) : Option Nat := (List.range 64).find? fun c => (ctxOf s c).state == .empty

/-- The aperture slot of a new context (R409): none for a virtual function that holds 48. -/
def newSlot (s : State) (fn : Nat) : Option Nat :=
  if fn < 16 then some 0xFF
  else (List.range 48).find? fun k => s.contexts.all fun e => e.2.state == .empty || e.2.fn != fn || e.2.slot != k

/-- The status and detail with which CREATE fails (R88, R414, R421, R444). -/
def createFault (s : State) (c : Cmd) (l : List (Nat × Nat)) : Option (Nat × Nat) :=
  if c.field 8 2 = 0 ∨ maxBlocks s < c.field 8 2 then some (stRejected, 8)
  else if l.any (fun b => decide (16 ≤ b.1 ∨ 20 ≤ b.2)) ∨ l.dedup.length ≠ l.length then some (stRejected, 0x10)
  else if l.any fun b => decide (gradeRegions s ≤ b.1) then some (stAbsent, 0x10)
  else if l.any fun b => (blockOwner s b.1 b.2).isSome || (regionOf s b.1).vacant then some (stDeferred, 0)
  else if (freeContext s).isNone ∨ (newSlot s c.fn).isNone then some (stRejected, 0xFF)
  else none

/-- The registers of a context's block return to their reset values. -/
def clearBlock (s : State) (ctx : Nat) : State :=
  { s with regs := s.regs.filter fun e => !decide (ctxBlock ctx ≤ e.1 ∧ e.1 < ctxBlock ctx + 0x4000) }

/-- CREATE's work. -/
def createCtx (s : State) (c : Cmd) : State :=
  let l := namedBlocks s c
  match createFault s c l with
  | some e => endCmd s c e.1 e.2 0
  | none =>
    let k := (freeContext s).getD 0
    let slot := (newSlot s c.fn).getD 0xFF
    let s := setCtx (clearBlock (disownActivity s k) k) k
      { Context.blank with state := .created, fn := c.fn, slot := slot, blocks := inCellOrder l }
    endCmd s c stOk 0 (k + slot * 256)

/-- CREATE (R88, R89, R409, R420, R421). -/
def execCreate (cmd : Nat) (s : State) : Host.Outcome State Fault Refusal := atCmd s cmd 1 (createCtx s)

/-- Every thread of a context ends as at HALT. -/
def endThreads (s : State) (ctx : Nat) : State :=
  { s with threads := s.threads.map fun e => if e.1.ctx = ctx then (e.1, e.2.halted) else e }

/-! ### Items of a context (R91, R417) -/

/-- KIND of the item record of a request of a context that is accepted and has not completed; a token, signal or DELAY has
completed once it is performed. -/
def requestItem (r : Request) : Option Nat :=
  match r.kind, r.stage with
  | _, .waiting => none
  | .token _ _, .accepted => some 1
  | .signal _ _ _, .accepted => some 2
  | .delay _ _, .accepted => some 3
  | .token _ _, _ => none
  | .signal _ _ _, _ => none
  | .delay _ _, _ => none
  | _, _ => some 8

/-- Items of a context that have been accepted and have not completed. -/
def itemCount (s : State) (ctx : Nat) : Nat :=
  (s.requests.filter fun r => r.ctx == ctx && (requestItem r).isSome).length +
    (s.logs.map fun e =>
      (e.2.reels.filter fun u => match u.2.running with
        | some r => r.job.ctx == ctx
        | none => false).length +
        (e.2.gatherJobs.filter fun j => j.ctx == ctx && j.accepted).length +
        (e.2.winch.filter fun w => w.ctx == ctx).length + (e.2.seqr.jobs.filter fun j => j.ctx == ctx).length).sum

/-- Requests of a context stop: each accepted one gets its item record, credits and tags are free (R91, R169). -/
def abortRequests (s : State) (ctx f q : Nat) : State :=
  (s.requests.filter fun r => r.ctx == ctx).foldl (fun s r =>
    let s := match requestItem r with
      | some k => itemRecord s f q k 0 r.accepted
      | none => s
    finishRequest s r) s

/-- A free choice, by use and position, of what a stopped item had already written (log entry 74). -/
def writtenYet (s : State) (i : Nat) : Bool := (Config.freeByte s.freeCounter i).getLsbD 0

/-- What an operation has been delivered, and elsewhere what its windows read now. -/
def restReads (s : State) (q : TensorOp) : Reads := fun ca n =>
  (List.range n).map fun i =>
    if q.fed.any fun e => decide (e.1 ≤ ca + i ∧ ca + i < e.1 + e.2.length) then fedByte q.fed (ca + i)
    else (winReads s q.t.ctx q.t.group (ca + i) 1).headD 0

/-- The pieces of row p of C that the drain of an MMA has not written. -/
def restOfRow (R : Reads) (q : TensorOp) (o : MArgs) (cc b : Operand) (p : Nat) : List FeedReq :=
  (nTiles o b).flatMap fun tile => (drainFeeds R o cc 0 false tile (p, 1)).filter fun f =>
    f.side == 2 && !q.drained.any fun x => x.1.pos == f.pos && x.1.off == f.off

/-- A granted MMA that is stopped leaves each row of C as it was or fully written (R249): a row of which something is written is
written to its end, and which others are is free (log entry 74). -/
def stopMma (s : State) (q : TensorOp) (o : MArgs) : State :=
  match mmaOperands q o with
  | none => s
  | some (cc, a, b) =>
    if q.tainted ∨ mmaInconsistent s q o cc a b then undefinedEffect s q.t.ctx
    else
      let R := restReads s q
      let rows := (List.range (mmaM o a)).filter fun p => (q.drained.any fun x => x.1.pos == p) || writtenYet s p
      (rows.flatMap (restOfRow R q o cc b)).foldl (fun t f =>
        winWrite t q.t.ctx (some q.t.group) f.addr (pieceData R o cc a b f)) s

/-- A position of a copy as a number. -/
def posIndex (p : Nat × Nat × Nat) : Nat := (p.1 * 2 ^ 32 + p.2.1) * 2 ^ 32 + p.2.2

/-- A copy or scatter-add that is stopped leaves each row as it was or fully written. -/
def stopCopy (s : State) (q : TensorOp) (formats overlap : Bool) (a b : Operand)
    (f : Nat → Nat → Option Nat → Option Nat → Nat × Nat × Nat → State → State) : State :=
  if q.tainted ∨ copyInconsistent s q formats overlap a b then undefinedEffect s q.t.ctx
  else copyEffect q a b (fun P seed r1 r2 pos t => if writtenYet s (posIndex pos) then f P seed r1 r2 pos t else t) s

/-- What a tensor operation has written when it is stopped, through the windows of its issue (R94). -/
def stopOp (s : State) (q : TensorOp) : State :=
  underWindows { s with freeCounter := s.freeCounter + 1 } q.t.ctx q.wins fun s =>
  match q.kind, q.stage with
  | .mma o _, .granted _ _ _ _ => stopMma s q o
  | .tcopy o, _ =>
    match copyOperands q o with
    | some (a, b) => stopCopy s q (copyFormats o a.t b.t) true a b (copyRow q o a b)
    | none => s
  | .tscadd o, _ =>
    match copyOperands q o with
    | some (a, b) => stopCopy s q (scaddFormats a.t b.t) false a b (scaddRow q o a b)
    | none => s
  | _, _ => s

/-- The tensor operations of a context stop; those that wait for a grant are withdrawn (R249). -/
def abortOps (s : State) (ctx : Nat) : State :=
  let l := s.ops.filter fun q => q.t.ctx == ctx
  dropOps (l.foldl stopOp s) fun q => q.t.ctx == ctx

/-- The jobs of a Reel queue that a context has submitted go; a head that waits for its rates gives its place up. -/
def dropQueued (s : State) (L r ctx : Nat) : State :=
  let u := reelUnit s L r
  let head := match u.running, u.queue with
    | none, j :: _ => j.ctx == ctx
    | _, _ => false
  let s := modReel s L r fun u => { u with queue := u.queue.filter fun j => j.ctx != ctx }
  if head then endTransfer s (.reel L r) else s

/-- An accepted Reel job stops: STATUS aborted, FLAGS 0, no token or signal (R195). -/
def abortReel (s : State) (L r ctx f q : Nat) : State :=
  match (reelUnit s L r).running with
  | none => s
  | some x =>
    if x.job.ctx ≠ ctx then s
    else
      let o : Origin := .reel L r
      let s := if x.tainted then s
        else underWindows s ctx x.wins fun s =>
          unitWrite (unitWrite s ctx o (ctxPlus x.desc.frame 4) (leBytes 2 stAborted)) ctx o (ctxPlus x.desc.frame 7) [0]
      let s := endTransfer (modReel s L r fun u => { u with running := none }) (.reel L r)
      itemRecord s f q 4 x.job.seq x.tAccept

/-- Gather jobs of a context that are taken and not accepted go (R223). -/
def dropTaken (s : State) (L ctx : Nat) : State :=
  ((regionOf s L).gatherJobs.filter fun j => j.ctx == ctx && !j.accepted).foldl (fun s j =>
    releaseVersions (dropGather s L j.tag) j.rcd.table) s

/-- Accepted gather jobs of a context stop: RESULT aborted with VALID clear (R223). -/
def abortGathers (s : State) (L ctx f q : Nat) : State :=
  ((regionOf s L).gatherJobs.filter fun j => j.ctx == ctx).foldl (fun s j =>
    let s := underWindows s ctx j.wins fun s => unitWrite s ctx (.gather L j.tag) j.rcd.result
      (resultBytes stAborted (b2n j.ovf) j.version j.rows.length j.unique j.loftHits j.indexFaults (now s))
    itemRecord (releaseVersions (dropGather s L j.tag) j.rcd.table) f q 5 j.ringIndex j.tAccept) s

/-- A reduction or Winch record at the head of a ring that waits, for its rates or its gate, gives its place up. -/
def dropHeads (s0 : State) (L ctx : Nat) : State :=
  let s := endGate s0 L ctx
  let x := ctxRegionOf (ctxOf s ctx) L
  endTransfer (endTransfer s (.reduce L (ctx * 2 ^ 32 + x.reduceNext))) (winchUse L ctx x.winchNext)

/-- Reduction jobs of a context stop: ABORT is sent, no TOKEN or DONE (R327). -/
def abortReduces (s : State) (L ctx f q : Nat) : State :=
  ((seqOf s L).jobs.filter fun j => j.ctx == ctx).foldl (fun s j =>
    match findReduce s L j.tag with
    | some j => itemRecord (abortAndRun s L j true true false) f q 6 j.ringIndex j.tAccept
    | none => s) s

/-- Chunks of 256 bytes of a copy that was stopped. -/
def stopChunks (o : Origin) (c src dst n : Nat) (s : State) : State :=
  ((List.range n).filter (writtenYet s)).foldl (fun s i => copyChunk s o c (ctxPlus src (256 * i)) (ctxPlus dst (256 * i)) 256) s

/-- What a stopped Winch entry has written: all where it only had to report, else some of its chunks of 256 bytes, or the first pages
of a packed copy (R373). -/
def stopWinch (s0 : State) (L : Nat) (e : WinchEntry) : State :=
  let c := e.ctx
  let r := e.rcd
  let o : Origin := .winch L e.tag
  let n := fun k => Config.freeNat s0.freeCounter % (k + 1)
  if e.copied ∨ e.reported then s0
  else
    underWindows { s0 with freeCounter := s0.freeCounter + 1 } c e.wins fun s =>
      if r.op = 1 then
        match objectOf s c r.window, winchDest s c r e.newHome with
        | some x, some b =>
          ((List.range (winchBytes s c r / 256)).filter (writtenYet s)).foldl (fun s i =>
            stageBytes s o c r.window (x.backing + 256 * i) (b + 256 * i) 256) s
        | _, _ => s
      else if r.packed then
        if winSpace (winEntry s c (bits r.src 47 40)) = 0 then packPages o c (n (r.bytes / 4096)) r.src r.dst s
        else unpackPages o c (n (r.bytes / 4096)) r.src r.dst s
      else stopChunks o c r.src r.dst (r.bytes / 256) s

/-- A stopped STAGE that was re-homing its object gives the run back. -/
def giveRunBack (s : State) (e : WinchEntry) : State :=
  match e.newHome, objectOf s e.ctx e.rcd.window with
  | some h, some o =>
    if e.reported then s
    else
    let s := modRegion s h.1 fun R => { R with units := R.units.filter fun x => !decide (h.2 ≤ x.1 ∧ x.1 < h.2 + o.units) }
    modObject s o.handle fun x => { x with nextHome := none }
  | _, _ => s

/-- Accepted Winch entries of a context stop (R373). -/
def abortWinches (s : State) (L ctx f q : Nat) : State :=
  ((regionOf s L).winch.filter fun e => e.ctx == ctx).foldl (fun s e =>
    itemRecord (dropWinch (giveRunBack (stopWinch s L e) e) L e) f q 7 e.ringIndex e.tAccept) s

/-- Everything of a context in one region that is accepted, queued or held stops. -/
def abortRegion (ctx f q : Nat) (s : State) (L : Nat) : State :=
  let s := [0, 1, 2, 3].foldl (fun s r => abortReel (dropQueued s L r ctx) L r ctx f q) s
  let s := abortGathers (dropTaken s L ctx) L ctx f q
  let s := abortWinches (abortReduces (dropHeads s L ctx) L ctx f q) L ctx f q
  let s := modRegion s L fun R =>
    { R with blocks := R.blocks.map fun b => (b.1, { b.2 with predictor := b.2.predictor.filter fun e => e.ctx != ctx }) }
  dropTasks s L ctx

/-- Kept pins of a context, checkpoint pins aside, are released (R209, R457). -/
def dropPins (s : State) (ctx : Nat) : State :=
  let gone := (s.keptPins.filter fun k => k.ctx == ctx && k.area.isNone).map (·.table)
  let s := { s with keptPins := s.keptPins.filter fun k => !(k.ctx == ctx && k.area.isNone) }
  gone.eraseDups.foldl releaseVersions s

/-- A forced stop of a context (R91): its threads end, every item stops with its record to a queue, and what the task unit,
the predictors, the pool and the kept pins hold for it goes (R169, R209, R274, R353). -/
def abortItems (s : State) (ctx f q : Nat) : State :=
  let s := sweepWakes (dropTakers (endThreads s ctx) fun t => t.ctx == ctx)
  let s := abortRequests (abortOps s ctx) ctx f q
  let s := (ctxRegions s ctx).foldl (abortRegion ctx f q) s
  dropPins (dropHolds s ctx false) ctx

/-- What a copy stages for a context is discarded (R426). -/
def StagedCopy.without (x : StagedCopy) (ctx : Nat) : StagedCopy :=
  { x with regs := x.regs.filter fun e => !decide (ctxBlock ctx ≤ e.1 ∧ e.1 < ctxBlock ctx + 0x4000) }

/-- Staged entries of a context are discarded from its function's copies. -/
def dropStaged (s : State) (ctx : Nat) : State :=
  modFn s (ctxOf s ctx).fn fun x =>
    { x with open_ := x.open_.without ctx, frozen := x.frozen.map fun z => { z with copy := z.copy.without ctx } }

/-- What the sequencer and the lofts of a region hold for a context goes with it. -/
def leaveRegion (ctx : Nat) (s : State) (L : Nat) : State :=
  let s := freeUnits s L fun u => u == .loft ctx
  modRegion s L fun R =>
    { R with
      lofts := mdel R.lofts ctx
      loftWaits := R.loftWaits.filter (· != ctx)
      seqr := { R.seqr with ended := mdel R.seqr.ended ctx, channels := mdel R.seqr.channels ctx,
                            contribution := mdel R.seqr.contribution ctx,
                            tails := R.seqr.tails.filter fun x => x.ctx != ctx } }

/-- A context becomes empty: no blocks, no windows (Table 3.9). -/
def destroyCtx (s : State) (ctx f q : Nat) : State :=
  let s := dropStaged (abortItems s ctx f q) ctx
  let s := disownActivity (dropHolds ((ctxRegions s ctx).foldl (leaveRegion ctx) s) ctx true) ctx
  { clearBlock (setCtx s ctx Context.blank) ctx with
    threads := s.threads.filter fun e => e.1.ctx != ctx
    groups := s.groups.filter fun e => e.1.1 != ctx
    vectors := s.vectors.filter fun e => e.1.1 != ctx }

/-- DESTROY's work. -/
def destroyCmd (s : State) (c : Cmd) : State :=
  let e := ctxEnergy s c.ctx
  endCmd (destroyCtx s c.ctx c.fn c.queue) { c with size := e } stOk 0 0

/-- DESTROY (R90, R209, R420, R426). -/
def execDestroy (cmd : Nat) (s : State) : Host.Outcome State Fault Refusal := atCmd s cmd 2 (destroyCmd s)

/-! ### LOAD -/

/-- The address of an image: T2 that the function holds, or host memory (Table 15.8). -/
def imagePlace (s : State) (c : Cmd) : Bool :=
  let a := c.field 8 8
  (spaceOf a == 0 || spaceOf a == 5) && holdsRange s c.fn [] a (c.field 0x10 4)

/-- The window of KIND 4 of an image, when it is valid and holds the constants. -/
def constantsWindow (s : State) (ctx : Nat) (im : Image) (n : Nat) : Option Nat :=
  match im.bindings.find? fun b => b.kind == 4 with
  | some b =>
    let e := winEntry s ctx b.window
    if winValid e ∧ n ≤ winSize e then some (winBase e) else none
  | none => none

/-- The WS fields that a command meets: those of its acceptance (R424). -/
def Cmd.view (c : Cmd) (s : State) : State := { s with regs := c.regs }

/-- Constants are written to the window of KIND 4 (R75). Where it is invalid or too small nothing is written, and the LOAD
still ends with status ok (DESIGN CHOICE: the spec does not say; log entry 133). -/
def writeConstants (s : State) (c : Cmd) (im : Image) (bs : List Byte) : State :=
  match constantsWindow (c.view s) c.ctx im bs.length with
  | some a => devWrite (countAccess s 0xFF (some c.ctx) a bs.length) (ctxOf s c.ctx).fn a bs
  | none => s

/-- The hops of a LOAD into one region: 64 GB/s through its port, in the region of the constants window into its T1 as well
(R82). -/
def loadHops (s : State) (ctx : Nat) (im : Image) (n L : Nat) : List (Hop × Nat) :=
  let p := physAt s L
  (.portIn p, 64) :: match constantsWindow s ctx im n with
    | some a =>
      if spaceOf a = 1 ∧ addrRegion a = L then [(.banks p, 64)]
      else if spaceOf a = 0 ∧ (ctxRegions s ctx).head? = some L then
        (.channels (addrStack a), 64) :: throughDie true (stackDie (addrStack a)) 64
      else []
    | none => []

/-- The transfers of a LOAD ask for their rates, one into each region of the context (R58, R82). -/
def askLoad (s : State) (c : Cmd) (im : Image) (n : Nat) : State :=
  (ctxRegions s c.ctx).foldl (fun s L => reserveRates s (.load c.id L) (some c.ctx) none (loadHops (c.view s) c.ctx im n L)) s

/-- Every transfer of a LOAD has its rates. -/
def loadReserved (s : State) (c : Cmd) : Bool := (ctxRegions s c.ctx).all fun L => (ratesSince s (.load c.id L)).isSome

/-- A valid image is lowered and loaded. -/
def finishLoad (s : State) (c : Cmd) (im : Image) (constants : List Byte) : State :=
  let s := keepLowered s im.digest c.rev
  let s := modCtx s c.ctx fun x => { x with state := .loaded, image := some im, restoredLeft := none }
  endCmd (endCmdTransfers (writeConstants s c im constants) c.id) c stOk 0 im.nativeLines

/-- LOAD's work (R78 to R86): an image that is valid is loaded once the Keels agree on the digest of its native code and its
transfers have their rates. -/
def loadCmd (s : State) (c : Cmd) : State :=
  if !imagePlace s c then endCmd s c stRejected 0xFF 0
  else
    let bs := imageBytes s c
    match imageFailure s.part.grade bs (ctxOf s c.ctx).blocks.length c.rev with
    | some (step, st) => endCmd (endCmdTransfers s c.id) c st step 0
    | none =>
      let v := s.keels.ballot
      if c.phase = 0 ∧ !quorumAgrees s v then disagreement (newBallot (setCmd s { c with retried := true })) v c.retried
      else
        let c1 := { c with phase := 1 }
        let s := if c.phase = 0 then newBallot (setCmd s c1) else s
        let im := loadedImage bs c.rev
        let t := askLoad s c1 im (imgConstants bs).length
        if loadReserved t c1 then finishLoad t c1 im (imgConstants bs) else t

/-- LOAD (R78 to R86, R420). -/
def execLoad (cmd : Nat) (s : State) : Host.Outcome State Fault Refusal := atCmd s cmd 3 (loadCmd s)

/-! ### START -/

/-- A binding agrees with the window that it names (R96). -/
def bindingMet (s : State) (ctx : Nat) (b : Binding) : Bool :=
  let e := winEntry s ctx b.window
  winValid e && decide (b.minSize * 2097152 ≤ winSize e) && b.spaces.getLsbD (winSpace e) && decide (winSpace e < 8) &&
    (!b.access.getLsbD 0 || winRd e) && (!b.access.getLsbD 1 || winWr e) && (!b.access.getLsbD 2 || winAtom e) &&
    ((objectOf s ctx b.window).isNone || b.kind == 3 || b.kind == 4)

/-- The thread that a launch record starts (Table 3.11). -/
def startThread (l : Launch) (cell n t : Nat) : Thread :=
  { pc := l.entry, readyAt := t
    s := Vector.ofFn fun i => BitVec.ofNat 32 (if i.val = 0 then n else if i.val = 1 then l.group else if i.val = 2 then cell else 0)
    p := Vector.replicate 8 false, loops := [], watch := Vector.replicate 16 WatchSlot.empty, run := .ready }

/-- The group that a launch record starts: its descriptors, or invalid ones (Table 3.11). -/
def startGroup (im : Image) (l : Launch) : Group :=
  let rec_ := fun i => if l.desc = 0xFFFF then blankRecord else im.descriptors.getD (l.desc + i) blankRecord
  { d := Vector.ofFn fun i => rec_ i.val, x := Vector.ofFn fun i => rec_ (16 + i.val), quotaKib := l.quotaKib, vec := l.vec }

/-- Every cell of a context with every launch record. -/
def starts (x : Context) (im : Image) : List (Nat × Launch) :=
  (List.range (8 * x.blocks.length)).flatMap fun cell => im.launches.map fun l => (cell, l)

/-- Threads, groups and vector contexts as a start makes them (R100); what threads before it waited for and watched is gone. -/
def launchAll (s0 : State) (ctx : Nat) (im : Image) : State :=
  let l := starts (ctxOf s0 ctx) im
  let s := dropTakers s0 fun t => t.ctx == ctx
  sweepWakes { s with
    threads := (s.threads.filter fun e => e.1.ctx != ctx) ++ l.flatMap fun (cell, r) =>
      (List.range r.threads).map fun n => ({ ctx := ctx, cell := cell, group := r.group, thread := n }, startThread r cell n (now s))
    groups := (s.groups.filter fun e => e.1.1 != ctx) ++ l.map fun (cell, r) => ((ctx, cell, r.group), startGroup im r)
    vectors := (s.vectors.filter fun e => e.1.1 != ctx) ++
      (l.filter fun x => x.2.vec).map fun (cell, r) => ((ctx, cell, r.group), VectorCtx.blank) }

/-- Counts that return to zero at each start; ring positions stay. -/
def CtxRegion.restarted (x : CtxRegion) : CtxRegion :=
  { CtxRegion.zero with gatherNext := x.gatherNext, reduceNext := x.reduceNext, winchNext := x.winchNext }

/-- A context at its start (R106, R262, R295, R328, R374, R459); an exchange that has applied still waits for the next step outcome
(R445). -/
def Context.started (x : Context) (steps energy : Nat) : Context :=
  { x with
    state := .running, winFaults := 0, breaking := false, stoppedAt := [], recipeLeft := x.restoredLeft.getD steps,
    restoredLeft := none, skipped := 0, outcomes := 0, convertFlags := 0, patternFaults := 0, skipMisses := 0,
    tilesSkipped := 0, indexFaults := 0, winchRefused := 0, steer := none, startEnergyPj := energy,
    reported := [], regions := x.regions.map fun e => (e.1, e.2.restarted), drainCmd := none }

/-- The pending tails of a context count no more after a start (R328). -/
def dropTails (s : State) (ctx : Nat) : State :=
  (ctxRegions s ctx).foldl (fun s L => modSeq s L fun q => { q with tails := q.tails.filter fun x => x.ctx != ctx }) s

/-- The regions whose threads are to run have their rails at 0.60 V first (R43). -/
def wakeRails (s : State) (ctx : Nat) : State :=
  (ctxRegions s ctx).foldl (fun s L =>
    match physOfLogical s L with
    | some p => if railLow s p then modPhys s p fun x => { x with targetMv := Nat.max 600 x.targetMv, vcore := 600 } else s
    | none => s) s

/-- START's work: every binding is checked, then the threads begin. -/
def startCmd (s : State) (c : Cmd) : State :=
  match (ctxOf s c.ctx).image with
  | none => endCmd s c stRejected 0xFF 0
  | some im =>
    if im.bindings.all (bindingMet (c.view s) c.ctx) then
      endCmd (modCtx (dropTails (launchAll (wakeRails s c.ctx) c.ctx im) c.ctx) c.ctx fun x =>
        x.started (recipeSteps (c.view s) c.ctx) (ctxPj s c.ctx)) c stOk 0 0
    else endCmd s c stRejected 0xFF 0

/-- START (R96, R100, R106, R420, R459). -/
def execStart (cmd : Nat) (s : State) : Host.Outcome State Fault Refusal := atCmd s cmd 4 (startCmd s)

/-! ### PAUSE and RESUME -/

/-- PAUSE's work: the context begins to stop, unless it is stopping or has stopped already. -/
def pauseCmd (s : State) (c : Cmd) : State :=
  let x := ctxOf s c.ctx
  if x.state ≠ .running then endCmd s c stOk 0 0
  else
    let s := if x.breaking then s else beginBreak s c.ctx { BreakInfo.zero with cause := 3, time := now s } none
    setCmd s { c with phase := 1 }

/-- PAUSE (R104, R420); it completes when the context is paused. -/
def execPause (cmd : Nat) (s : State) : Host.Outcome State Fault Refusal := atCmd s cmd 5 (pauseCmd s)

/-- The PAUSE of a context that has just paused ends. -/
def endPauses (s : State) (ctx : Nat) : State :=
  (s.cmds.filter fun c => c.stage == .accepted && c.opcode == 5 && c.ctx == ctx && c.phase == 1).foldl
    (fun s c => endCmd s c stOk 0 0) s

/-- BREAK_STOP_DONE (R104): every thread has stopped, and the context is paused. -/
def execBreakStopDone (ctx : Nat) (s : State) : Host.Outcome State Fault Refusal :=
  let x := ctxOf s ctx
  if x.state ≠ .running ∨ !x.breaking then notNow s
  else .next (endPauses (modCtx s ctx fun x => { x with state := .paused, breaking := false }) ctx)

/-- A paused context runs again: due tasks move and takers are served (R104, R105, R168). -/
def resumeCtx (s : State) (ctx : Nat) : State :=
  let s := modCtx s ctx fun x => { x with state := .running }
  (ctxRegions s ctx).foldl (fun s L =>
    serveAll (moveDue s L (now s / 100 * 100) (regionOf s L).delay.length) L ctx) s

/-- RESUME (R104, R105, R420). -/
def execResume (cmd : Nat) (s : State) : Host.Outcome State Fault Refusal :=
  atCmd s cmd 6 fun c => if (ctxOf s c.ctx).state = .paused then endCmd (resumeCtx s c.ctx) c stOk 0 0 else endCmd s c stOk 0 0

/-! ### DISABLE -/

/-- Requests of a context's threads that wait at admission are dropped. -/
def dropWaiting (s : State) (ctx : Nat) : State :=
  let gone := s.requests.filter fun r => r.ctx == ctx && r.stage == .waiting && (originThread r.origin).isSome
  gone.foldl finishRequest s

/-- MMAs of a context that have no grant are withdrawn (R249). -/
def withdrawMmas (s : State) (ctx : Nat) : State :=
  dropOps s fun q => q.t.ctx == ctx && match q.stage with
    | .queued => true
    | .presented _ _ => true
    | _ => false

/-- The records of a context's Winch ring that have not been accepted are dropped: the next one is that behind them (R373). -/
def dropRing (s : State) (L ctx : Nat) : State :=
  if ringHas s ctx L 2 (winchNextOf s ctx L) then
    let next := leNat (winRead s ctx none (ringBase s ctx L 2) 4)
    writeConsumed (modCtxRegion s ctx L fun x => { x with winchNext := next }) ctx L 2 next
  else s

/-- What a DISABLE stops and starts in one region. -/
def drainRegion (c : Cmd) (s : State) (L : Nat) : State :=
  let ctx := c.ctx
  let s := [0, 1, 2, 3].foldl (fun s r => dropQueued s L r ctx) s
  let s := dropRing (dropHeads (dropTaken s L ctx) L ctx) L ctx
  modSeq s L fun q =>
    { q with jobs := q.jobs.map fun j =>
        if j.ctx = ctx then { j with deadline := some (mget (disableDeadline c.tAccept j) c.intervals (L, j.tag)) } else j }

/-- DISABLE's work: admission is closed for the context (Table 3.9). -/
def disableCmd (s : State) (c : Cmd) : State :=
  if c.phase = 1 then s
  else
    let n := itemCount s c.ctx
    let s := setCmd s { c with size := n, phase := 1 }
    let s := modCtx s c.ctx fun x => { x with state := .draining, breaking := false, drainCmd := some c.id }
    (ctxRegions s c.ctx).foldl (drainRegion c) (withdrawMmas (dropWaiting s c.ctx) c.ctx)

/-- DISABLE (R90, R223, R249, R327, R373, R420). -/
def execDisable (cmd : Nat) (s : State) : Host.Outcome State Fault Refusal :=
  match runningCmd s cmd 7 with
  | some c => if c.force then notNow s else .next (disableCmd s c)
  | none => notNow s

/-- A region of the context is fenced (R453). -/
def regionFenced (s : State) (ctx : Nat) : Bool := (ctxRegions s ctx).any fun L =>
  (regionOf s L).exchange.isSome || !(regionOf s L).retiring.isEmpty

/-- Nothing of a context is still at work. -/
def drained (s : State) (ctx : Nat) : Bool :=
  itemCount s ctx == 0 && s.requests.all (fun r => r.ctx != ctx) && s.ops.all (fun q => q.t.ctx != ctx) && !regionFenced s ctx

/-- The DISABLE commands of a context that drained, or was stopped, end. -/
def endDisables (s : State) (ctx : Nat) : State :=
  (s.cmds.filter fun c => c.stage == .accepted && c.opcode == 7 && !c.force && c.ctx == ctx).foldl
    (fun s c => endCmd s c stOk 0 c.size) s

/-- Flows of a context leave service in every region (R165). -/
def releaseCtxFlows (s : State) (ctx : Nat) : State :=
  (ctxRegions s ctx).foldl (fun s L => releaseFlows s L ctx fun f => f.ctx == ctx) s

/-- DRAIN_COMPLETE (R90, R453): the last accepted item has completed; the context is stopped. -/
def execDrainComplete (ctx : Nat) (s : State) : Host.Outcome State Fault Refusal :=
  if (ctxOf s ctx).state ≠ .draining ∨ !drained s ctx then notNow s
  else
    let s := modCtx s ctx fun x => { x with state := .stopped, drainCmd := none }
    .next (endDisables (releaseCtxFlows (sweepWakes (dropTakers (endThreads s ctx) fun t => t.ctx == ctx)) ctx) ctx)

/-- REDUCE_DISABLE_DEADLINE (R327, R417): a job that is not complete by its deadline ends aborted. -/
def execReduceDisableDeadline (region job : Nat) (s : State) : Host.Outcome State Fault Refusal :=
  match findReduce s region job with
  | none => notNow s
  | some j =>
    match j.deadline with
    | none => notNow s
    | some d =>
      if now s < d then notNow s
      else
        let q := (((ctxOf s j.ctx).drainCmd.bind (findCmd s)).map (·.queue)).getD 0
        .next (abortAndRun (itemRecord s (ctxOf s j.ctx).fn q 6 j.ringIndex j.tAccept) region j true true true)

/-- T1 of a region that only a context's windows reach: an address of it (R453). -/
def ownT1 (s : State) (ctx L a : Nat) : Bool :=
  let maps := fun c => (List.range 256).any fun w => winsMap [(w, rawReg s (offWindow c w))] a 1
  spaceOf a == 1 && addrRegion a == L && maps ctx &&
    !((s.contexts.map (·.1)).any fun c => c != ctx && (ctxOf s c).state != .empty && maps c)

/-- A context's state in a fenced region is discarded and does not migrate: T0 of its cells, and the T1 that is its own (R453). What
stands there when it starts again is zero, as in the cells of a standby (R443; log entry 158). -/
def discardRegion (ctx : Nat) (s : State) (L : Nat) : State :=
  let moves := match (regionOf s L).exchange with
    | some x => x.kind != .failure && !x.copied
    | none => false
  if !moves then s
  else
    { s with mem := s.mem.eraseWhere fun a =>
        (spaceOf a == 2 && addrRegion a == L && (ctxOf s ctx).blocks.contains (L, addrCell a / 8)) || ownT1 s ctx L a }

/-- A forced disable's work (R91): the state stays readable, but for that in a region that is fenced (R453). -/
def forceCmd (s : State) (c : Cmd) : State :=
  let n := itemCount s c.ctx
  let s := (ctxRegions s c.ctx).foldl (discardRegion c.ctx) (abortItems s c.ctx c.fn c.queue)
  let s := modCtx s c.ctx fun x => { x with state := .stopped, breaking := false, drainCmd := none }
  endCmd (endDisables s c.ctx) c stOk 0 n

/-- DISABLE with FORCE (R91, R105, R169, R223, R327, R373, R420). -/
def execDisableForce (cmd : Nat) (s : State) : Host.Outcome State Fault Refusal :=
  match runningCmd s cmd 7 with
  | some c => if c.force then .next (forceCmd s c) else notNow s
  | none => notNow s

end Sys2Proof.Machine
end

