-- ==== Sys2Proof/Machine/Allocs.lean ====
section
/-! DEFINITION. The commands that give, lend and take back memory, and those that move bytes or read the balancer's counts for
the host (13 R351 to R359, R363, R370, R371; 15 R420, R421; 07 R217). -/

namespace Sys2Proof.Machine

open Sys2Proof

/-! ### T2 frames -/

/-- Frames of 2 MiB in a stack's logical space (Table 13.1). -/
def stackFrames (g : Grade) : Nat := match g with | .T => 65536 | .S => 49152

/-- Runs of frames that are allocated, lent or about to be lent: first frame and frames, over all stacks. -/
def takenFrames (s : State) : List (Nat × Nat) :=
  ((s.allocs.filter fun x => x.tier == 0).map fun x => (x.base / 2097152, x.units)) ++
    (s.loans.map fun l => (l.base / 2097152, 1)) ++
    s.later.flatMap fun e => match e.1 with
      | .lend _ ls => ls.map fun l => (l.base / 2097152, 1)
      | _ => []

/-- First frame of a stack. -/
def firstFrame (stack : Nat) : Nat := stack * 65536

/-- A run of n frames of a stack meets no taken frame. -/
def framesFree (s : State) (stack u n : Nat) : Bool :=
  decide (firstFrame stack ≤ u ∧ u + n ≤ firstFrame stack + stackFrames s.part.grade) &&
    (takenFrames s).all fun x => decide (u + n ≤ x.1 ∨ x.1 + x.2 ≤ u)

/-- The lowest run of n free frames of a stack. -/
def fitFrames (s : State) (stack n : Nat) : Option Nat :=
  let starts := (firstFrame stack :: (takenFrames s).map fun x => x.1 + x.2).filter fun u => framesFree s stack u n
  starts.foldl (fun a u => match a with
    | some x => some (Nat.min x u)
    | none => some u) none

/-- The lowest run in the first of some stacks that has one. -/
def fitIn (s : State) (n : Nat) : List Nat → Option Nat
  | [] => none
  | k :: r =>
    match fitFrames s k n with
    | some u => some u
    | none => fitIn s n r

/-! ### ALLOC -/

def Cmd.tier (c : Cmd) : Nat := c.field 8 1
def Cmd.place (c : Cmd) : Nat := c.field 9 1
def Cmd.units (c : Cmd) : Nat := c.field 0x0C 4
def Cmd.backing (c : Cmd) : Nat := c.field 0x10 8

/-- A function at or over its T2 quota (R363). -/
def overQuota (s : State) (f : Nat) : Bool := decide ((fnOf s f).t2Quota ≤ charge s f)

/-- The backing of an object: memory that the function holds in T2, T3 or T4, aligned as a window is (R352). -/
def backingOk (s : State) (c : Cmd) : Bool :=
  let sp := spaceOf c.backing
  (sp == 0 || sp == 4 || sp == 5) && c.backing % 2097152 == 0 && holdsRange s c.fn [] c.backing (c.units * 2097152)

/-- The status and detail with which ALLOC fails on its operands, or over its quota. -/
def allocFault (s : State) (c : Cmd) : Option (Nat × Nat) :=
  if 2 < c.tier then some (stRejected, 8)
  else if c.place ≠ 0xFF ∧ 16 ≤ c.place then some (stRejected, 9)
  else if c.place ≠ 0xFF ∧ c.tier ≠ 0 ∧ gradeRegions s ≤ c.place then some (stAbsent, 9)
  else if c.units = 0 then some (stRejected, 0x0C)
  else if (if c.tier = 2 then !backingOk s c else c.backing != 0) then some (stRejected, 0x10)
  else if overQuota s c.fn then some (stDeferred, 0)
  else none

/-- The allocation is recorded, its record written at OUT, and its handle returned. -/
def giveAlloc (s : State) (c : Cmd) (base width : Nat) : State :=
  let h := s.nextHandle
  let s := quotaEvent s { s with
    nextHandle := h + 1
    allocs := s.allocs ++
      [{ handle := h, fn := c.fn, tier := c.tier, base := base, units := c.units, backing := c.backing, width := width }] } c.fn
  let s := hostWrite s c.fn (c.field 0x18 8) (leBytes 8 base ++ leBytes 4 c.units ++ leBytes 4 h)
  endCmd s c stOk 0 h

/-- The pages of some frames that hold bytes are stored under their new WIDTH. -/
def rewidth (s : State) (base units : Nat) : State :=
  ((s.pages.map (·.1)).filter fun p => decide (base / 4096 ≤ p ∧ p < base / 4096 + units * 512)).foldl updatePage s

/-- ALLOC of T2 frames: the lowest run of the stack, with a WIDTH that the command leaves open (R360, log entry 75). -/
def allocFrames (s : State) (c : Cmd) : State :=
  match allocFault s c with
  | some e => endCmd s c e.1 e.2 0
  | none =>
    match fitIn s c.units (if c.place = 0xFF then List.range 16 else [c.place]) with
    | none => endCmd s c stDeferred 0 0
    | some u =>
      let w := freshNat s
      rewidth (giveAlloc w.2 c (u * 2097152) (w.1 % 3)) (u * 2097152) c.units

/-- ALLOC_T2_FRAMES (R363, R420, R421): TIER 0, and every TIER that Table 15.8 does not list. -/
def execAllocT2Frames (cmd : Nat) (s : State) : Host.Outcome State Fault Refusal :=
  match runningCmd s cmd 8 with
  | some c => if c.tier = 1 ∨ c.tier = 2 then notNow s else .next (allocFrames s c)
  | none => notNow s

/-- The regions in which ALLOC looks for units. -/
def allocHomes (s : State) (c : Cmd) : List Nat := if c.place = 0xFF then List.range (gradeRegions s) else [c.place]

/-- A run of T1 for a command: it is there; or objects are selected and it comes; or there is none, and nothing changes
(R354). -/
def allocRun (s : State) (c : Cmd) (give : State → Nat × Nat → State) : State :=
  match allocFault s c with
  | some e => endCmd s c e.1 e.2 0
  | none =>
    match seekRun s c.units (allocHomes s c) with
    | (some h, s) => give s h
    | (none, s') =>
      if (allocHomes s c).any fun H => (findRun s' H c.units (unitComing s' H)).isSome then s' else endCmd s c stDeferred 0 0

/-- ALLOC_PINNED_T1 (OBJECT_EVICTION; R351, R354, R420, R421). -/
def execAllocPinnedT1 (cmd : Nat) (s : State) : Host.Outcome State Fault Refusal :=
  match runningCmd s cmd 8 with
  | some c =>
    if c.tier ≠ 1 then notNow s
    else .next (allocRun s c fun s h => giveAlloc (takeUnits s h.1 h.2 c.units (.pinned s.nextHandle)) c (unitAddr1 h.1 h.2) 0)
  | none => notNow s

/-- A new object: it has a home, no window and no hold (R352, R353). -/
def newObject (s : State) (c : Cmd) (h : Nat × Nat) : PoolObject :=
  { handle := s.nextHandle, fn := c.fn, base := unitAddr1 h.1 h.2, backing := c.backing, units := c.units, windows := [],
    home := some h, hold := 0, lastStage := now s, stagedBy := h.1, nextHome := none, evicting := false }

/-- ALLOC_OBJECT (OBJECT_EVICTION; R352, R354, R420, R421, log entry 61). -/
def execAllocObject (cmd : Nat) (s : State) : Host.Outcome State Fault Refusal :=
  match runningCmd s cmd 8 with
  | some c =>
    if c.tier ≠ 2 then notNow s
    else .next (allocRun s c fun s h =>
      let o := newObject s c h
      let s := takeUnits s h.1 h.2 c.units (.home s.nextHandle)
      giveAlloc { s with objects := s.objects ++ [o] } c o.base 0)
  | none => notNow s

/-! ### FREE -/

/-- The first epoch boundary at least 1,000,000 ns after a command's acceptance (R421). -/
def laterBoundary (c : Cmd) : Nat := boundaryAt (c.tAccept + 1000000)

/-- An active window of a context of a function maps part of a range. -/
def windowMaps (s : State) (fn base n : Nat) : Bool :=
  s.contexts.any fun e => e.2.fn == fn && e.2.state != .empty && (List.range 256).any fun w =>
    let x := winEntry s e.1 w
    winValid x && decide (winBase x < base + n ∧ base < winBase x + winSize x)

/-- An allocation that a window of its function still maps. -/
def stillMapped (s : State) (x : Allocation) : Bool :=
  if x.tier = 2 then (match findObject s x.handle with
    | some o => o.windows != []
    | none => false)
  else windowMaps s x.fn x.base (x.units * 2097152)

/-- FREE's work: the memory goes at a boundary (R421). -/
def freeCmd (s : State) (c : Cmd) : State :=
  if c.phase = 1 then s
  else
    match s.allocs.find? fun x => x.handle == c.field 8 4 && x.fn == c.fn with
    | none => endCmd s c stRejected 8 0
    | some x =>
      if stillMapped s x then endCmd s c stRejected 8 0
      else setCmd { s with later := s.later ++ [(.free c.id x.handle, laterBoundary c)] } { c with phase := 1 }

/-- FREE (R420, R421). -/
def execFree (cmd : Nat) (s : State) : Host.Outcome State Fault Refusal := atCmd s cmd 9 (freeCmd s)

/-- Checkpoint pins whose AREA lies in some frames are released (R457). -/
def dropAreas (s : State) (base n : Nat) : State :=
  let mine := fun (k : KeptPin) => match k.area with
    | some a => decide (base ≤ a ∧ a < base + n)
    | none => false
  let gone := ((s.keptPins.filter mine).map (·.table)).eraseDups
  gone.foldl releaseVersions { s with keptPins := s.keptPins.filter fun k => !mine k }

/-- An allocation is gone. -/
def dropAlloc (s : State) (h : Nat) : State :=
  match s.allocs.find? fun x => x.handle == h with
  | none => s
  | some x =>
    let s := { s with allocs := s.allocs.filter fun y => y.handle != h, objects := s.objects.filter fun o => o.handle != h }
    let s := (s.logs.map (·.1)).foldl (fun s L => freeUnits s L fun u => u == .pinned h || u == .home h) s
    if x.tier = 0 then dropAreas s x.base (x.units * 2097152) else s

/-! ### LEND -/

/-- The loans that RETURN names: its PEER and FN, at the addresses that OUT lists. -/
def Cmd.loansNamed (c : Cmd) (s : State) : List Loan :=
  let bs := hostRead s c.fn (c.field 0x10 8) (8 * c.units)
  (List.range c.units).map fun i => { peer := c.tier, fn := c.place, lender := c.fn, base := fieldAt bs (8 * i) 8 }

/-- The status and detail with which LEND fails on its operands (R359, R414). -/
def lendFault (s : State) (c : Cmd) : Option (Nat × Nat) :=
  if 8 ≤ c.tier ∨ c.tier = s.part.device then some (stRejected, 8)
  else if !fnNumbers.contains c.place then some (stRejected, 9)
  else if 16 ≤ c.field 0x0A 1 then some (stRejected, 0x0A)
  else if 2 ≤ c.field 0x0B 1 then some (stRejected, 0x0B)
  else if c.units = 0 then some (stRejected, 0x0C)
  else none

/-- LEND's work: free frames of the stack are set aside until the boundary (R359, R363, R421). -/
def lendCmd (s : State) (c : Cmd) : State :=
  if c.phase = 1 then s
  else
    match lendFault s c with
    | some e => endCmd s c e.1 e.2 0
    | none =>
      let k := c.field 0x0A 1
      let l := if stackFrames s.part.grade < c.units then []
        else (((List.range (stackFrames s.part.grade)).map (firstFrame k + ·)).filter fun u => framesFree s k u 1).take c.units
      if overQuota s c.place ∨ l.length < c.units then endCmd s c stDeferred 0 0
      else
        let loans := l.map fun u => ({ peer := c.tier, fn := c.place, lender := c.fn, base := u * 2097152 } : Loan)
        setCmd { s with later := s.later ++ [(.lend c.id loans, laterBoundary c)] } { c with phase := 1 }

/-- LEND (R359, R420, R421): RETURN 0, and every value that Table 15.8 does not list. -/
def execLend (cmd : Nat) (s : State) : Host.Outcome State Fault Refusal :=
  match runningCmd s cmd 0x0D with
  | some c => if c.field 0x0B 1 = 1 then notNow s else .next (lendCmd s c)
  | none => notNow s

/-- RETURN's work: the frames that OUT lists must be lent to the function that it names (R359). -/
def returnCmd (s : State) (c : Cmd) : State :=
  if c.phase = 1 then s
  else
    match lendFault s c with
    | some e => endCmd s c e.1 e.2 0
    | none =>
      let l := c.loansNamed s
      if l.all s.loans.contains ∧ l.dedup.length = l.length then
        setCmd { s with later := s.later ++ [(.giveBack c.id l, laterBoundary c)] } { c with phase := 1 }
      else endCmd s c stRejected 0x10 0

/-- RETURN (R359, R420, R421): LEND with RETURN 1. -/
def execReturnFrames (cmd : Nat) (s : State) : Host.Outcome State Fault Refusal :=
  match runningCmd s cmd 0x0D with
  | some c => if c.field 0x0B 1 = 1 then .next (returnCmd s c) else notNow s
  | none => notNow s

/-! ### FREE_LEND_TAKE_EFFECT -/

/-- The command of an effect that has come about ends. -/
def endLater (s : State) (cmd result : Nat) : State :=
  match findCmd s cmd with
  | some c => endCmd s c stOk 0 result
  | none => s

/-- One effect of R421; a loan's frames are listed at OUT. -/
def takeEffect (s : State) : LaterEffect → State
  | .free cmd h => endLater (dropAlloc s h) cmd 0
  | .lend cmd ls =>
    let s := ls.foldl (fun s l => quotaEvent s { s with loans := s.loans ++ [l] } l.fn) s
    let s := match findCmd s cmd with
      | some c => hostWrite s c.fn (c.field 0x10 8) (ls.flatMap fun l => leBytes 8 l.base)
      | none => s
    endLater s cmd ls.length
  | .giveBack cmd ls => endLater { s with loans := s.loans.filter fun l => !ls.contains l } cmd ls.length

/-- FREE_LEND_TAKE_EFFECT (R421): at a boundary, what waits for it takes effect. -/
def execFreeLendTakeEffect (s : State) : Host.Outcome State Fault Refusal :=
  let due := s.later.filter fun e => decide (e.2 ≤ now s)
  if !isBoundary (now s) ∨ due.isEmpty then notNow s
  else .next ((due.map (·.1)).foldl takeEffect { s with later := s.later.filter fun e => !decide (e.2 ≤ now s) })

/-! ### COPY (R370, R371, R420) -/

/-- The status and detail with which COPY fails. -/
def copyFault (s : State) (c : Cmd) : Option (Nat × Nat) :=
  let n := c.field 0x18 4
  if n ≠ 0 ∧ !holdsRange s c.fn (fnBlocks s c.fn) (c.field 8 8) n then some (stRejected, 8)
  else if n ≠ 0 ∧ !holdsRange s c.fn (fnBlocks s c.fn) (c.field 0x10 8) n then some (stRejected, 0x10)
  else if c.field 0x1C 4 = 0 ∨ 256 < c.field 0x1C 4 then some (stRejected, 0x1C)
  else none

/-- The hops of a move that starts and ends outside every region's own port. -/
def hostHops (s : State) (src dst n rate : Nat) : List (Hop × Nat) :=
  (mergeHops ((pathPlaces src n).flatMap fun a => readHops s 0xFF a rate) ++
    mergeHops ((pathPlaces dst n).flatMap fun a => writeHops s 0xFF a rate)).filter
      fun h => h.1 != .portIn 0xFF && h.1 != .portOut 0xFF

/-- A move of a function's command that meets poison is reported as one of its contexts would report it (R501): in the context that
the command names, else as of none. -/
def poisonFor (s : State) (fn ctx a n : Nat) : State :=
  match devPoison s a n with
  | none => s
  | some p => if ctx < 64 then poisonEvent s ctx p else limited s (8, 256 + fn) fun s => postEvent s fn 8 0xFF (p % 65536) p

/-- A function learns that a peer from which a command of its reads cannot answer (R359). -/
def peerLossFor (s : State) (fn ctx a : Nat) : State :=
  let key := (0x600 + bits a 50 48, fn)
  if !peerGone s a ∨ (mget? s.lastEvent key).isSome then s
  else postEvent { s with lastEvent := mset s.lastEvent key (now s) } fn 0x06 ctx (bits a 50 48) (bits a 50 48)

/-- The activity of a command's move, charged to the context that the command names (R479). -/
def countMove (s : State) (ctx src dst n : Nat) : State :=
  let c := if ctx < 64 then some ctx else none
  countAccess (countAccess s 0xFF c src n) 0xFF c dst n

/-- The bytes of a COPY: nothing reaches or leaves a host whose function may not master the bus (R405); a source on a lender
that cannot answer is poisoned (R359); the rows of an old version of a table that is still live become free bytes (R201). -/
def moveFor (s0 : State) (fn ctx src dst n : Nat) : State :=
  let s := poisonFor (peerLossFor (countMove s0 ctx src dst n) fn ctx src) fn ctx src n
  if spaceOf dst = 5 ∧ !hostServes s fn dst then s
  else if oldShard s dst n then
    let f := freshBytes s n
    devWrite f.2 fn dst f.1
  else if spaceOf src = 5 ∧ !hostServes s fn src then devWrite s fn dst (List.replicate n 0)
  else crossMove s fn src dst n

/-- COPY's work: it reserves its rates, moves its bytes and ends. -/
def copyCmd (s : State) (c : Cmd) : State :=
  match copyFault s c with
  | some e => endCmd s c e.1 e.2 0
  | none =>
    let u := XferUse.copyCmd c.id
    let s := reserveRates s u none (stackAt (c.field 0x10 8)) (hostHops s (c.field 8 8) (c.field 0x10 8) (c.field 0x18 4) (c.field 0x1C 4))
    match ratesSince s u with
    | none => s
    | some _ => endCmd (moveFor s c.fn c.ctx (c.field 8 8) (c.field 0x10 8) (c.field 0x18 4)) c stOk 0 0

/-- COPY (R370, R371, R420, R421). -/
def execCopy (cmd : Nat) (s : State) : Host.Outcome State Fault Refusal := atCmd s cmd 0x0E (copyCmd s)

/-! ### BALANCE (R217, R421) -/

/-- A shard load register (Table 7.9). -/
def shardLoadReg (p : PhysRegion) (t : Nat) : Nat :=
  let x := mget (0, 0) p.shardLoad t
  x.1 % 2 ^ 40 * 2 ^ 24 + x.2 % 2 ^ 16 * 2 ^ 8

/-- A sketch entry (Table 7.10). -/
def sketchBytes (e : SketchEntry) : List Byte :=
  leBytes 5 e.row ++ leBytes 1 e.table ++ leBytes 2 0 ++ leBytes 4 e.count ++ leBytes 4 e.error

/-- The 18,432 bytes that BALANCE writes. -/
def balanceBytes (p : PhysRegion) : List Byte :=
  ((List.range 256).flatMap fun t => leBytes 8 (shardLoadReg p t)) ++ fit 16384 (p.sketch.flatMap sketchBytes)

/-- BALANCE's work. -/
def balanceCmd (s : State) (c : Cmd) : State :=
  let L := c.field 8 1
  if 16 ≤ L then endCmd s c stRejected 8 0
  else if gradeRegions s ≤ L then endCmd s c stAbsent 8 0
  else
    match physOfLogical s L with
    | none => endCmd s c stDeferred 0 0
    | some p =>
      let x := physOf s p
      let s := hostWrite s c.fn (c.field 0x10 8) (balanceBytes x)
      endCmd (modPhys s p fun y => { y with sketch := [], shardLoad := [] }) c stOk 0 x.sketch.length

/-- BALANCE (R217, R420, R421). -/
def execBalance (cmd : Nat) (s : State) : Host.Outcome State Fault Refusal := atCmd s cmd 0x0F (balanceCmd s)

end Sys2Proof.Machine
end

