-- ==== Sys2Proof/Machine/Staging.lean ====
section
/-! DEFINITION. Staged configuration (15 R422 to R427; 07 R199 to R202): WINDOW, PUBLISH, APPLY, the check of a frozen copy, the
votes of a group apply, and the boundary at which a copy takes effect. -/

namespace Sys2Proof.Machine

open Sys2Proof

/-! ### Staged words -/

/-- A word with some bits staged over it. -/
def overlay (active mask v : DWord) : DWord := (active &&& ~~~mask) ||| (v &&& mask)

/-- Stages bits of the word at an offset: a later write of a field replaces an earlier one (R14). -/
def StagedCopy.put (x : StagedCopy) (off : Nat) (mask v : DWord) : StagedCopy :=
  match x.regs.find? fun e => e.1 == off with
  | some (_, m, w) =>
    { x with regs := x.regs.map fun e => if e.1 = off then (off, m ||| mask, overlay w mask v) else e }
  | none => { x with regs := x.regs ++ [(off, mask, v &&& mask)] }

/-- The word at an offset as a copy would leave it. -/
def stagedWord (s : State) (x : StagedCopy) (off : Nat) : DWord :=
  match x.regs.find? fun e => e.1 == off with
  | some (_, m, v) => overlay (rawReg s off) m v
  | none => rawReg s off

/-- What a staged word is (Tables 15.12, 15.13, 15.15). -/
inductive StagedPlace where
  | pace
  | pcie
  | power
  | link (port : Nat)
  | window (ctx w : Nat)
  | recipe (ctx : Nat)
  | scaleMode (ctx : Nat)
  | roundSeed (ctx : Nat)
  | ring (ctx region kind : Nat)
  | loft (ctx region : Nat)
  | none
  deriving DecidableEq, Repr, Inhabited

/-- The place of an offset in a context block. -/
def ctxPlace (c o : Nat) : StagedPlace :=
  if o < 0x800 then (if o % 8 = 0 then .window c (o / 8) else .none)
  else if o = 0x880 then .recipe c
  else if o = 0x888 then .scaleMode c
  else if o = 0x890 then .roundSeed c
  else if 0x900 ≤ o ∧ o < 0x900 + 0x80 * 16 then
    let k := (o - 0x900) % 0x80
    let L := (o - 0x900) / 0x80
    if k = 0x18 then .loft c L else if k % 8 = 0 ∧ k < 0x18 then .ring c L (k / 8) else .none
  else .none

/-- The place of an offset of the control space that holds a WS field. -/
def stagedPlace (off : Nat) : StagedPlace :=
  if off = offPace then .pace
  else if off = offPcie then .pcie
  else if off = offPower then .power
  else if 0x300000 ≤ off ∧ off < 0x308000 then (if off % 0x1000 = 8 then .link ((off - 0x300000) / 0x1000) else .none)
  else if 0x400000 ≤ off ∧ off < 0x500000 then ctxPlace ((off - 0x400000) / 0x4000) ((off - 0x400000) % 0x4000)
  else .none

/-! ### WINDOW (R92, R93) -/

/-- The object of a function that a window would map: its BASE is what ALLOC gave, or where the object lies now. -/
def objectAt (s : State) (fn base : Nat) : Option PoolObject :=
  s.objects.find? fun o => o.fn == fn && (o.base == base || o.place == base)

/-- A window that maps an object: RD set, WR and ATOM clear, the object's size (R352). -/
def objectWindowOk (s : State) (fn e : Nat) : Bool :=
  match objectAt s fn (winBase e) with
  | some o => winRd e && !winWr e && !winAtom e && winSize e == o.units * 2097152
  | none => false

/-- R93 for a window entry of a context. -/
def windowOk (s : State) (fn ctx e : Nat) : Bool :=
  !winValid e ||
    (winSize e != 0 && decide (winSize e ≤ 524288 * 2097152) &&
      (holdsRange s fn (ctxOf s ctx).blocks (winBase e) (winSize e) || objectWindowOk s fn e))

/-- The fields of a window entry that WS names. -/
def windowMask : DWord := BitVec.ofNat 64 (15 * 2 ^ 60 + (2 ^ 55 - 1))

/-- The entries that WINDOW lists. -/
def listedWindows (s : State) (c : Cmd) : List Nat :=
  let bs := hostRead s c.fn (c.field 0x10 8) (8 * c.field 0x0A 2)
  (List.range (c.field 0x0A 2)).map fun i => fieldAt bs (8 * i) 8

/-- The status and detail with which WINDOW fails. -/
def windowFail (s : State) (c : Cmd) : Option (Nat × Nat) :=
  if c.field 0x0A 2 = 0 ∨ 256 < c.field 8 1 + c.field 0x0A 2 then some (stRejected, 0x0A)
  else if (listedWindows s c).all fun e => bits e 59 55 == 0 && windowOk s c.fn c.ctx e then none
  else some (stRejected, 0x10)

/-- WINDOW's work: the entries join the function's open copy. -/
def windowCmd (s : State) (c : Cmd) : State :=
  match windowFail s c with
  | some e => endCmd s c e.1 e.2 0
  | none =>
    let l := (listedWindows s c).zipIdx
    let s := modFn s c.fn fun x =>
      { x with open_ := l.foldl (fun y (e, i) => y.put (offWindow c.ctx (c.field 8 1 + i)) windowMask (BitVec.ofNat 64 e)) x.open_ }
    endCmd s c stOk 0 0

/-- WINDOW (R92 to R94, R420, R422). -/
def execWindow (cmd : Nat) (s : State) : Host.Outcome State Fault Refusal := atCmd s cmd 0x0A (windowCmd s)

/-! ### PUBLISH (Tables 7.1, 7.2; R199 to R202) -/

def readTableDesc (r : List Byte) : TableDesc :=
  { table := fieldAt r 0 1, format := fieldAt r 1 1, tflags := fieldAt r 2 1, gradExp := toSigned 8 (fieldAt r 3 1),
    version := fieldAt r 4 4, rows := fieldAt r 8 8, rowElems := fieldAt r 0x10 4, rowBytes := fieldAt r 0x14 4,
    rps := fieldAt r 0x18 8, shards := fieldAt r 0x20 2, headroom := fieldAt r 0x22 1, migSlots := fieldAt r 0x24 4 }

def readShard (r : List Byte) : ShardEntry :=
  { base := fieldAt r 0 8, accBase := fieldAt r 8 8, device := fieldAt r 0x10 1, region := fieldAt r 0x11 1 }

/-- Every byte of a range is zero. -/
def zeroBytes (r : List Byte) (off n : Nat) : Bool := ((r.drop off).take n).all (· == 0)

/-- A table descriptor keeps Table 7.1 and Table 7.11. -/
def tableDescOk (r : List Byte) : Bool :=
  let d := readTableDesc r
  zeroBytes r 0x23 1 && zeroBytes r 0x28 24 &&
    decide (d.format ≤ 4 ∧ d.tflags < 16 ∧ d.loft ≠ 3 ∧ 1 ≤ d.rows ∧ d.rows ≤ 2 ^ 40 ∧ 1 ≤ d.rowElems ∧ d.rowElems ≤ 4096 ∧
      d.rowBytes % 64 = 0 ∧ d.packed ≤ d.rowBytes ∧ 1 ≤ d.shards ∧ d.shards ≤ 256 ∧ d.rows ≤ d.shards * d.rps ∧
      d.headroom ≤ 24 ∧ d.migSlots ≤ 65536) &&
    (d.grad || d.headroom == 0) && (d.loft != 1 || d.frozen)

/-- The shard map of a publish. -/
def shardRecords (s : State) (fn addr n : Nat) : List (List Byte) :=
  let bs := hostRead s fn addr (32 * n)
  (List.range n).map fun i => (bs.drop (32 * i)).take 32

/-- Rows of shard i. -/
def shardRows (d : TableDesc) (i : Nat) : Nat := Nat.min d.rps (d.rows - i * d.rps)

/-- A range of T2 on a device is allocated to the table's function (R200). -/
def shardMemory (s : State) (fn dev a n : Nat) : Bool :=
  spaceOf a == 0 && (n == 0 ||
    if dev = s.part.device then inAllocs s fn 0 a n else Config.peerAllocated s.freeCounter fn (peerAddr dev 0 a) n)

/-- The memory that a shard entry names, on an owner region that exists (Table 7.2, R200). -/
def shardPlaced (s : State) (fn : Nat) (d : TableDesc) (x : ShardEntry) (i : Nat) : Bool :=
  decide (x.device ≤ 7 ∧ x.region < (if x.device = s.part.device then gradeRegions s else 16)) &&
    shardMemory s fn x.device x.base (shardRows d i * d.rowBytes) &&
    (if d.grad then shardMemory s fn x.device x.accBase (shardRows d i * d.rowElems * 4) else x.accBase == 0)

/-- A shard entry keeps Table 7.2 and R200. -/
def shardOk (s : State) (fn : Nat) (d : TableDesc) (r : List Byte) (i : Nat) : Bool :=
  zeroBytes r 0x12 14 && shardPlaced s fn d (readShard r) i

/-- A shard entry names a region of this device that the grade fuses off (R3, R414). -/
def shardAbsent (s : State) (r : List Byte) : Bool :=
  let x := readShard r
  x.device == s.part.device && decide (gradeRegions s ≤ x.region ∧ x.region < 16)

/-- The owner code of a shard. -/
def ShardEntry.owner (x : ShardEntry) : Nat := x.device * 16 + x.region

/-- The migration areas of a publish, by owner code: an owner of a live version of the same number keeps its own, and the
firmware places the others (R200). -/
def migAreas (s : State) (d : TableDesc) (m : List ShardEntry) : Map Nat (Nat × Nat) :=
  if d.migSlots = 0 then []
  else
    (m.map ShardEntry.owner).foldl (fun a o =>
      let kept := (findVersion s d.table d.version).bind fun v => mget? v.mig o
      mset a o (kept.getD (Config.migrationArea s.freeCounter d.table o))) []

/-- Every migration area lies in T2 memory of the table's function on its owner's device: MIG_SLOTS rows, and their
accumulators (R200). -/
def migPlaced (s : State) (fn : Nat) (d : TableDesc) (mig : Map Nat (Nat × Nat)) : Bool :=
  mig.all fun e =>
    shardMemory s fn (e.1 / 16) e.2.1 (d.migSlots * d.rowBytes) &&
      (!d.grad || shardMemory s fn (e.1 / 16) e.2.2 (d.migSlots * d.rowElems * 4))

/-- A shard map that differs from another only in shards whose owner device is gone (R202). -/
def mapReplaces (s : State) (old new : List ShardEntry) : Bool :=
  old.length == new.length && (old.zip new).all fun x => x.1 == x.2 || Config.ownerGone s.freeCounter x.1.device

/-- A publish that places a live version anew: the same descriptor, and a map that differs only where R202 allows it. -/
def isReplacement (s : State) (d : TableDesc) (m : List ShardEntry) : Bool :=
  match findVersion s d.table d.version with
  | some v => v.desc == d && mapReplaces s v.shards m
  | none => false

/-- R199, R201 and R202 against the versions that are live. -/
def versionFault (s : State) (fn : Nat) (d : TableDesc) (m : List ShardEntry) : Option Nat :=
  let T := tableOf s d.table
  if T.versions = [] then none
  else if T.fn ≠ fn then some stRejected
  else if isReplacement s d m then none
  else if d.version ≤ T.current then some stRejected
  else if 4 ≤ T.versions.length then some stDeferred
  else none

/-- The status and detail with which PUBLISH fails; a FORMAT or a region that the grade lacks is an absent engine (R3, R414,
Table 7.13). -/
def publishFault (s : State) (c : Cmd) : Option (Nat × Nat) :=
  let r := hostRead s c.fn (c.field 8 8) 64
  let d := readTableDesc r
  let l := shardRecords s c.fn (c.field 0x10 8) d.shards
  if d.format = 7 ∧ !bitOf (gradeFeatures s.part.grade) 3 then some (stAbsent, 8)
  else if !tableDescOk r then some (stRejected, 8)
  else if l.any (shardAbsent s) then some (stAbsent, 0x10)
  else if !(l.zipIdx.all fun x => shardOk s c.fn d x.1 x.2) || !migPlaced s c.fn d (migAreas s d (l.map readShard)) then
    some (stRejected, 0x10)
  else (versionFault s c.fn d (l.map readShard)).map fun st => (st, if st = stDeferred then 0 else 8)

/-- PUBLISH's work: the publish joins the function's open copy. -/
def publishCmd (s0 : State) (c : Cmd) : State :=
  let d := readTableDesc (hostRead s0 c.fn (c.field 8 8) 64)
  let s := releaseVersions s0 d.table
  match publishFault s c with
  | some e => endCmd s c e.1 e.2 0
  | none =>
    let m := (shardRecords s c.fn (c.field 0x10 8) d.shards).map readShard
    let s := modFn { s with freeCounter := s.freeCounter + 1 } c.fn fun x =>
      { x with open_ := { x.open_ with publishes := x.open_.publishes ++ [{ desc := d, shards := m, mig := migAreas s d m }] } }
    endCmd s c stOk 0 0

/-- PUBLISH (R199 to R202, R420 to R422; TABLE_RELEASE). -/
def execPublish (cmd : Nat) (s : State) : Host.Outcome State Fault Refusal := atCmd s cmd 0x0C (publishCmd s)

/-! ### The check of a frozen copy (R423) -/

/-- A link port has its spare lane in use, or a lane is being moved onto it. -/
def spareUsed (s : State) (n : Nat) : Bool := (linkOf s n).spareFor.isSome || (linkOf s n).withdrawing

/-- A word of the link control register withdraws a lane that the old one did not (R391). -/
def newWithdraw (old v : Nat) : Bool := bitOf v 62 && (!bitOf old 62 || bits old 61 58 != bits v 61 58)

/-- Lift fields of the power control register: LIFT_EN, LIFT_CTX, LIFT_GROUP, STEP_W and LIFT_MAX. -/
def liftFields (v : Nat) : Nat × Nat × Nat × Nat := (bits v 63 63, bits v 61 48, bits v 47 40, bits v 39 29)

/-- The device takes part in lift under a power control word. -/
def liftWord (s : State) (v : Nat) : Bool := bitOf v 63 && bitOf (bits v 55 48) s.part.device

/-- R472: a change of the lift fields of a device that takes part needs a group apply that covers LIFT_GROUP. -/
def liftChangeOk (s : State) (old new devices : Nat) : Bool :=
  liftFields old == liftFields new || !(liftWord s old || liftWord s new) ||
    (List.range 8).all fun d =>
      (!bitOf (bits new 55 48) d || bitOf devices d) && (!liftWord s old || !bitOf (bits old 55 48) d || bitOf devices d)

/-- Ranges of the power control register (Table 17.1). -/
def powerOk (v : Nat) : Bool :=
  decide (1500 ≤ bits v 11 0 ∧ bits v 11 0 ≤ 3000 ∧ 85 ≤ bits v 25 19 ∧ bits v 25 19 ≤ 105 ∧ 1 ≤ bits v 47 40 ∧
    bits v 39 29 ≤ 1500)

/-- Table 14.9, R402. -/
def pcieOk (s : State) (old new : Nat) : Bool :=
  decide (bits new 61 57 ≤ 16) &&
    ((bits old 63 63 == bits new 63 63 && bits old 61 57 == bits new 61 57) || s.cfgs.all fun e => !e.2.vfEnable)

/-- A ring register: sizes of Table 7.3, and a header in a T1 window of the region. -/
def ringOk (s : State) (x : StagedCopy) (c L v : Nat) : Bool :=
  let e := (stagedWord s x (offWindow c (bits v 47 40))).toNat
  !bitOf v 63 || (decide (4 ≤ bits v 62 59 ∧ bits v 62 59 ≤ 12) && winValid e && winSpace e == 1 && addrRegion (winBase e) == L)

/-- SIZE of a loft (Table 7.12). -/
def loftOk (v : Nat) : Bool :=
  let n := bits v 62 57
  (n == 0 && !bitOf v 63) || (n % 2 == 0 && decide (2 ≤ n ∧ n ≤ 32))

/-- The exponents of a scale recipe lie from −126 to 126 (R297). -/
def recipeOk (v : Nat) : Bool :=
  (List.range 7).all fun k => let e := toSigned 8 (bits v (8 * k + 7) (8 * k)); decide (-126 ≤ e ∧ e ≤ 126)

/-- A staged word passes the rules of its register. -/
def wordOk (s : State) (fn devices : Nat) (x : StagedCopy) (off : Nat) : Bool :=
  let old := (rawReg s off).toNat
  let v := (stagedWord s x off).toNat
  match stagedPlace off with
  | .pace => decide (1250 ≤ bits v 11 0 ∧ bits v 11 0 ≤ 2000)
  | .pcie => pcieOk s old v
  | .power => powerOk v && liftChangeOk s old v devices
  | .link n => decide (bits v 61 58 ≤ 8) && !(newWithdraw old v && spareUsed s n)
  | .window c _ => windowOk s fn c v
  | .ring c L _ => ringOk s x c L v
  | .loft _ _ => loftOk v
  | .recipe _ => recipeOk v
  | _ => true

/-- SIZE of a context's loft in a region for the limit of R423. -/
def loftCount (s : State) (x : StagedCopy) (L c : Nat) : Nat :=
  let off := offLoft c L
  let size := fun (v : DWord) => bits v.toNat 62 57
  if (x.regs.any fun e => e.1 == off) then size (stagedWord s x off)
  else
    ((s.fns.filterMap fun e => e.2.frozen.bind fun z =>
      if z.passed ∧ (z.copy.regs.any fun r => r.1 == off) then some (size (stagedWord s z.copy off)) else none).foldl Nat.max
        (size (rawReg s off)))

/-- The 64 MiB loft limit of a region. -/
def loftLimit (s : State) (x : StagedCopy) (L : Nat) : Bool :=
  decide (((List.range 64).map (loftCount s x L)).sum ≤ 32)

/-- The memory of a staged publish is still allocated (R200). -/
def publishPlaced (s : State) (fn : Nat) (p : Publish) : Bool :=
  (p.shards.zipIdx.all fun x => shardPlaced s fn p.desc x.1 x.2) && migPlaced s fn p.desc p.mig

/-- A new version of a table is live and current (R199). -/
def TableState.newVersion (T : TableState) (fn : Nat) (p : Publish) : TableState :=
  { T with
    fn := fn, current := p.desc.version
    versions := T.versions ++ [{ desc := p.desc, shards := p.shards, mig := p.mig }] }

/-- R200 to R202 for the publishes of a copy, one after another. -/
def publishesFault (s : State) (fn : Nat) : List Publish → Option Nat
  | [] => none
  | p :: r =>
    if !publishPlaced s fn p then some stRejected
    else
      match versionFault s fn p.desc p.shards with
      | some st => some st
      | none =>
        if isReplacement s p.desc p.shards then publishesFault s fn r
        else publishesFault (modTable s p.desc.table fun T => T.newVersion fn p) fn r

/-- The two previous pulses showed offsets of at most 60 ns (R400). -/
def timeSteady (s : State) : Bool :=
  decide (2 ≤ s.clock.offsets.length) && (s.clock.offsets.take 2).all fun d => decide (d ≤ 60)

/-- Check 5 of R433 for the addendum of a copy, against the floor that holds now (R423). -/
def addendumStale (s : State) (x : StagedCopy) : Bool :=
  match x.addendum with
  | some a => decide (a.seq < s.flash.floor)
  | none => false

/-- The first check that a frozen copy fails: its status and detail (R423). -/
def copyFails (s : State) (fn devices : Nat) (x : StagedCopy) : Option (Nat × Nat) :=
  if !x.regs.all (fun e => wordOk s fn devices x e.1) then some (stRejected, 0xFF)
  else if !(List.range 16).all (loftLimit s x) ∨ addendumStale s x then some (stRejected, 0xFF)
  else
    match publishesFault s fn x.publishes with
    | some st => some (st, if st = stDeferred then 0 else 0xFF)
    | none => if isGroup devices ∧ !timeSteady s then some (stDeferred, 0) else none

/-! ### APPLY (R423 to R426) -/

/-- The other devices of a group. -/
def otherDevices (s : State) (devices : Nat) : List Nat :=
  (List.range 8).filter fun d => bitOf devices d && d != s.part.device

/-- The vote of this device goes into the vote area of another by a remote write (R392, R425). How the area lays out a vote, and how
long it is there, is open: a free value stands for its 16 bytes (log entry 160). -/
def sendVote (c : Cmd) (pass : Bool) (s : State) (d : Nat) : State :=
  let s := emit s (.vote d c.group (applyTarget c) pass)
  match peerPort s d 0 with
  | some p =>
    let f := freshBytes s 16
    sendUnitOp f.2 p { op := 2, fn := 0, tag := 0, len := 16, space := 3, inner := 0x200, minor := 0, poison := false } f.1
  | none => s

/-- The vote of this device goes to every other device of the group. -/
def sendVotes (s : State) (c : Cmd) (pass : Bool) : State :=
  if !isGroup c.devices then s else (otherDevices s c.devices).foldl (sendVote c pass) s

/-- An APPLY ends: LAST_STATUS, and no copy is frozen any more. -/
def endApply (s : State) (fn cmd status detail result : Nat) : State :=
  let s := modFn s fn fun x => { x with frozen := none, lastStatus := status }
  match findCmd s cmd with
  | some c => endCmd s c status detail result
  | none => s

/-- The votes of a group apply that have arrived. -/
def votesOf (s : State) (z : FrozenCopy) : List Vote :=
  s.votes.filter fun v => v.group == z.group && v.boundary == z.boundary && bitOf z.devices v.device

/-- Room for the lofts that a copy makes larger is sought among released objects (R351, R354). -/
def seekLofts (s : State) (x : StagedCopy) : State :=
  x.regs.foldl (fun s e => match stagedPlace e.1 with
    | .loft _ L => (seekRun s (bits (stagedWord s x e.1).toNat 62 57) [L]).2
    | _ => s) s

/-- The frozen copy of an APPLY passed, or failed, its check; a vote that fails ends every device of a group alike (R425). -/
def checkApply (s : State) (c : Cmd) (fz : FrozenCopy) : State :=
  match copyFails s c.fn c.devices fz.copy with
  | some e =>
    let s := sendVotes s c false
    if isGroup c.devices then endApply s c.fn c.id stRejected 0xFF 0 else endApply s c.fn c.id e.1 e.2 0
  | none =>
    let s := modFn (sendVotes s c true) c.fn fun y => { y with frozen := some { fz with passed := true } }
    if isGroup c.devices ∧ (votesOf s fz).any fun v => !v.pass then endApply s c.fn c.id stRejected 0xFF 0
    else setCmd (seekLofts s fz.copy) { c with phase := 1 }

/-- An APPLY that froze nothing when it was accepted: it fails on its operands, with a failing vote to the rest of its group, or
another was pending then, and it votes for nothing (R421, R424, R425). -/
def refuseApply (s : State) (c : Cmd) : State :=
  match applyFault s c with
  | some (st, d) =>
    if st = stDeferred then endCmd (markApply s c st) c st d 0
    else
      let d := if isGroup c.devices ∧ bitOf c.devices s.part.device then 0xFF else d
      endCmd (markApply (sendVotes s c false) c st) c st d 0
  | none => endCmd (markApply s c stDeferred) c stDeferred 0 0

/-- APPLY's work: the copy that was frozen at its acceptance is checked, once the voting Keels agree (R423, R448). -/
def applyCmd (s : State) (c : Cmd) : State :=
  if c.phase = 1 then s
  else
    match (fnOf s c.fn).frozen with
    | some z =>
      if z.cmd ≠ c.id then refuseApply s c
      else
        let v := s.keels.ballot
        if quorumAgrees s v then checkApply (newBallot s) c z
        else disagreement (newBallot (setCmd s { c with retried := true })) v c.retried
    | none => refuseApply s c

/-- APPLY (R14, R400, R420 to R426). -/
def execApply (cmd : Nat) (s : State) : Host.Outcome State Fault Refusal := atCmd s cmd 0x0B (applyCmd s)

/-! ### Votes (R425) -/

/-- The functions with a frozen copy of a group and boundary. -/
def groupApplies (s : State) (group boundary : Nat) : List (Nat × FrozenCopy) :=
  s.fns.filterMap fun e => match e.2.frozen with
    | some z => if z.group = group ∧ z.boundary = boundary ∧ isGroup z.devices then some (e.1, z) else none
    | none => none

/-- GROUP_VOTE (R425): a vote arrives; a failing one ends the APPLY here. -/
def execGroupVote (device group boundary : Nat) (pass : Bool) (s : State) : Host.Outcome State Fault Refusal :=
  if device = s.part.device ∨ 8 ≤ device then notNow s
  else
    let s := { s with votes := s.votes ++ [{ device := device, group := group, boundary := boundary, pass := pass, at_ := now s }] }
    if pass then .next s
    else .next ((groupApplies s group boundary).foldl (fun s e =>
      if bitOf e.2.devices device then endApply s e.1 e.2.cmd stRejected 0xFF 0 else s) s)

/-- Every vote of a group has arrived in time, and passes. -/
def votesIn (s : State) (z : FrozenCopy) : Bool :=
  (otherDevices s z.devices).all fun d =>
    (votesOf s z).any fun v => v.device == d && v.pass && decide (v.at_ + 500000 ≤ z.boundary)

/-- GROUP_VOTE_DEADLINE (R425): 500,000 ns before the boundary a vote is missing. -/
def execGroupVoteDeadline (fn : Nat) (s : State) : Host.Outcome State Fault Refusal :=
  match (fnOf s fn).frozen with
  | none => notNow s
  | some z =>
    if !isGroup z.devices ∨ now s + 500000 ≤ z.boundary ∨ votesIn s z then notNow s
    else .next (endApply s fn z.cmd stDeferred 0 0)

/-! ### The apply boundary (R424) -/

/-- A window entry takes effect: the window leaves the object it mapped, and an object's window maps where it lies now. -/
def applyWindow (s : State) (fn c w : Nat) (v : DWord) : State :=
  let s := { s with objects := s.objects.map fun o => { o with windows := o.windows.filter (· != (c, w)) } }
  let e := v.toNat
  let s := setRaw s (offWindow c w) v
  if !winValid e ∨ holdsRange s fn (ctxOf s c).blocks (winBase e) (winSize e) then s
  else
    match objectAt s fn (winBase e) with
    | some o =>
      let o := { o with windows := o.windows ++ [(c, w)] }
      mapObject (modObject s o.handle fun _ => o) o
    | none => s

/-- A ring whose EN or geometry changes starts again at record 0 (GATHER_RING_RESTART). -/
def applyRing (s : State) (c L k : Nat) (v : DWord) : State :=
  let old := rawReg s (offRing c L k)
  let s := setRaw s (offRing c L k) v
  if old = v then s
  else
    let s := modCtxRegion s c L fun x =>
      match k with
      | 0 => { x with gatherNext := 0 }
      | 1 => { x with reduceNext := 0 }
      | _ => { x with winchNext := 0 }
    if ringEn s c L k then writeConsumed s c L k 0 else s

/-- A change of EN or SIZE empties both halves and moves the loft's units (R219): it takes a run that is free, or waits for
the requests that were accepted against the objects that leave it (R355). A fill in progress fills neither half any more. -/
def applyLoft (s : State) (c L : Nat) (v : DWord) : State :=
  let old := (rawReg s (offLoft c L)).toNat
  let s := setRaw s (offLoft c L) v
  if bits old 63 57 = bits v.toNat 63 57 then s
  else
    let s := freeUnits s L fun u => u == .loft c
    let s := modRegion s L fun R =>
      { R with
        lofts := mdel R.lofts c
        gatherJobs := R.gatherJobs.map fun j => if j.ctx = c ∧ j.rcd.op = 4 then { j with half := none } else j
        loftWaits := R.loftWaits.filter (· != c) ++ (if bitOf v.toNat 63 then [c] else []) }
    freedUnits s

/-- A change of the power control register: the lift offset returns to 0 when LIFT_EN is cleared or LIFT_GROUP changes (R477). -/
def applyPower (s : State) (v : DWord) : State :=
  let old := (rawReg s offPower).toNat
  let s := setRaw s offPower v
  if bitOf v.toNat 63 ∧ bits old 55 48 = bits v.toNat 55 48 then s
  else { s with power := { s.power with liftOffset := 0, reports := [] } }

/-- A change of a link control register: EN 0 drains the port, WITHDRAW begins to move a lane (R391). -/
def applyLink (s : State) (n : Nat) (v : DWord) : State :=
  modLink (setRaw s (offLinkCtl n) v) n fun l =>
    { l with draining := !bitOf v.toNat 63, withdrawing := bitOf v.toNat 62 && !l.spareFor.isSome }

/-- A staged word takes effect. -/
def applyWord (fn : Nat) (s : State) (e : Nat × DWord × DWord) : State :=
  let v := overlay (rawReg s e.1) e.2.1 e.2.2
  match stagedPlace e.1 with
  | .window c w => applyWindow s fn c w v
  | .ring c L k => applyRing s c L k v
  | .loft c L => applyLoft s c L v
  | .power => applyPower s v
  | .link n => applyLink s n v
  | .pcie =>
    { setRaw s e.1 v with
      board := { s.board with serveSwitch :=
        if (bitOf v.toNat 62 == bitOf (rawReg s e.1).toNat 62) = true then s.board.serveSwitch else none } }
  | _ => setRaw s e.1 v

def isWindowWord (e : Nat × DWord × DWord) : Bool :=
  match stagedPlace e.1 with
  | .window _ _ => true
  | _ => false

/-- The shards that a re-placement has moved to another device: the old owner and the new one. -/
def movedOwners (old new : List ShardEntry) : List (Nat × Nat) :=
  ((old.zip new).filter fun x => x.1.device != x.2.device).map fun x => (x.1.owner, x.2.owner)

/-- An owner after a re-placement: the new owner of its shards, or its region on the new device of the replaced one. -/
def reownered (ms : List (Nat × Nat)) (owner : Nat) : Nat :=
  match ms.find? fun m => m.1 == owner with
  | some m => m.2
  | none =>
    match ms.find? fun m => m.1 / 16 == owner / 16 with
    | some m => m.2 / 16 * 16 + owner % 16
    | none => owner

/-- A directory entry after a re-placement (R202). -/
def DirEntry.reowned (ms : List (Nat × Nat)) (e : DirEntry) : DirEntry :=
  { e with owner := reownered ms e.owner, prevOwner := reownered ms e.prevOwner }

/-- A live version after a re-placement: the version itself has a new map and new areas; in the others the areas of a replaced
owner go with it. -/
def TableVersion.replaced (ms : List (Nat × Nat)) (p : Publish) (v : TableVersion) : TableVersion :=
  if v.desc.version = p.desc.version then { v with shards := p.shards, mig := p.mig }
  else { v with mig := v.mig.foldl (fun m e => mset m (reownered ms e.1) e.2) [] }

/-- A table after a re-placement: directory entries, staged moves and handovers in progress that name a replaced owner name
the new one (R202). -/
def TableState.replaced (T : TableState) (ms : List (Nat × Nat)) (p : Publish) : TableState :=
  { T with
    versions := T.versions.map (TableVersion.replaced ms p)
    dir := T.dir.map fun e => (e.1, e.2.reowned ms)
    moves := T.moves.map fun m => { m with newOwner := reownered ms m.newOwner }
    handovers := T.handovers.map fun h => { h with oldOwner := reownered ms h.oldOwner, newOwner := reownered ms h.newOwner } }

/-- A publish takes effect: a new version becomes current, with its moved rows in place (R199, R215; log entry 154), or a live one
is placed anew; a re-placement of one that has been released since its check makes none live (R202). -/
def applyPublish (fn : Nat) (s : State) (p : Publish) : State :=
  let t := p.desc.table
  match findVersion s t p.desc.version with
  | some v => modTable s t fun T => T.replaced (movedOwners v.shards p.shards) p
  | none =>
    if (tableOf s t).versions ≠ [] ∧ p.desc.version ≤ (tableOf s t).current then s
    else
      let s := modTable s t fun T => T.newVersion fn p
      releaseVersions (fillMoved s t { desc := p.desc, shards := p.shards, mig := p.mig }) t

/-- The flash slot that holds an addendum, else the one that has been active. -/
def addendumSlot (f : Flash) (a : Addendum) : Nat :=
  if f.addendum0.held = some a then 0 else if f.addendum1.held = some a then 1 else f.activeSlot

/-- An addendum takes effect: the vectors switch to the loaded bank, the floor rises, LOWER_REV changes (R434). -/
def applyAddendum (s : State) (a : Addendum) : State :=
  let s := { s with
    addendum := some a
    loadBank := s.addendum
    flash := { s.flash with floor := a.seq, activeSlot := addendumSlot s.flash a } }
  newRevision (storeRecord s) a.lowerRev

/-- Every staged change of a copy takes effect at once (R15, R424): windows first, for what the others name through them. -/
def applyCopy (s : State) (fn : Nat) (x : StagedCopy) : State :=
  let s := (x.regs.filter isWindowWord).foldl (applyWord fn) s
  let s := (x.regs.filter fun e => !isWindowWord e).foldl (applyWord fn) s
  let s := x.publishes.foldl (applyPublish fn) s
  match x.addendum with
  | some a => applyAddendum s a
  | none => s

/-- STAGED_APPLY_BOUNDARY (R15, R47, R203, R219, R400, R424, R425): at its boundary, an epoch boundary, a frozen copy that
passed takes effect. -/
def execStagedApplyBoundary (fn : Nat) (s : State) : Host.Outcome State Fault Refusal :=
  match (fnOf s fn).frozen with
  | none => notNow s
  | some z =>
    if !z.passed ∨ !isBoundary (now s) ∨ now s ≠ z.boundary ∨ (isGroup z.devices ∧ !votesIn s z) then notNow s
    else if isGroup z.devices ∧ !timeSteady s then .next (endApply s fn z.cmd stDeferred 0 0)
    else .next (endApply (applyCopy s fn z.copy) fn z.cmd stOk 0 (bits z.boundary 51 20))

end Sys2Proof.Machine
end

