-- ==== Sys2Proof/Machine/Checkpoint.lean ====
section
/-! DEFINITION. Checkpoints (16 R454 to R459) and firmware addenda (15 R432 to R434). -/

namespace Sys2Proof.Machine

open Sys2Proof

/-- What a checkpoint body holds that this device has not written itself: its layout is private to the generation (R456). -/
opaque foreignParts : List Byte → CheckpointParts

/-! ### Quiet contexts (R454) -/

/-- A thread has halted, is parked, or waits in TAKE. -/
def Thread.quiet (th : Thread) : Bool :=
  match th.run with
  | .ended => true
  | .parked _ => true
  | .taking _ _ => true
  | _ => false

/-- A region holds nothing of a context that is outstanding. -/
def regionQuiet (s : State) (ctx L : Nat) : Bool :=
  let R := regionOf s L
  let x := ctxRegionOf (ctxOf s ctx) L
  (R.reels.all fun u => (u.2.queue.all fun j => j.ctx != ctx) && match u.2.running with
    | some r => r.job.ctx != ctx
    | none => true) &&
    (R.gatherJobs.all fun j => j.ctx != ctx) && (R.winch.all fun e => e.ctx != ctx) && (R.seqr.jobs.all fun j => j.ctx != ctx) &&
    !ringHas s ctx L 0 x.gatherNext && !ringHas s ctx L 1 x.reduceNext && !ringHas s ctx L 2 x.winchNext &&
    (R.seqr.tails.all fun t => t.ctx != ctx) && (R.ready.all fun e => e.1.1 != ctx || e.2.isEmpty) &&
    (R.delay.all fun d => d.ctx != ctx)

/-- A context is quiet. -/
def isQuiet (s : State) (ctx : Nat) : Bool :=
  (s.requests.all fun r => r.ctx != ctx) && (s.ops.all fun q => q.t.ctx != ctx) && (ctxRegions s ctx).all (regionQuiet s ctx) &&
    s.threads.all fun e => e.1.ctx != ctx || e.2.quiet

/-! ### The header (R456) -/

/-- The digest of a context's block list (Table 16.7). -/
def ownershipDigest (x : Context) : BitVec 384 := Config.sha384 (x.blocks.flatMap fun b => leBytes 2 (b.1 * 32 + b.2))

/-- The 48 bytes of a digest. -/
def digestBytes (d : BitVec 384) : List Byte := leBytes 48 d.toNat

/-- The header of a checkpoint (Table 16.7). -/
def headerOf (s : State) (x : Context) (im : Image) (B : Nat) (body : List Byte) (pins : Nat) : List Byte :=
  [0x42, 0x4E, 0x43, 0x50] ++ leBytes 2 1 ++ leBytes 1 1 ++ leBytes 1 x.fn ++ leBytes 8 B ++ leBytes 8 (now s) ++
    leBytes 4 x.outcomes ++ leBytes 2 x.blocks.length ++ leBytes 2 pins ++ digestBytes im.digest ++
    digestBytes (ownershipDigest x) ++ digestBytes (Config.sha384 body) ++ List.replicate 80 0

/-! ### CHECKPOINT -/

def Cmd.area (c : Cmd) : Nat := c.field 8 8
def Cmd.limit (c : Cmd) : Nat := c.field 0x10 4
def Cmd.rate (c : Cmd) : Nat := c.field 0x14 4

/-- AREA is T2 that the function holds; RATE runs from 1 to 256. -/
def areaFault (s : State) (c : Cmd) (n : Nat) : Option Nat :=
  if spaceOf c.area ≠ 0 ∨ !holdsRange s c.fn [] c.area n then some 8
  else if c.rate = 0 ∨ 256 < c.rate then some 0x14
  else none

/-- The bases of some windows of a command's context. -/
def windowBases (s : State) (c : Cmd) (ws : List Nat) : List Nat := ws.map fun w => winBase (winEntry s c.ctx w)

/-- The path of a copy that the device makes at a rate: it reads from one address at a time, and writes to one at a time
(R58). -/
def copyPath (s : State) (from_ to_ : List Nat) (rate : Nat) : List (Hop × Nat) :=
  (mergeHops (from_.flatMap fun a => readHops s 0xFF a rate) ++ mergeHops (to_.flatMap fun a => writeHops s 0xFF a rate)).filter
    fun h => h.1 != .portIn 0xFF && h.1 != .portOut 0xFF

/-- The command ends; a context that it paused runs again (R455). -/
def endCheckpoint (s : State) (c : Cmd) (status detail result : Nat) : State :=
  endCmd (if c.phase = 1 ∧ (ctxOf s c.ctx).state = .paused then resumeCtx s c.ctx else s) c status detail result

/-- Checkpoint pins replace those that an earlier checkpoint in AREA held (R457). -/
def pinCheckpoint (s : State) (c : Cmd) : State :=
  let s := dropAreas s c.area 1
  { s with keptPins := s.keptPins ++ (((ctxPins s c.ctx).map fun k => (k.table, k.version)).eraseDups).map fun (t, v) =>
      { ctx := c.ctx, fn := c.fn, table := t, version := v, epoch := none, area := some c.area } }

/-- A held window is read: on a peer by read operations, and where it holds poison the context is told (R392, R501). -/
def readHeld (c : Cmd) (s : State) (w : WindowPart) : State :=
  let base := winBase (winEntry (c.view s) c.ctx w.window)
  let s := askPeer s c.fn base w.size
  match w.poison with
  | i :: _ => poisonEvent s c.ctx (base + i)
  | [] => s

/-- The copy: the body, then the header (R456). -/
def writeCheckpoint (s0 : State) (c : Cmd) (im : Image) (p : CheckpointParts) : State :=
  let s := p.windows.foldl (readHeld c) s0
  let x := ctxOf s c.ctx
  let body := (List.range (c.size - 256)).map (Config.checkpointByte s.freeCounter)
  let head := headerOf s x im c.size body p.pins.length
  let s := devWrite s c.fn (c.area + 256) body
  let s := devWrite s c.fn c.area head
  pinCheckpoint { s with checkpoints := s.checkpoints ++ [(body, p)], freeCounter := s.freeCounter + 1 } c

/-- The copy of a quiet context, through the windows of the acceptance, once B fits and the rates are reserved (R424, R455). -/
def copyCheckpoint (s : State) (c : Cmd) (im : Image) : State :=
  let p := heldParts (c.view s) c.ctx
  let B := if c.size = 0 then checkpointSize (c.view s) c.ctx else c.size
  if c.limit < B then endCheckpoint s c stRejected 0x10 0
  else
    match areaFault s c B with
    | some d => endCheckpoint s c stRejected d 0
    | none =>
      if 4096 < keptCount s + p.pins.length then s
      else
        let c := { c with size := B }
        let s := reserveRates (setCmd s c) (.copyCmd c.id) none (stackAt c.area)
          (copyPath s (windowBases (c.view s) c (heldWindows (ctxOf s c.ctx))) [c.area] c.rate)
        match ratesSince s (.copyCmd c.id) with
        | none => s
        | some _ => endCheckpoint (writeCheckpoint s c im p) c stOk 0 (ceilDiv B 65536)

/-- CHECKPOINT's work: a running context is paused first, and a context that is not quiet is left alone. -/
def checkpointCmd (s : State) (c : Cmd) : State :=
  let x := ctxOf s c.ctx
  match areaFault s c 256 with
  | some d => endCheckpoint s c stRejected d 0
  | none =>
    if x.state = .running then
      if c.phase ≠ 0 then s
      else if x.breaking then setCmd s { c with phase := 2 }
      else setCmd (beginBreak s c.ctx { BreakInfo.zero with cause := 3, time := now s } none) { c with phase := 1 }
    else
      match x.image with
      | none => endCheckpoint s c stRejected 4 0
      | some im => if isQuiet s c.ctx then copyCheckpoint s c im else endCheckpoint s c stDeferred 0 0

/-- CHECKPOINT (R454 to R457, R420). -/
def execCheckpoint (cmd : Nat) (s : State) : Host.Outcome State Fault Refusal := atCmd s cmd 0x11 (checkpointCmd s)

/-! ### RESTORE (R458, R459) -/

/-- The parts of a body: those that this device has written, the latest first. -/
def partsOf (s : State) (body : List Byte) : CheckpointParts :=
  match s.checkpoints.reverse.find? fun e => e.1 == body with
  | some e => e.2
  | none => foreignParts body

/-- The header and body of a checkpoint pass every check of R458 for a context. -/
def restoreFault (s : State) (c : Cmd) (h body : List Byte) : Option Nat :=
  let x := ctxOf s c.ctx
  let p := partsOf s body
  if fieldAt h 0 4 ≠ 0x50434E42 ∨ fieldAt h 4 2 ≠ 1 ∨ fieldAt h 6 1 ≠ 1 ∨ fieldAt h 7 1 ≠ c.fn then some 0xFF
  else if c.limit < fieldAt h 8 8 then some 0x10
  else if !holdsRange s c.fn [] c.area (fieldAt h 8 8) then some 8
  else if fieldAt h 0x20 48 ≠ ((x.image.map Image.digest).getD 0).toNat ∨ fieldAt h 0x50 48 ≠ (ownershipDigest x).toNat ∨
      fieldAt h 0x80 48 ≠ (Config.sha384 body).toNat then some 0xFF
  else if !(p.windows.all fun w =>
      let e := winEntry (c.view s) c.ctx w.window
      winValid e && decide (w.size ≤ winSize e)) then some 0xFF
  else if !(p.pins.all fun k => (findVersion s k.1 k.2).isSome) then some 0xFF
  else none

/-- One window is written as the checkpoint holds it, where it mapped when the RESTORE was accepted (R424); the bytes of a peer's memory are free (log entry 13). -/
def restoreWindow (s : State) (c : Cmd) (w : WindowPart) : State :=
  let fn := c.fn
  let base := winBase (winEntry (c.view s) c.ctx w.window)
  if spaceOf base = 4 then
    let b := freshBytes s w.size
    devWrite b.2 fn base b.1
  else
    let a := memKey s base
    let m := s.mem.eraseWhere fun x => decide (a ≤ x ∧ x < a + w.size)
    let m := w.cells.foldl (fun m e => m.putByte (a + e.1) e.2) m
    let s := { s with mem := { m with poison := m.poison ++ w.poison.map (a + ·) } }
    if spaceOf base = 0 then (pagesOf base w.size).foldl updatePage s
    else if spaceOf base = 5 then s
    else markWritten s base w.size

/-- A row goes where the directory places it now, with its accumulator: in this device's memory, or by remote writes in that of
the peer that owns it by then (log entry 71). -/
def restoreRow (s : State) (L t : Nat) (v : TableVersion) (x : Nat × List Byte × List Byte) : State :=
  let T := tableOf s t
  let p := placeNow T v x.1
  let at_ := fun a : Nat => if p.1 / 16 = s.part.device then a else peerAddr (p.1 / 16) 0 (a % 2 ^ 41)
  let s := ownerStore s L T.fn none (at_ (rowAddr v x.1 p)) x.2.1
  if v.desc.grad then ownerStore s L T.fn none (at_ (rowAcc v x.1 p)) x.2.2 else s

/-- The tables of a checkpoint. -/
def restoreTable (L : Nat) (s : State) (x : TablePart) : State :=
  match findVersion s x.table x.version with
  | some v => x.rows.foldl (fun s r => restoreRow s L x.table v r) s
  | none => s

/-- The kept pins of a checkpoint take the place of the context's. -/
def restorePins (s : State) (ctx fn : Nat) (pins : List (Nat × Nat)) : State :=
  let old := ((ctxPins s ctx).map (·.table)).eraseDups
  let s := { s with keptPins := (s.keptPins.filter fun k => !(k.ctx == ctx && k.area.isNone)) ++ pins.map fun (t, v) =>
      { ctx := ctx, fn := fn, table := t, version := v, epoch := some (tableOf s t).epoch, area := none } }
  old.foldl releaseVersions s

/-- A matching entry goes to its cell. -/
def restoreEntry (ctx : Nat) (s : State) (e : Nat × Nat × MatchEntry) : State :=
  match cellPlace (ctxOf s ctx) e.1 with
  | some (L, pos) => setEntry s L pos e.2.1 e.2.2
  | none => s

/-- Every ring of a context in a region stands at record 0, doorbell and consumed count zero. -/
def zeroRings (ctx : Nat) (s : State) (L : Nat) : State :=
  let s := modCtxRegion s ctx L fun x => { x with gatherNext := 0, reduceNext := 0, winchNext := 0 }
  [0, 1, 2].foldl (fun s k => if ringEn s ctx L k then winWrite s ctx none (ringBase s ctx L k) (List.replicate 8 0) else s) s

/-- WS fields of the numerics registers (Tables 10.7 to 10.9). -/
def restoreNumerics (s : State) (ctx : Nat) (p : CheckpointParts) : State :=
  let s := setRaw s (offRecipe ctx) p.recipe
  setRaw (setRaw s (offScaleMode ctx) p.scaleMode) (offRoundSeed ctx) p.roundSeed

/-- MARK of the recovery register (Table 16.8). -/
def recoveryMark (s : State) (ctx : Nat) : Bool := bitOf (rawReg s (offRecovery ctx)).toNat 63

/-- Everything that RESTORE writes. -/
def restoreAll (s : State) (c : Cmd) (h : List Byte) (p : CheckpointParts) : State :=
  let ctx := c.ctx
  let L := (ctxRegions s ctx).headD 0
  let s := p.windows.foldl (fun s w => restoreWindow s c w) s
  let s := restorePins (p.tables.foldl (restoreTable L) s) ctx c.fn p.pins
  let s := p.lofts.foldl (fun s l => modRegion s l.1 fun R => { R with lofts := mset R.lofts ctx l.2 }) s
  let s := (ctxRegions s ctx).foldl (fun s L => dropTasks s L ctx) s
  let s := p.entries.foldl (restoreEntry ctx) s
  let s := { s with threads := s.threads.map fun e =>
      if e.1.ctx = ctx then (e.1, { e.2 with watch := Vector.replicate 16 WatchSlot.empty }) else e }
  let s := sweepWakes s
  let s := restoreNumerics ((ctxRegions s ctx).foldl (zeroRings ctx) s) ctx p
  let left := if recoveryMark s ctx then none else some p.recipeLeft
  let s := setRaw s (offRecovery ctx) 0
  modCtx s ctx fun x =>
    { x with recipeLeft := p.recipeLeft, restoredLeft := left, restores := satAdd 0xFFFF x.restores 1, lastOutcomes := fieldAt h 0x18 4 % 2 ^ 20 }

/-- RESTORE's work. -/
def restoreCmd (s : State) (c : Cmd) : State :=
  match areaFault s c 256 with
  | some d => endCmd s c stRejected d 0
  | none =>
    let h := devRead s c.area 256
    let B := fieldAt h 8 8
    let body := devRead s (c.area + 256) (B - 256)
    match restoreFault s c h body with
    | some d => endCmd s c stRejected d 0
    | none =>
      let p := partsOf s body
      let c := { c with size := B }
      let s := reserveRates (setCmd s c) (.copyCmd c.id) none none
        (copyPath s [c.area] (windowBases (c.view s) c (p.windows.map (·.window))) c.rate)
      match ratesSince s (.copyCmd c.id) with
      | none => s
      | some _ => endCmd (restoreAll s c h p) c stOk 0 0

/-- RESTORE (R458, R459, R420). -/
def execRestore (cmd : Nat) (s : State) : Host.Outcome State Fault Refusal := atCmd s cmd 0x12 (restoreCmd s)

/-! ### ADDENDUM (R432 to R434) -/

/-- Override entries of an addendum: vector, reserved, code offset. -/
def overrides (b : List Byte) : List (Nat × Nat × Nat) :=
  (List.range (fieldAt b 6 2)).map fun i =>
    (fieldAt b (0x40 + 8 * i) 2, fieldAt b (0x42 + 8 * i) 2, fieldAt b (0x44 + 8 * i) 4)

/-- Bytes of an addendum by its own fields (Table 15.18). -/
def addendumLength (b : List Byte) : Nat := r64 (0x40 + 8 * fieldAt b 6 2) + fieldAt b 0x10 4 + 96

/-- Check 1: MAGIC, FORMAT, reserved fields, sizes and LENGTH. -/
def addendumShape (b : List Byte) : Bool :=
  fieldAt b 0 4 == 0x44414E42 && fieldAt b 4 2 == 1 && decide (1 ≤ fieldAt b 6 2 ∧ fieldAt b 6 2 ≤ 1024) &&
    fieldAt b 0x10 4 % 64 == 0 && decide (fieldAt b 0x10 4 ≤ 262144) && zeroBytes b 0x17 41 &&
    ((overrides b).all fun x => x.2.1 == 0) && b.length == addendumLength b

/-- The addendum that an image holds. -/
def readAddendum (b : List Byte) : Addendum :=
  { seq := fieldAt b 0x0C 4, lowerRev := fieldAt b 0x14 2, vectors := (overrides b).map fun x => (x.1, x.2.2),
    romRev := BitVec.ofNat 32 (fieldAt b 8 4), key := fieldAt b 0x16 1, image := b }

/-- The first check of R433 that an image fails, which a stored addendum meets again at power-on (R434). -/
def addendumFault (s : State) (b : List Byte) : Option Nat :=
  let a := readAddendum b
  if !addendumShape b then some 1
  else if 3 < a.key ∨ Config.keyRevoked a.key then some 2
  else if !Config.ecdsaVerifies b a.key then some 3
  else if a.romRev ≠ s.part.romRev then some 4
  else if a.seq = 0 ∨ a.seq < s.flash.floor then some 5
  else if (overrides b).all fun x => decide (x.1 < 1024 ∧ x.2.2 < fieldAt b 0x10 4) then none
  else some 6

/-- The address of an addendum: host memory, or memory of any kind that the function holds (R420). -/
def addendumPlace (s : State) (c : Cmd) : Bool := holdsRange s c.fn (fnBlocks s c.fn) (c.field 8 8) (c.field 0x10 4)

/-- ADDENDUM's work: the loading bank, the board flash and the managing function's open copy take it. -/
def addendumCmd (s : State) (c : Cmd) : State :=
  if !addendumPlace s c then endCmd s c stRejected 0xFF 0
  else
    let b := imageBytes s c
    match addendumFault s b with
    | some d => endCmd s c stRejected d 0
    | none =>
      let a := readAddendum b
      let s := { storeAddendum s a with loadBank := some a }
      let s := modFn s c.fn fun x => { x with open_ := { x.open_ with addendum := some a } }
      endCmd s c stOk 0 a.seq

/-- ADDENDUM (R432, R433, R420). -/
def execAddendum (cmd : Nat) (s : State) : Host.Outcome State Fault Refusal := atCmd s cmd 0x13 (addendumCmd s)

end Sys2Proof.Machine
end

