-- ==== Sys2Proof/Machine/Links.lean ====
section
/-! DEFINITION. Device links (14 R380 to R396): bring-up, flits, replay, lanes, operations from peers, the loss of a peer; and
the epoch pulse (14 R397 to R400). -/

namespace Sys2Proof.Machine

open Sys2Proof

/-! ### The mesh -/

/-- The device and the port at the other end of a port (R380). -/
def farEnd (s : State) (p : Nat) : Nat × Nat :=
  if p < 7 then ((s.part.device + p + 1) % 8, 6 - p) else (s.part.device ^^^ 4, 7)

/-- Ports that are up. -/
def upPorts (s : State) : List Nat := (List.range 8).filter (portUp s)

/-- EN of a link control register. -/
def portEnabled (s : State) (p : Nat) : Bool := bitOf (rawReg s (offLinkCtl p)).toNat 63

/-! ### Bring-up (R383) -/

/-- Lanes that trained and have not failed since power-on (R389). -/
def usableLanes (l : Link) (lanes : BitVec 9) : List Nat :=
  (List.range 9).filter fun n => lanes.getLsbD n && !l.failedLanes.contains n

/-- The lanes that carry data: 0 to 7, the spare in place of one that is missing, or the 7 that are left (R389, R390). -/
def chosenLanes (usable : List Nat) : List Nat := if 9 ≤ usable.length then List.range 8 else usable

/-- The data lane whose traffic the spare carries. -/
def sparedLane (lanes : List Nat) : Option Nat :=
  if lanes.contains 8 then (List.range 8).find? fun n => !lanes.contains n else none

/-- A port that may train: connected, enabled, powered, its reference there, the quorum formed. -/
def mayTrain (s : State) (p : Nat) : Bool :=
  decide (p < 8) && s.board.wired.contains p && s.board.started && s.keels.formed && (linkOf s p).refclk &&
    portEnabled s p && !(linkOf s p).up

/-- PORT_BRINGUP (R383): the lanes in `lanes` have trained; with at least 7 of them the port sends its identity, in which the
firmware revision is the ROM's (log entry 83). -/
def execPortBringup (port : Nat) (lanes : BitVec 9) (s : State) : Host.Outcome State Fault Refusal :=
  if !mayTrain s port then notNow s
  else
    let usable := usableLanes (linkOf s port) lanes
    if usable.length < 7 then .next (modLink s port fun l => { l with training := false, lanes := [] })
    else
      let chosen := chosenLanes usable
      let s := modLink s port fun l => { l with training := true, lanes := chosen, spareFor := sparedLane chosen }
      .next (emit s (.identity port s.part.device port s.flash.boardSerial s.part.romRev))

/-- A port comes up: sequence numbers start at 0, and the peer's receive buffer is empty (R385, R387). -/
def portComesUp (s : State) (p : Nat) : State :=
  let s := modLink s p fun l =>
    { l with
      up := true, training := false, sendSeq := 0, outq := [], replay := [], recvSeq := 0, discarding := false, failSeq := 0
      freed := 0, lent := 768
      failCount := 0, nakAck := 0, nakCount := 0, draining := false, wiringFault := false
      rateBlocked := decide (l.lanes.length = 7) }
  let s := setLedger s (.linkDie (portDie p)) (.flits p) { lots := [] }
  let s := setDest s (.flits p) { destOf s (.flits p) with free := resourceTotal (.flits p) }
  serveLending s (.flits p) (destOf s (.flits p)).waiting.length

/-- When one half of the double link goes down, the accepted transfers on it reserve their whole rate on the other (R390, R393). -/
def moveHalves (s : State) (p : Nat) : State :=
  if (p = 3 ∨ p = 7) ∧ portUp s (10 - p) then
    { s with transfers := s.transfers.map fun x =>
        { x with hops := sumHops (x.hops.map fun e =>
            (match e.1 with
             | .link q out => if q = p then Hop.link (10 - p) out else e.1
             | h => h, e.2)) } }
  else s

/-- A port goes down: what it had not delivered is gone. -/
def portGoesDown (s : State) (p : Nat) : State :=
  moveHalves (modLink s p fun l =>
    { l with up := false, training := false, lanes := [], outq := [], replay := [], draining := false, withdrawing := false }) p

/-- IDENTITY_FLIT (R383): the identity of the peer is held against R380 and the board serial. -/
def execIdentityFlit (port device peerPort : Nat) (serial : DWord) (s : State) : Host.Outcome State Fault Refusal :=
  if !(linkOf s port).training then notNow s
  else if farEnd s port = (device, peerPort) ∧ serial = s.flash.boardSerial then .next (portComesUp s port)
  else
    .next (emit (modLink s port fun l => { l with training := false, lanes := [], wiringFault := true })
      (.wiringFault port))

/-! ### Flits (R384 to R387) -/

/-- The data flits that an ACK covers leave the replay buffer (R385). -/
def dropAcked (ack : Nat) (l : List (Nat × List Byte)) : List (Nat × List Byte) :=
  match l.findIdx? (fun e => e.1 == ack) with
  | some i => l.drop (i + 1)
  | none => l

/-- The data flits that wait at a port leave as far as room and credits go. -/
def pumpPort (s : State) (port : Nat) : State := sendFlits port (linkOf s port).outq.length s

/-- ACK and CREDITS of a flit that is not discarded; credits return in units of 8 flits (Table 14.3). -/
def takeAck (s : State) (port ack credits : Nat) : State :=
  let s := modLink s port fun l => { l with replay := dropAcked ack l.replay }
  let d := destOf s (.flits port)
  let n := Nat.min (8 * credits) (resourceTotal (.flits port) - d.free)
  pumpPort (giveBack s (.flits port) n) port

/-- The one NAK of a run of discarded flits: it carries the last good SEQ (R385). -/
def sendNak (s : State) (port : Nat) : State := emitFlit s port 2 0 []

/-- The idle flit that answers: the stream is continuous, and the first idle flit after a change of ACK or CREDITS is listed (R384;
log entry 83). -/
def sendIdle (s : State) (port : Nat) : State := emitFlit s port 1 0 []

/-- A data flit with a bad CRC: discarded and counted; a NAK for the first of a run, and for the expected flit each time it
fails again. -/
def badFlit (s : State) (port seq : Nat) : State :=
  let l := linkOf s port
  let again := !l.discarding || seq == l.recvSeq
  let s := modLink s port fun l =>
    { l with
      crcErrors := satAdd 0xFFFF l.crcErrors 1
      discarding := true
      failCount := if !again then l.failCount else if l.failSeq = l.recvSeq then l.failCount + 1 else 1
      failSeq := if again then l.recvSeq else l.failSeq }
  let s := { s with life := { s.life with portCrc := mmod 0 s.life.portCrc port (· + 1) } }
  if again then sendNak s port else s

/-- DATA_FLIT (R385, R387): accepted only in SEQ order and with a good CRC; the operations that end in it go to the port's
receive buffer. A flit beyond the credits that this end has lent cannot come (R387, R396). -/
def execDataFlit (port seq ack credits : Nat) (crcOk : Bool) (ops : List (OpHeader × List Byte)) (s : State) :
    Host.Outcome State Fault Refusal :=
  let l := linkOf s port
  if !l.up ∨ l.lent = 0 then notNow s
  else if !crcOk then .next (badFlit s port seq)
  else if seq ≠ l.recvSeq then
    if l.discarding then .next s
    else .next (sendNak (modLink s port fun l => { l with discarding := true }) port)
  else
    let s := modLink s port fun l =>
      { l with
        recvSeq := (l.recvSeq + 1) % 4096, discarding := false, failCount := 0, inbox := l.inbox ++ ops, lent := l.lent - 1 }
    .next (sendIdle (takeAck s port ack credits) port)

/-- Every unacknowledged data flit is sent again, in SEQ order (R385). -/
def resendAll (s : State) (port : Nat) : State :=
  (linkOf s port).replay.foldl (fun s e => emitFlit s port 0 e.1 e.2) s

/-- NAK (R385). -/
def execNak (port ack : Nat) (crcOk : Bool) (s : State) : Host.Outcome State Fault Refusal :=
  if !portUp s port then notNow s
  else if !crcOk then .next s
  else
    let s := modLink s port fun l =>
      { l with
        replays := satAdd 0xFFFF l.replays 1
        replay := dropAcked ack l.replay
        nakCount := if l.nakAck = ack then l.nakCount + 1 else 1
        nakAck := ack }
    .next (pumpPort (resendAll s port) port)

/-- IDLE_FLIT (R384, R387). -/
def execIdleFlit (port ack credits : Nat) (crcOk : Bool) (s : State) : Host.Outcome State Fault Refusal :=
  if !portUp s port then notNow s else if !crcOk then .next s else .next (takeAck s port ack credits)

/-- LINK_RETRAIN (R386): the same data flit has failed eight times in succession, at this end or at the other. -/
def execLinkRetrain (port : Nat) (s : State) : Host.Outcome State Fault Refusal :=
  let l := linkOf s port
  if !l.up ∨ (l.failCount < 8 ∧ l.nakCount < 8) then notNow s
  else
    let s := modLink s port fun l =>
      { l with retrains := satAdd 0xFFF l.retrains 1, failCount := 0, nakCount := 0 }
    let s := { s with life := { s.life with portRetrains := mmod 0 s.life.portRetrains port (· + 1) } }
    .next (resendAll s port)

/-! ### Lanes (R389 to R391) -/

/-- The traffic of a lane moves to the spare. -/
def Link.spare (l : Link) (lane : Nat) : Link :=
  { l with lanes := l.lanes.map (fun n => if n = lane then 8 else n), spareFor := some lane, withdrawing := false }

/-- The spare can take a lane. -/
def Link.spareFree (l : Link) : Bool := l.spareFor.isNone && !l.failedLanes.contains 8

/-- A lane's traffic moves to the spare: the other end is told, and the fault log has an entry (R389, R436). -/
def toSpare (s : State) (port lane : Nat) : State :=
  logFault (emit (modLink s port fun l => l.spare lane) (.laneChange port lane)) 0x0A 0xFF port 0xFF lane

/-- LANE_CHANGE_FLIT (R389): the peer moves a lane's traffic to the spare; this end follows and answers. -/
def execLaneChangeFlit (port lane : Nat) (crcOk : Bool) (s : State) : Host.Outcome State Fault Refusal :=
  let l := linkOf s port
  if !l.up then notNow s
  else if !crcOk ∨ !l.spareFree ∨ !l.lanes.contains lane then .next s
  else .next (toSpare s port lane)

/-- A lane is gone for this power-on, and the lifetime record keeps it (R389, R465); the log entry is that of the sparing or of
the loss that follows. -/
def recordLane (s : State) (port lane : Nat) : State :=
  let s := modLink s port fun l => { l with failedLanes := l.failedLanes ++ [lane] }
  let s := { s with life := { s.life with
    portLanes := mmod [] s.life.portLanes port fun x => if x.contains lane then x else x ++ [lane] } }
  recordRetirement s 3 port lane

/-- A data lane has failed and the spare cannot take it: 7 lanes carry on, fewer take the port down (R390). -/
def loseLane (s : State) (port lane : Nat) : State :=
  let s := modLink (logFault s 0x0A 0xFF port 0xFF lane) port fun l => { l with lanes := l.lanes.filter (· != lane) }
  if (linkOf s port).lanes.length < 7 then portGoesDown s port
  else emit (modLink s port fun l => { l with rateBlocked := true }) (.lossOfRedundancy port)

/-- LANE_FAILURE (R389, R390). -/
def execLaneFailure (port lane : Nat) (s : State) : Host.Outcome State Fault Refusal :=
  let l := linkOf s port
  if !l.up ∨ 8 < lane ∨ l.failedLanes.contains lane then notNow s
  else
    let s := recordLane s port lane
    if !l.lanes.contains lane then .next (logFault s 0x0A 0xFF port 0xFF lane)
    else if l.spareFree ∧ lane ≠ 8 then .next (toSpare s port lane)
    else .next (loseLane s port lane)

/-- LANE_WITHDRAW (R391): after the apply that set WITHDRAW, the lane LANE moves onto the spare. -/
def execLaneWithdraw (port : Nat) (s : State) : Host.Outcome State Fault Refusal :=
  let l := linkOf s port
  if !l.up ∨ !l.withdrawing ∨ !l.spareFree then notNow s
  else
    .next (toSpare s port (rawField s (offLinkCtl port) 61 58))

/-- Something accepted still uses a port: an operation, a transfer, a flit not acknowledged, an operation not performed. -/
def portBusy (s : State) (port : Nat) : Bool :=
  s.requests.any (fun r => r.stage != .waiting && r.credits.any fun x => x.1 == .flits port) ||
    s.transfers.any (fun x => x.accepted && x.hops.any fun e => e.1 == .link port true || e.1 == .link port false) ||
    !(linkOf s port).outq.isEmpty || !(linkOf s port).replay.isEmpty || !(linkOf s port).inbox.isEmpty

/-- PORT_DRAIN (R391): after the apply that cleared EN, the port goes down when nothing uses it. -/
def execPortDrain (port : Nat) (s : State) : Host.Outcome State Fault Refusal :=
  let l := linkOf s port
  if !l.up ∨ !l.draining ∨ portBusy s port then notNow s else .next (portGoesDown s port)

/-! ### Operations from peers (R346, R392 to R395) -/

/-- The unified device address that an operation names here. -/
def opAddr (h : OpHeader) : Nat := h.space * 2 ^ 52 + h.inner

/-- Bytes that an operation touches. -/
def opBytes (h : OpHeader) : Nat :=
  match h.op with
  | 3 => atomicBytes h.minor
  | 4 => 4
  | _ => h.len

/-- Every frame of a T2 range is lent to a function of a peer. -/
def lentRange (s : State) (peer fn a n : Nat) : Bool :=
  spaceOf a == 0 && (List.range ((a + n - 1) / 2097152 - a / 2097152 + 1)).all fun i =>
    s.loans.any fun x => x.peer == peer && x.fn == fn && x.base / 2097152 == a / 2097152 + i

/-- The check of R395. -/
def peerOpAllowed (s : State) (peer : Nat) (h : OpHeader) : Bool :=
  decide (h.space < 3 ∧ 0 < opBytes h) &&
    (holdsRange s h.fn (fnBlocks s h.fn) (opAddr h) (opBytes h) || lentRange s peer h.fn (opAddr h) (opBytes h))

/-- A response leaves on the port that brought the operation. -/
def respond (s : State) (port : Nat) (h : OpHeader) (op : Nat) (poison : Bool) (bs : List Byte) : State :=
  sendOp s port { h with op := op, len := bs.length, minor := 0, poison := poison } bs

/-- Data bytes of the response to an operation. -/
def answerBytes (h : OpHeader) : Nat :=
  match h.op with
  | 1 => h.len
  | 3 => atomicBytes h.minor
  | _ => 0

/-- Poison that a write carries (R501). -/
def carryPoison (s : State) (a n : Nat) (poison : Bool) : State :=
  if poison then { s with mem := (List.range n).foldl (fun m i => m.poisonAt (a + i)) s.mem } else s

/-- The bytes that a write brings: its payload, or the whole lines of one page that a record and its granules store (R366): such a
payload is one whose length is not LEN (log entry 132). -/
def writtenBytes (h : OpHeader) (payload : List Byte) : List Byte :=
  let rec_ := leNat (payload.take 16)
  if h.space = 0 ∧ h.inner % 256 = 0 ∧ h.len % 256 = 0 ∧ payload.length ≠ h.len ∧ pageRecordOk rec_ then
    (readPage rec_ (payload.drop 16)).drop (256 * (h.inner / 256 % 16))
  else payload

/-- Every channel that an operation of a peer writes to is above the growth floor: a write below it waits (R364). -/
def peerWriteOpen (s : State) (h : OpHeader) : Bool :=
  h.op == 1 || h.space != 0 || (pagesOf (opAddr h) (opBytes h)).all fun p =>
    decide (16384 ≤ channelFree s (pageStack p) (pageChannel p))

/-- An operation that passes its check is performed as though one of this device's windows had named the address (R346). -/
def performOp (s : State) (port : Nat) (h : OpHeader) (payload : List Byte) : State :=
  let a := opAddr h
  match h.op with
  | 1 => respond s port h 5 (devPoison s a h.len).isSome (devRead s a h.len)
  | 2 => respond (carryPoison (devWrite s h.fn a (fit h.len (writtenBytes h payload))) a h.len h.poison) port h 5 false []
  | 3 =>
    let n := atomicBytes h.minor
    let r := devAtomic s h.fn a h.minor (fieldAt payload 0 n) (fieldAt payload n 4)
    respond r.2 port h 5 (devPoison s a n).isSome (leBytes n r.1)
  | _ => respond (signalAt s h.fn a h.minor (BitVec.ofNat 32 (fieldAt payload 0 4))) port h 5 false []

/-- The request of this device that a response answers. -/
def answered (s : State) (port : Nat) (h : OpHeader) : Option Request :=
  s.requests.find? fun r =>
    r.stage == .performed && kindAddressed r.kind && spaceOf r.devAddr == 4 && r.id % 65536 == h.tag &&
      bits r.devAddr 50 48 == (farEnd s port).1

/-- A response arrives: its data wait for the completion; a lost response is a window fault of the requesting context
(R395, R396). -/
def takeResponse (s : State) (port : Nat) (h : OpHeader) (payload : List Byte) : State :=
  match answered s port h with
  | none => s
  | some r =>
    let n := kindBytes r.kind
    let s := setRequest s
      { r with
        result := if isWriteLike r.kind then r.result else fit n (if h.op = 6 then [] else payload)
        poisonAt := if h.poison then some (poisonedWord r.devAddr (fit n payload)) else none }
    if h.op = 6 then windowFault s r.ctx r.ctxAddr else s

/-- The operation at the head of a port's receive buffer leaves it: its flit slots are free, and return in CREDITS (R387). -/
def takeOp (s : State) (port : Nat) (payload : List Byte) : State :=
  modLink s port fun l =>
    { l with inbox := l.inbox.drop 1, freed := l.freed + Nat.min (opFlits payload.length) (768 - l.lent - l.freed) }

/-- A region that an operation of a peer names takes it: it is not fenced (R37), and its rail is not low (R43). -/
def regionOpen (s : State) (a : Nat) : Bool := !fencedAt s a && !railOf s a

/-- A vote of another device comes as a write into the vote area, which only Keels write; what it says is GROUP_VOTE's (R425; log
entry 160). -/
def isVote (h : OpHeader) : Bool := h.op == 2 && h.space == 3 && decide (0x200 ≤ h.inner ∧ h.inner < 0x400)

/-- REMOTE_OPERATION_RECEIVE (R346, R394, R395): the oldest operation that a port has received is checked and performed, or
answered with a lost response; OPs that Table 14.6 reserves are dropped. A write waits while its channel stands at the growth
floor, and an operation while its region is fenced or its rail is low, and those behind it with it (R37, R43, R364, R394). -/
def execRemoteOperationReceive (port : Nat) (h : OpHeader) (payload : List Byte) (s : State) :
    Host.Outcome State Fault Refusal :=
  if (linkOf s port).inbox.head? ≠ some (h, payload) then notNow s
  else
    let s1 := takeOp s port payload
    if h.op = 5 ∨ h.op = 6 then .next (sendIdle (takeResponse s1 port h payload) port)
    else if h.op = 0 ∨ 6 < h.op then .next (sendIdle s1 port)
    else if isVote h then .next (respond s1 port h 5 false [])
    else if !peerOpAllowed s1 (farEnd s port).1 h then .next (respond s1 port h 6 false (List.replicate (answerBytes h) 0))
    else if !peerWriteOpen s1 h ∨ !regionOpen s1 (opAddr h) then notNow s
    else .next (performOp s1 port h payload)

/-! ### The loss of a peer (R396) -/

/-- A request to a peer device. -/
def namesPeer (device : Nat) (r : Request) : Bool :=
  kindAddressed r.kind && spaceOf r.devAddr == 4 && bits r.devAddr 50 48 == device

/-- The response of an accepted request can still arrive within its promised time: a port to the peer is up, and the time has not
passed (R396). -/
def mayAnswer (s : State) (device : Nat) (r : Request) : Bool :=
  r.stage != .waiting && peerReachable s device && decide (10 * now s < r.promise)

/-- The jobs of a sequencer that have a participant on a device end, with ABORT, TOKEN and DONE (R326, R460). -/
def endReductions (device : Nat) (s : State) (L : Nat) : State :=
  (((regionOf s L).seqr.jobs.filter fun j => j.rcd.map.any fun d => d / 16 == device).map (·.tag)).foldl (fun s t =>
    match findReduce s L t with
    | some j => abortAndRun s L j true true true
    | none => s) s

/-- PEER_LOSS (R359, R396, R460): the requests that wait for the peer's credits, and the accepted ones whose response can no longer
arrive within its promised time, complete with their defined results; the reductions with it end. -/
def execPeerLoss (device : Nat) (s : State) : Host.Outcome State Fault Refusal :=
  if 8 ≤ device ∨ device = s.part.device then notNow s
  else
    let s := ((s.requests.filter fun r => namesPeer device r && !mayAnswer s device r).map (·.id)).foldl (fun s id =>
      match findRequest s id with
      | some r => peerLossEvent (lost s r) r.ctx device
      | none => s) s
    .next (resumeUnits ((s.logs.map (·.1)).foldl (endReductions device) s))

/-! ### The epoch pulse (R397 to R400) -/

/-- TIME_FLIT (R398): the boundary that the next edge stands for. -/
def execTimeFlit (port boundary : Nat) (crcOk : Bool) (s : State) : Host.Outcome State Fault Refusal :=
  if !portUp s port then notNow s
  else if !crcOk then .next s
  else .next { s with clock := { s.clock with announced := some boundary } }

/-- A time control flit on every port that is up. -/
def announce (s : State) (boundary : Nat) : State := (upPorts s).foldl (fun s p => emit s (.timeFlit p boundary)) s

/-- EPOCH_PULSE (R397 to R399): at a boundary the master announces it and drives the line low; the first boundary of a count that
starts at 0 is 1,048,576. -/
def execEpochPulse (s : State) : Host.Outcome State Fault Refusal :=
  let c := s.clock
  if !c.master ∨ !c.running ∨ s.hold ∨ !isBoundary c.time ∨ c.time = 0 ∨ mget? s.lastEvent (0x700, 0) = some c.time then
    notNow s
  else
    let s := emit (announce s c.time) (.epochPulse c.time)
    .next { s with
      lastEvent := mset s.lastEvent (0x700, 0) c.time
      clock := { s.clock with silence := 0, offsets := (0 :: s.clock.offsets).take 2 } }

/-- The boundary that an edge stands for: the one announced, else the nearest to the count (R398). -/
def edgeBoundary (c : Clock) : Nat := c.announced.getD ((c.time + 524288) / 1048576 * 1048576)

/-- An aligned count meets an edge that stands for B: ahead it is held, behind it takes two steps a nanosecond (R398). -/
def Clock.correct (c : Clock) (b : Nat) : Clock :=
  { c with
    silence := 0, announced := none, holdNs := c.time - b, behindNs := b - c.time
    offsets := ((c.time - b + (b - c.time)) :: c.offsets).take 2 }

/-- An aligned device corrects its count; an offset above 200 ns is a time fault (R400). -/
def correctTime (s : State) : State :=
  let b := edgeBoundary s.clock
  let d := s.clock.time - b + (b - s.clock.time)
  let s := { s with clock := s.clock.correct b }
  if 200 < d then deviceEvent s 0x0D d else s

/-- EPOCH_EDGE (R397 to R400): a falling edge that another device drives. -/
def execEpochEdge (s : State) : Host.Outcome State Fault Refusal :=
  let c := s.clock
  if c.master then notNow s
  else if c.aligned then .next (correctTime s)
  else
    match c.announced with
    | some b =>
      .next { s with clock := { c with time := b, running := true, aligned := true, silence := 0, announced := none } }
    | none => .next { s with clock := { c with silence := 0 } }

/-- EPOCH_MASTER_TAKEOVER (R397, R399): after (d + 2) × 1,048,576 ns without an edge. -/
def execEpochMasterTakeover (s : State) : Host.Outcome State Fault Refusal :=
  let c := s.clock
  if c.master ∨ s.hold ∨ !s.keels.formed ∨ c.silence < (s.part.device + 2) * 1048576 then notNow s
  else if c.aligned then .next { s with clock := { c with master := true, silence := 0 } }
  else
    let s := { s with clock := { c with time := 0, running := true, aligned := true, master := true, silence := 0 } }
    .next (announce s 1048576)

end Sys2Proof.Machine
end

