-- ==== Sys2Proof/Machine/Registers.lean ====
section
/-! DEFINITION. The control space as it reads (15 R408, R409, R427 to R430): every register of Tables 15.12, 15.13 and 15.15,
put together from the state. No command of the table is a read; these words are what a host or a firmware read returns. -/

namespace Sys2Proof.Machine

open Sys2Proof

/-- A value placed in the field [hi:lo], cut to its width. -/
def fld (hi lo v : Nat) : Nat := v % 2 ^ (hi + 1 - lo) * 2 ^ lo

/-- A 64-bit register from its fields. -/
def word64 (l : List Nat) : DWord := BitVec.ofNat 64 l.sum

/-! ### Region blocks -/

/-- The logical region or ballast slot of a physical region. -/
def homeOf (s : State) (p : Nat) : Option Nat :=
  match (physOf s p).role with
  | .active L => some L
  | .standby k => some k
  | _ => none

/-- Pace status (Table 2.9). -/
def paceStatus (s : State) (p : Nat) : DWord :=
  let x := physOf s p
  word64 [fld 63 63 (b2n x.fixedLost), fld 62 62 (b2n x.miss), fld 55 40 x.missCount, fld 39 28 x.paceMin, fld 27 16 x.paceNow,
    fld 11 0 x.vcore]

/-- Reel status (Table 6.12). -/
def reelStatus (s : State) (p n : Nat) : DWord :=
  let x := mget ReelCount.zero (physOf s p).reels n
  let u := match homeOf s p with
    | some L => mget ReelUnit.zero (regionOf s L).reels n
    | none => ReelUnit.zero
  word64 [fld 63 63 (b2n u.running.isSome), fld 62 56 u.queue.length, fld 55 40 x.refused, fld 39 0 x.units]

/-- Units of a region or slot whose use satisfies a test. -/
def unitsWhere (s : State) (H : Nat) (p : UnitUse → Bool) : Nat := ((regionOf s H).units.filter fun e => p e.2).length

/-- The object whose home a unit is part of is held. -/
def objectHeld (s : State) (h : Nat) : Bool :=
  match findObject s h with
  | some o => o.hold != 0
  | none => false

/-- Pool status (Table 13.3); the reservations of R351 count as pinned once the region is in use. Units that an evicted object
has left, and that requests still hold, count as released; in a region without a place in the map every unit is free (DEDUCED,
log 137: the four fields always sum to 256). -/
def poolStatus (s : State) (p : Nat) : DWord :=
  match homeOf s p with
  | none => word64 [fld 56 48 256, fld 20 0 (physOf s p).evictions]
  | some H =>
    let own := if H < 16 ∧ s.board.started then 4 else 0
    let pinned := unitsWhere s H fun u => match u with
      | .pinned _ => true
      | .loft _ => true
      | _ => false
    let held := unitsWhere s H fun u => match u with
      | .home h => objectHeld s h
      | _ => false
    let released := unitsWhere s H fun u => match u with
      | .home h => !objectHeld s h
      | .leaving _ => true
      | _ => false
    word64 [fld 56 48 (256 - own - (regionOf s H).units.length), fld 47 39 (own + pinned), fld 38 30 held, fld 29 21 released,
      fld 20 0 (physOf s p).evictions]

/-- Cells of a block that have an MMA presented and not granted. -/
def presentedCells (s : State) (L b : Nat) : Nat :=
  ((s.ops.filter fun q => q.region == L && q.cell / 8 == b && (match q.stage with
    | .presented _ _ => true
    | _ => false)).map (·.cell)).eraseDups.length

/-- The spars of a block that grants hold, as a bit map. -/
def sparMap (s : State) (L b : Nat) : Nat :=
  ((List.range 16).filter fun n => s.ops.any fun q =>
    q.region == L && q.cell / 8 == b && (match heldSpars q with
      | some ((f, c), _) => decide (f ≤ n ∧ n < f + c)
      | none => false)).foldl (fun a n => a + 2 ^ n) 0

/-- Spar arbitration (Table 8.2). -/
def sparStatus (s : State) (p b : Nat) : DWord :=
  match (physOf s p).role with
  | .active L =>
    let unspliced := ((List.range 8).filter fun c =>
      (regionOf s L).retiring.contains (b * 8 + c) || (physOf s p).retired.contains (b * 8 + c, none)).foldl
        (fun a c => a + 2 ^ c) 0
    word64 [fld 63 40 ((mget BlockState.zero (regionOf s L).blocks b).waitNs / 1000), fld 35 32 (presentedCells s L b),
      fld 31 16 (sparMap s L b), fld 15 8 unspliced]
  | _ => 0

/-- Shard load (Table 7.9). -/
def shardLoad (s : State) (p t : Nat) : DWord :=
  let x := mget (0, 0) (physOf s p).shardLoad t
  word64 [fld 63 24 x.1, fld 23 8 x.2]

/-- A stall counter in whole µs (R475). -/
def stallWord (s : State) (p code : Nat) : DWord := BitVec.ofNat 64 (mget 0 (physOf s p).stallNs code / 1000)

/-- Region power (Table 17.3). -/
def powerRegion (s : State) (p : Nat) : DWord :=
  let x := physOf s p
  word64 [fld 63 56 (ofSigned 8 x.tj), fld 55 44 x.budgetW, fld 43 32 x.powerW, fld 28 28 (b2n x.throttled),
    fld 27 27 (b2n x.capped), fld 11 0 x.targetMv]

/-- ROLE and number of a physical region (R429). -/
def roleByte : Role → Nat
  | .active L => L
  | .standby k => 0x40 + k
  | .failed => 0x80
  | .disabled => 0xC0

/-- A region's lifetime entry (Table 16.11). -/
def regionEntry (s : State) (p : Nat) : List Byte :=
  let x := regionLifeNow s p
  let bins := fun (m : Map Nat Nat) (n : Nat) => (List.range n).flatMap fun i => leBytes 4 (mget 0 m i / 1000000000)
  leBytes 8 (x.activeNs / 1000000000) ++ leBytes 8 (x.standbyNs / 1000000000) ++ leBytes 8 x.ce ++ leBytes 4 x.ue ++ leBytes 4 x.timeouts ++
    leBytes 2 x.retired ++ leBytes 2 x.exchanges ++ leBytes 4 x.misses ++ leBytes 1 (roleByte (physOf s p).role) ++
    leBytes 7 0 ++ bins x.tempNs 27 ++ bins x.voltNs 16 ++ bins x.paceNs 12 ++ leBytes 4 0 ++
    ((List.range 16).flatMap fun c => leBytes 8 (mget 0 x.stallNs c / 1000)) ++ List.replicate 112 0

/-- The device's lifetime entry (Table 16.10). -/
def deviceEntry (s : State) : List Byte :=
  let d := s.life
  leBytes 8 (d.powerOnNs / 1000000000) ++ leBytes 4 d.powerCycles ++ leBytes 4 d.holds ++
    leBytes 1 ((s.flash.failedKeels.eraseDups.map (2 ^ ·)).sum) ++ leBytes 7 0 ++
    ((List.range 16).flatMap fun n => leBytes 8 (mget 0 d.stackCe n) ++ leBytes 4 (mget 0 d.stackUe n) ++
      leBytes 4 (mget 0 d.stackRetired n)) ++
    ((List.range 8).flatMap fun n => leBytes 4 (mget 0 d.portRetrains n) ++ leBytes 4 (mget 0 d.portCrc n) ++
      leBytes 2 (((mget [] d.portLanes n).map (2 ^ ·)).sum) ++ leBytes 6 0) ++ List.replicate 104 0

/-- The 8 bytes at an offset of a record. -/
def slotWord (r : List Byte) (o : Nat) : DWord := BitVec.ofNat 64 (fieldAt r o 8)

/-- A word of a region block (Table 15.12). -/
def regionRead (s : State) (p o : Nat) : DWord :=
  if o = 0 then paceStatus s p
  else if 0x10 ≤ o ∧ o < 0x30 then reelStatus s p ((o - 0x10) / 8)
  else if o = 0x40 then poolStatus s p
  else if 0x100 ≤ o ∧ o < 0x1A0 then sparStatus s p ((o - 0x100) / 8)
  else if 0x800 ≤ o ∧ o < 0x1000 then shardLoad s p ((o - 0x800) / 8)
  else if 0x1000 ≤ o ∧ o < 0x1200 then slotWord (regionEntry s p) (o - 0x1000)
  else if 0x2000 ≤ o ∧ o < 0x2080 then stallWord s p ((o - 0x2000) / 8)
  else if o = 0x2080 then powerRegion s p
  else 0

/-! ### Port and stack blocks -/

/-- Link status (Table 14.4). -/
def linkStatus (s : State) (n : Nat) : DWord :=
  let l := linkOf s n
  let far := if l.up then farEnd s n else (0, 0)
  word64 [fld 63 63 (b2n l.up), fld 62 62 (b2n (l.up && (n == 3 || n == 7))), fld 61 59 far.1, fld 58 56 far.2,
    fld 55 47 ((l.lanes.map (2 ^ ·)).sum), fld 43 32 l.retrains, fld 31 16 l.crcErrors, fld 15 0 l.replays]

/-- Stack capacity (Table 13.5), set by the firmware at initialisation (R365). -/
def stackCapacity (s : State) (st : Nat) : DWord :=
  if !s.board.started then 0
  else
    let free := ((List.range 32).map fun ch => channelFree s st ch - 16384).sum
    let charged := (s.pages.map fun e =>
      if pageStack e.1 = st ∧ (chargedFn s (e.1 * 4096)).isSome then e.2.granules else 0).sum
    let units := ((s.allocs.filter fun x => x.tier == 0 && addrStack x.base == st).map (·.units)).sum +
      (s.loans.filter fun x => addrStack x.base == st).length
    word64 [fld 63 48 (256 * free / 1048576), fld 47 32 (256 * charged / 1048576), fld 31 14 (2 * units),
      fld 13 0 (Nat.min 0x3FFF (s.retiredGranules.filter fun x => x.1 == st).length)]

/-! ### The device block -/

/-- The capability block (Table 15.16). -/
def capability (s : State) : List Byte :=
  let t := s.part.grade == .T
  leBytes 4 0x534C4E42 ++ leBytes 2 1 ++ leBytes 1 (if t then 0x54 else 0x53) ++ [s.part.revision] ++
    leBytes 2 (if t then 64 else 48) ++ leBytes 1 (activeCount s.part.grade) ++ leBytes 1 2 ++ leBytes 1 1 ++ leBytes 1 0 ++
    leBytes 1 (if t then 4 else 3) ++ leBytes 1 s.part.device ++ leBytes 8 (if t then 0xFFF else 0xFD7) ++
    leBytes 4 (if t then 0 else (s.part.disabled.map (2 ^ ·)).sum) ++ leBytes 4 0 ++ leBytes 4 s.part.romRev.toNat ++
    leBytes 4 ((s.addendum.map (·.seq)).getD 0) ++ leBytes 2 s.lowerRev ++ leBytes 1 64 ++ leBytes 1 16 ++ leBytes 2 256 ++
    leBytes 2 0 ++ leBytes 8 s.part.serial.toNat ++ List.replicate 200 0

/-- Device status (Table 15.14). -/
def deviceStatus (s : State) : DWord :=
  word64 [fld 63 63 (b2n s.hold), fld 62 59 (quorumBits s), fld 58 58 (b2n s.keels.standby.isSome),
    fld 57 56 (s.keels.standby.getD 0), fld 55 55 (b2n s.clock.master), fld 54 54 (b2n s.clock.aligned),
    fld 53 51 s.part.device]

/-- The effective cap (R470). -/
def effectiveCap (s : State) : Nat :=
  (min (max ((rawField s offPower 11 0 : Int) + s.power.liftOffset) 1500) 3000).toNat

/-- Power status (Table 17.2). -/
def powerStatus (s : State) : DWord :=
  word64 [fld 63 63 (b2n s.power.capped), fld 62 62 (b2n s.power.capOver), fld 61 61 (b2n s.power.hot),
    fld 49 38 s.power.linkW, fld 37 26 (effectiveCap s), fld 23 12 (ofSigned 12 s.power.liftOffset), fld 11 0 s.power.pkgW]

/-- PCIe ports (Table 14.9). -/
def pcieWord (s : State) : DWord :=
  let v := (rawReg s offPcie).toNat
  let a := portOf s 0
  let b := portOf s 1
  word64 [fld 63 63 (bits v 63 63), fld 62 62 (servingPort s), fld 61 57 (bits v 61 57), fld 47 44 a.speed, fld 43 39 a.width, fld 38 35 b.speed, fld 34 30 b.width]

/-- A fault log entry as it reads (Table 16.2). -/
def logBytes (e : LogEntry) : List Byte :=
  leBytes 8 e.t ++ leBytes 1 e.code ++ leBytes 1 e.phys ++ leBytes 1 e.unit ++ leBytes 1 e.ctx ++ leBytes 4 e.detail

/-- The slot of the fault log. -/
def logSlot (s : State) (i : Nat) : List Byte :=
  match mget? s.faultLog i with
  | some e => logBytes e
  | none => List.replicate 16 0

/-- Fault log (Table 16.1). -/
def faultLogWord (s : State) : DWord := word64 [fld 63 32 s.logTotal, fld 5 0 s.logTotal]

/-- The region map, byte p for physical region p (R429). -/
def regionMapBytes (s : State) : List Byte := (List.range 18).map fun p => BitVec.ofNat 8 (roleByte (physOf s p).role)

/-- A word of the device block (Table 15.13). The layout of the vote area is not stated: a free value. -/
def deviceRead (s : State) (o : Nat) : DWord :=
  if o < 0x100 then slotWord (capability s) o
  else if o = offPace then rawReg s offPace
  else if o = offPcie then pcieWord s
  else if o = 0x110 then BitVec.ofNat 64 (now s)
  else if o = 0x118 then deviceStatus s
  else if 0x120 ≤ o ∧ o < 0x138 then slotWord (regionMapBytes s) (o - 0x120)
  else if 0x200 ≤ o ∧ o < 0x400 then BitVec.ofNat 64 (Config.freeNat o)
  else if o = offPower then rawReg s offPower
  else if o = 0x408 then powerStatus s
  else if o = 0x410 then BitVec.ofNat 64 (devicePj s / 1000000)
  else if o = 0x8000 then faultLogWord s
  else if 0x8100 ≤ o ∧ o < 0x8500 then slotWord (logSlot s ((o - 0x8100) / 16)) ((o - 0x8100) % 16)
  else if 0x9000 ≤ o ∧ o < 0x9200 then slotWord (deviceEntry s) (o - 0x9000)
  else 0

/-! ### Context blocks -/

/-- Code of a context state (Table 3.15). -/
def stateCode : CtxState → Nat
  | .empty => 0
  | .created => 1
  | .loaded => 2
  | .running => 3
  | .paused => 4
  | .draining => 5
  | .stopped => 6

/-- Context status (Table 3.15). -/
def contextStatus (x : Context) : DWord :=
  word64 [fld 63 60 (stateCode x.state), fld 55 40 x.winFaults, fld 39 31 x.blocks.length,
    fld 27 16 ((x.image.map (·.nativeLines)).getD 0), fld 15 0 ((x.image.map (·.lowerRev)).getD 0)]

/-- Break status (Table 3.14). -/
def breakStatus (b : BreakInfo) : DWord :=
  word64 [fld 63 60 b.cause, fld 59 58 b.comparator, fld 57 48 b.thread, fld 47 36 b.cell, fld 35 24 b.tag.toNat,
    fld 23 20 b.group]

/-- Scale mode (Table 10.8). -/
def scaleMode (s : State) (c : Nat) : DWord :=
  let v := (rawReg s (offScaleMode c)).toNat
  let x := ctxOf s c
  word64 [fld 63 63 (bits v 63 63), fld 62 62 (b2n (recipeMode s c)), fld 55 48 (bits v 55 48), fld 47 40 x.recipeLeft,
    fld 39 20 x.skipped, fld 19 0 x.outcomes]

/-- Sparse status (Table 9.6). -/
def sparseStatus (x : Context) : DWord :=
  word64 [fld 63 48 x.patternFaults, fld 47 32 x.skipMisses, fld 31 0 x.tilesSkipped]

/-- Recovery register (Table 16.8). -/
def recoveryWord (s : State) (c : Nat) : DWord :=
  let x := ctxOf s c
  word64 [fld 63 63 (bits (rawReg s (offRecovery c)).toNat 63 63), fld 51 32 x.lastOutcomes, fld 31 16 x.restores,
    fld 15 0 x.exchanges]

/-- Loft register (Table 7.12). -/
def loftWord (s : State) (c L : Nat) : DWord :=
  let v := (rawReg s (offLoft c L)).toNat
  let f := mget Loft.zero (regionOf s L).lofts c
  let rows := (f.half f.active).length
  word64 [fld 63 57 (bits v 63 57), fld 56 56 f.active, fld 40 24 rows, fld 23 0 f.overRows]

/-- Task status (Table 5.5). -/
def taskStatus (s : State) (c L : Nat) : DWord :=
  let x := ctxRegionOf (ctxOf s c) L
  let ready := ((regionOf s L).ready.map fun e => if e.1.1 = c then e.2.length else 0).sum
  let delayed := ((regionOf s L).delay.filter fun d => d.ctx == c).length
  word64 [fld 63 48 x.tokenFaults, fld 47 32 x.watchFaults, fld 31 16 ready, fld 15 0 delayed]

/-- Winch status (Table 13.7). -/
def winchStatus (s : State) (c L : Nat) : DWord :=
  let x := ctxRegionOf (ctxOf s c) L
  word64 [fld 63 48 x.late, fld 47 32 x.atRisk, fld 31 28 ((regionOf s L).winch.filter fun e => e.ctx == c).length,
    fld 23 0 x.lateUs]

/-- Reduction status (Table 11.10). -/
def reduceStatus (s : State) (c L : Nat) : DWord :=
  let x := ctxRegionOf (ctxOf s c) L
  word64 [fld 63 48 x.nonfinite, fld 47 32 x.abortedJobs, fld 31 24 x.refusedJobs,
    fld 22 16 ((regionOf s L).seqr.tails.filter fun t => t.ctx == c).length, fld 15 0 x.jobsDone]

/-- A word of a context's registers of one logical region; zero where the context owns no block (Table 15.15). -/
def contextRegionRead (s : State) (c L k : Nat) : DWord :=
  if !(ctxOf s c).blocks.any (fun b => b.1 == L) then 0
  else if k < 0x18 then rawReg s (offRing c L (k / 8))
  else if k = 0x18 then loftWord s c L
  else if k = 0x20 then taskStatus s c L
  else if k = 0x28 then winchStatus s c L
  else if k = 0x30 then reduceStatus s c L
  else 0

/-- A word of a context block (Table 15.15). -/
def contextRead (s : State) (c o : Nat) : DWord :=
  let x := ctxOf s c
  if o < 0x800 then rawReg s (offWindow c (o / 8))
  else if o = 0x800 then contextStatus x
  else if 0x808 ≤ o ∧ o < 0x838 then
    BitVec.ofNat 64 (((x.image.map (fun (i : Image) => i.nativeDigest)).getD 0).toNat / 2 ^ (8 * (o - 0x808)))
  else if o = 0x840 then breakStatus x.brk
  else if o = 0x848 then BitVec.ofNat 64 x.brk.time
  else if 0x850 ≤ o ∧ o < 0x880 then rawReg s (ctxBlock c + o)
  else if o = 0x880 then rawReg s (offRecipe c)
  else if o = 0x888 then scaleMode s c
  else if o = 0x890 then rawReg s (offRoundSeed c)
  else if o = 0x898 then word64 [fld 63 32 x.convertFlags]
  else if o = 0x8A0 then sparseStatus x
  else if o = 0x8A8 then word64 [fld 63 32 x.indexFaults, fld 31 16 x.winchRefused]
  else if o = 0x8B0 then recoveryWord s c
  else if o = 0x8B8 then BitVec.ofNat 64 (ctxPj s c / 1000000)
  else if 0x900 ≤ o ∧ o < 0x1100 then contextRegionRead s c ((o - 0x900) / 0x80) ((o - 0x900) % 0x80)
  else 0

/-! ### The control space and BAR0 -/

/-- The 8-byte word at a control-space offset (Table 15.12); reserved offsets read zero (R428). -/
def controlRead (s : State) (off : Nat) : DWord :=
  if off % 8 ≠ 0 then 0
  else if off < 0x10000 then deviceRead s off
  else if 0x100000 ≤ off ∧ off < 0x220000 then regionRead s ((off - 0x100000) / 0x10000) (off % 0x10000)
  else if 0x300000 ≤ off ∧ off < 0x308000 then
    let n := (off - 0x300000) / 0x1000
    if off % 0x1000 = 0 then linkStatus s n
    else if off % 0x1000 = 8 then rawReg s (offLinkCtl n) else 0
  else if 0x310000 ≤ off ∧ off < 0x311000 then (if off % 0x100 = 0 then stackCapacity s ((off - 0x310000) / 0x100) else 0)
  else if 0x400000 ≤ off ∧ off < 0x500000 then contextRead s ((off - 0x400000) / 0x4000) (off % 0x4000)
  else 0

/-- The context whose block an offset lies in. -/
def blockContext (off : Nat) : Option Nat :=
  if 0x400000 ≤ off ∧ off < 0x500000 then some ((off - 0x400000) / 0x4000) else none

/-- A context that a function owns. -/
def ownsContext (s : State) (fn c : Nat) : Bool := (ctxOf s c).state != .empty && (ctxOf s c).fn == fn

/-- A function may read a context block: its own, or a virtual function's by its parent (R409). -/
def readsContext (s : State) (fn c : Nat) : Bool :=
  ownsContext s fn c || ((ctxOf s c).state != .empty && decide (fn < 16) && parentFn s (ctxOf s c).fn == fn)

/-- The control-space offset that an offset of BAR0 names (Table 15.1). -/
def barTarget (s : State) (fn off : Nat) : Option Nat :=
  if fn < 16 then (if 0x1000000 ≤ off ∧ off < 0x2000000 then some (off - 0x1000000) else none)
  else if 0x20000 ≤ off ∧ off < 0x20100 then some (off - 0x20000)
  else if 0x40000 ≤ off ∧ off < 0x40000 + 48 * 0x4000 then
    match (List.range 64).find? fun c => ownsContext s fn c && (ctxOf s c).slot == (off - 0x40000) / 0x4000 with
    | some c => some (ctxBlock c + (off - 0x40000) % 0x4000)
    | none => none
  else none

/-- A queue register set as it reads (Tables 15.2 to 15.4). -/
def queueRead (q : Queue) (o : Nat) : DWord :=
  if o = 0 then q.sqBase
  else if o = 8 then q.cqBase
  else if o = 0x10 then word64 [fld 63 63 (b2n q.en), fld 62 62 (b2n q.irqEn), fld 55 52 q.sqLog2, fld 51 48 q.cqLog2,
    fld 43 32 q.vector]
  else if o = 0x18 then word64 [fld 63 32 q.cqHead, fld 31 0 q.sqTail]
  else if o = 0x20 then word64 [fld 63 48 q.sqHead, fld 47 32 q.cqTail, fld 31 0 q.started]
  else 0

/-- The staging register of a function (Table 15.10). -/
def stagingWord (s : State) (fn : Nat) : DWord :=
  let x := fnOf s fn
  let holds := !x.open_.regs.isEmpty || !x.open_.publishes.isEmpty || x.open_.addendum.isSome
  let applies := s.cmds.any fun c => c.fn == fn && c.stage != .fetched && fieldAt c.entry 0 1 == 0x0B
  word64 [fld 63 63 (b2n applies), fld 62 62 (b2n holds), fld 47 32 x.denied, fld 31 16 x.eventsLost,
    fld 15 8 x.lastStatus]

/-- Bytes of the MSI-X table of a function (Table 14.8). -/
def msixBytes (fn : Nat) : Nat := if fn < 16 then 2048 * 16 else 64 * 16

/-- The 8-byte slot of BAR0 as a function reads it (R408, R409). -/
def barRead (s : State) (fn off : Nat) : DWord :=
  if off < 0x1000 then queueRead (queueOf s fn (off / 64)) (off % 64)
  else if off = 0x1000 then stagingWord s fn
  else if 0x10000 ≤ off ∧ off < 0x18000 then
    if msixBytes fn ≤ off - 0x10000 then 0
    else mget (if off % 16 = 8 then 0x100000000 else 0) (cfgOf s fn).msix (off - 0x10000)
  else if 0x18000 ≤ off ∧ off < 0x18100 then
    word64 ((cfgOf s fn).msixPending.map fun v => if v / 64 = (off - 0x18000) / 8 then 2 ^ (v % 64) else 0)
  else
    match barTarget s fn off with
    | none => 0
    | some t =>
      match blockContext t with
      | some c => if readsContext s fn c then controlRead s t else 0
      | none => controlRead s t

end Sys2Proof.Machine
end

