-- ==== Sys2Proof/Machine/Control.lean ====
section
/-! DEFINITION. Writes of BAR0 and of the control space (00 R11 to R15; 15 R408 to R410, R422, R428): access codes, byte enables,
who may write, and what each field's write does. -/

namespace Sys2Proof.Machine

open Sys2Proof

/-! ### Fields and masks -/

/-- The bits of a field [hi:lo]. -/
def fieldMask (f : Nat × Nat) : DWord := BitVec.ofNat 64 (2 ^ (f.1 + 1) - 2 ^ f.2)

/-- The bits of the bytes that a write carries (R428). -/
def byteMask (be : BitVec 8) : DWord :=
  BitVec.ofNat 64 ((List.range 8).map fun i => if be.getLsbD i then 255 * 256 ^ i else 0).sum

/-- WS fields of a word (Tables 2.8, 3.10, 7.3, 7.12, 10.7 to 10.9, 14.5, 14.9, 17.1). -/
def wsFields (off : Nat) : List (Nat × Nat) :=
  match stagedPlace off with
  | .pace => [(31, 31), (11, 0)]
  | .pcie => [(63, 63), (62, 62), (61, 57)]
  | .power => [(63, 63), (62, 62), (61, 56), (55, 48), (47, 40), (39, 29), (25, 19), (11, 0)]
  | .link _ => [(63, 63), (62, 62), (61, 58)]
  | .window _ _ => [(63, 63), (62, 62), (61, 61), (60, 60), (54, 35), (34, 0)]
  | .recipe _ => [(55, 48), (47, 40), (39, 32), (31, 24), (23, 16), (15, 8), (7, 0)]
  | .scaleMode _ => [(63, 63), (55, 48)]
  | .roundSeed _ => [(63, 0)]
  | .ring _ _ _ => [(63, 63), (62, 59), (47, 6)]
  | .loft _ _ => [(63, 63), (62, 57)]
  | .none => []

/-- RW fields of a word (Tables 3.12, 3.13, 16.8). -/
def rwFields (off : Nat) : List (Nat × Nat) :=
  if (blockContext off).isNone then []
  else
    let o := off % 0x4000
    if 0x850 ≤ o ∧ o < 0x870 then [(31, 31), (27, 16), (15, 0)]
    else if 0x870 ≤ o ∧ o < 0x880 then [(63, 63), (53, 48), (31, 0)]
    else if o = 0x8B0 then [(63, 63)]
    else []

/-- W1C fields of a word (Tables 2.9, 3.12, 3.13, 6.12, 17.2, 17.3). -/
def w1cFields (off : Nat) : List (Nat × Nat) :=
  if off = 0x408 then [(63, 63), (62, 62), (61, 61)]
  else if 0x100000 ≤ off ∧ off < 0x220000 then
    let o := off % 0x10000
    if o = 0 then [(63, 63), (62, 62)]
    else if 0x10 ≤ o ∧ o < 0x30 then [(55, 40)]
    else if o = 0x2080 then [(28, 28), (27, 27)]
    else []
  else if (blockContext off).isSome then
    let o := off % 0x4000
    if 0x850 ≤ o ∧ o < 0x870 then [(30, 30)]
    else if 0x870 ≤ o ∧ o < 0x880 then [(62, 62)]
    else []
  else []

/-- A word that some write can change. -/
def hasFields (off : Nat) : Bool := !(wsFields off).isEmpty || !(rwFields off).isEmpty || !(w1cFields off).isEmpty

/-! ### The effect of a write by access code (R12, R14, R428) -/

/-- A value with the bytes that the write does not carry taken from what the word presents. -/
def carry (present v : DWord) (be : BitVec 8) : DWord := overlay present (byteMask be) v

/-- The write carries some bit of a field. -/
def touches (be : BitVec 8) (f : Nat × Nat) : Bool := byteMask be &&& fieldMask f != 0

/-- RW: takes effect when the write is accepted. -/
def writeRw (s : State) (off : Nat) (v : DWord) (be : BitVec 8) : State :=
  (rwFields off).foldl (fun s f => setRaw s off (overlay (rawReg s off) (fieldMask f &&& byteMask be) v)) s

/-- WS: the fields go to the function's open copy, those bits that the write does not carry with the value that they present
(R14, R422, R423, R428). -/
def writeWs (s : State) (fn off : Nat) (v : DWord) (be : BitVec 8) : State :=
  if be = 0 then s
  else
    (wsFields off).foldl (fun s f =>
      let x := (fnOf s fn).open_
      modFn s fn fun y => { y with open_ := x.put off (fieldMask f) (carry (stagedWord s x off) v be) }) s

/-- What a 1 in a W1C field clears; clearing FIXED_LOST or MISS also restarts PACE_MIN, and MISS clears MISS_COUNT
(Table 2.9). -/
def clearField (s : State) (off hi : Nat) : State :=
  if off = 0x408 then
    { s with power :=
        if hi = 63 then { s.power with capped := false }
        else if hi = 62 then { s.power with capOver := false } else { s.power with hot := false } }
  else if 0x100000 ≤ off ∧ off < 0x220000 then
    modPhys s ((off - 0x100000) / 0x10000) fun x =>
      let o := off % 0x10000
      if o = 0 then
        (if hi = 63 then { x with fixedLost := false, paceMin := 0xFFF }
         else { x with miss := false, missCount := 0, paceMin := 0xFFF })
      else if o = 0x2080 then (if hi = 28 then { x with throttled := false } else { x with capped := false })
      else { x with reels := mmod ReelCount.zero x.reels ((o - 0x10) / 8) fun r => { r with refused := 0 } }
  else setRaw s off (rawReg s off &&& ~~~(fieldMask (hi, hi)))

/-- What the event of a W1C field leaves in a field that was cleared just before: the bit set, the count at 1. -/
def eventField (s : State) (off hi : Nat) : State :=
  if off = 0x408 then
    { s with power :=
        if hi = 63 then { s.power with capped := true }
        else if hi = 62 then { s.power with capOver := true } else { s.power with hot := true } }
  else if 0x100000 ≤ off ∧ off < 0x220000 then
    modPhys s ((off - 0x100000) / 0x10000) fun x =>
      let o := off % 0x10000
      if o = 0 then
        (if hi = 63 then { x with fixedLost := true } else { x with miss := true, missCount := 1 })
      else if o = 0x2080 then (if hi = 28 then { x with throttled := true } else { x with capped := true })
      else { x with reels := mmod ReelCount.zero x.reels ((o - 0x10) / 8) fun r => { r with refused := 1 } }
  else setRaw s off (rawReg s off ||| fieldMask (hi, hi))

/-- A field is cleared; an event of this very instant is not lost: the bit stays set, and a count holds 1 (R13). -/
def clearKeeping (s : State) (off hi : Nat) : State :=
  if w1cNow s off hi then eventField (clearField s off hi) off hi else clearField s off hi

/-- W1C: a carried 1 in the field's lowest bit clears it. -/
def writeW1c (s : State) (off : Nat) (v : DWord) (be : BitVec 8) : State :=
  ((w1cFields off).filter fun f => (v &&& byteMask be).getLsbD f.2).foldl (fun s f => clearKeeping s off f.1) s

/-! ### Who may write (R409) -/

/-- A function may write the fields of a word: the managing function those of the device, region, port and stack blocks, a
context's owner those of its block but its window entries. -/
def mayWrite (s : State) (fn off : Nat) : Bool :=
  match blockContext off with
  | some c => ownsContext s fn c && decide (0x800 ≤ off % 0x4000)
  | none => fn == 0

/-- The registers of a logical region in which the context owns no block ignore writes (Table 15.15). -/
def deadWord (s : State) (off : Nat) : Bool :=
  match blockContext off with
  | some c =>
    let o := off % 0x4000
    decide (0x900 ≤ o) && !(ctxOf s c).blocks.any fun b => b.1 == (o - 0x900) / 0x80
  | none => false

/-- A write of the control space. -/
def controlWrite (s : State) (fn off : Nat) (v : DWord) (be : BitVec 8) : State :=
  if !hasFields off then s
  else if !mayWrite s fn off then deny s fn
  else if deadWord s off then s
  else writeW1c (writeWs (writeRw s off v be) fn off v be) off v be

/-! ### The queue block and the MSI-X table -/

/-- A doorbell: at or above the queue's size it is ignored and counted (R411). -/
def ringTail (s : State) (fn q v : Nat) : State :=
  if queueSize (queueOf s fn q).sqLog2 ≤ v then deny s fn else modQueue s fn q fun x => { x with sqTail := v }

def ringHead (s : State) (fn q v : Nat) : State :=
  if queueSize (queueOf s fn q).cqLog2 ≤ v then deny s fn else modQueue s fn q fun x => { x with cqHead := v }

/-- A base address: ignored while the queue is open (R410); its low 6 bits are zero. -/
def baseOf (v : DWord) : DWord := v &&& ~~~(63 : DWord)

/-- A write of a queue register set (Table 15.2). -/
def queueWrite (s : State) (fn q o : Nat) (v : DWord) (be : BitVec 8) : State :=
  let x := queueOf s fn q
  let w := carry (queueRead x o) v be
  if o = 0 then (if x.en then s else modQueue s fn q fun x => { x with sqBase := baseOf w })
  else if o = 8 then (if x.en then s else modQueue s fn q fun x => { x with cqBase := baseOf w })
  else if o = 0x10 then writeQctl s fn q w.toNat
  else if o = 0x18 then
    let s := if touches be (31, 0) then ringTail s fn q (bits w.toNat 31 0) else s
    if touches be (63, 32) then ringHead s fn q (bits w.toNat 63 32) else s
  else s

/-- A write of the MSI-X table. -/
def msixWrite (s : State) (fn o : Nat) (v : DWord) (be : BitVec 8) : State :=
  if msixBytes fn ≤ o then s
  else
    let old := mget (if o % 16 = 8 then 0x100000000 else 0) (cfgOf s fn).msix o
    flushVectors (modCfg s fn fun x => { x with msix := mset x.msix o (carry old v be) }) fn

/-! ### REGISTER_WRITE -/

/-- A function that exists: in mode 0 both ports present function 0 (R402). -/
def fnPresent (s : State) (fn : Nat) : Bool := fnNumbers.contains fn && (fn != 1 || twoHosts s)

/-- The offset in a context block of a word in the aperture of a virtual function. -/
def apertureWord (fn off : Nat) : Bool :=
  decide (16 ≤ fn ∧ 0x40000 ≤ off ∧ off < 0x40000 + 48 * 0x4000) && hasFields (ctxBlock 0 + (off - 0x40000) % 0x4000)

/-- A write of the 8-byte slot of BAR0 (Table 15.1). -/
def barWrite (s : State) (fn off : Nat) (v : DWord) (be : BitVec 8) : State :=
  if off < 0x1000 then queueWrite s fn (off / 64) (off % 64) v be
  else if 0x10000 ≤ off ∧ off < 0x18000 then msixWrite s fn (off - 0x10000) v be
  else
    match barTarget s fn off with
    | some t => controlWrite s fn t v be
    | none => if apertureWord fn off then deny s fn else s

/-- REGISTER_WRITE (R11, R12, R14, R408, R409, R422, R428). -/
def execRegisterWrite (fn off : Nat) (value : DWord) (be : BitVec 8) (s : State) : Host.Outcome State Fault Refusal :=
  if !fnPresent s fn ∨ off % 8 ≠ 0 then notNow s else .next (barWrite s fn off value be)

end Sys2Proof.Machine
end

