-- ==== Sys2Proof/Machine/Ecc.lean ====
section
/-! DEFINITION. The codes of 13 R375: the (39,32) Hsiao code of every 32-bit word, and the check bits of a stored T2 sector, eight
7-bit codes and the 8-bit locator. A word's code is a function of the word, so State holds none beside it; what upsets have
flipped since a word was written is an operand of the command that reads it. -/

namespace Sys2Proof.Machine

open Sys2Proof

/-! ### The (39,32) Hsiao code -/

/-- Columns of the check matrix for data bits 0 to 31: distinct, three bits set in each. The spec names the code and not its
matrix (DESIGN CHOICE, log entry 138). -/
def hsiaoColumns : List (BitVec 7) :=
  [0x07, 0x0B, 0x0D, 0x0E, 0x13, 0x15, 0x16, 0x19, 0x1A, 0x1C, 0x23, 0x25, 0x26, 0x29, 0x2A, 0x2C] ++
    [0x31, 0x32, 0x34, 0x38, 0x43, 0x45, 0x46, 0x49, 0x4A, 0x4C, 0x51, 0x52, 0x54, 0x58, 0x61, 0x62]

/-- The sum of the columns of the bits that are set, from bit i on. -/
def sumColumns (w : Word) : List (BitVec 7) → Nat → BitVec 7
  | [], _ => 0
  | c :: r, i => (if w.getLsbD i then c else 0) ^^^ sumColumns w r (i + 1)

/-- The 7-bit code of a word. -/
def hsiaoCode (w : Word) : BitVec 7 := sumColumns w hsiaoColumns 0

/-- A word and its code, as an array or a datapath carries them: 39 bits, the code above the word. -/
structure Coded where
  word : Word
  code : BitVec 7
  deriving DecidableEq, Repr, Inhabited

/-- A word as it is written. -/
def Coded.of (w : Word) : Coded := { word := w, code := hsiaoCode w }

/-- A stored word with some of its 39 bits flipped. -/
def Coded.flip (x : Coded) (flips : Nat) : Coded :=
  { word := x.word ^^^ BitVec.ofNat 32 flips, code := x.code ^^^ BitVec.ofNat 7 (flips / 2 ^ 32) }

/-- The syndrome of what is read: zero when the word agrees with its code. -/
def Coded.syndrome (x : Coded) : BitVec 7 := hsiaoCode x.word ^^^ x.code

/-- What the check of a word, or of a sector, finds. -/
inductive Checked where
  | clean
  | corrected
  | uncorrectable
  deriving DecidableEq, Repr, Inhabited

/-- A syndrome of one column is that bit's error, one of a single bit a check bit's; any other is uncorrectable (R376). -/
def checkSyndrome (x : BitVec 7) : Checked :=
  if x = 0 then .clean
  else if hsiaoColumns.contains x ∨ (List.range 7).any fun i => x == BitVec.ofNat 7 (2 ^ i) then .corrected
  else .uncorrectable

/-- The check of a word that was written and has had some of its bits flipped. -/
def checkWord (w : Word) (flips : Nat) : Checked := checkSyndrome ((Coded.of w).flip flips).syndrome

/-! ### The check bits of a stored sector -/

/-- The locator of a sector: the granule index modulo 16 in [7:4], the sector in [3:1], their even parity in [0]. -/
def locator (granule sector : Nat) : Nat :=
  let v := granule % 16 * 8 + sector % 8
  2 * v + (List.range 7).foldl (fun a i => a + bits v i i) 0 % 2

/-- The eight words of a stored sector of 32 bytes. -/
def sectorWords (bs : List Byte) : List Word := (List.range 8).map fun i => BitVec.ofNat 32 (fieldAt bs (4 * i) 4)

/-- The 64 check bits of a sector: the eight codes from bit 0, the locator above them. -/
def sectorChecks (bs : List Byte) (granule sector : Nat) : Nat :=
  packFields 7 ((sectorWords bs).map fun w => (hsiaoCode w).toNat) + 2 ^ 56 * locator granule sector

/-- The flips of word i of a sector whose 320 bits, data below check bits, have some flipped. -/
def wordFlips (flips i : Nat) : Nat := bits flips (32 * i + 31) (32 * i) + 2 ^ 32 * bits flips (256 + 7 * i + 6) (256 + 7 * i)

/-- The check of a sector: a locator that does not match is uncorrectable, as a word is (R376). -/
def checkSector (bs : List Byte) (flips : Nat) : Checked :=
  let l := (sectorWords bs).zipIdx.map fun x => checkWord x.1 (wordFlips flips x.2)
  if bits flips 319 312 ≠ 0 ∨ l.contains .uncorrectable then .uncorrectable
  else if l.contains .corrected then .corrected
  else .clean

/-! ### The stored sectors of a line -/

/-- The granule, and the sector in it, of a stored sector of the line of an address: its number in the line is that of the
address's 32 bytes; none when the line takes fewer sectors (R361). -/
def sectorPlace (s : State) (a : Nat) : Option (Nat × Nat) :=
  let page := a / 4096
  let sizes := pageSizes s.mem (pageWidth s page) page
  let i := a % 4096 / 256
  let k := a % 256 / 32
  if sizes.getD i 0 ≤ k then none
  else
    let n := (sizes.take i).sum + k
    some ((pageRun s page).base + n / 8, n % 8)

/-- The 32 bytes of that stored sector. -/
def sectorBytes (s : State) (a : Nat) : List Byte :=
  ((storedLine (pageWidth s (a / 4096)) (s.mem.readBytes (a / 256 * 256) 256)).drop (32 * (a % 256 / 32))).take 32

end Sys2Proof.Machine
end

