-- ==== Sys2Proof/Machine/Faults.lean ====
section
/-! DEFINITION. Faults and their recovery (01 R30 to R37; 13 R376 to R379; 16 R435 to R445): retired cells, withdrawn and failed
regions, vacant regions, poisoned and retired granules. -/

namespace Sys2Proof.Machine

open Sys2Proof

/-! ### Standbys (R444) -/

/-- A standby that is in no service and in no exchange. -/
def standbyFree (s : State) (p : Nat) : Bool :=
  (match (physOf s p).role with
    | .standby _ => true
    | _ => false) &&
    (physOf s p).service.isNone && !(physOf s p).failing && (physOf s p).corePg &&
    s.logs.all fun e => match e.2.exchange with
      | some x => x.entering != some p
      | none => true

/-- The standby to admit: the one with the lower physical number. -/
def freeStandby (s : State) : Option Nat := (List.range 18).find? (standbyFree s)

/-- The ballast slot of a standby is emptied (R358). -/
def emptyStandby (s : State) (p : Nat) : State :=
  match (physOf s p).role with
  | .standby k => emptySlot s k
  | _ => s

/-- Ballast slot of a standby. -/
def slotOfPhys (s : State) (p : Nat) : Nat :=
  match (physOf s p).role with
  | .standby k => k
  | _ => 16

/-- Contexts that own blocks of a logical region. -/
def contextsIn (s : State) (L : Nat) : List Nat :=
  (s.contexts.filter fun e => e.2.state != .empty && e.2.blocks.any fun b => b.1 == L).map (·.1)

/-! ### Withdrawal by migration (R442) -/

/-- The copy of a migration asks for the full rate that R58 permits at both compute-die Bridle ports (R442); without a standby there
is none. -/
def askCopy (s : State) (L p : Nat) (e : Option Nat) : State :=
  let s := endTransfer s (.migration L)
  match e with
  | some q => askTransfer s (.migration L) none none [(.portOut p, hopLimit s (.portOut p)), (.portIn q, hopLimit s (.portIn q))]
  | none => s

/-- A logical region is fenced for exchange (R37): its cells stop issuing, and the slot of the chosen standby is emptied. Without a
free standby the region becomes vacant, at the first boundary after it has drained (R36, R444). -/
def fence (L p : Nat) (kind : ExchangeKind) (s : State) : State :=
  let e := freeStandby s
  let s := match e with
    | some q => emptyStandby s q
    | none => s
  let x : RegionExchange :=
    { kind := kind, leaving := p, entering := e, fencedAt := now s, copied := e.isNone
      boundary := if e.isSome then none else some (boundaryAfter (now s)) }
  askCopy (modRegion s L fun R => { R with exchange := some x }) L p e

/-- A readable region is withdrawn, an action of the quorum (R32, R442). -/
def withdraw (s : State) (L : Nat) (kind : ExchangeKind) : State :=
  match physOfLogical s L with
  | none => s
  | some p => if (regionOf s L).exchange.isSome ∨ (regionOf s L).vacant then s else quorumAct s (fence L p kind)

/-- An exchange after the standby that it was to admit is lost: another takes its place, and the copy begins again; without one the
logical region becomes vacant at the next boundary (R444; DEDUCED, log entry 144). -/
def RegionExchange.enterOther (x : RegionExchange) (e : Option Nat) (t : Nat) : RegionExchange :=
  if x.kind = .failure then { x with entering := e }
  else { x with entering := e, copied := e.isNone, boundary := if e.isSome then none else some (boundaryAfter t) }

/-- The exchanges that were to admit a standby that is lost admit another. -/
def enterOthers (s : State) (p : Nat) : State :=
  (s.logs.map (·.1)).foldl (fun s L =>
    match (regionOf s L).exchange with
    | some x =>
      if x.entering ≠ some p then s
      else
        let e := freeStandby s
        let s := match e with
          | some q => emptyStandby s q
          | none => s
        let s := modRegion s L fun R => { R with exchange := some (x.enterOther e (now s)) }
        if x.kind = .failure then s else askCopy s L x.leaving e
    | none => s) s

/-- A standby leaves the rotation for good, at the next boundary (R474, R484), with its entry in the fault log (R436); an exchange
that was to admit it admits another. -/
def loseStandbyRegion (s : State) (p : Nat) : State :=
  let s := modPhys (emptyStandby s p) p fun x => { x with failing := true }
  enterOthers (logFault s 0x04 p 0xFF 0xFF 0xFF) p

/-- A region-level fault of a physical region that can be read: an active one is withdrawn, a standby leaves (R31, R376,
R474). -/
def regionFault (s : State) (p : Nat) : State :=
  match (physOf s p).role with
  | .active L => withdraw s L .migration
  | .standby _ => loseStandbyRegion s p
  | _ => s

/-- REGION_MIGRATION (R31, R32, R442): a fault of a readable region. -/
def execRegionMigration (phys : Nat) (s : State) : Host.Outcome State Fault Refusal :=
  match (physOf s phys).role with
  | .active L =>
    if (regionOf s L).exchange.isSome ∨ (regionOf s L).vacant ∨ !quorumActs s then notNow s else .next (withdraw s L .migration)
  | _ => notNow s

/-- A hop that lies in a physical region: its T1 banks and its Bridle port. -/
def Hop.inPhys (p : Nat) (h : Hop) : Bool := h == .banks p || h == .portIn p || h == .portOut p

/-- A job has done its work, and what completes it, its token or its DONE signal, waits at admission (R37, R41, R170). -/
def closing (s : State) (o : Origin) : Bool :=
  s.requests.any fun r => r.stage == .waiting && (r.judge.bind (·.job)) == some o

/-- Work accepted against a physical region has completed there (R36, R197, R223, R250, R327, R373): requests, transfers through its
port, and what its own units and spars have begun. -/
def regionDrained (s : State) (L p : Nat) : Bool :=
  let R := regionOf s L
  (s.requests.all fun r => r.stage == .waiting || r.phys != p) &&
    (s.transfers.all fun x => !x.accepted || x.purpose == .migration L || x.hops.all fun h => !h.1.inPhys p) &&
    (s.ops.all fun q => q.region != L || (heldSpars q).isNone) &&
    (R.reels.all fun u => u.2.running.isNone || closing s (.reel L u.1)) &&
    (R.gatherJobs.all fun j => !j.accepted || closing s (.gather L j.tag)) &&
    (R.winch.all fun e => closing s (.winch L e.tag)) && R.seqr.jobs.all fun j => j.reported

/-- Words that failed their code are copied as poisoned. -/
def poisonWords (s : State) (l : List Nat) : State :=
  { s with mem := l.foldl (fun m a => m.poisonRange (a / 4 * 4) 4) s.mem }

/-- The ballast slot of a standby is empty, and every request accepted against it has completed (R358). -/
def slotClear (s : State) (e : Nat) : Bool :=
  (regionOf s (slotOfPhys s e)).units.isEmpty && (s.requests.all fun r => r.stage == .waiting || r.phys != e) &&
    s.transfers.all fun x => !x.accepted || (match x.purpose with
      | .migration _ => true
      | _ => x.hops.all fun h => !h.1.inPhys e)

/-! ### Failure (R438, R443, R444) -/

/-- What is lost with a failed region: it is not copied. The queues of its Reels and their accepted jobs, which run again from the
start, the units that stay allocated and the sequence numbers of its reduction streams are kept (R197, log entry 76). -/
def LogRegion.failed (R : LogRegion) : LogRegion :=
  { R with
    units := R.units.filter fun u => match u.2 with
      | .pinned _ => true
      | .loft _ => true
      | .home _ => true
      | .leaving _ => false
    entries := [], ready := [], takers := [], handed := [], flows := [], delay := [], firings := [], gatherJobs := [], winch := []
    reels := R.reels.map fun u => (u.1, { u.2 with running := u.2.running.map fun r => { r with written := false } })
    blocks := [], lofts := [], retiring := []
    seqr := { R.seqr with jobs := [], inbox := [], tails := [], channels := [], contribution := [] } }

/-- A thread of some cells of a region. -/
def inCells (s : State) (L : Nat) (p : Nat → Bool) (t : ThreadId) : Bool :=
  match cellPlace (ctxOf s t.ctx) t.cell with
  | some (L', pos) => L' == L && p pos
  | none => false

/-- Requests that satisfy a test go, and give back what they hold. -/
def dropRequests (s : State) (p : Request → Bool) : State := (s.requests.filter p).foldl finishRequest s

/-- A request of the feeders or the drain of an operation that satisfies a test. -/
def feederOf (s : State) (p : TensorOp → Bool) (r : Request) : Bool :=
  match r.origin with
  | .feeder o _ _ _ _ _ => s.ops.any fun q => q.id == o && p q
  | _ => false

/-- Operations that satisfy a test go, with the requests of their feeders. -/
def loseOps (s : State) (p : TensorOp → Bool) : State :=
  let ids := (s.requests.filter (feederOf s p)).map (·.id)
  dropRequests (dropOps s p) fun r => ids.contains r.id

/-- The threads of some cells of a region stop for good: their watch slots, the tasks they wait for and their pending tensor
operations go with the state of their cells (R248, R440). -/
def loseThreads (s : State) (L : Nat) (p : Nat → Bool) : State :=
  let here := inCells s L p
  let s := loseOps s fun q => here q.t
  let s := { s with
    threads := s.threads.map fun e =>
      if here e.1 then (e.1, { e.2 with run := .lost, watch := Vector.replicate 16 WatchSlot.empty }) else e }
  sweepWakes (dropTakers s here)

/-- Every context with blocks in the region hears of the loss (R437, R443, R444). -/
def tellContexts (s : State) (L : Nat) : State := (contextsIn s L).foldl (fun s c => ctxEvent s c 8 (t1Addr L 0)) s

/-- MARK of every context with blocks in a failed region (R443, Table 16.8). -/
def markContexts (s : State) (L : Nat) : State :=
  (contextsIn s L).foldl (fun s c => setRaw s (offRecovery c) (rawReg s (offRecovery c) ||| BitVec.ofNat 64 (2 ^ 63))) s

/-- Requests that units of the region had made go with them. -/
def dropUnitRequests (s : State) (L : Nat) : State :=
  dropRequests s fun r =>
    match r.origin with
    | .thread _ => false
    | .packets _ => false
    | o => originRegion s o == L

/-- A watch word that the watch directory or a watch unit of a region holds. -/
def watchedIn (L : Nat) (a : Nat) : Bool := addrRegion a == L && (spaceOf a == 1 || spaceOf a == 2)

/-- A watch slot whose word a region holds no longer does. -/
def WatchSlot.unhomed (L : Nat) (w : WatchSlot) : WatchSlot := { w with addr := w.addr.filter fun a => !watchedIn L a }

/-- The watch registrations homed in a region are lost with its directory (R170, R443), and the gate watches among them and of
the region's own rings. -/
def dropWatches (s0 : State) (L : Nat) : State :=
  let s : State :=
    { s0 with threads := s0.threads.map fun e => (e.1, { e.2 with watch := e.2.watch.map (WatchSlot.unhomed L) }) }
  let gone := s.logs.flatMap fun e => (e.2.gates.filter fun g => e.1 == L || watchedIn L g.2.addr).map fun g => (e.1, g.1)
  sweepWakes (gone.foldl (fun s g => endGate s g.1 g.2) s)

/-- The rates that a region's units hold, or wait for, go with their jobs; an accepted Reel job keeps its own (R197). -/
def endUnitTransfers (s : State) (L : Nat) : State :=
  { s with transfers := s.transfers.filter fun x =>
      useRegion x.purpose != some L || (match x.purpose with
        | .reel _ _ => true
        | _ => false) }

/-- The tables that jobs of a region have pinned. -/
def pinnedTables (s : State) (L : Nat) : List Nat := ((regionOf s L).gatherJobs.map fun j => j.rcd.table).eraseDups

/-- The jobs of a failed region end: its reductions with ABORT to every participant, its MMAs and jobs for good, their pins
with them (R201, R223, R250, R327). -/
def endRegionWork (s : State) (L : Nat) : State :=
  let s := ((regionOf s L).seqr.jobs.map (·.tag)).foldl (fun s t =>
    match findReduce s L t with
    | some j => abortAndRun s L j true true false
    | none => s) s
  let ts := pinnedTables s L
  let s := endUnitTransfers (dropUnitRequests (loseOps s fun q => q.region == L) L) L
  let s := modRegion (dropWatches (loseThreads s L fun _ => true) L) L LogRegion.failed
  ts.foldl releaseVersions s

/-- A physical region has failed (R443): fenced, nothing copied, a standby chosen for the first boundary at least 500,000 ns
later. A migration that had begun turns into this. -/
def failRegion (L p : Nat) (s0 : State) : State :=
  let s := endTransfer s0 (.migration L)
  let e := match (regionOf s L).exchange with
    | some x => x.entering
    | none => freeStandby s
  let s := match (regionOf s L).exchange, e with
    | none, some q => emptyStandby s q
    | _, _ => s
  let x : RegionExchange :=
    { kind := .failure, leaving := p, entering := e, fencedAt := now s, copied := true
      boundary := some (boundaryAt (now s + 500000)) }
  let s := modRegion s L fun R => { R with exchange := some x }
  let s := logFault s 0x04 p 0xFF 0xFF (e.getD 0xFF)
  endRegionWork (markContexts (tellContexts s L) L) L

/-- The logical region that a physical region serves may still fail. -/
def mayFail (s : State) (L : Nat) : Bool :=
  !(regionOf s L).vacant && (match (regionOf s L).exchange with
    | some x => x.kind != .failure
    | none => true)

/-- REGION_FAILURE (R32, R438, R443): an active region that is not readable is fenced by the quorum. -/
def execRegionFailure (phys : Nat) (s : State) : Host.Outcome State Fault Refusal :=
  match (physOf s phys).role with
  | .active L => if mayFail s L ∧ quorumActs s then .next (quorumAct s (failRegion L phys)) else notNow s
  | _ => notNow s

/-! ### The map changes (R34 to R37, R41, R429, R442 to R445) -/

/-- The objects homed in a region are evicted at the new map's boundary (R373). -/
def evictHomes (s : State) (L : Nat) : State :=
  let s := (s.objects.filter fun o => match o.home with
    | some h => h.1 == L
    | none => false).foldl evict s
  freeUnits s L fun u => match u with
    | .leaving _ => true
    | _ => false

/-- T0 and T1 of a region are zero (R443). -/
def zeroRegion (s : State) (L : Nat) : State :=
  { s with mem := s.mem.eraseWhere fun a => addrRegion a == L && (spaceOf a == 1 || spaceOf a == 2) }

/-- Every ledger gives up the unused credits that it holds from a physical region, and no ledger waits for them (R55). -/
def giveUpCredits (s : State) (p : Nat) : State :=
  let gone := s.ledgers.filter fun e => resourcePhys e.1.2 == some p
  let s := gone.foldl (fun s e => setDest s e.1.2 { destOf s e.1.2 with free := (destOf s e.1.2).free + e.2.unused })
    { s with ledgers := s.ledgers.filter fun e => resourcePhys e.1.2 != some p }
  { s with dests := s.dests.map fun e => if resourcePhys e.1 = some p then (e.1, { e.2 with waiting := [] }) else e }

/-- A hop of a job that its region's replacement takes over. -/
def Hop.moved (p e : Nat) (h : Hop) : Hop :=
  match h with
  | .banks q => if q = p then .banks e else .banks q
  | .portIn q => if q = p then .portIn e else .portIn q
  | .portOut q => if q = p then .portOut e else .portOut q
  | h => h

/-- A Reel of a region runs an accepted job. -/
def reelRuns (s : State) (u : XferUse) : Bool :=
  match u with
  | .reel L n => (reelUnit s L n).running.isSome
  | _ => false

/-- The replacement of a region takes over the rates of the Reel jobs that were accepted there; what only waited asks afresh
(R197). -/
def moveTransfers (s : State) (L p e : Nat) : State :=
  { s with transfers := (s.transfers.filter fun x => useRegion x.purpose != some L || reelRuns s x.purpose).map fun x =>
      if useRegion x.purpose = some L then { x with hops := x.hops.map fun h => (h.1.moved p e, h.2) } else x }

/-- An exchange applied: contexts with blocks in the region count it, and their next step outcome restarts recipe mode
(R445, Table 16.8). -/
def countExchange (s : State) (L : Nat) : State :=
  (contextsIn s L).foldl (fun s c => modCtx s c fun x =>
    { x with exchanges := satAdd 0xFFFF x.exchanges 1, exchanged := true }) s

/-- A physical region is recorded as failed: its rail goes off (R484), and the retirement list takes it (R465). -/
def recordFailed (s : State) (p : Nat) : State :=
  recordRetirement (modPhys s p fun x => { x with role := .failed, failing := false, coreEn := false, corePg := false }) 2 p 0

/-- Reel jobs that a replacement runs again are logged (R197). -/
def logReruns (s : State) (L p : Nat) : State :=
  (regionOf s L).reels.foldl (fun s u => match u.2.running with
    | some r => logFault s 0x10 p u.1 r.job.ctx r.job.seq
    | none => s) s

/-- The region that leaves: failed, or in service in the ballast slot of the one that enters (R451). -/
def leaveMap (s : State) (x : RegionExchange) (slot : Nat) : State :=
  if x.kind = .service then modPhys s x.leaving fun y => { y with role := .standby slot }
  else recordFailed s x.leaving

def exchangeLog (s : State) (x : RegionExchange) : State :=
  match x.kind with
  | .migration => logFault s 0x03 x.leaving 0xFF 0xFF (x.entering.getD 0xFF)
  | .service => logFault s 0x05 x.leaving 0xFF 0xFF (((physOf s x.leaving).service.map (·.1)).getD 0)
  | .failure => s

/-- A logical region without a standby becomes vacant (R444). Its Reel jobs stay, and none is accepted or completes any more: R197
speaks of regions that are replaced only (DESIGN CHOICE, log entry 157). -/
def becomeVacant (s : State) (L : Nat) (x : RegionExchange) : State :=
  let s := if x.kind = .failure then s else endRegionWork (tellContexts s L) L
  let s := zeroRegion (evictHomes s L) L
  modRegion (recordFailed (giveUpCredits s x.leaving) x.leaving) L fun R => { R with vacant := true, exchange := none }

/-- The exchange of a logical region applies. -/
def applyExchange (s : State) (L : Nat) (x : RegionExchange) : State :=
  let s := exchangeLog s x
  match x.entering with
  | none => becomeVacant s L x
  | some e =>
    let slot := slotOfPhys s e
    let s := if x.kind = .failure then logReruns (zeroRegion (evictHomes s L) L) L e else s
    let s := moveTransfers (giveUpCredits (giveUpCredits (leaveMap s x slot) x.leaving) e) L x.leaving e
    let s := modPhys s e fun y => { y with role := .active L, life := { y.life with exchanges := y.life.exchanges + 1 } }
    let s := modPhys s x.leaving fun y => { y with life := { y.life with exchanges := y.life.exchanges + 1 } }
    let s := modRegion s L fun R =>
      { R with exchange := none, retiring := [], blocks := R.blocks.map fun b => (b.1, { b.2 with predictor := [] }) }
    reloadCode (countExchange s L) (contextsIn s L)

/-- The standby that enters, if any, has been emptied (R358). -/
def entryClear (s : State) (x : RegionExchange) : Bool :=
  match x.entering with
  | some e => slotClear s e
  | none => true

/-- Exchanges due at a boundary; a readable region without a standby has drained first (R36). -/
def dueExchanges (s : State) : List (Nat × RegionExchange) :=
  s.logs.filterMap fun e => match e.2.exchange with
    | some x => match x.boundary with
      | some b =>
        if x.copied ∧ b ≤ now s ∧ entryClear s x ∧
            (x.kind = .failure ∨ x.entering.isSome ∨ regionDrained s e.1 x.leaving) then some (e.1, x)
        else none
      | none => none
    | none => none

/-- Standbys that leave the rotation, their slots empty (R474). -/
def failingStandbys (s : State) : List Nat := (List.range 18).filter fun p => (physOf s p).failing && slotClear s p

/-- The standby that is a ballast slot. -/
def standbyOf (s : State) (slot : Nat) : Option Nat :=
  (List.range 18).find? fun p => (physOf s p).role == .standby slot

/-- An address of one ballast slot as the other slot numbers it. -/
def otherSlot (a : Nat) : Nat :=
  if spaceOf a = 1 ∧ addrRegion a = 16 then a + 2 ^ 29 else if spaceOf a = 1 ∧ addrRegion a = 17 then a - 2 ^ 29 else a

/-- A home in one ballast slot as the other slot numbers it. -/
def otherHome (h : Nat × Nat) : Nat × Nat := if h.1 = 16 ∨ h.1 = 17 then (33 - h.1, h.2) else h

/-- The role of a standby in the other slot. -/
def Role.otherSlot : Role → Role
  | .standby k => .standby (33 - k)
  | r => r

/-- The bytes and the poison of the two ballast slots change numbers. -/
def Memory.swapSlots (m : Memory) : Memory :=
  let hit := fun a : Nat => spaceOf a == 1 && (addrRegion a == 16 || addrRegion a == 17)
  let m1 := (m.cells.filter fun c => hit c.1).foldl (fun x c => x.putByte (otherSlot c.1) c.2) (m.eraseWhere hit)
  { m1 with poison := m1.poison ++ (m.poison.filter hit).map otherSlot }

/-- The two ballast slots change numbers: their bytes, units and object homes, the windows that map those, the requests accepted
against them, and the roles of the standbys (R357). -/
def swapSlots (s : State) : State :=
  let a := regionOf s 16
  let b := regionOf s 17
  let s1 := modRegion (modRegion { s with mem := s.mem.swapSlots } 16 fun _ => b) 17 fun _ => a
  let s2 : State :=
    { s1 with
      objects := s1.objects.map fun o => { o with home := o.home.map otherHome, nextHome := o.nextHome.map otherHome }
      logs := s1.logs.map fun e =>
        (e.1, { e.2 with winch := e.2.winch.map fun w => { w with newHome := w.newHome.map otherHome } })
      requests := s1.requests.map fun r => if r.stage = .waiting then r else { r with devAddr := otherSlot r.devAddr }
      phys := s1.phys.map fun e => (e.1, { e.2 with role := e.2.role.otherSlot }) }
  (s2.objects.filter fun o => match o.home with
    | some h => h.1 == 16 || h.1 == 17
    | none => false).foldl mapObject s2

/-- Slot 16 is the standby with the lower physical number (R357). -/
def orderSlots (s : State) : State :=
  match standbyOf s 16, standbyOf s 17 with
  | some p, some q => if q < p then swapSlots s else s
  | _, _ => s

/-- The redundancy record takes the new map (Table 16.9). -/
def storeMap (s : State) : State :=
  storeRecord { s with flash := { s.flash with regionMap := some ((List.range 18).map fun p => (physOf s p).role) } }

/-- The map takes the exchanges that are due, and loses the standbys that fail. -/
def applyMap (s : State) : State :=
  let s := (dueExchanges s).foldl (fun s e => applyExchange s e.1 e.2) s
  let s := (failingStandbys s).foldl (fun s p => recordFailed (giveUpCredits s p) p) s
  storeMap (freedUnits (orderSlots s))

/-- REGION_MAP_APPLY (R32, R36, R55, R448): at a boundary the quorum changes the map, once two voters agree on the change; the
requests that waited are admitted against it. -/
def execRegionMapApply (s : State) : Host.Outcome State Fault Refusal :=
  if !isBoundary (now s) ∨ !quorumActs s ∨ (dueExchanges s = [] ∧ failingStandbys s = []) then notNow s
  else if !quorumAgrees s s.keels.ballot then
    .next (disagreement (newBallot { s with keels := { s.keels with mapRetried := true } }) s.keels.ballot s.keels.mapRetried)
  else .next (applyMap (newBallot { s with keels := { s.keels with mapRetried := false } }))

/-! ### Retiring a cell (R31, R439 to R441) -/

/-- Positions of spare cells (R30). -/
def sparePositions : List Nat := (List.range 8).map (160 + ·)

/-- Spares of a physical region that are neither spliced nor retired themselves. -/
def freeSpares (s : State) (p : Nat) : List Nat :=
  sparePositions.filter fun n => (physOf s p).retired.all fun e => e.2 != some n

/-- A spare is left for one more cell: those that have retired and wait for their splice take theirs first. -/
def spareLeft (s : State) (p : Nat) : Bool :=
  decide (((physOf s p).retired.filter fun e => e.2.isNone).length < (freeSpares s p).length)

/-- The operation holds a rig that includes the spars of a cell position of its block. -/
def holdsPosition (L pos : Nat) (q : TensorOp) : Bool :=
  q.region == L && q.cell / 8 == pos / 8 && (match heldSpars q with
    | some (g, _) => sparsMeet (2 * (pos % 8), 2) g
    | none => false)

/-- An MMA whose rig is dissolved: it keeps its age, and waits again from now on. -/
def TensorOp.again (q : TensorOp) (t : Nat) : TensorOp :=
  match q.stage with
  | .granted _ _ _ at_ => { q with stage := .presented at_ t, feeds := [], reading := q.reading.filter fun x => x.2.side == 2 }
  | _ => q

/-- Every rig that includes a retiring cell's spars is dissolved: what its feeders had asked for is dropped, the rows whose drain is
under way are written once, and its MMA is granted again after the splice (R31, R247, R248). -/
def dissolveRigs (s : State) (L pos : Nat) : State :=
  let ids := (s.ops.filter (holdsPosition L pos)).flatMap fun q => (q.reading.filter fun x => x.2.side != 2).map (·.1)
  dropRequests { s with ops := s.ops.map fun q => if holdsPosition L pos q then q.again (now s) else q } fun r => ids.contains r.id

/-- The region has failed: its cells are not retired one by one any more. -/
def regionFails (s : State) (L : Nat) : Bool :=
  match (regionOf s L).exchange with
  | some x => x.kind == .failure
  | none => false

/-- A cell retires, of an active region or of a standby, also while its region is fenced: it stops, its rigs dissolve, what names it
waits; when no spare is left for it the region is withdrawn, and a standby leaves (R31, R33). -/
def retireCell (s : State) (L pos : Nat) : State :=
  match physOfLogical s L with
  | none => s
  | some p =>
    if (regionOf s L).vacant ∨ (regionOf s L).retiring.contains pos ∨ regionFails s L then s
    else
      let left := spareLeft s p
      let s := recordRetirement (modPhys s p fun x =>
        { x with retired := x.retired ++ [(pos, none)], life := { x.life with retired := x.life.retired + 1 } }) 1 p pos
      let s := dissolveRigs (modRegion s L fun R => { R with retiring := R.retiring ++ [pos] }) L pos
      if left then s else regionFault (logFault s 0x01 p pos ((blockOwner s L (pos / 8)).getD 0xFF) 0) p

/-- CELL_RETIRE (R31, R247, R248, R439). -/
def execCellRetire (region cell : Nat) (s : State) : Host.Outcome State Fault Refusal :=
  let R := regionOf s region
  if 160 ≤ cell ∨ 16 ≤ region ∨ (physOfLogical s region).isNone ∨ R.vacant ∨ R.retiring.contains cell ∨ regionFails s region
  then notNow s
  else .next (retireCell s region cell)

/-- A free matching entry: the state of a lost cell can't be known (R440). -/
def freeEntry (n e : Nat) : MatchEntry :=
  { armed := Config.freeNat (n + 8 * e) % 2 == 1, required := BitVec.ofNat 16 (Config.freeNat (n + 8 * e + 1))
    arrived := BitVec.ofNat 16 (Config.freeNat (n + 8 * e + 2)), rearm := Config.freeNat (n + 8 * e + 3) % 2 == 1
    argstep := BitVec.ofNat 7 (Config.freeNat (n + 8 * e + 4)), task := BitVec.ofNat 64 (Config.freeNat (n + 8 * e + 5))
    waiting := none, arrivedAt := [] }

/-- The state of a cell is lost: its threads stay stopped, its matching entries are free values, the owning function hears of
it (R437, R440). -/
def loseCell (s : State) (L pos : Nat) : State :=
  let s := loseThreads s L fun p => p == pos
  let s := modRegion s L fun R =>
    { R with
      firings := R.firings.filter fun f => f.1 != pos
      entries := (List.range 1024).foldl (fun m e => mset m (pos, e) (freeEntry s.freeCounter e)) R.entries }
  let s := { s with freeCounter := s.freeCounter + 8192 }
  match blockOwner s L (pos / 8) with
  | some c => ctxEvent s c 8 (t0Addr L pos 0)
  | none => s

/-- The first entry of a list of retired cells that still waits for its spare takes it. -/
def splice (pos spare : Nat) : List (Nat × Option Nat) → List (Nat × Option Nat)
  | [] => []
  | e :: r => if e.1 = pos ∧ e.2 = none then (pos, some spare) :: r else e :: splice pos spare r

/-- The predictor of a block starts with nothing after a splice (R274). -/
def clearPredictor (s : State) (L b : Nat) : State :=
  modRegion s L fun R => { R with blocks := mmod BlockState.zero R.blocks b fun x => { x with predictor := [] } }

/-- SPARE_SPLICE (R30, R87, R439, R440): the spare takes the position, and what was held goes on. -/
def execSpareSplice (region cell : Nat) (lost : Bool) (poisonT0 : List Nat) (s : State) :
    Host.Outcome State Fault Refusal :=
  match physOfLogical s region with
  | none => notNow s
  | some p =>
    match freeSpares s p with
    | [] => notNow s
    | spare :: rest =>
      if !(regionOf s region).retiring.contains cell then notNow s
      else
        let owner := (blockOwner s region (cell / 8)).getD 0xFF
        let s := modPhys s p fun x => { x with retired := splice cell spare x.retired }
        let s := modRegion s region fun R => { R with retiring := R.retiring.filter (· != cell) }
        let s := poisonWords (clearPredictor s region (cell / 8)) (poisonT0.map fun o => t0Addr region cell (o % 1048576))
        let s := logFault s 0x01 p cell owner (b2n lost)
        let s := logFault s 0x02 p spare owner rest.length
        let s := reloadCode s (blockOwner s region (cell / 8)).toList
        .next (if lost then loseCell s region cell else s)

/-! ### The copy of a migration (R442) -/

/-- The cells that a copy loses: the row names a word of a cell's state, which has no device address, by 2^56 + the cell's position
(log entry 161). -/
def lostCells (poisoned : List Nat) : List Nat := ((poisoned.filter fun a => decide (2 ^ 56 ≤ a)).map fun a => (a - 2 ^ 56) % 160).dedup

/-- MIGRATION_COPY_DONE (R43, R358, R440, R442): what the region had accepted has completed there, nothing is outstanding against
the slot, the standby's rail has risen, the copy has had its rates, and the state has been copied, words that failed their code as
poisoned; the map changes at the next boundary. -/
def execMigrationCopyDone (region : Nat) (poisoned : List Nat) (s : State) : Host.Outcome State Fault Refusal :=
  match (regionOf s region).exchange with
  | some x =>
    match x.entering with
    | some e =>
      if x.copied ∨ x.kind = .failure ∨ !regionDrained s region x.leaving ∨ !slotClear s e ∨ railLow s e ∨
          !((findTransfer s (.migration region)).any (·.accepted)) then notNow s
      else
        let words := poisoned.filter fun a => addrRegion a == region && (spaceOf a == 1 || spaceOf a == 2)
        let s := (lostCells poisoned).foldl (fun s c => loseCell s region c) (endTransfer (poisonWords s words) (.migration region))
        .next (modRegion s region fun R =>
          { R with exchange := some { x with copied := true, boundary := some (boundaryAfter (now s)) } })
    | none => notNow s
  | none => notNow s

/-! ### Timeouts and uncorrectable words (R376, R435) -/

/-- HANDSHAKE_TIMEOUT (R435): an uncorrectable error of the unit, while its rail is at or above 0.60 V. -/
def execHandshakeTimeout (u : TimeoutUnit) (s : State) : Host.Outcome State Fault Refusal :=
  let at_ := match u with
    | .cell r c => (r, c)
    | .regionUnit r => (r, 0xFF)
  match physOfLogical s at_.1 with
  | none => notNow s
  | some p =>
    if railLow s p then notNow s
    else
      let s := modPhys s p fun x => { x with life := { x.life with timeouts := x.life.timeouts + 1 } }
      match u with
      | .cell r c => .next (retireCell (logFault s 0x0D p c ((blockOwner s r (c / 8)).getD 0xFF) 0) r c)
      | .regionUnit _ => .next (regionFault (logFault s 0x0D p 0xFF 0xFF 0) p)

/-- Contexts whose windows map an address. -/
def readersOf (s : State) (a : Nat) : List Nat :=
  (s.contexts.filter fun e => e.2.state != .empty && (List.range 256).any fun w =>
    let x := winEntry s e.1 w
    winValid x && decide (winBase x ≤ a ∧ a < winBase x + winSize x)).map (·.1)

/-- A granule of a channel, and the page runs that lie on it. -/
def runHas (r : PageRun) (g : Nat) : Bool := decide (r.base ≤ g ∧ g < r.base + r.granules)

/-- A granule is retired: the pages that use it move to new runs, clear of it (GRANULE_RETIRE, R379). -/
def retireGranule (s : State) (st ch g : Nat) : State :=
  let t := { s with retiredGranules := s.retiredGranules ++ [(st, ch, g)] }
  let s := floorEvent s { t with
    pages := s.pages.map fun e =>
      if pageStack e.1 = st ∧ pageChannel e.1 = ch ∧ runHas e.2 g then
        (e.1, { e.2 with base := newBase t e.1 e.2.granules (s.freeCounter + e.1) })
      else e
    freeCounter := s.freeCounter + 1
    life := { s.life with stackRetired := mmod 0 s.life.stackRetired st (· + 1) } } st ch
  logFault (recordRetirement s 4 st (ch * 2 ^ 27 + g)) 0x0B 0xFF st 0xFF (ch * 2 ^ 27 + g)

/-- An uncorrectable word of T2, in a granule: its line is poisoned, its readers hear of it, its granule is retired (R376, R379,
R437). -/
def t2Error (s : State) (a : Nat) (g : Option Nat) : State :=
  let s := { s with life := { s.life with stackUe := mmod 0 s.life.stackUe (addrStack a) (· + 1) } }
  let s := logFault s 0x0E 0xFF 0xFF 0xFF 3
  let s := match g with
    | some k => retireGranule s (addrStack a) (addrChannel a) k
    | none => s
  let s := { s with mem := s.mem.poisonAt a }
  (readersOf s a).foldl (fun s c => ctxEvent s c 8 (a / 256 * 256)) s

/-- An uncorrectable error of a physical region is counted and logged. -/
def countError (s : State) (p unit ctx detail : Nat) : State :=
  logFault (modPhys s p fun x => { x with life := { x.life with ue := x.life.ue + 1 } }) 0x0E p unit ctx detail

/-- An uncorrectable error of a cell (R33, R376). -/
def cellError (s : State) (L pos detail : Nat) : State :=
  match physOfLogical s L with
  | some p => retireCell (countError s p pos ((blockOwner s L (pos / 8)).getD 0xFF) detail) L pos
  | none => s

/-- An uncorrectable error of a region outside its cells; `a`: the word of T1 or ballast that is copied as poisoned. -/
def wordError (s : State) (H detail : Nat) (a : Option Nat) : State :=
  match physOfLogical s H with
  | some p =>
    let s := countError s p 0xFF 0xFF detail
    regionFault (match a with
      | some x => poisonWords s [x]
      | none => s) p
  | none => s

/-- An uncorrectable word, by where it lies; `g`: the granule of one in T2 (R33, R376). -/
def wordLost (s : State) (place : ErrorPlace) (g : Option Nat) : State :=
  match place with
  | .t0 a => poisonWords (cellError s (addrRegion a) (addrCell a) 0) [a]
  | .instrMem r c => cellError s r c 1
  | .t1 a => wordError s (addrRegion a) 2 (some a)
  | .t2 a => t2Error s a g
  | .cellPath r c => cellError s r c 4
  | .regionPath r => wordError s r 4 none

/-- UNCORRECTABLE_ERROR (R86, R376, R379, R437); of a word of T2 the granule is that of the stored sector that the address names. -/
def execUncorrectableError (place : ErrorPlace) (s : State) : Host.Outcome State Fault Refusal :=
  match place with
  | .t2 a => .next (wordLost s place ((sectorPlace s a).map (·.1)))
  | _ => .next (wordLost s place none)

/-! ### The patrol scrubber (R377 to R379) -/

/-- Device time of a scrub pass over T2: 8 hours. -/
def scrubPass : Nat := 28800000000000

/-- A new pass over T2 starts its counts of corrected errors anew. -/
def scrubEpoch (s : State) : State :=
  if mget? s.lastEvent (0x710, 0) = some (now s / scrubPass) then s
  else { s with lastEvent := mset s.lastEvent (0x710, 0) (now s / scrubPass), granuleErrors := [] }

/-- A corrected error in a granule of T2; the third of a granule within a pass retires it. -/
def t2Corrected (s : State) (a g : Nat) : State :=
  let st := addrStack a
  let s := scrubEpoch { s with life := { s.life with stackCe := mmod 0 s.life.stackCe st (· + 1) } }
  let key := (st * 32 + addrChannel a, g)
  let n := mget 0 s.granuleErrors key + 1
  let s := { s with granuleErrors := mset s.granuleErrors key n }
  if n = 3 then retireGranule s st (addrChannel a) g else s

/-- A corrected error of a logical region or ballast slot is counted (R33). -/
def corrected (s : State) (L : Nat) : State :=
  match physOfLogical s L with
  | some p => modPhys s p fun x => { x with life := { x.life with ce := x.life.ce + 1 } }
  | none => s

/-- The region of a place; none for T2. -/
def placeRegion : ErrorPlace → Option Nat
  | .t0 a => some (addrRegion a)
  | .instrMem r _ => some r
  | .t1 a => some (addrRegion a)
  | .t2 _ => none
  | .cellPath r _ => some r
  | .regionPath r => some r

/-- What the check of a place finds when some of its stored bits have been flipped (R375): the 39 of a word, the 320 of a sector
of T2. A word that holds the reserved pattern of poison is known already. What lies in instruction memory and on the datapaths is
not in State, and the check depends on the flips alone. -/
def checkPlace (s : State) (place : ErrorPlace) (flips : Nat) : Checked :=
  let stored := fun a : Nat =>
    if wordPoisoned s.mem a then .clean else checkWord (BitVec.ofNat 32 (leNat (s.mem.readBytes (a / 4 * 4) 4))) flips
  match place with
  | .t0 a => stored a
  | .t1 a => stored a
  | .t2 a =>
    if wordPoisoned s.mem a ∨ (sectorPlace s a).isNone then .clean else checkSector (sectorBytes s a) flips
  | .instrMem _ _ => checkWord 0 flips
  | .cellPath _ _ => checkWord 0 flips
  | .regionPath _ => checkWord 0 flips

/-- An address lies in the space that its place names. -/
def placeOk : ErrorPlace → Bool
  | .t0 a => spaceOf a == 2
  | .t1 a => spaceOf a == 1
  | .t2 a => spaceOf a == 0
  | _ => true

/-- The pool tag of a scrub is free: one of the place's region, and for T2 one of any region (R348, R377; log entry 138). -/
def scrubTag (s : State) (place : ErrorPlace) : Bool :=
  match placeRegion place with
  | some L => decide (poolTags s L < 24576)
  | none => (List.range (activeCount s.part.grade)).any fun L => decide (poolTags s L < 24576)

/-- The hop at which a scrub takes its rate. -/
def scrubHop (s : State) (place : ErrorPlace) : Option Hop :=
  match place with
  | .t1 a => (physOfLogical s (addrRegion a)).map Hop.banks
  | .t2 a => some (.channels (addrStack a))
  | .t0 a => some (.cellT0 (addrRegion a) (addrCell a))
  | _ => none

/-- A scrub finds its rate, which is below 1 GB/s: it delays no accepted request (R58, R377). -/
def scrubRate (s : State) (place : ErrorPlace) : Bool :=
  match scrubHop s place with
  | some h => decide (hopUsed s h < hopLimit s h)
  | none => true

/-- PATROL_SCRUB (R33, R375 to R379): a word, or a stored sector of T2, is read and checked; `flips`: the bits that upsets have
flipped since it was written. A correctable error is written back and counted, and no logical byte changes but for poison. -/
def execPatrolScrub (place : ErrorPlace) (flips : Nat) (s : State) : Host.Outcome State Fault Refusal :=
  if !placeOk place ∨ !scrubTag s place ∨ !scrubRate s place then notNow s
  else
    let g := match place with
      | .t2 a => sectorPlace s a
      | _ => none
    match checkPlace s place flips with
    | .clean => .next s
    | .corrected =>
      match place, g, placeRegion place with
      | .t2 a, some x, _ => .next (t2Corrected s a x.1)
      | _, _, some L => .next (corrected s L)
      | _, _, none => .next s
    | .uncorrectable => .next (wordLost s place (g.map (·.1)))

/-! ### Service by rotation (R451, R452) -/

/-- A SERVICE command starts: the quorum rotates the region out (R448), or its slot is emptied, or it is left as it is. -/
def startService (s : State) (c : Cmd) (action p : Nat) : State :=
  let take := fun (s : State) => modPhys (setCmd s { c with phase := 1 }) p fun x => { x with service := some (action, c.id) }
  if (physOf s p).service.isSome then endCmd s c stDeferred 0 0
  else
    match (physOf s p).role with
    | .active L =>
      if (freeStandby s).isNone ∨ (regionOf s L).exchange.isSome then endCmd s c stDeferred 0 0
      else
        let t := withdraw s L .service
        if (regionOf t L).exchange.isSome then take t else t
    | .standby _ => if standbyFree s p then take (emptyStandby s p) else endCmd s c stDeferred 0 0
    | .failed => take s
    | .disabled => endCmd s c stAbsent 9 0

/-- A SERVICE command with an ACTION. -/
def serviceCmd (s : State) (action : Nat) (c : Cmd) : State :=
  if c.field 8 1 ≠ action ∨ c.phase ≠ 0 then s
  else if 18 ≤ c.field 9 1 then endCmd s c stRejected 9 0
  else startService s c action (c.field 9 1)

/-- SERVICE, ACTION 0 (R358, R451, R452); an ACTION that Table 16.5 does not list is rejected here (R416). -/
def execSelfTest (cmd : Nat) (s : State) : Host.Outcome State Fault Refusal :=
  atCmd s cmd 0x10 fun c => if 2 < c.field 8 1 then endCmd s c stRejected 8 0 else serviceCmd s 0 c

/-- SERVICE, ACTION 1 (R451, R452). -/
def execCalibration (cmd : Nat) (s : State) : Host.Outcome State Fault Refusal := atCmd s cmd 0x10 (serviceCmd s 1)

/-- SERVICE, ACTION 2 (R451). -/
def execExchange (cmd : Nat) (s : State) : Host.Outcome State Fault Refusal := atCmd s cmd 0x10 (serviceCmd s 2)

/-- The region is out of the map and its slot is empty. -/
def serviceReady (s : State) (p : Nat) : Bool :=
  match (physOf s p).role with
  | .active _ => false
  | .standby k => (regionOf s k).units.isEmpty
  | _ => true

/-- A spare of a region under self-test is spliced for a cell that fails it (R439, R451). -/
def testSplice (p : Nat) (s : State) (pos : Nat) : State :=
  match freeSpares s p with
  | spare :: rest =>
    let s := modPhys s p fun x =>
      { x with retired := x.retired ++ [(pos, some spare)], life := { x.life with retired := x.life.retired + 1 } }
    logFault (logFault (recordRetirement s 1 p pos) 0x01 p pos 0xFF 1) 0x02 p spare 0xFF rest.length
  | [] => s

/-- The self-test splices a spare for each cell that it finds failing: which cells those are is a free value, and there are at most as
many as spares are left, for a region that passes (Table 16.5; log entry 90). -/
def testCells (s : State) (p : Nat) : State :=
  let f := freshNat s
  let n := f.1 % ((freeSpares s p).length + 1)
  ((List.range n).map fun i => Config.freeNat (f.1 + i) % 160).dedup.foldl (testSplice p) f.2

/-- SERVICE_ACTION_DONE (R436, R451): the region returns to the standby rotation, or is recorded as failed. An exchange
always passes. -/
def execServiceActionDone (phys : Nat) (passed : Bool) (s : State) : Host.Outcome State Fault Refusal :=
  match (physOf s phys).service with
  | none => notNow s
  | some (action, cmd) =>
    if !serviceReady s phys then notNow s
    else
      let ok := passed || action == 2
      let s := logFault (if action = 0 then testCells s phys else s) 0x06 phys 0xFF 0xFF (b2n ok)
      let s := modPhys s phys fun x => { x with service := none, failing := !ok && x.role != .failed }
      match findCmd s cmd with
      | some c => .next (endCmd s c stOk 0 (b2n ok))
      | none => .next s

end Sys2Proof.Machine
end

