-- ==== Sys2Proof/Machine/Power.lean ====
section
/-! DEFINITION. Power, pace and energy (02 R42, R43, R66 to R70; 17 R467 to R480): the control interval of the Burners, the rise
of a low rail, and lift across a board. -/

namespace Sys2Proof.Machine

open Sys2Proof

/-! ### Pace by supply and temperature (Table 2.1) -/

/-- Minimum paces in M beats/s at 45, 75 and 105 °C. -/
def paceRow (mv : Nat) : Nat × Nat × Nat :=
  if mv = 600 then (1380, 1310, 1250) else if mv = 750 then (2100, 2000, 1900) else (2550, 2450, 2330)

/-- 30 times the minimum pace of a listed supply at a junction temperature: linear between the columns, the 45 °C value
below (R42). -/
def paceAt (mv : Nat) (tj : Int) : Nat :=
  let (a, b, c) := paceRow mv
  let t := (min (max tj 45) 105).toNat
  if t ≤ 75 then a * (75 - t) + b * (t - 45) else b * (105 - t) + c * (t - 75)

/-- 4,500 times the minimum pace at a supply from 600 to 900 mV (R42). -/
def minPace (mv : Nat) (tj : Int) : Nat :=
  if mv ≤ 750 then paceAt 600 tj * (750 - mv) + paceAt 750 tj * (mv - 600)
  else paceAt 750 tj * (900 - mv) + paceAt 900 tj * (mv - 750)

/-- A supply at which the minimum pace exceeds the set pace by at least 10% (R66). -/
def meetsPace (s : State) (tj : Int) (mv : Nat) : Bool :=
  decide (11 * rawField s offPace 11 0 * 450 ≤ minPace mv tj)

/-- FIXED_EN (Table 2.8). -/
def fixedMode (s : State) : Bool := bitOf (rawReg s offPace).toNat 31

/-- The lowest pace that Table 2.1 allows at a rail and a junction, in M beats/s; none is promised below 600 mV (R42). -/
def paceFloor (mv : Nat) (tj : Int) : Nat := if mv < 600 then 0 else minPace (Nat.min mv 900) tj / 4500

/-- The pace of a region over a window, of which the sensors say `seen`: never below the minimum of Table 2.1 (R42), and in
fixed-pace mode never above the set pace, which a minimum above it holds against any droop (R66). -/
def paceOf (s : State) (x : PhysRegion) (mv : Nat) (tj : Int) (seen : Nat) : Nat :=
  let n := Nat.max (paceFloor mv tj) seen
  match x.role with
  | .active _ => if fixedMode s then Nat.min (rawField s offPace 11 0) n else n
  | _ => n

/-- The lowest target from 600 mV up to a limit that meets R66. -/
def lowestTarget (s : State) (tj : Int) (limit : Nat) : Option Nat :=
  ((List.range 61).map (600 + 5 * ·)).find? fun v => decide (v ≤ limit) && meetsPace s tj v

/-! ### Regions at work (R43, R470) -/

/-- A thread that is neither parked nor stopped. -/
def threadRuns (th : Thread) : Bool :=
  match th.run with
  | .parked _ => false
  | .ended => false
  | .lost => false
  | _ => true

/-- A standby that an exchange admits: the state of the region that leaves is copied into it (R442). -/
def enters (s : State) (p : Nat) : Bool :=
  s.logs.any fun e => match e.2.exchange with
    | some x => x.entering == some p
    | none => false

/-- A physical region holds accepted work, or a thread that is not parked. -/
def regionWorks (s : State) (p : Nat) : Bool :=
  s.requests.any (fun r => r.stage != .waiting && (r.phys == p || originPhys s r.origin == p)) ||
    s.transfers.any (fun x => x.accepted && x.hops.any fun h => h.1.inPhys p) || enters s p ||
    (match (physOf s p).role with
     | .active L =>
       let R := regionOf s L
       s.ops.any (fun q => q.region == L) || R.reels.any (fun u => u.2.running.isSome) || R.gatherJobs.any (·.accepted) ||
         !R.winch.isEmpty || !R.seqr.jobs.isEmpty ||
         s.threads.any fun e => threadRuns e.2 && (match cellPlace (ctxOf s e.1.ctx) e.1.cell with
           | some (L', _) => L' == L
           | none => false)
     | _ => false)

/-- The floor of a rail (R43): 0.60 V for a region at work, else 0.55 V. -/
def railFloor (s : State) (p : Nat) : Nat := if regionWorks s p then 600 else 550

/-- POLICY's ceiling (R468). -/
def railCeiling (s : State) : Nat := if bitOf (rawReg s offPower).toNat 62 then 750 else 900

def throttleC (s : State) : Int := rawField s offPower 25 19

/-! ### One region's control interval (R467, R468, R471, R473) -/

/-- The thermal limit holds: from THROTTLE_C up, until the reading falls below THROTTLE_C − 2 (R473). -/
def throttles (s : State) (x : PhysRegion) (tj : Int) : Bool :=
  if throttleC s ≤ tj then true else if tj < throttleC s - 2 then false else x.throttling

/-- The policy target: what R468 gives with neither budget nor thermal limit. -/
def policyTarget (s : State) (tj : Int) : Nat :=
  if fixedMode s then (lowestTarget s tj (railCeiling s)).getD (railCeiling s) else railCeiling s

/-- The highest rail at which the region stays in its budget, by the activity of the last interval (R468, R478; log entry
36). -/
def budgetRail (s : State) (p : Nat) (x : PhysRegion) (tj : Int) : Nat :=
  ((List.range 71).reverse.map (550 + 5 * ·)).find? (fun v => decide (wattsAt s p v tj ≤ x.budgetW)) |>.getD 550

/-- What budget, thermal limit and ceiling allow. -/
def allowedTarget (s : State) (p : Nat) (x : PhysRegion) (tj : Int) : Nat :=
  let thermal := if throttles s x tj then Nat.max (railFloor s p) (x.targetMv - 25) else 900
  Nat.min (railCeiling s) (Nat.min (budgetRail s p x tj) thermal)

/-- The next target: at most 25 mV up, any amount down, between the floor, which a region at work is given at once, and 900 mV (R43,
R467). -/
def nextTarget (s : State) (p : Nat) (x : PhysRegion) (tj : Int) : Nat :=
  let allowed := allowedTarget s p x tj
  let want := if fixedMode s then (lowestTarget s tj allowed).getD allowed else allowed
  Nat.min 900 (Nat.max (railFloor s p) (Nat.min want (x.targetMv + 25)))

/-- The rail over an interval, of which the sensors say `seen`: never below its floor nor above 900 mV (R43, R467). -/
def railSeen (s : State) (p seen : Nat) : Nat := Nat.min 900 (Nat.max (railFloor s p) seen)

/-- The event of a W1C field occurs in this row, or does not. -/
def w1cWhen (b : Bool) (s : State) (off hi : Nat) : State := if b then w1cEvent s off hi else s

/-- Fixed pace cannot be held (R68). -/
def losesPace (s : State) (p : Nat) (x : PhysRegion) (tj : Int) : Bool :=
  fixedMode s && (match x.role with
    | .active _ => true
    | _ => false) && (lowestTarget s tj (allowedTarget s p x tj)).isNone

/-- Bins of the lifetime record (Table 16.11). -/
def tempBin (tj : Int) : Nat := if tj < 0 then 0 else Nat.min 26 (tj.toNat / 5 + 1)
def voltBin (mv : Nat) : Nat :=
  if mv < 550 then 0 else if mv ≤ 575 then 1 else if 900 < mv then 15 else ceilDiv (mv - 575) 25 + 1
def paceBin (p : Nat) : Nat := if p < 1250 then 0 else if 2500 ≤ p then 11 else (p - 1250) / 125 + 1

/-- 10,000 ns more of a region's life (R464). -/
def RegionLife.interval (l : RegionLife) (r : Role) (tj : Int) (mv pace : Nat) : RegionLife :=
  let l := match r with
    | .active _ => { l with activeNs := l.activeNs + 10000 }
    | .standby _ => { l with standbyNs := l.standbyNs + 10000 }
    | _ => l
  { l with
    tempNs := mmod 0 l.tempNs (tempBin tj) (· + 10000)
    voltNs := mmod 0 l.voltNs (voltBin mv) (· + 10000)
    paceNs := mmod 0 l.paceNs (paceBin pace) (· + 10000) }

/-- A Burner's control interval: readings, target, flags and stall time (Tables 2.9, 17.3, 17.4); `s0`: the state at the end of
the interval, whose activity gives the estimate. A loss of the fixed pace raises its event when FIXED_LOST was clear, naming
cause 9 while the thermal limit holds and cause 8 otherwise, the POLICY ceiling included (DESIGN CHOICE, log entry 95: R68 names
neither the rate nor a cause). -/
def burnerStep (s0 s : State) (p : Nat) (b : BurnerInput) : State :=
  let x := physOf s p
  let target := nextTarget s0 p x b.tj
  let policy := policyTarget s b.tj
  let hot := throttles s x b.tj
  let thermal := hot && decide (target < policy)
  let budget := decide (budgetRail s0 p x b.tj < policy ∧ target < policy)
  let lost := losesPace s0 p x b.tj
  let mv := railSeen s0 p b.railMv
  let pace := paceOf s x mv b.tj b.paceNow
  let s := w1cWhen lost (w1cWhen thermal (w1cWhen budget s (offPhys p + 0x2080) 27) (offPhys p + 0x2080) 28) (offPhys p) 63
  let s1 := setPhys s p
    { x with
      tj := b.tj, powerW := regionWatts s0 p, vcore := mv, paceNow := pace
      paceMin := Nat.min x.paceMin (Nat.min pace (paceOf s x mv b.tj b.paceMin))
      targetMv := target, throttling := hot, throttled := x.throttled || thermal, capped := x.capped || budget
      fixedLost := x.fixedLost || lost, life := x.life.interval x.role b.tj mv pace }
  let s1 := if budget then
      addStall (w1cEvent { s1 with power := { s1.power with capped := true } } 0x408 63) p 8 10000
    else s1
  let s1 := if thermal then addStall s1 p 9 10000 else s1
  if lost ∧ !x.fixedLost then deviceEvent s1 0x0C (if hot then 9 else 8) else s1

/-! ### Budgets and the cap (R470, R471) -/

/-- Working regions that share the cap: active ones that hold accepted work or a thread that is not parked. -/
def sharers (s : State) (l : List Nat) : List Nat :=
  l.filter fun p => (match (physOf s p).role with
    | .active _ => true
    | _ => false) && regionWorks s p

/-- The budgets for the next interval. -/
def divideBudget (s : State) (l : List Nat) : State :=
  let w := fun p => (physOf s p).powerW
  let work := sharers s l
  let idle := l.filter fun p => !work.contains p
  let rest := effectiveCap s - s.power.linkW - (idle.map w).sum
  let share := rest / Nat.max 1 work.length
  let full := work.filter fun p => decide (share ≤ w p)
  let spare := ((work.filter fun p => decide (w p < share)).map fun p => share - w p).sum
  let extra := spare / Nat.max 1 full.length
  l.foldl (fun s p => modPhys s p fun x =>
    { x with budgetW := if idle.contains p then x.powerW else if full.contains p then share + extra else x.powerW }) s

/-- The estimate exceeds the effective cap with every active rail at its floor (R471). -/
def overCap (s : State) (l : List Nat) : Bool :=
  decide (effectiveCap s < s.power.pkgW) && l.all fun p =>
    (match (physOf s p).role with
     | .active _ => decide ((physOf s p).targetMv ≤ railFloor s p)
     | _ => true)

/-- Junctions at 108 °C set HOT; one of 115 °C is a region-level fault (R474). -/
def heatFaults (s : State) (l : List (Nat × BurnerInput)) (linkTj : Int) : State :=
  let s := if 108 ≤ linkTj ∨ l.any (fun e => decide (108 ≤ e.2.tj)) then
      limited (w1cEvent { s with power := { s.power with hot := true } } 0x408 61) (0x721, 0) fun s => deviceEvent s 0x0C 9
    else s
  (l.filter fun e => decide (115 ≤ e.2.tj)).foldl (fun s e => regionFault s e.1) s

/-- Regions whose Burners run. -/
def burners (s : State) (l : List (Nat × BurnerInput)) : List (Nat × BurnerInput) :=
  l.filter fun e => decide (e.1 < 18) && (physOf s e.1).coreEn

/-- BURNER_CONTROL_INTERVAL (R42, R43, R66, R68, R467 to R474, R478 to R480, R483): once every 10,000 ns. The energy of the
interval is charged at the rails that held during it; `linkW`: what the link dies, with their stacks, ports and Keels, drew in it
beyond their counts, in W. -/
def execBurnerControlInterval (regions : List (Nat × BurnerInput)) (linkW : Nat) (linkTj : Int) (s : State) :
    Host.Outcome State Fault Refusal :=
  let due := match mget? s.lastEvent (0x720, 0) with
    | some t => decide (t + 10000 ≤ s.clock.bootCount)
    | none => true
  if !s.board.started ∨ !due then notNow s
  else
    let l := burners s regions
    let ps := l.map (·.1)
    let s1 := chargeEnergy { s with lastEvent := mset s.lastEvent (0x720, 0) s.clock.bootCount } linkW
    let s1 := l.foldl (fun t e => burnerStep s t e.1 e.2) s1
    let s1 := { s1 with power := { s1.power with
      linkW := linkW + linkWatts s, linkTj := linkTj, pkgW := linkW + linkWatts s + (ps.map (regionWatts s)).sum } }
    let s1 := if overCap s1 ps then
        limited (w1cEvent { s1 with power := { s1.power with capOver := true } } 0x408 62) (0x722, 0) fun t => deviceEvent t 0x0C 8
      else s1
    .next (heatFaults (divideBudget s1 ps) l linkTj)

/-- ALERT# is driven low (Table 18.4). -/
def alertLow (s : State) : Bool :=
  s.hold || decide (108 ≤ s.power.linkTj) || (List.range 18).any fun p => decide (108 ≤ (physOf s p).tj)

/-! ### A low rail rises (R43, R357) -/

/-- A request, a transfer or an operation of a peer that waits, a wake-up, or an exchange names a physical region that serves H: as
its target, or as the requester's own (R43, R357, R442). -/
def railWanted (s : State) (H p : Nat) : Bool :=
  s.requests.any (fun r => r.stage == .waiting && (originPhys s r.origin == p || (match targetRegion s r with
    | some (L, _) => L == H
    | none => false))) ||
    s.transfers.any (fun x => !x.accepted && x.hops.any fun h => h.1.inPhys p) || enters s p ||
    s.links.any (fun e => match e.2.inbox.head? with
      | some x => (spaceOf (opAddr x.1) == 1 || spaceOf (opAddr x.1) == 2) && addrRegion (opAddr x.1) == H
      | none => false) ||
    s.threads.any fun e => (match cellPlace (ctxOf s e.1.ctx) e.1.cell with
      | some (L, _) => L == H && (threadRuns e.2 || e.2.watch.toList.any (·.written))
      | none => false)

/-- RAIL_RISE (R43, R357). -/
def execRailRise (region : Nat) (s : State) : Host.Outcome State Fault Refusal :=
  match physOfLogical s region with
  | none => notNow s
  | some p =>
    if !railLow s p ∨ !(physOf s p).coreEn ∨ !railWanted s region p then notNow s
    else .next (modPhys s p fun x => { x with targetMv := Nat.max 600 x.targetMv, vcore := 600 })

/-! ### Lift (R476, R477) -/

/-- LIFT_FLIT (R385, R476): a report with a good CRC, from another device of the group, is held. -/
def execLiftFlit (crcOk : Bool) (r : LiftReport) (s : State) : Host.Outcome State Fault Refusal :=
  if !crcOk ∨ !liftActive s ∨ !bitOf (liftGroup s) r.device ∨ r.device = s.part.device then .next s
  else
    let keep := s.power.reports.filter fun x => !(x.device == r.device && x.outcomes == r.outcomes)
    .next { s with power := { s.power with reports := keep ++ [r] } }

/-- First by WAIT, ties by the lower device. -/
def firstReport (a b : LiftReport) : LiftReport :=
  if b.wait < a.wait ∨ (b.wait = a.wait ∧ b.device < a.device) then b else a

/-- Last by WAIT, ties by the higher device. -/
def lastReport (a b : LiftReport) : LiftReport :=
  if a.wait < b.wait ∨ (a.wait = b.wait ∧ a.device < b.device) then b else a

/-- Watts that move from the last device to the first (R477). -/
def liftMove (step max : Nat) (c d : LiftReport) : Int :=
  if d.wait < c.wait + 20000 then 0
  else
    min (step : Int) (min (max - c.offset) (min (max + d.offset) (min (3000 - c.cap - c.offset) (d.cap + d.offset - 1500))))

/-- The change of this device's offset that a complete set of reports gives. -/
def liftChange (s : State) (l : List LiftReport) : Int :=
  match l with
  | [] => 0
  | r :: rest =>
    let c := rest.foldl firstReport r
    let d := rest.foldl lastReport r
    let m := liftMove (rawField s offPower 47 40) (rawField s offPower 39 29) c d
    if m ≤ 0 ∨ c.device = d.device then 0
    else if c.device = s.part.device then m else if d.device = s.part.device then -m else 0

/-- Every device of the group has reported, under the same GROUP. -/
def liftComplete (s : State) (l : List LiftReport) : Bool :=
  ((List.range 8).all fun d => !bitOf (liftGroup s) d || l.any fun r => r.device == d) && l.all fun r => r.group == liftGroup s

/-- LIFT_OFFSET_APPLY (R477): at the first boundary at least 500,000 ns after the latest outcome among the reports. Reports whose
boundary has passed are dropped, and the offset stays (DEDUCED, log 163). -/
def execLiftOffsetApply (s : State) : Host.Outcome State Fault Refusal :=
  match s.power.reports with
  | [] => notNow s
  | r :: _ =>
    let l := s.power.reports.filter fun x => x.outcomes == r.outcomes
    let t := (l.map (·.tOutcome)).foldl Nat.max 0
    if !isBoundary (now s) ∨ now s < boundaryAt (t + 500000) then notNow s
    else
      let own := s.power.liftOffset + (if now s = boundaryAt (t + 500000) ∧ liftActive s ∧ liftComplete s l then liftChange s l else 0)
      .next { s with power := { s.power with
        liftOffset := own, reports := s.power.reports.filter fun x => x.outcomes != r.outcomes } }

end Sys2Proof.Machine
end

