-- ==== Sys2Proof/Machine/HostPort.lean ====
section
/-! DEFINITION. The host ports, the management interface and the test access (14 R401 to R407; 18 R488, R493). -/

namespace Sys2Proof.Machine

open Sys2Proof

/-! ### Links of the host ports (R402 to R404, R488) -/

/-- A port whose PERST# is released, with power and its reference, trains; it answers configuration requests within 100 ms
of the later of the deassertion and P + 60,000,000 ns (R404, R488). What it trains to is a free value: generation 1 to 6, and a
width from x1 to x16 (R401, log entry 78). -/
def trainPort (s : State) (port : Nat) : State :=
  let x := portOf s port
  match s.board.poweredAt with
  | none => s
  | some t =>
    if x.perst ∨ !x.refclk then s
    else
      let f := freshNat s
      modPort f.2 port fun y =>
        { y with
          linkUp := true, speed := f.1 % 6 + 1, width := 2 ^ (f.1 / 6 % 5)
          readyAt := some (Nat.max s.clock.bootCount (t + 60000000) + f.1 % 100000001) }

/-- A request to the host of a port that has been accepted and is not yet transmitted. -/
def toHost (port : Nat) (r : Request) : Bool :=
  kindAddressed r.kind && r.stage == .accepted && spaceOf r.devAddr == 5 && b2n (bitOf r.devAddr 51) == port

/-- In mode 1 the requests accepted toward a lost host and not yet transmitted complete without it, and their contexts hear of it
(R403). -/
def loseHost (s : State) (port : Nat) : State :=
  let l := s.requests.filter (toHost port)
  let s := (l.map (·.id)).foldl (fun s id => match findRequest s id with
    | some r => lost s r
    | none => s) s
  (l.map (·.ctx)).eraseDups.foldl (fun s c => ctxEvent s c 7 port) s

/-- In mode 0 the other port serves from the next epoch boundary, and signals it then; which vector it is is a free value (R403, log
entry 98). -/
def switchServing (s : State) (port : Nat) : State :=
  if servingPort s ≠ port then s
  else
    let v := (rawReg s offPcie).toNat
    let s := setRaw s offPcie (BitVec.ofNat 64 (v - b2n (bitOf v 62) * 2 ^ 62 + port * 2 ^ 62))
    let f := freshNat s
    { f.2 with board := { f.2.board with serveSwitch := some (boundaryAfter (now s)), serveVector := some (f.1 % 2048) } }

/-- The link of a host port is gone. -/
def portLost (s : State) (port : Nat) : State :=
  let s := modPort s port fun x => { x with linkUp := false, speed := 0, width := 0 }
  if twoHosts s then loseHost s port else switchServing s port

/-- PCIE_LINK_DOWN (R402, R403). -/
def execPcieLinkDown (port : Nat) (s : State) : Host.Outcome State Fault Refusal :=
  if (portOf s port).linkUp then .next (portLost s port) else notNow s

/-- PERST_DEASSERT (R404, R488). -/
def execPerstDeassert (port : Nat) (s : State) : Host.Outcome State Fault Refusal :=
  if 2 ≤ port ∨ !(portOf s port).perst then notNow s
  else .next (trainPort (modPort s port fun x => { x with perst := false }) port)

/-- Configuration spaces and interrupt state that satisfy a test are reset (R404, R405). -/
def resetConfig (s : State) (p : Nat × Nat → Bool) : State := { s with cfgs := s.cfgs.filter fun e => !p e.1 }

/-- PERST_ASSERT (R404): only that port's link, configuration space and interrupt state are reset; in mode 0 each port has its own for
the functions that both present (R402). -/
def execPerstAssert (port : Nat) (s : State) : Host.Outcome State Fault Refusal :=
  if 2 ≤ port ∨ (portOf s port).perst then notNow s
  else
    let s := resetConfig s fun e => e.1 == port
    let s := if (portOf s port).linkUp then portLost s port else s
    .next (modPort s port fun x => { x with perst := true, readyAt := none })

/-! ### Function level reset (R405) -/

/-- The contexts of a function. -/
def contextsOf (s : State) (fn : Nat) : List Nat :=
  (s.contexts.filter fun e => e.2.state != .empty && e.2.fn == fn).map (·.1)

/-- Commands of a function end without a record; their transfers with them. -/
def dropCommands (s : State) (fn : Nat) : State :=
  let s := ((s.cmds.filter fun c => c.fn == fn).map (·.id)).foldl (fun s id => endTransfer s (.copyCmd id)) s
  let mine := (s.cmds.filter fun c => c.fn == fn).map (·.id)
  { s with
    cmds := s.cmds.filter fun c => c.fn != fn
    later := s.later.filter fun e => match e.1 with
      | .free c _ => !mine.contains c
      | .lend c _ => !mine.contains c
      | .giveBack c _ => !mine.contains c }

/-- Tables, pins and allocations of a function, and the loans that it has made (log entry 143). -/
def dropHoldings (s : State) (fn : Nat) : State :=
  let s := { s with
    keptPins := s.keptPins.filter fun k => k.fn != fn
    tables := s.tables.filter fun e => e.2.fn != fn
    loans := s.loans.filter fun l => l.lender != fn }
  ((s.allocs.filter fun a => a.fn == fn).map (·.handle)).foldl dropAlloc s

/-- FUNCTION_LEVEL_RESET (R405, R417, R457): its contexts are force-disabled, with item records to its admin queue, and
destroyed; what it holds is freed; its configuration space is reset. -/
def execFunctionLevelReset (fn : Nat) (s : State) : Host.Outcome State Fault Refusal :=
  if !fnPresent s fn then notNow s
  else
    let s := (contextsOf s fn).foldl (fun s c => destroyCtx s c fn 0) s
    let s := dropHoldings (dropCommands s fn) fn
    .next (modFn (resetConfig s fun e => e.2 == fn) fn fun x => { x with open_ := StagedCopy.zero, frozen := none })

/-! ### Completion timeout (R406) -/

/-- A request that reads. -/
def isRead (k : ReqKind) : Bool :=
  match k with
  | .feed _ => true
  | .load _ _ _ => true
  | .vload _ => true
  | .dload _ _ => true
  | .atomic _ _ _ _ (some _) => true
  | _ => false

/-- COMPLETION_TIMEOUT (R406): a host read that has waited for the function's timeout delivers poisoned data, and AER has it. -/
def execCompletionTimeout (req : Nat) (s : State) : Host.Outcome State Fault Refusal :=
  match findRequest s req with
  | none => notNow s
  | some r =>
    if !isRead r.kind ∨ r.stage ≠ .accepted ∨ spaceOf r.devAddr ≠ 5 ∨
        now s < r.accepted + (cfgOf s (ctxOf s r.ctx).fn).timeoutNs then notNow s
    else .next (ctxEvent (lost (aerError s (ctxOf s r.ctx).fn 14) r) r.ctx 0x0E (r.devAddr % 2 ^ 48))

/-! ### Configuration requests (R404 to R406) -/

/-- The port answers configuration requests. -/
def portReady (s : State) (port : Nat) : Bool :=
  match (portOf s port).readyAt with
  | some t => decide (t ≤ s.clock.bootCount)
  | none => false

/-- The port that a configuration request comes by. -/
def configPort : ConfigOp → Nat
  | .read p _ => p
  | .readSerial p => p
  | .readAer p => p
  | .clearAer p _ => p
  | .setBusMaster p _ => p
  | .setVfEnable p _ => p
  | .setCompletionTimeout p _ => p

/-- A port presents a function: in mode 0 both ports present the same ones, in mode 1 each its own (R402). -/
def presents (s : State) (port fn : Nat) : Bool := fnPresent s fn && (!twoHosts s || parentFn s fn == port)

/-- What an answered request does. A read of the serial number or of the AER status answers with it; where these capabilities stand, and
what other offsets hold, is PCIe's, and a free value answers there (R401, log entry 78). The range of the timeout is 50 µs to 64 s. -/
def configure (s : State) (fn : Nat) (op : ConfigOp) : State :=
  match op with
  | .read port off =>
    let f := freshNat s
    emit f.2 (.configData port fn off (BitVec.ofNat 64 (f.1 % 2 ^ 32)))
  | .readSerial port => emit s (.configData port fn 0 s.part.serial)
  | .readAer port => emit s (.configData port fn 0 (BitVec.ofNat 64 (cfgAt s port fn).aer))
  | .clearAer port mask =>
    modCfgAt s port fn fun x => { x with aer := (BitVec.ofNat 32 x.aer &&& ~~~(BitVec.ofNat 32 mask)).toNat }
  | .setBusMaster port on => modCfgAt s port fn fun x => { x with busMaster := on }
  | .setVfEnable port on => if fn < 16 then modCfgAt s port fn fun x => { x with vfEnable := on } else s
  | .setCompletionTimeout port ns =>
    modCfgAt s port fn fun x => { x with timeoutNs := Nat.min 64000000000 (Nat.max 50000 ns) }

/-- CONFIGURATION_REQUEST (R401, R402, R404 to R406): retry status until the port that it comes by is ready. -/
def execConfigurationRequest (fn : Nat) (op : ConfigOp) (s : State) : Host.Outcome State Fault Refusal :=
  let port := configPort op
  if 2 ≤ port ∨ !presents s port fn ∨ (portOf s port).perst ∨ !(portOf s port).linkUp then notNow s
  else if !portReady s port then .next (emit s (.retryStatus fn))
  else .next (configure s fn op)

/-! ### Management (R407, R464) -/

/-- Ports that report a wiring fault, as a bit map. -/
def wiringMap (s : State) : Nat := (((List.range 8).filter fun p => (linkOf s p).wiringFault).map (2 ^ ·)).sum

/-- Temperatures, rails, package power and pace (Table 14.10). -/
def monitorBytes (s : State) : List Byte :=
  ((List.range 18).flatMap fun p =>
    let x := physOf s p
    leBytes 2 (ofSigned 16 x.tj) ++ leBytes 2 x.vcore ++ leBytes 2 x.paceNow) ++ leBytes 2 s.power.pkgW

/-- The digests of the ROM and of the active addendum, which SPDM measures: that of the ROM is a free value of its revision. -/
def measurements (s : State) : List Byte :=
  leBytes 48 (Config.nativeDigest [] s.part.romRev.toNat).toNat ++ (match s.addendum with
    | some a => leBytes 48 (Config.sha384 a.image).toNat
    | none => List.replicate 48 0)

/-- The content of the answer to a message: what Table 14.10 lists; the layouts, stack temperatures and the signature of a measurement
are not stated, and free bytes stand where the content is not in the state (log entry 79). -/
def mctpAnswer (s : State) (m : MctpRequest) : List Byte :=
  let free := fun n => (List.range n).map (Config.freeByte s.freeCounter)
  match m with
  | .control => free 16
  | .pldm => monitorBytes s ++ free 16
  | .spdmMeasurements => measurements s ++ free 96
  | .holdStatus => leBytes 1 (b2n s.hold)
  | .wiringFaults => leBytes 1 (wiringMap s)
  | .regionMap => regionMapBytes s
  | .lifetimeRecord => deviceEntry s ++ (List.range 18).flatMap (regionEntry s)
  | .setdasa _ => []
  | .entdaa _ => free 8

/-- MCTP_MESSAGE (R407, R464): served while the always-on rail is valid; a request for the lifetime record also writes it. SETDASA and
ENTDAA leave the target's dynamic address. -/
def execMctpMessage (m : MctpRequest) (s : State) : Host.Outcome State Fault Refusal :=
  if !s.board.vaon then notNow s
  else
    let s1 := { emit s (.mctp m (mctpAnswer s m)) with freeCounter := s.freeCounter + 1 }
    match m with
    | .lifetimeRecord => .next (writeLifetime s1 true)
    | .setdasa a => .next { s1 with board := { s1.board with i3cAddr := some a } }
    | .entdaa a => .next { s1 with board := { s1.board with i3cAddr := some a } }
    | _ => .next s1

/-! ### Test access (R493) -/

/-- An instruction that drives or samples pins. -/
def drivesPins (i : TapOp) : Bool :=
  match i with
  | .samplePreload => true
  | .extest => true
  | .extestPulse => true
  | _ => false

/-- TAP_INSTRUCTION (R493): one that drives or samples pins acts as BYPASS once a quorum has formed. -/
def execTapInstruction (i : TapOp) (s : State) : Host.Outcome State Fault Refusal :=
  if !s.board.vaon then notNow s
  else .next { s with board := { s.board with tap := if drivesPins i && s.keels.formed then .bypass else i } }

end Sys2Proof.Machine
end

