-- ==== Sys2Proof/Machine/PowerOn.lean ====
section
/-! DEFINITION. Rails, power-goods, clocks and the power-on sequence (01 R20, R35; 15 R434; 16 R463, R465; 18 R481 to R490,
R499). -/

namespace Sys2Proof.Machine

open Sys2Proof

/-! ### What a reset leaves (R485, R486) -/

/-- Host memory is no part of the device. -/
def hostMemory (m : Memory) : Memory :=
  { cells := m.cells.filter fun c => spaceOf c.1 == 5, poison := m.poison.filter fun a => spaceOf a == 5 }

/-- Everything outside the always-on domain is reset, and counts of life since the last write are lost (R485). The clock, the
straps, the flash, the levels of PERST# and what has left the device stay. What still waits to be written to the flash is lost
(DEDUCED, log 163). -/
def coreReset (s : State) : State :=
  { State.reset with
    pending := s.pending, part := s.part, clock := { s.clock with master := false }, mem := hostMemory s.mem
    ports := s.ports.map fun e => (e.1, { PciePort.zero with perst := e.2.perst })
    flash := { s.flash with pendingRetirements := [], retryAt := none }, life := ((newestLife s.flash).map (·.device)).getD State.reset.life
    phys := (List.range 18).map fun p =>
      (p, { PhysRegion.zero (physOf s p).role with life := mget RegionLife.zero (((newestLife s.flash).map (·.regions)).getD []) p })
    board := { s.board with sharedPg := false, started := false, poweredAt := none, serveSwitch := none, serveVector := none }
    out := s.out, freeCounter := s.freeCounter }

/-- VAON_VALID (R381, R399, R407, R486): the straps are sampled, the boot count starts at 0, and the management target, which has no
address yet, asks to join. -/
def execVaonValid (straps : Fin 8) (s : State) : Host.Outcome State Fault Refusal :=
  if s.board.vaon then notNow s
  else
    .next { emit s .hotJoin with
      board := { s.board with vaon := true }
      part := { s.part with device := straps.val }
      clock := Clock.reset }

/-- VAON_LOSS (R486): device time and every other rail go. The hour before the next lifetime write is counted in the new device
time. -/
def execVaonLoss (s : State) : Host.Outcome State Fault Refusal :=
  if !s.board.vaon then notNow s
  else
    let s := coreReset s
    .next { s with
      board := { s.board with vaon := false, tap := .bypass, i3cAddr := none }
      flash := { s.flash with lastLifeWrite := 0 }
      clock := Clock.reset }

/-- SHARED_PG_LOSS (R485). -/
def execSharedPgLoss (s : State) : Host.Outcome State Fault Refusal :=
  if !s.board.sharedPg then notNow s else .next (coreReset s)

/-! ### The power-on sequence (R487) -/

/-- Keels that are well: neither recorded failed nor failing their self-check. One that the flash records as failed counts as one
that fails (DESIGN CHOICE, log entry 139: R20 does not say). -/
def healthyKeels (s : State) (fail : List Nat) : List Nat :=
  (List.range 4).filter fun k => !s.flash.failedKeels.contains k && !fail.contains k

/-- The quorum forms of the first three well Keels; the fourth stands by (R20, Table 1.2). With fewer than three the device starts
in hold, though Table 16.4 lets two voters go on (DESIGN CHOICE, log entry 139). -/
def formQuorum (s : State) (fail : List Nat) : State :=
  let l := healthyKeels s fail
  let gone := fail.filter fun k => decide (k < 4) && !s.flash.failedKeels.contains k
  let s := { s with keels := { Keels.reset with
    voting := l.take 3, standby := l[3]?, failed := s.flash.failedKeels, formed := decide (3 ≤ l.length) } }
  newBallot (gone.foldl (fun s k => failKeel s k 0) s)

/-- The redundancy record is read from the valid slot of the higher SEQ; without one, and without a flash, the device starts as at a
first power-on (R463, R499). -/
def readRecord (f : Flash) : Flash :=
  match if f.present then newestRecord f else none with
  | some r => { f with regionMap := r.regionMap, failedKeels := r.failedKeels, floor := r.floor, activeSlot := r.activeSlot }
  | none => { f with regionMap := none, failedKeels := [], floor := 0, activeSlot := 0 }

/-- The roles that the redundancy record holds, or those of a first power-on (R35, R499). -/
def restoreMap (s : State) : State :=
  let role := fun p => match s.flash.regionMap with
    | some m => m.getD p (firstRole s.part p)
    | none => firstRole s.part p
  (List.range 18).foldl (fun s p => modPhys s p fun x => { x with role := role p }) s

/-- Listed cells stay retired with spares spliced, listed regions keep ROLE 2, and listed granules are never allocated (R465). -/
def restoreRetirement (s : State) (r : Retirement) : State :=
  if r.kind = 1 then
    modPhys s r.place fun x =>
      let used := x.retired.filterMap (·.2)
      { x with retired := x.retired ++ [(r.item, sparePositions.find? fun n => !used.contains n)] }
  else if r.kind = 2 then modPhys s r.place fun x => { x with role := .failed }
  else if r.kind = 4 then
    { s with retiredGranules := s.retiredGranules ++ [(r.place, r.item / 2 ^ 27, r.item % 2 ^ 27)] }
  else s

/-- The stored addendum passes the six checks of R433 and is activated, or the event that refuses it waits for the admin queue
(STORED_ADDENDUM_CHECK, R434). -/
def checkStored (s : State) : State :=
  match storedAddendum s.flash with
  | none => s
  | some a =>
    match addendumFault s a.image with
    | some d => { s with notice := some (d, a.seq) }
    | none => newRevision { s with addendum := some a } a.lowerRev

/-- Core rails of active and standby regions rise to 0.600 V (R484, R487). -/
def raiseRails (s : State) : State :=
  (List.range 18).foldl (fun s p => modPhys s p fun x =>
    match x.role with
    | .active _ => { x with coreEn := true, corePg := true, targetMv := 600, vcore := 600 }
    | .standby _ => { x with coreEn := true, corePg := true, targetMv := 600, vcore := 600 }
    | _ => x) s

/-- A region that fails its self-check is recorded failed; a standby takes an active one's number before the first command
(REGION_POWER_ON_SELF_CHECK, R35, R436, R444). -/
def selfCheck (fail : List Nat) (s : State) (p : Nat) : State :=
  match (physOf s p).role with
  | .active L =>
    let s := recordFailed s p
    match (List.range 18).find? fun q => standbyFree s q && !fail.contains q with
    | some q => logFault (modPhys s q fun x => { x with role := .active L }) 0x04 p 0xFF 0xFF q
    | none => logFault (modRegion s L fun R => { R with vacant := true }) 0x04 p 0xFF 0xFF 0xFF
  | .standby _ => logFault (recordFailed s p) 0x04 p 0xFF 0xFF 0xFF
  | _ => s

/-- A logical region that no physical region serves is vacant (R444). -/
def markVacant (s : State) : State :=
  (List.range (activeCount s.part.grade)).foldl (fun s L =>
    if (physOfLogical s L).isNone then modRegion s L fun R => { R with vacant := true } else s) s

/-- A device with no connected port is its own master from the moment its quorum forms (R398); device time that has gone on in the
always-on domain is kept (R485). -/
def loneMaster (s : State) : State :=
  if s.board.wired ≠ [] then s
  else if s.clock.running then { s with clock := { s.clock with master := true } }
  else { s with clock := { s.clock with time := 0, running := true, aligned := true, master := true } }

/-- The device starts in hold and says so over the management interface (R20, R449). -/
def startInHold (s : State) : State := enterHold { s with board := { s.board with started := true } }

/-- The stages of Table 18.2 after the quorum has formed. -/
def powerOn (s : State) (regionFail : List Nat) : State :=
  let s := restoreMap (if s.flash.present then checkStored s else s)
  let s := raiseRails (if s.flash.present then s.flash.retirements.foldl restoreRetirement s else s)
  let s := orderSlots (markVacant (regionFail.foldl (selfCheck regionFail) s))
  let s := loneMaster (storeMap s)
  { s with board := { s.board with started := true, tap := if drivesPins s.board.tap then .bypass else s.board.tap } }

/-- POWER_GOOD_RISE (R20, R35, R434, R463, R465, R485, R487, R499). -/
def execPowerGoodRise (keelFail regionFail : List Nat) (s : State) : Host.Outcome State Fault Refusal :=
  if !s.board.vaon ∨ s.board.sharedPg then notNow s
  else
    let s := { s with
      board := { s.board with sharedPg := true, poweredAt := some s.clock.bootCount }
      flash := readRecord (if s.flash.present then s.flash else { s.flash with boardSerial := 0 })
      life := { s.life with powerCycles := s.life.powerCycles + 1 }
      power := { s.power with energyAt := s.clock.bootCount } }
    let s := formQuorum s keelFail
    let s := trainPort (trainPort s 0) 1
    if s.keels.formed then .next (powerOn s regionFail) else .next (startInHold s)

/-! ### Core power-goods (R484) -/

/-- A standby's core power-good fails: every object of its slot maps its backing from the next boundary, held ones with the
ballast-loss event, and the region leaves. -/
def standbyPgLoss (s : State) (p k : Nat) : State :=
  let homed := s.objects.filter fun o => match o.home with
    | some h => h.1 == k
    | none => false
  let s := homed.foldl (fun s o =>
    let s := modObject s o.handle fun x => { x with evicting := true }
    match o.windows with
    | (c, w) :: _ => if o.hold = 0 then s else ctxEvent s c 5 w
    | [] => s) s
  enterOthers (logFault (modPhys s p fun x => { x with failing := true, corePg := false }) 0x04 p 0xFF 0xFF 0xFF) p

/-- CORE_PG_LOSS (R443, R484). -/
def execCorePgLoss (phys : Nat) (s : State) : Host.Outcome State Fault Refusal :=
  let x := physOf s phys
  if !x.coreEn ∨ !x.corePg then notNow s
  else
    match x.role with
    | .active L =>
      let s := modPhys s phys fun y => { y with corePg := false }
      if mayFail s L then .next (quorumAct s (failRegion L phys)) else .next s
    | .standby k => .next (standbyPgLoss s phys k)
    | _ => notNow s

/-! ### Clocks (R490) -/

/-- TREF_LOSS (R490): the internal oscillator goes on with the count, and event 0x0D is posted once; its offset is not known. -/
def execTrefLoss (s : State) : Host.Outcome State Fault Refusal :=
  if !s.board.vaon ∨ s.clock.internalOsc then notNow s
  else
    let f := freshNat { s with clock := { s.clock with internalOsc := true, oscPosted := true } }
    if s.clock.oscPosted then .next { s with clock := { s.clock with internalOsc := true } }
    else .next (deviceEvent f.2 0x0D f.1)

/-- TREF_RETURN (R490). -/
def execTrefReturn (s : State) : Host.Outcome State Fault Refusal :=
  if !s.clock.internalOsc then notNow s
  else .next { s with clock := { s.clock with internalOsc := false, oscPosted := false } }

/-- LREFCLK_LOSS (R390, R490): both ports of the link die go down. -/
def execLrefclkLoss (die : Nat) (s : State) : Host.Outcome State Fault Refusal :=
  if 4 ≤ die then notNow s
  else
    .next ([2 * die, 2 * die + 1].foldl (fun s p =>
      let s := modLink s p fun l => { l with refclk := false }
      if (linkOf s p).up then logFault (portGoesDown s p) 0x0A 0xFF p 0xFF 0xFF else portGoesDown s p) s)

/-- PREFCLK_LOSS (R403, R490). -/
def execPrefclkLoss (port : Nat) (s : State) : Host.Outcome State Fault Refusal :=
  if 2 ≤ port then notNow s
  else
    let s := modPort s port fun x => { x with refclk := false, readyAt := none }
    if (portOf s port).linkUp then .next (portLost s port) else .next s

end Sys2Proof.Machine
end

