-- ==== Sys2Proof/Machine/Scalar.lean ====
section
/-! DEFINITION. The control, scalar and predicate instructions (04 R113 to R115, R140 to R144). -/

namespace Sys2Proof.Machine

open Sys2Proof

/-! ### Control -/

def execNop (t : ThreadId) (k : Common) (o : CArgs) (s : State) : Host.Outcome State Fault Refusal :=
  regWord (.nop t k o) t k id s

/-- A branch pops every level whose body does not contain its target (R143). -/
def Thread.branch (th : Thread) (target : Nat) : Thread :=
  { th with pc := target, loops := th.loops.dropWhile fun l => !(decide (l.start ≤ target) && decide (target ≤ l.stop)) }

/-- BR (R143); a target outside the code section is statically illegal (R111). -/
def execBr (t : ThreadId) (k : Common) (o : CArgs) (s : State) : Host.Outcome State Fault Refusal :=
  if canIssue s t ∧ codeWords (ctxOf s t.ctx) ≤ o.target.toNat then .refused .staticallyIllegal
  else issueWord (.br t k o) t k (fun s => modThread s t fun th => th.branch o.target.toNat) (stepPc t) s

/-- The latched count of a LOOP (R140). -/
def loopCount (o : CArgs) (th : Thread) : Nat := if o.ci then o.imm16.toNat else (th.rd o.a).toNat

/-- LOOP at a thread whose guard holds (R140, R142). -/
def Thread.enterLoop (th : Thread) (o : CArgs) : Thread :=
  if loopCount o th = 0 then th.skipTo o.target.toNat
  else
    { th with
      pc := th.pc + 1
      loops := { start := th.pc + 1, stop := o.target.toNat, count := loopCount o th, index := 0 } :: th.loops }

/-- LOOP; a target that is not greater than its own index or lies outside the code, and a fifth level, are statically
illegal (R111, R141). -/
def execLoop (t : ThreadId) (k : Common) (o : CArgs) (s : State) : Host.Outcome State Fault Refusal :=
  if canIssue s t ∧ (codeWords (ctxOf s t.ctx) ≤ o.target.toNat ∨ o.target.toNat ≤ (theThread s t).pc ∨
      4 ≤ (theThread s t).loops.length) then .refused .staticallyIllegal
  else
    issueWord (.loop t k o) t k (fun s => modThread s t fun th => th.enterLoop o)
      (fun s => modThread s t fun th => th.skipTo o.target.toNat) s

/-- LRD (Table 4.3): INDEX or COUNT of a level, 0 on a level that the stack does not hold (R143). -/
def execLrd (t : ThreadId) (k : Common) (o : IArgs) (s : State) : Host.Outcome State Fault Refusal :=
  regWord (.lrd t k o) t k
    (fun th => th.wr o.dst
      (match th.loops[o.imm.toNat % 4]? with
       | some l => BitVec.ofNat 32 (if o.minor.val = 0 then l.index else l.count)
       | none => 0)) s

/-- HALT (R144). -/
def execHalt (t : ThreadId) (k : Common) (o : CArgs) (s : State) : Host.Outcome State Fault Refusal :=
  issueWord (.halt t k o) t k (fun s => endThread s t) (stepPc t) s

/-! ### Integer arithmetic (R113, R114) -/

def execAdd (t : ThreadId) (k : Common) (o : RArgs) (s : State) : Host.Outcome State Fault Refusal :=
  regWord (.add t k o) t k (rForm o fun a b => a + b) s

def execSub (t : ThreadId) (k : Common) (o : RArgs) (s : State) : Host.Outcome State Fault Refusal :=
  regWord (.sub t k o) t k (rForm o fun a b => a - b) s

def execMul (t : ThreadId) (k : Common) (o : RArgs) (s : State) : Host.Outcome State Fault Refusal :=
  regWord (.mul t k o) t k (rForm o fun a b => a * b) s

/-- Bits [63:32] of the unsigned product. -/
def mulHighU (a b : Word) : Word := BitVec.ofNat 32 (a.toNat * b.toNat / 2 ^ 32)

/-- Bits [63:32] of the signed product. -/
def mulHighS (a b : Word) : Word := BitVec.ofInt 32 (a.toInt * b.toInt / 2 ^ 32)

def execMulhu (t : ThreadId) (k : Common) (o : RArgs) (s : State) : Host.Outcome State Fault Refusal :=
  regWord (.mulhu t k o) t k (rForm o mulHighU) s

def execMulhs (t : ThreadId) (k : Common) (o : RArgs) (s : State) : Host.Outcome State Fault Refusal :=
  regWord (.mulhs t k o) t k (rForm o mulHighS) s

/-- DIVU: 0xFFFF_FFFF for a zero divisor (R114). -/
def divU (a b : Word) : Word := if b = 0 then 0xFFFFFFFF else BitVec.ofNat 32 (a.toNat / b.toNat)

/-- REMU: the dividend for a zero divisor (R114). -/
def remU (a b : Word) : Word := if b = 0 then a else BitVec.ofNat 32 (a.toNat % b.toNat)

/-- DIVS: −1 for a zero divisor; −2^31 ÷ −1 is −2^31 (R114). -/
def divS (a b : Word) : Word := if b = 0 then 0xFFFFFFFF else BitVec.ofInt 32 (a.toInt.tdiv b.toInt)

/-- REMS: the dividend for a zero divisor; 0 for −2^31 by −1 (R114). -/
def remS (a b : Word) : Word := if b = 0 then a else BitVec.ofInt 32 (a.toInt.tmod b.toInt)

def execDivu (t : ThreadId) (k : Common) (o : RArgs) (s : State) : Host.Outcome State Fault Refusal :=
  regWord (.divu t k o) t k (rForm o divU) s

def execRemu (t : ThreadId) (k : Common) (o : RArgs) (s : State) : Host.Outcome State Fault Refusal :=
  regWord (.remu t k o) t k (rForm o remU) s

def execDivs (t : ThreadId) (k : Common) (o : RArgs) (s : State) : Host.Outcome State Fault Refusal :=
  regWord (.divs t k o) t k (rForm o divS) s

def execRems (t : ThreadId) (k : Common) (o : RArgs) (s : State) : Host.Outcome State Fault Refusal :=
  regWord (.rems t k o) t k (rForm o remS) s

def execAnd (t : ThreadId) (k : Common) (o : RArgs) (s : State) : Host.Outcome State Fault Refusal :=
  regWord (.and t k o) t k (rForm o fun a b => a &&& b) s

def execOr (t : ThreadId) (k : Common) (o : RArgs) (s : State) : Host.Outcome State Fault Refusal :=
  regWord (.or t k o) t k (rForm o fun a b => a ||| b) s

def execXor (t : ThreadId) (k : Common) (o : RArgs) (s : State) : Host.Outcome State Fault Refusal :=
  regWord (.xor t k o) t k (rForm o fun a b => a ^^^ b) s

/-- Shifts by the low five bits of the amount (R113). -/
def shiftL (a b : Word) : Word := a <<< (b.toNat % 32)
def shiftR (a b : Word) : Word := a >>> (b.toNat % 32)
def shiftA (a b : Word) : Word := a.sshiftRight (b.toNat % 32)

def execShl (t : ThreadId) (k : Common) (o : RArgs) (s : State) : Host.Outcome State Fault Refusal :=
  regWord (.shl t k o) t k (rForm o shiftL) s

def execShr (t : ThreadId) (k : Common) (o : RArgs) (s : State) : Host.Outcome State Fault Refusal :=
  regWord (.shr t k o) t k (rForm o shiftR) s

def execSra (t : ThreadId) (k : Common) (o : RArgs) (s : State) : Host.Outcome State Fault Refusal :=
  regWord (.sra t k o) t k (rForm o shiftA) s

/-- MINMAX (Table 4.3): 0 signed min, 1 signed max, 2 unsigned min, 3 unsigned max. -/
def minMax (minor : Nat) (a b : Word) : Word :=
  match minor with
  | 0 => if a.sle b then a else b
  | 1 => if a.sle b then b else a
  | 2 => if a.ule b then a else b
  | _ => if a.ule b then b else a

def execMinmax (t : ThreadId) (k : Common) (o : RArgs) (s : State) : Host.Outcome State Fault Refusal :=
  regWord (.minmax t k o) t k (rForm o (minMax o.minor.val)) s

def execAddi (t : ThreadId) (k : Common) (o : IArgs) (s : State) : Host.Outcome State Fault Refusal :=
  regWord (.addi t k o) t k (iForm o fun a b => a + b) s

def execAndi (t : ThreadId) (k : Common) (o : IArgs) (s : State) : Host.Outcome State Fault Refusal :=
  regWord (.andi t k o) t k (iForm o fun a b => a &&& b) s

def execOri (t : ThreadId) (k : Common) (o : IArgs) (s : State) : Host.Outcome State Fault Refusal :=
  regWord (.ori t k o) t k (iForm o fun a b => a ||| b) s

def execXori (t : ThreadId) (k : Common) (o : IArgs) (s : State) : Host.Outcome State Fault Refusal :=
  regWord (.xori t k o) t k (iForm o fun a b => a ^^^ b) s

/-- SHIFTI (Table 4.3): 0 SHL, 1 SHR, 2 SRA. -/
def shiftImm (minor : Nat) (a b : Word) : Word :=
  match minor with
  | 0 => shiftL a b
  | 1 => shiftR a b
  | _ => shiftA a b

def execShifti (t : ThreadId) (k : Common) (o : IArgs) (s : State) : Host.Outcome State Fault Refusal :=
  regWord (.shifti t k o) t k (iForm o (shiftImm o.minor.val)) s

def execMovi (t : ThreadId) (k : Common) (o : LArgs) (s : State) : Host.Outcome State Fault Refusal :=
  regWord (.movi t k o) t k (fun th => th.wr o.dst o.imm32) s

/-! ### Predicates -/

def execCmp (t : ThreadId) (k : Common) (o : RArgs) (s : State) : Host.Outcome State Fault Refusal :=
  regWord (.cmp t k o) t k (pForm o (cmpWord o.minor.val)) s

def execCmpi (t : ThreadId) (k : Common) (o : IArgs) (s : State) : Host.Outcome State Fault Refusal :=
  regWord (.cmpi t k o) t k
    (fun th => th.wrP (Fin.ofNat 8 o.dst.val) (cmpWord o.minor.val (th.rd o.a) (immWord o))) s

def execSel (t : ThreadId) (k : Common) (o : RArgs) (s : State) : Host.Outcome State Fault Refusal :=
  regWord (.sel t k o) t k
    (fun th => th.wr o.dst (if th.rdP (Fin.ofNat 8 o.c.val) then th.rd o.a else th.rd o.b)) s

def execPlog (t : ThreadId) (k : Common) (o : RArgs) (s : State) : Host.Outcome State Fault Refusal :=
  regWord (.plog t k o) t k
    (fun th => th.wrP (Fin.ofNat 8 o.dst.val)
      (plogOp o.minor.val (th.rdP (Fin.ofNat 8 o.a.val)) (th.rdP (Fin.ofNat 8 o.b.val)))) s

/-! ### FP32 on s registers (R115) -/

def execFadd (t : ThreadId) (k : Common) (o : RArgs) (s : State) : Host.Outcome State Fault Refusal :=
  regWord (.fadd t k o) t k (rForm o fadd) s

def execFmul (t : ThreadId) (k : Common) (o : RArgs) (s : State) : Host.Outcome State Fault Refusal :=
  regWord (.fmul t k o) t k (rForm o fmul) s

def execFfma (t : ThreadId) (k : Common) (o : RArgs) (s : State) : Host.Outcome State Fault Refusal :=
  regWord (.ffma t k o) t k (fun th => th.wr o.dst (ffma (th.rd o.a) (th.rd o.b) (th.rd o.c))) s

def execFminmax (t : ThreadId) (k : Common) (o : RArgs) (s : State) : Host.Outcome State Fault Refusal :=
  regWord (.fminmax t k o) t k (rForm o (if o.minor.val = 0 then fmin else fmax)) s

def execFcmp (t : ThreadId) (k : Common) (o : RArgs) (s : State) : Host.Outcome State Fault Refusal :=
  regWord (.fcmp t k o) t k (pForm o (fcmp o.minor.val)) s

def execFcvt (t : ThreadId) (k : Common) (o : RArgs) (s : State) : Host.Outcome State Fault Refusal :=
  regWord (.fcvt t k o) t k (fun th => th.wr o.dst (fcvt o.minor.val (th.rd o.a))) s

end Sys2Proof.Machine
end

