-- ==== Sys2Proof/Machine/Dispatch.lean ====
section
/-! DEFINITION. One arm per command of the table: a direct call of its meaning. -/

namespace Sys2Proof.Machine

open Sys2Proof

def exec (i : Instr) (s : State) : Host.Outcome State Fault Refusal :=
  match i with
  | .nop t k o => Sys2Proof.Machine.execNop t k o s
  | .br t k o => Sys2Proof.Machine.execBr t k o s
  | .loop t k o => Sys2Proof.Machine.execLoop t k o s
  | .lrd t k o => Sys2Proof.Machine.execLrd t k o s
  | .halt t k o => Sys2Proof.Machine.execHalt t k o s
  | .add t k o => Sys2Proof.Machine.execAdd t k o s
  | .sub t k o => Sys2Proof.Machine.execSub t k o s
  | .mul t k o => Sys2Proof.Machine.execMul t k o s
  | .mulhu t k o => Sys2Proof.Machine.execMulhu t k o s
  | .mulhs t k o => Sys2Proof.Machine.execMulhs t k o s
  | .divu t k o => Sys2Proof.Machine.execDivu t k o s
  | .remu t k o => Sys2Proof.Machine.execRemu t k o s
  | .divs t k o => Sys2Proof.Machine.execDivs t k o s
  | .rems t k o => Sys2Proof.Machine.execRems t k o s
  | .and t k o => Sys2Proof.Machine.execAnd t k o s
  | .or t k o => Sys2Proof.Machine.execOr t k o s
  | .xor t k o => Sys2Proof.Machine.execXor t k o s
  | .shl t k o => Sys2Proof.Machine.execShl t k o s
  | .shr t k o => Sys2Proof.Machine.execShr t k o s
  | .sra t k o => Sys2Proof.Machine.execSra t k o s
  | .minmax t k o => Sys2Proof.Machine.execMinmax t k o s
  | .addi t k o => Sys2Proof.Machine.execAddi t k o s
  | .andi t k o => Sys2Proof.Machine.execAndi t k o s
  | .ori t k o => Sys2Proof.Machine.execOri t k o s
  | .xori t k o => Sys2Proof.Machine.execXori t k o s
  | .shifti t k o => Sys2Proof.Machine.execShifti t k o s
  | .movi t k o => Sys2Proof.Machine.execMovi t k o s
  | .cmp t k o => Sys2Proof.Machine.execCmp t k o s
  | .cmpi t k o => Sys2Proof.Machine.execCmpi t k o s
  | .sel t k o => Sys2Proof.Machine.execSel t k o s
  | .plog t k o => Sys2Proof.Machine.execPlog t k o s
  | .fadd t k o => Sys2Proof.Machine.execFadd t k o s
  | .fmul t k o => Sys2Proof.Machine.execFmul t k o s
  | .ffma t k o => Sys2Proof.Machine.execFfma t k o s
  | .fminmax t k o => Sys2Proof.Machine.execFminmax t k o s
  | .fcmp t k o => Sys2Proof.Machine.execFcmp t k o s
  | .fcvt t k o => Sys2Proof.Machine.execFcvt t k o s
  | .vadd t k o => Sys2Proof.Machine.execVadd t k o s
  | .vsub t k o => Sys2Proof.Machine.execVsub t k o s
  | .vmul t k o => Sys2Proof.Machine.execVmul t k o s
  | .vfma t k o => Sys2Proof.Machine.execVfma t k o s
  | .vmin t k o => Sys2Proof.Machine.execVmin t k o s
  | .vmax t k o => Sys2Proof.Machine.execVmax t k o s
  | .vcmp t k o => Sys2Proof.Machine.execVcmp t k o s
  | .vsel t k o => Sys2Proof.Machine.execVsel t k o s
  | .vexp2 t k o => Sys2Proof.Machine.execVexp2 t k o s
  | .vrcp t k o => Sys2Proof.Machine.execVrcp t k o s
  | .vrsq t k o => Sys2Proof.Machine.execVrsq t k o s
  | .viadd t k o => Sys2Proof.Machine.execViadd t k o s
  | .visub t k o => Sys2Proof.Machine.execVisub t k o s
  | .vimul t k o => Sys2Proof.Machine.execVimul t k o s
  | .vlogic t k o => Sys2Proof.Machine.execVlogic t k o s
  | .vrsum t k o => Sys2Proof.Machine.execVrsum t k o s
  | .vrmax t k o => Sys2Proof.Machine.execVrmax t k o s
  | .vperm t k o => Sys2Proof.Machine.execVperm t k o s
  | .vbcast t k o => Sys2Proof.Machine.execVbcast t k o s
  | .vext t k o => Sys2Proof.Machine.execVext t k o s
  | .vflag t k o => Sys2Proof.Machine.execVflag t k o s
  | .vmov t k o => Sys2Proof.Machine.execVmov t k o s
  | .vcvt t k o => Sys2Proof.Machine.execVcvt t k o s
  | .vmaxabs t k o => Sys2Proof.Machine.execVmaxabs t k o s
  | .mma t k o => Sys2Proof.Machine.execMma t k o s
  | .twait t k o => Sys2Proof.Machine.execTwait t k o s
  | .ld t k o => Sys2Proof.Machine.execLd t k o s
  | .st t k o => Sys2Proof.Machine.execSt t k o s
  | .vld t k o => Sys2Proof.Machine.execVld t k o s
  | .vst t k o => Sys2Proof.Machine.execVst t k o s
  | .atom t k o => Sys2Proof.Machine.execAtom t k o s
  | .atomp t k o => Sys2Proof.Machine.execAtomp t k o s
  | .fence t k o => Sys2Proof.Machine.execFence t k o s
  | .tcopy t k o => Sys2Proof.Machine.execTcopy t k o s
  | .tscadd t k o => Sys2Proof.Machine.execTscadd t k o s
  | .tmaxabs t k o => Sys2Proof.Machine.execTmaxabs t k o s
  | .sig t k o => Sys2Proof.Machine.execSig t k o s
  | .sigw t k o => Sys2Proof.Machine.execSigw t k o s
  | .watch t k o => Sys2Proof.Machine.execWatch t k o s
  | .unwatch t k o => Sys2Proof.Machine.execUnwatch t k o s
  | .park t k o => Sys2Proof.Machine.execPark t k o s
  | .take t k o => Sys2Proof.Machine.execTake t k o s
  | .token t k o => Sys2Proof.Machine.execToken t k o s
  | .delay t k o => Sys2Proof.Machine.execDelay t k o s
  | .time t k o => Sys2Proof.Machine.execTime t k o s
  | .reel t k o => Sys2Proof.Machine.execReel t k o s
  | .dld t k o => Sys2Proof.Machine.execDld t k o s
  | .dstr t k o => Sys2Proof.Machine.execDstr t k o s
  | .dsetw t k o => Sys2Proof.Machine.execDsetw t k o s
  | .dgetw t k o => Sys2Proof.Machine.execDgetw t k o s
  | .breakStopDone ctx => Sys2Proof.Machine.execBreakStopDone ctx s
  | .requestAcceptance req => Sys2Proof.Machine.execRequestAcceptance req s
  | .lendingRequest led res n => Sys2Proof.Machine.execLendingRequest led res n s
  | .creditGiveBack led res => Sys2Proof.Machine.execCreditGiveBack led res s
  | .transferAcceptance xfer => Sys2Proof.Machine.execTransferAcceptance xfer s
  | .requestPerform req => Sys2Proof.Machine.execRequestPerform req s
  | .requestCompletion req resp poison => Sys2Proof.Machine.execRequestCompletion req resp poison s
  | .signalPerform req => Sys2Proof.Machine.execSignalPerform req s
  | .watchAck req => Sys2Proof.Machine.execWatchAck req s
  | .wakeNotification t => Sys2Proof.Machine.execWakeNotification t s
  | .tokenPerform req => Sys2Proof.Machine.execTokenPerform req s
  | .waitingFiringPlaced region => Sys2Proof.Machine.execWaitingFiringPlaced region s
  | .delayTick region => Sys2Proof.Machine.execDelayTick region s
  | .reelJobAccept region reel => Sys2Proof.Machine.execReelJobAccept region reel s
  | .reelJobComplete region reel => Sys2Proof.Machine.execReelJobComplete region reel s
  | .gatherRecordRead ctx region => Sys2Proof.Machine.execGatherRecordRead ctx region s
  | .gather region job => Sys2Proof.Machine.execGather region job s
  | .scatterAdd region job => Sys2Proof.Machine.execScatterAdd region job s
  | .write region job => Sys2Proof.Machine.execWrite region job s
  | .loftFill region job => Sys2Proof.Machine.execLoftFill region job s
  | .ownerBatch region b => Sys2Proof.Machine.execOwnerBatch region b s
  | .gatherJobComplete region job => Sys2Proof.Machine.execGatherJobComplete region job s
  | .rowHandover table row => Sys2Proof.Machine.execRowHandover table row s
  | .handoverCopyDone table row rowData accData => Sys2Proof.Machine.execHandoverCopyDone table row rowData accData s
  | .forwardEntryFree table row peersClear => Sys2Proof.Machine.execForwardEntryFree table row peersClear s
  | .balancerRead moves => Sys2Proof.Machine.execBalancerRead moves s
  | .mmaGrant op => Sys2Proof.Machine.execMmaGrant op s
  | .mmaComplete op => Sys2Proof.Machine.execMmaComplete op s
  | .tensorOpComplete op => Sys2Proof.Machine.execTensorOpComplete op s
  | .reduce ctx region => Sys2Proof.Machine.execReduce ctx region s
  | .outcome ctx region => Sys2Proof.Machine.execOutcome ctx region s
  | .grant region p => Sys2Proof.Machine.execGrant region p s
  | .max region p => Sys2Proof.Machine.execMax region p s
  | .exp region p => Sys2Proof.Machine.execExp region p s
  | .data region p => Sys2Proof.Machine.execData region p s
  | .outcomePacket region p => Sys2Proof.Machine.execOutcomePacket region p s
  | .abort region p => Sys2Proof.Machine.execAbort region p s
  | .reduceDisableDeadline region job => Sys2Proof.Machine.execReduceDisableDeadline region job s
  | .batchSteering ctx recordAddr => Sys2Proof.Machine.execBatchSteering ctx recordAddr s
  | .stage ctx region => Sys2Proof.Machine.execStage ctx region s
  | .winchCopy ctx region => Sys2Proof.Machine.execWinchCopy ctx region s
  | .winchRelease ctx region => Sys2Proof.Machine.execWinchRelease ctx region s
  | .winchEntryComplete region entry => Sys2Proof.Machine.execWinchEntryComplete region entry s
  | .objectRemapBoundary => Sys2Proof.Machine.execObjectRemapBoundary s
  | .nopCommand cmd => Sys2Proof.Machine.execNopCommand cmd s
  | .create cmd => Sys2Proof.Machine.execCreate cmd s
  | .destroy cmd => Sys2Proof.Machine.execDestroy cmd s
  | .load cmd => Sys2Proof.Machine.execLoad cmd s
  | .start cmd => Sys2Proof.Machine.execStart cmd s
  | .pause cmd => Sys2Proof.Machine.execPause cmd s
  | .resume cmd => Sys2Proof.Machine.execResume cmd s
  | .disable cmd => Sys2Proof.Machine.execDisable cmd s
  | .disableForce cmd => Sys2Proof.Machine.execDisableForce cmd s
  | .drainComplete ctx => Sys2Proof.Machine.execDrainComplete ctx s
  | .allocT2Frames cmd => Sys2Proof.Machine.execAllocT2Frames cmd s
  | .allocPinnedT1 cmd => Sys2Proof.Machine.execAllocPinnedT1 cmd s
  | .allocObject cmd => Sys2Proof.Machine.execAllocObject cmd s
  | .free cmd => Sys2Proof.Machine.execFree cmd s
  | .window cmd => Sys2Proof.Machine.execWindow cmd s
  | .apply cmd => Sys2Proof.Machine.execApply cmd s
  | .publish cmd => Sys2Proof.Machine.execPublish cmd s
  | .lend cmd => Sys2Proof.Machine.execLend cmd s
  | .returnFrames cmd => Sys2Proof.Machine.execReturnFrames cmd s
  | .copy cmd => Sys2Proof.Machine.execCopy cmd s
  | .balance cmd => Sys2Proof.Machine.execBalance cmd s
  | .selfTest cmd => Sys2Proof.Machine.execSelfTest cmd s
  | .calibration cmd => Sys2Proof.Machine.execCalibration cmd s
  | .exchange cmd => Sys2Proof.Machine.execExchange cmd s
  | .checkpoint cmd => Sys2Proof.Machine.execCheckpoint cmd s
  | .restore cmd => Sys2Proof.Machine.execRestore cmd s
  | .addendum cmd => Sys2Proof.Machine.execAddendum cmd s
  | .commandAccept fn queue v => Sys2Proof.Machine.execCommandAccept fn queue v s
  | .commandCompletion cmd => Sys2Proof.Machine.execCommandCompletion cmd s
  | .completionPost fn queue => Sys2Proof.Machine.execCompletionPost fn queue s
  | .sqTail fn queue value port host => Sys2Proof.Machine.execSqTail fn queue value port host s
  | .cqHead fn queue value port => Sys2Proof.Machine.execCqHead fn queue value port s
  | .qctl fn queue value => Sys2Proof.Machine.execQctl fn queue value s
  | .registerWrite fn off value be => Sys2Proof.Machine.execRegisterWrite fn off value be s
  | .groupVote device group boundary pass => Sys2Proof.Machine.execGroupVote device group boundary pass s
  | .groupVoteDeadline fn => Sys2Proof.Machine.execGroupVoteDeadline fn s
  | .stagedApplyBoundary fn => Sys2Proof.Machine.execStagedApplyBoundary fn s
  | .portDrain port => Sys2Proof.Machine.execPortDrain port s
  | .laneWithdraw port => Sys2Proof.Machine.execLaneWithdraw port s
  | .freeLendTakeEffect => Sys2Proof.Machine.execFreeLendTakeEffect s
  | .loftHalfActivate => Sys2Proof.Machine.execLoftHalfActivate s
  | .regionMapApply => Sys2Proof.Machine.execRegionMapApply s
  | .epochPulse => Sys2Proof.Machine.execEpochPulse s
  | .epochEdge => Sys2Proof.Machine.execEpochEdge s
  | .epochMasterTakeover => Sys2Proof.Machine.execEpochMasterTakeover s
  | .burnerControlInterval regions linkW linkTj => Sys2Proof.Machine.execBurnerControlInterval regions linkW linkTj s
  | .railRise region => Sys2Proof.Machine.execRailRise region s
  | .liftFlit crcOk r => Sys2Proof.Machine.execLiftFlit crcOk r s
  | .liftOffsetApply => Sys2Proof.Machine.execLiftOffsetApply s
  | .portBringup port lanes => Sys2Proof.Machine.execPortBringup port lanes s
  | .identityFlit port device peerPort serial => Sys2Proof.Machine.execIdentityFlit port device peerPort serial s
  | .dataFlit port seq ack credits crcOk ops => Sys2Proof.Machine.execDataFlit port seq ack credits crcOk ops s
  | .nak port ack crcOk => Sys2Proof.Machine.execNak port ack crcOk s
  | .idleFlit port ack credits crcOk => Sys2Proof.Machine.execIdleFlit port ack credits crcOk s
  | .timeFlit port boundary crcOk => Sys2Proof.Machine.execTimeFlit port boundary crcOk s
  | .laneChangeFlit port lane crcOk => Sys2Proof.Machine.execLaneChangeFlit port lane crcOk s
  | .linkRetrain port => Sys2Proof.Machine.execLinkRetrain port s
  | .laneFailure port lane => Sys2Proof.Machine.execLaneFailure port lane s
  | .remoteOperationReceive port h payload => Sys2Proof.Machine.execRemoteOperationReceive port h payload s
  | .peerLoss device => Sys2Proof.Machine.execPeerLoss device s
  | .pcieLinkDown port => Sys2Proof.Machine.execPcieLinkDown port s
  | .perstDeassert port => Sys2Proof.Machine.execPerstDeassert port s
  | .perstAssert port => Sys2Proof.Machine.execPerstAssert port s
  | .functionLevelReset fn => Sys2Proof.Machine.execFunctionLevelReset fn s
  | .completionTimeout req => Sys2Proof.Machine.execCompletionTimeout req s
  | .mctpMessage m => Sys2Proof.Machine.execMctpMessage m s
  | .tapInstruction op => Sys2Proof.Machine.execTapInstruction op s
  | .vaonValid straps => Sys2Proof.Machine.execVaonValid straps s
  | .powerGoodRise keelFail regionFail => Sys2Proof.Machine.execPowerGoodRise keelFail regionFail s
  | .corePgLoss phys => Sys2Proof.Machine.execCorePgLoss phys s
  | .sharedPgLoss => Sys2Proof.Machine.execSharedPgLoss s
  | .trefLoss => Sys2Proof.Machine.execTrefLoss s
  | .lrefclkLoss die => Sys2Proof.Machine.execLrefclkLoss die s
  | .prefclkLoss port => Sys2Proof.Machine.execPrefclkLoss port s
  | .handshakeTimeout u => Sys2Proof.Machine.execHandshakeTimeout u s
  | .uncorrectableError p => Sys2Proof.Machine.execUncorrectableError p s
  | .cellRetire region cell => Sys2Proof.Machine.execCellRetire region cell s
  | .spareSplice region cell lost poisonT0 => Sys2Proof.Machine.execSpareSplice region cell lost poisonT0 s
  | .regionMigration phys => Sys2Proof.Machine.execRegionMigration phys s
  | .migrationCopyDone region poisoned => Sys2Proof.Machine.execMigrationCopyDone region poisoned s
  | .regionFailure phys => Sys2Proof.Machine.execRegionFailure phys s
  | .serviceActionDone phys passed => Sys2Proof.Machine.execServiceActionDone phys passed s
  | .keelHeartbeat missing against => Sys2Proof.Machine.execKeelHeartbeat missing against s
  | .keelStandbyJoin => Sys2Proof.Machine.execKeelStandbyJoin s
  | .keelRotation passed => Sys2Proof.Machine.execKeelRotation passed s
  | .patrolScrub place flips => Sys2Proof.Machine.execPatrolScrub place flips s
  | .lifetimeWrite ok => Sys2Proof.Machine.execLifetimeWrite ok s
  | .lifetimeWriteRetry ok => Sys2Proof.Machine.execLifetimeWriteRetry ok s
  | .retirementListAppend => Sys2Proof.Machine.execRetirementListAppend s
  | .keelPeriodicSelfCheck keel passed => Sys2Proof.Machine.execKeelPeriodicSelfCheck keel passed s
  | .trefReturn => Sys2Proof.Machine.execTrefReturn s
  | .vaonLoss => Sys2Proof.Machine.execVaonLoss s
  | .configurationRequest fn op => Sys2Proof.Machine.execConfigurationRequest fn op s

end Sys2Proof.Machine
end

