-- ==== Sys2Proof/Laws/Ecc.lean ====
section
/-! SUPPORT. The laws of the codes of Machine/Ecc.lean: the code of a sum of words is the sum of their codes, so the check of a
word finds what was flipped and not what was written. -/

namespace Sys2Proof.Machine

open Sys2Proof

theorem sumColumns_xor (v w : Word) : ∀ (l : List (BitVec 7)) (i : Nat),
    sumColumns (v ^^^ w) l i = sumColumns v l i ^^^ sumColumns w l i
  | [], _ => by simp [sumColumns]
  | k :: r, i => by
    simp only [sumColumns, sumColumns_xor v w r (i + 1), BitVec.getLsbD_xor]
    generalize sumColumns v r (i + 1) = a
    generalize sumColumns w r (i + 1) = b
    generalize v.getLsbD i = x
    generalize w.getLsbD i = y
    apply BitVec.eq_of_getElem_eq
    intro j hj
    simp only [BitVec.getElem_xor]
    generalize a[j] = p
    generalize b[j] = q
    generalize hc : k[j] = e
    cases x <;> cases y <;> cases p <;> cases q <;> cases e <;> simp [hc]

/-- The code is linear. -/
theorem hsiaoCode_xor (v w : Word) : hsiaoCode (v ^^^ w) = hsiaoCode v ^^^ hsiaoCode w := sumColumns_xor v w _ _

/-- The syndrome of a stored word with flipped bits is that of the flips. -/
theorem syndrome_flip (w : Word) (flips : Nat) : ((Coded.of w).flip flips).syndrome =
    hsiaoCode (BitVec.ofNat 32 flips) ^^^ BitVec.ofNat 7 (flips / 2 ^ 32) := by
  unfold Coded.syndrome Coded.flip Coded.of
  rw [hsiaoCode_xor]
  generalize hsiaoCode w = a
  generalize hsiaoCode (BitVec.ofNat 32 flips) = b
  generalize BitVec.ofNat 7 (flips / 2 ^ 32) = k
  apply BitVec.eq_of_getElem_eq
  intro j hj
  simp only [BitVec.getElem_xor]
  generalize a[j] = p
  generalize b[j] = q
  generalize k[j] = r
  cases p <;> cases q <;> cases r <;> rfl

/-- What the check of a word finds is the same for every word that was written. -/
theorem checkWord_eq (w : Word) (flips : Nat) : checkWord w flips = checkWord 0 flips := by
  unfold checkWord
  rw [syndrome_flip, syndrome_flip]

end Sys2Proof.Machine
end

