-- ==== Sys2Proof/Laws/Memory.lean ====
section
/-! SUPPORT. Laws of memory: every operation keeps the canonical form, a byte reads back as it was written, and a write
leaves every other byte alone. -/

namespace Sys2Proof.Machine

open Sys2Proof

/-! ### The canonical list -/

theorem cellsWf_weaken {l : List Host.Cell} : ∀ {lo hi : Nat}, lo ≤ hi → cellsWf hi l = true → cellsWf lo l = true := by
  cases l with
  | nil => intros; rfl
  | cons c r =>
    intro lo hi hle h
    simp only [cellsWf, Bool.and_eq_true, decide_eq_true_eq] at h ⊢
    exact ⟨⟨by omega, h.1.2⟩, h.2⟩

theorem cellsWrite_wf {l : List Host.Cell} : ∀ {lo a : Nat} {v : Byte}, lo ≤ a → cellsWf lo l = true →
    cellsWf lo (cellsWrite l a v) = true := by
  induction l with
  | nil =>
    intro lo a v hle _
    simp only [cellsWrite]
    split
    · rfl
    · simp_all [cellsWf]
  | cons c r ih =>
    obtain ⟨b, w⟩ := c
    intro lo a v hle h
    simp only [cellsWf, Bool.and_eq_true, decide_eq_true_eq] at h
    obtain ⟨⟨h1, h2⟩, h3⟩ := h
    simp only [cellsWrite]
    split
    · split
      · simp [cellsWf, h1, h3]; exact h2
      · have hb : a + 1 ≤ b := by omega
        simp_all [cellsWf]
    · split
      · subst_vars
        split
        · exact cellsWf_weaken (by omega) h3
        · simp_all [cellsWf]
      · have := ih (lo := b + 1) (a := a) (v := v) (by omega) h3
        simp [cellsWf, h1, this]; exact h2

theorem cellsRead_below {l : List Host.Cell} : ∀ {lo a : Nat}, cellsWf lo l = true → a < lo → cellsRead l a = 0 := by
  cases l with
  | nil => intros; rfl
  | cons c r =>
    intro lo a h hlt
    simp only [cellsWf, Bool.and_eq_true, decide_eq_true_eq] at h
    simp only [cellsRead]
    rw [if_neg (by omega), if_pos (by omega)]

theorem cellsRead_write_same {l : List Host.Cell} : ∀ {lo a : Nat} {v : Byte}, cellsWf lo l = true →
    cellsRead (cellsWrite l a v) a = v := by
  induction l with
  | nil =>
    intro lo a v _
    simp only [cellsWrite]
    split <;> simp_all [cellsRead]
  | cons c r ih =>
    obtain ⟨b, w⟩ := c
    intro lo a v h
    simp only [cellsWf, Bool.and_eq_true, decide_eq_true_eq] at h
    simp only [cellsWrite]
    split
    · split
      · simp only [cellsRead]
        rw [if_neg (by omega), if_pos (by assumption)]
        simp_all
      · simp [cellsRead]
    · split
      · subst_vars
        split
        · rw [cellsRead_below h.2 (by omega)]; simp_all
        · simp [cellsRead]
      · simp only [cellsRead]
        rw [if_neg (by omega), if_neg (by omega)]
        exact ih h.2

theorem cellsRead_write_other {l : List Host.Cell} : ∀ {lo a x : Nat} {v : Byte}, cellsWf lo l = true → x ≠ a →
    cellsRead (cellsWrite l a v) x = cellsRead l x := by
  induction l with
  | nil =>
    intro lo a x v _ hne
    simp only [cellsWrite]
    split
    · rfl
    · simp only [cellsRead]
      rw [if_neg (by omega)]
      split <;> rfl
  | cons c r ih =>
    obtain ⟨b, w⟩ := c
    intro lo a x v h hne
    simp only [cellsWf, Bool.and_eq_true, decide_eq_true_eq] at h
    simp only [cellsWrite]
    split
    · split
      · rfl
      · simp only [cellsRead]
        rw [if_neg (by omega)]
        split
        · rw [if_neg (by omega), if_pos (by omega)]
        · rfl
    · split
      · subst_vars
        split
        · simp only [cellsRead]
          rw [if_neg (by omega)]
          split
          · rw [cellsRead_below h.2 (by omega)]
          · rfl
        · have hx : ¬ a = x := by omega
          simp only [cellsRead, if_neg hx]
      · simp only [cellsRead, ih h.2 hne]

theorem cellsWf_filter {l : List Host.Cell} (p : Host.Cell → Bool) : ∀ {lo : Nat}, cellsWf lo l = true →
    cellsWf lo (l.filter p) = true := by
  induction l with
  | nil => intros; rfl
  | cons c r ih =>
    obtain ⟨b, w⟩ := c
    intro lo h
    simp only [cellsWf, Bool.and_eq_true, decide_eq_true_eq] at h
    simp only [List.filter_cons]
    split
    · simp only [cellsWf, Bool.and_eq_true, decide_eq_true_eq]
      exact ⟨h.1, ih h.2⟩
    · exact cellsWf_weaken (by omega) (ih h.2)

/-! ### Memory -/

@[simp] theorem Memory.wf_empty : Memory.empty.wf = true := rfl

theorem Memory.wf_of_cells {m n : Memory} (h : n.cells = m.cells) (hm : m.wf = true) : n.wf = true := by
  unfold Memory.wf; rw [h]; exact hm

theorem Memory.writeByte_wf {m : Memory} {a : Nat} {v : Byte} (h : m.wf = true) : (m.writeByte a v).wf = true :=
  cellsWrite_wf (Nat.zero_le a) h

theorem Memory.read_writeByte_same {m : Memory} {a : Nat} {v : Byte} (h : m.wf = true) :
    (m.writeByte a v).readByte a = v := cellsRead_write_same h

theorem Memory.read_writeByte_other {m : Memory} {a x : Nat} {v : Byte} (h : m.wf = true) (hne : x ≠ a) :
    (m.writeByte a v).readByte x = m.readByte x := cellsRead_write_other h hne

theorem Memory.writeBytes_wf (bs : List Byte) : ∀ {m : Memory} {a : Nat}, m.wf = true → (m.writeBytes a bs).wf = true := by
  induction bs with
  | nil => intro m a h; exact h
  | cons b r ih => intro m a h; exact ih (Memory.writeByte_wf h)

theorem Memory.putByte_wf {m : Memory} {x : Nat} {b : Byte} (h : m.wf = true) : (m.putByte x b).wf = true :=
  Memory.wf_of_cells rfl (Memory.writeByte_wf (a := x) (v := b) h)

theorem foldl_keeps {α β : Type} {P : β → Prop} {f : β → α → β} (hf : ∀ b a, P b → P (f b a)) (l : List α) :
    ∀ {b : β}, P b → P (l.foldl f b) := by
  induction l with
  | nil => intro b h; exact h
  | cons a r ih => intro b h; exact ih (hf b a h)

theorem Memory.store_wf {m : Memory} {a : Nat} {bs : List Byte} (h : m.wf = true) : (m.store a bs).wf = true := by
  refine foldl_keeps (P := fun m : Memory => m.wf = true) ?_ _ h
  intro m x hm
  dsimp only
  split
  · exact Memory.putByte_wf hm
  · exact hm

theorem Memory.poisonRange_wf {m : Memory} {a n : Nat} (h : m.wf = true) : (m.poisonRange a n).wf = true :=
  Memory.wf_of_cells rfl h

theorem Memory.poisonAt_wf {m : Memory} {a : Nat} (h : m.wf = true) : (m.poisonAt a).wf = true := by
  unfold Memory.poisonAt
  split <;> exact Memory.poisonRange_wf h

theorem Memory.move_wf {m : Memory} {src dst n : Nat} (h : m.wf = true) : (m.move src dst n).wf = true := by
  refine foldl_keeps (P := fun m : Memory => m.wf = true) ?_ _ (Memory.store_wf h)
  intro m x hm
  split
  · exact Memory.poisonAt_wf hm
  · exact hm

theorem Memory.eraseWhere_wf {m : Memory} {f : Nat → Bool} (h : m.wf = true) : (m.eraseWhere f).wf = true :=
  cellsWf_filter _ h

end Sys2Proof.Machine
end

