-- ==== Sys2Proof/Laws/Keeps.lean ====
section
/-! SUPPORT. What every operation of the model keeps, as one relation between the state before and the state after: the
queue of waiting commands, the canonical form of memory, what the part was fixed to at test, and the records of the
board flash that are only ever appended to, and the numbers of requests, tensor operations, commands and transfers. One lemma for each operation says that it keeps them; a proof about `exec`
or `step` cites those lemmas and unfolds no meaning. -/

namespace Sys2Proof.Machine

open Sys2Proof

/-- What no command changes. -/
structure Keeps (s u : State) : Prop where
  queue : u.pending = s.pending
  mem : s.mem.wf = true → u.mem.wf = true
  part : { u.part with device := 0 } = { s.part with device := 0 }
  retired : s.flash.retirements <+: u.flash.retirements
  failed : s.flash.failedKeels <+: u.flash.failedKeels
  requests : freshIds (·.id) s.requests s.nextReq → freshIds (·.id) u.requests u.nextReq
  ops : freshIds (·.id) s.ops s.nextOp → freshIds (·.id) u.ops u.nextOp
  cmds : freshIds (·.id) s.cmds s.nextCmd → freshIds (·.id) u.cmds u.nextCmd
  transfers : freshIds (·.id) s.transfers s.nextXfer → freshIds (·.id) u.transfers u.nextXfer

/-- An outcome whose next state, if there is one, keeps it. -/
def KeepsNext (s : State) (o : Host.Outcome State Fault Refusal) : Prop := ∀ u, o = .next u → Keeps s u

/-! ### Numbers -/

section Numbers

variable {α : Type} {id : α → Nat} {l : List α} {n : Nat}

theorem freshIds_nil {n : Nat} : freshIds id ([] : List α) n := ⟨List.nodup_nil, by simp⟩

theorem freshIds_filter {p : α → Bool} (h : freshIds id l n) : freshIds id (l.filter p) n :=
  ⟨h.1.sublist (List.filter_sublist.map _), fun x hx => h.2 x (List.mem_filter.mp hx).1⟩

theorem freshIds_map {f : α → α} (hf : ∀ x, id (f x) = id x) (h : freshIds id l n) : freshIds id (l.map f) n := by
  constructor
  · have : (l.map f).map id = l.map id := by simp [Function.comp_def, hf]
    rw [this]; exact h.1
  · intro x hx
    obtain ⟨y, hy, rfl⟩ := List.mem_map.mp hx
    rw [hf]; exact h.2 y hy

theorem freshIds_add {a : α} (ha : id a = n) (h : freshIds id l n) : freshIds id (l ++ [a]) (n + 1) := by
  constructor
  · rw [List.map_append, List.nodup_append]
    refine ⟨h.1, by simp, ?_⟩
    intro x hx y hy
    obtain ⟨z, hz, rfl⟩ := List.mem_map.mp hx
    have := h.2 z hz
    simp only [List.map_cons, List.map_nil, List.mem_singleton] at hy
    omega
  · intro x hx
    rcases List.mem_append.mp hx with hx | hx
    · exact Nat.lt_succ_of_lt (h.2 x hx)
    · rw [List.mem_singleton.mp hx]; omega

end Numbers

namespace Keeps

theorem refl (s : State) : Keeps s s := ⟨rfl, id, rfl, List.prefix_rfl, List.prefix_rfl, id, id, id, id⟩

theorem trans {s t u : State} (a : Keeps s t) (b : Keeps t u) : Keeps s u :=
  ⟨b.queue.trans a.queue, fun h => b.mem (a.mem h), b.part.trans a.part, a.retired.trans b.retired,
    a.failed.trans b.failed, fun h => b.requests (a.requests h), fun h => b.ops (a.ops h), fun h => b.cmds (a.cmds h),
    fun h => b.transfers (a.transfers h)⟩

/-- A record update of any fields but those that matter. -/
theorem upd {z x : State} {v_clock : Clock} {v_pages : Map Nat PageRun}
    {v_retiredGranules : List (Nat × Nat × Nat)} {v_granuleErrors : Map (Nat × Nat) Nat}
    {v_regs : Map Nat DWord} {v_contexts : Map Nat Context} {v_threads : Map ThreadId Thread}
    {v_groups : Map (Nat × Nat × Nat) Group} {v_vectors : Map (Nat × Nat × Nat) VectorCtx}
    {v_dests : Map Resource Destination} {v_ledgers : Map (AdmPoint × Resource) Ledger}
    {v_logs : Map Nat LogRegion} {v_phys : Map Nat PhysRegion} {v_tables : Map Nat TableState}
    {v_keptPins : List KeptPin} {v_links : Map Nat Link} {v_ports : Map Nat PciePort} {v_fns : Map Nat Function}
    {v_records : List Record} {v_allocs : List Allocation} {v_nextHandle : Nat} {v_loans : List Loan}
    {v_later : List (LaterEffect × Nat)} {v_votes : List Vote} {v_keels : Keels} {v_hold : Bool}
    {v_faultLog : Map Nat LogEntry} {v_logTotal : Nat} {v_life : DeviceLife} {v_power : Power} {v_board : Board}
    {v_out : List Output} {v_lowered : List Lowered} {v_objects : List PoolObject}
    {v_checkpoints : List (List Byte × CheckpointParts)} {v_cmdTurn : Nat × Nat} {v_addendum : Option Addendum}
    {v_notice : Option (Nat × Nat)} {v_lowerRev : Nat} {v_lastEvent : Map (Nat × Nat) Nat} {v_freeCounter : Nat}
    {v_wakes : List WakeCredit} {v_activity : Map ActKey Nat} {v_cfgs : Map (Nat × Nat) FnConfig}
    {v_loadBank : Option Addendum} {v_w1cAt : Map (Nat × Nat) Nat}
    (h : Keeps z x) :
    Keeps z { x with
      clock := v_clock, pages := v_pages, retiredGranules := v_retiredGranules, granuleErrors := v_granuleErrors,
      regs := v_regs, contexts := v_contexts, threads := v_threads, groups := v_groups, vectors := v_vectors,
      dests := v_dests, ledgers := v_ledgers, logs := v_logs, phys := v_phys, tables := v_tables,
      keptPins := v_keptPins, links := v_links, ports := v_ports, fns := v_fns, records := v_records,
      allocs := v_allocs, nextHandle := v_nextHandle, loans := v_loans, later := v_later, votes := v_votes,
      keels := v_keels, hold := v_hold, faultLog := v_faultLog, logTotal := v_logTotal, life := v_life,
      power := v_power, board := v_board, out := v_out, lowered := v_lowered, objects := v_objects,
      checkpoints := v_checkpoints, cmdTurn := v_cmdTurn, addendum := v_addendum, notice := v_notice,
      lowerRev := v_lowerRev, lastEvent := v_lastEvent, freeCounter := v_freeCounter,
      wakes := v_wakes, activity := v_activity, cfgs := v_cfgs, loadBank := v_loadBank, w1cAt := v_w1cAt } :=
  h.trans ⟨rfl, id, rfl, List.prefix_rfl, List.prefix_rfl, id, id, id, id⟩

/-- A record update of the flash, which keeps its two lists, and of fields that do not matter. -/
theorem flashUpd {z x : State} {v_clock : Clock} {v_pages : Map Nat PageRun}
    {v_retiredGranules : List (Nat × Nat × Nat)} {v_granuleErrors : Map (Nat × Nat) Nat}
    {v_regs : Map Nat DWord} {v_contexts : Map Nat Context} {v_threads : Map ThreadId Thread}
    {v_groups : Map (Nat × Nat × Nat) Group} {v_vectors : Map (Nat × Nat × Nat) VectorCtx}
    {v_dests : Map Resource Destination} {v_ledgers : Map (AdmPoint × Resource) Ledger}
    {v_logs : Map Nat LogRegion} {v_phys : Map Nat PhysRegion} {v_tables : Map Nat TableState}
    {v_keptPins : List KeptPin} {v_links : Map Nat Link} {v_ports : Map Nat PciePort} {v_fns : Map Nat Function}
    {v_records : List Record} {v_allocs : List Allocation} {v_nextHandle : Nat} {v_loans : List Loan}
    {v_later : List (LaterEffect × Nat)} {v_votes : List Vote} {v_keels : Keels} {v_hold : Bool}
    {v_faultLog : Map Nat LogEntry} {v_logTotal : Nat} {v_flash : Flash} {v_life : DeviceLife} {v_power : Power}
    {v_board : Board} {v_out : List Output} {v_lowered : List Lowered} {v_objects : List PoolObject}
    {v_checkpoints : List (List Byte × CheckpointParts)} {v_cmdTurn : Nat × Nat} {v_addendum : Option Addendum}
    {v_notice : Option (Nat × Nat)} {v_lowerRev : Nat} {v_lastEvent : Map (Nat × Nat) Nat} {v_freeCounter : Nat}
    {v_wakes : List WakeCredit} {v_activity : Map ActKey Nat} {v_cfgs : Map (Nat × Nat) FnConfig}
    {v_loadBank : Option Addendum} {v_w1cAt : Map (Nat × Nat) Nat}
    (hr : x.flash.retirements <+: v_flash.retirements) (hk : x.flash.failedKeels <+: v_flash.failedKeels)
    (h : Keeps z x) :
    Keeps z { x with
      clock := v_clock, pages := v_pages, retiredGranules := v_retiredGranules, granuleErrors := v_granuleErrors,
      regs := v_regs, contexts := v_contexts, threads := v_threads, groups := v_groups, vectors := v_vectors,
      dests := v_dests, ledgers := v_ledgers, logs := v_logs, phys := v_phys, tables := v_tables,
      keptPins := v_keptPins, links := v_links, ports := v_ports, fns := v_fns, records := v_records,
      allocs := v_allocs, nextHandle := v_nextHandle, loans := v_loans, later := v_later, votes := v_votes,
      keels := v_keels, hold := v_hold, faultLog := v_faultLog, logTotal := v_logTotal, flash := v_flash,
      life := v_life, power := v_power, board := v_board, out := v_out, lowered := v_lowered,
      objects := v_objects, checkpoints := v_checkpoints, cmdTurn := v_cmdTurn, addendum := v_addendum,
      notice := v_notice, lowerRev := v_lowerRev, lastEvent := v_lastEvent, freeCounter := v_freeCounter,
      wakes := v_wakes, activity := v_activity, cfgs := v_cfgs, loadBank := v_loadBank, w1cAt := v_w1cAt } :=
  h.trans ⟨rfl, id, rfl, hr, hk, id, id, id, id⟩

/-- A record update of numbered things that keeps their numbers fresh, and of fields that do not matter. -/
theorem listUpd {z x : State} {v_clock : Clock} {v_pages : Map Nat PageRun}
    {v_retiredGranules : List (Nat × Nat × Nat)} {v_granuleErrors : Map (Nat × Nat) Nat}
    {v_regs : Map Nat DWord} {v_contexts : Map Nat Context} {v_threads : Map ThreadId Thread}
    {v_groups : Map (Nat × Nat × Nat) Group} {v_vectors : Map (Nat × Nat × Nat) VectorCtx}
    {v_requests : List Request} {v_nextReq : Nat} {v_dests : Map Resource Destination}
    {v_ledgers : Map (AdmPoint × Resource) Ledger} {v_transfers : List Transfer} {v_nextXfer : Nat}
    {v_ops : List TensorOp} {v_nextOp : Nat} {v_logs : Map Nat LogRegion} {v_phys : Map Nat PhysRegion}
    {v_tables : Map Nat TableState} {v_keptPins : List KeptPin} {v_links : Map Nat Link}
    {v_ports : Map Nat PciePort} {v_fns : Map Nat Function} {v_cmds : List Cmd} {v_nextCmd : Nat}
    {v_records : List Record} {v_allocs : List Allocation} {v_nextHandle : Nat} {v_loans : List Loan}
    {v_later : List (LaterEffect × Nat)} {v_votes : List Vote} {v_keels : Keels} {v_hold : Bool}
    {v_faultLog : Map Nat LogEntry} {v_logTotal : Nat} {v_life : DeviceLife} {v_power : Power} {v_board : Board}
    {v_out : List Output} {v_lowered : List Lowered} {v_objects : List PoolObject}
    {v_checkpoints : List (List Byte × CheckpointParts)} {v_cmdTurn : Nat × Nat} {v_addendum : Option Addendum}
    {v_notice : Option (Nat × Nat)} {v_lowerRev : Nat} {v_lastEvent : Map (Nat × Nat) Nat} {v_freeCounter : Nat}
    {v_wakes : List WakeCredit} {v_activity : Map ActKey Nat} {v_cfgs : Map (Nat × Nat) FnConfig}
    {v_loadBank : Option Addendum} {v_w1cAt : Map (Nat × Nat) Nat}
    (hr : freshIds (·.id) x.requests x.nextReq → freshIds (·.id) v_requests v_nextReq)
    (ho : freshIds (·.id) x.ops x.nextOp → freshIds (·.id) v_ops v_nextOp)
    (hc : freshIds (·.id) x.cmds x.nextCmd → freshIds (·.id) v_cmds v_nextCmd)
    (hx : freshIds (·.id) x.transfers x.nextXfer → freshIds (·.id) v_transfers v_nextXfer)
    (h : Keeps z x) :
    Keeps z { x with
      clock := v_clock, pages := v_pages, retiredGranules := v_retiredGranules, granuleErrors := v_granuleErrors,
      regs := v_regs, contexts := v_contexts, threads := v_threads, groups := v_groups, vectors := v_vectors,
      requests := v_requests, nextReq := v_nextReq, dests := v_dests, ledgers := v_ledgers,
      transfers := v_transfers, nextXfer := v_nextXfer, ops := v_ops, nextOp := v_nextOp, logs := v_logs,
      phys := v_phys, tables := v_tables, keptPins := v_keptPins, links := v_links, ports := v_ports,
      fns := v_fns, cmds := v_cmds, nextCmd := v_nextCmd, records := v_records, allocs := v_allocs,
      nextHandle := v_nextHandle, loans := v_loans, later := v_later, votes := v_votes, keels := v_keels,
      hold := v_hold, faultLog := v_faultLog, logTotal := v_logTotal, life := v_life, power := v_power,
      board := v_board, out := v_out, lowered := v_lowered, objects := v_objects, checkpoints := v_checkpoints,
      cmdTurn := v_cmdTurn, addendum := v_addendum, notice := v_notice, lowerRev := v_lowerRev,
      lastEvent := v_lastEvent, freeCounter := v_freeCounter,
      wakes := v_wakes, activity := v_activity, cfgs := v_cfgs, loadBank := v_loadBank, w1cAt := v_w1cAt } :=
  h.trans ⟨rfl, id, rfl, List.prefix_rfl, List.prefix_rfl, hr, ho, hc, hx⟩

/-- A record update of memory by an operation that keeps its canonical form. -/
theorem memUpd {z x : State} {m : Memory} (hm : x.mem.wf = true → m.wf = true) (h : Keeps z x) :
    Keeps z { x with mem := m } := h.trans ⟨rfl, hm, rfl, List.prefix_rfl, List.prefix_rfl, id, id, id, id⟩

theorem ite {z a b : State} {c : Prop} [Decidable c] (ha : Keeps z a) (hb : Keeps z b) : Keeps z (if c then a else b) := by
  split
  · exact ha
  · exact hb

theorem foldl {α : Type} {z s : State} {f : State → α → State} {l : List α} (hf : ∀ s a, Keeps z s → Keeps z (f s a))
    (h : Keeps z s) : Keeps z (l.foldl f s) := foldl_keeps (P := Keeps z) hf l h

end Keeps

namespace KeepsNext

theorem next {z u : State} (h : Keeps z u) : KeepsNext z (.next u) := by
  intro v hv; cases hv; exact h

theorem refused {z : State} {r : Refusal} : KeepsNext z (.refused r) := by
  intro v hv; cases hv

theorem notNow {z s : State} (h : Keeps z s) : KeepsNext z (notNow s) := next h

theorem ite {z : State} {a b : Host.Outcome State Fault Refusal} {c : Prop} [Decidable c] (ha : KeepsNext z a)
    (hb : KeepsNext z b) : KeepsNext z (if c then a else b) := by
  split
  · exact ha
  · exact hb

end KeepsNext

end Sys2Proof.Machine
end

