-- ==== Sys2Proof/Laws/KeepsOps.lean ====
section
/-! SUPPORT. One lemma for each operation of Machine/Ops.lean: what it keeps (Laws/Keeps.lean). -/

namespace Sys2Proof.Machine

open Sys2Proof

theorem keeps_setCtx {z : State} {s : State} {c : Nat} {x : Context} (h_s : Keeps z s) :
    Keeps z (setCtx s c x) := by
  unfold setCtx
  repeat' with_reducible first
    | assumption | apply Keeps.upd

theorem keeps_modCtx {z : State} {s : State} {c : Nat} {f : Context → Context} (h_s : Keeps z s) :
    Keeps z (modCtx s c f) := by
  unfold modCtx
  repeat' with_reducible first
    | assumption | apply keeps_setCtx

theorem keeps_setRegion {z : State} {s : State} {L : Nat} {x : LogRegion} (h_s : Keeps z s) :
    Keeps z (setRegion s L x) := by
  unfold setRegion
  repeat' with_reducible first
    | assumption | apply Keeps.upd

theorem keeps_modRegion {z : State} {s : State} {L : Nat} {f : LogRegion → LogRegion} (h_s : Keeps z s) :
    Keeps z (modRegion s L f) := by
  unfold modRegion
  repeat' with_reducible first
    | assumption | apply keeps_setRegion

theorem keeps_setPhys {z : State} {s : State} {p : Nat} {x : PhysRegion} (h_s : Keeps z s) :
    Keeps z (setPhys s p x) := by
  unfold setPhys
  repeat' with_reducible first
    | assumption | apply Keeps.upd

theorem keeps_modPhys {z : State} {s : State} {p : Nat} {f : PhysRegion → PhysRegion} (h_s : Keeps z s) :
    Keeps z (modPhys s p f) := by
  unfold modPhys
  repeat' with_reducible first
    | assumption | apply keeps_setPhys

theorem keeps_modLink {z : State} {s : State} {n : Nat} {f : Link → Link} (h_s : Keeps z s) :
    Keeps z (modLink s n f) := by
  unfold modLink
  repeat' with_reducible first
    | assumption | apply Keeps.upd

theorem keeps_modPort {z : State} {s : State} {n : Nat} {f : PciePort → PciePort} (h_s : Keeps z s) :
    Keeps z (modPort s n f) := by
  unfold modPort
  repeat' with_reducible first
    | assumption | apply Keeps.upd

theorem keeps_modFn {z : State} {s : State} {f : Nat} {g : Function → Function} (h_s : Keeps z s) :
    Keeps z (modFn s f g) := by
  unfold modFn
  repeat' with_reducible first
    | assumption | apply Keeps.upd

theorem keeps_modQueue {z : State} {s : State} {f q : Nat} {g : Queue → Queue} (h_s : Keeps z s) :
    Keeps z (modQueue s f q g) := by
  unfold modQueue
  repeat' with_reducible first
    | assumption | apply keeps_modFn

theorem keeps_modCtxRegion {z : State} {s : State} {c L : Nat} {f : CtxRegion → CtxRegion} (h_s : Keeps z s) :
    Keeps z (modCtxRegion s c L f) := by
  unfold modCtxRegion
  repeat' with_reducible first
    | assumption | apply keeps_modCtx

theorem keeps_setRaw {z : State} {s : State} {off : Nat} {v : DWord} (h_s : Keeps z s) :
    Keeps z (setRaw s off v) := by
  unfold setRaw
  repeat' with_reducible first
    | assumption | apply Keeps.upd

theorem keeps_modCfgAt {z : State} {s : State} {port f : Nat} {g : FnConfig → FnConfig} (h_s : Keeps z s) :
    Keeps z (modCfgAt s port f g) := by
  unfold modCfgAt
  repeat' with_reducible first
    | assumption | apply Keeps.upd

theorem keeps_modCfg {z : State} {s : State} {f : Nat} {g : FnConfig → FnConfig} (h_s : Keeps z s) :
    Keeps z (modCfg s f g) := by
  unfold modCfg
  repeat' with_reducible first
    | assumption | apply keeps_modCfgAt

theorem keeps_aerError {z : State} {s : State} {f bit : Nat} (h_s : Keeps z s) :
    Keeps z (aerError s f bit) := by
  unfold aerError
  repeat' with_reducible first
    | assumption | apply Keeps.ite | apply keeps_modCfg

theorem keeps_hostRequest {z : State} {s : State} {fn : Nat} {write : Bool} {a n : Nat} (h_s : Keeps z s) :
    Keeps z (hostRequest s fn write a n) := by
  unfold hostRequest
  repeat' with_reducible first
    | assumption | apply Keeps.upd

theorem keeps_hostWrite {z : State} {s : State} {f bus : Nat} {bs : List Byte} (h_s : Keeps z s) :
    Keeps z (hostWrite s f bus bs) := by
  unfold hostWrite
  repeat' with_reducible first
    | assumption | exact Memory.store_wf | apply keeps_hostRequest | apply Keeps.upd | apply Keeps.memUpd

theorem keeps_emit {z : State} {s : State} {o : Output} (h_s : Keeps z s) :
    Keeps z (emit s o) := by
  unfold emit
  repeat' with_reducible first
    | assumption | apply Keeps.upd

theorem keeps_signalVector {z : State} {s : State} {f v : Nat} (h_s : Keeps z s) :
    Keeps z (signalVector s f v) := by
  unfold signalVector
  repeat' with_reducible first
    | assumption | apply Keeps.ite | apply keeps_modCfg | apply keeps_emit

theorem keeps_signalServing {z : State} {s : State} (h_s : Keeps z s) :
    Keeps z (signalServing s) := by
  unfold signalServing
  repeat' with_reducible first
    | assumption | apply Keeps.ite | apply keeps_signalVector | split | apply Keeps.upd

theorem keeps_idle {z : State} {s : State} (h_s : Keeps z s) :
    Keeps z (idle s) := by
  unfold idle
  repeat' with_reducible first
    | assumption | apply Keeps.ite | apply keeps_signalServing | apply Keeps.upd

theorem keeps_freshWord {z s : State} (h : Keeps z s) : Keeps z (freshWord s).2 := Keeps.upd h

theorem keeps_freshNat {z s : State} (h : Keeps z s) : Keeps z (freshNat s).2 := Keeps.upd h

theorem keeps_freshBytes {z s : State} {n : Nat} (h : Keeps z s) : Keeps z (freshBytes s n).2 :=
  Keeps.upd h

theorem keeps_postRecord {z : State} {s : State} {r : Record} (h_s : Keeps z s) :
    Keeps z (postRecord s r) := by
  unfold postRecord
  repeat' with_reducible first
    | assumption | apply Keeps.upd

theorem keeps_postEvent {z : State} {s : State} {f code ctx detail word : Nat} (h_s : Keeps z s) :
    Keeps z (postEvent s f code ctx detail word) := by
  unfold postEvent
  repeat' with_reducible first
    | assumption | apply Keeps.ite | apply keeps_postRecord | apply keeps_modFn

theorem keeps_deviceEvent {z : State} {s : State} {code word : Nat} (h_s : Keeps z s) :
    Keeps z (deviceEvent s code word) := by
  unfold deviceEvent
  repeat' with_reducible first
    | assumption | apply keeps_postEvent

theorem keeps_ctxEvent {z : State} {s : State} {c code word : Nat} (h_s : Keeps z s) :
    Keeps z (ctxEvent s c code word) := by
  unfold ctxEvent
  repeat' with_reducible first
    | assumption | apply keeps_postEvent

theorem keeps_ctxEventOnce {z : State} {s : State} {c code word : Nat} (h_s : Keeps z s) :
    Keeps z (ctxEventOnce s c code word) := by
  unfold ctxEventOnce
  repeat' with_reducible first
    | assumption | apply Keeps.ite | apply keeps_ctxEvent | apply keeps_modCtx

theorem keeps_limited {z : State} {s : State} {key : Nat × Nat} {f : State → State} (h_s : Keeps z s) (h_f : ∀ s,
    Keeps z s → Keeps z (f s)) :
    Keeps z (limited s key f) := by
  unfold limited
  repeat' with_reducible first
    | assumption | apply h_f | apply Keeps.ite | split | apply Keeps.upd

theorem keeps_logFault {z : State} {s : State} {code phys unit ctx detail : Nat} (h_s : Keeps z s) :
    Keeps z (logFault s code phys unit ctx detail) := by
  unfold logFault
  repeat' with_reducible first
    | assumption | apply Keeps.upd

theorem keeps_poisonEvent {z : State} {s : State} {c addr : Nat} (h_s : Keeps z s) :
    Keeps z (poisonEvent s c addr) := by
  unfold poisonEvent
  repeat' with_reducible first
    | assumption | apply keeps_limited | apply keeps_ctxEvent | intro _ _ _ _ _ _ _ | intro _ _ _ | intro _ _

theorem keeps_w1cEvent {z : State} {s : State} {off hi : Nat} (h_s : Keeps z s) :
    Keeps z (w1cEvent s off hi) := by
  unfold w1cEvent
  repeat' with_reducible first
    | assumption | apply Keeps.upd

theorem keeps_promiseMiss {z : State} {s : State} {phys : Nat} {c row : Nat} (h_s : Keeps z s) :
    Keeps z (promiseMiss s phys c row) := by
  unfold promiseMiss
  repeat' with_reducible first
    | assumption | apply keeps_modPhys | apply keeps_w1cEvent | apply keeps_limited | apply keeps_logFault
    | apply keeps_ctxEvent | intro _ _ _ _ _ _ _ | intro _ _ _ | intro _ _

theorem keeps_addStall {z : State} {s : State} {phys cause ns : Nat} (h_s : Keeps z s) :
    Keeps z (addStall s phys cause ns) := by
  unfold addStall
  repeat' with_reducible first
    | assumption | apply keeps_modPhys

theorem keeps_countAct {z : State} {s : State} {u : ActUnit} {c : Option Nat} {k : ActClass} {n : Nat} (h_s : Keeps z
    s) :
    Keeps z (countAct s u c k n) := by
  unfold countAct
  repeat' with_reducible first
    | assumption | apply Keeps.ite | apply Keeps.upd



theorem keeps_addIndexFaults {z : State} {s : State} {c n : Nat} (h_s : Keeps z s) :
    Keeps z (addIndexFaults s c n) := by
  unfold addIndexFaults
  repeat' with_reducible first
    | assumption | apply keeps_modCtx

theorem keeps_setThread {z : State} {s : State} {t : ThreadId} {x : Thread} (h_s : Keeps z s) :
    Keeps z (setThread s t x) := by
  unfold setThread
  repeat' with_reducible first
    | assumption | apply Keeps.upd

theorem keeps_modThread {z : State} {s : State} {t : ThreadId} {f : Thread → Thread} (h_s : Keeps z s) :
    Keeps z (modThread s t f) := by
  unfold modThread
  repeat' with_reducible first
    | assumption | apply keeps_setThread | split

end Sys2Proof.Machine
end

