-- ==== Sys2Proof/Laws/KeepsCredits.lean ====
section
/-! SUPPORT. One lemma for each operation of Machine/Credits.lean: what it keeps (Laws/Keeps.lean). -/

namespace Sys2Proof.Machine

open Sys2Proof

theorem keeps_setDest {z : State} {s : State} {res : Resource} {d : Destination} (h_s : Keeps z s) :
    Keeps z (setDest s res d) := by
  unfold setDest
  repeat' with_reducible first
    | assumption | apply Keeps.upd

theorem keeps_setLedger {z : State} {s : State} {led : AdmPoint} {res : Resource} {l : Ledger} (h_s : Keeps z s) :
    Keeps z (setLedger s led res l) := by
  unfold setLedger
  repeat' with_reducible first
    | assumption | apply Keeps.upd

theorem keeps_reserve {z : State} {s : State} {x : AdmPoint × Resource × Nat} (h_s : Keeps z s) :
    Keeps z (reserve s x) := by
  unfold reserve
  repeat' with_reducible first
    | assumption | apply Keeps.ite | apply keeps_setDest | apply keeps_setLedger

theorem keeps_serveLending {z : State} {res : Resource} {n : Nat} : ∀ {s : State}, Keeps z s →
    Keeps z (serveLending s res n) := by
  induction n with
  | zero => intro s h; exact h
  | succ n ih =>
    intro s h
    unfold serveLending
    dsimp only
    repeat' with_reducible first
      | assumption | apply Keeps.ite | apply ih | apply keeps_setDest | apply keeps_setLedger | split

theorem keeps_askLending {z : State} {s : State} {led : AdmPoint} {res : Resource} {n : Nat} (h_s : Keeps z s) :
    Keeps z (askLending s led res n) := by
  unfold askLending
  repeat' with_reducible first
    | assumption | apply Keeps.ite | apply keeps_setDest | apply keeps_serveLending

theorem keeps_giveBack {z : State} {s : State} {res : Resource} {n : Nat} (h_s : Keeps z s) :
    Keeps z (giveBack s res n) := by
  unfold giveBack
  repeat' with_reducible first
    | assumption | apply keeps_setDest | apply keeps_serveLending

theorem keeps_returnCredits {z : State} {s : State} {l : List (Resource × Nat)} (h_s : Keeps z s) :
    Keeps z (returnCredits s l) := by
  unfold returnCredits
  repeat' with_reducible first
    | assumption | apply Keeps.ite | apply keeps_giveBack | apply Keeps.foldl | intro _ _ _ _ _ _ _ | intro _ _ _

theorem keeps_sweepWakes {z : State} {s : State} (h_s : Keeps z s) :
    Keeps z (sweepWakes s) := by
  unfold sweepWakes
  repeat' with_reducible first
    | assumption | apply Keeps.ite | apply keeps_returnCredits | intro _ _ _ _ _ _ _ | intro _ _ _ | intro _ _
    | intro _ | apply Keeps.upd

end Sys2Proof.Machine
end

