-- ==== Sys2Proof/Laws/KeepsTasks.lean ====
section
/-! SUPPORT. One lemma for each operation of Machine/Tasks.lean: what it keeps (Laws/Keeps.lean). -/

namespace Sys2Proof.Machine

open Sys2Proof

theorem keeps_giveTask {z : State} {s : State} {L : Nat} {k : Taker} {x : ReadyTask} (h_s : Keeps z s) :
    Keeps z (giveTask s L k x) := by
  unfold giveTask
  repeat' with_reducible first
    | assumption | apply Keeps.ite | apply keeps_modRegion | apply keeps_modThread | apply keeps_sweepWakes

theorem keeps_dropTakers {z : State} {s : State} {p : ThreadId → Bool} (h_s : Keeps z s) :
    Keeps z (dropTakers s p) := by
  unfold dropTakers
  repeat' with_reducible first
    | assumption | intro _ _ _ _ _ _ _ | intro _ _ _ | intro _ _ | intro _ | apply Keeps.upd

theorem keeps_serveTakers {z : State} {L ctx l n : Nat} : ∀ {s : State}, Keeps z s → Keeps z (serveTakers s L ctx l n)
    := by
  induction n with
  | zero => intro s h; exact h
  | succ n ih =>
    intro s h
    unfold serveTakers
    repeat' with_reducible first
      | assumption | apply Keeps.ite | apply ih | apply keeps_giveTask | apply keeps_modRegion | split

theorem keeps_serveAll {z : State} {s : State} {L ctx : Nat} (h_s : Keeps z s) :
    Keeps z (serveAll s L ctx) := by
  unfold serveAll
  repeat' with_reducible first
    | assumption | apply keeps_serveTakers | apply Keeps.foldl | intro _ _ _ _ _ _ _ | intro _ _ _

theorem keeps_recallTasks {z : State} {s : State} {L ctx l : Nat} (h_s : Keeps z s) :
    Keeps z (recallTasks s L ctx l) := by
  unfold recallTasks
  repeat' with_reducible first
    | assumption | apply Keeps.ite | apply keeps_modThread | apply keeps_modRegion | apply Keeps.foldl
    | intro _ _ _ _ _ _ _ | intro _ _ _

theorem keeps_serveList {z : State} {s : State} {L ctx l : Nat} (h_s : Keeps z s) :
    Keeps z (serveList s L ctx l) := by
  unfold serveList
  repeat' with_reducible first
    | assumption | apply keeps_serveTakers

theorem keeps_placeTask {z : State} {s : State} {L ctx : Nat} {x : ReadyTask} (h_s : Keeps z s) :
    Keeps z (placeTask s L ctx x) := by
  unfold placeTask
  repeat' with_reducible first
    | assumption | apply keeps_serveList | apply keeps_modRegion | apply keeps_recallTasks

theorem keeps_releaseFlows {z : State} {s : State} {L ctx : Nat} {p : FlowHeld → Bool} (h_s : Keeps z s) :
    Keeps z (releaseFlows s L ctx p) := by
  unfold releaseFlows
  repeat' with_reducible first
    | assumption | apply Keeps.ite | apply keeps_serveAll | apply keeps_modRegion

theorem keeps_endThread {z : State} {s : State} {t : ThreadId} (h_s : Keeps z s) :
    Keeps z (endThread s t) := by
  unfold endThread
  repeat' with_reducible first
    | assumption | apply keeps_releaseFlows | apply keeps_sweepWakes | apply keeps_modThread

theorem keeps_settle {z : State} {s : State} {t : ThreadId} (h_s : Keeps z s) :
    Keeps z (settle s t) := by
  unfold settle
  repeat' with_reducible first
    | assumption | apply Keeps.ite | apply keeps_endThread | split

theorem keeps_wake {z : State} {s : State} {t : ThreadId} (h_s : Keeps z s) :
    Keeps z (wake s t) := by
  unfold wake
  repeat' with_reducible first
    | assumption | apply keeps_settle | apply keeps_modThread

theorem keeps_markWritten {z : State} {s : State} {a n : Nat} (h_s : Keeps z s) :
    Keeps z (markWritten s a n) := by
  unfold markWritten
  repeat' with_reducible first
    | assumption | intro _ _ _ _ _ _ _ | intro _ _ _ | intro _ _ | intro _ | apply Keeps.upd

theorem keeps_tokenFault {z : State} {s : State} {ctx L : Nat} (h_s : Keeps z s) :
    Keeps z (tokenFault s ctx L) := by
  unfold tokenFault
  repeat' with_reducible first
    | assumption | apply keeps_modCtxRegion

theorem keeps_setEntry {z : State} {s : State} {L cell e : Nat} {x : MatchEntry} (h_s : Keeps z s) :
    Keeps z (setEntry s L cell e x) := by
  unfold setEntry
  repeat' with_reducible first
    | assumption | apply keeps_modRegion

theorem keeps_fire {z : State} {s : State} {ctx L cell e : Nat} (h_s : Keeps z s) :
    Keeps z (fire s ctx L cell e) := by
  unfold fire
  repeat' with_reducible first
    | assumption | apply Keeps.ite | apply keeps_placeTask | apply keeps_setEntry | apply keeps_modRegion

theorem keeps_matchTest {z : State} {s : State} {ctx L cell e : Nat} (h_s : Keeps z s) :
    Keeps z (matchTest s ctx L cell e) := by
  unfold matchTest
  repeat' with_reducible first
    | assumption | apply Keeps.ite | apply keeps_fire

theorem keeps_tierLate {z : State} {s : State} {L deadline : Nat} {w : DWord} {x : MatchEntry} (h_s : Keeps z s) :
    Keeps z (tierLate s L deadline w x) := by
  unfold tierLate
  repeat' with_reducible first
    | assumption | apply Keeps.ite | apply keeps_addStall | apply Keeps.foldl | intro _ _ _ _ _ _ _ | intro _ _ _
    | intro _ _ | intro _ | dsimp only | split

theorem keeps_performToken {z : State} {s : State} {ctx : Nat} {w task : DWord} {deadline : Option Nat} (h_s : Keeps z
    s) :
    Keeps z (performToken s ctx w task deadline) := by
  unfold performToken
  repeat' with_reducible first
    | assumption | apply Keeps.ite | apply keeps_tokenFault | apply keeps_setEntry | apply keeps_tierLate
    | apply keeps_matchTest | dsimp only | split

theorem keeps_placeFiring {z : State} {s : State} {L : Nat} (h_s : Keeps z s) :
    Keeps z (placeFiring s L) := by
  unfold placeFiring
  repeat' with_reducible first
    | assumption | apply Keeps.ite | apply keeps_modRegion | apply keeps_setEntry | apply keeps_matchTest
    | apply keeps_placeTask | intro _ _ _ _ _ _ _ | intro _ _ _ | intro _ _ | intro _ | dsimp only | split

theorem keeps_moveDue {z : State} {L boundary n : Nat} : ∀ {s : State}, Keeps z s → Keeps z (moveDue s L boundary n)
    := by
  induction n with
  | zero => intro s h; exact h
  | succ n ih =>
    intro s h
    unfold moveDue
    dsimp only
    repeat' with_reducible first
      | assumption | apply Keeps.ite | apply ih | apply keeps_placeTask | apply keeps_modRegion | split

theorem keeps_dropTasks {z : State} {s : State} {L ctx : Nat} (h_s : Keeps z s) :
    Keeps z (dropTasks s L ctx) := by
  unfold dropTasks
  repeat' with_reducible first
    | assumption | apply keeps_modRegion

end Sys2Proof.Machine
end

