-- ==== Sys2Proof/Laws/KeepsOperands.lean ====
section
/-! SUPPORT. One lemma for each operation of Machine/Operands.lean: what it keeps (Laws/Keeps.lean). -/

namespace Sys2Proof.Machine

open Sys2Proof

theorem keeps_countTag {z : State} {s : State} {c i : Nat} {tag : BitVec 12} (h_s : Keeps z s) :
    Keeps z (countTag s c i tag) := by
  unfold countTag
  repeat' with_reducible first
    | assumption | apply Keeps.ite | apply keeps_w1cEvent | apply keeps_setRaw

theorem keeps_countTags {z : State} {s : State} {c : Nat} {tag : BitVec 12} (h_s : Keeps z s) :
    Keeps z (countTags s c tag) := by
  unfold countTags
  repeat' with_reducible first
    | assumption | apply keeps_countTag

theorem keeps_beginBreak {z : State} {s : State} {c : Nat} {b : BreakInfo} {at_ : Option ThreadId} (h_s : Keeps z s) :
    Keeps z (beginBreak s c b at_) := by
  unfold beginBreak
  repeat' with_reducible first
    | assumption | apply keeps_modCtx

theorem keeps_tagBreak {z : State} {s : State} {t : ThreadId} {i : Nat} {tag : BitVec 12} (h_s : Keeps z s) :
    Keeps z (tagBreak s t i tag) := by
  unfold tagBreak
  repeat' with_reducible first
    | assumption | apply keeps_beginBreak

theorem keeps_countArrival {z : State} {s : State} {t : ThreadId} {tag : BitVec 12} (h_s : Keeps z s) :
    Keeps z (countArrival s t tag) := by
  unfold countArrival
  repeat' with_reducible first
    | assumption | apply Keeps.ite | apply keeps_countTags | apply keeps_modCtx

theorem keeps_arrive {z : State} {s : State} {t : ThreadId} {tag : BitVec 12} (h_s : Keeps z s) :
    Keeps z (arrive s t tag).2 := by
  unfold arrive
  repeat' with_reducible first
    | assumption | apply Keeps.ite | apply keeps_modCtx | apply keeps_tagBreak | apply keeps_countArrival
    | intro _ _ _ _ _ _ _ | intro _ _ _ | intro _ _ | intro _ | split

theorem keeps_setGroup {z : State} {s : State} {t : ThreadId} {g : Group} (h_s : Keeps z s) :
    Keeps z (setGroup s t g) := by
  unfold setGroup
  repeat' with_reducible first
    | assumption | apply Keeps.upd

theorem keeps_holdAt {z : State} {s : State} {t : ThreadId} {run : RunState} (h_s : Keeps z s) :
    Keeps z (holdAt s t run) := by
  unfold holdAt
  repeat' with_reducible first
    | assumption | apply keeps_modThread

theorem keeps_notIssued {z : State} {i : Instr} {s : State} {t : ThreadId} {tag : BitVec 12} (h_s : Keeps z s) :
    Keeps z (notIssued i s t tag) := by
  unfold notIssued
  repeat' with_reducible first
    | assumption | apply Keeps.ite | apply keeps_holdAt | split

theorem keeps_standsAt {z : State} {s : State} {t : ThreadId} (h_s : Keeps z s) :
    Keeps z (standsAt s t) := by
  unfold standsAt
  repeat' with_reducible first
    | assumption | apply keeps_modThread

theorem keeps_issueWord {z : State} {i : Instr} {t : ThreadId} {k : Common} {eff off : State → State} {s : State}
    (h_eff : ∀ s, Keeps z s → Keeps z (eff s)) (h_off : ∀ s, Keeps z s → Keeps z (off s)) (h_s : Keeps z s) :
    KeepsNext z (issueWord i t k eff off s) := by
  unfold issueWord
  repeat' with_reducible first
    | assumption | apply h_off | apply h_eff | exact KeepsNext.refused | apply KeepsNext.next | apply KeepsNext.ite
    | apply Keeps.ite | apply keeps_notIssued | apply keeps_arrive | apply keeps_settle | apply keeps_standsAt

theorem keeps_stepPc {z : State} {t : ThreadId} {s : State} (h_s : Keeps z s) :
    Keeps z (stepPc t s) := by
  unfold stepPc
  repeat' with_reducible first
    | assumption | apply keeps_modThread

theorem keeps_regWord {z : State} {i : Instr} {t : ThreadId} {k : Common} {f : Thread → Thread} {s : State} (h_s :
    Keeps z s) :
    KeepsNext z (regWord i t k f s) := by
  unfold regWord
  repeat' with_reducible first
    | assumption | apply keeps_issueWord | apply keeps_modThread | apply keeps_stepPc | intro _ _ _ _ _ _ _
    | intro _ _ _ | intro _ _

theorem keeps_stateWord {z : State} {i : Instr} {t : ThreadId} {k : Common} {f : State → State} {s : State} (h_f : ∀
    s, Keeps z s → Keeps z (f s)) (h_s : Keeps z s) :
    KeepsNext z (stateWord i t k f s) := by
  unfold stateWord
  repeat' with_reducible first
    | assumption | apply h_f | apply keeps_issueWord | apply keeps_stepPc | intro _ _ _ _ _ _ _ | intro _ _ _
    | intro _ _

theorem keeps_setVector {z : State} {s : State} {t : ThreadId} {v : VectorCtx} (h_s : Keeps z s) :
    Keeps z (setVector s t v) := by
  unfold setVector
  repeat' with_reducible first
    | assumption | apply Keeps.upd

theorem keeps_vectorWord {z : State} {i : Instr} {t : ThreadId} {k : Common} {f : State → State} {s : State} (h_f : ∀
    s, Keeps z s → Keeps z (f s)) (h_s : Keeps z s) :
    KeepsNext z (vectorWord i t k f s) := by
  unfold vectorWord
  repeat' with_reducible first
    | assumption | apply h_f | exact KeepsNext.refused | apply KeepsNext.ite | apply Keeps.ite | apply keeps_stateWord

theorem keeps_countLanes {z : State} {s : State} {t : ThreadId} (h_s : Keeps z s) :
    Keeps z (countLanes s t) := by
  unfold countLanes
  repeat' with_reducible first
    | assumption | apply keeps_countAct | split

theorem keeps_laneWord {z : State} {i : Instr} {t : ThreadId} {k : Common} {f : State → State} {s : State} (h_f : ∀ s,
    Keeps z s → Keeps z (f s)) (h_s : Keeps z s) :
    KeepsNext z (laneWord i t k f s) := by
  unfold laneWord
  repeat' with_reducible first
    | assumption | apply h_f | apply keeps_vectorWord | apply keeps_countLanes | intro _ _ _ _ _ _ _ | intro _ _ _
    | intro _ _

end Sys2Proof.Machine
end

