-- ==== Sys2Proof/Laws/KeepsPages.lean ====
section
/-! SUPPORT. One lemma for each operation of Machine/Pages.lean: what it keeps (Laws/Keeps.lean). -/

namespace Sys2Proof.Machine

open Sys2Proof

theorem keeps_quotaEvent {z : State} {s t : State} {f : Nat} (h_s : Keeps z s) (h_t : Keeps z t) :
    Keeps z (quotaEvent s t f) := by
  unfold quotaEvent
  repeat' with_reducible first
    | assumption | apply Keeps.ite | apply keeps_postEvent

theorem keeps_floorEvent {z : State} {s t : State} {st ch : Nat} (h_s : Keeps z s) (h_t : Keeps z t) :
    Keeps z (floorEvent s t st ch) := by
  unfold floorEvent
  repeat' with_reducible first
    | assumption | apply Keeps.ite | apply keeps_deviceEvent

theorem keeps_updatePage {z : State} {s : State} {page : Nat} (h_s : Keeps z s) :
    Keeps z (updatePage s page) := by
  unfold updatePage
  repeat' with_reducible first
    | assumption | apply Keeps.ite | apply keeps_quotaEvent | apply keeps_floorEvent | dsimp only | split
    | apply Keeps.upd

theorem keeps_emitFlit {z : State} {s : State} {port kind seq : Nat} {payload : List Byte} (h_s : Keeps z s) :
    Keeps z (emitFlit s port kind seq payload) := by
  unfold emitFlit
  repeat' with_reducible first
    | assumption | apply keeps_emit | apply keeps_modLink

theorem keeps_sendFlits {z : State} {port n : Nat} : ∀ {s : State}, Keeps z s → Keeps z (sendFlits port n s) := by
  induction n with
  | zero => intro s h; exact h
  | succ n ih =>
    intro s h
    unfold sendFlits
    dsimp only
    repeat' with_reducible first
      | assumption | apply Keeps.ite | apply ih | apply keeps_emitFlit | apply keeps_modLink | apply keeps_askLending
      | apply keeps_reserve | split

theorem keeps_queueOp {z : State} {held : Bool} {s : State} {port : Nat} {h : OpHeader} {payload : List Byte} (h_s :
    Keeps z s) :
    Keeps z (queueOp held s port h payload) := by
  unfold queueOp
  repeat' with_reducible first
    | assumption | apply Keeps.ite | apply keeps_emit | apply keeps_modLink | apply keeps_sendFlits

theorem keeps_sendOp {z : State} {s : State} {port : Nat} {h : OpHeader} {payload : List Byte} (h_s : Keeps z s) :
    Keeps z (sendOp s port h payload) := by
  unfold sendOp
  repeat' with_reducible first
    | assumption | apply keeps_queueOp

theorem keeps_sendUnitOp {z : State} {s : State} {port : Nat} {h : OpHeader} {payload : List Byte} (h_s : Keeps z s) :
    Keeps z (sendUnitOp s port h payload) := by
  unfold sendUnitOp
  repeat' with_reducible first
    | assumption | apply keeps_queueOp

theorem keeps_peerLossEvent {z : State} {s : State} {c dev : Nat} (h_s : Keeps z s) :
    Keeps z (peerLossEvent s c dev) := by
  unfold peerLossEvent
  repeat' with_reducible first
    | assumption | apply keeps_ctxEvent | dsimp only | split | apply Keeps.upd

theorem keeps_poisonedRead {z : State} {s : State} {c a p : Nat} (h_s : Keeps z s) :
    Keeps z (poisonedRead s c a p) := by
  unfold poisonedRead
  repeat' with_reducible first
    | assumption | apply Keeps.ite | apply keeps_poisonEvent | apply keeps_peerLossEvent

theorem keeps_sendPieces {z : State} {fn n : Nat} : ∀ {s : State} {a : Nat} {bs : List Byte}, Keeps z s →
    Keeps z (sendPieces s fn a bs n) := by
  induction n with
  | zero => intro s a bs h; exact h
  | succ n ih =>
    intro s a bs h
    unfold sendPieces
    repeat' with_reducible first
      | assumption | apply Keeps.ite | apply ih | apply keeps_sendUnitOp | split

theorem keeps_askPeer {z : State} {s : State} {fn a n : Nat} (h_s : Keeps z s) :
    Keeps z (askPeer s fn a n) := by
  unfold askPeer
  repeat' with_reducible first
    | assumption | apply Keeps.ite | apply keeps_sendUnitOp | apply Keeps.foldl | intro _ _ _ _ _ _ _ | intro _ _ _
    | intro _ _ | intro _ | split

theorem keeps_coreWrite {z : State} {s : State} {fn a : Nat} {bs : List Byte} (h_s : Keeps z s) :
    Keeps z (coreWrite s fn a bs) := by
  unfold coreWrite
  repeat' with_reducible first
    | assumption | exact Memory.store_wf | apply Keeps.ite | apply keeps_sendPieces | apply keeps_updatePage
    | apply keeps_hostRequest | apply keeps_markWritten | apply Keeps.foldl | apply Keeps.upd | apply Keeps.memUpd

theorem keeps_devWrite {z : State} {s : State} {fn a : Nat} {bs : List Byte} (h_s : Keeps z s) :
    Keeps z (devWrite s fn a bs) := by
  unfold devWrite
  repeat' with_reducible first
    | assumption | apply Keeps.ite | apply keeps_coreWrite

theorem keeps_poisonOut {z : State} {s : State} {a n : Nat} (h_s : Keeps z s) :
    Keeps z (poisonOut s a n) := by
  unfold poisonOut
  repeat' with_reducible first
    | assumption | exact foldl_keeps (P := fun m : Memory => m.wf = true) (fun _ _ => Memory.poisonAt_wf) _ ‹_›
    | exact Memory.poisonAt_wf | apply Keeps.ite | apply Keeps.foldl | intro _ _ _ _ _ _ _ | intro _ _ _ | intro _ _
    | intro _ | apply Keeps.upd | apply Keeps.memUpd

theorem keeps_hostMove {z : State} {s : State} {fn src dst n : Nat} (h_s : Keeps z s) :
    Keeps z (hostMove s fn src dst n) := by
  unfold hostMove
  repeat' with_reducible first
    | assumption | exact Memory.store_wf | apply Keeps.ite | apply keeps_hostRequest | apply Keeps.foldl
    | intro _ _ _ _ _ _ _ | intro _ _ _ | intro _ _ | intro _ | apply Keeps.upd | apply Keeps.memUpd

theorem keeps_devMove {z : State} {s : State} {fn src dst n : Nat} (h_s : Keeps z s) :
    Keeps z (devMove s fn src dst n) := by
  unfold devMove
  repeat' with_reducible first
    | assumption | exact Memory.move_wf | apply Keeps.ite | apply keeps_hostRequest | apply keeps_askPeer
    | apply keeps_hostMove | apply keeps_devWrite | apply keeps_poisonOut | apply keeps_updatePage
    | apply keeps_markWritten | apply Keeps.foldl | apply Keeps.upd | apply Keeps.memUpd

end Sys2Proof.Machine
end

