-- ==== Sys2Proof/Laws/KeepsWindows.lean ====
section
/-! SUPPORT. One lemma for each operation of Machine/Windows.lean: what it keeps (Laws/Keeps.lean). -/

namespace Sys2Proof.Machine

open Sys2Proof

theorem keeps_windowFault {z : State} {s : State} {c ca : Nat} (h_s : Keeps z s) :
    Keeps z (windowFault s c ca) := by
  unfold windowFault
  repeat' with_reducible first
    | assumption | apply keeps_ctxEventOnce | apply keeps_modCtx

theorem keeps_winReadMark {z : State} {s : State} {c : Nat} {grp : Option Nat} {ca n : Nat} (h_s : Keeps z s) :
    Keeps z (winReadMark s c grp ca n) := by
  unfold winReadMark
  repeat' with_reducible first
    | assumption | apply Keeps.ite | apply keeps_hostRequest | apply keeps_poisonedRead | apply keeps_windowFault
    | dsimp only | split

theorem keeps_winWrite {z : State} {s : State} {c : Nat} {grp : Option Nat} {ca : Nat} {bs : List Byte} (h_s : Keeps z
    s) :
    Keeps z (winWrite s c grp ca bs) := by
  unfold winWrite
  repeat' with_reducible first
    | assumption | apply keeps_devWrite | apply keeps_windowFault | split

theorem keeps_withWindows {z : State} {s : State} {c : Nat} {ws : Map Nat DWord} (h_s : Keeps z s) :
    Keeps z (withWindows s c ws) := by
  unfold withWindows
  repeat' with_reducible first
    | assumption | apply Keeps.foldl | intro _ _ _ _ _ _ _ | intro _ _ _ | intro _ _ | intro _ | apply Keeps.upd

theorem keeps_underWindows {z : State} {s : State} {c : Nat} {ws : Map Nat DWord} {f : State → State} (h_s : Keeps z
    s) (h_f : ∀ s, Keeps z s → Keeps z (f s)) :
    Keeps z (underWindows s c ws f) := by
  unfold underWindows
  repeat' with_reducible first
    | assumption | apply h_f | apply keeps_withWindows | apply Keeps.upd

theorem keeps_countCrossing {z : State} {s : State} {own : Nat} {c : Option Nat} {die port n : Nat} (h_s : Keeps z s) :
    Keeps z (countCrossing s own c die port n) := by
  unfold countCrossing
  repeat' with_reducible first
    | assumption | apply Keeps.ite | apply keeps_countAct

theorem keeps_countAccess {z : State} {s : State} {own : Nat} {c : Option Nat} {a n : Nat} (h_s : Keeps z s) :
    Keeps z (countAccess s own c a n) := by
  unfold countAccess
  repeat' with_reducible first
    | assumption | apply Keeps.ite | apply keeps_countAct | apply keeps_countCrossing | apply Keeps.foldl
    | intro _ _ _ _ _ _ _ | intro _ _ _ | intro _ _ | intro _ | dsimp only | split

theorem keeps_devAtomic {z : State} {s : State} {fn a minor operand swap : Nat} (h_s : Keeps z s) :
    Keeps z (devAtomic s fn a minor operand swap).2 := by
  unfold devAtomic
  repeat' with_reducible first
    | assumption | apply keeps_devWrite | dsimp only | split

end Sys2Proof.Machine
end

