-- ==== Sys2Proof/Laws/KeepsUndefined.lean ====
section
/-! SUPPORT. One lemma for each operation of Machine/Undefined.lean: what it keeps (Laws/Keeps.lean). -/

namespace Sys2Proof.Machine

open Sys2Proof

theorem keeps_undefinedStore {z : State} {c : Nat} {s : State} {x : Nat × Byte} (h_s : Keeps z s) :
    Keeps z (undefinedStore c s x) := by
  unfold undefinedStore
  repeat' with_reducible first
    | assumption | apply keeps_devWrite | split

theorem keeps_undefinedEffect {z : State} {s : State} {c : Nat} (h_s : Keeps z s) :
    Keeps z (undefinedEffect s c) := by
  unfold undefinedEffect
  repeat' with_reducible first
    | assumption | apply Keeps.ite | apply keeps_undefinedStore | apply keeps_beginBreak | apply Keeps.foldl
    | intro _ _ _ _ _ _ _ | intro _ _ _ | intro _ _ | intro _ | apply Keeps.upd

end Sys2Proof.Machine
end

