-- ==== Sys2Proof/Laws/KeepsDescriptors.lean ====
section
/-! SUPPORT. One lemma for each operation of Machine/Descriptors.lean: what it keeps (Laws/Keeps.lean). -/

namespace Sys2Proof.Machine

open Sys2Proof

theorem keeps_markSpans {z : State} {s : State} {c g : Nat} {l : List (Nat × Nat)} (h_s : Keeps z s) :
    Keeps z (markSpans s c g l) := by
  unfold markSpans
  repeat' with_reducible first
    | assumption | apply keeps_winReadMark | apply Keeps.foldl | intro _ _ _ _ _ _ _ | intro _ _ _

theorem keeps_writeRanges {z : State} {c g : Nat} {l : List (Nat × Nat)} : ∀ {s : State} {bs : List Byte}, Keeps z s →
    Keeps z (writeRanges s c g l bs) := by
  induction l with
  | nil => intro s bs h; exact h
  | cons x r ih => intro s bs h; exact ih (keeps_winWrite h)

theorem keeps_writeSpans {z : State} {s : State} {c g : Nat} {l : List (Nat × Nat)} {bs : List Byte} (h_s : Keeps z s) :
    Keeps z (writeSpans s c g l bs) := by
  unfold writeSpans
  repeat' with_reducible first
    | assumption | apply keeps_writeRanges

theorem keeps_markRows {z : State} {s : State} {c g : Nat} {o : Operand} {n : Nat} (h_s : Keeps z s) :
    Keeps z (markRows s c g o n) := by
  unfold markRows
  repeat' with_reducible first
    | assumption | apply keeps_addIndexFaults | apply keeps_markSpans

theorem keeps_markOperand {z : State} {s : State} {c g : Nat} {o : Operand} {P : Nat} (h_s : Keeps z s) :
    Keeps z (markOperand s c g o P) := by
  unfold markOperand
  repeat' with_reducible first
    | assumption | apply keeps_addIndexFaults | apply keeps_markSpans | apply keeps_markRows

end Sys2Proof.Machine
end

