-- ==== Sys2Proof/Laws/KeepsPins.lean ====
section
/-! SUPPORT. One lemma for each operation of Machine/Pins.lean: what it keeps (Laws/Keeps.lean). -/

namespace Sys2Proof.Machine

open Sys2Proof

theorem keeps_modTable {z : State} {s : State} {t : Nat} {f : TableState → TableState} (h_s : Keeps z s) :
    Keeps z (modTable s t f) := by
  unfold modTable
  repeat' with_reducible first
    | assumption | apply Keeps.upd

theorem keeps_releaseVersions {z : State} {s : State} {t : Nat} (h_s : Keeps z s) :
    Keeps z (releaseVersions s t) := by
  unfold releaseVersions
  repeat' with_reducible first
    | assumption | apply keeps_modTable | apply keeps_postEvent | apply Keeps.foldl | intro _ _ _ _ _ _ _
    | intro _ _ _ | intro _ _ | intro _ | apply Keeps.upd

end Sys2Proof.Machine
end

