-- ==== Sys2Proof/Laws/KeepsRequests.lean ====
section
/-! SUPPORT. One lemma for each operation of Machine/Requests.lean: what it keeps (Laws/Keeps.lean). -/

namespace Sys2Proof.Machine

open Sys2Proof

theorem keeps_addRequest {z : State} {s : State} {r : Request} (h_s : Keeps z s) :
    Keeps z (addRequest s r) := by
  unfold addRequest
  repeat' with_reducible first
    | assumption | exact id | exact freshIds_filter | exact freshIds_add rfl | apply Keeps.upd | apply Keeps.listUpd

theorem keeps_setRequest {z s : State} {r : Request} (h : Keeps z s) : Keeps z (setRequest s r) := by
  refine Keeps.listUpd (freshIds_map ?_) id id id h
  intro x
  split
  · next e => exact e.symm
  · rfl

theorem keeps_setOp {z s : State} {q : TensorOp} (h : Keeps z s) : Keeps z (setOp s q) := by
  refine Keeps.listUpd id (freshIds_map ?_) id id h
  intro x
  split
  · next e => exact e.symm
  · rfl

theorem keeps_countWait {z : State} {s : State} {r : Request} (h_s : Keeps z s) :
    Keeps z (countWait s r) := by
  unfold countWait
  repeat' with_reducible first
    | assumption | apply keeps_addStall

theorem bindRecord_id {q : TensorOp} {k : Bool × Nat} {bs : List Byte} : (bindRecord q k bs).id = q.id := by
  unfold bindRecord
  split <;> rfl

theorem keeps_deliver {z s : State} {r : Request} {bs : List Byte} (h_s : Keeps z s) : Keeps z (deliver s r bs) := by
  unfold deliver
  dsimp only
  repeat' with_reducible first
    | assumption | apply keeps_modThread | apply keeps_setVector | apply keeps_setGroup | split
  all_goals
    refine Keeps.listUpd id (freshIds_map fun q => ?_) id id ?_
    · split
      · exact bindRecord_id
      · rfl
    · exact keeps_setGroup h_s

theorem keeps_fenceCheck {z : State} {s : State} {t : ThreadId} (h_s : Keeps z s) :
    Keeps z (fenceCheck s t) := by
  unfold fenceCheck
  repeat' with_reducible first
    | assumption | apply Keeps.ite | apply keeps_wake | split

theorem keeps_releaseAfter {z s : State} {id : Nat} (h : Keeps z s) : Keeps z (releaseAfter s id) := by
  refine Keeps.listUpd (freshIds_map ?_) (fun a => a) (fun a => a) (fun a => a) h
  intro x
  split
  · dsimp only
    split <;> rfl
  · rfl

theorem keeps_issueFeed {z : State} {s : State} {q : TensorOp} {f : FeedReq} (h_s : Keeps z s) :
    Keeps z (issueFeed s q f) := by
  unfold issueFeed
  repeat' with_reducible first
    | assumption | apply keeps_setOp | apply keeps_addRequest

theorem keeps_issueFeeds {z : State} {op n : Nat} : ∀ {s : State}, Keeps z s → Keeps z (issueFeeds s op n) := by
  induction n with
  | zero => intro s h; exact h
  | succ n ih =>
    intro s h
    unfold issueFeeds
    split
    · split
      · exact ih (keeps_issueFeed h)
      · exact h
    · exact h

theorem keeps_feedDone {z : State} {s : State} {op : Nat} {r : Request} (h_s : Keeps z s) :
    Keeps z (feedDone s op r) := by
  unfold feedDone
  repeat' with_reducible first
    | assumption | apply keeps_setOp | apply keeps_issueFeeds | apply Keeps.foldl | intro _ _ _ _ _ _ _ | intro _ _ _
    | intro _ _ | intro _ | dsimp only | split

theorem keeps_wakeRecord {z : State} {s : State} {req : Nat} (h_s : Keeps z s) :
    Keeps z (wakeRecord s req) := by
  unfold wakeRecord
  repeat' with_reducible first
    | assumption | apply Keeps.ite | apply keeps_wake | apply Keeps.foldl | intro _ _ _ _ _ _ _ | intro _ _ _

theorem keeps_finishRequest {z : State} {s : State} {r : Request} (h_s : Keeps z s) :
    Keeps z (finishRequest s r) := by
  unfold finishRequest
  repeat' with_reducible first
    | assumption | exact id | exact freshIds_filter | exact freshIds_add rfl | apply Keeps.ite
    | apply keeps_returnCredits | apply keeps_releaseAfter | apply keeps_feedDone | apply keeps_wake
    | apply keeps_fenceCheck | apply keeps_wakeRecord | apply keeps_modRegion | intro _ _ _ _ _ _ _ | intro _ _ _
    | intro _ _ | intro _ | dsimp only | split | apply Keeps.upd | apply Keeps.listUpd

theorem keeps_checkPromise {z : State} {s : State} {r : Request} (h_s : Keeps z s) :
    Keeps z (checkPromise s r) := by
  unfold checkPromise
  repeat' with_reducible first
    | assumption | apply Keeps.ite | apply keeps_promiseMiss

theorem keeps_watchFault {z : State} {s : State} {t : ThreadId} {slot : Fin 16} (h_s : Keeps z s) :
    Keeps z (watchFault s t slot) := by
  unfold watchFault
  repeat' with_reducible first
    | assumption | apply keeps_modCtxRegion | apply keeps_sweepWakes | apply keeps_modThread

theorem keeps_faulted {z : State} {s : State} {r : Request} (h_s : Keeps z s) :
    Keeps z (faulted s r) := by
  unfold faulted
  repeat' with_reducible first
    | assumption | apply keeps_windowFault | apply keeps_finishRequest | apply keeps_watchFault | apply keeps_deliver
    | dsimp only | split

theorem keeps_closeJob {z s : State} {o : Origin} (h : Keeps z s) : Keeps z (closeJob s o) := by
  cases o <;> unfold closeJob <;> dsimp only
  all_goals
    repeat' with_reducible first
      | assumption | apply keeps_modRegion | apply keeps_releaseVersions | split

theorem keeps_judgeJob {z s : State} {ctx : Nat} {j : Option JobPromise} (h : Keeps z s) : Keeps z (judgeJob s ctx j)
    := by
  cases j with
  | none => exact h
  | some j =>
    unfold judgeJob
    dsimp only
    repeat' with_reducible first
      | assumption | apply keeps_closeJob | apply Keeps.ite | apply keeps_promiseMiss | split

theorem keeps_lost {z : State} {s : State} {r : Request} (h_s : Keeps z s) :
    Keeps z (lost s r) := by
  unfold lost
  repeat' with_reducible first
    | assumption | apply Keeps.ite | apply keeps_checkPromise | apply keeps_performed | apply keeps_judgeJob
    | apply keeps_deliver | apply keeps_poisonEvent | apply keeps_finishRequest | apply keeps_watchFault | dsimp only
    | split

theorem keeps_freeDelay {z : State} {s : State} {r : Request} (h_s : Keeps z s) :
    Keeps z (freeDelay s r) := by
  unfold freeDelay
  repeat' with_reducible first
    | assumption | apply Keeps.ite | apply keeps_wake | split

theorem keeps_acceptRequest {z : State} {s : State} {r : Request} (h_s : Keeps z s) :
    Keeps z (acceptRequest s r) := by
  unfold acceptRequest
  repeat' with_reducible first
    | assumption | apply Keeps.ite | apply keeps_countWait | apply keeps_reserve | apply keeps_setRequest
    | apply keeps_modThread | apply keeps_modRegion | apply keeps_wake | apply keeps_freeDelay | apply Keeps.foldl
    | intro _ _ _ _ _ _ _ | intro _ _ _ | intro _ _ | intro _ | dsimp only | split | apply Keeps.upd

theorem keeps_holdDelay {z : State} {s : State} {r : Request} (h_s : Keeps z s) :
    Keeps z (holdDelay s r) := by
  unfold holdDelay
  repeat' with_reducible first
    | assumption | apply Keeps.ite | apply keeps_modThread | intro _ _ _ _ _ _ _ | intro _ _ _ | intro _ _ | intro _
    | split

theorem keeps_endWatch {z : State} {s : State} {r : Request} (h_s : Keeps z s) :
    Keeps z (endWatch s r) := by
  unfold endWatch
  repeat' with_reducible first
    | assumption | apply keeps_finishRequest | apply keeps_watchFault | split

theorem keeps_execRequestAcceptance {z : State} {req : Nat} {s : State} (h_s : Keeps z s) :
    KeepsNext z (execRequestAcceptance req s) := by
  unfold execRequestAcceptance
  repeat' with_reducible first
    | assumption | apply KeepsNext.next | apply KeepsNext.notNow | apply KeepsNext.ite | apply Keeps.ite
    | apply keeps_faulted | apply keeps_endWatch | apply keeps_lost | apply keeps_peerLossEvent
    | apply keeps_setRequest | apply keeps_countWait | apply keeps_holdDelay | apply keeps_acceptRequest | dsimp only
    | split

theorem keeps_execLendingRequest {z : State} {led : AdmPoint} {res : Resource} {n : Nat} {s : State} (h_s : Keeps z s) :
    KeepsNext z (execLendingRequest led res n s) := by
  unfold execLendingRequest
  repeat' with_reducible first
    | assumption | apply KeepsNext.next | apply KeepsNext.notNow | apply KeepsNext.ite | apply Keeps.ite
    | apply keeps_askLending

theorem keeps_execCreditGiveBack {z : State} {led : AdmPoint} {res : Resource} {s : State} (h_s : Keeps z s) :
    KeepsNext z (execCreditGiveBack led res s) := by
  unfold execCreditGiveBack
  repeat' with_reducible first
    | assumption | apply KeepsNext.next | apply KeepsNext.notNow | apply KeepsNext.ite | apply Keeps.ite
    | apply keeps_giveBack | apply keeps_setLedger

theorem keeps_performed {z : State} {s : State} {r : Request} {bs : List Byte} {poison : Option Nat} (h_s : Keeps z s) :
    Keeps z (performed s r bs poison) := by
  unfold performed
  repeat' with_reducible first
    | assumption | apply Keeps.ite | apply keeps_checkPromise | apply keeps_judgeJob | apply keeps_setRequest
    | apply keeps_returnCredits

theorem keeps_peerOp {z : State} {s : State} {r : Request} (h_s : Keeps z s) :
    Keeps z (peerOp s r) := by
  unfold peerOp
  repeat' with_reducible first
    | assumption | apply Keeps.ite | apply keeps_sendOp | dsimp only | split

theorem keeps_performAt {z : State} {s : State} {r : Request} (h_s : Keeps z s) :
    Keeps z (performAt s r) := by
  unfold performAt
  repeat' with_reducible first
    | assumption | apply Keeps.ite | apply keeps_performed | apply keeps_coreWrite | apply keeps_devAtomic
    | apply keeps_hostRequest | dsimp only | split

theorem keeps_countRequest {z : State} {s : State} {r : Request} (h_s : Keeps z s) :
    Keeps z (countRequest s r) := by
  unfold countRequest
  repeat' with_reducible first
    | assumption | apply Keeps.ite | apply keeps_countAccess

theorem keeps_execRequestPerform {z : State} {req : Nat} {s : State} (h_s : Keeps z s) :
    KeepsNext z (execRequestPerform req s) := by
  unfold execRequestPerform
  repeat' with_reducible first
    | assumption | apply KeepsNext.next | apply KeepsNext.notNow | apply KeepsNext.ite | apply Keeps.ite
    | apply keeps_performed | apply keeps_modRegion | apply keeps_peerOp | apply keeps_countRequest
    | apply keeps_undefinedEffect | apply keeps_performAt | intro _ _ _ _ _ _ _ | intro _ _ _ | intro _ _ | intro _
    | dsimp only | split

theorem keeps_completed {z : State} {s : State} {r : Request} {resp : List Byte} {poison : Bool} (h_s : Keeps z s) :
    Keeps z (completed s r resp poison) := by
  unfold completed
  repeat' with_reducible first
    | assumption | apply Keeps.ite | apply keeps_checkPromise | apply keeps_aerError | apply keeps_poisonedRead
    | apply keeps_judgeJob | apply keeps_finishRequest | apply keeps_deliver | dsimp only | split

theorem keeps_signalAt {z : State} {s : State} {fn a minor : Nat} {v : Word} (h_s : Keeps z s) :
    Keeps z (signalAt s fn a minor v) := by
  unfold signalAt
  repeat' with_reducible first
    | assumption | apply keeps_devWrite | apply keeps_devAtomic | split

theorem keeps_signalWakes {z : State} {s : State} {r : Request} (h_s : Keeps z s) :
    Keeps z (signalWakes s r) := by
  unfold signalWakes
  repeat' with_reducible first
    | assumption | apply Keeps.ite | intro _ _ _ _ _ _ _ | intro _ _ _ | intro _ _ | intro _ | apply Keeps.upd

theorem keeps_execSignalPerform {z : State} {req : Nat} {s : State} (h_s : Keeps z s) :
    KeepsNext z (execSignalPerform req s) := by
  unfold execSignalPerform
  repeat' with_reducible first
    | assumption | apply KeepsNext.next | apply KeepsNext.notNow | apply KeepsNext.ite | apply Keeps.ite
    | apply keeps_performed | apply keeps_peerOp | apply keeps_countRequest | apply keeps_undefinedEffect
    | apply keeps_signalWakes | apply keeps_signalAt | split

theorem keeps_execWatchAck {z : State} {req : Nat} {s : State} (h_s : Keeps z s) :
    KeepsNext z (execWatchAck req s) := by
  unfold execWatchAck
  repeat' with_reducible first
    | assumption | apply KeepsNext.next | apply KeepsNext.notNow | apply KeepsNext.ite | apply Keeps.ite
    | apply keeps_checkPromise | apply keeps_watchFault | apply keeps_modThread | apply keeps_finishRequest
    | apply keeps_modRegion | intro _ _ _ _ _ _ _ | intro _ _ _ | intro _ _ | intro _ | dsimp only | split

theorem keeps_winchLate {z : State} {s : State} {r : Request} (h_s : Keeps z s) :
    Keeps z (winchLate s r) := by
  unfold winchLate
  repeat' with_reducible first
    | assumption | apply Keeps.ite | apply keeps_modCtxRegion | apply keeps_postEvent | apply keeps_ctxEventOnce
    | intro _ _ _ _ _ _ _ | intro _ _ _ | intro _ _ | intro _ | dsimp only | split

theorem keeps_execTokenPerform {z : State} {req : Nat} {s : State} (h_s : Keeps z s) :
    KeepsNext z (execTokenPerform req s) := by
  unfold execTokenPerform
  repeat' with_reducible first
    | assumption | apply KeepsNext.next | apply KeepsNext.notNow | apply KeepsNext.ite | apply Keeps.ite
    | apply keeps_checkPromise | apply keeps_performToken | apply keeps_finishRequest | apply keeps_winchLate
    | apply keeps_judgeJob | dsimp only | split

theorem keeps_remotePiece {z : State} {s : State} {ctx : Nat} {o : Origin} {a : Nat} {bs payload : List Byte} {poison
    : Option Nat} {cr : List (Resource × Nat)} (h_s : Keeps z s) :
    Keeps z (remotePiece s ctx o a bs payload poison cr) := by
  unfold remotePiece
  repeat' with_reducible first
    | assumption | apply keeps_performed | apply keeps_countRequest | apply keeps_addRequest | apply keeps_sendUnitOp
    | dsimp only | split

theorem keeps_remoteStore {z : State} {ctx n : Nat} {o : Origin} : ∀ {s : State} {a : Nat} {bs : List Byte}, Keeps z s →
    Keeps z (remoteStore s ctx o a bs n) := by
  induction n with
  | zero => intro s a bs h; exact h
  | succ n ih =>
    intro s a bs h
    unfold remoteStore
    dsimp only
    repeat' with_reducible first
      | assumption | apply Keeps.ite | apply ih | apply keeps_remotePiece

theorem keeps_unitStore {z : State} {s : State} {ctx : Nat} {o : Origin} {a : Nat} {bs : List Byte} (h_s : Keeps z s) :
    Keeps z (unitStore s ctx o a bs) := by
  unfold unitStore
  repeat' with_reducible first
    | assumption | apply Keeps.ite | apply keeps_peerLossEvent | apply keeps_remoteStore | apply keeps_undefinedEffect
    | apply keeps_devWrite | apply keeps_countAccess

theorem keeps_unitWrite {z : State} {s : State} {ctx : Nat} {o : Origin} {ca : Nat} {bs : List Byte} (h_s : Keeps z s) :
    Keeps z (unitWrite s ctx o ca bs) := by
  unfold unitWrite
  repeat' with_reducible first
    | assumption | apply keeps_unitStore | apply keeps_windowFault | split

theorem keeps_unitReads {z : State} {s : State} {ctx : Nat} {o : Origin} {l : List (Nat × Nat)} (h_s : Keeps z s) :
    Keeps z (unitReads s ctx o l) := by
  unfold unitReads
  repeat' with_reducible first
    | assumption | apply keeps_winReadMark | apply keeps_askPeer | apply keeps_countAccess | apply Keeps.foldl
    | intro _ _ _ _ _ _ _ | intro _ _ _ | intro _ _ | intro _ | split

theorem keeps_writeChunks {z : State} {c : Nat} {o : Origin} {n : Nat} : ∀ {s : State} {ca : Nat} {bs : List Byte},
    Keeps z s →
    Keeps z (writeChunks s c o ca n bs) := by
  induction n with
  | zero => intro s ca bs h; exact h
  | succ n ih =>
    intro s ca bs h
    unfold writeChunks
    split
    · exact h
    · exact ih (keeps_unitWrite h)

theorem keeps_writeOut {z : State} {s : State} {c : Nat} {o : Origin} {ca : Nat} {bs : List Byte} (h_s : Keeps z s) :
    Keeps z (writeOut s c o ca bs) := by
  unfold writeOut
  repeat' with_reducible first
    | assumption | apply keeps_writeChunks

theorem keeps_unitToken {z : State} {s : State} {ctx : Nat} {o : Origin} {w : DWord} {deadline : Option Nat} {j :
    Option JobPromise} (h_s : Keeps z s) :
    Keeps z (unitToken s ctx o w deadline j) := by
  unfold unitToken
  repeat' with_reducible first
    | assumption | apply Keeps.ite | apply keeps_addRequest

theorem keeps_unitSignal {z : State} {s : State} {ctx : Nat} {o : Origin} {ca v : Nat} {after : List Nat} {j : Option
    JobPromise} (h_s : Keeps z s) :
    Keeps z (unitSignal s ctx o ca v after j) := by
  unfold unitSignal
  repeat' with_reducible first
    | assumption | apply Keeps.ite | apply keeps_addRequest | apply keeps_windowFault | split

theorem keeps_unitEnd {z s : State} {ctx : Nat} {o : Origin} {j : Option JobPromise} (h : Keeps z s) :
    Keeps z (unitEnd s ctx o j) := by
  unfold unitEnd
  split
  · refine Keeps.listUpd (freshIds_map ?_) id id id h
    intro q
    split <;> rfl
  · exact keeps_judgeJob h

theorem keeps_unitReport {z : State} {s : State} {ctx : Nat} {o : Origin} {token : DWord} {done : Nat} {deadline :
    Option Nat} {j : Option JobPromise} (h_s : Keeps z s) :
    Keeps z (unitReport s ctx o token done deadline j) := by
  unfold unitReport
  repeat' with_reducible first
    | assumption | apply Keeps.ite | apply keeps_unitToken | apply keeps_unitSignal | apply keeps_unitEnd

end Sys2Proof.Machine
end

