-- ==== Sys2Proof/Laws/KeepsTransfers.lean ====
section
/-! SUPPORT. One lemma for each operation of Machine/Transfers.lean: what it keeps (Laws/Keeps.lean). -/

namespace Sys2Proof.Machine

open Sys2Proof

theorem keeps_askTransfer {z s : State} {u : XferUse} {c into : Option Nat} {hops : List (Hop × Nat)} (h : Keeps z s) :
    Keeps z (askTransfer s u c into hops) := by
  unfold askTransfer
  split
  · split
    · exact h
    · refine Keeps.listUpd id id id (freshIds_map ?_) h
      intro y
      split <;> rfl
  · exact Keeps.listUpd id id id (freshIds_add rfl) h

theorem keeps_tryTransfer {z s : State} {x : Transfer} (h : Keeps z s) : Keeps z (tryTransfer s x) := by
  unfold tryTransfer
  split
  · refine Keeps.listUpd id id id (freshIds_map ?_) h
    intro y
    split <;> rfl
  · exact h

theorem keeps_reserveRates {z : State} {s : State} {u : XferUse} {c into : Option Nat} {hops : List (Hop × Nat)} (h_s
    : Keeps z s) :
    Keeps z (reserveRates s u c into hops) := by
  unfold reserveRates
  repeat' with_reducible first
    | assumption | apply keeps_askTransfer | apply keeps_tryTransfer | dsimp only | split

theorem keeps_endTransfer {z : State} {s : State} {u : XferUse} (h_s : Keeps z s) :
    Keeps z (endTransfer s u) := by
  unfold endTransfer
  repeat' with_reducible first
    | assumption | exact id | exact freshIds_filter | exact freshIds_add rfl | intro _ _ _ _ _ _ _ | intro _ _ _
    | intro _ _ | intro _ | apply Keeps.upd | apply Keeps.listUpd

end Sys2Proof.Machine
end

