-- ==== Sys2Proof/Laws/KeepsOwners.lean ====
section
/-! SUPPORT. One lemma for each operation of Machine/Owners.lean: what it keeps (Laws/Keeps.lean). -/

namespace Sys2Proof.Machine

open Sys2Proof

theorem keeps_writeRow {z : State} {s : State} {t : Nat} {v : TableVersion} {r : Nat} {p : RowPlace} {bs : List Byte}
    (h_s : Keeps z s) :
    Keeps z (writeRow s t v r p bs) := by
  unfold writeRow
  repeat' with_reducible first
    | assumption | apply keeps_devWrite

theorem keeps_addRow {z : State} {s : State} {t : Nat} {v : TableVersion} {r : Nat} {p : RowPlace} {bs : List Byte}
    (h_s : Keeps z s) :
    Keeps z (addRow s t v r p bs) := by
  unfold addRow
  repeat' with_reducible first
    | assumption | apply keeps_devWrite

theorem keeps_countServed {z : State} {s : State} {L t r : Nat} (h_s : Keeps z s) :
    Keeps z (countServed s L t r) := by
  unfold countServed
  repeat' with_reducible first
    | assumption | apply keeps_modPhys

theorem keeps_countForward {z : State} {s : State} {L t : Nat} (h_s : Keeps z s) :
    Keeps z (countForward s L t) := by
  unfold countForward
  repeat' with_reducible first
    | assumption | apply keeps_modPhys

theorem keeps_servePoison {z : State} {s : State} {b : OwnerBatch} {v : TableVersion} {r : Nat} {p : RowPlace} (h_s :
    Keeps z s) :
    Keeps z (servePoison s b v r p) := by
  unfold servePoison
  repeat' with_reducible first
    | assumption | apply keeps_poisonEvent | split

theorem keeps_noteFetched {z : State} {s : State} {b : OwnerBatch} {dest : Nat} {bs : List Byte} (h_s : Keeps z s) :
    Keeps z (noteFetched s b dest bs) := by
  unfold noteFetched
  repeat' with_reducible first
    | assumption | apply Keeps.ite | apply keeps_modRegion

theorem keeps_engineStore {z : State} {s : State} {o : Origin} {fn : Nat} {c : Option Nat} {a : Nat} {bs : List Byte}
    (h_s : Keeps z s) :
    Keeps z (engineStore s o fn c a bs) := by
  unfold engineStore
  repeat' with_reducible first
    | assumption | apply Keeps.ite | apply keeps_remoteStore | apply keeps_devWrite | apply keeps_countAccess

theorem keeps_ownerStore {z : State} {s : State} {L fn : Nat} {c : Option Nat} {a : Nat} {bs : List Byte} (h_s : Keeps
    z s) :
    Keeps z (ownerStore s L fn c a bs) := by
  unfold ownerStore
  repeat' with_reducible first
    | assumption | apply keeps_engineStore

theorem keeps_serveEntry {z : State} {s : State} {o : Origin} {L : Nat} {b : OwnerBatch} {v : TableVersion} {e : Nat ×
    Nat} {payload : List Byte} {p : RowPlace} (h_s : Keeps z s) :
    Keeps z (serveEntry s o L b v e payload p) := by
  unfold serveEntry
  repeat' with_reducible first
    | assumption | apply keeps_countServed | apply keeps_countAccess | apply keeps_servePoison
    | apply keeps_engineStore | apply keeps_noteFetched | apply keeps_addRow | apply keeps_writeRow | dsimp only
    | split

theorem keeps_arriveAdd {z : State} {s : State} {L : Nat} {b : OwnerBatch} {after : List Nat} (h_s : Keeps z s) :
    Keeps z (arriveAdd s L b after) := by
  unfold arriveAdd
  repeat' with_reducible first
    | assumption | apply Keeps.ite | apply keeps_addRequest | apply keeps_performed | apply keeps_peerOp
    | apply keeps_devAtomic

theorem keeps_countPart {z : State} {s : State} {b : OwnerBatch} (h_s : Keeps z s) :
    Keeps z (countPart s b) := by
  unfold countPart
  repeat' with_reducible first
    | assumption | apply Keeps.ite | apply keeps_modRegion

theorem keeps_serveEntries {z : State} {o : Origin} {L : Nat} {b : OwnerBatch} {v : TableVersion}
    {l : List ((Nat × Nat) × List Byte)} : ∀ {gone : Bool} {s : State}, Keeps z s →
    Keeps z (serveEntries o L b v l gone s).2 := by
  induction l with
  | nil => intro gone s h; exact h
  | cons x r ih =>
    intro gone s h
    unfold serveEntries
    dsimp only
    split
    · exact ih (keeps_serveEntry h)
    · exact ih (keeps_modRegion (keeps_countForward (keeps_countPart h)))
    · exact ih (keeps_modTable (keeps_countPart h))

theorem keeps_serveBatch {z : State} {s : State} {L : Nat} {b : OwnerBatch} (h_s : Keeps z s) :
    Keeps z (serveBatch s L b) := by
  unfold serveBatch
  repeat' with_reducible first
    | assumption | apply Keeps.ite | apply keeps_undefinedEffect | apply keeps_arriveAdd | apply keeps_serveEntries
    | dsimp only | split

theorem keeps_lostBatch {z : State} {s : State} {L owner : Nat} {b : OwnerBatch} (h_s : Keeps z s) :
    Keeps z (lostBatch s L owner b) := by
  unfold lostBatch
  repeat' with_reducible first
    | assumption | apply Keeps.ite | apply keeps_poisonOut | apply keeps_devWrite | apply keeps_peerLossEvent
    | apply keeps_poisonEvent | apply keeps_arriveAdd | apply Keeps.foldl | intro _ _ _ _ _ _ _ | intro _ _ _
    | intro _ _ | intro _ | dsimp only | split

theorem keeps_sendBatch {z : State} {s : State} {L owner : Nat} {b : OwnerBatch} (h_s : Keeps z s) :
    Keeps z (sendBatch s L owner b) := by
  unfold sendBatch
  repeat' with_reducible first
    | assumption | apply Keeps.ite | apply keeps_emit | apply keeps_giveBack | apply keeps_lostBatch
    | apply keeps_freshNat | apply keeps_remotePiece

theorem keeps_askInbox {z : State} {s : State} {L owner : Nat} (h_s : Keeps z s) :
    Keeps z (askInbox s L owner) := by
  unfold askInbox
  repeat' with_reducible first
    | assumption | apply Keeps.ite | apply keeps_askLending

theorem keeps_takeInbox {z : State} {s : State} {L owner : Nat} (h_s : Keeps z s) :
    Keeps z (takeInbox s L owner) := by
  unfold takeInbox
  repeat' with_reducible first
    | assumption | apply keeps_reserve

theorem keeps_sendBatches {z : State} {L : Nat} {l : List (Nat × OwnerBatch)} : ∀ {s : State}, Keeps z s →
    Keeps z (sendBatches L l s).1 := by
  induction l with
  | nil => intro s h; exact h
  | cons x r ih =>
    intro s h
    unfold sendBatches
    dsimp only
    split
    · exact ih (keeps_sendBatch (keeps_takeInbox (keeps_askInbox h)))
    · exact ih (keeps_askInbox h)

theorem keeps_sendForwards {z : State} {s : State} {L : Nat} (h_s : Keeps z s) :
    Keeps z (sendForwards s L) := by
  unfold sendForwards
  repeat' with_reducible first
    | assumption | apply keeps_sendBatches | apply keeps_modRegion

theorem keeps_sendWaiting {z : State} {s : State} (h_s : Keeps z s) :
    Keeps z (sendWaiting s) := by
  unfold sendWaiting
  repeat' with_reducible first
    | assumption | apply Keeps.ite | apply keeps_sendForwards | apply keeps_sendBatches | apply keeps_modRegion
    | apply Keeps.foldl | intro _ _ _ _ _ _ _ | intro _ _ _ | intro _ _ | intro _ | dsimp only | split

theorem keeps_dropSent {z : State} {s : State} {owner : Nat} {b : OwnerBatch} (h_s : Keeps z s) :
    Keeps z (dropSent s owner b) := by
  unfold dropSent
  repeat' with_reducible first
    | assumption | apply Keeps.upd

theorem keeps_storeBatch {z : State} {s : State} {L : Nat} {b : OwnerBatch} (h_s : Keeps z s) :
    Keeps z (storeBatch s L b) := by
  unfold storeBatch
  repeat' with_reducible first
    | assumption | apply keeps_modRegion | apply keeps_devWrite

theorem keeps_execOwnerBatch {z : State} {region : Nat} {b : OwnerBatch} {s : State} (h_s : Keeps z s) :
    KeepsNext z (execOwnerBatch region b s) := by
  unfold execOwnerBatch
  repeat' with_reducible first
    | assumption | apply KeepsNext.next | apply KeepsNext.notNow | apply KeepsNext.ite | apply Keeps.ite
    | apply keeps_storeBatch | apply keeps_dropSent | apply keeps_serveBatch | apply keeps_giveBack
    | apply keeps_sendWaiting

theorem keeps_sendCopy {z : State} {s : State} {t r : Nat} {v : TableVersion} (h_s : Keeps z s) :
    Keeps z (sendCopy s t r v) := by
  unfold sendCopy
  repeat' with_reducible first
    | assumption | apply Keeps.ite | apply keeps_ownerStore

theorem keeps_startCopy {z : State} {s : State} {t r : Nat} (h_s : Keeps z s) :
    Keeps z (startCopy s t r) := by
  unfold startCopy
  repeat' with_reducible first
    | assumption | exact id | exact freshIds_filter | exact freshIds_add rfl | apply keeps_sendCopy
    | apply Keeps.foldl | intro _ _ _ _ _ _ _ | intro _ _ _ | intro _ _ | intro _ | apply Keeps.upd
    | apply Keeps.listUpd

theorem keeps_execRowHandover {z : State} {table row : Nat} {s : State} (h_s : Keeps z s) :
    KeepsNext z (execRowHandover table row s) := by
  unfold execRowHandover
  repeat' with_reducible first
    | assumption | apply KeepsNext.next | apply KeepsNext.notNow | apply KeepsNext.ite | apply Keeps.ite
    | apply keeps_modTable | apply keeps_startCopy | apply Keeps.foldl | intro _ _ _ _ _ _ _ | intro _ _ _ | intro _ _
    | intro _ | dsimp only | split

theorem keeps_writeCopy {z : State} {s : State} {t r : Nat} {rowData accData : List Byte} {v : TableVersion} {i : Nat}
    (h_s : Keeps z s) :
    Keeps z (writeCopy s t r rowData accData v i) := by
  unfold writeCopy
  repeat' with_reducible first
    | assumption | apply Keeps.ite | apply keeps_devMove | apply keeps_devWrite

theorem keeps_writeCopies {z : State} {s : State} {t r : Nat} {rowData accData : List Byte} (h_s : Keeps z s) :
    Keeps z (writeCopies s t r rowData accData) := by
  unfold writeCopies
  repeat' with_reducible first
    | assumption | apply keeps_writeCopy | apply Keeps.foldl | intro _ _ _ _ _ _ _ | intro _ _ _

theorem keeps_judgeCopy {z : State} {s : State} {h : Handover} (h_s : Keeps z s) :
    Keeps z (judgeCopy s h) := by
  unfold judgeCopy
  repeat' with_reducible first
    | assumption | apply Keeps.ite | apply keeps_promiseMiss

theorem keeps_fillMoved {z : State} {s : State} {t : Nat} {v : TableVersion} (h_s : Keeps z s) :
    Keeps z (fillMoved s t v) := by
  unfold fillMoved
  repeat' with_reducible first
    | assumption | apply Keeps.ite | apply keeps_devMove | apply keeps_ownerStore | apply Keeps.foldl
    | intro _ _ _ _ _ _ _ | intro _ _ _

theorem keeps_execHandoverCopyDone {z : State} {table row : Nat} {rowData accData : List Byte} {s : State} (h_s :
    Keeps z s) :
    KeepsNext z (execHandoverCopyDone table row rowData accData s) := by
  unfold execHandoverCopyDone
  repeat' with_reducible first
    | assumption | apply KeepsNext.next | apply KeepsNext.notNow | apply KeepsNext.ite | apply Keeps.ite
    | apply keeps_judgeCopy | apply keeps_endTransfer | apply keeps_writeCopies | apply keeps_modTable
    | apply keeps_sendWaiting | apply keeps_serveBatch | apply Keeps.foldl | intro _ _ _ _ _ _ _ | intro _ _ _
    | intro _ _ | intro _ | dsimp only | split

theorem keeps_execForwardEntryFree {z : State} {table row : Nat} {peersClear : Bool} {s : State} (h_s : Keeps z s) :
    KeepsNext z (execForwardEntryFree table row peersClear s) := by
  unfold execForwardEntryFree
  repeat' with_reducible first
    | assumption | apply KeepsNext.next | apply KeepsNext.notNow | apply KeepsNext.ite | apply Keeps.ite
    | apply keeps_modTable | intro _ _ _ _ _ _ _ | intro _ _ _ | intro _ _ | intro _ | split

theorem keeps_stageMove {z : State} {s : State} {m : RowMove} (h_s : Keeps z s) :
    Keeps z (stageMove s m) := by
  unfold stageMove
  repeat' with_reducible first
    | assumption | apply Keeps.ite | apply keeps_modTable

theorem keeps_execBalancerRead {z : State} {moves : List RowMove} {s : State} (h_s : Keeps z s) :
    KeepsNext z (execBalancerRead moves s) := by
  unfold execBalancerRead
  repeat' with_reducible first
    | assumption | apply KeepsNext.next | apply KeepsNext.notNow | apply KeepsNext.ite | apply Keeps.ite
    | apply keeps_stageMove | apply Keeps.foldl | intro _ _ _ _ _ _ _ | intro _ _ _ | intro _ _ | intro _ | dsimp only
    | split | apply Keeps.upd

end Sys2Proof.Machine
end

