-- ==== Sys2Proof/Laws/KeepsThreadMem.lean ====
section
/-! SUPPORT. One lemma for each operation of Machine/ThreadMem.lean: what it keeps (Laws/Keeps.lean). -/

namespace Sys2Proof.Machine

open Sys2Proof

theorem keeps_accessAt {z : State} {t : ThreadId} {kind : ReqKind} {ca : Nat} {after : List Nat} {x : Option Nat} {s :
    State} (h_s : Keeps z s) :
    Keeps z (accessAt t kind ca after x s) := by
  unfold accessAt
  repeat' with_reducible first
    | assumption | apply Keeps.ite | apply keeps_faulted | apply keeps_addRequest | apply keeps_modThread
    | intro _ _ _ _ _ _ _ | intro _ _ _ | intro _ _ | intro _ | dsimp only | split

theorem keeps_access {z : State} {t : ThreadId} {kind : ReqKind} {o : AArgs} {align : Nat} {after : List Nat} {s :
    State} (h_s : Keeps z s) :
    Keeps z (access t kind o align after s) := by
  unfold access
  repeat' with_reducible first
    | assumption | apply keeps_accessAt

theorem keeps_execLd {z : State} {t : ThreadId} {k : Common} {o : AArgs} {s : State} (h_s : Keeps z s) :
    KeepsNext z (execLd t k o s) := by
  unfold execLd
  repeat' with_reducible first
    | assumption | apply keeps_stateWord | apply keeps_access

theorem keeps_execSt {z : State} {t : ThreadId} {k : Common} {o : AArgs} {s : State} (h_s : Keeps z s) :
    KeepsNext z (execSt t k o s) := by
  unfold execSt
  repeat' with_reducible first
    | assumption | apply keeps_stateWord | apply keeps_access | intro _ _ _ _ _ _ _ | intro _ _ _ | intro _ _

theorem keeps_execVld {z : State} {t : ThreadId} {k : Common} {o : AArgs} {s : State} (h_s : Keeps z s) :
    KeepsNext z (execVld t k o s) := by
  unfold execVld
  repeat' with_reducible first
    | assumption | apply keeps_vectorWord | apply keeps_access

theorem keeps_execVst {z : State} {t : ThreadId} {k : Common} {o : AArgs} {s : State} (h_s : Keeps z s) :
    KeepsNext z (execVst t k o s) := by
  unfold execVst
  repeat' with_reducible first
    | assumption | apply keeps_vectorWord | apply keeps_access | intro _ _ _ _ _ _ _ | intro _ _ _ | intro _ _

theorem keeps_execAtom {z : State} {t : ThreadId} {k : Common} {o : AArgs} {s : State} (h_s : Keeps z s) :
    KeepsNext z (execAtom t k o s) := by
  unfold execAtom
  repeat' with_reducible first
    | assumption | apply keeps_stateWord | apply keeps_access | intro _ _ _ _ _ _ _ | intro _ _ _ | intro _ _

theorem keeps_execAtomp {z : State} {t : ThreadId} {k : Common} {o : AArgs} {s : State} (h_s : Keeps z s) :
    KeepsNext z (execAtomp t k o s) := by
  unfold execAtomp
  repeat' with_reducible first
    | assumption | apply keeps_stateWord | apply keeps_access | intro _ _ _ _ _ _ _ | intro _ _ _ | intro _ _

theorem keeps_execFence {z : State} {t : ThreadId} {k : Common} {o : AArgs} {s : State} (h_s : Keeps z s) :
    KeepsNext z (execFence t k o s) := by
  unfold execFence
  repeat' with_reducible first
    | assumption | apply KeepsNext.ite | apply Keeps.ite | apply keeps_stateWord | apply keeps_fence
    | apply keeps_modThread | intro _ _ _ _ _ _ _ | intro _ _ _ | intro _ _

theorem keeps_execSig {z : State} {t : ThreadId} {k : Common} {o : AArgs} {s : State} (h_s : Keeps z s) :
    KeepsNext z (execSig t k o s) := by
  unfold execSig
  repeat' with_reducible first
    | assumption | apply keeps_stateWord | apply keeps_access | intro _ _ _ _ _ _ _ | intro _ _ _ | intro _ _

theorem keeps_execSigw {z : State} {t : ThreadId} {k : Common} {o : AArgs} {s : State} (h_s : Keeps z s) :
    KeepsNext z (execSigw t k o s) := by
  unfold execSigw
  repeat' with_reducible first
    | assumption | apply keeps_stateWord | apply keeps_access | intro _ _ _ _ _ _ _ | intro _ _ _ | intro _ _

theorem keeps_clearSlot {z : State} {s : State} {t : ThreadId} {slot : Fin 16} (h_s : Keeps z s) :
    Keeps z (clearSlot s t slot) := by
  unfold clearSlot
  repeat' with_reducible first
    | assumption | apply keeps_sweepWakes | apply keeps_modThread

theorem keeps_watchAt {z : State} {t : ThreadId} {o : AArgs} {x : Option Nat} {s : State} (h_s : Keeps z s) :
    Keeps z (watchAt t o x s) := by
  unfold watchAt
  repeat' with_reducible first
    | assumption | apply Keeps.ite | apply keeps_access | apply keeps_watchFault | split

theorem keeps_watchWord {z : State} {t : ThreadId} {o : AArgs} {s : State} (h_s : Keeps z s) :
    Keeps z (watchWord t o s) := by
  unfold watchWord
  repeat' with_reducible first
    | assumption | apply keeps_clearSlot | apply keeps_watchAt

theorem keeps_execWatch {z : State} {t : ThreadId} {k : Common} {o : AArgs} {s : State} (h_s : Keeps z s) :
    KeepsNext z (execWatch t k o s) := by
  unfold execWatch
  repeat' with_reducible first
    | assumption | apply keeps_stateWord | apply keeps_watchWord

theorem keeps_execUnwatch {z : State} {t : ThreadId} {k : Common} {o : IArgs} {s : State} (h_s : Keeps z s) :
    KeepsNext z (execUnwatch t k o s) := by
  unfold execUnwatch
  repeat' with_reducible first
    | assumption | apply keeps_stateWord | apply keeps_clearSlot | intro _ _ _ _ _ _ _ | intro _ _ _ | intro _ _

theorem keeps_execPark {z : State} {t : ThreadId} {k : Common} {o : IArgs} {s : State} (h_s : Keeps z s) :
    KeepsNext z (execPark t k o s) := by
  unfold execPark
  repeat' with_reducible first
    | assumption | apply keeps_regWord

theorem keeps_judgeWake {z : State} {s : State} {t : ThreadId} {th : Thread} (h_s : Keeps z s) :
    Keeps z (judgeWake s t th) := by
  unfold judgeWake
  repeat' with_reducible first
    | assumption | apply Keeps.ite | apply keeps_promiseMiss | intro _ _ _ _ _ _ _ | intro _ _ _ | intro _ _ | intro _
    | split

theorem keeps_awaitRail {z : State} {s : State} {t : ThreadId} (h_s : Keeps z s) :
    Keeps z (awaitRail s t) := by
  unfold awaitRail
  repeat' with_reducible first
    | assumption | apply Keeps.ite | apply keeps_modThread

theorem keeps_execWakeNotification {z : State} {t : ThreadId} {s : State} (h_s : Keeps z s) :
    KeepsNext z (execWakeNotification t s) := by
  unfold execWakeNotification
  repeat' with_reducible first
    | assumption | apply KeepsNext.next | apply KeepsNext.notNow | apply KeepsNext.ite | apply Keeps.ite
    | apply keeps_awaitRail | apply keeps_settle | apply keeps_setThread | apply keeps_judgeWake | split

theorem keeps_takeTask {z : State} {t : ThreadId} {o : IArgs} {s : State} (h_s : Keeps z s) :
    Keeps z (takeTask t o s) := by
  unfold takeTask
  repeat' with_reducible first
    | assumption | apply keeps_releaseFlows | apply keeps_modThread | apply keeps_modRegion | apply keeps_recallTasks
    | apply keeps_serveList

theorem keeps_execTake {z : State} {t : ThreadId} {k : Common} {o : IArgs} {s : State} (h_s : Keeps z s) :
    KeepsNext z (execTake t k o s) := by
  unfold execTake
  repeat' with_reducible first
    | assumption | apply keeps_issueWord | apply keeps_takeTask | apply keeps_stepPc | intro _ _ _ _ _ _ _
    | intro _ _ _ | intro _ _

theorem keeps_sendToken {z : State} {t : ThreadId} {o : RArgs} {s : State} (h_s : Keeps z s) :
    Keeps z (sendToken t o s) := by
  unfold sendToken
  repeat' with_reducible first
    | assumption | apply Keeps.ite | apply keeps_addRequest

theorem keeps_execToken {z : State} {t : ThreadId} {k : Common} {o : RArgs} {s : State} (h_s : Keeps z s) :
    KeepsNext z (execToken t k o s) := by
  unfold execToken
  repeat' with_reducible first
    | assumption | apply keeps_stateWord | apply keeps_sendToken

theorem keeps_sendDelay {z : State} {t : ThreadId} {o : RArgs} {s : State} (h_s : Keeps z s) :
    Keeps z (sendDelay t o s) := by
  unfold sendDelay
  repeat' with_reducible first
    | assumption | apply keeps_holdDelay | apply keeps_addRequest

theorem keeps_execDelay {z : State} {t : ThreadId} {k : Common} {o : RArgs} {s : State} (h_s : Keeps z s) :
    KeepsNext z (execDelay t k o s) := by
  unfold execDelay
  repeat' with_reducible first
    | assumption | apply keeps_stateWord | apply keeps_sendDelay

theorem keeps_execTime {z : State} {t : ThreadId} {k : Common} {o : IArgs} {s : State} (h_s : Keeps z s) :
    KeepsNext z (execTime t k o s) := by
  unfold execTime
  repeat' with_reducible first
    | assumption | apply keeps_stateWord | apply keeps_modThread | intro _ _ _ _ _ _ _ | intro _ _ _ | intro _ _
    | intro _ | apply Keeps.upd

theorem keeps_execWaitingFiringPlaced {z : State} {region : Nat} {s : State} (h_s : Keeps z s) :
    KeepsNext z (execWaitingFiringPlaced region s) := by
  unfold execWaitingFiringPlaced
  repeat' with_reducible first
    | assumption | apply KeepsNext.next | apply keeps_placeFiring

theorem keeps_execDelayTick {z : State} {region : Nat} {s : State} (h_s : Keeps z s) :
    KeepsNext z (execDelayTick region s) := by
  unfold execDelayTick
  repeat' with_reducible first
    | assumption | apply KeepsNext.next | apply keeps_moveDue

theorem keeps_execDld {z : State} {t : ThreadId} {k : Common} {o : AArgs} {s : State} (h_s : Keeps z s) :
    KeepsNext z (execDld t k o s) := by
  unfold execDld
  repeat' with_reducible first
    | assumption | apply keeps_stateWord | apply keeps_access

theorem keeps_execDstr {z : State} {t : ThreadId} {k : Common} {o : AArgs} {s : State} (h_s : Keeps z s) :
    KeepsNext z (execDstr t k o s) := by
  unfold execDstr
  repeat' with_reducible first
    | assumption | apply keeps_stateWord | apply keeps_access | intro _ _ _ _ _ _ _ | intro _ _ _ | intro _ _

theorem keeps_setWord {z : State} {t : ThreadId} {o : IArgs} {s : State} (h_s : Keeps z s) :
    Keeps z (setWord t o s) := by
  unfold setWord
  repeat' with_reducible first
    | assumption | apply keeps_setGroup

theorem keeps_execDsetw {z : State} {t : ThreadId} {k : Common} {o : IArgs} {s : State} (h_s : Keeps z s) :
    KeepsNext z (execDsetw t k o s) := by
  unfold execDsetw
  repeat' with_reducible first
    | assumption | apply keeps_stateWord | apply keeps_setWord

theorem keeps_execDgetw {z : State} {t : ThreadId} {k : Common} {o : IArgs} {s : State} (h_s : Keeps z s) :
    KeepsNext z (execDgetw t k o s) := by
  unfold execDgetw
  repeat' with_reducible first
    | assumption | apply keeps_stateWord | apply keeps_modThread | intro _ _ _ _ _ _ _ | intro _ _ _ | intro _ _

end Sys2Proof.Machine
end

