-- ==== Sys2Proof/Laws/KeepsReel.lean ====
section
/-! SUPPORT. One lemma for each operation of Machine/Reel.lean: what it keeps (Laws/Keeps.lean). -/

namespace Sys2Proof.Machine

open Sys2Proof

theorem keeps_modReel {z : State} {s : State} {L r : Nat} {f : ReelUnit → ReelUnit} (h_s : Keeps z s) :
    Keeps z (modReel s L r f) := by
  unfold modReel
  repeat' with_reducible first
    | assumption | apply keeps_modRegion

theorem keeps_modReelCount {z : State} {s : State} {p r : Nat} {f : ReelCount → ReelCount} (h_s : Keeps z s) :
    Keeps z (modReelCount s p r f) := by
  unfold modReelCount
  repeat' with_reducible first
    | assumption | apply keeps_modPhys

theorem keeps_submitReel {z : State} {t : ThreadId} {o : AArgs} {s : State} (h_s : Keeps z s) :
    Keeps z (submitReel t o s) := by
  unfold submitReel
  repeat' with_reducible first
    | assumption | apply Keeps.ite | apply keeps_modThread | apply keeps_modReelCount | apply keeps_w1cEvent
    | apply keeps_modReel

theorem keeps_execReel {z : State} {t : ThreadId} {k : Common} {o : AArgs} {s : State} (h_s : Keeps z s) :
    KeepsNext z (execReel t k o s) := by
  unfold execReel
  repeat' with_reducible first
    | assumption | apply keeps_stateWord | apply keeps_submitReel

theorem keeps_taintFrames {z : State} {s : State} {c : Nat} {j : ReelDesc} (h_s : Keeps z s) :
    Keeps z (taintFrames s c j) := by
  unfold taintFrames
  repeat' with_reducible first
    | assumption | apply Keeps.ite | apply keeps_modReel | apply Keeps.foldl | intro _ _ _ _ _ _ _ | intro _ _ _

theorem keeps_refuseReel {z : State} {s : State} {L r : Nat} {job : ReelJob} {j : ReelDesc} (h_s : Keeps z s) :
    Keeps z (refuseReel s L r job j) := by
  unfold refuseReel
  repeat' with_reducible first
    | assumption | apply Keeps.ite | apply keeps_unitWrite | apply keeps_unitReport

theorem keeps_startReel {z : State} {s : State} {L r : Nat} {job : ReelJob} {rec_ gr : List Byte} {t : Nat} (h_s :
    Keeps z s) :
    Keeps z (startReel s L r job rec_ gr t) := by
  unfold startReel
  repeat' with_reducible first
    | assumption | apply Keeps.ite | apply keeps_taintFrames | apply keeps_unitWrite | apply keeps_modReel

theorem keeps_execReelJobAccept {z : State} {region reel : Nat} {s : State} (h_s : Keeps z s) :
    KeepsNext z (execReelJobAccept region reel s) := by
  unfold execReelJobAccept
  repeat' with_reducible first
    | assumption | apply KeepsNext.next | apply KeepsNext.notNow | apply KeepsNext.ite | apply Keeps.ite
    | apply keeps_reserveRates | apply keeps_unitReads | apply keeps_modReel | apply keeps_startReel
    | apply keeps_endTransfer | apply keeps_refuseReel | intro _ _ _ _ _ _ _ | intro _ _ _ | intro _ _ | intro _
    | dsimp only | split

theorem keeps_writeFrame {z : State} {s : State} {c : Nat} {o : Origin} {r : ReelRun} {x : Samp} (h_s : Keeps z s) :
    Keeps z (writeFrame s c o r x) := by
  unfold writeFrame
  repeat' with_reducible first
    | assumption | apply keeps_writeOut | apply keeps_unitWrite

theorem keeps_finishFrame {z : State} {s : State} {o : Origin} {r : ReelRun} {x : Samp} (h_s : Keeps z s) :
    Keeps z (finishFrame s o r x) := by
  unfold finishFrame
  repeat' with_reducible first
    | assumption | apply Keeps.ite | apply keeps_underWindows | apply keeps_undefinedEffect | apply keeps_writeFrame
    | apply keeps_unitReads | intro _ _ _ _ _ _ _ | intro _ _ _ | intro _ _

theorem keeps_execReelJobComplete {z : State} {region reel : Nat} {s : State} (h_s : Keeps z s) :
    KeepsNext z (execReelJobComplete region reel s) := by
  unfold execReelJobComplete
  repeat' with_reducible first
    | assumption | apply KeepsNext.next | apply KeepsNext.notNow | apply KeepsNext.ite | apply Keeps.ite
    | apply keeps_withWindows | apply keeps_addIndexFaults | apply keeps_finishFrame | apply keeps_modReelCount
    | apply keeps_countAct | apply keeps_endTransfer | apply keeps_modReel | apply keeps_unitReport
    | intro _ _ _ _ _ _ _ | intro _ _ _ | intro _ _ | intro _ | dsimp only | split

end Sys2Proof.Machine
end

