-- ==== Sys2Proof/Laws/KeepsGather.lean ====
section
/-! SUPPORT. One lemma for each operation of Machine/Gather.lean: what it keeps (Laws/Keeps.lean). -/

namespace Sys2Proof.Machine

open Sys2Proof

theorem keeps_writeConsumed {z : State} {s : State} {c L k next : Nat} (h_s : Keeps z s) :
    Keeps z (writeConsumed s c L k next) := by
  unfold writeConsumed
  repeat' with_reducible first
    | assumption | apply keeps_winWrite

theorem keeps_modLoft {z : State} {s : State} {L c : Nat} {f : Loft → Loft} (h_s : Keeps z s) :
    Keeps z (modLoft s L c f) := by
  unfold modLoft
  repeat' with_reducible first
    | assumption | apply keeps_modRegion

theorem keeps_refuseGather {z : State} {s : State} {L c tag : Nat} {r : GatherRec} (h_s : Keeps z s) :
    Keeps z (refuseGather s L c tag r) := by
  unfold refuseGather
  repeat' with_reducible first
    | assumption | apply Keeps.ite | apply keeps_unitWrite | apply keeps_unitReport

theorem keeps_takeRecord {z : State} {s : State} {L c next : Nat} {r : GatherRec} (h_s : Keeps z s) :
    Keeps z (takeRecord s L c next r) := by
  unfold takeRecord
  repeat' with_reducible first
    | assumption | apply Keeps.ite | apply keeps_unitReads | apply keeps_modRegion | apply keeps_refuseGather

theorem keeps_execGatherRecordRead {z : State} {ctx region : Nat} {s : State} (h_s : Keeps z s) :
    KeepsNext z (execGatherRecordRead ctx region s) := by
  unfold execGatherRecordRead
  repeat' with_reducible first
    | assumption | apply KeepsNext.next | apply KeepsNext.notNow | apply KeepsNext.ite | apply Keeps.ite
    | apply keeps_unitReads | apply keeps_modCtxRegion | apply keeps_takeRecord | apply keeps_writeConsumed

theorem keeps_modGatherJob {z : State} {s : State} {L tag : Nat} {f : GatherJob → GatherJob} (h_s : Keeps z s) :
    Keeps z (modGatherJob s L tag f) := by
  unfold modGatherJob
  repeat' with_reducible first
    | assumption | apply Keeps.ite | apply keeps_modRegion

theorem keeps_zeroRows {z : State} {s : State} {o : Origin} {j : GatherJob} {d : TableDesc} (h_s : Keeps z s) :
    Keeps z (zeroRows s o j d) := by
  unfold zeroRows
  repeat' with_reducible first
    | assumption | apply Keeps.ite | apply keeps_unitWrite | apply Keeps.foldl | intro _ _ _ _ _ _ _ | intro _ _ _

theorem keeps_rowFaults {z : State} {s : State} {j : GatherJob} {d : TableDesc} (h_s : Keeps z s) :
    Keeps z (rowFaults s j d) := by
  unfold rowFaults
  repeat' with_reducible first
    | assumption | apply Keeps.ite | apply keeps_windowFault | apply Keeps.foldl | intro _ _ _ _ _ _ _ | intro _ _ _

theorem keeps_keepPin {z : State} {s : State} {j : GatherJob} (h_s : Keeps z s) :
    Keeps z (keepPin s j) := by
  unfold keepPin
  repeat' with_reducible first
    | assumption | apply Keeps.ite | apply Keeps.upd

theorem keeps_runGather {z : State} {s : State} {L : Nat} {j0 : GatherJob} {v : TableVersion} {t : Nat} (h_s : Keeps z
    s) :
    Keeps z (runGather s L j0 v t) := by
  unfold runGather
  repeat' with_reducible first
    | assumption | apply Keeps.ite | apply keeps_unitWrite | apply keeps_rowFaults | apply keeps_zeroRows
    | apply keeps_unitReads | apply keeps_modGatherJob | apply keeps_devWrite | apply keeps_serveEntries
    | apply keeps_sendBatches | apply keeps_sendForwards | apply keeps_keepPin | apply Keeps.foldl
    | intro _ _ _ _ _ _ _ | intro _ _ _

theorem keeps_dropGather {z : State} {s : State} {L tag : Nat} (h_s : Keeps z s) :
    Keeps z (dropGather s L tag) := by
  unfold dropGather
  repeat' with_reducible first
    | assumption | apply keeps_endTransfer | apply keeps_modRegion

theorem keeps_acceptGather {z : State} {op region job : Nat} {s : State} (h_s : Keeps z s) :
    Keeps z (acceptGather op region job s) := by
  unfold acceptGather
  repeat' with_reducible first
    | assumption | apply Keeps.ite | apply keeps_releaseVersions | apply keeps_refuseGather | apply keeps_dropGather
    | apply keeps_reserveRates | apply keeps_runGather | apply keeps_unitReads | intro _ _ _ _ _ _ _ | intro _ _ _
    | intro _ _ | intro _ | dsimp only | split

theorem keeps_execGather {z : State} {region job : Nat} {s : State} (h_s : Keeps z s) :
    KeepsNext z (execGather region job s) := by
  unfold execGather
  repeat' with_reducible first
    | assumption | apply KeepsNext.next | apply keeps_acceptGather

theorem keeps_execScatterAdd {z : State} {region job : Nat} {s : State} (h_s : Keeps z s) :
    KeepsNext z (execScatterAdd region job s) := by
  unfold execScatterAdd
  repeat' with_reducible first
    | assumption | apply KeepsNext.next | apply keeps_acceptGather

theorem keeps_execWrite {z : State} {region job : Nat} {s : State} (h_s : Keeps z s) :
    KeepsNext z (execWrite region job s) := by
  unfold execWrite
  repeat' with_reducible first
    | assumption | apply KeepsNext.next | apply keeps_acceptGather

theorem keeps_execLoftFill {z : State} {region job : Nat} {s : State} (h_s : Keeps z s) :
    KeepsNext z (execLoftFill region job s) := by
  unfold execLoftFill
  repeat' with_reducible first
    | assumption | apply KeepsNext.next | apply keeps_acceptGather

theorem keeps_copyMerged {z : State} {s : State} {o : Origin} {j : GatherJob} {d : TableDesc} {l : List (Nat × Nat)}
    (h_s : Keeps z s) :
    Keeps z (copyMerged s o j d l) := by
  unfold copyMerged
  repeat' with_reducible first
    | assumption | apply Keeps.ite | apply keeps_unitWrite | apply Keeps.foldl | intro _ _ _ _ _ _ _ | intro _ _ _

theorem keeps_fillHalf {z : State} {s : State} {L : Nat} {j : GatherJob} {d : TableDesc} (h_s : Keeps z s) :
    Keeps z (fillHalf s L j d) := by
  unfold fillHalf
  repeat' with_reducible first
    | assumption | apply keeps_modLoft | dsimp only | split

theorem keeps_finishPins {z : State} {s : State} {o : Origin} {j : GatherJob} (h_s : Keeps z s) :
    Keeps z (finishPins s o j) := by
  unfold finishPins
  repeat' with_reducible first
    | assumption | apply Keeps.ite | apply keeps_unitWrite | dsimp only | split | apply Keeps.upd

theorem keeps_finishData {z : State} {s : State} {L : Nat} {j : GatherJob} {d : TableDesc} (h_s : Keeps z s) :
    Keeps z (finishData s L j d) := by
  unfold finishData
  repeat' with_reducible first
    | assumption | apply keeps_modGatherJob | apply keeps_underWindows | apply keeps_fillHalf | apply keeps_copyMerged
    | intro _ _ _ _ _ _ _ | intro _ _ _ | intro _ _

theorem keeps_finishGather {z : State} {s : State} {L : Nat} {j : GatherJob} (h_s : Keeps z s) :
    Keeps z (finishGather s L j) := by
  unfold finishGather
  repeat' with_reducible first
    | assumption | apply Keeps.ite | apply keeps_underWindows | apply keeps_unitWrite | apply keeps_finishPins
    | intro _ _ _ _ _ _ _ | intro _ _ _ | intro _ _

theorem keeps_reportGather {z : State} {s : State} {L : Nat} {j : GatherJob} (h_s : Keeps z s) :
    Keeps z (reportGather s L j) := by
  unfold reportGather
  repeat' with_reducible first
    | assumption | apply keeps_addIndexFaults | apply keeps_finishGather | apply keeps_endTransfer
    | apply keeps_modGatherJob | apply keeps_unitReport

theorem keeps_execGatherJobComplete {z : State} {region job : Nat} {s : State} (h_s : Keeps z s) :
    KeepsNext z (execGatherJobComplete region job s) := by
  unfold execGatherJobComplete
  repeat' with_reducible first
    | assumption | apply KeepsNext.next | apply KeepsNext.notNow | apply KeepsNext.ite | apply Keeps.ite
    | apply keeps_sendWaiting | apply keeps_finishData | apply keeps_reportGather | dsimp only | split

theorem keeps_execLoftHalfActivate {z : State} {s : State} (h_s : Keeps z s) :
    KeepsNext z (execLoftHalfActivate s) := by
  unfold execLoftHalfActivate
  repeat' with_reducible first
    | assumption | apply KeepsNext.next | apply KeepsNext.notNow | apply KeepsNext.ite | apply Keeps.ite
    | intro _ _ _ _ _ _ _ | intro _ _ _ | intro _ _ | intro _ | apply Keeps.upd

end Sys2Proof.Machine
end

