-- ==== Sys2Proof/Laws/KeepsVectorOps.lean ====
section
/-! SUPPORT. One lemma for each operation of Machine/VectorOps.lean: what it keeps (Laws/Keeps.lean). -/

namespace Sys2Proof.Machine

open Sys2Proof

theorem keeps_onVector {z : State} {t : ThreadId} {f : VectorCtx → VectorCtx} {s : State} (h_s : Keeps z s) :
    Keeps z (onVector t f s) := by
  unfold onVector
  repeat' with_reducible first
    | assumption | apply keeps_setVector

theorem keeps_toScalar {z : State} {t : ThreadId} {o : VArgs} {f : VectorCtx → Word} {s : State} (h_s : Keeps z s) :
    Keeps z (toScalar t o f s) := by
  unfold toScalar
  repeat' with_reducible first
    | assumption | apply keeps_modThread

theorem keeps_execVadd {z : State} {t : ThreadId} {k : Common} {o : VArgs} {s : State} (h_s : Keeps z s) :
    KeepsNext z (execVadd t k o s) := by
  unfold execVadd
  repeat' with_reducible first
    | assumption | apply keeps_laneWord | apply keeps_onVector

theorem keeps_execVsub {z : State} {t : ThreadId} {k : Common} {o : VArgs} {s : State} (h_s : Keeps z s) :
    KeepsNext z (execVsub t k o s) := by
  unfold execVsub
  repeat' with_reducible first
    | assumption | apply keeps_laneWord | apply keeps_onVector

theorem keeps_execVmul {z : State} {t : ThreadId} {k : Common} {o : VArgs} {s : State} (h_s : Keeps z s) :
    KeepsNext z (execVmul t k o s) := by
  unfold execVmul
  repeat' with_reducible first
    | assumption | apply keeps_laneWord | apply keeps_onVector

theorem keeps_execVfma {z : State} {t : ThreadId} {k : Common} {o : VArgs} {s : State} (h_s : Keeps z s) :
    KeepsNext z (execVfma t k o s) := by
  unfold execVfma
  repeat' with_reducible first
    | assumption | apply keeps_laneWord | apply keeps_onVector

theorem keeps_execVmin {z : State} {t : ThreadId} {k : Common} {o : VArgs} {s : State} (h_s : Keeps z s) :
    KeepsNext z (execVmin t k o s) := by
  unfold execVmin
  repeat' with_reducible first
    | assumption | apply keeps_laneWord | apply keeps_onVector

theorem keeps_execVmax {z : State} {t : ThreadId} {k : Common} {o : VArgs} {s : State} (h_s : Keeps z s) :
    KeepsNext z (execVmax t k o s) := by
  unfold execVmax
  repeat' with_reducible first
    | assumption | apply keeps_laneWord | apply keeps_onVector

theorem keeps_execVcmp {z : State} {t : ThreadId} {k : Common} {o : VArgs} {s : State} (h_s : Keeps z s) :
    KeepsNext z (execVcmp t k o s) := by
  unfold execVcmp
  repeat' with_reducible first
    | assumption | apply KeepsNext.ite | apply Keeps.ite | apply keeps_laneWord | apply keeps_onVector

theorem keeps_execVsel {z : State} {t : ThreadId} {k : Common} {o : VArgs} {s : State} (h_s : Keeps z s) :
    KeepsNext z (execVsel t k o s) := by
  unfold execVsel
  repeat' with_reducible first
    | assumption | apply KeepsNext.ite | apply Keeps.ite | apply keeps_laneWord | apply keeps_onVector

theorem keeps_execVexp2 {z : State} {t : ThreadId} {k : Common} {o : VArgs} {s : State} (h_s : Keeps z s) :
    KeepsNext z (execVexp2 t k o s) := by
  unfold execVexp2
  repeat' with_reducible first
    | assumption | apply keeps_laneWord | apply keeps_onVector

theorem keeps_execVrcp {z : State} {t : ThreadId} {k : Common} {o : VArgs} {s : State} (h_s : Keeps z s) :
    KeepsNext z (execVrcp t k o s) := by
  unfold execVrcp
  repeat' with_reducible first
    | assumption | apply keeps_laneWord | apply keeps_onVector

theorem keeps_execVrsq {z : State} {t : ThreadId} {k : Common} {o : VArgs} {s : State} (h_s : Keeps z s) :
    KeepsNext z (execVrsq t k o s) := by
  unfold execVrsq
  repeat' with_reducible first
    | assumption | apply keeps_laneWord | apply keeps_onVector

theorem keeps_execViadd {z : State} {t : ThreadId} {k : Common} {o : VArgs} {s : State} (h_s : Keeps z s) :
    KeepsNext z (execViadd t k o s) := by
  unfold execViadd
  repeat' with_reducible first
    | assumption | apply keeps_laneWord | apply keeps_onVector

theorem keeps_execVisub {z : State} {t : ThreadId} {k : Common} {o : VArgs} {s : State} (h_s : Keeps z s) :
    KeepsNext z (execVisub t k o s) := by
  unfold execVisub
  repeat' with_reducible first
    | assumption | apply keeps_laneWord | apply keeps_onVector

theorem keeps_execVimul {z : State} {t : ThreadId} {k : Common} {o : VArgs} {s : State} (h_s : Keeps z s) :
    KeepsNext z (execVimul t k o s) := by
  unfold execVimul
  repeat' with_reducible first
    | assumption | apply keeps_laneWord | apply keeps_onVector

theorem keeps_execVlogic {z : State} {t : ThreadId} {k : Common} {o : VArgs} {s : State} (h_s : Keeps z s) :
    KeepsNext z (execVlogic t k o s) := by
  unfold execVlogic
  repeat' with_reducible first
    | assumption | apply keeps_laneWord | apply keeps_onVector

theorem keeps_execVrsum {z : State} {t : ThreadId} {k : Common} {o : VArgs} {s : State} (h_s : Keeps z s) :
    KeepsNext z (execVrsum t k o s) := by
  unfold execVrsum
  repeat' with_reducible first
    | assumption | apply keeps_laneWord | apply keeps_toScalar

theorem keeps_execVrmax {z : State} {t : ThreadId} {k : Common} {o : VArgs} {s : State} (h_s : Keeps z s) :
    KeepsNext z (execVrmax t k o s) := by
  unfold execVrmax
  repeat' with_reducible first
    | assumption | apply keeps_laneWord | apply keeps_toScalar

theorem keeps_execVperm {z : State} {t : ThreadId} {k : Common} {o : VArgs} {s : State} (h_s : Keeps z s) :
    KeepsNext z (execVperm t k o s) := by
  unfold execVperm
  repeat' with_reducible first
    | assumption | apply keeps_laneWord | apply keeps_onVector

theorem keeps_execVbcast {z : State} {t : ThreadId} {k : Common} {o : VArgs} {s : State} (h_s : Keeps z s) :
    KeepsNext z (execVbcast t k o s) := by
  unfold execVbcast
  repeat' with_reducible first
    | assumption | apply keeps_laneWord | apply keeps_onVector | intro _ _ _ _ _ _ _ | intro _ _ _ | intro _ _

theorem keeps_execVext {z : State} {t : ThreadId} {k : Common} {o : VArgs} {s : State} (h_s : Keeps z s) :
    KeepsNext z (execVext t k o s) := by
  unfold execVext
  repeat' with_reducible first
    | assumption | apply KeepsNext.ite | apply Keeps.ite | apply keeps_laneWord | apply keeps_toScalar
    | intro _ _ _ _ _ _ _ | intro _ _ _ | intro _ _

theorem keeps_execVflag {z : State} {t : ThreadId} {k : Common} {o : VArgs} {s : State} (h_s : Keeps z s) :
    KeepsNext z (execVflag t k o s) := by
  unfold execVflag
  repeat' with_reducible first
    | assumption | apply keeps_laneWord | apply keeps_onVector | apply keeps_toScalar | intro _ _ _ _ _ _ _
    | intro _ _ _ | intro _ _

theorem keeps_execVmov {z : State} {t : ThreadId} {k : Common} {o : VArgs} {s : State} (h_s : Keeps z s) :
    KeepsNext z (execVmov t k o s) := by
  unfold execVmov
  repeat' with_reducible first
    | assumption | apply keeps_laneWord | apply keeps_onVector

theorem keeps_execVcvt {z : State} {t : ThreadId} {k : Common} {o : VArgs} {s : State} (h_s : Keeps z s) :
    KeepsNext z (execVcvt t k o s) := by
  unfold execVcvt
  repeat' with_reducible first
    | assumption | apply keeps_laneWord | apply keeps_onVector | intro _ _ _ _ _ _ _ | intro _ _ _ | intro _ _

theorem keeps_execVmaxabs {z : State} {t : ThreadId} {k : Common} {o : VArgs} {s : State} (h_s : Keeps z s) :
    KeepsNext z (execVmaxabs t k o s) := by
  unfold execVmaxabs
  repeat' with_reducible first
    | assumption | apply keeps_laneWord | apply keeps_toScalar

end Sys2Proof.Machine
end

