-- ==== Sys2Proof/Laws/KeepsReduce.lean ====
section
/-! SUPPORT. One lemma for each operation of Machine/Reduce.lean: what it keeps (Laws/Keeps.lean). -/

namespace Sys2Proof.Machine

open Sys2Proof

theorem keeps_modSeq {z : State} {s : State} {L : Nat} {f : Sequencer → Sequencer} (h_s : Keeps z s) :
    Keeps z (modSeq s L f) := by
  unfold modSeq
  repeat' with_reducible first
    | assumption | apply keeps_modRegion

theorem keeps_setReduce {z : State} {s : State} {L : Nat} {j : ReduceJob} (h_s : Keeps z s) :
    Keeps z (setReduce s L j) := by
  unfold setReduce
  repeat' with_reducible first
    | assumption | apply Keeps.ite | apply keeps_modSeq

theorem keeps_contributed {z : State} {s : State} {L ctx : Nat} (h_s : Keeps z s) :
    Keeps z (contributed s L ctx) := by
  unfold contributed
  repeat' with_reducible first
    | assumption | apply keeps_modSeq

theorem keeps_jobPass {z : State} {s : State} {j : ReduceJob} {f : State → State} (h_s : Keeps z s) (h_f : ∀ s, Keeps
    z s → Keeps z (f s)) :
    Keeps z (jobPass s j f) := by
  unfold jobPass
  repeat' with_reducible first
    | assumption | apply h_f | apply keeps_underWindows

theorem keeps_queuePacket {z : State} {s : State} {L tag dest : Nat} {p : Packet} (h_s : Keeps z s) :
    Keeps z (queuePacket s L tag dest p) := by
  unfold queuePacket
  repeat' with_reducible first
    | assumption | apply keeps_modSeq

theorem keeps_askPacket {z : State} {s : State} {L dest : Nat} (h_s : Keeps z s) :
    Keeps z (askPacket s L dest) := by
  unfold askPacket
  repeat' with_reducible first
    | assumption | apply Keeps.ite | apply keeps_askLending

theorem keeps_deliverPacket {z : State} {s : State} {L ctx dest : Nat} {p : Packet} (h_s : Keeps z s) :
    Keeps z (deliverPacket s L ctx dest p) := by
  unfold deliverPacket
  repeat' with_reducible first
    | assumption | apply Keeps.ite | apply keeps_modSeq | apply keeps_emit | apply keeps_reserve
    | apply keeps_peerLossEvent | apply keeps_freshNat | apply keeps_unitEnd | apply keeps_remotePiece

theorem keeps_sendPacket {z : State} {s : State} {L : Nat} {x : Nat × Nat × Packet} (h_s : Keeps z s) :
    Keeps z (sendPacket s L x) := by
  unfold sendPacket
  repeat' with_reducible first
    | assumption | apply Keeps.ite | apply keeps_modSeq | apply keeps_deliverPacket

theorem keeps_sendPass {z : State} {L : Nat} {l : List (Nat × Nat × Packet)} :
    ∀ {kept : List (Nat × Nat × Packet)} {s : State}, Keeps z s → Keeps z (sendPass L l kept s).2 := by
  induction l with
  | nil => intro kept s h; exact h
  | cons x r ih =>
    intro kept s h
    unfold sendPass
    split
    · exact ih h
    · dsimp only
      split
      · exact ih (keeps_sendPacket (keeps_askPacket h))
      · exact ih (keeps_askPacket h)

theorem keeps_sendAll {z : State} {L n : Nat} : ∀ {s : State}, Keeps z s → Keeps z (sendAll L n s) := by
  induction n with
  | zero => intro s h; exact h
  | succ n ih =>
    intro s h
    unfold sendAll
    dsimp only
    split
    · exact keeps_modSeq (keeps_sendPass h)
    · exact ih (keeps_modSeq (keeps_sendPass h))

theorem keeps_queueBlocks {z : State} {s : State} {L : Nat} {j : ReduceJob} {op dest lo hi : Nat} {payload : Nat → Nat
    → List Byte} (h_s : Keeps z s) :
    Keeps z (queueBlocks s L j op dest lo hi payload) := by
  unfold queueBlocks
  repeat' with_reducible first
    | assumption | apply keeps_queuePacket | apply Keeps.foldl | intro _ _ _ _ _ _ _ | intro _ _ _

theorem keeps_removeReduce {z : State} {s : State} {L : Nat} {j : ReduceJob} (h_s : Keeps z s) :
    Keeps z (removeReduce s L j) := by
  unfold removeReduce
  repeat' with_reducible first
    | assumption | apply keeps_modSeq | apply keeps_endTransfer

theorem keeps_reportReduce {z : State} {s : State} {L : Nat} {j : ReduceJob} (h_s : Keeps z s) :
    Keeps z (reportReduce s L j) := by
  unfold reportReduce
  repeat' with_reducible first
    | assumption | apply keeps_unitReport

theorem keeps_dropTail {z : State} {s : State} {L : Nat} {j : ReduceJob} (h_s : Keeps z s) :
    Keeps z (dropTail s L j) := by
  unfold dropTail
  repeat' with_reducible first
    | assumption | apply keeps_modSeq | apply keeps_jobPass | apply keeps_unitWrite | apply Keeps.foldl
    | intro _ _ _ _ _ _ _ | intro _ _ _ | intro _ _

theorem keeps_abortReduce {z : State} {s : State} {L : Nat} {j : ReduceJob} {send aborted report : Bool} (h_s : Keeps
    z s) :
    Keeps z (abortReduce s L j send aborted report) := by
  unfold abortReduce
  repeat' with_reducible first
    | assumption | apply Keeps.ite | apply keeps_modSeq | apply keeps_dropTail | apply keeps_contributed
    | apply keeps_modCtxRegion | apply keeps_jobPass | apply keeps_unitWrite | apply keeps_removeReduce
    | apply keeps_queuePacket | apply keeps_reportReduce | apply Keeps.foldl | intro _ _ _ _ _ _ _ | intro _ _ _
    | intro _ _

theorem keeps_refuseReduce {z : State} {s : State} {L c : Nat} {r : ReduceRec} (h_s : Keeps z s) :
    Keeps z (refuseReduce s L c r) := by
  unfold refuseReduce
  repeat' with_reducible first
    | assumption | apply Keeps.ite | apply keeps_modCtxRegion | apply keeps_unitWrite | apply keeps_contributed
    | apply keeps_modSeq | apply keeps_unitReport

theorem keeps_taintReduce {z : State} {s : State} {L : Nat} {j : ReduceJob} (h_s : Keeps z s) :
    Keeps z (taintReduce s L j) := by
  unfold taintReduce
  repeat' with_reducible first
    | assumption | apply Keeps.ite | apply keeps_withWindows | apply keeps_modSeq | apply Keeps.foldl
    | intro _ _ _ _ _ _ _ | intro _ _ _

theorem keeps_clearArea {z : State} {s : State} {c : Nat} {o : Origin} {ca n : Nat} (h_s : Keeps z s) :
    Keeps z (clearArea s c o ca n) := by
  unfold clearArea
  repeat' with_reducible first
    | assumption | apply keeps_unitWrite | apply Keeps.foldl | intro _ _ _ _ _ _ _ | intro _ _ _

theorem keeps_addReduce {z : State} {s : State} {L : Nat} {j : ReduceJob} (h_s : Keeps z s) :
    Keeps z (addReduce s L j) := by
  unfold addReduce
  repeat' with_reducible first
    | assumption | apply Keeps.ite | apply keeps_modSeq

theorem keeps_ownerStart {z : State} {s : State} {L : Nat} {j : ReduceJob} (h_s : Keeps z s) :
    Keeps z (ownerStart s L j) := by
  unfold ownerStart
  repeat' with_reducible first
    | assumption | apply Keeps.ite | apply keeps_jobPass | apply keeps_clearArea | apply keeps_queuePacket
    | apply Keeps.foldl | intro _ _ _ _ _ _ _ | intro _ _ _ | intro _ _

theorem keeps_orWord {z s : State} {c : Nat} {o : Origin} {a n : Nat} (h : Keeps z s) :
    Keeps z (orWord s c o a n) := by
  unfold orWord
  split
  · exact keeps_windowFault h
  · split
    · split
      · exact keeps_peerLossEvent h
      · extract_lets r
        generalize r = r'
        exact keeps_peerOp (keeps_countRequest (keeps_addRequest h))
    · exact keeps_devAtomic (keeps_countAccess h)

theorem keeps_atomicOr {z s : State} {c : Nat} {o : Origin} {ca n : Nat} (h : Keeps z s) :
    Keeps z (atomicOr s c o ca n) := keeps_orWord h

theorem keeps_writeStat {z : State} {s : State} {o : Origin} {j : ReduceJob} {off idx : Nat} {v : Word} {mask : Nat}
    {samples : Option Nat} (h_s : Keeps z s) :
    Keeps z (writeStat s o j off idx v mask samples) := by
  unfold writeStat
  repeat' with_reducible first
    | assumption | apply Keeps.ite | apply keeps_unitWrite | apply keeps_atomicOr | dsimp only | split

theorem keeps_localPass {z : State} {s : State} {L : Nat} {j : ReduceJob} (h_s : Keeps z s) :
    Keeps z (localPass s L j) := by
  unfold localPass
  repeat' with_reducible first
    | assumption | apply Keeps.ite | apply keeps_unitReads | apply keeps_undefinedEffect | apply keeps_unitWrite
    | apply keeps_writeStat | apply keeps_setReduce | apply Keeps.foldl | intro _ _ _ _ _ _ _ | intro _ _ _

theorem keeps_contributorStart {z : State} {s : State} {L : Nat} {j : ReduceJob} (h_s : Keeps z s) :
    Keeps z (contributorStart s L j) := by
  unfold contributorStart
  repeat' with_reducible first
    | assumption | apply Keeps.ite | apply keeps_jobPass | apply keeps_localPass | intro _ _ _ _ _ _ _ | intro _ _ _
    | intro _ _

theorem keeps_sendMax {z : State} {s : State} {L : Nat} {j : ReduceJob} {owner : Nat} (h_s : Keeps z s) :
    Keeps z (sendMax s L j owner) := by
  unfold sendMax
  repeat' with_reducible first
    | assumption | apply keeps_queueBlocks | apply Keeps.foldl | intro _ _ _ _ _ _ _ | intro _ _ _

theorem keeps_convertPass {z : State} {s : State} {L : Nat} {j : ReduceJob} (h_s : Keeps z s) :
    Keeps z (convertPass s L j) := by
  unfold convertPass
  repeat' with_reducible first
    | assumption | apply Keeps.ite | apply keeps_unitReads | apply keeps_undefinedEffect | apply keeps_unitWrite
    | apply keeps_modSeq | apply keeps_setReduce | apply keeps_queueBlocks | apply Keeps.foldl | intro _ _ _ _ _ _ _
    | intro _ _ _

theorem keeps_learnExps {z s : State} {L : Nat} {j : ReduceJob} {es : List (Nat × BitVec 8)} (h : Keeps z s) :
    Keeps z (learnExps s L j es).2 := by
  unfold learnExps
  dsimp only
  split
  · exact keeps_setReduce h
  · exact keeps_contributed (keeps_modCtxRegion (keeps_setReduce h))

theorem keeps_agreePass {z : State} {s : State} {L : Nat} {j : ReduceJob} (h_s : Keeps z s) :
    Keeps z (agreePass s L j) := by
  unfold agreePass
  repeat' with_reducible first
    | assumption | apply keeps_learnExps | apply keeps_queueBlocks | apply Keeps.foldl | intro _ _ _ _ _ _ _
    | intro _ _ _

theorem keeps_addBlock {z : State} {s : State} {o : Origin} {j : ReduceJob} {b : Nat} {bs : List Byte} (h_s : Keeps z
    s) :
    Keeps z (addBlock s o j b bs) := by
  unfold addBlock
  repeat' with_reducible first
    | assumption | apply Keeps.ite | apply keeps_unitWrite

theorem keeps_writeResult {z : State} {s : State} {o : Origin} {j : ReduceJob} {accs : List (BitVec 8 × List Word)}
    (h_s : Keeps z s) :
    Keeps z (writeResult s o j accs) := by
  unfold writeResult
  repeat' with_reducible first
    | assumption | apply Keeps.ite | apply keeps_unitWrite | apply Keeps.foldl | intro _ _ _ _ _ _ _ | intro _ _ _

theorem keeps_resultPass {z : State} {s : State} {L : Nat} {j : ReduceJob} (h_s : Keeps z s) :
    Keeps z (resultPass s L j) := by
  unfold resultPass
  repeat' with_reducible first
    | assumption | apply Keeps.ite | apply keeps_unitReads | apply keeps_undefinedEffect | apply keeps_writeResult
    | apply keeps_writeStat | apply keeps_setReduce

theorem keeps_performGrant {z : State} {s : State} {L : Nat} {j : ReduceJob} {p : Packet} (h_s : Keeps z s) :
    Keeps z (performGrant s L j p) := by
  unfold performGrant
  repeat' with_reducible first
    | assumption | apply Keeps.ite | apply keeps_sendMax | apply keeps_setReduce

theorem keeps_performMax {z : State} {s : State} {L : Nat} {j : ReduceJob} {p : Packet} (h_s : Keeps z s) :
    Keeps z (performMax s L j p) := by
  unfold performMax
  repeat' with_reducible first
    | assumption | apply Keeps.ite | apply keeps_setReduce | apply keeps_agreePass

theorem keeps_performExp {z : State} {s : State} {L : Nat} {j : ReduceJob} {p : Packet} (h_s : Keeps z s) :
    Keeps z (performExp s L j p) := by
  unfold performExp
  repeat' with_reducible first
    | assumption | apply Keeps.ite | apply keeps_learnExps | apply keeps_setReduce | apply keeps_jobPass
    | apply keeps_convertPass | intro _ _ _ _ _ _ _ | intro _ _ _ | intro _ _

theorem keeps_performData {z : State} {s : State} {L : Nat} {j : ReduceJob} {p : Packet} (h_s : Keeps z s) :
    Keeps z (performData s L j p) := by
  unfold performData
  repeat' with_reducible first
    | assumption | apply Keeps.ite | apply keeps_jobPass | apply keeps_addBlock | apply keeps_setReduce
    | apply keeps_resultPass | apply Keeps.foldl | intro _ _ _ _ _ _ _ | intro _ _ _ | intro _ _

theorem keeps_performOutcome {z : State} {s : State} {L : Nat} {j : ReduceJob} {p : Packet} (h_s : Keeps z s) :
    Keeps z (performOutcome s L j p) := by
  unfold performOutcome
  repeat' with_reducible first
    | assumption | apply keeps_setReduce

theorem keeps_performPacket {z : State} {s : State} {L : Nat} {j : ReduceJob} {p : Packet} (h_s : Keeps z s) :
    Keeps z (performPacket s L j p) := by
  unfold performPacket
  repeat' with_reducible first
    | assumption | apply Keeps.ite | apply keeps_abortReduce | apply keeps_performGrant | apply keeps_performMax
    | apply keeps_performExp | apply keeps_performData | apply keeps_performOutcome | split

theorem keeps_drainInbox {z : State} {L n : Nat} : ∀ {s : State}, Keeps z s → Keeps z (drainInbox L n s) := by
  induction n with
  | zero => intro s h; exact h
  | succ n ih =>
    intro s h
    unfold drainInbox
    dsimp only
    repeat' with_reducible first
      | assumption | apply ih | apply keeps_performPacket | apply keeps_giveBack | apply keeps_modSeq | apply Keeps.ite
      | split

end Sys2Proof.Machine
end

