-- ==== Sys2Proof/Laws/KeepsOutcome.lean ====
section
/-! SUPPORT. One lemma for each operation of Machine/Outcome.lean: what it keeps (Laws/Keeps.lean). -/

namespace Sys2Proof.Machine

open Sys2Proof

theorem keeps_applyLoss {z : State} {s : State} {c : Nat} {o : Origin} {loss : Nat} {flag : Bool} (h_s : Keeps z s) :
    Keeps z (applyLoss s c o loss flag) := by
  unfold applyLoss
  repeat' with_reducible first
    | assumption | apply keeps_unitWrite | apply keeps_unitReads

theorem keeps_sendLift {z : State} {s : State} {c tSent : Nat} (h_s : Keeps z s) :
    Keeps z (sendLift s c tSent) := by
  unfold sendLift
  repeat' with_reducible first
    | assumption | apply Keeps.ite | apply keeps_emit | apply Keeps.foldl | intro _ _ _ _ _ _ _ | intro _ _ _
    | intro _ _ | intro _ | dsimp only | split | apply Keeps.upd

theorem keeps_stepOutcome {z : State} {s : State} {o : Origin} {j : ReduceJob} (h_s : Keeps z s) :
    Keeps z (stepOutcome s o j) := by
  unfold stepOutcome
  repeat' with_reducible first
    | assumption | apply keeps_applyLoss | apply keeps_modCtx | apply keeps_sendLift

theorem keeps_settleTail {z : State} {s : State} {o : Origin} {flag : Bool} {x : PendingTail} (h_s : Keeps z s) :
    Keeps z (settleTail s o flag x) := by
  unfold settleTail
  repeat' with_reducible first
    | assumption | apply Keeps.ite | apply keeps_unitWrite | apply keeps_unitReads

theorem keeps_outcomeEffect {z : State} {s : State} {L : Nat} {j : ReduceJob} (h_s : Keeps z s) :
    Keeps z (outcomeEffect s L j) := by
  unfold outcomeEffect
  repeat' with_reducible first
    | assumption | apply Keeps.ite | apply keeps_jobPass | apply keeps_unitWrite | apply keeps_modSeq
    | apply keeps_settleTail | apply keeps_stepOutcome | apply Keeps.foldl | intro _ _ _ _ _ _ _ | intro _ _ _
    | intro _ _

theorem keeps_endInterval {z : State} {s : State} {L : Nat} {j : ReduceJob} (h_s : Keeps z s) :
    Keeps z (endInterval s L j) := by
  unfold endInterval
  repeat' with_reducible first
    | assumption | apply Keeps.ite | apply keeps_setReduce | apply keeps_promiseMiss | dsimp only | split

theorem keeps_completeReduce {z : State} {s : State} {L : Nat} {j : ReduceJob} (h_s : Keeps z s) :
    Keeps z (completeReduce s L j) := by
  unfold completeReduce
  repeat' with_reducible first
    | assumption | apply Keeps.ite | apply keeps_outcomeEffect | apply keeps_modCtxRegion | apply keeps_setReduce
    | apply keeps_reportReduce

theorem keeps_finishReduce {z : State} {s : State} {L : Nat} {j : ReduceJob} (h_s : Keeps z s) :
    Keeps z (finishReduce s L j) := by
  unfold finishReduce
  repeat' with_reducible first
    | assumption | apply Keeps.ite | apply keeps_completeReduce | apply keeps_removeReduce | dsimp only | split

theorem keeps_settleSeq {z : State} {s : State} {L : Nat} (h_s : Keeps z s) :
    Keeps z (settleSeq s L) := by
  unfold settleSeq
  repeat' with_reducible first
    | assumption | apply keeps_sendAll | apply keeps_endInterval | apply keeps_finishReduce | apply Keeps.foldl
    | intro _ _ _ _ _ _ _ | intro _ _ _ | intro _ _ | intro _ | dsimp only | split

theorem keeps_runSequencers {z : State} {s : State} {L : Nat} (h_s : Keeps z s) :
    Keeps z (runSequencers s L) := by
  unfold runSequencers
  repeat' with_reducible first
    | assumption | apply keeps_drainInbox | apply keeps_settleSeq | apply Keeps.foldl

theorem keeps_abortAndRun {z : State} {s : State} {L : Nat} {j : ReduceJob} {send aborted report : Bool} (h_s : Keeps
    z s) :
    Keeps z (abortAndRun s L j send aborted report) := by
  unfold abortAndRun
  repeat' with_reducible first
    | assumption | apply keeps_runSequencers | apply keeps_abortReduce

theorem keeps_consumeReduce {z : State} {s : State} {c L next : Nat} {r : ReduceRec} (h_s : Keeps z s) :
    Keeps z (consumeReduce s c L next r) := by
  unfold consumeReduce
  repeat' with_reducible first
    | assumption | apply keeps_unitReads | apply keeps_modCtxRegion | apply keeps_writeConsumed

theorem keeps_startReduce {z : State} {s : State} {L c next : Nat} {r : ReduceRec} {t : Nat} (h_s : Keeps z s) :
    Keeps z (startReduce s L c next r t) := by
  unfold startReduce
  repeat' with_reducible first
    | assumption | apply keeps_taintReduce | apply keeps_addReduce | apply keeps_consumeReduce
    | apply keeps_contributorStart | apply keeps_ownerStart | apply keeps_runSequencers | dsimp only | split

theorem keeps_execReduce {z : State} {ctx region : Nat} {s : State} (h_s : Keeps z s) :
    KeepsNext z (execReduce ctx region s) := by
  unfold execReduce
  repeat' with_reducible first
    | assumption | apply KeepsNext.next | apply KeepsNext.notNow | apply KeepsNext.ite | apply Keeps.ite
    | apply keeps_refuseReduce | apply keeps_consumeReduce | apply keeps_reserveRates | apply keeps_endTransfer
    | apply keeps_startReduce | intro _ _ _ _ _ _ _ | intro _ _ _ | intro _ _ | intro _ | dsimp only | split

theorem keeps_startOutcome {z : State} {s : State} {L c next : Nat} {r : ReduceRec} (h_s : Keeps z s) :
    Keeps z (startOutcome s L c next r) := by
  unfold startOutcome
  repeat' with_reducible first
    | assumption | apply Keeps.ite | apply keeps_unitReads | apply keeps_addReduce | apply keeps_consumeReduce
    | apply keeps_modSeq | apply keeps_queuePacket | apply keeps_runSequencers | apply Keeps.foldl
    | intro _ _ _ _ _ _ _ | intro _ _ _

theorem keeps_execOutcome {z : State} {ctx region : Nat} {s : State} (h_s : Keeps z s) :
    KeepsNext z (execOutcome ctx region s) := by
  unfold execOutcome
  repeat' with_reducible first
    | assumption | apply KeepsNext.next | apply KeepsNext.notNow | apply KeepsNext.ite | apply Keeps.ite
    | apply keeps_refuseReduce | apply keeps_consumeReduce | apply keeps_startOutcome

theorem keeps_takeWay {z : State} {s : State} {L : Nat} {p : Packet} (h_s : Keeps z s) :
    Keeps z (takeWay s L p) := by
  unfold takeWay
  repeat' with_reducible first
    | assumption | apply Keeps.ite | apply keeps_modSeq | apply keeps_promiseMiss | apply keeps_setDest
    | intro _ _ _ _ _ _ _ | intro _ _ _ | intro _ _ | intro _ | dsimp only | split | apply Keeps.upd

theorem keeps_storePacket {z : State} {s : State} {L : Nat} {p : Packet} (h_s : Keeps z s) :
    Keeps z (storePacket s L p) := by
  unfold storePacket
  repeat' with_reducible first
    | assumption | apply keeps_modRegion | apply keeps_devWrite

theorem keeps_packetArrives {z : State} {op region : Nat} {p0 : Packet} {s : State} (h_s : Keeps z s) :
    KeepsNext z (packetArrives op region p0 s) := by
  unfold packetArrives
  repeat' with_reducible first
    | assumption | apply KeepsNext.next | apply KeepsNext.notNow | apply KeepsNext.ite | apply Keeps.ite
    | apply keeps_runSequencers | apply keeps_storePacket | apply keeps_takeWay

theorem keeps_execGrant {z : State} {region : Nat} {p : Packet} {s : State} (h_s : Keeps z s) :
    KeepsNext z (execGrant region p s) := by
  unfold execGrant
  repeat' with_reducible first
    | assumption | apply keeps_packetArrives

theorem keeps_execMax {z : State} {region : Nat} {p : Packet} {s : State} (h_s : Keeps z s) :
    KeepsNext z (execMax region p s) := by
  unfold execMax
  repeat' with_reducible first
    | assumption | apply keeps_packetArrives

theorem keeps_execExp {z : State} {region : Nat} {p : Packet} {s : State} (h_s : Keeps z s) :
    KeepsNext z (execExp region p s) := by
  unfold execExp
  repeat' with_reducible first
    | assumption | apply keeps_packetArrives

theorem keeps_execData {z : State} {region : Nat} {p : Packet} {s : State} (h_s : Keeps z s) :
    KeepsNext z (execData region p s) := by
  unfold execData
  repeat' with_reducible first
    | assumption | apply keeps_packetArrives

theorem keeps_execOutcomePacket {z : State} {region : Nat} {p : Packet} {s : State} (h_s : Keeps z s) :
    KeepsNext z (execOutcomePacket region p s) := by
  unfold execOutcomePacket
  repeat' with_reducible first
    | assumption | apply keeps_packetArrives

theorem keeps_execAbort {z : State} {region : Nat} {p : Packet} {s : State} (h_s : Keeps z s) :
    KeepsNext z (execAbort region p s) := by
  unfold execAbort
  repeat' with_reducible first
    | assumption | apply keeps_packetArrives

theorem keeps_clearMasks {z : State} {s : State} {fn : Nat} {rec_ : List Byte} (h_s : Keeps z s) :
    Keeps z (clearMasks s fn rec_) := by
  unfold clearMasks
  repeat' with_reducible first
    | assumption | apply keeps_devWrite | apply Keeps.foldl | intro _ _ _ _ _ _ _ | intro _ _ _

theorem keeps_steerEffect {z : State} {s : State} {c ca : Nat} {flag : Bool} (h_s : Keeps z s) :
    Keeps z (steerEffect s c ca flag) := by
  unfold steerEffect
  repeat' with_reducible first
    | assumption | apply Keeps.ite | apply keeps_clearMasks | apply keeps_winReadMark | apply keeps_freshNat
    | apply keeps_winWrite

theorem keeps_execBatchSteering {z : State} {ctx recordAddr : Nat} {s : State} (h_s : Keeps z s) :
    KeepsNext z (execBatchSteering ctx recordAddr s) := by
  unfold execBatchSteering
  repeat' with_reducible first
    | assumption | apply KeepsNext.next | apply KeepsNext.notNow | apply keeps_steerEffect | apply keeps_modCtx
    | intro _ _ _ _ _ _ _ | intro _ _ _ | intro _ _ | intro _ | split

end Sys2Proof.Machine
end

