-- ==== Sys2Proof/Laws/KeepsEnergy.lean ====
section
/-! SUPPORT. One lemma for each operation of Machine/Energy.lean: what it keeps (Laws/Keeps.lean). -/

namespace Sys2Proof.Machine

open Sys2Proof

theorem keeps_chargeEnergy {z : State} {s : State} {linkW : Nat} (h_s : Keeps z s) :
    Keeps z (chargeEnergy s linkW) := by
  unfold chargeEnergy
  repeat' with_reducible first
    | assumption | apply Keeps.ite | intro _ _ _ _ _ _ _ | intro _ _ _ | intro _ _ | intro _ | apply Keeps.upd

theorem keeps_disownActivity {z : State} {s : State} {c : Nat} (h_s : Keeps z s) :
    Keeps z (disownActivity s c) := by
  unfold disownActivity
  repeat' with_reducible first
    | assumption | apply Keeps.ite | apply Keeps.foldl | intro _ _ _ _ _ _ _ | intro _ _ _ | intro _ _ | intro _
    | apply Keeps.upd

end Sys2Proof.Machine
end

