-- ==== Sys2Proof/Laws/KeepsImage.lean ====
section
/-! SUPPORT. One lemma for each operation of Machine/Image.lean: what it keeps (Laws/Keeps.lean). -/

namespace Sys2Proof.Machine

open Sys2Proof

theorem keeps_keepLowered {z : State} {s : State} {d : BitVec 384} {rev : Nat} (h_s : Keeps z s) :
    Keeps z (keepLowered s d rev) := by
  unfold keepLowered
  repeat' with_reducible first
    | assumption | apply Keeps.ite | intro _ _ _ _ _ _ _ | intro _ _ _ | intro _ _ | intro _ | apply Keeps.upd

theorem keeps_newRevision {z : State} {s : State} {rev : Nat} (h_s : Keeps z s) :
    Keeps z (newRevision s rev) := by
  unfold newRevision
  repeat' with_reducible first
    | assumption | apply Keeps.ite | intro _ _ _ _ _ _ _ | intro _ _ _ | intro _ _ | intro _ | apply Keeps.upd

theorem keeps_reloadCode {z : State} {s : State} {cs : List Nat} (h_s : Keeps z s) :
    Keeps z (reloadCode s cs) := by
  unfold reloadCode
  repeat' with_reducible first
    | assumption | apply keeps_keepLowered | apply Keeps.foldl | intro _ _ _ _ _ _ _ | intro _ _ _ | intro _ _
    | intro _ | split

end Sys2Proof.Machine
end

