-- ==== Sys2Proof/Laws/KeepsKeels.lean ====
section
/-! SUPPORT. One lemma for each operation of Machine/Keels.lean: what it keeps (Laws/Keeps.lean). -/

namespace Sys2Proof.Machine

open Sys2Proof

theorem keeps_storeRecord {z : State} {s : State} (h_s : Keeps z s) :
    Keeps z (storeRecord s) := by
  unfold storeRecord
  repeat' with_reducible first
    | assumption | apply Keeps.ite | apply Keeps.upd | apply Keeps.flashUpd | exact List.prefix_rfl

theorem keeps_storeAddendum {z : State} {s : State} {a : Addendum} (h_s : Keeps z s) :
    Keeps z (storeAddendum s a) := by
  unfold storeAddendum
  repeat' with_reducible first
    | assumption | apply Keeps.ite | apply Keeps.upd | apply Keeps.flashUpd | exact List.prefix_rfl

theorem keeps_writeLifetime {z : State} {s : State} {ok : Bool} (h_s : Keeps z s) :
    Keeps z (writeLifetime s ok) := by
  unfold writeLifetime
  repeat' with_reducible first
    | assumption | dsimp only | apply Keeps.ite | apply keeps_logFault | apply Keeps.upd | apply Keeps.flashUpd
    | exact List.prefix_rfl | exact List.prefix_append _ _ | split

theorem keeps_recordRetirement {z : State} {s : State} {kind place item : Nat} (h_s : Keeps z s) :
    Keeps z (recordRetirement s kind place item) := by
  unfold recordRetirement
  repeat' with_reducible first
    | assumption | apply Keeps.upd | apply Keeps.flashUpd | exact List.prefix_rfl

theorem keeps_execLifetimeWrite {z : State} {ok : Bool} {s : State} (h_s : Keeps z s) :
    KeepsNext z (execLifetimeWrite ok s) := by
  unfold execLifetimeWrite
  repeat' with_reducible first
    | assumption | apply KeepsNext.next | apply KeepsNext.notNow | apply KeepsNext.ite | apply Keeps.ite
    | apply keeps_writeLifetime

theorem keeps_execLifetimeWriteRetry {z : State} {ok : Bool} {s : State} (h_s : Keeps z s) :
    KeepsNext z (execLifetimeWriteRetry ok s) := by
  unfold execLifetimeWriteRetry
  repeat' with_reducible first
    | assumption | apply KeepsNext.next | apply KeepsNext.notNow | apply KeepsNext.ite | apply Keeps.ite
    | apply keeps_writeLifetime | split

theorem keeps_execRetirementListAppend {z : State} {s : State} (h_s : Keeps z s) :
    KeepsNext z (execRetirementListAppend s) := by
  unfold execRetirementListAppend
  repeat' with_reducible first
    | assumption | apply KeepsNext.next | apply KeepsNext.notNow | apply KeepsNext.ite | apply Keeps.ite
    | apply keeps_logFault | dsimp only | split | apply Keeps.upd | apply Keeps.flashUpd | exact List.prefix_rfl
    | exact List.prefix_append _ _

theorem keeps_enterHold {z : State} {s : State} (h_s : Keeps z s) :
    Keeps z (enterHold s) := by
  unfold enterHold
  repeat' with_reducible first
    | assumption | apply Keeps.ite | apply keeps_logFault | apply keeps_deviceEvent | apply keeps_writeLifetime
    | apply keeps_emit | apply Keeps.upd

theorem keeps_failKeel {z : State} {s : State} {k votes : Nat} (h_s : Keeps z s) :
    Keeps z (failKeel s k votes) := by
  unfold failKeel
  repeat' with_reducible first
    | assumption | apply keeps_storeRecord | apply keeps_logFault | apply keeps_recordRetirement | apply Keeps.upd
    | apply Keeps.flashUpd | exact List.prefix_rfl | exact List.prefix_append _ _

theorem keeps_loseKeel {z : State} {s : State} {k votes : Nat} (h_s : Keeps z s) :
    Keeps z (loseKeel s k votes) := by
  unfold loseKeel
  repeat' with_reducible first
    | assumption | apply Keeps.ite | apply keeps_failKeel | apply keeps_enterHold | apply Keeps.upd

theorem keeps_loseStandby {z : State} {s : State} {k votes : Nat} (h_s : Keeps z s) :
    Keeps z (loseStandby s k votes) := by
  unfold loseStandby
  repeat' with_reducible first
    | assumption | apply keeps_failKeel | apply Keeps.upd

theorem keeps_newBallot {z : State} {s : State} (h_s : Keeps z s) :
    Keeps z (newBallot s) := by
  unfold newBallot
  repeat' with_reducible first
    | assumption | apply keeps_freshNat | intro _ _ _ _ _ _ _ | intro _ _ _ | intro _ _ | intro _ | apply Keeps.upd

theorem keeps_disagreement {z : State} {s : State} {v : Votes} {second : Bool} (h_s : Keeps z s) :
    Keeps z (disagreement s v second) := by
  unfold disagreement
  repeat' with_reducible first
    | assumption | apply Keeps.ite | apply keeps_enterHold | apply keeps_loseKeel | apply Keeps.foldl
    | intro _ _ _ _ _ _ _ | intro _ _ _ | intro _ _ | intro _ | split

theorem keeps_quorumAct {z : State} {s : State} {act : State → State} (h_s : Keeps z s) (h_act : ∀ s, Keeps z s →
    Keeps z (act s)) :
    Keeps z (quorumAct s act) := by
  unfold quorumAct
  repeat' with_reducible first
    | assumption | apply h_act | apply Keeps.ite | apply keeps_newBallot | apply keeps_disagreement

theorem keeps_countMissed {z : State} {s : State} {missing : List Nat} (h_s : Keeps z s) :
    Keeps z (countMissed s missing) := by
  unfold countMissed
  repeat' with_reducible first
    | assumption | apply Keeps.ite | intro _ _ _ _ _ _ _ | intro _ _ _ | intro _ _ | intro _ | apply Keeps.upd

theorem keeps_execKeelHeartbeat {z : State} {missing against : List Nat} {s : State} (h_s : Keeps z s) :
    KeepsNext z (execKeelHeartbeat missing against s) := by
  unfold execKeelHeartbeat
  repeat' with_reducible first
    | assumption | apply KeepsNext.next | apply KeepsNext.notNow | apply KeepsNext.ite | apply Keeps.ite
    | apply keeps_countMissed | apply keeps_loseStandby | apply keeps_loseKeel | apply Keeps.foldl
    | intro _ _ _ _ _ _ _ | intro _ _ _ | intro _ _ | intro _ | dsimp only | split

theorem keeps_joinKeel {z : State} {s : State} {k : Nat} (h_s : Keeps z s) :
    Keeps z (joinKeel s k) := by
  unfold joinKeel
  repeat' with_reducible first
    | assumption | apply keeps_logFault | apply Keeps.upd

theorem keeps_execKeelStandbyJoin {z : State} {s : State} (h_s : Keeps z s) :
    KeepsNext z (execKeelStandbyJoin s) := by
  unfold execKeelStandbyJoin
  repeat' with_reducible first
    | assumption | apply KeepsNext.next | apply KeepsNext.notNow | apply KeepsNext.ite | apply Keeps.ite
    | apply keeps_joinKeel | split

theorem keeps_execKeelRotation {z : State} {passed : Bool} {s : State} (h_s : Keeps z s) :
    KeepsNext z (execKeelRotation passed s) := by
  unfold execKeelRotation
  repeat' with_reducible first
    | assumption | apply KeepsNext.next | apply KeepsNext.notNow | apply KeepsNext.ite | apply Keeps.ite
    | apply keeps_joinKeel | apply keeps_failKeel | dsimp only | split | apply Keeps.upd

theorem keeps_execKeelPeriodicSelfCheck {z : State} {keel : Nat} {passed : Bool} {s : State} (h_s : Keeps z s) :
    KeepsNext z (execKeelPeriodicSelfCheck keel passed s) := by
  unfold execKeelPeriodicSelfCheck
  repeat' with_reducible first
    | assumption | apply KeepsNext.next | apply KeepsNext.notNow | apply KeepsNext.ite | apply Keeps.ite
    | apply keeps_loseKeel | apply keeps_loseStandby

end Sys2Proof.Machine
end

