-- ==== Sys2Proof/Laws/KeepsPacked.lean ====
section
/-! SUPPORT. One lemma for each operation of Machine/Packed.lean: what it keeps (Laws/Keeps.lean). -/

namespace Sys2Proof.Machine

open Sys2Proof

theorem keeps_sendMove {z : State} {s : State} {fn a b n : Nat} (h_s : Keeps z s) :
    Keeps z (sendMove s fn a b n) := by
  unfold sendMove
  repeat' with_reducible first
    | assumption | apply Keeps.ite | apply keeps_sendUnitOp | apply keeps_askPeer | apply Keeps.foldl
    | intro _ _ _ _ _ _ _ | intro _ _ _ | intro _ _ | intro _ | split | apply Keeps.upd

theorem keeps_takeLines {z : State} {s : State} {fn a b n : Nat} (h_s : Keeps z s) :
    Keeps z (takeLines s fn a b n) := by
  unfold takeLines
  repeat' with_reducible first
    | assumption | apply Keeps.ite | apply keeps_freshBytes | apply keeps_devWrite | apply keeps_askPeer
    | apply Keeps.foldl | intro _ _ _ _ _ _ _ | intro _ _ _

theorem keeps_crossMove {z : State} {s : State} {fn a b n : Nat} (h_s : Keeps z s) :
    Keeps z (crossMove s fn a b n) := by
  unfold crossMove
  repeat' with_reducible first
    | assumption | apply Keeps.ite | apply keeps_sendMove | apply keeps_takeLines | apply keeps_devMove

end Sys2Proof.Machine
end

