-- ==== Sys2Proof/Laws/KeepsPool.lean ====
section
/-! SUPPORT. One lemma for each operation of Machine/Pool.lean: what it keeps (Laws/Keeps.lean). -/

namespace Sys2Proof.Machine

open Sys2Proof

theorem keeps_takeUnits {z : State} {s : State} {H u n : Nat} {x : UnitUse} (h_s : Keeps z s) :
    Keeps z (takeUnits s H u n x) := by
  unfold takeUnits
  repeat' with_reducible first
    | assumption | apply keeps_modRegion

theorem keeps_freeUnits {z : State} {s : State} {H : Nat} {p : UnitUse → Bool} (h_s : Keeps z s) :
    Keeps z (freeUnits s H p) := by
  unfold freeUnits
  repeat' with_reducible first
    | assumption | apply keeps_modRegion

theorem keeps_freeLeaving {z : State} {s : State} (h_s : Keeps z s) :
    Keeps z (freeLeaving s) := by
  unfold freeLeaving
  repeat' with_reducible first
    | assumption | intro _ _ _ _ _ _ _ | intro _ _ _ | intro _ _ | intro _ | split | apply Keeps.upd

theorem keeps_modObject {z : State} {s : State} {h : Nat} {f : PoolObject → PoolObject} (h_s : Keeps z s) :
    Keeps z (modObject s h f) := by
  unfold modObject
  repeat' with_reducible first
    | assumption | apply Keeps.ite | intro _ _ _ _ _ _ _ | intro _ _ _ | intro _ _ | intro _ | apply Keeps.upd

theorem keeps_mapObject {z : State} {s : State} {o : PoolObject} (h_s : Keeps z s) :
    Keeps z (mapObject s o) := by
  unfold mapObject
  repeat' with_reducible first
    | assumption | apply keeps_setRaw | apply Keeps.foldl | intro _ _ _ _ _ _ _ | intro _ _ _

theorem keeps_selectEvictions {z : State} {H n k : Nat} : ∀ {s : State}, Keeps z s → Keeps z (selectEvictions H n k s)
    := by
  induction k with
  | zero => intro s h; exact h
  | succ k ih =>
    intro s h
    unfold selectEvictions
    repeat' with_reducible first
      | assumption | apply Keeps.ite | apply ih | apply keeps_modObject | split

theorem keeps_selectIn {z : State} {n : Nat} {l : List Nat} : ∀ {s : State}, Keeps z s → Keeps z (selectIn n l s) := by
  induction l with
  | nil => intro s h; exact h
  | cons x r ih =>
    intro s h
    unfold selectIn
    dsimp only
    split
    · exact keeps_selectEvictions h
    · exact ih (keeps_selectEvictions h)

theorem keeps_placeLoft {z : State} {L : Nat} {s : State} {c : Nat} (h_s : Keeps z s) :
    Keeps z (placeLoft L s c) := by
  unfold placeLoft
  repeat' with_reducible first
    | assumption | apply keeps_modRegion | apply keeps_takeUnits | intro _ _ _ _ _ _ _ | intro _ _ _ | intro _ _
    | intro _ | dsimp only | split

theorem keeps_freedUnits {z : State} {s : State} (h_s : Keeps z s) :
    Keeps z (freedUnits s) := by
  unfold freedUnits
  repeat' with_reducible first
    | assumption | apply keeps_freeLeaving | apply keeps_placeLoft | apply Keeps.foldl | intro _ _ _ _ _ _ _
    | intro _ _ _

theorem keeps_seekRun {z s : State} {n : Nat} {homes : List Nat} (h : Keeps z s) : Keeps z (seekRun s n homes).2 := by
  unfold seekRun
  dsimp only
  split
  · exact keeps_freedUnits h
  · exact keeps_selectIn (keeps_freedUnits h)

theorem keeps_evict {z : State} {s : State} {o : PoolObject} (h_s : Keeps z s) :
    Keeps z (evict s o) := by
  unfold evict
  repeat' with_reducible first
    | assumption | apply Keeps.ite | apply keeps_modRegion | apply keeps_modPhys | apply keeps_mapObject
    | apply keeps_modObject | intro _ _ _ _ _ _ _ | intro _ _ _ | intro _ _ | intro _ | dsimp only | split

theorem keeps_rehome {z : State} {s : State} {o : PoolObject} (h_s : Keeps z s) :
    Keeps z (rehome s o) := by
  unfold rehome
  repeat' with_reducible first
    | assumption | apply Keeps.ite | apply keeps_modRegion | apply keeps_mapObject | apply keeps_modObject
    | intro _ _ _ _ _ _ _ | intro _ _ _ | intro _ _ | intro _ | dsimp only | split

theorem keeps_execObjectRemapBoundary {z : State} {s : State} (h_s : Keeps z s) :
    KeepsNext z (execObjectRemapBoundary s) := by
  unfold execObjectRemapBoundary
  repeat' with_reducible first
    | assumption | apply KeepsNext.next | apply KeepsNext.notNow | apply KeepsNext.ite | apply Keeps.ite
    | apply keeps_rehome | apply keeps_freedUnits | apply keeps_evict | apply Keeps.foldl

theorem keeps_dropHolds {z : State} {s : State} {c : Nat} {windows : Bool} (h_s : Keeps z s) :
    Keeps z (dropHolds s c windows) := by
  unfold dropHolds
  repeat' with_reducible first
    | assumption | apply Keeps.ite | intro _ _ _ _ _ _ _ | intro _ _ _ | intro _ _ | intro _ | apply Keeps.upd

theorem keeps_leaveSlot {z : State} {slot : Nat} {s : State} {o : PoolObject} (h_s : Keeps z s) :
    Keeps z (leaveSlot slot s o) := by
  unfold leaveSlot
  repeat' with_reducible first
    | assumption | apply Keeps.ite | apply keeps_modObject | apply keeps_takeUnits | apply keeps_devMove
    | apply keeps_ctxEvent | intro _ _ _ _ _ _ _ | intro _ _ _ | intro _ _ | intro _ | dsimp only | split

theorem keeps_moveRun {z : State} {s : State} {L tag : Nat} {h : Option (Nat × Nat)} (h_s : Keeps z s) :
    Keeps z (moveRun s L tag h) := by
  unfold moveRun
  repeat' with_reducible first
    | assumption | apply Keeps.ite | apply keeps_modRegion

theorem keeps_leaveRun {z : State} {slot : Nat} {s : State} {x : Nat × WinchEntry} (h_s : Keeps z s) :
    Keeps z (leaveRun slot s x) := by
  unfold leaveRun
  repeat' with_reducible first
    | assumption | apply Keeps.ite | apply keeps_modRegion | apply keeps_takeUnits | apply keeps_modObject
    | apply keeps_moveRun | apply keeps_devMove | apply keeps_ctxEvent | intro _ _ _ _ _ _ _ | intro _ _ _ | intro _ _
    | intro _ | dsimp only | split

theorem keeps_emptySlot {z : State} {s : State} {slot : Nat} (h_s : Keeps z s) :
    Keeps z (emptySlot s slot) := by
  unfold emptySlot
  repeat' with_reducible first
    | assumption | apply keeps_leaveSlot | apply keeps_leaveRun | apply Keeps.foldl

end Sys2Proof.Machine
end

