-- ==== Sys2Proof/Laws/KeepsWinch.lean ====
section
/-! SUPPORT. One lemma for each operation of Machine/Winch.lean: what it keeps (Laws/Keeps.lean). -/

namespace Sys2Proof.Machine

open Sys2Proof

theorem keeps_watchGate {z : State} {s : State} {L c : Nat} {r : WinchRec} (h_s : Keeps z s) :
    Keeps z (watchGate s L c r) := by
  unfold watchGate
  repeat' with_reducible first
    | assumption | apply keeps_addRequest | split

theorem keeps_endGate {z : State} {s : State} {L c : Nat} (h_s : Keeps z s) :
    Keeps z (endGate s L c) := by
  unfold endGate
  repeat' with_reducible first
    | assumption | apply keeps_returnCredits | apply keeps_modRegion | intro _ _ _ _ _ _ _ | intro _ _ _ | intro _ _
    | intro _ | split

theorem keeps_consumeWinch {z : State} {s : State} {L c : Nat} (h_s : Keeps z s) :
    Keeps z (consumeWinch s L c) := by
  unfold consumeWinch
  repeat' with_reducible first
    | assumption | apply keeps_unitReads | apply keeps_endGate | apply keeps_modCtxRegion | apply keeps_modRegion
    | apply keeps_writeConsumed

theorem keeps_refuseWinch {z : State} {s : State} {L c : Nat} {r : WinchRec} (h_s : Keeps z s) :
    Keeps z (refuseWinch s L c r) := by
  unfold refuseWinch
  repeat' with_reducible first
    | assumption | apply Keeps.ite | apply keeps_consumeWinch | apply keeps_endTransfer | apply keeps_modCtx
    | apply keeps_ctxEvent | apply keeps_modRegion | apply keeps_unitReport

theorem keeps_acceptWinch {z : State} {s : State} {L c : Nat} {r : WinchRec} {run : Option (Nat × Nat)} {T : Option
    Nat} (h_s : Keeps z s) :
    Keeps z (acceptWinch s L c r run T) := by
  unfold acceptWinch
  repeat' with_reducible first
    | assumption | apply Keeps.ite | apply keeps_consumeWinch | apply keeps_modCtxRegion | apply keeps_modRegion

theorem keeps_passTurn {z : State} {s : State} {L c : Nat} (h_s : Keeps z s) :
    Keeps z (passTurn s L c) := by
  unfold passTurn
  repeat' with_reducible first
    | assumption | apply keeps_modRegion

theorem keeps_reserveWinch {z : State} {s : State} {L c : Nat} {r : WinchRec} {run : Option (Nat × Nat)} (h_s : Keeps
    z s) :
    Keeps z (reserveWinch s L c r run) := by
  unfold reserveWinch
  repeat' with_reducible first
    | assumption | apply keeps_reserveRates | apply keeps_passTurn | apply keeps_takeUnits | apply keeps_acceptWinch
    | dsimp only | split

theorem keeps_execStage {z : State} {ctx region : Nat} {s : State} (h : Keeps z s) :
    KeepsNext z (execStage ctx region s) := by
  unfold execStage
  extract_lets r
  split
  · exact KeepsNext.notNow h
  split
  · exact KeepsNext.next (keeps_refuseWinch h)
  split
  · exact KeepsNext.next (keeps_passTurn (keeps_watchGate h))
  split
  · exact KeepsNext.notNow h
  next o _ =>
    split
    · exact KeepsNext.next (keeps_reserveWinch h)
    · have hs : Keeps z (seekRun s o.units (homesOf region r.home)).2 := keeps_seekRun h
      split
      next e => rw [e] at hs; exact KeepsNext.next (keeps_reserveWinch hs)
      next e => rw [e] at hs; exact KeepsNext.next (keeps_passTurn hs)

theorem keeps_execWinchCopy {z : State} {ctx region : Nat} {s : State} (h_s : Keeps z s) :
    KeepsNext z (execWinchCopy ctx region s) := by
  unfold execWinchCopy
  repeat' with_reducible first
    | assumption | apply KeepsNext.next | apply KeepsNext.notNow | apply KeepsNext.ite | apply Keeps.ite
    | apply keeps_refuseWinch | apply keeps_passTurn | apply keeps_watchGate | apply keeps_reserveWinch

theorem keeps_reportWinch {z : State} {s : State} {L tag : Nat} (h_s : Keeps z s) :
    Keeps z (reportWinch s L tag) := by
  unfold reportWinch
  repeat' with_reducible first
    | assumption | apply Keeps.ite | apply keeps_modRegion | apply keeps_unitReport | intro _ _ _ _ _ _ _
    | intro _ _ _ | intro _ _ | intro _ | dsimp only | split

theorem keeps_execWinchRelease {z : State} {ctx region : Nat} {s : State} (h_s : Keeps z s) :
    KeepsNext z (execWinchRelease ctx region s) := by
  unfold execWinchRelease
  repeat' with_reducible first
    | assumption | apply KeepsNext.next | apply KeepsNext.notNow | apply KeepsNext.ite | apply Keeps.ite
    | apply keeps_refuseWinch | apply keeps_passTurn | apply keeps_watchGate | apply keeps_acceptWinch
    | apply keeps_modObject | apply keeps_reportWinch | intro _ _ _ _ _ _ _ | intro _ _ _ | intro _ _ | intro _
    | dsimp only | split

theorem keeps_winchBytesMove {z : State} {s : State} {o : Origin} {c a b n : Nat} (h_s : Keeps z s) :
    Keeps z (winchBytesMove s o c a b n) := by
  unfold winchBytesMove
  repeat' with_reducible first
    | assumption | apply Keeps.ite | apply keeps_countAccess | apply keeps_poisonedRead | apply keeps_peerLossEvent
    | apply keeps_remotePiece | apply keeps_askPeer | apply keeps_undefinedEffect | apply keeps_crossMove
    | apply Keeps.foldl | intro _ _ _ _ _ _ _ | intro _ _ _ | intro _ _ | intro _ | dsimp only | split
    | apply Keeps.upd

theorem keeps_copyChunk {z : State} {s : State} {o : Origin} {c src dst n : Nat} (h_s : Keeps z s) :
    Keeps z (copyChunk s o c src dst n) := by
  unfold copyChunk
  repeat' with_reducible first
    | assumption | apply keeps_winchBytesMove | apply keeps_windowFault | apply keeps_unitStore | split

theorem keeps_copyChunks {z : State} {o : Origin} {c k : Nat} : ∀ {n src dst : Nat} {s : State}, Keeps z s →
    Keeps z (copyChunks o c k n src dst s) := by
  induction k with
  | zero => intro n src dst s h; exact h
  | succ k ih =>
    intro n src dst s h
    unfold copyChunks
    exact Keeps.ite h (ih (keeps_copyChunk h))

theorem keeps_packWrite {z s : State} {c dst : Nat} {o : Origin} {img : List Byte} {poison : Bool} (h : Keeps z s) :
    Keeps z (packWrite s c o dst img poison) := by
  unfold packWrite
  split
  · split
    · exact keeps_emit (s := { countAccess _ _ _ _ _ with mem := _ }) (Keeps.memUpd Memory.store_wf (keeps_countAccess
        h))
    · exact keeps_writeOut h
  · exact keeps_writeOut h

theorem keeps_packPages {z : State} {o : Origin} {c n : Nat} : ∀ {src dst : Nat} {s : State}, Keeps z s →
    Keeps z (packPages o c n src dst s) := by
  induction n with
  | zero => intro src dst s h; exact h
  | succ n ih =>
    intro src dst s h
    unfold packPages
    exact ih (keeps_packWrite (keeps_unitReads h))

theorem keeps_unpackPages {z : State} {o : Origin} {c n : Nat} : ∀ {src dst : Nat} {s : State}, Keeps z s →
    Keeps z (unpackPages o c n src dst s) := by
  induction n with
  | zero => intro src dst s h; exact h
  | succ n ih =>
    intro src dst s h
    unfold unpackPages
    dsimp only
    apply ih
    split
    · exact keeps_writeOut (keeps_unitReads h)
    · exact keeps_writeOut (keeps_freshBytes (keeps_unitReads h))

theorem keeps_stageBytes {z : State} {s : State} {o : Origin} {c w a b n : Nat} (h_s : Keeps z s) :
    Keeps z (stageBytes s o c w a b n) := by
  unfold stageBytes
  repeat' with_reducible first
    | assumption | apply Keeps.ite | apply keeps_unitStore | apply keeps_windowFault | apply keeps_winchBytesMove

theorem keeps_winchMove {z : State} {s : State} {L : Nat} {e : WinchEntry} (h_s : Keeps z s) :
    Keeps z (winchMove s L e) := by
  unfold winchMove
  repeat' with_reducible first
    | assumption | apply Keeps.ite | apply keeps_underWindows | apply keeps_stageBytes | apply keeps_packPages
    | apply keeps_unpackPages | apply keeps_copyChunks | intro _ _ _ _ _ _ _ | intro _ _ _ | intro _ _ | intro _
    | dsimp only | split

theorem keeps_dropWinch {z : State} {s : State} {L : Nat} {e : WinchEntry} (h_s : Keeps z s) :
    Keeps z (dropWinch s L e) := by
  unfold dropWinch
  repeat' with_reducible first
    | assumption | apply keeps_endTransfer | apply keeps_modRegion

theorem keeps_finishWinch {z : State} {s : State} {L : Nat} {e : WinchEntry} (h_s : Keeps z s) :
    Keeps z (finishWinch s L e) := by
  unfold finishWinch
  repeat' with_reducible first
    | assumption | apply Keeps.ite | apply keeps_modObject | apply keeps_reportWinch | apply keeps_endTransfer
    | intro _ _ _ _ _ _ _ | intro _ _ _ | intro _ _ | intro _ | dsimp only | split

theorem keeps_movedWinch {z : State} {s : State} {L : Nat} {e : WinchEntry} (h_s : Keeps z s) :
    Keeps z (movedWinch s L e) := by
  unfold movedWinch
  repeat' with_reducible first
    | assumption | apply Keeps.ite | apply keeps_winchMove | apply keeps_finishWinch | apply keeps_modObject
    | apply keeps_modRegion | intro _ _ _ _ _ _ _ | intro _ _ _ | intro _ _ | intro _ | dsimp only | split

theorem keeps_execWinchEntryComplete {z : State} {region entry : Nat} {s : State} (h_s : Keeps z s) :
    KeepsNext z (execWinchEntryComplete region entry s) := by
  unfold execWinchEntryComplete
  repeat' with_reducible first
    | assumption | apply KeepsNext.next | apply KeepsNext.notNow | apply KeepsNext.ite | apply Keeps.ite
    | apply keeps_movedWinch | apply keeps_finishWinch | intro _ _ _ _ _ _ _ | intro _ _ _ | intro _ _ | intro _
    | split

end Sys2Proof.Machine
end

