-- ==== Sys2Proof/Laws/KeepsQueues.lean ====
section
/-! SUPPORT. One lemma for each operation of Machine/Queues.lean: what it keeps (Laws/Keeps.lean). -/

namespace Sys2Proof.Machine

open Sys2Proof

theorem keeps_flushVectors {z : State} {s : State} {f : Nat} (h_s : Keeps z s) :
    Keeps z (flushVectors s f) := by
  unfold flushVectors
  repeat' with_reducible first
    | assumption | apply keeps_modCfg | apply keeps_emit | apply Keeps.foldl | intro _ _ _ _ _ _ _ | intro _ _ _

theorem keeps_deny {z : State} {s : State} {f : Nat} (h_s : Keeps z s) :
    Keeps z (deny s f) := by
  unfold deny
  repeat' with_reducible first
    | assumption | apply keeps_modFn

theorem keeps_setCmd {z s : State} {c : Cmd} (h : Keeps z s) : Keeps z (setCmd s c) := by
  refine Keeps.listUpd id id (freshIds_map ?_) id h
  intro x
  split
  · next e => exact e.symm
  · rfl

theorem keeps_endCmd {z : State} {s : State} {c : Cmd} {status detail result : Nat} (h_s : Keeps z s) :
    Keeps z (endCmd s c status detail result) := by
  unfold endCmd
  repeat' with_reducible first
    | assumption | apply keeps_setCmd

theorem keeps_fetchEntry {z : State} {s : State} {f q : Nat} (h_s : Keeps z s) :
    Keeps z (fetchEntry s f q) := by
  unfold fetchEntry
  repeat' with_reducible first
    | assumption | exact id | exact freshIds_filter | exact freshIds_add rfl | apply keeps_modQueue
    | intro _ _ _ _ _ _ _ | intro _ _ _ | intro _ _ | intro _ | apply Keeps.upd | apply Keeps.listUpd

theorem keeps_commandBreak {z : State} {s : State} {x : Nat × Nat} (h_s : Keeps z s) :
    Keeps z (commandBreak s x) := by
  unfold commandBreak
  repeat' with_reducible first
    | assumption | apply Keeps.ite | apply keeps_setRaw | apply keeps_w1cEvent | apply keeps_beginBreak

theorem keeps_freezeCopy {z : State} {s : State} {c : Cmd} (h_s : Keeps z s) :
    Keeps z (freezeCopy s c) := by
  unfold freezeCopy
  repeat' with_reducible first
    | assumption | apply Keeps.ite | apply keeps_modFn

theorem keeps_markApply {z : State} {s : State} {c : Cmd} {status : Nat} (h_s : Keeps z s) :
    Keeps z (markApply s c status) := by
  unfold markApply
  repeat' with_reducible first
    | assumption | apply Keeps.ite | apply keeps_modFn

theorem keeps_acceptCmd {z : State} {s : State} {c : Cmd} {number : Nat} (h_s : Keeps z s) :
    Keeps z (acceptCmd s c number) := by
  unfold acceptCmd
  repeat' with_reducible first
    | assumption | apply keeps_modQueue | apply keeps_endCmd | apply keeps_markApply | apply keeps_freezeCopy
    | apply keeps_setCmd | intro _ _ _ _ _ _ _ | intro _ _ _ | intro _ _ | intro _ | dsimp only | split
    | apply Keeps.upd

theorem keeps_tryAccept {z : State} {s : State} {c : Cmd} {v : Votes} (h_s : Keeps z s) :
    Keeps z (tryAccept s c v) := by
  unfold tryAccept
  repeat' with_reducible first
    | assumption | apply Keeps.ite | apply keeps_disagreement | apply keeps_setCmd | apply keeps_acceptCmd
    | apply keeps_commandBreak | apply Keeps.foldl | dsimp only | split

theorem keeps_execCommandAccept {z : State} {fn queue : Nat} {v : Votes} {s : State} (h_s : Keeps z s) :
    KeepsNext z (execCommandAccept fn queue v s) := by
  unfold execCommandAccept
  repeat' with_reducible first
    | assumption | apply KeepsNext.next | apply KeepsNext.notNow | apply KeepsNext.ite | apply Keeps.ite
    | apply keeps_fetchEntry | apply keeps_tryAccept | dsimp only | split | apply Keeps.upd

theorem keeps_commandMiss {z : State} {s : State} {c : Cmd} (h_s : Keeps z s) :
    Keeps z (commandMiss s c) := by
  unfold commandMiss
  repeat' with_reducible first
    | assumption | apply keeps_limited | apply keeps_logFault | apply keeps_postEvent | intro _ _ _ _ _ _ _
    | intro _ _ _ | intro _ _

theorem keeps_chargeWork {z s t : State} {id : Nat} (_ : Keeps z s) (h : Keeps z t) :
    Keeps z (chargeWork s t id) := by
  unfold chargeWork
  refine Keeps.listUpd (fun a => a) (fun a => a) (freshIds_map ?_) (fun a => a) h
  intro x
  split <;> rfl

theorem keeps_endCmdTransfers {z : State} {s : State} {id : Nat} (h_s : Keeps z s) :
    Keeps z (endCmdTransfers s id) := by
  unfold endCmdTransfers
  repeat' with_reducible first
    | assumption | exact id | exact freshIds_filter | exact freshIds_add rfl | apply keeps_copyCmd
    | intro _ _ _ _ _ _ _ | intro _ _ _ | intro _ _ | intro _ | split | apply Keeps.upd | apply Keeps.listUpd

theorem keeps_execCommandCompletion {z : State} {cmd : Nat} {s : State} (h_s : Keeps z s) :
    KeepsNext z (execCommandCompletion cmd s) := by
  unfold execCommandCompletion
  repeat' with_reducible first
    | assumption | exact id | exact freshIds_filter | exact freshIds_add rfl | apply KeepsNext.next
    | apply KeepsNext.notNow | apply KeepsNext.ite | apply Keeps.ite | apply keeps_commandMiss
    | apply keeps_postRecord | apply keeps_endCmdTransfers | intro _ _ _ _ _ _ _ | intro _ _ _ | intro _ _ | intro _
    | dsimp only | split | apply Keeps.upd | apply Keeps.listUpd

theorem keeps_itemRecord {z : State} {s : State} {f q kind index accepted : Nat} (h_s : Keeps z s) :
    Keeps z (itemRecord s f q kind index accepted) := by
  unfold itemRecord
  repeat' with_reducible first
    | assumption | apply keeps_postRecord

theorem keeps_execCompletionPost {z : State} {fn queue : Nat} {s : State} (h_s : Keeps z s) :
    KeepsNext z (execCompletionPost fn queue s) := by
  unfold execCompletionPost
  repeat' with_reducible first
    | assumption | apply KeepsNext.next | apply KeepsNext.notNow | apply KeepsNext.ite | apply Keeps.ite
    | apply keeps_hostWrite | apply keeps_modQueue | apply keeps_signalVector | intro _ _ _ _ _ _ _ | intro _ _ _
    | intro _ _ | intro _ | dsimp only | split | apply Keeps.upd

theorem keeps_hostStores {z : State} {s : State} {port : Nat} {host : List (Nat × Byte)} (h_s : Keeps z s) :
    Keeps z (hostStores s port host) := by
  unfold hostStores
  repeat' with_reducible first
    | assumption | exact Memory.store_wf | apply Keeps.foldl | intro _ _ _ _ _ _ _ | intro _ _ _ | intro _ _ | intro _
    | apply Keeps.upd | apply Keeps.memUpd

theorem keeps_execSqTail {z : State} {fn queue : Nat} {value : Word} {port : Nat} {host : List (Nat × Byte)} {s :
    State} (h_s : Keeps z s) :
    KeepsNext z (execSqTail fn queue value port host s) := by
  unfold execSqTail
  repeat' with_reducible first
    | assumption | apply KeepsNext.next | apply KeepsNext.ite | apply Keeps.ite | apply keeps_hostStores
    | apply keeps_deny | apply keeps_modQueue

theorem keeps_execCqHead {z : State} {fn queue : Nat} {value : Word} {port : Nat} {s : State} (h_s : Keeps z s) :
    KeepsNext z (execCqHead fn queue value port s) := by
  unfold execCqHead
  repeat' with_reducible first
    | assumption | apply KeepsNext.next | apply KeepsNext.ite | apply Keeps.ite | apply keeps_deny
    | apply keeps_modQueue

theorem keeps_postNotice {z : State} {s : State} {f q : Nat} (h_s : Keeps z s) :
    Keeps z (postNotice s f q) := by
  unfold postNotice
  repeat' with_reducible first
    | assumption | apply Keeps.ite | apply keeps_postEvent | split | apply Keeps.upd

theorem keeps_writeQctl {z : State} {s : State} {f q v : Nat} (h_s : Keeps z s) :
    Keeps z (writeQctl s f q v) := by
  unfold writeQctl
  repeat' with_reducible first
    | assumption | exact id | exact freshIds_filter | exact freshIds_add rfl | apply Keeps.ite | apply keeps_modQueue
    | apply keeps_postNotice | intro _ _ _ _ _ _ _ | intro _ _ _ | intro _ _ | intro _ | apply Keeps.upd
    | apply Keeps.listUpd

theorem keeps_execQctl {z : State} {fn queue : Nat} {value : DWord} {s : State} (h_s : Keeps z s) :
    KeepsNext z (execQctl fn queue value s) := by
  unfold execQctl
  repeat' with_reducible first
    | assumption | apply KeepsNext.next | apply KeepsNext.notNow | apply KeepsNext.ite | apply Keeps.ite
    | apply keeps_writeQctl

end Sys2Proof.Machine
end

