-- ==== Sys2Proof/Laws/KeepsTensor.lean ====
section
/-! SUPPORT. One lemma for each operation of Machine/Tensor.lean: what it keeps (Laws/Keeps.lean). -/

namespace Sys2Proof.Machine

open Sys2Proof

theorem keeps_tensorWord {z : State} {i : Instr} {t : ThreadId} {k : Common} {f : State → State} {s : State} (h_f : ∀
    s, Keeps z s → Keeps z (f s)) (h_s : Keeps z s) :
    KeepsNext z (tensorWord i t k f s) := by
  unfold tensorWord
  repeat' with_reducible first
    | assumption | apply h_f | apply KeepsNext.next | apply KeepsNext.ite | apply Keeps.ite | apply keeps_holdAt
    | apply keeps_stateWord

theorem keeps_addOp {z : State} {s : State} {q : TensorOp} (h_s : Keeps z s) :
    Keeps z (addOp s q) := by
  unfold addOp
  repeat' with_reducible first
    | assumption | exact id | exact freshIds_filter | exact freshIds_add rfl | apply Keeps.upd | apply Keeps.listUpd

theorem keeps_execTwait {z : State} {t : ThreadId} {k : Common} {o : IArgs} {s : State} (h_s : Keeps z s) :
    KeepsNext z (execTwait t k o s) := by
  unfold execTwait
  repeat' with_reducible first
    | assumption | apply KeepsNext.ite | apply Keeps.ite | apply keeps_stateWord | apply keeps_modThread
    | intro _ _ _ _ _ _ _ | intro _ _ _ | intro _ _

theorem keeps_execTcopy {z : State} {t : ThreadId} {k : Common} {o : TArgs} {s : State} (h_s : Keeps z s) :
    KeepsNext z (execTcopy t k o s) := by
  unfold execTcopy
  repeat' with_reducible first
    | assumption | apply keeps_tensorWord | apply keeps_addOp | intro _ _ _ _ _ _ _ | intro _ _ _ | intro _ _

theorem keeps_execTscadd {z : State} {t : ThreadId} {k : Common} {o : TArgs} {s : State} (h_s : Keeps z s) :
    KeepsNext z (execTscadd t k o s) := by
  unfold execTscadd
  repeat' with_reducible first
    | assumption | apply keeps_tensorWord | apply keeps_addOp | intro _ _ _ _ _ _ _ | intro _ _ _ | intro _ _

theorem keeps_startMaxabs {z : State} {t : ThreadId} {o : TArgs} {s : State} (h_s : Keeps z s) :
    Keeps z (startMaxabs t o s) := by
  unfold startMaxabs
  repeat' with_reducible first
    | assumption | apply Keeps.ite | apply keeps_modThread | apply keeps_addOp

theorem keeps_execTmaxabs {z : State} {t : ThreadId} {k : Common} {o : TArgs} {s : State} (h_s : Keeps z s) :
    KeepsNext z (execTmaxabs t k o s) := by
  unfold execTmaxabs
  repeat' with_reducible first
    | assumption | apply keeps_stateWord | apply keeps_startMaxabs

theorem keeps_taint {z s : State} {l : List Nat} (h : Keeps z s) : Keeps z (taint s l) := by
  refine Keeps.listUpd id (freshIds_map ?_) id id h
  intro x
  split <;> rfl

theorem keeps_addFlags {z : State} {s : State} {c n : Nat} (h_s : Keeps z s) :
    Keeps z (addFlags s c n) := by
  unfold addFlags
  repeat' with_reducible first
    | assumption | apply keeps_modCtx

theorem keeps_putRow {z : State} {s : State} {c g : Nat} {t : Tensor} {r i2 i3 : Nat} {es : List Nat} {scales : Option
    (List Byte)} (h_s : Keeps z s) :
    Keeps z (putRow s c g t r i2 i3 es scales) := by
  unfold putRow
  repeat' with_reducible first
    | assumption | apply keeps_writeSpans | dsimp only | split

theorem keeps_copyRow {z : State} {q : TensorOp} {o : TArgs} {a b : Operand} {P seed : Nat} {r1 r2 : Option Nat} {pos
    : Nat × Nat × Nat} {s : State} (h_s : Keeps z s) :
    Keeps z (copyRow q o a b P seed r1 r2 pos s) := by
  unfold copyRow
  repeat' with_reducible first
    | assumption | apply Keeps.ite | apply keeps_writeSpans | apply keeps_markSpans | apply keeps_addFlags
    | apply keeps_putRow | intro _ _ _ _ _ _ _ | intro _ _ _ | intro _ _ | intro _ | dsimp only | split

theorem keeps_scaddRow {z : State} {q : TensorOp} {o : TArgs} {a b : Operand} {P seed : Nat} {r1 r2 : Option Nat} {pos
    : Nat × Nat × Nat} {s : State} (h_s : Keeps z s) :
    Keeps z (scaddRow q o a b P seed r1 r2 pos s) := by
  unfold scaddRow
  repeat' with_reducible first
    | assumption | apply Keeps.ite | apply keeps_markSpans | apply keeps_addFlags | apply keeps_putRow
    | intro _ _ _ _ _ _ _ | intro _ _ _ | intro _ _ | intro _ | dsimp only | split

theorem keeps_eachRow {z : State} {q : TensorOp} {a b : Operand} {P : Nat}
    {f : Option Nat → Option Nat → Nat × Nat × Nat → State → State} {s : State}
    (hf : ∀ x y p s, Keeps z s → Keeps z (f x y p s)) (h : Keeps z s) : Keeps z (eachRow q a b P f s) :=
  Keeps.foldl (fun _ _ hs => hf _ _ _ _ hs) h

theorem keeps_copyEffect {z : State} {q : TensorOp} {a b : Operand}
    {f : Nat → Nat → Option Nat → Option Nat → Nat × Nat × Nat → State → State} {s : State}
    (hf : ∀ P n x y p s, Keeps z s → Keeps z (f P n x y p s)) (h : Keeps z s) : Keeps z (copyEffect q a b f s) :=
  (keeps_eachRow (hf _ _) (keeps_markRows (keeps_markOperand h))).upd

theorem keeps_tcopyEffect {z : State} {q : TensorOp} {o : TArgs} {s : State} (h_s : Keeps z s) :
    Keeps z (tcopyEffect q o s) := by
  unfold tcopyEffect
  repeat' with_reducible first
    | assumption | intro _ _ _ _ _ _ _ | apply Keeps.ite | apply keeps_undefinedEffect | apply keeps_copyEffect
    | apply keeps_copyRow | split

theorem keeps_tscaddEffect {z : State} {q : TensorOp} {o : TArgs} {s : State} (h_s : Keeps z s) :
    Keeps z (tscaddEffect q o s) := by
  unfold tscaddEffect
  repeat' with_reducible first
    | assumption | intro _ _ _ _ _ _ _ | apply Keeps.ite | apply keeps_undefinedEffect | apply keeps_copyEffect
    | apply keeps_scaddRow | split

theorem keeps_tmaxabsEffect {z : State} {q : TensorOp} {o : TArgs} {s : State} (h_s : Keeps z s) :
    Keeps z (tmaxabsEffect q o s) := by
  unfold tmaxabsEffect
  repeat' with_reducible first
    | assumption | apply Keeps.ite | apply keeps_modThread | apply keeps_undefinedEffect | apply keeps_markOperand
    | intro _ _ _ _ _ _ _ | intro _ _ _ | intro _ _ | intro _ | split

theorem keeps_tensorWake {z : State} {s : State} {t : ThreadId} {id : Nat} (h_s : Keeps z s) :
    Keeps z (tensorWake s t id) := by
  unfold tensorWake
  repeat' with_reducible first
    | assumption | apply Keeps.ite | apply keeps_wake | split

theorem keeps_countSpans {z : State} {s : State} {q : TensorOp} {l : List (Nat × Nat)} (h_s : Keeps z s) :
    Keeps z (countSpans s q l) := by
  unfold countSpans
  repeat' with_reducible first
    | assumption | apply keeps_countAccess | apply Keeps.foldl | intro _ _ _ _ _ _ _ | intro _ _ _

theorem keeps_completeOp {z : State} {s : State} {q : TensorOp} {eff : State → State} (h_s : Keeps z s) (h_eff : ∀ s,
    Keeps z s → Keeps z (eff s)) :
    Keeps z (completeOp s q eff) := by
  unfold completeOp
  repeat' with_reducible first
    | assumption | apply h_eff | exact id | exact freshIds_filter | exact freshIds_add rfl | apply Keeps.ite
    | apply keeps_taint | apply keeps_undefinedEffect | apply keeps_tensorWake | intro _ _ _ _ _ _ _ | intro _ _ _
    | intro _ _ | intro _ | apply Keeps.upd | apply Keeps.listUpd

theorem keeps_execTensorOpComplete {z : State} {op : Nat} {s : State} (h_s : Keeps z s) :
    KeepsNext z (execTensorOpComplete op s) := by
  unfold execTensorOpComplete
  repeat' with_reducible first
    | assumption | apply KeepsNext.next | apply KeepsNext.notNow | apply KeepsNext.ite | apply Keeps.ite
    | apply keeps_countSpans | apply keeps_underWindows | apply keeps_completeOp | apply keeps_tcopyEffect
    | apply keeps_tscaddEffect | apply keeps_tmaxabsEffect | intro _ _ _ _ _ _ _ | intro _ _ _ | intro _ _ | intro _
    | dsimp only | split

end Sys2Proof.Machine
end

