-- ==== Sys2Proof/Laws/KeepsSpars.lean ====
section
/-! SUPPORT. One lemma for each operation of Machine/Spars.lean: what it keeps (Laws/Keeps.lean). -/

namespace Sys2Proof.Machine

open Sys2Proof

theorem keeps_presentNext {z : State} {s : State} {L cell : Nat} (h_s : Keeps z s) :
    Keeps z (presentNext s L cell) := by
  unfold presentNext
  repeat' with_reducible first
    | assumption | apply Keeps.ite | apply keeps_setOp | intro _ _ _ _ _ _ _ | intro _ _ _ | intro _ _ | intro _
    | dsimp only | split

theorem keeps_startMma {z : State} {t : ThreadId} {k : Common} {o : MArgs} {s : State} (h_s : Keeps z s) :
    Keeps z (startMma t k o s) := by
  unfold startMma
  repeat' with_reducible first
    | assumption | apply keeps_presentNext | apply keeps_addOp

theorem keeps_execMma {z : State} {t : ThreadId} {k : Common} {o : MArgs} {s : State} (h_s : Keeps z s) :
    KeepsNext z (execMma t k o s) := by
  unfold execMma
  repeat' with_reducible first
    | assumption | exact KeepsNext.refused | apply KeepsNext.ite | apply Keeps.ite | apply keeps_tensorWord
    | apply keeps_startMma

theorem keeps_modBlock {z : State} {s : State} {L b : Nat} {f : BlockState → BlockState} (h_s : Keeps z s) :
    Keeps z (modBlock s L b f) := by
  unfold modBlock
  repeat' with_reducible first
    | assumption | apply keeps_modRegion

theorem keeps_countRigWait {z : State} {s : State} {q : TensorOp} {since : Nat} (h_s : Keeps z s) :
    Keeps z (countRigWait s q since) := by
  unfold countRigWait
  repeat' with_reducible first
    | assumption | apply keeps_modBlock | apply keeps_addStall | intro _ _ _ _ _ _ _ | intro _ _ _ | intro _ _
    | intro _ | dsimp only | split

theorem keeps_withdrawWait {z : State} {s : State} {q : TensorOp} (h_s : Keeps z s) :
    Keeps z (withdrawWait s q) := by
  unfold withdrawWait
  repeat' with_reducible first
    | assumption | apply keeps_countRigWait | split

theorem keeps_dropOps {z : State} {s : State} {p : TensorOp → Bool} (h_s : Keeps z s) :
    Keeps z (dropOps s p) := by
  unfold dropOps
  repeat' with_reducible first
    | assumption | exact id | exact freshIds_filter | exact freshIds_add rfl | apply keeps_withdrawWait
    | apply Keeps.foldl | intro _ _ _ _ _ _ _ | intro _ _ _ | intro _ _ | intro _ | apply Keeps.upd
    | apply Keeps.listUpd

theorem keeps_countPattern {z : State} {s : State} {c n : Nat} (h_s : Keeps z s) :
    Keeps z (countPattern s c n) := by
  unfold countPattern
  repeat' with_reducible first
    | assumption | apply Keeps.ite | apply keeps_ctxEventOnce | apply keeps_modCtx

theorem keeps_predictorUpdate {z : State} {s : State} {q : TensorOp} {o : MArgs} {tag : BitVec 12} {fmt N : Nat} (h_s
    : Keeps z s) :
    Keeps z (predictorUpdate s q o tag fmt N) := by
  unfold predictorUpdate
  repeat' with_reducible first
    | assumption | apply Keeps.ite | apply keeps_modCtx | apply keeps_modBlock

theorem keeps_grantCounts {z : State} {s : State} {q : TensorOp} (h_s : Keeps z s) :
    Keeps z (grantCounts s q) := by
  unfold grantCounts
  repeat' with_reducible first
    | assumption | apply Keeps.ite | apply keeps_modCtx | apply keeps_countPattern | intro _ _ _ _ _ _ _ | intro _ _ _
    | intro _ _ | intro _ | dsimp only | split

theorem keeps_execMmaGrant {z : State} {op : Nat} {s : State} (h_s : Keeps z s) :
    KeepsNext z (execMmaGrant op s) := by
  unfold execMmaGrant
  repeat' with_reducible first
    | assumption | apply KeepsNext.next | apply KeepsNext.notNow | apply KeepsNext.ite | apply Keeps.ite
    | apply keeps_countRigWait | apply keeps_setOp | apply keeps_grantCounts | apply keeps_issueFeeds
    | apply keeps_presentNext | dsimp only | split

theorem keeps_mmaEffect {z : State} {q : TensorOp} {o : MArgs} {tag : BitVec 12} {s : State} (h_s : Keeps z s) :
    Keeps z (mmaEffect q o tag s) := by
  unfold mmaEffect
  repeat' with_reducible first
    | assumption | apply keeps_undefinedEffect | apply keeps_predictorUpdate | apply keeps_addIndexFaults | split

theorem keeps_countMma {z : State} {s : State} {q : TensorOp} {o : MArgs} (h_s : Keeps z s) :
    Keeps z (countMma s q o) := by
  unfold countMma
  repeat' with_reducible first
    | assumption | apply Keeps.ite | apply keeps_countAct | apply keeps_addStall | dsimp only | split

theorem keeps_startFollow {z s : State} {h : TensorOp} (hs : Keeps z s) : Keeps z (startFollow s h) := by
  unfold startFollow
  split
  · refine Keeps.listUpd id (freshIds_map fun q => ?_) id id hs
    split
    · split <;> rfl
    · rfl
  · exact hs

theorem keeps_execMmaComplete {z : State} {op : Nat} {s : State} (h_s : Keeps z s) :
    KeepsNext z (execMmaComplete op s) := by
  unfold execMmaComplete
  repeat' with_reducible first
    | assumption | apply KeepsNext.next | apply KeepsNext.notNow | apply KeepsNext.ite | apply Keeps.ite
    | apply keeps_completeOp | apply keeps_startFollow | apply keeps_countMma | apply keeps_mmaEffect | split

end Sys2Proof.Machine
end

