-- ==== Sys2Proof/Laws/KeepsContexts.lean ====
section
/-! SUPPORT. One lemma for each operation of Machine/Contexts.lean: what it keeps (Laws/Keeps.lean). -/

namespace Sys2Proof.Machine

open Sys2Proof

theorem keeps_atCmd {z s : State} {cmd op : Nat} {f : Cmd → State} (h : Keeps z s) (hf : ∀ c, Keeps z (f c)) :
    KeepsNext z (atCmd s cmd op f) := by
  unfold atCmd
  split
  · exact KeepsNext.next (keeps_chargeWork h (hf _))
  · exact KeepsNext.notNow h

theorem keeps_execNopCommand {z : State} {cmd : Nat} {s : State} (h_s : Keeps z s) :
    KeepsNext z (execNopCommand cmd s) := by
  unfold execNopCommand
  repeat' with_reducible first
    | assumption | apply keeps_atCmd | apply keeps_endCmd | intro _ _ _ _ _ _ _ | intro _ _ _ | intro _ _ | intro _

theorem keeps_clearBlock {z : State} {s : State} {ctx : Nat} (h_s : Keeps z s) :
    Keeps z (clearBlock s ctx) := by
  unfold clearBlock
  repeat' with_reducible first
    | assumption | intro _ _ _ _ _ _ _ | intro _ _ _ | intro _ _ | intro _ | apply Keeps.upd

theorem keeps_createCtx {z : State} {s : State} {c : Cmd} (h_s : Keeps z s) :
    Keeps z (createCtx s c) := by
  unfold createCtx
  repeat' with_reducible first
    | assumption | apply keeps_endCmd | apply keeps_setCtx | apply keeps_clearBlock | apply keeps_disownActivity
    | dsimp only | split

theorem keeps_execCreate {z : State} {cmd : Nat} {s : State} (h_s : Keeps z s) :
    KeepsNext z (execCreate cmd s) := by
  unfold execCreate
  repeat' with_reducible first
    | assumption | apply keeps_atCmd | apply keeps_createCtx | intro _ _ _ _ _ _ _ | intro _ _ _ | intro _ _ | intro _

theorem keeps_endThreads {z : State} {s : State} {ctx : Nat} (h_s : Keeps z s) :
    Keeps z (endThreads s ctx) := by
  unfold endThreads
  repeat' with_reducible first
    | assumption | apply Keeps.ite | intro _ _ _ _ _ _ _ | intro _ _ _ | intro _ _ | intro _ | apply Keeps.upd

theorem keeps_abortRequests {z : State} {s : State} {ctx f q : Nat} (h_s : Keeps z s) :
    Keeps z (abortRequests s ctx f q) := by
  unfold abortRequests
  repeat' with_reducible first
    | assumption | apply keeps_itemRecord | apply keeps_finishRequest | apply Keeps.foldl | intro _ _ _ _ _ _ _
    | intro _ _ _ | intro _ _ | intro _ | dsimp only | split

theorem keeps_stopMma {z : State} {s : State} {q : TensorOp} {o : MArgs} (h_s : Keeps z s) :
    Keeps z (stopMma s q o) := by
  unfold stopMma
  repeat' with_reducible first
    | assumption | apply Keeps.ite | apply keeps_undefinedEffect | apply keeps_winWrite | apply Keeps.foldl
    | intro _ _ _ _ _ _ _ | intro _ _ _ | intro _ _ | intro _ | dsimp only | split

theorem keeps_stopCopy {z s : State} {q : TensorOp} {formats overlap : Bool} {a b : Operand}
    {f : Nat → Nat → Option Nat → Option Nat → Nat × Nat × Nat → State → State}
    (hf : ∀ P n x y p s, Keeps z s → Keeps z (f P n x y p s)) (h : Keeps z s) :
    Keeps z (stopCopy s q formats overlap a b f) := by
  unfold stopCopy
  split
  · exact keeps_undefinedEffect h
  · refine keeps_copyEffect ?_ h
    intro P n x y p s' hs
    split
    · exact hf _ _ _ _ _ _ hs
    · exact hs

theorem keeps_stopOp {z : State} {s : State} {q : TensorOp} (h_s : Keeps z s) :
    Keeps z (stopOp s q) := by
  unfold stopOp
  repeat' with_reducible first
    | assumption | apply keeps_underWindows | apply keeps_stopMma | apply keeps_stopCopy | apply keeps_copyRow
    | apply keeps_scaddRow | intro _ _ _ _ _ _ _ | intro _ _ _ | intro _ _ | intro _ | split | apply Keeps.upd

theorem keeps_abortOps {z : State} {s : State} {ctx : Nat} (h_s : Keeps z s) :
    Keeps z (abortOps s ctx) := by
  unfold abortOps
  repeat' with_reducible first
    | assumption | apply keeps_dropOps | apply keeps_stopOp | apply Keeps.foldl

theorem keeps_dropQueued {z : State} {s : State} {L r ctx : Nat} (h_s : Keeps z s) :
    Keeps z (dropQueued s L r ctx) := by
  unfold dropQueued
  repeat' with_reducible first
    | assumption | apply Keeps.ite | apply keeps_modReel | apply keeps_endTransfer

theorem keeps_abortReel {z : State} {s : State} {L r ctx f q : Nat} (h_s : Keeps z s) :
    Keeps z (abortReel s L r ctx f q) := by
  unfold abortReel
  repeat' with_reducible first
    | assumption | apply Keeps.ite | apply keeps_underWindows | apply keeps_unitWrite | apply keeps_endTransfer
    | apply keeps_modReel | apply keeps_itemRecord | intro _ _ _ _ _ _ _ | intro _ _ _ | intro _ _ | intro _
    | dsimp only | split

theorem keeps_dropTaken {z : State} {s : State} {L ctx : Nat} (h_s : Keeps z s) :
    Keeps z (dropTaken s L ctx) := by
  unfold dropTaken
  repeat' with_reducible first
    | assumption | apply keeps_releaseVersions | apply keeps_dropGather | apply Keeps.foldl | intro _ _ _ _ _ _ _
    | intro _ _ _

theorem keeps_abortGathers {z : State} {s : State} {L ctx f q : Nat} (h_s : Keeps z s) :
    Keeps z (abortGathers s L ctx f q) := by
  unfold abortGathers
  repeat' with_reducible first
    | assumption | apply keeps_underWindows | apply keeps_unitWrite | apply keeps_itemRecord
    | apply keeps_releaseVersions | apply keeps_dropGather | apply Keeps.foldl | intro _ _ _ _ _ _ _ | intro _ _ _
    | intro _ _

theorem keeps_dropHeads {z : State} {s0 : State} {L ctx : Nat} (h_s0 : Keeps z s0) :
    Keeps z (dropHeads s0 L ctx) := by
  unfold dropHeads
  repeat' with_reducible first
    | assumption | apply keeps_endGate | apply keeps_endTransfer

theorem keeps_abortReduces {z : State} {s : State} {L ctx f q : Nat} (h_s : Keeps z s) :
    Keeps z (abortReduces s L ctx f q) := by
  unfold abortReduces
  repeat' with_reducible first
    | assumption | apply keeps_itemRecord | apply keeps_abortAndRun | apply Keeps.foldl | intro _ _ _ _ _ _ _
    | intro _ _ _ | intro _ _ | intro _ | split

theorem keeps_stopChunks {z : State} {o : Origin} {c src dst n : Nat} {s : State} (h_s : Keeps z s) :
    Keeps z (stopChunks o c src dst n s) := by
  unfold stopChunks
  repeat' with_reducible first
    | assumption | apply keeps_copyChunk | apply Keeps.foldl | intro _ _ _ _ _ _ _ | intro _ _ _

theorem keeps_stopWinch {z : State} {s0 : State} {L : Nat} {e : WinchEntry} (h_s0 : Keeps z s0) :
    Keeps z (stopWinch s0 L e) := by
  unfold stopWinch
  repeat' with_reducible first
    | assumption | apply Keeps.ite | apply keeps_underWindows | apply keeps_stageBytes | apply keeps_packPages
    | apply keeps_unpackPages | apply keeps_stopChunks | apply Keeps.foldl | intro _ _ _ _ _ _ _ | intro _ _ _
    | intro _ _ | intro _ | dsimp only | split | apply Keeps.upd

theorem keeps_giveRunBack {z : State} {s : State} {e : WinchEntry} (h_s : Keeps z s) :
    Keeps z (giveRunBack s e) := by
  unfold giveRunBack
  repeat' with_reducible first
    | assumption | apply Keeps.ite | apply keeps_modRegion | apply keeps_modObject | intro _ _ _ _ _ _ _ | intro _ _ _
    | intro _ _ | intro _ | dsimp only | split

theorem keeps_abortWinches {z : State} {s : State} {L ctx f q : Nat} (h_s : Keeps z s) :
    Keeps z (abortWinches s L ctx f q) := by
  unfold abortWinches
  repeat' with_reducible first
    | assumption | apply keeps_itemRecord | apply keeps_dropWinch | apply keeps_giveRunBack | apply keeps_stopWinch
    | apply Keeps.foldl | intro _ _ _ _ _ _ _ | intro _ _ _

theorem keeps_abortRegion {z : State} {ctx f q : Nat} {s : State} {L : Nat} (h_s : Keeps z s) :
    Keeps z (abortRegion ctx f q s L) := by
  unfold abortRegion
  repeat' with_reducible first
    | assumption | apply keeps_abortReel | apply keeps_dropQueued | apply keeps_abortGathers | apply keeps_dropTaken
    | apply keeps_abortWinches | apply keeps_abortReduces | apply keeps_dropHeads | apply keeps_modRegion
    | apply keeps_dropTasks | apply Keeps.foldl | intro _ _ _ _ _ _ _ | intro _ _ _

theorem keeps_dropPins {z : State} {s : State} {ctx : Nat} (h_s : Keeps z s) :
    Keeps z (dropPins s ctx) := by
  unfold dropPins
  repeat' with_reducible first
    | assumption | apply keeps_releaseVersions | apply Keeps.foldl | intro _ _ _ _ _ _ _ | intro _ _ _ | intro _ _
    | intro _ | apply Keeps.upd

theorem keeps_abortItems {z : State} {s : State} {ctx f q : Nat} (h_s : Keeps z s) :
    Keeps z (abortItems s ctx f q) := by
  unfold abortItems
  repeat' with_reducible first
    | assumption | apply keeps_sweepWakes | apply keeps_dropTakers | apply keeps_endThreads
    | apply keeps_abortRequests | apply keeps_abortOps | apply keeps_abortRegion | apply keeps_dropPins
    | apply keeps_dropHolds | apply Keeps.foldl

theorem keeps_dropStaged {z : State} {s : State} {ctx : Nat} (h_s : Keeps z s) :
    Keeps z (dropStaged s ctx) := by
  unfold dropStaged
  repeat' with_reducible first
    | assumption | apply keeps_modFn

theorem keeps_leaveRegion {z : State} {ctx : Nat} {s : State} {L : Nat} (h_s : Keeps z s) :
    Keeps z (leaveRegion ctx s L) := by
  unfold leaveRegion
  repeat' with_reducible first
    | assumption | apply keeps_freeUnits | apply keeps_modRegion

theorem keeps_destroyCtx {z : State} {s : State} {ctx f q : Nat} (h_s : Keeps z s) :
    Keeps z (destroyCtx s ctx f q) := by
  unfold destroyCtx
  repeat' with_reducible first
    | assumption | apply keeps_dropStaged | apply keeps_abortItems | apply keeps_disownActivity
    | apply keeps_dropHolds | apply keeps_leaveRegion | apply keeps_clearBlock | apply keeps_setCtx
    | apply Keeps.foldl | intro _ _ _ _ _ _ _ | intro _ _ _ | intro _ _ | intro _ | apply Keeps.upd

theorem keeps_destroyCmd {z : State} {s : State} {c : Cmd} (h_s : Keeps z s) :
    Keeps z (destroyCmd s c) := by
  unfold destroyCmd
  repeat' with_reducible first
    | assumption | apply keeps_endCmd | apply keeps_destroyCtx

theorem keeps_execDestroy {z : State} {cmd : Nat} {s : State} (h_s : Keeps z s) :
    KeepsNext z (execDestroy cmd s) := by
  unfold execDestroy
  repeat' with_reducible first
    | assumption | apply keeps_atCmd | apply keeps_destroyCmd | intro _ _ _ _ _ _ _ | intro _ _ _ | intro _ _
    | intro _

theorem keeps_Cmd_view {z : State} {c : Cmd} {s : State} (h_s : Keeps z s) :
    Keeps z (Cmd.view c s) := by
  unfold Cmd.view
  repeat' with_reducible first
    | assumption | apply Keeps.upd

theorem keeps_writeConstants {z : State} {s : State} {c : Cmd} {im : Image} {bs : List Byte} (h_s : Keeps z s) :
    Keeps z (writeConstants s c im bs) := by
  unfold writeConstants
  repeat' with_reducible first
    | assumption | apply keeps_devWrite | apply keeps_countAccess | split

theorem keeps_askLoad {z : State} {s : State} {c : Cmd} {im : Image} {n : Nat} (h_s : Keeps z s) :
    Keeps z (askLoad s c im n) := by
  unfold askLoad
  repeat' with_reducible first
    | assumption | apply keeps_reserveRates | apply Keeps.foldl | intro _ _ _ _ _ _ _ | intro _ _ _

theorem keeps_finishLoad {z : State} {s : State} {c : Cmd} {im : Image} {constants : List Byte} (h_s : Keeps z s) :
    Keeps z (finishLoad s c im constants) := by
  unfold finishLoad
  repeat' with_reducible first
    | assumption | apply keeps_keepLowered | apply keeps_modCtx | apply keeps_endCmd | apply keeps_endCmdTransfers
    | apply keeps_writeConstants

theorem keeps_loadCmd {z : State} {s : State} {c : Cmd} (h_s : Keeps z s) :
    Keeps z (loadCmd s c) := by
  unfold loadCmd
  repeat' with_reducible first
    | assumption | apply Keeps.ite | apply keeps_endCmd | apply keeps_step | apply keeps_endCmdTransfers
    | apply keeps_disagreement | apply keeps_newBallot | apply keeps_setCmd | apply keeps_askLoad
    | apply keeps_finishLoad | dsimp only | split

theorem keeps_execLoad {z : State} {cmd : Nat} {s : State} (h_s : Keeps z s) :
    KeepsNext z (execLoad cmd s) := by
  unfold execLoad
  repeat' with_reducible first
    | assumption | apply keeps_atCmd | apply keeps_loadCmd | intro _ _ _ _ _ _ _ | intro _ _ _ | intro _ _ | intro _

theorem keeps_launchAll {z : State} {s0 : State} {ctx : Nat} {im : Image} (h_s0 : Keeps z s0) :
    Keeps z (launchAll s0 ctx im) := by
  unfold launchAll
  repeat' with_reducible first
    | assumption | apply keeps_dropTakers | apply keeps_sweepWakes | intro _ _ _ _ _ _ _ | intro _ _ _ | intro _ _
    | intro _ | apply Keeps.upd

theorem keeps_dropTails {z : State} {s : State} {ctx : Nat} (h_s : Keeps z s) :
    Keeps z (dropTails s ctx) := by
  unfold dropTails
  repeat' with_reducible first
    | assumption | apply keeps_modSeq | apply Keeps.foldl | intro _ _ _ _ _ _ _ | intro _ _ _

theorem keeps_wakeRails {z : State} {s : State} {ctx : Nat} (h_s : Keeps z s) :
    Keeps z (wakeRails s ctx) := by
  unfold wakeRails
  repeat' with_reducible first
    | assumption | apply Keeps.ite | apply keeps_modPhys | apply Keeps.foldl | intro _ _ _ _ _ _ _ | intro _ _ _
    | intro _ _ | intro _ | split

theorem keeps_startCmd {z : State} {s : State} {c : Cmd} (h_s : Keeps z s) :
    Keeps z (startCmd s c) := by
  unfold startCmd
  repeat' with_reducible first
    | assumption | apply Keeps.ite | apply keeps_endCmd | apply keeps_modCtx | apply keeps_dropTails
    | apply keeps_launchAll | apply keeps_wakeRails | intro _ _ _ _ _ _ _ | intro _ _ _ | intro _ _ | intro _ | split

theorem keeps_execStart {z : State} {cmd : Nat} {s : State} (h_s : Keeps z s) :
    KeepsNext z (execStart cmd s) := by
  unfold execStart
  repeat' with_reducible first
    | assumption | apply keeps_atCmd | apply keeps_startCmd | intro _ _ _ _ _ _ _ | intro _ _ _ | intro _ _ | intro _

theorem keeps_pauseCmd {z : State} {s : State} {c : Cmd} (h_s : Keeps z s) :
    Keeps z (pauseCmd s c) := by
  unfold pauseCmd
  repeat' with_reducible first
    | assumption | apply Keeps.ite | apply keeps_endCmd | apply keeps_beginBreak | apply keeps_setCmd

theorem keeps_execPause {z : State} {cmd : Nat} {s : State} (h_s : Keeps z s) :
    KeepsNext z (execPause cmd s) := by
  unfold execPause
  repeat' with_reducible first
    | assumption | apply keeps_atCmd | apply keeps_pauseCmd | intro _ _ _ _ _ _ _ | intro _ _ _ | intro _ _ | intro _

theorem keeps_endPauses {z : State} {s : State} {ctx : Nat} (h_s : Keeps z s) :
    Keeps z (endPauses s ctx) := by
  unfold endPauses
  repeat' with_reducible first
    | assumption | apply keeps_endCmd | apply Keeps.foldl | intro _ _ _ _ _ _ _ | intro _ _ _

theorem keeps_execBreakStopDone {z : State} {ctx : Nat} {s : State} (h_s : Keeps z s) :
    KeepsNext z (execBreakStopDone ctx s) := by
  unfold execBreakStopDone
  repeat' with_reducible first
    | assumption | apply KeepsNext.next | apply KeepsNext.notNow | apply KeepsNext.ite | apply Keeps.ite
    | apply keeps_endPauses | apply keeps_modCtx

theorem keeps_resumeCtx {z : State} {s : State} {ctx : Nat} (h_s : Keeps z s) :
    Keeps z (resumeCtx s ctx) := by
  unfold resumeCtx
  repeat' with_reducible first
    | assumption | apply keeps_modCtx | apply keeps_serveAll | apply keeps_moveDue | apply Keeps.foldl
    | intro _ _ _ _ _ _ _ | intro _ _ _

theorem keeps_execResume {z : State} {cmd : Nat} {s : State} (h_s : Keeps z s) :
    KeepsNext z (execResume cmd s) := by
  unfold execResume
  repeat' with_reducible first
    | assumption | apply KeepsNext.ite | apply Keeps.ite | apply keeps_atCmd | apply keeps_endCmd
    | apply keeps_resumeCtx | intro _ _ _ _ _ _ _ | intro _ _ _ | intro _ _ | intro _

theorem keeps_dropWaiting {z : State} {s : State} {ctx : Nat} (h_s : Keeps z s) :
    Keeps z (dropWaiting s ctx) := by
  unfold dropWaiting
  repeat' with_reducible first
    | assumption | apply keeps_finishRequest | apply Keeps.foldl

theorem keeps_withdrawMmas {z : State} {s : State} {ctx : Nat} (h_s : Keeps z s) :
    Keeps z (withdrawMmas s ctx) := by
  unfold withdrawMmas
  repeat' with_reducible first
    | assumption | apply keeps_dropOps

theorem keeps_dropRing {z : State} {s : State} {L ctx : Nat} (h_s : Keeps z s) :
    Keeps z (dropRing s L ctx) := by
  unfold dropRing
  repeat' with_reducible first
    | assumption | apply Keeps.ite | apply keeps_writeConsumed | apply keeps_modCtxRegion

theorem keeps_drainRegion {z : State} {c : Cmd} {s : State} {L : Nat} (h_s : Keeps z s) :
    Keeps z (drainRegion c s L) := by
  unfold drainRegion
  repeat' with_reducible first
    | assumption | apply Keeps.ite | apply keeps_dropQueued | apply keeps_dropRing | apply keeps_dropHeads
    | apply keeps_dropTaken | apply keeps_modSeq | apply Keeps.foldl | intro _ _ _ _ _ _ _ | intro _ _ _

theorem keeps_disableCmd {z : State} {s : State} {c : Cmd} (h_s : Keeps z s) :
    Keeps z (disableCmd s c) := by
  unfold disableCmd
  repeat' with_reducible first
    | assumption | apply Keeps.ite | apply keeps_setCmd | apply keeps_modCtx | apply keeps_drainRegion
    | apply keeps_withdrawMmas | apply keeps_dropWaiting | apply Keeps.foldl

theorem keeps_execDisable {z : State} {cmd : Nat} {s : State} (h_s : Keeps z s) :
    KeepsNext z (execDisable cmd s) := by
  unfold execDisable
  repeat' with_reducible first
    | assumption | apply KeepsNext.next | apply KeepsNext.notNow | apply KeepsNext.ite | apply Keeps.ite
    | apply keeps_disableCmd | split

theorem keeps_endDisables {z : State} {s : State} {ctx : Nat} (h_s : Keeps z s) :
    Keeps z (endDisables s ctx) := by
  unfold endDisables
  repeat' with_reducible first
    | assumption | apply keeps_endCmd | apply Keeps.foldl | intro _ _ _ _ _ _ _ | intro _ _ _

theorem keeps_releaseCtxFlows {z : State} {s : State} {ctx : Nat} (h_s : Keeps z s) :
    Keeps z (releaseCtxFlows s ctx) := by
  unfold releaseCtxFlows
  repeat' with_reducible first
    | assumption | apply keeps_releaseFlows | apply Keeps.foldl | intro _ _ _ _ _ _ _ | intro _ _ _

theorem keeps_execDrainComplete {z : State} {ctx : Nat} {s : State} (h_s : Keeps z s) :
    KeepsNext z (execDrainComplete ctx s) := by
  unfold execDrainComplete
  repeat' with_reducible first
    | assumption | apply KeepsNext.next | apply KeepsNext.notNow | apply KeepsNext.ite | apply Keeps.ite
    | apply keeps_modCtx | apply keeps_endDisables | apply keeps_releaseCtxFlows | apply keeps_sweepWakes
    | apply keeps_dropTakers | apply keeps_endThreads

theorem keeps_execReduceDisableDeadline {z : State} {region job : Nat} {s : State} (h_s : Keeps z s) :
    KeepsNext z (execReduceDisableDeadline region job s) := by
  unfold execReduceDisableDeadline
  repeat' with_reducible first
    | assumption | apply KeepsNext.next | apply KeepsNext.notNow | apply KeepsNext.ite | apply Keeps.ite
    | apply keeps_abortAndRun | apply keeps_itemRecord | dsimp only | split

theorem keeps_discardRegion {z : State} {ctx : Nat} {s : State} {L : Nat} (h_s : Keeps z s) :
    Keeps z (discardRegion ctx s L) := by
  unfold discardRegion
  repeat' with_reducible first
    | assumption | exact Memory.eraseWhere_wf | apply Keeps.ite | intro _ _ _ _ _ _ _ | intro _ _ _ | intro _ _
    | intro _ | dsimp only | split | apply Keeps.upd | apply Keeps.memUpd

theorem keeps_forceCmd {z : State} {s : State} {c : Cmd} (h_s : Keeps z s) :
    Keeps z (forceCmd s c) := by
  unfold forceCmd
  repeat' with_reducible first
    | assumption | apply keeps_discardRegion | apply keeps_abortItems | apply keeps_modCtx | apply keeps_endCmd
    | apply keeps_endDisables | apply Keeps.foldl

theorem keeps_execDisableForce {z : State} {cmd : Nat} {s : State} (h_s : Keeps z s) :
    KeepsNext z (execDisableForce cmd s) := by
  unfold execDisableForce
  repeat' with_reducible first
    | assumption | apply KeepsNext.next | apply KeepsNext.notNow | apply KeepsNext.ite | apply Keeps.ite
    | apply keeps_forceCmd | split

end Sys2Proof.Machine
end

