-- ==== Sys2Proof/Laws/KeepsAllocs.lean ====
section
/-! SUPPORT. One lemma for each operation of Machine/Allocs.lean: what it keeps (Laws/Keeps.lean). -/

namespace Sys2Proof.Machine

open Sys2Proof

theorem keeps_giveAlloc {z : State} {s : State} {c : Cmd} {base width : Nat} (h_s : Keeps z s) :
    Keeps z (giveAlloc s c base width) := by
  unfold giveAlloc
  repeat' with_reducible first
    | assumption | apply keeps_quotaEvent | apply keeps_hostWrite | apply keeps_endCmd | apply Keeps.upd

theorem keeps_rewidth {z : State} {s : State} {base units : Nat} (h_s : Keeps z s) :
    Keeps z (rewidth s base units) := by
  unfold rewidth
  repeat' with_reducible first
    | assumption | apply keeps_updatePage | apply Keeps.foldl

theorem keeps_allocFrames {z : State} {s : State} {c : Cmd} (h_s : Keeps z s) :
    Keeps z (allocFrames s c) := by
  unfold allocFrames
  repeat' with_reducible first
    | assumption | apply Keeps.ite | apply keeps_endCmd | apply keeps_freshNat | apply keeps_rewidth
    | apply keeps_giveAlloc | dsimp only | split

theorem keeps_execAllocT2Frames {z : State} {cmd : Nat} {s : State} (h_s : Keeps z s) :
    KeepsNext z (execAllocT2Frames cmd s) := by
  unfold execAllocT2Frames
  repeat' with_reducible first
    | assumption | apply KeepsNext.next | apply KeepsNext.notNow | apply KeepsNext.ite | apply Keeps.ite
    | apply keeps_allocFrames | split

theorem keeps_allocRun {z s : State} {c : Cmd} {give : State → Nat × Nat → State} (h : Keeps z s)
    (hg : ∀ s x, Keeps z s → Keeps z (give s x)) : Keeps z (allocRun s c give) := by
  unfold allocRun
  split
  · exact keeps_endCmd h
  · have hs : Keeps z (seekRun s c.units (allocHomes s c)).2 := keeps_seekRun h
    split
    next e => rw [e] at hs; exact hg _ _ hs
    next e =>
      rw [e] at hs
      split
      · exact hs
      · exact keeps_endCmd h

theorem keeps_execAllocPinnedT1 {z : State} {cmd : Nat} {s : State} (h_s : Keeps z s) :
    KeepsNext z (execAllocPinnedT1 cmd s) := by
  unfold execAllocPinnedT1
  repeat' with_reducible first
    | assumption | apply KeepsNext.next | apply KeepsNext.notNow | apply KeepsNext.ite | apply Keeps.ite
    | apply keeps_allocRun | apply keeps_giveAlloc | apply keeps_takeUnits | intro _ _ _ _ _ _ _ | intro _ _ _
    | intro _ _ | intro _ | split

theorem keeps_execAllocObject {z : State} {cmd : Nat} {s : State} (h_s : Keeps z s) :
    KeepsNext z (execAllocObject cmd s) := by
  unfold execAllocObject
  repeat' with_reducible first
    | assumption | apply KeepsNext.next | apply KeepsNext.notNow | apply KeepsNext.ite | apply Keeps.ite
    | apply keeps_allocRun | apply keeps_takeUnits | apply keeps_giveAlloc | intro _ _ _ _ _ _ _ | intro _ _ _
    | intro _ _ | intro _ | dsimp only | split | apply Keeps.upd

theorem keeps_freeCmd {z : State} {s : State} {c : Cmd} (h_s : Keeps z s) :
    Keeps z (freeCmd s c) := by
  unfold freeCmd
  repeat' with_reducible first
    | assumption | apply Keeps.ite | apply keeps_endCmd | apply keeps_setCmd | intro _ _ _ _ _ _ _ | intro _ _ _
    | intro _ _ | intro _ | split | apply Keeps.upd

theorem keeps_execFree {z : State} {cmd : Nat} {s : State} (h_s : Keeps z s) :
    KeepsNext z (execFree cmd s) := by
  unfold execFree
  repeat' with_reducible first
    | assumption | apply keeps_atCmd | apply keeps_freeCmd | intro _ _ _ _ _ _ _ | intro _ _ _ | intro _ _ | intro _

theorem keeps_dropAreas {z : State} {s : State} {base n : Nat} (h_s : Keeps z s) :
    Keeps z (dropAreas s base n) := by
  unfold dropAreas
  repeat' with_reducible first
    | assumption | apply keeps_releaseVersions | apply Keeps.foldl | intro _ _ _ _ _ _ _ | intro _ _ _ | intro _ _
    | intro _ | dsimp only | split | apply Keeps.upd

theorem keeps_dropAlloc {z : State} {s : State} {h : Nat} (h_s : Keeps z s) :
    Keeps z (dropAlloc s h) := by
  unfold dropAlloc
  repeat' with_reducible first
    | assumption | apply Keeps.ite | apply keeps_freeUnits | apply keeps_dropAreas | apply Keeps.foldl
    | intro _ _ _ _ _ _ _ | intro _ _ _ | intro _ _ | intro _ | dsimp only | split | apply Keeps.upd

theorem keeps_lendCmd {z : State} {s : State} {c : Cmd} (h_s : Keeps z s) :
    Keeps z (lendCmd s c) := by
  unfold lendCmd
  repeat' with_reducible first
    | assumption | apply Keeps.ite | apply keeps_endCmd | apply keeps_setCmd | intro _ _ _ _ _ _ _ | intro _ _ _
    | intro _ _ | intro _ | dsimp only | split | apply Keeps.upd

theorem keeps_execLend {z : State} {cmd : Nat} {s : State} (h_s : Keeps z s) :
    KeepsNext z (execLend cmd s) := by
  unfold execLend
  repeat' with_reducible first
    | assumption | apply KeepsNext.next | apply KeepsNext.notNow | apply KeepsNext.ite | apply Keeps.ite
    | apply keeps_lendCmd | split

theorem keeps_returnCmd {z : State} {s : State} {c : Cmd} (h_s : Keeps z s) :
    Keeps z (returnCmd s c) := by
  unfold returnCmd
  repeat' with_reducible first
    | assumption | apply Keeps.ite | apply keeps_endCmd | apply keeps_setCmd | apply keeps_giveBack | dsimp only
    | split | apply Keeps.upd

theorem keeps_execReturnFrames {z : State} {cmd : Nat} {s : State} (h_s : Keeps z s) :
    KeepsNext z (execReturnFrames cmd s) := by
  unfold execReturnFrames
  repeat' with_reducible first
    | assumption | apply KeepsNext.next | apply KeepsNext.notNow | apply KeepsNext.ite | apply Keeps.ite
    | apply keeps_returnCmd | split

theorem keeps_endLater {z : State} {s : State} {cmd result : Nat} (h_s : Keeps z s) :
    Keeps z (endLater s cmd result) := by
  unfold endLater
  repeat' with_reducible first
    | assumption | apply keeps_endCmd | split

theorem keeps_takeEffect {z s : State} {e : LaterEffect} (h : Keeps z s) : Keeps z (takeEffect s e) := by
  cases e with
  | free cmd a => exact keeps_endLater (keeps_dropAlloc h)
  | lend cmd ls =>
    unfold takeEffect
    dsimp only
    have hl : Keeps z (ls.foldl (fun s l => quotaEvent s { s with loans := s.loans ++ [l] } l.fn) s) :=
      Keeps.foldl (fun _ _ k => keeps_quotaEvent k k.upd) h
    apply keeps_endLater
    split
    · exact keeps_hostWrite hl
    · exact hl
  | giveBack cmd ls => exact keeps_endLater h.upd

theorem keeps_execFreeLendTakeEffect {z : State} {s : State} (h_s : Keeps z s) :
    KeepsNext z (execFreeLendTakeEffect s) := by
  unfold execFreeLendTakeEffect
  repeat' with_reducible first
    | assumption | apply KeepsNext.next | apply KeepsNext.notNow | apply KeepsNext.ite | apply Keeps.ite
    | apply keeps_takeEffect | apply Keeps.foldl | intro _ _ _ _ _ _ _ | intro _ _ _ | intro _ _ | intro _
    | apply Keeps.upd

theorem keeps_poisonFor {z : State} {s : State} {fn ctx a n : Nat} (h_s : Keeps z s) :
    Keeps z (poisonFor s fn ctx a n) := by
  unfold poisonFor
  repeat' with_reducible first
    | assumption | apply Keeps.ite | apply keeps_poisonEvent | apply keeps_limited | apply keeps_postEvent
    | intro _ _ _ _ _ _ _ | intro _ _ _ | intro _ _ | intro _ | split

theorem keeps_peerLossFor {z : State} {s : State} {fn ctx a : Nat} (h_s : Keeps z s) :
    Keeps z (peerLossFor s fn ctx a) := by
  unfold peerLossFor
  repeat' with_reducible first
    | assumption | apply Keeps.ite | apply keeps_postEvent | apply Keeps.upd

theorem keeps_countMove {z : State} {s : State} {ctx src dst n : Nat} (h_s : Keeps z s) :
    Keeps z (countMove s ctx src dst n) := by
  unfold countMove
  repeat' with_reducible first
    | assumption | apply Keeps.ite | apply keeps_countAccess

theorem keeps_moveFor {z : State} {s0 : State} {fn ctx src dst n : Nat} (h_s0 : Keeps z s0) :
    Keeps z (moveFor s0 fn ctx src dst n) := by
  unfold moveFor
  repeat' with_reducible first
    | assumption | apply Keeps.ite | apply keeps_poisonFor | apply keeps_peerLossFor | apply keeps_countMove
    | apply keeps_freshBytes | apply keeps_devWrite | apply keeps_crossMove

theorem keeps_copyCmd {z : State} {s : State} {c : Cmd} (h_s : Keeps z s) :
    Keeps z (copyCmd s c) := by
  unfold copyCmd
  repeat' with_reducible first
    | assumption | apply keeps_endCmd | apply keeps_reserveRates | apply keeps_moveFor | dsimp only | split

theorem keeps_execCopy {z : State} {cmd : Nat} {s : State} (h_s : Keeps z s) :
    KeepsNext z (execCopy cmd s) := by
  unfold execCopy
  repeat' with_reducible first
    | assumption | apply keeps_atCmd | apply keeps_copyCmd | intro _ _ _ _ _ _ _ | intro _ _ _ | intro _ _ | intro _

theorem keeps_balanceCmd {z : State} {s : State} {c : Cmd} (h_s : Keeps z s) :
    Keeps z (balanceCmd s c) := by
  unfold balanceCmd
  repeat' with_reducible first
    | assumption | apply Keeps.ite | apply keeps_endCmd | apply keeps_hostWrite | apply keeps_modPhys
    | intro _ _ _ _ _ _ _ | intro _ _ _ | intro _ _ | intro _ | dsimp only | split

theorem keeps_execBalance {z : State} {cmd : Nat} {s : State} (h_s : Keeps z s) :
    KeepsNext z (execBalance cmd s) := by
  unfold execBalance
  repeat' with_reducible first
    | assumption | apply keeps_atCmd | apply keeps_balanceCmd | intro _ _ _ _ _ _ _ | intro _ _ _ | intro _ _
    | intro _

end Sys2Proof.Machine
end

