-- ==== Sys2Proof/Laws/KeepsStaging.lean ====
section
/-! SUPPORT. One lemma for each operation of Machine/Staging.lean: what it keeps (Laws/Keeps.lean). -/

namespace Sys2Proof.Machine

open Sys2Proof

theorem keeps_windowCmd {z : State} {s : State} {c : Cmd} (h_s : Keeps z s) :
    Keeps z (windowCmd s c) := by
  unfold windowCmd
  repeat' with_reducible first
    | assumption | apply keeps_endCmd | apply keeps_modFn | apply Keeps.foldl | intro _ _ _ _ _ _ _ | intro _ _ _
    | intro _ _ | intro _ | dsimp only | split

theorem keeps_execWindow {z : State} {cmd : Nat} {s : State} (h_s : Keeps z s) :
    KeepsNext z (execWindow cmd s) := by
  unfold execWindow
  repeat' with_reducible first
    | assumption | apply keeps_atCmd | apply keeps_windowCmd | intro _ _ _ _ _ _ _ | intro _ _ _ | intro _ _ | intro _

theorem keeps_publishCmd {z : State} {s0 : State} {c : Cmd} (h_s0 : Keeps z s0) :
    Keeps z (publishCmd s0 c) := by
  unfold publishCmd
  repeat' with_reducible first
    | assumption | apply keeps_releaseVersions | apply keeps_endCmd | apply keeps_modFn | intro _ _ _ _ _ _ _
    | intro _ _ _ | intro _ _ | intro _ | dsimp only | split | apply Keeps.upd

theorem keeps_execPublish {z : State} {cmd : Nat} {s : State} (h_s : Keeps z s) :
    KeepsNext z (execPublish cmd s) := by
  unfold execPublish
  repeat' with_reducible first
    | assumption | apply keeps_atCmd | apply keeps_publishCmd | intro _ _ _ _ _ _ _ | intro _ _ _ | intro _ _
    | intro _

theorem keeps_sendVote {z : State} {c : Cmd} {pass : Bool} {s : State} {d : Nat} (h_s : Keeps z s) :
    Keeps z (sendVote c pass s d) := by
  unfold sendVote
  repeat' with_reducible first
    | assumption | apply keeps_emit | apply keeps_freshBytes | apply keeps_sendUnitOp | dsimp only | split

theorem keeps_sendVotes {z : State} {s : State} {c : Cmd} {pass : Bool} (h_s : Keeps z s) :
    Keeps z (sendVotes s c pass) := by
  unfold sendVotes
  repeat' with_reducible first
    | assumption | apply Keeps.ite | apply keeps_sendVote | apply Keeps.foldl

theorem keeps_endApply {z : State} {s : State} {fn cmd status detail result : Nat} (h_s : Keeps z s) :
    Keeps z (endApply s fn cmd status detail result) := by
  unfold endApply
  repeat' with_reducible first
    | assumption | apply keeps_modFn | apply keeps_endCmd | intro _ _ _ _ _ _ _ | intro _ _ _ | intro _ _ | intro _
    | dsimp only | split

theorem keeps_seekLofts {z : State} {s : State} {x : StagedCopy} (h_s : Keeps z s) :
    Keeps z (seekLofts s x) := by
  unfold seekLofts
  repeat' with_reducible first
    | assumption | apply keeps_seekRun | apply Keeps.foldl | intro _ _ _ _ _ _ _ | intro _ _ _ | intro _ _ | intro _
    | split

theorem keeps_checkApply {z : State} {s : State} {c : Cmd} {fz : FrozenCopy} (h_s : Keeps z s) :
    Keeps z (checkApply s c fz) := by
  unfold checkApply
  repeat' with_reducible first
    | assumption | apply Keeps.ite | apply keeps_sendVotes | apply keeps_endApply | apply keeps_modFn
    | apply keeps_setCmd | apply keeps_seekLofts | intro _ _ _ _ _ _ _ | intro _ _ _ | intro _ _ | intro _
    | dsimp only | split

theorem keeps_refuseApply {z : State} {s : State} {c : Cmd} (h_s : Keeps z s) :
    Keeps z (refuseApply s c) := by
  unfold refuseApply
  repeat' with_reducible first
    | assumption | apply Keeps.ite | apply keeps_endCmd | apply keeps_markApply | apply keeps_sendVotes | dsimp only
    | split

theorem keeps_applyCmd {z : State} {s : State} {c : Cmd} (h_s : Keeps z s) :
    Keeps z (applyCmd s c) := by
  unfold applyCmd
  repeat' with_reducible first
    | assumption | apply Keeps.ite | apply keeps_refuseApply | apply keeps_checkApply | apply keeps_newBallot
    | apply keeps_disagreement | apply keeps_setCmd | dsimp only | split

theorem keeps_execApply {z : State} {cmd : Nat} {s : State} (h_s : Keeps z s) :
    KeepsNext z (execApply cmd s) := by
  unfold execApply
  repeat' with_reducible first
    | assumption | apply keeps_atCmd | apply keeps_applyCmd | intro _ _ _ _ _ _ _ | intro _ _ _ | intro _ _ | intro _

theorem keeps_execGroupVote {z : State} {device group boundary : Nat} {pass : Bool} {s : State} (h_s : Keeps z s) :
    KeepsNext z (execGroupVote device group boundary pass s) := by
  unfold execGroupVote
  repeat' with_reducible first
    | assumption | apply KeepsNext.next | apply KeepsNext.notNow | apply KeepsNext.ite | apply Keeps.ite
    | apply keeps_endApply | apply Keeps.foldl | intro _ _ _ _ _ _ _ | intro _ _ _ | intro _ _ | intro _
    | apply Keeps.upd

theorem keeps_execGroupVoteDeadline {z : State} {fn : Nat} {s : State} (h_s : Keeps z s) :
    KeepsNext z (execGroupVoteDeadline fn s) := by
  unfold execGroupVoteDeadline
  repeat' with_reducible first
    | assumption | apply KeepsNext.next | apply KeepsNext.notNow | apply KeepsNext.ite | apply Keeps.ite
    | apply keeps_endApply | split

theorem keeps_applyWindow {z : State} {s : State} {fn c w : Nat} {v : DWord} (h_s : Keeps z s) :
    Keeps z (applyWindow s fn c w v) := by
  unfold applyWindow
  repeat' with_reducible first
    | assumption | apply Keeps.ite | apply keeps_setRaw | apply keeps_mapObject | apply keeps_modObject
    | intro _ _ _ _ _ _ _ | intro _ _ _ | intro _ _ | intro _ | dsimp only | split | apply Keeps.upd

theorem keeps_applyRing {z : State} {s : State} {c L k : Nat} {v : DWord} (h_s : Keeps z s) :
    Keeps z (applyRing s c L k v) := by
  unfold applyRing
  repeat' with_reducible first
    | assumption | apply Keeps.ite | apply keeps_setRaw | apply keeps_modCtxRegion | apply keeps_writeConsumed

theorem keeps_applyLoft {z : State} {s : State} {c L : Nat} {v : DWord} (h_s : Keeps z s) :
    Keeps z (applyLoft s c L v) := by
  unfold applyLoft
  repeat' with_reducible first
    | assumption | apply Keeps.ite | apply keeps_setRaw | apply keeps_freeUnits | apply keeps_modRegion
    | apply keeps_freedUnits

theorem keeps_applyPower {z : State} {s : State} {v : DWord} (h_s : Keeps z s) :
    Keeps z (applyPower s v) := by
  unfold applyPower
  repeat' with_reducible first
    | assumption | apply Keeps.ite | apply keeps_setRaw | apply Keeps.upd

theorem keeps_applyLink {z : State} {s : State} {n : Nat} {v : DWord} (h_s : Keeps z s) :
    Keeps z (applyLink s n v) := by
  unfold applyLink
  repeat' with_reducible first
    | assumption | apply keeps_modLink | apply keeps_setRaw

theorem keeps_applyWord {z : State} {fn : Nat} {s : State} {e : Nat × DWord × DWord} (h_s : Keeps z s) :
    Keeps z (applyWord fn s e) := by
  unfold applyWord
  repeat' with_reducible first
    | assumption | apply Keeps.ite | apply keeps_applyWindow | apply keeps_applyRing | apply keeps_applyLoft
    | apply keeps_applyPower | apply keeps_applyLink | apply keeps_setRaw | dsimp only | split | apply Keeps.upd

theorem keeps_applyPublish {z : State} {fn : Nat} {s : State} {p : Publish} (h_s : Keeps z s) :
    Keeps z (applyPublish fn s p) := by
  unfold applyPublish
  repeat' with_reducible first
    | assumption | apply Keeps.ite | apply keeps_modTable | apply keeps_releaseVersions | apply keeps_fillMoved
    | intro _ _ _ _ _ _ _ | intro _ _ _ | intro _ _ | intro _ | dsimp only | split

theorem keeps_applyAddendum {z : State} {s : State} {a : Addendum} (h_s : Keeps z s) :
    Keeps z (applyAddendum s a) := by
  unfold applyAddendum
  repeat' with_reducible first
    | assumption | apply keeps_newRevision | apply keeps_storeRecord | apply Keeps.upd | apply Keeps.flashUpd
    | exact List.prefix_rfl

theorem keeps_applyCopy {z : State} {s : State} {fn : Nat} {x : StagedCopy} (h_s : Keeps z s) :
    Keeps z (applyCopy s fn x) := by
  unfold applyCopy
  repeat' with_reducible first
    | assumption | apply keeps_applyWord | apply keeps_applyPublish | apply keeps_applyAddendum | apply Keeps.foldl
    | intro _ _ _ _ _ _ _ | intro _ _ _ | intro _ _ | intro _ | dsimp only | split

theorem keeps_execStagedApplyBoundary {z : State} {fn : Nat} {s : State} (h_s : Keeps z s) :
    KeepsNext z (execStagedApplyBoundary fn s) := by
  unfold execStagedApplyBoundary
  repeat' with_reducible first
    | assumption | apply KeepsNext.next | apply KeepsNext.notNow | apply KeepsNext.ite | apply Keeps.ite
    | apply keeps_endApply | apply keeps_applyCopy | split

end Sys2Proof.Machine
end

