-- ==== Sys2Proof/Laws/KeepsCheckpoint.lean ====
section
/-! SUPPORT. One lemma for each operation of Machine/Checkpoint.lean: what it keeps (Laws/Keeps.lean). -/

namespace Sys2Proof.Machine

open Sys2Proof

theorem keeps_endCheckpoint {z : State} {s : State} {c : Cmd} {status detail result : Nat} (h_s : Keeps z s) :
    Keeps z (endCheckpoint s c status detail result) := by
  unfold endCheckpoint
  repeat' with_reducible first
    | assumption | apply Keeps.ite | apply keeps_endCmd | apply keeps_resumeCtx

theorem keeps_pinCheckpoint {z : State} {s : State} {c : Cmd} (h_s : Keeps z s) :
    Keeps z (pinCheckpoint s c) := by
  unfold pinCheckpoint
  repeat' with_reducible first
    | assumption | apply keeps_dropAreas | intro _ _ _ _ _ _ _ | intro _ _ _ | intro _ _ | intro _ | apply Keeps.upd

theorem keeps_readHeld {z : State} {c : Cmd} {s : State} {w : WindowPart} (h_s : Keeps z s) :
    Keeps z (readHeld c s w) := by
  unfold readHeld
  repeat' with_reducible first
    | assumption | apply keeps_askPeer | apply keeps_poisonEvent | dsimp only | split

theorem keeps_writeCheckpoint {z : State} {s0 : State} {c : Cmd} {im : Image} {p : CheckpointParts} (h_s0 : Keeps z
    s0) :
    Keeps z (writeCheckpoint s0 c im p) := by
  unfold writeCheckpoint
  repeat' with_reducible first
    | assumption | apply keeps_readHeld | apply keeps_devWrite | apply keeps_pinCheckpoint | apply Keeps.foldl
    | apply Keeps.upd

theorem keeps_copyCheckpoint {z : State} {s : State} {c : Cmd} {im : Image} (h_s : Keeps z s) :
    Keeps z (copyCheckpoint s c im) := by
  unfold copyCheckpoint
  repeat' with_reducible first
    | assumption | apply Keeps.ite | apply keeps_endCheckpoint | apply keeps_reserveRates | apply keeps_setCmd
    | apply keeps_copyCmd | apply keeps_writeCheckpoint | dsimp only | split

theorem keeps_checkpointCmd {z : State} {s : State} {c : Cmd} (h_s : Keeps z s) :
    Keeps z (checkpointCmd s c) := by
  unfold checkpointCmd
  repeat' with_reducible first
    | assumption | apply Keeps.ite | apply keeps_endCheckpoint | apply keeps_setCmd | apply keeps_beginBreak
    | apply keeps_copyCheckpoint | dsimp only | split

theorem keeps_execCheckpoint {z : State} {cmd : Nat} {s : State} (h_s : Keeps z s) :
    KeepsNext z (execCheckpoint cmd s) := by
  unfold execCheckpoint
  repeat' with_reducible first
    | assumption | apply keeps_atCmd | apply keeps_checkpointCmd | intro _ _ _ _ _ _ _ | intro _ _ _ | intro _ _
    | intro _

theorem keeps_restoreWindow {z : State} {s : State} {c : Cmd} {w : WindowPart} (h_s : Keeps z s) :
    Keeps z (restoreWindow s c w) := by
  unfold restoreWindow
  repeat' with_reducible first
    | assumption
    | exact Memory.wf_of_cells rfl (foldl_keeps (P := fun m : Memory => m.wf = true) (fun _ _ => Memory.putByte_wf) _
        (Memory.eraseWhere_wf ‹_›))
    | exact Memory.eraseWhere_wf | apply Keeps.ite | apply keeps_freshBytes | apply keeps_devWrite
    | apply keeps_updatePage | apply keeps_markWritten | apply Keeps.foldl | intro _ _ _ _ _ _ _ | intro _ _ _
    | intro _ _ | intro _ | apply Keeps.upd | apply Keeps.memUpd

theorem keeps_restoreRow {z : State} {s : State} {L t : Nat} {v : TableVersion} {x : Nat × List Byte × List Byte} (h_s
    : Keeps z s) :
    Keeps z (restoreRow s L t v x) := by
  unfold restoreRow
  repeat' with_reducible first
    | assumption | apply Keeps.ite | apply keeps_ownerStore

theorem keeps_restoreTable {z : State} {L : Nat} {s : State} {x : TablePart} (h_s : Keeps z s) :
    Keeps z (restoreTable L s x) := by
  unfold restoreTable
  repeat' with_reducible first
    | assumption | apply keeps_restoreRow | apply Keeps.foldl | intro _ _ _ _ _ _ _ | intro _ _ _ | intro _ _
    | intro _ | split

theorem keeps_restorePins {z : State} {s : State} {ctx fn : Nat} {pins : List (Nat × Nat)} (h_s : Keeps z s) :
    Keeps z (restorePins s ctx fn pins) := by
  unfold restorePins
  repeat' with_reducible first
    | assumption | apply keeps_releaseVersions | apply Keeps.foldl | intro _ _ _ _ _ _ _ | intro _ _ _ | intro _ _
    | intro _ | apply Keeps.upd

theorem keeps_restoreEntry {z : State} {ctx : Nat} {s : State} {e : Nat × Nat × MatchEntry} (h_s : Keeps z s) :
    Keeps z (restoreEntry ctx s e) := by
  unfold restoreEntry
  repeat' with_reducible first
    | assumption | apply keeps_setEntry | split

theorem keeps_zeroRings {z : State} {ctx : Nat} {s : State} {L : Nat} (h_s : Keeps z s) :
    Keeps z (zeroRings ctx s L) := by
  unfold zeroRings
  repeat' with_reducible first
    | assumption | apply Keeps.ite | apply keeps_modCtxRegion | apply keeps_winWrite | apply Keeps.foldl
    | intro _ _ _ _ _ _ _ | intro _ _ _

theorem keeps_restoreNumerics {z : State} {s : State} {ctx : Nat} {p : CheckpointParts} (h_s : Keeps z s) :
    Keeps z (restoreNumerics s ctx p) := by
  unfold restoreNumerics
  repeat' with_reducible first
    | assumption | apply keeps_setRaw

theorem keeps_restoreAll {z : State} {s : State} {c : Cmd} {h : List Byte} {p : CheckpointParts} (h_s : Keeps z s) :
    Keeps z (restoreAll s c h p) := by
  unfold restoreAll
  repeat' with_reducible first
    | assumption | apply Keeps.ite | apply keeps_restoreWindow | apply keeps_restorePins | apply keeps_restoreTable
    | apply keeps_modRegion | apply keeps_dropTasks | apply keeps_restoreEntry | apply keeps_sweepWakes
    | apply keeps_restoreNumerics | apply keeps_zeroRings | apply keeps_setRaw | apply keeps_modCtx
    | apply Keeps.foldl | intro _ _ _ _ _ _ _ | intro _ _ _ | intro _ _ | intro _ | apply Keeps.upd

theorem keeps_restoreCmd {z : State} {s : State} {c : Cmd} (h_s : Keeps z s) :
    Keeps z (restoreCmd s c) := by
  unfold restoreCmd
  repeat' with_reducible first
    | assumption | apply keeps_endCmd | apply keeps_reserveRates | apply keeps_setCmd | apply keeps_copyCmd
    | apply keeps_restoreAll | dsimp only | split

theorem keeps_execRestore {z : State} {cmd : Nat} {s : State} (h_s : Keeps z s) :
    KeepsNext z (execRestore cmd s) := by
  unfold execRestore
  repeat' with_reducible first
    | assumption | apply keeps_atCmd | apply keeps_restoreCmd | intro _ _ _ _ _ _ _ | intro _ _ _ | intro _ _
    | intro _

theorem keeps_addendumCmd {z : State} {s : State} {c : Cmd} (h_s : Keeps z s) :
    Keeps z (addendumCmd s c) := by
  unfold addendumCmd
  repeat' with_reducible first
    | assumption | apply Keeps.ite | apply keeps_endCmd | apply keeps_storeAddendum | apply keeps_modFn
    | intro _ _ _ _ _ _ _ | intro _ _ _ | intro _ _ | intro _ | dsimp only | split | apply Keeps.upd

theorem keeps_execAddendum {z : State} {cmd : Nat} {s : State} (h_s : Keeps z s) :
    KeepsNext z (execAddendum cmd s) := by
  unfold execAddendum
  repeat' with_reducible first
    | assumption | apply keeps_atCmd | apply keeps_addendumCmd | intro _ _ _ _ _ _ _ | intro _ _ _ | intro _ _
    | intro _

end Sys2Proof.Machine
end

