-- ==== Sys2Proof/Laws/KeepsAcceptance.lean ====
section
/-! SUPPORT. One lemma for each operation of Machine/Acceptance.lean: what it keeps (Laws/Keeps.lean). -/

namespace Sys2Proof.Machine

open Sys2Proof

theorem keeps_resumeUnits {z : State} {s : State} (h_s : Keeps z s) :
    Keeps z (resumeUnits s) := by
  unfold resumeUnits
  repeat' with_reducible first
    | assumption | apply keeps_runSequencers | apply keeps_sendWaiting | apply Keeps.foldl

theorem keeps_execRequestCompletion {z : State} {req : Nat} {resp : List Byte} {poison : Bool} {s : State} (h_s :
    Keeps z s) :
    KeepsNext z (execRequestCompletion req resp poison s) := by
  unfold execRequestCompletion
  repeat' with_reducible first
    | assumption | apply KeepsNext.next | apply KeepsNext.notNow | apply KeepsNext.ite | apply Keeps.ite
    | apply keeps_performed | apply keeps_resumeUnits | apply keeps_completed | split

theorem keeps_acceptHead {z : State} {L e : Nat} {s : State} (h_s : Keeps z s) :
    KeepsNext z (acceptHead L e s) := by
  unfold acceptHead
  repeat' with_reducible first
    | assumption | apply KeepsNext.notNow | apply KeepsNext.ite | apply Keeps.ite | apply keeps_execWinchCopy
    | apply keeps_execStage

theorem keeps_execTransferAcceptance {z : State} {xfer : Nat} {s : State} (h_s : Keeps z s) :
    KeepsNext z (execTransferAcceptance xfer s) := by
  unfold execTransferAcceptance
  repeat' with_reducible first
    | assumption | apply KeepsNext.next | apply KeepsNext.notNow | apply KeepsNext.ite | apply Keeps.ite
    | apply keeps_execReelJobAccept | apply keeps_acceptGather | apply keeps_acceptHead | apply keeps_execReduce
    | apply keeps_tryTransfer | intro _ _ _ _ _ _ _ | intro _ _ _ | intro _ _ | intro _ | split

end Sys2Proof.Machine
end

