-- ==== Sys2Proof/Laws/KeepsLinks.lean ====
section
/-! SUPPORT. One lemma for each operation of Machine/Links.lean: what it keeps (Laws/Keeps.lean). -/

namespace Sys2Proof.Machine

open Sys2Proof

theorem keeps_execPortBringup {z : State} {port : Nat} {lanes : BitVec 9} {s : State} (h_s : Keeps z s) :
    KeepsNext z (execPortBringup port lanes s) := by
  unfold execPortBringup
  repeat' with_reducible first
    | assumption | apply KeepsNext.next | apply KeepsNext.notNow | apply KeepsNext.ite | apply Keeps.ite
    | apply keeps_modLink | apply keeps_emit

theorem keeps_portComesUp {z : State} {s : State} {p : Nat} (h_s : Keeps z s) :
    Keeps z (portComesUp s p) := by
  unfold portComesUp
  repeat' with_reducible first
    | assumption | apply keeps_modLink | apply keeps_setLedger | apply keeps_setDest | apply keeps_serveLending

theorem keeps_moveHalves {z s : State} {p : Nat} (h : Keeps z s) : Keeps z (moveHalves s p) := by
  unfold moveHalves
  split
  · exact Keeps.listUpd id id id (freshIds_map fun _ => rfl) h
  · exact h

theorem keeps_portGoesDown {z : State} {s : State} {p : Nat} (h_s : Keeps z s) :
    Keeps z (portGoesDown s p) := by
  unfold portGoesDown
  repeat' with_reducible first
    | assumption | apply keeps_moveHalves | apply keeps_modLink

theorem keeps_execIdentityFlit {z : State} {port device peerPort : Nat} {serial : DWord} {s : State} (h_s : Keeps z s) :
    KeepsNext z (execIdentityFlit port device peerPort serial s) := by
  unfold execIdentityFlit
  repeat' with_reducible first
    | assumption | apply KeepsNext.next | apply KeepsNext.notNow | apply KeepsNext.ite | apply Keeps.ite
    | apply keeps_portComesUp | apply keeps_emit | apply keeps_modLink

theorem keeps_pumpPort {z : State} {s : State} {port : Nat} (h_s : Keeps z s) :
    Keeps z (pumpPort s port) := by
  unfold pumpPort
  repeat' with_reducible first
    | assumption | apply keeps_sendFlits

theorem keeps_takeAck {z : State} {s : State} {port ack credits : Nat} (h_s : Keeps z s) :
    Keeps z (takeAck s port ack credits) := by
  unfold takeAck
  repeat' with_reducible first
    | assumption | apply keeps_modLink | apply keeps_pumpPort | apply keeps_giveBack

theorem keeps_sendNak {z : State} {s : State} {port : Nat} (h_s : Keeps z s) :
    Keeps z (sendNak s port) := by
  unfold sendNak
  repeat' with_reducible first
    | assumption | apply keeps_emitFlit

theorem keeps_sendIdle {z : State} {s : State} {port : Nat} (h_s : Keeps z s) :
    Keeps z (sendIdle s port) := by
  unfold sendIdle
  repeat' with_reducible first
    | assumption | apply keeps_emitFlit

theorem keeps_badFlit {z : State} {s : State} {port seq : Nat} (h_s : Keeps z s) :
    Keeps z (badFlit s port seq) := by
  unfold badFlit
  repeat' with_reducible first
    | assumption | apply Keeps.ite | apply keeps_modLink | apply keeps_sendNak | intro _ _ _ _ _ _ _ | intro _ _ _
    | intro _ _ | intro _ | apply Keeps.upd

theorem keeps_execDataFlit {z : State} {port seq ack credits : Nat} {crcOk : Bool} {ops : List (OpHeader × List Byte)}
    {s : State} (h_s : Keeps z s) :
    KeepsNext z (execDataFlit port seq ack credits crcOk ops s) := by
  unfold execDataFlit
  repeat' with_reducible first
    | assumption | apply KeepsNext.next | apply KeepsNext.notNow | apply KeepsNext.ite | apply Keeps.ite
    | apply keeps_badFlit | apply keeps_sendNak | apply keeps_modLink | apply keeps_sendIdle | apply keeps_takeAck

theorem keeps_resendAll {z : State} {s : State} {port : Nat} (h_s : Keeps z s) :
    Keeps z (resendAll s port) := by
  unfold resendAll
  repeat' with_reducible first
    | assumption | apply keeps_emitFlit | apply Keeps.foldl | intro _ _ _ _ _ _ _ | intro _ _ _

theorem keeps_execNak {z : State} {port ack : Nat} {crcOk : Bool} {s : State} (h_s : Keeps z s) :
    KeepsNext z (execNak port ack crcOk s) := by
  unfold execNak
  repeat' with_reducible first
    | assumption | apply KeepsNext.next | apply KeepsNext.notNow | apply KeepsNext.ite | apply Keeps.ite
    | apply keeps_modLink | apply keeps_pumpPort | apply keeps_resendAll

theorem keeps_execIdleFlit {z : State} {port ack credits : Nat} {crcOk : Bool} {s : State} (h_s : Keeps z s) :
    KeepsNext z (execIdleFlit port ack credits crcOk s) := by
  unfold execIdleFlit
  repeat' with_reducible first
    | assumption | apply KeepsNext.next | apply KeepsNext.notNow | apply KeepsNext.ite | apply Keeps.ite
    | apply keeps_takeAck

theorem keeps_execLinkRetrain {z : State} {port : Nat} {s : State} (h_s : Keeps z s) :
    KeepsNext z (execLinkRetrain port s) := by
  unfold execLinkRetrain
  repeat' with_reducible first
    | assumption | apply KeepsNext.next | apply KeepsNext.notNow | apply KeepsNext.ite | apply Keeps.ite
    | apply keeps_modLink | apply keeps_resendAll | intro _ _ _ _ _ _ _ | intro _ _ _ | intro _ _ | intro _
    | apply Keeps.upd

theorem keeps_toSpare {z : State} {s : State} {port lane : Nat} (h_s : Keeps z s) :
    Keeps z (toSpare s port lane) := by
  unfold toSpare
  repeat' with_reducible first
    | assumption | apply keeps_logFault | apply keeps_emit | apply keeps_modLink

theorem keeps_execLaneChangeFlit {z : State} {port lane : Nat} {crcOk : Bool} {s : State} (h_s : Keeps z s) :
    KeepsNext z (execLaneChangeFlit port lane crcOk s) := by
  unfold execLaneChangeFlit
  repeat' with_reducible first
    | assumption | apply KeepsNext.next | apply KeepsNext.notNow | apply KeepsNext.ite | apply Keeps.ite
    | apply keeps_toSpare

theorem keeps_recordLane {z : State} {s : State} {port lane : Nat} (h_s : Keeps z s) :
    Keeps z (recordLane s port lane) := by
  unfold recordLane
  repeat' with_reducible first
    | assumption | apply Keeps.ite | apply keeps_modLink | apply keeps_recordRetirement | intro _ _ _ _ _ _ _
    | intro _ _ _ | intro _ _ | intro _ | apply Keeps.upd

theorem keeps_loseLane {z : State} {s : State} {port lane : Nat} (h_s : Keeps z s) :
    Keeps z (loseLane s port lane) := by
  unfold loseLane
  repeat' with_reducible first
    | assumption | apply Keeps.ite | apply keeps_modLink | apply keeps_logFault | apply keeps_portGoesDown
    | apply keeps_emit

theorem keeps_execLaneFailure {z : State} {port lane : Nat} {s : State} (h_s : Keeps z s) :
    KeepsNext z (execLaneFailure port lane s) := by
  unfold execLaneFailure
  repeat' with_reducible first
    | assumption | apply KeepsNext.next | apply KeepsNext.notNow | apply KeepsNext.ite | apply Keeps.ite
    | apply keeps_recordLane | apply keeps_logFault | apply keeps_toSpare | apply keeps_loseLane

theorem keeps_execLaneWithdraw {z : State} {port : Nat} {s : State} (h_s : Keeps z s) :
    KeepsNext z (execLaneWithdraw port s) := by
  unfold execLaneWithdraw
  repeat' with_reducible first
    | assumption | apply KeepsNext.next | apply KeepsNext.notNow | apply KeepsNext.ite | apply Keeps.ite
    | apply keeps_toSpare

theorem keeps_execPortDrain {z : State} {port : Nat} {s : State} (h_s : Keeps z s) :
    KeepsNext z (execPortDrain port s) := by
  unfold execPortDrain
  repeat' with_reducible first
    | assumption | apply KeepsNext.next | apply KeepsNext.notNow | apply KeepsNext.ite | apply Keeps.ite
    | apply keeps_portGoesDown

theorem keeps_respond {z : State} {s : State} {port : Nat} {h : OpHeader} {op : Nat} {poison : Bool} {bs : List Byte}
    (h_s : Keeps z s) :
    Keeps z (respond s port h op poison bs) := by
  unfold respond
  repeat' with_reducible first
    | assumption | apply keeps_sendOp

theorem keeps_carryPoison {z : State} {s : State} {a n : Nat} {poison : Bool} (h_s : Keeps z s) :
    Keeps z (carryPoison s a n poison) := by
  unfold carryPoison
  repeat' with_reducible first
    | assumption | exact foldl_keeps (P := fun m : Memory => m.wf = true) (fun _ _ => Memory.poisonAt_wf) _ ‹_›
    | exact foldl_keeps (P := fun m : Memory => m.wf = true) (fun _ _ => Memory.poisonAt_wf) _ ‹_›
    | exact Memory.poisonAt_wf | apply Keeps.ite | apply Keeps.foldl | intro _ _ _ _ _ _ _ | intro _ _ _ | intro _ _
    | intro _ | apply Keeps.upd | apply Keeps.memUpd

theorem keeps_performOp {z : State} {s : State} {port : Nat} {h : OpHeader} {payload : List Byte} (h_s : Keeps z s) :
    Keeps z (performOp s port h payload) := by
  unfold performOp
  repeat' with_reducible first
    | assumption | apply keeps_respond | apply keeps_carryPoison | apply keeps_devWrite | apply keeps_devAtomic
    | apply keeps_signalAt | dsimp only | split

theorem keeps_takeResponse {z : State} {s : State} {port : Nat} {h : OpHeader} {payload : List Byte} (h_s : Keeps z s) :
    Keeps z (takeResponse s port h payload) := by
  unfold takeResponse
  repeat' with_reducible first
    | assumption | apply Keeps.ite | apply keeps_setRequest | apply keeps_windowFault | dsimp only | split

theorem keeps_takeOp {z : State} {s : State} {port : Nat} {payload : List Byte} (h_s : Keeps z s) :
    Keeps z (takeOp s port payload) := by
  unfold takeOp
  repeat' with_reducible first
    | assumption | apply keeps_modLink

theorem keeps_execRemoteOperationReceive {z : State} {port : Nat} {h : OpHeader} {payload : List Byte} {s : State}
    (h_s : Keeps z s) :
    KeepsNext z (execRemoteOperationReceive port h payload s) := by
  unfold execRemoteOperationReceive
  repeat' with_reducible first
    | assumption | apply KeepsNext.next | apply KeepsNext.notNow | apply KeepsNext.ite | apply Keeps.ite
    | apply keeps_takeOp | apply keeps_sendIdle | apply keeps_takeResponse | apply keeps_respond
    | apply keeps_performOp

theorem keeps_endReductions {z : State} {device : Nat} {s : State} {L : Nat} (h_s : Keeps z s) :
    Keeps z (endReductions device s L) := by
  unfold endReductions
  repeat' with_reducible first
    | assumption | apply keeps_abortAndRun | apply Keeps.foldl | intro _ _ _ _ _ _ _ | intro _ _ _ | intro _ _
    | intro _ | split

theorem keeps_execPeerLoss {z : State} {device : Nat} {s : State} (h_s : Keeps z s) :
    KeepsNext z (execPeerLoss device s) := by
  unfold execPeerLoss
  repeat' with_reducible first
    | assumption | apply KeepsNext.next | apply KeepsNext.notNow | apply KeepsNext.ite | apply Keeps.ite
    | apply keeps_peerLossEvent | apply keeps_lost | apply keeps_resumeUnits | apply keeps_endReductions
    | apply Keeps.foldl | intro _ _ _ _ _ _ _ | intro _ _ _ | intro _ _ | intro _ | dsimp only | split

theorem keeps_execTimeFlit {z : State} {port boundary : Nat} {crcOk : Bool} {s : State} (h_s : Keeps z s) :
    KeepsNext z (execTimeFlit port boundary crcOk s) := by
  unfold execTimeFlit
  repeat' with_reducible first
    | assumption | apply KeepsNext.next | apply KeepsNext.notNow | apply KeepsNext.ite | apply Keeps.ite
    | apply Keeps.upd

theorem keeps_announce {z : State} {s : State} {boundary : Nat} (h_s : Keeps z s) :
    Keeps z (announce s boundary) := by
  unfold announce
  repeat' with_reducible first
    | assumption | apply keeps_emit | apply Keeps.foldl | intro _ _ _ _ _ _ _ | intro _ _ _

theorem keeps_execEpochPulse {z : State} {s : State} (h_s : Keeps z s) :
    KeepsNext z (execEpochPulse s) := by
  unfold execEpochPulse
  repeat' with_reducible first
    | assumption | apply KeepsNext.next | apply KeepsNext.notNow | apply KeepsNext.ite | apply Keeps.ite
    | apply keeps_emit | apply keeps_announce | apply Keeps.upd

theorem keeps_correctTime {z : State} {s : State} (h_s : Keeps z s) :
    Keeps z (correctTime s) := by
  unfold correctTime
  repeat' with_reducible first
    | assumption | apply Keeps.ite | apply keeps_deviceEvent | apply Keeps.upd

theorem keeps_execEpochEdge {z : State} {s : State} (h_s : Keeps z s) :
    KeepsNext z (execEpochEdge s) := by
  unfold execEpochEdge
  repeat' with_reducible first
    | assumption | apply KeepsNext.next | apply KeepsNext.notNow | apply KeepsNext.ite | apply Keeps.ite
    | apply keeps_correctTime | dsimp only | split | apply Keeps.upd

theorem keeps_execEpochMasterTakeover {z : State} {s : State} (h_s : Keeps z s) :
    KeepsNext z (execEpochMasterTakeover s) := by
  unfold execEpochMasterTakeover
  repeat' with_reducible first
    | assumption | apply KeepsNext.next | apply KeepsNext.notNow | apply KeepsNext.ite | apply Keeps.ite
    | apply keeps_announce | apply Keeps.upd

end Sys2Proof.Machine
end

