-- ==== Sys2Proof/Laws/KeepsControl.lean ====
section
/-! SUPPORT. One lemma for each operation of Machine/Control.lean: what it keeps (Laws/Keeps.lean). -/

namespace Sys2Proof.Machine

open Sys2Proof

theorem keeps_writeRw {z : State} {s : State} {off : Nat} {v : DWord} {be : BitVec 8} (h_s : Keeps z s) :
    Keeps z (writeRw s off v be) := by
  unfold writeRw
  repeat' with_reducible first
    | assumption | apply keeps_setRaw | apply Keeps.foldl | intro _ _ _ _ _ _ _ | intro _ _ _

theorem keeps_writeWs {z : State} {s : State} {fn off : Nat} {v : DWord} {be : BitVec 8} (h_s : Keeps z s) :
    Keeps z (writeWs s fn off v be) := by
  unfold writeWs
  repeat' with_reducible first
    | assumption | apply Keeps.ite | apply keeps_modFn | apply Keeps.foldl | intro _ _ _ _ _ _ _ | intro _ _ _

theorem keeps_clearField {z : State} {s : State} {off hi : Nat} (h_s : Keeps z s) :
    Keeps z (clearField s off hi) := by
  unfold clearField
  repeat' with_reducible first
    | assumption | apply Keeps.ite | apply keeps_modPhys | apply keeps_setRaw | intro _ _ _ _ _ _ _ | intro _ _ _
    | intro _ _ | intro _ | dsimp only | split | apply Keeps.upd

theorem keeps_eventField {z : State} {s : State} {off hi : Nat} (h_s : Keeps z s) :
    Keeps z (eventField s off hi) := by
  unfold eventField
  repeat' with_reducible first
    | assumption | apply Keeps.ite | apply keeps_modPhys | apply keeps_setRaw | intro _ _ _ _ _ _ _ | intro _ _ _
    | intro _ _ | intro _ | dsimp only | split | apply Keeps.upd

theorem keeps_clearKeeping {z : State} {s : State} {off hi : Nat} (h_s : Keeps z s) :
    Keeps z (clearKeeping s off hi) := by
  unfold clearKeeping
  repeat' with_reducible first
    | assumption | apply Keeps.ite | apply keeps_eventField | apply keeps_clearField

theorem keeps_writeW1c {z : State} {s : State} {off : Nat} {v : DWord} {be : BitVec 8} (h_s : Keeps z s) :
    Keeps z (writeW1c s off v be) := by
  unfold writeW1c
  repeat' with_reducible first
    | assumption | apply keeps_clearKeeping | apply Keeps.foldl | intro _ _ _ _ _ _ _ | intro _ _ _

theorem keeps_controlWrite {z : State} {s : State} {fn off : Nat} {v : DWord} {be : BitVec 8} (h_s : Keeps z s) :
    Keeps z (controlWrite s fn off v be) := by
  unfold controlWrite
  repeat' with_reducible first
    | assumption | apply Keeps.ite | apply keeps_deny | apply keeps_writeW1c | apply keeps_writeWs
    | apply keeps_writeRw

theorem keeps_ringTail {z : State} {s : State} {fn q v : Nat} (h_s : Keeps z s) :
    Keeps z (ringTail s fn q v) := by
  unfold ringTail
  repeat' with_reducible first
    | assumption | apply Keeps.ite | apply keeps_deny | apply keeps_modQueue

theorem keeps_ringHead {z : State} {s : State} {fn q v : Nat} (h_s : Keeps z s) :
    Keeps z (ringHead s fn q v) := by
  unfold ringHead
  repeat' with_reducible first
    | assumption | apply Keeps.ite | apply keeps_deny | apply keeps_modQueue

theorem keeps_queueWrite {z : State} {s : State} {fn q o : Nat} {v : DWord} {be : BitVec 8} (h_s : Keeps z s) :
    Keeps z (queueWrite s fn q o v be) := by
  unfold queueWrite
  repeat' with_reducible first
    | assumption | apply Keeps.ite | apply keeps_modQueue | apply keeps_writeQctl | apply keeps_ringTail
    | apply keeps_ringHead

theorem keeps_msixWrite {z : State} {s : State} {fn o : Nat} {v : DWord} {be : BitVec 8} (h_s : Keeps z s) :
    Keeps z (msixWrite s fn o v be) := by
  unfold msixWrite
  repeat' with_reducible first
    | assumption | apply Keeps.ite | apply keeps_flushVectors | apply keeps_modCfg

theorem keeps_barWrite {z : State} {s : State} {fn off : Nat} {v : DWord} {be : BitVec 8} (h_s : Keeps z s) :
    Keeps z (barWrite s fn off v be) := by
  unfold barWrite
  repeat' with_reducible first
    | assumption | apply Keeps.ite | apply keeps_queueWrite | apply keeps_msixWrite | apply keeps_controlWrite
    | apply keeps_deny | split

theorem keeps_execRegisterWrite {z : State} {fn off : Nat} {value : DWord} {be : BitVec 8} {s : State} (h_s : Keeps z
    s) :
    KeepsNext z (execRegisterWrite fn off value be s) := by
  unfold execRegisterWrite
  repeat' with_reducible first
    | assumption | apply KeepsNext.next | apply KeepsNext.notNow | apply KeepsNext.ite | apply Keeps.ite
    | apply keeps_barWrite

end Sys2Proof.Machine
end

