-- ==== Sys2Proof/Laws/KeepsFaults.lean ====
section
/-! SUPPORT. One lemma for each operation of Machine/Faults.lean: what it keeps (Laws/Keeps.lean). -/

namespace Sys2Proof.Machine

open Sys2Proof

theorem keeps_emptyStandby {z : State} {s : State} {p : Nat} (h_s : Keeps z s) :
    Keeps z (emptyStandby s p) := by
  unfold emptyStandby
  repeat' with_reducible first
    | assumption | apply keeps_emptySlot | split

theorem keeps_askCopy {z : State} {s : State} {L p : Nat} {e : Option Nat} (h_s : Keeps z s) :
    Keeps z (askCopy s L p e) := by
  unfold askCopy
  repeat' with_reducible first
    | assumption | apply keeps_endTransfer | apply keeps_askTransfer | dsimp only | split

theorem keeps_fence {z : State} {L p : Nat} {kind : ExchangeKind} {s : State} (h_s : Keeps z s) :
    Keeps z (fence L p kind s) := by
  unfold fence
  repeat' with_reducible first
    | assumption | apply Keeps.ite | apply keeps_emptyStandby | apply keeps_askCopy | apply keeps_modRegion
    | intro _ _ _ _ _ _ _ | intro _ _ _ | intro _ _ | intro _ | dsimp only | split

theorem keeps_withdraw {z : State} {s : State} {L : Nat} {kind : ExchangeKind} (h_s : Keeps z s) :
    Keeps z (withdraw s L kind) := by
  unfold withdraw
  repeat' with_reducible first
    | assumption | apply Keeps.ite | apply keeps_quorumAct | apply keeps_fence | split

theorem keeps_enterOthers {z : State} {s : State} {p : Nat} (h_s : Keeps z s) :
    Keeps z (enterOthers s p) := by
  unfold enterOthers
  repeat' with_reducible first
    | assumption | apply Keeps.ite | apply keeps_emptyStandby | apply keeps_modRegion | apply keeps_askCopy
    | apply Keeps.foldl | intro _ _ _ _ _ _ _ | intro _ _ _ | intro _ _ | intro _ | dsimp only | split

theorem keeps_loseStandbyRegion {z : State} {s : State} {p : Nat} (h_s : Keeps z s) :
    Keeps z (loseStandbyRegion s p) := by
  unfold loseStandbyRegion
  repeat' with_reducible first
    | assumption | apply keeps_modPhys | apply keeps_emptyStandby | apply keeps_enterOthers | apply keeps_logFault

theorem keeps_regionFault {z : State} {s : State} {p : Nat} (h_s : Keeps z s) :
    Keeps z (regionFault s p) := by
  unfold regionFault
  repeat' with_reducible first
    | assumption | apply keeps_withdraw | apply keeps_loseStandbyRegion | split

theorem keeps_execRegionMigration {z : State} {phys : Nat} {s : State} (h_s : Keeps z s) :
    KeepsNext z (execRegionMigration phys s) := by
  unfold execRegionMigration
  repeat' with_reducible first
    | assumption | apply KeepsNext.next | apply KeepsNext.notNow | apply KeepsNext.ite | apply Keeps.ite
    | apply keeps_withdraw | split

theorem keeps_poisonWords {z : State} {s : State} {l : List Nat} (h_s : Keeps z s) :
    Keeps z (poisonWords s l) := by
  unfold poisonWords
  repeat' with_reducible first
    | assumption | exact foldl_keeps (P := fun m : Memory => m.wf = true) (fun _ _ => Memory.poisonRange_wf) _ ‹_›
    | exact foldl_keeps (P := fun m : Memory => m.wf = true) (fun _ _ => Memory.poisonRange_wf) _ ‹_›
    | exact Memory.poisonRange_wf | apply Keeps.foldl | intro _ _ _ _ _ _ _ | intro _ _ _ | intro _ _ | intro _
    | apply Keeps.upd | apply Keeps.memUpd

theorem keeps_dropRequests {z : State} {s : State} {p : Request → Bool} (h_s : Keeps z s) :
    Keeps z (dropRequests s p) := by
  unfold dropRequests
  repeat' with_reducible first
    | assumption | apply keeps_finishRequest | apply Keeps.foldl

theorem keeps_loseOps {z : State} {s : State} {p : TensorOp → Bool} (h_s : Keeps z s) :
    Keeps z (loseOps s p) := by
  unfold loseOps
  repeat' with_reducible first
    | assumption | apply keeps_dropRequests | apply keeps_dropOps

theorem keeps_loseThreads {z : State} {s : State} {L : Nat} {p : Nat → Bool} (h_s : Keeps z s) :
    Keeps z (loseThreads s L p) := by
  unfold loseThreads
  repeat' with_reducible first
    | assumption | apply Keeps.ite | apply keeps_loseOps | apply keeps_lost | apply keeps_sweepWakes
    | apply keeps_dropTakers | intro _ _ _ _ _ _ _ | intro _ _ _ | intro _ _ | intro _ | dsimp only | split
    | apply Keeps.upd

theorem keeps_tellContexts {z : State} {s : State} {L : Nat} (h_s : Keeps z s) :
    Keeps z (tellContexts s L) := by
  unfold tellContexts
  repeat' with_reducible first
    | assumption | apply keeps_ctxEvent | apply Keeps.foldl | intro _ _ _ _ _ _ _ | intro _ _ _

theorem keeps_markContexts {z : State} {s : State} {L : Nat} (h_s : Keeps z s) :
    Keeps z (markContexts s L) := by
  unfold markContexts
  repeat' with_reducible first
    | assumption | apply keeps_setRaw | apply Keeps.foldl | intro _ _ _ _ _ _ _ | intro _ _ _

theorem keeps_dropUnitRequests {z : State} {s : State} {L : Nat} (h_s : Keeps z s) :
    Keeps z (dropUnitRequests s L) := by
  unfold dropUnitRequests
  repeat' with_reducible first
    | assumption | apply keeps_dropRequests

theorem keeps_dropWatches {z : State} {s0 : State} {L : Nat} (h_s0 : Keeps z s0) :
    Keeps z (dropWatches s0 L) := by
  unfold dropWatches
  repeat' with_reducible first
    | assumption | apply keeps_sweepWakes | apply keeps_endGate | apply Keeps.foldl | intro _ _ _ _ _ _ _
    | intro _ _ _ | intro _ _ | intro _ | apply Keeps.upd

theorem keeps_endUnitTransfers {z : State} {s : State} {L : Nat} (h_s : Keeps z s) :
    Keeps z (endUnitTransfers s L) := by
  unfold endUnitTransfers
  repeat' with_reducible first
    | assumption | exact id | exact freshIds_filter | exact freshIds_add rfl | intro _ _ _ _ _ _ _ | intro _ _ _
    | intro _ _ | intro _ | split | apply Keeps.upd | apply Keeps.listUpd

theorem keeps_endRegionWork {z : State} {s : State} {L : Nat} (h_s : Keeps z s) :
    Keeps z (endRegionWork s L) := by
  unfold endRegionWork
  repeat' with_reducible first
    | assumption | apply keeps_abortAndRun | apply keeps_endUnitTransfers | apply keeps_dropUnitRequests
    | apply keeps_loseOps | apply keeps_modRegion | apply keeps_dropWatches | apply keeps_loseThreads
    | apply keeps_releaseVersions | apply Keeps.foldl | intro _ _ _ _ _ _ _ | intro _ _ _ | intro _ _ | intro _
    | dsimp only | split

theorem keeps_failRegion {z : State} {L p : Nat} {s0 : State} (h_s0 : Keeps z s0) :
    Keeps z (failRegion L p s0) := by
  unfold failRegion
  repeat' with_reducible first
    | assumption | apply keeps_endTransfer | apply keeps_emptyStandby | apply keeps_modRegion | apply keeps_logFault
    | apply keeps_endRegionWork | apply keeps_markContexts | apply keeps_tellContexts | intro _ _ _ _ _ _ _
    | intro _ _ _ | intro _ _ | intro _ | dsimp only | split

theorem keeps_execRegionFailure {z : State} {phys : Nat} {s : State} (h_s : Keeps z s) :
    KeepsNext z (execRegionFailure phys s) := by
  unfold execRegionFailure
  repeat' with_reducible first
    | assumption | apply KeepsNext.next | apply KeepsNext.notNow | apply KeepsNext.ite | apply Keeps.ite
    | apply keeps_quorumAct | apply keeps_failRegion | split

theorem keeps_evictHomes {z : State} {s : State} {L : Nat} (h_s : Keeps z s) :
    Keeps z (evictHomes s L) := by
  unfold evictHomes
  repeat' with_reducible first
    | assumption | apply keeps_evict | apply keeps_freeUnits | apply Keeps.foldl

theorem keeps_zeroRegion {z : State} {s : State} {L : Nat} (h_s : Keeps z s) :
    Keeps z (zeroRegion s L) := by
  unfold zeroRegion
  repeat' with_reducible first
    | assumption | exact Memory.eraseWhere_wf | intro _ _ _ _ _ _ _ | intro _ _ _ | intro _ _ | intro _
    | apply Keeps.upd | apply Keeps.memUpd

theorem keeps_giveUpCredits {z : State} {s : State} {p : Nat} (h_s : Keeps z s) :
    Keeps z (giveUpCredits s p) := by
  unfold giveUpCredits
  repeat' with_reducible first
    | assumption | apply Keeps.ite | apply keeps_setDest | apply Keeps.foldl | intro _ _ _ _ _ _ _ | intro _ _ _
    | intro _ _ | intro _ | apply Keeps.upd

theorem keeps_moveTransfers {z s : State} {L p e : Nat} (h : Keeps z s) : Keeps z (moveTransfers s L p e) := by
  unfold moveTransfers
  refine Keeps.listUpd (fun a => a) (fun a => a) (fun a => a) (fun w => freshIds_map ?_ (freshIds_filter w)) h
  intro x
  split <;> rfl

theorem keeps_countExchange {z : State} {s : State} {L : Nat} (h_s : Keeps z s) :
    Keeps z (countExchange s L) := by
  unfold countExchange
  repeat' with_reducible first
    | assumption | apply keeps_modCtx | apply Keeps.foldl | intro _ _ _ _ _ _ _ | intro _ _ _

theorem keeps_recordFailed {z : State} {s : State} {p : Nat} (h_s : Keeps z s) :
    Keeps z (recordFailed s p) := by
  unfold recordFailed
  repeat' with_reducible first
    | assumption | apply keeps_recordRetirement | apply keeps_modPhys

theorem keeps_logReruns {z : State} {s : State} {L p : Nat} (h_s : Keeps z s) :
    Keeps z (logReruns s L p) := by
  unfold logReruns
  repeat' with_reducible first
    | assumption | apply keeps_logFault | apply Keeps.foldl | intro _ _ _ _ _ _ _ | intro _ _ _ | intro _ _ | intro _
    | split

theorem keeps_leaveMap {z : State} {s : State} {x : RegionExchange} {slot : Nat} (h_s : Keeps z s) :
    Keeps z (leaveMap s x slot) := by
  unfold leaveMap
  repeat' with_reducible first
    | assumption | apply Keeps.ite | apply keeps_modPhys | apply keeps_recordFailed

theorem keeps_exchangeLog {z : State} {s : State} {x : RegionExchange} (h_s : Keeps z s) :
    Keeps z (exchangeLog s x) := by
  unfold exchangeLog
  repeat' with_reducible first
    | assumption | apply keeps_logFault | split

theorem keeps_becomeVacant {z : State} {s : State} {L : Nat} {x : RegionExchange} (h_s : Keeps z s) :
    Keeps z (becomeVacant s L x) := by
  unfold becomeVacant
  repeat' with_reducible first
    | assumption | apply Keeps.ite | apply keeps_endRegionWork | apply keeps_tellContexts | apply keeps_zeroRegion
    | apply keeps_evictHomes | apply keeps_modRegion | apply keeps_recordFailed | apply keeps_giveUpCredits

theorem keeps_applyExchange {z : State} {s : State} {L : Nat} {x : RegionExchange} (h_s : Keeps z s) :
    Keeps z (applyExchange s L x) := by
  unfold applyExchange
  repeat' with_reducible first
    | assumption | apply Keeps.ite | apply keeps_exchangeLog | apply keeps_becomeVacant | apply keeps_logReruns
    | apply keeps_zeroRegion | apply keeps_evictHomes | apply keeps_moveTransfers | apply keeps_giveUpCredits
    | apply keeps_leaveMap | apply keeps_modPhys | apply keeps_modRegion | apply keeps_reloadCode
    | apply keeps_countExchange | intro _ _ _ _ _ _ _ | intro _ _ _ | intro _ _ | intro _ | dsimp only | split

theorem Memory.swapSlots_wf {m : Memory} (h : m.wf = true) : m.swapSlots.wf = true := by
  unfold Memory.swapSlots
  exact Memory.wf_of_cells rfl (foldl_keeps (P := fun m : Memory => m.wf = true) (fun _ _ => Memory.putByte_wf) _
    (Memory.eraseWhere_wf h))

theorem keeps_swapSlots {z s : State} (h : Keeps z s) : Keeps z (swapSlots s) := by
  unfold swapSlots
  extract_lets a b s1 s2
  have h1 : Keeps z s1 := keeps_modRegion (keeps_modRegion (Keeps.memUpd Memory.swapSlots_wf h))
  have h2 : Keeps z s2 := by
    refine Keeps.listUpd (fun w => freshIds_map ?_ w) (fun a => a) (fun a => a) (fun a => a) h1
    intro x
    split <;> rfl
  exact Keeps.foldl (fun _ _ k => keeps_mapObject k) h2

theorem keeps_orderSlots {z : State} {s : State} (h_s : Keeps z s) :
    Keeps z (orderSlots s) := by
  unfold orderSlots
  repeat' with_reducible first
    | assumption | apply Keeps.ite | apply keeps_swapSlots | split

theorem keeps_storeMap {z : State} {s : State} (h_s : Keeps z s) :
    Keeps z (storeMap s) := by
  unfold storeMap
  repeat' with_reducible first
    | assumption | apply keeps_storeRecord | intro _ _ _ _ _ _ _ | intro _ _ _ | intro _ _ | intro _ | apply Keeps.upd
    | apply Keeps.flashUpd | exact List.prefix_rfl

theorem keeps_applyMap {z : State} {s : State} (h_s : Keeps z s) :
    Keeps z (applyMap s) := by
  unfold applyMap
  repeat' with_reducible first
    | assumption | apply keeps_applyExchange | apply keeps_recordFailed | apply keeps_giveUpCredits
    | apply keeps_storeMap | apply keeps_freedUnits | apply keeps_orderSlots | apply Keeps.foldl | intro _ _ _ _ _ _ _
    | intro _ _ _

theorem keeps_execRegionMapApply {z : State} {s : State} (h_s : Keeps z s) :
    KeepsNext z (execRegionMapApply s) := by
  unfold execRegionMapApply
  repeat' with_reducible first
    | assumption | apply KeepsNext.next | apply KeepsNext.notNow | apply KeepsNext.ite | apply Keeps.ite
    | apply keeps_disagreement | apply keeps_newBallot | apply keeps_applyMap | apply Keeps.upd

theorem again_id {q : TensorOp} {t : Nat} : (q.again t).id = q.id := by
  unfold TensorOp.again
  split <;> rfl

theorem keeps_dissolveRigs {z s : State} {L pos : Nat} (h : Keeps z s) : Keeps z (dissolveRigs s L pos) := by
  unfold dissolveRigs
  refine keeps_dropRequests (Keeps.listUpd (fun a => a) (freshIds_map ?_) (fun a => a) (fun a => a) h)
  intro x
  split
  · exact again_id
  · rfl

theorem keeps_retireCell {z : State} {s : State} {L pos : Nat} (h_s : Keeps z s) :
    Keeps z (retireCell s L pos) := by
  unfold retireCell
  repeat' with_reducible first
    | assumption | apply Keeps.ite | apply keeps_recordRetirement | apply keeps_modPhys | apply keeps_dissolveRigs
    | apply keeps_modRegion | apply keeps_regionFault | apply keeps_logFault | intro _ _ _ _ _ _ _ | intro _ _ _
    | intro _ _ | intro _ | dsimp only | split

theorem keeps_execCellRetire {z : State} {region cell : Nat} {s : State} (h_s : Keeps z s) :
    KeepsNext z (execCellRetire region cell s) := by
  unfold execCellRetire
  repeat' with_reducible first
    | assumption | apply KeepsNext.next | apply KeepsNext.notNow | apply KeepsNext.ite | apply Keeps.ite
    | apply keeps_retireCell

theorem keeps_loseCell {z : State} {s : State} {L pos : Nat} (h_s : Keeps z s) :
    Keeps z (loseCell s L pos) := by
  unfold loseCell
  repeat' with_reducible first
    | assumption | apply keeps_loseThreads | apply keeps_modRegion | apply keeps_ctxEvent | apply Keeps.foldl
    | intro _ _ _ _ _ _ _ | intro _ _ _ | intro _ _ | intro _ | dsimp only | split | apply Keeps.upd

theorem keeps_clearPredictor {z : State} {s : State} {L b : Nat} (h_s : Keeps z s) :
    Keeps z (clearPredictor s L b) := by
  unfold clearPredictor
  repeat' with_reducible first
    | assumption | apply keeps_modRegion

theorem keeps_execSpareSplice {z : State} {region cell : Nat} {lost : Bool} {poisonT0 : List Nat} {s : State} (h_s :
    Keeps z s) :
    KeepsNext z (execSpareSplice region cell lost poisonT0 s) := by
  unfold execSpareSplice
  repeat' with_reducible first
    | assumption | apply KeepsNext.next | apply KeepsNext.notNow | apply KeepsNext.ite | apply Keeps.ite
    | apply keeps_modPhys | apply keeps_modRegion | apply keeps_poisonWords | apply keeps_clearPredictor
    | apply keeps_logFault | apply keeps_lost | apply keeps_reloadCode | apply keeps_loseCell | intro _ _ _ _ _ _ _
    | intro _ _ _ | intro _ _ | intro _ | dsimp only | split

theorem keeps_execMigrationCopyDone {z : State} {region : Nat} {poisoned : List Nat} {s : State} (h_s : Keeps z s) :
    KeepsNext z (execMigrationCopyDone region poisoned s) := by
  unfold execMigrationCopyDone
  repeat' with_reducible first
    | assumption | apply KeepsNext.next | apply KeepsNext.notNow | apply KeepsNext.ite | apply Keeps.ite
    | apply keeps_loseCell | apply keeps_endTransfer | apply keeps_poisonWords | apply keeps_modRegion
    | apply Keeps.foldl | intro _ _ _ _ _ _ _ | intro _ _ _ | intro _ _ | intro _ | dsimp only | split

theorem keeps_execHandshakeTimeout {z : State} {u : TimeoutUnit} {s : State} (h_s : Keeps z s) :
    KeepsNext z (execHandshakeTimeout u s) := by
  unfold execHandshakeTimeout
  repeat' with_reducible first
    | assumption | apply KeepsNext.next | apply KeepsNext.notNow | apply KeepsNext.ite | apply Keeps.ite
    | apply keeps_modPhys | apply keeps_retireCell | apply keeps_logFault | apply keeps_regionFault
    | intro _ _ _ _ _ _ _ | intro _ _ _ | intro _ _ | intro _ | dsimp only | split

theorem keeps_retireGranule {z : State} {s : State} {st ch g : Nat} (h_s : Keeps z s) :
    Keeps z (retireGranule s st ch g) := by
  unfold retireGranule
  repeat' with_reducible first
    | assumption | apply Keeps.ite | apply keeps_floorEvent | apply keeps_logFault | apply keeps_recordRetirement
    | intro _ _ _ _ _ _ _ | intro _ _ _ | intro _ _ | intro _ | apply Keeps.upd

theorem keeps_t2Error {z : State} {s : State} {a : Nat} {g : Option Nat} (h_s : Keeps z s) :
    Keeps z (t2Error s a g) := by
  unfold t2Error
  repeat' with_reducible first
    | assumption | exact foldl_keeps (P := fun m : Memory => m.wf = true) (fun _ _ => Memory.poisonAt_wf) _ ‹_›
    | exact Memory.poisonAt_wf | apply keeps_logFault | apply keeps_retireGranule | apply keeps_ctxEvent
    | apply Keeps.foldl | intro _ _ _ _ _ _ _ | intro _ _ _ | intro _ _ | intro _ | dsimp only | split
    | apply Keeps.upd | apply Keeps.memUpd

theorem keeps_countError {z : State} {s : State} {p unit ctx detail : Nat} (h_s : Keeps z s) :
    Keeps z (countError s p unit ctx detail) := by
  unfold countError
  repeat' with_reducible first
    | assumption | apply keeps_logFault | apply keeps_modPhys

theorem keeps_cellError {z : State} {s : State} {L pos detail : Nat} (h_s : Keeps z s) :
    Keeps z (cellError s L pos detail) := by
  unfold cellError
  repeat' with_reducible first
    | assumption | apply keeps_retireCell | apply keeps_countError | split

theorem keeps_wordError {z : State} {s : State} {H detail : Nat} {a : Option Nat} (h_s : Keeps z s) :
    Keeps z (wordError s H detail a) := by
  unfold wordError
  repeat' with_reducible first
    | assumption | apply keeps_countError | apply keeps_regionFault | apply keeps_poisonWords | dsimp only | split

theorem keeps_wordLost {z : State} {s : State} {place : ErrorPlace} {g : Option Nat} (h_s : Keeps z s) :
    Keeps z (wordLost s place g) := by
  unfold wordLost
  repeat' with_reducible first
    | assumption | apply keeps_poisonWords | apply keeps_cellError | apply keeps_wordError | apply keeps_t2Error
    | split

theorem keeps_execUncorrectableError {z : State} {place : ErrorPlace} {s : State} (h_s : Keeps z s) :
    KeepsNext z (execUncorrectableError place s) := by
  unfold execUncorrectableError
  repeat' with_reducible first
    | assumption | apply KeepsNext.next | apply keeps_wordLost | split

theorem keeps_scrubEpoch {z : State} {s : State} (h_s : Keeps z s) :
    Keeps z (scrubEpoch s) := by
  unfold scrubEpoch
  repeat' with_reducible first
    | assumption | apply Keeps.ite | apply Keeps.upd

theorem keeps_t2Corrected {z : State} {s : State} {a g : Nat} (h_s : Keeps z s) :
    Keeps z (t2Corrected s a g) := by
  unfold t2Corrected
  repeat' with_reducible first
    | assumption | apply Keeps.ite | apply keeps_scrubEpoch | apply keeps_retireGranule | apply Keeps.upd

theorem keeps_corrected {z : State} {s : State} {L : Nat} (h_s : Keeps z s) :
    Keeps z (corrected s L) := by
  unfold corrected
  repeat' with_reducible first
    | assumption | apply keeps_modPhys | intro _ _ _ _ _ _ _ | intro _ _ _ | intro _ _ | intro _ | split

theorem keeps_execPatrolScrub {z : State} {place : ErrorPlace} {flips : Nat} {s : State} (h_s : Keeps z s) :
    KeepsNext z (execPatrolScrub place flips s) := by
  unfold execPatrolScrub
  repeat' with_reducible first
    | assumption | apply KeepsNext.next | apply KeepsNext.notNow | apply KeepsNext.ite | apply Keeps.ite
    | apply keeps_corrected | apply keeps_t2Corrected | apply keeps_wordLost | dsimp only | split

theorem keeps_startService {z : State} {s : State} {c : Cmd} {action p : Nat} (h_s : Keeps z s) :
    Keeps z (startService s c action p) := by
  unfold startService
  repeat' with_reducible first
    | assumption | apply Keeps.ite | apply keeps_modPhys | apply keeps_setCmd | apply keeps_endCmd
    | apply keeps_withdraw | apply keeps_emptyStandby | intro _ _ _ _ _ _ _ | intro _ _ _ | intro _ _ | intro _
    | dsimp only | split

theorem keeps_serviceCmd {z : State} {s : State} {action : Nat} {c : Cmd} (h_s : Keeps z s) :
    Keeps z (serviceCmd s action c) := by
  unfold serviceCmd
  repeat' with_reducible first
    | assumption | apply Keeps.ite | apply keeps_endCmd | apply keeps_startService

theorem keeps_execSelfTest {z : State} {cmd : Nat} {s : State} (h_s : Keeps z s) :
    KeepsNext z (execSelfTest cmd s) := by
  unfold execSelfTest
  repeat' with_reducible first
    | assumption | apply KeepsNext.ite | apply Keeps.ite | apply keeps_atCmd | apply keeps_endCmd
    | apply keeps_serviceCmd | intro _ _ _ _ _ _ _ | intro _ _ _ | intro _ _ | intro _

theorem keeps_execCalibration {z : State} {cmd : Nat} {s : State} (h_s : Keeps z s) :
    KeepsNext z (execCalibration cmd s) := by
  unfold execCalibration
  repeat' with_reducible first
    | assumption | apply keeps_atCmd | apply keeps_serviceCmd | intro _ _ _ _ _ _ _ | intro _ _ _ | intro _ _
    | intro _

theorem keeps_execExchange {z : State} {cmd : Nat} {s : State} (h_s : Keeps z s) :
    KeepsNext z (execExchange cmd s) := by
  unfold execExchange
  repeat' with_reducible first
    | assumption | apply keeps_atCmd | apply keeps_serviceCmd | intro _ _ _ _ _ _ _ | intro _ _ _ | intro _ _
    | intro _

theorem keeps_testSplice {z : State} {p : Nat} {s : State} {pos : Nat} (h_s : Keeps z s) :
    Keeps z (testSplice p s pos) := by
  unfold testSplice
  repeat' with_reducible first
    | assumption | apply keeps_modPhys | apply keeps_logFault | apply keeps_recordRetirement | intro _ _ _ _ _ _ _
    | intro _ _ _ | intro _ _ | intro _ | dsimp only | split

theorem keeps_testCells {z : State} {s : State} {p : Nat} (h_s : Keeps z s) :
    Keeps z (testCells s p) := by
  unfold testCells
  repeat' with_reducible first
    | assumption | apply keeps_freshNat | apply keeps_testSplice | apply Keeps.foldl

theorem keeps_execServiceActionDone {z : State} {phys : Nat} {passed : Bool} {s : State} (h_s : Keeps z s) :
    KeepsNext z (execServiceActionDone phys passed s) := by
  unfold execServiceActionDone
  repeat' with_reducible first
    | assumption | apply KeepsNext.next | apply KeepsNext.notNow | apply KeepsNext.ite | apply Keeps.ite
    | apply keeps_logFault | apply keeps_testCells | apply keeps_modPhys | apply keeps_endCmd | intro _ _ _ _ _ _ _
    | intro _ _ _ | intro _ _ | intro _ | dsimp only | split

end Sys2Proof.Machine
end

