-- ==== Sys2Proof/Laws/KeepsPower.lean ====
section
/-! SUPPORT. One lemma for each operation of Machine/Power.lean: what it keeps (Laws/Keeps.lean). -/

namespace Sys2Proof.Machine

open Sys2Proof

theorem keeps_w1cWhen {z : State} {b : Bool} {s : State} {off hi : Nat} (h_s : Keeps z s) :
    Keeps z (w1cWhen b s off hi) := by
  unfold w1cWhen
  repeat' with_reducible first
    | assumption | apply Keeps.ite | apply keeps_w1cEvent

theorem keeps_burnerStep {z : State} {s0 s : State} {p : Nat} {b : BurnerInput} (h_s0 : Keeps z s0) (h_s : Keeps z s) :
    Keeps z (burnerStep s0 s p b) := by
  unfold burnerStep
  repeat' with_reducible first
    | assumption | apply Keeps.ite | apply keeps_lost | apply keeps_w1cWhen | apply keeps_setPhys
    | apply keeps_addStall | apply keeps_w1cEvent | apply keeps_deviceEvent | dsimp only | split | apply Keeps.upd

theorem keeps_divideBudget {z : State} {s : State} {l : List Nat} (h_s : Keeps z s) :
    Keeps z (divideBudget s l) := by
  unfold divideBudget
  repeat' with_reducible first
    | assumption | apply Keeps.ite | apply keeps_idle | apply keeps_modPhys | apply Keeps.foldl | intro _ _ _ _ _ _ _
    | intro _ _ _

theorem keeps_heatFaults {z : State} {s : State} {l : List (Nat × BurnerInput)} {linkTj : Int} (h_s : Keeps z s) :
    Keeps z (heatFaults s l linkTj) := by
  unfold heatFaults
  repeat' with_reducible first
    | assumption | apply Keeps.ite | apply keeps_limited | apply keeps_w1cEvent | apply keeps_deviceEvent
    | apply keeps_regionFault | apply Keeps.foldl | intro _ _ _ _ _ _ _ | intro _ _ _ | intro _ _ | intro _
    | apply Keeps.upd

theorem keeps_execBurnerControlInterval {z : State} {regions : List (Nat × BurnerInput)} {linkW : Nat} {linkTj : Int}
    {s : State} (h_s : Keeps z s) :
    KeepsNext z (execBurnerControlInterval regions linkW linkTj s) := by
  unfold execBurnerControlInterval
  repeat' with_reducible first
    | assumption | apply KeepsNext.next | apply KeepsNext.notNow | apply KeepsNext.ite | apply Keeps.ite
    | apply keeps_chargeEnergy | apply keeps_burnerStep | apply keeps_limited | apply keeps_w1cEvent
    | apply keeps_deviceEvent | apply keeps_heatFaults | apply keeps_divideBudget | apply Keeps.foldl
    | intro _ _ _ _ _ _ _ | intro _ _ _ | intro _ _ | intro _ | dsimp only | split | apply Keeps.upd

theorem keeps_execRailRise {z : State} {region : Nat} {s : State} (h_s : Keeps z s) :
    KeepsNext z (execRailRise region s) := by
  unfold execRailRise
  repeat' with_reducible first
    | assumption | apply KeepsNext.next | apply KeepsNext.notNow | apply KeepsNext.ite | apply Keeps.ite
    | apply keeps_modPhys | intro _ _ _ _ _ _ _ | intro _ _ _ | intro _ _ | intro _ | split

theorem keeps_execLiftFlit {z : State} {crcOk : Bool} {r : LiftReport} {s : State} (h_s : Keeps z s) :
    KeepsNext z (execLiftFlit crcOk r s) := by
  unfold execLiftFlit
  repeat' with_reducible first
    | assumption | apply KeepsNext.next | apply KeepsNext.ite | apply Keeps.ite | intro _ _ _ _ _ _ _ | intro _ _ _
    | intro _ _ | intro _ | apply Keeps.upd

theorem keeps_execLiftOffsetApply {z : State} {s : State} (h_s : Keeps z s) :
    KeepsNext z (execLiftOffsetApply s) := by
  unfold execLiftOffsetApply
  repeat' with_reducible first
    | assumption | apply KeepsNext.next | apply KeepsNext.notNow | apply KeepsNext.ite | apply Keeps.ite
    | apply Keeps.foldl | intro _ _ _ _ _ _ _ | intro _ _ _ | intro _ _ | intro _ | dsimp only | split
    | apply Keeps.upd

end Sys2Proof.Machine
end

