-- ==== Sys2Proof/Laws/KeepsHostPort.lean ====
section
/-! SUPPORT. One lemma for each operation of Machine/HostPort.lean: what it keeps (Laws/Keeps.lean). -/

namespace Sys2Proof.Machine

open Sys2Proof

theorem keeps_trainPort {z : State} {s : State} {port : Nat} (h_s : Keeps z s) :
    Keeps z (trainPort s port) := by
  unfold trainPort
  repeat' with_reducible first
    | assumption | apply Keeps.ite | apply keeps_freshNat | apply keeps_modPort | intro _ _ _ _ _ _ _ | intro _ _ _
    | intro _ _ | intro _ | dsimp only | split

theorem keeps_loseHost {z : State} {s : State} {port : Nat} (h_s : Keeps z s) :
    Keeps z (loseHost s port) := by
  unfold loseHost
  repeat' with_reducible first
    | assumption | apply keeps_lost | apply keeps_ctxEvent | apply Keeps.foldl | intro _ _ _ _ _ _ _ | intro _ _ _
    | intro _ _ | intro _ | dsimp only | split

theorem keeps_switchServing {z : State} {s : State} {port : Nat} (h_s : Keeps z s) :
    Keeps z (switchServing s port) := by
  unfold switchServing
  repeat' with_reducible first
    | assumption | apply Keeps.ite | apply keeps_setRaw | apply keeps_freshNat | apply Keeps.upd

theorem keeps_portLost {z : State} {s : State} {port : Nat} (h_s : Keeps z s) :
    Keeps z (portLost s port) := by
  unfold portLost
  repeat' with_reducible first
    | assumption | apply Keeps.ite | apply keeps_modPort | apply keeps_loseHost | apply keeps_switchServing

theorem keeps_execPcieLinkDown {z : State} {port : Nat} {s : State} (h_s : Keeps z s) :
    KeepsNext z (execPcieLinkDown port s) := by
  unfold execPcieLinkDown
  repeat' with_reducible first
    | assumption | apply KeepsNext.next | apply KeepsNext.notNow | apply KeepsNext.ite | apply Keeps.ite
    | apply keeps_portLost

theorem keeps_execPerstDeassert {z : State} {port : Nat} {s : State} (h_s : Keeps z s) :
    KeepsNext z (execPerstDeassert port s) := by
  unfold execPerstDeassert
  repeat' with_reducible first
    | assumption | apply KeepsNext.next | apply KeepsNext.notNow | apply KeepsNext.ite | apply Keeps.ite
    | apply keeps_trainPort | apply keeps_modPort

theorem keeps_resetConfig {z : State} {s : State} {p : Nat × Nat → Bool} (h_s : Keeps z s) :
    Keeps z (resetConfig s p) := by
  unfold resetConfig
  repeat' with_reducible first
    | assumption | intro _ _ _ _ _ _ _ | intro _ _ _ | intro _ _ | intro _ | apply Keeps.upd

theorem keeps_execPerstAssert {z : State} {port : Nat} {s : State} (h_s : Keeps z s) :
    KeepsNext z (execPerstAssert port s) := by
  unfold execPerstAssert
  repeat' with_reducible first
    | assumption | apply KeepsNext.next | apply KeepsNext.notNow | apply KeepsNext.ite | apply Keeps.ite
    | apply keeps_resetConfig | apply keeps_portLost | apply keeps_modPort

theorem keeps_dropCommands {z : State} {s : State} {fn : Nat} (h_s : Keeps z s) :
    Keeps z (dropCommands s fn) := by
  unfold dropCommands
  repeat' with_reducible first
    | assumption | exact id | exact freshIds_filter | exact freshIds_add rfl | apply keeps_endTransfer
    | apply keeps_copyCmd | apply keeps_giveBack | apply Keeps.foldl | intro _ _ _ _ _ _ _ | intro _ _ _ | intro _ _
    | intro _ | dsimp only | split | apply Keeps.upd | apply Keeps.listUpd

theorem keeps_dropHoldings {z : State} {s : State} {fn : Nat} (h_s : Keeps z s) :
    Keeps z (dropHoldings s fn) := by
  unfold dropHoldings
  repeat' with_reducible first
    | assumption | apply keeps_dropAlloc | apply Keeps.foldl | intro _ _ _ _ _ _ _ | intro _ _ _ | intro _ _ | intro _
    | apply Keeps.upd

theorem keeps_execFunctionLevelReset {z : State} {fn : Nat} {s : State} (h_s : Keeps z s) :
    KeepsNext z (execFunctionLevelReset fn s) := by
  unfold execFunctionLevelReset
  repeat' with_reducible first
    | assumption | apply KeepsNext.next | apply KeepsNext.notNow | apply KeepsNext.ite | apply Keeps.ite
    | apply keeps_destroyCtx | apply keeps_dropHoldings | apply keeps_dropCommands | apply keeps_modFn
    | apply keeps_resetConfig | apply Keeps.foldl | intro _ _ _ _ _ _ _ | intro _ _ _

theorem keeps_execCompletionTimeout {z : State} {req : Nat} {s : State} (h_s : Keeps z s) :
    KeepsNext z (execCompletionTimeout req s) := by
  unfold execCompletionTimeout
  repeat' with_reducible first
    | assumption | apply KeepsNext.next | apply KeepsNext.notNow | apply KeepsNext.ite | apply Keeps.ite
    | apply keeps_ctxEvent | apply keeps_lost | apply keeps_aerError | split

theorem keeps_configure {z : State} {s : State} {fn : Nat} {op : ConfigOp} (h_s : Keeps z s) :
    Keeps z (configure s fn op) := by
  unfold configure
  repeat' with_reducible first
    | assumption | apply Keeps.ite | apply keeps_freshNat | apply keeps_emit | apply keeps_modCfgAt
    | intro _ _ _ _ _ _ _ | intro _ _ _ | intro _ _ | intro _ | dsimp only | split

theorem keeps_execConfigurationRequest {z : State} {fn : Nat} {op : ConfigOp} {s : State} (h_s : Keeps z s) :
    KeepsNext z (execConfigurationRequest fn op s) := by
  unfold execConfigurationRequest
  repeat' with_reducible first
    | assumption | apply KeepsNext.next | apply KeepsNext.notNow | apply KeepsNext.ite | apply Keeps.ite
    | apply keeps_emit | apply keeps_configure

theorem keeps_execMctpMessage {z : State} {m : MctpRequest} {s : State} (h_s : Keeps z s) :
    KeepsNext z (execMctpMessage m s) := by
  unfold execMctpMessage
  repeat' with_reducible first
    | assumption | apply KeepsNext.next | apply KeepsNext.notNow | apply KeepsNext.ite | apply Keeps.ite
    | apply keeps_emit | apply keeps_writeLifetime | dsimp only | split | apply Keeps.upd

theorem keeps_execTapInstruction {z : State} {i : TapOp} {s : State} (h_s : Keeps z s) :
    KeepsNext z (execTapInstruction i s) := by
  unfold execTapInstruction
  repeat' with_reducible first
    | assumption | apply KeepsNext.next | apply KeepsNext.notNow | apply KeepsNext.ite | apply Keeps.ite
    | apply Keeps.upd

end Sys2Proof.Machine
end

