-- ==== Sys2Proof/Laws/KeepsPowerOn.lean ====
section
/-! SUPPORT. One lemma for each operation of Machine/PowerOn.lean: what it keeps (Laws/Keeps.lean). -/

namespace Sys2Proof.Machine

open Sys2Proof

theorem keeps_coreReset {z s : State} (h : Keeps z s) : Keeps z (coreReset s) :=
  h.trans ⟨rfl, fun w => cellsWf_filter _ w, rfl, List.prefix_rfl, List.prefix_rfl, fun _ => freshIds_nil,
    fun _ => freshIds_nil, fun _ => freshIds_nil, fun _ => freshIds_nil⟩

theorem keeps_execVaonValid {z : State} {straps : Fin 8} {s : State} (h : Keeps z s) :
    KeepsNext z (execVaonValid straps s) := by
  unfold execVaonValid
  split
  · exact KeepsNext.notNow h
  · exact KeepsNext.next (h.trans ⟨rfl, id, rfl, List.prefix_rfl, List.prefix_rfl, id, id, id, id⟩)

theorem keeps_execVaonLoss {z : State} {s : State} (h_s : Keeps z s) :
    KeepsNext z (execVaonLoss s) := by
  unfold execVaonLoss
  split
  · exact KeepsNext.notNow h_s
  · exact KeepsNext.next ((keeps_coreReset h_s).trans ⟨rfl, id, rfl, List.prefix_rfl, List.prefix_rfl, id, id, id, id⟩)

theorem keeps_execSharedPgLoss {z : State} {s : State} (h_s : Keeps z s) :
    KeepsNext z (execSharedPgLoss s) := by
  unfold execSharedPgLoss
  repeat' with_reducible first
    | assumption | apply KeepsNext.next | apply KeepsNext.notNow | apply KeepsNext.ite | apply Keeps.ite
    | apply keeps_coreReset

theorem keeps_formQuorum {z : State} {s : State} {fail : List Nat} (h_s : Keeps z s) :
    Keeps z (formQuorum s fail) := by
  unfold formQuorum
  repeat' with_reducible first
    | assumption | apply keeps_newBallot | apply keeps_failKeel | apply Keeps.foldl | intro _ _ _ _ _ _ _
    | intro _ _ _ | intro _ _ | intro _ | apply Keeps.upd

theorem keeps_restoreMap {z : State} {s : State} (h_s : Keeps z s) :
    Keeps z (restoreMap s) := by
  unfold restoreMap
  repeat' with_reducible first
    | assumption | apply keeps_modPhys | apply Keeps.foldl | intro _ _ _ _ _ _ _ | intro _ _ _

theorem keeps_restoreRetirement {z : State} {s : State} {r : Retirement} (h_s : Keeps z s) :
    Keeps z (restoreRetirement s r) := by
  unfold restoreRetirement
  repeat' with_reducible first
    | assumption | apply Keeps.ite | apply keeps_modPhys | intro _ _ _ _ _ _ _ | intro _ _ _ | intro _ _ | intro _
    | apply Keeps.upd

theorem keeps_checkStored {z : State} {s : State} (h_s : Keeps z s) :
    Keeps z (checkStored s) := by
  unfold checkStored
  repeat' with_reducible first
    | assumption | apply keeps_newRevision | split | apply Keeps.upd

theorem keeps_raiseRails {z : State} {s : State} (h_s : Keeps z s) :
    Keeps z (raiseRails s) := by
  unfold raiseRails
  repeat' with_reducible first
    | assumption | apply keeps_modPhys | apply Keeps.foldl | intro _ _ _ _ _ _ _ | intro _ _ _

theorem keeps_selfCheck {z : State} {fail : List Nat} {s : State} {p : Nat} (h_s : Keeps z s) :
    Keeps z (selfCheck fail s p) := by
  unfold selfCheck
  repeat' with_reducible first
    | assumption | apply keeps_recordFailed | apply keeps_logFault | apply keeps_modPhys | apply keeps_modRegion
    | intro _ _ _ _ _ _ _ | intro _ _ _ | intro _ _ | intro _ | dsimp only | split

theorem keeps_markVacant {z : State} {s : State} (h_s : Keeps z s) :
    Keeps z (markVacant s) := by
  unfold markVacant
  repeat' with_reducible first
    | assumption | apply Keeps.ite | apply keeps_modRegion | apply Keeps.foldl | intro _ _ _ _ _ _ _ | intro _ _ _

theorem keeps_loneMaster {z : State} {s : State} (h_s : Keeps z s) :
    Keeps z (loneMaster s) := by
  unfold loneMaster
  repeat' with_reducible first
    | assumption | apply Keeps.ite | apply Keeps.upd

theorem keeps_startInHold {z : State} {s : State} (h_s : Keeps z s) :
    Keeps z (startInHold s) := by
  unfold startInHold
  repeat' with_reducible first
    | assumption | apply keeps_enterHold | apply Keeps.upd

theorem keeps_powerOn {z : State} {s : State} {regionFail : List Nat} (h_s : Keeps z s) :
    Keeps z (powerOn s regionFail) := by
  unfold powerOn
  repeat' with_reducible first
    | assumption | apply Keeps.ite | apply keeps_restoreMap | apply keeps_checkStored | apply keeps_raiseRails
    | apply keeps_restoreRetirement | apply keeps_orderSlots | apply keeps_markVacant | apply keeps_selfCheck
    | apply keeps_loneMaster | apply keeps_storeMap | apply Keeps.foldl | apply Keeps.upd

theorem readRecord_retirements (f : Flash) : (readRecord f).retirements = f.retirements := by
  unfold readRecord
  split <;> rfl

/-- POWER_GOOD_RISE takes the list of failed Keels from the flash's own record (R463). -/
theorem keeps_execPowerGoodRise {s : State} {k r : List Nat} :
    KeepsNext s (execPowerGoodRise k r s) ∨
      KeepsNext { s with flash := readRecord s.flash } (execPowerGoodRise k r s) := by
  unfold execPowerGoodRise
  split
  · exact .inl (KeepsNext.notNow (Keeps.refl s))
  · refine .inr ?_
    have hf : (readRecord s.flash).failedKeels = (readRecord (if s.flash.present then s.flash else
        { s.flash with boardSerial := 0 })).failedKeels := by
      split
      · rfl
      · next h => simp [readRecord, h]
    have hr : (readRecord s.flash).retirements = (readRecord (if s.flash.present then s.flash else
        { s.flash with boardSerial := 0 })).retirements := by
      rw [readRecord_retirements, readRecord_retirements]
      split <;> rfl
    dsimp only
    apply KeepsNext.ite
    · refine KeepsNext.next (keeps_powerOn (keeps_trainPort (keeps_trainPort (keeps_formQuorum
        ((Keeps.refl _).trans ⟨rfl, id, rfl, ?_, ?_, id, id, id, id⟩)))))
      · exact ⟨[], by rw [List.append_nil]; exact hr⟩
      · exact ⟨[], by rw [List.append_nil]; exact hf⟩
    · refine KeepsNext.next (keeps_startInHold (keeps_trainPort (keeps_trainPort (keeps_formQuorum
        ((Keeps.refl _).trans ⟨rfl, id, rfl, ?_, ?_, id, id, id, id⟩)))))
      · exact ⟨[], by rw [List.append_nil]; exact hr⟩
      · exact ⟨[], by rw [List.append_nil]; exact hf⟩

theorem keeps_standbyPgLoss {z : State} {s : State} {p k : Nat} (h_s : Keeps z s) :
    Keeps z (standbyPgLoss s p k) := by
  unfold standbyPgLoss
  repeat' with_reducible first
    | assumption | apply Keeps.ite | apply keeps_modObject | apply keeps_ctxEvent | apply keeps_enterOthers
    | apply keeps_logFault | apply keeps_modPhys | apply Keeps.foldl | intro _ _ _ _ _ _ _ | intro _ _ _ | intro _ _
    | intro _ | dsimp only | split

theorem keeps_execCorePgLoss {z : State} {phys : Nat} {s : State} (h_s : Keeps z s) :
    KeepsNext z (execCorePgLoss phys s) := by
  unfold execCorePgLoss
  repeat' with_reducible first
    | assumption | apply KeepsNext.next | apply KeepsNext.notNow | apply KeepsNext.ite | apply Keeps.ite
    | apply keeps_modPhys | apply keeps_quorumAct | apply keeps_failRegion | apply keeps_standbyPgLoss
    | intro _ _ _ _ _ _ _ | intro _ _ _ | intro _ _ | intro _ | dsimp only | split

theorem keeps_execTrefLoss {z : State} {s : State} (h_s : Keeps z s) :
    KeepsNext z (execTrefLoss s) := by
  unfold execTrefLoss
  repeat' with_reducible first
    | assumption | apply KeepsNext.next | apply KeepsNext.notNow | apply KeepsNext.ite | apply Keeps.ite
    | apply keeps_freshNat | apply keeps_deviceEvent | apply Keeps.upd

theorem keeps_execTrefReturn {z : State} {s : State} (h_s : Keeps z s) :
    KeepsNext z (execTrefReturn s) := by
  unfold execTrefReturn
  repeat' with_reducible first
    | assumption | apply KeepsNext.next | apply KeepsNext.notNow | apply KeepsNext.ite | apply Keeps.ite
    | apply Keeps.upd

theorem keeps_execLrefclkLoss {z : State} {die : Nat} {s : State} (h_s : Keeps z s) :
    KeepsNext z (execLrefclkLoss die s) := by
  unfold execLrefclkLoss
  repeat' with_reducible first
    | assumption | apply KeepsNext.next | apply KeepsNext.notNow | apply KeepsNext.ite | apply Keeps.ite
    | apply keeps_modLink | apply keeps_logFault | apply keeps_portGoesDown | apply Keeps.foldl | intro _ _ _ _ _ _ _
    | intro _ _ _

theorem keeps_execPrefclkLoss {z : State} {port : Nat} {s : State} (h_s : Keeps z s) :
    KeepsNext z (execPrefclkLoss port s) := by
  unfold execPrefclkLoss
  repeat' with_reducible first
    | assumption | apply KeepsNext.next | apply KeepsNext.notNow | apply KeepsNext.ite | apply Keeps.ite
    | apply keeps_modPort | apply keeps_portLost

end Sys2Proof.Machine
end

