-- ==== Sys2Proof/Laws/KeepsScalar.lean ====
section
/-! SUPPORT. One lemma for each operation of Machine/Scalar.lean: what it keeps (Laws/Keeps.lean). -/

namespace Sys2Proof.Machine

open Sys2Proof

theorem keeps_execNop {z : State} {t : ThreadId} {k : Common} {o : CArgs} {s : State} (h_s : Keeps z s) :
    KeepsNext z (execNop t k o s) := by
  unfold execNop
  repeat' with_reducible first
    | assumption | apply keeps_regWord

theorem keeps_execBr {z : State} {t : ThreadId} {k : Common} {o : CArgs} {s : State} (h_s : Keeps z s) :
    KeepsNext z (execBr t k o s) := by
  unfold execBr
  repeat' with_reducible first
    | assumption | exact KeepsNext.refused | apply KeepsNext.ite | apply Keeps.ite | apply keeps_issueWord
    | apply keeps_modThread | apply keeps_stepPc | intro _ _ _ _ _ _ _ | intro _ _ _ | intro _ _

theorem keeps_execLoop {z : State} {t : ThreadId} {k : Common} {o : CArgs} {s : State} (h_s : Keeps z s) :
    KeepsNext z (execLoop t k o s) := by
  unfold execLoop
  repeat' with_reducible first
    | assumption | exact KeepsNext.refused | apply KeepsNext.ite | apply Keeps.ite | apply keeps_issueWord
    | apply keeps_modThread | intro _ _ _ _ _ _ _ | intro _ _ _ | intro _ _

theorem keeps_execLrd {z : State} {t : ThreadId} {k : Common} {o : IArgs} {s : State} (h_s : Keeps z s) :
    KeepsNext z (execLrd t k o s) := by
  unfold execLrd
  repeat' with_reducible first
    | assumption | apply KeepsNext.ite | apply Keeps.ite | apply keeps_regWord

theorem keeps_execHalt {z : State} {t : ThreadId} {k : Common} {o : CArgs} {s : State} (h_s : Keeps z s) :
    KeepsNext z (execHalt t k o s) := by
  unfold execHalt
  repeat' with_reducible first
    | assumption | apply keeps_issueWord | apply keeps_endThread | apply keeps_stepPc | intro _ _ _ _ _ _ _
    | intro _ _ _ | intro _ _

theorem keeps_execAdd {z : State} {t : ThreadId} {k : Common} {o : RArgs} {s : State} (h_s : Keeps z s) :
    KeepsNext z (execAdd t k o s) := by
  unfold execAdd
  repeat' with_reducible first
    | assumption | apply keeps_regWord

theorem keeps_execSub {z : State} {t : ThreadId} {k : Common} {o : RArgs} {s : State} (h_s : Keeps z s) :
    KeepsNext z (execSub t k o s) := by
  unfold execSub
  repeat' with_reducible first
    | assumption | apply keeps_regWord

theorem keeps_execMul {z : State} {t : ThreadId} {k : Common} {o : RArgs} {s : State} (h_s : Keeps z s) :
    KeepsNext z (execMul t k o s) := by
  unfold execMul
  repeat' with_reducible first
    | assumption | apply keeps_regWord

theorem keeps_execMulhu {z : State} {t : ThreadId} {k : Common} {o : RArgs} {s : State} (h_s : Keeps z s) :
    KeepsNext z (execMulhu t k o s) := by
  unfold execMulhu
  repeat' with_reducible first
    | assumption | apply keeps_regWord

theorem keeps_execMulhs {z : State} {t : ThreadId} {k : Common} {o : RArgs} {s : State} (h_s : Keeps z s) :
    KeepsNext z (execMulhs t k o s) := by
  unfold execMulhs
  repeat' with_reducible first
    | assumption | apply keeps_regWord

theorem keeps_execDivu {z : State} {t : ThreadId} {k : Common} {o : RArgs} {s : State} (h_s : Keeps z s) :
    KeepsNext z (execDivu t k o s) := by
  unfold execDivu
  repeat' with_reducible first
    | assumption | apply keeps_regWord

theorem keeps_execRemu {z : State} {t : ThreadId} {k : Common} {o : RArgs} {s : State} (h_s : Keeps z s) :
    KeepsNext z (execRemu t k o s) := by
  unfold execRemu
  repeat' with_reducible first
    | assumption | apply keeps_regWord

theorem keeps_execDivs {z : State} {t : ThreadId} {k : Common} {o : RArgs} {s : State} (h_s : Keeps z s) :
    KeepsNext z (execDivs t k o s) := by
  unfold execDivs
  repeat' with_reducible first
    | assumption | apply keeps_regWord

theorem keeps_execRems {z : State} {t : ThreadId} {k : Common} {o : RArgs} {s : State} (h_s : Keeps z s) :
    KeepsNext z (execRems t k o s) := by
  unfold execRems
  repeat' with_reducible first
    | assumption | apply keeps_regWord

theorem keeps_execAnd {z : State} {t : ThreadId} {k : Common} {o : RArgs} {s : State} (h_s : Keeps z s) :
    KeepsNext z (execAnd t k o s) := by
  unfold execAnd
  repeat' with_reducible first
    | assumption | apply keeps_regWord

theorem keeps_execOr {z : State} {t : ThreadId} {k : Common} {o : RArgs} {s : State} (h_s : Keeps z s) :
    KeepsNext z (execOr t k o s) := by
  unfold execOr
  repeat' with_reducible first
    | assumption | apply keeps_regWord

theorem keeps_execXor {z : State} {t : ThreadId} {k : Common} {o : RArgs} {s : State} (h_s : Keeps z s) :
    KeepsNext z (execXor t k o s) := by
  unfold execXor
  repeat' with_reducible first
    | assumption | apply keeps_regWord

theorem keeps_execShl {z : State} {t : ThreadId} {k : Common} {o : RArgs} {s : State} (h_s : Keeps z s) :
    KeepsNext z (execShl t k o s) := by
  unfold execShl
  repeat' with_reducible first
    | assumption | apply keeps_regWord

theorem keeps_execShr {z : State} {t : ThreadId} {k : Common} {o : RArgs} {s : State} (h_s : Keeps z s) :
    KeepsNext z (execShr t k o s) := by
  unfold execShr
  repeat' with_reducible first
    | assumption | apply keeps_regWord

theorem keeps_execSra {z : State} {t : ThreadId} {k : Common} {o : RArgs} {s : State} (h_s : Keeps z s) :
    KeepsNext z (execSra t k o s) := by
  unfold execSra
  repeat' with_reducible first
    | assumption | apply keeps_regWord

theorem keeps_execMinmax {z : State} {t : ThreadId} {k : Common} {o : RArgs} {s : State} (h_s : Keeps z s) :
    KeepsNext z (execMinmax t k o s) := by
  unfold execMinmax
  repeat' with_reducible first
    | assumption | apply keeps_regWord

theorem keeps_execAddi {z : State} {t : ThreadId} {k : Common} {o : IArgs} {s : State} (h_s : Keeps z s) :
    KeepsNext z (execAddi t k o s) := by
  unfold execAddi
  repeat' with_reducible first
    | assumption | apply keeps_regWord

theorem keeps_execAndi {z : State} {t : ThreadId} {k : Common} {o : IArgs} {s : State} (h_s : Keeps z s) :
    KeepsNext z (execAndi t k o s) := by
  unfold execAndi
  repeat' with_reducible first
    | assumption | apply keeps_regWord

theorem keeps_execOri {z : State} {t : ThreadId} {k : Common} {o : IArgs} {s : State} (h_s : Keeps z s) :
    KeepsNext z (execOri t k o s) := by
  unfold execOri
  repeat' with_reducible first
    | assumption | apply keeps_regWord

theorem keeps_execXori {z : State} {t : ThreadId} {k : Common} {o : IArgs} {s : State} (h_s : Keeps z s) :
    KeepsNext z (execXori t k o s) := by
  unfold execXori
  repeat' with_reducible first
    | assumption | apply keeps_regWord

theorem keeps_execShifti {z : State} {t : ThreadId} {k : Common} {o : IArgs} {s : State} (h_s : Keeps z s) :
    KeepsNext z (execShifti t k o s) := by
  unfold execShifti
  repeat' with_reducible first
    | assumption | apply keeps_regWord

theorem keeps_execMovi {z : State} {t : ThreadId} {k : Common} {o : LArgs} {s : State} (h_s : Keeps z s) :
    KeepsNext z (execMovi t k o s) := by
  unfold execMovi
  repeat' with_reducible first
    | assumption | apply keeps_regWord

theorem keeps_execCmp {z : State} {t : ThreadId} {k : Common} {o : RArgs} {s : State} (h_s : Keeps z s) :
    KeepsNext z (execCmp t k o s) := by
  unfold execCmp
  repeat' with_reducible first
    | assumption | apply keeps_regWord

theorem keeps_execCmpi {z : State} {t : ThreadId} {k : Common} {o : IArgs} {s : State} (h_s : Keeps z s) :
    KeepsNext z (execCmpi t k o s) := by
  unfold execCmpi
  repeat' with_reducible first
    | assumption | apply keeps_regWord

theorem keeps_execSel {z : State} {t : ThreadId} {k : Common} {o : RArgs} {s : State} (h_s : Keeps z s) :
    KeepsNext z (execSel t k o s) := by
  unfold execSel
  repeat' with_reducible first
    | assumption | apply KeepsNext.ite | apply Keeps.ite | apply keeps_regWord

theorem keeps_execPlog {z : State} {t : ThreadId} {k : Common} {o : RArgs} {s : State} (h_s : Keeps z s) :
    KeepsNext z (execPlog t k o s) := by
  unfold execPlog
  repeat' with_reducible first
    | assumption | apply keeps_regWord

theorem keeps_execFadd {z : State} {t : ThreadId} {k : Common} {o : RArgs} {s : State} (h_s : Keeps z s) :
    KeepsNext z (execFadd t k o s) := by
  unfold execFadd
  repeat' with_reducible first
    | assumption | apply keeps_regWord

theorem keeps_execFmul {z : State} {t : ThreadId} {k : Common} {o : RArgs} {s : State} (h_s : Keeps z s) :
    KeepsNext z (execFmul t k o s) := by
  unfold execFmul
  repeat' with_reducible first
    | assumption | apply keeps_regWord

theorem keeps_execFfma {z : State} {t : ThreadId} {k : Common} {o : RArgs} {s : State} (h_s : Keeps z s) :
    KeepsNext z (execFfma t k o s) := by
  unfold execFfma
  repeat' with_reducible first
    | assumption | apply keeps_regWord

theorem keeps_execFminmax {z : State} {t : ThreadId} {k : Common} {o : RArgs} {s : State} (h_s : Keeps z s) :
    KeepsNext z (execFminmax t k o s) := by
  unfold execFminmax
  repeat' with_reducible first
    | assumption | apply KeepsNext.ite | apply Keeps.ite | apply keeps_regWord

theorem keeps_execFcmp {z : State} {t : ThreadId} {k : Common} {o : RArgs} {s : State} (h_s : Keeps z s) :
    KeepsNext z (execFcmp t k o s) := by
  unfold execFcmp
  repeat' with_reducible first
    | assumption | apply keeps_regWord

theorem keeps_execFcvt {z : State} {t : ThreadId} {k : Common} {o : RArgs} {s : State} (h_s : Keeps z s) :
    KeepsNext z (execFcvt t k o s) := by
  unfold execFcvt
  repeat' with_reducible first
    | assumption | apply keeps_regWord

end Sys2Proof.Machine
end

