-- ==== Sys2Proof/Safety.lean ====
section
/-! DEFINITION. The words in which claims about the device are made: a command that completes, a thread that executes its
word, what a word of a thread may change, and a run that never stops. -/

namespace Sys2Proof.Machine

open Sys2Proof

/-- The command completes at this state, in a next state of which `P` holds. -/
def Completes (c : Instr) (s : State) (P : State → Prop) : Prop := ∃ u, exec c s = .next u ∧ P u

/-- What every reachable state has: memory in canonical form, and fresh numbers for requests, tensor operations, commands
and transfers. -/
structure Sound (s : State) : Prop where
  mem : s.mem.wf = true
  requests : freshIds (·.id) s.requests s.nextReq
  ops : freshIds (·.id) s.ops s.nextOp
  cmds : freshIds (·.id) s.cmds s.nextCmd
  transfers : freshIds (·.id) s.transfers s.nextXfer

/-- Every step of the waiting commands completes: no fault and no refusal in `n` steps. -/
def RunsOn : Nat → State → Prop
  | 0, _ => True
  | n + 1, s => ∃ u, step s = .next u ∧ RunsOn n u

/-- The thread and the common fields of a thread instruction; no other command has them. -/
def wordOf : Instr → Option (ThreadId × Common)
  | .nop t k _ => some (t, k)
  | .br t k _ => some (t, k)
  | .loop t k _ => some (t, k)
  | .lrd t k _ => some (t, k)
  | .halt t k _ => some (t, k)
  | .add t k _ => some (t, k)
  | .sub t k _ => some (t, k)
  | .mul t k _ => some (t, k)
  | .mulhu t k _ => some (t, k)
  | .mulhs t k _ => some (t, k)
  | .divu t k _ => some (t, k)
  | .remu t k _ => some (t, k)
  | .divs t k _ => some (t, k)
  | .rems t k _ => some (t, k)
  | .and t k _ => some (t, k)
  | .or t k _ => some (t, k)
  | .xor t k _ => some (t, k)
  | .shl t k _ => some (t, k)
  | .shr t k _ => some (t, k)
  | .sra t k _ => some (t, k)
  | .minmax t k _ => some (t, k)
  | .addi t k _ => some (t, k)
  | .andi t k _ => some (t, k)
  | .ori t k _ => some (t, k)
  | .xori t k _ => some (t, k)
  | .shifti t k _ => some (t, k)
  | .movi t k _ => some (t, k)
  | .cmp t k _ => some (t, k)
  | .cmpi t k _ => some (t, k)
  | .sel t k _ => some (t, k)
  | .plog t k _ => some (t, k)
  | .fadd t k _ => some (t, k)
  | .fmul t k _ => some (t, k)
  | .ffma t k _ => some (t, k)
  | .fminmax t k _ => some (t, k)
  | .fcmp t k _ => some (t, k)
  | .fcvt t k _ => some (t, k)
  | .vadd t k _ => some (t, k)
  | .vsub t k _ => some (t, k)
  | .vmul t k _ => some (t, k)
  | .vfma t k _ => some (t, k)
  | .vmin t k _ => some (t, k)
  | .vmax t k _ => some (t, k)
  | .vcmp t k _ => some (t, k)
  | .vsel t k _ => some (t, k)
  | .vexp2 t k _ => some (t, k)
  | .vrcp t k _ => some (t, k)
  | .vrsq t k _ => some (t, k)
  | .viadd t k _ => some (t, k)
  | .visub t k _ => some (t, k)
  | .vimul t k _ => some (t, k)
  | .vlogic t k _ => some (t, k)
  | .vrsum t k _ => some (t, k)
  | .vrmax t k _ => some (t, k)
  | .vperm t k _ => some (t, k)
  | .vbcast t k _ => some (t, k)
  | .vext t k _ => some (t, k)
  | .vflag t k _ => some (t, k)
  | .vmov t k _ => some (t, k)
  | .vcvt t k _ => some (t, k)
  | .vmaxabs t k _ => some (t, k)
  | .mma t k _ => some (t, k)
  | .twait t k _ => some (t, k)
  | .ld t k _ => some (t, k)
  | .st t k _ => some (t, k)
  | .vld t k _ => some (t, k)
  | .vst t k _ => some (t, k)
  | .atom t k _ => some (t, k)
  | .atomp t k _ => some (t, k)
  | .fence t k _ => some (t, k)
  | .tcopy t k _ => some (t, k)
  | .tscadd t k _ => some (t, k)
  | .tmaxabs t k _ => some (t, k)
  | .sig t k _ => some (t, k)
  | .sigw t k _ => some (t, k)
  | .watch t k _ => some (t, k)
  | .unwatch t k _ => some (t, k)
  | .park t k _ => some (t, k)
  | .take t k _ => some (t, k)
  | .token t k _ => some (t, k)
  | .delay t k _ => some (t, k)
  | .time t k _ => some (t, k)
  | .reel t k _ => some (t, k)
  | .dld t k _ => some (t, k)
  | .dstr t k _ => some (t, k)
  | .dsetw t k _ => some (t, k)
  | .dgetw t k _ => some (t, k)
  | _ => none

/-- The thread of an instruction that uses the group's vector context (R101, R117). -/
def vectorThread : Instr → Option ThreadId
  | .vadd t _ _ => some t
  | .vsub t _ _ => some t
  | .vmul t _ _ => some t
  | .vfma t _ _ => some t
  | .vmin t _ _ => some t
  | .vmax t _ _ => some t
  | .vcmp t _ _ => some t
  | .vsel t _ _ => some t
  | .vexp2 t _ _ => some t
  | .vrcp t _ _ => some t
  | .vrsq t _ _ => some t
  | .viadd t _ _ => some t
  | .visub t _ _ => some t
  | .vimul t _ _ => some t
  | .vlogic t _ _ => some t
  | .vrsum t _ _ => some t
  | .vrmax t _ _ => some t
  | .vperm t _ _ => some t
  | .vbcast t _ _ => some t
  | .vext t _ _ => some t
  | .vflag t _ _ => some t
  | .vmov t _ _ => some t
  | .vcvt t _ _ => some t
  | .vmaxabs t _ _ => some t
  | .vld t _ _ => some t
  | .vst t _ _ => some t
  | _ => none

/-- What lowering has checked of a word before a thread can meet it (R101, R111, R141; R3 for the grade). -/
def Passed (c : Instr) (s : State) : Prop :=
  c.wf = true ∧ (∀ t, vectorThread c = some t → (groupOf s t).vec = true) ∧
    match c with
    | .br t _ o => o.target.toNat < codeWords (ctxOf s t.ctx)
    | .loop t _ o =>
      o.target.toNat < codeWords (ctxOf s t.ctx) ∧ (theThread s t).pc < o.target.toNat ∧ (theThread s t).loops.length < 4
    | .mma _ _ o => s.part.grade = .T ∨ (o.rig.val ≠ 4 ∧ o.fmta.val ≠ 6)
    | _ => True

/-- A thread reaches a word and goes on with it: lowering has passed the word, the thread may issue it now, and its
arrival stops at no tag comparator (R102, R104). -/
structure Arrives (c : Instr) (t : ThreadId) (k : Common) (s : State) : Prop where
  word : wordOf c = some (t, k)
  passed : Passed c s
  may : issues c s t k.tag = true
  fresh : (ctxOf s t.ctx).stoppedAt.contains t = false
  noBreak : breakingTag s t.ctx k.tag = none

/-- A thread executes a word: it arrives, the guard holds (R108), and the word after it lies in the code (R144). -/
structure Executes (c : Instr) (t : ThreadId) (k : Common) (s : State) : Prop extends Arrives c t k s where
  guard : guardOk k (theThread s t) = true
  inside : (theThread s t).advance.pc < codeWords (ctxOf s t.ctx)

/-- Nothing has changed but the counting of thread `t`'s arrival: the tag comparators of its context, the instants at which they
hit (R13), and the note of the thread that counted last (R102). -/
def Counted (s u : State) (t : ThreadId) : Prop :=
  ∃ r w x, u = { s with regs := r, w1cAt := w, contexts := x } ∧
    (∀ off, (∀ i, i < 4 → off ≠ offTagBreak t.ctx i) →
      mget? r off = mget? s.regs off ∧ ∀ hi, mget? w (off, hi) = mget? s.w1cAt (off, hi)) ∧
    (x = s.contexts ∨ x = mset s.contexts t.ctx { ctxOf s t.ctx with lastCount := some (now s, t) })

/-- Nothing has changed but thread `t`, which is now `th` and stands at its word since this instant, and the counting of
its arrival. -/
def OnlyThread (s u : State) (t : ThreadId) (th : Thread) : Prop :=
  ∃ z, Counted s z t ∧ u = { z with threads := mset s.threads t { th with readyAt := now s } }

/-- The same for a word that operates on lanes: its region has counted the lane operations (Table 17.7). -/
def OnlyLanes (s u : State) (t : ThreadId) (th : Thread) : Prop :=
  ∃ z, Counted s z t ∧
    u = { z with threads := mset s.threads t { th with readyAt := now s }, activity := (countLanes s t).activity }

/-- The same for a word that operates on lanes and leaves the vector context of its group as `v`. -/
def OnlyVector (s u : State) (t : ThreadId) (th : Thread) (v : VectorCtx) : Prop :=
  ∃ z, OnlyLanes s z t th ∧ u = { z with vectors := mset s.vectors (groupKey t) v }

/-- A word writes one s register of its thread, steps past itself, and changes nothing else. -/
def WritesS (c : Instr) (s : State) (t : ThreadId) (dst : Fin 32) (v : Word) : Prop :=
  Completes c s fun u => OnlyThread s u t ((theThread s t).wr dst v).advance

/-- A word that operates on lanes writes one s register of its thread, steps past itself, and changes nothing else. -/
def WritesLaneS (c : Instr) (s : State) (t : ThreadId) (dst : Fin 32) (v : Word) : Prop :=
  Completes c s fun u => OnlyLanes s u t ((theThread s t).wr dst v).advance

/-- A word writes one predicate register of its thread, steps past itself, and changes nothing else. -/
def WritesP (c : Instr) (s : State) (t : ThreadId) (dst : Nat) (v : Bool) : Prop :=
  Completes c s fun u => OnlyThread s u t ((theThread s t).wrP (Fin.ofNat 8 dst) v).advance

/-- A word writes the lanes of one v register: lane i to `f i` where it takes part (R117), and no other; it may set OVF. -/
def WritesV (c : Instr) (s : State) (t : ThreadId) (o : VArgs) (f : Fin 64 → Word) (ovf : Bool) : Prop :=
  Completes c s fun u => ∃ v, OnlyVector s u t (theThread s t).advance v ∧ v.ovf = ovf ∧
    (∀ i : Fin 64, v.v[o.vd][i] = if !o.me || (vectorOf s t).v[o.vm][i] != 0 then f i else (vectorOf s t).v[o.vd][i]) ∧
    ∀ r : Fin 32, r ≠ o.vd → v.v[r] = (vectorOf s t).v[r]

/-- The tree of R118 over 64 leaves: entry `i` after the passes of width 32, 16, ... that `n` counts. -/
def treeEntry (f : Word → Word → Word) (leaf : Nat → Word) : Nat → Nat → Word
  | 0, i => leaf i
  | n + 1, i => f (treeEntry f leaf n i) (treeEntry f leaf n (i + 2 ^ (5 - n)))

/-- A word makes one request and steps past itself; the thread waits for the request, or goes on. Nothing else changes but
the counting of its arrival. -/
def Asks (c : Instr) (s : State) (t : ThreadId) (r : Request) (waits : Bool) : Prop :=
  Completes c s fun u => ∃ tag z, Counted s z t ∧
    u = { z with
      requests := s.requests ++ [{ r with tag := tag }]
      nextReq := s.nextReq + 1
      threads := mset s.threads t
        { (theThread s t).advance with run := if waits then .waitReq s.nextReq else .ready, readyAt := now s } }

/-- A word starts one tensor operation with the descriptors as they stand (R129) and steps past itself. Its number is
fresh; the operations that were pending keep everything but the instant at which one was presented. -/
def Starts (c : Instr) (s : State) (t : ThreadId) (kind : TensorKind) (run : RunState) : Prop :=
  Completes c s fun u =>
    theThread u t = { (theThread s t).advance with run := run, readyAt := now s } ∧ u.mem = s.mem ∧ u.requests = s.requests ∧
    u.nextOp = s.nextOp + 1 ∧ u.ops.map (·.id) = s.ops.map (·.id) ++ [s.nextOp] ∧
    ∃ q ∈ u.ops, q.id = s.nextOp ∧ q.t = t ∧ q.kind = kind ∧ q.mask = [] ∧ q.tainted = false

/-- An accepted command of an opcode is at work under its number (R412). -/
structure AtWork (s : State) (id op : Nat) (c : Cmd) : Prop where
  found : findCmd s id = some c
  stage : c.stage = .accepted
  opcode : c.opcode = op

/-- The work of a command has ended with a status, a detail and a result; its record is still to come (R415). -/
def Ended (u : State) (id status detail result : Nat) : Prop :=
  ∃ d, findCmd u id = some d ∧ d.stage = .ended ∧ d.status = status ∧ d.detail = detail ∧ d.result = result

end Sys2Proof.Machine
end

