-- ==== Sys2Proof/Certificates/Slice0/Obligations.lean ====
section
/-! DEFINITION. The statements for the provers. -/

open Sys2Proof Sys2Proof.Machine

/-! ### The block as a whole -/

/-- A step takes the command at the front of the queue and executes it on the state with the queue's rest. -/
def Obligations.StepRunsTheFrontCommand : Prop :=
  ∀ (s : State) (c : Instr) (rest : List Instr), s.pending = c :: rest → step s = exec c { s with pending := rest }

/-- The model's choice (log entry 3): with no command waiting a nanosecond passes. The count moves on by one, or
stands while it is not running or is held; a count that is behind moves on by one once more inside the nanosecond, so
that it takes every value (R45, R398). Nothing but the clock and the powered time changes while no signal of a change
of the serving port is due (R403). -/
def Obligations.IdleStepPassesTime : Prop :=
  ∀ s : State, s.pending = [] → s.board.vaon = true →
        ∃ u, step s = .next u ∧
      (u.clock.bootCount = s.clock.bootCount + 1 ∧
          (u.clock.time = s.clock.time + 1 ∨
            u.clock.time = s.clock.time ∧ (s.clock.running = false ∨ 0 < s.clock.holdNs)) ∨
        u.clock.bootCount = s.clock.bootCount ∧ u.clock.time = s.clock.time + 1 ∧ 0 < s.clock.behindNs ∧
          s.clock.half = false ∧ u.clock.half = true) ∧
      (s.board.serveVector = none → { u with clock := s.clock, life := s.life } = s)

/-- Whatever a command does, it leaves the queue of waiting commands alone. -/
def Obligations.CommandsLeaveTheQueue : Prop :=
  ∀ (c : Instr) (s u : State), exec c s = .next u → u.pending = s.pending

/-- Every step keeps memory in its canonical form: rising addresses, no listed zero. -/
def Obligations.StepKeepsMemoryCanonical : Prop :=
  ∀ s u : State, s.mem.wf = true → step s = .next u → u.mem.wf = true

/-- Every step keeps the numbers of requests, tensor operations, commands and transfers different from each other and
below the next number: a number always names one thing. -/
def Obligations.StepKeepsNumbersFresh : Prop :=
  ∀ s u : State, Sound s → step s = .next u → Sound u

/-- Every step keeps what a part was fixed to at test (R1 to R4), and only ever appends to the retirement list (R465)
and to the list of failed Keels; a power-on takes that list from the redundancy record of the board flash (R463). -/
def Obligations.StepKeepsPartAndFlashLists : Prop :=
  ∀ s u : State, step s = .next u →
    u.part.grade = s.part.grade ∧ u.part.revision = s.part.revision ∧ u.part.disabled = s.part.disabled ∧
    u.part.serial = s.part.serial ∧ u.part.romRev = s.part.romRev ∧
    (∃ more, u.flash.retirements = s.flash.retirements ++ more) ∧
        ∃ more, u.flash.failedKeels = s.flash.failedKeels ++ more ∨
      (∃ keelFail regionFail, s.pending.head? = some (.powerGoodRise keelFail regionFail)) ∧
        u.flash.failedKeels = (readRecord s.flash).failedKeels ++ more

/-- Two memories in canonical form that read alike at every address are the same data. A store of bytes where no word
of the range is poisoned reads back byte for byte, and every other byte of memory reads as before. R375: every word
has a 7-bit code by which its check finds one flipped bit of the 39 and corrects it, and finds two uncorrectable,
whatever the word; with none flipped it is clean. A stored sector of eight words is clean with none flipped, one
flipped bit of a word or of its code is corrected, and one of the locator is found; the locator holds the granule
index modulo 16, the sector and their even parity. That the columns are those chosen is the model's (log entry
138). -/
def Obligations.MemoryReadsAndStores : Prop :=
  (∀ m n : Memory, m.wf = true → n.wf = true → (∀ a, m.readByte a = n.readByte a) → m.cells = n.cells) ∧
  (∀ (m : Memory) (a : Nat) (bs : List Byte), m.wf = true → (∀ x, a ≤ x → x < a + bs.length → wordPoisoned m x = false) →
      (∀ i (h : i < bs.length), (m.store a bs).readByte (a + i) = bs[i]) ∧
      ∀ x, (x < a ∨ a + bs.length ≤ x) → (m.store a bs).readByte x = m.readByte x) ∧
  ((∀ w : Word, checkWord w 0 = .clean) ∧ (∀ (w : Word) (k : Nat), k < 39 → checkWord w (2 ^ k) = .corrected) ∧
    (∀ (w : Word) (j k : Nat), j < k → k < 39 → checkWord w (2 ^ j + 2 ^ k) = .uncorrectable) ∧
    (∀ bs : List Byte, checkSector bs 0 = .clean ∧ (∀ k, k < 312 → checkSector bs (2 ^ k) = .corrected) ∧
      ∀ k, 312 ≤ k → k < 320 → checkSector bs (2 ^ k) = .uncorrectable) ∧
    ∀ g n : Nat, n < 8 → bits (locator g n) 7 4 = g % 16 ∧ bits (locator g n) 3 1 = n ∧ locator g n < 256 ∧
      ((List.range 8).map fun i => bits (locator g n) i i).sum % 2 = 0)

/-- No thread instruction that lowering has passed is ever refused: it completes in every state. Every command that is
not a thread instruction completes in every state: none is refused and none ends in a fault. -/
def Obligations.EveryCommandCompletes : Prop :=
  (∀ (c : Instr) (t : ThreadId) (k : Common) (s : State), wordOf c = some (t, k) → Passed c s → ∃ u, exec c s = .next u) ∧
  (∀ (c : Instr) (s : State), wordOf c = none → ∃ u, exec c s = .next u)

/-- A word that sets a field which its format or its row does not allow is refused by name (R111): no thread executes
it. A thread that does not arrive at its word now does nothing: its context is not running, its cell or region is
fenced, it is held, a thread of its cell that has been ready longer goes first (R33), or a thread that comes after it
has counted a tag at this instant (R102). That nothing happens is the model's choice for a command that cannot occur
(log entry 8), and so is the order (log entry 116). A thread that arrives at a word whose guard holds and which names
a record that a DLD is still loading waits for that DLD, and nothing else changes (R122, R129). -/
def Obligations.WordsThatDoNotIssue : Prop :=
  (∀ (c : Instr) (t : ThreadId) (k : Common) (s : State), wordOf c = some (t, k) → c.wf = false → canIssue s t = true →
      exec c s = .refused .staticallyIllegal) ∧
  (∀ (c : Instr) (t : ThreadId) (k : Common) (s : State), wordOf c = some (t, k) → Passed c s →
      (arrives s t k.tag = false → exec c s = .next s) ∧
      ∀ req, arrives s t k.tag = true → awaitsDld c s t = some req →
        exec c s = .next { s with threads := mset s.threads t { theThread s t with run := .waitRecord req } })

/-! ### How a word issues -/

/-- R108: a word whose guard does not hold has no effect but the step of the program counter: no register, no memory
and no request changes and its thread does not wait; a LOOP skips its body. In a legal word with GEN 0, GNEG and GP
are zero. -/
def Obligations.GuardedOffWordHasNoEffect : Prop :=
  (∀ (c : Instr) (t : ThreadId) (k : Common) (s : State), Arrives c t k s → guardOk k (theThread s t) = false →
    (match c with
     | .loop _ _ o => (theThread s t).skipTo o.target.toNat
     | _ => (theThread s t).advance).pc < codeWords (ctxOf s t.ctx) →
    Completes c s fun u => OnlyThread s u t
      (match c with
       | .loop _ _ o => (theThread s t).skipTo o.target.toNat
       | _ => (theThread s t).advance)) ∧
  (∀ (k : Common) (th : Thread), guardOk k th = false ↔ k.gen = true ∧ th.rdP k.gp = k.gneg) ∧
  ∀ (c : Instr) (t : ThreadId) (k : Common), wordOf c = some (t, k) → c.wf = true → k.gen = false → k.gneg = false ∧ k.gp = 0

/-- R102, R104: an arrival at which REMAIN of a comparator goes from 1 to 0 stops its thread before the word: no
register of the thread changes, the comparator sets HIT with REMAIN 0, and the context breaks with cause 1. -/
def Obligations.TagBreakStopsTheThread : Prop :=
  ∀ (c : Instr) (t : ThreadId) (k : Common) (s : State) (i : Nat), wordOf c = some (t, k) → Passed c s →
    issues c s t k.tag = true → (ctxOf s t.ctx).stoppedAt.contains t = false → breakingTag s t.ctx k.tag = some i →
    Completes c s fun u => u.threads = s.threads ∧ u.mem = s.mem ∧ u.requests = s.requests ∧
      rawField u (offTagBreak t.ctx i) 15 0 = 0 ∧ rawField u (offTagBreak t.ctx i) 30 30 = 1 ∧
      (ctxOf u t.ctx).breaking = true ∧ (ctxOf u t.ctx).brk.cause = 1 ∧ (ctxOf u t.ctx).brk.comparator = i ∧
      (ctxOf u t.ctx).brk.thread = t.thread ∧ (ctxOf u t.ctx).brk.cell = t.cell ∧
      (ctxOf u t.ctx).brk.tag = k.tag ∧ (ctxOf u t.ctx).brk.group = t.group ∧ (ctxOf u t.ctx).brk.time = now s

/-! ### Integer, predicate, floating-point and control words -/

/-- R113: results wrap modulo 2^32; MULHU and MULHS give bits [63:32] of the product; the shifts use the low five bits
of the amount. Each word writes s[DST], steps past itself and changes nothing else. -/
def Obligations.ArithmeticWords : Prop :=
  ∀ (t : ThreadId) (k : Common) (o : RArgs) (s : State),
    let th := theThread s t
    (Executes (.add t k o) t k s → WritesS (.add t k o) s t o.dst (th.rd o.a + th.rd o.b)) ∧
    (Executes (.sub t k o) t k s → WritesS (.sub t k o) s t o.dst (th.rd o.a - th.rd o.b)) ∧
    (Executes (.mul t k o) t k s → WritesS (.mul t k o) s t o.dst (th.rd o.a * th.rd o.b)) ∧
    (Executes (.mulhu t k o) t k s → WritesS (.mulhu t k o) s t o.dst (BitVec.ofNat 32 ((th.rd o.a).toNat * (th.rd
        o.b).toNat / 2 ^ 32))) ∧
    (Executes (.mulhs t k o) t k s → WritesS (.mulhs t k o) s t o.dst (BitVec.ofInt 32 ((th.rd o.a).toInt * (th.rd
        o.b).toInt / 2 ^ 32))) ∧
    (Executes (.and t k o) t k s → WritesS (.and t k o) s t o.dst (th.rd o.a &&& th.rd o.b)) ∧
    (Executes (.or t k o) t k s → WritesS (.or t k o) s t o.dst (th.rd o.a ||| th.rd o.b)) ∧
    (Executes (.xor t k o) t k s → WritesS (.xor t k o) s t o.dst (th.rd o.a ^^^ th.rd o.b)) ∧
    (Executes (.shl t k o) t k s → WritesS (.shl t k o) s t o.dst (th.rd o.a <<< ((th.rd o.b).toNat % 32))) ∧
    (Executes (.shr t k o) t k s → WritesS (.shr t k o) s t o.dst (th.rd o.a >>> ((th.rd o.b).toNat % 32))) ∧
    (Executes (.sra t k o) t k s → WritesS (.sra t k o) s t o.dst ((th.rd o.a).sshiftRight ((th.rd o.b).toNat % 32)))

/-- R114: rounding toward zero, a zero divisor, and −2^31 by −1. -/
def Obligations.DivisionWords : Prop :=
  ∀ (t : ThreadId) (k : Common) (o : RArgs) (s : State),
    let th := theThread s t
    (Executes (.divu t k o) t k s → WritesS (.divu t k o) s t o.dst (if th.rd o.b = 0 then 0xFFFFFFFF else
        BitVec.ofNat 32 ((th.rd o.a).toNat / (th.rd o.b).toNat))) ∧
    (Executes (.remu t k o) t k s → WritesS (.remu t k o) s t o.dst (if th.rd o.b = 0 then th.rd o.a else
        BitVec.ofNat 32 ((th.rd o.a).toNat % (th.rd o.b).toNat))) ∧
    (Executes (.divs t k o) t k s → WritesS (.divs t k o) s t o.dst (if th.rd o.b = 0 then -1 else if th.rd o.a =
        0x80000000 ∧ th.rd o.b = -1 then 0x80000000 else BitVec.ofInt 32 ((th.rd o.a).toInt.tdiv (th.rd o.b).toInt)))
        ∧
    (Executes (.rems t k o) t k s → WritesS (.rems t k o) s t o.dst (if th.rd o.b = 0 then th.rd o.a else if th.rd
        o.a = 0x80000000 ∧ th.rd o.b = -1 then 0 else BitVec.ofInt 32 ((th.rd o.a).toInt.tmod (th.rd o.b).toInt)))

/-- The sign-extended 25-bit immediate (R113, Table 4.3), the immediate shifts, MOVI, and LRD, which gives 0 on a
level the loop stack does not hold (R143). -/
def Obligations.ImmediateWords : Prop :=
  ∀ (t : ThreadId) (k : Common) (o : IArgs) (s : State),
    let th := theThread s t
    (Executes (.addi t k o) t k s → WritesS (.addi t k o) s t o.dst (th.rd o.a + o.imm.signExtend 32)) ∧
    (Executes (.andi t k o) t k s → WritesS (.andi t k o) s t o.dst (th.rd o.a &&& o.imm.signExtend 32)) ∧
    (Executes (.ori t k o) t k s → WritesS (.ori t k o) s t o.dst (th.rd o.a ||| o.imm.signExtend 32)) ∧
    (Executes (.xori t k o) t k s → WritesS (.xori t k o) s t o.dst (th.rd o.a ^^^ o.imm.signExtend 32)) ∧
    (Executes (.shifti t k o) t k s → o.minor = 0 → WritesS (.shifti t k o) s t o.dst (th.rd o.a <<< o.imm.toNat)) ∧
    (Executes (.shifti t k o) t k s → o.minor = 1 → WritesS (.shifti t k o) s t o.dst (th.rd o.a >>> o.imm.toNat)) ∧
    (Executes (.shifti t k o) t k s → o.minor = 2 → WritesS (.shifti t k o) s t o.dst ((th.rd o.a).sshiftRight
        o.imm.toNat)) ∧
    (Executes (.lrd t k o) t k s → WritesS (.lrd t k o) s t o.dst
      (match th.loops[o.imm.toNat]? with
       | some l => BitVec.ofNat 32 (if o.minor = 0 then l.index else l.count)
       | none => 0)) ∧
    ∀ l : LArgs, Executes (.movi t k l) t k s → WritesS (.movi t k l) s t l.dst l.imm32

/-- CMP and CMPI by MINOR (equal, not equal, signed less, signed less or equal, unsigned less, unsigned less or
equal), PLOG, SEL and MINMAX (Table 4.3). -/
def Obligations.PredicateWords : Prop :=
  ∀ (t : ThreadId) (k : Common) (o : RArgs) (s : State),
    let th := theThread s t
    (Executes (.cmp t k o) t k s → WritesP (.cmp t k o) s t o.dst.val
      (match o.minor.val with
       | 0 => th.rd o.a == th.rd o.b
       | 1 => th.rd o.a != th.rd o.b
       | 2 => decide ((th.rd o.a).toInt < (th.rd o.b).toInt)
       | 3 => decide ((th.rd o.a).toInt ≤ (th.rd o.b).toInt)
       | 4 => decide ((th.rd o.a).toNat < (th.rd o.b).toNat)
       | _ => decide ((th.rd o.a).toNat ≤ (th.rd o.b).toNat))) ∧
    (Executes (.plog t k o) t k s → WritesP (.plog t k o) s t o.dst.val
      (match o.minor.val with
       | 0 => th.rdP (Fin.ofNat 8 o.a.val) && th.rdP (Fin.ofNat 8 o.b.val)
       | 1 => th.rdP (Fin.ofNat 8 o.a.val) || th.rdP (Fin.ofNat 8 o.b.val)
       | 2 => th.rdP (Fin.ofNat 8 o.a.val) != th.rdP (Fin.ofNat 8 o.b.val)
       | 3 => th.rdP (Fin.ofNat 8 o.a.val) && !th.rdP (Fin.ofNat 8 o.b.val)
       | 4 => true
       | _ => false)) ∧
    (Executes (.sel t k o) t k s → WritesS (.sel t k o) s t o.dst
      (if th.rdP (Fin.ofNat 8 o.c.val) then th.rd o.a else th.rd o.b)) ∧
    (Executes (.minmax t k o) t k s → WritesS (.minmax t k o) s t o.dst
      (match o.minor.val with
       | 0 => if (th.rd o.a).toInt ≤ (th.rd o.b).toInt then th.rd o.a else th.rd o.b
       | 1 => if (th.rd o.a).toInt ≤ (th.rd o.b).toInt then th.rd o.b else th.rd o.a
       | 2 => if (th.rd o.a).toNat ≤ (th.rd o.b).toNat then th.rd o.a else th.rd o.b
       | _ => if (th.rd o.a).toNat ≤ (th.rd o.b).toNat then th.rd o.b else th.rd o.a)) ∧
    ∀ i : IArgs, Executes (.cmpi t k i) t k s → WritesP (.cmpi t k i) s t i.dst.val
      (match i.minor.val with
       | 0 => th.rd i.a == i.imm.signExtend 32
       | 1 => th.rd i.a != i.imm.signExtend 32
       | 2 => decide ((th.rd i.a).toInt < (i.imm.signExtend 32 : Word).toInt)
       | 3 => decide ((th.rd i.a).toInt ≤ (i.imm.signExtend 32 : Word).toInt)
       | 4 => decide ((th.rd i.a).toNat < (i.imm.signExtend 32 : Word).toNat)
       | _ => decide ((th.rd i.a).toNat ≤ (i.imm.signExtend 32 : Word).toNat))

/-- The FP32 words on s registers: each writes the value of the model's FP32 operation (Machine/Float.lean, R115),
steps past itself and changes nothing else. R115: every NaN result is 0x7FC0_0000; minimum and maximum return the
operand that is not a NaN when exactly one is, and take −0 as less than +0; a NaN converts to the integer 0. -/
def Obligations.FloatWords : Prop :=
  (∀ (t : ThreadId) (k : Common) (o : RArgs) (s : State),
      let th := theThread s t
      (Executes (.fadd t k o) t k s → WritesS (.fadd t k o) s t o.dst (fadd (th.rd o.a) (th.rd o.b))) ∧
      (Executes (.fmul t k o) t k s → WritesS (.fmul t k o) s t o.dst (fmul (th.rd o.a) (th.rd o.b))) ∧
      (Executes (.ffma t k o) t k s → WritesS (.ffma t k o) s t o.dst (ffma (th.rd o.a) (th.rd o.b) (th.rd o.c))) ∧
      (Executes (.fminmax t k o) t k s → WritesS (.fminmax t k o) s t o.dst
        (if o.minor = 0 then fmin (th.rd o.a) (th.rd o.b) else fmax (th.rd o.a) (th.rd o.b))) ∧
      (Executes (.fcmp t k o) t k s → WritesP (.fcmp t k o) s t o.dst.val (fcmp o.minor.val (th.rd o.a) (th.rd o.b))) ∧
      (Executes (.fcvt t k o) t k s → WritesS (.fcvt t k o) s t o.dst (fcvt o.minor.val (th.rd o.a)))) ∧
  ((∀ a b : Word, (f32 a).isNan = true ∨ (f32 b).isNan = true → fadd a b = 0x7FC00000 ∧ fmul a b = 0x7FC00000) ∧
    (∀ a b c : Word, (f32 a).isNan = true ∨ (f32 b).isNan = true ∨ (f32 c).isNan = true → ffma a b c = 0x7FC00000) ∧
    (∀ a b : Word, (f32 a).isNan = true → (f32 b).isNan = false →
      fmin a b = b ∧ fmin b a = b ∧ fmax a b = b ∧ fmax b a = b) ∧
    (fmin 0x80000000 0 = 0x80000000 ∧ fmin 0 0x80000000 = 0x80000000 ∧ fmax 0x80000000 0 = 0 ∧ fmax 0 0x80000000 = 0) ∧
    (∀ a : Word, (f32 a).isNan = true → fcvt 2 a = 0 ∧ fcvt 3 a = 0))

/-- NOP only steps past itself; BR moves to its target and pops every level whose body does not contain it (R143);
LOOP with a count of zero skips its body and otherwise pushes a level with INDEX 0 (R140, R142). R142: the end of a
loop's body goes back to its START while INDEX, now one higher, is below COUNT; otherwise the level is popped and the
word counts as an end of the enclosing level too. -/
def Obligations.ControlWords : Prop :=
  (∀ (t : ThreadId) (k : Common) (o : CArgs) (s : State),
      let th := theThread s t
      (Executes (.nop t k o) t k s → Completes (.nop t k o) s fun u => OnlyThread s u t th.advance) ∧
      (Arrives (.br t k o) t k s → guardOk k th = true → Completes (.br t k o) s fun u => OnlyThread s u t
        { th with
          pc := o.target.toNat
          loops := th.loops.dropWhile fun l => !decide (l.start ≤ o.target.toNat ∧ o.target.toNat ≤ l.stop) }) ∧
      (Arrives (.loop t k o) t k s → guardOk k th = true →
        let count := if o.ci then o.imm16.toNat else (th.rd o.a).toNat
        (count = 0 → (th.skipTo o.target.toNat).pc < codeWords (ctxOf s t.ctx) →
          Completes (.loop t k o) s fun u => OnlyThread s u t (th.skipTo o.target.toNat)) ∧
        (count ≠ 0 → Completes (.loop t k o) s fun u => OnlyThread s u t
          { th with
            pc := th.pc + 1
            loops := { start := th.pc + 1, stop := o.target.toNat, count := count, index := 0 } :: th.loops }))) ∧
  ((∀ (p : Nat) (l : LoopLevel) (r : List LoopLevel), l.stop = p → l.index + 1 < l.count →
      endStep p (l :: r) = (l.start, { l with index := l.index + 1 } :: r)) ∧
    (∀ (p : Nat) (l : LoopLevel) (r : List LoopLevel), l.stop = p → l.count ≤ l.index + 1 →
      endStep p (l :: r) = endStep p r) ∧
    (∀ (p : Nat) (l : LoopLevel) (r : List LoopLevel), l.stop ≠ p → endStep p (l :: r) = (p + 1, l :: r)) ∧
    ∀ p : Nat, endStep p [] = (p + 1, []))

/-- R144: HALT ends its thread and clears its watch set and loop stack; its registers and every other thread that
waits for no task stay as they were, and so does memory. -/
def Obligations.HaltEndsTheThread : Prop :=
  ∀ (t : ThreadId) (k : Common) (o : CArgs) (s : State), Arrives (.halt t k o) t k s → guardOk k (theThread s t) =
        true →
    (∀ x ∈ (regionOf s (threadRegion s t)).takers, x.t ≠ t) →
    Completes (.halt t k o) s fun u =>
      (theThread u t).run = .ended ∧ (theThread u t).loops = [] ∧ (∀ i : Fin 16, (theThread u t).watch[i] =
        WatchSlot.empty) ∧
      (theThread u t).s = (theThread s t).s ∧ (theThread u t).p = (theThread s t).p ∧ u.mem = s.mem ∧
      (∀ t' : ThreadId, t' ≠ t → (∀ x ∈ (regionOf s (threadRegion s t)).takers, x.t ≠ t') → threadOf u t' = threadOf
        s t')

/-! ### Vector words -/

/-- R117, R119: the lane words. A lane takes part when ME is 0 or its lane of v[VM] is not zero; every other lane
keeps its value, no other v register changes, and only VIADD and VISUB with MINOR 1 touch OVF, which is sticky. -/
def Obligations.VectorLaneWords : Prop :=
  ∀ (t : ThreadId) (k : Common) (o : VArgs) (s : State),
    let v := vectorOf s t
    let part := fun i : Fin 64 => !o.me || v.v[o.vm][i] != 0
    (Executes (.vadd t k o) t k s → WritesV (.vadd t k o) s t o (fun i => fadd v.v[o.va][i] v.v[o.vb][i]) v.ovf) ∧
    (Executes (.vsub t k o) t k s → WritesV (.vsub t k o) s t o (fun i => fsub v.v[o.va][i] v.v[o.vb][i]) v.ovf) ∧
    (Executes (.vmul t k o) t k s → WritesV (.vmul t k o) s t o (fun i => fmul v.v[o.va][i] v.v[o.vb][i]) v.ovf) ∧
    (Executes (.vmin t k o) t k s → WritesV (.vmin t k o) s t o (fun i => fmin v.v[o.va][i] v.v[o.vb][i]) v.ovf) ∧
    (Executes (.vmax t k o) t k s → WritesV (.vmax t k o) s t o (fun i => fmax v.v[o.va][i] v.v[o.vb][i]) v.ovf) ∧
    (Executes (.vfma t k o) t k s → WritesV (.vfma t k o) s t o (fun i => ffma v.v[o.va][i] v.v[o.vb][i]
        v.v[o.vc][i]) v.ovf) ∧
    (Executes (.vcmp t k o) t k s → WritesV (.vcmp t k o) s t o (fun i => if fcmp o.minor.val v.v[o.va][i]
        v.v[o.vb][i] then 0xFFFFFFFF else 0) v.ovf) ∧
    (Executes (.vsel t k o) t k s → WritesV (.vsel t k o) s t o (fun i => if v.v[o.vc][i] ≠ 0 then v.v[o.va][i] else
        v.v[o.vb][i]) v.ovf) ∧
    (Executes (.vexp2 t k o) t k s → WritesV (.vexp2 t k o) s t o (fun i => fexp2 v.v[o.va][i]) v.ovf) ∧
    (Executes (.vrcp t k o) t k s → WritesV (.vrcp t k o) s t o (fun i => frcp v.v[o.va][i]) v.ovf) ∧
    (Executes (.vrsq t k o) t k s → WritesV (.vrsq t k o) s t o (fun i => frsq v.v[o.va][i]) v.ovf) ∧
    (Executes (.vmov t k o) t k s → WritesV (.vmov t k o) s t o (fun i => v.v[o.va][i]) v.ovf) ∧
    (Executes (.vimul t k o) t k s → WritesV (.vimul t k o) s t o (fun i => v.v[o.va][i] * v.v[o.vb][i]) v.ovf) ∧
    (Executes (.vlogic t k o) t k s → WritesV (.vlogic t k o) s t o (fun i => 
      match o.minor.val with
      | 0 => v.v[o.va][i] &&& v.v[o.vb][i]
      | 1 => v.v[o.va][i] ||| v.v[o.vb][i]
      | 2 => v.v[o.va][i] ^^^ v.v[o.vb][i]
      | 3 => v.v[o.va][i] <<< (v.v[o.vb][i].toNat % 32)
      | 4 => v.v[o.va][i] >>> (v.v[o.vb][i].toNat % 32)
      | _ => v.v[o.va][i].sshiftRight (v.v[o.vb][i].toNat % 32)) v.ovf) ∧
    (Executes (.vperm t k o) t k s → WritesV (.vperm t k o) s t o (fun i => v.v[o.va][Fin.ofNat 64
        v.v[o.vb][i].toNat]) v.ovf) ∧
    (Executes (.vbcast t k o) t k s → WritesV (.vbcast t k o) s t o (fun i => (theThread s t).rd o.va) v.ovf) ∧
    (Executes (.viadd t k o) t k s → WritesV (.viadd t k o) s t o (fun i => v.v[o.va][i] + v.v[o.vb][i]) 
      (v.ovf || (o.minor.val == 1 && (List.finRange 64).any fun i => part i &&
        decide (v.v[o.va][i].toInt + v.v[o.vb][i].toInt < -2147483648 ∨ 2147483647 < v.v[o.va][i].toInt +
        v.v[o.vb][i].toInt)))) ∧
    (Executes (.visub t k o) t k s → WritesV (.visub t k o) s t o (fun i => v.v[o.va][i] - v.v[o.vb][i]) 
      (v.ovf || (o.minor.val == 1 && (List.finRange 64).any fun i => part i &&
        decide (v.v[o.va][i].toInt - v.v[o.vb][i].toInt < -2147483648 ∨ 2147483647 < v.v[o.va][i].toInt -
        v.v[o.vb][i].toInt))))

/-- R117, R118, R119: VRSUM, VRMAX and VMAXABS fold the lanes in the fixed tree, a lane that does not take part
counting as −0.0, −∞ and +0.0; VEXT writes only when its lane takes part; VFLAG returns OVF and clears it; VCVT
converts by the model's conversion of packed elements (Machine/VectorOps.lean). -/
def Obligations.VectorToScalarWords : Prop :=
  ∀ (t : ThreadId) (k : Common) (o : VArgs) (s : State),
    let th := theThread s t
    let v := vectorOf s t
    let part := fun i : Fin 64 => !o.me || v.v[o.vm][i] != 0
    let leaf := fun (pre : Word → Word) (n : Word) (i : Nat) =>
      if part (Fin.ofNat 64 i) then pre v.v[o.va][Fin.ofNat 64 i] else n
    let lane := Fin.ofNat 64 (th.rd o.vb).toNat
    (Executes (.vrsum t k o) t k s → WritesLaneS (.vrsum t k o) s t o.vd (treeEntry fadd (leaf id 0x80000000) 6 0)) ∧
    (Executes (.vrmax t k o) t k s → WritesLaneS (.vrmax t k o) s t o.vd (treeEntry fmax (leaf id 0xFF800000) 6 0)) ∧
    (Executes (.vmaxabs t k o) t k s → WritesLaneS (.vmaxabs t k o) s t o.vd (treeEntry fmax (leaf fabs 0) 6 0)) ∧
    (Executes (.vext t k o) t k s → part lane = true → WritesLaneS (.vext t k o) s t o.vd v.v[o.va][lane]) ∧
    (Executes (.vext t k o) t k s → part lane = false → Completes (.vext t k o) s fun u => OnlyLanes s u t
        th.advance) ∧
    (Executes (.vflag t k o) t k s → Completes (.vflag t k o) s fun u =>
      OnlyVector s u t (th.wr o.vd (if v.ovf then 1 else 0)).advance { v with ovf := false }) ∧
    (Executes (.vcvt t k o) t k s → Completes (.vcvt t k o) s fun u =>
      OnlyVector s u t th.advance (vcvtEffect (rawReg s (offRoundSeed t.ctx)).toNat o v))

/-! ### Words that make a request -/

/-- R120 to R122, R125: an access whose address translates makes one request, at the context address aligned as the
device aligns it. LD, VLD, DLD and ATOM hold their thread; ST, VST, DSTR and ATOMP do not. No memory changes yet. -/
def Obligations.AccessWords : Prop :=
  ∀ (t : ThreadId) (k : Common) (o : AArgs) (s : State) (a : Nat),
    let th := theThread s t
    let ca := fun n : Nat => ctxAddress o n th
    let req := fun (kind : ReqKind) (n : Nat) => newRequest s t.ctx (.thread t) kind (ca n) a false []
    let at_ := fun (need : Need) (align n : Nat) => translate s t.ctx (some t.group) need (ca align) n = some a
    let n := loadBytes o.minor.val
    let m := atomicBytes o.minor.val
    (Executes (.ld t k o) t k s → at_ .read n n →
      Asks (.ld t k o) s t (req (.load n (decide (4 ≤ o.minor.val)) o.data) n) true) ∧
    (Executes (.vld t k o) t k s → at_ .read 256 256 → Asks (.vld t k o) s t (req (.vload o.data) 256) true) ∧
    (Executes (.dld t k o) t k s → at_ .read 64 64 →
      Asks (.dld t k o) s t (req (.dload (o.minor.val == 1) (Fin.ofNat 16 o.data.val)) 64) true) ∧
    (Executes (.atom t k o) t k s → at_ .atomic m m → Asks (.atom t k o) s t (req (atomicKind o th true) m) true) ∧
    (Executes (.atomp t k o) t k s → at_ .atomic m m → Asks (.atomp t k o) s t (req (atomicKind o th false) m) false)
        ∧
    (Executes (.st t k o) t k s → at_ .write (2 ^ o.minor.val) (2 ^ o.minor.val) →
      Asks (.st t k o) s t (req (.store (storeBytes o th)) (2 ^ o.minor.val)) false) ∧
    (Executes (.vst t k o) t k s → at_ .write 256 256 →
      Asks (.vst t k o) s t (req (.store (laneBytes (vectorOf s t).v[o.data])) 256) false) ∧
    (Executes (.dstr t k o) t k s → (recordOf (groupOf s t) (o.minor.val == 1) o.data.val).length = 64 →
      at_ .write 64 64 →
      Asks (.dstr t k o) s t (req (.store (recordOf (groupOf s t) (o.minor.val == 1) o.data.val)) 64) false)

/-- R125, R154, R159, R166: SIG and SIGW make a signal that is performed after the stores its thread has issued, and
only SIGW holds its thread; WATCH of a word in T0 or T1 of this device clears its slot and waits for the
acknowledgement; TOKEN and DELAY send their pairs, low word first, and go on; only with 8,192 tasks in the region's
delay list does DELAY hold its thread. -/
def Obligations.TaskUnitWords : Prop :=
  ∀ (t : ThreadId) (k : Common) (s : State) (a : Nat),
    let th := theThread s t
    (∀ o : AArgs, translate s t.ctx (some t.group) .write (ctxAddress o 4 th) 4 = some a →
      (Executes (.sig t k o) t k s → Asks (.sig t k o) s t
        (newRequest s t.ctx (.thread t) (.signal o.minor.val (th.rd o.data) false) (ctxAddress o 4 th) a false
          (outstanding s t isStore)) false) ∧
      (Executes (.sigw t k o) t k s → Asks (.sigw t k o) s t
        (newRequest s t.ctx (.thread t) (.signal o.minor.val (th.rd o.data) true) (ctxAddress o 4 th) a false
          (outstanding s t isStore)) true)) ∧
    (∀ o : AArgs, Executes (.watch t k o) t k s →
      translate s t.ctx (some t.group) .read (ctxAddress o 4 th) 4 = some a → watchable a = true →
      Completes (.watch t k o) s fun u =>
        theThread u t = { th.advance with
          run := .waitReq s.nextReq, watch := th.watch.set (Fin.ofNat 16 o.data.val) WatchSlot.empty, readyAt := now s } ∧
        u.mem = s.mem ∧ ∃ r, u.requests = s.requests ++ [r] ∧ r.kind = .watch (Fin.ofNat 16 o.data.val) ∧ r.devAddr =
        a) ∧
    (∀ o : RArgs, Executes (.token t k o) t k s → Asks (.token t k o) s t
      (newRequest s t.ctx (.thread t) (.token (th.rdPair o.a) (if tokKind (th.rdPair o.a) = 1 then th.rdPair o.b else
        0))
        0 0 true (outstanding s t isPosted)) false) ∧
    (∀ o : RArgs, Executes (.delay t k o) t k s → Asks (.delay t k o) s t
      (newRequest s t.ctx (.thread t) (.delay (th.rdPair o.a) (th.rdPair o.b).toNat) 0 0 true [])
      (decide (8192 ≤ delayCount s (threadRegion s t))))

/-- R95: an access that no window permits faults: the context counts one window fault, a read delivers zeros, a write
is discarded, no memory changes, and the thread goes on. -/
def Obligations.WindowFaultWords : Prop :=
  ∀ (t : ThreadId) (k : Common) (o : AArgs) (s : State),
    let th := theThread s t
    let n := loadBytes o.minor.val
    (Executes (.ld t k o) t k s → translate s t.ctx (some t.group) .read (ctxAddress o n th) n = none →
      Completes (.ld t k o) s fun u =>
        theThread u t = { (if n = 8 then th.wrPair o.data 0 else th.wr o.data 0).advance with readyAt := now s } ∧
        u.mem = s.mem ∧
        (ctxOf u t.ctx).winFaults = Nat.min 0xFFFF ((ctxOf s t.ctx).winFaults + 1)) ∧
    (Executes (.st t k o) t k s →
      translate s t.ctx (some t.group) .write (ctxAddress o (2 ^ o.minor.val) th) (2 ^ o.minor.val) = none →
      Completes (.st t k o) s fun u =>
        theThread u t = { th.advance with readyAt := now s } ∧ u.mem = s.mem ∧
        (ctxOf u t.ctx).winFaults = Nat.min 0xFFFF ((ctxOf s t.ctx).winFaults + 1))

/-! ### The other words -/

/-- R123, R137, R147, R150, R127: FENCE goes on with no posted access outstanding and otherwise waits; TWAIT goes on
with at most IMM operations pending and otherwise waits; UNWATCH clears its slot; PARK with no slot written parks, and
otherwise returns the mask and clears it; DGETW reads a word of a descriptor record and DSETW replaces one. R45, R46:
TIME gives a value within 8 ns of device time, in the pair of s[DST], low word first. The model's own (log entry 5):
which value it is stays free. -/
def Obligations.WaitTimeAndDescriptorWords : Prop :=
  (∀ (t : ThreadId) (k : Common) (o : IArgs) (s : State),
      let th := theThread s t
      (∀ f : AArgs, Executes (.fence t k f) t k s → Completes (.fence t k f) s fun u => OnlyThread s u t
        { th.advance with run := if outstanding s t isPosted = [] then .ready else .waitFence }) ∧
      (Executes (.twait t k o) t k s → Completes (.twait t k o) s fun u => OnlyThread s u t
        { th.advance with run := if (pendingOps s t).length ≤ o.imm.toNat then .ready else .waitTensor o.imm.toNat }) ∧
      (Executes (.unwatch t k o) t k s → Completes (.unwatch t k o) s fun u =>
          theThread u t = { th.advance with
          watch := th.watch.set (Fin.ofNat 16 o.imm.toNat) WatchSlot.empty, readyAt := now s } ∧
        (∀ w ∈ u.wakes, w ∈ s.wakes ∧ ¬ (w.t = t ∧ w.slot = Fin.ofNat 16 o.imm.toNat)) ∧ u.mem = s.mem ∧
        u.requests = s.requests ∧ ∀ t', t' ≠ t → threadOf u t' = threadOf s t') ∧
      (Executes (.park t k o) t k s → (∀ i : Fin 16, th.watch[i].written = false) →
        Completes (.park t k o) s fun u => OnlyThread s u t { th.advance with run := .parked o.dst }) ∧
      (Executes (.park t k o) t k s → th.writtenMask ≠ 0 →
        Completes (.park t k o) s fun u => OnlyThread s u t
          { (th.wr o.dst (BitVec.ofNat 32 th.writtenMask)).advance with
                      watch := th.watch.map fun w => { w with written := false, due := 0 } }) ∧
      (Executes (.dgetw t k o) t k s → WritesS (.dgetw t k o) s t o.dst
        (BitVec.ofNat 32 (fieldAt (recordOf (groupOf s t) (o.minor.val == 1) o.a.val) (4 * (o.imm.toNat % 16)) 4))) ∧
      (Executes (.dsetw t k o) t k s →
        (recordOf (groupOf s t) (o.minor.val == 1) o.dst.val).length = 64 →
        Completes (.dsetw t k o) s fun u =>
          theThread u t = { th.advance with readyAt := now s } ∧ u.mem = s.mem ∧
          fieldAt (recordOf (groupOf u t) (o.minor.val == 1) o.dst.val) (4 * (o.imm.toNat % 16)) 4 = (th.rd o.a).toNat ∧
          (recordOf (groupOf u t) (o.minor.val == 1) o.dst.val).length = 64 ∧
          ∀ w, w < 16 → w ≠ o.imm.toNat % 16 →
            fieldAt (recordOf (groupOf u t) (o.minor.val == 1) o.dst.val) (4 * w) 4 =
              fieldAt (recordOf (groupOf s t) (o.minor.val == 1) o.dst.val) (4 * w) 4)) ∧
  (∀ (t : ThreadId) (k : Common) (o : IArgs) (s : State), Executes (.time t k o) t k s → 8 ≤ now s → now s + 8 < 2 ^
          64 →
      Completes (.time t k o) s fun u => ∃ v : DWord, now s ≤ v.toNat + 8 ∧ v.toNat ≤ now s + 8 ∧
        theThread u t = { ((theThread s t).wrPair o.dst v).advance with readyAt := now s } ∧ u.mem = s.mem ∧ u.requests = s.requests ∧
        ∀ t', t' ≠ t → threadOf u t' = threadOf s t')

/-- R137, R139, R129: a tensor word with fewer than eight operations pending starts one; MMA, TCOPY and TSCADD let
their thread go on, TMAXABS holds it until the operation completes. -/
def Obligations.TensorWords : Prop :=
  ∀ (t : ThreadId) (k : Common) (s : State), Sound s → (pendingOps s t).length < 8 →
    (∀ o : MArgs, Executes (.mma t k o) t k s → Starts (.mma t k o) s t (.mma o k.tag) .ready) ∧
    (∀ o : TArgs, Executes (.tcopy t k o) t k s → Starts (.tcopy t k o) s t (.tcopy o) .ready) ∧
    (∀ o : TArgs, Executes (.tscadd t k o) t k s → Starts (.tscadd t k o) s t (.tscadd o) .ready) ∧
    (∀ o : TArgs, Executes (.tmaxabs t k o) t k s → Starts (.tmaxabs t k o) s t (.tmaxabs o) (.waitOp s.nextOp))

/-- R146, R173: REEL returns its handle at once and the job goes to the end of its Reel's queue; a queue of 64 refuses
it with 0x8000_0000. R173, R177, R191, R196: a Reel whose job at the head of the queue holds its rates takes it: a job
that passes its checks runs from then on, with the record and the graph descriptor that were read, and its promise;
one that does not is refused and the Reel stays free. A job that runs writes its frame and gives up its rates; the
Reel is free once its token and its signal have been performed, or at once where it has none. -/
def Obligations.Reels : Prop :=
  (∀ (t : ThreadId) (k : Common) (o : AArgs) (s : State), Executes (.reel t k o) t k s →
      let L := threadRegion s t
      let reel := if o.minor.val = 15 then leastReel s L else o.minor.val
      let p := (physOfLogical s L).getD 0xFF
      let n := mget ReelCount.zero (physOf s p).reels reel
      let job : ReelJob :=
        { ctx := t.ctx, handle := reelHandle L reel n.nextSeq, descAddr := ctxAddress o 64 (theThread s t), seq := n.nextSeq }
      (queued s L reel < 64 → ∃ u, exec (.reel t k o) s = .next u ∧
        reelUnit u L reel = { reelUnit s L reel with queue := (reelUnit s L reel).queue ++ [job] } ∧
        mget ReelCount.zero (physOf u p).reels reel = { n with nextSeq := (n.nextSeq + 1) % 2 ^ 25 } ∧
        theThread u t = { ((theThread s t).wr o.data job.handle).advance with readyAt := now s } ∧ u.mem = s.mem ∧
        u.requests = s.requests ∧ ∀ t', t' ≠ t → threadOf u t' = threadOf s t') ∧
      (64 ≤ queued s L reel → ∃ u, exec (.reel t k o) s = .next u ∧ reelUnit u L reel = reelUnit s L reel ∧
        mget ReelCount.zero (physOf u p).reels reel = { n with refused := Nat.min 0xFFFF (n.refused + 1) } ∧
        theThread u t = { ((theThread s t).wr o.data 0x80000000).advance with readyAt := now s } ∧ u.mem = s.mem ∧
        u.requests = s.requests ∧ ∀ t', t' ≠ t → threadOf u t' = threadOf s t')) ∧
  (∀ (s : State) (region reel : Nat),
      (∀ (job : ReelJob) (rest : List ReelJob) (t : Nat), (reelUnit s region reel).running = none →
        (reelUnit s region reel).queue = job :: rest → unitsAccept s region = true → (ctxOf s job.ctx).state ≠ .paused →
        ratesSince s (.reel region reel) = some t →
        let desc := winRead s job.ctx none job.descAddr 128
        let graph := winRead s job.ctx none (readReelDesc desc).graph 64
        ∃ u, exec (.reelJobAccept region reel) s = .next u ∧ (reelUnit u region reel).queue = rest ∧
          (reelOk s job.ctx desc graph = true → ∃ run, (reelUnit u region reel).running = some run ∧ run.job = job ∧
            run.desc = readReelDesc desc ∧ run.graphRec = graph ∧ run.tAccept = t ∧
            run.promise = t + (readReelDesc desc).promiseNs) ∧
          (reelOk s job.ctx desc graph = false → (reelUnit u region reel).running = none)) ∧
          (reelUnit (closeJob s (.reel region reel)) region reel).running = none ∧
      (∀ run, (reelUnit s region reel).running = some run → run.written = false → (regionOf s region).vacant = false →
        physFailed s (originPhys s (.reel region reel)) = false →
        let sampled := sample (unitReader (withWindows s run.job.ctx run.wins) run.job.ctx) run.desc (readGraph run.graphRec)
        ∃ u, exec (.reelJobComplete region reel) s = .next u ∧ ((reelUnit u region reel).running = some { run with written := true } ∨
            (reelUnit u region reel).running = none ∧ run.desc.token = 0) ∧
          (reelUnit u region reel).queue = (reelUnit s region reel).queue ∧ findTransfer u (.reel region reel) = none ∧
          u.mem = (finishFrame s (.reel region reel) run sampled).mem))

/-- R164, R165: TAKE steps past itself and takes the first task word of its list when no flow of the context is held
by another, no taker waits and none was served at this instant; with the list empty the thread waits as the newest
taker. R161, R163, R166: the oldest waiting firing is placed when there is room, and a due task moves from the delay
list to the end of its ready list. -/
def Obligations.TakesAndWaitingTasks : Prop :=
  (∀ (t : ThreadId) (k : Common) (o : IArgs) (s : State), Executes (.take t k o) t k s →
      let L := threadRegion s t
      (regionOf s L).takers = [] → (regionOf s L).flows = [] → (∀ h ∈ (regionOf s L).handed, h.at_ ≠ instant s) →
      (∀ (w : DWord) (rest : List DWord), readyList (regionOf s L) t.ctx o.minor.val = w :: rest →
        Completes (.take t k o) s fun u =>
          (theThread u t).run = .ready ∧ (theThread u t).rdPair o.dst = w ∧ (theThread u t).pc = (theThread s
          t).advance.pc ∧
          readyList (regionOf u L) t.ctx o.minor.val = rest ∧ (regionOf u L).takers = [] ∧
          (regionOf u L).flows = (if taskFlow w = 0 then [] else [{ ctx := t.ctx, flow := taskFlow w, holder := t }]) ∧
          u.mem = s.mem) ∧
      (readyList (regionOf s L) t.ctx o.minor.val = [] →
        Completes (.take t k o) s fun u =>
          (theThread u t).run = .taking o.minor.val o.dst ∧ (theThread u t).s = (theThread s t).s ∧
          (regionOf u L).takers = [{ t := t, list := o.minor.val, dst := o.dst, since := now s }] ∧ u.mem = s.mem)) ∧
  ((∀ (s : State) (L ctx : Nat) (f : Firing) (w : DWord), (regionOf s L).firings = [f] →
      readyCount (regionOf s L) < 16384 → blockOwner s L (f.cell / 8) = some ctx →
      (entryOf s L f.cell f.entry).waiting = some w → (entryOf s L f.cell f.entry).armed = false →
          (regionOf s L).takers = [] → (∀ h ∈ (regionOf s L).handed, h.at_ ≠ instant s) →
      (∀ q ∈ readyTasks (regionOf s L) ctx (taskList w), q.at_ < now s) →
      Completes (.waitingFiringPlaced L) s fun u => (regionOf u L).firings = [] ∧
        (entryOf u L f.cell f.entry).waiting = none ∧
        readyList (regionOf u L) ctx (taskList w) = readyList (regionOf s L) ctx (taskList w) ++ [w] ∧ u.mem = s.mem) ∧
    (∀ (s : State) (L : Nat) (d : Delayed), (regionOf s L).delay = [d] → d.due ≤ now s / 100 * 100 →
      (ctxOf s d.ctx).state ≠ .paused → (regionOf s L).firings = [] → readyCount (regionOf s L) < 16384 →
          (regionOf s L).takers = [] → (∀ h ∈ (regionOf s L).handed, h.at_ ≠ instant s) →
      (∀ q ∈ readyTasks (regionOf s L) d.ctx (taskList d.task), q.at_ < now s) →
      Completes (.delayTick L) s fun u => (regionOf u L).delay = [] ∧
        readyList (regionOf u L) d.ctx (taskList d.task) = readyList (regionOf s L) d.ctx (taskList d.task) ++ [d.task]
          ∧
        u.mem = s.mem))

/-! ### Requests, credits and transfers -/

/-- R49 to R53: a waiting request that translates, gets a tag and finds everything it needs is accepted now: its
credits are taken, and no byte of memory changes. R51, R52: a request that lacks something waits where it stands, with
its tag and without a credit. -/
def Obligations.RequestAdmission : Prop :=
  (∀ (s : State) (id : Nat) (r : Request), findRequest s id = some r → r.stage = .waiting → mayAdmit s r = true →
      (if r.direct ∨ !kindAddressed r.kind then some r.devAddr
        else translate s r.ctx (originGroup r.origin) (kindNeed r.kind) r.ctxAddr (kindBytes r.kind)) = some r.devAddr →
      strayWatch r = false → namesVacant s r = false → (spaceOf r.devAddr = 4 → peerReachable s (bits r.devAddr 50 48) = true) → r.tag ≠ 0 →
      waitCause s r = none →
      Completes (.requestAcceptance id) s fun u => u.mem = s.mem ∧ u.nextReq = s.nextReq ∧
        ∃ q, findRequest u id = some q ∧ q.stage = .accepted ∧ q.accepted = now s ∧ q.kind = r.kind ∧ q.devAddr =
          r.devAddr ∧
          q.credits = (pathNeeds s r).map (·.2)) ∧
  (∀ (s : State) (id : Nat) (r : Request) (c : Nat), findRequest s id = some r → r.stage = .waiting → mayAdmit s r =
          true →
      (if r.direct ∨ !kindAddressed r.kind then some r.devAddr
        else translate s r.ctx (originGroup r.origin) (kindNeed r.kind) r.ctxAddr (kindBytes r.kind)) = some r.devAddr →
      strayWatch r = false → namesVacant s r = false → (spaceOf r.devAddr = 4 → peerReachable s (bits r.devAddr 50 48) = true) → r.tag ≠ 0 →
      waitCause s r = some c →
      Completes (.requestAcceptance id) s fun u => u.mem = s.mem ∧ u.dests = s.dests ∧ u.ledgers = s.ledgers ∧
        findRequest u id = some { r with since := now s, cause := c })

/-- R122, R124, R242, R376: a store, or a drain of a tensor operation, in T0, T1 or T2 that may be performed stores
its bytes at its device address, and a load reads the bytes there and changes none; each then only waits for its
completion. -/
def Obligations.RequestIsPerformed : Prop :=
  ∀ (s : State) (id : Nat) (r : Request), findRequest s id = some r → mayPerform s r = true → targetFailed s r = false →
    strayWrite s r = false → spaceOf r.devAddr < 3 →
        (∀ bs, r.kind = .store bs ∨ r.kind = .drain bs → Completes (.requestPerform id) s fun u =>
      (bs = [] ∨ u.mem = s.mem.store (memKey s r.devAddr) bs) ∧ u.contexts = s.contexts ∧
      ∃ q, findRequest u id = some q ∧ q.stage = .performed ∧ q.kind = r.kind) ∧
    (∀ n signed dst, r.kind = .load n signed dst → Completes (.requestPerform id) s fun u =>
      u.mem = s.mem ∧ u.threads = s.threads ∧
      ∃ q, findRequest u id = some q ∧ q.stage = .performed ∧ q.kind = r.kind ∧
        q.result = s.mem.fetchBytes (memKey s r.devAddr) n ∧ q.poisonAt = corePoison s r.devAddr n)

/-- R122: a load of at most four bytes completes: its register takes the value, its thread runs again, and the request
is gone. Nothing is stored. R147: the acknowledgement of a WATCH sets its slot, not written, and its thread runs
again. R150, R153, R43: a parked thread with a written slot wakes when its region's rail stands at 0.60 V or more: its
register takes the mask, the marks are cleared, and nothing else changes when the wake is in time. Below 0.60 V it
stays parked, with its marks. -/
def Obligations.ThreadsWakeWithTheirResults : Prop :=
  (∀ (s : State) (id : Nat) (r : Request) (t : ThreadId) (th : Thread) (n : Nat) (signed : Bool) (dst : Fin 32)
      (resp : List Byte) (poison : Bool),
      findRequest s id = some r → r.stage = .performed → heldForCell s r = false → r.kind = .load n signed dst → n ≠ 8 →
      r.origin = .thread t → r.poisonAt = none → spaceOf r.devAddr ≠ 4 →
      (spaceOf r.devAddr = 5 → poison = false) → threadOf s t = some th → th.run = .waitReq id →
      th.pc < codeWords (ctxOf s t.ctx) →
      Completes (.requestCompletion id resp poison) s fun u =>
        threadOf u t = some
          { th.wr dst (BitVec.ofNat 32 (loadValue n signed r.result)) with run := .ready, readyAt := now s } ∧
        u.mem = s.mem ∧ findRequest u id = none) ∧
  (∀ (s : State) (id : Nat) (r : Request) (t : ThreadId) (th : Thread) (slot : Fin 16), findRequest s id = some r →
      r.kind = .watch slot → r.origin = .thread t → mayPerform s r = true → heldForCell s r = false →
      targetFailed s r = false → threadOf s t = some th → th.run = .waitReq id → th.pc < codeWords (ctxOf s t.ctx) →
      Completes (.watchAck id) s fun u =>
        threadOf u t = some { th with
          run := .ready, readyAt := now s
          watch := th.watch.set slot { addr := some r.devAddr, acked := true, written := false, due := 0 } } ∧
        u.mem = s.mem ∧ findRequest u id = none) ∧
  (∀ (s : State) (t : ThreadId) (th : Thread) (dst : Fin 32), threadOf s t = some th → th.run = .parked dst →
      th.writtenMask ≠ 0 → ctxRuns s t.ctx = true → cellRuns s t = true → th.pc < codeWords (ctxOf s t.ctx) →
      let rail := (physOf s (physAt s (threadRegion s t))).vcore
      (600 ≤ rail → th.wakeDue = 0 ∨ 10 * now s ≤ th.wakeDue →
        exec (.wakeNotification t) s = .next { s with
          threads := mset s.threads t
            { th.wr dst (BitVec.ofNat 32 th.writtenMask) with
              run := .ready, readyAt := now s, watch := th.watch.map fun w => { w with written := false, due := 0 } } }) ∧
      (rail < 600 → Completes (.wakeNotification t) s fun u => u.mem = s.mem ∧ u.requests = s.requests ∧
        ∃ x, threadOf u t = some x ∧ x.run = .parked dst ∧ x.writtenMask = th.writtenMask ∧ x.s = th.s ∧
          ∀ t', t' ≠ t → threadOf u t' = threadOf s t'))

/-- R154 to R156: a signal in T0 or T1 sets the word, adds to it, or ORs into it, and changes no other byte. -/
def Obligations.SignalIsPerformed : Prop :=
  ∀ (s : State) (id : Nat) (r : Request) (m : Nat) (v : Word) (held : Bool), findRequest s id = some r →
    r.kind = .signal m v held → mayPerform s r = true → targetFailed s r = false → strayWrite s r = false →
    (spaceOf r.devAddr = 1 ∨ spaceOf r.devAddr = 2) → devPoison s r.devAddr 4 = none →
    let old := leNat (s.mem.fetchBytes (memKey s r.devAddr) 4)
    let new := if m = 0 then v.toNat else if m = 1 then (old + v.toNat) % 2 ^ 32 else old ||| v.toNat
    Completes (.signalPerform id) s fun u => u.mem = s.mem.store (memKey s r.devAddr) (leBytes 4 new) ∧
      ∃ q, findRequest u id = some q ∧ q.stage = .performed

/-- R157, R160: a token that is performed has its effect on its entry (`performToken`) and leaves: an operand sets its
bit, a disarm clears the entry. R160: a token at an entry that is complete with it fires the entry: the task word goes
to the end of its list when no thread takes it and none took one at this instant, the operands leave, and the entry is
disarmed or its ARG stepped. A second token for a set bit, and an arm of an armed entry, are token faults: the count
rises and the entry stays as it was. -/
def Obligations.Tokens : Prop :=
  (∀ (s : State) (id : Nat) (r : Request) (w task : DWord), findRequest s id = some r → r.kind = .token w task →
      mayPerform s r = true → targetFailed s r = false → r.deadline = none → r.judge = none →
      (r.promise = 0 ∨ 10 * now s ≤ r.promise) →
      let L := tokRegion w
      let x := entryOf s L (tokCell w) (tokEntry w)
      ∃ u, exec (.tokenPerform id) s = .next u ∧ u = finishRequest (performToken s r.ctx w task none) r ∧
        findRequest u id = none ∧ u.mem = s.mem ∧
        (tokenMalformed w = false → (ctxOf s r.ctx).blocks.contains (L, tokCell w / 8) = true →
          (tokKind w = 0 → x.arrived.getLsbD (tokOpnd w) = false → (x.armed = false ∨ x.waiting ≠ none) →
            (entryOf u L (tokCell w) (tokEntry w)).arrived = x.arrived ||| BitVec.ofNat 16 (2 ^ tokOpnd w)) ∧
          (tokKind w = 2 →
            (entryOf u L (tokCell w) (tokEntry w)).armed = false ∧ (entryOf u L (tokCell w) (tokEntry w)).arrived = 0))) ∧
  (∀ (s : State) (ctx : Nat) (w task : DWord),
      let L := tokRegion w
      let x := entryOf s L (tokCell w) (tokEntry w)
      tokenMalformed w = false → (ctxOf s ctx).blocks.contains (L, tokCell w / 8) = true →
      (tokKind w = 0 → x.arrived.getLsbD (tokOpnd w) = true →
        performToken s ctx w task none = tokenFault s ctx L) ∧
      (tokKind w = 1 → x.armed = true → performToken s ctx w task none = tokenFault s ctx L) ∧
      (tokKind w = 2 →
        let u := performToken s ctx w task none
        (entryOf u L (tokCell w) (tokEntry w)).armed = false ∧ (entryOf u L (tokCell w) (tokEntry w)).arrived = 0) ∧
      (tokKind w = 0 → x.arrived.getLsbD (tokOpnd w) = false →
        (x.armed = false ∨ x.waiting ≠ none) →
        let u := performToken s ctx w task none
        (entryOf u L (tokCell w) (tokEntry w)).arrived = x.arrived ||| BitVec.ofNat 16 (2 ^ tokOpnd w)) ∧
      (tokKind w = 1 → x.armed = false → tokRequired w = 0 → x.waiting = none → readyCount (regionOf s L) < 16384 →
              (regionOf s L).firings = [] → (regionOf s L).takers = [] → (∀ h ∈ (regionOf s L).handed, h.at_ ≠ instant s) →
        (∀ q ∈ readyTasks (regionOf s L) ctx (taskList task), q.at_ < now s) →
        let u := performToken s ctx w task none
        readyList (regionOf u L) ctx (taskList task) = readyList (regionOf s L) ctx (taskList task) ++ [task] ∧
        (entryOf u L (tokCell w) (tokEntry w)).armed = tokRearm w))

/-- R54: a lending request of the only ledger that asks is served at once when the destination lends and has the
credits, and waits otherwise; the credits that have lain unused for 2,000 ns go back. No credit is made or lost. -/
def Obligations.CreditsAreLentAndGivenBack : Prop :=
  ∀ (s : State) (led : AdmPoint) (res : Resource) (n : Nat),
    (isOwnSlot res = false →
      (∃ q ∈ s.requests, q.stage = .waiting ∧ ∃ x ∈ creditNeeds s q, x.1 = led ∧ x.2.1 = res ∧
        (ledgerOf s led res).unused < x.2.2) → n ≠ 0 → n ≤ resourceTotal res → (destOf s res).waiting = [] →
      (lends s res = true → n ≤ (destOf s res).free → Completes (.lendingRequest led res n) s fun u =>
        (destOf u res).free + n = (destOf s res).free ∧ (ledgerOf u led res).unused = (ledgerOf s led res).unused + n
        ∧
        (destOf u res).waiting = [] ∧ u.requests = s.requests ∧ u.mem = s.mem) ∧
      (lends s res = false ∨ (destOf s res).free < n → Completes (.lendingRequest led res n) s fun u =>
        (destOf u res).free = (destOf s res).free ∧ (destOf u res).waiting = [(led, res, n)] ∧
        u.ledgers = s.ledgers)) ∧
    ((∃ x ∈ (ledgerOf s led res).lots, x.2 + 2000 ≤ now s) → (destOf s res).waiting = [] →
      Completes (.creditGiveBack led res) s fun u =>
        (ledgerOf u led res).lots = (ledgerOf s led res).lots.filter (fun x => !decide (x.2 + 2000 ≤ now s)) ∧
        (destOf u res).free + (ledgerOf u led res).unused = (destOf s res).free + (ledgerOf s led res).unused ∧
        u.requests = s.requests ∧ u.mem = s.mem)

/-- R58: a waiting transfer that finds its rate at every hop is accepted, and no other transfer changes. R173: the
transfer of a Reel's job is accepted with the job, by what REEL_JOB_ACCEPT does. -/
def Obligations.TransferIsAccepted : Prop :=
    ∀ (s : State) (x : Transfer), freshIds (·.id) s.transfers s.nextXfer → x ∈ s.transfers → x.accepted = false →
    ((∃ n, x.purpose = .copyCmd n) ∨ (∃ n L, x.purpose = .load n L) ∨ (∃ n r, x.purpose = .handover n r) ∨
        (∃ L, x.purpose = .migration L) → canReserve s x = true →
      Completes (.transferAcceptance x.id) s fun u => { u with transfers := s.transfers } = s ∧
        { x with accepted := true, tAccept := now s } ∈ u.transfers ∧ u.transfers.length = s.transfers.length ∧
        ∀ y ∈ s.transfers, y.id ≠ x.id → y ∈ u.transfers) ∧
    ∀ L r, x.purpose = .reel L r → exec (.transferAcceptance x.id) s = exec (.reelJobAccept L r) s

/-! ### Spars, Reels, gather engines and tables -/

/-- R231 to R236: a presented MMA whose descriptors have been loaded and whose spars may be granted takes them now;
memory and every thread stay as they are. R94, R137, R233, R235: a tensor operation that completes leaves, and what
waited for it is looked at again. Its effect is the operation's own, under the windows it was issued with, when no
conflicting operation was pending with it; otherwise its results are undefined. A follow-on MMA starts as the MMA
before it leaves. -/
def Obligations.TensorOperations : Prop :=
  (∀ (s : State) (op at_ since : Nat) (q : TensorOp) (g : Nat × Nat), Sound s → findOp s op = some q →
          q.stage = .presented at_ since → q.awaits = [] →
      (ctxOf s q.t.ctx).state = .running → opRuns s q = true → (regionOf s q.region).exchange = none →
      rigWhole s q = true → grantOf s q = some g →
      Completes (.mmaGrant op) s fun u => u.mem = s.mem ∧ u.threads = s.threads ∧ u.ops.map (·.id) = s.ops.map (·.id) ∧
        ∃ p ∈ u.ops, p.id = op ∧ p.stage = .granted g.1 g.2 (now s) at_ ∧ p.kind = q.kind) ∧
  (∀ (s : State) (op : Nat) (q : TensorOp), findOp s op = some q → opRuns s q = true →
      let done := fun (r : State) (eff : State → State) (u : State) => findOp u op = none ∧
        (q.tainted = false → conflicting r q = [] →
          u = tensorWake { eff r with ops := (eff r).ops.filter fun p => p.id ≠ op } q.t op)
      let moved := countSpans s q ((opAccess s q).1 ++ (opAccess s q).2)
      (∀ o tag, q.kind = .mma o tag → firstOnSpars s q = true → rigWhole s q = true → feedsEnded s q = true →
              Completes (.mmaComplete op) s (done (startFollow (countMma s q o) q) (mmaEffect q o tag))) ∧
      (q.awaits = [] → opFenced s q = false →
        let under := fun (eff : State → State) (r : State) => underWindows r q.t.ctx q.wins eff
        (∀ o, q.kind = .tcopy o → Completes (.tensorOpComplete op) s (done moved (under (tcopyEffect q o)))) ∧
        (∀ o, q.kind = .tscadd o → Completes (.tensorOpComplete op) s (done moved (under (tscaddEffect q o)))) ∧
        (∀ o, q.kind = .tmaxabs o → Completes (.tensorOpComplete op) s (done moved (under (tmaxabsEffect q o))))))

/-- R203, R205: a gather record is read from its ring, whose position moves on; the job is taken, or refused. R205,
R207: a taken job of each of the four kinds that holds its rates, and whose version is live, is accepted. R206, R210,
R212: a job whose batches have all been answered finishes its data; once every write of its data has been performed it
reports, and gives up its rates; it leaves its engine with its last report. -/
def Obligations.GatherJobs : Prop :=
  (∀ (s : State) (ctx region : Nat), ctxRuns s ctx = true → unitsAccept s region = true →
      (regionOf s region).gatherJobs.length < 4 → (∀ j ∈ (regionOf s region).gatherJobs, j.ctx = ctx → j.accepted =
          true) →
      ringHas s ctx region 0 (ctxRegionOf (ctxOf s ctx) region).gatherNext = true →
      Completes (.gatherRecordRead ctx region) s fun u =>
        (ctxRegionOf (ctxOf u ctx) region).gatherNext = ((ctxRegionOf (ctxOf s ctx) region).gatherNext + 1) % 2 ^ 32 ∧
        (regionOf u region).nextGather = (regionOf s region).nextGather + 1 ∧
        ((regionOf u region).gatherJobs = (regionOf s region).gatherJobs ∨
          ∃ j, (regionOf u region).gatherJobs = (regionOf s region).gatherJobs ++ [j] ∧
            j.tag = (regionOf s region).nextGather ∧ j.ctx = ctx)) ∧
  (∀ (s : State) (region job t : Nat) (j : GatherJob) (v : TableVersion),
      (regionOf s region).gatherJobs.find? (fun x => x.tag == job) = some j → j.accepted = false →
      ctxRuns s j.ctx = true → unitsAccept s region = true → (j.rcd.keepPin = true → keptCount s < 4096) →
      findVersion s j.rcd.table j.version = some v → ratesSince s (.gather region job) = some t →
      stillOk s region { j with rows := rowsOf s j.ctx (listEntries s j.ctx j.rcd) } v = true →
      let accepted := fun u : State => ∃ x ∈ (regionOf u region).gatherJobs, x.tag = job ∧ x.accepted = true ∧
          x.tAccept = t
      (j.rcd.op = 1 → Completes (.gather region job) s accepted) ∧
      (j.rcd.op = 2 → Completes (.scatterAdd region job) s accepted) ∧
      (j.rcd.op = 3 → Completes (.write region job) s accepted) ∧
      (j.rcd.op = 4 → fillMayStart s region j = true → Completes (.loftFill region job) s accepted)) ∧
  (∀ (s : State) (region job : Nat) (j : GatherJob) (v : TableVersion),
      (regionOf s region).gatherJobs.find? (fun x => x.tag == job) = some j →
          findVersion s j.rcd.table j.version = some v → j.reported = false → dataDone s region j = true →
      regionLost s region = false →
      (j.dataOut = false → Completes (.gatherJobComplete region job) s fun u =>
        ∀ x ∈ (regionOf u region).gatherJobs, x.tag = job → x.dataOut = true) ∧
      (j.dataOut = true → Completes (.gatherJobComplete region job) s fun u => findTransfer u (.gather region job) = none ∧
        ∀ x ∈ (regionOf u region).gatherJobs, x.tag = job → x.reported = true) ∧
      ∀ x ∈ (regionOf (closeJob s (.gather region job)) region).gatherJobs, x.tag ≠ job)

/-- R211, R212: a batch that arrives from a peer is written into the region's inbox; a WRITE batch of one row that
this region serves is then written to the row's place, and its arrival is counted once the writes of the row are done.
R213 to R215: at its boundary every staged move of a table for that boundary applies, the directory epoch advances by
one, and a handover begins; the copy then ends the holding; the forwarding entry goes when no older pin is left. R217,
R218: reading the balancer's counts clears every sketch and every load register of the device. -/
def Obligations.ShardRows : Prop :=
  (∀ (s : State) (region row dest : Nat) (b : OwnerBatch) (v : TableVersion) (p : RowPlace), region < 16 →
      regionLost s region = false →
      b.hdr.op = 3 → b.hdr.source / 16 ≠ s.part.device → s.out.contains (.batch (ownCode s region) b) = false →
      (destOf s (.gatherInbox region)).free ≠ 0 → findVersion s b.hdr.table b.hdr.version = some v →
      batchRows b = [((row, dest), b.payload.flatten)] → entryFate s region b v row = .serve p →
      let s1 := storeBatch s region b
      let s2 := serveEntry s1 (.owner region (tableOf s b.hdr.table).fn) region b v (row, dest) b.payload.flatten p
      exec (.ownerBatch region b) s = .next (sendWaiting
        (arriveAdd s2 region b (writesSince s2 region (tableOf s b.hdr.table).fn s1.nextReq))) ∧
      s1.mem = s.mem.store (memKey s (inboxAddr region (regionOf s region).inboxNext)) (batchBytes b)) ∧
  (∀ (s : State) (table row : Nat),
      (∀ m, (tableOf s table).moves.find? (fun x => x.row == row) = some m → m.boundary ≤ now s → isBoundary (now s) = true →
        pinsRecent s table = true →
        Completes (.rowHandover table row) s fun u => u.mem = s.mem ∧
          (tableOf u table).epoch = ((tableOf s table).epoch + 1) % 65536 ∧
          (∀ x ∈ (tableOf u table).moves, x ∈ (tableOf s table).moves ∧ x.boundary ≠ m.boundary) ∧
          ∃ h ∈ (tableOf u table).handovers, h.row = row ∧ h.copied = false ∧ h.newOwner = m.newOwner ∧
            h.epoch = ((tableOf s table).epoch + 1) % 65536) ∧
      (∀ h rowData accData, (tableOf s table).handovers.find? (fun x => x.row == row && !x.copied) = some h → h.held = [] →
        copyUnderWay s table h = false →
        Completes (.handoverCopyDone table row rowData accData) s fun u =>
          ∀ x ∈ (tableOf u table).handovers, x.row = row → x.copied = true) ∧
      (∀ h, (tableOf s table).handovers.find? (fun x => x.row == row && x.copied) = some h → noOlderPin s table h.epoch
          = true →
        Completes (.forwardEntryFree table row true) s fun u => u.mem = s.mem ∧
          (∀ x ∈ (tableOf u table).handovers, ¬ (x.row = row ∧ x.epoch = h.epoch)) ∧
          (tableOf u table).epoch = (tableOf s table).epoch)) ∧
  (∀ (s : State) (moves : List RowMove), s.hold = false → mget? s.lastEvent (0x217, 0) = none →
      Completes (.balancerRead moves) s fun u => (∀ p, (physOf u p).sketch = [] ∧ (physOf u p).shardLoad = []) ∧
        u.mem = s.mem ∧ u.contexts = s.contexts ∧ u.logs = s.logs)

/-- R94, R220, R354, R355: at an epoch boundary the ready loft halves become active, the selected objects lose their
home, and the objects whose copy has filled a new run are mapped there. Between boundaries nothing happens (the
model's choice for an event that cannot occur, log entry 8). -/
def Obligations.BoundaryRemaps : Prop :=
  ∀ s : State,
    (isBoundary (now s) = true → Completes .loftHalfActivate s fun u => u.mem = s.mem ∧ u.objects = s.objects ∧
      ∀ L c, loftOf u L c = (loftOf s L c).activate) ∧
    (isBoundary (now s) = false → exec .loftHalfActivate s = .next s ∧ exec .objectRemapBoundary s = .next s) ∧
    (isBoundary (now s) = true → (s.objects.map (·.handle)).Nodup →
      Completes .objectRemapBoundary s fun u => u.mem = s.mem ∧ u.objects.map (·.handle) = s.objects.map (·.handle) ∧
        (∀ x ∈ u.objects, x.nextHome = none) ∧
        (∀ x ∈ s.objects, ∀ h, x.nextHome = some h → ∃ y ∈ u.objects, y.handle = x.handle ∧ y.home = some h) ∧
        ∀ x ∈ s.objects, x.nextHome = none → x.evicting = true → x.home ≠ none →
          ∃ y ∈ u.objects, y.handle = x.handle ∧ y.home = none)

/-! ### Reductions and the Winch -/

/-- R306 to R310, R319, R326: a record that may be taken and need not wait moves the ring on: a reduction that has its
claim and its rates, and an outcome, get the sequencer's next tag; one that fails its checks, or conflicts with a job
in flight when it is accepted, is refused and no job of the sequencer changes. -/
def Obligations.ReductionRecordIsTaken : Prop :=
  ∀ (s : State) (ctx region : Nat), reduceMayTake s ctx region = true →
    let next := (ctxRegionOf (ctxOf s ctx) region).reduceNext
    let r := reduceHead s ctx region next
    let moved := fun u : State => (ctxRegionOf (ctxOf u ctx) region).reduceNext = (next + 1) % 2 ^ 32
    let refused := fun u : State => moved u ∧ (seqOf u region).jobs = (seqOf s region).jobs
    let rates := ∃ t, ratesSince s (.reduce region (ctx * 2 ^ 32 + next)) = some t
    reduceWaits s region ctx r = false →
    (r.op ≠ 2 → reduceRecOk r = false → Completes (.reduce ctx region) s refused) ∧
    (r.op = 2 → (reduceRecOk r = false ∨ reduceConflict s region ctx r = true) →
      Completes (.outcome ctx region) s refused) ∧
    (r.op ≠ 2 → reduceRecOk r = true → claimOk s region ctx r = true → rates →
      (reduceConflict s region ctx r = true → Completes (.reduce ctx region) s refused) ∧
      (reduceConflict s region ctx r = false → Completes (.reduce ctx region) s fun u =>
        moved u ∧ (seqOf u region).nextTag = (seqOf s region).nextTag + 1)) ∧
    (r.op = 2 → reduceRecOk r = true → reduceConflict s region ctx r = false →
      Completes (.outcome ctx region) s fun u => moved u ∧ (seqOf u region).nextTag = (seqOf s region).nextTag + 1)

/-- R310, R318, R320: a packet of each kind that arrives from a peer before its turn takes a credit of the region's
inbox, is written to its place there under the OP of its kind, and stays; no other byte of memory changes. -/
def Obligations.EarlyPacketIsHeld : Prop :=
  ∀ (s : State) (region : Nat) (p : Packet), region < 16 → regionLost s region = false → (seqOf s region).inbox = [] →
    (∀ l, (seqOf s l).outq = []) → (seqOf s region).jobs = [] → (seqOf s region).underWay = [] →
    (destOf s (.reduceInbox region)).free ≠ 0 → p.seq ≠ mget 0 (seqOf s region).recvSeq (p.sender, p.ch) →
    let held := fun op (u : State) => (seqOf u region).inbox = [{ p with op := op }] ∧
      (destOf u (.reduceInbox region)).free + 1 = (destOf s (.reduceInbox region)).free ∧
      u.mem = s.mem.store (memKey s (packetAddr region (regionOf s region).packetNext)) (packetBytes { p with op := op })
    Completes (.grant region p) s (held 1) ∧ Completes (.max region p) s (held 2) ∧ Completes (.exp region p) s (held
        3) ∧
    Completes (.data region p) s (held 4) ∧ Completes (.outcomePacket region p) s (held 5) ∧
    Completes (.abort region p) s (held 6)

/-- R325, R327: at its disable deadline a reduction job that is still in flight is aborted: it leaves the sequencer,
with an item record. Batch steering runs once on each outcome: the record it is given is updated by `steerEffect`, and
the step is no longer due. -/
def Obligations.ReductionDeadlineAndSteering : Prop :=
  (∀ (s : State) (region job d : Nat) (j : ReduceJob), findReduce s region job = some j → j.deadline = some d → d ≤
        now s →
    ∃ u, exec (.reduceDisableDeadline region job) s = .next u ∧ findReduce u region job = none ∧
      ∃ r more, u.records = s.records ++ r :: more ∧ r.cid = 0xFFFF ∧ r.status = 4 ∧ r.result / 2 ^ 28 = 6 ∧
        r.result % 2 ^ 28 = j.ringIndex % 2 ^ 28 ∧ r.tDone = now s) ∧
  (∀ (s : State) (ctx rcd : Nat) (x : Bool × Nat), (ctxOf s ctx).steer = some x →
    ∃ u, exec (.batchSteering ctx rcd) s = .next u ∧ (ctxOf u ctx).steer = none ∧
      u = steerEffect (modCtx s ctx fun y => { y with steer := none }) ctx rcd x.1)

/-- R353, R368 to R371: a Winch entry in its turn. STAGE and COPY that hold their rates are accepted under the
region's next tag; RELEASE completes at once and lowers the hold of its object by one, to no lower than zero; an entry
whose bytes have been moved completes and leaves. R368, R370: an entry reports when its bytes have been copied and its
object waits for no boundary, or at once with its copy when it needs no new home; an entry with a new home waits for
its boundary first. It leaves the Winch with its last report. -/
def Obligations.WinchEntries : Prop :=
  (∀ (s : State) (ctx region : Nat), winchReady s region ctx = true → winchTurnOf s region ctx = true →
      let r := winchHead s ctx region
      winchOk s ctx r = true → gateOpen s region ctx r = true →
      let use := winchUse region ctx (winchNextOf s ctx region)
      let accepted := fun u : State => (regionOf u region).nextWinch = (regionOf s region).nextWinch + 1 ∧
        ∃ e ∈ (regionOf u region).winch, e.tag = (regionOf s region).nextWinch ∧ e.rcd = r ∧ e.ctx = ctx ∧ e.tAccept =
          now s
      (∀ o, r.op = 1 → objectOf s ctx r.window = some o → o.home ≠ none → (∃ t, ratesSince s use = some t) →
        Completes (.stage ctx region) s accepted) ∧
      (r.op = 2 → (∃ t, ratesSince s use = some t) → Completes (.winchCopy ctx region) s accepted) ∧
      (∀ o, r.op = 3 → objectOf s ctx r.window = some o → (s.objects.map (·.handle)).Nodup → o ∈ s.objects →
        Completes (.winchRelease ctx region) s fun u => (regionOf u region).nextWinch = (regionOf s region).nextWinch +
          1 ∧
          ∃ x ∈ u.objects, x.handle = o.handle ∧ x.hold = o.hold - 1)) ∧
  (∀ (s : State) (region entry : Nat) (e : WinchEntry), (regionOf s region).winch.find? (fun x => x.tag == entry) =
          some e →
          (regionOf s region).vacant = false → e.reported = false →
      ((e.copied = true ∨ e.newHome = none) →
        (e.copied = true → ∀ o, objectOf s e.ctx e.rcd.window = some o → o.nextHome = none) →
        Completes (.winchEntryComplete region entry) s fun u =>
          ∀ x ∈ (regionOf u region).winch, x.tag = entry → x.reported = true) ∧
      (∀ h, e.copied = false → e.newHome = some h → Completes (.winchEntryComplete region entry) s fun u =>
        ∀ x ∈ (regionOf u region).winch, x.tag = entry → x.copied = true) ∧
      ∀ x ∈ (regionOf (closeJob s (.winch region entry)) region).winch, x.tag ≠ entry)

/-- R90, R104: when a break has stopped the threads the context is paused; when the last accepted item has completed a
draining context is stopped. -/
def Obligations.ContextsPauseAndStop : Prop :=
  ∀ (s : State) (ctx : Nat),
    ((ctxOf s ctx).state = .running → (ctxOf s ctx).breaking = true → Completes (.breakStopDone ctx) s fun u =>
      (ctxOf u ctx).state = .paused ∧ (ctxOf u ctx).breaking = false ∧ u.mem = s.mem ∧ u.threads = s.threads) ∧
    ((ctxOf s ctx).state = .draining → drained s ctx = true → Completes (.drainComplete ctx) s fun u =>
      (ctxOf u ctx).state = .stopped ∧ u.mem = s.mem)

/-! ### Queues, commands and registers -/

/-- R411, R412: a fetched entry whose order allows it is accepted under the next number of its queue, at this time; an
entry whose header fails ends at once as rejected, with the failing offset. An entry that still stands in its queue is
fetched first: SQ_HEAD moves on, and its 64 bytes are the host's. R415, R417: a command whose work has ended leaves,
and its record is the newest of its queue; the oldest record of a queue with room is written at CQ_TAIL, which moves
on, the phase turning at the wrap; the interrupt is sent, or pends while its vector is masked. -/
def Obligations.CommandsAndRecords : Prop :=
  (∀ (s : State) (fn queue : Nat) (v : Votes), Sound s → queueTurn s fn queue = true → quorumAgrees s v = true →
      let x := queueOf s fn queue
      let n := (x.started + 1) % 2 ^ 32
      breakingContexts s fn queue n = [] →
      (∀ c, fetchedOf s fn queue = some c → orderAllows s c = true →
        Completes (.commandAccept fn queue v) s fun u =>
          queueOf u fn queue = { x with started := n } ∧ u.mem = s.mem ∧ u.contexts = s.contexts ∧ u.cmdTurn = (fn, queue) ∧
          ∃ d, findCmd u c.id = some d ∧ d.number = n ∧ d.tAccept = now s ∧ d.entry = c.entry ∧
            (entryFault s c = none → d.stage = .accepted) ∧
            ∀ off, entryFault s c = some off → d.stage = .ended ∧ d.status = 1 ∧ d.detail = off) ∧
      (entryWaits s fn queue = true →
        Completes (.commandAccept fn queue v) s fun u =>
          (queueOf u fn queue).sqHead = (x.sqHead + 1) % 2 ^ x.sqLog2 ∧ u.mem = s.mem ∧ u.nextCmd = s.nextCmd + 1 ∧
          ∃ d, findCmd u s.nextCmd = some d ∧ d.fn = fn ∧ d.queue = queue ∧
            d.entry = hostRead s fn (x.sqBase.toNat + 64 * x.sqHead) 64)) ∧
  ((∀ (s : State) (id : Nat) (c : Cmd), findCmd s id = some c → c.stage = .ended → c.opcode ≠ 0x0E →
      Completes (.commandCompletion id) s fun u => findCmd u id = none ∧ u.mem = s.mem ∧
        ∃ more r, u.records = s.records ++ more ++ [r] ∧ r.fn = c.fn ∧ r.queue = c.queue ∧ r.cid = c.cid ∧
          r.status = c.status ∧ r.detail = c.detail ∧ r.tDone = now s ∧ r.noPromise = c.promised.isNone ∧
          r.result = c.result % 2 ^ 32 ∧ (r.missed = false → more = [])) ∧
    ∀ (s : State) (fn queue : Nat) (r : Record),
      let x := queueOf s fn queue
      let n := 2 ^ x.cqLog2
      s.records.find? (fun r => r.fn == fn && r.queue == queue) = some r → (x.cqTail + 1) % n ≠ x.cqHead →
      hostReach s fn = true →
      Completes (.completionPost fn queue) s fun u =>
        u.records = s.records.erase r ∧
        u.mem = s.mem.store (memKey s (hostAddr (fnPort s fn) (x.cqBase.toNat + 32 * x.cqTail)))
          (recordBytes r x.sqHead x.phase) ∧
        queueOf u fn queue = { x with
          cqTail := (x.cqTail + 1) % n, phase := if x.cqTail + 1 = n then !x.phase else x.phase } ∧
        (let a := hostAddr (fnPort s fn) (x.cqBase.toNat + 32 * x.cqTail)
         let sent := s.out ++ [.hostRequest (hostPort s a) fn true (a % 2 ^ 48) 32]
         (x.irqEn = false → u.out = sent) ∧
         (x.irqEn = true → vectorMasked (cfgOf s fn) x.vector = false → u.out = sent ++ [.msix fn x.vector]) ∧
         (x.irqEn = true → vectorMasked (cfgOf s fn) x.vector = true →
          u.out = sent ∧ x.vector ∈ (cfgOf u fn).msixPending)))

/-- R411: a doorbell below the queue's size sets its pointer and nothing else of the queue; another one is counted in
DENIED. R410: a write of QCTL with EN set opens a closed queue with its pointers at 0. R12, R14, R409: a write of an
RW field by the context's owner takes effect at once, and a 1 written to HIT clears it; a write of a WS field is
staged and changes no active word; a write by another function is counted in DENIED and changes no word. -/
def Obligations.DoorbellsAndRegisterWrites : Prop :=
  (∀ (s : State) (fn queue : Nat) (value : Word) (port : Nat),
      let x := queueOf s fn queue
      (∀ host : List (Nat × Byte),
        let m := host.foldl (fun m e => m.store (memKey s (hostAddr port e.1)) [e.2]) s.mem
        (fnPort s fn = port → value.toNat < 2 ^ x.sqLog2 → Completes (.sqTail fn queue value port host) s fun u =>
          queueOf u fn queue = { x with sqTail := value.toNat } ∧ u.mem = m ∧ (fnOf u fn).denied = (fnOf s fn).denied) ∧
        (2 ^ x.sqLog2 ≤ value.toNat → Completes (.sqTail fn queue value port host) s fun u =>
          queueOf u fn queue = x ∧ u.mem = m ∧ (fnOf u fn).denied = Nat.min 0xFFFF ((fnOf s fn).denied + 1))) ∧
      (fnPort s fn = port → value.toNat < 2 ^ x.cqLog2 → Completes (.cqHead fn queue value port) s fun u =>
        queueOf u fn queue = { x with cqHead := value.toNat } ∧ u.mem = s.mem ∧ (fnOf u fn).denied = (fnOf s fn).denied) ∧
      (2 ^ x.cqLog2 ≤ value.toNat → Completes (.cqHead fn queue value port) s fun u =>
        queueOf u fn queue = x ∧ u.mem = s.mem ∧ (fnOf u fn).denied = Nat.min 0xFFFF ((fnOf s fn).denied + 1)) ∧
      (∀ w : DWord, fnNumbers.contains fn = true → queue < 64 → x.en = false → s.notice = none →
        bitOf w.toNat 63 = true → 4 ≤ bits w.toNat 55 52 → bits w.toNat 55 52 ≤ 12 → 4 ≤ bits w.toNat 51 48 →
        bits w.toNat 51 48 ≤ 12 →
        Completes (.qctl fn queue w) s fun u => u.mem = s.mem ∧ u.cmds = s.cmds ∧
          queueOf u fn queue = { x with
            en := true, irqEn := bitOf w.toNat 62, sqLog2 := bits w.toNat 55 52, cqLog2 := bits w.toNat 51 48,
            vector := bits w.toNat 43 32, sqHead := 0, cqTail := 0, started := 0, phase := true })) ∧
  (∀ (s : State) (fn off : Nat) (v : DWord), fnPresent s fn = true → off % 8 = 0 → 0x18000 ≤ off →
      (∀ c i, c < 64 → i < 4 → barTarget s fn off = some (offTagBreak c i) → ownsContext s fn c = true →
        Completes (.registerWrite fn off v 0xFF) s fun u => u.mem = s.mem ∧ u.threads = s.threads ∧
          (∀ n, n ≤ 27 ∨ n = 31 → (rawReg u (offTagBreak c i)).getLsbD n = v.getLsbD n) ∧
          (rawReg u (offTagBreak c i)).getLsbD 30 = ((rawReg s (offTagBreak c i)).getLsbD 30 && !v.getLsbD 30) ∧
          ∀ o, o ≠ offTagBreak c i → mget? u.regs o = mget? s.regs o) ∧
      (fn = 0 → barTarget s fn off = some offPace → Completes (.registerWrite fn off v 0xFF) s fun u =>
        u.regs = s.regs ∧ u.mem = s.mem ∧
        ∀ n, n ≤ 11 ∨ n = 31 → (stagedWord u (fnOf u 0).open_ offPace).getLsbD n = v.getLsbD n) ∧
      ∀ t be, barTarget s fn off = some t → hasFields t = true → mayWrite s fn t = false →
        Completes (.registerWrite fn off v be) s fun u => u.regs = s.regs ∧ u.mem = s.mem ∧ u.phys = s.phys ∧
          u.power = s.power ∧ (fnOf u fn).open_ = (fnOf s fn).open_ ∧
          (fnOf u fn).denied = Nat.min 0xFFFF ((fnOf s fn).denied + 1))

/-- Table 15.8, R88 to R91, R96, R100, R104: the commands on a context that is in the state they need. -/
def Obligations.ContextCommands : Prop :=
  ∀ (s : State) (id : Nat) (c : Cmd),
    let x := ctxOf s c.ctx
    (AtWork s id 0x00 c → Completes (.nopCommand id) s fun u => { u with cmds := s.cmds } = s ∧ Ended u id 0 0 0) ∧
    (AtWork s id 0x01 c → createFault s c (namedBlocks s c) = none → Completes (.create id) s fun u =>
      ∃ k, freeContext s = some k ∧ (ctxOf u k).state = .created ∧ (ctxOf u k).fn = c.fn ∧
        (ctxOf u k).blocks.Perm (namedBlocks s c) ∧ (∀ j, j ≠ k → ctxOf u j = ctxOf s j) ∧ u.mem = s.mem ∧
        u.threads = s.threads ∧ Ended u id 0 0 (k + (ctxOf u k).slot * 256)) ∧
    (AtWork s id 0x01 c → ∀ st d, createFault s c (namedBlocks s c) = some (st, d) → Completes (.create id) s fun u =>
      { u with cmds := s.cmds } = s ∧ Ended u id st d 0) ∧
    (AtWork s id 0x02 c → Completes (.destroy id) s fun u =>
      ctxOf u c.ctx = Context.blank ∧ (∀ e ∈ u.threads, e.1.ctx ≠ c.ctx) ∧ ∀ e ∈ u.groups, e.1.1 ≠ c.ctx) ∧
    (AtWork s id 0x03 c → imagePlace s c = true →
      let bs := imageBytes s c
      let im := loadedImage bs c.rev
      (∀ step st, imageFailure s.part.grade bs x.blocks.length c.rev = some (step, st) → Completes (.load id) s fun u =>

        { u with cmds := s.cmds, transfers := s.transfers } = s ∧ Ended u id st step 0) ∧
      (imageFailure s.part.grade bs x.blocks.length c.rev = none → (c.phase = 0 → quorumAgrees s s.keels.ballot = true) →
        let d := { c with phase := 1 }
        let r := if c.phase = 0 then newBallot (setCmd s d) else s
        loadReserved (askLoad r d im (imgConstants bs).length) d = true → Completes (.load id) s fun u =>
        (ctxOf u c.ctx).state = .loaded ∧ (ctxOf u c.ctx).image = some im ∧ u.requests = s.requests ∧
        Ended u id 0 0 im.nativeLines) ∧
      (imageFailure s.part.grade bs x.blocks.length c.rev = none → c.phase = 0 → quorumAgrees s s.keels.ballot = false →
        failingVoters s s.keels.ballot = [] → c.retried = false → Completes (.load id) s fun u =>
        u.contexts = s.contexts ∧ u.hold = s.hold ∧ u.mem = s.mem ∧ u.threads = s.threads)) ∧
    (∀ im, AtWork s id 0x04 c → x.image = some im → im.bindings.all (bindingMet (c.view s) c.ctx) = true →
      Completes (.start id) s fun u => (ctxOf u c.ctx).state = .running ∧ Ended u id 0 0 0 ∧ u.mem = s.mem ∧
        (∀ e ∈ u.threads, e.1.ctx = c.ctx → ∃ l ∈ im.launches, e.1.group = l.group ∧ e.2.pc = l.entry ∧ e.2.run = .ready ∧
          e.2.loops = [] ∧ e.2.rd 0 = BitVec.ofNat 32 e.1.thread ∧ e.2.rd 1 = BitVec.ofNat 32 l.group ∧
          e.2.rd 2 = BitVec.ofNat 32 e.1.cell) ∧
        ∀ e ∈ s.threads, e.1.ctx ≠ c.ctx → e ∈ u.threads) ∧
    (AtWork s id 0x05 c → x.state = .running → x.breaking = false → Completes (.pause id) s fun u =>
      (ctxOf u c.ctx).state = .running ∧ (ctxOf u c.ctx).breaking = true ∧ (ctxOf u c.ctx).brk.cause = 3 ∧
      (ctxOf u c.ctx).brk.time = now s ∧ u.threads = s.threads ∧ u.mem = s.mem) ∧
    (AtWork s id 0x06 c → x.state = .paused → Completes (.resume id) s fun u =>
      (ctxOf u c.ctx).state = .running ∧ u.mem = s.mem) ∧
    (AtWork s id 0x07 c → c.force = false → c.phase = 0 → Completes (.disable id) s fun u =>
      (ctxOf u c.ctx).state = .draining ∧ (ctxOf u c.ctx).drainCmd = some c.id ∧
      ((∀ L ∈ ctxRegions s c.ctx, ringHas s c.ctx L 2 (winchNextOf s c.ctx L) = false) → u.mem = s.mem)) ∧
    (AtWork s id 0x07 c → c.force = true → Completes (.disableForce id) s fun u =>
      (ctxOf u c.ctx).state = .stopped ∧ (ctxOf u c.ctx).breaking = false)

/-- R351, R352, R359, R363, R421: ALLOC gives a free run of the units it was asked for under the next handle; FREE,
LEND and RETURN wait for the first boundary at least 1,000,000 ns after they were accepted, at which a RETURN gives
its loans back. R370, R371, R217: COPY moves its bytes once its rates are reserved; BALANCE writes the counts of a
region to the host and clears them. -/
def Obligations.MemoryCommands : Prop :=
  (∀ (s : State) (id : Nat) (c : Cmd),
      let given := fun (tier base : Nat) (u : State) => u.nextHandle = s.nextHandle + 1 ∧
        ∃ a, u.allocs = s.allocs ++ [a] ∧ a.handle = s.nextHandle ∧ a.fn = c.fn ∧ a.tier = tier ∧ a.base = base ∧
          a.units = c.units
      (AtWork s id 0x08 c → c.tier = 0 → allocFault s c = none →
        ∀ u0, fitIn s c.units (if c.place = 0xFF then List.range 16 else [c.place]) = some u0 →
          (∀ t ∈ takenFrames s, u0 + c.units ≤ t.1 ∨ t.1 + t.2 ≤ u0) ∧
          Completes (.allocT2Frames id) s fun u => given 0 (u0 * 2097152) u ∧ u.contexts = s.contexts ∧
            Ended u id 0 0 s.nextHandle) ∧
      (AtWork s id 0x08 c → c.tier = 1 → allocFault s c = none →
        ∀ H n t, seekRun s c.units (allocHomes s c) = (some (H, n), t) →
          Completes (.allocPinnedT1 id) s fun u => given 1 (unitAddr1 H n) u ∧
            ∀ i, i < c.units → mget? (regionOf u H).units (n + i) = some (.pinned s.nextHandle)) ∧
      (AtWork s id 0x08 c → c.tier = 2 → allocFault s c = none →
        ∀ H n t, seekRun s c.units (allocHomes s c) = (some (H, n), t) →
          Completes (.allocObject id) s fun u => given 2 (unitAddr1 H n) u ∧
            ∃ o ∈ u.objects, o.handle = s.nextHandle ∧ o.home = some (H, n) ∧ o.backing = c.backing ∧ o.hold = 0 ∧
              o.windows = []) ∧
      (∀ a, AtWork s id 0x09 c → c.phase = 0 → s.allocs.find? (fun x => x.handle == c.field 8 4 && x.fn == c.fn) = some a →
        stillMapped s a = false → Completes (.free id) s fun u =>
          u.later = s.later ++ [(.free c.id a.handle, laterBoundary c)] ∧ c.tAccept + 1000000 ≤ laterBoundary c ∧
          laterBoundary c < c.tAccept + 1000000 + 1048576 ∧ laterBoundary c % 1048576 = 0 ∧
          { u with later := s.later, cmds := s.cmds } = s) ∧
      (AtWork s id 0x0D c → c.field 0x0B 1 = 0 → c.phase = 0 → lendFault s c = none → overQuota s c.place = false →
        (∀ i, i < c.units → framesFree s (c.field 0x0A 1) (firstFrame (c.field 0x0A 1) + i) 1 = true) →
        c.units ≤ stackFrames s.part.grade →
        Completes (.lend id) s fun u => { u with later := s.later, cmds := s.cmds } = s ∧
          ∃ ls : List Loan, u.later = s.later ++ [(.lend c.id ls, laterBoundary c)] ∧ ls.length = c.units ∧
            ∀ l ∈ ls, l.peer = c.tier ∧ l.fn = c.place ∧ l.lender = c.fn) ∧
      (AtWork s id 0x0D c → c.field 0x0B 1 = 1 → c.phase = 0 → lendFault s c = none →
        (∀ l ∈ c.loansNamed s, l ∈ s.loans) → (c.loansNamed s).Nodup →
        Completes (.returnFrames id) s fun u => { u with later := s.later, cmds := s.cmds } = s ∧
          u.later = s.later ++ [(.giveBack c.id (c.loansNamed s), laterBoundary c)]) ∧
      (∀ d ls b, findCmd s id = some d → s.later = [(.giveBack id ls, b)] → b ≤ now s →
        isBoundary (now s) = true → Completes .freeLendTakeEffect s fun u => u.later = [] ∧ u.mem = s.mem ∧ u.allocs = s.allocs ∧
          (∀ l, l ∈ u.loans ↔ l ∈ s.loans ∧ l ∉ ls) ∧ Ended u id 0 0 ls.length)) ∧
  (∀ (s : State) (id : Nat) (c : Cmd),
      (AtWork s id 0x0E c → copyFault s c = none →
        let r := reserveRates s (.copyCmd c.id) none (stackAt (c.field 0x10 8))
          (hostHops s (c.field 8 8) (c.field 0x10 8) (c.field 0x18 4) (c.field 0x1C 4))
        let there := fun a : Nat => spaceOf a ≠ 4 ∧ (spaceOf a = 5 → hostServes s c.fn a = true) ∧ lostAt s a = false
        (∃ t, ratesSince r (.copyCmd c.id) = some t) → there (c.field 8 8) → there (c.field 0x10 8) →
        oldShard s (c.field 0x10 8) (c.field 0x18 4) = false →
        Completes (.copy id) s fun u => Ended u id 0 0 0 ∧
          
          (spaceOf (c.field 0x10 8) < 3 →
            u.mem = s.mem.move (memKey s (c.field 8 8)) (memKey s (c.field 0x10 8)) (c.field 0x18 4)) ∧
          (spaceOf (c.field 0x10 8) = 5 → u.mem = s.mem.store (memKey s (c.field 0x10 8))
            (s.mem.fetchBytes (memKey s (c.field 8 8)) (c.field 0x18 4)))) ∧
      (AtWork s id 0x0F c → c.field 8 1 < gradeRegions s → ∀ p, physOfLogical s (c.field 8 1) = some p →
        Completes (.balance id) s fun u => Ended u id 0 0 (physOf s p).sketch.length ∧
          (physOf u p).sketch = [] ∧ (physOf u p).shardLoad = [] ∧ (∀ q, q ≠ p → physOf u q = physOf s q) ∧
          u.mem = s.mem.store (memKey s (hostAddr (fnPort s c.fn) (c.field 0x10 8))) (balanceBytes (physOf s p))))

/-- R14, R92, R199, R422, R423, R432: WINDOW, PUBLISH and ADDENDUM only stage: no active register word and no live
version changes. APPLY freezes the open copy that passes its checks. -/
def Obligations.StagingCommands : Prop :=
  ∀ (s : State) (id : Nat) (c : Cmd),
    (AtWork s id 0x0A c → windowFail s c = none → Completes (.window id) s fun u =>
      u.regs = s.regs ∧ u.mem = s.mem ∧ u.contexts = s.contexts ∧ Ended u id 0 0 0 ∧
      ∀ i, i < c.field 0x0A 2 → ∀ n, n ≤ 54 ∨ (60 ≤ n ∧ n ≤ 63) →
        (stagedWord u (fnOf u c.fn).open_ (offWindow c.ctx (c.field 8 1 + i))).getLsbD n =
          ((listedWindows s c).getD i 0).testBit n) ∧
    (AtWork s id 0x0A c → ∀ st d, windowFail s c = some (st, d) → Completes (.window id) s fun u =>
      { u with cmds := s.cmds } = s ∧ Ended u id st d 0) ∧
    (AtWork s id 0x0C c →
      let d := readTableDesc (hostRead s c.fn (c.field 8 8) 64)
      let r := releaseVersions s d.table
      publishFault r c = none → Completes (.publish id) s fun u =>
        u.tables = r.tables ∧ u.regs = r.regs ∧ Ended u id 0 0 0 ∧
        ∃ m g, (fnOf u c.fn).open_.publishes = (fnOf r c.fn).open_.publishes ++ [{ desc := d, shards := m, mig := g }] ∧
          m.length = d.shards) ∧
    (AtWork s id 0x13 c → addendumPlace s c = true → Completes (.addendum id) s fun u =>
      match addendumFault s (imageBytes s c) with
      | some d => { u with cmds := s.cmds } = s ∧ Ended u id 1 d 0
      | none =>
        let a := readAddendum (imageBytes s c)
        (fnOf u c.fn).open_.addendum = some a ∧ u.addendum = s.addendum ∧ u.lowerRev = s.lowerRev ∧
        u.flash.floor = s.flash.floor ∧ u.regs = s.regs ∧
        u.loadBank = some a ∧ (s.flash.present = true →
          (if s.flash.activeSlot = 0 then u.flash.addendum1 else u.flash.addendum0).held = some a) ∧ Ended u id 0 0 a.seq) ∧
    (∀ z, AtWork s id 0x0B c → c.phase = 0 → (fnOf s c.fn).frozen = some z → z.cmd = c.id → isGroup c.devices = false →
      quorumAgrees s s.keels.ballot = true → copyFails (newBallot s) c.fn c.devices z.copy = none →
      Completes (.apply id) s fun u => u.regs = s.regs ∧ u.tables = s.tables ∧ (fnOf u c.fn).open_ = (fnOf s c.fn).open_ ∧
        (fnOf u c.fn).frozen = some { z with passed := true }) ∧
    (∀ st d, AtWork s id 0x0B c → c.phase = 0 → (fnOf s c.fn).frozen = none → applyFault s c = some (st, d) →
      Completes (.apply id) s fun u => u.regs = s.regs ∧ u.tables = s.tables ∧ (fnOf u c.fn).open_ = (fnOf s c.fn).open_ ∧
        (fnOf u c.fn).frozen = none ∧ (fnOf u c.fn).lastStatus = st ∧
        Ended u id st (if st ≠ 3 ∧ isGroup c.devices = true ∧ bitOf c.devices s.part.device = true then 0xFF else d) 0)

/-- R15, R424, R425: at its boundary a frozen copy that passed takes effect; here one that stages a pace, or publishes
a first version. A failing vote of another device ends a group APPLY as rejected, and a vote that is missing at the
deadline ends it as deferred: nothing of the copy takes effect. -/
def Obligations.StagedCopiesTakeEffect : Prop :=
  ∀ (s : State) (fn : Nat) (z : FrozenCopy), (fnOf s fn).frozen = some z →
    (isGroup z.devices = false → z.passed = true → z.boundary = now s → isBoundary (now s) = true →
      (∀ m v, z.copy = { StagedCopy.zero with regs := [(offPace, m, v)] } →
        Completes (.stagedApplyBoundary fn) s fun u =>
          rawReg u offPace = ((rawReg s offPace &&& ~~~m) ||| (v &&& m)) ∧
          (∀ o, o ≠ offPace → mget? u.regs o = mget? s.regs o) ∧ (fnOf u fn).frozen = none ∧
          (fnOf u fn).lastStatus = 0 ∧ u.mem = s.mem) ∧
      (∀ p : Publish, z.copy = { StagedCopy.zero with publishes := [p] } → findVersion s p.desc.table p.desc.version = none →
        ((tableOf s p.desc.table).versions = [] ∨ (tableOf s p.desc.table).current < p.desc.version) →
        Completes (.stagedApplyBoundary fn) s fun u =>
          (tableOf u p.desc.table).current = p.desc.version ∧ (fnOf u fn).frozen = none ∧ (fnOf u fn).lastStatus = 0 ∧
          u.regs = s.regs)) ∧
    (∀ d pass, d < 8 → d ≠ s.part.device → Completes (.groupVote d z.group z.boundary pass) s fun u =>
      (∃ v, u.votes = s.votes ++ [v] ∧ v.device = d ∧ v.group = z.group ∧ v.boundary = z.boundary ∧ v.pass = pass) ∧
      u.regs = s.regs ∧ u.tables = s.tables ∧
      (pass = true → fnOf u fn = fnOf s fn) ∧
      (pass = false → s.fns = [(fn, fnOf s fn)] → isGroup z.devices = true → bitOf z.devices d = true →
        (fnOf u fn).frozen = none ∧ (fnOf u fn).lastStatus = 1)) ∧
    (isGroup z.devices = true → z.boundary < now s + 500000 → votesIn s z = false →
      Completes (.groupVoteDeadline fn) s fun u => (fnOf u fn).frozen = none ∧ (fnOf u fn).lastStatus = 3 ∧
        u.regs = s.regs ∧ u.tables = s.tables ∧ ∀ d, findCmd s z.cmd = some d → Ended u z.cmd 3 0 0)

/-- R451, R452, R358: a SERVICE command that the quorum agrees on fences the active region that it names, for the
standby that is to enter; the map does not change yet. Without a standby it is deferred. A failed region is taken as
it is. R454 to R456, R458: CHECKPOINT of a paused, quiet context ends with its B bytes in units of 64 KiB once B fits
LIMIT and the rates are reserved; a context that is not quiet is left alone. RESTORE of a checkpoint that fails a
check changes nothing, and one that passes takes over the checkpoint's count of outcomes and its RECIPE_LEFT once its
rates are reserved. -/
def Obligations.ServiceAndCheckpointCommands : Prop :=
  (∀ (s : State) (id : Nat) (c : Cmd), AtWork s id 0x10 c → c.phase = 0 → quorumActs s = true →
      let p := c.field 9 1
      p < 18 → (physOf s p).service = none → quorumAgrees s s.keels.ballot = true →
      let goes := fun (i : Instr) =>
        (∀ L q, (physOf s p).role = .active L → physOfLogical s L = some p → freeStandby s = some q →
          (regionOf s L).exchange = none → (regionOf s L).vacant = false →
          Completes i s fun u => (physOf u p).service = some (c.field 8 1, id) ∧ (physOf u p).role = .active L ∧
            ∃ x, (regionOf u L).exchange = some x ∧ x.kind = .service ∧ x.leaving = p ∧ x.entering = some q ∧
              x.fencedAt = now s ∧ x.copied = false) ∧
        (∀ L, (physOf s p).role = .active L → freeStandby s = none →
          Completes i s fun u => { u with cmds := s.cmds } = s ∧ Ended u id 3 0 0) ∧
        ((physOf s p).role = .failed → Completes i s fun u =>
          physOf u p = { physOf s p with service := some (c.field 8 1, id) } ∧ u.mem = s.mem)
      (c.field 8 1 = 0 → goes (.selfTest id)) ∧ (c.field 8 1 = 1 → goes (.calibration id)) ∧
      (c.field 8 1 = 2 → goes (.exchange id))) ∧
  (∀ (s : State) (id : Nat) (c : Cmd),
      let x := ctxOf s c.ctx
      (∀ im, AtWork s id 0x11 c → c.phase = 0 → areaFault s c 256 = none → x.state = .paused → x.image = some im →
        (isQuiet s c.ctx = false → Completes (.checkpoint id) s fun u => { u with cmds := s.cmds } = s ∧ Ended u id 3 0 0) ∧
        (isQuiet s c.ctx = true →
          let p := heldParts (c.view s) c.ctx
          let B := if c.size = 0 then checkpointSize (c.view s) c.ctx else c.size
          (c.limit < B → Completes (.checkpoint id) s fun u => { u with cmds := s.cmds } = s ∧ Ended u id 1 0x10 0) ∧
          (B ≤ c.limit → areaFault s c B = none → keptCount s + p.pins.length ≤ 4096 →
            (∀ k ∈ s.keptPins, k.ctx ≠ c.ctx ∧ k.area = none) →
            let d := { c with size := B }
            (∃ t, ratesSince (reserveRates (setCmd s d) (.copyCmd c.id) none (stackAt c.area)
              (copyPath s (windowBases (c.view s) d (heldWindows x)) [c.area] c.rate)) (.copyCmd c.id) = some t) →
            Completes (.checkpoint id) s fun u => Ended u id 0 0 (ceilDiv B 65536) ∧ u.contexts = s.contexts ∧
              ∃ body, body.length = B - 256 ∧ u.checkpoints = s.checkpoints ++ [(body, p)]))) ∧
      (AtWork s id 0x12 c → areaFault s c 256 = none →
        let h := devRead s c.area 256
        let body := devRead s (c.area + 256) (fieldAt h 8 8 - 256)
        Completes (.restore id) s fun u =>
          match restoreFault s c h body with
          | some d => { u with cmds := s.cmds } = s ∧ Ended u id 1 d 0
          | none =>
            let d := { c with size := fieldAt h 8 8 }
            let p := partsOf s body
            let r := reserveRates (setCmd s d) (.copyCmd c.id) none none
              (copyPath s [c.area] (windowBases (c.view s) d (p.windows.map (·.window))) c.rate)
            (ratesSince r (.copyCmd c.id) = none → { u with cmds := r.cmds } = r) ∧
            (∀ t, ratesSince r (.copyCmd c.id) = some t → (ctxOf u c.ctx).lastOutcomes = fieldAt h 0x18 4 % 2 ^ 20 ∧
              (ctxOf u c.ctx).recipeLeft = p.recipeLeft ∧
              (ctxOf u c.ctx).restores = Nat.min 0xFFFF ((ctxOf s c.ctx).restores + 1) ∧ Ended u id 0 0 0)))

/-! ### Links and time -/

/-- R383, R385 to R387, R389, R398: bring-up and the flits of a port that a peer sends. A data flit is taken only in
SEQ order with a good CRC, and an idle flit acknowledges it; a bad one is counted, delivers nothing and is answered by
a NAK; a NAK has what it does not cover sent again. Credits that a flit brings back are free again. -/
def Obligations.LinkFlits : Prop :=
  ∀ (s : State) (port : Nat),
    let l := linkOf s port
    let sends := fun (u : State) (kind seq ack credits : Nat) => ∃ crc,
      u.out = s.out ++ [.flit port { kind := kind, seq := seq, ack := ack, credits := credits } [] crc]
    let resends := fun (u : State) (r : List (Nat × List Byte)) => ∃ more : List Output, u.out = s.out ++ more ∧ more.length = r.length ∧
      ∀ (i : Nat) (e : Nat × List Byte), r[i]? = some e → ∃ (h : FlitHead) (crc : Word), more[i]? = some (Output.flit port h e.2 crc) ∧ h.kind = 0 ∧ h.seq = e.1
    let room := if s.hold then 0 else Nat.min 31 (l.freed / 8)
    (∀ lanes : BitVec 9, mayTrain s port = true →
      let usable := (List.range 9).filter fun n => lanes.getLsbD n && !l.failedLanes.contains n
      (7 ≤ usable.length → Completes (.portBringup port lanes) s fun u =>
        (linkOf u port).training = true ∧ (linkOf u port).up = false ∧
        (linkOf u port).lanes = (if usable.length = 9 then List.range 8 else usable) ∧
        u.out = s.out ++ [.identity port s.part.device port s.flash.boardSerial s.part.romRev]) ∧
      (usable.length < 7 → Completes (.portBringup port lanes) s fun u =>
        (linkOf u port).training = false ∧ (linkOf u port).up = false ∧ u.out = s.out)) ∧
    (∀ d p serial, l.training = true →
      (farEnd s port = (d, p) → serial = s.flash.boardSerial → (destOf s (.flits port)).waiting = [] →
        Completes (.identityFlit port d p serial) s fun u =>
          (linkOf u port).up = true ∧ (linkOf u port).sendSeq = 0 ∧ (linkOf u port).recvSeq = 0 ∧
          (linkOf u port).replay = [] ∧ (linkOf u port).outq = [] ∧ (linkOf u port).lanes = l.lanes ∧
          (linkOf u port).lent = 768 ∧ (destOf u (.flits port)).free = 768) ∧
      (farEnd s port ≠ (d, p) ∨ serial ≠ s.flash.boardSerial → Completes (.identityFlit port d p serial) s fun u =>
        (linkOf u port).up = l.up ∧ (linkOf u port).wiringFault = true ∧ u.out = s.out ++ [.wiringFault port])) ∧
    (∀ seq ack credits ops, l.up = true → 0 < l.lent →
      (seq = l.recvSeq → Completes (.dataFlit port seq ack credits true ops) s fun u =>
        (linkOf u port).recvSeq = (l.recvSeq + 1) % 4096 ∧ (linkOf u port).inbox = l.inbox ++ ops ∧
        (linkOf u port).discarding = false ∧ (linkOf u port).failCount = 0 ∧ u.mem = s.mem ∧
        (l.outq = [] → (linkOf u port).replay = dropAcked ack l.replay ∧ (linkOf u port).lent = l.lent - 1 + 8 * room ∧
          (linkOf u port).freed = l.freed - 8 * room ∧ sends u 1 0 (((l.recvSeq + 1) % 4096 + 4095) % 4096) room) ) ∧
      (seq ≠ l.recvSeq → l.discarding = false → Completes (.dataFlit port seq ack credits true ops) s fun u =>
        (linkOf u port).recvSeq = l.recvSeq ∧ (linkOf u port).inbox = l.inbox ∧ (linkOf u port).discarding = true ∧ sends u 2 0 ((l.recvSeq + 4095) % 4096) room) ∧
      (l.discarding = false → Completes (.dataFlit port seq ack credits false ops) s fun u =>
        (linkOf u port).recvSeq = l.recvSeq ∧ (linkOf u port).inbox = l.inbox ∧
        (linkOf u port).crcErrors = Nat.min 0xFFFF (l.crcErrors + 1) ∧
        sends u 2 0 ((l.recvSeq + 4095) % 4096) room)) ∧
    (∀ ack credits, l.up = true →
      (Completes (.nak port ack true) s fun u =>
        (linkOf u port).replays = Nat.min 0xFFFF (l.replays + 1) ∧ (l.outq = [] →
          (linkOf u port).replay = dropAcked ack l.replay ∧ resends u (dropAcked ack l.replay))) ∧
      (Completes (.idleFlit port ack credits true) s fun u =>
        (linkOf u port).inbox = l.inbox ∧ u.mem = s.mem ∧ (l.outq = [] →
          (linkOf u port).replay = dropAcked ack l.replay ∧ u.out = s.out ∧ ((destOf s (.flits port)).waiting = [] →
            (destOf u (.flits port)).free = (destOf s (.flits port)).free +
              Nat.min (8 * credits) (768 - (destOf s (.flits port)).free)))) ∧
      exec (.nak port ack false) s = .next s ∧ exec (.idleFlit port ack credits false) s = .next s) ∧
    (∀ b, l.up = true → Completes (.timeFlit port b true) s fun u => u.clock.announced = some b ∧
      { u with clock := s.clock } = s ∧ u.clock.time = s.clock.time) ∧
    (∀ lane, l.up = true → l.spareFor = none → 8 ∉ l.failedLanes → lane ∈ l.lanes →
      Completes (.laneChangeFlit port lane true) s fun u => (linkOf u port).spareFor = some lane ∧
        (linkOf u port).lanes = l.lanes.map (fun n => if n = lane then 8 else n) ∧
        u.out = s.out ++ [.laneChange port lane]) ∧
    (l.up = true → (8 ≤ l.failCount ∨ 8 ≤ l.nakCount) → Completes (.linkRetrain port) s fun u =>
      (linkOf u port).retrains = Nat.min 0xFFF (l.retrains + 1) ∧ (linkOf u port).failCount = 0 ∧
      (linkOf u port).nakCount = 0 ∧ (linkOf u port).up = true ∧
      resends u l.replay)

/-- R389 to R391, R394 to R396: a data lane that fails, or is withdrawn, moves to the spare; without the spare the
port goes on with 7 lanes and goes down with fewer. An operation of a peer that passes R395 is performed once its
target is open, and one that does not changes no memory. The loss of a peer ends what asks it and can no longer be
answered in time. -/
def Obligations.LanesAndPeers : Prop :=
  ∀ (s : State) (port : Nat),
    let l := linkOf s port
    let moved := fun (lane : Nat) (u : State) => (linkOf u port).up = true ∧ (linkOf u port).spareFor = some lane ∧
      (linkOf u port).lanes = l.lanes.map (fun n => if n = lane then 8 else n)
    (∀ lane, l.up = true → lane < 8 → lane ∈ l.lanes → lane ∉ l.failedLanes →
      (l.spareFor = none → 8 ∉ l.failedLanes → Completes (.laneFailure port lane) s fun u => moved lane u ∧
        lane ∈ (linkOf u port).failedLanes ∧ u.mem = s.mem) ∧
      (l.spareFor ≠ none ∨ 8 ∈ l.failedLanes →
        let rest := l.lanes.filter (· != lane)
        Completes (.laneFailure port lane) s fun u => lane ∈ (linkOf u port).failedLanes ∧ u.mem = s.mem ∧
          (7 ≤ rest.length → (linkOf u port).up = true ∧ (linkOf u port).lanes = rest ∧
            (linkOf u port).rateBlocked = true) ∧
          (rest.length < 7 → (linkOf u port).up = false))) ∧
    (l.up = true → l.withdrawing = true → l.spareFor = none → 8 ∉ l.failedLanes →
      Completes (.laneWithdraw port) s fun u => moved (rawField s (offLinkCtl port) 61 58) u ∧ u.mem = s.mem) ∧
    (l.up = true → l.draining = true → portBusy s port = false → Completes (.portDrain port) s fun u =>
      (linkOf u port).up = false ∧ { u with links := s.links, transfers := s.transfers } = s) ∧
    (∀ h payload, l.inbox.head? = some (h, payload) → isVote h = false →
      let more := fun (u : State) (r : OpHeader) (bs : List Byte) => ∃ fs, u.out = s.out ++ [.op port r bs] ++ fs ∧
        ∀ o ∈ fs, ∃ x y z, o = .flit port x y z
      let open_ := regionOpen s (opAddr h) = true ∧ lostAt s (opAddr h) = false
      (h.op = 2 → peerOpAllowed s (farEnd s port).1 h = true → peerWriteOpen s h = true → open_ → h.poison = false →
        Completes (.remoteOperationReceive port h payload) s fun u =>
          u.mem = s.mem.store (memKey s (opAddr h)) (fit h.len (writtenBytes h payload)) ∧ (linkOf u port).inbox = l.inbox.drop 1 ∧
          ∃ r, more u r [] ∧ r.op = 5 ∧ r.tag = h.tag) ∧
      (h.op = 1 → peerOpAllowed s (farEnd s port).1 h = true → open_ →
        Completes (.remoteOperationReceive port h payload) s fun u => u.mem = s.mem ∧
          ∃ r, more u r (devRead s (opAddr h) h.len) ∧ r.op = 5 ∧ r.tag = h.tag) ∧
      (1 ≤ h.op → h.op ≤ 4 → peerOpAllowed s (farEnd s port).1 h = false →
        Completes (.remoteOperationReceive port h payload) s fun u => u.mem = s.mem ∧ u.contexts = s.contexts ∧
          ∃ r bs, more u r bs ∧ r.op = 6 ∧ r.tag = h.tag ∧ ∀ b ∈ bs, b = 0)) ∧
    ∀ d, d < 8 → d ≠ s.part.device → (∀ e ∈ s.logs, e.2.seqr.jobs = []) →
      (Sound s → Completes (.peerLoss d) s fun u =>
        ∀ r ∈ s.requests, namesPeer d r = true → mayAnswer s d r = false → findRequest u r.id = none) ∧
      ((∀ r ∈ s.requests, namesPeer d r = true → mayAnswer s d r = true) → exec (.peerLoss d) s = .next (resumeUnits s))

/-- R397 to R400, R490: the master drives the line at a boundary; an aligned device holds its count while it is ahead
of the edge and takes two steps a nanosecond while it is behind, and no correction moves the count back; an offset
above 200 ns is a time fault; a device that is not aligned takes the announced boundary as its count; the internal
oscillator goes on with the count. -/
def Obligations.EpochTime : Prop :=
  ∀ s : State,
    let c := s.clock
    (c.master = true → c.running = true → s.hold = false → c.time % 1048576 = 0 → 0 < c.time → mget? s.lastEvent (0x700, 0) ≠ some c.time → Completes .epochPulse s fun u =>
        u.clock.time = c.time ∧ u.clock.silence = 0 ∧ u.out.getLast? = some (.epochPulse c.time) ∧ u.mem = s.mem) ∧
    (c.master = false → c.aligned = true → Completes .epochEdge s fun u =>
      let b := c.announced.getD ((c.time + 524288) / 1048576 * 1048576)
      u.clock.time = c.time ∧ u.clock.holdNs = c.time - b ∧ u.clock.behindNs = b - c.time ∧ u.clock.announced = none ∧
      u.clock.silence = 0 ∧ (c.time - b ≤ 200 ∧ b - c.time ≤ 200 → u.records = s.records ∧ u.fns = s.fns) ∧
      (200 < c.time - b ∨ 200 < b - c.time → (queueOf s 0 0).en = true → ∃ r, u.records = s.records ++ [r] ∧
        r.fn = 0 ∧ r.result / 2 ^ 24 = 0x0D)) ∧
    (c.master = false → c.aligned = false →
      (∀ b, c.announced = some b → Completes .epochEdge s fun u =>
        u.clock.time = b ∧ u.clock.aligned = true ∧ u.clock.running = true ∧ { u with clock := s.clock } = s) ∧
      (c.announced = none → Completes .epochEdge s fun u =>
        u.clock.time = c.time ∧ u.clock.aligned = false ∧ u.clock.silence = 0 ∧ { u with clock := s.clock } = s)) ∧
    (c.master = false → s.hold = false → s.keels.formed = true → (s.part.device + 2) * 1048576 ≤ c.silence →
      Completes .epochMasterTakeover s fun u => u.clock.master = true ∧ u.clock.silence = 0 ∧
        (c.aligned = true → u.clock.time = c.time) ∧
        (c.aligned = false → u.clock.time = 0 ∧ u.clock.running = true ∧ u.clock.aligned = true)) ∧
    (s.board.vaon = true → c.internalOsc = false → Completes .trefLoss s fun u =>
      u.clock.internalOsc = true ∧ u.clock.time = c.time ∧ u.mem = s.mem ∧ u.contexts = s.contexts) ∧
    (c.internalOsc = true → Completes .trefReturn s fun u =>
      u.clock.internalOsc = false ∧ u.clock.time = c.time ∧ { u with clock := s.clock } = s)

/-! ### Power -/

/-- R42, R43, R66, R467, R468, R471, R473, R476 to R478, R480: a Burner's next target moves up by at most 25 mV, or to
its floor, and never exceeds 900 mV or the region's ceiling and budget unless the floor does; the pace is never below
that of Table 2.1 and in fixed-pace mode never above FIXED_PACE; the power is that of the energy of Table 17.7 and the
leakage of the interval, which the device's count takes up; a low rail that is wanted rises to 0.60 V; a complete set
of lift reports moves this device's offset by at most STEP_W, and an incomplete one leaves it. -/
def Obligations.PowerAndLift : Prop :=
  ∀ s : State,
    (∀ (p : Nat) (b : BurnerInput) (w : Nat) (t : Int), s.board.started = true → mget? s.lastEvent (0x720, 0) = none →
      p < 18 → (physOf s p).coreEn = true → b.tj < 108 → t < 108 →
      let x := physOf s p
      let fixed := fixedMode s = true ∧ ∃ L, x.role = .active L
      Completes (.burnerControlInterval [(p, b)] w t) s fun u =>
        (physOf u p).targetMv ≤ 900 ∧ (physOf u p).targetMv ≤ Nat.max (x.targetMv + 25) (railFloor s p) ∧
        ((physOf u p).targetMv ≤ railCeiling s ∧ (physOf u p).targetMv ≤ budgetRail s p x b.tj ∨
          (physOf u p).targetMv ≤ railFloor s p) ∧
        (throttleC s ≤ b.tj → (physOf u p).targetMv ≤ Nat.max (railFloor s p) (x.targetMv - 25)) ∧
        (physOf u p).tj = b.tj ∧ (railFloor s p ≤ b.railMv → b.railMv ≤ 900 → (physOf u p).vcore = b.railMv) ∧
        railFloor s p ≤ (physOf u p).vcore ∧ (physOf u p).vcore ≤ 900 ∧
        (fixed → (physOf u p).paceNow ≤ rawField s offPace 11 0) ∧
        (¬ fixed → paceFloor (physOf u p).vcore b.tj ≤ (physOf u p).paceNow ∧ b.paceNow ≤ (physOf u p).paceNow) ∧
        (physOf u p).paceMin ≤ x.paceMin ∧ (physOf u p).paceMin ≤ (physOf u p).paceNow ∧
        u.power.linkW = w + linkWatts s ∧ u.power.pkgW = w + linkWatts s + regionWatts s p ∧ (physOf u p).powerW = regionWatts s p ∧
        u.power.energyPj = devicePj s + 1000 * w * chargedNs s ∧ u.power.energyAt = s.clock.bootCount ∧ u.activity = [] ∧ u.mem = s.mem) ∧
    (∀ region p, physOfLogical s region = some p → (physOf s p).vcore < 600 → (physOf s p).coreEn = true →
      railWanted s region p = true → Completes (.railRise region) s fun u =>
        (physOf u p).vcore = 600 ∧ 600 ≤ (physOf u p).targetMv ∧ (∀ q, q ≠ p → physOf u q = physOf s q) ∧
        u.requests = s.requests ∧ u.mem = s.mem) ∧
    (∀ r : LiftReport, liftActive s = true → bitOf (liftGroup s) r.device = true → r.device ≠ s.part.device →
      Completes (.liftFlit true r) s fun u => { u with power := s.power } = s ∧
        u.power.liftOffset = s.power.liftOffset ∧ r ∈ u.power.reports ∧
        ∀ x ∈ s.power.reports, x.outcomes ≠ r.outcomes ∨ x.device ≠ r.device → x ∈ u.power.reports) ∧
    ∀ r rest, s.power.reports = r :: rest → now s % 1048576 = 0 →
      (∀ x ∈ s.power.reports, boundaryAt (x.tOutcome + 500000) ≤ now s) → Completes .liftOffsetApply s fun u =>
        { u with power := s.power } = s ∧ (∀ x ∈ u.power.reports, x.outcomes ≠ r.outcomes) ∧
        u.power.liftOffset - s.power.liftOffset ≤ rawField s offPower 47 40 ∧
        s.power.liftOffset - u.power.liftOffset ≤ rawField s offPower 47 40 ∧
                let l := s.power.reports.filter fun x => x.outcomes == r.outcomes
        (liftComplete s l = false ∨ now s ≠ boundaryAt ((l.map (·.tOutcome)).foldl Nat.max 0 + 500000) →
          u.power.liftOffset = s.power.liftOffset)

/-! ### Host ports, rails and clocks -/

/-- R402 to R407, R493: the link of a host port, PERST#, a function level reset, a completion timeout, configuration
requests, the management interface and the test access. -/
def Obligations.HostPorts : Prop :=
  ∀ s : State,
    (∀ port, (portOf s port).linkUp = true → twoHosts s = false → Completes (.pcieLinkDown port) s fun u =>
      (portOf u port).linkUp = false ∧ u.mem = s.mem ∧ u.contexts = s.contexts ∧
      (servingPort s = port → port < 2 → servingPort u = port ∧
        servingPort { u with clock := { u.clock with time := boundaryAfter (now s) } } = 1 - port)) ∧
    (∀ port t, port < 2 → (portOf s port).perst = true → (portOf s port).refclk = true → s.board.poweredAt = some t →
      Completes (.perstDeassert port) s fun u => (portOf u port).perst = false ∧ (portOf u port).linkUp = true ∧
        ∃ n, (portOf u port).readyAt = some n ∧ Nat.max s.clock.bootCount (t + 60000000) ≤ n ∧
          n ≤ Nat.max s.clock.bootCount (t + 60000000) + 100000000) ∧
    (∀ port, port < 2 → (portOf s port).perst = false → Completes (.perstAssert port) s fun u =>
      (portOf u port).perst = true ∧ (portOf u port).readyAt = none) ∧
    (∀ port, port < 2 → (portOf s port).perst = false → (portOf s port).linkUp = false →
      Completes (.perstAssert port) s fun u => u.mem = s.mem ∧ u.contexts = s.contexts ∧ u.regs = s.regs ∧
        u.fns = s.fns ∧
        (∀ f, (cfgAt u port f).busMaster = false ∧ (cfgAt u port f).msix = [] ∧ (cfgAt u port f).timeoutNs = 50000000) ∧
        ∀ q f, q ≠ port → cfgAt u q f = cfgAt s q f) ∧
    (∀ fn, fnPresent s fn = true → Completes (.functionLevelReset fn) s fun u =>
      (∀ q, (cfgAt u q fn).busMaster = false ∧ (cfgAt u q fn).timeoutNs = 50000000 ∧ (cfgAt u q fn).msix = []) ∧
      (∀ q f, f ≠ fn → cfgAt u q f = cfgAt s q f) ∧
      (fnOf u fn).open_ = StagedCopy.zero ∧ (fnOf u fn).frozen = none ∧ (∀ c ∈ u.cmds, c.fn ≠ fn) ∧
      ∀ k ∈ u.keptPins, k.fn ≠ fn) ∧
    (∀ id r t th n signed dst, findRequest s id = some r → r.kind = .load n signed dst → n ≠ 8 → r.stage = .accepted →
      spaceOf r.devAddr = 5 → r.accepted + (cfgOf s (ctxOf s r.ctx).fn).timeoutNs ≤ now s → r.origin = .thread t →
      threadOf s t = some th → th.run = .waitReq id → th.pc < codeWords (ctxOf s t.ctx) →
      Completes (.completionTimeout id) s fun u => findRequest u id = none ∧ u.mem = s.mem ∧
        threadOf u t = some { th.wr dst 0 with run := .ready, readyAt := now s }) ∧
    (∀ m, s.board.vaon = true → Completes (.mctpMessage m) s fun u =>
      u.out = s.out ++ [.mctp m (mctpAnswer s m)] ∧ u.contexts = s.contexts ∧ u.mem = s.mem ∧
      (m ≠ .lifetimeRecord → u.flash = s.flash) ∧
      (m = .lifetimeRecord → s.flash.present = true →
        let n := ((newestLife s.flash).map (·.seq)).getD 0
        n + 1 < 2 ^ 32 → ∃ x, newestLife u.flash = some x ∧ x.seq = n + 1 ∧ x.device = s.life)) ∧
    (∀ i, s.board.vaon = true → Completes (.tapInstruction i) s fun u =>
      u.board.tap = (if (i = .samplePreload ∨ i = .extest ∨ i = .extestPulse) ∧ s.keels.formed = true then .bypass else i) ∧
      { u with board := s.board } = s) ∧
    ∀ port fn, port < 2 → presents s port fn = true → (portOf s port).perst = false → (portOf s port).linkUp = true →
      (∀ op, configPort op = port → portReady s port = false → Completes (.configurationRequest fn op) s fun u =>
        u.out = s.out ++ [.retryStatus fn] ∧ { u with out := s.out } = s) ∧
      (portReady s port = true →
        let others := fun (u : State) => (∀ q g, (q, g) ≠ (port, fn) → cfgAt u q g = cfgAt s q g) ∧ { u with cfgs := s.cfgs } = s
        (∀ on, Completes (.configurationRequest fn (.setBusMaster port on)) s fun u =>
          (cfgAt u port fn).busMaster = on ∧ others u) ∧
        (∀ ns, Completes (.configurationRequest fn (.setCompletionTimeout port ns)) s fun u =>
          50000 ≤ (cfgAt u port fn).timeoutNs ∧ (cfgAt u port fn).timeoutNs ≤ 64000000000 ∧
          (50000 ≤ ns → ns ≤ 64000000000 → (cfgAt u port fn).timeoutNs = ns) ∧ others u) ∧
        (∀ mask, Completes (.configurationRequest fn (.clearAer port mask)) s fun u =>
          (∀ n, n < 32 → (cfgAt u port fn).aer.testBit n = ((cfgAt s port fn).aer.testBit n && !mask.testBit n)) ∧ others u) ∧
        Completes (.configurationRequest fn (.readSerial port)) s fun u =>
          u.out = s.out ++ [.configData port fn 0 s.part.serial] ∧ { u with out := s.out } = s)

/-- R485 to R490, R20: what the rails and clocks leave. The always-on rail starts the boot count and samples the
straps; a loss of shared power leaves the clock, what the flash holds and the host's memory and nothing of a context;
a power-on forms the quorum of the first three well Keels and starts in hold when there are fewer. -/
def Obligations.RailsAndClocks : Prop :=
  ∀ s : State,
    (∀ n, s.board.vaon = false → Completes (.vaonValid n) s fun u => u.part.device = n.val ∧ u.board.vaon = true ∧
      u.clock = Clock.reset ∧ u.mem = s.mem ∧ u.flash = s.flash ∧ u.contexts = s.contexts ∧ u.out = s.out ++ [.hotJoin]) ∧
    (s.board.sharedPg = true → Completes .sharedPgLoss s fun u =>
      u.board.sharedPg = false ∧ u.contexts = [] ∧ u.threads = [] ∧ u.requests = [] ∧ u.cmds = [] ∧
      u.clock.time = s.clock.time ∧ u.clock.bootCount = s.clock.bootCount ∧
      u.flash = { s.flash with pendingRetirements := [], retryAt := none } ∧ (∀ off, rawReg u off = regReset off) ∧
      ∀ a, s.mem.wf = true → u.mem.readByte a = if spaceOf a = 5 then s.mem.readByte a else 0) ∧
    (s.board.vaon = true → Completes .vaonLoss s fun u => u.board.vaon = false ∧ u.board.sharedPg = false ∧
      u.clock = Clock.reset ∧ u.contexts = [] ∧
      u.flash = { s.flash with pendingRetirements := [], retryAt := none, lastLifeWrite := 0 }) ∧
    (∀ fail, s.board.vaon = true → s.board.sharedPg = false →
      let well := (List.range 4).filter fun k => !(readRecord s.flash).failedKeels.contains k && !fail.contains k
      Completes (.powerGoodRise fail []) s fun u => u.board.sharedPg = true ∧ u.board.started = true ∧
        u.board.poweredAt = some s.clock.bootCount ∧
        (3 ≤ well.length → u.keels.voting = well.take 3 ∧ u.keels.standby = well[3]? ∧ u.keels.formed = true ∧
          u.hold = s.hold) ∧
        (well.length < 3 → u.keels.formed = false ∧ u.hold = true)) ∧
    (∀ p, (physOf s p).coreEn = true → (physOf s p).corePg = true →
      (∀ L, (physOf s p).role = .active L → (regionOf s L).exchange = none → (regionOf s L).vacant = false →
        (quorumActs s = false → Completes (.corePgLoss p) s fun u => (physOf u p).corePg = false ∧ u.logs = s.logs) ∧
        (quorumActs s = true → quorumAgrees s s.keels.ballot = true → (seqOf s L).jobs = [] →
          Completes (.corePgLoss p) s fun u => (physOf u p).corePg = false ∧
          ∃ x, (regionOf u L).exchange = some x ∧ x.kind = .failure ∧ x.leaving = p ∧
            x.boundary = some (boundaryAt (now s + 500000)))) ∧ (∀ k, (physOf s p).role = .standby k → Completes (.corePgLoss p) s fun u =>
        (physOf u p).corePg = false ∧ (physOf u p).failing = true ∧ (physOf u p).role = .standby k ∧
        (enters s p = false → u.mem = s.mem) ∧
        ∀ L x, (regionOf s L).exchange = some x → x.entering = some p →
          ∃ y, (regionOf u L).exchange = some y ∧ y.kind = x.kind ∧ y.leaving = x.leaving ∧ y.entering ≠ some p)) ∧
    (∀ die, die < 4 → Completes (.lrefclkLoss die) s fun u => u.mem = s.mem ∧
      (∀ p, p = 2 * die ∨ p = 2 * die + 1 → (linkOf u p).up = false ∧ (linkOf u p).refclk = false) ∧
      ∀ p, p ≠ 2 * die → p ≠ 2 * die + 1 → linkOf u p = linkOf s p) ∧
    ∀ port, port < 2 → twoHosts s = false → Completes (.prefclkLoss port) s fun u =>
      (portOf u port).refclk = false ∧ (portOf u port).linkUp = false ∧ (portOf u port).readyAt = none ∧ u.mem = s.mem

/-! ### Faults and repair -/

/-- R31, R32, R36, R37, R376, R378, R435, R439, R442 to R444, R451: faults and their repair. A fault of a cell retires
it, and without a free spare the region is also withdrawn; a fault of a region's unit or of its T1, and a migration,
withdraw the region when the quorum agrees; a splice takes the retiring cell off the list; a region that fails is
fenced, when the quorum agrees, until the first boundary at least 500,000 ns later; a map change that the quorum
agrees on puts the entering region in the place of the leaving one, and one that it does not agree on changes no
region. -/
def Obligations.FaultsAndRepair : Prop :=
  ∀ s : State,
    let retires := fun (i : Instr) (L cell p : Nat) =>
      physOfLogical s L = some p → L < 16 → cell < 160 → (regionOf s L).vacant = false → cell ∉ (regionOf s L).retiring →
      regionFails s L = false → Completes i s fun u =>
        (regionOf u L).retiring = (regionOf s L).retiring ++ [cell] ∧
        (physOf u p).retired = (physOf s p).retired ++ [(cell, none)] ∧
        (spareLeft s p = true → (regionOf u L).exchange = (regionOf s L).exchange ∧ u.threads = s.threads) ∧
        (spareLeft s p = false → (physOf s p).role = .active L → (regionOf s L).exchange = none → quorumActs s = true →
          quorumAgrees s s.keels.ballot = true →
          ∃ x, (regionOf u L).exchange = some x ∧ x.kind = .migration ∧ x.leaving = p)
    let withdrawn := fun (i : Instr) (L p : Nat) =>
      (physOf s p).role = .active L → physOfLogical s L = some p → (regionOf s L).exchange = none →
      (regionOf s L).vacant = false → quorumActs s = true → quorumAgrees s s.keels.ballot = true → Completes i s fun u =>
        ∃ x, (regionOf u L).exchange = some x ∧ x.kind = .migration ∧ x.leaving = p ∧ x.fencedAt = now s ∧
          (physOf u p).role = .active L
    (∀ L cell p, retires (.cellRetire L cell) L cell p) ∧
    (∀ L cell p, (physOf s p).vcore ≥ 600 → retires (.handshakeTimeout (.cell L cell)) L cell p) ∧
    (∀ a p, retires (.uncorrectableError (.t0 a)) (addrRegion a) (addrCell a) p) ∧
    (∀ L p, (physOf s p).vcore ≥ 600 → withdrawn (.handshakeTimeout (.regionUnit L)) L p) ∧
    (∀ a flips p, spaceOf a = 1 → scrubTag s (.t1 a) = true → scrubRate s (.t1 a) = true → checkPlace s (.t1 a) flips = .uncorrectable →
      withdrawn (.patrolScrub (.t1 a) flips) (addrRegion a) p) ∧
    (∀ L p, withdrawn (.regionMigration p) L p) ∧
    (∀ a, Completes (.uncorrectableError (.t2 a)) s fun u => ∀ i, i < 256 → spaceOf a = 0 →
      a / 256 * 256 + i ∈ u.mem.poison) ∧
    (∀ place, exec (.patrolScrub place 0) s = .next s) ∧
    (∀ place flips, checkPlace s place flips ≠ .uncorrectable → Completes (.patrolScrub place flips) s fun u =>
      u.mem = s.mem ∧ u.threads = s.threads ∧ u.contexts = s.contexts) ∧
    (∀ L cell p spare rest, physOfLogical s L = some p → freeSpares s p = spare :: rest → cell ∈ (regionOf s L).retiring →
      (cell, none) ∈ (physOf s p).retired → Completes (.spareSplice L cell false []) s fun u =>
        cell ∉ (regionOf u L).retiring ∧ (cell, some spare) ∈ (physOf u p).retired ∧ u.mem = s.mem ∧
        u.threads = s.threads) ∧
    (∀ L x e, (regionOf s L).exchange = some x → x.entering = some e → x.copied = false → x.kind ≠ .failure →
      regionDrained s L x.leaving = true → slotClear s e = true → 600 ≤ (physOf s e).vcore →
      (∃ t, findTransfer s (.migration L) = some t ∧ t.accepted = true) → Completes (.migrationCopyDone L []) s fun u =>
        (regionOf u L).exchange = some { x with copied := true, boundary := some (boundaryAfter (now s)) } ∧
        u.mem = s.mem ∧ u.phys = s.phys) ∧
    (∀ p L, (physOf s p).role = .active L → (regionOf s L).vacant = false → (regionOf s L).exchange = none →
      (quorumActs s = false → exec (.regionFailure p) s = .next s) ∧
      (quorumActs s = true → quorumAgrees s s.keels.ballot = true → (seqOf s L).jobs = [] → Completes (.regionFailure p) s fun u =>
        (∃ x, (regionOf u L).exchange = some x ∧ x.kind = .failure ∧ x.leaving = p ∧ x.copied = true ∧
          x.boundary = some (boundaryAt (now s + 500000))) ∧
        (regionOf u L).entries = [] ∧ (regionOf u L).gatherJobs = [] ∧ (seqOf u L).jobs = [])) ∧
    (∀ L x e, isBoundary (now s) = true → quorumActs s = true → dueExchanges s = [(L, x)] → failingStandbys s = [] →
      x.entering = some e → x.kind = .migration → x.leaving ≠ e →
      (∀ q r j k, (physOf s q).role = .standby j → (physOf s r).role = .standby k → q ≠ e → r ≠ e → q = r) →
      (quorumAgrees s s.keels.ballot = true → Completes .regionMapApply s fun u =>
        (physOf u e).role = .active L ∧ (physOf u x.leaving).role = .failed ∧ (regionOf u L).exchange = none ∧
        (regionOf u L).retiring = [] ∧ u.mem = s.mem) ∧
      (quorumAgrees s s.keels.ballot = false → Completes .regionMapApply s fun u =>
        u.mem = s.mem ∧ (physOf u e).role = (physOf s e).role ∧ (regionOf u L).retiring = (regionOf s L).retiring)) ∧
    (∀ p action id c passed, (physOf s p).service = some (action, id) → serviceReady s p = true → findCmd s id = some c →
      Completes (.serviceActionDone p passed) s fun u => (physOf u p).service = none ∧ (physOf u p).role = (physOf s p).role ∧
        Ended u id 0 0 (if passed = true ∨ action = 2 then 1 else 0))

/-! ### Keels and the lifetime record -/

/-- R446 to R450, R463 to R465: a voter that misses its third heartbeat in a row, or fails its own check, is voted out
and recorded in the board flash; with at most one voter left the device holds. The standby joins at a boundary. A
lifetime write replaces the slot that is not the newest good one, under the next SEQ. -/
def Obligations.KeelsAndLifetime : Prop :=
  ∀ s : State,
    (∀ k, s.keels.formed = true → s.keels.voting.Nodup → k ∈ s.keels.voting → 3 ≤ s.keels.voting.length → s.hold = false →
      let out_ := fun u : State => k ∉ u.keels.voting ∧ k ∈ u.flash.failedKeels ∧ u.hold = false ∧
        (∀ j ∈ s.keels.voting, j ≠ k → j ∈ u.keels.voting) ∧
        (s.keels.standby ≠ none → s.keels.joinBy = none → u.keels.joinBy = some (now s + 10000000))
      (Completes (.keelPeriodicSelfCheck k false) s out_) ∧
      (k < 4 → mget 0 s.keels.missed k = 2 → (∀ j, s.keels.standby = some j → j ≠ k) →
        Completes (.keelHeartbeat [k] []) s out_)) ∧
    (∀ k j, s.keels.formed = true → s.keels.voting = [k, j] → k ≠ j → s.hold = false →
      Completes (.keelPeriodicSelfCheck k false) s fun u => u.keels.voting = [j] ∧ u.hold = true ∧
        u.clock.master = false ∧ u.life.holds = s.life.holds + 1) ∧
    (∀ k t, s.keels.standby = some k → s.keels.joinBy = some t → isBoundary (now s) = true → s.hold = false →
      Completes .keelStandbyJoin s fun u => u.keels.voting = s.keels.voting ++ [k] ∧ u.keels.standby = none ∧
        u.keels.joinBy = none ∧ u.mem = s.mem) ∧
    (∀ k a b c, s.keels.standby = some k → s.keels.voting = [a, b, c] → s.keels.joinBy = none → s.hold = false →
      isBoundary (now s) = true → s.keels.lastRotation + 86400000000000 ≤ now s →
      Completes (.keelRotation true) s fun u => u.keels.voting = [b, c, k] ∧ u.keels.standby = some a ∧
        u.keels.lastRotation = now s ∧ u.flash = s.flash) ∧
    (s.flash.present = true →
      let n := ((newestLife s.flash).map (·.seq)).getD 0
      let first := firstNewer s.flash.slot0.crcOk s.flash.slot1.crcOk s.flash.slot0.seq s.flash.slot1.seq
      let wrote := fun u : State => (n + 1 < 2 ^ 32 → ∃ x, newestLife u.flash = some x ∧ x.seq = n + 1 ∧ x.device = s.life ∧
          x.time = now s) ∧ u.flash.lastLifeWrite = now s ∧ u.flash.retryAt = none ∧
        (first = true → u.flash.slot0 = s.flash.slot0) ∧ (first = false → u.flash.slot1 = s.flash.slot1)
      (s.flash.lastLifeWrite + 3600000000000 ≤ now s →
        (Completes (.lifetimeWrite true) s wrote) ∧
        Completes (.lifetimeWrite false) s fun u => u.flash.slot0 = s.flash.slot0 ∧ u.flash.slot1 = s.flash.slot1 ∧
          u.flash.retryAt = some (now s + 60000000000) ∧ u.logTotal = s.logTotal + 1) ∧
      ∀ t, s.flash.retryAt = some t → t ≤ now s → Completes (.lifetimeWriteRetry true) s wrote) ∧
    ∀ r rest, s.flash.pendingRetirements = r :: rest → s.flash.present = true → s.flash.retirements.length < 524288 →
      Completes .retirementListAppend s fun u => u.flash.retirements = s.flash.retirements ++ [r] ∧
        u.flash.pendingRetirements = rest ∧ { u with flash := s.flash } = s

/-! ### Reset and encoding -/

/-- After reset no context exists, no queue is open, no request or command is held, the device is not in hold, every
port of the device link is down, and the pace control, power control, PCIe ports and link control registers read as
Tables 2.8, 17.1, 14.9 and 14.5 reset them. That the flash is that of a first power-on (log entry 6), that the state
is that of the instant at which the always-on rail has become valid (log entry 2), and that unlisted memory reads 0
(log entry 4) are the model's choices. -/
def Obligations.ResetState : Prop :=
  Sound State.reset ∧ State.reset.pending = [] ∧ State.reset.hold = false ∧
  (∀ c, (ctxOf State.reset c).state = .empty) ∧ (∀ f q, (queueOf State.reset f q).en = false) ∧
  State.reset.requests = [] ∧ State.reset.cmds = [] ∧ (∀ a, State.reset.mem.readByte a = 0) ∧
  State.reset.mem.wf = true ∧
  rawReg State.reset offPace = 0x640 ∧ rawReg State.reset offPower = 0x190003200BB8 ∧
  rawReg State.reset offPcie = 0x2000000000000000 ∧ (∀ n, n < 8 → rawReg State.reset (offLinkCtl n) = 0x8000000000000000) ∧
  ∀ n, n < 8 → portUp State.reset n = false

/-- R107 to R110: the word that an instruction is encoded in decodes to the same instruction, with every operand at
every value that its row allows; no two instructions of a thread share a word. -/
def Obligations.ThreadWordsRoundTrip : Prop :=
  (∀ (i : Instr) (t : ThreadId) (k : Common) (w : Nat), wordOf i = some (t, k) → i.wf = true → encodeWord i = some w →
    decodeWord t w = some i ∧ w < 2 ^ 64) ∧
  ∀ (i : Instr) (t : ThreadId) (k : Common), wordOf i = some (t, k) → ∃ w, encodeWord i = some w
end

