-- ==== Sys2Proof/Laws/State.lean ====
section
/-! SUPPORT. What each named update of the state leaves alone, one lemma for each field and for each named read, true by
definition; and what a read of the thing just updated gives. A later proof rewrites with these and unfolds no update. -/

namespace Sys2Proof.Machine

open Sys2Proof

/-! ### Maps -/

section Maps

variable {α β : Type} [DecidableEq α]

@[simp] theorem mget?_mset_same (m : Map α β) (k : α) (v : β) : mget? (mset m k v) k = some v := by
  induction m with
  | nil => simp [mset, mget?]
  | cons e r ih =>
    obtain ⟨a, b⟩ := e
    simp only [mset]
    split
    · simp [mget?]
    · next h => simp [mget?, h, ih]

theorem mget?_mset_other (m : Map α β) {k x : α} (v : β) (h : x ≠ k) : mget? (mset m k v) x = mget? m x := by
  induction m with
  | nil => simp [mset, mget?, Ne.symm h]
  | cons e r ih =>
    obtain ⟨a, b⟩ := e
    simp only [mset]
    split
    · next ha => subst ha; simp [mget?, Ne.symm h]
    · simp [mget?, ih]

theorem mget?_mset (m : Map α β) (k x : α) (v : β) : mget? (mset m k v) x = if x = k then some v else mget? m x := by
  split
  · next h => subst h; simp
  · next h => exact mget?_mset_other m v h

@[simp] theorem mget_mset_same (d : β) (m : Map α β) (k : α) (v : β) : mget d (mset m k v) k = v := by simp [mget]

theorem mget_mset_other (d : β) (m : Map α β) {k x : α} (v : β) (h : x ≠ k) : mget d (mset m k v) x = mget d m x := by
  simp [mget, mget?_mset_other m v h]

/-- The later of two settings of a key stands. -/
theorem mset_mset (m : Map α β) (k : α) (v w : β) : mset (mset m k v) k w = mset m k w := by
  induction m with
  | nil => simp [mset]
  | cons e r ih =>
    obtain ⟨a, b⟩ := e
    simp only [mset]
    split
    · simp [mset]
    · next h => simp [mset, h, ih]

end Maps

/-! ### What an update gives at its own place, and at another -/

@[simp] theorem ctxOf_setCtx {s : State} {c : Nat} {x : Context} : ctxOf (setCtx s c x) c = x := mget_mset_same _ _ _ _
theorem ctxOf_setCtx_other {s : State} {c : Nat} {x : Context} {d : Nat} (h : d ≠ c) : ctxOf (setCtx s c x) d = ctxOf s d :=
  mget_mset_other _ _ _ h
@[simp] theorem ctxOf_modCtx {s : State} {c : Nat} {f : Context → Context} : ctxOf (modCtx s c f) c = f (ctxOf s c) := mget_mset_same _ _ _ _
theorem ctxOf_modCtx_other {s : State} {c : Nat} {f : Context → Context} {d : Nat} (h : d ≠ c) : ctxOf (modCtx s c f) d = ctxOf s d :=
  mget_mset_other _ _ _ h
@[simp] theorem regionOf_setRegion {s : State} {c : Nat} {x : LogRegion} : regionOf (setRegion s c x) c = x := mget_mset_same _ _ _ _
theorem regionOf_setRegion_other {s : State} {c : Nat} {x : LogRegion} {d : Nat} (h : d ≠ c) : regionOf (setRegion s c x) d = regionOf s d :=
  mget_mset_other _ _ _ h
@[simp] theorem regionOf_modRegion {s : State} {c : Nat} {f : LogRegion → LogRegion} : regionOf (modRegion s c f) c = f (regionOf s c) := mget_mset_same _ _ _ _
theorem regionOf_modRegion_other {s : State} {c : Nat} {f : LogRegion → LogRegion} {d : Nat} (h : d ≠ c) : regionOf (modRegion s c f) d = regionOf s d :=
  mget_mset_other _ _ _ h
@[simp] theorem seqOf_modSeq {s : State} {c : Nat} {f : Sequencer → Sequencer} : seqOf (modSeq s c f) c = f (seqOf s c) := by
  unfold seqOf modSeq; rw [regionOf_modRegion]
@[simp] theorem physOf_setPhys {s : State} {c : Nat} {x : PhysRegion} : physOf (setPhys s c x) c = x := mget_mset_same _ _ _ _
theorem physOf_setPhys_other {s : State} {c : Nat} {x : PhysRegion} {d : Nat} (h : d ≠ c) : physOf (setPhys s c x) d = physOf s d :=
  mget_mset_other _ _ _ h
@[simp] theorem physOf_modPhys {s : State} {c : Nat} {f : PhysRegion → PhysRegion} : physOf (modPhys s c f) c = f (physOf s c) := mget_mset_same _ _ _ _
theorem physOf_modPhys_other {s : State} {c : Nat} {f : PhysRegion → PhysRegion} {d : Nat} (h : d ≠ c) : physOf (modPhys s c f) d = physOf s d :=
  mget_mset_other _ _ _ h
@[simp] theorem linkOf_modLink {s : State} {c : Nat} {f : Link → Link} : linkOf (modLink s c f) c = f (linkOf s c) := mget_mset_same _ _ _ _
theorem linkOf_modLink_other {s : State} {c : Nat} {f : Link → Link} {d : Nat} (h : d ≠ c) : linkOf (modLink s c f) d = linkOf s d :=
  mget_mset_other _ _ _ h
@[simp] theorem portOf_modPort {s : State} {c : Nat} {f : PciePort → PciePort} : portOf (modPort s c f) c = f (portOf s c) := mget_mset_same _ _ _ _
theorem portOf_modPort_other {s : State} {c : Nat} {f : PciePort → PciePort} {d : Nat} (h : d ≠ c) : portOf (modPort s c f) d = portOf s d :=
  mget_mset_other _ _ _ h
@[simp] theorem fnOf_modFn {s : State} {c : Nat} {f : Function → Function} : fnOf (modFn s c f) c = f (fnOf s c) := mget_mset_same _ _ _ _
theorem fnOf_modFn_other {s : State} {c : Nat} {f : Function → Function} {d : Nat} (h : d ≠ c) : fnOf (modFn s c f) d = fnOf s d :=
  mget_mset_other _ _ _ h
@[simp] theorem tableOf_modTable {s : State} {c : Nat} {f : TableState → TableState} : tableOf (modTable s c f) c = f (tableOf s c) := mget_mset_same _ _ _ _
theorem tableOf_modTable_other {s : State} {c : Nat} {f : TableState → TableState} {d : Nat} (h : d ≠ c) : tableOf (modTable s c f) d = tableOf s d :=
  mget_mset_other _ _ _ h
@[simp] theorem rawReg_setRaw {s : State} {c : Nat} {x : DWord} : rawReg (setRaw s c x) c = x := mget_mset_same _ _ _ _
theorem rawReg_setRaw_other {s : State} {c : Nat} {x : DWord} {d : Nat} (h : d ≠ c) : rawReg (setRaw s c x) d = rawReg s d :=
  mget_mset_other _ _ _ h
@[simp] theorem destOf_setDest {s : State} {c : Resource} {x : Destination} : destOf (setDest s c x) c = x := mget_mset_same _ _ _ _
theorem destOf_setDest_other {s : State} {c : Resource} {x : Destination} {d : Resource} (h : destKey d ≠ destKey c) : destOf (setDest s c x) d = destOf s d :=
  mget_mset_other _ _ _ h
@[simp] theorem reelUnit_modReel {s : State} {L r : Nat} {f : ReelUnit → ReelUnit} :
    reelUnit (modReel s L r f) L r = f (reelUnit s L r) := by
  unfold reelUnit modReel; rw [regionOf_modRegion]; exact mget_mset_same _ _ _ _
@[simp] theorem ledgerOf_setLedger {s : State} {p : AdmPoint} {r : Resource} {x : Ledger} :
    ledgerOf (setLedger s p r x) p r = x := mget_mset_same _ _ _ _
theorem ledgerOf_setLedger_other {s : State} {p q : AdmPoint} {r t : Resource} {x : Ledger} (h : (q, t) ≠ (p, r)) :
    ledgerOf (setLedger s p r x) q t = ledgerOf s q t := mget_mset_other _ _ _ h
@[simp] theorem threadOf_setThread {s : State} {t : ThreadId} {x : Thread} : threadOf (setThread s t x) t = some x :=
  mget?_mset_same _ _ _
theorem threadOf_setThread_other {s : State} {t d : ThreadId} {x : Thread} (h : d ≠ t) :
    threadOf (setThread s t x) d = threadOf s d := mget?_mset_other _ _ h
@[simp] theorem theThread_setThread {s : State} {t : ThreadId} {x : Thread} : theThread (setThread s t x) t = x := by
  unfold theThread; rw [threadOf_setThread]; rfl
@[simp] theorem queueOf_modQueue {s : State} {n q : Nat} {f : Queue → Queue} :
    queueOf (modQueue s n q f) n q = f (queueOf s n q) := by
  unfold queueOf modQueue; rw [fnOf_modFn]; exact mget_mset_same _ _ _ _

@[simp] theorem emit_out {s : State} {o : Output} : (emit s o).out = s.out ++ [o] := rfl
@[simp] theorem postRecord_records {s : State} {r : Record} : (postRecord s r).records = s.records ++ [r] := rfl
@[simp] theorem logFault_logTotal {s : State} {a b c d e : Nat} : (logFault s a b c d e).logTotal = s.logTotal + 1 := rfl
@[simp] theorem hostWrite_mem {s : State} {n a : Nat} {l : List Byte} :
    (hostWrite s n a l).mem = s.mem.store (memKey s (hostAddr (fnPort s n) a)) l := rfl

/-! ### Commands, requests and tensor operations under a number -/

theorem findCmd_id {s : State} {id : Nat} {c : Cmd} (h : findCmd s id = some c) : c.id = id := by
  have := List.find?_some h; simpa using this

theorem find_setAll {α : Type} {id : α → Nat} {l : List α} {a b : α} (h : l.find? (fun x => id x == id a) = some b) :
    (l.map fun x => if id x = id a then a else x).find? (fun x => id x == id a) = some a := by
  induction l with
  | nil => cases h
  | cons x r ih =>
    by_cases hx : id x = id a
    · simp [hx]
    · simp only [List.map_cons, if_neg hx, List.find?_cons]
      rw [List.find?_cons] at h
      simp only [show (id x == id a) = false from by simpa using hx] at h ⊢
      exact ih h

/-- A command that is listed and is set is found as it was set. -/
theorem findCmd_setCmd {s : State} {c d : Cmd} (h : findCmd s d.id = some c) : findCmd (setCmd s d) d.id = some d :=
  find_setAll h

/-- A request that is listed and is set is found as it was set. -/
theorem findRequest_setRequest {s : State} {r q : Request} (h : findRequest s q.id = some r) :
    findRequest (setRequest s q) q.id = some q := find_setAll h

/-- A tensor operation that is listed and is set is found as it was set. -/
theorem findOp_setOp {s : State} {r q : TensorOp} (h : findOp s q.id = some r) : findOp (setOp s q) q.id = some q :=
  find_setAll h

/-- A listed command whose work ends is found ended, with what it ended with. -/
theorem findCmd_endCmd {s : State} {c d : Cmd} {a b r : Nat} (h : findCmd s c.id = some d) :
    findCmd (endCmd s c a b r) c.id = some { c with stage := .ended, status := a, detail := b, result := r } :=
  findCmd_setCmd (d := { c with stage := .ended, status := a, detail := b, result := r }) h


/-! ### setCtx -/

section setCtx

variable {s : State} {c : Nat} {x : Context}

@[simp] theorem setCtx_pending : (setCtx s c x).pending = s.pending := rfl
@[simp] theorem setCtx_part : (setCtx s c x).part = s.part := rfl
@[simp] theorem setCtx_clock : (setCtx s c x).clock = s.clock := rfl
@[simp] theorem setCtx_mem : (setCtx s c x).mem = s.mem := rfl
@[simp] theorem setCtx_pages : (setCtx s c x).pages = s.pages := rfl
@[simp] theorem setCtx_retiredGranules : (setCtx s c x).retiredGranules = s.retiredGranules := rfl
@[simp] theorem setCtx_granuleErrors : (setCtx s c x).granuleErrors = s.granuleErrors := rfl
@[simp] theorem setCtx_regs : (setCtx s c x).regs = s.regs := rfl
@[simp] theorem setCtx_threads : (setCtx s c x).threads = s.threads := rfl
@[simp] theorem setCtx_groups : (setCtx s c x).groups = s.groups := rfl
@[simp] theorem setCtx_vectors : (setCtx s c x).vectors = s.vectors := rfl
@[simp] theorem setCtx_requests : (setCtx s c x).requests = s.requests := rfl
@[simp] theorem setCtx_nextReq : (setCtx s c x).nextReq = s.nextReq := rfl
@[simp] theorem setCtx_dests : (setCtx s c x).dests = s.dests := rfl
@[simp] theorem setCtx_ledgers : (setCtx s c x).ledgers = s.ledgers := rfl
@[simp] theorem setCtx_wakes : (setCtx s c x).wakes = s.wakes := rfl
@[simp] theorem setCtx_activity : (setCtx s c x).activity = s.activity := rfl
@[simp] theorem setCtx_transfers : (setCtx s c x).transfers = s.transfers := rfl
@[simp] theorem setCtx_nextXfer : (setCtx s c x).nextXfer = s.nextXfer := rfl
@[simp] theorem setCtx_ops : (setCtx s c x).ops = s.ops := rfl
@[simp] theorem setCtx_nextOp : (setCtx s c x).nextOp = s.nextOp := rfl
@[simp] theorem setCtx_logs : (setCtx s c x).logs = s.logs := rfl
@[simp] theorem setCtx_phys : (setCtx s c x).phys = s.phys := rfl
@[simp] theorem setCtx_tables : (setCtx s c x).tables = s.tables := rfl
@[simp] theorem setCtx_keptPins : (setCtx s c x).keptPins = s.keptPins := rfl
@[simp] theorem setCtx_links : (setCtx s c x).links = s.links := rfl
@[simp] theorem setCtx_ports : (setCtx s c x).ports = s.ports := rfl
@[simp] theorem setCtx_fns : (setCtx s c x).fns = s.fns := rfl
@[simp] theorem setCtx_cfgs : (setCtx s c x).cfgs = s.cfgs := rfl
@[simp] theorem setCtx_cmds : (setCtx s c x).cmds = s.cmds := rfl
@[simp] theorem setCtx_nextCmd : (setCtx s c x).nextCmd = s.nextCmd := rfl
@[simp] theorem setCtx_records : (setCtx s c x).records = s.records := rfl
@[simp] theorem setCtx_allocs : (setCtx s c x).allocs = s.allocs := rfl
@[simp] theorem setCtx_nextHandle : (setCtx s c x).nextHandle = s.nextHandle := rfl
@[simp] theorem setCtx_loans : (setCtx s c x).loans = s.loans := rfl
@[simp] theorem setCtx_later : (setCtx s c x).later = s.later := rfl
@[simp] theorem setCtx_votes : (setCtx s c x).votes = s.votes := rfl
@[simp] theorem setCtx_keels : (setCtx s c x).keels = s.keels := rfl
@[simp] theorem setCtx_hold : (setCtx s c x).hold = s.hold := rfl
@[simp] theorem setCtx_faultLog : (setCtx s c x).faultLog = s.faultLog := rfl
@[simp] theorem setCtx_logTotal : (setCtx s c x).logTotal = s.logTotal := rfl
@[simp] theorem setCtx_flash : (setCtx s c x).flash = s.flash := rfl
@[simp] theorem setCtx_life : (setCtx s c x).life = s.life := rfl
@[simp] theorem setCtx_power : (setCtx s c x).power = s.power := rfl
@[simp] theorem setCtx_board : (setCtx s c x).board = s.board := rfl
@[simp] theorem setCtx_out : (setCtx s c x).out = s.out := rfl
@[simp] theorem setCtx_lowered : (setCtx s c x).lowered = s.lowered := rfl
@[simp] theorem setCtx_objects : (setCtx s c x).objects = s.objects := rfl
@[simp] theorem setCtx_checkpoints : (setCtx s c x).checkpoints = s.checkpoints := rfl
@[simp] theorem setCtx_cmdTurn : (setCtx s c x).cmdTurn = s.cmdTurn := rfl
@[simp] theorem setCtx_addendum : (setCtx s c x).addendum = s.addendum := rfl
@[simp] theorem setCtx_loadBank : (setCtx s c x).loadBank = s.loadBank := rfl
@[simp] theorem setCtx_notice : (setCtx s c x).notice = s.notice := rfl
@[simp] theorem setCtx_lowerRev : (setCtx s c x).lowerRev = s.lowerRev := rfl
@[simp] theorem setCtx_lastEvent : (setCtx s c x).lastEvent = s.lastEvent := rfl
@[simp] theorem setCtx_w1cAt : (setCtx s c x).w1cAt = s.w1cAt := rfl
@[simp] theorem setCtx_freeCounter : (setCtx s c x).freeCounter = s.freeCounter := rfl
@[simp] theorem setCtx_regionOf {i : Nat} : regionOf (setCtx s c x) i = regionOf s i := rfl
@[simp] theorem setCtx_seqOf {i : Nat} : seqOf (setCtx s c x) i = seqOf s i := rfl
@[simp] theorem setCtx_reelUnit {i j : Nat} : reelUnit (setCtx s c x) i j = reelUnit s i j := rfl
@[simp] theorem setCtx_physOf {i : Nat} : physOf (setCtx s c x) i = physOf s i := rfl
@[simp] theorem setCtx_physOfLogical {i : Nat} : physOfLogical (setCtx s c x) i = physOfLogical s i := rfl
@[simp] theorem setCtx_linkOf {i : Nat} : linkOf (setCtx s c x) i = linkOf s i := rfl
@[simp] theorem setCtx_portOf {i : Nat} : portOf (setCtx s c x) i = portOf s i := rfl
@[simp] theorem setCtx_fnOf {i : Nat} : fnOf (setCtx s c x) i = fnOf s i := rfl
@[simp] theorem setCtx_queueOf {i j : Nat} : queueOf (setCtx s c x) i j = queueOf s i j := rfl
@[simp] theorem setCtx_tableOf {i : Nat} : tableOf (setCtx s c x) i = tableOf s i := rfl
@[simp] theorem setCtx_destOf {i : Resource} : destOf (setCtx s c x) i = destOf s i := rfl
@[simp] theorem setCtx_ledgerOf {i : AdmPoint} {j : Resource} : ledgerOf (setCtx s c x) i j = ledgerOf s i j := rfl
@[simp] theorem setCtx_threadOf {i : ThreadId} : threadOf (setCtx s c x) i = threadOf s i := rfl
@[simp] theorem setCtx_theThread {i : ThreadId} : theThread (setCtx s c x) i = theThread s i := rfl
@[simp] theorem setCtx_groupOf {i : ThreadId} : groupOf (setCtx s c x) i = groupOf s i := rfl
@[simp] theorem setCtx_vectorOf {i : ThreadId} : vectorOf (setCtx s c x) i = vectorOf s i := rfl
@[simp] theorem setCtx_rawReg {i : Nat} : rawReg (setCtx s c x) i = rawReg s i := rfl
@[simp] theorem setCtx_rawField {i j k : Nat} : rawField (setCtx s c x) i j k = rawField s i j k := rfl
@[simp] theorem setCtx_findRequest {i : Nat} : findRequest (setCtx s c x) i = findRequest s i := rfl
@[simp] theorem setCtx_findOp {i : Nat} : findOp (setCtx s c x) i = findOp s i := rfl
@[simp] theorem setCtx_findCmd {i : Nat} : findCmd (setCtx s c x) i = findCmd s i := rfl
@[simp] theorem setCtx_findTransfer {i : XferUse} : findTransfer (setCtx s c x) i = findTransfer s i := rfl
@[simp] theorem setCtx_now : now (setCtx s c x) = now s := rfl
@[simp] theorem setCtx_memKey {i : Nat} : memKey (setCtx s c x) i = memKey s i := rfl
@[simp] theorem setCtx_fnPort {i : Nat} : fnPort (setCtx s c x) i = fnPort s i := rfl

end setCtx

/-! ### modCtx -/

section modCtx

variable {s : State} {c : Nat} {f : Context → Context}

@[simp] theorem modCtx_pending : (modCtx s c f).pending = s.pending := rfl
@[simp] theorem modCtx_part : (modCtx s c f).part = s.part := rfl
@[simp] theorem modCtx_clock : (modCtx s c f).clock = s.clock := rfl
@[simp] theorem modCtx_mem : (modCtx s c f).mem = s.mem := rfl
@[simp] theorem modCtx_pages : (modCtx s c f).pages = s.pages := rfl
@[simp] theorem modCtx_retiredGranules : (modCtx s c f).retiredGranules = s.retiredGranules := rfl
@[simp] theorem modCtx_granuleErrors : (modCtx s c f).granuleErrors = s.granuleErrors := rfl
@[simp] theorem modCtx_regs : (modCtx s c f).regs = s.regs := rfl
@[simp] theorem modCtx_threads : (modCtx s c f).threads = s.threads := rfl
@[simp] theorem modCtx_groups : (modCtx s c f).groups = s.groups := rfl
@[simp] theorem modCtx_vectors : (modCtx s c f).vectors = s.vectors := rfl
@[simp] theorem modCtx_requests : (modCtx s c f).requests = s.requests := rfl
@[simp] theorem modCtx_nextReq : (modCtx s c f).nextReq = s.nextReq := rfl
@[simp] theorem modCtx_dests : (modCtx s c f).dests = s.dests := rfl
@[simp] theorem modCtx_ledgers : (modCtx s c f).ledgers = s.ledgers := rfl
@[simp] theorem modCtx_wakes : (modCtx s c f).wakes = s.wakes := rfl
@[simp] theorem modCtx_activity : (modCtx s c f).activity = s.activity := rfl
@[simp] theorem modCtx_transfers : (modCtx s c f).transfers = s.transfers := rfl
@[simp] theorem modCtx_nextXfer : (modCtx s c f).nextXfer = s.nextXfer := rfl
@[simp] theorem modCtx_ops : (modCtx s c f).ops = s.ops := rfl
@[simp] theorem modCtx_nextOp : (modCtx s c f).nextOp = s.nextOp := rfl
@[simp] theorem modCtx_logs : (modCtx s c f).logs = s.logs := rfl
@[simp] theorem modCtx_phys : (modCtx s c f).phys = s.phys := rfl
@[simp] theorem modCtx_tables : (modCtx s c f).tables = s.tables := rfl
@[simp] theorem modCtx_keptPins : (modCtx s c f).keptPins = s.keptPins := rfl
@[simp] theorem modCtx_links : (modCtx s c f).links = s.links := rfl
@[simp] theorem modCtx_ports : (modCtx s c f).ports = s.ports := rfl
@[simp] theorem modCtx_fns : (modCtx s c f).fns = s.fns := rfl
@[simp] theorem modCtx_cfgs : (modCtx s c f).cfgs = s.cfgs := rfl
@[simp] theorem modCtx_cmds : (modCtx s c f).cmds = s.cmds := rfl
@[simp] theorem modCtx_nextCmd : (modCtx s c f).nextCmd = s.nextCmd := rfl
@[simp] theorem modCtx_records : (modCtx s c f).records = s.records := rfl
@[simp] theorem modCtx_allocs : (modCtx s c f).allocs = s.allocs := rfl
@[simp] theorem modCtx_nextHandle : (modCtx s c f).nextHandle = s.nextHandle := rfl
@[simp] theorem modCtx_loans : (modCtx s c f).loans = s.loans := rfl
@[simp] theorem modCtx_later : (modCtx s c f).later = s.later := rfl
@[simp] theorem modCtx_votes : (modCtx s c f).votes = s.votes := rfl
@[simp] theorem modCtx_keels : (modCtx s c f).keels = s.keels := rfl
@[simp] theorem modCtx_hold : (modCtx s c f).hold = s.hold := rfl
@[simp] theorem modCtx_faultLog : (modCtx s c f).faultLog = s.faultLog := rfl
@[simp] theorem modCtx_logTotal : (modCtx s c f).logTotal = s.logTotal := rfl
@[simp] theorem modCtx_flash : (modCtx s c f).flash = s.flash := rfl
@[simp] theorem modCtx_life : (modCtx s c f).life = s.life := rfl
@[simp] theorem modCtx_power : (modCtx s c f).power = s.power := rfl
@[simp] theorem modCtx_board : (modCtx s c f).board = s.board := rfl
@[simp] theorem modCtx_out : (modCtx s c f).out = s.out := rfl
@[simp] theorem modCtx_lowered : (modCtx s c f).lowered = s.lowered := rfl
@[simp] theorem modCtx_objects : (modCtx s c f).objects = s.objects := rfl
@[simp] theorem modCtx_checkpoints : (modCtx s c f).checkpoints = s.checkpoints := rfl
@[simp] theorem modCtx_cmdTurn : (modCtx s c f).cmdTurn = s.cmdTurn := rfl
@[simp] theorem modCtx_addendum : (modCtx s c f).addendum = s.addendum := rfl
@[simp] theorem modCtx_loadBank : (modCtx s c f).loadBank = s.loadBank := rfl
@[simp] theorem modCtx_notice : (modCtx s c f).notice = s.notice := rfl
@[simp] theorem modCtx_lowerRev : (modCtx s c f).lowerRev = s.lowerRev := rfl
@[simp] theorem modCtx_lastEvent : (modCtx s c f).lastEvent = s.lastEvent := rfl
@[simp] theorem modCtx_w1cAt : (modCtx s c f).w1cAt = s.w1cAt := rfl
@[simp] theorem modCtx_freeCounter : (modCtx s c f).freeCounter = s.freeCounter := rfl
@[simp] theorem modCtx_regionOf {i : Nat} : regionOf (modCtx s c f) i = regionOf s i := rfl
@[simp] theorem modCtx_seqOf {i : Nat} : seqOf (modCtx s c f) i = seqOf s i := rfl
@[simp] theorem modCtx_reelUnit {i j : Nat} : reelUnit (modCtx s c f) i j = reelUnit s i j := rfl
@[simp] theorem modCtx_physOf {i : Nat} : physOf (modCtx s c f) i = physOf s i := rfl
@[simp] theorem modCtx_physOfLogical {i : Nat} : physOfLogical (modCtx s c f) i = physOfLogical s i := rfl
@[simp] theorem modCtx_linkOf {i : Nat} : linkOf (modCtx s c f) i = linkOf s i := rfl
@[simp] theorem modCtx_portOf {i : Nat} : portOf (modCtx s c f) i = portOf s i := rfl
@[simp] theorem modCtx_fnOf {i : Nat} : fnOf (modCtx s c f) i = fnOf s i := rfl
@[simp] theorem modCtx_queueOf {i j : Nat} : queueOf (modCtx s c f) i j = queueOf s i j := rfl
@[simp] theorem modCtx_tableOf {i : Nat} : tableOf (modCtx s c f) i = tableOf s i := rfl
@[simp] theorem modCtx_destOf {i : Resource} : destOf (modCtx s c f) i = destOf s i := rfl
@[simp] theorem modCtx_ledgerOf {i : AdmPoint} {j : Resource} : ledgerOf (modCtx s c f) i j = ledgerOf s i j := rfl
@[simp] theorem modCtx_threadOf {i : ThreadId} : threadOf (modCtx s c f) i = threadOf s i := rfl
@[simp] theorem modCtx_theThread {i : ThreadId} : theThread (modCtx s c f) i = theThread s i := rfl
@[simp] theorem modCtx_groupOf {i : ThreadId} : groupOf (modCtx s c f) i = groupOf s i := rfl
@[simp] theorem modCtx_vectorOf {i : ThreadId} : vectorOf (modCtx s c f) i = vectorOf s i := rfl
@[simp] theorem modCtx_rawReg {i : Nat} : rawReg (modCtx s c f) i = rawReg s i := rfl
@[simp] theorem modCtx_rawField {i j k : Nat} : rawField (modCtx s c f) i j k = rawField s i j k := rfl
@[simp] theorem modCtx_findRequest {i : Nat} : findRequest (modCtx s c f) i = findRequest s i := rfl
@[simp] theorem modCtx_findOp {i : Nat} : findOp (modCtx s c f) i = findOp s i := rfl
@[simp] theorem modCtx_findCmd {i : Nat} : findCmd (modCtx s c f) i = findCmd s i := rfl
@[simp] theorem modCtx_findTransfer {i : XferUse} : findTransfer (modCtx s c f) i = findTransfer s i := rfl
@[simp] theorem modCtx_now : now (modCtx s c f) = now s := rfl
@[simp] theorem modCtx_memKey {i : Nat} : memKey (modCtx s c f) i = memKey s i := rfl
@[simp] theorem modCtx_fnPort {i : Nat} : fnPort (modCtx s c f) i = fnPort s i := rfl

end modCtx

/-! ### setRegion -/

section setRegion

variable {s : State} {L : Nat} {x : LogRegion}

@[simp] theorem setRegion_pending : (setRegion s L x).pending = s.pending := rfl
@[simp] theorem setRegion_part : (setRegion s L x).part = s.part := rfl
@[simp] theorem setRegion_clock : (setRegion s L x).clock = s.clock := rfl
@[simp] theorem setRegion_mem : (setRegion s L x).mem = s.mem := rfl
@[simp] theorem setRegion_pages : (setRegion s L x).pages = s.pages := rfl
@[simp] theorem setRegion_retiredGranules : (setRegion s L x).retiredGranules = s.retiredGranules := rfl
@[simp] theorem setRegion_granuleErrors : (setRegion s L x).granuleErrors = s.granuleErrors := rfl
@[simp] theorem setRegion_regs : (setRegion s L x).regs = s.regs := rfl
@[simp] theorem setRegion_contexts : (setRegion s L x).contexts = s.contexts := rfl
@[simp] theorem setRegion_threads : (setRegion s L x).threads = s.threads := rfl
@[simp] theorem setRegion_groups : (setRegion s L x).groups = s.groups := rfl
@[simp] theorem setRegion_vectors : (setRegion s L x).vectors = s.vectors := rfl
@[simp] theorem setRegion_requests : (setRegion s L x).requests = s.requests := rfl
@[simp] theorem setRegion_nextReq : (setRegion s L x).nextReq = s.nextReq := rfl
@[simp] theorem setRegion_dests : (setRegion s L x).dests = s.dests := rfl
@[simp] theorem setRegion_ledgers : (setRegion s L x).ledgers = s.ledgers := rfl
@[simp] theorem setRegion_wakes : (setRegion s L x).wakes = s.wakes := rfl
@[simp] theorem setRegion_activity : (setRegion s L x).activity = s.activity := rfl
@[simp] theorem setRegion_transfers : (setRegion s L x).transfers = s.transfers := rfl
@[simp] theorem setRegion_nextXfer : (setRegion s L x).nextXfer = s.nextXfer := rfl
@[simp] theorem setRegion_ops : (setRegion s L x).ops = s.ops := rfl
@[simp] theorem setRegion_nextOp : (setRegion s L x).nextOp = s.nextOp := rfl
@[simp] theorem setRegion_phys : (setRegion s L x).phys = s.phys := rfl
@[simp] theorem setRegion_tables : (setRegion s L x).tables = s.tables := rfl
@[simp] theorem setRegion_keptPins : (setRegion s L x).keptPins = s.keptPins := rfl
@[simp] theorem setRegion_links : (setRegion s L x).links = s.links := rfl
@[simp] theorem setRegion_ports : (setRegion s L x).ports = s.ports := rfl
@[simp] theorem setRegion_fns : (setRegion s L x).fns = s.fns := rfl
@[simp] theorem setRegion_cfgs : (setRegion s L x).cfgs = s.cfgs := rfl
@[simp] theorem setRegion_cmds : (setRegion s L x).cmds = s.cmds := rfl
@[simp] theorem setRegion_nextCmd : (setRegion s L x).nextCmd = s.nextCmd := rfl
@[simp] theorem setRegion_records : (setRegion s L x).records = s.records := rfl
@[simp] theorem setRegion_allocs : (setRegion s L x).allocs = s.allocs := rfl
@[simp] theorem setRegion_nextHandle : (setRegion s L x).nextHandle = s.nextHandle := rfl
@[simp] theorem setRegion_loans : (setRegion s L x).loans = s.loans := rfl
@[simp] theorem setRegion_later : (setRegion s L x).later = s.later := rfl
@[simp] theorem setRegion_votes : (setRegion s L x).votes = s.votes := rfl
@[simp] theorem setRegion_keels : (setRegion s L x).keels = s.keels := rfl
@[simp] theorem setRegion_hold : (setRegion s L x).hold = s.hold := rfl
@[simp] theorem setRegion_faultLog : (setRegion s L x).faultLog = s.faultLog := rfl
@[simp] theorem setRegion_logTotal : (setRegion s L x).logTotal = s.logTotal := rfl
@[simp] theorem setRegion_flash : (setRegion s L x).flash = s.flash := rfl
@[simp] theorem setRegion_life : (setRegion s L x).life = s.life := rfl
@[simp] theorem setRegion_power : (setRegion s L x).power = s.power := rfl
@[simp] theorem setRegion_board : (setRegion s L x).board = s.board := rfl
@[simp] theorem setRegion_out : (setRegion s L x).out = s.out := rfl
@[simp] theorem setRegion_lowered : (setRegion s L x).lowered = s.lowered := rfl
@[simp] theorem setRegion_objects : (setRegion s L x).objects = s.objects := rfl
@[simp] theorem setRegion_checkpoints : (setRegion s L x).checkpoints = s.checkpoints := rfl
@[simp] theorem setRegion_cmdTurn : (setRegion s L x).cmdTurn = s.cmdTurn := rfl
@[simp] theorem setRegion_addendum : (setRegion s L x).addendum = s.addendum := rfl
@[simp] theorem setRegion_loadBank : (setRegion s L x).loadBank = s.loadBank := rfl
@[simp] theorem setRegion_notice : (setRegion s L x).notice = s.notice := rfl
@[simp] theorem setRegion_lowerRev : (setRegion s L x).lowerRev = s.lowerRev := rfl
@[simp] theorem setRegion_lastEvent : (setRegion s L x).lastEvent = s.lastEvent := rfl
@[simp] theorem setRegion_w1cAt : (setRegion s L x).w1cAt = s.w1cAt := rfl
@[simp] theorem setRegion_freeCounter : (setRegion s L x).freeCounter = s.freeCounter := rfl
@[simp] theorem setRegion_ctxOf {i : Nat} : ctxOf (setRegion s L x) i = ctxOf s i := rfl
@[simp] theorem setRegion_physOf {i : Nat} : physOf (setRegion s L x) i = physOf s i := rfl
@[simp] theorem setRegion_physOfLogical {i : Nat} : physOfLogical (setRegion s L x) i = physOfLogical s i := rfl
@[simp] theorem setRegion_linkOf {i : Nat} : linkOf (setRegion s L x) i = linkOf s i := rfl
@[simp] theorem setRegion_portOf {i : Nat} : portOf (setRegion s L x) i = portOf s i := rfl
@[simp] theorem setRegion_fnOf {i : Nat} : fnOf (setRegion s L x) i = fnOf s i := rfl
@[simp] theorem setRegion_queueOf {i j : Nat} : queueOf (setRegion s L x) i j = queueOf s i j := rfl
@[simp] theorem setRegion_tableOf {i : Nat} : tableOf (setRegion s L x) i = tableOf s i := rfl
@[simp] theorem setRegion_destOf {i : Resource} : destOf (setRegion s L x) i = destOf s i := rfl
@[simp] theorem setRegion_ledgerOf {i : AdmPoint} {j : Resource} : ledgerOf (setRegion s L x) i j = ledgerOf s i j := rfl
@[simp] theorem setRegion_threadOf {i : ThreadId} : threadOf (setRegion s L x) i = threadOf s i := rfl
@[simp] theorem setRegion_theThread {i : ThreadId} : theThread (setRegion s L x) i = theThread s i := rfl
@[simp] theorem setRegion_groupOf {i : ThreadId} : groupOf (setRegion s L x) i = groupOf s i := rfl
@[simp] theorem setRegion_vectorOf {i : ThreadId} : vectorOf (setRegion s L x) i = vectorOf s i := rfl
@[simp] theorem setRegion_rawReg {i : Nat} : rawReg (setRegion s L x) i = rawReg s i := rfl
@[simp] theorem setRegion_rawField {i j k : Nat} : rawField (setRegion s L x) i j k = rawField s i j k := rfl
@[simp] theorem setRegion_findRequest {i : Nat} : findRequest (setRegion s L x) i = findRequest s i := rfl
@[simp] theorem setRegion_findOp {i : Nat} : findOp (setRegion s L x) i = findOp s i := rfl
@[simp] theorem setRegion_findCmd {i : Nat} : findCmd (setRegion s L x) i = findCmd s i := rfl
@[simp] theorem setRegion_findTransfer {i : XferUse} : findTransfer (setRegion s L x) i = findTransfer s i := rfl
@[simp] theorem setRegion_now : now (setRegion s L x) = now s := rfl
@[simp] theorem setRegion_memKey {i : Nat} : memKey (setRegion s L x) i = memKey s i := rfl
@[simp] theorem setRegion_fnPort {i : Nat} : fnPort (setRegion s L x) i = fnPort s i := rfl

end setRegion

/-! ### modRegion -/

section modRegion

variable {s : State} {L : Nat} {f : LogRegion → LogRegion}

@[simp] theorem modRegion_pending : (modRegion s L f).pending = s.pending := rfl
@[simp] theorem modRegion_part : (modRegion s L f).part = s.part := rfl
@[simp] theorem modRegion_clock : (modRegion s L f).clock = s.clock := rfl
@[simp] theorem modRegion_mem : (modRegion s L f).mem = s.mem := rfl
@[simp] theorem modRegion_pages : (modRegion s L f).pages = s.pages := rfl
@[simp] theorem modRegion_retiredGranules : (modRegion s L f).retiredGranules = s.retiredGranules := rfl
@[simp] theorem modRegion_granuleErrors : (modRegion s L f).granuleErrors = s.granuleErrors := rfl
@[simp] theorem modRegion_regs : (modRegion s L f).regs = s.regs := rfl
@[simp] theorem modRegion_contexts : (modRegion s L f).contexts = s.contexts := rfl
@[simp] theorem modRegion_threads : (modRegion s L f).threads = s.threads := rfl
@[simp] theorem modRegion_groups : (modRegion s L f).groups = s.groups := rfl
@[simp] theorem modRegion_vectors : (modRegion s L f).vectors = s.vectors := rfl
@[simp] theorem modRegion_requests : (modRegion s L f).requests = s.requests := rfl
@[simp] theorem modRegion_nextReq : (modRegion s L f).nextReq = s.nextReq := rfl
@[simp] theorem modRegion_dests : (modRegion s L f).dests = s.dests := rfl
@[simp] theorem modRegion_ledgers : (modRegion s L f).ledgers = s.ledgers := rfl
@[simp] theorem modRegion_wakes : (modRegion s L f).wakes = s.wakes := rfl
@[simp] theorem modRegion_activity : (modRegion s L f).activity = s.activity := rfl
@[simp] theorem modRegion_transfers : (modRegion s L f).transfers = s.transfers := rfl
@[simp] theorem modRegion_nextXfer : (modRegion s L f).nextXfer = s.nextXfer := rfl
@[simp] theorem modRegion_ops : (modRegion s L f).ops = s.ops := rfl
@[simp] theorem modRegion_nextOp : (modRegion s L f).nextOp = s.nextOp := rfl
@[simp] theorem modRegion_phys : (modRegion s L f).phys = s.phys := rfl
@[simp] theorem modRegion_tables : (modRegion s L f).tables = s.tables := rfl
@[simp] theorem modRegion_keptPins : (modRegion s L f).keptPins = s.keptPins := rfl
@[simp] theorem modRegion_links : (modRegion s L f).links = s.links := rfl
@[simp] theorem modRegion_ports : (modRegion s L f).ports = s.ports := rfl
@[simp] theorem modRegion_fns : (modRegion s L f).fns = s.fns := rfl
@[simp] theorem modRegion_cfgs : (modRegion s L f).cfgs = s.cfgs := rfl
@[simp] theorem modRegion_cmds : (modRegion s L f).cmds = s.cmds := rfl
@[simp] theorem modRegion_nextCmd : (modRegion s L f).nextCmd = s.nextCmd := rfl
@[simp] theorem modRegion_records : (modRegion s L f).records = s.records := rfl
@[simp] theorem modRegion_allocs : (modRegion s L f).allocs = s.allocs := rfl
@[simp] theorem modRegion_nextHandle : (modRegion s L f).nextHandle = s.nextHandle := rfl
@[simp] theorem modRegion_loans : (modRegion s L f).loans = s.loans := rfl
@[simp] theorem modRegion_later : (modRegion s L f).later = s.later := rfl
@[simp] theorem modRegion_votes : (modRegion s L f).votes = s.votes := rfl
@[simp] theorem modRegion_keels : (modRegion s L f).keels = s.keels := rfl
@[simp] theorem modRegion_hold : (modRegion s L f).hold = s.hold := rfl
@[simp] theorem modRegion_faultLog : (modRegion s L f).faultLog = s.faultLog := rfl
@[simp] theorem modRegion_logTotal : (modRegion s L f).logTotal = s.logTotal := rfl
@[simp] theorem modRegion_flash : (modRegion s L f).flash = s.flash := rfl
@[simp] theorem modRegion_life : (modRegion s L f).life = s.life := rfl
@[simp] theorem modRegion_power : (modRegion s L f).power = s.power := rfl
@[simp] theorem modRegion_board : (modRegion s L f).board = s.board := rfl
@[simp] theorem modRegion_out : (modRegion s L f).out = s.out := rfl
@[simp] theorem modRegion_lowered : (modRegion s L f).lowered = s.lowered := rfl
@[simp] theorem modRegion_objects : (modRegion s L f).objects = s.objects := rfl
@[simp] theorem modRegion_checkpoints : (modRegion s L f).checkpoints = s.checkpoints := rfl
@[simp] theorem modRegion_cmdTurn : (modRegion s L f).cmdTurn = s.cmdTurn := rfl
@[simp] theorem modRegion_addendum : (modRegion s L f).addendum = s.addendum := rfl
@[simp] theorem modRegion_loadBank : (modRegion s L f).loadBank = s.loadBank := rfl
@[simp] theorem modRegion_notice : (modRegion s L f).notice = s.notice := rfl
@[simp] theorem modRegion_lowerRev : (modRegion s L f).lowerRev = s.lowerRev := rfl
@[simp] theorem modRegion_lastEvent : (modRegion s L f).lastEvent = s.lastEvent := rfl
@[simp] theorem modRegion_w1cAt : (modRegion s L f).w1cAt = s.w1cAt := rfl
@[simp] theorem modRegion_freeCounter : (modRegion s L f).freeCounter = s.freeCounter := rfl
@[simp] theorem modRegion_ctxOf {i : Nat} : ctxOf (modRegion s L f) i = ctxOf s i := rfl
@[simp] theorem modRegion_physOf {i : Nat} : physOf (modRegion s L f) i = physOf s i := rfl
@[simp] theorem modRegion_physOfLogical {i : Nat} : physOfLogical (modRegion s L f) i = physOfLogical s i := rfl
@[simp] theorem modRegion_linkOf {i : Nat} : linkOf (modRegion s L f) i = linkOf s i := rfl
@[simp] theorem modRegion_portOf {i : Nat} : portOf (modRegion s L f) i = portOf s i := rfl
@[simp] theorem modRegion_fnOf {i : Nat} : fnOf (modRegion s L f) i = fnOf s i := rfl
@[simp] theorem modRegion_queueOf {i j : Nat} : queueOf (modRegion s L f) i j = queueOf s i j := rfl
@[simp] theorem modRegion_tableOf {i : Nat} : tableOf (modRegion s L f) i = tableOf s i := rfl
@[simp] theorem modRegion_destOf {i : Resource} : destOf (modRegion s L f) i = destOf s i := rfl
@[simp] theorem modRegion_ledgerOf {i : AdmPoint} {j : Resource} : ledgerOf (modRegion s L f) i j = ledgerOf s i j := rfl
@[simp] theorem modRegion_threadOf {i : ThreadId} : threadOf (modRegion s L f) i = threadOf s i := rfl
@[simp] theorem modRegion_theThread {i : ThreadId} : theThread (modRegion s L f) i = theThread s i := rfl
@[simp] theorem modRegion_groupOf {i : ThreadId} : groupOf (modRegion s L f) i = groupOf s i := rfl
@[simp] theorem modRegion_vectorOf {i : ThreadId} : vectorOf (modRegion s L f) i = vectorOf s i := rfl
@[simp] theorem modRegion_rawReg {i : Nat} : rawReg (modRegion s L f) i = rawReg s i := rfl
@[simp] theorem modRegion_rawField {i j k : Nat} : rawField (modRegion s L f) i j k = rawField s i j k := rfl
@[simp] theorem modRegion_findRequest {i : Nat} : findRequest (modRegion s L f) i = findRequest s i := rfl
@[simp] theorem modRegion_findOp {i : Nat} : findOp (modRegion s L f) i = findOp s i := rfl
@[simp] theorem modRegion_findCmd {i : Nat} : findCmd (modRegion s L f) i = findCmd s i := rfl
@[simp] theorem modRegion_findTransfer {i : XferUse} : findTransfer (modRegion s L f) i = findTransfer s i := rfl
@[simp] theorem modRegion_now : now (modRegion s L f) = now s := rfl
@[simp] theorem modRegion_memKey {i : Nat} : memKey (modRegion s L f) i = memKey s i := rfl
@[simp] theorem modRegion_fnPort {i : Nat} : fnPort (modRegion s L f) i = fnPort s i := rfl

end modRegion

/-! ### modSeq -/

section modSeq

variable {s : State} {L : Nat} {f : Sequencer → Sequencer}

@[simp] theorem modSeq_pending : (modSeq s L f).pending = s.pending := rfl
@[simp] theorem modSeq_part : (modSeq s L f).part = s.part := rfl
@[simp] theorem modSeq_clock : (modSeq s L f).clock = s.clock := rfl
@[simp] theorem modSeq_mem : (modSeq s L f).mem = s.mem := rfl
@[simp] theorem modSeq_pages : (modSeq s L f).pages = s.pages := rfl
@[simp] theorem modSeq_retiredGranules : (modSeq s L f).retiredGranules = s.retiredGranules := rfl
@[simp] theorem modSeq_granuleErrors : (modSeq s L f).granuleErrors = s.granuleErrors := rfl
@[simp] theorem modSeq_regs : (modSeq s L f).regs = s.regs := rfl
@[simp] theorem modSeq_contexts : (modSeq s L f).contexts = s.contexts := rfl
@[simp] theorem modSeq_threads : (modSeq s L f).threads = s.threads := rfl
@[simp] theorem modSeq_groups : (modSeq s L f).groups = s.groups := rfl
@[simp] theorem modSeq_vectors : (modSeq s L f).vectors = s.vectors := rfl
@[simp] theorem modSeq_requests : (modSeq s L f).requests = s.requests := rfl
@[simp] theorem modSeq_nextReq : (modSeq s L f).nextReq = s.nextReq := rfl
@[simp] theorem modSeq_dests : (modSeq s L f).dests = s.dests := rfl
@[simp] theorem modSeq_ledgers : (modSeq s L f).ledgers = s.ledgers := rfl
@[simp] theorem modSeq_wakes : (modSeq s L f).wakes = s.wakes := rfl
@[simp] theorem modSeq_activity : (modSeq s L f).activity = s.activity := rfl
@[simp] theorem modSeq_transfers : (modSeq s L f).transfers = s.transfers := rfl
@[simp] theorem modSeq_nextXfer : (modSeq s L f).nextXfer = s.nextXfer := rfl
@[simp] theorem modSeq_ops : (modSeq s L f).ops = s.ops := rfl
@[simp] theorem modSeq_nextOp : (modSeq s L f).nextOp = s.nextOp := rfl
@[simp] theorem modSeq_phys : (modSeq s L f).phys = s.phys := rfl
@[simp] theorem modSeq_tables : (modSeq s L f).tables = s.tables := rfl
@[simp] theorem modSeq_keptPins : (modSeq s L f).keptPins = s.keptPins := rfl
@[simp] theorem modSeq_links : (modSeq s L f).links = s.links := rfl
@[simp] theorem modSeq_ports : (modSeq s L f).ports = s.ports := rfl
@[simp] theorem modSeq_fns : (modSeq s L f).fns = s.fns := rfl
@[simp] theorem modSeq_cfgs : (modSeq s L f).cfgs = s.cfgs := rfl
@[simp] theorem modSeq_cmds : (modSeq s L f).cmds = s.cmds := rfl
@[simp] theorem modSeq_nextCmd : (modSeq s L f).nextCmd = s.nextCmd := rfl
@[simp] theorem modSeq_records : (modSeq s L f).records = s.records := rfl
@[simp] theorem modSeq_allocs : (modSeq s L f).allocs = s.allocs := rfl
@[simp] theorem modSeq_nextHandle : (modSeq s L f).nextHandle = s.nextHandle := rfl
@[simp] theorem modSeq_loans : (modSeq s L f).loans = s.loans := rfl
@[simp] theorem modSeq_later : (modSeq s L f).later = s.later := rfl
@[simp] theorem modSeq_votes : (modSeq s L f).votes = s.votes := rfl
@[simp] theorem modSeq_keels : (modSeq s L f).keels = s.keels := rfl
@[simp] theorem modSeq_hold : (modSeq s L f).hold = s.hold := rfl
@[simp] theorem modSeq_faultLog : (modSeq s L f).faultLog = s.faultLog := rfl
@[simp] theorem modSeq_logTotal : (modSeq s L f).logTotal = s.logTotal := rfl
@[simp] theorem modSeq_flash : (modSeq s L f).flash = s.flash := rfl
@[simp] theorem modSeq_life : (modSeq s L f).life = s.life := rfl
@[simp] theorem modSeq_power : (modSeq s L f).power = s.power := rfl
@[simp] theorem modSeq_board : (modSeq s L f).board = s.board := rfl
@[simp] theorem modSeq_out : (modSeq s L f).out = s.out := rfl
@[simp] theorem modSeq_lowered : (modSeq s L f).lowered = s.lowered := rfl
@[simp] theorem modSeq_objects : (modSeq s L f).objects = s.objects := rfl
@[simp] theorem modSeq_checkpoints : (modSeq s L f).checkpoints = s.checkpoints := rfl
@[simp] theorem modSeq_cmdTurn : (modSeq s L f).cmdTurn = s.cmdTurn := rfl
@[simp] theorem modSeq_addendum : (modSeq s L f).addendum = s.addendum := rfl
@[simp] theorem modSeq_loadBank : (modSeq s L f).loadBank = s.loadBank := rfl
@[simp] theorem modSeq_notice : (modSeq s L f).notice = s.notice := rfl
@[simp] theorem modSeq_lowerRev : (modSeq s L f).lowerRev = s.lowerRev := rfl
@[simp] theorem modSeq_lastEvent : (modSeq s L f).lastEvent = s.lastEvent := rfl
@[simp] theorem modSeq_w1cAt : (modSeq s L f).w1cAt = s.w1cAt := rfl
@[simp] theorem modSeq_freeCounter : (modSeq s L f).freeCounter = s.freeCounter := rfl
@[simp] theorem modSeq_ctxOf {i : Nat} : ctxOf (modSeq s L f) i = ctxOf s i := rfl
@[simp] theorem modSeq_physOf {i : Nat} : physOf (modSeq s L f) i = physOf s i := rfl
@[simp] theorem modSeq_physOfLogical {i : Nat} : physOfLogical (modSeq s L f) i = physOfLogical s i := rfl
@[simp] theorem modSeq_linkOf {i : Nat} : linkOf (modSeq s L f) i = linkOf s i := rfl
@[simp] theorem modSeq_portOf {i : Nat} : portOf (modSeq s L f) i = portOf s i := rfl
@[simp] theorem modSeq_fnOf {i : Nat} : fnOf (modSeq s L f) i = fnOf s i := rfl
@[simp] theorem modSeq_queueOf {i j : Nat} : queueOf (modSeq s L f) i j = queueOf s i j := rfl
@[simp] theorem modSeq_tableOf {i : Nat} : tableOf (modSeq s L f) i = tableOf s i := rfl
@[simp] theorem modSeq_destOf {i : Resource} : destOf (modSeq s L f) i = destOf s i := rfl
@[simp] theorem modSeq_ledgerOf {i : AdmPoint} {j : Resource} : ledgerOf (modSeq s L f) i j = ledgerOf s i j := rfl
@[simp] theorem modSeq_threadOf {i : ThreadId} : threadOf (modSeq s L f) i = threadOf s i := rfl
@[simp] theorem modSeq_theThread {i : ThreadId} : theThread (modSeq s L f) i = theThread s i := rfl
@[simp] theorem modSeq_groupOf {i : ThreadId} : groupOf (modSeq s L f) i = groupOf s i := rfl
@[simp] theorem modSeq_vectorOf {i : ThreadId} : vectorOf (modSeq s L f) i = vectorOf s i := rfl
@[simp] theorem modSeq_rawReg {i : Nat} : rawReg (modSeq s L f) i = rawReg s i := rfl
@[simp] theorem modSeq_rawField {i j k : Nat} : rawField (modSeq s L f) i j k = rawField s i j k := rfl
@[simp] theorem modSeq_findRequest {i : Nat} : findRequest (modSeq s L f) i = findRequest s i := rfl
@[simp] theorem modSeq_findOp {i : Nat} : findOp (modSeq s L f) i = findOp s i := rfl
@[simp] theorem modSeq_findCmd {i : Nat} : findCmd (modSeq s L f) i = findCmd s i := rfl
@[simp] theorem modSeq_findTransfer {i : XferUse} : findTransfer (modSeq s L f) i = findTransfer s i := rfl
@[simp] theorem modSeq_now : now (modSeq s L f) = now s := rfl
@[simp] theorem modSeq_memKey {i : Nat} : memKey (modSeq s L f) i = memKey s i := rfl
@[simp] theorem modSeq_fnPort {i : Nat} : fnPort (modSeq s L f) i = fnPort s i := rfl

end modSeq

/-! ### modReel -/

section modReel

variable {s : State} {L r : Nat} {f : ReelUnit → ReelUnit}

@[simp] theorem modReel_pending : (modReel s L r f).pending = s.pending := rfl
@[simp] theorem modReel_part : (modReel s L r f).part = s.part := rfl
@[simp] theorem modReel_clock : (modReel s L r f).clock = s.clock := rfl
@[simp] theorem modReel_mem : (modReel s L r f).mem = s.mem := rfl
@[simp] theorem modReel_pages : (modReel s L r f).pages = s.pages := rfl
@[simp] theorem modReel_retiredGranules : (modReel s L r f).retiredGranules = s.retiredGranules := rfl
@[simp] theorem modReel_granuleErrors : (modReel s L r f).granuleErrors = s.granuleErrors := rfl
@[simp] theorem modReel_regs : (modReel s L r f).regs = s.regs := rfl
@[simp] theorem modReel_contexts : (modReel s L r f).contexts = s.contexts := rfl
@[simp] theorem modReel_threads : (modReel s L r f).threads = s.threads := rfl
@[simp] theorem modReel_groups : (modReel s L r f).groups = s.groups := rfl
@[simp] theorem modReel_vectors : (modReel s L r f).vectors = s.vectors := rfl
@[simp] theorem modReel_requests : (modReel s L r f).requests = s.requests := rfl
@[simp] theorem modReel_nextReq : (modReel s L r f).nextReq = s.nextReq := rfl
@[simp] theorem modReel_dests : (modReel s L r f).dests = s.dests := rfl
@[simp] theorem modReel_ledgers : (modReel s L r f).ledgers = s.ledgers := rfl
@[simp] theorem modReel_wakes : (modReel s L r f).wakes = s.wakes := rfl
@[simp] theorem modReel_activity : (modReel s L r f).activity = s.activity := rfl
@[simp] theorem modReel_transfers : (modReel s L r f).transfers = s.transfers := rfl
@[simp] theorem modReel_nextXfer : (modReel s L r f).nextXfer = s.nextXfer := rfl
@[simp] theorem modReel_ops : (modReel s L r f).ops = s.ops := rfl
@[simp] theorem modReel_nextOp : (modReel s L r f).nextOp = s.nextOp := rfl
@[simp] theorem modReel_phys : (modReel s L r f).phys = s.phys := rfl
@[simp] theorem modReel_tables : (modReel s L r f).tables = s.tables := rfl
@[simp] theorem modReel_keptPins : (modReel s L r f).keptPins = s.keptPins := rfl
@[simp] theorem modReel_links : (modReel s L r f).links = s.links := rfl
@[simp] theorem modReel_ports : (modReel s L r f).ports = s.ports := rfl
@[simp] theorem modReel_fns : (modReel s L r f).fns = s.fns := rfl
@[simp] theorem modReel_cfgs : (modReel s L r f).cfgs = s.cfgs := rfl
@[simp] theorem modReel_cmds : (modReel s L r f).cmds = s.cmds := rfl
@[simp] theorem modReel_nextCmd : (modReel s L r f).nextCmd = s.nextCmd := rfl
@[simp] theorem modReel_records : (modReel s L r f).records = s.records := rfl
@[simp] theorem modReel_allocs : (modReel s L r f).allocs = s.allocs := rfl
@[simp] theorem modReel_nextHandle : (modReel s L r f).nextHandle = s.nextHandle := rfl
@[simp] theorem modReel_loans : (modReel s L r f).loans = s.loans := rfl
@[simp] theorem modReel_later : (modReel s L r f).later = s.later := rfl
@[simp] theorem modReel_votes : (modReel s L r f).votes = s.votes := rfl
@[simp] theorem modReel_keels : (modReel s L r f).keels = s.keels := rfl
@[simp] theorem modReel_hold : (modReel s L r f).hold = s.hold := rfl
@[simp] theorem modReel_faultLog : (modReel s L r f).faultLog = s.faultLog := rfl
@[simp] theorem modReel_logTotal : (modReel s L r f).logTotal = s.logTotal := rfl
@[simp] theorem modReel_flash : (modReel s L r f).flash = s.flash := rfl
@[simp] theorem modReel_life : (modReel s L r f).life = s.life := rfl
@[simp] theorem modReel_power : (modReel s L r f).power = s.power := rfl
@[simp] theorem modReel_board : (modReel s L r f).board = s.board := rfl
@[simp] theorem modReel_out : (modReel s L r f).out = s.out := rfl
@[simp] theorem modReel_lowered : (modReel s L r f).lowered = s.lowered := rfl
@[simp] theorem modReel_objects : (modReel s L r f).objects = s.objects := rfl
@[simp] theorem modReel_checkpoints : (modReel s L r f).checkpoints = s.checkpoints := rfl
@[simp] theorem modReel_cmdTurn : (modReel s L r f).cmdTurn = s.cmdTurn := rfl
@[simp] theorem modReel_addendum : (modReel s L r f).addendum = s.addendum := rfl
@[simp] theorem modReel_loadBank : (modReel s L r f).loadBank = s.loadBank := rfl
@[simp] theorem modReel_notice : (modReel s L r f).notice = s.notice := rfl
@[simp] theorem modReel_lowerRev : (modReel s L r f).lowerRev = s.lowerRev := rfl
@[simp] theorem modReel_lastEvent : (modReel s L r f).lastEvent = s.lastEvent := rfl
@[simp] theorem modReel_w1cAt : (modReel s L r f).w1cAt = s.w1cAt := rfl
@[simp] theorem modReel_freeCounter : (modReel s L r f).freeCounter = s.freeCounter := rfl
@[simp] theorem modReel_ctxOf {i : Nat} : ctxOf (modReel s L r f) i = ctxOf s i := rfl
@[simp] theorem modReel_physOf {i : Nat} : physOf (modReel s L r f) i = physOf s i := rfl
@[simp] theorem modReel_physOfLogical {i : Nat} : physOfLogical (modReel s L r f) i = physOfLogical s i := rfl
@[simp] theorem modReel_linkOf {i : Nat} : linkOf (modReel s L r f) i = linkOf s i := rfl
@[simp] theorem modReel_portOf {i : Nat} : portOf (modReel s L r f) i = portOf s i := rfl
@[simp] theorem modReel_fnOf {i : Nat} : fnOf (modReel s L r f) i = fnOf s i := rfl
@[simp] theorem modReel_queueOf {i j : Nat} : queueOf (modReel s L r f) i j = queueOf s i j := rfl
@[simp] theorem modReel_tableOf {i : Nat} : tableOf (modReel s L r f) i = tableOf s i := rfl
@[simp] theorem modReel_destOf {i : Resource} : destOf (modReel s L r f) i = destOf s i := rfl
@[simp] theorem modReel_ledgerOf {i : AdmPoint} {j : Resource} : ledgerOf (modReel s L r f) i j = ledgerOf s i j := rfl
@[simp] theorem modReel_threadOf {i : ThreadId} : threadOf (modReel s L r f) i = threadOf s i := rfl
@[simp] theorem modReel_theThread {i : ThreadId} : theThread (modReel s L r f) i = theThread s i := rfl
@[simp] theorem modReel_groupOf {i : ThreadId} : groupOf (modReel s L r f) i = groupOf s i := rfl
@[simp] theorem modReel_vectorOf {i : ThreadId} : vectorOf (modReel s L r f) i = vectorOf s i := rfl
@[simp] theorem modReel_rawReg {i : Nat} : rawReg (modReel s L r f) i = rawReg s i := rfl
@[simp] theorem modReel_rawField {i j k : Nat} : rawField (modReel s L r f) i j k = rawField s i j k := rfl
@[simp] theorem modReel_findRequest {i : Nat} : findRequest (modReel s L r f) i = findRequest s i := rfl
@[simp] theorem modReel_findOp {i : Nat} : findOp (modReel s L r f) i = findOp s i := rfl
@[simp] theorem modReel_findCmd {i : Nat} : findCmd (modReel s L r f) i = findCmd s i := rfl
@[simp] theorem modReel_findTransfer {i : XferUse} : findTransfer (modReel s L r f) i = findTransfer s i := rfl
@[simp] theorem modReel_now : now (modReel s L r f) = now s := rfl
@[simp] theorem modReel_memKey {i : Nat} : memKey (modReel s L r f) i = memKey s i := rfl
@[simp] theorem modReel_fnPort {i : Nat} : fnPort (modReel s L r f) i = fnPort s i := rfl

end modReel

/-! ### setEntry -/

section setEntry

variable {s : State} {L c e : Nat} {x : MatchEntry}

@[simp] theorem setEntry_pending : (setEntry s L c e x).pending = s.pending := rfl
@[simp] theorem setEntry_part : (setEntry s L c e x).part = s.part := rfl
@[simp] theorem setEntry_clock : (setEntry s L c e x).clock = s.clock := rfl
@[simp] theorem setEntry_mem : (setEntry s L c e x).mem = s.mem := rfl
@[simp] theorem setEntry_pages : (setEntry s L c e x).pages = s.pages := rfl
@[simp] theorem setEntry_retiredGranules : (setEntry s L c e x).retiredGranules = s.retiredGranules := rfl
@[simp] theorem setEntry_granuleErrors : (setEntry s L c e x).granuleErrors = s.granuleErrors := rfl
@[simp] theorem setEntry_regs : (setEntry s L c e x).regs = s.regs := rfl
@[simp] theorem setEntry_contexts : (setEntry s L c e x).contexts = s.contexts := rfl
@[simp] theorem setEntry_threads : (setEntry s L c e x).threads = s.threads := rfl
@[simp] theorem setEntry_groups : (setEntry s L c e x).groups = s.groups := rfl
@[simp] theorem setEntry_vectors : (setEntry s L c e x).vectors = s.vectors := rfl
@[simp] theorem setEntry_requests : (setEntry s L c e x).requests = s.requests := rfl
@[simp] theorem setEntry_nextReq : (setEntry s L c e x).nextReq = s.nextReq := rfl
@[simp] theorem setEntry_dests : (setEntry s L c e x).dests = s.dests := rfl
@[simp] theorem setEntry_ledgers : (setEntry s L c e x).ledgers = s.ledgers := rfl
@[simp] theorem setEntry_wakes : (setEntry s L c e x).wakes = s.wakes := rfl
@[simp] theorem setEntry_activity : (setEntry s L c e x).activity = s.activity := rfl
@[simp] theorem setEntry_transfers : (setEntry s L c e x).transfers = s.transfers := rfl
@[simp] theorem setEntry_nextXfer : (setEntry s L c e x).nextXfer = s.nextXfer := rfl
@[simp] theorem setEntry_ops : (setEntry s L c e x).ops = s.ops := rfl
@[simp] theorem setEntry_nextOp : (setEntry s L c e x).nextOp = s.nextOp := rfl
@[simp] theorem setEntry_phys : (setEntry s L c e x).phys = s.phys := rfl
@[simp] theorem setEntry_tables : (setEntry s L c e x).tables = s.tables := rfl
@[simp] theorem setEntry_keptPins : (setEntry s L c e x).keptPins = s.keptPins := rfl
@[simp] theorem setEntry_links : (setEntry s L c e x).links = s.links := rfl
@[simp] theorem setEntry_ports : (setEntry s L c e x).ports = s.ports := rfl
@[simp] theorem setEntry_fns : (setEntry s L c e x).fns = s.fns := rfl
@[simp] theorem setEntry_cfgs : (setEntry s L c e x).cfgs = s.cfgs := rfl
@[simp] theorem setEntry_cmds : (setEntry s L c e x).cmds = s.cmds := rfl
@[simp] theorem setEntry_nextCmd : (setEntry s L c e x).nextCmd = s.nextCmd := rfl
@[simp] theorem setEntry_records : (setEntry s L c e x).records = s.records := rfl
@[simp] theorem setEntry_allocs : (setEntry s L c e x).allocs = s.allocs := rfl
@[simp] theorem setEntry_nextHandle : (setEntry s L c e x).nextHandle = s.nextHandle := rfl
@[simp] theorem setEntry_loans : (setEntry s L c e x).loans = s.loans := rfl
@[simp] theorem setEntry_later : (setEntry s L c e x).later = s.later := rfl
@[simp] theorem setEntry_votes : (setEntry s L c e x).votes = s.votes := rfl
@[simp] theorem setEntry_keels : (setEntry s L c e x).keels = s.keels := rfl
@[simp] theorem setEntry_hold : (setEntry s L c e x).hold = s.hold := rfl
@[simp] theorem setEntry_faultLog : (setEntry s L c e x).faultLog = s.faultLog := rfl
@[simp] theorem setEntry_logTotal : (setEntry s L c e x).logTotal = s.logTotal := rfl
@[simp] theorem setEntry_flash : (setEntry s L c e x).flash = s.flash := rfl
@[simp] theorem setEntry_life : (setEntry s L c e x).life = s.life := rfl
@[simp] theorem setEntry_power : (setEntry s L c e x).power = s.power := rfl
@[simp] theorem setEntry_board : (setEntry s L c e x).board = s.board := rfl
@[simp] theorem setEntry_out : (setEntry s L c e x).out = s.out := rfl
@[simp] theorem setEntry_lowered : (setEntry s L c e x).lowered = s.lowered := rfl
@[simp] theorem setEntry_objects : (setEntry s L c e x).objects = s.objects := rfl
@[simp] theorem setEntry_checkpoints : (setEntry s L c e x).checkpoints = s.checkpoints := rfl
@[simp] theorem setEntry_cmdTurn : (setEntry s L c e x).cmdTurn = s.cmdTurn := rfl
@[simp] theorem setEntry_addendum : (setEntry s L c e x).addendum = s.addendum := rfl
@[simp] theorem setEntry_loadBank : (setEntry s L c e x).loadBank = s.loadBank := rfl
@[simp] theorem setEntry_notice : (setEntry s L c e x).notice = s.notice := rfl
@[simp] theorem setEntry_lowerRev : (setEntry s L c e x).lowerRev = s.lowerRev := rfl
@[simp] theorem setEntry_lastEvent : (setEntry s L c e x).lastEvent = s.lastEvent := rfl
@[simp] theorem setEntry_w1cAt : (setEntry s L c e x).w1cAt = s.w1cAt := rfl
@[simp] theorem setEntry_freeCounter : (setEntry s L c e x).freeCounter = s.freeCounter := rfl
@[simp] theorem setEntry_ctxOf {i : Nat} : ctxOf (setEntry s L c e x) i = ctxOf s i := rfl
@[simp] theorem setEntry_physOf {i : Nat} : physOf (setEntry s L c e x) i = physOf s i := rfl
@[simp] theorem setEntry_physOfLogical {i : Nat} : physOfLogical (setEntry s L c e x) i = physOfLogical s i := rfl
@[simp] theorem setEntry_linkOf {i : Nat} : linkOf (setEntry s L c e x) i = linkOf s i := rfl
@[simp] theorem setEntry_portOf {i : Nat} : portOf (setEntry s L c e x) i = portOf s i := rfl
@[simp] theorem setEntry_fnOf {i : Nat} : fnOf (setEntry s L c e x) i = fnOf s i := rfl
@[simp] theorem setEntry_queueOf {i j : Nat} : queueOf (setEntry s L c e x) i j = queueOf s i j := rfl
@[simp] theorem setEntry_tableOf {i : Nat} : tableOf (setEntry s L c e x) i = tableOf s i := rfl
@[simp] theorem setEntry_destOf {i : Resource} : destOf (setEntry s L c e x) i = destOf s i := rfl
@[simp] theorem setEntry_ledgerOf {i : AdmPoint} {j : Resource} : ledgerOf (setEntry s L c e x) i j = ledgerOf s i j := rfl
@[simp] theorem setEntry_threadOf {i : ThreadId} : threadOf (setEntry s L c e x) i = threadOf s i := rfl
@[simp] theorem setEntry_theThread {i : ThreadId} : theThread (setEntry s L c e x) i = theThread s i := rfl
@[simp] theorem setEntry_groupOf {i : ThreadId} : groupOf (setEntry s L c e x) i = groupOf s i := rfl
@[simp] theorem setEntry_vectorOf {i : ThreadId} : vectorOf (setEntry s L c e x) i = vectorOf s i := rfl
@[simp] theorem setEntry_rawReg {i : Nat} : rawReg (setEntry s L c e x) i = rawReg s i := rfl
@[simp] theorem setEntry_rawField {i j k : Nat} : rawField (setEntry s L c e x) i j k = rawField s i j k := rfl
@[simp] theorem setEntry_findRequest {i : Nat} : findRequest (setEntry s L c e x) i = findRequest s i := rfl
@[simp] theorem setEntry_findOp {i : Nat} : findOp (setEntry s L c e x) i = findOp s i := rfl
@[simp] theorem setEntry_findCmd {i : Nat} : findCmd (setEntry s L c e x) i = findCmd s i := rfl
@[simp] theorem setEntry_findTransfer {i : XferUse} : findTransfer (setEntry s L c e x) i = findTransfer s i := rfl
@[simp] theorem setEntry_now : now (setEntry s L c e x) = now s := rfl
@[simp] theorem setEntry_memKey {i : Nat} : memKey (setEntry s L c e x) i = memKey s i := rfl
@[simp] theorem setEntry_fnPort {i : Nat} : fnPort (setEntry s L c e x) i = fnPort s i := rfl

end setEntry

/-! ### setPhys -/

section setPhys

variable {s : State} {p : Nat} {x : PhysRegion}

@[simp] theorem setPhys_pending : (setPhys s p x).pending = s.pending := rfl
@[simp] theorem setPhys_part : (setPhys s p x).part = s.part := rfl
@[simp] theorem setPhys_clock : (setPhys s p x).clock = s.clock := rfl
@[simp] theorem setPhys_mem : (setPhys s p x).mem = s.mem := rfl
@[simp] theorem setPhys_pages : (setPhys s p x).pages = s.pages := rfl
@[simp] theorem setPhys_retiredGranules : (setPhys s p x).retiredGranules = s.retiredGranules := rfl
@[simp] theorem setPhys_granuleErrors : (setPhys s p x).granuleErrors = s.granuleErrors := rfl
@[simp] theorem setPhys_regs : (setPhys s p x).regs = s.regs := rfl
@[simp] theorem setPhys_contexts : (setPhys s p x).contexts = s.contexts := rfl
@[simp] theorem setPhys_threads : (setPhys s p x).threads = s.threads := rfl
@[simp] theorem setPhys_groups : (setPhys s p x).groups = s.groups := rfl
@[simp] theorem setPhys_vectors : (setPhys s p x).vectors = s.vectors := rfl
@[simp] theorem setPhys_requests : (setPhys s p x).requests = s.requests := rfl
@[simp] theorem setPhys_nextReq : (setPhys s p x).nextReq = s.nextReq := rfl
@[simp] theorem setPhys_dests : (setPhys s p x).dests = s.dests := rfl
@[simp] theorem setPhys_ledgers : (setPhys s p x).ledgers = s.ledgers := rfl
@[simp] theorem setPhys_wakes : (setPhys s p x).wakes = s.wakes := rfl
@[simp] theorem setPhys_activity : (setPhys s p x).activity = s.activity := rfl
@[simp] theorem setPhys_transfers : (setPhys s p x).transfers = s.transfers := rfl
@[simp] theorem setPhys_nextXfer : (setPhys s p x).nextXfer = s.nextXfer := rfl
@[simp] theorem setPhys_ops : (setPhys s p x).ops = s.ops := rfl
@[simp] theorem setPhys_nextOp : (setPhys s p x).nextOp = s.nextOp := rfl
@[simp] theorem setPhys_logs : (setPhys s p x).logs = s.logs := rfl
@[simp] theorem setPhys_tables : (setPhys s p x).tables = s.tables := rfl
@[simp] theorem setPhys_keptPins : (setPhys s p x).keptPins = s.keptPins := rfl
@[simp] theorem setPhys_links : (setPhys s p x).links = s.links := rfl
@[simp] theorem setPhys_ports : (setPhys s p x).ports = s.ports := rfl
@[simp] theorem setPhys_fns : (setPhys s p x).fns = s.fns := rfl
@[simp] theorem setPhys_cfgs : (setPhys s p x).cfgs = s.cfgs := rfl
@[simp] theorem setPhys_cmds : (setPhys s p x).cmds = s.cmds := rfl
@[simp] theorem setPhys_nextCmd : (setPhys s p x).nextCmd = s.nextCmd := rfl
@[simp] theorem setPhys_records : (setPhys s p x).records = s.records := rfl
@[simp] theorem setPhys_allocs : (setPhys s p x).allocs = s.allocs := rfl
@[simp] theorem setPhys_nextHandle : (setPhys s p x).nextHandle = s.nextHandle := rfl
@[simp] theorem setPhys_loans : (setPhys s p x).loans = s.loans := rfl
@[simp] theorem setPhys_later : (setPhys s p x).later = s.later := rfl
@[simp] theorem setPhys_votes : (setPhys s p x).votes = s.votes := rfl
@[simp] theorem setPhys_keels : (setPhys s p x).keels = s.keels := rfl
@[simp] theorem setPhys_hold : (setPhys s p x).hold = s.hold := rfl
@[simp] theorem setPhys_faultLog : (setPhys s p x).faultLog = s.faultLog := rfl
@[simp] theorem setPhys_logTotal : (setPhys s p x).logTotal = s.logTotal := rfl
@[simp] theorem setPhys_flash : (setPhys s p x).flash = s.flash := rfl
@[simp] theorem setPhys_life : (setPhys s p x).life = s.life := rfl
@[simp] theorem setPhys_power : (setPhys s p x).power = s.power := rfl
@[simp] theorem setPhys_board : (setPhys s p x).board = s.board := rfl
@[simp] theorem setPhys_out : (setPhys s p x).out = s.out := rfl
@[simp] theorem setPhys_lowered : (setPhys s p x).lowered = s.lowered := rfl
@[simp] theorem setPhys_objects : (setPhys s p x).objects = s.objects := rfl
@[simp] theorem setPhys_checkpoints : (setPhys s p x).checkpoints = s.checkpoints := rfl
@[simp] theorem setPhys_cmdTurn : (setPhys s p x).cmdTurn = s.cmdTurn := rfl
@[simp] theorem setPhys_addendum : (setPhys s p x).addendum = s.addendum := rfl
@[simp] theorem setPhys_loadBank : (setPhys s p x).loadBank = s.loadBank := rfl
@[simp] theorem setPhys_notice : (setPhys s p x).notice = s.notice := rfl
@[simp] theorem setPhys_lowerRev : (setPhys s p x).lowerRev = s.lowerRev := rfl
@[simp] theorem setPhys_lastEvent : (setPhys s p x).lastEvent = s.lastEvent := rfl
@[simp] theorem setPhys_w1cAt : (setPhys s p x).w1cAt = s.w1cAt := rfl
@[simp] theorem setPhys_freeCounter : (setPhys s p x).freeCounter = s.freeCounter := rfl
@[simp] theorem setPhys_ctxOf {i : Nat} : ctxOf (setPhys s p x) i = ctxOf s i := rfl
@[simp] theorem setPhys_regionOf {i : Nat} : regionOf (setPhys s p x) i = regionOf s i := rfl
@[simp] theorem setPhys_seqOf {i : Nat} : seqOf (setPhys s p x) i = seqOf s i := rfl
@[simp] theorem setPhys_reelUnit {i j : Nat} : reelUnit (setPhys s p x) i j = reelUnit s i j := rfl
@[simp] theorem setPhys_linkOf {i : Nat} : linkOf (setPhys s p x) i = linkOf s i := rfl
@[simp] theorem setPhys_portOf {i : Nat} : portOf (setPhys s p x) i = portOf s i := rfl
@[simp] theorem setPhys_fnOf {i : Nat} : fnOf (setPhys s p x) i = fnOf s i := rfl
@[simp] theorem setPhys_queueOf {i j : Nat} : queueOf (setPhys s p x) i j = queueOf s i j := rfl
@[simp] theorem setPhys_tableOf {i : Nat} : tableOf (setPhys s p x) i = tableOf s i := rfl
@[simp] theorem setPhys_destOf {i : Resource} : destOf (setPhys s p x) i = destOf s i := rfl
@[simp] theorem setPhys_ledgerOf {i : AdmPoint} {j : Resource} : ledgerOf (setPhys s p x) i j = ledgerOf s i j := rfl
@[simp] theorem setPhys_threadOf {i : ThreadId} : threadOf (setPhys s p x) i = threadOf s i := rfl
@[simp] theorem setPhys_theThread {i : ThreadId} : theThread (setPhys s p x) i = theThread s i := rfl
@[simp] theorem setPhys_groupOf {i : ThreadId} : groupOf (setPhys s p x) i = groupOf s i := rfl
@[simp] theorem setPhys_vectorOf {i : ThreadId} : vectorOf (setPhys s p x) i = vectorOf s i := rfl
@[simp] theorem setPhys_rawReg {i : Nat} : rawReg (setPhys s p x) i = rawReg s i := rfl
@[simp] theorem setPhys_rawField {i j k : Nat} : rawField (setPhys s p x) i j k = rawField s i j k := rfl
@[simp] theorem setPhys_findRequest {i : Nat} : findRequest (setPhys s p x) i = findRequest s i := rfl
@[simp] theorem setPhys_findOp {i : Nat} : findOp (setPhys s p x) i = findOp s i := rfl
@[simp] theorem setPhys_findCmd {i : Nat} : findCmd (setPhys s p x) i = findCmd s i := rfl
@[simp] theorem setPhys_findTransfer {i : XferUse} : findTransfer (setPhys s p x) i = findTransfer s i := rfl
@[simp] theorem setPhys_now : now (setPhys s p x) = now s := rfl
@[simp] theorem setPhys_memKey {i : Nat} : memKey (setPhys s p x) i = memKey s i := rfl
@[simp] theorem setPhys_fnPort {i : Nat} : fnPort (setPhys s p x) i = fnPort s i := rfl

end setPhys

/-! ### modPhys -/

section modPhys

variable {s : State} {p : Nat} {f : PhysRegion → PhysRegion}

@[simp] theorem modPhys_pending : (modPhys s p f).pending = s.pending := rfl
@[simp] theorem modPhys_part : (modPhys s p f).part = s.part := rfl
@[simp] theorem modPhys_clock : (modPhys s p f).clock = s.clock := rfl
@[simp] theorem modPhys_mem : (modPhys s p f).mem = s.mem := rfl
@[simp] theorem modPhys_pages : (modPhys s p f).pages = s.pages := rfl
@[simp] theorem modPhys_retiredGranules : (modPhys s p f).retiredGranules = s.retiredGranules := rfl
@[simp] theorem modPhys_granuleErrors : (modPhys s p f).granuleErrors = s.granuleErrors := rfl
@[simp] theorem modPhys_regs : (modPhys s p f).regs = s.regs := rfl
@[simp] theorem modPhys_contexts : (modPhys s p f).contexts = s.contexts := rfl
@[simp] theorem modPhys_threads : (modPhys s p f).threads = s.threads := rfl
@[simp] theorem modPhys_groups : (modPhys s p f).groups = s.groups := rfl
@[simp] theorem modPhys_vectors : (modPhys s p f).vectors = s.vectors := rfl
@[simp] theorem modPhys_requests : (modPhys s p f).requests = s.requests := rfl
@[simp] theorem modPhys_nextReq : (modPhys s p f).nextReq = s.nextReq := rfl
@[simp] theorem modPhys_dests : (modPhys s p f).dests = s.dests := rfl
@[simp] theorem modPhys_ledgers : (modPhys s p f).ledgers = s.ledgers := rfl
@[simp] theorem modPhys_wakes : (modPhys s p f).wakes = s.wakes := rfl
@[simp] theorem modPhys_activity : (modPhys s p f).activity = s.activity := rfl
@[simp] theorem modPhys_transfers : (modPhys s p f).transfers = s.transfers := rfl
@[simp] theorem modPhys_nextXfer : (modPhys s p f).nextXfer = s.nextXfer := rfl
@[simp] theorem modPhys_ops : (modPhys s p f).ops = s.ops := rfl
@[simp] theorem modPhys_nextOp : (modPhys s p f).nextOp = s.nextOp := rfl
@[simp] theorem modPhys_logs : (modPhys s p f).logs = s.logs := rfl
@[simp] theorem modPhys_tables : (modPhys s p f).tables = s.tables := rfl
@[simp] theorem modPhys_keptPins : (modPhys s p f).keptPins = s.keptPins := rfl
@[simp] theorem modPhys_links : (modPhys s p f).links = s.links := rfl
@[simp] theorem modPhys_ports : (modPhys s p f).ports = s.ports := rfl
@[simp] theorem modPhys_fns : (modPhys s p f).fns = s.fns := rfl
@[simp] theorem modPhys_cfgs : (modPhys s p f).cfgs = s.cfgs := rfl
@[simp] theorem modPhys_cmds : (modPhys s p f).cmds = s.cmds := rfl
@[simp] theorem modPhys_nextCmd : (modPhys s p f).nextCmd = s.nextCmd := rfl
@[simp] theorem modPhys_records : (modPhys s p f).records = s.records := rfl
@[simp] theorem modPhys_allocs : (modPhys s p f).allocs = s.allocs := rfl
@[simp] theorem modPhys_nextHandle : (modPhys s p f).nextHandle = s.nextHandle := rfl
@[simp] theorem modPhys_loans : (modPhys s p f).loans = s.loans := rfl
@[simp] theorem modPhys_later : (modPhys s p f).later = s.later := rfl
@[simp] theorem modPhys_votes : (modPhys s p f).votes = s.votes := rfl
@[simp] theorem modPhys_keels : (modPhys s p f).keels = s.keels := rfl
@[simp] theorem modPhys_hold : (modPhys s p f).hold = s.hold := rfl
@[simp] theorem modPhys_faultLog : (modPhys s p f).faultLog = s.faultLog := rfl
@[simp] theorem modPhys_logTotal : (modPhys s p f).logTotal = s.logTotal := rfl
@[simp] theorem modPhys_flash : (modPhys s p f).flash = s.flash := rfl
@[simp] theorem modPhys_life : (modPhys s p f).life = s.life := rfl
@[simp] theorem modPhys_power : (modPhys s p f).power = s.power := rfl
@[simp] theorem modPhys_board : (modPhys s p f).board = s.board := rfl
@[simp] theorem modPhys_out : (modPhys s p f).out = s.out := rfl
@[simp] theorem modPhys_lowered : (modPhys s p f).lowered = s.lowered := rfl
@[simp] theorem modPhys_objects : (modPhys s p f).objects = s.objects := rfl
@[simp] theorem modPhys_checkpoints : (modPhys s p f).checkpoints = s.checkpoints := rfl
@[simp] theorem modPhys_cmdTurn : (modPhys s p f).cmdTurn = s.cmdTurn := rfl
@[simp] theorem modPhys_addendum : (modPhys s p f).addendum = s.addendum := rfl
@[simp] theorem modPhys_loadBank : (modPhys s p f).loadBank = s.loadBank := rfl
@[simp] theorem modPhys_notice : (modPhys s p f).notice = s.notice := rfl
@[simp] theorem modPhys_lowerRev : (modPhys s p f).lowerRev = s.lowerRev := rfl
@[simp] theorem modPhys_lastEvent : (modPhys s p f).lastEvent = s.lastEvent := rfl
@[simp] theorem modPhys_w1cAt : (modPhys s p f).w1cAt = s.w1cAt := rfl
@[simp] theorem modPhys_freeCounter : (modPhys s p f).freeCounter = s.freeCounter := rfl
@[simp] theorem modPhys_ctxOf {i : Nat} : ctxOf (modPhys s p f) i = ctxOf s i := rfl
@[simp] theorem modPhys_regionOf {i : Nat} : regionOf (modPhys s p f) i = regionOf s i := rfl
@[simp] theorem modPhys_seqOf {i : Nat} : seqOf (modPhys s p f) i = seqOf s i := rfl
@[simp] theorem modPhys_reelUnit {i j : Nat} : reelUnit (modPhys s p f) i j = reelUnit s i j := rfl
@[simp] theorem modPhys_linkOf {i : Nat} : linkOf (modPhys s p f) i = linkOf s i := rfl
@[simp] theorem modPhys_portOf {i : Nat} : portOf (modPhys s p f) i = portOf s i := rfl
@[simp] theorem modPhys_fnOf {i : Nat} : fnOf (modPhys s p f) i = fnOf s i := rfl
@[simp] theorem modPhys_queueOf {i j : Nat} : queueOf (modPhys s p f) i j = queueOf s i j := rfl
@[simp] theorem modPhys_tableOf {i : Nat} : tableOf (modPhys s p f) i = tableOf s i := rfl
@[simp] theorem modPhys_destOf {i : Resource} : destOf (modPhys s p f) i = destOf s i := rfl
@[simp] theorem modPhys_ledgerOf {i : AdmPoint} {j : Resource} : ledgerOf (modPhys s p f) i j = ledgerOf s i j := rfl
@[simp] theorem modPhys_threadOf {i : ThreadId} : threadOf (modPhys s p f) i = threadOf s i := rfl
@[simp] theorem modPhys_theThread {i : ThreadId} : theThread (modPhys s p f) i = theThread s i := rfl
@[simp] theorem modPhys_groupOf {i : ThreadId} : groupOf (modPhys s p f) i = groupOf s i := rfl
@[simp] theorem modPhys_vectorOf {i : ThreadId} : vectorOf (modPhys s p f) i = vectorOf s i := rfl
@[simp] theorem modPhys_rawReg {i : Nat} : rawReg (modPhys s p f) i = rawReg s i := rfl
@[simp] theorem modPhys_rawField {i j k : Nat} : rawField (modPhys s p f) i j k = rawField s i j k := rfl
@[simp] theorem modPhys_findRequest {i : Nat} : findRequest (modPhys s p f) i = findRequest s i := rfl
@[simp] theorem modPhys_findOp {i : Nat} : findOp (modPhys s p f) i = findOp s i := rfl
@[simp] theorem modPhys_findCmd {i : Nat} : findCmd (modPhys s p f) i = findCmd s i := rfl
@[simp] theorem modPhys_findTransfer {i : XferUse} : findTransfer (modPhys s p f) i = findTransfer s i := rfl
@[simp] theorem modPhys_now : now (modPhys s p f) = now s := rfl
@[simp] theorem modPhys_memKey {i : Nat} : memKey (modPhys s p f) i = memKey s i := rfl
@[simp] theorem modPhys_fnPort {i : Nat} : fnPort (modPhys s p f) i = fnPort s i := rfl

end modPhys

/-! ### modLink -/

section modLink

variable {s : State} {p : Nat} {f : Link → Link}

@[simp] theorem modLink_pending : (modLink s p f).pending = s.pending := rfl
@[simp] theorem modLink_part : (modLink s p f).part = s.part := rfl
@[simp] theorem modLink_clock : (modLink s p f).clock = s.clock := rfl
@[simp] theorem modLink_mem : (modLink s p f).mem = s.mem := rfl
@[simp] theorem modLink_pages : (modLink s p f).pages = s.pages := rfl
@[simp] theorem modLink_retiredGranules : (modLink s p f).retiredGranules = s.retiredGranules := rfl
@[simp] theorem modLink_granuleErrors : (modLink s p f).granuleErrors = s.granuleErrors := rfl
@[simp] theorem modLink_regs : (modLink s p f).regs = s.regs := rfl
@[simp] theorem modLink_contexts : (modLink s p f).contexts = s.contexts := rfl
@[simp] theorem modLink_threads : (modLink s p f).threads = s.threads := rfl
@[simp] theorem modLink_groups : (modLink s p f).groups = s.groups := rfl
@[simp] theorem modLink_vectors : (modLink s p f).vectors = s.vectors := rfl
@[simp] theorem modLink_requests : (modLink s p f).requests = s.requests := rfl
@[simp] theorem modLink_nextReq : (modLink s p f).nextReq = s.nextReq := rfl
@[simp] theorem modLink_dests : (modLink s p f).dests = s.dests := rfl
@[simp] theorem modLink_ledgers : (modLink s p f).ledgers = s.ledgers := rfl
@[simp] theorem modLink_wakes : (modLink s p f).wakes = s.wakes := rfl
@[simp] theorem modLink_activity : (modLink s p f).activity = s.activity := rfl
@[simp] theorem modLink_transfers : (modLink s p f).transfers = s.transfers := rfl
@[simp] theorem modLink_nextXfer : (modLink s p f).nextXfer = s.nextXfer := rfl
@[simp] theorem modLink_ops : (modLink s p f).ops = s.ops := rfl
@[simp] theorem modLink_nextOp : (modLink s p f).nextOp = s.nextOp := rfl
@[simp] theorem modLink_logs : (modLink s p f).logs = s.logs := rfl
@[simp] theorem modLink_phys : (modLink s p f).phys = s.phys := rfl
@[simp] theorem modLink_tables : (modLink s p f).tables = s.tables := rfl
@[simp] theorem modLink_keptPins : (modLink s p f).keptPins = s.keptPins := rfl
@[simp] theorem modLink_ports : (modLink s p f).ports = s.ports := rfl
@[simp] theorem modLink_fns : (modLink s p f).fns = s.fns := rfl
@[simp] theorem modLink_cfgs : (modLink s p f).cfgs = s.cfgs := rfl
@[simp] theorem modLink_cmds : (modLink s p f).cmds = s.cmds := rfl
@[simp] theorem modLink_nextCmd : (modLink s p f).nextCmd = s.nextCmd := rfl
@[simp] theorem modLink_records : (modLink s p f).records = s.records := rfl
@[simp] theorem modLink_allocs : (modLink s p f).allocs = s.allocs := rfl
@[simp] theorem modLink_nextHandle : (modLink s p f).nextHandle = s.nextHandle := rfl
@[simp] theorem modLink_loans : (modLink s p f).loans = s.loans := rfl
@[simp] theorem modLink_later : (modLink s p f).later = s.later := rfl
@[simp] theorem modLink_votes : (modLink s p f).votes = s.votes := rfl
@[simp] theorem modLink_keels : (modLink s p f).keels = s.keels := rfl
@[simp] theorem modLink_hold : (modLink s p f).hold = s.hold := rfl
@[simp] theorem modLink_faultLog : (modLink s p f).faultLog = s.faultLog := rfl
@[simp] theorem modLink_logTotal : (modLink s p f).logTotal = s.logTotal := rfl
@[simp] theorem modLink_flash : (modLink s p f).flash = s.flash := rfl
@[simp] theorem modLink_life : (modLink s p f).life = s.life := rfl
@[simp] theorem modLink_power : (modLink s p f).power = s.power := rfl
@[simp] theorem modLink_board : (modLink s p f).board = s.board := rfl
@[simp] theorem modLink_out : (modLink s p f).out = s.out := rfl
@[simp] theorem modLink_lowered : (modLink s p f).lowered = s.lowered := rfl
@[simp] theorem modLink_objects : (modLink s p f).objects = s.objects := rfl
@[simp] theorem modLink_checkpoints : (modLink s p f).checkpoints = s.checkpoints := rfl
@[simp] theorem modLink_cmdTurn : (modLink s p f).cmdTurn = s.cmdTurn := rfl
@[simp] theorem modLink_addendum : (modLink s p f).addendum = s.addendum := rfl
@[simp] theorem modLink_loadBank : (modLink s p f).loadBank = s.loadBank := rfl
@[simp] theorem modLink_notice : (modLink s p f).notice = s.notice := rfl
@[simp] theorem modLink_lowerRev : (modLink s p f).lowerRev = s.lowerRev := rfl
@[simp] theorem modLink_lastEvent : (modLink s p f).lastEvent = s.lastEvent := rfl
@[simp] theorem modLink_w1cAt : (modLink s p f).w1cAt = s.w1cAt := rfl
@[simp] theorem modLink_freeCounter : (modLink s p f).freeCounter = s.freeCounter := rfl
@[simp] theorem modLink_ctxOf {i : Nat} : ctxOf (modLink s p f) i = ctxOf s i := rfl
@[simp] theorem modLink_regionOf {i : Nat} : regionOf (modLink s p f) i = regionOf s i := rfl
@[simp] theorem modLink_seqOf {i : Nat} : seqOf (modLink s p f) i = seqOf s i := rfl
@[simp] theorem modLink_reelUnit {i j : Nat} : reelUnit (modLink s p f) i j = reelUnit s i j := rfl
@[simp] theorem modLink_physOf {i : Nat} : physOf (modLink s p f) i = physOf s i := rfl
@[simp] theorem modLink_physOfLogical {i : Nat} : physOfLogical (modLink s p f) i = physOfLogical s i := rfl
@[simp] theorem modLink_portOf {i : Nat} : portOf (modLink s p f) i = portOf s i := rfl
@[simp] theorem modLink_fnOf {i : Nat} : fnOf (modLink s p f) i = fnOf s i := rfl
@[simp] theorem modLink_queueOf {i j : Nat} : queueOf (modLink s p f) i j = queueOf s i j := rfl
@[simp] theorem modLink_tableOf {i : Nat} : tableOf (modLink s p f) i = tableOf s i := rfl
@[simp] theorem modLink_destOf {i : Resource} : destOf (modLink s p f) i = destOf s i := rfl
@[simp] theorem modLink_ledgerOf {i : AdmPoint} {j : Resource} : ledgerOf (modLink s p f) i j = ledgerOf s i j := rfl
@[simp] theorem modLink_threadOf {i : ThreadId} : threadOf (modLink s p f) i = threadOf s i := rfl
@[simp] theorem modLink_theThread {i : ThreadId} : theThread (modLink s p f) i = theThread s i := rfl
@[simp] theorem modLink_groupOf {i : ThreadId} : groupOf (modLink s p f) i = groupOf s i := rfl
@[simp] theorem modLink_vectorOf {i : ThreadId} : vectorOf (modLink s p f) i = vectorOf s i := rfl
@[simp] theorem modLink_rawReg {i : Nat} : rawReg (modLink s p f) i = rawReg s i := rfl
@[simp] theorem modLink_rawField {i j k : Nat} : rawField (modLink s p f) i j k = rawField s i j k := rfl
@[simp] theorem modLink_findRequest {i : Nat} : findRequest (modLink s p f) i = findRequest s i := rfl
@[simp] theorem modLink_findOp {i : Nat} : findOp (modLink s p f) i = findOp s i := rfl
@[simp] theorem modLink_findCmd {i : Nat} : findCmd (modLink s p f) i = findCmd s i := rfl
@[simp] theorem modLink_findTransfer {i : XferUse} : findTransfer (modLink s p f) i = findTransfer s i := rfl
@[simp] theorem modLink_now : now (modLink s p f) = now s := rfl
@[simp] theorem modLink_memKey {i : Nat} : memKey (modLink s p f) i = memKey s i := rfl
@[simp] theorem modLink_fnPort {i : Nat} : fnPort (modLink s p f) i = fnPort s i := rfl

end modLink

/-! ### modPort -/

section modPort

variable {s : State} {p : Nat} {f : PciePort → PciePort}

@[simp] theorem modPort_pending : (modPort s p f).pending = s.pending := rfl
@[simp] theorem modPort_part : (modPort s p f).part = s.part := rfl
@[simp] theorem modPort_clock : (modPort s p f).clock = s.clock := rfl
@[simp] theorem modPort_mem : (modPort s p f).mem = s.mem := rfl
@[simp] theorem modPort_pages : (modPort s p f).pages = s.pages := rfl
@[simp] theorem modPort_retiredGranules : (modPort s p f).retiredGranules = s.retiredGranules := rfl
@[simp] theorem modPort_granuleErrors : (modPort s p f).granuleErrors = s.granuleErrors := rfl
@[simp] theorem modPort_regs : (modPort s p f).regs = s.regs := rfl
@[simp] theorem modPort_contexts : (modPort s p f).contexts = s.contexts := rfl
@[simp] theorem modPort_threads : (modPort s p f).threads = s.threads := rfl
@[simp] theorem modPort_groups : (modPort s p f).groups = s.groups := rfl
@[simp] theorem modPort_vectors : (modPort s p f).vectors = s.vectors := rfl
@[simp] theorem modPort_requests : (modPort s p f).requests = s.requests := rfl
@[simp] theorem modPort_nextReq : (modPort s p f).nextReq = s.nextReq := rfl
@[simp] theorem modPort_dests : (modPort s p f).dests = s.dests := rfl
@[simp] theorem modPort_ledgers : (modPort s p f).ledgers = s.ledgers := rfl
@[simp] theorem modPort_wakes : (modPort s p f).wakes = s.wakes := rfl
@[simp] theorem modPort_activity : (modPort s p f).activity = s.activity := rfl
@[simp] theorem modPort_transfers : (modPort s p f).transfers = s.transfers := rfl
@[simp] theorem modPort_nextXfer : (modPort s p f).nextXfer = s.nextXfer := rfl
@[simp] theorem modPort_ops : (modPort s p f).ops = s.ops := rfl
@[simp] theorem modPort_nextOp : (modPort s p f).nextOp = s.nextOp := rfl
@[simp] theorem modPort_logs : (modPort s p f).logs = s.logs := rfl
@[simp] theorem modPort_phys : (modPort s p f).phys = s.phys := rfl
@[simp] theorem modPort_tables : (modPort s p f).tables = s.tables := rfl
@[simp] theorem modPort_keptPins : (modPort s p f).keptPins = s.keptPins := rfl
@[simp] theorem modPort_links : (modPort s p f).links = s.links := rfl
@[simp] theorem modPort_fns : (modPort s p f).fns = s.fns := rfl
@[simp] theorem modPort_cfgs : (modPort s p f).cfgs = s.cfgs := rfl
@[simp] theorem modPort_cmds : (modPort s p f).cmds = s.cmds := rfl
@[simp] theorem modPort_nextCmd : (modPort s p f).nextCmd = s.nextCmd := rfl
@[simp] theorem modPort_records : (modPort s p f).records = s.records := rfl
@[simp] theorem modPort_allocs : (modPort s p f).allocs = s.allocs := rfl
@[simp] theorem modPort_nextHandle : (modPort s p f).nextHandle = s.nextHandle := rfl
@[simp] theorem modPort_loans : (modPort s p f).loans = s.loans := rfl
@[simp] theorem modPort_later : (modPort s p f).later = s.later := rfl
@[simp] theorem modPort_votes : (modPort s p f).votes = s.votes := rfl
@[simp] theorem modPort_keels : (modPort s p f).keels = s.keels := rfl
@[simp] theorem modPort_hold : (modPort s p f).hold = s.hold := rfl
@[simp] theorem modPort_faultLog : (modPort s p f).faultLog = s.faultLog := rfl
@[simp] theorem modPort_logTotal : (modPort s p f).logTotal = s.logTotal := rfl
@[simp] theorem modPort_flash : (modPort s p f).flash = s.flash := rfl
@[simp] theorem modPort_life : (modPort s p f).life = s.life := rfl
@[simp] theorem modPort_power : (modPort s p f).power = s.power := rfl
@[simp] theorem modPort_board : (modPort s p f).board = s.board := rfl
@[simp] theorem modPort_out : (modPort s p f).out = s.out := rfl
@[simp] theorem modPort_lowered : (modPort s p f).lowered = s.lowered := rfl
@[simp] theorem modPort_objects : (modPort s p f).objects = s.objects := rfl
@[simp] theorem modPort_checkpoints : (modPort s p f).checkpoints = s.checkpoints := rfl
@[simp] theorem modPort_cmdTurn : (modPort s p f).cmdTurn = s.cmdTurn := rfl
@[simp] theorem modPort_addendum : (modPort s p f).addendum = s.addendum := rfl
@[simp] theorem modPort_loadBank : (modPort s p f).loadBank = s.loadBank := rfl
@[simp] theorem modPort_notice : (modPort s p f).notice = s.notice := rfl
@[simp] theorem modPort_lowerRev : (modPort s p f).lowerRev = s.lowerRev := rfl
@[simp] theorem modPort_lastEvent : (modPort s p f).lastEvent = s.lastEvent := rfl
@[simp] theorem modPort_w1cAt : (modPort s p f).w1cAt = s.w1cAt := rfl
@[simp] theorem modPort_freeCounter : (modPort s p f).freeCounter = s.freeCounter := rfl
@[simp] theorem modPort_ctxOf {i : Nat} : ctxOf (modPort s p f) i = ctxOf s i := rfl
@[simp] theorem modPort_regionOf {i : Nat} : regionOf (modPort s p f) i = regionOf s i := rfl
@[simp] theorem modPort_seqOf {i : Nat} : seqOf (modPort s p f) i = seqOf s i := rfl
@[simp] theorem modPort_reelUnit {i j : Nat} : reelUnit (modPort s p f) i j = reelUnit s i j := rfl
@[simp] theorem modPort_physOf {i : Nat} : physOf (modPort s p f) i = physOf s i := rfl
@[simp] theorem modPort_physOfLogical {i : Nat} : physOfLogical (modPort s p f) i = physOfLogical s i := rfl
@[simp] theorem modPort_linkOf {i : Nat} : linkOf (modPort s p f) i = linkOf s i := rfl
@[simp] theorem modPort_fnOf {i : Nat} : fnOf (modPort s p f) i = fnOf s i := rfl
@[simp] theorem modPort_queueOf {i j : Nat} : queueOf (modPort s p f) i j = queueOf s i j := rfl
@[simp] theorem modPort_tableOf {i : Nat} : tableOf (modPort s p f) i = tableOf s i := rfl
@[simp] theorem modPort_destOf {i : Resource} : destOf (modPort s p f) i = destOf s i := rfl
@[simp] theorem modPort_ledgerOf {i : AdmPoint} {j : Resource} : ledgerOf (modPort s p f) i j = ledgerOf s i j := rfl
@[simp] theorem modPort_threadOf {i : ThreadId} : threadOf (modPort s p f) i = threadOf s i := rfl
@[simp] theorem modPort_theThread {i : ThreadId} : theThread (modPort s p f) i = theThread s i := rfl
@[simp] theorem modPort_groupOf {i : ThreadId} : groupOf (modPort s p f) i = groupOf s i := rfl
@[simp] theorem modPort_vectorOf {i : ThreadId} : vectorOf (modPort s p f) i = vectorOf s i := rfl
@[simp] theorem modPort_rawReg {i : Nat} : rawReg (modPort s p f) i = rawReg s i := rfl
@[simp] theorem modPort_rawField {i j k : Nat} : rawField (modPort s p f) i j k = rawField s i j k := rfl
@[simp] theorem modPort_findRequest {i : Nat} : findRequest (modPort s p f) i = findRequest s i := rfl
@[simp] theorem modPort_findOp {i : Nat} : findOp (modPort s p f) i = findOp s i := rfl
@[simp] theorem modPort_findCmd {i : Nat} : findCmd (modPort s p f) i = findCmd s i := rfl
@[simp] theorem modPort_findTransfer {i : XferUse} : findTransfer (modPort s p f) i = findTransfer s i := rfl
@[simp] theorem modPort_now : now (modPort s p f) = now s := rfl
@[simp] theorem modPort_memKey {i : Nat} : memKey (modPort s p f) i = memKey s i := rfl
@[simp] theorem modPort_fnPort {i : Nat} : fnPort (modPort s p f) i = fnPort s i := rfl

end modPort

/-! ### modFn -/

section modFn

variable {s : State} {n : Nat} {f : Function → Function}

@[simp] theorem modFn_pending : (modFn s n f).pending = s.pending := rfl
@[simp] theorem modFn_part : (modFn s n f).part = s.part := rfl
@[simp] theorem modFn_clock : (modFn s n f).clock = s.clock := rfl
@[simp] theorem modFn_mem : (modFn s n f).mem = s.mem := rfl
@[simp] theorem modFn_pages : (modFn s n f).pages = s.pages := rfl
@[simp] theorem modFn_retiredGranules : (modFn s n f).retiredGranules = s.retiredGranules := rfl
@[simp] theorem modFn_granuleErrors : (modFn s n f).granuleErrors = s.granuleErrors := rfl
@[simp] theorem modFn_regs : (modFn s n f).regs = s.regs := rfl
@[simp] theorem modFn_contexts : (modFn s n f).contexts = s.contexts := rfl
@[simp] theorem modFn_threads : (modFn s n f).threads = s.threads := rfl
@[simp] theorem modFn_groups : (modFn s n f).groups = s.groups := rfl
@[simp] theorem modFn_vectors : (modFn s n f).vectors = s.vectors := rfl
@[simp] theorem modFn_requests : (modFn s n f).requests = s.requests := rfl
@[simp] theorem modFn_nextReq : (modFn s n f).nextReq = s.nextReq := rfl
@[simp] theorem modFn_dests : (modFn s n f).dests = s.dests := rfl
@[simp] theorem modFn_ledgers : (modFn s n f).ledgers = s.ledgers := rfl
@[simp] theorem modFn_wakes : (modFn s n f).wakes = s.wakes := rfl
@[simp] theorem modFn_activity : (modFn s n f).activity = s.activity := rfl
@[simp] theorem modFn_transfers : (modFn s n f).transfers = s.transfers := rfl
@[simp] theorem modFn_nextXfer : (modFn s n f).nextXfer = s.nextXfer := rfl
@[simp] theorem modFn_ops : (modFn s n f).ops = s.ops := rfl
@[simp] theorem modFn_nextOp : (modFn s n f).nextOp = s.nextOp := rfl
@[simp] theorem modFn_logs : (modFn s n f).logs = s.logs := rfl
@[simp] theorem modFn_phys : (modFn s n f).phys = s.phys := rfl
@[simp] theorem modFn_tables : (modFn s n f).tables = s.tables := rfl
@[simp] theorem modFn_keptPins : (modFn s n f).keptPins = s.keptPins := rfl
@[simp] theorem modFn_links : (modFn s n f).links = s.links := rfl
@[simp] theorem modFn_ports : (modFn s n f).ports = s.ports := rfl
@[simp] theorem modFn_cfgs : (modFn s n f).cfgs = s.cfgs := rfl
@[simp] theorem modFn_cmds : (modFn s n f).cmds = s.cmds := rfl
@[simp] theorem modFn_nextCmd : (modFn s n f).nextCmd = s.nextCmd := rfl
@[simp] theorem modFn_records : (modFn s n f).records = s.records := rfl
@[simp] theorem modFn_allocs : (modFn s n f).allocs = s.allocs := rfl
@[simp] theorem modFn_nextHandle : (modFn s n f).nextHandle = s.nextHandle := rfl
@[simp] theorem modFn_loans : (modFn s n f).loans = s.loans := rfl
@[simp] theorem modFn_later : (modFn s n f).later = s.later := rfl
@[simp] theorem modFn_votes : (modFn s n f).votes = s.votes := rfl
@[simp] theorem modFn_keels : (modFn s n f).keels = s.keels := rfl
@[simp] theorem modFn_hold : (modFn s n f).hold = s.hold := rfl
@[simp] theorem modFn_faultLog : (modFn s n f).faultLog = s.faultLog := rfl
@[simp] theorem modFn_logTotal : (modFn s n f).logTotal = s.logTotal := rfl
@[simp] theorem modFn_flash : (modFn s n f).flash = s.flash := rfl
@[simp] theorem modFn_life : (modFn s n f).life = s.life := rfl
@[simp] theorem modFn_power : (modFn s n f).power = s.power := rfl
@[simp] theorem modFn_board : (modFn s n f).board = s.board := rfl
@[simp] theorem modFn_out : (modFn s n f).out = s.out := rfl
@[simp] theorem modFn_lowered : (modFn s n f).lowered = s.lowered := rfl
@[simp] theorem modFn_objects : (modFn s n f).objects = s.objects := rfl
@[simp] theorem modFn_checkpoints : (modFn s n f).checkpoints = s.checkpoints := rfl
@[simp] theorem modFn_cmdTurn : (modFn s n f).cmdTurn = s.cmdTurn := rfl
@[simp] theorem modFn_addendum : (modFn s n f).addendum = s.addendum := rfl
@[simp] theorem modFn_loadBank : (modFn s n f).loadBank = s.loadBank := rfl
@[simp] theorem modFn_notice : (modFn s n f).notice = s.notice := rfl
@[simp] theorem modFn_lowerRev : (modFn s n f).lowerRev = s.lowerRev := rfl
@[simp] theorem modFn_lastEvent : (modFn s n f).lastEvent = s.lastEvent := rfl
@[simp] theorem modFn_w1cAt : (modFn s n f).w1cAt = s.w1cAt := rfl
@[simp] theorem modFn_freeCounter : (modFn s n f).freeCounter = s.freeCounter := rfl
@[simp] theorem modFn_ctxOf {i : Nat} : ctxOf (modFn s n f) i = ctxOf s i := rfl
@[simp] theorem modFn_regionOf {i : Nat} : regionOf (modFn s n f) i = regionOf s i := rfl
@[simp] theorem modFn_seqOf {i : Nat} : seqOf (modFn s n f) i = seqOf s i := rfl
@[simp] theorem modFn_reelUnit {i j : Nat} : reelUnit (modFn s n f) i j = reelUnit s i j := rfl
@[simp] theorem modFn_physOf {i : Nat} : physOf (modFn s n f) i = physOf s i := rfl
@[simp] theorem modFn_physOfLogical {i : Nat} : physOfLogical (modFn s n f) i = physOfLogical s i := rfl
@[simp] theorem modFn_linkOf {i : Nat} : linkOf (modFn s n f) i = linkOf s i := rfl
@[simp] theorem modFn_portOf {i : Nat} : portOf (modFn s n f) i = portOf s i := rfl
@[simp] theorem modFn_tableOf {i : Nat} : tableOf (modFn s n f) i = tableOf s i := rfl
@[simp] theorem modFn_destOf {i : Resource} : destOf (modFn s n f) i = destOf s i := rfl
@[simp] theorem modFn_ledgerOf {i : AdmPoint} {j : Resource} : ledgerOf (modFn s n f) i j = ledgerOf s i j := rfl
@[simp] theorem modFn_threadOf {i : ThreadId} : threadOf (modFn s n f) i = threadOf s i := rfl
@[simp] theorem modFn_theThread {i : ThreadId} : theThread (modFn s n f) i = theThread s i := rfl
@[simp] theorem modFn_groupOf {i : ThreadId} : groupOf (modFn s n f) i = groupOf s i := rfl
@[simp] theorem modFn_vectorOf {i : ThreadId} : vectorOf (modFn s n f) i = vectorOf s i := rfl
@[simp] theorem modFn_rawReg {i : Nat} : rawReg (modFn s n f) i = rawReg s i := rfl
@[simp] theorem modFn_rawField {i j k : Nat} : rawField (modFn s n f) i j k = rawField s i j k := rfl
@[simp] theorem modFn_findRequest {i : Nat} : findRequest (modFn s n f) i = findRequest s i := rfl
@[simp] theorem modFn_findOp {i : Nat} : findOp (modFn s n f) i = findOp s i := rfl
@[simp] theorem modFn_findCmd {i : Nat} : findCmd (modFn s n f) i = findCmd s i := rfl
@[simp] theorem modFn_findTransfer {i : XferUse} : findTransfer (modFn s n f) i = findTransfer s i := rfl
@[simp] theorem modFn_now : now (modFn s n f) = now s := rfl
@[simp] theorem modFn_memKey {i : Nat} : memKey (modFn s n f) i = memKey s i := rfl
@[simp] theorem modFn_fnPort {i : Nat} : fnPort (modFn s n f) i = fnPort s i := rfl

end modFn

/-! ### modQueue -/

section modQueue

variable {s : State} {n q : Nat} {f : Queue → Queue}

@[simp] theorem modQueue_pending : (modQueue s n q f).pending = s.pending := rfl
@[simp] theorem modQueue_part : (modQueue s n q f).part = s.part := rfl
@[simp] theorem modQueue_clock : (modQueue s n q f).clock = s.clock := rfl
@[simp] theorem modQueue_mem : (modQueue s n q f).mem = s.mem := rfl
@[simp] theorem modQueue_pages : (modQueue s n q f).pages = s.pages := rfl
@[simp] theorem modQueue_retiredGranules : (modQueue s n q f).retiredGranules = s.retiredGranules := rfl
@[simp] theorem modQueue_granuleErrors : (modQueue s n q f).granuleErrors = s.granuleErrors := rfl
@[simp] theorem modQueue_regs : (modQueue s n q f).regs = s.regs := rfl
@[simp] theorem modQueue_contexts : (modQueue s n q f).contexts = s.contexts := rfl
@[simp] theorem modQueue_threads : (modQueue s n q f).threads = s.threads := rfl
@[simp] theorem modQueue_groups : (modQueue s n q f).groups = s.groups := rfl
@[simp] theorem modQueue_vectors : (modQueue s n q f).vectors = s.vectors := rfl
@[simp] theorem modQueue_requests : (modQueue s n q f).requests = s.requests := rfl
@[simp] theorem modQueue_nextReq : (modQueue s n q f).nextReq = s.nextReq := rfl
@[simp] theorem modQueue_dests : (modQueue s n q f).dests = s.dests := rfl
@[simp] theorem modQueue_ledgers : (modQueue s n q f).ledgers = s.ledgers := rfl
@[simp] theorem modQueue_wakes : (modQueue s n q f).wakes = s.wakes := rfl
@[simp] theorem modQueue_activity : (modQueue s n q f).activity = s.activity := rfl
@[simp] theorem modQueue_transfers : (modQueue s n q f).transfers = s.transfers := rfl
@[simp] theorem modQueue_nextXfer : (modQueue s n q f).nextXfer = s.nextXfer := rfl
@[simp] theorem modQueue_ops : (modQueue s n q f).ops = s.ops := rfl
@[simp] theorem modQueue_nextOp : (modQueue s n q f).nextOp = s.nextOp := rfl
@[simp] theorem modQueue_logs : (modQueue s n q f).logs = s.logs := rfl
@[simp] theorem modQueue_phys : (modQueue s n q f).phys = s.phys := rfl
@[simp] theorem modQueue_tables : (modQueue s n q f).tables = s.tables := rfl
@[simp] theorem modQueue_keptPins : (modQueue s n q f).keptPins = s.keptPins := rfl
@[simp] theorem modQueue_links : (modQueue s n q f).links = s.links := rfl
@[simp] theorem modQueue_ports : (modQueue s n q f).ports = s.ports := rfl
@[simp] theorem modQueue_cfgs : (modQueue s n q f).cfgs = s.cfgs := rfl
@[simp] theorem modQueue_cmds : (modQueue s n q f).cmds = s.cmds := rfl
@[simp] theorem modQueue_nextCmd : (modQueue s n q f).nextCmd = s.nextCmd := rfl
@[simp] theorem modQueue_records : (modQueue s n q f).records = s.records := rfl
@[simp] theorem modQueue_allocs : (modQueue s n q f).allocs = s.allocs := rfl
@[simp] theorem modQueue_nextHandle : (modQueue s n q f).nextHandle = s.nextHandle := rfl
@[simp] theorem modQueue_loans : (modQueue s n q f).loans = s.loans := rfl
@[simp] theorem modQueue_later : (modQueue s n q f).later = s.later := rfl
@[simp] theorem modQueue_votes : (modQueue s n q f).votes = s.votes := rfl
@[simp] theorem modQueue_keels : (modQueue s n q f).keels = s.keels := rfl
@[simp] theorem modQueue_hold : (modQueue s n q f).hold = s.hold := rfl
@[simp] theorem modQueue_faultLog : (modQueue s n q f).faultLog = s.faultLog := rfl
@[simp] theorem modQueue_logTotal : (modQueue s n q f).logTotal = s.logTotal := rfl
@[simp] theorem modQueue_flash : (modQueue s n q f).flash = s.flash := rfl
@[simp] theorem modQueue_life : (modQueue s n q f).life = s.life := rfl
@[simp] theorem modQueue_power : (modQueue s n q f).power = s.power := rfl
@[simp] theorem modQueue_board : (modQueue s n q f).board = s.board := rfl
@[simp] theorem modQueue_out : (modQueue s n q f).out = s.out := rfl
@[simp] theorem modQueue_lowered : (modQueue s n q f).lowered = s.lowered := rfl
@[simp] theorem modQueue_objects : (modQueue s n q f).objects = s.objects := rfl
@[simp] theorem modQueue_checkpoints : (modQueue s n q f).checkpoints = s.checkpoints := rfl
@[simp] theorem modQueue_cmdTurn : (modQueue s n q f).cmdTurn = s.cmdTurn := rfl
@[simp] theorem modQueue_addendum : (modQueue s n q f).addendum = s.addendum := rfl
@[simp] theorem modQueue_loadBank : (modQueue s n q f).loadBank = s.loadBank := rfl
@[simp] theorem modQueue_notice : (modQueue s n q f).notice = s.notice := rfl
@[simp] theorem modQueue_lowerRev : (modQueue s n q f).lowerRev = s.lowerRev := rfl
@[simp] theorem modQueue_lastEvent : (modQueue s n q f).lastEvent = s.lastEvent := rfl
@[simp] theorem modQueue_w1cAt : (modQueue s n q f).w1cAt = s.w1cAt := rfl
@[simp] theorem modQueue_freeCounter : (modQueue s n q f).freeCounter = s.freeCounter := rfl
@[simp] theorem modQueue_ctxOf {i : Nat} : ctxOf (modQueue s n q f) i = ctxOf s i := rfl
@[simp] theorem modQueue_regionOf {i : Nat} : regionOf (modQueue s n q f) i = regionOf s i := rfl
@[simp] theorem modQueue_seqOf {i : Nat} : seqOf (modQueue s n q f) i = seqOf s i := rfl
@[simp] theorem modQueue_reelUnit {i j : Nat} : reelUnit (modQueue s n q f) i j = reelUnit s i j := rfl
@[simp] theorem modQueue_physOf {i : Nat} : physOf (modQueue s n q f) i = physOf s i := rfl
@[simp] theorem modQueue_physOfLogical {i : Nat} : physOfLogical (modQueue s n q f) i = physOfLogical s i := rfl
@[simp] theorem modQueue_linkOf {i : Nat} : linkOf (modQueue s n q f) i = linkOf s i := rfl
@[simp] theorem modQueue_portOf {i : Nat} : portOf (modQueue s n q f) i = portOf s i := rfl
@[simp] theorem modQueue_tableOf {i : Nat} : tableOf (modQueue s n q f) i = tableOf s i := rfl
@[simp] theorem modQueue_destOf {i : Resource} : destOf (modQueue s n q f) i = destOf s i := rfl
@[simp] theorem modQueue_ledgerOf {i : AdmPoint} {j : Resource} : ledgerOf (modQueue s n q f) i j = ledgerOf s i j := rfl
@[simp] theorem modQueue_threadOf {i : ThreadId} : threadOf (modQueue s n q f) i = threadOf s i := rfl
@[simp] theorem modQueue_theThread {i : ThreadId} : theThread (modQueue s n q f) i = theThread s i := rfl
@[simp] theorem modQueue_groupOf {i : ThreadId} : groupOf (modQueue s n q f) i = groupOf s i := rfl
@[simp] theorem modQueue_vectorOf {i : ThreadId} : vectorOf (modQueue s n q f) i = vectorOf s i := rfl
@[simp] theorem modQueue_rawReg {i : Nat} : rawReg (modQueue s n q f) i = rawReg s i := rfl
@[simp] theorem modQueue_rawField {i j k : Nat} : rawField (modQueue s n q f) i j k = rawField s i j k := rfl
@[simp] theorem modQueue_findRequest {i : Nat} : findRequest (modQueue s n q f) i = findRequest s i := rfl
@[simp] theorem modQueue_findOp {i : Nat} : findOp (modQueue s n q f) i = findOp s i := rfl
@[simp] theorem modQueue_findCmd {i : Nat} : findCmd (modQueue s n q f) i = findCmd s i := rfl
@[simp] theorem modQueue_findTransfer {i : XferUse} : findTransfer (modQueue s n q f) i = findTransfer s i := rfl
@[simp] theorem modQueue_now : now (modQueue s n q f) = now s := rfl
@[simp] theorem modQueue_memKey {i : Nat} : memKey (modQueue s n q f) i = memKey s i := rfl
@[simp] theorem modQueue_fnPort {i : Nat} : fnPort (modQueue s n q f) i = fnPort s i := rfl

end modQueue

/-! ### modTable -/

section modTable

variable {s : State} {t : Nat} {f : TableState → TableState}

@[simp] theorem modTable_pending : (modTable s t f).pending = s.pending := rfl
@[simp] theorem modTable_part : (modTable s t f).part = s.part := rfl
@[simp] theorem modTable_clock : (modTable s t f).clock = s.clock := rfl
@[simp] theorem modTable_mem : (modTable s t f).mem = s.mem := rfl
@[simp] theorem modTable_pages : (modTable s t f).pages = s.pages := rfl
@[simp] theorem modTable_retiredGranules : (modTable s t f).retiredGranules = s.retiredGranules := rfl
@[simp] theorem modTable_granuleErrors : (modTable s t f).granuleErrors = s.granuleErrors := rfl
@[simp] theorem modTable_regs : (modTable s t f).regs = s.regs := rfl
@[simp] theorem modTable_contexts : (modTable s t f).contexts = s.contexts := rfl
@[simp] theorem modTable_threads : (modTable s t f).threads = s.threads := rfl
@[simp] theorem modTable_groups : (modTable s t f).groups = s.groups := rfl
@[simp] theorem modTable_vectors : (modTable s t f).vectors = s.vectors := rfl
@[simp] theorem modTable_requests : (modTable s t f).requests = s.requests := rfl
@[simp] theorem modTable_nextReq : (modTable s t f).nextReq = s.nextReq := rfl
@[simp] theorem modTable_dests : (modTable s t f).dests = s.dests := rfl
@[simp] theorem modTable_ledgers : (modTable s t f).ledgers = s.ledgers := rfl
@[simp] theorem modTable_wakes : (modTable s t f).wakes = s.wakes := rfl
@[simp] theorem modTable_activity : (modTable s t f).activity = s.activity := rfl
@[simp] theorem modTable_transfers : (modTable s t f).transfers = s.transfers := rfl
@[simp] theorem modTable_nextXfer : (modTable s t f).nextXfer = s.nextXfer := rfl
@[simp] theorem modTable_ops : (modTable s t f).ops = s.ops := rfl
@[simp] theorem modTable_nextOp : (modTable s t f).nextOp = s.nextOp := rfl
@[simp] theorem modTable_logs : (modTable s t f).logs = s.logs := rfl
@[simp] theorem modTable_phys : (modTable s t f).phys = s.phys := rfl
@[simp] theorem modTable_keptPins : (modTable s t f).keptPins = s.keptPins := rfl
@[simp] theorem modTable_links : (modTable s t f).links = s.links := rfl
@[simp] theorem modTable_ports : (modTable s t f).ports = s.ports := rfl
@[simp] theorem modTable_fns : (modTable s t f).fns = s.fns := rfl
@[simp] theorem modTable_cfgs : (modTable s t f).cfgs = s.cfgs := rfl
@[simp] theorem modTable_cmds : (modTable s t f).cmds = s.cmds := rfl
@[simp] theorem modTable_nextCmd : (modTable s t f).nextCmd = s.nextCmd := rfl
@[simp] theorem modTable_records : (modTable s t f).records = s.records := rfl
@[simp] theorem modTable_allocs : (modTable s t f).allocs = s.allocs := rfl
@[simp] theorem modTable_nextHandle : (modTable s t f).nextHandle = s.nextHandle := rfl
@[simp] theorem modTable_loans : (modTable s t f).loans = s.loans := rfl
@[simp] theorem modTable_later : (modTable s t f).later = s.later := rfl
@[simp] theorem modTable_votes : (modTable s t f).votes = s.votes := rfl
@[simp] theorem modTable_keels : (modTable s t f).keels = s.keels := rfl
@[simp] theorem modTable_hold : (modTable s t f).hold = s.hold := rfl
@[simp] theorem modTable_faultLog : (modTable s t f).faultLog = s.faultLog := rfl
@[simp] theorem modTable_logTotal : (modTable s t f).logTotal = s.logTotal := rfl
@[simp] theorem modTable_flash : (modTable s t f).flash = s.flash := rfl
@[simp] theorem modTable_life : (modTable s t f).life = s.life := rfl
@[simp] theorem modTable_power : (modTable s t f).power = s.power := rfl
@[simp] theorem modTable_board : (modTable s t f).board = s.board := rfl
@[simp] theorem modTable_out : (modTable s t f).out = s.out := rfl
@[simp] theorem modTable_lowered : (modTable s t f).lowered = s.lowered := rfl
@[simp] theorem modTable_objects : (modTable s t f).objects = s.objects := rfl
@[simp] theorem modTable_checkpoints : (modTable s t f).checkpoints = s.checkpoints := rfl
@[simp] theorem modTable_cmdTurn : (modTable s t f).cmdTurn = s.cmdTurn := rfl
@[simp] theorem modTable_addendum : (modTable s t f).addendum = s.addendum := rfl
@[simp] theorem modTable_loadBank : (modTable s t f).loadBank = s.loadBank := rfl
@[simp] theorem modTable_notice : (modTable s t f).notice = s.notice := rfl
@[simp] theorem modTable_lowerRev : (modTable s t f).lowerRev = s.lowerRev := rfl
@[simp] theorem modTable_lastEvent : (modTable s t f).lastEvent = s.lastEvent := rfl
@[simp] theorem modTable_w1cAt : (modTable s t f).w1cAt = s.w1cAt := rfl
@[simp] theorem modTable_freeCounter : (modTable s t f).freeCounter = s.freeCounter := rfl
@[simp] theorem modTable_ctxOf {i : Nat} : ctxOf (modTable s t f) i = ctxOf s i := rfl
@[simp] theorem modTable_regionOf {i : Nat} : regionOf (modTable s t f) i = regionOf s i := rfl
@[simp] theorem modTable_seqOf {i : Nat} : seqOf (modTable s t f) i = seqOf s i := rfl
@[simp] theorem modTable_reelUnit {i j : Nat} : reelUnit (modTable s t f) i j = reelUnit s i j := rfl
@[simp] theorem modTable_physOf {i : Nat} : physOf (modTable s t f) i = physOf s i := rfl
@[simp] theorem modTable_physOfLogical {i : Nat} : physOfLogical (modTable s t f) i = physOfLogical s i := rfl
@[simp] theorem modTable_linkOf {i : Nat} : linkOf (modTable s t f) i = linkOf s i := rfl
@[simp] theorem modTable_portOf {i : Nat} : portOf (modTable s t f) i = portOf s i := rfl
@[simp] theorem modTable_fnOf {i : Nat} : fnOf (modTable s t f) i = fnOf s i := rfl
@[simp] theorem modTable_queueOf {i j : Nat} : queueOf (modTable s t f) i j = queueOf s i j := rfl
@[simp] theorem modTable_destOf {i : Resource} : destOf (modTable s t f) i = destOf s i := rfl
@[simp] theorem modTable_ledgerOf {i : AdmPoint} {j : Resource} : ledgerOf (modTable s t f) i j = ledgerOf s i j := rfl
@[simp] theorem modTable_threadOf {i : ThreadId} : threadOf (modTable s t f) i = threadOf s i := rfl
@[simp] theorem modTable_theThread {i : ThreadId} : theThread (modTable s t f) i = theThread s i := rfl
@[simp] theorem modTable_groupOf {i : ThreadId} : groupOf (modTable s t f) i = groupOf s i := rfl
@[simp] theorem modTable_vectorOf {i : ThreadId} : vectorOf (modTable s t f) i = vectorOf s i := rfl
@[simp] theorem modTable_rawReg {i : Nat} : rawReg (modTable s t f) i = rawReg s i := rfl
@[simp] theorem modTable_rawField {i j k : Nat} : rawField (modTable s t f) i j k = rawField s i j k := rfl
@[simp] theorem modTable_findRequest {i : Nat} : findRequest (modTable s t f) i = findRequest s i := rfl
@[simp] theorem modTable_findOp {i : Nat} : findOp (modTable s t f) i = findOp s i := rfl
@[simp] theorem modTable_findCmd {i : Nat} : findCmd (modTable s t f) i = findCmd s i := rfl
@[simp] theorem modTable_findTransfer {i : XferUse} : findTransfer (modTable s t f) i = findTransfer s i := rfl
@[simp] theorem modTable_now : now (modTable s t f) = now s := rfl
@[simp] theorem modTable_memKey {i : Nat} : memKey (modTable s t f) i = memKey s i := rfl
@[simp] theorem modTable_fnPort {i : Nat} : fnPort (modTable s t f) i = fnPort s i := rfl

end modTable

/-! ### setThread -/

section setThread

variable {s : State} {t : ThreadId} {x : Thread}

@[simp] theorem setThread_pending : (setThread s t x).pending = s.pending := rfl
@[simp] theorem setThread_part : (setThread s t x).part = s.part := rfl
@[simp] theorem setThread_clock : (setThread s t x).clock = s.clock := rfl
@[simp] theorem setThread_mem : (setThread s t x).mem = s.mem := rfl
@[simp] theorem setThread_pages : (setThread s t x).pages = s.pages := rfl
@[simp] theorem setThread_retiredGranules : (setThread s t x).retiredGranules = s.retiredGranules := rfl
@[simp] theorem setThread_granuleErrors : (setThread s t x).granuleErrors = s.granuleErrors := rfl
@[simp] theorem setThread_regs : (setThread s t x).regs = s.regs := rfl
@[simp] theorem setThread_contexts : (setThread s t x).contexts = s.contexts := rfl
@[simp] theorem setThread_groups : (setThread s t x).groups = s.groups := rfl
@[simp] theorem setThread_vectors : (setThread s t x).vectors = s.vectors := rfl
@[simp] theorem setThread_requests : (setThread s t x).requests = s.requests := rfl
@[simp] theorem setThread_nextReq : (setThread s t x).nextReq = s.nextReq := rfl
@[simp] theorem setThread_dests : (setThread s t x).dests = s.dests := rfl
@[simp] theorem setThread_ledgers : (setThread s t x).ledgers = s.ledgers := rfl
@[simp] theorem setThread_wakes : (setThread s t x).wakes = s.wakes := rfl
@[simp] theorem setThread_activity : (setThread s t x).activity = s.activity := rfl
@[simp] theorem setThread_transfers : (setThread s t x).transfers = s.transfers := rfl
@[simp] theorem setThread_nextXfer : (setThread s t x).nextXfer = s.nextXfer := rfl
@[simp] theorem setThread_ops : (setThread s t x).ops = s.ops := rfl
@[simp] theorem setThread_nextOp : (setThread s t x).nextOp = s.nextOp := rfl
@[simp] theorem setThread_logs : (setThread s t x).logs = s.logs := rfl
@[simp] theorem setThread_phys : (setThread s t x).phys = s.phys := rfl
@[simp] theorem setThread_tables : (setThread s t x).tables = s.tables := rfl
@[simp] theorem setThread_keptPins : (setThread s t x).keptPins = s.keptPins := rfl
@[simp] theorem setThread_links : (setThread s t x).links = s.links := rfl
@[simp] theorem setThread_ports : (setThread s t x).ports = s.ports := rfl
@[simp] theorem setThread_fns : (setThread s t x).fns = s.fns := rfl
@[simp] theorem setThread_cfgs : (setThread s t x).cfgs = s.cfgs := rfl
@[simp] theorem setThread_cmds : (setThread s t x).cmds = s.cmds := rfl
@[simp] theorem setThread_nextCmd : (setThread s t x).nextCmd = s.nextCmd := rfl
@[simp] theorem setThread_records : (setThread s t x).records = s.records := rfl
@[simp] theorem setThread_allocs : (setThread s t x).allocs = s.allocs := rfl
@[simp] theorem setThread_nextHandle : (setThread s t x).nextHandle = s.nextHandle := rfl
@[simp] theorem setThread_loans : (setThread s t x).loans = s.loans := rfl
@[simp] theorem setThread_later : (setThread s t x).later = s.later := rfl
@[simp] theorem setThread_votes : (setThread s t x).votes = s.votes := rfl
@[simp] theorem setThread_keels : (setThread s t x).keels = s.keels := rfl
@[simp] theorem setThread_hold : (setThread s t x).hold = s.hold := rfl
@[simp] theorem setThread_faultLog : (setThread s t x).faultLog = s.faultLog := rfl
@[simp] theorem setThread_logTotal : (setThread s t x).logTotal = s.logTotal := rfl
@[simp] theorem setThread_flash : (setThread s t x).flash = s.flash := rfl
@[simp] theorem setThread_life : (setThread s t x).life = s.life := rfl
@[simp] theorem setThread_power : (setThread s t x).power = s.power := rfl
@[simp] theorem setThread_board : (setThread s t x).board = s.board := rfl
@[simp] theorem setThread_out : (setThread s t x).out = s.out := rfl
@[simp] theorem setThread_lowered : (setThread s t x).lowered = s.lowered := rfl
@[simp] theorem setThread_objects : (setThread s t x).objects = s.objects := rfl
@[simp] theorem setThread_checkpoints : (setThread s t x).checkpoints = s.checkpoints := rfl
@[simp] theorem setThread_cmdTurn : (setThread s t x).cmdTurn = s.cmdTurn := rfl
@[simp] theorem setThread_addendum : (setThread s t x).addendum = s.addendum := rfl
@[simp] theorem setThread_loadBank : (setThread s t x).loadBank = s.loadBank := rfl
@[simp] theorem setThread_notice : (setThread s t x).notice = s.notice := rfl
@[simp] theorem setThread_lowerRev : (setThread s t x).lowerRev = s.lowerRev := rfl
@[simp] theorem setThread_lastEvent : (setThread s t x).lastEvent = s.lastEvent := rfl
@[simp] theorem setThread_w1cAt : (setThread s t x).w1cAt = s.w1cAt := rfl
@[simp] theorem setThread_freeCounter : (setThread s t x).freeCounter = s.freeCounter := rfl
@[simp] theorem setThread_ctxOf {i : Nat} : ctxOf (setThread s t x) i = ctxOf s i := rfl
@[simp] theorem setThread_regionOf {i : Nat} : regionOf (setThread s t x) i = regionOf s i := rfl
@[simp] theorem setThread_seqOf {i : Nat} : seqOf (setThread s t x) i = seqOf s i := rfl
@[simp] theorem setThread_reelUnit {i j : Nat} : reelUnit (setThread s t x) i j = reelUnit s i j := rfl
@[simp] theorem setThread_physOf {i : Nat} : physOf (setThread s t x) i = physOf s i := rfl
@[simp] theorem setThread_physOfLogical {i : Nat} : physOfLogical (setThread s t x) i = physOfLogical s i := rfl
@[simp] theorem setThread_linkOf {i : Nat} : linkOf (setThread s t x) i = linkOf s i := rfl
@[simp] theorem setThread_portOf {i : Nat} : portOf (setThread s t x) i = portOf s i := rfl
@[simp] theorem setThread_fnOf {i : Nat} : fnOf (setThread s t x) i = fnOf s i := rfl
@[simp] theorem setThread_queueOf {i j : Nat} : queueOf (setThread s t x) i j = queueOf s i j := rfl
@[simp] theorem setThread_tableOf {i : Nat} : tableOf (setThread s t x) i = tableOf s i := rfl
@[simp] theorem setThread_destOf {i : Resource} : destOf (setThread s t x) i = destOf s i := rfl
@[simp] theorem setThread_ledgerOf {i : AdmPoint} {j : Resource} : ledgerOf (setThread s t x) i j = ledgerOf s i j := rfl
@[simp] theorem setThread_groupOf {i : ThreadId} : groupOf (setThread s t x) i = groupOf s i := rfl
@[simp] theorem setThread_vectorOf {i : ThreadId} : vectorOf (setThread s t x) i = vectorOf s i := rfl
@[simp] theorem setThread_rawReg {i : Nat} : rawReg (setThread s t x) i = rawReg s i := rfl
@[simp] theorem setThread_rawField {i j k : Nat} : rawField (setThread s t x) i j k = rawField s i j k := rfl
@[simp] theorem setThread_findRequest {i : Nat} : findRequest (setThread s t x) i = findRequest s i := rfl
@[simp] theorem setThread_findOp {i : Nat} : findOp (setThread s t x) i = findOp s i := rfl
@[simp] theorem setThread_findCmd {i : Nat} : findCmd (setThread s t x) i = findCmd s i := rfl
@[simp] theorem setThread_findTransfer {i : XferUse} : findTransfer (setThread s t x) i = findTransfer s i := rfl
@[simp] theorem setThread_now : now (setThread s t x) = now s := rfl
@[simp] theorem setThread_memKey {i : Nat} : memKey (setThread s t x) i = memKey s i := rfl
@[simp] theorem setThread_fnPort {i : Nat} : fnPort (setThread s t x) i = fnPort s i := rfl

end setThread

/-! ### setGroup -/

section setGroup

variable {s : State} {t : ThreadId} {x : Group}

@[simp] theorem setGroup_pending : (setGroup s t x).pending = s.pending := rfl
@[simp] theorem setGroup_part : (setGroup s t x).part = s.part := rfl
@[simp] theorem setGroup_clock : (setGroup s t x).clock = s.clock := rfl
@[simp] theorem setGroup_mem : (setGroup s t x).mem = s.mem := rfl
@[simp] theorem setGroup_pages : (setGroup s t x).pages = s.pages := rfl
@[simp] theorem setGroup_retiredGranules : (setGroup s t x).retiredGranules = s.retiredGranules := rfl
@[simp] theorem setGroup_granuleErrors : (setGroup s t x).granuleErrors = s.granuleErrors := rfl
@[simp] theorem setGroup_regs : (setGroup s t x).regs = s.regs := rfl
@[simp] theorem setGroup_contexts : (setGroup s t x).contexts = s.contexts := rfl
@[simp] theorem setGroup_threads : (setGroup s t x).threads = s.threads := rfl
@[simp] theorem setGroup_vectors : (setGroup s t x).vectors = s.vectors := rfl
@[simp] theorem setGroup_requests : (setGroup s t x).requests = s.requests := rfl
@[simp] theorem setGroup_nextReq : (setGroup s t x).nextReq = s.nextReq := rfl
@[simp] theorem setGroup_dests : (setGroup s t x).dests = s.dests := rfl
@[simp] theorem setGroup_ledgers : (setGroup s t x).ledgers = s.ledgers := rfl
@[simp] theorem setGroup_wakes : (setGroup s t x).wakes = s.wakes := rfl
@[simp] theorem setGroup_activity : (setGroup s t x).activity = s.activity := rfl
@[simp] theorem setGroup_transfers : (setGroup s t x).transfers = s.transfers := rfl
@[simp] theorem setGroup_nextXfer : (setGroup s t x).nextXfer = s.nextXfer := rfl
@[simp] theorem setGroup_ops : (setGroup s t x).ops = s.ops := rfl
@[simp] theorem setGroup_nextOp : (setGroup s t x).nextOp = s.nextOp := rfl
@[simp] theorem setGroup_logs : (setGroup s t x).logs = s.logs := rfl
@[simp] theorem setGroup_phys : (setGroup s t x).phys = s.phys := rfl
@[simp] theorem setGroup_tables : (setGroup s t x).tables = s.tables := rfl
@[simp] theorem setGroup_keptPins : (setGroup s t x).keptPins = s.keptPins := rfl
@[simp] theorem setGroup_links : (setGroup s t x).links = s.links := rfl
@[simp] theorem setGroup_ports : (setGroup s t x).ports = s.ports := rfl
@[simp] theorem setGroup_fns : (setGroup s t x).fns = s.fns := rfl
@[simp] theorem setGroup_cfgs : (setGroup s t x).cfgs = s.cfgs := rfl
@[simp] theorem setGroup_cmds : (setGroup s t x).cmds = s.cmds := rfl
@[simp] theorem setGroup_nextCmd : (setGroup s t x).nextCmd = s.nextCmd := rfl
@[simp] theorem setGroup_records : (setGroup s t x).records = s.records := rfl
@[simp] theorem setGroup_allocs : (setGroup s t x).allocs = s.allocs := rfl
@[simp] theorem setGroup_nextHandle : (setGroup s t x).nextHandle = s.nextHandle := rfl
@[simp] theorem setGroup_loans : (setGroup s t x).loans = s.loans := rfl
@[simp] theorem setGroup_later : (setGroup s t x).later = s.later := rfl
@[simp] theorem setGroup_votes : (setGroup s t x).votes = s.votes := rfl
@[simp] theorem setGroup_keels : (setGroup s t x).keels = s.keels := rfl
@[simp] theorem setGroup_hold : (setGroup s t x).hold = s.hold := rfl
@[simp] theorem setGroup_faultLog : (setGroup s t x).faultLog = s.faultLog := rfl
@[simp] theorem setGroup_logTotal : (setGroup s t x).logTotal = s.logTotal := rfl
@[simp] theorem setGroup_flash : (setGroup s t x).flash = s.flash := rfl
@[simp] theorem setGroup_life : (setGroup s t x).life = s.life := rfl
@[simp] theorem setGroup_power : (setGroup s t x).power = s.power := rfl
@[simp] theorem setGroup_board : (setGroup s t x).board = s.board := rfl
@[simp] theorem setGroup_out : (setGroup s t x).out = s.out := rfl
@[simp] theorem setGroup_lowered : (setGroup s t x).lowered = s.lowered := rfl
@[simp] theorem setGroup_objects : (setGroup s t x).objects = s.objects := rfl
@[simp] theorem setGroup_checkpoints : (setGroup s t x).checkpoints = s.checkpoints := rfl
@[simp] theorem setGroup_cmdTurn : (setGroup s t x).cmdTurn = s.cmdTurn := rfl
@[simp] theorem setGroup_addendum : (setGroup s t x).addendum = s.addendum := rfl
@[simp] theorem setGroup_loadBank : (setGroup s t x).loadBank = s.loadBank := rfl
@[simp] theorem setGroup_notice : (setGroup s t x).notice = s.notice := rfl
@[simp] theorem setGroup_lowerRev : (setGroup s t x).lowerRev = s.lowerRev := rfl
@[simp] theorem setGroup_lastEvent : (setGroup s t x).lastEvent = s.lastEvent := rfl
@[simp] theorem setGroup_w1cAt : (setGroup s t x).w1cAt = s.w1cAt := rfl
@[simp] theorem setGroup_freeCounter : (setGroup s t x).freeCounter = s.freeCounter := rfl
@[simp] theorem setGroup_ctxOf {i : Nat} : ctxOf (setGroup s t x) i = ctxOf s i := rfl
@[simp] theorem setGroup_regionOf {i : Nat} : regionOf (setGroup s t x) i = regionOf s i := rfl
@[simp] theorem setGroup_seqOf {i : Nat} : seqOf (setGroup s t x) i = seqOf s i := rfl
@[simp] theorem setGroup_reelUnit {i j : Nat} : reelUnit (setGroup s t x) i j = reelUnit s i j := rfl
@[simp] theorem setGroup_physOf {i : Nat} : physOf (setGroup s t x) i = physOf s i := rfl
@[simp] theorem setGroup_physOfLogical {i : Nat} : physOfLogical (setGroup s t x) i = physOfLogical s i := rfl
@[simp] theorem setGroup_linkOf {i : Nat} : linkOf (setGroup s t x) i = linkOf s i := rfl
@[simp] theorem setGroup_portOf {i : Nat} : portOf (setGroup s t x) i = portOf s i := rfl
@[simp] theorem setGroup_fnOf {i : Nat} : fnOf (setGroup s t x) i = fnOf s i := rfl
@[simp] theorem setGroup_queueOf {i j : Nat} : queueOf (setGroup s t x) i j = queueOf s i j := rfl
@[simp] theorem setGroup_tableOf {i : Nat} : tableOf (setGroup s t x) i = tableOf s i := rfl
@[simp] theorem setGroup_destOf {i : Resource} : destOf (setGroup s t x) i = destOf s i := rfl
@[simp] theorem setGroup_ledgerOf {i : AdmPoint} {j : Resource} : ledgerOf (setGroup s t x) i j = ledgerOf s i j := rfl
@[simp] theorem setGroup_threadOf {i : ThreadId} : threadOf (setGroup s t x) i = threadOf s i := rfl
@[simp] theorem setGroup_theThread {i : ThreadId} : theThread (setGroup s t x) i = theThread s i := rfl
@[simp] theorem setGroup_vectorOf {i : ThreadId} : vectorOf (setGroup s t x) i = vectorOf s i := rfl
@[simp] theorem setGroup_rawReg {i : Nat} : rawReg (setGroup s t x) i = rawReg s i := rfl
@[simp] theorem setGroup_rawField {i j k : Nat} : rawField (setGroup s t x) i j k = rawField s i j k := rfl
@[simp] theorem setGroup_findRequest {i : Nat} : findRequest (setGroup s t x) i = findRequest s i := rfl
@[simp] theorem setGroup_findOp {i : Nat} : findOp (setGroup s t x) i = findOp s i := rfl
@[simp] theorem setGroup_findCmd {i : Nat} : findCmd (setGroup s t x) i = findCmd s i := rfl
@[simp] theorem setGroup_findTransfer {i : XferUse} : findTransfer (setGroup s t x) i = findTransfer s i := rfl
@[simp] theorem setGroup_now : now (setGroup s t x) = now s := rfl
@[simp] theorem setGroup_memKey {i : Nat} : memKey (setGroup s t x) i = memKey s i := rfl
@[simp] theorem setGroup_fnPort {i : Nat} : fnPort (setGroup s t x) i = fnPort s i := rfl

end setGroup

/-! ### setVector -/

section setVector

variable {s : State} {t : ThreadId} {x : VectorCtx}

@[simp] theorem setVector_pending : (setVector s t x).pending = s.pending := rfl
@[simp] theorem setVector_part : (setVector s t x).part = s.part := rfl
@[simp] theorem setVector_clock : (setVector s t x).clock = s.clock := rfl
@[simp] theorem setVector_mem : (setVector s t x).mem = s.mem := rfl
@[simp] theorem setVector_pages : (setVector s t x).pages = s.pages := rfl
@[simp] theorem setVector_retiredGranules : (setVector s t x).retiredGranules = s.retiredGranules := rfl
@[simp] theorem setVector_granuleErrors : (setVector s t x).granuleErrors = s.granuleErrors := rfl
@[simp] theorem setVector_regs : (setVector s t x).regs = s.regs := rfl
@[simp] theorem setVector_contexts : (setVector s t x).contexts = s.contexts := rfl
@[simp] theorem setVector_threads : (setVector s t x).threads = s.threads := rfl
@[simp] theorem setVector_groups : (setVector s t x).groups = s.groups := rfl
@[simp] theorem setVector_requests : (setVector s t x).requests = s.requests := rfl
@[simp] theorem setVector_nextReq : (setVector s t x).nextReq = s.nextReq := rfl
@[simp] theorem setVector_dests : (setVector s t x).dests = s.dests := rfl
@[simp] theorem setVector_ledgers : (setVector s t x).ledgers = s.ledgers := rfl
@[simp] theorem setVector_wakes : (setVector s t x).wakes = s.wakes := rfl
@[simp] theorem setVector_activity : (setVector s t x).activity = s.activity := rfl
@[simp] theorem setVector_transfers : (setVector s t x).transfers = s.transfers := rfl
@[simp] theorem setVector_nextXfer : (setVector s t x).nextXfer = s.nextXfer := rfl
@[simp] theorem setVector_ops : (setVector s t x).ops = s.ops := rfl
@[simp] theorem setVector_nextOp : (setVector s t x).nextOp = s.nextOp := rfl
@[simp] theorem setVector_logs : (setVector s t x).logs = s.logs := rfl
@[simp] theorem setVector_phys : (setVector s t x).phys = s.phys := rfl
@[simp] theorem setVector_tables : (setVector s t x).tables = s.tables := rfl
@[simp] theorem setVector_keptPins : (setVector s t x).keptPins = s.keptPins := rfl
@[simp] theorem setVector_links : (setVector s t x).links = s.links := rfl
@[simp] theorem setVector_ports : (setVector s t x).ports = s.ports := rfl
@[simp] theorem setVector_fns : (setVector s t x).fns = s.fns := rfl
@[simp] theorem setVector_cfgs : (setVector s t x).cfgs = s.cfgs := rfl
@[simp] theorem setVector_cmds : (setVector s t x).cmds = s.cmds := rfl
@[simp] theorem setVector_nextCmd : (setVector s t x).nextCmd = s.nextCmd := rfl
@[simp] theorem setVector_records : (setVector s t x).records = s.records := rfl
@[simp] theorem setVector_allocs : (setVector s t x).allocs = s.allocs := rfl
@[simp] theorem setVector_nextHandle : (setVector s t x).nextHandle = s.nextHandle := rfl
@[simp] theorem setVector_loans : (setVector s t x).loans = s.loans := rfl
@[simp] theorem setVector_later : (setVector s t x).later = s.later := rfl
@[simp] theorem setVector_votes : (setVector s t x).votes = s.votes := rfl
@[simp] theorem setVector_keels : (setVector s t x).keels = s.keels := rfl
@[simp] theorem setVector_hold : (setVector s t x).hold = s.hold := rfl
@[simp] theorem setVector_faultLog : (setVector s t x).faultLog = s.faultLog := rfl
@[simp] theorem setVector_logTotal : (setVector s t x).logTotal = s.logTotal := rfl
@[simp] theorem setVector_flash : (setVector s t x).flash = s.flash := rfl
@[simp] theorem setVector_life : (setVector s t x).life = s.life := rfl
@[simp] theorem setVector_power : (setVector s t x).power = s.power := rfl
@[simp] theorem setVector_board : (setVector s t x).board = s.board := rfl
@[simp] theorem setVector_out : (setVector s t x).out = s.out := rfl
@[simp] theorem setVector_lowered : (setVector s t x).lowered = s.lowered := rfl
@[simp] theorem setVector_objects : (setVector s t x).objects = s.objects := rfl
@[simp] theorem setVector_checkpoints : (setVector s t x).checkpoints = s.checkpoints := rfl
@[simp] theorem setVector_cmdTurn : (setVector s t x).cmdTurn = s.cmdTurn := rfl
@[simp] theorem setVector_addendum : (setVector s t x).addendum = s.addendum := rfl
@[simp] theorem setVector_loadBank : (setVector s t x).loadBank = s.loadBank := rfl
@[simp] theorem setVector_notice : (setVector s t x).notice = s.notice := rfl
@[simp] theorem setVector_lowerRev : (setVector s t x).lowerRev = s.lowerRev := rfl
@[simp] theorem setVector_lastEvent : (setVector s t x).lastEvent = s.lastEvent := rfl
@[simp] theorem setVector_w1cAt : (setVector s t x).w1cAt = s.w1cAt := rfl
@[simp] theorem setVector_freeCounter : (setVector s t x).freeCounter = s.freeCounter := rfl
@[simp] theorem setVector_ctxOf {i : Nat} : ctxOf (setVector s t x) i = ctxOf s i := rfl
@[simp] theorem setVector_regionOf {i : Nat} : regionOf (setVector s t x) i = regionOf s i := rfl
@[simp] theorem setVector_seqOf {i : Nat} : seqOf (setVector s t x) i = seqOf s i := rfl
@[simp] theorem setVector_reelUnit {i j : Nat} : reelUnit (setVector s t x) i j = reelUnit s i j := rfl
@[simp] theorem setVector_physOf {i : Nat} : physOf (setVector s t x) i = physOf s i := rfl
@[simp] theorem setVector_physOfLogical {i : Nat} : physOfLogical (setVector s t x) i = physOfLogical s i := rfl
@[simp] theorem setVector_linkOf {i : Nat} : linkOf (setVector s t x) i = linkOf s i := rfl
@[simp] theorem setVector_portOf {i : Nat} : portOf (setVector s t x) i = portOf s i := rfl
@[simp] theorem setVector_fnOf {i : Nat} : fnOf (setVector s t x) i = fnOf s i := rfl
@[simp] theorem setVector_queueOf {i j : Nat} : queueOf (setVector s t x) i j = queueOf s i j := rfl
@[simp] theorem setVector_tableOf {i : Nat} : tableOf (setVector s t x) i = tableOf s i := rfl
@[simp] theorem setVector_destOf {i : Resource} : destOf (setVector s t x) i = destOf s i := rfl
@[simp] theorem setVector_ledgerOf {i : AdmPoint} {j : Resource} : ledgerOf (setVector s t x) i j = ledgerOf s i j := rfl
@[simp] theorem setVector_threadOf {i : ThreadId} : threadOf (setVector s t x) i = threadOf s i := rfl
@[simp] theorem setVector_theThread {i : ThreadId} : theThread (setVector s t x) i = theThread s i := rfl
@[simp] theorem setVector_groupOf {i : ThreadId} : groupOf (setVector s t x) i = groupOf s i := rfl
@[simp] theorem setVector_rawReg {i : Nat} : rawReg (setVector s t x) i = rawReg s i := rfl
@[simp] theorem setVector_rawField {i j k : Nat} : rawField (setVector s t x) i j k = rawField s i j k := rfl
@[simp] theorem setVector_findRequest {i : Nat} : findRequest (setVector s t x) i = findRequest s i := rfl
@[simp] theorem setVector_findOp {i : Nat} : findOp (setVector s t x) i = findOp s i := rfl
@[simp] theorem setVector_findCmd {i : Nat} : findCmd (setVector s t x) i = findCmd s i := rfl
@[simp] theorem setVector_findTransfer {i : XferUse} : findTransfer (setVector s t x) i = findTransfer s i := rfl
@[simp] theorem setVector_now : now (setVector s t x) = now s := rfl
@[simp] theorem setVector_memKey {i : Nat} : memKey (setVector s t x) i = memKey s i := rfl
@[simp] theorem setVector_fnPort {i : Nat} : fnPort (setVector s t x) i = fnPort s i := rfl

end setVector

/-! ### setRaw -/

section setRaw

variable {s : State} {o : Nat} {v : DWord}

@[simp] theorem setRaw_pending : (setRaw s o v).pending = s.pending := rfl
@[simp] theorem setRaw_part : (setRaw s o v).part = s.part := rfl
@[simp] theorem setRaw_clock : (setRaw s o v).clock = s.clock := rfl
@[simp] theorem setRaw_mem : (setRaw s o v).mem = s.mem := rfl
@[simp] theorem setRaw_pages : (setRaw s o v).pages = s.pages := rfl
@[simp] theorem setRaw_retiredGranules : (setRaw s o v).retiredGranules = s.retiredGranules := rfl
@[simp] theorem setRaw_granuleErrors : (setRaw s o v).granuleErrors = s.granuleErrors := rfl
@[simp] theorem setRaw_contexts : (setRaw s o v).contexts = s.contexts := rfl
@[simp] theorem setRaw_threads : (setRaw s o v).threads = s.threads := rfl
@[simp] theorem setRaw_groups : (setRaw s o v).groups = s.groups := rfl
@[simp] theorem setRaw_vectors : (setRaw s o v).vectors = s.vectors := rfl
@[simp] theorem setRaw_requests : (setRaw s o v).requests = s.requests := rfl
@[simp] theorem setRaw_nextReq : (setRaw s o v).nextReq = s.nextReq := rfl
@[simp] theorem setRaw_dests : (setRaw s o v).dests = s.dests := rfl
@[simp] theorem setRaw_ledgers : (setRaw s o v).ledgers = s.ledgers := rfl
@[simp] theorem setRaw_wakes : (setRaw s o v).wakes = s.wakes := rfl
@[simp] theorem setRaw_activity : (setRaw s o v).activity = s.activity := rfl
@[simp] theorem setRaw_transfers : (setRaw s o v).transfers = s.transfers := rfl
@[simp] theorem setRaw_nextXfer : (setRaw s o v).nextXfer = s.nextXfer := rfl
@[simp] theorem setRaw_ops : (setRaw s o v).ops = s.ops := rfl
@[simp] theorem setRaw_nextOp : (setRaw s o v).nextOp = s.nextOp := rfl
@[simp] theorem setRaw_logs : (setRaw s o v).logs = s.logs := rfl
@[simp] theorem setRaw_phys : (setRaw s o v).phys = s.phys := rfl
@[simp] theorem setRaw_tables : (setRaw s o v).tables = s.tables := rfl
@[simp] theorem setRaw_keptPins : (setRaw s o v).keptPins = s.keptPins := rfl
@[simp] theorem setRaw_links : (setRaw s o v).links = s.links := rfl
@[simp] theorem setRaw_ports : (setRaw s o v).ports = s.ports := rfl
@[simp] theorem setRaw_fns : (setRaw s o v).fns = s.fns := rfl
@[simp] theorem setRaw_cfgs : (setRaw s o v).cfgs = s.cfgs := rfl
@[simp] theorem setRaw_cmds : (setRaw s o v).cmds = s.cmds := rfl
@[simp] theorem setRaw_nextCmd : (setRaw s o v).nextCmd = s.nextCmd := rfl
@[simp] theorem setRaw_records : (setRaw s o v).records = s.records := rfl
@[simp] theorem setRaw_allocs : (setRaw s o v).allocs = s.allocs := rfl
@[simp] theorem setRaw_nextHandle : (setRaw s o v).nextHandle = s.nextHandle := rfl
@[simp] theorem setRaw_loans : (setRaw s o v).loans = s.loans := rfl
@[simp] theorem setRaw_later : (setRaw s o v).later = s.later := rfl
@[simp] theorem setRaw_votes : (setRaw s o v).votes = s.votes := rfl
@[simp] theorem setRaw_keels : (setRaw s o v).keels = s.keels := rfl
@[simp] theorem setRaw_hold : (setRaw s o v).hold = s.hold := rfl
@[simp] theorem setRaw_faultLog : (setRaw s o v).faultLog = s.faultLog := rfl
@[simp] theorem setRaw_logTotal : (setRaw s o v).logTotal = s.logTotal := rfl
@[simp] theorem setRaw_flash : (setRaw s o v).flash = s.flash := rfl
@[simp] theorem setRaw_life : (setRaw s o v).life = s.life := rfl
@[simp] theorem setRaw_power : (setRaw s o v).power = s.power := rfl
@[simp] theorem setRaw_board : (setRaw s o v).board = s.board := rfl
@[simp] theorem setRaw_out : (setRaw s o v).out = s.out := rfl
@[simp] theorem setRaw_lowered : (setRaw s o v).lowered = s.lowered := rfl
@[simp] theorem setRaw_objects : (setRaw s o v).objects = s.objects := rfl
@[simp] theorem setRaw_checkpoints : (setRaw s o v).checkpoints = s.checkpoints := rfl
@[simp] theorem setRaw_cmdTurn : (setRaw s o v).cmdTurn = s.cmdTurn := rfl
@[simp] theorem setRaw_addendum : (setRaw s o v).addendum = s.addendum := rfl
@[simp] theorem setRaw_loadBank : (setRaw s o v).loadBank = s.loadBank := rfl
@[simp] theorem setRaw_notice : (setRaw s o v).notice = s.notice := rfl
@[simp] theorem setRaw_lowerRev : (setRaw s o v).lowerRev = s.lowerRev := rfl
@[simp] theorem setRaw_lastEvent : (setRaw s o v).lastEvent = s.lastEvent := rfl
@[simp] theorem setRaw_w1cAt : (setRaw s o v).w1cAt = s.w1cAt := rfl
@[simp] theorem setRaw_freeCounter : (setRaw s o v).freeCounter = s.freeCounter := rfl
@[simp] theorem setRaw_ctxOf {i : Nat} : ctxOf (setRaw s o v) i = ctxOf s i := rfl
@[simp] theorem setRaw_regionOf {i : Nat} : regionOf (setRaw s o v) i = regionOf s i := rfl
@[simp] theorem setRaw_seqOf {i : Nat} : seqOf (setRaw s o v) i = seqOf s i := rfl
@[simp] theorem setRaw_reelUnit {i j : Nat} : reelUnit (setRaw s o v) i j = reelUnit s i j := rfl
@[simp] theorem setRaw_physOf {i : Nat} : physOf (setRaw s o v) i = physOf s i := rfl
@[simp] theorem setRaw_physOfLogical {i : Nat} : physOfLogical (setRaw s o v) i = physOfLogical s i := rfl
@[simp] theorem setRaw_linkOf {i : Nat} : linkOf (setRaw s o v) i = linkOf s i := rfl
@[simp] theorem setRaw_portOf {i : Nat} : portOf (setRaw s o v) i = portOf s i := rfl
@[simp] theorem setRaw_fnOf {i : Nat} : fnOf (setRaw s o v) i = fnOf s i := rfl
@[simp] theorem setRaw_queueOf {i j : Nat} : queueOf (setRaw s o v) i j = queueOf s i j := rfl
@[simp] theorem setRaw_tableOf {i : Nat} : tableOf (setRaw s o v) i = tableOf s i := rfl
@[simp] theorem setRaw_destOf {i : Resource} : destOf (setRaw s o v) i = destOf s i := rfl
@[simp] theorem setRaw_ledgerOf {i : AdmPoint} {j : Resource} : ledgerOf (setRaw s o v) i j = ledgerOf s i j := rfl
@[simp] theorem setRaw_threadOf {i : ThreadId} : threadOf (setRaw s o v) i = threadOf s i := rfl
@[simp] theorem setRaw_theThread {i : ThreadId} : theThread (setRaw s o v) i = theThread s i := rfl
@[simp] theorem setRaw_groupOf {i : ThreadId} : groupOf (setRaw s o v) i = groupOf s i := rfl
@[simp] theorem setRaw_vectorOf {i : ThreadId} : vectorOf (setRaw s o v) i = vectorOf s i := rfl
@[simp] theorem setRaw_findRequest {i : Nat} : findRequest (setRaw s o v) i = findRequest s i := rfl
@[simp] theorem setRaw_findOp {i : Nat} : findOp (setRaw s o v) i = findOp s i := rfl
@[simp] theorem setRaw_findCmd {i : Nat} : findCmd (setRaw s o v) i = findCmd s i := rfl
@[simp] theorem setRaw_findTransfer {i : XferUse} : findTransfer (setRaw s o v) i = findTransfer s i := rfl
@[simp] theorem setRaw_now : now (setRaw s o v) = now s := rfl

end setRaw

/-! ### setRequest -/

section setRequest

variable {s : State} {r : Request}

@[simp] theorem setRequest_pending : (setRequest s r).pending = s.pending := rfl
@[simp] theorem setRequest_part : (setRequest s r).part = s.part := rfl
@[simp] theorem setRequest_clock : (setRequest s r).clock = s.clock := rfl
@[simp] theorem setRequest_mem : (setRequest s r).mem = s.mem := rfl
@[simp] theorem setRequest_pages : (setRequest s r).pages = s.pages := rfl
@[simp] theorem setRequest_retiredGranules : (setRequest s r).retiredGranules = s.retiredGranules := rfl
@[simp] theorem setRequest_granuleErrors : (setRequest s r).granuleErrors = s.granuleErrors := rfl
@[simp] theorem setRequest_regs : (setRequest s r).regs = s.regs := rfl
@[simp] theorem setRequest_contexts : (setRequest s r).contexts = s.contexts := rfl
@[simp] theorem setRequest_threads : (setRequest s r).threads = s.threads := rfl
@[simp] theorem setRequest_groups : (setRequest s r).groups = s.groups := rfl
@[simp] theorem setRequest_vectors : (setRequest s r).vectors = s.vectors := rfl
@[simp] theorem setRequest_nextReq : (setRequest s r).nextReq = s.nextReq := rfl
@[simp] theorem setRequest_dests : (setRequest s r).dests = s.dests := rfl
@[simp] theorem setRequest_ledgers : (setRequest s r).ledgers = s.ledgers := rfl
@[simp] theorem setRequest_wakes : (setRequest s r).wakes = s.wakes := rfl
@[simp] theorem setRequest_activity : (setRequest s r).activity = s.activity := rfl
@[simp] theorem setRequest_transfers : (setRequest s r).transfers = s.transfers := rfl
@[simp] theorem setRequest_nextXfer : (setRequest s r).nextXfer = s.nextXfer := rfl
@[simp] theorem setRequest_ops : (setRequest s r).ops = s.ops := rfl
@[simp] theorem setRequest_nextOp : (setRequest s r).nextOp = s.nextOp := rfl
@[simp] theorem setRequest_logs : (setRequest s r).logs = s.logs := rfl
@[simp] theorem setRequest_phys : (setRequest s r).phys = s.phys := rfl
@[simp] theorem setRequest_tables : (setRequest s r).tables = s.tables := rfl
@[simp] theorem setRequest_keptPins : (setRequest s r).keptPins = s.keptPins := rfl
@[simp] theorem setRequest_links : (setRequest s r).links = s.links := rfl
@[simp] theorem setRequest_ports : (setRequest s r).ports = s.ports := rfl
@[simp] theorem setRequest_fns : (setRequest s r).fns = s.fns := rfl
@[simp] theorem setRequest_cfgs : (setRequest s r).cfgs = s.cfgs := rfl
@[simp] theorem setRequest_cmds : (setRequest s r).cmds = s.cmds := rfl
@[simp] theorem setRequest_nextCmd : (setRequest s r).nextCmd = s.nextCmd := rfl
@[simp] theorem setRequest_records : (setRequest s r).records = s.records := rfl
@[simp] theorem setRequest_allocs : (setRequest s r).allocs = s.allocs := rfl
@[simp] theorem setRequest_nextHandle : (setRequest s r).nextHandle = s.nextHandle := rfl
@[simp] theorem setRequest_loans : (setRequest s r).loans = s.loans := rfl
@[simp] theorem setRequest_later : (setRequest s r).later = s.later := rfl
@[simp] theorem setRequest_votes : (setRequest s r).votes = s.votes := rfl
@[simp] theorem setRequest_keels : (setRequest s r).keels = s.keels := rfl
@[simp] theorem setRequest_hold : (setRequest s r).hold = s.hold := rfl
@[simp] theorem setRequest_faultLog : (setRequest s r).faultLog = s.faultLog := rfl
@[simp] theorem setRequest_logTotal : (setRequest s r).logTotal = s.logTotal := rfl
@[simp] theorem setRequest_flash : (setRequest s r).flash = s.flash := rfl
@[simp] theorem setRequest_life : (setRequest s r).life = s.life := rfl
@[simp] theorem setRequest_power : (setRequest s r).power = s.power := rfl
@[simp] theorem setRequest_board : (setRequest s r).board = s.board := rfl
@[simp] theorem setRequest_out : (setRequest s r).out = s.out := rfl
@[simp] theorem setRequest_lowered : (setRequest s r).lowered = s.lowered := rfl
@[simp] theorem setRequest_objects : (setRequest s r).objects = s.objects := rfl
@[simp] theorem setRequest_checkpoints : (setRequest s r).checkpoints = s.checkpoints := rfl
@[simp] theorem setRequest_cmdTurn : (setRequest s r).cmdTurn = s.cmdTurn := rfl
@[simp] theorem setRequest_addendum : (setRequest s r).addendum = s.addendum := rfl
@[simp] theorem setRequest_loadBank : (setRequest s r).loadBank = s.loadBank := rfl
@[simp] theorem setRequest_notice : (setRequest s r).notice = s.notice := rfl
@[simp] theorem setRequest_lowerRev : (setRequest s r).lowerRev = s.lowerRev := rfl
@[simp] theorem setRequest_lastEvent : (setRequest s r).lastEvent = s.lastEvent := rfl
@[simp] theorem setRequest_w1cAt : (setRequest s r).w1cAt = s.w1cAt := rfl
@[simp] theorem setRequest_freeCounter : (setRequest s r).freeCounter = s.freeCounter := rfl
@[simp] theorem setRequest_ctxOf {i : Nat} : ctxOf (setRequest s r) i = ctxOf s i := rfl
@[simp] theorem setRequest_regionOf {i : Nat} : regionOf (setRequest s r) i = regionOf s i := rfl
@[simp] theorem setRequest_seqOf {i : Nat} : seqOf (setRequest s r) i = seqOf s i := rfl
@[simp] theorem setRequest_reelUnit {i j : Nat} : reelUnit (setRequest s r) i j = reelUnit s i j := rfl
@[simp] theorem setRequest_physOf {i : Nat} : physOf (setRequest s r) i = physOf s i := rfl
@[simp] theorem setRequest_physOfLogical {i : Nat} : physOfLogical (setRequest s r) i = physOfLogical s i := rfl
@[simp] theorem setRequest_linkOf {i : Nat} : linkOf (setRequest s r) i = linkOf s i := rfl
@[simp] theorem setRequest_portOf {i : Nat} : portOf (setRequest s r) i = portOf s i := rfl
@[simp] theorem setRequest_fnOf {i : Nat} : fnOf (setRequest s r) i = fnOf s i := rfl
@[simp] theorem setRequest_queueOf {i j : Nat} : queueOf (setRequest s r) i j = queueOf s i j := rfl
@[simp] theorem setRequest_tableOf {i : Nat} : tableOf (setRequest s r) i = tableOf s i := rfl
@[simp] theorem setRequest_destOf {i : Resource} : destOf (setRequest s r) i = destOf s i := rfl
@[simp] theorem setRequest_ledgerOf {i : AdmPoint} {j : Resource} : ledgerOf (setRequest s r) i j = ledgerOf s i j := rfl
@[simp] theorem setRequest_threadOf {i : ThreadId} : threadOf (setRequest s r) i = threadOf s i := rfl
@[simp] theorem setRequest_theThread {i : ThreadId} : theThread (setRequest s r) i = theThread s i := rfl
@[simp] theorem setRequest_groupOf {i : ThreadId} : groupOf (setRequest s r) i = groupOf s i := rfl
@[simp] theorem setRequest_vectorOf {i : ThreadId} : vectorOf (setRequest s r) i = vectorOf s i := rfl
@[simp] theorem setRequest_rawReg {i : Nat} : rawReg (setRequest s r) i = rawReg s i := rfl
@[simp] theorem setRequest_rawField {i j k : Nat} : rawField (setRequest s r) i j k = rawField s i j k := rfl
@[simp] theorem setRequest_findOp {i : Nat} : findOp (setRequest s r) i = findOp s i := rfl
@[simp] theorem setRequest_findCmd {i : Nat} : findCmd (setRequest s r) i = findCmd s i := rfl
@[simp] theorem setRequest_findTransfer {i : XferUse} : findTransfer (setRequest s r) i = findTransfer s i := rfl
@[simp] theorem setRequest_now : now (setRequest s r) = now s := rfl
@[simp] theorem setRequest_memKey {i : Nat} : memKey (setRequest s r) i = memKey s i := rfl
@[simp] theorem setRequest_fnPort {i : Nat} : fnPort (setRequest s r) i = fnPort s i := rfl

end setRequest

/-! ### setOp -/

section setOp

variable {s : State} {q : TensorOp}

@[simp] theorem setOp_pending : (setOp s q).pending = s.pending := rfl
@[simp] theorem setOp_part : (setOp s q).part = s.part := rfl
@[simp] theorem setOp_clock : (setOp s q).clock = s.clock := rfl
@[simp] theorem setOp_mem : (setOp s q).mem = s.mem := rfl
@[simp] theorem setOp_pages : (setOp s q).pages = s.pages := rfl
@[simp] theorem setOp_retiredGranules : (setOp s q).retiredGranules = s.retiredGranules := rfl
@[simp] theorem setOp_granuleErrors : (setOp s q).granuleErrors = s.granuleErrors := rfl
@[simp] theorem setOp_regs : (setOp s q).regs = s.regs := rfl
@[simp] theorem setOp_contexts : (setOp s q).contexts = s.contexts := rfl
@[simp] theorem setOp_threads : (setOp s q).threads = s.threads := rfl
@[simp] theorem setOp_groups : (setOp s q).groups = s.groups := rfl
@[simp] theorem setOp_vectors : (setOp s q).vectors = s.vectors := rfl
@[simp] theorem setOp_requests : (setOp s q).requests = s.requests := rfl
@[simp] theorem setOp_nextReq : (setOp s q).nextReq = s.nextReq := rfl
@[simp] theorem setOp_dests : (setOp s q).dests = s.dests := rfl
@[simp] theorem setOp_ledgers : (setOp s q).ledgers = s.ledgers := rfl
@[simp] theorem setOp_wakes : (setOp s q).wakes = s.wakes := rfl
@[simp] theorem setOp_activity : (setOp s q).activity = s.activity := rfl
@[simp] theorem setOp_transfers : (setOp s q).transfers = s.transfers := rfl
@[simp] theorem setOp_nextXfer : (setOp s q).nextXfer = s.nextXfer := rfl
@[simp] theorem setOp_nextOp : (setOp s q).nextOp = s.nextOp := rfl
@[simp] theorem setOp_logs : (setOp s q).logs = s.logs := rfl
@[simp] theorem setOp_phys : (setOp s q).phys = s.phys := rfl
@[simp] theorem setOp_tables : (setOp s q).tables = s.tables := rfl
@[simp] theorem setOp_keptPins : (setOp s q).keptPins = s.keptPins := rfl
@[simp] theorem setOp_links : (setOp s q).links = s.links := rfl
@[simp] theorem setOp_ports : (setOp s q).ports = s.ports := rfl
@[simp] theorem setOp_fns : (setOp s q).fns = s.fns := rfl
@[simp] theorem setOp_cfgs : (setOp s q).cfgs = s.cfgs := rfl
@[simp] theorem setOp_cmds : (setOp s q).cmds = s.cmds := rfl
@[simp] theorem setOp_nextCmd : (setOp s q).nextCmd = s.nextCmd := rfl
@[simp] theorem setOp_records : (setOp s q).records = s.records := rfl
@[simp] theorem setOp_allocs : (setOp s q).allocs = s.allocs := rfl
@[simp] theorem setOp_nextHandle : (setOp s q).nextHandle = s.nextHandle := rfl
@[simp] theorem setOp_loans : (setOp s q).loans = s.loans := rfl
@[simp] theorem setOp_later : (setOp s q).later = s.later := rfl
@[simp] theorem setOp_votes : (setOp s q).votes = s.votes := rfl
@[simp] theorem setOp_keels : (setOp s q).keels = s.keels := rfl
@[simp] theorem setOp_hold : (setOp s q).hold = s.hold := rfl
@[simp] theorem setOp_faultLog : (setOp s q).faultLog = s.faultLog := rfl
@[simp] theorem setOp_logTotal : (setOp s q).logTotal = s.logTotal := rfl
@[simp] theorem setOp_flash : (setOp s q).flash = s.flash := rfl
@[simp] theorem setOp_life : (setOp s q).life = s.life := rfl
@[simp] theorem setOp_power : (setOp s q).power = s.power := rfl
@[simp] theorem setOp_board : (setOp s q).board = s.board := rfl
@[simp] theorem setOp_out : (setOp s q).out = s.out := rfl
@[simp] theorem setOp_lowered : (setOp s q).lowered = s.lowered := rfl
@[simp] theorem setOp_objects : (setOp s q).objects = s.objects := rfl
@[simp] theorem setOp_checkpoints : (setOp s q).checkpoints = s.checkpoints := rfl
@[simp] theorem setOp_cmdTurn : (setOp s q).cmdTurn = s.cmdTurn := rfl
@[simp] theorem setOp_addendum : (setOp s q).addendum = s.addendum := rfl
@[simp] theorem setOp_loadBank : (setOp s q).loadBank = s.loadBank := rfl
@[simp] theorem setOp_notice : (setOp s q).notice = s.notice := rfl
@[simp] theorem setOp_lowerRev : (setOp s q).lowerRev = s.lowerRev := rfl
@[simp] theorem setOp_lastEvent : (setOp s q).lastEvent = s.lastEvent := rfl
@[simp] theorem setOp_w1cAt : (setOp s q).w1cAt = s.w1cAt := rfl
@[simp] theorem setOp_freeCounter : (setOp s q).freeCounter = s.freeCounter := rfl
@[simp] theorem setOp_ctxOf {i : Nat} : ctxOf (setOp s q) i = ctxOf s i := rfl
@[simp] theorem setOp_regionOf {i : Nat} : regionOf (setOp s q) i = regionOf s i := rfl
@[simp] theorem setOp_seqOf {i : Nat} : seqOf (setOp s q) i = seqOf s i := rfl
@[simp] theorem setOp_reelUnit {i j : Nat} : reelUnit (setOp s q) i j = reelUnit s i j := rfl
@[simp] theorem setOp_physOf {i : Nat} : physOf (setOp s q) i = physOf s i := rfl
@[simp] theorem setOp_physOfLogical {i : Nat} : physOfLogical (setOp s q) i = physOfLogical s i := rfl
@[simp] theorem setOp_linkOf {i : Nat} : linkOf (setOp s q) i = linkOf s i := rfl
@[simp] theorem setOp_portOf {i : Nat} : portOf (setOp s q) i = portOf s i := rfl
@[simp] theorem setOp_fnOf {i : Nat} : fnOf (setOp s q) i = fnOf s i := rfl
@[simp] theorem setOp_queueOf {i j : Nat} : queueOf (setOp s q) i j = queueOf s i j := rfl
@[simp] theorem setOp_tableOf {i : Nat} : tableOf (setOp s q) i = tableOf s i := rfl
@[simp] theorem setOp_destOf {i : Resource} : destOf (setOp s q) i = destOf s i := rfl
@[simp] theorem setOp_ledgerOf {i : AdmPoint} {j : Resource} : ledgerOf (setOp s q) i j = ledgerOf s i j := rfl
@[simp] theorem setOp_threadOf {i : ThreadId} : threadOf (setOp s q) i = threadOf s i := rfl
@[simp] theorem setOp_theThread {i : ThreadId} : theThread (setOp s q) i = theThread s i := rfl
@[simp] theorem setOp_groupOf {i : ThreadId} : groupOf (setOp s q) i = groupOf s i := rfl
@[simp] theorem setOp_vectorOf {i : ThreadId} : vectorOf (setOp s q) i = vectorOf s i := rfl
@[simp] theorem setOp_rawReg {i : Nat} : rawReg (setOp s q) i = rawReg s i := rfl
@[simp] theorem setOp_rawField {i j k : Nat} : rawField (setOp s q) i j k = rawField s i j k := rfl
@[simp] theorem setOp_findRequest {i : Nat} : findRequest (setOp s q) i = findRequest s i := rfl
@[simp] theorem setOp_findCmd {i : Nat} : findCmd (setOp s q) i = findCmd s i := rfl
@[simp] theorem setOp_findTransfer {i : XferUse} : findTransfer (setOp s q) i = findTransfer s i := rfl
@[simp] theorem setOp_now : now (setOp s q) = now s := rfl
@[simp] theorem setOp_memKey {i : Nat} : memKey (setOp s q) i = memKey s i := rfl
@[simp] theorem setOp_fnPort {i : Nat} : fnPort (setOp s q) i = fnPort s i := rfl

end setOp

/-! ### setCmd -/

section setCmd

variable {s : State} {c : Cmd}

@[simp] theorem setCmd_pending : (setCmd s c).pending = s.pending := rfl
@[simp] theorem setCmd_part : (setCmd s c).part = s.part := rfl
@[simp] theorem setCmd_clock : (setCmd s c).clock = s.clock := rfl
@[simp] theorem setCmd_mem : (setCmd s c).mem = s.mem := rfl
@[simp] theorem setCmd_pages : (setCmd s c).pages = s.pages := rfl
@[simp] theorem setCmd_retiredGranules : (setCmd s c).retiredGranules = s.retiredGranules := rfl
@[simp] theorem setCmd_granuleErrors : (setCmd s c).granuleErrors = s.granuleErrors := rfl
@[simp] theorem setCmd_regs : (setCmd s c).regs = s.regs := rfl
@[simp] theorem setCmd_contexts : (setCmd s c).contexts = s.contexts := rfl
@[simp] theorem setCmd_threads : (setCmd s c).threads = s.threads := rfl
@[simp] theorem setCmd_groups : (setCmd s c).groups = s.groups := rfl
@[simp] theorem setCmd_vectors : (setCmd s c).vectors = s.vectors := rfl
@[simp] theorem setCmd_requests : (setCmd s c).requests = s.requests := rfl
@[simp] theorem setCmd_nextReq : (setCmd s c).nextReq = s.nextReq := rfl
@[simp] theorem setCmd_dests : (setCmd s c).dests = s.dests := rfl
@[simp] theorem setCmd_ledgers : (setCmd s c).ledgers = s.ledgers := rfl
@[simp] theorem setCmd_wakes : (setCmd s c).wakes = s.wakes := rfl
@[simp] theorem setCmd_activity : (setCmd s c).activity = s.activity := rfl
@[simp] theorem setCmd_transfers : (setCmd s c).transfers = s.transfers := rfl
@[simp] theorem setCmd_nextXfer : (setCmd s c).nextXfer = s.nextXfer := rfl
@[simp] theorem setCmd_ops : (setCmd s c).ops = s.ops := rfl
@[simp] theorem setCmd_nextOp : (setCmd s c).nextOp = s.nextOp := rfl
@[simp] theorem setCmd_logs : (setCmd s c).logs = s.logs := rfl
@[simp] theorem setCmd_phys : (setCmd s c).phys = s.phys := rfl
@[simp] theorem setCmd_tables : (setCmd s c).tables = s.tables := rfl
@[simp] theorem setCmd_keptPins : (setCmd s c).keptPins = s.keptPins := rfl
@[simp] theorem setCmd_links : (setCmd s c).links = s.links := rfl
@[simp] theorem setCmd_ports : (setCmd s c).ports = s.ports := rfl
@[simp] theorem setCmd_fns : (setCmd s c).fns = s.fns := rfl
@[simp] theorem setCmd_cfgs : (setCmd s c).cfgs = s.cfgs := rfl
@[simp] theorem setCmd_nextCmd : (setCmd s c).nextCmd = s.nextCmd := rfl
@[simp] theorem setCmd_records : (setCmd s c).records = s.records := rfl
@[simp] theorem setCmd_allocs : (setCmd s c).allocs = s.allocs := rfl
@[simp] theorem setCmd_nextHandle : (setCmd s c).nextHandle = s.nextHandle := rfl
@[simp] theorem setCmd_loans : (setCmd s c).loans = s.loans := rfl
@[simp] theorem setCmd_later : (setCmd s c).later = s.later := rfl
@[simp] theorem setCmd_votes : (setCmd s c).votes = s.votes := rfl
@[simp] theorem setCmd_keels : (setCmd s c).keels = s.keels := rfl
@[simp] theorem setCmd_hold : (setCmd s c).hold = s.hold := rfl
@[simp] theorem setCmd_faultLog : (setCmd s c).faultLog = s.faultLog := rfl
@[simp] theorem setCmd_logTotal : (setCmd s c).logTotal = s.logTotal := rfl
@[simp] theorem setCmd_flash : (setCmd s c).flash = s.flash := rfl
@[simp] theorem setCmd_life : (setCmd s c).life = s.life := rfl
@[simp] theorem setCmd_power : (setCmd s c).power = s.power := rfl
@[simp] theorem setCmd_board : (setCmd s c).board = s.board := rfl
@[simp] theorem setCmd_out : (setCmd s c).out = s.out := rfl
@[simp] theorem setCmd_lowered : (setCmd s c).lowered = s.lowered := rfl
@[simp] theorem setCmd_objects : (setCmd s c).objects = s.objects := rfl
@[simp] theorem setCmd_checkpoints : (setCmd s c).checkpoints = s.checkpoints := rfl
@[simp] theorem setCmd_cmdTurn : (setCmd s c).cmdTurn = s.cmdTurn := rfl
@[simp] theorem setCmd_addendum : (setCmd s c).addendum = s.addendum := rfl
@[simp] theorem setCmd_loadBank : (setCmd s c).loadBank = s.loadBank := rfl
@[simp] theorem setCmd_notice : (setCmd s c).notice = s.notice := rfl
@[simp] theorem setCmd_lowerRev : (setCmd s c).lowerRev = s.lowerRev := rfl
@[simp] theorem setCmd_lastEvent : (setCmd s c).lastEvent = s.lastEvent := rfl
@[simp] theorem setCmd_w1cAt : (setCmd s c).w1cAt = s.w1cAt := rfl
@[simp] theorem setCmd_freeCounter : (setCmd s c).freeCounter = s.freeCounter := rfl
@[simp] theorem setCmd_ctxOf {i : Nat} : ctxOf (setCmd s c) i = ctxOf s i := rfl
@[simp] theorem setCmd_regionOf {i : Nat} : regionOf (setCmd s c) i = regionOf s i := rfl
@[simp] theorem setCmd_seqOf {i : Nat} : seqOf (setCmd s c) i = seqOf s i := rfl
@[simp] theorem setCmd_reelUnit {i j : Nat} : reelUnit (setCmd s c) i j = reelUnit s i j := rfl
@[simp] theorem setCmd_physOf {i : Nat} : physOf (setCmd s c) i = physOf s i := rfl
@[simp] theorem setCmd_physOfLogical {i : Nat} : physOfLogical (setCmd s c) i = physOfLogical s i := rfl
@[simp] theorem setCmd_linkOf {i : Nat} : linkOf (setCmd s c) i = linkOf s i := rfl
@[simp] theorem setCmd_portOf {i : Nat} : portOf (setCmd s c) i = portOf s i := rfl
@[simp] theorem setCmd_fnOf {i : Nat} : fnOf (setCmd s c) i = fnOf s i := rfl
@[simp] theorem setCmd_queueOf {i j : Nat} : queueOf (setCmd s c) i j = queueOf s i j := rfl
@[simp] theorem setCmd_tableOf {i : Nat} : tableOf (setCmd s c) i = tableOf s i := rfl
@[simp] theorem setCmd_destOf {i : Resource} : destOf (setCmd s c) i = destOf s i := rfl
@[simp] theorem setCmd_ledgerOf {i : AdmPoint} {j : Resource} : ledgerOf (setCmd s c) i j = ledgerOf s i j := rfl
@[simp] theorem setCmd_threadOf {i : ThreadId} : threadOf (setCmd s c) i = threadOf s i := rfl
@[simp] theorem setCmd_theThread {i : ThreadId} : theThread (setCmd s c) i = theThread s i := rfl
@[simp] theorem setCmd_groupOf {i : ThreadId} : groupOf (setCmd s c) i = groupOf s i := rfl
@[simp] theorem setCmd_vectorOf {i : ThreadId} : vectorOf (setCmd s c) i = vectorOf s i := rfl
@[simp] theorem setCmd_rawReg {i : Nat} : rawReg (setCmd s c) i = rawReg s i := rfl
@[simp] theorem setCmd_rawField {i j k : Nat} : rawField (setCmd s c) i j k = rawField s i j k := rfl
@[simp] theorem setCmd_findRequest {i : Nat} : findRequest (setCmd s c) i = findRequest s i := rfl
@[simp] theorem setCmd_findOp {i : Nat} : findOp (setCmd s c) i = findOp s i := rfl
@[simp] theorem setCmd_findTransfer {i : XferUse} : findTransfer (setCmd s c) i = findTransfer s i := rfl
@[simp] theorem setCmd_now : now (setCmd s c) = now s := rfl
@[simp] theorem setCmd_memKey {i : Nat} : memKey (setCmd s c) i = memKey s i := rfl
@[simp] theorem setCmd_fnPort {i : Nat} : fnPort (setCmd s c) i = fnPort s i := rfl

end setCmd

/-! ### endCmd -/

section endCmd

variable {s : State} {c : Cmd} {a b r : Nat}

@[simp] theorem endCmd_pending : (endCmd s c a b r).pending = s.pending := rfl
@[simp] theorem endCmd_part : (endCmd s c a b r).part = s.part := rfl
@[simp] theorem endCmd_clock : (endCmd s c a b r).clock = s.clock := rfl
@[simp] theorem endCmd_mem : (endCmd s c a b r).mem = s.mem := rfl
@[simp] theorem endCmd_pages : (endCmd s c a b r).pages = s.pages := rfl
@[simp] theorem endCmd_retiredGranules : (endCmd s c a b r).retiredGranules = s.retiredGranules := rfl
@[simp] theorem endCmd_granuleErrors : (endCmd s c a b r).granuleErrors = s.granuleErrors := rfl
@[simp] theorem endCmd_regs : (endCmd s c a b r).regs = s.regs := rfl
@[simp] theorem endCmd_contexts : (endCmd s c a b r).contexts = s.contexts := rfl
@[simp] theorem endCmd_threads : (endCmd s c a b r).threads = s.threads := rfl
@[simp] theorem endCmd_groups : (endCmd s c a b r).groups = s.groups := rfl
@[simp] theorem endCmd_vectors : (endCmd s c a b r).vectors = s.vectors := rfl
@[simp] theorem endCmd_requests : (endCmd s c a b r).requests = s.requests := rfl
@[simp] theorem endCmd_nextReq : (endCmd s c a b r).nextReq = s.nextReq := rfl
@[simp] theorem endCmd_dests : (endCmd s c a b r).dests = s.dests := rfl
@[simp] theorem endCmd_ledgers : (endCmd s c a b r).ledgers = s.ledgers := rfl
@[simp] theorem endCmd_wakes : (endCmd s c a b r).wakes = s.wakes := rfl
@[simp] theorem endCmd_activity : (endCmd s c a b r).activity = s.activity := rfl
@[simp] theorem endCmd_transfers : (endCmd s c a b r).transfers = s.transfers := rfl
@[simp] theorem endCmd_nextXfer : (endCmd s c a b r).nextXfer = s.nextXfer := rfl
@[simp] theorem endCmd_ops : (endCmd s c a b r).ops = s.ops := rfl
@[simp] theorem endCmd_nextOp : (endCmd s c a b r).nextOp = s.nextOp := rfl
@[simp] theorem endCmd_logs : (endCmd s c a b r).logs = s.logs := rfl
@[simp] theorem endCmd_phys : (endCmd s c a b r).phys = s.phys := rfl
@[simp] theorem endCmd_tables : (endCmd s c a b r).tables = s.tables := rfl
@[simp] theorem endCmd_keptPins : (endCmd s c a b r).keptPins = s.keptPins := rfl
@[simp] theorem endCmd_links : (endCmd s c a b r).links = s.links := rfl
@[simp] theorem endCmd_ports : (endCmd s c a b r).ports = s.ports := rfl
@[simp] theorem endCmd_fns : (endCmd s c a b r).fns = s.fns := rfl
@[simp] theorem endCmd_cfgs : (endCmd s c a b r).cfgs = s.cfgs := rfl
@[simp] theorem endCmd_nextCmd : (endCmd s c a b r).nextCmd = s.nextCmd := rfl
@[simp] theorem endCmd_records : (endCmd s c a b r).records = s.records := rfl
@[simp] theorem endCmd_allocs : (endCmd s c a b r).allocs = s.allocs := rfl
@[simp] theorem endCmd_nextHandle : (endCmd s c a b r).nextHandle = s.nextHandle := rfl
@[simp] theorem endCmd_loans : (endCmd s c a b r).loans = s.loans := rfl
@[simp] theorem endCmd_later : (endCmd s c a b r).later = s.later := rfl
@[simp] theorem endCmd_votes : (endCmd s c a b r).votes = s.votes := rfl
@[simp] theorem endCmd_keels : (endCmd s c a b r).keels = s.keels := rfl
@[simp] theorem endCmd_hold : (endCmd s c a b r).hold = s.hold := rfl
@[simp] theorem endCmd_faultLog : (endCmd s c a b r).faultLog = s.faultLog := rfl
@[simp] theorem endCmd_logTotal : (endCmd s c a b r).logTotal = s.logTotal := rfl
@[simp] theorem endCmd_flash : (endCmd s c a b r).flash = s.flash := rfl
@[simp] theorem endCmd_life : (endCmd s c a b r).life = s.life := rfl
@[simp] theorem endCmd_power : (endCmd s c a b r).power = s.power := rfl
@[simp] theorem endCmd_board : (endCmd s c a b r).board = s.board := rfl
@[simp] theorem endCmd_out : (endCmd s c a b r).out = s.out := rfl
@[simp] theorem endCmd_lowered : (endCmd s c a b r).lowered = s.lowered := rfl
@[simp] theorem endCmd_objects : (endCmd s c a b r).objects = s.objects := rfl
@[simp] theorem endCmd_checkpoints : (endCmd s c a b r).checkpoints = s.checkpoints := rfl
@[simp] theorem endCmd_cmdTurn : (endCmd s c a b r).cmdTurn = s.cmdTurn := rfl
@[simp] theorem endCmd_addendum : (endCmd s c a b r).addendum = s.addendum := rfl
@[simp] theorem endCmd_loadBank : (endCmd s c a b r).loadBank = s.loadBank := rfl
@[simp] theorem endCmd_notice : (endCmd s c a b r).notice = s.notice := rfl
@[simp] theorem endCmd_lowerRev : (endCmd s c a b r).lowerRev = s.lowerRev := rfl
@[simp] theorem endCmd_lastEvent : (endCmd s c a b r).lastEvent = s.lastEvent := rfl
@[simp] theorem endCmd_w1cAt : (endCmd s c a b r).w1cAt = s.w1cAt := rfl
@[simp] theorem endCmd_freeCounter : (endCmd s c a b r).freeCounter = s.freeCounter := rfl
@[simp] theorem endCmd_ctxOf {i : Nat} : ctxOf (endCmd s c a b r) i = ctxOf s i := rfl
@[simp] theorem endCmd_regionOf {i : Nat} : regionOf (endCmd s c a b r) i = regionOf s i := rfl
@[simp] theorem endCmd_seqOf {i : Nat} : seqOf (endCmd s c a b r) i = seqOf s i := rfl
@[simp] theorem endCmd_reelUnit {i j : Nat} : reelUnit (endCmd s c a b r) i j = reelUnit s i j := rfl
@[simp] theorem endCmd_physOf {i : Nat} : physOf (endCmd s c a b r) i = physOf s i := rfl
@[simp] theorem endCmd_physOfLogical {i : Nat} : physOfLogical (endCmd s c a b r) i = physOfLogical s i := rfl
@[simp] theorem endCmd_linkOf {i : Nat} : linkOf (endCmd s c a b r) i = linkOf s i := rfl
@[simp] theorem endCmd_portOf {i : Nat} : portOf (endCmd s c a b r) i = portOf s i := rfl
@[simp] theorem endCmd_fnOf {i : Nat} : fnOf (endCmd s c a b r) i = fnOf s i := rfl
@[simp] theorem endCmd_queueOf {i j : Nat} : queueOf (endCmd s c a b r) i j = queueOf s i j := rfl
@[simp] theorem endCmd_tableOf {i : Nat} : tableOf (endCmd s c a b r) i = tableOf s i := rfl
@[simp] theorem endCmd_destOf {i : Resource} : destOf (endCmd s c a b r) i = destOf s i := rfl
@[simp] theorem endCmd_ledgerOf {i : AdmPoint} {j : Resource} : ledgerOf (endCmd s c a b r) i j = ledgerOf s i j := rfl
@[simp] theorem endCmd_threadOf {i : ThreadId} : threadOf (endCmd s c a b r) i = threadOf s i := rfl
@[simp] theorem endCmd_theThread {i : ThreadId} : theThread (endCmd s c a b r) i = theThread s i := rfl
@[simp] theorem endCmd_groupOf {i : ThreadId} : groupOf (endCmd s c a b r) i = groupOf s i := rfl
@[simp] theorem endCmd_vectorOf {i : ThreadId} : vectorOf (endCmd s c a b r) i = vectorOf s i := rfl
@[simp] theorem endCmd_rawReg {i : Nat} : rawReg (endCmd s c a b r) i = rawReg s i := rfl
@[simp] theorem endCmd_rawField {i j k : Nat} : rawField (endCmd s c a b r) i j k = rawField s i j k := rfl
@[simp] theorem endCmd_findRequest {i : Nat} : findRequest (endCmd s c a b r) i = findRequest s i := rfl
@[simp] theorem endCmd_findOp {i : Nat} : findOp (endCmd s c a b r) i = findOp s i := rfl
@[simp] theorem endCmd_findTransfer {i : XferUse} : findTransfer (endCmd s c a b r) i = findTransfer s i := rfl
@[simp] theorem endCmd_now : now (endCmd s c a b r) = now s := rfl
@[simp] theorem endCmd_memKey {i : Nat} : memKey (endCmd s c a b r) i = memKey s i := rfl
@[simp] theorem endCmd_fnPort {i : Nat} : fnPort (endCmd s c a b r) i = fnPort s i := rfl

end endCmd

/-! ### setDest -/

section setDest

variable {s : State} {r : Resource} {d : Destination}

@[simp] theorem setDest_pending : (setDest s r d).pending = s.pending := rfl
@[simp] theorem setDest_part : (setDest s r d).part = s.part := rfl
@[simp] theorem setDest_clock : (setDest s r d).clock = s.clock := rfl
@[simp] theorem setDest_mem : (setDest s r d).mem = s.mem := rfl
@[simp] theorem setDest_pages : (setDest s r d).pages = s.pages := rfl
@[simp] theorem setDest_retiredGranules : (setDest s r d).retiredGranules = s.retiredGranules := rfl
@[simp] theorem setDest_granuleErrors : (setDest s r d).granuleErrors = s.granuleErrors := rfl
@[simp] theorem setDest_regs : (setDest s r d).regs = s.regs := rfl
@[simp] theorem setDest_contexts : (setDest s r d).contexts = s.contexts := rfl
@[simp] theorem setDest_threads : (setDest s r d).threads = s.threads := rfl
@[simp] theorem setDest_groups : (setDest s r d).groups = s.groups := rfl
@[simp] theorem setDest_vectors : (setDest s r d).vectors = s.vectors := rfl
@[simp] theorem setDest_requests : (setDest s r d).requests = s.requests := rfl
@[simp] theorem setDest_nextReq : (setDest s r d).nextReq = s.nextReq := rfl
@[simp] theorem setDest_ledgers : (setDest s r d).ledgers = s.ledgers := rfl
@[simp] theorem setDest_wakes : (setDest s r d).wakes = s.wakes := rfl
@[simp] theorem setDest_activity : (setDest s r d).activity = s.activity := rfl
@[simp] theorem setDest_transfers : (setDest s r d).transfers = s.transfers := rfl
@[simp] theorem setDest_nextXfer : (setDest s r d).nextXfer = s.nextXfer := rfl
@[simp] theorem setDest_ops : (setDest s r d).ops = s.ops := rfl
@[simp] theorem setDest_nextOp : (setDest s r d).nextOp = s.nextOp := rfl
@[simp] theorem setDest_logs : (setDest s r d).logs = s.logs := rfl
@[simp] theorem setDest_phys : (setDest s r d).phys = s.phys := rfl
@[simp] theorem setDest_tables : (setDest s r d).tables = s.tables := rfl
@[simp] theorem setDest_keptPins : (setDest s r d).keptPins = s.keptPins := rfl
@[simp] theorem setDest_links : (setDest s r d).links = s.links := rfl
@[simp] theorem setDest_ports : (setDest s r d).ports = s.ports := rfl
@[simp] theorem setDest_fns : (setDest s r d).fns = s.fns := rfl
@[simp] theorem setDest_cfgs : (setDest s r d).cfgs = s.cfgs := rfl
@[simp] theorem setDest_cmds : (setDest s r d).cmds = s.cmds := rfl
@[simp] theorem setDest_nextCmd : (setDest s r d).nextCmd = s.nextCmd := rfl
@[simp] theorem setDest_records : (setDest s r d).records = s.records := rfl
@[simp] theorem setDest_allocs : (setDest s r d).allocs = s.allocs := rfl
@[simp] theorem setDest_nextHandle : (setDest s r d).nextHandle = s.nextHandle := rfl
@[simp] theorem setDest_loans : (setDest s r d).loans = s.loans := rfl
@[simp] theorem setDest_later : (setDest s r d).later = s.later := rfl
@[simp] theorem setDest_votes : (setDest s r d).votes = s.votes := rfl
@[simp] theorem setDest_keels : (setDest s r d).keels = s.keels := rfl
@[simp] theorem setDest_hold : (setDest s r d).hold = s.hold := rfl
@[simp] theorem setDest_faultLog : (setDest s r d).faultLog = s.faultLog := rfl
@[simp] theorem setDest_logTotal : (setDest s r d).logTotal = s.logTotal := rfl
@[simp] theorem setDest_flash : (setDest s r d).flash = s.flash := rfl
@[simp] theorem setDest_life : (setDest s r d).life = s.life := rfl
@[simp] theorem setDest_power : (setDest s r d).power = s.power := rfl
@[simp] theorem setDest_board : (setDest s r d).board = s.board := rfl
@[simp] theorem setDest_out : (setDest s r d).out = s.out := rfl
@[simp] theorem setDest_lowered : (setDest s r d).lowered = s.lowered := rfl
@[simp] theorem setDest_objects : (setDest s r d).objects = s.objects := rfl
@[simp] theorem setDest_checkpoints : (setDest s r d).checkpoints = s.checkpoints := rfl
@[simp] theorem setDest_cmdTurn : (setDest s r d).cmdTurn = s.cmdTurn := rfl
@[simp] theorem setDest_addendum : (setDest s r d).addendum = s.addendum := rfl
@[simp] theorem setDest_loadBank : (setDest s r d).loadBank = s.loadBank := rfl
@[simp] theorem setDest_notice : (setDest s r d).notice = s.notice := rfl
@[simp] theorem setDest_lowerRev : (setDest s r d).lowerRev = s.lowerRev := rfl
@[simp] theorem setDest_lastEvent : (setDest s r d).lastEvent = s.lastEvent := rfl
@[simp] theorem setDest_w1cAt : (setDest s r d).w1cAt = s.w1cAt := rfl
@[simp] theorem setDest_freeCounter : (setDest s r d).freeCounter = s.freeCounter := rfl
@[simp] theorem setDest_ctxOf {i : Nat} : ctxOf (setDest s r d) i = ctxOf s i := rfl
@[simp] theorem setDest_regionOf {i : Nat} : regionOf (setDest s r d) i = regionOf s i := rfl
@[simp] theorem setDest_seqOf {i : Nat} : seqOf (setDest s r d) i = seqOf s i := rfl
@[simp] theorem setDest_reelUnit {i j : Nat} : reelUnit (setDest s r d) i j = reelUnit s i j := rfl
@[simp] theorem setDest_physOf {i : Nat} : physOf (setDest s r d) i = physOf s i := rfl
@[simp] theorem setDest_physOfLogical {i : Nat} : physOfLogical (setDest s r d) i = physOfLogical s i := rfl
@[simp] theorem setDest_linkOf {i : Nat} : linkOf (setDest s r d) i = linkOf s i := rfl
@[simp] theorem setDest_portOf {i : Nat} : portOf (setDest s r d) i = portOf s i := rfl
@[simp] theorem setDest_fnOf {i : Nat} : fnOf (setDest s r d) i = fnOf s i := rfl
@[simp] theorem setDest_queueOf {i j : Nat} : queueOf (setDest s r d) i j = queueOf s i j := rfl
@[simp] theorem setDest_tableOf {i : Nat} : tableOf (setDest s r d) i = tableOf s i := rfl
@[simp] theorem setDest_ledgerOf {i : AdmPoint} {j : Resource} : ledgerOf (setDest s r d) i j = ledgerOf s i j := rfl
@[simp] theorem setDest_threadOf {i : ThreadId} : threadOf (setDest s r d) i = threadOf s i := rfl
@[simp] theorem setDest_theThread {i : ThreadId} : theThread (setDest s r d) i = theThread s i := rfl
@[simp] theorem setDest_groupOf {i : ThreadId} : groupOf (setDest s r d) i = groupOf s i := rfl
@[simp] theorem setDest_vectorOf {i : ThreadId} : vectorOf (setDest s r d) i = vectorOf s i := rfl
@[simp] theorem setDest_rawReg {i : Nat} : rawReg (setDest s r d) i = rawReg s i := rfl
@[simp] theorem setDest_rawField {i j k : Nat} : rawField (setDest s r d) i j k = rawField s i j k := rfl
@[simp] theorem setDest_findRequest {i : Nat} : findRequest (setDest s r d) i = findRequest s i := rfl
@[simp] theorem setDest_findOp {i : Nat} : findOp (setDest s r d) i = findOp s i := rfl
@[simp] theorem setDest_findCmd {i : Nat} : findCmd (setDest s r d) i = findCmd s i := rfl
@[simp] theorem setDest_findTransfer {i : XferUse} : findTransfer (setDest s r d) i = findTransfer s i := rfl
@[simp] theorem setDest_now : now (setDest s r d) = now s := rfl
@[simp] theorem setDest_memKey {i : Nat} : memKey (setDest s r d) i = memKey s i := rfl
@[simp] theorem setDest_fnPort {i : Nat} : fnPort (setDest s r d) i = fnPort s i := rfl

end setDest

/-! ### setLedger -/

section setLedger

variable {s : State} {p : AdmPoint} {r : Resource} {l : Ledger}

@[simp] theorem setLedger_pending : (setLedger s p r l).pending = s.pending := rfl
@[simp] theorem setLedger_part : (setLedger s p r l).part = s.part := rfl
@[simp] theorem setLedger_clock : (setLedger s p r l).clock = s.clock := rfl
@[simp] theorem setLedger_mem : (setLedger s p r l).mem = s.mem := rfl
@[simp] theorem setLedger_pages : (setLedger s p r l).pages = s.pages := rfl
@[simp] theorem setLedger_retiredGranules : (setLedger s p r l).retiredGranules = s.retiredGranules := rfl
@[simp] theorem setLedger_granuleErrors : (setLedger s p r l).granuleErrors = s.granuleErrors := rfl
@[simp] theorem setLedger_regs : (setLedger s p r l).regs = s.regs := rfl
@[simp] theorem setLedger_contexts : (setLedger s p r l).contexts = s.contexts := rfl
@[simp] theorem setLedger_threads : (setLedger s p r l).threads = s.threads := rfl
@[simp] theorem setLedger_groups : (setLedger s p r l).groups = s.groups := rfl
@[simp] theorem setLedger_vectors : (setLedger s p r l).vectors = s.vectors := rfl
@[simp] theorem setLedger_requests : (setLedger s p r l).requests = s.requests := rfl
@[simp] theorem setLedger_nextReq : (setLedger s p r l).nextReq = s.nextReq := rfl
@[simp] theorem setLedger_dests : (setLedger s p r l).dests = s.dests := rfl
@[simp] theorem setLedger_wakes : (setLedger s p r l).wakes = s.wakes := rfl
@[simp] theorem setLedger_activity : (setLedger s p r l).activity = s.activity := rfl
@[simp] theorem setLedger_transfers : (setLedger s p r l).transfers = s.transfers := rfl
@[simp] theorem setLedger_nextXfer : (setLedger s p r l).nextXfer = s.nextXfer := rfl
@[simp] theorem setLedger_ops : (setLedger s p r l).ops = s.ops := rfl
@[simp] theorem setLedger_nextOp : (setLedger s p r l).nextOp = s.nextOp := rfl
@[simp] theorem setLedger_logs : (setLedger s p r l).logs = s.logs := rfl
@[simp] theorem setLedger_phys : (setLedger s p r l).phys = s.phys := rfl
@[simp] theorem setLedger_tables : (setLedger s p r l).tables = s.tables := rfl
@[simp] theorem setLedger_keptPins : (setLedger s p r l).keptPins = s.keptPins := rfl
@[simp] theorem setLedger_links : (setLedger s p r l).links = s.links := rfl
@[simp] theorem setLedger_ports : (setLedger s p r l).ports = s.ports := rfl
@[simp] theorem setLedger_fns : (setLedger s p r l).fns = s.fns := rfl
@[simp] theorem setLedger_cfgs : (setLedger s p r l).cfgs = s.cfgs := rfl
@[simp] theorem setLedger_cmds : (setLedger s p r l).cmds = s.cmds := rfl
@[simp] theorem setLedger_nextCmd : (setLedger s p r l).nextCmd = s.nextCmd := rfl
@[simp] theorem setLedger_records : (setLedger s p r l).records = s.records := rfl
@[simp] theorem setLedger_allocs : (setLedger s p r l).allocs = s.allocs := rfl
@[simp] theorem setLedger_nextHandle : (setLedger s p r l).nextHandle = s.nextHandle := rfl
@[simp] theorem setLedger_loans : (setLedger s p r l).loans = s.loans := rfl
@[simp] theorem setLedger_later : (setLedger s p r l).later = s.later := rfl
@[simp] theorem setLedger_votes : (setLedger s p r l).votes = s.votes := rfl
@[simp] theorem setLedger_keels : (setLedger s p r l).keels = s.keels := rfl
@[simp] theorem setLedger_hold : (setLedger s p r l).hold = s.hold := rfl
@[simp] theorem setLedger_faultLog : (setLedger s p r l).faultLog = s.faultLog := rfl
@[simp] theorem setLedger_logTotal : (setLedger s p r l).logTotal = s.logTotal := rfl
@[simp] theorem setLedger_flash : (setLedger s p r l).flash = s.flash := rfl
@[simp] theorem setLedger_life : (setLedger s p r l).life = s.life := rfl
@[simp] theorem setLedger_power : (setLedger s p r l).power = s.power := rfl
@[simp] theorem setLedger_board : (setLedger s p r l).board = s.board := rfl
@[simp] theorem setLedger_out : (setLedger s p r l).out = s.out := rfl
@[simp] theorem setLedger_lowered : (setLedger s p r l).lowered = s.lowered := rfl
@[simp] theorem setLedger_objects : (setLedger s p r l).objects = s.objects := rfl
@[simp] theorem setLedger_checkpoints : (setLedger s p r l).checkpoints = s.checkpoints := rfl
@[simp] theorem setLedger_cmdTurn : (setLedger s p r l).cmdTurn = s.cmdTurn := rfl
@[simp] theorem setLedger_addendum : (setLedger s p r l).addendum = s.addendum := rfl
@[simp] theorem setLedger_loadBank : (setLedger s p r l).loadBank = s.loadBank := rfl
@[simp] theorem setLedger_notice : (setLedger s p r l).notice = s.notice := rfl
@[simp] theorem setLedger_lowerRev : (setLedger s p r l).lowerRev = s.lowerRev := rfl
@[simp] theorem setLedger_lastEvent : (setLedger s p r l).lastEvent = s.lastEvent := rfl
@[simp] theorem setLedger_w1cAt : (setLedger s p r l).w1cAt = s.w1cAt := rfl
@[simp] theorem setLedger_freeCounter : (setLedger s p r l).freeCounter = s.freeCounter := rfl
@[simp] theorem setLedger_ctxOf {i : Nat} : ctxOf (setLedger s p r l) i = ctxOf s i := rfl
@[simp] theorem setLedger_regionOf {i : Nat} : regionOf (setLedger s p r l) i = regionOf s i := rfl
@[simp] theorem setLedger_seqOf {i : Nat} : seqOf (setLedger s p r l) i = seqOf s i := rfl
@[simp] theorem setLedger_reelUnit {i j : Nat} : reelUnit (setLedger s p r l) i j = reelUnit s i j := rfl
@[simp] theorem setLedger_physOf {i : Nat} : physOf (setLedger s p r l) i = physOf s i := rfl
@[simp] theorem setLedger_physOfLogical {i : Nat} : physOfLogical (setLedger s p r l) i = physOfLogical s i := rfl
@[simp] theorem setLedger_linkOf {i : Nat} : linkOf (setLedger s p r l) i = linkOf s i := rfl
@[simp] theorem setLedger_portOf {i : Nat} : portOf (setLedger s p r l) i = portOf s i := rfl
@[simp] theorem setLedger_fnOf {i : Nat} : fnOf (setLedger s p r l) i = fnOf s i := rfl
@[simp] theorem setLedger_queueOf {i j : Nat} : queueOf (setLedger s p r l) i j = queueOf s i j := rfl
@[simp] theorem setLedger_tableOf {i : Nat} : tableOf (setLedger s p r l) i = tableOf s i := rfl
@[simp] theorem setLedger_destOf {i : Resource} : destOf (setLedger s p r l) i = destOf s i := rfl
@[simp] theorem setLedger_threadOf {i : ThreadId} : threadOf (setLedger s p r l) i = threadOf s i := rfl
@[simp] theorem setLedger_theThread {i : ThreadId} : theThread (setLedger s p r l) i = theThread s i := rfl
@[simp] theorem setLedger_groupOf {i : ThreadId} : groupOf (setLedger s p r l) i = groupOf s i := rfl
@[simp] theorem setLedger_vectorOf {i : ThreadId} : vectorOf (setLedger s p r l) i = vectorOf s i := rfl
@[simp] theorem setLedger_rawReg {i : Nat} : rawReg (setLedger s p r l) i = rawReg s i := rfl
@[simp] theorem setLedger_rawField {i j k : Nat} : rawField (setLedger s p r l) i j k = rawField s i j k := rfl
@[simp] theorem setLedger_findRequest {i : Nat} : findRequest (setLedger s p r l) i = findRequest s i := rfl
@[simp] theorem setLedger_findOp {i : Nat} : findOp (setLedger s p r l) i = findOp s i := rfl
@[simp] theorem setLedger_findCmd {i : Nat} : findCmd (setLedger s p r l) i = findCmd s i := rfl
@[simp] theorem setLedger_findTransfer {i : XferUse} : findTransfer (setLedger s p r l) i = findTransfer s i := rfl
@[simp] theorem setLedger_now : now (setLedger s p r l) = now s := rfl
@[simp] theorem setLedger_memKey {i : Nat} : memKey (setLedger s p r l) i = memKey s i := rfl
@[simp] theorem setLedger_fnPort {i : Nat} : fnPort (setLedger s p r l) i = fnPort s i := rfl

end setLedger

/-! ### emit -/

section emit

variable {s : State} {o : Output}

@[simp] theorem emit_pending : (emit s o).pending = s.pending := rfl
@[simp] theorem emit_part : (emit s o).part = s.part := rfl
@[simp] theorem emit_clock : (emit s o).clock = s.clock := rfl
@[simp] theorem emit_mem : (emit s o).mem = s.mem := rfl
@[simp] theorem emit_pages : (emit s o).pages = s.pages := rfl
@[simp] theorem emit_retiredGranules : (emit s o).retiredGranules = s.retiredGranules := rfl
@[simp] theorem emit_granuleErrors : (emit s o).granuleErrors = s.granuleErrors := rfl
@[simp] theorem emit_regs : (emit s o).regs = s.regs := rfl
@[simp] theorem emit_contexts : (emit s o).contexts = s.contexts := rfl
@[simp] theorem emit_threads : (emit s o).threads = s.threads := rfl
@[simp] theorem emit_groups : (emit s o).groups = s.groups := rfl
@[simp] theorem emit_vectors : (emit s o).vectors = s.vectors := rfl
@[simp] theorem emit_requests : (emit s o).requests = s.requests := rfl
@[simp] theorem emit_nextReq : (emit s o).nextReq = s.nextReq := rfl
@[simp] theorem emit_dests : (emit s o).dests = s.dests := rfl
@[simp] theorem emit_ledgers : (emit s o).ledgers = s.ledgers := rfl
@[simp] theorem emit_wakes : (emit s o).wakes = s.wakes := rfl
@[simp] theorem emit_activity : (emit s o).activity = s.activity := rfl
@[simp] theorem emit_transfers : (emit s o).transfers = s.transfers := rfl
@[simp] theorem emit_nextXfer : (emit s o).nextXfer = s.nextXfer := rfl
@[simp] theorem emit_ops : (emit s o).ops = s.ops := rfl
@[simp] theorem emit_nextOp : (emit s o).nextOp = s.nextOp := rfl
@[simp] theorem emit_logs : (emit s o).logs = s.logs := rfl
@[simp] theorem emit_phys : (emit s o).phys = s.phys := rfl
@[simp] theorem emit_tables : (emit s o).tables = s.tables := rfl
@[simp] theorem emit_keptPins : (emit s o).keptPins = s.keptPins := rfl
@[simp] theorem emit_links : (emit s o).links = s.links := rfl
@[simp] theorem emit_ports : (emit s o).ports = s.ports := rfl
@[simp] theorem emit_fns : (emit s o).fns = s.fns := rfl
@[simp] theorem emit_cfgs : (emit s o).cfgs = s.cfgs := rfl
@[simp] theorem emit_cmds : (emit s o).cmds = s.cmds := rfl
@[simp] theorem emit_nextCmd : (emit s o).nextCmd = s.nextCmd := rfl
@[simp] theorem emit_records : (emit s o).records = s.records := rfl
@[simp] theorem emit_allocs : (emit s o).allocs = s.allocs := rfl
@[simp] theorem emit_nextHandle : (emit s o).nextHandle = s.nextHandle := rfl
@[simp] theorem emit_loans : (emit s o).loans = s.loans := rfl
@[simp] theorem emit_later : (emit s o).later = s.later := rfl
@[simp] theorem emit_votes : (emit s o).votes = s.votes := rfl
@[simp] theorem emit_keels : (emit s o).keels = s.keels := rfl
@[simp] theorem emit_hold : (emit s o).hold = s.hold := rfl
@[simp] theorem emit_faultLog : (emit s o).faultLog = s.faultLog := rfl
@[simp] theorem emit_logTotal : (emit s o).logTotal = s.logTotal := rfl
@[simp] theorem emit_flash : (emit s o).flash = s.flash := rfl
@[simp] theorem emit_life : (emit s o).life = s.life := rfl
@[simp] theorem emit_power : (emit s o).power = s.power := rfl
@[simp] theorem emit_board : (emit s o).board = s.board := rfl
@[simp] theorem emit_lowered : (emit s o).lowered = s.lowered := rfl
@[simp] theorem emit_objects : (emit s o).objects = s.objects := rfl
@[simp] theorem emit_checkpoints : (emit s o).checkpoints = s.checkpoints := rfl
@[simp] theorem emit_cmdTurn : (emit s o).cmdTurn = s.cmdTurn := rfl
@[simp] theorem emit_addendum : (emit s o).addendum = s.addendum := rfl
@[simp] theorem emit_loadBank : (emit s o).loadBank = s.loadBank := rfl
@[simp] theorem emit_notice : (emit s o).notice = s.notice := rfl
@[simp] theorem emit_lowerRev : (emit s o).lowerRev = s.lowerRev := rfl
@[simp] theorem emit_lastEvent : (emit s o).lastEvent = s.lastEvent := rfl
@[simp] theorem emit_w1cAt : (emit s o).w1cAt = s.w1cAt := rfl
@[simp] theorem emit_freeCounter : (emit s o).freeCounter = s.freeCounter := rfl
@[simp] theorem emit_ctxOf {i : Nat} : ctxOf (emit s o) i = ctxOf s i := rfl
@[simp] theorem emit_regionOf {i : Nat} : regionOf (emit s o) i = regionOf s i := rfl
@[simp] theorem emit_seqOf {i : Nat} : seqOf (emit s o) i = seqOf s i := rfl
@[simp] theorem emit_reelUnit {i j : Nat} : reelUnit (emit s o) i j = reelUnit s i j := rfl
@[simp] theorem emit_physOf {i : Nat} : physOf (emit s o) i = physOf s i := rfl
@[simp] theorem emit_physOfLogical {i : Nat} : physOfLogical (emit s o) i = physOfLogical s i := rfl
@[simp] theorem emit_linkOf {i : Nat} : linkOf (emit s o) i = linkOf s i := rfl
@[simp] theorem emit_portOf {i : Nat} : portOf (emit s o) i = portOf s i := rfl
@[simp] theorem emit_fnOf {i : Nat} : fnOf (emit s o) i = fnOf s i := rfl
@[simp] theorem emit_queueOf {i j : Nat} : queueOf (emit s o) i j = queueOf s i j := rfl
@[simp] theorem emit_tableOf {i : Nat} : tableOf (emit s o) i = tableOf s i := rfl
@[simp] theorem emit_destOf {i : Resource} : destOf (emit s o) i = destOf s i := rfl
@[simp] theorem emit_ledgerOf {i : AdmPoint} {j : Resource} : ledgerOf (emit s o) i j = ledgerOf s i j := rfl
@[simp] theorem emit_threadOf {i : ThreadId} : threadOf (emit s o) i = threadOf s i := rfl
@[simp] theorem emit_theThread {i : ThreadId} : theThread (emit s o) i = theThread s i := rfl
@[simp] theorem emit_groupOf {i : ThreadId} : groupOf (emit s o) i = groupOf s i := rfl
@[simp] theorem emit_vectorOf {i : ThreadId} : vectorOf (emit s o) i = vectorOf s i := rfl
@[simp] theorem emit_rawReg {i : Nat} : rawReg (emit s o) i = rawReg s i := rfl
@[simp] theorem emit_rawField {i j k : Nat} : rawField (emit s o) i j k = rawField s i j k := rfl
@[simp] theorem emit_findRequest {i : Nat} : findRequest (emit s o) i = findRequest s i := rfl
@[simp] theorem emit_findOp {i : Nat} : findOp (emit s o) i = findOp s i := rfl
@[simp] theorem emit_findCmd {i : Nat} : findCmd (emit s o) i = findCmd s i := rfl
@[simp] theorem emit_findTransfer {i : XferUse} : findTransfer (emit s o) i = findTransfer s i := rfl
@[simp] theorem emit_now : now (emit s o) = now s := rfl
@[simp] theorem emit_memKey {i : Nat} : memKey (emit s o) i = memKey s i := rfl
@[simp] theorem emit_fnPort {i : Nat} : fnPort (emit s o) i = fnPort s i := rfl

end emit

/-! ### logFault -/

section logFault

variable {s : State} {a b c d e : Nat}

@[simp] theorem logFault_pending : (logFault s a b c d e).pending = s.pending := rfl
@[simp] theorem logFault_part : (logFault s a b c d e).part = s.part := rfl
@[simp] theorem logFault_clock : (logFault s a b c d e).clock = s.clock := rfl
@[simp] theorem logFault_mem : (logFault s a b c d e).mem = s.mem := rfl
@[simp] theorem logFault_pages : (logFault s a b c d e).pages = s.pages := rfl
@[simp] theorem logFault_retiredGranules : (logFault s a b c d e).retiredGranules = s.retiredGranules := rfl
@[simp] theorem logFault_granuleErrors : (logFault s a b c d e).granuleErrors = s.granuleErrors := rfl
@[simp] theorem logFault_regs : (logFault s a b c d e).regs = s.regs := rfl
@[simp] theorem logFault_contexts : (logFault s a b c d e).contexts = s.contexts := rfl
@[simp] theorem logFault_threads : (logFault s a b c d e).threads = s.threads := rfl
@[simp] theorem logFault_groups : (logFault s a b c d e).groups = s.groups := rfl
@[simp] theorem logFault_vectors : (logFault s a b c d e).vectors = s.vectors := rfl
@[simp] theorem logFault_requests : (logFault s a b c d e).requests = s.requests := rfl
@[simp] theorem logFault_nextReq : (logFault s a b c d e).nextReq = s.nextReq := rfl
@[simp] theorem logFault_dests : (logFault s a b c d e).dests = s.dests := rfl
@[simp] theorem logFault_ledgers : (logFault s a b c d e).ledgers = s.ledgers := rfl
@[simp] theorem logFault_wakes : (logFault s a b c d e).wakes = s.wakes := rfl
@[simp] theorem logFault_activity : (logFault s a b c d e).activity = s.activity := rfl
@[simp] theorem logFault_transfers : (logFault s a b c d e).transfers = s.transfers := rfl
@[simp] theorem logFault_nextXfer : (logFault s a b c d e).nextXfer = s.nextXfer := rfl
@[simp] theorem logFault_ops : (logFault s a b c d e).ops = s.ops := rfl
@[simp] theorem logFault_nextOp : (logFault s a b c d e).nextOp = s.nextOp := rfl
@[simp] theorem logFault_logs : (logFault s a b c d e).logs = s.logs := rfl
@[simp] theorem logFault_phys : (logFault s a b c d e).phys = s.phys := rfl
@[simp] theorem logFault_tables : (logFault s a b c d e).tables = s.tables := rfl
@[simp] theorem logFault_keptPins : (logFault s a b c d e).keptPins = s.keptPins := rfl
@[simp] theorem logFault_links : (logFault s a b c d e).links = s.links := rfl
@[simp] theorem logFault_ports : (logFault s a b c d e).ports = s.ports := rfl
@[simp] theorem logFault_fns : (logFault s a b c d e).fns = s.fns := rfl
@[simp] theorem logFault_cfgs : (logFault s a b c d e).cfgs = s.cfgs := rfl
@[simp] theorem logFault_cmds : (logFault s a b c d e).cmds = s.cmds := rfl
@[simp] theorem logFault_nextCmd : (logFault s a b c d e).nextCmd = s.nextCmd := rfl
@[simp] theorem logFault_records : (logFault s a b c d e).records = s.records := rfl
@[simp] theorem logFault_allocs : (logFault s a b c d e).allocs = s.allocs := rfl
@[simp] theorem logFault_nextHandle : (logFault s a b c d e).nextHandle = s.nextHandle := rfl
@[simp] theorem logFault_loans : (logFault s a b c d e).loans = s.loans := rfl
@[simp] theorem logFault_later : (logFault s a b c d e).later = s.later := rfl
@[simp] theorem logFault_votes : (logFault s a b c d e).votes = s.votes := rfl
@[simp] theorem logFault_keels : (logFault s a b c d e).keels = s.keels := rfl
@[simp] theorem logFault_hold : (logFault s a b c d e).hold = s.hold := rfl
@[simp] theorem logFault_flash : (logFault s a b c d e).flash = s.flash := rfl
@[simp] theorem logFault_life : (logFault s a b c d e).life = s.life := rfl
@[simp] theorem logFault_power : (logFault s a b c d e).power = s.power := rfl
@[simp] theorem logFault_board : (logFault s a b c d e).board = s.board := rfl
@[simp] theorem logFault_out : (logFault s a b c d e).out = s.out := rfl
@[simp] theorem logFault_lowered : (logFault s a b c d e).lowered = s.lowered := rfl
@[simp] theorem logFault_objects : (logFault s a b c d e).objects = s.objects := rfl
@[simp] theorem logFault_checkpoints : (logFault s a b c d e).checkpoints = s.checkpoints := rfl
@[simp] theorem logFault_cmdTurn : (logFault s a b c d e).cmdTurn = s.cmdTurn := rfl
@[simp] theorem logFault_addendum : (logFault s a b c d e).addendum = s.addendum := rfl
@[simp] theorem logFault_loadBank : (logFault s a b c d e).loadBank = s.loadBank := rfl
@[simp] theorem logFault_notice : (logFault s a b c d e).notice = s.notice := rfl
@[simp] theorem logFault_lowerRev : (logFault s a b c d e).lowerRev = s.lowerRev := rfl
@[simp] theorem logFault_lastEvent : (logFault s a b c d e).lastEvent = s.lastEvent := rfl
@[simp] theorem logFault_w1cAt : (logFault s a b c d e).w1cAt = s.w1cAt := rfl
@[simp] theorem logFault_freeCounter : (logFault s a b c d e).freeCounter = s.freeCounter := rfl
@[simp] theorem logFault_ctxOf {i : Nat} : ctxOf (logFault s a b c d e) i = ctxOf s i := rfl
@[simp] theorem logFault_regionOf {i : Nat} : regionOf (logFault s a b c d e) i = regionOf s i := rfl
@[simp] theorem logFault_seqOf {i : Nat} : seqOf (logFault s a b c d e) i = seqOf s i := rfl
@[simp] theorem logFault_reelUnit {i j : Nat} : reelUnit (logFault s a b c d e) i j = reelUnit s i j := rfl
@[simp] theorem logFault_physOf {i : Nat} : physOf (logFault s a b c d e) i = physOf s i := rfl
@[simp] theorem logFault_physOfLogical {i : Nat} : physOfLogical (logFault s a b c d e) i = physOfLogical s i := rfl
@[simp] theorem logFault_linkOf {i : Nat} : linkOf (logFault s a b c d e) i = linkOf s i := rfl
@[simp] theorem logFault_portOf {i : Nat} : portOf (logFault s a b c d e) i = portOf s i := rfl
@[simp] theorem logFault_fnOf {i : Nat} : fnOf (logFault s a b c d e) i = fnOf s i := rfl
@[simp] theorem logFault_queueOf {i j : Nat} : queueOf (logFault s a b c d e) i j = queueOf s i j := rfl
@[simp] theorem logFault_tableOf {i : Nat} : tableOf (logFault s a b c d e) i = tableOf s i := rfl
@[simp] theorem logFault_destOf {i : Resource} : destOf (logFault s a b c d e) i = destOf s i := rfl
@[simp] theorem logFault_ledgerOf {i : AdmPoint} {j : Resource} : ledgerOf (logFault s a b c d e) i j = ledgerOf s i j := rfl
@[simp] theorem logFault_threadOf {i : ThreadId} : threadOf (logFault s a b c d e) i = threadOf s i := rfl
@[simp] theorem logFault_theThread {i : ThreadId} : theThread (logFault s a b c d e) i = theThread s i := rfl
@[simp] theorem logFault_groupOf {i : ThreadId} : groupOf (logFault s a b c d e) i = groupOf s i := rfl
@[simp] theorem logFault_vectorOf {i : ThreadId} : vectorOf (logFault s a b c d e) i = vectorOf s i := rfl
@[simp] theorem logFault_rawReg {i : Nat} : rawReg (logFault s a b c d e) i = rawReg s i := rfl
@[simp] theorem logFault_rawField {i j k : Nat} : rawField (logFault s a b c d e) i j k = rawField s i j k := rfl
@[simp] theorem logFault_findRequest {i : Nat} : findRequest (logFault s a b c d e) i = findRequest s i := rfl
@[simp] theorem logFault_findOp {i : Nat} : findOp (logFault s a b c d e) i = findOp s i := rfl
@[simp] theorem logFault_findCmd {i : Nat} : findCmd (logFault s a b c d e) i = findCmd s i := rfl
@[simp] theorem logFault_findTransfer {i : XferUse} : findTransfer (logFault s a b c d e) i = findTransfer s i := rfl
@[simp] theorem logFault_now : now (logFault s a b c d e) = now s := rfl
@[simp] theorem logFault_memKey {i : Nat} : memKey (logFault s a b c d e) i = memKey s i := rfl
@[simp] theorem logFault_fnPort {i : Nat} : fnPort (logFault s a b c d e) i = fnPort s i := rfl

end logFault

/-! ### postRecord -/

section postRecord

variable {s : State} {r : Record}

@[simp] theorem postRecord_pending : (postRecord s r).pending = s.pending := rfl
@[simp] theorem postRecord_part : (postRecord s r).part = s.part := rfl
@[simp] theorem postRecord_clock : (postRecord s r).clock = s.clock := rfl
@[simp] theorem postRecord_mem : (postRecord s r).mem = s.mem := rfl
@[simp] theorem postRecord_pages : (postRecord s r).pages = s.pages := rfl
@[simp] theorem postRecord_retiredGranules : (postRecord s r).retiredGranules = s.retiredGranules := rfl
@[simp] theorem postRecord_granuleErrors : (postRecord s r).granuleErrors = s.granuleErrors := rfl
@[simp] theorem postRecord_regs : (postRecord s r).regs = s.regs := rfl
@[simp] theorem postRecord_contexts : (postRecord s r).contexts = s.contexts := rfl
@[simp] theorem postRecord_threads : (postRecord s r).threads = s.threads := rfl
@[simp] theorem postRecord_groups : (postRecord s r).groups = s.groups := rfl
@[simp] theorem postRecord_vectors : (postRecord s r).vectors = s.vectors := rfl
@[simp] theorem postRecord_requests : (postRecord s r).requests = s.requests := rfl
@[simp] theorem postRecord_nextReq : (postRecord s r).nextReq = s.nextReq := rfl
@[simp] theorem postRecord_dests : (postRecord s r).dests = s.dests := rfl
@[simp] theorem postRecord_ledgers : (postRecord s r).ledgers = s.ledgers := rfl
@[simp] theorem postRecord_wakes : (postRecord s r).wakes = s.wakes := rfl
@[simp] theorem postRecord_activity : (postRecord s r).activity = s.activity := rfl
@[simp] theorem postRecord_transfers : (postRecord s r).transfers = s.transfers := rfl
@[simp] theorem postRecord_nextXfer : (postRecord s r).nextXfer = s.nextXfer := rfl
@[simp] theorem postRecord_ops : (postRecord s r).ops = s.ops := rfl
@[simp] theorem postRecord_nextOp : (postRecord s r).nextOp = s.nextOp := rfl
@[simp] theorem postRecord_logs : (postRecord s r).logs = s.logs := rfl
@[simp] theorem postRecord_phys : (postRecord s r).phys = s.phys := rfl
@[simp] theorem postRecord_tables : (postRecord s r).tables = s.tables := rfl
@[simp] theorem postRecord_keptPins : (postRecord s r).keptPins = s.keptPins := rfl
@[simp] theorem postRecord_links : (postRecord s r).links = s.links := rfl
@[simp] theorem postRecord_ports : (postRecord s r).ports = s.ports := rfl
@[simp] theorem postRecord_fns : (postRecord s r).fns = s.fns := rfl
@[simp] theorem postRecord_cfgs : (postRecord s r).cfgs = s.cfgs := rfl
@[simp] theorem postRecord_cmds : (postRecord s r).cmds = s.cmds := rfl
@[simp] theorem postRecord_nextCmd : (postRecord s r).nextCmd = s.nextCmd := rfl
@[simp] theorem postRecord_allocs : (postRecord s r).allocs = s.allocs := rfl
@[simp] theorem postRecord_nextHandle : (postRecord s r).nextHandle = s.nextHandle := rfl
@[simp] theorem postRecord_loans : (postRecord s r).loans = s.loans := rfl
@[simp] theorem postRecord_later : (postRecord s r).later = s.later := rfl
@[simp] theorem postRecord_votes : (postRecord s r).votes = s.votes := rfl
@[simp] theorem postRecord_keels : (postRecord s r).keels = s.keels := rfl
@[simp] theorem postRecord_hold : (postRecord s r).hold = s.hold := rfl
@[simp] theorem postRecord_faultLog : (postRecord s r).faultLog = s.faultLog := rfl
@[simp] theorem postRecord_logTotal : (postRecord s r).logTotal = s.logTotal := rfl
@[simp] theorem postRecord_flash : (postRecord s r).flash = s.flash := rfl
@[simp] theorem postRecord_life : (postRecord s r).life = s.life := rfl
@[simp] theorem postRecord_power : (postRecord s r).power = s.power := rfl
@[simp] theorem postRecord_board : (postRecord s r).board = s.board := rfl
@[simp] theorem postRecord_out : (postRecord s r).out = s.out := rfl
@[simp] theorem postRecord_lowered : (postRecord s r).lowered = s.lowered := rfl
@[simp] theorem postRecord_objects : (postRecord s r).objects = s.objects := rfl
@[simp] theorem postRecord_checkpoints : (postRecord s r).checkpoints = s.checkpoints := rfl
@[simp] theorem postRecord_cmdTurn : (postRecord s r).cmdTurn = s.cmdTurn := rfl
@[simp] theorem postRecord_addendum : (postRecord s r).addendum = s.addendum := rfl
@[simp] theorem postRecord_loadBank : (postRecord s r).loadBank = s.loadBank := rfl
@[simp] theorem postRecord_notice : (postRecord s r).notice = s.notice := rfl
@[simp] theorem postRecord_lowerRev : (postRecord s r).lowerRev = s.lowerRev := rfl
@[simp] theorem postRecord_lastEvent : (postRecord s r).lastEvent = s.lastEvent := rfl
@[simp] theorem postRecord_w1cAt : (postRecord s r).w1cAt = s.w1cAt := rfl
@[simp] theorem postRecord_freeCounter : (postRecord s r).freeCounter = s.freeCounter := rfl
@[simp] theorem postRecord_ctxOf {i : Nat} : ctxOf (postRecord s r) i = ctxOf s i := rfl
@[simp] theorem postRecord_regionOf {i : Nat} : regionOf (postRecord s r) i = regionOf s i := rfl
@[simp] theorem postRecord_seqOf {i : Nat} : seqOf (postRecord s r) i = seqOf s i := rfl
@[simp] theorem postRecord_reelUnit {i j : Nat} : reelUnit (postRecord s r) i j = reelUnit s i j := rfl
@[simp] theorem postRecord_physOf {i : Nat} : physOf (postRecord s r) i = physOf s i := rfl
@[simp] theorem postRecord_physOfLogical {i : Nat} : physOfLogical (postRecord s r) i = physOfLogical s i := rfl
@[simp] theorem postRecord_linkOf {i : Nat} : linkOf (postRecord s r) i = linkOf s i := rfl
@[simp] theorem postRecord_portOf {i : Nat} : portOf (postRecord s r) i = portOf s i := rfl
@[simp] theorem postRecord_fnOf {i : Nat} : fnOf (postRecord s r) i = fnOf s i := rfl
@[simp] theorem postRecord_queueOf {i j : Nat} : queueOf (postRecord s r) i j = queueOf s i j := rfl
@[simp] theorem postRecord_tableOf {i : Nat} : tableOf (postRecord s r) i = tableOf s i := rfl
@[simp] theorem postRecord_destOf {i : Resource} : destOf (postRecord s r) i = destOf s i := rfl
@[simp] theorem postRecord_ledgerOf {i : AdmPoint} {j : Resource} : ledgerOf (postRecord s r) i j = ledgerOf s i j := rfl
@[simp] theorem postRecord_threadOf {i : ThreadId} : threadOf (postRecord s r) i = threadOf s i := rfl
@[simp] theorem postRecord_theThread {i : ThreadId} : theThread (postRecord s r) i = theThread s i := rfl
@[simp] theorem postRecord_groupOf {i : ThreadId} : groupOf (postRecord s r) i = groupOf s i := rfl
@[simp] theorem postRecord_vectorOf {i : ThreadId} : vectorOf (postRecord s r) i = vectorOf s i := rfl
@[simp] theorem postRecord_rawReg {i : Nat} : rawReg (postRecord s r) i = rawReg s i := rfl
@[simp] theorem postRecord_rawField {i j k : Nat} : rawField (postRecord s r) i j k = rawField s i j k := rfl
@[simp] theorem postRecord_findRequest {i : Nat} : findRequest (postRecord s r) i = findRequest s i := rfl
@[simp] theorem postRecord_findOp {i : Nat} : findOp (postRecord s r) i = findOp s i := rfl
@[simp] theorem postRecord_findCmd {i : Nat} : findCmd (postRecord s r) i = findCmd s i := rfl
@[simp] theorem postRecord_findTransfer {i : XferUse} : findTransfer (postRecord s r) i = findTransfer s i := rfl
@[simp] theorem postRecord_now : now (postRecord s r) = now s := rfl
@[simp] theorem postRecord_memKey {i : Nat} : memKey (postRecord s r) i = memKey s i := rfl
@[simp] theorem postRecord_fnPort {i : Nat} : fnPort (postRecord s r) i = fnPort s i := rfl

end postRecord

/-! ### modObject -/

section modObject

variable {s : State} {h : Nat} {f : PoolObject → PoolObject}

@[simp] theorem modObject_pending : (modObject s h f).pending = s.pending := rfl
@[simp] theorem modObject_part : (modObject s h f).part = s.part := rfl
@[simp] theorem modObject_clock : (modObject s h f).clock = s.clock := rfl
@[simp] theorem modObject_mem : (modObject s h f).mem = s.mem := rfl
@[simp] theorem modObject_pages : (modObject s h f).pages = s.pages := rfl
@[simp] theorem modObject_retiredGranules : (modObject s h f).retiredGranules = s.retiredGranules := rfl
@[simp] theorem modObject_granuleErrors : (modObject s h f).granuleErrors = s.granuleErrors := rfl
@[simp] theorem modObject_regs : (modObject s h f).regs = s.regs := rfl
@[simp] theorem modObject_contexts : (modObject s h f).contexts = s.contexts := rfl
@[simp] theorem modObject_threads : (modObject s h f).threads = s.threads := rfl
@[simp] theorem modObject_groups : (modObject s h f).groups = s.groups := rfl
@[simp] theorem modObject_vectors : (modObject s h f).vectors = s.vectors := rfl
@[simp] theorem modObject_requests : (modObject s h f).requests = s.requests := rfl
@[simp] theorem modObject_nextReq : (modObject s h f).nextReq = s.nextReq := rfl
@[simp] theorem modObject_dests : (modObject s h f).dests = s.dests := rfl
@[simp] theorem modObject_ledgers : (modObject s h f).ledgers = s.ledgers := rfl
@[simp] theorem modObject_wakes : (modObject s h f).wakes = s.wakes := rfl
@[simp] theorem modObject_activity : (modObject s h f).activity = s.activity := rfl
@[simp] theorem modObject_transfers : (modObject s h f).transfers = s.transfers := rfl
@[simp] theorem modObject_nextXfer : (modObject s h f).nextXfer = s.nextXfer := rfl
@[simp] theorem modObject_ops : (modObject s h f).ops = s.ops := rfl
@[simp] theorem modObject_nextOp : (modObject s h f).nextOp = s.nextOp := rfl
@[simp] theorem modObject_logs : (modObject s h f).logs = s.logs := rfl
@[simp] theorem modObject_phys : (modObject s h f).phys = s.phys := rfl
@[simp] theorem modObject_tables : (modObject s h f).tables = s.tables := rfl
@[simp] theorem modObject_keptPins : (modObject s h f).keptPins = s.keptPins := rfl
@[simp] theorem modObject_links : (modObject s h f).links = s.links := rfl
@[simp] theorem modObject_ports : (modObject s h f).ports = s.ports := rfl
@[simp] theorem modObject_fns : (modObject s h f).fns = s.fns := rfl
@[simp] theorem modObject_cfgs : (modObject s h f).cfgs = s.cfgs := rfl
@[simp] theorem modObject_cmds : (modObject s h f).cmds = s.cmds := rfl
@[simp] theorem modObject_nextCmd : (modObject s h f).nextCmd = s.nextCmd := rfl
@[simp] theorem modObject_records : (modObject s h f).records = s.records := rfl
@[simp] theorem modObject_allocs : (modObject s h f).allocs = s.allocs := rfl
@[simp] theorem modObject_nextHandle : (modObject s h f).nextHandle = s.nextHandle := rfl
@[simp] theorem modObject_loans : (modObject s h f).loans = s.loans := rfl
@[simp] theorem modObject_later : (modObject s h f).later = s.later := rfl
@[simp] theorem modObject_votes : (modObject s h f).votes = s.votes := rfl
@[simp] theorem modObject_keels : (modObject s h f).keels = s.keels := rfl
@[simp] theorem modObject_hold : (modObject s h f).hold = s.hold := rfl
@[simp] theorem modObject_faultLog : (modObject s h f).faultLog = s.faultLog := rfl
@[simp] theorem modObject_logTotal : (modObject s h f).logTotal = s.logTotal := rfl
@[simp] theorem modObject_flash : (modObject s h f).flash = s.flash := rfl
@[simp] theorem modObject_life : (modObject s h f).life = s.life := rfl
@[simp] theorem modObject_power : (modObject s h f).power = s.power := rfl
@[simp] theorem modObject_board : (modObject s h f).board = s.board := rfl
@[simp] theorem modObject_out : (modObject s h f).out = s.out := rfl
@[simp] theorem modObject_lowered : (modObject s h f).lowered = s.lowered := rfl
@[simp] theorem modObject_checkpoints : (modObject s h f).checkpoints = s.checkpoints := rfl
@[simp] theorem modObject_cmdTurn : (modObject s h f).cmdTurn = s.cmdTurn := rfl
@[simp] theorem modObject_addendum : (modObject s h f).addendum = s.addendum := rfl
@[simp] theorem modObject_loadBank : (modObject s h f).loadBank = s.loadBank := rfl
@[simp] theorem modObject_notice : (modObject s h f).notice = s.notice := rfl
@[simp] theorem modObject_lowerRev : (modObject s h f).lowerRev = s.lowerRev := rfl
@[simp] theorem modObject_lastEvent : (modObject s h f).lastEvent = s.lastEvent := rfl
@[simp] theorem modObject_w1cAt : (modObject s h f).w1cAt = s.w1cAt := rfl
@[simp] theorem modObject_freeCounter : (modObject s h f).freeCounter = s.freeCounter := rfl
@[simp] theorem modObject_ctxOf {i : Nat} : ctxOf (modObject s h f) i = ctxOf s i := rfl
@[simp] theorem modObject_regionOf {i : Nat} : regionOf (modObject s h f) i = regionOf s i := rfl
@[simp] theorem modObject_seqOf {i : Nat} : seqOf (modObject s h f) i = seqOf s i := rfl
@[simp] theorem modObject_reelUnit {i j : Nat} : reelUnit (modObject s h f) i j = reelUnit s i j := rfl
@[simp] theorem modObject_physOf {i : Nat} : physOf (modObject s h f) i = physOf s i := rfl
@[simp] theorem modObject_physOfLogical {i : Nat} : physOfLogical (modObject s h f) i = physOfLogical s i := rfl
@[simp] theorem modObject_linkOf {i : Nat} : linkOf (modObject s h f) i = linkOf s i := rfl
@[simp] theorem modObject_portOf {i : Nat} : portOf (modObject s h f) i = portOf s i := rfl
@[simp] theorem modObject_fnOf {i : Nat} : fnOf (modObject s h f) i = fnOf s i := rfl
@[simp] theorem modObject_queueOf {i j : Nat} : queueOf (modObject s h f) i j = queueOf s i j := rfl
@[simp] theorem modObject_tableOf {i : Nat} : tableOf (modObject s h f) i = tableOf s i := rfl
@[simp] theorem modObject_destOf {i : Resource} : destOf (modObject s h f) i = destOf s i := rfl
@[simp] theorem modObject_ledgerOf {i : AdmPoint} {j : Resource} : ledgerOf (modObject s h f) i j = ledgerOf s i j := rfl
@[simp] theorem modObject_threadOf {i : ThreadId} : threadOf (modObject s h f) i = threadOf s i := rfl
@[simp] theorem modObject_theThread {i : ThreadId} : theThread (modObject s h f) i = theThread s i := rfl
@[simp] theorem modObject_groupOf {i : ThreadId} : groupOf (modObject s h f) i = groupOf s i := rfl
@[simp] theorem modObject_vectorOf {i : ThreadId} : vectorOf (modObject s h f) i = vectorOf s i := rfl
@[simp] theorem modObject_rawReg {i : Nat} : rawReg (modObject s h f) i = rawReg s i := rfl
@[simp] theorem modObject_rawField {i j k : Nat} : rawField (modObject s h f) i j k = rawField s i j k := rfl
@[simp] theorem modObject_findRequest {i : Nat} : findRequest (modObject s h f) i = findRequest s i := rfl
@[simp] theorem modObject_findOp {i : Nat} : findOp (modObject s h f) i = findOp s i := rfl
@[simp] theorem modObject_findCmd {i : Nat} : findCmd (modObject s h f) i = findCmd s i := rfl
@[simp] theorem modObject_findTransfer {i : XferUse} : findTransfer (modObject s h f) i = findTransfer s i := rfl
@[simp] theorem modObject_now : now (modObject s h f) = now s := rfl
@[simp] theorem modObject_memKey {i : Nat} : memKey (modObject s h f) i = memKey s i := rfl
@[simp] theorem modObject_fnPort {i : Nat} : fnPort (modObject s h f) i = fnPort s i := rfl

end modObject

/-! ### hostWrite -/

section hostWrite

variable {s : State} {n a : Nat} {l : List Byte}

@[simp] theorem hostWrite_pending : (hostWrite s n a l).pending = s.pending := rfl
@[simp] theorem hostWrite_part : (hostWrite s n a l).part = s.part := rfl
@[simp] theorem hostWrite_clock : (hostWrite s n a l).clock = s.clock := rfl
@[simp] theorem hostWrite_pages : (hostWrite s n a l).pages = s.pages := rfl
@[simp] theorem hostWrite_retiredGranules : (hostWrite s n a l).retiredGranules = s.retiredGranules := rfl
@[simp] theorem hostWrite_granuleErrors : (hostWrite s n a l).granuleErrors = s.granuleErrors := rfl
@[simp] theorem hostWrite_regs : (hostWrite s n a l).regs = s.regs := rfl
@[simp] theorem hostWrite_contexts : (hostWrite s n a l).contexts = s.contexts := rfl
@[simp] theorem hostWrite_threads : (hostWrite s n a l).threads = s.threads := rfl
@[simp] theorem hostWrite_groups : (hostWrite s n a l).groups = s.groups := rfl
@[simp] theorem hostWrite_vectors : (hostWrite s n a l).vectors = s.vectors := rfl
@[simp] theorem hostWrite_requests : (hostWrite s n a l).requests = s.requests := rfl
@[simp] theorem hostWrite_nextReq : (hostWrite s n a l).nextReq = s.nextReq := rfl
@[simp] theorem hostWrite_dests : (hostWrite s n a l).dests = s.dests := rfl
@[simp] theorem hostWrite_ledgers : (hostWrite s n a l).ledgers = s.ledgers := rfl
@[simp] theorem hostWrite_wakes : (hostWrite s n a l).wakes = s.wakes := rfl
@[simp] theorem hostWrite_activity : (hostWrite s n a l).activity = s.activity := rfl
@[simp] theorem hostWrite_transfers : (hostWrite s n a l).transfers = s.transfers := rfl
@[simp] theorem hostWrite_nextXfer : (hostWrite s n a l).nextXfer = s.nextXfer := rfl
@[simp] theorem hostWrite_ops : (hostWrite s n a l).ops = s.ops := rfl
@[simp] theorem hostWrite_nextOp : (hostWrite s n a l).nextOp = s.nextOp := rfl
@[simp] theorem hostWrite_logs : (hostWrite s n a l).logs = s.logs := rfl
@[simp] theorem hostWrite_phys : (hostWrite s n a l).phys = s.phys := rfl
@[simp] theorem hostWrite_tables : (hostWrite s n a l).tables = s.tables := rfl
@[simp] theorem hostWrite_keptPins : (hostWrite s n a l).keptPins = s.keptPins := rfl
@[simp] theorem hostWrite_links : (hostWrite s n a l).links = s.links := rfl
@[simp] theorem hostWrite_ports : (hostWrite s n a l).ports = s.ports := rfl
@[simp] theorem hostWrite_fns : (hostWrite s n a l).fns = s.fns := rfl
@[simp] theorem hostWrite_cfgs : (hostWrite s n a l).cfgs = s.cfgs := rfl
@[simp] theorem hostWrite_cmds : (hostWrite s n a l).cmds = s.cmds := rfl
@[simp] theorem hostWrite_nextCmd : (hostWrite s n a l).nextCmd = s.nextCmd := rfl
@[simp] theorem hostWrite_records : (hostWrite s n a l).records = s.records := rfl
@[simp] theorem hostWrite_allocs : (hostWrite s n a l).allocs = s.allocs := rfl
@[simp] theorem hostWrite_nextHandle : (hostWrite s n a l).nextHandle = s.nextHandle := rfl
@[simp] theorem hostWrite_loans : (hostWrite s n a l).loans = s.loans := rfl
@[simp] theorem hostWrite_later : (hostWrite s n a l).later = s.later := rfl
@[simp] theorem hostWrite_votes : (hostWrite s n a l).votes = s.votes := rfl
@[simp] theorem hostWrite_keels : (hostWrite s n a l).keels = s.keels := rfl
@[simp] theorem hostWrite_hold : (hostWrite s n a l).hold = s.hold := rfl
@[simp] theorem hostWrite_faultLog : (hostWrite s n a l).faultLog = s.faultLog := rfl
@[simp] theorem hostWrite_logTotal : (hostWrite s n a l).logTotal = s.logTotal := rfl
@[simp] theorem hostWrite_flash : (hostWrite s n a l).flash = s.flash := rfl
@[simp] theorem hostWrite_life : (hostWrite s n a l).life = s.life := rfl
@[simp] theorem hostWrite_power : (hostWrite s n a l).power = s.power := rfl
@[simp] theorem hostWrite_board : (hostWrite s n a l).board = s.board := rfl
@[simp] theorem hostWrite_lowered : (hostWrite s n a l).lowered = s.lowered := rfl
@[simp] theorem hostWrite_objects : (hostWrite s n a l).objects = s.objects := rfl
@[simp] theorem hostWrite_checkpoints : (hostWrite s n a l).checkpoints = s.checkpoints := rfl
@[simp] theorem hostWrite_cmdTurn : (hostWrite s n a l).cmdTurn = s.cmdTurn := rfl
@[simp] theorem hostWrite_addendum : (hostWrite s n a l).addendum = s.addendum := rfl
@[simp] theorem hostWrite_loadBank : (hostWrite s n a l).loadBank = s.loadBank := rfl
@[simp] theorem hostWrite_notice : (hostWrite s n a l).notice = s.notice := rfl
@[simp] theorem hostWrite_lowerRev : (hostWrite s n a l).lowerRev = s.lowerRev := rfl
@[simp] theorem hostWrite_lastEvent : (hostWrite s n a l).lastEvent = s.lastEvent := rfl
@[simp] theorem hostWrite_w1cAt : (hostWrite s n a l).w1cAt = s.w1cAt := rfl
@[simp] theorem hostWrite_freeCounter : (hostWrite s n a l).freeCounter = s.freeCounter := rfl
@[simp] theorem hostWrite_ctxOf {i : Nat} : ctxOf (hostWrite s n a l) i = ctxOf s i := rfl
@[simp] theorem hostWrite_regionOf {i : Nat} : regionOf (hostWrite s n a l) i = regionOf s i := rfl
@[simp] theorem hostWrite_seqOf {i : Nat} : seqOf (hostWrite s n a l) i = seqOf s i := rfl
@[simp] theorem hostWrite_reelUnit {i j : Nat} : reelUnit (hostWrite s n a l) i j = reelUnit s i j := rfl
@[simp] theorem hostWrite_physOf {i : Nat} : physOf (hostWrite s n a l) i = physOf s i := rfl
@[simp] theorem hostWrite_physOfLogical {i : Nat} : physOfLogical (hostWrite s n a l) i = physOfLogical s i := rfl
@[simp] theorem hostWrite_linkOf {i : Nat} : linkOf (hostWrite s n a l) i = linkOf s i := rfl
@[simp] theorem hostWrite_portOf {i : Nat} : portOf (hostWrite s n a l) i = portOf s i := rfl
@[simp] theorem hostWrite_fnOf {i : Nat} : fnOf (hostWrite s n a l) i = fnOf s i := rfl
@[simp] theorem hostWrite_queueOf {i j : Nat} : queueOf (hostWrite s n a l) i j = queueOf s i j := rfl
@[simp] theorem hostWrite_tableOf {i : Nat} : tableOf (hostWrite s n a l) i = tableOf s i := rfl
@[simp] theorem hostWrite_destOf {i : Resource} : destOf (hostWrite s n a l) i = destOf s i := rfl
@[simp] theorem hostWrite_ledgerOf {i : AdmPoint} {j : Resource} : ledgerOf (hostWrite s n a l) i j = ledgerOf s i j := rfl
@[simp] theorem hostWrite_threadOf {i : ThreadId} : threadOf (hostWrite s n a l) i = threadOf s i := rfl
@[simp] theorem hostWrite_theThread {i : ThreadId} : theThread (hostWrite s n a l) i = theThread s i := rfl
@[simp] theorem hostWrite_groupOf {i : ThreadId} : groupOf (hostWrite s n a l) i = groupOf s i := rfl
@[simp] theorem hostWrite_vectorOf {i : ThreadId} : vectorOf (hostWrite s n a l) i = vectorOf s i := rfl
@[simp] theorem hostWrite_rawReg {i : Nat} : rawReg (hostWrite s n a l) i = rawReg s i := rfl
@[simp] theorem hostWrite_rawField {i j k : Nat} : rawField (hostWrite s n a l) i j k = rawField s i j k := rfl
@[simp] theorem hostWrite_findRequest {i : Nat} : findRequest (hostWrite s n a l) i = findRequest s i := rfl
@[simp] theorem hostWrite_findOp {i : Nat} : findOp (hostWrite s n a l) i = findOp s i := rfl
@[simp] theorem hostWrite_findCmd {i : Nat} : findCmd (hostWrite s n a l) i = findCmd s i := rfl
@[simp] theorem hostWrite_findTransfer {i : XferUse} : findTransfer (hostWrite s n a l) i = findTransfer s i := rfl
@[simp] theorem hostWrite_now : now (hostWrite s n a l) = now s := rfl
@[simp] theorem hostWrite_memKey {i : Nat} : memKey (hostWrite s n a l) i = memKey s i := rfl
@[simp] theorem hostWrite_fnPort {i : Nat} : fnPort (hostWrite s n a l) i = fnPort s i := rfl

end hostWrite

/-! ### endTransfer -/

section endTransfer

variable {s : State} {x : XferUse}

@[simp] theorem endTransfer_pending : (endTransfer s x).pending = s.pending := rfl
@[simp] theorem endTransfer_part : (endTransfer s x).part = s.part := rfl
@[simp] theorem endTransfer_clock : (endTransfer s x).clock = s.clock := rfl
@[simp] theorem endTransfer_mem : (endTransfer s x).mem = s.mem := rfl
@[simp] theorem endTransfer_pages : (endTransfer s x).pages = s.pages := rfl
@[simp] theorem endTransfer_retiredGranules : (endTransfer s x).retiredGranules = s.retiredGranules := rfl
@[simp] theorem endTransfer_granuleErrors : (endTransfer s x).granuleErrors = s.granuleErrors := rfl
@[simp] theorem endTransfer_regs : (endTransfer s x).regs = s.regs := rfl
@[simp] theorem endTransfer_contexts : (endTransfer s x).contexts = s.contexts := rfl
@[simp] theorem endTransfer_threads : (endTransfer s x).threads = s.threads := rfl
@[simp] theorem endTransfer_groups : (endTransfer s x).groups = s.groups := rfl
@[simp] theorem endTransfer_vectors : (endTransfer s x).vectors = s.vectors := rfl
@[simp] theorem endTransfer_requests : (endTransfer s x).requests = s.requests := rfl
@[simp] theorem endTransfer_nextReq : (endTransfer s x).nextReq = s.nextReq := rfl
@[simp] theorem endTransfer_dests : (endTransfer s x).dests = s.dests := rfl
@[simp] theorem endTransfer_ledgers : (endTransfer s x).ledgers = s.ledgers := rfl
@[simp] theorem endTransfer_wakes : (endTransfer s x).wakes = s.wakes := rfl
@[simp] theorem endTransfer_activity : (endTransfer s x).activity = s.activity := rfl
@[simp] theorem endTransfer_nextXfer : (endTransfer s x).nextXfer = s.nextXfer := rfl
@[simp] theorem endTransfer_ops : (endTransfer s x).ops = s.ops := rfl
@[simp] theorem endTransfer_nextOp : (endTransfer s x).nextOp = s.nextOp := rfl
@[simp] theorem endTransfer_logs : (endTransfer s x).logs = s.logs := rfl
@[simp] theorem endTransfer_phys : (endTransfer s x).phys = s.phys := rfl
@[simp] theorem endTransfer_tables : (endTransfer s x).tables = s.tables := rfl
@[simp] theorem endTransfer_keptPins : (endTransfer s x).keptPins = s.keptPins := rfl
@[simp] theorem endTransfer_links : (endTransfer s x).links = s.links := rfl
@[simp] theorem endTransfer_ports : (endTransfer s x).ports = s.ports := rfl
@[simp] theorem endTransfer_fns : (endTransfer s x).fns = s.fns := rfl
@[simp] theorem endTransfer_cfgs : (endTransfer s x).cfgs = s.cfgs := rfl
@[simp] theorem endTransfer_cmds : (endTransfer s x).cmds = s.cmds := rfl
@[simp] theorem endTransfer_nextCmd : (endTransfer s x).nextCmd = s.nextCmd := rfl
@[simp] theorem endTransfer_records : (endTransfer s x).records = s.records := rfl
@[simp] theorem endTransfer_allocs : (endTransfer s x).allocs = s.allocs := rfl
@[simp] theorem endTransfer_nextHandle : (endTransfer s x).nextHandle = s.nextHandle := rfl
@[simp] theorem endTransfer_loans : (endTransfer s x).loans = s.loans := rfl
@[simp] theorem endTransfer_later : (endTransfer s x).later = s.later := rfl
@[simp] theorem endTransfer_votes : (endTransfer s x).votes = s.votes := rfl
@[simp] theorem endTransfer_keels : (endTransfer s x).keels = s.keels := rfl
@[simp] theorem endTransfer_hold : (endTransfer s x).hold = s.hold := rfl
@[simp] theorem endTransfer_faultLog : (endTransfer s x).faultLog = s.faultLog := rfl
@[simp] theorem endTransfer_logTotal : (endTransfer s x).logTotal = s.logTotal := rfl
@[simp] theorem endTransfer_flash : (endTransfer s x).flash = s.flash := rfl
@[simp] theorem endTransfer_life : (endTransfer s x).life = s.life := rfl
@[simp] theorem endTransfer_power : (endTransfer s x).power = s.power := rfl
@[simp] theorem endTransfer_board : (endTransfer s x).board = s.board := rfl
@[simp] theorem endTransfer_out : (endTransfer s x).out = s.out := rfl
@[simp] theorem endTransfer_lowered : (endTransfer s x).lowered = s.lowered := rfl
@[simp] theorem endTransfer_objects : (endTransfer s x).objects = s.objects := rfl
@[simp] theorem endTransfer_checkpoints : (endTransfer s x).checkpoints = s.checkpoints := rfl
@[simp] theorem endTransfer_cmdTurn : (endTransfer s x).cmdTurn = s.cmdTurn := rfl
@[simp] theorem endTransfer_addendum : (endTransfer s x).addendum = s.addendum := rfl
@[simp] theorem endTransfer_loadBank : (endTransfer s x).loadBank = s.loadBank := rfl
@[simp] theorem endTransfer_notice : (endTransfer s x).notice = s.notice := rfl
@[simp] theorem endTransfer_lowerRev : (endTransfer s x).lowerRev = s.lowerRev := rfl
@[simp] theorem endTransfer_lastEvent : (endTransfer s x).lastEvent = s.lastEvent := rfl
@[simp] theorem endTransfer_w1cAt : (endTransfer s x).w1cAt = s.w1cAt := rfl
@[simp] theorem endTransfer_freeCounter : (endTransfer s x).freeCounter = s.freeCounter := rfl
@[simp] theorem endTransfer_ctxOf {i : Nat} : ctxOf (endTransfer s x) i = ctxOf s i := rfl
@[simp] theorem endTransfer_regionOf {i : Nat} : regionOf (endTransfer s x) i = regionOf s i := rfl
@[simp] theorem endTransfer_seqOf {i : Nat} : seqOf (endTransfer s x) i = seqOf s i := rfl
@[simp] theorem endTransfer_reelUnit {i j : Nat} : reelUnit (endTransfer s x) i j = reelUnit s i j := rfl
@[simp] theorem endTransfer_physOf {i : Nat} : physOf (endTransfer s x) i = physOf s i := rfl
@[simp] theorem endTransfer_physOfLogical {i : Nat} : physOfLogical (endTransfer s x) i = physOfLogical s i := rfl
@[simp] theorem endTransfer_linkOf {i : Nat} : linkOf (endTransfer s x) i = linkOf s i := rfl
@[simp] theorem endTransfer_portOf {i : Nat} : portOf (endTransfer s x) i = portOf s i := rfl
@[simp] theorem endTransfer_fnOf {i : Nat} : fnOf (endTransfer s x) i = fnOf s i := rfl
@[simp] theorem endTransfer_queueOf {i j : Nat} : queueOf (endTransfer s x) i j = queueOf s i j := rfl
@[simp] theorem endTransfer_tableOf {i : Nat} : tableOf (endTransfer s x) i = tableOf s i := rfl
@[simp] theorem endTransfer_destOf {i : Resource} : destOf (endTransfer s x) i = destOf s i := rfl
@[simp] theorem endTransfer_ledgerOf {i : AdmPoint} {j : Resource} : ledgerOf (endTransfer s x) i j = ledgerOf s i j := rfl
@[simp] theorem endTransfer_threadOf {i : ThreadId} : threadOf (endTransfer s x) i = threadOf s i := rfl
@[simp] theorem endTransfer_theThread {i : ThreadId} : theThread (endTransfer s x) i = theThread s i := rfl
@[simp] theorem endTransfer_groupOf {i : ThreadId} : groupOf (endTransfer s x) i = groupOf s i := rfl
@[simp] theorem endTransfer_vectorOf {i : ThreadId} : vectorOf (endTransfer s x) i = vectorOf s i := rfl
@[simp] theorem endTransfer_rawReg {i : Nat} : rawReg (endTransfer s x) i = rawReg s i := rfl
@[simp] theorem endTransfer_rawField {i j k : Nat} : rawField (endTransfer s x) i j k = rawField s i j k := rfl
@[simp] theorem endTransfer_findRequest {i : Nat} : findRequest (endTransfer s x) i = findRequest s i := rfl
@[simp] theorem endTransfer_findOp {i : Nat} : findOp (endTransfer s x) i = findOp s i := rfl
@[simp] theorem endTransfer_findCmd {i : Nat} : findCmd (endTransfer s x) i = findCmd s i := rfl
@[simp] theorem endTransfer_now : now (endTransfer s x) = now s := rfl
@[simp] theorem endTransfer_memKey {i : Nat} : memKey (endTransfer s x) i = memKey s i := rfl
@[simp] theorem endTransfer_fnPort {i : Nat} : fnPort (endTransfer s x) i = fnPort s i := rfl

end endTransfer

/-! ### recordRetirement -/

section recordRetirement

variable {s : State} {a b c : Nat}

@[simp] theorem recordRetirement_pending : (recordRetirement s a b c).pending = s.pending := rfl
@[simp] theorem recordRetirement_part : (recordRetirement s a b c).part = s.part := rfl
@[simp] theorem recordRetirement_clock : (recordRetirement s a b c).clock = s.clock := rfl
@[simp] theorem recordRetirement_mem : (recordRetirement s a b c).mem = s.mem := rfl
@[simp] theorem recordRetirement_pages : (recordRetirement s a b c).pages = s.pages := rfl
@[simp] theorem recordRetirement_retiredGranules : (recordRetirement s a b c).retiredGranules = s.retiredGranules := rfl
@[simp] theorem recordRetirement_granuleErrors : (recordRetirement s a b c).granuleErrors = s.granuleErrors := rfl
@[simp] theorem recordRetirement_regs : (recordRetirement s a b c).regs = s.regs := rfl
@[simp] theorem recordRetirement_contexts : (recordRetirement s a b c).contexts = s.contexts := rfl
@[simp] theorem recordRetirement_threads : (recordRetirement s a b c).threads = s.threads := rfl
@[simp] theorem recordRetirement_groups : (recordRetirement s a b c).groups = s.groups := rfl
@[simp] theorem recordRetirement_vectors : (recordRetirement s a b c).vectors = s.vectors := rfl
@[simp] theorem recordRetirement_requests : (recordRetirement s a b c).requests = s.requests := rfl
@[simp] theorem recordRetirement_nextReq : (recordRetirement s a b c).nextReq = s.nextReq := rfl
@[simp] theorem recordRetirement_dests : (recordRetirement s a b c).dests = s.dests := rfl
@[simp] theorem recordRetirement_ledgers : (recordRetirement s a b c).ledgers = s.ledgers := rfl
@[simp] theorem recordRetirement_wakes : (recordRetirement s a b c).wakes = s.wakes := rfl
@[simp] theorem recordRetirement_activity : (recordRetirement s a b c).activity = s.activity := rfl
@[simp] theorem recordRetirement_transfers : (recordRetirement s a b c).transfers = s.transfers := rfl
@[simp] theorem recordRetirement_nextXfer : (recordRetirement s a b c).nextXfer = s.nextXfer := rfl
@[simp] theorem recordRetirement_ops : (recordRetirement s a b c).ops = s.ops := rfl
@[simp] theorem recordRetirement_nextOp : (recordRetirement s a b c).nextOp = s.nextOp := rfl
@[simp] theorem recordRetirement_logs : (recordRetirement s a b c).logs = s.logs := rfl
@[simp] theorem recordRetirement_phys : (recordRetirement s a b c).phys = s.phys := rfl
@[simp] theorem recordRetirement_tables : (recordRetirement s a b c).tables = s.tables := rfl
@[simp] theorem recordRetirement_keptPins : (recordRetirement s a b c).keptPins = s.keptPins := rfl
@[simp] theorem recordRetirement_links : (recordRetirement s a b c).links = s.links := rfl
@[simp] theorem recordRetirement_ports : (recordRetirement s a b c).ports = s.ports := rfl
@[simp] theorem recordRetirement_fns : (recordRetirement s a b c).fns = s.fns := rfl
@[simp] theorem recordRetirement_cfgs : (recordRetirement s a b c).cfgs = s.cfgs := rfl
@[simp] theorem recordRetirement_cmds : (recordRetirement s a b c).cmds = s.cmds := rfl
@[simp] theorem recordRetirement_nextCmd : (recordRetirement s a b c).nextCmd = s.nextCmd := rfl
@[simp] theorem recordRetirement_records : (recordRetirement s a b c).records = s.records := rfl
@[simp] theorem recordRetirement_allocs : (recordRetirement s a b c).allocs = s.allocs := rfl
@[simp] theorem recordRetirement_nextHandle : (recordRetirement s a b c).nextHandle = s.nextHandle := rfl
@[simp] theorem recordRetirement_loans : (recordRetirement s a b c).loans = s.loans := rfl
@[simp] theorem recordRetirement_later : (recordRetirement s a b c).later = s.later := rfl
@[simp] theorem recordRetirement_votes : (recordRetirement s a b c).votes = s.votes := rfl
@[simp] theorem recordRetirement_keels : (recordRetirement s a b c).keels = s.keels := rfl
@[simp] theorem recordRetirement_hold : (recordRetirement s a b c).hold = s.hold := rfl
@[simp] theorem recordRetirement_faultLog : (recordRetirement s a b c).faultLog = s.faultLog := rfl
@[simp] theorem recordRetirement_logTotal : (recordRetirement s a b c).logTotal = s.logTotal := rfl
@[simp] theorem recordRetirement_life : (recordRetirement s a b c).life = s.life := rfl
@[simp] theorem recordRetirement_power : (recordRetirement s a b c).power = s.power := rfl
@[simp] theorem recordRetirement_board : (recordRetirement s a b c).board = s.board := rfl
@[simp] theorem recordRetirement_out : (recordRetirement s a b c).out = s.out := rfl
@[simp] theorem recordRetirement_lowered : (recordRetirement s a b c).lowered = s.lowered := rfl
@[simp] theorem recordRetirement_objects : (recordRetirement s a b c).objects = s.objects := rfl
@[simp] theorem recordRetirement_checkpoints : (recordRetirement s a b c).checkpoints = s.checkpoints := rfl
@[simp] theorem recordRetirement_cmdTurn : (recordRetirement s a b c).cmdTurn = s.cmdTurn := rfl
@[simp] theorem recordRetirement_addendum : (recordRetirement s a b c).addendum = s.addendum := rfl
@[simp] theorem recordRetirement_loadBank : (recordRetirement s a b c).loadBank = s.loadBank := rfl
@[simp] theorem recordRetirement_notice : (recordRetirement s a b c).notice = s.notice := rfl
@[simp] theorem recordRetirement_lowerRev : (recordRetirement s a b c).lowerRev = s.lowerRev := rfl
@[simp] theorem recordRetirement_lastEvent : (recordRetirement s a b c).lastEvent = s.lastEvent := rfl
@[simp] theorem recordRetirement_w1cAt : (recordRetirement s a b c).w1cAt = s.w1cAt := rfl
@[simp] theorem recordRetirement_freeCounter : (recordRetirement s a b c).freeCounter = s.freeCounter := rfl
@[simp] theorem recordRetirement_ctxOf {i : Nat} : ctxOf (recordRetirement s a b c) i = ctxOf s i := rfl
@[simp] theorem recordRetirement_regionOf {i : Nat} : regionOf (recordRetirement s a b c) i = regionOf s i := rfl
@[simp] theorem recordRetirement_seqOf {i : Nat} : seqOf (recordRetirement s a b c) i = seqOf s i := rfl
@[simp] theorem recordRetirement_reelUnit {i j : Nat} : reelUnit (recordRetirement s a b c) i j = reelUnit s i j := rfl
@[simp] theorem recordRetirement_physOf {i : Nat} : physOf (recordRetirement s a b c) i = physOf s i := rfl
@[simp] theorem recordRetirement_physOfLogical {i : Nat} : physOfLogical (recordRetirement s a b c) i = physOfLogical s i := rfl
@[simp] theorem recordRetirement_linkOf {i : Nat} : linkOf (recordRetirement s a b c) i = linkOf s i := rfl
@[simp] theorem recordRetirement_portOf {i : Nat} : portOf (recordRetirement s a b c) i = portOf s i := rfl
@[simp] theorem recordRetirement_fnOf {i : Nat} : fnOf (recordRetirement s a b c) i = fnOf s i := rfl
@[simp] theorem recordRetirement_queueOf {i j : Nat} : queueOf (recordRetirement s a b c) i j = queueOf s i j := rfl
@[simp] theorem recordRetirement_tableOf {i : Nat} : tableOf (recordRetirement s a b c) i = tableOf s i := rfl
@[simp] theorem recordRetirement_destOf {i : Resource} : destOf (recordRetirement s a b c) i = destOf s i := rfl
@[simp] theorem recordRetirement_ledgerOf {i : AdmPoint} {j : Resource} : ledgerOf (recordRetirement s a b c) i j = ledgerOf s i j := rfl
@[simp] theorem recordRetirement_threadOf {i : ThreadId} : threadOf (recordRetirement s a b c) i = threadOf s i := rfl
@[simp] theorem recordRetirement_theThread {i : ThreadId} : theThread (recordRetirement s a b c) i = theThread s i := rfl
@[simp] theorem recordRetirement_groupOf {i : ThreadId} : groupOf (recordRetirement s a b c) i = groupOf s i := rfl
@[simp] theorem recordRetirement_vectorOf {i : ThreadId} : vectorOf (recordRetirement s a b c) i = vectorOf s i := rfl
@[simp] theorem recordRetirement_rawReg {i : Nat} : rawReg (recordRetirement s a b c) i = rawReg s i := rfl
@[simp] theorem recordRetirement_rawField {i j k : Nat} : rawField (recordRetirement s a b c) i j k = rawField s i j k := rfl
@[simp] theorem recordRetirement_findRequest {i : Nat} : findRequest (recordRetirement s a b c) i = findRequest s i := rfl
@[simp] theorem recordRetirement_findOp {i : Nat} : findOp (recordRetirement s a b c) i = findOp s i := rfl
@[simp] theorem recordRetirement_findCmd {i : Nat} : findCmd (recordRetirement s a b c) i = findCmd s i := rfl
@[simp] theorem recordRetirement_findTransfer {i : XferUse} : findTransfer (recordRetirement s a b c) i = findTransfer s i := rfl
@[simp] theorem recordRetirement_now : now (recordRetirement s a b c) = now s := rfl
@[simp] theorem recordRetirement_memKey {i : Nat} : memKey (recordRetirement s a b c) i = memKey s i := rfl
@[simp] theorem recordRetirement_fnPort {i : Nat} : fnPort (recordRetirement s a b c) i = fnPort s i := rfl

end recordRetirement

end Sys2Proof.Machine
end

