-- ==== Sys2Proof/Laws/Frames.lean ====
section
/-! SUPPORT. What the shared operations change and leave alone, as one equation or one law each: outputs, credits, events,
the fault log, and free choices. A proof about a command cites these and unfolds no operation. -/

namespace Sys2Proof.Machine

open Sys2Proof

/-! ### Outputs -/

/-- Things sent one after another are only added to what has left the device. -/
theorem foldl_emit {α : Type} (f : α → Output) (l : List α) (s : State) :
    l.foldl (fun s x => emit s (f x)) s = { s with out := s.out ++ l.map f } := by
  induction l generalizing s with
  | nil => simp
  | cons a r ih => simp only [List.foldl_cons, ih, List.map_cons]; simp [emit]

/-! ### Credits -/

/-- Serving lending requests changes only the destinations and the ledgers. -/
theorem serveLending_eq (res : Resource) : ∀ (k : Nat) (s : State),
    ∃ d l, serveLending s res k = { s with dests := d, ledgers := l }
  | 0, s => ⟨s.dests, s.ledgers, rfl⟩
  | k + 1, s => by
    unfold serveLending
    split
    · split
      · next led what n _ _ =>
        let z := setDest s res { free := (destOf s res).free - n, waiting := (destOf s res).waiting.erase (led, what, n) }
        obtain ⟨d, l, h⟩ := serveLending_eq res k
          (setLedger z led what { lots := (ledgerOf z led what).lots ++ [(n, now z)] })
        exact ⟨d, l, h⟩
      · exact ⟨s.dests, s.ledgers, rfl⟩
    · exact ⟨s.dests, s.ledgers, rfl⟩

/-- A destination that nobody waits for has nothing to serve. -/
theorem serveLending_none {s : State} {res : Resource} (h : (destOf s res).waiting = []) (k : Nat) :
    serveLending s res k = s := by
  cases k with
  | zero => rfl
  | succ k => unfold serveLending; rw [h]; rfl

/-- Credits that go back change only the destinations and the ledgers. -/
theorem giveBack_eq (s : State) (res : Resource) (n : Nat) : ∃ d l, giveBack s res n = { s with dests := d, ledgers := l } := by
  obtain ⟨d, l, h⟩ := serveLending_eq res
    (destOf (setDest s res { destOf s res with free := (destOf s res).free + n }) res).waiting.length
    (setDest s res { destOf s res with free := (destOf s res).free + n })
  exact ⟨d, l, h⟩

/-! ### Events -/

/-- An event adds a record, or a count to its function. -/
theorem postEvent_eq (s : State) (f code ctx detail word : Nat) : ∃ r n,
    postEvent s f code ctx detail word = { s with records := r, fns := n } := by
  unfold postEvent
  split
  · exact ⟨_, s.fns, rfl⟩
  · exact ⟨s.records, _, rfl⟩

/-- An event changes of a function at most what it has lost. -/
theorem postEvent_fnOf (s : State) (f code ctx detail word g : Nat) : ∃ n,
    fnOf (postEvent s f code ctx detail word) g = { fnOf s g with eventsLost := n } := by
  unfold postEvent
  split
  · exact ⟨_, rfl⟩
  · by_cases h : g = f
    · subst h; rw [fnOf_modFn]; exact ⟨_, rfl⟩
    · rw [fnOf_modFn_other h]; exact ⟨_, rfl⟩

theorem deviceEvent_eq (s : State) (code word : Nat) : ∃ r n, deviceEvent s code word = { s with records := r, fns := n } :=
  postEvent_eq _ _ _ _ _ _

theorem ctxEvent_eq (s : State) (c code word : Nat) : ∃ r n, ctxEvent s c code word = { s with records := r, fns := n } :=
  postEvent_eq _ _ _ _ _ _

/-- A rate-limited action happens on the state with its time noted, or not at all. -/
theorem limited_cases (s : State) (key : Nat × Nat) (f : State → State) :
    limited s key f = s ∨ limited s key f = f { s with lastEvent := mset s.lastEvent key (now s) } := by
  unfold limited
  split
  · split
    · exact .inl rfl
    · exact .inr rfl
  · exact .inr rfl

end Sys2Proof.Machine
end

