-- ==== Sys2Proof/Laws/Issue.lean ====
section
/-! SUPPORT. Laws of how a word issues: what the tag comparators change, and what a register word does when its thread
executes it. The proofs about thread instructions cite these and unfold no step of the issue. -/

namespace Sys2Proof.Machine

open Sys2Proof

/-! ### Comparators -/

/-- Counting an arrival at one comparator changes no more than that comparator and the instant of its hit. -/
theorem countTag_eq (s : State) (c i : Nat) (tag : BitVec 12) : ∃ r w, countTag s c i tag = { s with regs := r, w1cAt := w } ∧
    ∀ off, off ≠ offTagBreak c i → mget? r off = mget? s.regs off ∧ ∀ hi, mget? w (off, hi) = mget? s.w1cAt (off, hi) := by
  have hw : ∀ off, off ≠ offTagBreak c i → ∀ hi,
      mget? (mset s.w1cAt (offTagBreak c i, 30) (instant s)) (off, hi) = mget? s.w1cAt (off, hi) :=
    fun off h hi => mget?_mset_other _ _ (fun e => h (congrArg Prod.fst e))
  have hr : ∀ (v : DWord) off, off ≠ offTagBreak c i → mget? (mset s.regs (offTagBreak c i) v) off = mget? s.regs off :=
    fun v off h => mget?_mset_other _ _ h
  unfold countTag
  by_cases hb : tagBreaks (rawReg s (offTagBreak c i)) tag = true <;>
    by_cases hc : tagCounts (rawReg s (offTagBreak c i)) tag = true <;> simp only [hb, hc, if_true, if_false, Bool.false_eq_true]
  · exact ⟨_, _, rfl, fun off h => ⟨hr _ off h, hw off h⟩⟩
  · exact ⟨s.regs, _, rfl, fun off h => ⟨rfl, hw off h⟩⟩
  · exact ⟨_, s.w1cAt, rfl, fun off h => ⟨hr _ off h, fun _ => rfl⟩⟩
  · exact ⟨s.regs, s.w1cAt, rfl, fun _ _ => ⟨rfl, fun _ => rfl⟩⟩

theorem countTags_eq (s : State) (c : Nat) (tag : BitVec 12) : ∃ r w, countTags s c tag = { s with regs := r, w1cAt := w } ∧
    ∀ off, (∀ i, i < 4 → off ≠ offTagBreak c i) →
      mget? r off = mget? s.regs off ∧ ∀ hi, mget? w (off, hi) = mget? s.w1cAt (off, hi) := by
  unfold countTags
  obtain ⟨r0, w0, e0, h0⟩ := countTag_eq s c 0 tag
  obtain ⟨r1, w1, e1, h1⟩ := countTag_eq { s with regs := r0, w1cAt := w0 } c 1 tag
  obtain ⟨r2, w2, e2, h2⟩ := countTag_eq { s with regs := r1, w1cAt := w1 } c 2 tag
  obtain ⟨r3, w3, e3, h3⟩ := countTag_eq { s with regs := r2, w1cAt := w2 } c 3 tag
  rw [e0, e1, e2, e3]
  refine ⟨r3, w3, rfl, fun off h => ⟨?_, fun hi => ?_⟩⟩
  · rw [(h3 off (h 3 (by omega))).1, (h2 off (h 2 (by omega))).1, (h1 off (h 1 (by omega))).1, (h0 off (h 0 (by omega))).1]
  · rw [(h3 off (h 3 (by omega))).2, (h2 off (h 2 (by omega))).2, (h1 off (h 1 (by omega))).2, (h0 off (h 0 (by omega))).2]

/-- Counting an arrival changes no more than the comparators and the note of the thread that counted last. -/
theorem countArrival_counted (s : State) (t : ThreadId) (tag : BitVec 12) : Counted s (countArrival s t tag) t := by
  obtain ⟨r, w, e, h⟩ := countTags_eq s t.ctx tag
  unfold countArrival
  rw [e]
  dsimp only
  split
  · exact ⟨r, w, _, rfl, h, .inr rfl⟩
  · exact ⟨r, w, s.contexts, rfl, h, .inl rfl⟩

/-- An arrival that neither breaks nor has stopped its thread is counted, and no more. -/
theorem arrive_eq {s : State} {t : ThreadId} {tag : BitVec 12} (hf : (ctxOf s t.ctx).stoppedAt.contains t = false)
    (hb : breakingTag s t.ctx tag = none) : arrive s t tag = (false, countArrival s t tag) := by
  unfold arrive
  rw [hf, hb]
  rfl

/-! ### Threads -/

/-- A thread that may issue is there, and is ready. -/
theorem threadOf_of_canIssue {s : State} {t : ThreadId} (h : canIssue s t = true) :
    threadOf s t = some (theThread s t) ∧ (theThread s t).run = .ready := by
  unfold canIssue at h
  cases e : threadOf s t with
  | none => rw [e] at h; simp at h
  | some th =>
    rw [e] at h
    simp only [Bool.and_eq_true, beq_iff_eq] at h
    simp [theThread, e, h.1.1.1]

/-- A thread that issues a word may issue. -/
theorem canIssue_of_issues {i : Instr} {s : State} {t : ThreadId} {tag : BitVec 12} (h : issues i s t tag = true) :
    canIssue s t = true := by
  unfold issues arrives at h
  simp only [Bool.and_eq_true] at h
  exact h.1.1

theorem modThread_eq {s : State} {t : ThreadId} {th : Thread} {f : Thread → Thread} (h : threadOf s t = some th) :
    modThread s t f = { s with threads := mset s.threads t (f th) } := by
  unfold modThread setThread; rw [h]

/-- A thread with a next word in the code goes on. -/
theorem settle_eq {s : State} {t : ThreadId} {th : Thread} (h : threadOf s t = some th)
    (hp : th.pc < codeWords (ctxOf s t.ctx)) : settle s t = s := by
  unfold settle
  rw [h]
  have : atEnd s t = false := by unfold atEnd; rw [h]; simp only [decide_eq_false_iff_not]; omega
  simp [this]

theorem settle_of_not_ready {s : State} {t : ThreadId} {th : Thread} (h : threadOf s t = some th)
    (hr : th.run ≠ .ready) : settle s t = s := by
  unfold settle
  rw [h]
  simp [hr]

/-- A thread that stands at its word goes on from it. -/
theorem standsAt_eq {s : State} {t : ThreadId} {th : Thread} (h : threadOf s t = some th) :
    standsAt s t = { s with threads := mset s.threads t { th with readyAt := now s } } := modThread_eq h

/-! ### Words -/

/-- A word that its thread executes: `eff` on the state with the arrival counted. -/
theorem issueWord_guard {i : Instr} {t : ThreadId} {k : Common} {eff off : State → State} {s : State} (hw : i.wf = true)
    (hm : issues i s t k.tag = true) (hf : (ctxOf s t.ctx).stoppedAt.contains t = false)
    (hb : breakingTag s t.ctx k.tag = none) (hg : guardOk k (theThread s t) = true) :
    issueWord i t k eff off s = .next (settle (standsAt (eff (countArrival s t k.tag)) t) t) := by
  unfold issueWord
  simp [hw, hm, arrive_eq hf hb, hg]

/-- A word whose guard does not hold: `off` on the state with the arrival counted. -/
theorem issueWord_off {i : Instr} {t : ThreadId} {k : Common} {eff off : State → State} {s : State} (hw : i.wf = true)
    (hm : issues i s t k.tag = true) (hf : (ctxOf s t.ctx).stoppedAt.contains t = false)
    (hb : breakingTag s t.ctx k.tag = none) (hg : guardOk k (theThread s t) = false) :
    issueWord i t k eff off s = .next (settle (standsAt (off (countArrival s t k.tag)) t) t) := by
  unfold issueWord
  simp [hw, hm, arrive_eq hf hb, hg]

/-- The code of a context is what it was before an arrival was counted. -/
theorem codeWords_counted {s z : State} {t : ThreadId} (h : Counted s z t) :
    codeWords (ctxOf z t.ctx) = codeWords (ctxOf s t.ctx) := by
  obtain ⟨r, w, x, rfl, -, rfl | rfl⟩ := h
  · rfl
  · show codeWords (mget _ (mset s.contexts t.ctx _) t.ctx) = _
    rw [mget_mset_same]
    rfl

/-- What a change of a thread to `th'`, made on the state with the arrival counted, comes to. -/
theorem onlyThread_of_mod {s : State} {t : ThreadId} {k : Common} {f : Thread → Thread} (hm : canIssue s t = true)
    (hp : (f (theThread s t)).run = .ready → (f (theThread s t)).pc < codeWords (ctxOf s t.ctx)) :
    OnlyThread s (settle (standsAt (modThread (countArrival s t k.tag) t f) t) t) t (f (theThread s t)) := by
  have hc := countArrival_counted s t k.tag
  refine ⟨_, hc, ?_⟩
  have hk := codeWords_counted hc
  obtain ⟨r, w, x, e, -, -⟩ := hc
  rw [e] at hk ⊢
  have ht : threadOf { s with regs := r, w1cAt := w, contexts := x } t = some (theThread s t) := (threadOf_of_canIssue hm).1
  rw [modThread_eq ht]
  have hn : threadOf { s with threads := mset s.threads t (f (theThread s t)), regs := r, w1cAt := w, contexts := x } t =
      some (f (theThread s t)) := mget?_mset_same _ _ _
  rw [standsAt_eq hn]
  show settle { s with regs := r, w1cAt := w, contexts := x, threads := mset (mset s.threads t (f (theThread s t))) t _ } t = _
  rw [mset_mset]
  have hl {v : Thread} : threadOf { s with regs := r, w1cAt := w, contexts := x, threads := mset s.threads t v } t = some v :=
    mget?_mset_same _ _ _
  by_cases hq : (f (theThread s t)).run = .ready
  · exact settle_eq hl (hk ▸ hp hq)
  · exact settle_of_not_ready hl hq

/-- A register word at a thread that executes it changes its thread by `f`, steps past itself and changes nothing else. -/
theorem regWord_executes {c : Instr} {t : ThreadId} {k : Common} {f : Thread → Thread} {s : State}
    (h : Executes c t k s) (hp : (f (theThread s t)).advance.pc = (theThread s t).advance.pc) :
    ∃ u, regWord c t k f s = .next u ∧ OnlyThread s u t (f (theThread s t)).advance := by
  refine ⟨_, issueWord_guard h.passed.1 h.may h.fresh h.noBreak h.guard, ?_⟩
  exact onlyThread_of_mod (canIssue_of_issues h.may) fun _ => by rw [hp]; exact h.inside

/-- A word whose guard does not hold steps past itself and changes nothing else (R108). -/
theorem issueWord_stepsPast {c : Instr} {t : ThreadId} {k : Common} {eff : State → State} {s : State}
    (h : Arrives c t k s) (hg : guardOk k (theThread s t) = false)
    (hp : (theThread s t).advance.pc < codeWords (ctxOf s t.ctx)) :
    ∃ u, issueWord c t k eff (stepPc t) s = .next u ∧ OnlyThread s u t (theThread s t).advance := by
  refine ⟨_, issueWord_off h.passed.1 h.may h.fresh h.noBreak hg, ?_⟩
  exact onlyThread_of_mod (canIssue_of_issues h.may) fun _ => hp

end Sys2Proof.Machine
end

