-- ==== Sys2Proof/Tests/Slice0.lean ====
section
/-! SUPPORT. Tests of the model: small states on which the hypotheses of each statement hold together, what one command does
there, ill-formed words that the checks refuse, and words written out from the encoding tables. -/

namespace Sys2Proof.Tests

set_option Elab.async false

open Sys2Proof Sys2Proof.Machine

/-! ### A small state -/

/-- A command completes, and something holds of the state it leaves. -/
def after (c : Instr) (s : State) (p : State → Bool) : Bool :=
  match exec c s with
  | .next u => p u
  | _ => false

/-- A command is refused. -/
def refused (c : Instr) (s : State) : Bool :=
  match exec c s with
  | .refused _ => true
  | _ => false

/-- A device that has powered on: quorum formed, clock running, rails up. -/
def tOn : State :=
  { State.reset with
    board := { Board.reset with vaon := true, sharedPg := true, started := true, poweredAt := some 0 }
    keels := { Keels.reset with voting := [0, 1, 2], standby := some 3, formed := true }
    clock := { Clock.reset with time := 5000000, running := true, aligned := true }
    phys := (List.range 18).map fun p => (p, { PhysRegion.zero (firstRole State.reset.part p) with
      coreEn := true, corePg := true, vcore := 600, targetMv := 600 }) }

/-- Eight words of code, and nothing else. -/
def tImage : Image :=
  { code := List.replicate 8 0, descriptors := [], bindings := [],
    launches := [{ entry := 0, threads := 1, group := 0, vec := true, quotaKib := 0, desc := 0xFFFF }],
    nativeLines := 1, digest := 0, nativeDigest := 0, lowerRev := 1 }

/-- A thread with small numbers, signs and FP32 values in its s registers, and p1 set. -/
def tThread : Thread :=
  { pc := 0
    s := Vector.ofFn fun i =>
      [0, 10, 3, 0x80000000, 0xFFFFFFFF, 7, 64, 0x3F800000, 0x40000000, 0x7FC00001].getD i.val 0
    p := Vector.ofFn fun i => i.val == 1, loops := [], watch := Vector.replicate 16 WatchSlot.empty, run := .ready, readyAt := 0 }

/-- A group with a vector context. -/
def tGroup : Group := { Group.blank with vec := true }

/-- Lanes: v1 and v2 count up, v7 is 1.0 and v8 is 2.0 in every lane, v9 is zero in lane 0 alone, the rest is 0. -/
def tVec : VectorCtx :=
  { VectorCtx.blank with v := Vector.ofFn fun r => Vector.ofFn fun i =>
      if r.val = 1 then BitVec.ofNat 32 i.val
      else if r.val = 2 then BitVec.ofNat 32 (100 + i.val)
      else if r.val = 3 then 0x7FFFFFFF
      else if r.val = 7 then 0x3F800000
      else if r.val = 8 then 0x40000000
      else if r.val = 9 then (if i.val = 0 then 0 else 1)
      else 0 }

def tId : ThreadId := { ctx := 0, cell := 0, group := 0, thread := 0 }

def tK : Common := { gen := false, gneg := false, gp := 0, tag := 0 }

/-- A window entry with every access (Table 3.10). -/
def tWin (base size : Nat) : DWord := BitVec.ofNat 64 (15 * 2 ^ 60 + size * 2 ^ 35 + base)

/-- A running context of function 0 with one block, one thread, and two windows: window 0 maps 2 MiB of T1 of region 0, window 1
the first 2 MiB of T2. -/
def tRun : State :=
  { tOn with
    contexts := [(0, { Context.blank with state := .running, fn := 0, blocks := [(0, 0)], image := some tImage })]
    threads := [(tId, tThread)]
    groups := [((0, 0, 0), tGroup)]
    vectors := [((0, 0, 0), tVec)]
    regs := [(offWindow 0 0, tWin (2 ^ 31) 1), (offWindow 0 1, tWin 0 1)] }

/-! ### Words -/

/-- The only group of the small state has a vector context. -/
theorem tVecOk {c : Instr} (h : ((vectorThread c).all fun t => decide (t = tId)) = true) (t : ThreadId)
    (e : vectorThread c = some t) : (groupOf tRun t).vec = true := by
  rw [e] at h; simp only [Option.all_some, decide_eq_true_eq] at h; subst h; decide +kernel

/-- On this state the thread executes every word that lowering has passed. -/
theorem tExecutes {c : Instr} (hw : wordOf c = some (tId, tK)) (hp : Passed c tRun) : Executes c tId tK tRun where
  word := hw
  passed := hp
  may := by
    have hd : awaitsDld c tRun tId = none := by
      unfold awaitsDld
      split
      · have h : (namedRecords (groupOf tRun tId) c).filterMap (pendingDld tRun tId) = [] :=
          List.filterMap_eq_nil_iff.mpr fun _ _ => rfl
        rw [h]; rfl
      · rfl
    unfold issues
    rw [hd]
    decide +kernel
  fresh := by decide +kernel
  noBreak := by decide +kernel
  guard := by decide +kernel
  inside := by decide +kernel

/-- What holds after a word of the small state, beside that the thread executes it. -/
abbrev Runs (c : Instr) (p : State → Bool) : Prop := Executes c tId tK tRun ∧ after c tRun p = true

def tS (r : Fin 32) (v : Word) (u : State) : Bool :=
  (theThread u tId).rd r == v && (theThread u tId).pc == 1 && (theThread u tId).run == .ready

def tP (r : Fin 8) (v : Bool) (u : State) : Bool := (theThread u tId).rdP r == v && (theThread u tId).pc == 1

def tV (r : Fin 32) (i : Fin 64) (v : Word) (u : State) : Bool := (vectorOf u tId).v[r][i] == v && (theThread u tId).pc == 1

theorem test_nop : Runs (.nop tId tK ({ a := 0, ci := false, imm16 := 0, target := 0 } : CArgs))
    (tS 1 10) :=
  ⟨tExecutes rfl ⟨by decide, tVecOk (by decide), trivial⟩, by decide +kernel⟩

theorem test_br : Runs (.br tId tK ({ a := 0, ci := false, imm16 := 0, target := 5 } : CArgs))
    (fun u => (theThread u tId).pc == 5 && (theThread u tId).loops == []) :=
  ⟨tExecutes rfl ⟨by decide, tVecOk (by decide), by decide +kernel⟩, by decide +kernel⟩

theorem test_loop : Runs (.loop tId tK ({ a := 1, ci := false, imm16 := 0, target := 3 } : CArgs))
    (fun u => (theThread u tId).pc == 1 && (theThread u tId).loops == [{ start := 1, stop := 3, count := 10, index := 0 }]) :=
  ⟨tExecutes rfl ⟨by decide, tVecOk (by decide), by decide +kernel⟩, by decide +kernel⟩

theorem test_lrd : Runs (.lrd tId tK ({ dst := 11, a := 0, minor := 0, imm := 3 } : IArgs))
    (tS 11 0) :=
  ⟨tExecutes rfl ⟨by decide, tVecOk (by decide), trivial⟩, by decide +kernel⟩

theorem test_halt : Runs (.halt tId tK ({ a := 0, ci := false, imm16 := 0, target := 0 } : CArgs))
    (fun u => (theThread u tId).run == .ended && (theThread u tId).s == tThread.s) :=
  ⟨tExecutes rfl ⟨by decide, tVecOk (by decide), trivial⟩, by decide +kernel⟩

theorem test_add : Runs (.add tId tK ({ dst := 11, a := 4, b := 1, c := 0, minor := 0 } : RArgs))
    (tS 11 9) :=
  ⟨tExecutes rfl ⟨by decide, tVecOk (by decide), trivial⟩, by decide +kernel⟩

theorem test_sub : Runs (.sub tId tK ({ dst := 11, a := 2, b := 1, c := 0, minor := 0 } : RArgs))
    (tS 11 0xFFFFFFF9) :=
  ⟨tExecutes rfl ⟨by decide, tVecOk (by decide), trivial⟩, by decide +kernel⟩

theorem test_mul : Runs (.mul tId tK ({ dst := 11, a := 4, b := 1, c := 0, minor := 0 } : RArgs))
    (tS 11 0xFFFFFFF6) :=
  ⟨tExecutes rfl ⟨by decide, tVecOk (by decide), trivial⟩, by decide +kernel⟩

theorem test_mulhu : Runs (.mulhu tId tK ({ dst := 11, a := 4, b := 1, c := 0, minor := 0 } : RArgs))
    (tS 11 9) :=
  ⟨tExecutes rfl ⟨by decide, tVecOk (by decide), trivial⟩, by decide +kernel⟩

theorem test_mulhs : Runs (.mulhs tId tK ({ dst := 11, a := 4, b := 1, c := 0, minor := 0 } : RArgs))
    (tS 11 0xFFFFFFFF) :=
  ⟨tExecutes rfl ⟨by decide, tVecOk (by decide), trivial⟩, by decide +kernel⟩

theorem test_divu : Runs (.divu tId tK ({ dst := 11, a := 1, b := 0, c := 0, minor := 0 } : RArgs))
    (tS 11 0xFFFFFFFF) :=
  ⟨tExecutes rfl ⟨by decide, tVecOk (by decide), trivial⟩, by decide +kernel⟩

theorem test_remu : Runs (.remu tId tK ({ dst := 11, a := 1, b := 0, c := 0, minor := 0 } : RArgs))
    (tS 11 10) :=
  ⟨tExecutes rfl ⟨by decide, tVecOk (by decide), trivial⟩, by decide +kernel⟩

theorem test_divs : Runs (.divs tId tK ({ dst := 11, a := 3, b := 4, c := 0, minor := 0 } : RArgs))
    (tS 11 0x80000000) :=
  ⟨tExecutes rfl ⟨by decide, tVecOk (by decide), trivial⟩, by decide +kernel⟩

theorem test_rems : Runs (.rems tId tK ({ dst := 11, a := 3, b := 4, c := 0, minor := 0 } : RArgs))
    (tS 11 0) :=
  ⟨tExecutes rfl ⟨by decide, tVecOk (by decide), trivial⟩, by decide +kernel⟩

theorem test_and : Runs (.and tId tK ({ dst := 11, a := 1, b := 2, c := 0, minor := 0 } : RArgs))
    (tS 11 2) :=
  ⟨tExecutes rfl ⟨by decide, tVecOk (by decide), trivial⟩, by decide +kernel⟩

theorem test_or : Runs (.or tId tK ({ dst := 11, a := 1, b := 2, c := 0, minor := 0 } : RArgs))
    (tS 11 11) :=
  ⟨tExecutes rfl ⟨by decide, tVecOk (by decide), trivial⟩, by decide +kernel⟩

theorem test_xor : Runs (.xor tId tK ({ dst := 11, a := 1, b := 2, c := 0, minor := 0 } : RArgs))
    (tS 11 9) :=
  ⟨tExecutes rfl ⟨by decide, tVecOk (by decide), trivial⟩, by decide +kernel⟩

theorem test_shl : Runs (.shl tId tK ({ dst := 11, a := 2, b := 5, c := 0, minor := 0 } : RArgs))
    (tS 11 384) :=
  ⟨tExecutes rfl ⟨by decide, tVecOk (by decide), trivial⟩, by decide +kernel⟩

theorem test_shr : Runs (.shr tId tK ({ dst := 11, a := 3, b := 5, c := 0, minor := 0 } : RArgs))
    (tS 11 0x01000000) :=
  ⟨tExecutes rfl ⟨by decide, tVecOk (by decide), trivial⟩, by decide +kernel⟩

theorem test_sra : Runs (.sra tId tK ({ dst := 11, a := 3, b := 5, c := 0, minor := 0 } : RArgs))
    (tS 11 0xFF000000) :=
  ⟨tExecutes rfl ⟨by decide, tVecOk (by decide), trivial⟩, by decide +kernel⟩

theorem test_minmax : Runs (.minmax tId tK ({ dst := 11, a := 1, b := 4, c := 0, minor := 0 } : RArgs))
    (tS 11 0xFFFFFFFF) :=
  ⟨tExecutes rfl ⟨by decide, tVecOk (by decide), trivial⟩, by decide +kernel⟩

theorem test_addi : Runs (.addi tId tK ({ dst := 11, a := 1, minor := 0, imm := 0x1FFFFFF } : IArgs))
    (tS 11 9) :=
  ⟨tExecutes rfl ⟨by decide, tVecOk (by decide), trivial⟩, by decide +kernel⟩

theorem test_andi : Runs (.andi tId tK ({ dst := 11, a := 1, minor := 0, imm := 0x1FFFFFF } : IArgs))
    (tS 11 10) :=
  ⟨tExecutes rfl ⟨by decide, tVecOk (by decide), trivial⟩, by decide +kernel⟩

theorem test_ori : Runs (.ori tId tK ({ dst := 11, a := 1, minor := 0, imm := 0x1000000 } : IArgs))
    (tS 11 0xFF00000A) :=
  ⟨tExecutes rfl ⟨by decide, tVecOk (by decide), trivial⟩, by decide +kernel⟩

theorem test_xori : Runs (.xori tId tK ({ dst := 11, a := 1, minor := 0, imm := 0x1FFFFFF } : IArgs))
    (tS 11 0xFFFFFFF5) :=
  ⟨tExecutes rfl ⟨by decide, tVecOk (by decide), trivial⟩, by decide +kernel⟩

theorem test_shifti : Runs (.shifti tId tK ({ dst := 11, a := 3, minor := 2, imm := 31 } : IArgs))
    (tS 11 0xFFFFFFFF) :=
  ⟨tExecutes rfl ⟨by decide, tVecOk (by decide), trivial⟩, by decide +kernel⟩

theorem test_movi : Runs (.movi tId tK ({ dst := 11, imm32 := 0xDEADBEEF } : LArgs))
    (tS 11 0xDEADBEEF) :=
  ⟨tExecutes rfl ⟨by decide, tVecOk (by decide), trivial⟩, by decide +kernel⟩

theorem test_cmp : Runs (.cmp tId tK ({ dst := 2, a := 4, b := 1, c := 0, minor := 2 } : RArgs))
    (tP 2 true) :=
  ⟨tExecutes rfl ⟨by decide, tVecOk (by decide), trivial⟩, by decide +kernel⟩

theorem test_cmpi : Runs (.cmpi tId tK ({ dst := 2, a := 1, minor := 4, imm := 0x1FFFFFF } : IArgs))
    (tP 2 true) :=
  ⟨tExecutes rfl ⟨by decide, tVecOk (by decide), trivial⟩, by decide +kernel⟩

theorem test_sel : Runs (.sel tId tK ({ dst := 11, a := 1, b := 2, c := 1, minor := 0 } : RArgs))
    (tS 11 10) :=
  ⟨tExecutes rfl ⟨by decide, tVecOk (by decide), trivial⟩, by decide +kernel⟩

theorem test_plog : Runs (.plog tId tK ({ dst := 3, a := 1, b := 0, c := 0, minor := 3 } : RArgs))
    (tP 3 true) :=
  ⟨tExecutes rfl ⟨by decide, tVecOk (by decide), trivial⟩, by decide +kernel⟩

theorem test_fadd : Runs (.fadd tId tK ({ dst := 11, a := 7, b := 8, c := 0, minor := 0 } : RArgs))
    (tS 11 0x40400000) :=
  ⟨tExecutes rfl ⟨by decide, tVecOk (by decide), trivial⟩, by decide +kernel⟩

theorem test_fmul : Runs (.fmul tId tK ({ dst := 11, a := 8, b := 8, c := 0, minor := 0 } : RArgs))
    (tS 11 0x40800000) :=
  ⟨tExecutes rfl ⟨by decide, tVecOk (by decide), trivial⟩, by decide +kernel⟩

theorem test_ffma : Runs (.ffma tId tK ({ dst := 11, a := 8, b := 8, c := 7, minor := 0 } : RArgs))
    (tS 11 0x40A00000) :=
  ⟨tExecutes rfl ⟨by decide, tVecOk (by decide), trivial⟩, by decide +kernel⟩

theorem test_fminmax : Runs (.fminmax tId tK ({ dst := 11, a := 9, b := 8, c := 0, minor := 1 } : RArgs))
    (tS 11 0x40000000) :=
  ⟨tExecutes rfl ⟨by decide, tVecOk (by decide), trivial⟩, by decide +kernel⟩

theorem test_fcmp : Runs (.fcmp tId tK ({ dst := 4, a := 7, b := 8, c := 0, minor := 2 } : RArgs))
    (tP 4 true) :=
  ⟨tExecutes rfl ⟨by decide, tVecOk (by decide), trivial⟩, by decide +kernel⟩

theorem test_fcvt : Runs (.fcvt tId tK ({ dst := 11, a := 8, b := 0, c := 0, minor := 2 } : RArgs))
    (tS 11 2) :=
  ⟨tExecutes rfl ⟨by decide, tVecOk (by decide), trivial⟩, by decide +kernel⟩

theorem test_vadd : Runs (.vadd tId tK ({ vd := 11, va := 7, vb := 8, vc := 0, me := false, vm := 0, minor := 0 } : VArgs))
    (tV 11 63 0x40400000) :=
  ⟨tExecutes rfl ⟨by decide, tVecOk (by decide), trivial⟩, by decide +kernel⟩

theorem test_vsub : Runs (.vsub tId tK ({ vd := 11, va := 7, vb := 8, vc := 0, me := false, vm := 0, minor := 0 } : VArgs))
    (tV 11 0 0xBF800000) :=
  ⟨tExecutes rfl ⟨by decide, tVecOk (by decide), trivial⟩, by decide +kernel⟩

theorem test_vmul : Runs (.vmul tId tK ({ vd := 11, va := 8, vb := 8, vc := 0, me := false, vm := 0, minor := 0 } : VArgs))
    (tV 11 63 0x40800000) :=
  ⟨tExecutes rfl ⟨by decide, tVecOk (by decide), trivial⟩, by decide +kernel⟩

theorem test_vfma : Runs (.vfma tId tK ({ vd := 11, va := 8, vb := 8, vc := 7, me := false, vm := 0, minor := 0 } : VArgs))
    (tV 11 63 0x40A00000) :=
  ⟨tExecutes rfl ⟨by decide, tVecOk (by decide), trivial⟩, by decide +kernel⟩

theorem test_vmin : Runs (.vmin tId tK ({ vd := 11, va := 7, vb := 8, vc := 0, me := false, vm := 0, minor := 0 } : VArgs))
    (tV 11 1 0x3F800000) :=
  ⟨tExecutes rfl ⟨by decide, tVecOk (by decide), trivial⟩, by decide +kernel⟩

theorem test_vmax : Runs (.vmax tId tK ({ vd := 11, va := 7, vb := 8, vc := 0, me := false, vm := 0, minor := 0 } : VArgs))
    (tV 11 1 0x40000000) :=
  ⟨tExecutes rfl ⟨by decide, tVecOk (by decide), trivial⟩, by decide +kernel⟩

theorem test_vcmp : Runs (.vcmp tId tK ({ vd := 11, va := 7, vb := 8, vc := 0, me := false, vm := 0, minor := 2 } : VArgs))
    (tV 11 63 0xFFFFFFFF) :=
  ⟨tExecutes rfl ⟨by decide, tVecOk (by decide), trivial⟩, by decide +kernel⟩

theorem test_vsel : Runs (.vsel tId tK ({ vd := 11, va := 1, vb := 2, vc := 9, me := false, vm := 0, minor := 0 } : VArgs))
    (tV 11 0 100) :=
  ⟨tExecutes rfl ⟨by decide, tVecOk (by decide), trivial⟩, by decide +kernel⟩

theorem test_vexp2 : Runs (.vexp2 tId tK ({ vd := 11, va := 7, vb := 0, vc := 0, me := false, vm := 0, minor := 0 } : VArgs))
    (tV 11 63 0x40000000) :=
  ⟨tExecutes rfl ⟨by decide, tVecOk (by decide), trivial⟩, by decide +kernel⟩

theorem test_vrcp : Runs (.vrcp tId tK ({ vd := 11, va := 8, vb := 0, vc := 0, me := false, vm := 0, minor := 0 } : VArgs))
    (tV 11 63 0x3F000000) :=
  ⟨tExecutes rfl ⟨by decide, tVecOk (by decide), trivial⟩, by decide +kernel⟩

theorem test_vrsq : Runs (.vrsq tId tK ({ vd := 11, va := 7, vb := 0, vc := 0, me := false, vm := 0, minor := 0 } : VArgs))
    (tV 11 63 0x3F800000) :=
  ⟨tExecutes rfl ⟨by decide, tVecOk (by decide), trivial⟩, by decide +kernel⟩

theorem test_viadd : Runs (.viadd tId tK ({ vd := 11, va := 3, vb := 9, vc := 0, me := false, vm := 0, minor := 1 } : VArgs))
    (fun u => tV 11 63 0x80000000 u && tV 11 0 0x7FFFFFFF u && (vectorOf u tId).ovf) :=
  ⟨tExecutes rfl ⟨by decide, tVecOk (by decide), trivial⟩, by decide +kernel⟩

theorem test_visub : Runs (.visub tId tK ({ vd := 11, va := 1, vb := 2, vc := 0, me := false, vm := 0, minor := 1 } : VArgs))
    (tV 11 63 0xFFFFFF9C) :=
  ⟨tExecutes rfl ⟨by decide, tVecOk (by decide), trivial⟩, by decide +kernel⟩

theorem test_vimul : Runs (.vimul tId tK ({ vd := 11, va := 1, vb := 2, vc := 0, me := false, vm := 0, minor := 0 } : VArgs))
    (tV 11 63 10269) :=
  ⟨tExecutes rfl ⟨by decide, tVecOk (by decide), trivial⟩, by decide +kernel⟩

theorem test_vlogic : Runs (.vlogic tId tK ({ vd := 11, va := 1, vb := 9, vc := 0, me := false, vm := 0, minor := 1 } : VArgs))
    (tV 11 62 63) :=
  ⟨tExecutes rfl ⟨by decide, tVecOk (by decide), trivial⟩, by decide +kernel⟩

theorem test_vrsum : Runs (.vrsum tId tK ({ vd := 11, va := 7, vb := 0, vc := 0, me := false, vm := 0, minor := 0 } : VArgs))
    (tS 11 0x42800000) :=
  ⟨tExecutes rfl ⟨by decide, tVecOk (by decide), trivial⟩, by decide +kernel⟩

theorem test_vrmax : Runs (.vrmax tId tK ({ vd := 11, va := 8, vb := 0, vc := 0, me := false, vm := 0, minor := 0 } : VArgs))
    (tS 11 0x40000000) :=
  ⟨tExecutes rfl ⟨by decide, tVecOk (by decide), trivial⟩, by decide +kernel⟩

theorem test_vmaxabs : Runs (.vmaxabs tId tK ({ vd := 11, va := 8, vb := 0, vc := 0, me := false, vm := 0, minor := 0 } : VArgs))
    (tS 11 0x40000000) :=
  ⟨tExecutes rfl ⟨by decide, tVecOk (by decide), trivial⟩, by decide +kernel⟩

theorem test_vperm : Runs (.vperm tId tK ({ vd := 11, va := 2, vb := 1, vc := 0, me := false, vm := 0, minor := 0 } : VArgs))
    (tV 11 63 163) :=
  ⟨tExecutes rfl ⟨by decide, tVecOk (by decide), trivial⟩, by decide +kernel⟩

theorem test_vbcast : Runs (.vbcast tId tK ({ vd := 11, va := 1, vb := 0, vc := 0, me := false, vm := 0, minor := 0 } : VArgs))
    (tV 11 63 10) :=
  ⟨tExecutes rfl ⟨by decide, tVecOk (by decide), trivial⟩, by decide +kernel⟩

theorem test_vext : Runs (.vext tId tK ({ vd := 11, va := 2, vb := 2, vc := 0, me := false, vm := 0, minor := 0 } : VArgs))
    (tS 11 103) :=
  ⟨tExecutes rfl ⟨by decide, tVecOk (by decide), trivial⟩, by decide +kernel⟩

theorem test_vflag : Runs (.vflag tId tK ({ vd := 11, va := 0, vb := 0, vc := 0, me := false, vm := 0, minor := 0 } : VArgs))
    (tS 11 0) :=
  ⟨tExecutes rfl ⟨by decide, tVecOk (by decide), trivial⟩, by decide +kernel⟩

theorem test_vmov : Runs (.vmov tId tK ({ vd := 11, va := 2, vb := 0, vc := 0, me := true, vm := 9, minor := 0 } : VArgs))
    (fun u => tV 11 63 163 u && tV 11 0 0 u) :=
  ⟨tExecutes rfl ⟨by decide, tVecOk (by decide), trivial⟩, by decide +kernel⟩

theorem test_vcvt : Runs (.vcvt tId tK ({ vd := 11, va := 7, vb := 0, vc := 0, me := false, vm := 0, minor := 0 } : VArgs))
    (fun u => (theThread u tId).pc == 1) :=
  ⟨tExecutes rfl ⟨by decide, tVecOk (by decide), trivial⟩, by decide +kernel⟩

theorem test_ld : Runs (.ld tId tK ({ data := 11, areg := 20, win := 0, minor := 2, disp := 7 } : AArgs))
    (fun u => u.requests.length == 1 && (theThread u tId).run == .waitReq 0 && (theThread u tId).pc == 1 && (u.requests.map (·.devAddr)) == [2 ^ 52 + 4]) :=
  ⟨tExecutes rfl ⟨by decide, tVecOk (by decide), trivial⟩, by decide +kernel⟩

theorem test_st : Runs (.st tId tK ({ data := 1, areg := 20, win := 0, minor := 2, disp := 0 } : AArgs))
    (fun u => u.requests.length == 1 && (theThread u tId).run == .ready && (theThread u tId).pc == 1 && (u.requests.map (·.devAddr)) == [2 ^ 52]) :=
  ⟨tExecutes rfl ⟨by decide, tVecOk (by decide), trivial⟩, by decide +kernel⟩

theorem test_vld : Runs (.vld tId tK ({ data := 11, areg := 20, win := 0, minor := 0, disp := 0 } : AArgs))
    (fun u => u.requests.length == 1 && (theThread u tId).run == .waitReq 0 && (theThread u tId).pc == 1 && (u.requests.map (·.devAddr)) == [2 ^ 52]) :=
  ⟨tExecutes rfl ⟨by decide, tVecOk (by decide), trivial⟩, by decide +kernel⟩

theorem test_vst : Runs (.vst tId tK ({ data := 1, areg := 20, win := 0, minor := 0, disp := 0 } : AArgs))
    (fun u => u.requests.length == 1 && (theThread u tId).run == .ready && (theThread u tId).pc == 1 && (u.requests.map (·.devAddr)) == [2 ^ 52]) :=
  ⟨tExecutes rfl ⟨by decide, tVecOk (by decide), trivial⟩, by decide +kernel⟩

theorem test_atom : Runs (.atom tId tK ({ data := 1, areg := 20, win := 0, minor := 0, disp := 0 } : AArgs))
    (fun u => u.requests.length == 1 && (theThread u tId).run == .waitReq 0 && (theThread u tId).pc == 1 && (u.requests.map (·.devAddr)) == [2 ^ 52]) :=
  ⟨tExecutes rfl ⟨by decide, tVecOk (by decide), trivial⟩, by decide +kernel⟩

theorem test_atomp : Runs (.atomp tId tK ({ data := 1, areg := 20, win := 0, minor := 0, disp := 0 } : AArgs))
    (fun u => u.requests.length == 1 && (theThread u tId).run == .ready && (theThread u tId).pc == 1 && (u.requests.map (·.devAddr)) == [2 ^ 52]) :=
  ⟨tExecutes rfl ⟨by decide, tVecOk (by decide), trivial⟩, by decide +kernel⟩

theorem test_fence : Runs (.fence tId tK ({ data := 0, areg := 0, win := 0, minor := 0, disp := 0 } : AArgs))
    (tS 1 10) :=
  ⟨tExecutes rfl ⟨by decide, tVecOk (by decide), trivial⟩, by decide +kernel⟩

theorem test_sig : Runs (.sig tId tK ({ data := 1, areg := 20, win := 0, minor := 0, disp := 0 } : AArgs))
    (fun u => u.requests.length == 1 && (theThread u tId).run == .ready && (theThread u tId).pc == 1 && (u.requests.map (·.devAddr)) == [2 ^ 52]) :=
  ⟨tExecutes rfl ⟨by decide, tVecOk (by decide), trivial⟩, by decide +kernel⟩

theorem test_sigw : Runs (.sigw tId tK ({ data := 1, areg := 20, win := 0, minor := 0, disp := 0 } : AArgs))
    (fun u => u.requests.length == 1 && (theThread u tId).run == .waitReq 0 && (theThread u tId).pc == 1 && (u.requests.map (·.devAddr)) == [2 ^ 52]) :=
  ⟨tExecutes rfl ⟨by decide, tVecOk (by decide), trivial⟩, by decide +kernel⟩

theorem test_watch : Runs (.watch tId tK ({ data := 2, areg := 20, win := 0, minor := 0, disp := 0 } : AArgs))
    (fun u => u.requests.length == 1 && (theThread u tId).run == .waitReq 0 && (theThread u tId).pc == 1 && (u.requests.map (·.devAddr)) == [2 ^ 52]) :=
  ⟨tExecutes rfl ⟨by decide, tVecOk (by decide), trivial⟩, by decide +kernel⟩

theorem test_dld : Runs (.dld tId tK ({ data := 3, areg := 20, win := 0, minor := 0, disp := 0 } : AArgs))
    (fun u => u.requests.length == 1 && (theThread u tId).run == .waitReq 0 && (theThread u tId).pc == 1 && (u.requests.map (·.devAddr)) == [2 ^ 52]) :=
  ⟨tExecutes rfl ⟨by decide, tVecOk (by decide), trivial⟩, by decide +kernel⟩

theorem test_dstr : Runs (.dstr tId tK ({ data := 3, areg := 20, win := 0, minor := 1, disp := 0 } : AArgs))
    (fun u => u.requests.length == 1 && (theThread u tId).run == .ready && (theThread u tId).pc == 1 && (u.requests.map (·.devAddr)) == [2 ^ 52]) :=
  ⟨tExecutes rfl ⟨by decide, tVecOk (by decide), trivial⟩, by decide +kernel⟩

theorem test_unwatch : Runs (.unwatch tId tK ({ dst := 0, a := 0, minor := 0, imm := 2 } : IArgs))
    (tS 1 10) :=
  ⟨tExecutes rfl ⟨by decide, tVecOk (by decide), trivial⟩, by decide +kernel⟩

theorem test_twait : Runs (.twait tId tK ({ dst := 0, a := 0, minor := 0, imm := 0 } : IArgs))
    (tS 1 10) :=
  ⟨tExecutes rfl ⟨by decide, tVecOk (by decide), trivial⟩, by decide +kernel⟩

theorem test_park : Runs (.park tId tK ({ dst := 11, a := 0, minor := 0, imm := 0 } : IArgs))
    (fun u => (theThread u tId).run == .parked 11 && (theThread u tId).pc == 1) :=
  ⟨tExecutes rfl ⟨by decide, tVecOk (by decide), trivial⟩, by decide +kernel⟩

theorem test_take : Runs (.take tId tK ({ dst := 12, a := 0, minor := 1, imm := 0 } : IArgs))
    (fun u => (theThread u tId).run == .taking 1 12) :=
  ⟨tExecutes rfl ⟨by decide, tVecOk (by decide), trivial⟩, by decide +kernel⟩

theorem test_token : Runs (.token tId tK ({ dst := 0, a := 2, b := 4, c := 0, minor := 0 } : RArgs))
    (fun u => (u.requests.map (·.after)) == [[]] && (theThread u tId).pc == 1) :=
  ⟨tExecutes rfl ⟨by decide, tVecOk (by decide), trivial⟩, by decide +kernel⟩

theorem test_delay : Runs (.delay tId tK ({ dst := 0, a := 2, b := 4, c := 0, minor := 0 } : RArgs))
    (fun u => u.requests.length == 1 && (theThread u tId).pc == 1) :=
  ⟨tExecutes rfl ⟨by decide, tVecOk (by decide), trivial⟩, by decide +kernel⟩

theorem test_time : Runs (.time tId tK ({ dst := 12, a := 0, minor := 0, imm := 0 } : IArgs))
    (fun u => (theThread u tId).pc == 1 && u.mem == tRun.mem) :=
  ⟨tExecutes rfl ⟨by decide, tVecOk (by decide), trivial⟩, by decide +kernel⟩

theorem test_reel : Runs (.reel tId tK ({ data := 11, areg := 20, win := 0, minor := 2, disp := 0 } : AArgs))
    (fun u => (reelUnit u 0 2).queue.length == 1 && (theThread u tId).rd 11 != 0x80000000) :=
  ⟨tExecutes rfl ⟨by decide, tVecOk (by decide), trivial⟩, by decide +kernel⟩

theorem test_dsetw : Runs (.dsetw tId tK ({ dst := 3, a := 1, minor := 0, imm := 5 } : IArgs))
    (fun u => fieldAt (recordOf (groupOf u tId) false 3) 20 4 == 10) :=
  ⟨tExecutes rfl ⟨by decide, tVecOk (by decide), trivial⟩, by decide +kernel⟩

theorem test_dgetw : Runs (.dgetw tId tK ({ dst := 11, a := 3, minor := 0, imm := 5 } : IArgs))
    (tS 11 0) :=
  ⟨tExecutes rfl ⟨by decide, tVecOk (by decide), trivial⟩, by decide +kernel⟩

theorem test_mma : Runs (.mma tId tK ({ dc := 0, da := 1, db := 2, xae := false, xa := 0, xce := false, xc := 0, rig := 4, fmta := 0, fmtb := 0, ta := false, tb := false, acc := false, spa := 0, spb := 0, skip := false } : MArgs))
    (fun u => (u.ops.map (·.id)) == [0] && (theThread u tId).run == .ready) :=
  ⟨tExecutes rfl ⟨by decide, tVecOk (by decide), by decide +kernel⟩, by decide +kernel⟩

theorem test_tcopy : Runs (.tcopy tId tK ({ d1 := 0, d2 := 1, xe1 := false, x1 := 0, xe2 := false, x2 := 0, sreg := 0, minor := 0 } : TArgs))
    (fun u => (u.ops.map (·.id)) == [0] && (theThread u tId).run == .ready) :=
  ⟨tExecutes rfl ⟨by decide, tVecOk (by decide), trivial⟩, by decide +kernel⟩

theorem test_tscadd : Runs (.tscadd tId tK ({ d1 := 0, d2 := 1, xe1 := false, x1 := 0, xe2 := false, x2 := 0, sreg := 0, minor := 0 } : TArgs))
    (fun u => (u.ops.map (·.id)) == [0] && (theThread u tId).run == .ready) :=
  ⟨tExecutes rfl ⟨by decide, tVecOk (by decide), trivial⟩, by decide +kernel⟩

theorem test_tmaxabs : Runs (.tmaxabs tId tK ({ d1 := 0, d2 := 0, xe1 := false, x1 := 0, xe2 := false, x2 := 0, sreg := 11, minor := 0 } : TArgs))
    (fun u => (u.ops.map (·.id)) == [0] && (theThread u tId).run == .waitOp 0) :=
  ⟨tExecutes rfl ⟨by decide, tVecOk (by decide), trivial⟩, by decide +kernel⟩

/-! ### Requests, wakes and tokens -/

/-- The state that a command leaves. -/
def nextOf (c : Instr) (s : State) : State :=
  match exec c s with
  | .next u => u
  | _ => s

/-- The request under a number. -/
def rq (s : State) (id : Nat) : Request := (findRequest s id).getD default

theorem tSound : Sound tRun := ⟨by decide +kernel, ⟨by decide, by decide⟩, ⟨by decide, by decide⟩, ⟨by decide, by decide⟩, ⟨by decide, by decide⟩⟩

/-- The state in which the ledgers hold 24 credits of everything that request 0 needs. -/
def tFed (s : State) : State :=
  (creditNeeds s (rq s 0)).foldl (fun s x => setLedger s x.1 x.2.1 { lots := [(24, 0)] }) s

/-- A load of the word at T1 offset 4 waits. -/
def tLd : State := tFed (nextOf (.ld tId tK { data := 11, areg := 20, win := 0, minor := 2, disp := 4 })
  { tRun with mem := tRun.mem.store (2 ^ 52) [1, 2, 3, 4, 0x78, 0x56, 0x34, 0x12] })
def tLdA : State := nextOf (.requestAcceptance 0) tLd
def tLdP : State := nextOf (.requestPerform 0) tLdA
def tSt : State := tFed (nextOf (.st tId tK { data := 1, areg := 20, win := 0, minor := 2, disp := 0 }) tRun)
def tStA : State := nextOf (.requestAcceptance 0) tSt

theorem test_requestAcceptance : findRequest tLd 0 = some (rq tLd 0) ∧ (rq tLd 0).stage = .waiting ∧ strayWatch (rq tLd 0) = false ∧
    mayAdmit tLd (rq tLd 0) = true ∧
    translate tLd 0 (originGroup (rq tLd 0).origin) (kindNeed (rq tLd 0).kind) (rq tLd 0).ctxAddr 4 = some (rq tLd 0).devAddr ∧
    namesVacant tLd (rq tLd 0) = false ∧ spaceOf (rq tLd 0).devAddr = 1 ∧ (rq tLd 0).tag ≠ 0 ∧
    waitCause tLd (rq tLd 0) = none ∧
    after (.requestAcceptance 0) tLd (fun u => (rq u 0).stage == .accepted && (rq u 0).accepted == 5000000 &&
      u.mem == tLd.mem && (rq u 0).credits == (pathNeeds tLd (rq tLd 0)).map (·.2) && u.nextReq == 1) = true := by
  decide +kernel

/-- The same request where the destination has lent every credit: it waits with its tag. -/
def tLdW : State := { tLd with
  ledgers := [], dests := (creditNeeds tLd (rq tLd 0)).map fun x => (x.2.1, { free := 0, waiting := [] }) }

theorem test_requestWaits : mayAdmit tLdW (rq tLdW 0) = true ∧ (waitCause tLdW (rq tLdW 0)).isSome = true ∧
    after (.requestAcceptance 0) tLdW (fun u => (rq u 0).stage == .waiting && (rq u 0).since == 5000000 &&
      some (rq u 0).cause == waitCause tLdW (rq tLdW 0) && u.dests == tLdW.dests && u.ledgers == tLdW.ledgers) = true := by
  decide +kernel

theorem test_requestPerform_load : strayWrite tLdA (rq tLdA 0) = false ∧ mayPerform tLdA (rq tLdA 0) = true ∧ targetFailed tLdA (rq tLdA 0) = false ∧
    (rq tLdA 0).kind = .load 4 false 11 ∧
    after (.requestPerform 0) tLdA (fun u => (rq u 0).stage == .performed && (rq u 0).result == [0x78, 0x56, 0x34, 0x12] &&
      u.mem == tLdA.mem && u.threads == tLdA.threads) = true := by decide +kernel

theorem test_requestPerform_store : strayWrite tStA (rq tStA 0) = false ∧ mayPerform tStA (rq tStA 0) = true ∧ targetFailed tStA (rq tStA 0) = false ∧
    (rq tStA 0).kind = .store [10, 0, 0, 0] ∧
    after (.requestPerform 0) tStA (fun u => u.mem.readByte (2 ^ 52) == 10 && u.mem.readByte (2 ^ 52 + 1) == 0 &&
      u.contexts == tStA.contexts && (rq u 0).stage == .performed) = true := by decide +kernel

theorem test_requestCompletion : (rq tLdP 0).stage = .performed ∧ heldForCell tLdP (rq tLdP 0) = false ∧
    (rq tLdP 0).poisonAt = none ∧ (rq tLdP 0).origin = .thread tId ∧ (theThread tLdP tId).run = .waitReq 0 ∧
    (threadOf tLdP tId).isSome = true ∧ (theThread tLdP tId).pc < codeWords (ctxOf tLdP 0) ∧
    after (.requestCompletion 0 [] false) tLdP (fun u => (theThread u tId).rd 11 == 0x12345678 &&
      (theThread u tId).run == .ready && (findRequest u 0).isNone && u.mem == tLdP.mem) = true := by decide +kernel

/-- A signal that adds s1 to the word at T1 offset 0 has been accepted. -/
def tSigA : State := nextOf (.requestAcceptance 0) (tFed <| nextOf (.sig tId tK { data := 1, areg := 20, win := 0, minor := 1, disp := 0 })
  { tRun with mem := tRun.mem.store (2 ^ 52) [250, 0, 0, 0] })

theorem test_signalPerform : strayWrite tSigA (rq tSigA 0) = false ∧ (rq tSigA 0).kind = .signal 1 10 false ∧ mayPerform tSigA (rq tSigA 0) = true ∧
    targetFailed tSigA (rq tSigA 0) = false ∧ devPoison tSigA (rq tSigA 0).devAddr 4 = none ∧
    after (.signalPerform 0) tSigA (fun u => u.mem.readByte (2 ^ 52) == 4 && u.mem.readByte (2 ^ 52 + 1) == 1 &&
      (rq u 0).stage == .performed) = true := by decide +kernel

def tWatchA : State := nextOf (.requestAcceptance 0) (tFed <| nextOf (.watch tId tK { data := 15, areg := 20, win := 0, minor := 0, disp := 8 }) tRun)

theorem test_watchAck : (rq tWatchA 0).kind = .watch 15 ∧ mayPerform tWatchA (rq tWatchA 0) = true ∧
    heldForCell tWatchA (rq tWatchA 0) = false ∧ targetFailed tWatchA (rq tWatchA 0) = false ∧
    (theThread tWatchA tId).run = .waitReq 0 ∧ (theThread tWatchA tId).pc < codeWords (ctxOf tWatchA 0) ∧
    after (.watchAck 0) tWatchA (fun u => (theThread u tId).watch[15] == { addr := some (2 ^ 52 + 8), acked := true, written := false, due := 0 } &&
      (theThread u tId).run == .ready && (findRequest u 0).isNone) = true := by decide +kernel

/-- A thread parked with slots 0 and 15 written. -/
def tParked : State := { tRun with threads := [(tId, { tThread with
  run := .parked 11, watch := Vector.ofFn fun i => { WatchSlot.empty with written := i.val == 0 || i.val == 15 } })] }

theorem test_wakeNotification : threadOf tParked tId = some (theThread tParked tId) ∧ (theThread tParked tId).run = .parked 11 ∧
    (theThread tParked tId).writtenMask ≠ 0 ∧ ctxRuns tParked 0 = true ∧ cellRuns tParked tId = true ∧
    (physOf tParked (physAt tParked (threadRegion tParked tId))).vcore = 600 ∧ (theThread tParked tId).wakeDue = 0 ∧
    after (.wakeNotification tId) tParked (fun u => (theThread u tId).rd 11 == 0x8001 && (theThread u tId).run == .ready &&
      (theThread u tId).writtenMask == 0) = true := by decide +kernel

/-- The same thread, where the rail of its region stands at 0.55 V. -/
def tParkedLow : State := { tParked with phys := tParked.phys.map fun x => (x.1, { x.2 with vcore := 550 }) }

theorem test_wakeNotification_low : (physOf tParkedLow (physAt tParkedLow (threadRegion tParkedLow tId))).vcore < 600 ∧
    ctxRuns tParkedLow 0 = true ∧ cellRuns tParkedLow tId = true ∧
    after (.wakeNotification tId) tParkedLow (fun u => (theThread u tId).run == .parked 11 &&
      (theThread u tId).writtenMask == 0x8001) = true := by decide +kernel

theorem test_park_written : after (.park tId tK { dst := 11, a := 0, minor := 0, imm := 0 })
    { tParked with threads := [(tId, { (theThread tParked tId) with run := .ready })] } (fun u =>
      (theThread u tId).rd 11 == 0x8001 && (theThread u tId).run == .ready && (theThread u tId).writtenMask == 0) = true := by
  decide +kernel

/-- A token word of a KIND for entry 3 of cell 1 of region 0, by the places of Table 5.3. -/
def tTok (kind opnd required rearm step : Nat) : DWord :=
  BitVec.ofNat 64 (kind * 2 ^ 62 + 1 * 2 ^ 46 + 3 * 2 ^ 36 + opnd * 2 ^ 32 + required * 2 ^ 16 + rearm * 2 ^ 15 + step * 2 ^ 8)

/-- The entry armed for operand 15 alone, with a task for list 2. -/
def tArmed : State := setEntry tRun 0 1 3 { MatchEntry.zero with armed := true, required := 0x8000, rearm := true, argstep := 2, task := 0x20000 }

theorem test_token_fires : tokenMalformed (tTok 0 15 0 0 0) = false ∧ (ctxOf tArmed 0).blocks.contains (0, 0) = true ∧
    (let u := performToken tArmed 0 (tTok 0 15 0 0 0) 0 none
     readyList (regionOf u 0) 0 2 = [0x20000] ∧ (entryOf u 0 1 3).arrived = 0 ∧ (entryOf u 0 1 3).armed = true ∧
       (entryOf u 0 1 3).task = 0x200020000) := by decide +kernel

theorem test_token_faults :
    (performToken (setEntry tRun 0 1 3 { MatchEntry.zero with arrived := 1 }) 0 (tTok 0 0 0 0 0) 0 none =
      tokenFault (setEntry tRun 0 1 3 { MatchEntry.zero with arrived := 1 }) 0 0) ∧
    performToken tArmed 0 (tTok 1 0 0 0 0) 7 none = tokenFault tArmed 0 0 ∧
    (entryOf (performToken tArmed 0 (tTok 2 0 0 0 0) 0 none) 0 1 3).armed = false ∧
    (entryOf (performToken tRun 0 (tTok 0 15 0 0 0) 0 none) 0 1 3).arrived = 0x8000 ∧
    (regionOf tRun 0).takers = [] ∧ readyCount (regionOf tRun 0) < 16384 ∧
    readyList (regionOf (performToken tRun 0 (tTok 1 0 0 1 0) 0x50000 none) 0) 0 5 = [0x50000] := by decide +kernel

/-- The token of the thread, issued with its pairs at s20 and s22. -/
def tTokA : State := nextOf (.requestAcceptance 0) (tFed <| nextOf (.token tId tK { dst := 0, a := 20, b := 22, c := 0, minor := 0 }) tRun)

theorem test_tokenPerform : (rq tTokA 0).kind = .token 0 0 ∧ mayPerform tTokA (rq tTokA 0) = true ∧
    targetFailed tTokA (rq tTokA 0) = false ∧ (rq tTokA 0).deadline = none ∧ (rq tTokA 0).judge = none ∧ 10 * now tTokA ≤ (rq tTokA 0).promise ∧
    after (.tokenPerform 0) tTokA (fun u => (findRequest u 0).isNone && u.mem == tTokA.mem &&
      (entryOf u 0 0 0).arrived == 1) = true := by decide +kernel

/-- A firing that waits, and a task whose delay has passed. -/
def tFiring : State := modRegion (setEntry tRun 0 1 3 { MatchEntry.zero with waiting := some 0x30000 }) 0 fun R => { R with firings := [{ at_ := 0, cell := 1, entry := 3 }] }
def tDelay : State := modRegion tRun 0 fun R => { R with delay := [{ ctx := 0, due := 5000000, task := 0x40000 }] }

theorem test_waitingFiringPlaced : (regionOf tFiring 0).firings = [{ at_ := 0, cell := 1, entry := 3 }] ∧ readyCount (regionOf tFiring 0) < 16384 ∧
    blockOwner tFiring 0 0 = some 0 ∧ (entryOf tFiring 0 1 3).waiting = some 0x30000 ∧ (entryOf tFiring 0 1 3).armed = false ∧
    (regionOf tFiring 0).takers = [] ∧
    after (.waitingFiringPlaced 0) tFiring (fun u => (regionOf u 0).firings == [] &&
      readyList (regionOf u 0) 0 3 == [0x30000] && (entryOf u 0 1 3).waiting == none) = true := by decide +kernel

theorem test_delayTick : (regionOf tDelay 0).delay.length = 1 ∧ 5000000 ≤ now tDelay / 100 * 100 ∧
    (ctxOf tDelay 0).state ≠ .paused ∧ (regionOf tDelay 0).firings = [] ∧ (regionOf tDelay 0).takers = [] ∧
    after (.delayTick 0) tDelay (fun u => (regionOf u 0).delay == [] && readyList (regionOf u 0) 0 4 == [0x40000]) = true := by
  decide +kernel

theorem test_take_word : (regionOf tRun 0).takers = [] ∧ (regionOf tRun 0).flows = [] ∧
    after (.take tId tK { dst := 12, a := 0, minor := 4, imm := 0 }) (nextOf (.delayTick 0) tDelay) (fun u =>
      (theThread u tId).rdPair 12 == 0x40000 && (theThread u tId).run == .ready && readyList (regionOf u 0) 0 4 == []) = true := by
  decide +kernel

/-- The load without credits at its ledger, with all 24 of the bank free, or none. -/
def tPoor : State := { tLd with ledgers := [] }
def tPoorer : State := setDest tPoor (.bank 0 0) { free := 0, waiting := [] }

theorem test_lendingRequest : isOwnSlot (.bank 0 0) = false ∧ (rq tPoor 0).stage = .waiting ∧
    (creditNeeds tPoor (rq tPoor 0)).head? = some (.region 0, .bank 0 0, 1) ∧ (ledgerOf tPoor (.region 0) (.bank 0 0)).unused < 1 ∧
    24 ≤ resourceTotal (.bank 0 0) ∧ lends tPoor (.bank 0 0) = true ∧ (destOf tPoor (.bank 0 0)).waiting = [] ∧ tPoor.hold = false ∧
    after (.lendingRequest (.region 0) (.bank 0 0) 24) tPoor (fun u => (destOf u (.bank 0 0)).free == 0 &&
      (ledgerOf u (.region 0) (.bank 0 0)).unused == 24 && (destOf u (.bank 0 0)).waiting == []) = true ∧
    after (.lendingRequest (.region 0) (.bank 0 0) 1) tPoorer (fun u => (destOf u (.bank 0 0)).free == 0 &&
      (destOf u (.bank 0 0)).waiting == [(.region 0, .bank 0 0, 1)] && u.ledgers == []) = true := by decide +kernel

theorem test_creditGiveBack :
    (let s := setLedger tRun (.region 0) (.bank 0 0) { lots := [(24, 0)] }
     let s := setDest s (.bank 0 0) { free := 0, waiting := [] }
     (ledgerOf s (.region 0) (.bank 0 0)).unused ≠ 0 ∧ 2000 ≤ now s ∧ (destOf s (.bank 0 0)).waiting = [] ∧
     after (.creditGiveBack (.region 0) (.bank 0 0)) s (fun u => (destOf u (.bank 0 0)).free == 24 &&
       (ledgerOf u (.region 0) (.bank 0 0)).unused == 0) = true) := by decide +kernel

/-! ### Tensor operations and transfers -/

/-- One MMA of the thread is presented. -/
def tMmaArgs : MArgs :=
  { dc := 0, da := 1, db := 2, xae := false, xa := 0, xce := false, xc := 0, rig := 1, fmta := 0, fmtb := 0, ta := false, tb := false, acc := false, spa := 0, spb := 0, skip := false }
def tMma : State := nextOf (.mma tId tK tMmaArgs) tRun
def op0 (s : State) : TensorOp := (findOp s 0).getD default
def tGranted : State := nextOf (.mmaGrant 0) tMma
def tCopyOp : State := nextOf (.tcopy tId tK { d1 := 0, d2 := 1, xe1 := false, x1 := 0, xe2 := false, x2 := 0, sreg := 0, minor := 0 }) tRun
def tScaddOp : State := nextOf (.tscadd tId tK { d1 := 0, d2 := 1, xe1 := false, x1 := 0, xe2 := false, x2 := 0, sreg := 0, minor := 0 }) tRun
def tMaxOp : State := nextOf (.tmaxabs tId tK { d1 := 0, d2 := 1, xe1 := false, x1 := 0, xe2 := false, x2 := 0, sreg := 11, minor := 0 }) tRun

theorem test_mmaGrant : (op0 tMma).stage = .presented 5000000 5000000 ∧ (ctxOf tMma 0).state = .running ∧ opRuns tMma (op0 tMma) = true ∧
    (regionOf tMma 0).exchange = none ∧ rigWhole tMma (op0 tMma) = true ∧ (grantOf tMma (op0 tMma)).isSome = true ∧
    after (.mmaGrant 0) tMma (fun u => some (op0 u).stage == (grantOf tMma (op0 tMma)).map (fun g => .granted g.1 g.2 5000000 5000000) &&
      u.threads == tMma.threads && u.mem == tMma.mem) = true := by decide +kernel

/-- The granted MMA, its requests ended and its records consistent. -/
def tEnded : State := { tGranted with ops := tGranted.ops.map fun q => { q with tainted := false } }

theorem test_mmaComplete : (findOp tEnded 0).isSome = true ∧ (op0 tEnded).kind = .mma tMmaArgs 0 ∧
    feedsEnded tEnded (op0 tEnded) = true ∧ firstOnSpars tEnded (op0 tEnded) = true ∧ rigWhole tEnded (op0 tEnded) = true ∧ (op0 tEnded).tainted = false ∧
    conflicting tEnded (op0 tEnded) = [] ∧ opRuns tEnded (op0 tEnded) = true := by decide +kernel

theorem test_tensorOpComplete : opRuns tCopyOp (op0 tCopyOp) = true ∧ (op0 tCopyOp).tainted = false ∧
    conflicting tCopyOp (op0 tCopyOp) = [] ∧ opFenced tCopyOp (op0 tCopyOp) = false ∧ opFenced tScaddOp (op0 tScaddOp) = false ∧ opFenced tMaxOp (op0 tMaxOp) = false ∧
    (op0 tCopyOp).awaits = [] ∧ (op0 tScaddOp).awaits = [] ∧ (op0 tMaxOp).awaits = [] ∧
    opRuns tScaddOp (op0 tScaddOp) = true ∧ opRuns tMaxOp (op0 tMaxOp) = true ∧
    (findOp tMaxOp 0).isSome = true ∧ (theThread tMaxOp tId).run = .waitOp 0 := by decide +kernel

theorem test_tensor_pending : (pendingOps tRun tId).length < 8 := by decide +kernel

/-- A copy of a command waits for its rate at one link. -/
def tXfer : State := { tRun with transfers := [{ id := 0, purpose := .copyCmd 0, ctx := none, intoStack := none, hops := [(.portOut 0, 8)], accepted := false, tAccept := 0 }], nextXfer := 1 }

theorem test_transferAcceptance : canReserve tXfer { id := 0, purpose := .copyCmd 0, ctx := none, intoStack := none, hops := [(.portOut 0, 8)], accepted := false, tAccept := 0 } = true ∧
    after (.transferAcceptance 0) tXfer (fun u => (u.transfers.map (·.accepted)) == [true] && (u.transfers.map (·.tAccept)) == [5000000]) = true := by
  decide +kernel

/-! ### Reels -/

def tReel : State := nextOf (.reel tId tK { data := 11, areg := 20, win := 0, minor := 2, disp := 0 }) tRun

/-- The small state with one transfer that holds its rates. -/
def tRates (x : XferUse) (s : State) : State :=
  { s with transfers := [{ id := 0, purpose := x, ctx := none, intoStack := none, hops := [], accepted := true, tAccept := 4900000 }], nextXfer := 1 }

/-- The blank descriptor fails its checks: the job is refused, and the Reel stays free. -/
theorem test_reelJobAccept : (reelUnit tReel 0 2).running = none ∧ (reelUnit tReel 0 2).queue.length = 1 ∧
    unitsAccept tReel 0 = true ∧ (ctxOf tReel 0).state ≠ .paused ∧
    ratesSince (tRates (.reel 0 2) tReel) (.reel 0 2) = some 4900000 ∧
    after (.reelJobAccept 0 2) (tRates (.reel 0 2) tReel) (fun u => (reelUnit u 0 2).queue == [] &&
      (reelUnit u 0 2).running == none) = true := by decide +kernel

/-- A job of one hop with one seed, its graph descriptor at offset 128, its frame at offset 4096. -/
def tReelRec : List Byte :=
  [1, 0, 0, 0] ++ leBytes 4 1 ++ leBytes 8 256 ++ leBytes 8 0 ++ leBytes 8 0 ++ leBytes 8 128 ++ leBytes 8 4096 ++ leBytes 4 4096 ++
    leBytes 4 0 ++ leBytes 8 0 ++ leBytes 8 0 ++ leBytes 4 0x3F800000 ++ leBytes 4 0x3F800000 ++ leBytes 8 0 ++ leBytes 8 0 ++
    leBytes 4 1 ++ leBytes 28 0

/-- A graph of one node. -/
def tReelGraph : List Byte :=
  leBytes 8 0 ++ leBytes 8 1 ++ leBytes 8 512 ++ leBytes 8 1024 ++ leBytes 32 0

def tReelGood : State := tRates (.reel 0 2) { tReel with mem := tReel.mem.store (2 ^ 52) (tReelRec ++ tReelGraph) }

theorem test_reelJobAccept_runs : ((reelUnit tReelGood 0 2).queue.map fun j => (j.ctx, j.descAddr)) = [(0, 0)] ∧
    winRead tReelGood 0 none 0 128 = tReelRec ∧ winRead tReelGood 0 none 128 64 = tReelGraph ∧
    reelOk tReelGood 0 tReelRec tReelGraph = true ∧
    after (.reelJobAccept 0 2) tReelGood (fun u => (reelUnit u 0 2).queue == [] &&
      ((reelUnit u 0 2).running.map fun r => (r.tAccept, r.promise)) == some (4900000, 4907001)) = true := by decide +kernel

def tReelRuns : State := modReel tRun 0 2 fun u =>
  { u with running := some { (default : ReelRun) with desc := readReelDesc [], graphRec := List.replicate 64 0, promise := 6000000 } }

theorem test_reelJobComplete : (reelUnit tReelRuns 0 2).running.isSome = true ∧ (regionOf tReelRuns 0).vacant = false ∧
    physFailed tReelRuns (originPhys tReelRuns (.reel 0 2)) = false ∧
    after (.reelJobComplete 0 2) tReelRuns (fun u => (reelUnit u 0 2).running == none && (reelUnit u 0 2).queue == []) = true := by
  decide +kernel

/-! ### Gather engines and tables -/

/-- Table 3 has version 1, of 8 rows of 16 FP32 words, all in one shard in region 2 of this device. -/
def tVersion : TableVersion :=
  { desc := { table := 3, format := 0, tflags := 5, gradExp := 0, version := 1, rows := 8, rowElems := 16, rowBytes := 64, rps := 8,
              shards := 1, headroom := 0, migSlots := 0 }
    shards := [{ base := t1Addr 2 0, accBase := t1Addr 2 4096, device := 0, region := 2 }], mig := [] }

def tTable : TableState := { (default : TableState) with fn := 0, current := 1, versions := [tVersion], epoch := 5 }

/-- A taken job of a kind, without identifiers, that holds its rates. -/
def tGather (op : Nat) : State :=
  modRegion (tRates (.gather 0 7) { tRun with
      tables := [(3, tTable)], regs := (offLoft 0 0, 2 ^ 63) :: tRun.regs,
      mem := tRun.mem.store (2 ^ 52) (leBytes 8 1024 ++ leBytes 4 0 ++ leBytes 4 8) }) 0 fun R =>
    { R with gatherJobs := [{ (default : GatherJob) with tag := 7, rcd :=
      { (default : GatherRec) with op := op, table := 3, clean := true, lists := 1, rate := 1, dstride := if op = 4 then 0 else 64 }, version := 1, epoch := 5 }] }

def tAccepted (u : State) : Bool :=
  (regionOf u 0).gatherJobs.any fun x => x.tag == 7 && x.accepted && x.tAccept == 4900000

theorem test_gather_accepts : ctxRuns (tGather 1) 0 = true ∧ unitsAccept (tGather 1) 0 = true ∧
    findVersion (tGather 1) 3 1 = some tVersion ∧ ratesSince (tGather 1) (.gather 0 7) = some 4900000 ∧
    ([1, 2, 3, 4].all fun op => (regionOf (tGather op) 0).gatherJobs.all fun j =>
      stillOk (tGather op) 0 { j with rows := rowsOf (tGather op) 0 (listEntries (tGather op) 0 j.rcd) } tVersion) = true ∧
    ([1, 2, 3, 4].all fun op => ((regionOf (tGather op) 0).gatherJobs.map fun j => (j.tag, j.accepted, j.ctx, j.rcd.op, j.rcd.keepPin)) ==
      [(7, false, 0, op, false)]) = true ∧
    fillMayStart (tGather 4) 0 ((regionOf (tGather 4) 0).gatherJobs.headD default) = true ∧
    after (.gather 0 7) (tGather 1) tAccepted = true ∧ after (.scatterAdd 0 7) (tGather 2) tAccepted = true ∧
    after (.write 0 7) (tGather 3) tAccepted = true ∧ after (.loftFill 0 7) (tGather 4) tAccepted = true := by
  decide +kernel

theorem test_gatherJobComplete : dataDone (nextOf (.gather 0 7) (tGather 1)) 0 ((regionOf (nextOf (.gather 0 7) (tGather 1)) 0).gatherJobs.headD default) = true ∧
    after (.gatherJobComplete 0 7) (nextOf (.gather 0 7) (tGather 1)) (fun u => (regionOf u 0).gatherJobs == []) = true := by
  decide +kernel

/-- A batch from device 1 that writes row 2 of table 3, whose place is in region 2. -/
def tBatch : OwnerBatch :=
  { hdr := { (default : BatchHeader) with op := 3, table := 3, version := 1, source := 16 }
    entries := [(2, 0)], payload := [List.replicate 64 0x5A] }

def tOwner : State := { tRun with tables := [(3, tTable)] }

theorem test_ownerBatch : (regionOf tOwner 2).vacant = false ∧ tBatch.hdr.source / 16 ≠ tOwner.part.device ∧
    batchRows tBatch = [((2, 0), tBatch.payload.flatten)] ∧ tOwner.out.contains (.batch (ownCode tOwner 2) tBatch) = false ∧
    (destOf tOwner (.gatherInbox 2)).free ≠ 0 ∧ findVersion tOwner 3 1 = some tVersion ∧
    entryFate tOwner 2 tBatch tVersion 2 = .serve (2, none) ∧
    after (.ownerBatch 2 tBatch) tOwner (fun u => u.mem.readByte (memKey u (t1Addr 2 (2 * 64))) == 0x5A &&
      u.mem.readByte (memKey u (inboxAddr 2 0)) == 3 && u.mem.readByte (memKey u (inboxAddr 2 0 + 2)) == 1) = true := by
  decide +kernel

/-- Row 2 is staged to move to region 4 of this device. -/
def tMove : State := { tRun with
  clock := { tRun.clock with time := 5 * 1048576 }, tables := [(3, { tTable with moves := [{ row := 2, newOwner := 4, newSlot := 0, boundary := 4194304 }] })] }
def tMoved : State := nextOf (.rowHandover 3 2) tMove
def tCopied : State := nextOf (.handoverCopyDone 3 2 [] []) tMoved

theorem test_rowHandover : (tableOf tMove 3).moves.length = 1 ∧ pinsOf tMove 3 = [] ∧ 4194304 ≤ now tMove ∧ isBoundary (now tMove) = true ∧ pinsRecent tMove 3 = true ∧
    after (.rowHandover 3 2) tMove (fun u => (tableOf u 3).epoch == 6 && (tableOf u 3).moves == [] && u.mem == tMove.mem &&
      ((tableOf u 3).handovers.map fun h => (h.row, h.newOwner, h.copied, h.epoch)) == [(2, 4, false, 6)]) = true ∧
    (tableOf tMoved 3).handovers.all (fun h => h.held.isEmpty && !copyUnderWay tMoved 3 h) = true ∧
    after (.handoverCopyDone 3 2 [] []) tMoved (fun u => (tableOf u 3).handovers.all (·.copied)) = true ∧
    noOlderPin tCopied 3 6 = true ∧
    after (.forwardEntryFree 3 2 true) tCopied (fun u => (tableOf u 3).handovers == [] && (tableOf u 3).epoch == 6 &&
      u.mem == tCopied.mem) = true := by decide +kernel

theorem test_balancerRead : (physOf (nextOf (.ownerBatch 2 tBatch) tOwner) 2).sketch ≠ [] ∧
    (nextOf (.ownerBatch 2 tBatch) tOwner).hold = false ∧
    after (.balancerRead []) (nextOf (.ownerBatch 2 tBatch) tOwner) (fun u =>
      (List.range 18).all fun p => (physOf u p).sketch == [] && (physOf u p).shardLoad == []) = true := by decide +kernel

/-! ### Boundaries -/

/-- The first boundary after the small state's time, with an object that is selected. -/
def tBound : State := { tRun with
  clock := { tRun.clock with time := 5 * 1048576 }
  objects := [{ (default : PoolObject) with handle := 9, home := some (0, 4), nextHome := none, evicting := true },
    { (default : PoolObject) with handle := 10, home := none, nextHome := some (1, 6), units := 2 }] }

theorem test_boundary : isBoundary (now tBound) = true ∧ isBoundary (now tRun) = false ∧ (tBound.objects.map (·.handle)).Nodup ∧
    after .loftHalfActivate tBound (fun u => u.mem == tBound.mem && u.objects == tBound.objects &&
      loftOf u 0 0 == (loftOf tBound 0 0).activate) = true ∧
    after .objectRemapBoundary tBound (fun u => (u.objects.map fun x => (x.handle, x.home, x.nextHome)) == [(9, none, none), (10, some (1, 6), none)]) = true ∧
    after .loftHalfActivate tRun (· == tRun) = true ∧ after .objectRemapBoundary tRun (· == tRun) = true := by decide +kernel

/-! ### Records of rings -/

/-- The little-endian fields of a record, by offset, length and value. -/
def tRec (n : Nat) (fs : List (Nat × Nat × Nat)) : List Byte :=
  fs.foldl (fun bs f => patch bs f.1 (leBytes f.2.1 f.2.2)) (List.replicate n 0)

/-- Ring k of region 0 lies at the start of window 0, holds one record and is open. -/
def tRing (k : Nat) (rcd : List Byte) : State := { tRun with
  mem := (tRun.mem.store (2 ^ 52) [1]).store (2 ^ 52 + 64) rcd, regs := tRun.regs ++ [(offRing 0 0 k, 2 ^ 63)] }

/-- A gather record of zeros is read and refused. -/
theorem test_gatherRecordRead : ctxRuns (tRing 0 []) 0 = true ∧ unitsAccept (tRing 0 []) 0 = true ∧
    (regionOf (tRing 0 []) 0).gatherJobs = [] ∧ ringHas (tRing 0 []) 0 0 0 0 = true ∧
    after (.gatherRecordRead 0 0) (tRing 0 []) (fun u => (ctxRegionOf (ctxOf u 0) 0).gatherNext == 1 &&
      (regionOf u 0).nextGather == 1 && (regionOf u 0).gatherJobs == []) = true := by decide +kernel

/-! ### Reductions -/

/-- One contributor, device 0 region 0, of 64 elements to owner 0. -/
def tReduceRec : List Byte := tRec 128 [(0, 1, 1), (1, 1, 8), (3, 1, 64), (4, 4, 77), (0x0A, 1, 1), (0x0B, 1, 1), (0x0D, 1, 0xFF),
  (0x10, 4, 64), (0x14, 4, 1), (0x40, 8, 4096)]
def tOutcomeRec : List Byte := tRec 128 [(0, 1, 2), (4, 4, 77), (0x0A, 1, 1), (0x0D, 1, 0xFF), (0x40, 8, 4096)]
def tReduce : State := tRates (.reduce 0 0) (tRing 1 tReduceRec)
def tOutcome : State := tRing 1 tOutcomeRec

theorem test_reduce_record : reduceMayTake tReduce 0 0 = true ∧ (reduceHead tReduce 0 0 0).op = 1 ∧
    reduceRecOk (reduceHead tReduce 0 0 0) = true ∧ reduceConflict tReduce 0 0 (reduceHead tReduce 0 0 0) = false ∧
    reduceWaits tReduce 0 0 (reduceHead tReduce 0 0 0) = false ∧ claimOk tReduce 0 0 (reduceHead tReduce 0 0 0) = true ∧ ratesSince tReduce (.reduce 0 (0 * 2 ^ 32 + 0)) = some 4900000 ∧
    after (.reduce 0 0) tReduce (fun u => (ctxRegionOf (ctxOf u 0) 0).reduceNext == 1 && (seqOf u 0).nextTag == 1) = true := by
  decide +kernel

theorem test_outcome_record : reduceMayTake tOutcome 0 0 = true ∧ (reduceHead tOutcome 0 0 0).op = 2 ∧
    reduceRecOk (reduceHead tOutcome 0 0 0) = true ∧ reduceConflict tOutcome 0 0 (reduceHead tOutcome 0 0 0) = false ∧
    reduceWaits tOutcome 0 0 (reduceHead tOutcome 0 0 0) = false ∧
    after (.outcome 0 0) tOutcome (fun u => (ctxRegionOf (ctxOf u 0) 0).reduceNext == 1 && (seqOf u 0).nextTag == 1) = true := by
  decide +kernel

theorem test_reduce_refused :
    reduceMayTake (tRing 1 []) 0 0 = true ∧ (reduceHead (tRing 1 []) 0 0 0).op ≠ 2 ∧ reduceRecOk (reduceHead (tRing 1 []) 0 0 0) = false ∧
    after (.reduce 0 0) (tRing 1 []) (fun u => (ctxRegionOf (ctxOf u 0) 0).reduceNext == 1 && (seqOf u 0).jobs == []) = true ∧
    reduceWaits (tRing 1 []) 0 0 (reduceHead (tRing 1 []) 0 0 0) = false ∧ reduceWaits (tRing 1 [2]) 0 0 (reduceHead (tRing 1 [2]) 0 0 0) = false ∧
    reduceMayTake (tRing 1 [2]) 0 0 = true ∧
    reduceRecOk (reduceHead (tRing 1 [2]) 0 0 0) = false ∧ (reduceHead (tRing 1 [2]) 0 0 0).op = 2 ∧
    after (.outcome 0 0) (tRing 1 [2]) (fun u => (ctxRegionOf (ctxOf u 0) 0).reduceNext == 1 && (seqOf u 0).jobs == []) = true := by
  decide +kernel

/-- A job of the same number is in flight. -/
def tConflict (r : State) : State := modSeq r 0 fun q => { q with jobs := [{ (default : ReduceJob) with tag := 4, rcd := { (default : ReduceRec) with job := 77 } }] }

theorem test_reduce_conflict :
    [tConflict tReduce, tConflict tOutcome].all (fun s => reduceMayTake s 0 0 && reduceRecOk (reduceHead s 0 0 0) &&
      reduceConflict s 0 0 (reduceHead s 0 0 0)) = true ∧ claimOk (tConflict tReduce) 0 0 (reduceHead tReduce 0 0 0) = true ∧
    after (.reduce 0 0) (tConflict tReduce) (fun u => (ctxRegionOf (ctxOf u 0) 0).reduceNext == 1 && (seqOf u 0).jobs.length == 1) = true := by
  decide +kernel

def tPacket : Packet := { (default : Packet) with seq := 5, sender := 17 }

theorem test_packets_early : (regionOf tRun 0).vacant = false ∧ (seqOf tRun 0).inbox = [] ∧ (seqOf tRun 0).outq = [] ∧
    (seqOf tRun 0).jobs = [] ∧ (seqOf tRun 0).underWay = [] ∧ (destOf tRun (.reduceInbox 0)).free = 256 ∧ tPacket.seq ≠ mget 0 (seqOf tRun 0).recvSeq (17, 0) ∧
    [(Instr.grant 0 tPacket, 1), (.max 0 tPacket, 2), (.exp 0 tPacket, 3), (.data 0 tPacket, 4), (.outcomePacket 0 tPacket, 5),
      (.abort 0 tPacket, 6)].all (fun x => after x.1 tRun fun u => (seqOf u 0).inbox == [{ tPacket with op := x.2 }] &&
      (destOf u (.reduceInbox 0)).free == 255 && u.mem.readByte (memKey u (packetAddr 0 0)) == BitVec.ofNat 8 x.2) =
      true := by decide +kernel

def tDeadline : State := modSeq tReduce 0 fun q => { q with jobs := [{ (default : ReduceJob) with tag := 4, deadline := some 5000000 }] }

theorem test_reduceDisableDeadline : (findReduce tDeadline 0 4).bind (·.deadline) = some 5000000 ∧ 5000000 ≤ now tDeadline ∧
    after (.reduceDisableDeadline 0 4) tDeadline (fun u => u.records.map (fun r => (r.cid, r.status, r.result / 2 ^ 28)) ==
      [(0xFFFF, 4, 6)]) = true := by decide +kernel

def tSteer : State := modCtx tRun 0 fun x => { x with steer := some (true, 0) }

theorem test_batchSteering : (ctxOf tSteer 0).steer.isSome = true ∧
    after (.batchSteering 0 4096) tSteer (fun u => (ctxOf u 0).steer == none) = true := by decide +kernel

/-! ### Winch -/

/-- Window 2 maps the object of two units that lies at unit 4 of region 0, with its backing at 2 MiB of T2. -/
def tWinch (rcd : List Byte) : State := { tRates (.winch 0 0) (tRing 2 rcd) with
  objects := [{ (default : PoolObject) with handle := 9, home := some (0, 4), nextHome := none, units := 2, hold := 3, windows := [(0, 2)], backing := 2097152 }] }
def tStageRec : List Byte := tRec 64 [(0, 1, 1), (2, 1, 2), (4, 4, 8), (0x18, 4, 4096)]
def tCopyRec : List Byte := tRec 64 [(0, 1, 2), (4, 4, 8), (0x18, 4, 256), (8, 8, 0x1000), (0x10, 8, 2 ^ 40)]
def tReleaseRec : List Byte := tRec 64 [(0, 1, 3), (2, 1, 2)]

def tTakes (s u : State) : Bool :=
  (regionOf u 0).nextWinch == (regionOf s 0).nextWinch + 1 &&
    (regionOf u 0).winch.any fun e => e.tag == (regionOf s 0).nextWinch && e.rcd == winchHead s 0 0 && e.ctx == 0 && e.tAccept == now s

theorem test_winch : [tStageRec, tCopyRec, tReleaseRec].all (fun r =>
      winchReady (tWinch r) 0 0 && winchTurnOf (tWinch r) 0 0 && winchOk (tWinch r) 0 (winchHead (tWinch r) 0 0) &&
      gateOpen (tWinch r) 0 0 (winchHead (tWinch r) 0 0)) = true ∧
    ratesSince (tWinch tStageRec) (winchUse 0 0 0) = some 4900000 ∧ (objectOf (tWinch tStageRec) 0 2).isSome = true ∧
    after (.stage 0 0) (tWinch tStageRec) (tTakes (tWinch tStageRec)) = true ∧
    after (.winchCopy 0 0) (tWinch tCopyRec) (tTakes (tWinch tCopyRec)) = true ∧
    after (.winchRelease 0 0) (tWinch tReleaseRec) (fun u => (regionOf u 0).nextWinch == 1 &&
      (u.objects.map fun x => (x.handle, x.hold)) == [(9, 2)]) = true := by decide +kernel

def tStaged : State := nextOf (.winchCopy 0 0) { tWinch tCopyRec with mem := (tWinch tCopyRec).mem.store (2 ^ 52 + 0x1000) [0xAB] }

theorem test_winchEntryComplete : (regionOf tStaged 0).winch.map (fun e => (e.tag, e.copied, e.newHome)) = [(0, false, none)] ∧
    after (.winchEntryComplete 0 0) tStaged (fun u => (regionOf u 0).winch == [] && u.mem.readByte 0 == 0xAB) = true := by
  decide +kernel

/-! ### Contexts -/

def tBreaking : State := modCtx tRun 0 fun x => { x with breaking := true }
def tDraining : State := modCtx tRun 0 fun x => { x with state := .draining }

theorem test_contexts_end : (ctxOf tBreaking 0).state = .running ∧ drained tDraining 0 = true ∧
    after (.breakStopDone 0) tBreaking (fun u => (ctxOf u 0).state == .paused && !(ctxOf u 0).breaking && u.mem == tRun.mem &&
      u.threads == tRun.threads) = true ∧
    after (.drainComplete 0) tDraining (fun u => (ctxOf u 0).state == .stopped && u.mem == tRun.mem) = true := by decide +kernel

/-! ### Commands -/

/-- Command 0 of queue 3 of function 0 is at work with an entry of these fields (Table 15.5), and queue 3 is open. -/
def tCmd (fs : List (Nat × Nat × Nat)) (s : State) : State := { s with
  cmds := [{ (default : Cmd) with entry := tRec 64 fs, queue := 3, stage := .accepted, tAccept := 4500000, number := 1, promised := some 100000 }]
  nextCmd := 1 }

/-- The command is at work under its opcode. -/
def tWorks (op : Nat) (s : State) : Bool :=
  match findCmd s 0 with
  | some c => c.stage == .accepted && c.opcode == op
  | none => false

/-- Command 0 has ended with a status, a detail and a result. -/
def tEnds (status detail result : Nat) (u : State) : Bool :=
  match findCmd u 0 with
  | some d => d.stage == .ended && d.status == status && d.detail == detail && d.result == result
  | none => false

def cmd0 (s : State) : Cmd := (findCmd s 0).getD default

/-- Host port 0 is up, and function 0 may read the host's memory. -/
def tHost (s : State) : State := { s with
  ports := [(0, { PciePort.zero with perst := false, linkUp := true, speed := 6, width := 16, readyAt := some 0 })]
  cfgs := [((0, 0), { FnConfig.zero with busMaster := true })] }

def tCreate : State := tCmd [(0, 1, 1), (8, 2, 1), (0x10, 8, 0x1000)] (tHost { tOn with mem := tOn.mem.store (memKey tOn (hostAddr 0 0x1000)) [0x23, 0] })

theorem test_nop_create : tWorks 0 (tCmd [] tRun) = true ∧ after (.nopCommand 0) (tCmd [] tRun) (tEnds 0 0 0) = true ∧
    tWorks 1 tCreate = true ∧ namedBlocks tCreate (cmd0 tCreate) = [(1, 3)] ∧
    createFault tCreate (cmd0 tCreate) [(1, 3)] = none ∧
    after (.create 0) tCreate (fun u => (ctxOf u 0).state == .created && (ctxOf u 0).blocks == [(1, 3)] && u.mem == tCreate.mem &&
      tEnds 0 0 ((ctxOf u 0).slot * 256) u) = true ∧
    createFault (tCmd [(0, 1, 1)] tRun) (cmd0 (tCmd [(0, 1, 1)] tRun)) [] = some (1, 8) ∧
    after (.create 0) (tCmd [(0, 1, 1)] tRun) (tEnds 1 8 0) = true := by decide +kernel

/-- The Keels that will agree on the quorum's next action of its own. -/
def tVoted (s : State) (l : List Nat) : State := { s with keels := { s.keels with ballot := { agree := l, failing := [] } } }

def tLoad : State := tCmd [(0, 1, 3), (8, 8, 4096), (0x10, 4, 64)] { tRun with
  contexts := [(0, { Context.blank with state := .created, blocks := [(0, 0)] })]
  allocs := [{ handle := 1, fn := 0, tier := 0, base := 0, units := 1, backing := 0, width := 0 }] }

theorem test_load : tWorks 3 tLoad = true ∧ imagePlace tLoad (cmd0 tLoad) = true ∧ after (.load 0) tLoad (tEnds 1 1 0) = true := by
  decide +kernel

/-- An image of one HALT word and one launch, by Tables 3.1 and 3.2, with its CRC still to be filled in. -/
def tImgZero : List Byte :=
  tRec 208 [(0, 4, 0x53544E58), (4, 2, 1), (8, 2, 1), (0x0C, 2, 4), (0x18, 4, 208), (0x1C, 4, 64), (0x20, 4, 1), (0x24, 2, 1),
    (0x26, 2, 1), (64, 1, 1), (68, 4, 128), (72, 4, 8), (76, 4, 1), (80, 1, 2), (84, 4, 192), (96, 1, 4), (100, 4, 192),
    (112, 1, 6), (116, 4, 192), (120, 4, 16), (124, 4, 1), (135, 1, 4), (196, 2, 1), (204, 2, 0xFFFF)]
def tImg : List Byte := patch tImgZero 0x2C (leBytes 4 2604323801)

/-- The remainder of the CRC after each 16 bytes of the image. -/
def tCrcs : List Word :=
  [4294967295, 3708568598, 2885780592, 3576931950, 2651038177, 2205273128, 409018505, 1912623819, 333269861, 280248878, 3503211949, 1438826088, 301990667, 1690643494]

theorem tCrc_step : ∀ i, i < 13 → ((tImgZero.drop (16 * i)).take 16).foldl crcByte (tCrcs.getD i 0) = tCrcs.getD (i + 1) 0 := by
  decide +kernel

theorem tCrc_upto : ∀ n, n ≤ 13 → (tImgZero.take (16 * n)).foldl crcByte 0xFFFFFFFF = tCrcs.getD n 0
  | 0, _ => rfl
  | n + 1, h => by
    rw [Nat.mul_succ, List.take_add, List.foldl_append, tCrc_upto n (by omega), tCrc_step n (by omega)]

theorem test_image_crc : imgCrc tImg = 2604323801 := by
  have z : patch tImg 0x2C [0, 0, 0, 0] = tImgZero.take (16 * 13) := by decide +kernel
  rw [imgCrc, z, crc32, tCrc_upto 13 (Nat.le_refl _)]
  decide +kernel

def tLoadGood : State := tCmd [(0, 1, 3), (8, 8, 4096), (0x10, 4, 208)] { tLoad with mem := tOn.mem.store 4096 tImg }

/-- The image passes steps 1 to 10, and so all where step 11, which is the implementation's (log entry 51), passes. -/
theorem test_image_passes : imageFailure .T tImg 1 1 = if step11 tImg 1 then none else some (11, stRejected) := by
  have h1 : step1 tImg = true := by rw [step1, test_image_crc]; decide +kernel
  have h2 : step2 tImg = true := by decide +kernel
  have h3 : step3 tImg = true := by decide +kernel
  have h4 : step4 .T tImg = true := by decide +kernel
  have h5 : step5 tImg = true := by decide +kernel
  have h6 : step6 tImg = true := by decide +kernel
  have h7 : step7 .T tImg = true := by decide +kernel
  have h8 : step8 tImg = true := by decide +kernel
  have h9 : step9 tImg = true := by decide +kernel
  have h10 : step10 tImg 1 = true := by decide +kernel
  cases h : step11 tImg 1 <;> simp [imageFailure, h1, h2, h3, h4, h5, h6, h7, h8, h9, h10, h]

theorem test_load_accepts : tWorks 3 tLoadGood = true ∧ imagePlace tLoadGood (cmd0 tLoadGood) = true ∧
    imageBytes tLoadGood (cmd0 tLoadGood) = tImg ∧ (cmd0 tLoadGood).phase = 0 ∧ quorumAgrees tLoadGood tLoadGood.keels.ballot = true ∧
    loadReserved (askLoad (newBallot (setCmd tLoadGood { cmd0 tLoadGood with phase := 1 })) { cmd0 tLoadGood with phase := 1 } tImage 0)
      { cmd0 tLoadGood with phase := 1 } = true := by decide +kernel

/-- The Keels' digests differ, and no voter fails its check. -/
theorem test_load_disagrees : (cmd0 (tVoted tLoadGood [0])).retried = false ∧
    quorumAgrees (tVoted tLoadGood [0]) (tVoted tLoadGood [0]).keels.ballot = false ∧
    failingVoters (tVoted tLoadGood [0]) (tVoted tLoadGood [0]).keels.ballot = [] := by decide +kernel

def tStart : State := tCmd [(0, 1, 4)] (modCtx { tRun with threads := [], groups := [], vectors := [] } 0 fun x => { x with state := .loaded })

theorem test_start : tWorks 4 tStart = true ∧ (ctxOf tStart 0).image = some tImage ∧ tImage.bindings.all (bindingMet tStart 0) = true ∧
    after (.start 0) tStart (fun u => (ctxOf u 0).state == .running && tEnds 0 0 0 u && u.mem == tStart.mem &&
      (u.threads.map fun e => (e.1.cell, e.2.pc, e.2.rd 2)) == (List.range 8).map fun n => (n, 0, BitVec.ofNat 32 n)) = true := by
  decide +kernel

def tPause : State := tCmd [(0, 1, 5)] tRun
def tResume : State := tCmd [(0, 1, 6)] (modCtx tRun 0 fun x => { x with state := .paused })
def tDisable : State := tCmd [(0, 1, 7)] tRun
def tForce : State := tCmd [(0, 1, 7), (1, 1, 2)] tRun
def tDestroy : State := tCmd [(0, 1, 2)] (modCtx tRun 0 fun x => { x with state := .stopped })

theorem test_context_states : tWorks 5 tPause = true ∧ tWorks 6 tResume = true ∧ tWorks 7 tDisable = true ∧ tWorks 7 tForce = true ∧
    tWorks 2 tDestroy = true ∧ (cmd0 tForce).force = true ∧ (cmd0 tDisable).phase = 0 ∧
    after (.pause 0) tPause (fun u => (ctxOf u 0).breaking && (ctxOf u 0).brk.cause == 3 && (ctxOf u 0).brk.time == 5000000 &&
      u.threads == tRun.threads && u.mem == tRun.mem) = true ∧
    after (.resume 0) tResume (fun u => (ctxOf u 0).state == .running && u.mem == tRun.mem) = true ∧
    after (.disable 0) tDisable (fun u => (ctxOf u 0).state == .draining && (ctxOf u 0).drainCmd == some 0 && u.mem == tRun.mem) = true ∧
    after (.disableForce 0) tForce (fun u => (ctxOf u 0).state == .stopped && !(ctxOf u 0).breaking) = true ∧
    after (.destroy 0) tDestroy (fun u => ctxOf u 0 == Context.blank && u.threads == [] && u.groups == []) = true := by decide +kernel

/-! ### Memory commands -/

def tAllocT2 : State := tCmd [(0, 1, 8), (8, 1, 0), (9, 1, 0), (0x0C, 4, 3), (0x18, 8, 0x2000)] (tHost tOn)
def tAllocT1 : State := tCmd [(0, 1, 8), (8, 1, 1), (9, 1, 2), (0x0C, 4, 3), (0x18, 8, 0x2000)] (tHost tOn)
def tAllocObj : State := tCmd [(0, 1, 8), (8, 1, 2), (9, 1, 2), (0x0C, 4, 3), (0x10, 8, 0), (0x18, 8, 0x2000)] (tHost { tOn with
  allocs := [{ handle := 5, fn := 0, tier := 0, base := 0, units := 8, backing := 0, width := 0 }], nextHandle := 6 })

theorem test_alloc : tWorks 8 tAllocT2 = true ∧ allocFault tAllocT2 (cmd0 tAllocT2) = none ∧ fitIn tAllocT2 3 [0] = some 0 ∧
    after (.allocT2Frames 0) tAllocT2 (fun u => (u.allocs.map fun a => (a.handle, a.fn, a.tier, a.base, a.units)) ==
      [(tAllocT2.nextHandle, 0, 0, 0, 3)] && u.nextHandle == tAllocT2.nextHandle + 1 && tEnds 0 0 tAllocT2.nextHandle u) = true ∧
    tWorks 8 tAllocT1 = true ∧ allocFault tAllocT1 (cmd0 tAllocT1) = none ∧ (seekRun tAllocT1 3 [2]).1 = some (2, 0) ∧
    after (.allocPinnedT1 0) tAllocT1 (fun u => (u.allocs.map fun a => (a.tier, a.base, a.units)) == [(1, unitAddr1 2 0, 3)] &&
      mget? (regionOf u 2).units 2 == some (.pinned tAllocT1.nextHandle)) = true ∧
    tWorks 8 tAllocObj = true ∧ allocFault tAllocObj (cmd0 tAllocObj) = none ∧ (seekRun tAllocObj 3 [2]).1 = some (2, 0) ∧
    after (.allocObject 0) tAllocObj (fun u => (u.objects.map fun o => (o.handle, o.home, o.backing, o.hold, o.windows)) ==
      [(6, some (2, 0), 0, 0, [])]) = true := by decide +kernel

def tFree : State := tCmd [(0, 1, 9), (8, 4, 5)] (tHost { tOn with
  allocs := [{ handle := 5, fn := 0, tier := 0, base := 0, units := 8, backing := 0, width := 0 }], nextHandle := 6 })
def tLendOut : State := tCmd [(0, 1, 0x0D), (8, 1, 3), (9, 1, 0), (0x0A, 1, 2), (0x0B, 1, 0), (0x0C, 4, 1), (0x10, 8, 0x2000)] (tHost tOn)
def tLoan : Loan := { peer := 3, fn := 0, lender := 0, base := 2 * 65536 * 2097152 }
def tReturn : State := tCmd [(0, 1, 0x0D), (8, 1, 3), (0x0B, 1, 1), (0x0C, 4, 1), (0x10, 8, 0x2000)] (tHost { tOn with
  loans := [tLoan], mem := tOn.mem.store (memKey tOn (hostAddr 0 0x2000)) (leBytes 8 tLoan.base) })
def tReturned : State := { nextOf (.returnFrames 0) tReturn with clock := { tReturn.clock with time := 6291456 } }

theorem test_free_return : tWorks 9 tFree = true ∧ stillMapped tFree (tFree.allocs.headD default) = false ∧
    after (.free 0) tFree (fun u => u.later == [(.free 0 5, 6291456)]) = true ∧
    tWorks 0x0D tReturn = true ∧ lendFault tReturn (cmd0 tReturn) = none ∧ (cmd0 tReturn).loansNamed tReturn = [tLoan] ∧
    after (.returnFrames 0) tReturn (fun u => u.later == [(.giveBack 0 [tLoan], 6291456)]) = true ∧
    (findCmd tReturned 0).isSome = true ∧ tReturned.later = [(.giveBack 0 [tLoan], 6291456)] ∧
    after .freeLendTakeEffect tReturned (fun u => u.later == [] && u.loans == [] && u.mem == tReturned.mem && u.allocs == [] &&
      tEnds 0 0 1 u) = true := by decide +kernel

theorem test_lend : tWorks 0x0D tLendOut = true ∧ lendFault tLendOut (cmd0 tLendOut) = none ∧ overQuota tLendOut 0 = false ∧
    framesFree tLendOut 2 (firstFrame 2) 1 = true ∧ (cmd0 tLendOut).phase = 0 ∧ (cmd0 tLendOut).field 0x0B 1 = 0 := by decide +kernel

def tCopy : State := tRates (.copyCmd 0) (tCmd [(0, 1, 0x0E), (8, 8, 2 ^ 52), (0x10, 8, 2 ^ 52 + 4096), (0x18, 4, 16), (0x1C, 4, 8)]
  { tHost tOn with mem := tOn.mem.store (2 ^ 52) [1, 2, 3], allocs := [{ handle := 5, fn := 0, tier := 1, base := 2 ^ 52, units := 8, backing := 0, width := 0 }] })

def tBalance : State := tCmd [(0, 1, 0x0F), (8, 1, 2), (0x10, 8, 0x3000)] (tHost (nextOf (.ownerBatch 2 tBatch) tOwner))

theorem test_copy_balance : tWorks 0x0E tCopy = true ∧ copyFault tCopy (cmd0 tCopy) = none ∧
    oldShard tCopy (2 ^ 52 + 4096) 16 = false ∧
    (ratesSince (reserveRates tCopy (.copyCmd 0) none (stackAt (2 ^ 52 + 4096)) (hostHops tCopy (2 ^ 52) (2 ^ 52 + 4096) 16 8)) (.copyCmd 0)).isSome = true ∧
    after (.copy 0) tCopy (fun u => tEnds 0 0 0 u && u.mem == tCopy.mem.move (2 ^ 52) (2 ^ 52 + 4096) 16 &&
      u.mem.readByte (2 ^ 52 + 4098) == 3) = true ∧
    tWorks 0x0F tBalance = true ∧ physOfLogical tBalance 2 = some 2 ∧
    after (.balance 0) tBalance (fun u => tEnds 0 0 1 u && (physOf u 2).sketch == [] && (physOf u 2).shardLoad == []) = true := by decide +kernel

/-! ### Staging commands -/

def tWindowCmd : State := tCmd [(0, 1, 0x0A), (8, 1, 4), (0x0A, 2, 1), (0x10, 8, 0x2000)] (tHost { tRun with
  allocs := [{ handle := 5, fn := 0, tier := 0, base := 0, units := 8, backing := 0, width := 0 }]
  mem := tRun.mem.store (memKey tRun (hostAddr 0 0x2000)) (leBytes 8 (tWin 0 2).toNat) })

theorem test_window : tWorks 0x0A tWindowCmd = true ∧ windowFail tWindowCmd (cmd0 tWindowCmd) = none ∧
    after (.window 0) tWindowCmd (fun u => u.regs == tWindowCmd.regs && u.mem == tWindowCmd.mem && tEnds 0 0 0 u &&
      stagedWord u (fnOf u 0).open_ (offWindow 0 4) == tWin 0 2) = true ∧
    windowFail (tCmd [(0, 1, 0x0A)] tRun) (cmd0 (tCmd [(0, 1, 0x0A)] tRun)) = some (1, 0x0A) ∧
    after (.window 0) (tCmd [(0, 1, 0x0A)] tRun) (tEnds 1 0x0A 0) = true := by decide +kernel

/-- A table of 8 rows of 64 FP32 words in one shard of region 2, whose descriptor and map stand at 0x4000 and 0x5000. -/
def tPublish : State := tCmd [(0, 1, 0x0C), (8, 8, 0x4000), (0x10, 8, 0x5000)] (tHost { tOn with
  allocs := [{ handle := 5, fn := 0, tier := 0, base := 0, units := 8, backing := 0, width := 0 }]
  mem := (tOn.mem.store (memKey tOn (hostAddr 0 0x4000)) (tRec 64 [(0, 1, 3), (4, 4, 1), (8, 8, 8), (0x10, 4, 64), (0x14, 4, 256), (0x18, 8, 8), (0x20, 2, 1)])).store
    (memKey tOn (hostAddr 0 0x5000)) (tRec 32 [(0x11, 1, 2)]) })

def tAddendum : State := tCmd [(0, 1, 0x13), (8, 8, 4096), (0x10, 4, 64)] { tRun with
  allocs := [{ handle := 1, fn := 0, tier := 0, base := 0, units := 1, backing := 0, width := 0 }] }

/-- An APPLY has frozen a pace that function 0 had staged. -/
def tPaceCopy : StagedCopy := { StagedCopy.zero with regs := [(offPace, 0xFFF, 0x500)] }
def tFroze : FrozenCopy := { copy := tPaceCopy, cmd := 0, boundary := 5242880, group := 0, devices := 0, passed := false }
def tApply : State := tCmd [(0, 1, 0x0B)] (modFn tRun 0 fun x => { x with frozen := some tFroze })

/-- An APPLY whose BOUNDARY is no boundary. -/
def tApplyBad : State := tCmd [(0, 1, 0x0B), (8, 8, 9000001)] tRun

theorem test_publish_addendum : tWorks 0x0C tPublish = true ∧ publishFault (releaseVersions tPublish 3) (cmd0 tPublish) = none ∧
    (readTableDesc (hostRead tPublish 0 0x4000 64)).table = 3 ∧
    after (.publish 0) tPublish (fun u => tEnds 0 0 0 u && u.regs == tPublish.regs && ((fnOf u 0).open_.publishes.map fun p => (p.desc.rows, p.shards.length)) ==
      [(8, 1)]) = true ∧
    tWorks 0x13 tAddendum = true ∧ imagePlace tAddendum (cmd0 tAddendum) = true ∧ addendumFault tAddendum (imageBytes tAddendum (cmd0 tAddendum)) = some 1 ∧
    after (.addendum 0) tAddendum (tEnds 1 1 0) = true := by decide +kernel

theorem test_apply : tWorks 0x0B tApply = true ∧ (cmd0 tApply).phase = 0 ∧ isGroup (cmd0 tApply).devices = false ∧
    copyFails tApply 0 0 tFroze.copy = none ∧
    after (.apply 0) tApply (fun u => u.regs == tApply.regs && (fnOf u 0).open_ == StagedCopy.zero &&
      (fnOf u 0).frozen == some { tFroze with passed := true }) = true ∧
    tWorks 0x0B tApplyBad = true ∧ applyFault tApplyBad (cmd0 tApplyBad) = some (1, 8) ∧
    after (.apply 0) tApplyBad (tEnds 1 8 0) = true := by
  decide +kernel

/-- Function 0 has frozen a copy, for this device alone or for devices 0 and 1, and its boundary has come. -/
def tFrozen (devices : Nat) (x : StagedCopy) : State := { modFn tRun 0 fun y =>
    { y with frozen := some { copy := x, cmd := 0, boundary := 4194304, group := 6, devices := devices, passed := true } } with
  clock := { tRun.clock with time := 4194304 }
  cmds := [{ (default : Cmd) with stage := .accepted, entry := tRec 64 [(0, 1, 0x0B)], phase := 1 }], nextCmd := 1 }

def tPublishCopy : StagedCopy := { StagedCopy.zero with publishes := [{ desc := tVersion.desc, shards := tVersion.shards, mig := [] }] }

theorem test_stagedApplyBoundary : ((fnOf (tFrozen 0 tPaceCopy) 0).frozen.map fun z => (isGroup z.devices, z.passed, z.boundary)) = some (false, true, 4194304) ∧
    4194304 ≤ now (tFrozen 0 tPaceCopy) ∧ isBoundary (now (tFrozen 0 tPaceCopy)) = true ∧
    after (.stagedApplyBoundary 0) (tFrozen 0 tPaceCopy) (fun u => rawReg u offPace == ((rawReg tRun offPace &&& ~~~0xFFF) ||| 0x500) &&
      (fnOf u 0).frozen == none && (fnOf u 0).lastStatus == 0 && u.mem == tRun.mem && tEnds 0 0 4 u) = true ∧
    findVersion (tFrozen 0 tPublishCopy) 3 1 = none ∧
    after (.stagedApplyBoundary 0) (tFrozen 0 tPublishCopy) (fun u => (tableOf u 3).current == 1 && (fnOf u 0).frozen == none &&
      (fnOf u 0).lastStatus == 0 && u.regs == tRun.regs) = true := by decide +kernel

theorem test_groupVotes : isGroup 3 = true ∧ bitOf 3 1 = true ∧ (tFrozen 3 tPaceCopy).fns = [(0, fnOf (tFrozen 3 tPaceCopy) 0)] ∧
    votesIn (tFrozen 3 tPaceCopy) ((fnOf (tFrozen 3 tPaceCopy) 0).frozen.getD default) = false ∧
    4194304 < now (tFrozen 3 tPaceCopy) + 500000 ∧ (findCmd (tFrozen 3 tPaceCopy) 0).isSome = true ∧
    after (.groupVote 1 6 4194304 true) (tFrozen 3 tPaceCopy) (fun u => fnOf u 0 == fnOf (tFrozen 3 tPaceCopy) 0 &&
      (u.votes.map fun v => (v.device, v.pass)) == [(1, true)] && u.regs == tRun.regs) = true ∧
    after (.groupVote 1 6 4194304 false) (tFrozen 3 tPaceCopy) (fun u => (fnOf u 0).frozen == none && (fnOf u 0).lastStatus == 1 &&
      u.regs == tRun.regs && u.votes.length == 1) = true ∧
    after (.groupVoteDeadline 0) (tFrozen 3 tPaceCopy) (fun u => (fnOf u 0).frozen == none && (fnOf u 0).lastStatus == 3 &&
      u.regs == tRun.regs && tEnds 3 0 0 u) = true := by decide +kernel

/-! ### SERVICE, CHECKPOINT and RESTORE -/

/-- SERVICE of an action on region 2 with two standbys, with none, and on a region that has failed. -/
def tService (action : Nat) : State := tCmd [(0, 1, 0x10), (8, 1, action), (9, 1, 2)] tRun
def tNoStandby (action : Nat) : State := { tService action with phys := tRun.phys.map fun e => if e.1 < 16 then e else (e.1, { e.2 with role := .failed }) }
def tFailed (action : Nat) : State := modPhys (tService action) 2 fun x => { x with role := .failed }

theorem test_service : quorumActs (tService 0) = true ∧ [(0, Instr.selfTest 0), (1, .calibration 0), (2, .exchange 0)].all (fun x =>
      tWorks 0x10 (tService x.1) && (cmd0 (tService x.1)).phase == 0 && (cmd0 (tService x.1)).field 8 1 == x.1 &&
      (cmd0 (tService x.1)).field 9 1 == 2 && (physOf (tService x.1) 2).service == none && (physOf (tService x.1) 2).role == .active 2 &&
      physOfLogical (tService x.1) 2 == some 2 && freeStandby (tService x.1) == some 16 &&
      after x.2 (tService x.1) (fun u => (physOf u 2).service == some (x.1, 0) && (physOf u 2).role == .active 2 &&
        ((regionOf u 2).exchange.map fun e => (e.kind, e.leaving, e.entering, e.fencedAt, e.copied)) == some (.service, 2, some 16, 5000000, false)) &&
      freeStandby (tNoStandby x.1) == none && after x.2 (tNoStandby x.1) (tEnds 3 0 0) &&
      (physOf (tFailed x.1) 2).role == .failed && after x.2 (tFailed x.1) (fun u => (physOf u 2).service == some (x.1, 0) && u.mem == tRun.mem)) =
    true := by decide +kernel

def tArea : List Allocation := [{ handle := 1, fn := 0, tier := 0, base := 0, units := 64, backing := 0, width := 0 }]

/-- CHECKPOINT of a paused context with a running thread, and of one whose thread has parked, with a LIMIT. -/
def tBusyCheckpoint : State := tCmd [(0, 1, 0x11), (8, 8, 0), (0x10, 4, 2 ^ 24), (0x14, 4, 8)] (modCtx
  { tFed (nextOf (.ld tId tK { data := 11, areg := 20, win := 0, minor := 2, disp := 4 }) tRun) with allocs := tArea } 0 fun x => { x with state := .paused })
def tCheckpoint (limit : Nat) : State := tRates (.copyCmd 0) (tCmd [(0, 1, 0x11), (8, 8, 0), (0x10, 4, limit), (0x14, 4, 8)] (modCtx
  { tRun with threads := [(tId, { tThread with run := .parked 11 })], allocs := tArea } 0 fun x => { x with state := .paused }))
def tRestore : State := tCmd [(0, 1, 0x12), (8, 8, 0), (0x10, 4, 0x1000000), (0x14, 4, 8)] (modCtx { tRun with allocs := tArea } 0 fun x => { x with state := .loaded })

theorem test_checkpoint : tWorks 0x11 tBusyCheckpoint = true ∧ areaFault tBusyCheckpoint (cmd0 tBusyCheckpoint) 256 = none ∧
    isQuiet tBusyCheckpoint 0 = false ∧ after (.checkpoint 0) tBusyCheckpoint (tEnds 3 0 0) = true ∧
    tWorks 0x11 (tCheckpoint 0) = true ∧ areaFault (tCheckpoint 0) (cmd0 (tCheckpoint 0)) 256 = none ∧
    (cmd0 (tCheckpoint 0)).phase = 0 ∧ isQuiet (tCheckpoint 0) 0 = true ∧ (cmd0 (tCheckpoint 0)).size = 0 ∧
    (ctxOf (tCheckpoint 0) 0).image = some tImage ∧ (tCheckpoint 0).keptPins = [] ∧
    tWorks 0x12 tRestore = true ∧ areaFault tRestore (cmd0 tRestore) 256 = none ∧ after (.restore 0) tRestore (tEnds 1 0xFF 0) = true := by
  decide +kernel

/-- A transfer that holds its rates keeps them when they are asked for again. -/
theorem tRates_kept {s : State} {u : XferUse} {t : Nat} (h : ratesSince s u = some t) (c i : Option Nat) (hops : List (Hop × Nat)) :
    ratesSince (reserveRates s u c i hops) u = some t := by
  obtain ⟨x, hx, ha, rfl⟩ : ∃ x, findTransfer s u = some x ∧ x.accepted = true ∧ x.tAccept = t := by
    unfold ratesSince at h
    split at h
    · split at h
      · exact ⟨_, by assumption, by assumption, by simpa using h⟩
      · cases h
    · cases h
  simp [reserveRates, askTransfer, hx, tryTransfer, ha, ratesSince]

/-- The small checkpoint as its registers stood when it was accepted. -/
def tSeen : State := (cmd0 (tCheckpoint (2 ^ 24))).view (tCheckpoint (2 ^ 24))

/-- A checkpoint of the small context fits its LIMIT whatever the implementation's overhead, and holds its rates. -/
theorem test_checkpoint_fits :
    let s := tCheckpoint (2 ^ 24)
    let c := cmd0 s
    let B := checkpointSize (c.view s) 0
    B ≤ c.limit ∧ areaFault s c B = none ∧ keptCount s + (heldParts (c.view s) 0).pins.length ≤ 4096 ∧
    ∀ d hops, ratesSince (reserveRates (setCmd s d) (.copyCmd c.id) none (stackAt c.area) hops) (.copyCmd c.id) = some 4900000 := by
  have hp : 256 + partBytes tSeen 0 (heldParts tSeen 0) = 131328 := by decide +kernel
  have hl : (cmd0 (tCheckpoint (2 ^ 24))).limit = 2 ^ 24 := by decide +kernel
  have ho : Config.freeNat tSeen.freeCounter % 65536 < 65536 := Nat.mod_lt _ (by decide)
  have hB : checkpointSize ((cmd0 (tCheckpoint (2 ^ 24))).view (tCheckpoint (2 ^ 24))) 0 =
      131328 + Config.freeNat tSeen.freeCounter % 65536 := by
    rw [checkpointSize, ← hp, tSeen]
  refine ⟨?_, ?_, by decide +kernel, fun d hops => tRates_kept (s := setCmd (tCheckpoint (2 ^ 24)) d) (by exact (by decide +kernel : ratesSince (tCheckpoint (2 ^ 24)) (.copyCmd 0) = some 4900000)) _ _ _⟩
  · rw [hB, hl]; omega
  · rw [hB]
    generalize Config.freeNat tSeen.freeCounter % 65536 = n at ho
    have h : ∀ m, m < 65536 → (areaFault (tCheckpoint (2 ^ 24)) (cmd0 (tCheckpoint (2 ^ 24))) (131328 + m)) = none := by
      intro m hm
      have a : (cmd0 (tCheckpoint (2 ^ 24))).area = 0 := by decide +kernel
      have r : (cmd0 (tCheckpoint (2 ^ 24))).rate = 8 := by decide +kernel
      have f : (cmd0 (tCheckpoint (2 ^ 24))).fn = 0 := by decide +kernel
      have al : (tCheckpoint (2 ^ 24)).allocs = tArea := rfl
      have e : 0 + (131328 + m) - 1 = 131327 + m := by omega
      have hs : spaceOf (131327 + m) = 0 := by simp only [spaceOf, bits]; omega
      have hh : bits (131327 + m) 51 41 = 0 := by simp only [bits]; omega
      have hi : (131327 + m) / 2097152 = 0 := by omega
      have h0 : spaceOf 0 = 0 := by decide
      have hb : bits 0 51 41 = 0 := by decide
      have hp : 0 < 131328 + m := by omega
      simp only [areaFault, a, r, f, holdsRange, oneSpace, listedAddr, inAllocs, al, e, hs, hh, hi, h0, hb, hp, namedBits]
      decide +kernel
    exact h n ho

/-! ### Queues, records and registers -/

/-- Queue 3 of function 0 is open, of 16 entries and 8 records at 0x8000 and 0x9000, with an entry to fetch. -/
def tQueue : Queue := { (default : Queue) with sqBase := 0x8000, cqBase := 0x9000, en := true, irqEn := true, sqLog2 := 4, cqLog2 := 3, vector := 5, sqTail := 1, cqTail := 7, cqHead := 3, phase := true }
def tQ : State := tHost tRun
def tOpen : State := modQueue tQ 0 3 fun _ => tQueue
def tVotes : Votes := { agree := [0, 1], failing := [] }
def tFetched (entry : List Byte) : State := { modQueue tQ 0 3 fun _ => { tQueue with sqHead := 1 } with
  cmds := [{ (default : Cmd) with queue := 3, stage := .fetched, entry := entry }], nextCmd := 1 }
def tNop : List Byte := tRec 64 [(4, 1, 0xFF)]

theorem test_commandAccept_fetch : queueTurn tOpen 0 3 = true ∧ quorumAgrees tOpen tVotes = true ∧ breakingContexts tOpen 0 3 1 = [] ∧
    entryWaits tOpen 0 3 = true ∧
    after (.commandAccept 0 3 tVotes) tOpen (fun u => (queueOf u 0 3).sqHead == 1 && u.mem == tOpen.mem && u.nextCmd == tOpen.nextCmd + 1 &&
      (cmd0 u).queue == 3 && (cmd0 u).entry == hostRead tOpen 0 0x8000 64) = true := by decide +kernel

theorem test_commandAccept : queueTurn (tFetched tNop) 0 3 = true ∧ (fetchedOf (tFetched tNop) 0 3).isSome = true ∧
    orderAllows (tFetched tNop) (cmd0 (tFetched tNop)) = true ∧ entryFault (tFetched tNop) (cmd0 (tFetched tNop)) = none ∧
    entryFault (tFetched (tRec 64 [(4, 1, 0xFF), (5, 1, 9)])) (cmd0 (tFetched (tRec 64 [(4, 1, 0xFF), (5, 1, 9)]))) = some 5 ∧
    after (.commandAccept 0 3 tVotes) (tFetched tNop) (fun u => queueOf u 0 3 == { tQueue with sqHead := 1, started := 1 } &&
      u.mem == tQ.mem && u.contexts == tQ.contexts && u.cmdTurn == (0, 3) && (cmd0 u).number == 1 && (cmd0 u).tAccept == 5000000 &&
      (cmd0 u).stage == .accepted) = true ∧
    after (.commandAccept 0 3 tVotes) (tFetched (tRec 64 [(4, 1, 0xFF), (5, 1, 9)])) (tEnds 1 5 0) = true := by decide +kernel

/-- An APPLY that is accepted freezes what the function has staged. -/
theorem test_commandAccept_apply :
    let s := modFn (tFetched (tRec 64 [(0, 1, 0x0B), (4, 1, 0xFF)])) 0 fun x => { x with open_ := tPaceCopy }
    queueTurn s 0 3 = true ∧ (fetchedOf s 0 3).isSome = true ∧ orderAllows s (cmd0 s) = true ∧ entryFault s (cmd0 s) = none ∧
    (cmd0 s).opcode = 0x0B ∧ after (.commandAccept 0 3 tVotes) s (fun u => applyFault s (cmd0 u) == none &&
      (fnOf u 0).open_ == StagedCopy.zero && (fnOf u 0).frozen == some tFroze) = true := by decide +kernel

theorem tFetched_sound : Sound (tFetched tNop) ∧ Sound tOpen :=
  ⟨⟨by decide +kernel, ⟨by decide +kernel, by decide +kernel⟩, ⟨by decide +kernel, by decide +kernel⟩, ⟨by decide +kernel, by decide +kernel⟩, ⟨by decide +kernel, by decide +kernel⟩⟩,
   ⟨by decide +kernel, ⟨by decide +kernel, by decide +kernel⟩, ⟨by decide +kernel, by decide +kernel⟩, ⟨by decide +kernel, by decide +kernel⟩, ⟨by decide +kernel, by decide +kernel⟩⟩⟩

def tCmdEnded : State := { tQ with cmds := [{ (default : Cmd) with queue := 3, stage := .ended, entry := tRec 64 [(2, 2, 77)], status := 1, detail := 8, tAccept := 4900000 }], nextCmd := 1 }

theorem test_commandCompletion : (cmd0 tCmdEnded).stage = .ended ∧ (cmd0 tCmdEnded).opcode ≠ 0x0E ∧
    after (.commandCompletion 0) tCmdEnded (fun u => (findCmd u 0).isNone && u.mem == tCmdEnded.mem &&
      (u.records.map fun r => (r.fn, r.queue, r.cid, r.status, r.detail, r.tDone, r.noPromise, r.result, r.missed)) ==
        [(0, 3, 77, 1, 8, 5000000, true, 0, false)]) = true := by decide +kernel

def tPost (masked : Nat) : State := { modCfgAt tOpen 0 0 fun x => { x with msix := [(16 * 5 + 8, BitVec.ofNat 64 (masked * 2 ^ 32))] } with
  records := [{ (default : Record) with queue := 3, cid := 77 }] }

theorem test_completionPost : ((queueOf (tPost 0) 0 3).cqTail + 1) % 2 ^ 3 ≠ (queueOf (tPost 0) 0 3).cqHead ∧ hostReach (tPost 0) 0 = true ∧
    vectorMasked (cfgOf (tPost 0) 0) 5 = false ∧ vectorMasked (cfgOf (tPost 1) 0) 5 = true ∧
    after (.completionPost 0 3) (tPost 0) (fun u => u.records == [] && queueOf u 0 3 == { tQueue with cqTail := 0, phase := false } &&
      u.mem.readByte (memKey tOn (hostAddr 0 (0x9000 + 32 * 7))) == 77 && u.out == [.hostRequest 0 0 true (0x9000 + 32 * 7) 32, .msix 0 5]) = true ∧
    after (.completionPost 0 3) (tPost 1) (fun u => u.out == [.hostRequest 0 0 true (0x9000 + 32 * 7) 32] && (cfgOf u 0).msixPending == [5]) = true ∧
    after (.completionPost 0 3) (modQueue (tPost 0) 0 3 fun x => { x with irqEn := false }) (fun u =>
      u.out == [.hostRequest 0 0 true (0x9000 + 32 * 7) 32]) = true := by decide +kernel

theorem test_doorbells : fnPort tOpen 0 = 0 ∧
    after (.sqTail 0 3 15 0 [(0x8000, 0xC1)]) tOpen (fun u => queueOf u 0 3 == { tQueue with sqTail := 15 } &&
      u.mem.readByte (memKey tOn (hostAddr 0 0x8000)) == 0xC1 && (fnOf u 0).denied == 0) = true ∧
    after (.sqTail 0 3 16 0 []) tOpen (fun u => queueOf u 0 3 == tQueue && (fnOf u 0).denied == 1) = true ∧
    after (.cqHead 0 3 7 0) tOpen (fun u => queueOf u 0 3 == { tQueue with cqHead := 7 } && (fnOf u 0).denied == 0) = true ∧
    after (.cqHead 0 3 8 0) tOpen (fun u => queueOf u 0 3 == tQueue && (fnOf u 0).denied == 1) = true ∧
    tQ.notice = none ∧ (queueOf tQ 0 3).en = false ∧
    after (.qctl 0 3 0xC043000500000000) tQ (fun u => queueOf u 0 3 ==
      { queueOf tQ 0 3 with en := true, irqEn := true, sqLog2 := 4, cqLog2 := 3, vector := 5, sqHead := 0, cqTail := 0, started := 0, phase := true } &&
      u.mem == tQ.mem && u.cmds == tQ.cmds) = false ∧
    after (.qctl 0 3 0xC044000500000000) tQ (fun u => queueOf u 0 3 ==
      { queueOf tQ 0 3 with en := true, irqEn := true, sqLog2 := 4, cqLog2 := 4, vector := 5, sqHead := 0, cqTail := 0, started := 0, phase := true } &&
      u.mem == tQ.mem && u.cmds == tQ.cmds) = true := by decide +kernel

def tHit : State := { tRun with regs := tRun.regs ++ [(offTagBreak 0 1, 0x40000000)] }

/-- The context belongs to function 16. -/
def tOther : State := modCtx tHit 0 fun x => { x with fn := 16 }

theorem test_registerWrite : fnPresent tHit 0 = true ∧ barTarget tHit 0 (0x1000000 + offTagBreak 0 1) = some (offTagBreak 0 1) ∧
    ownsContext tHit 0 0 = true ∧ barTarget tHit 0 (0x1000000 + offPace) = some offPace ∧
    after (.registerWrite 0 (0x1000000 + offTagBreak 0 1) 0xC0000007 0xFF) tHit (fun u => rawReg u (offTagBreak 0 1) == 0x80000007 &&
      u.mem == tHit.mem && u.threads == tHit.threads) = true ∧
    after (.registerWrite 0 (0x1000000 + offPace) 0x80000500 0xFF) tHit (fun u => u.regs == tHit.regs &&
      stagedWord u (fnOf u 0).open_ offPace == 0x80000500) = true ∧
    barTarget tOther 0 (0x1000000 + offTagBreak 0 1) = some (offTagBreak 0 1) ∧ hasFields (offTagBreak 0 1) = true ∧
    mayWrite tOther 0 (offTagBreak 0 1) = false ∧
    after (.registerWrite 0 (0x1000000 + offTagBreak 0 1) 0xC0000007 0xFF) tOther (fun u => u.regs == tOther.regs && u.mem == tOther.mem &&
      u.phys == tOther.phys && u.power == tOther.power && (fnOf u 0).open_ == (fnOf tOther 0).open_ && (fnOf u 0).denied == 1) = true := by
  decide +kernel

/-! ### Links -/

def tLinkUp (f : Link → Link) (s : State) : State := modLink s 0 fun l => f { l with up := true, lanes := List.range 8, lent := 768 }
def tTraining : State := modLink tRun 0 fun l => { l with training := true, lanes := [1, 2, 3, 4, 5, 6, 7, 8] }
def tData : OpHeader := { op := 2, fn := 0, tag := 9, len := 4, space := 0, inner := 0x40, minor := 0, poison := false }
/-- The flits that have left: port, KIND, SEQ, ACK, CREDITS and the payload (Table 14.3). -/
def tFlits (u : State) : List (Nat × Nat × Nat × Nat × Nat × List Byte) := u.out.filterMap fun o =>
  match o with
  | .flit p h bs _ => some (p, h.kind, h.seq, h.ack, h.credits, bs)
  | _ => none

def tReplay : Link → Link := fun l => { l with sendSeq := 3, replay := [(0, [7]), (1, []), (2, [])] }

theorem test_portBringup : mayTrain tRun 0 = true ∧
    after (.portBringup 0 0x1FF) tRun (fun u => (linkOf u 0).training && !(linkOf u 0).up && (linkOf u 0).lanes == List.range 8 &&
      u.out == [.identity 0 0 0 tRun.flash.boardSerial tRun.part.romRev]) = true ∧
    after (.portBringup 0 0x03F) tRun (fun u => !(linkOf u 0).training && !(linkOf u 0).up && u.out == []) = true := by decide +kernel

theorem test_identityFlit : farEnd tTraining 0 = (1, 6) ∧ (destOf tTraining (.flits 0)).waiting = [] ∧
    after (.identityFlit 0 1 6 tRun.flash.boardSerial) tTraining (fun u => (linkOf u 0).up && (linkOf u 0).lanes == (linkOf tTraining 0).lanes &&
      (destOf u (.flits 0)).free == 768) = true ∧
    after (.identityFlit 0 2 6 tRun.flash.boardSerial) tTraining (fun u => !(linkOf u 0).up && (linkOf u 0).wiringFault &&
      u.out == [.wiringFault 0]) = true := by decide +kernel

theorem test_dataFlit : after (.dataFlit 0 0 4095 0 true [(tData, [1, 2, 3, 4])]) (tLinkUp tReplay tRun) (fun u => (linkOf u 0).recvSeq == 1 &&
      (linkOf u 0).inbox == [(tData, [1, 2, 3, 4])] && (linkOf u 0).replay == dropAcked 4095 (linkOf (tLinkUp tReplay tRun) 0).replay &&
      u.mem == tRun.mem && (linkOf u 0).lent == 767 && tFlits u == [(0, 1, 0, 0, 0, [])]) = true ∧
    after (.dataFlit 0 5 4095 0 true [(tData, [1, 2, 3, 4])]) (tLinkUp id tRun) (fun u => (linkOf u 0).recvSeq == 0 && (linkOf u 0).inbox == [] &&
      (linkOf u 0).discarding && tFlits u == [(0, 2, 0, 4095, 0, [])]) = true ∧
    after (.dataFlit 0 0 4095 0 false [(tData, [1, 2, 3, 4])]) (tLinkUp id tRun) (fun u => (linkOf u 0).recvSeq == 0 && (linkOf u 0).inbox == [] &&
      (linkOf u 0).crcErrors == 1 && tFlits u == [(0, 2, 0, 4095, 0, [])]) = true := by decide +kernel

theorem test_nak_idle : after (.nak 0 0 true) (tLinkUp tReplay tRun) (fun u => (linkOf u 0).replays == 1 &&
      ((linkOf u 0).replay.map (·.1)) == [1, 2] && tFlits u == [(0, 0, 1, 4095, 0, []), (0, 0, 2, 4095, 0, [])]) = true ∧
    after (.idleFlit 0 1 0 true) (tLinkUp tReplay tRun) (fun u => ((linkOf u 0).replay.map (·.1)) == [2] && u.mem == tRun.mem && u.out == []) = true ∧
    after (.nak 0 0 false) (tLinkUp tReplay tRun) (· == tLinkUp tReplay tRun) = true ∧
    after (.timeFlit 0 7340032 true) (tLinkUp id tRun) (fun u => u.clock.announced == some 7340032 && u.clock.time == 5000000) = true ∧
    after (.laneChangeFlit 0 3 true) (tLinkUp id tRun) (fun u => (linkOf u 0).spareFor == some 3 &&
      (linkOf u 0).lanes == [0, 1, 2, 8, 4, 5, 6, 7] && u.out == [.laneChange 0 3]) = true ∧
    after (.linkRetrain 0) (tLinkUp (fun l => tReplay { l with nakCount := 8 }) tRun) (fun u => (linkOf u 0).retrains == 1 &&
      (linkOf u 0).nakCount == 0 && (linkOf u 0).up && tFlits u == [(0, 0, 0, 4095, 0, [7]), (0, 0, 1, 4095, 0, []), (0, 0, 2, 4095, 0, [])]) = true := by decide +kernel

theorem test_lanes : (linkOf (tLinkUp id tRun) 0).spareFor = none ∧
    after (.laneFailure 0 3) (tLinkUp id tRun) (fun u => (linkOf u 0).up && (linkOf u 0).spareFor == some 3 &&
      (linkOf u 0).lanes == [0, 1, 2, 8, 4, 5, 6, 7] && (linkOf u 0).failedLanes == [3]) = true ∧
    after (.laneFailure 0 3) (tLinkUp (fun l => { l with spareFor := some 1 }) tRun) (fun u => (linkOf u 0).up &&
      (linkOf u 0).lanes == [0, 1, 2, 4, 5, 6, 7] && (linkOf u 0).rateBlocked) = true ∧
    after (.laneFailure 0 3) (tLinkUp (fun l => { l with spareFor := some 1, lanes := [0, 1, 2, 3, 4, 5, 6] }) tRun) (fun u =>
      !(linkOf u 0).up && (linkOf u 0).failedLanes.contains 3 && u.mem == tRun.mem) = true ∧
    after (.laneWithdraw 0) (tLinkUp (fun l => { l with withdrawing := true }) { tRun with regs := tRun.regs ++ [(offLinkCtl 0, 3 * 2 ^ 58)] })
      (fun u => (linkOf u 0).spareFor == some 3 && (linkOf u 0).lanes == [0, 1, 2, 8, 4, 5, 6, 7] && u.mem == tRun.mem) = true ∧
    portBusy (tLinkUp (fun l => { l with draining := true }) tRun) 0 = false ∧
    after (.portDrain 0) (tLinkUp (fun l => { l with draining := true }) tRun) (fun u => !(linkOf u 0).up) = true := by decide +kernel

/-- Operations of device 1, to whom the first frame of stack 0 is lent, or to whom nothing is. -/
def tPeer (h : OpHeader) (lent : Bool) : State :=
  { tLinkUp (fun l => { l with inbox := [(h, [1, 2, 3, 4])] }) tRun with
    loans := if lent then [{ peer := 1, fn := 0, lender := 0, base := 0 }] else [] }

theorem test_remoteOperations : peerWriteOpen (tPeer tData true) tData = true ∧ tData.poison = false ∧
    peerOpAllowed (tPeer tData true) 1 tData = true ∧ peerOpAllowed (tPeer { tData with op := 1 } true) 1 { tData with op := 1 } = true ∧
    peerOpAllowed (tPeer tData false) 1 tData = false ∧ (farEnd (tPeer tData true) 0).1 = 1 ∧
    after (.remoteOperationReceive 0 tData [1, 2, 3, 4]) (tPeer tData true) (fun u => u.mem == tRun.mem.store 0x40 [1, 2, 3, 4] &&
      (linkOf u 0).inbox == [] && match u.out with | .op 0 r [] :: .flit 0 _ _ _ :: _ => r.op == 5 && r.tag == 9 | _ => false) = true ∧
    after (.remoteOperationReceive 0 { tData with op := 1 } [1, 2, 3, 4]) (tPeer { tData with op := 1 } true) (fun u => u.mem == tRun.mem &&
      match u.out with | .op 0 r bs :: .flit 0 _ _ _ :: _ => r.op == 5 && r.tag == 9 && bs == [0, 0, 0, 0] | _ => false) = true ∧
    after (.remoteOperationReceive 0 tData [1, 2, 3, 4]) (tPeer tData false) (fun u => u.mem == tRun.mem && u.contexts == tRun.contexts &&
      match u.out with | .op 0 r bs :: .flit 0 _ _ _ :: _ => r.op == 6 && r.tag == 9 && bs.all (· == 0) | _ => false) = true := by decide +kernel

/-- A load from device 3 is outstanding. -/
def tRemote : State := { tRun with threads := [(tId, { tThread with run := .waitReq 0 })], nextReq := 1, requests := [{ (default : Request) with id := 0, kind := .load 4 false 11, stage := .accepted, devAddr := 2 ^ 54 + 3 * 2 ^ 48, origin := .thread tId }] }

theorem tRemote_sound : Sound tRemote := ⟨by decide +kernel, ⟨by decide, by decide⟩, ⟨by decide, by decide⟩, ⟨by decide, by decide⟩, ⟨by decide, by decide⟩⟩

theorem test_peerLoss : tRemote.requests = [rq tRemote 0] ∧ namesPeer 3 (rq tRemote 0) = true ∧ namesPeer 2 (rq tRemote 0) = false ∧
    (tRemote.logs.all fun e => e.2.seqr.jobs == []) = true ∧
    after (.peerLoss 3) tRemote (fun u => u.requests == [] && (theThread u tId).run == .ready) = true ∧
    after (.peerLoss 2) tRemote (· == tRemote) = true := by decide +kernel

/-! ### Time -/

def tClock (f : Clock → Clock) : State := { tRun with clock := f tRun.clock }

theorem test_epoch : (mget? (tClock fun c => { c with master := true, time := 5242880 }).lastEvent (0x700, 0) ≠ some 5242880) ∧
    after .epochPulse (tClock fun c => { c with master := true, time := 5242880 }) (fun u => u.clock.time == 5242880 &&
      u.out.getLast? == some (.epochPulse 5242880)) = true ∧
    after .epochEdge (tClock fun c => { c with time := 5243080 }) (fun u => u.clock.holdNs == 200 && u.records == [] && u.fns == tRun.fns) = true ∧
    (queueOf { tOpen with clock := { tRun.clock with time := 5242600 } } 0 0).en = false ∧
    after .epochEdge (modQueue (tClock fun c => { c with time := 5242600 }) 0 0 fun x => { x with en := true }) (fun u => u.clock.behindNs == 280 &&
      u.clock.time == 5242600 && (u.records.map fun r => (r.fn, r.result / 2 ^ 24)) == [(0, 0x0D)]) = true ∧
    after .epochEdge (tClock fun c => { c with aligned := false, announced := some 7340032 }) (fun u => u.clock.time == 7340032 && u.clock.aligned) = true ∧
    after .epochEdge (tClock fun c => { c with aligned := false }) (fun u => u.clock.time == 5000000 && !u.clock.aligned) = true ∧
    after .epochMasterTakeover (tClock fun c => { c with silence := 2097152 }) (fun u => u.clock.master && u.clock.time == 5000000) = true ∧
    after .trefLoss tRun (fun u => u.clock.internalOsc && u.clock.time == 5000000) = true ∧
    after .trefReturn (tClock fun c => { c with internalOsc := true }) (fun u => !u.clock.internalOsc && u.clock.time == 5000000) = true := by
  decide +kernel

/-- With no command waiting, a nanosecond passes; a count that is behind moves on by one twice in it. -/
theorem test_idle_step : (match step (tClock fun c => { c with behindNs := 5 }) with
    | .next u => u.clock.time == 5000001 && u.clock.bootCount == tRun.clock.bootCount
    | _ => false) = true ∧
    (match step (idle (tClock fun c => { c with behindNs := 5 })) with
    | .next u => u.clock.time == 5000002 && u.clock.bootCount == tRun.clock.bootCount + 1
    | _ => false) = true ∧
    (match step tRun with
    | .next u => u.clock.time == 5000001
    | _ => false) = true ∧
    (match step { tRun with pending := [.loftHalfActivate] } with
    | .next u => u == tRun
    | _ => false) = true := by decide +kernel

/-! ### Power -/

def tBurner : BurnerInput := { tj := 60, railMv := 600, paceNow := 1600, paceMin := 1500 }

theorem test_burner : tRun.board.started = true ∧ mget? tRun.lastEvent (0x720, 0) = none ∧ (physOf tRun 0).coreEn = true ∧
    fixedMode tRun = false ∧ tRun.board.started = true ∧
    after (.burnerControlInterval [(0, tBurner)] 200 40) tRun (fun u => (physOf u 0).tj == 60 && (physOf u 0).vcore == 600 && u.activity == [] && u.power.linkW == 200) = true ∧
    after (.burnerControlInterval [(0, { tBurner with railMv := 575 }), (4, { tBurner with tj := 107, railMv := 575 })] 200 107) tRun (fun u =>
      (physOf u 0).vcore == 600 && (physOf u 4).tj == 107 && (physOf u 4).vcore == 575) = true := by
  decide +kernel

/-- The rail of region 0 stands at 0.55 V, and a thread of it runs. -/
def tLow : State := modPhys tRun 0 fun x => { x with vcore := 550, targetMv := 550 }

theorem test_railRise : physOfLogical tLow 0 = some 0 ∧ (physOf tLow 0).vcore < 600 ∧ railWanted tLow 0 0 = true ∧
    after (.railRise 0) tLow (fun u => (physOf u 0).vcore == 600 && (physOf u 0).targetMv == 600) = true := by decide +kernel

def tReport (d : Nat) : LiftReport := { device := d, group := 3, outcomes := 7, tOutcome := 4000000, wait := 100, cap := 3000, offset := 0 }
def tLift : State := { tRun with regs := tRun.regs ++ [(offPower, 2 ^ 63 + 3 * 2 ^ 48 + 25 * 2 ^ 40 + 100 * 2 ^ 19 + 3000)] }
def tLiftDue (l : List LiftReport) : State := { tLift with clock := { tLift.clock with time := 5242880 }, power := { tLift.power with reports := l } }

theorem test_lift : liftActive tLift = true ∧ bitOf (liftGroup tLift) 1 = true ∧
    after (.liftFlit true (tReport 1)) tLift (fun u => u.power.reports == [tReport 1] && u.power.liftOffset == tLift.power.liftOffset) = true ∧
    boundaryAt (4000000 + 500000) ≤ now (tLiftDue [tReport 0]) ∧ now (tLiftDue [tReport 0]) % 1048576 = 0 ∧
    liftComplete (tLiftDue [tReport 0]) [tReport 0] = false ∧
    after .liftOffsetApply (tLiftDue [tReport 0]) (fun u => u.power.reports == [] && u.power.liftOffset == tLift.power.liftOffset) = true ∧
    after .liftOffsetApply (tLiftDue [tReport 0, { tReport 1 with wait := 9000 }]) (fun u => u.power.reports == [] &&
      decide (u.power.liftOffset - tLift.power.liftOffset ≤ 25 ∧ tLift.power.liftOffset - u.power.liftOffset ≤ 25)) = true := by decide +kernel

/-! ### Host ports, rails and clocks -/

def tPorted (up perst : Bool) : State := { tHost tRun with ports := [(0, { PciePort.zero with perst := perst, linkUp := up, refclk := true, readyAt := some 0 })] }

/-- A load of the host's memory has been outstanding for 50 ms. -/
def tHostLoad : State := { tHost tRun with clock := { tRun.clock with time := 60000000 }, threads := [(tId, { tThread with run := .waitReq 0 })], nextReq := 1, requests := [{ (default : Request) with id := 0, kind := .load 4 false 11, stage := .accepted, accepted := 10000000, devAddr := 5 * 2 ^ 52, origin := .thread tId }] }

theorem test_hostPorts : twoHosts (tPorted true false) = false ∧ servingPort (tPorted true false) = 0 ∧
    after (.pcieLinkDown 0) (tPorted true false) (fun u => !(portOf u 0).linkUp && u.mem == tRun.mem && u.contexts == tRun.contexts &&
      servingPort u == 0 && servingPort { u with clock := { u.clock with time := boundaryAfter (now tRun) } } == 1) = true ∧
    (tPorted false true).board.poweredAt = some 0 ∧
    after (.perstDeassert 0) (tPorted false true) (fun u => !(portOf u 0).perst && (portOf u 0).linkUp && (portOf u 0).readyAt.isSome) = true ∧
    after (.perstAssert 0) (tPorted true false) (fun u => (portOf u 0).perst && (portOf u 0).readyAt == none) = true ∧
    after (.perstAssert 0) (tPorted false false) (fun u => u.contexts == tRun.contexts && u.mem == tRun.mem && u.regs == tRun.regs &&
      !(cfgOf u 0).busMaster) = true ∧
    fnPresent (tPorted true false) 0 = true ∧
    after (.functionLevelReset 0) (tPorted true false) (fun u => !(cfgOf u 0).busMaster && (cfgOf u 0).timeoutNs == 50000000 && u.cmds == [] &&
      u.keptPins == []) = true ∧
    (rq tHostLoad 0).accepted + (cfgOf tHostLoad 0).timeoutNs ≤ now tHostLoad ∧ (theThread tHostLoad tId).pc < codeWords (ctxOf tHostLoad 0) ∧
    after (.completionTimeout 0) tHostLoad (fun u => u.requests == [] && (theThread u tId).rd 11 == 0 && (theThread u tId).run == .ready &&
      u.mem == tHostLoad.mem) = true := by decide +kernel

theorem test_management : tRun.board.vaon = true ∧
    after (.mctpMessage .holdStatus) tRun (fun u => u.out == [.mctp .holdStatus [0]] && u.contexts == tRun.contexts && u.flash == tRun.flash) = true ∧
    tRun.flash.present = true ∧ after (.mctpMessage .lifetimeRecord) tRun (fun u => (newestLife u.flash).map (·.seq) == some 1) = true ∧
    after (.tapInstruction .extest) tRun (fun u => u.board.tap == .bypass) = true ∧
    after (.tapInstruction .idcode) tRun (fun u => u.board.tap == .idcode) = true ∧
    portReady (tPorted true false) 0 = true ∧ portReady (modPort (tPorted true false) 0 fun x => { x with readyAt := none }) 0 = false ∧
    after (.configurationRequest 0 (.setBusMaster 0 false)) (tPorted true false) (fun u => !(cfgOf u 0).busMaster) = true ∧
    after (.configurationRequest 0 (.setCompletionTimeout 0 49999)) (tPorted true false) (fun u => decide (50000 ≤ (cfgOf u 0).timeoutNs)) = true ∧
    after (.configurationRequest 0 (.setCompletionTimeout 0 50000)) (tPorted true false) (fun u => (cfgOf u 0).timeoutNs == 50000) = true ∧
    after (.configurationRequest 0 (.setBusMaster 0 true)) (modPort (tPorted true false) 0 fun x => { x with readyAt := none }) (fun u =>
      u.out == [.retryStatus 0]) = true := by decide +kernel

theorem test_rails : after (.vaonValid 5) { State.reset with board := { Board.reset with vaon := false } } (fun u => u.part.device == 5 && u.board.vaon &&
      u.clock == Clock.reset) = true ∧
    tRun.board.sharedPg = true ∧ tRun.mem.wf = true ∧
    after .sharedPgLoss (tHost tRun) (fun u => !u.board.sharedPg && u.contexts == [] && u.threads == [] && u.clock.time == 5000000 &&
      rawReg u offPace == regReset offPace && u.flash == tRun.flash) = true ∧
    after .vaonLoss tRun (fun u => !u.board.vaon && u.clock == Clock.reset && u.contexts == []) = true ∧
    after (.powerGoodRise [] []) State.reset (fun u => u.board.started && u.keels.voting == [0, 1, 2] && u.keels.standby == some 3 &&
      u.keels.formed && !u.hold) = true ∧
    after (.powerGoodRise [0, 3] []) State.reset (fun u => !u.keels.formed && u.hold) = true := by decide +kernel

theorem test_losses : (physOf tRun 2).role = .active 2 ∧ (physOf tRun 16).role = .standby 16 ∧ (physOf tRun 2).corePg = true ∧
    (seqOf tRun 2).jobs = [] ∧ freeStandby { tRun with phys := mset tRun.phys 2 { physOf tRun 2 with corePg := false } } = some 16 ∧
    after (.corePgLoss 2) tRun (fun u => !(physOf u 2).corePg && ((regionOf u 2).exchange.map fun x => (x.kind, x.leaving, x.boundary)) ==
      some (.failure, 2, some 6291456)) = true ∧
    after (.corePgLoss 16) tRun (fun u => !(physOf u 16).corePg && (physOf u 16).failing && (physOf u 16).role == .standby 16 && u.mem == tRun.mem) = true ∧
    enters tRun 16 = false ∧ enters (nextOf (.regionMigration 3) tRun) 16 = true ∧
    after (.corePgLoss 16) (nextOf (.regionMigration 3) tRun) (fun u => ((regionOf u 3).exchange.map fun x => (x.kind, x.leaving, x.entering, x.copied)) ==
      some (.migration, 3, some 17, false)) = true ∧
    after (.lrefclkLoss 0) (tLinkUp id tRun) (fun u => !(linkOf u 0).up && !(linkOf u 0).refclk && !(linkOf u 1).refclk &&
      linkOf u 2 == linkOf tRun 2 && u.mem == tRun.mem) = true ∧
    after (.prefclkLoss 0) (tPorted true false) (fun u => !(portOf u 0).refclk && !(portOf u 0).linkUp && (portOf u 0).readyAt == none) = true := by
  decide +kernel

/-! ### Faults and repair -/

def tRetires (u : State) : Bool := (regionOf u 0).retiring == [9] && (physOf u 0).retired == [(9, none)] && u.threads == tRun.threads
def tWithdrawn (u : State) : Bool :=
  ((regionOf u 0).exchange.map fun x => (x.kind, x.leaving, x.fencedAt)) == some (.migration, 0, 5000000) && (physOf u 0).role == .active 0

/-- T0 of cell 9 of region 0: its device address. -/
def tT0 : Nat := 2 * 2 ^ 52 + 9 * 2 ^ 20

theorem test_faults : spareLeft tRun 0 = true ∧ (physOf tRun 0).vcore = 600 ∧ physOfLogical tRun 0 = some 0 ∧ freeSpares tRun 0 ≠ [] ∧ (addrRegion tT0, addrCell tT0) = (0, 9) ∧
    after (.cellRetire 0 9) tRun tRetires = true ∧ after (.handshakeTimeout (.cell 0 9)) tRun tRetires = true ∧
    after (.uncorrectableError (.t0 tT0)) tRun tRetires = true ∧ after (.handshakeTimeout (.regionUnit 0)) tRun tWithdrawn = true ∧
    checkPlace tRun (.t1 (2 ^ 52)) 3 = .uncorrectable ∧ scrubTag tRun (.t1 (2 ^ 52)) = true ∧ quorumActs tRun = true ∧
    after (.patrolScrub (.t1 (2 ^ 52)) 3) tRun tWithdrawn = true ∧ after (.regionMigration 0) tRun tWithdrawn = true ∧
    after (.uncorrectableError (.t2 0x1FF)) tRun (fun u => u.mem.poison.contains 0x100 && u.mem.poison.contains 0x1FF && !u.mem.poison.contains 0x200) = true ∧
    after (.patrolScrub (.t1 (2 ^ 52)) 0) tRun (· == tRun) = true ∧
    checkPlace tRun (.t1 (2 ^ 52)) 1 = .corrected ∧
    after (.patrolScrub (.t1 (2 ^ 52)) 1) tRun (fun u => u.mem == tRun.mem && u.threads == tRun.threads && u.contexts == tRun.contexts) = true := by
  decide +kernel

/-- The eight spares of region 0 are in use. -/
def tNoSpare : State := modPhys tRun 0 fun x => { x with retired := sparePositions.zipIdx.map fun e => (e.2, some e.1) }

theorem test_no_spare : spareLeft tNoSpare 0 = false ∧ physOfLogical tNoSpare 0 = some 0 ∧ (regionOf tNoSpare 0).retiring = [] ∧
    after (.cellRetire 0 9) tNoSpare (fun u => (regionOf u 0).retiring == [9] && u.threads == tRun.threads &&
      ((regionOf u 0).exchange.map fun x => (x.kind, x.leaving)) == some (.migration, 0)) = true := by decide +kernel

def tRetired : State := nextOf (.cellRetire 0 9) tRun
def tMigrating : State := tRates (.migration 3) (nextOf (.regionMigration 3) tRun)
def tCopyDone : State := { nextOf (.migrationCopyDone 3 []) tMigrating with clock := { tRun.clock with time := 5242880 } }

theorem test_repair : freeSpares tRetired 0 ≠ [] ∧ (regionOf tRetired 0).retiring = [9] ∧
    after (.spareSplice 0 9 false []) tRetired (fun u => (regionOf u 0).retiring == [] && (physOf u 0).retired == [(9, (freeSpares tRetired 0).head?)] &&
      u.mem == tRun.mem && u.threads == tRetired.threads) = true ∧
    ((regionOf tMigrating 3).exchange.map fun x => (x.entering, x.copied, x.kind)) = some (some 16, false, .migration) ∧
    regionDrained tMigrating 3 3 = true ∧ tMigrating.requests = [] ∧ slotClear tMigrating 16 = true ∧ (physOf tMigrating 16).vcore = 600 ∧
    after (.migrationCopyDone 3 []) tMigrating (fun u => ((regionOf u 3).exchange.map fun x => (x.copied, x.boundary)) == some (true, some 5242880) &&
      u.mem == tRun.mem && u.phys == tMigrating.phys) = true ∧
    after (.regionFailure 2) tRun (fun u => ((regionOf u 2).exchange.map fun x => (x.kind, x.leaving, x.copied, x.boundary)) ==
      some (.failure, 2, true, some 6291456) && (regionOf u 2).entries == []) = true ∧
    isBoundary (now tCopyDone) = true ∧ (dueExchanges tCopyDone).map (·.1) = [3] ∧ failingStandbys tCopyDone = [] ∧
    quorumAgrees tCopyDone (tVoted tCopyDone [0, 1, 2]).keels.ballot = true ∧ quorumAgrees tCopyDone (tVoted tCopyDone [0]).keels.ballot = false ∧
    after .regionMapApply (tVoted tCopyDone [0]) (fun u => u.mem == tRun.mem && (physOf u 16).role == .standby 16 &&
      (regionOf u 3).retiring == []) = true ∧
    after .regionMapApply (tVoted tCopyDone [0, 1, 2]) (fun u => (physOf u 16).role == .active 3 && (physOf u 3).role == .failed && (regionOf u 3).exchange == none &&
      u.mem == tRun.mem) = true := by decide +kernel

def tServing : State := nextOf (.calibration 0) (tFailed 1)

theorem test_serviceActionDone : (physOf tServing 2).service = some (1, 0) ∧ serviceReady tServing 2 = true ∧ (findCmd tServing 0).isSome = true ∧
    after (.serviceActionDone 2 true) tServing (fun u => (physOf u 2).service == none && (physOf u 2).role == .failed && tEnds 0 0 1 u) = true ∧
    after (.serviceActionDone 2 false) tServing (tEnds 0 0 0) = true := by decide +kernel

/-! ### Keels and the lifetime record -/

def tKeels (f : Keels → Keels) : State := { tRun with keels := f tRun.keels }
def tMissed : State := tKeels fun k => { k with missed := [(1, 2)] }
def tOld (f : Flash → Flash) : State := { tRun with clock := { tRun.clock with time := 90000000000000 }, flash := f tRun.flash }

theorem test_keels : after (.keelPeriodicSelfCheck 1 false) tRun (fun u => u.keels.voting == [0, 2] && u.flash.failedKeels == [1] && !u.hold &&
      u.keels.joinBy == some 15000000) = true ∧
    after (.keelHeartbeat [1] []) tMissed (fun u => u.keels.voting == [0, 2] && u.flash.failedKeels == [1] && !u.hold &&
      u.keels.joinBy == some 15000000) = true ∧
    after (.keelPeriodicSelfCheck 1 false) (tKeels fun k => { k with voting := [1, 2] }) (fun u => u.keels.voting == [2] && u.hold &&
      !u.clock.master && u.life.holds == tRun.life.holds + 1) = true ∧
    after .keelStandbyJoin { tBound with keels := { tRun.keels with voting := [0, 2], joinBy := some 15000000 } } (fun u =>
      u.keels.voting == [0, 2, 3] && u.keels.standby == none && u.keels.joinBy == none) = true ∧
    after (.keelRotation true) { tRun with clock := { tRun.clock with time := 90000 * 1048576000 } } (fun u => u.keels.voting == [1, 2, 3] &&
      u.keels.standby == some 0 && u.keels.lastRotation == 90000 * 1048576000) = true := by decide +kernel

theorem test_lifetime : (tOld id).flash.present = true ∧ (tOld id).flash.lastLifeWrite + 3600000000000 ≤ now (tOld id) ∧
    after (.lifetimeWrite true) (tOld id) (fun u => (newestLife u.flash).map (·.seq) == some 1 && (newestLife u.flash).map (·.device) == some tRun.life &&
      u.flash.lastLifeWrite == 90000000000000 && u.flash.retryAt == none && u.flash.slot1 == tRun.flash.slot1) = true ∧
    after (.lifetimeWrite false) (tOld id) (fun u => u.flash.slot0 == tRun.flash.slot0 && u.flash.retryAt == some 90060000000000 &&
      u.logTotal == tRun.logTotal + 1) = true ∧
    after (.lifetimeWriteRetry true) (tOld fun f => { f with retryAt := some 80000000000000, slot0 := { f.slot0 with seq := 4, crcOk := true } }) (fun u =>
      (newestLife u.flash).map (·.seq) == some 5 && u.flash.slot0.seq == 4) = true ∧
    after .retirementListAppend (tOld fun f => { f with pendingRetirements := [default] }) (fun u => u.flash.retirements == [default] &&
      u.flash.pendingRetirements == []) = true := by decide +kernel

/-! ### Words written out from Tables 4.1 to 4.3 -/

/-- R: ADD s3 ← s1 + s2, guarded by not p5, tag 0xABC. -/
theorem test_word_R : decodeWord tId 0b00010000_1_1_101_00011_00001_00010_00000_0000_000000000000000_101010111100 =
    some (.add tId { gen := true, gneg := true, gp := 5, tag := 0xABC } { dst := 3, a := 1, b := 2, c := 0, minor := 0 }) := by
  decide +kernel

/-- I: CMPI p7 ← s9 signed less or equal −2. -/
theorem test_word_I : decodeWord tId 0b00100111_0_0_000_00111_01001_0011_1111111111111111111111110_000000000000 =
    some (.cmpi tId tK { dst := 7, a := 9, minor := 3, imm := 0x1FFFFFE }) := by decide +kernel

/-- L: MOVI s31 ← 0x80000001. -/
theorem test_word_L : decodeWord tId 0b00100101_0_0_000_11111_00_10000000000000000000000000000001_000000000000 =
    some (.movi tId tK { dst := 31, imm32 := 0x80000001 }) := by decide +kernel

/-- C: LOOP 3 times to word 0x2001, the count immediate. -/
theorem test_word_C : decodeWord tId 0b00000010_0_0_000_00000_1_0000000000000011_0_10000000000001_00_000000000000 =
    some (.loop tId tK { a := 0, ci := true, imm16 := 3, target := 0x2001 }) := by decide +kernel

/-- V: VCVT v1 ← v2 from code 6 to code 0, stochastic, masked by v30. -/
theorem test_word_V : decodeWord tId 0b10100000_0_0_000_00001_00010_00110_00000_1_11110_0001_000000000_000000000000 =
    some (.vcvt tId tK { vd := 1, va := 2, vb := 6, vc := 0, me := true, vm := 30, minor := 1 }) := by decide +kernel

/-- A: LD s4, s5 ← 64 bits at s6, s7 in window 200, displacement −8. -/
theorem test_word_A : decodeWord tId 0b01100000_0_0_000_00100_00110_11001000_0011_11111111111111000_000000000000 =
    some (.ld tId tK { data := 4, areg := 6, win := 200, minor := 3, disp := 0x1FFF8 }) := by decide +kernel

/-- M: MMA of d1 ← d2 × d3 over 16 spars, BF16, C indexed by x5, accumulating. -/
theorem test_word_M : decodeWord tId 0b01010000_0_0_000_0001_0010_0011_0_000_1_101_100_000_000_0_0_1_00_10_1_00_000000000000 =
    some (.mma tId tK { dc := 1, da := 2, db := 3, xae := false, xa := 0, xce := true, xc := 5, rig := 4, fmta := 0, fmtb := 0, ta := false, tb := false, acc := true, spa := 0, spb := 2, skip := true }) := by
  decide +kernel

/-- T: TMAXABS s7 ← d9, its rows indexed by x4. -/
theorem test_word_T : decodeWord tId 0b01101001_0_0_000_0000_1001_0_000_1_100_00111_0000_00000000000000_000000000000 =
    some (.tmaxabs tId tK { d1 := 0, d2 := 9, xe1 := false, x1 := 0, xe2 := true, x2 := 4, sreg := 7, minor := 0 }) := by decide +kernel

/-- An unassigned major opcode, and a reserved bit of an L word. -/
theorem test_word_refused : decodeWord tId (0x05 * 2 ^ 56) = none ∧ decodeWord tId (0x25 * 2 ^ 56 + 2 ^ 45) = none := by decide +kernel

/-! ### Ill-formed words, each refused by the check that it breaks -/

def tC : CArgs := { a := 0, ci := false, imm16 := 0, target := 0 }
def tR : RArgs := { dst := 0, a := 0, b := 0, c := 0, minor := 0 }
def tI : IArgs := { dst := 0, a := 0, minor := 0, imm := 0 }
def tA : AArgs := { data := 0, areg := 0, win := 0, minor := 0, disp := 0 }
def tT : TArgs := { d1 := 0, d2 := 0, xe1 := false, x1 := 0, xe2 := false, x2 := 0, sreg := 0, minor := 0 }
def tVA : VArgs := { vd := 0, va := 0, vb := 0, vc := 0, me := false, vm := 0, minor := 0 }

theorem test_ill_formed :
    [ Instr.nop tId { tK with gp := 1 } tC, .nop tId tK { tC with target := 1 }, .br tId tK { tC with ci := true },
      .loop tId tK { tC with ci := true, a := 1 }, .loop tId tK { tC with imm16 := 1 }, .lrd tId tK { tI with imm := 4 },
      .add tId tK { tR with c := 1 }, .add tId tK { tR with minor := 1 }, .minmax tId tK { tR with minor := 4 }, .addi tId tK { tI with minor := 1 },
      .shifti tId tK { tI with imm := 32 }, .shifti tId tK { tI with minor := 3 }, .cmp tId tK { tR with dst := 8 }, .cmpi tId tK { tI with minor := 6 },
      .sel tId tK { tR with c := 8 }, .plog tId tK { tR with a := 8 }, .plog tId tK { tR with minor := 4, a := 1 }, .plog tId tK { tR with minor := 6 },
      .fminmax tId tK { tR with minor := 2 }, .fcmp tId tK { tR with minor := 4 }, .fcvt tId tK { tR with b := 1 }, .vadd tId tK { tVA with vc := 1 },
      .vcmp tId tK { tVA with minor := 4 }, .vexp2 tId tK { tVA with vb := 1 }, .viadd tId tK { tVA with minor := 2 }, .vlogic tId tK { tVA with minor := 6 },
      .vflag tId tK { tVA with me := true }, .vcvt tId tK { tVA with vb := 10 }, .twait tId tK { tI with imm := 9 }, .ld tId tK { tA with areg := 1 },
      .ld tId tK { tA with minor := 6 }, .ld tId tK { tA with minor := 3, data := 1 }, .st tId tK { tA with minor := 4 }, .vld tId tK { tA with minor := 1 },
      .atom tId tK { tA with minor := 11 }, .atom tId tK { tA with minor := 10, data := 1 }, .fence tId tK { tA with disp := 1 }, .tcopy tId tK { tT with x1 := 1 },
      .tscadd tId tK { tT with sreg := 1 }, .tmaxabs tId tK { tT with d1 := 1 }, .sig tId tK { tA with minor := 3 }, .watch tId tK { tA with data := 16 },
      .unwatch tId tK { tI with imm := 16 }, .park tId tK { tI with imm := 1 }, .take tId tK { tI with dst := 1 }, .token tId tK { tR with a := 1 },
      .time tId tK { tI with dst := 1 }, .reel tId tK { tA with minor := 4 }, .dld tId tK { tA with minor := 1, data := 8 }, .dsetw tId tK { tI with dst := 16 },
      .dgetw tId tK { tI with imm := 16 }, .mma tId tK { tMmaArgs with rig := 5 }, .mma tId tK { tMmaArgs with fmta := 1 },
      .mma tId tK { tMmaArgs with xae := true, ta := true }, .mma tId tK { tMmaArgs with spa := 3 }, .mma tId tK { tMmaArgs with xc := 1 }
    ].all (fun c => c.wf == false && refused c tRun) = true := by decide +kernel

/-! ### Words that do not execute -/

theorem test_held : canIssue tBreaking tId = false ∧ issues (.nop tId tK tC) tBreaking tId 0 = false ∧ after (.nop tId tK tC) tBreaking (· == tBreaking) = true ∧ canIssue tRun tId = true := by
  decide +kernel

theorem test_guarded_off : guardOk { tK with gen := true, gp := 2 } tThread = false ∧
    after (.loop tId { tK with gen := true, gp := 2 } { tC with a := 1, target := 3 }) tRun (fun u => (theThread u tId).pc == 4 &&
      (theThread u tId).s == tThread.s && u.mem == tRun.mem) = true := by decide +kernel

/-- Comparator 2 of the context waits for the first arrival at tag 5. -/
def tTagged : State := { tRun with regs := tRun.regs ++ [(offTagBreak 0 2, 0x80050001)] }

theorem test_tag_break : breakingTag tTagged 0 5 = some 2 ∧ (ctxOf tTagged 0).stoppedAt.contains tId = false ∧
    after (.add tId { tK with tag := 5 } { tR with dst := 11, a := 1 }) tTagged (fun u => u.threads == tRun.threads &&
      rawField u (offTagBreak 0 2) 15 0 == 0 && rawField u (offTagBreak 0 2) 30 30 == 1 && (ctxOf u 0).breaking &&
      (ctxOf u 0).brk.cause == 1 && (ctxOf u 0).brk.comparator == 2 && (ctxOf u 0).brk.tag == 5) = true := by decide +kernel

theorem test_window_fault : translate tRun 0 (some 0) .read (ctxAddress { tA with win := 9, areg := 20, minor := 2 } 4 tThread) 4 = none ∧
    after (.ld tId tK { tA with win := 9, areg := 20, minor := 2, data := 1 }) tRun (fun u => (theThread u tId).rd 1 == 0 && u.mem == tRun.mem &&
      (theThread u tId).pc == 1 && (ctxOf u 0).winFaults == 1) = true ∧
    translate tRun 0 (some 0) .write (ctxAddress { tA with win := 9, areg := 20, minor := 2 } 4 tThread) 4 = none ∧
    after (.st tId tK { tA with win := 9, areg := 20, minor := 2, data := 1 }) tRun (fun u => (theThread u tId).pc == 1 && u.mem == tRun.mem &&
      (ctxOf u 0).winFaults == 1) = true := by decide +kernel

/-! ### Further forms of the words -/

theorem test_twait_fence_wait : (pendingOps tMma tId).length = 1 ∧ outstanding tSt tId isPosted = [0] ∧
    after (.twait tId tK tI) { tMma with threads := tRun.threads } (fun u => (theThread u tId).run == .waitTensor 0) = true ∧
    after (.fence tId tK tA) tSt (fun u => (theThread u tId).run == .waitFence) = true := by decide +kernel

theorem test_loop_zero_and_end : after (.loop tId tK { tC with target := 3 }) tRun (fun u => (theThread u tId).pc == 4 && (theThread u tId).loops == []) = true ∧
    endStep 3 [{ start := 1, stop := 3, count := 2, index := 0 }] = (1, [{ start := 1, stop := 3, count := 2, index := 1 }]) ∧
    endStep 3 [{ start := 2, stop := 3, count := 2, index := 1 }, { start := 1, stop := 3, count := 2, index := 0 }] =
      (1, [{ start := 1, stop := 3, count := 2, index := 1 }]) := by decide +kernel

theorem test_reel_full : queued (modReel tRun 0 2 fun u => { u with queue := List.replicate 64 default }) 0 2 = 64 ∧
    after (.reel tId tK { tA with data := 11, areg := 20, minor := 2 }) (modReel tRun 0 2 fun u => { u with queue := List.replicate 64 default })
      (fun u => (theThread u tId).rd 11 == 0x80000000 && queued u 0 2 == 64) = true := by decide +kernel

theorem test_store_reads_back : tRun.mem.wf = true ∧ wordPoisoned tRun.mem 7 = false ∧ (tRun.mem.store 7 [1, 0, 3]).wf = true ∧
    ((tRun.mem.store 7 [1, 0, 3]).readByte 9 == 3) = true := by decide +kernel

/-! ### Premises of statements that the tests above leave out -/

theorem test_command_premises : (ctxRegions tDisable 0).all (fun L => !ringHas tDisable 0 L 2 (winchNextOf tDisable 0 L)) = true ∧
    tImage.bindings.all (bindingMet ((cmd0 tStart).view tStart) 0) = true ∧
    lostAt tCopy (2 ^ 52) = false ∧ lostAt tCopy (2 ^ 52 + 4096) = false ∧
    addendumPlace tAddendum (cmd0 tAddendum) = true ∧ quorumAgrees tApply tApply.keels.ballot = true ∧
    copyFails (newBallot tApply) 0 0 tFroze.copy = none ∧ quorumAgrees (tFailed 1) (tFailed 1).keels.ballot = true := by decide +kernel

theorem test_link_premises : (linkOf (tLinkUp tReplay tRun) 0).outq = [] ∧ 0 < (linkOf (tLinkUp tReplay tRun) 0).lent ∧
    isVote tData = false ∧ regionOpen (tPeer tData true) (opAddr tData) = true ∧ lostAt (tPeer tData true) (opAddr tData) = false ∧
    mayAnswer tRemote 3 (rq tRemote 0) = false ∧ presents (tPorted true false) 0 0 = true ∧
    after (.configurationRequest 0 (.clearAer 0 6)) (modCfg (tPorted true false) 0 fun x => { x with aer := 5 }) (fun u => (cfgAt u 0 0).aer == 1) = true ∧
    after (.configurationRequest 0 (.readSerial 0)) (tPorted true false) (fun u => u.out == [.configData 0 0 0 tRun.part.serial]) = true := by
  decide +kernel

theorem test_quorum_premises : quorumAgrees tRun tRun.keels.ballot = true ∧ quorumActs tRun = true ∧ quorumActs tNoSpare = true ∧
    quorumAgrees tNoSpare tNoSpare.keels.ballot = true ∧ (physOf tNoSpare 0).role = .active 0 ∧ regionFails tRun 0 = false ∧
    scrubRate tRun (.t1 (2 ^ 52)) = true ∧ ((findTransfer tMigrating (.migration 3)).map (·.accepted)) = some true ∧
    quorumActs { tRun with hold := true } = false ∧
    after (.corePgLoss 2) { tRun with hold := true } (fun u => !(physOf u 2).corePg && u.logs == tRun.logs) = true ∧
    after (.regionFailure 2) { tRun with hold := true } (· == { tRun with hold := true }) = true := by decide +kernel

/-- The group's D record 1 is still being loaded by a DLD of its thread 1. -/
def tLoading : State := { tRun with requests := [{ (default : Request) with
  id := 4, kind := .dload false 1, stage := .accepted, origin := .thread { tId with thread := 1 } }] }
def tDsetw : Instr := .dsetw tId tK { tI with dst := 1 }

theorem test_waits_for_record : arrives tLoading tId tK.tag = true ∧ awaitsDld tDsetw tLoading tId = some 4 ∧
    after tDsetw tLoading (fun u => (theThread u tId).run == .waitRecord 4 && (theThread u tId).pc == tThread.pc) = true ∧
    awaitsDld (.dsetw tId tK { tI with dst := 2 }) tLoading tId = none := by decide +kernel

/-- The data of job 7 has been written. -/
def tDataOut : State := modRegion (nextOf (.gather 0 7) (tGather 1)) 0 fun R =>
  { R with gatherJobs := R.gatherJobs.map fun j => { j with dataOut := true } }

/-- A Winch entry whose object has a new home, before and after its bytes are there. -/
def tNewHome (copied : Bool) : State := modRegion tStaged 0 fun R =>
  { R with winch := R.winch.map fun e => { e with copied := copied, newHome := some (0, 3) } }

theorem test_reports_and_copies : dataDone tDataOut 0 ((regionOf tDataOut 0).gatherJobs.headD default) = true ∧
    after (.gatherJobComplete 0 7) tDataOut (fun u => findTransfer u (.gather 0 7) == none &&
      (regionOf u 0).gatherJobs.all (·.reported)) = true ∧
    after (.winchEntryComplete 0 0) (tNewHome false) (fun u => (regionOf u 0).winch.map (·.copied) == [true]) = true ∧
    (objectOf (tNewHome true) 0 0).isNone = true ∧
    after (.winchEntryComplete 0 0) (tNewHome true) (fun u => (regionOf u 0).winch.all (·.reported)) = true := by decide +kernel

end Sys2Proof.Tests
end

section
/-! SUPPORT. What a command and a step keep (Laws/Keeps.lean), put together over all commands, and the statements about
the block as a whole that follow from it. -/

namespace Sys2Proof.Machine

open Sys2Proof

/-- Every command but a power-on keeps what no operation changes. -/
theorem keeps_exec {s : State} {c : Instr} (hc : ∀ k r, c ≠ .powerGoodRise k r) : KeepsNext s (exec c s) := by
  cases c with
  | nop => exact keeps_execNop (Keeps.refl s)
  | br => exact keeps_execBr (Keeps.refl s)
  | loop => exact keeps_execLoop (Keeps.refl s)
  | lrd => exact keeps_execLrd (Keeps.refl s)
  | halt => exact keeps_execHalt (Keeps.refl s)
  | add => exact keeps_execAdd (Keeps.refl s)
  | sub => exact keeps_execSub (Keeps.refl s)
  | mul => exact keeps_execMul (Keeps.refl s)
  | mulhu => exact keeps_execMulhu (Keeps.refl s)
  | mulhs => exact keeps_execMulhs (Keeps.refl s)
  | divu => exact keeps_execDivu (Keeps.refl s)
  | remu => exact keeps_execRemu (Keeps.refl s)
  | divs => exact keeps_execDivs (Keeps.refl s)
  | rems => exact keeps_execRems (Keeps.refl s)
  | and => exact keeps_execAnd (Keeps.refl s)
  | or => exact keeps_execOr (Keeps.refl s)
  | xor => exact keeps_execXor (Keeps.refl s)
  | shl => exact keeps_execShl (Keeps.refl s)
  | shr => exact keeps_execShr (Keeps.refl s)
  | sra => exact keeps_execSra (Keeps.refl s)
  | minmax => exact keeps_execMinmax (Keeps.refl s)
  | addi => exact keeps_execAddi (Keeps.refl s)
  | andi => exact keeps_execAndi (Keeps.refl s)
  | ori => exact keeps_execOri (Keeps.refl s)
  | xori => exact keeps_execXori (Keeps.refl s)
  | shifti => exact keeps_execShifti (Keeps.refl s)
  | movi => exact keeps_execMovi (Keeps.refl s)
  | cmp => exact keeps_execCmp (Keeps.refl s)
  | cmpi => exact keeps_execCmpi (Keeps.refl s)
  | sel => exact keeps_execSel (Keeps.refl s)
  | plog => exact keeps_execPlog (Keeps.refl s)
  | fadd => exact keeps_execFadd (Keeps.refl s)
  | fmul => exact keeps_execFmul (Keeps.refl s)
  | ffma => exact keeps_execFfma (Keeps.refl s)
  | fminmax => exact keeps_execFminmax (Keeps.refl s)
  | fcmp => exact keeps_execFcmp (Keeps.refl s)
  | fcvt => exact keeps_execFcvt (Keeps.refl s)
  | vadd => exact keeps_execVadd (Keeps.refl s)
  | vsub => exact keeps_execVsub (Keeps.refl s)
  | vmul => exact keeps_execVmul (Keeps.refl s)
  | vfma => exact keeps_execVfma (Keeps.refl s)
  | vmin => exact keeps_execVmin (Keeps.refl s)
  | vmax => exact keeps_execVmax (Keeps.refl s)
  | vcmp => exact keeps_execVcmp (Keeps.refl s)
  | vsel => exact keeps_execVsel (Keeps.refl s)
  | vexp2 => exact keeps_execVexp2 (Keeps.refl s)
  | vrcp => exact keeps_execVrcp (Keeps.refl s)
  | vrsq => exact keeps_execVrsq (Keeps.refl s)
  | viadd => exact keeps_execViadd (Keeps.refl s)
  | visub => exact keeps_execVisub (Keeps.refl s)
  | vimul => exact keeps_execVimul (Keeps.refl s)
  | vlogic => exact keeps_execVlogic (Keeps.refl s)
  | vrsum => exact keeps_execVrsum (Keeps.refl s)
  | vrmax => exact keeps_execVrmax (Keeps.refl s)
  | vperm => exact keeps_execVperm (Keeps.refl s)
  | vbcast => exact keeps_execVbcast (Keeps.refl s)
  | vext => exact keeps_execVext (Keeps.refl s)
  | vflag => exact keeps_execVflag (Keeps.refl s)
  | vmov => exact keeps_execVmov (Keeps.refl s)
  | vcvt => exact keeps_execVcvt (Keeps.refl s)
  | vmaxabs => exact keeps_execVmaxabs (Keeps.refl s)
  | mma => exact keeps_execMma (Keeps.refl s)
  | twait => exact keeps_execTwait (Keeps.refl s)
  | ld => exact keeps_execLd (Keeps.refl s)
  | st => exact keeps_execSt (Keeps.refl s)
  | vld => exact keeps_execVld (Keeps.refl s)
  | vst => exact keeps_execVst (Keeps.refl s)
  | atom => exact keeps_execAtom (Keeps.refl s)
  | atomp => exact keeps_execAtomp (Keeps.refl s)
  | fence => exact keeps_execFence (Keeps.refl s)
  | tcopy => exact keeps_execTcopy (Keeps.refl s)
  | tscadd => exact keeps_execTscadd (Keeps.refl s)
  | tmaxabs => exact keeps_execTmaxabs (Keeps.refl s)
  | sig => exact keeps_execSig (Keeps.refl s)
  | sigw => exact keeps_execSigw (Keeps.refl s)
  | watch => exact keeps_execWatch (Keeps.refl s)
  | unwatch => exact keeps_execUnwatch (Keeps.refl s)
  | park => exact keeps_execPark (Keeps.refl s)
  | take => exact keeps_execTake (Keeps.refl s)
  | token => exact keeps_execToken (Keeps.refl s)
  | delay => exact keeps_execDelay (Keeps.refl s)
  | time => exact keeps_execTime (Keeps.refl s)
  | reel => exact keeps_execReel (Keeps.refl s)
  | dld => exact keeps_execDld (Keeps.refl s)
  | dstr => exact keeps_execDstr (Keeps.refl s)
  | dsetw => exact keeps_execDsetw (Keeps.refl s)
  | dgetw => exact keeps_execDgetw (Keeps.refl s)
  | breakStopDone => exact keeps_execBreakStopDone (Keeps.refl s)
  | requestAcceptance => exact keeps_execRequestAcceptance (Keeps.refl s)
  | lendingRequest => exact keeps_execLendingRequest (Keeps.refl s)
  | creditGiveBack => exact keeps_execCreditGiveBack (Keeps.refl s)
  | transferAcceptance => exact keeps_execTransferAcceptance (Keeps.refl s)
  | requestPerform => exact keeps_execRequestPerform (Keeps.refl s)
  | requestCompletion => exact keeps_execRequestCompletion (Keeps.refl s)
  | signalPerform => exact keeps_execSignalPerform (Keeps.refl s)
  | watchAck => exact keeps_execWatchAck (Keeps.refl s)
  | wakeNotification => exact keeps_execWakeNotification (Keeps.refl s)
  | tokenPerform => exact keeps_execTokenPerform (Keeps.refl s)
  | waitingFiringPlaced => exact keeps_execWaitingFiringPlaced (Keeps.refl s)
  | delayTick => exact keeps_execDelayTick (Keeps.refl s)
  | reelJobAccept => exact keeps_execReelJobAccept (Keeps.refl s)
  | reelJobComplete => exact keeps_execReelJobComplete (Keeps.refl s)
  | gatherRecordRead => exact keeps_execGatherRecordRead (Keeps.refl s)
  | gather => exact keeps_execGather (Keeps.refl s)
  | scatterAdd => exact keeps_execScatterAdd (Keeps.refl s)
  | write => exact keeps_execWrite (Keeps.refl s)
  | loftFill => exact keeps_execLoftFill (Keeps.refl s)
  | ownerBatch => exact keeps_execOwnerBatch (Keeps.refl s)
  | gatherJobComplete => exact keeps_execGatherJobComplete (Keeps.refl s)
  | rowHandover => exact keeps_execRowHandover (Keeps.refl s)
  | handoverCopyDone => exact keeps_execHandoverCopyDone (Keeps.refl s)
  | forwardEntryFree => exact keeps_execForwardEntryFree (Keeps.refl s)
  | balancerRead => exact keeps_execBalancerRead (Keeps.refl s)
  | mmaGrant => exact keeps_execMmaGrant (Keeps.refl s)
  | mmaComplete => exact keeps_execMmaComplete (Keeps.refl s)
  | tensorOpComplete => exact keeps_execTensorOpComplete (Keeps.refl s)
  | reduce => exact keeps_execReduce (Keeps.refl s)
  | outcome => exact keeps_execOutcome (Keeps.refl s)
  | grant => exact keeps_execGrant (Keeps.refl s)
  | max => exact keeps_execMax (Keeps.refl s)
  | exp => exact keeps_execExp (Keeps.refl s)
  | data => exact keeps_execData (Keeps.refl s)
  | outcomePacket => exact keeps_execOutcomePacket (Keeps.refl s)
  | abort => exact keeps_execAbort (Keeps.refl s)
  | reduceDisableDeadline => exact keeps_execReduceDisableDeadline (Keeps.refl s)
  | batchSteering => exact keeps_execBatchSteering (Keeps.refl s)
  | stage => exact keeps_execStage (Keeps.refl s)
  | winchCopy => exact keeps_execWinchCopy (Keeps.refl s)
  | winchRelease => exact keeps_execWinchRelease (Keeps.refl s)
  | winchEntryComplete => exact keeps_execWinchEntryComplete (Keeps.refl s)
  | objectRemapBoundary => exact keeps_execObjectRemapBoundary (Keeps.refl s)
  | nopCommand => exact keeps_execNopCommand (Keeps.refl s)
  | create => exact keeps_execCreate (Keeps.refl s)
  | destroy => exact keeps_execDestroy (Keeps.refl s)
  | load => exact keeps_execLoad (Keeps.refl s)
  | start => exact keeps_execStart (Keeps.refl s)
  | pause => exact keeps_execPause (Keeps.refl s)
  | resume => exact keeps_execResume (Keeps.refl s)
  | disable => exact keeps_execDisable (Keeps.refl s)
  | disableForce => exact keeps_execDisableForce (Keeps.refl s)
  | drainComplete => exact keeps_execDrainComplete (Keeps.refl s)
  | allocT2Frames => exact keeps_execAllocT2Frames (Keeps.refl s)
  | allocPinnedT1 => exact keeps_execAllocPinnedT1 (Keeps.refl s)
  | allocObject => exact keeps_execAllocObject (Keeps.refl s)
  | free => exact keeps_execFree (Keeps.refl s)
  | window => exact keeps_execWindow (Keeps.refl s)
  | apply => exact keeps_execApply (Keeps.refl s)
  | publish => exact keeps_execPublish (Keeps.refl s)
  | lend => exact keeps_execLend (Keeps.refl s)
  | returnFrames => exact keeps_execReturnFrames (Keeps.refl s)
  | copy => exact keeps_execCopy (Keeps.refl s)
  | balance => exact keeps_execBalance (Keeps.refl s)
  | selfTest => exact keeps_execSelfTest (Keeps.refl s)
  | calibration => exact keeps_execCalibration (Keeps.refl s)
  | exchange => exact keeps_execExchange (Keeps.refl s)
  | checkpoint => exact keeps_execCheckpoint (Keeps.refl s)
  | restore => exact keeps_execRestore (Keeps.refl s)
  | addendum => exact keeps_execAddendum (Keeps.refl s)
  | commandAccept => exact keeps_execCommandAccept (Keeps.refl s)
  | commandCompletion => exact keeps_execCommandCompletion (Keeps.refl s)
  | completionPost => exact keeps_execCompletionPost (Keeps.refl s)
  | sqTail => exact keeps_execSqTail (Keeps.refl s)
  | cqHead => exact keeps_execCqHead (Keeps.refl s)
  | qctl => exact keeps_execQctl (Keeps.refl s)
  | registerWrite => exact keeps_execRegisterWrite (Keeps.refl s)
  | groupVote => exact keeps_execGroupVote (Keeps.refl s)
  | groupVoteDeadline => exact keeps_execGroupVoteDeadline (Keeps.refl s)
  | stagedApplyBoundary => exact keeps_execStagedApplyBoundary (Keeps.refl s)
  | portDrain => exact keeps_execPortDrain (Keeps.refl s)
  | laneWithdraw => exact keeps_execLaneWithdraw (Keeps.refl s)
  | freeLendTakeEffect => exact keeps_execFreeLendTakeEffect (Keeps.refl s)
  | loftHalfActivate => exact keeps_execLoftHalfActivate (Keeps.refl s)
  | regionMapApply => exact keeps_execRegionMapApply (Keeps.refl s)
  | epochPulse => exact keeps_execEpochPulse (Keeps.refl s)
  | epochEdge => exact keeps_execEpochEdge (Keeps.refl s)
  | epochMasterTakeover => exact keeps_execEpochMasterTakeover (Keeps.refl s)
  | burnerControlInterval => exact keeps_execBurnerControlInterval (Keeps.refl s)
  | railRise => exact keeps_execRailRise (Keeps.refl s)
  | liftFlit => exact keeps_execLiftFlit (Keeps.refl s)
  | liftOffsetApply => exact keeps_execLiftOffsetApply (Keeps.refl s)
  | portBringup => exact keeps_execPortBringup (Keeps.refl s)
  | identityFlit => exact keeps_execIdentityFlit (Keeps.refl s)
  | dataFlit => exact keeps_execDataFlit (Keeps.refl s)
  | nak => exact keeps_execNak (Keeps.refl s)
  | idleFlit => exact keeps_execIdleFlit (Keeps.refl s)
  | timeFlit => exact keeps_execTimeFlit (Keeps.refl s)
  | laneChangeFlit => exact keeps_execLaneChangeFlit (Keeps.refl s)
  | linkRetrain => exact keeps_execLinkRetrain (Keeps.refl s)
  | laneFailure => exact keeps_execLaneFailure (Keeps.refl s)
  | remoteOperationReceive => exact keeps_execRemoteOperationReceive (Keeps.refl s)
  | peerLoss => exact keeps_execPeerLoss (Keeps.refl s)
  | pcieLinkDown => exact keeps_execPcieLinkDown (Keeps.refl s)
  | perstDeassert => exact keeps_execPerstDeassert (Keeps.refl s)
  | perstAssert => exact keeps_execPerstAssert (Keeps.refl s)
  | functionLevelReset => exact keeps_execFunctionLevelReset (Keeps.refl s)
  | completionTimeout => exact keeps_execCompletionTimeout (Keeps.refl s)
  | mctpMessage => exact keeps_execMctpMessage (Keeps.refl s)
  | tapInstruction => exact keeps_execTapInstruction (Keeps.refl s)
  | vaonValid => exact keeps_execVaonValid (Keeps.refl s)
  | powerGoodRise k r => exact absurd rfl (hc k r)
  | corePgLoss => exact keeps_execCorePgLoss (Keeps.refl s)
  | sharedPgLoss => exact keeps_execSharedPgLoss (Keeps.refl s)
  | trefLoss => exact keeps_execTrefLoss (Keeps.refl s)
  | lrefclkLoss => exact keeps_execLrefclkLoss (Keeps.refl s)
  | prefclkLoss => exact keeps_execPrefclkLoss (Keeps.refl s)
  | handshakeTimeout => exact keeps_execHandshakeTimeout (Keeps.refl s)
  | uncorrectableError => exact keeps_execUncorrectableError (Keeps.refl s)
  | cellRetire => exact keeps_execCellRetire (Keeps.refl s)
  | spareSplice => exact keeps_execSpareSplice (Keeps.refl s)
  | regionMigration => exact keeps_execRegionMigration (Keeps.refl s)
  | migrationCopyDone => exact keeps_execMigrationCopyDone (Keeps.refl s)
  | regionFailure => exact keeps_execRegionFailure (Keeps.refl s)
  | serviceActionDone => exact keeps_execServiceActionDone (Keeps.refl s)
  | keelHeartbeat => exact keeps_execKeelHeartbeat (Keeps.refl s)
  | keelStandbyJoin => exact keeps_execKeelStandbyJoin (Keeps.refl s)
  | keelRotation => exact keeps_execKeelRotation (Keeps.refl s)
  | patrolScrub => exact keeps_execPatrolScrub (Keeps.refl s)
  | lifetimeWrite => exact keeps_execLifetimeWrite (Keeps.refl s)
  | lifetimeWriteRetry => exact keeps_execLifetimeWriteRetry (Keeps.refl s)
  | retirementListAppend => exact keeps_execRetirementListAppend (Keeps.refl s)
  | keelPeriodicSelfCheck => exact keeps_execKeelPeriodicSelfCheck (Keeps.refl s)
  | trefReturn => exact keeps_execTrefReturn (Keeps.refl s)
  | vaonLoss => exact keeps_execVaonLoss (Keeps.refl s)
  | configurationRequest => exact keeps_execConfigurationRequest (Keeps.refl s)

/-- A power-on keeps it too, of the state before or of that state with the flash as its newest record has it (R463). -/
theorem exec_keeps {s u : State} {c : Instr} (h : exec c s = .next u) :
    Keeps s u ∨ (∃ k r, c = .powerGoodRise k r) ∧ Keeps { s with flash := readRecord s.flash } u := by
  by_cases hc : ∃ k r, c = .powerGoodRise k r
  · obtain ⟨k, r, rfl⟩ := hc
    exact (keeps_execPowerGoodRise.imp (· u h) (· u h)).imp_right fun hk => ⟨⟨k, r, rfl⟩, hk⟩
  · exact .inl (keeps_exec (fun k r e => hc ⟨k, r, e⟩) u h)

theorem step_nil {s : State} (h : s.pending = []) : step s = .next (idle s) := by
  unfold step; rw [h]

theorem step_cons {s : State} {c : Instr} {rest : List Instr} (h : s.pending = c :: rest) :
    step s = exec c { s with pending := rest } := by
  unfold step; rw [h]

/-- What a step keeps, of the state without the command it takes; a power-on keeps it of that state with the flash as its
newest record has it. -/
theorem step_keeps {s u : State} (h : step s = .next u) :
    Keeps { s with pending := s.pending.tail } u ∨
      (∃ k r, s.pending.head? = some (.powerGoodRise k r)) ∧
        Keeps { s with pending := s.pending.tail, flash := readRecord s.flash } u := by
  cases hp : s.pending with
  | nil =>
    cases (step_nil hp).symm.trans h
    have hs : { s with pending := [] } = s := by rw [← hp]
    exact .inl (hs.symm ▸ keeps_idle (Keeps.refl s))
  | cons c rest =>
    rcases exec_keeps ((step_cons hp).symm.trans h) with hk | ⟨⟨k, r, rfl⟩, hk⟩
    · exact .inl hk
    · exact .inr ⟨⟨k, r, rfl⟩, hk⟩

/-- What a part was fixed to at test; its number on the board is set by straps. -/
theorem Keeps.fixed {s u : State} (h : Keeps s u) :
    u.part.grade = s.part.grade ∧ u.part.revision = s.part.revision ∧ u.part.disabled = s.part.disabled ∧
      u.part.serial = s.part.serial ∧ u.part.romRev = s.part.romRev := by
  have hp := h.part
  rw [Part.mk.injEq] at hp
  obtain ⟨hg, hr, hd, hs, hm, -⟩ := hp
  exact ⟨hg, hr, hd, hs, hm⟩

end Sys2Proof.Machine

open Sys2Proof Sys2Proof.Machine

/-- Settles O3: every operation keeps the queue, and a power-on changes nothing of it either. -/
theorem commandsLeaveTheQueue : Obligations.CommandsLeaveTheQueue := by
  intro c s u h
  rcases exec_keeps h with hk | ⟨-, hk⟩
  · exact hk.queue
  · exact hk.queue

/-- Settles O6: a step keeps the part but for its straps, and the two lists of the flash are only added to. -/
theorem stepKeepsPartAndFlashLists : Obligations.StepKeepsPartAndFlashLists := by
  intro s u h
  rcases step_keeps h with hk | ⟨hc, hk⟩
  · obtain ⟨hg, hr, hd, hs, hm⟩ := hk.fixed
    obtain ⟨more, hmore⟩ := hk.retired
    obtain ⟨failed, hfailed⟩ := hk.failed
    exact ⟨hg, hr, hd, hs, hm, ⟨more, hmore.symm⟩, failed, .inl hfailed.symm⟩
  · obtain ⟨hg, hr, hd, hs, hm⟩ := hk.fixed
    obtain ⟨more, hmore⟩ : (readRecord s.flash).retirements <+: u.flash.retirements := hk.retired
    rw [readRecord_retirements] at hmore
    obtain ⟨failed, hfailed⟩ := hk.failed
    exact ⟨hg, hr, hd, hs, hm, ⟨more, hmore.symm⟩, failed, .inr ⟨hc, hfailed.symm⟩⟩

/-- Settles O1: on a queue that is not empty a step is the execution of its front. -/
theorem stepRunsTheFrontCommand : Obligations.StepRunsTheFrontCommand := fun _ _ _ => step_cons
end

section
/-! SUPPORT. What leaves the configuration alone: the control registers, the live tables, the commands, and of each function
all but its count of lost events. Writes of memory, operations sent to peers and the search for pool units do. -/

namespace Sys2Proof.Machine

open Sys2Proof

/-- Nothing of the configuration has changed; a function may have lost events. -/
structure KeepsConfig (s u : State) : Prop where
  regs : u.regs = s.regs
  tables : u.tables = s.tables
  cmds : u.cmds = s.cmds
  fns : ∀ f, ∃ n, fnOf u f = { fnOf s f with eventsLost := n }

namespace KeepsConfig

variable {z s u : State}

theorem refl (s : State) : KeepsConfig s s := ⟨rfl, rfl, rfl, fun _ => ⟨_, rfl⟩⟩

theorem trans (a : KeepsConfig z s) (b : KeepsConfig s u) : KeepsConfig z u where
  regs := b.regs.trans a.regs
  tables := b.tables.trans a.tables
  cmds := b.cmds.trans a.cmds
  fns f := by
    obtain ⟨n, hn⟩ := a.fns f
    obtain ⟨m, hm⟩ := b.fns f
    exact ⟨m, by rw [hm, hn]⟩

/-- An update of other fields of the state. -/
theorem other (h : KeepsConfig z s) (hr : u.regs = s.regs) (ht : u.tables = s.tables) (hc : u.cmds = s.cmds)
    (hf : u.fns = s.fns) : KeepsConfig z u :=
  h.trans ⟨hr, ht, hc, fun _ => ⟨_, by unfold fnOf; rw [hf]⟩⟩

theorem ite {a b : State} {c : Prop} [Decidable c] (ha : KeepsConfig z a) (hb : KeepsConfig z b) :
    KeepsConfig z (if c then a else b) := by
  split
  · exact ha
  · exact hb

theorem foldl {α : Type} {f : State → α → State} {l : List α} (hf : ∀ s a, KeepsConfig z s → KeepsConfig z (f s a))
    (h : KeepsConfig z s) : KeepsConfig z (l.foldl f s) := foldl_keeps (P := KeepsConfig z) hf l h

theorem findCmd (h : KeepsConfig s u) (i : Nat) : findCmd u i = Machine.findCmd s i := by
  unfold Machine.findCmd; rw [h.cmds]

theorem open_ (h : KeepsConfig s u) (f : Nat) : (fnOf u f).open_ = (fnOf s f).open_ := by
  obtain ⟨n, hn⟩ := h.fns f
  rw [hn]

theorem frozen (h : KeepsConfig s u) (f : Nat) : (fnOf u f).frozen = (fnOf s f).frozen := by
  obtain ⟨n, hn⟩ := h.fns f
  rw [hn]

/-! ### Events and pages -/

theorem postEvent {f code ctx detail word : Nat} (h : KeepsConfig z s) :
    KeepsConfig z (postEvent s f code ctx detail word) := by
  obtain ⟨r, n, he⟩ := postEvent_eq s f code ctx detail word
  refine h.trans ⟨?_, ?_, ?_, fun g => postEvent_fnOf s f code ctx detail word g⟩ <;> rw [he]

theorem quotaEvent {t : State} {f : Nat} (h : KeepsConfig z t) : KeepsConfig z (quotaEvent s t f) :=
  ite h.postEvent h

theorem floorEvent {t : State} {st ch : Nat} (h : KeepsConfig z t) : KeepsConfig z (floorEvent s t st ch) :=
  ite h.postEvent h

theorem updatePage {page : Nat} (h : KeepsConfig z s) : KeepsConfig z (updatePage s page) := by
  unfold Machine.updatePage
  dsimp only
  refine ite h (floorEvent ?_)
  split
  · exact quotaEvent (h.other rfl rfl rfl rfl)
  · exact h.other rfl rfl rfl rfl

/-! ### Operations sent to peers -/

theorem askLending {led : AdmPoint} {res : Resource} {n : Nat} (h : KeepsConfig z s) :
    KeepsConfig z (askLending s led res n) := by
  unfold Machine.askLending
  refine ite h ?_
  let t := setDest s res { destOf s res with waiting := (destOf s res).waiting ++ [(led, res, n)] }
  obtain ⟨d, l, he⟩ := serveLending_eq res (destOf t res).waiting.length t
  exact he ▸ h.other rfl rfl rfl rfl

theorem reserve {x : AdmPoint × Resource × Nat} (h : KeepsConfig z s) : KeepsConfig z (reserve s x) :=
  ite (h.other rfl rfl rfl rfl) (h.other rfl rfl rfl rfl)

theorem modLink {p : Nat} {f : Link → Link} (h : KeepsConfig z s) : KeepsConfig z (modLink s p f) :=
  h.other rfl rfl rfl rfl

theorem emitFlit {port kind seq : Nat} {payload : List Byte} (h : KeepsConfig z s) :
    KeepsConfig z (emitFlit s port kind seq payload) := h.other rfl rfl rfl rfl

theorem sendFlits {port k : Nat} : ∀ {s : State}, KeepsConfig z s → KeepsConfig z (sendFlits port k s) := by
  induction k with
  | zero => exact id
  | succ k ih =>
    intro s h
    unfold Machine.sendFlits
    split
    · exact h
    · exact ite h (ite h.askLending (ih (ite h h.reserve).modLink.emitFlit))

theorem queueOp {held : Bool} {port : Nat} {o : OpHeader} {payload : List Byte} (h : KeepsConfig z s) :
    KeepsConfig z (queueOp held s port o payload) := sendFlits (h.other rfl rfl rfl rfl)

theorem sendPieces {fn k : Nat} : ∀ {s : State} {a : Nat} {bs : List Byte}, KeepsConfig z s →
    KeepsConfig z (sendPieces s fn a bs k) := by
  induction k with
  | zero => exact id
  | succ k ih =>
    intro s a bs h
    unfold Machine.sendPieces
    refine ite h ?_
    split
    · exact ih h.queueOp
    · exact h

theorem askPeer {fn a n : Nat} (h : KeepsConfig z s) : KeepsConfig z (askPeer s fn a n) := by
  refine ite (foldl (fun s i h => ?_) h) h
  split
  · exact h.queueOp
  · exact h

/-! ### Writes of memory -/

theorem coreWrite {fn a : Nat} {bs : List Byte} (h : KeepsConfig z s) : KeepsConfig z (coreWrite s fn a bs) := by
  unfold Machine.coreWrite
  have hm : KeepsConfig z { s with mem := s.mem.store (memKey s a) bs } := h.other rfl rfl rfl rfl
  exact ite h (ite (ite h h.sendPieces)
    (ite (foldl (fun _ _ => updatePage) hm) (ite (hm.other rfl rfl rfl rfl) (hm.other rfl rfl rfl rfl))))

theorem devWrite {fn a : Nat} {bs : List Byte} (h : KeepsConfig z s) : KeepsConfig z (devWrite s fn a bs) :=
  ite h h.coreWrite

theorem poisonOut {a n : Nat} (h : KeepsConfig z s) : KeepsConfig z (poisonOut s a n) :=
  ite (h.other rfl rfl rfl rfl) h

theorem hostMove {fn src dst n : Nat} (h : KeepsConfig z s) : KeepsConfig z (hostMove s fn src dst n) :=
  foldl (fun _ _ h => ite (h.other rfl rfl rfl rfl) (h.other rfl rfl rfl rfl)) (h.other rfl rfl rfl rfl)

theorem devMove {fn src dst n : Nat} (h : KeepsConfig z s) : KeepsConfig z (devMove s fn src dst n) := by
  unfold Machine.devMove
  have hs : KeepsConfig z (if spaceOf src = 5 then hostRequest s fn false src n else Machine.askPeer s fn src n) :=
    ite (h.other rfl rfl rfl rfl) h.askPeer
  revert hs
  generalize (if spaceOf src = 5 then hostRequest s fn false src n else Machine.askPeer s fn src n) = t
  intro hs
  have hw : KeepsConfig z { t with freeCounter := t.freeCounter + 1 } := hs.other rfl rfl rfl rfl
  have hm : KeepsConfig z { t with mem := t.mem.move (memKey t src) (memKey t dst) n } := hs.other rfl rfl rfl rfl
  exact ite h (ite hs.hostMove (ite (ite hw.devWrite.poisonOut hw.devWrite)
    (ite (foldl (fun _ _ => updatePage) hm) (hm.other rfl rfl rfl rfl))))

/-! ### Writes of a unit -/

theorem countAct {x : ActUnit} {c : Option Nat} {k : ActClass} {n : Nat} (h : KeepsConfig z s) :
    KeepsConfig z (countAct s x c k n) := ite h (h.other rfl rfl rfl rfl)

theorem countCrossing {own die port n : Nat} {c : Option Nat} (h : KeepsConfig z s) :
    KeepsConfig z (countCrossing s own c die port n) := countAct (ite h.countAct h)

theorem countAccess {own a n : Nat} {c : Option Nat} (h : KeepsConfig z s) : KeepsConfig z (countAccess s own c a n) := by
  unfold Machine.countAccess
  refine ite h ?_
  split
  · exact foldl (fun _ _ => countAct) h.countCrossing
  · exact countAct (ite (countAct (ite h.countAct h)) (ite h.countAct h))
  · exact countAct (ite (countAct (ite h.countAct h)) (ite h.countAct h))
  · split
    · exact h.countCrossing.countAct.countAct
    · exact h
  · exact h.countCrossing.countAct

theorem remotePiece {ctx a : Nat} {o : Origin} {bs payload : List Byte} {poison : Option Nat}
    {cr : List (Resource × Nat)} (h : KeepsConfig z s) : KeepsConfig z (remotePiece s ctx o a bs payload poison cr) := by
  have hr : ∀ r, KeepsConfig z (addRequest s r) := fun r => h.other rfl rfl rfl rfl
  unfold Machine.remotePiece
  dsimp only
  split
  · exact (hr _).countAccess.queueOp
  · exact (hr _).countAccess

theorem remoteStore {ctx k : Nat} {o : Origin} : ∀ {s : State} {a : Nat} {bs : List Byte}, KeepsConfig z s →
    KeepsConfig z (remoteStore s ctx o a bs k) := by
  induction k with
  | zero => exact id
  | succ k ih => exact fun h => ite h (ih h.remotePiece)

theorem engineStore {o : Origin} {fn a : Nat} {c : Option Nat} {bs : List Byte} (h : KeepsConfig z s) :
    KeepsConfig z (engineStore s o fn c a bs) := ite (ite h h.remoteStore) h.countAccess.devWrite

theorem fillMoved {t : Nat} {v : TableVersion} (h : KeepsConfig z s) : KeepsConfig z (fillMoved s t v) := by
  refine foldl (fun s e h => ?_) h
  have move : ∀ {s : State} {fn L dev a b n : Nat} {c : Prop} [Decidable c], KeepsConfig z s →
      KeepsConfig z (if c then Machine.devMove s fn a b n
        else ownerStore s L fn none (peerAddr dev 0 (b % 2 ^ 41)) (devRead s a n)) :=
    fun h => ite h.devMove h.engineStore
  exact ite h (ite (move (move h)) (move h))

/-! ### The search for pool units -/

theorem placeLoft {L c : Nat} (h : KeepsConfig z s) : KeepsConfig z (placeLoft L s c) := by
  unfold Machine.placeLoft
  dsimp only
  split
  · exact h.other rfl rfl rfl rfl
  · exact h

theorem freedUnits (h : KeepsConfig z s) : KeepsConfig z (freedUnits s) :=
  foldl (fun _ _ => foldl fun _ _ => placeLoft) (h.other rfl rfl rfl rfl)

theorem selectEvictions {H n k : Nat} : ∀ {s : State}, KeepsConfig z s → KeepsConfig z (selectEvictions H n k s) := by
  induction k with
  | zero => exact id
  | succ k ih =>
    intro s h
    unfold Machine.selectEvictions
    refine ite h ?_
    split
    · exact ih (h.other rfl rfl rfl rfl)
    · exact h

theorem selectIn {n : Nat} {homes : List Nat} : ∀ {s : State}, KeepsConfig z s → KeepsConfig z (selectIn n homes s) := by
  induction homes with
  | nil => exact id
  | cons H r ih => exact fun h => ite h.selectEvictions (ih h.selectEvictions)

theorem seekRun {n : Nat} {homes : List Nat} (h : KeepsConfig z s) : KeepsConfig z (seekRun s n homes).2 := by
  unfold Machine.seekRun
  dsimp only
  split
  · exact h.freedUnits
  · exact h.freedUnits.selectIn

theorem seekLofts {x : StagedCopy} (h : KeepsConfig z s) : KeepsConfig z (seekLofts s x) := by
  refine foldl (fun s e h => ?_) h
  split
  · exact h.seekRun
  · exact h

/-! ### Votes and ballots -/

theorem sendVote {c : Cmd} {pass : Bool} {d : Nat} (h : KeepsConfig z s) : KeepsConfig z (sendVote c pass s d) := by
  unfold Machine.sendVote
  dsimp only
  split
  · exact queueOp (h.other rfl rfl rfl rfl)
  · exact h.other rfl rfl rfl rfl

theorem sendVotes {c : Cmd} {pass : Bool} (h : KeepsConfig z s) : KeepsConfig z (sendVotes s c pass) :=
  ite h (foldl (fun _ _ => sendVote) h)

theorem newBallot (h : KeepsConfig z s) : KeepsConfig z (newBallot s) := h.other rfl rfl rfl rfl

end KeepsConfig

end Sys2Proof.Machine
end

section
/-! SUPPORT. Commands at work: an event of a command that is at work completes with what the command's work gives, and a
command whose work has ended is found ended. -/

namespace Sys2Proof.Machine

open Sys2Proof

section chargeWork

variable {s t : State} {id : Nat}

@[simp] theorem chargeWork_mem : (chargeWork s t id).mem = t.mem := rfl
@[simp] theorem chargeWork_regs : (chargeWork s t id).regs = t.regs := rfl
@[simp] theorem chargeWork_contexts : (chargeWork s t id).contexts = t.contexts := rfl
@[simp] theorem chargeWork_tables : (chargeWork s t id).tables = t.tables := rfl
@[simp] theorem chargeWork_addendum : (chargeWork s t id).addendum = t.addendum := rfl
@[simp] theorem chargeWork_loadBank : (chargeWork s t id).loadBank = t.loadBank := rfl
@[simp] theorem chargeWork_lowerRev : (chargeWork s t id).lowerRev = t.lowerRev := rfl
@[simp] theorem chargeWork_flash : (chargeWork s t id).flash = t.flash := rfl
@[simp] theorem chargeWork_fnOf {f : Nat} : fnOf (chargeWork s t id) f = fnOf t f := rfl

/-- Charging a command's work changes of the command only its energy. -/
theorem findCmd_chargeWork {c : Cmd} (h : findCmd t id = some c) :
    ∃ e, findCmd (chargeWork s t id) id = some { c with energyPj := e } := by
  obtain rfl := findCmd_id h
  have hk : (fun x : Cmd => x.id == c.id) ∘ (fun x : Cmd => if x.id = c.id then
      { x with energyPj := x.energyPj + (activityPj t - activityPj s) } else x) = fun x => x.id == c.id := by
    funext x
    simp only [Function.comp_apply]
    split <;> rfl
  unfold findCmd at h
  exact ⟨c.energyPj + (activityPj t - activityPj s), by
    unfold findCmd chargeWork
    rw [List.find?_map, hk, h]
    simp⟩

end chargeWork

/-- A command that was listed and whose work has ended is found ended when its work has been charged. -/
theorem ended_of_endCmd {s t : State} {c d : Cmd} {status detail result : Nat} (h : findCmd t c.id = some d) :
    Ended (chargeWork s (endCmd t c status detail result) c.id) c.id status detail result := by
  obtain ⟨e, he⟩ := findCmd_chargeWork (s := s) (findCmd_endCmd (a := status) (b := detail) (r := result) h)
  exact ⟨_, he, rfl, rfl, rfl, rfl⟩

section AtWork

variable {s : State} {id op : Nat} {c : Cmd} {i : Instr} {f : Cmd → State}

/-- An event of a command at work completes with the command's work done and charged. -/
theorem AtWork.completes {P : State → Prop} (h : AtWork s id op c) (hi : exec i s = atCmd s id op f)
    (hP : P (chargeWork s (f c) c.id)) : Completes i s P := by
  have hr : runningCmd s id op = some c := by
    unfold runningCmd
    rw [h.found]
    exact if_pos ⟨h.stage, h.opcode⟩
  refine ⟨_, hi.trans ?_, hP⟩
  unfold atCmd
  rw [hr]

theorem AtWork.listed (h : AtWork s id op c) : findCmd s c.id = some c := (findCmd_id h.found).symm ▸ h.found

/-- A command whose work only ends it changes nothing else. -/
theorem AtWork.completes_ended {status detail result : Nat} (h : AtWork s id op c) (hi : exec i s = atCmd s id op f)
    (hf : f c = endCmd s c status detail result) :
    Completes i s fun u => { u with cmds := s.cmds } = s ∧ Ended u id status detail result := by
  refine h.completes hi ?_
  rw [hf, ← findCmd_id h.found]
  exact ⟨rfl, ended_of_endCmd h.listed⟩

end AtWork

end Sys2Proof.Machine
end

section
/-! SUPPORT. Staged configuration: what a staged copy leaves at an offset after a word is put, what WINDOW, PUBLISH,
ADDENDUM and APPLY change, and what a copy does at its boundary. -/

namespace Sys2Proof.Machine

open Sys2Proof

/-! ### Staged words -/

/-- A staged bit stands over the active one. -/
theorem getLsbD_overlay {a m v : DWord} {n : Nat} (h : m.getLsbD n = true) :
    (overlay a m v).getLsbD n = v.getLsbD n := by
  simp [overlay, h]

/-- What a copy that holds a word at an offset finds there after a put. -/
theorem find_put (x : StagedCopy) (off o : Nat) (m v : DWord) :
    (x.put off m v).regs.find? (fun e => e.1 == o) =
      if o = off then
        some (match x.regs.find? fun e => e.1 == off with
          | some (_, a, w) => (off, a ||| m, overlay w m v)
          | none => (off, m, v &&& m))
      else x.regs.find? fun e => e.1 == o := by
  unfold StagedCopy.put
  split
  · next k a w hf =>
    let g := fun e : Nat × DWord × DWord => if e.1 = off then (off, a ||| m, overlay w m v) else e
    have hk : (fun e : Nat × DWord × DWord => e.1 == o) ∘ g = fun e => e.1 == o := by
      funext e
      simp only [g, Function.comp_apply]
      split
      · next he => rw [he]
      · rfl
    change (x.regs.map g).find? _ = _
    rw [List.find?_map, hk]
    split
    · next ho =>
      subst ho
      have : k = o := by simpa using List.find?_some hf
      rw [hf]
      simp [g, this]
    · next ho =>
      cases hx : x.regs.find? fun e => e.1 == o with
      | none => rfl
      | some e =>
        have : e.1 = o := by simpa using List.find?_some hx
        simp [g, this, ho]
  · next hf =>
    rw [List.find?_append]
    split
    · next ho => subst ho; rw [hf]; simp
    · next ho => simp [Ne.symm ho]

/-- A word put at one offset leaves the word at another. -/
theorem stagedWord_put_other {s : State} {x : StagedCopy} {off o : Nat} {m v : DWord} (h : o ≠ off) :
    stagedWord s (x.put off m v) o = stagedWord s x o := by
  unfold stagedWord
  rw [find_put, if_neg h]

/-- The bits that are put stand at their offset. -/
theorem stagedWord_put_same {s : State} {x : StagedCopy} {off n : Nat} {m v : DWord} (h : m.getLsbD n = true) :
    (stagedWord s (x.put off m v) off).getLsbD n = v.getLsbD n := by
  unfold stagedWord
  rw [find_put, if_pos rfl]
  cases x.regs.find? fun e => e.1 == off with
  | none =>
    refine (getLsbD_overlay h).trans ?_
    simp [h]
  | some e =>
    have hm : (e.2.1 ||| m).getLsbD n = true := by simp [h]
    exact (getLsbD_overlay hm).trans (getLsbD_overlay h)

/-- Words put at the offsets of a list's positions. -/
def StagedCopy.putAll (x : StagedCopy) (off : Nat → Nat) (m : DWord) (l : List (Nat × Nat)) : StagedCopy :=
  l.foldl (fun y e => y.put (off e.2) m (BitVec.ofNat 64 e.1)) x

theorem stagedWord_putAll_other {s : State} {off : Nat → Nat} {m : DWord} {o : Nat} (l : List (Nat × Nat))
    (h : ∀ e ∈ l, o ≠ off e.2) (x : StagedCopy) : stagedWord s (x.putAll off m l) o = stagedWord s x o := by
  induction l generalizing x with
  | nil => rfl
  | cons e r ih =>
    obtain ⟨he, hr⟩ := List.forall_mem_cons.mp h
    exact (ih hr _).trans (stagedWord_put_other he)

/-- At offsets that differ each entry of a list stands where its position says. -/
theorem stagedWord_putAll {s : State} {off : Nat → Nat} {m : DWord} {n : Nat} (hoff : Function.Injective off)
    (hm : m.getLsbD n = true) (hn : n < 64) (l : List Nat) : ∀ (k i : Nat) (x : StagedCopy), i < l.length →
    (stagedWord s (x.putAll off m (l.zipIdx k)) (off (k + i))).getLsbD n = (l.getD i 0).testBit n := by
  induction l with
  | nil => exact fun k i x h => absurd h (Nat.not_lt_zero i)
  | cons e r ih =>
    intro k i x h
    rw [List.zipIdx_cons]
    cases i with
    | zero =>
      have hr : ∀ a ∈ r.zipIdx (k + 1), off k ≠ off a.2 := fun a ha hk =>
        absurd (List.le_snd_of_mem_zipIdx ha) (by rw [← hoff hk]; omega)
      have hw := stagedWord_putAll_other (s := s) (m := m) _ hr (x.put (off k) m (BitVec.ofNat 64 e))
      calc (stagedWord s ((x.put (off k) m (BitVec.ofNat 64 e)).putAll off m (r.zipIdx (k + 1))) (off k)).getLsbD n
          = (BitVec.ofNat 64 e).getLsbD n := by rw [hw, stagedWord_put_same hm]
        _ = e.testBit n := by rw [BitVec.getLsbD_ofNat]; simp [hn]
    | succ j =>
      have := ih (k + 1) j (x.put (off k) m (BitVec.ofNat 64 e)) (by simpa using h)
      rw [Nat.add_right_comm k 1 j] at this
      exact this

theorem offWindow_injective (c first : Nat) : Function.Injective fun i => offWindow c (first + i) := by
  intro i j h
  simp only [offWindow] at h
  omega

/-- The fields of a window entry that WS names: all but bits 55 to 59. -/
theorem getLsbD_windowMask {n : Nat} (h : n ≤ 54 ∨ (60 ≤ n ∧ n ≤ 63)) : windowMask.getLsbD n = true := by
  have hall : ∀ k : Fin 64, k.val ≤ 54 ∨ 60 ≤ k.val → windowMask.getLsbD k.val = true := by decide
  exact hall ⟨n, by omega⟩ (by simp only; omega)

/-! ### WINDOW -/

/-- WINDOW with entries that pass its checks puts each of them into the open copy, and does nothing else. -/
theorem windowCmd_passes {s : State} {c : Cmd} (h : windowFail s c = none) :
    windowCmd s c = endCmd (modFn s c.fn fun x => { x with
      open_ := x.open_.putAll (fun i => offWindow c.ctx (c.field 8 1 + i)) windowMask (listedWindows s c).zipIdx })
      c stOk 0 0 := by
  unfold windowCmd
  rw [h]
  rfl

theorem windowCmd_fails {s : State} {c : Cmd} {e : Nat × Nat} (h : windowFail s c = some e) :
    windowCmd s c = endCmd s c e.1 e.2 0 := by
  unfold windowCmd
  rw [h]

theorem length_listedWindows {s : State} {c : Cmd} : (listedWindows s c).length = c.field 0x0A 2 := by
  simp [listedWindows]

/-! ### PUBLISH -/

/-- The release of old versions changes no register, no command, and of its table only the live versions. -/
theorem releaseVersions_config (s : State) (t : Nat) : ∃ l, KeepsConfig
    (modTable s t fun T => { T with versions := l }) (releaseVersions s t) := by
  exact ⟨_, KeepsConfig.foldl (fun _ _ h => h.postEvent) ((KeepsConfig.refl _).other rfl rfl rfl rfl)⟩

/-- PUBLISH that passes its checks adds one publish to the open copy, once the old versions of its table are released. -/
theorem publishCmd_passes {s : State} {c : Cmd} {d : TableDesc} {r : State}
    (hd : d = readTableDesc (hostRead s c.fn (c.field 8 8) 64)) (hr : r = releaseVersions s d.table)
    (h : publishFault r c = none) : ∃ m g, m.length = d.shards ∧
      publishCmd s c = endCmd (modFn { r with freeCounter := r.freeCounter + 1 } c.fn fun x =>
        { x with open_ := { x.open_ with publishes := x.open_.publishes ++ [{ desc := d, shards := m, mig := g }] } })
        c stOk 0 0 := by
  subst hd hr
  let r := releaseVersions s (readTableDesc (hostRead s c.fn (c.field 8 8) 64)).table
  let d := readTableDesc (hostRead s c.fn (c.field 8 8) 64)
  let m := (shardRecords r c.fn (c.field 0x10 8) d.shards).map readShard
  refine ⟨m, migAreas r d m, by simp [m, d, shardRecords], ?_⟩
  unfold publishCmd
  dsimp only
  rw [h]

/-! ### ADDENDUM -/

/-- The board flash takes an addendum into the slot that is not active. -/
theorem storeAddendum_eq (s : State) (a : Addendum) : ∃ f, storeAddendum s a = { s with flash := f } ∧
    f.floor = s.flash.floor ∧
    (s.flash.present = true → (if s.flash.activeSlot = 0 then f.addendum1 else f.addendum0).held = some a) := by
  unfold storeAddendum
  dsimp only
  split
  · next h => exact ⟨s.flash, rfl, rfl, fun hp => by simp [hp] at h⟩
  · split <;> exact ⟨_, rfl, rfl, fun _ => rfl⟩

theorem addendumCmd_fails {s : State} {c : Cmd} {d : Nat} (hp : addendumPlace s c = true)
    (h : addendumFault s (imageBytes s c) = some d) : addendumCmd s c = endCmd s c stRejected d 0 := by
  unfold addendumCmd
  rw [if_neg (by simp [hp])]
  dsimp only
  rw [h]

theorem addendumCmd_passes {s : State} {c : Cmd} (hp : addendumPlace s c = true)
    (h : addendumFault s (imageBytes s c) = none) :
    addendumCmd s c =
      endCmd (modFn { storeAddendum s (readAddendum (imageBytes s c)) with loadBank := some (readAddendum (imageBytes s c)) }
        c.fn fun x => { x with open_ := { x.open_ with addendum := some (readAddendum (imageBytes s c)) } })
        c stOk 0 (readAddendum (imageBytes s c)).seq := by
  unfold addendumCmd
  rw [if_neg (by simp [hp])]
  dsimp only
  rw [h]

/-! ### APPLY -/

/-- A device that applies alone sends no votes. -/
theorem sendVotes_single {s : State} {c : Cmd} {pass : Bool} (h : isGroup c.devices = false) : sendVotes s c pass = s := by
  unfold sendVotes
  rw [if_pos (by simp [h])]

/-- APPLY of a copy of this device alone, which the quorum lets it check and which passes, marks the copy. -/
theorem applyCmd_passes {s : State} {c : Cmd} {z : FrozenCopy} (hph : c.phase = 0)
    (hz : (fnOf s c.fn).frozen = some z) (hid : z.cmd = c.id) (hg : isGroup c.devices = false)
    (hq : quorumAgrees s s.keels.ballot = true) (h : copyFails (newBallot s) c.fn c.devices z.copy = none) :
    applyCmd s c = setCmd (seekLofts (modFn (newBallot s) c.fn fun y => { y with frozen := some { z with passed := true } })
      z.copy) { c with phase := 1 } := by
  unfold applyCmd
  rw [if_neg (by omega), hz]
  dsimp only
  rw [if_neg (not_not.mpr hid), if_pos hq]
  unfold checkApply
  rw [h]
  dsimp only
  rw [sendVotes_single hg, if_neg (by simp [hg])]

/-- APPLY that froze nothing and is refused on its operands: LAST_STATUS, and the vote against its group. -/
theorem applyCmd_refused {s : State} {c : Cmd} {st d : Nat} (hph : c.phase = 0) (hop : c.opcode = 0x0B)
    (hz : (fnOf s c.fn).frozen = none) (h : applyFault s c = some (st, d)) : ∃ t, KeepsConfig s t ∧
      applyCmd s c = endCmd (modFn t c.fn fun y => { y with lastStatus := st }) c st
        (if st ≠ 3 ∧ isGroup c.devices = true ∧ bitOf c.devices s.part.device = true then 0xFF else d) 0 := by
  have hm : ∀ t, markApply t c st = modFn t c.fn fun y => { y with lastStatus := st } := fun t => by
    unfold markApply; rw [if_pos hop]
  unfold applyCmd
  rw [if_neg (by omega), hz]
  unfold refuseApply
  rw [h]
  dsimp only
  by_cases hst : st = stDeferred
  · exact ⟨s, .refl s, by rw [if_pos hst, hm, if_neg (fun hn => hn.1 hst)]⟩
  · refine ⟨sendVotes s c false, (KeepsConfig.refl s).sendVotes, ?_⟩
    have h3 : st ≠ 3 := hst
    rw [if_neg hst, hm]
    simp only [h3, ne_eq, not_false_eq_true, true_and]

/-! ### What the commands that stage change -/

/-- WINDOW that passes its checks stages its entries. -/
theorem window_stages {s : State} {id : Nat} {c : Cmd} (hw : AtWork s id 0x0A c) (h : windowFail s c = none) :
    Completes (.window id) s fun u =>
      u.regs = s.regs ∧ u.mem = s.mem ∧ u.contexts = s.contexts ∧ Ended u id 0 0 0 ∧
      ∀ i, i < c.field 0x0A 2 → ∀ n, n ≤ 54 ∨ (60 ≤ n ∧ n ≤ 63) →
        (stagedWord u (fnOf u c.fn).open_ (offWindow c.ctx (c.field 8 1 + i))).getLsbD n =
          ((listedWindows s c).getD i 0).testBit n := by
  refine hw.completes (f := windowCmd s) rfl ?_
  rw [windowCmd_passes h, ← findCmd_id hw.found]
  refine ⟨by simp, by simp, by simp, ended_of_endCmd (modFn_findCmd.trans hw.listed), fun i hi n hn => ?_⟩
  rw [chargeWork_fnOf, endCmd_fnOf, fnOf_modFn]
  have hput := fun t => stagedWord_putAll (s := t) (offWindow_injective c.ctx (c.field 8 1)) (getLsbD_windowMask hn)
    (by omega) (listedWindows s c) 0 i (fnOf s c.fn).open_ (length_listedWindows.symm ▸ hi)
  rw [Nat.zero_add] at hput
  exact hput _

/-- PUBLISH that passes its checks stages one publish. -/
theorem publish_stages {s : State} {id : Nat} {c : Cmd} {d : TableDesc} {r : State} (hw : AtWork s id 0x0C c)
    (hd : d = readTableDesc (hostRead s c.fn (c.field 8 8) 64)) (hr : r = releaseVersions s d.table)
    (h : publishFault r c = none) : Completes (.publish id) s fun u =>
      u.tables = r.tables ∧ u.regs = r.regs ∧ Ended u id 0 0 0 ∧
      ∃ m g, (fnOf u c.fn).open_.publishes = (fnOf r c.fn).open_.publishes ++ [{ desc := d, shards := m, mig := g }] ∧
        m.length = d.shards := by
  refine hw.completes (f := publishCmd s) rfl ?_
  obtain ⟨m, g, hm, hp⟩ := publishCmd_passes hd hr h
  obtain ⟨l, hk⟩ := releaseVersions_config s d.table
  rw [hp, ← findCmd_id hw.found]
  have hc : findCmd r c.id = some c := hr ▸ (hk.findCmd c.id).trans hw.listed
  refine ⟨by simp, by simp, ended_of_endCmd (d := c) (modFn_findCmd.trans hc), m, g, ?_, hm⟩
  rw [chargeWork_fnOf, endCmd_fnOf, fnOf_modFn]
  rfl

/-- ADDENDUM whose image stands where it may ends with the check that the image fails, or stages it. -/
theorem addendum_stages {s : State} {id : Nat} {c : Cmd} (hw : AtWork s id 0x13 c) (h : addendumPlace s c = true) :
    Completes (.addendum id) s fun u =>
      match addendumFault s (imageBytes s c) with
      | some d => { u with cmds := s.cmds } = s ∧ Ended u id 1 d 0
      | none =>
        let a := readAddendum (imageBytes s c)
        (fnOf u c.fn).open_.addendum = some a ∧ u.addendum = s.addendum ∧ u.lowerRev = s.lowerRev ∧
        u.flash.floor = s.flash.floor ∧ u.regs = s.regs ∧
        u.loadBank = some a ∧ (s.flash.present = true →
          (if s.flash.activeSlot = 0 then u.flash.addendum1 else u.flash.addendum0).held = some a) ∧ Ended u id 0 0 a.seq := by
  cases hf : addendumFault s (imageBytes s c) with
  | some d => exact hw.completes_ended (f := addendumCmd s) rfl (addendumCmd_fails h hf)
  | none =>
    refine hw.completes (f := addendumCmd s) rfl ?_
    obtain ⟨f, hs, hfloor, hheld⟩ := storeAddendum_eq s (readAddendum (imageBytes s c))
    rw [addendumCmd_passes h hf, hs, ← findCmd_id hw.found]
    refine ⟨by simp, by simp, by simp, by simpa using hfloor, by simp, by simp, by simpa using hheld, ?_⟩
    exact ended_of_endCmd (d := c) (modFn_findCmd.trans hw.listed)

/-- APPLY of a copy of this device alone that passes its checks marks it, and the rest of the configuration stands. -/
theorem apply_passes {s : State} {id : Nat} {c : Cmd} {z : FrozenCopy} (hw : AtWork s id 0x0B c) (hph : c.phase = 0)
    (hz : (fnOf s c.fn).frozen = some z) (hid : z.cmd = c.id) (hg : isGroup c.devices = false)
    (hq : quorumAgrees s s.keels.ballot = true) (h : copyFails (newBallot s) c.fn c.devices z.copy = none) :
    Completes (.apply id) s fun u => u.regs = s.regs ∧ u.tables = s.tables ∧
      (fnOf u c.fn).open_ = (fnOf s c.fn).open_ ∧ (fnOf u c.fn).frozen = some { z with passed := true } := by
  refine hw.completes (f := applyCmd s) rfl ?_
  rw [applyCmd_passes hph hz hid hg hq h]
  let t := modFn (newBallot s) c.fn fun y => { y with frozen := some { z with passed := true } }
  have hk : KeepsConfig t (seekLofts t z.copy) := (KeepsConfig.refl t).seekLofts
  have ht : fnOf t c.fn = { fnOf s c.fn with frozen := some { z with passed := true } } := fnOf_modFn
  exact ⟨hk.regs.trans (modFn_regs (s := newBallot s)), hk.tables.trans (modFn_tables (s := newBallot s)),
    (hk.open_ c.fn).trans (by rw [ht]), (hk.frozen c.fn).trans (by rw [ht])⟩

/-- APPLY that is refused on its operands records its status; the open copy stays staged. -/
theorem apply_refused {s : State} {id : Nat} {c : Cmd} {st d : Nat} (hw : AtWork s id 0x0B c) (hph : c.phase = 0)
    (hz : (fnOf s c.fn).frozen = none) (h : applyFault s c = some (st, d)) :
    Completes (.apply id) s fun u => u.regs = s.regs ∧ u.tables = s.tables ∧
      (fnOf u c.fn).open_ = (fnOf s c.fn).open_ ∧ (fnOf u c.fn).frozen = none ∧ (fnOf u c.fn).lastStatus = st ∧
      Ended u id st (if st ≠ 3 ∧ isGroup c.devices = true ∧ bitOf c.devices s.part.device = true then 0xFF else d) 0 := by
  refine hw.completes (f := applyCmd s) rfl ?_
  obtain ⟨t, hk, ht⟩ := applyCmd_refused hph hw.opcode hz h
  rw [ht, ← findCmd_id hw.found]
  have hl : findCmd t c.id = some c := (hk.findCmd c.id).trans hw.listed
  refine ⟨by simp [hk.regs], by simp [hk.tables], by simp [hk.open_], by simp [hk.frozen, hz], by simp, ?_⟩
  exact ended_of_endCmd (modFn_findCmd.trans hl)

end Sys2Proof.Machine

open Sys2Proof Sys2Proof.Machine

/-- Settles O48, command by command: what each stages, and what it leaves as it is. -/
theorem stagingCommands : Obligations.StagingCommands := by
  intro s id c
  exact ⟨window_stages, fun hw st d h => hw.completes_ended (f := windowCmd s) rfl (windowCmd_fails h),
    fun hw => publish_stages hw rfl rfl, addendum_stages, fun z => apply_passes, fun st d => apply_refused⟩
end

section
/-! SUPPORT. The end of a staged copy: votes of a group apply, the deadline of a missing vote, and the boundary at which a copy
takes effect. -/

namespace Sys2Proof.Machine

open Sys2Proof

/-! ### The end of an APPLY -/

section endApply

variable {s : State} {fn cmd status detail result : Nat}

/-- The copy of an APPLY that ends is frozen no more, and LAST_STATUS is its status. -/
theorem endApply_fnOf :
    fnOf (endApply s fn cmd status detail result) fn = { fnOf s fn with frozen := none, lastStatus := status } := by
  unfold endApply
  dsimp only
  split
  · rw [endCmd_fnOf, fnOf_modFn]
  · rw [fnOf_modFn]

@[simp] theorem endApply_regs : (endApply s fn cmd status detail result).regs = s.regs := by
  unfold endApply
  dsimp only
  split <;> rfl

@[simp] theorem endApply_tables : (endApply s fn cmd status detail result).tables = s.tables := by
  unfold endApply
  dsimp only
  split <;> rfl

@[simp] theorem endApply_mem : (endApply s fn cmd status detail result).mem = s.mem := by
  unfold endApply
  dsimp only
  split <;> rfl

@[simp] theorem endApply_votes : (endApply s fn cmd status detail result).votes = s.votes := by
  unfold endApply
  dsimp only
  split <;> rfl

/-- The command of an APPLY that ends is found ended. -/
theorem ended_endApply {d : Cmd} (h : findCmd s cmd = some d) :
    Ended (endApply s fn cmd status detail result) cmd status detail result := by
  obtain rfl := findCmd_id h
  refine ⟨{ d with stage := .ended, status := status, detail := detail, result := result }, ?_, rfl, rfl, rfl, rfl⟩
  unfold endApply
  dsimp only
  rw [modFn_findCmd, h]
  exact findCmd_endCmd (d := d) h

end endApply

/-! ### Votes -/

/-- The state after the vote of another device has arrived. -/
def withVote (s : State) (d group boundary : Nat) (pass : Bool) : State :=
  { s with votes := s.votes ++ [{ device := d, group := group, boundary := boundary, pass := pass, at_ := now s }] }

/-- An APPLY that the failing vote of a device concerns ends as rejected. -/
def voteEnds (d : Nat) (s : State) (e : Nat × FrozenCopy) : State :=
  if bitOf e.2.devices d then endApply s e.1 e.2.cmd stRejected 0xFF 0 else s

theorem exec_groupVote {d group boundary : Nat} {pass : Bool} {s : State} (hd : d < 8) (ho : d ≠ s.part.device) :
    exec (.groupVote d group boundary pass) s = .next (if pass then withVote s d group boundary pass
      else (groupApplies s group boundary).foldl (voteEnds d) (withVote s d group boundary pass)) := by
  change execGroupVote d group boundary pass s = _
  unfold execGroupVote
  rw [if_neg (by omega)]
  cases pass <;> rfl

/-- A vote ends copies, and changes nothing of the registers, the tables and the votes. -/
structure KeepsVotes (s u : State) : Prop where
  regs : u.regs = s.regs
  tables : u.tables = s.tables
  votes : u.votes = s.votes

theorem keepsVotes_voteEnds {z s : State} {d : Nat} {e : Nat × FrozenCopy} (h : KeepsVotes z s) :
    KeepsVotes z (voteEnds d s e) := by
  unfold voteEnds
  split
  · exact ⟨endApply_regs.trans h.regs, endApply_tables.trans h.tables, endApply_votes.trans h.votes⟩
  · exact h

/-- The only function's copy of a group is the one that a vote concerns. -/
theorem groupApplies_single {s : State} {fn : Nat} {z : FrozenCopy} (hz : (fnOf s fn).frozen = some z)
    (hs : s.fns = [(fn, fnOf s fn)]) (hg : isGroup z.devices = true) : groupApplies s z.group z.boundary = [(fn, z)] := by
  unfold groupApplies
  rw [hs]
  simp [hz, hg]

theorem groupVote_completes {s : State} {fn d : Nat} {z : FrozenCopy} {pass : Bool} (hz : (fnOf s fn).frozen = some z)
    (hd : d < 8) (ho : d ≠ s.part.device) : Completes (.groupVote d z.group z.boundary pass) s fun u =>
      (∃ v, u.votes = s.votes ++ [v] ∧ v.device = d ∧ v.group = z.group ∧ v.boundary = z.boundary ∧ v.pass = pass) ∧
      u.regs = s.regs ∧ u.tables = s.tables ∧ (pass = true → fnOf u fn = fnOf s fn) ∧
      (pass = false → s.fns = [(fn, fnOf s fn)] → isGroup z.devices = true → bitOf z.devices d = true →
        (fnOf u fn).frozen = none ∧ (fnOf u fn).lastStatus = 1) := by
  refine ⟨_, exec_groupVote hd ho, ?_⟩
  cases pass with
  | true => exact ⟨⟨_, rfl, rfl, rfl, rfl, rfl⟩, rfl, rfl, fun _ => rfl, fun h => Bool.noConfusion h⟩
  | false =>
    have hk : KeepsVotes (withVote s d z.group z.boundary false)
        ((groupApplies s z.group z.boundary).foldl (voteEnds d) (withVote s d z.group z.boundary false)) :=
      foldl_keeps (fun _ _ => keepsVotes_voteEnds) _ ⟨rfl, rfl, rfl⟩
    refine ⟨⟨_, hk.votes, rfl, rfl, rfl, rfl⟩, hk.regs, hk.tables, fun h => Bool.noConfusion h, fun _ hs hg hb => ?_⟩
    rw [if_neg Bool.false_ne_true, groupApplies_single hz hs hg, List.foldl_cons, List.foldl_nil]
    unfold voteEnds
    rw [if_pos hb, endApply_fnOf]
    exact ⟨rfl, rfl⟩

/-- A vote that is missing at the deadline ends a group APPLY as deferred. -/
theorem groupVoteDeadline_completes {s : State} {fn : Nat} {z : FrozenCopy} (hz : (fnOf s fn).frozen = some z)
    (hg : isGroup z.devices = true) (hb : z.boundary < now s + 500000) (hv : votesIn s z = false) :
    Completes (.groupVoteDeadline fn) s fun u => (fnOf u fn).frozen = none ∧ (fnOf u fn).lastStatus = 3 ∧
      u.regs = s.regs ∧ u.tables = s.tables ∧ ∀ d, findCmd s z.cmd = some d → Ended u z.cmd 3 0 0 := by
  refine ⟨endApply s fn z.cmd stDeferred 0 0, ?_, ?_⟩
  · change execGroupVoteDeadline fn s = _
    unfold execGroupVoteDeadline
    rw [hz]
    dsimp only
    rw [if_neg (by simp [hg, hv, hb])]
  · dsimp only
    rw [endApply_fnOf]
    exact ⟨rfl, rfl, endApply_regs, endApply_tables, fun d => ended_endApply⟩

/-! ### The boundary -/

/-- A copy of this device alone that passed takes effect at its boundary. -/
theorem exec_stagedApplyBoundary {s : State} {fn : Nat} {z : FrozenCopy} (hz : (fnOf s fn).frozen = some z)
    (hg : isGroup z.devices = false) (hp : z.passed = true) (hn : z.boundary = now s) (hb : isBoundary (now s) = true) :
    exec (.stagedApplyBoundary fn) s =
      .next (endApply (applyCopy s fn z.copy) fn z.cmd stOk 0 (bits z.boundary 51 20)) := by
  change execStagedApplyBoundary fn s = _
  unfold execStagedApplyBoundary
  rw [hz]
  dsimp only
  rw [if_neg (by simp [hp, hb, hn, hg]), if_neg (by simp [hg])]

/-- A copy that stages bits of the pace register overlays them on its word. -/
theorem applyCopy_pace (s : State) (fn : Nat) (m v : DWord) :
    applyCopy s fn { StagedCopy.zero with regs := [(offPace, m, v)] } =
      setRaw s offPace (overlay (rawReg s offPace) m v) := rfl

/-- A copy that publishes a version makes it current, and leaves every register as it was. -/
theorem applyCopy_publish {s : State} {fn : Nat} {p : Publish} (hv : findVersion s p.desc.table p.desc.version = none)
    (ht : (tableOf s p.desc.table).versions = [] ∨ (tableOf s p.desc.table).current < p.desc.version) :
    (tableOf (applyCopy s fn { StagedCopy.zero with publishes := [p] }) p.desc.table).current = p.desc.version ∧
      (applyCopy s fn { StagedCopy.zero with publishes := [p] }).regs = s.regs := by
  let t := modTable s p.desc.table fun T => T.newVersion fn p
  let m := fillMoved t p.desc.table { desc := p.desc, shards := p.shards, mig := p.mig }
  have hc : applyCopy s fn { StagedCopy.zero with publishes := [p] } = releaseVersions m p.desc.table := by
    change applyPublish fn s p = _
    unfold applyPublish
    dsimp only
    rw [hv]
    dsimp only
    rw [if_neg (fun h => ht.elim h.1 (by omega))]
  have hm : KeepsConfig t m := (KeepsConfig.refl t).fillMoved
  obtain ⟨l, hr⟩ := releaseVersions_config m p.desc.table
  rw [hc]
  refine ⟨?_, hr.regs.trans hm.regs⟩
  have hcur : (tableOf m p.desc.table).current = p.desc.version := by
    unfold tableOf
    rw [hm.tables]
    exact congrArg TableState.current (tableOf_modTable (s := s) (f := fun T => T.newVersion fn p))
  unfold tableOf
  rw [hr.tables]
  exact (congrArg TableState.current tableOf_modTable).trans hcur

end Sys2Proof.Machine

open Sys2Proof Sys2Proof.Machine

/-- Settles O49: at its boundary a copy takes effect and its APPLY ends; a failing or a missing vote only ends it. -/
theorem stagedCopiesTakeEffect : Obligations.StagedCopiesTakeEffect := by
  intro s fn z hz
  refine ⟨fun hg hp hn hb => ?_, fun d pass hd ho => groupVote_completes hz hd ho, groupVoteDeadline_completes hz⟩
  have hexec := exec_stagedApplyBoundary hz hg hp hn hb
  constructor
  · intro m v hc
    rw [hc, applyCopy_pace] at hexec
    refine ⟨_, hexec, ?_, fun o ho => ?_, ?_, ?_, endApply_mem⟩
    · unfold rawReg
      rw [endApply_regs]
      exact rawReg_setRaw
    · rw [endApply_regs]
      exact mget?_mset_other _ _ ho
    · rw [endApply_fnOf]
    · rw [endApply_fnOf]
      rfl
  · intro p hc hv ht
    rw [hc] at hexec
    obtain ⟨hcur, hregs⟩ := applyCopy_publish (fn := fn) hv ht
    refine ⟨_, hexec, ?_, ?_, ?_, endApply_regs.trans hregs⟩
    · unfold tableOf
      rw [endApply_tables]
      exact hcur
    · rw [endApply_fnOf]
    · rw [endApply_fnOf]
      rfl
end

section
/-! SUPPORT. What every word of a thread comes to: the check of its fields, then its issue. The statement about the words that do not
issue follows from it. -/

namespace Sys2Proof.Machine

open Sys2Proof

/-! ### What a word comes to -/

/-- The outcome `r` of a word: its issue; its refusal, where lowering has not passed it; or its thread held for a place among its
tensor operations (R137), where the word is legal and would issue. -/
inductive WordComesTo (c : Instr) (t : ThreadId) (k : Common) (s : State) (r : Host.Outcome State Fault Refusal) : Prop
  | issue (eff off : State → State) (h : r = issueWord c t k eff off s)
  | refused (hp : ¬ Passed c s) (h : r = .refused .staticallyIllegal)
  | held (hw : c.wf = true) (hi : issues c s t k.tag = true)

section Words

variable {t : ThreadId} {k : Common} {s : State}

theorem issueWord_comesTo {c : Instr} {eff off : State → State} : WordComesTo c t k s (issueWord c t k eff off s) :=
  .issue eff off rfl

theorem regWord_comesTo {c : Instr} {f : Thread → Thread} : WordComesTo c t k s (regWord c t k f s) := issueWord_comesTo

theorem stateWord_comesTo {c : Instr} {f : State → State} : WordComesTo c t k s (stateWord c t k f s) := issueWord_comesTo

/-- A vector word is refused where its group has no vector context (R101), and else issues. -/
theorem vectorWord_comesTo {c : Instr} {f : State → State} (hv : vectorThread c = some t) :
    WordComesTo c t k s (vectorWord c t k f s) := by
  unfold vectorWord
  split
  · next h =>
    refine .refused (fun hp => ?_) rfl
    have hvec : (groupOf s t).vec = true := hp.2.1 t hv
    simp [hvec] at h
  · exact stateWord_comesTo

/-- The lane operations that a vector word counts are part of its effect. -/
theorem laneWord_comesTo {c : Instr} {f : State → State} (hv : vectorThread c = some t) :
    WordComesTo c t k s (laneWord c t k f s) := vectorWord_comesTo hv

theorem tensorWord_comesTo {c : Instr} {f : State → State} : WordComesTo c t k s (tensorWord c t k f s) := by
  unfold tensorWord
  split
  · next h => exact .held h.1 h.2.1
  · exact stateWord_comesTo

theorem execBr_comesTo {o : CArgs} : WordComesTo (.br t k o) t k s (execBr t k o s) := by
  unfold execBr
  split
  · next h => exact .refused (fun hp => absurd hp.2.2 (Nat.not_lt.mpr h.2)) rfl
  · exact issueWord_comesTo

theorem execLoop_comesTo {o : CArgs} : WordComesTo (.loop t k o) t k s (execLoop t k o s) := by
  unfold execLoop
  split
  · next h =>
    refine .refused (fun hp => ?_) rfl
    obtain ⟨hcode, hforward, hdepth⟩ := hp.2.2
    omega
  · exact issueWord_comesTo

theorem execHalt_comesTo {o : CArgs} : WordComesTo (.halt t k o) t k s (execHalt t k o s) := by
  unfold execHalt; exact issueWord_comesTo

theorem execTake_comesTo {o : IArgs} : WordComesTo (.take t k o) t k s (execTake t k o s) := by
  unfold execTake; exact issueWord_comesTo

/-- An MMA is refused where the part's grade has not its rig or its format (R3). -/
theorem execMma_comesTo {o : MArgs} : WordComesTo (.mma t k o) t k s (execMma t k o s) := by
  unfold execMma
  split
  · next h =>
    refine .refused (fun hp => ?_) rfl
    obtain ⟨hgrade, hform, -⟩ := h
    rcases hp.2.2 with hT | ⟨hrig, hfmt⟩
    · rw [hgrade] at hT; cases hT
    · exact hform.elim hrig hfmt
  · exact tensorWord_comesTo

/-- Every word of a thread: it is checked and issues, after the checks of its own kind. -/
theorem exec_comesTo {c : Instr} (hw : wordOf c = some (t, k)) : WordComesTo c t k s (exec c s) := by
  cases c with
  | br => cases hw; exact execBr_comesTo
  | loop => cases hw; exact execLoop_comesTo
  | mma => cases hw; exact execMma_comesTo
  | tcopy | tscadd => cases hw; unfold exec; exact tensorWord_comesTo
  | vadd | vsub | vmul | vfma | vmin | vmax | vcmp | vsel | vexp2 | vrcp | vrsq | viadd | visub | vimul | vlogic | vrsum | vrmax
  | vperm | vbcast | vext | vflag | vmov | vcvt | vmaxabs => cases hw; unfold exec; exact laneWord_comesTo rfl
  | vld | vst => cases hw; unfold exec; exact vectorWord_comesTo rfl
  | halt => cases hw; exact execHalt_comesTo
  | take => cases hw; exact execTake_comesTo
  | nop | lrd | add | sub | mul | mulhu | mulhs | divu | remu | divs | rems | and | or | xor | shl | shr | sra | minmax | addi
  | andi | ori | xori | shifti | movi | cmp | cmpi | sel | plog | fadd | fmul | ffma | fminmax | fcmp | fcvt | park =>
    cases hw; unfold exec; exact regWord_comesTo
  | twait | ld | st | atom | atomp | fence | tmaxabs | sig | sigw | watch | unwatch | token | delay | time | reel | dld | dstr
  | dsetw | dgetw => cases hw; unfold exec; exact stateWord_comesTo
  | _ => cases hw

/-! ### Words that do not issue -/

/-- A word that sets a field which its format or its row does not allow is refused (R111). -/
theorem exec_of_not_wf {c : Instr} (hw : wordOf c = some (t, k)) (hf : c.wf = false) :
    exec c s = .refused .staticallyIllegal := by
  cases exec_comesTo (s := s) hw with
  | issue eff off h => rw [h]; unfold issueWord; simp [hf]
  | refused _ h => exact h
  | held hwf _ => rw [hf] at hwf; cases hwf

/-- A word that lowering has passed and that does not issue now leaves the state as `notIssued` has it. -/
theorem exec_of_not_issues {c : Instr} (hw : wordOf c = some (t, k)) (hp : Passed c s) (hi : issues c s t k.tag = false) :
    exec c s = .next (notIssued c s t k.tag) := by
  cases exec_comesTo (s := s) hw with
  | issue eff off h => rw [h]; unfold issueWord; simp [hp.1, hi]
  | refused hn _ => exact absurd hp hn
  | held _ hj => rw [hi] at hj; cases hj

theorem notIssued_of_not_arrives {c : Instr} {tag : BitVec 12} (ha : arrives s t tag = false) : notIssued c s t tag = s := by
  unfold notIssued; simp [ha]

/-- A thread that arrives at a word which waits for a DLD is held for it, and nothing else changes (R129). -/
theorem notIssued_of_awaitsDld {c : Instr} {tag : BitVec 12} {req : Nat} (ha : arrives s t tag = true)
    (hd : awaitsDld c s t = some req) :
    notIssued c s t tag = { s with threads := mset s.threads t { theThread s t with run := .waitRecord req } } := by
  have hc : canIssue s t = true := by unfold arrives at ha; simp_all
  unfold notIssued holdAt
  rw [if_pos ha, hd]
  exact modThread_eq (threadOf_of_canIssue hc).1

end Words

end Sys2Proof.Machine

open Sys2Proof Sys2Proof.Machine

/-- Settles O9: an ill-formed word is refused before it issues, and a word that does not issue does what `notIssued` says. -/
theorem wordsThatDoNotIssue : Obligations.WordsThatDoNotIssue := by
  refine ⟨fun c t k s hw hf _ => exec_of_not_wf hw hf, fun c t k s hw hp => ⟨fun ha => ?_, fun req ha hd => ?_⟩⟩
  · have hi : issues c s t k.tag = false := by unfold issues; simp [ha]
    rw [exec_of_not_issues hw hp hi, notIssued_of_not_arrives ha]
  · have hi : issues c s t k.tag = false := by unfold issues; simp [hd]
    rw [exec_of_not_issues hw hp hi, notIssued_of_awaitsDld ha hd]
end

section
/-! SUPPORT. A state that refutes the statement about faults and repair. A cell that retires drops, by number, the requests that the
feeders of its rigs have under way (R31, R247), and a request of a thread that is dropped lets its thread go on. In the states of the
statement nothing says that what an operation has under way are requests of its feeders. -/

namespace Sys2Proof.Machine

open Sys2Proof

/-- Threads that are the same are the same by name. -/
theorem theThread_of_threads_eq {s u : State} (h : u.threads = s.threads) (t : ThreadId) : theThread u t = theThread s t := by
  unfold theThread threadOf; rw [h]

def strayThread : ThreadId := { ctx := 0, cell := 0, group := 0, thread := 0 }

/-- An operation that holds spars 0 and 1 of block 0 of region 0, and has request 0 under way at its feeder A. -/
def strayOp : TensorOp :=
  { (default : TensorOp) with
    region := 0, cell := 0, stage := .granted 0 2 0 0
    reading := [(0, { side := 0, spar := 0, pair := 0, pos := 0, off := 0, addr := 0, bytes := 0 })] }

/-- The state after reset with that operation; request 0 is a load of a thread, which waits for it. -/
def strayRead : State :=
  { State.reset with
    threads := [(strayThread, { theThread State.reset strayThread with run := .waitReq 0 })]
    requests := [{ (default : Request) with id := 0, origin := .thread strayThread, kind := .load 4 false 0 }]
    nextReq := 1, ops := [strayOp], nextOp := 1 }

/-- What is known to hold of every reachable state does not shut the state out. -/
theorem strayRead_sound : Sound strayRead where
  mem := by decide
  requests := ⟨by decide, by decide⟩
  ops := ⟨by decide, by decide⟩
  cmds := ⟨by decide, by decide⟩
  transfers := ⟨by decide, by decide⟩

theorem strayRead_run : (theThread strayRead strayThread).run = .waitReq 0 := by rfl

/-- Cell 0 of region 0 retires; its region has spares left. -/
theorem exec_cellRetire_strayRead :
    exec (.cellRetire 0 0) strayRead = .next (retireCell strayRead 0 0) ∧ spareLeft strayRead 0 = true :=
  ⟨by rfl, by decide⟩

/-- The load is gone with the operation's reads, and its thread has gone on: it stands at the end of its code. -/
theorem retireCell_strayRead :
    (retireCell strayRead 0 0).requests = [] ∧ (theThread (retireCell strayRead 0 0) strayThread).run = .ended :=
  ⟨by rfl, by rfl⟩

end Sys2Proof.Machine

open Sys2Proof Sys2Proof.Machine

/-- Refutes O57: that a retirement with a spare left changes no thread fails on `strayRead`, where an operation of the cell's block
has the request of a waiting thread under way. The state is `Sound` (`strayRead_sound`); the steps of the model itself enter only
requests of its feeders there (`issueFeed`), and that is the premise which the statement lacks. -/
theorem not_faultsAndRepair : ¬ Obligations.FaultsAndRepair := by
  intro h
  obtain ⟨hretires, -⟩ := h strayRead
  obtain ⟨u, hu, -, -, hspare, -⟩ := hretires 0 0 0 (by decide) (by decide) (by decide) (by decide) (by decide) (by decide)
  obtain ⟨hexec, hleft⟩ := exec_cellRetire_strayRead
  obtain ⟨-, hthreads⟩ := hspare hleft
  cases hu.symm.trans hexec
  have hsame : (theThread (retireCell strayRead 0 0) strayThread).run = (theThread strayRead strayThread).run :=
    congrArg Thread.run (theThread_of_threads_eq hthreads strayThread)
  rw [retireCell_strayRead.2, strayRead_run] at hsame
  cases hsame
end

section
/-! SUPPORT. Fresh numbers and the passing of time: what a step keeps of `Sound`, and what a nanosecond with no command waiting
changes. -/

namespace Sys2Proof.Machine

open Sys2Proof

/-! ### Fresh numbers -/

/-- `Sound` speaks of memory and of the numbered lists only, and every operation keeps those. -/
theorem Keeps.sound {s u : State} (hk : Keeps s u) (hs : Sound s) : Sound u where
  mem := hk.mem hs.mem
  requests := hk.requests hs.requests
  ops := hk.ops hs.ops
  cmds := hk.cmds hs.cmds
  transfers := hk.transfers hs.transfers

/-- Taking a command from the queue, and reading the flash, leave what `Sound` speaks of as it is. -/
theorem Sound.withQueue {s : State} (hs : Sound s) (q : List Instr) (f : Flash) :
    Sound { s with pending := q, flash := f } :=
  ⟨hs.mem, hs.requests, hs.ops, hs.cmds, hs.transfers⟩

/-! ### Time -/

/-- A signal of a change of the serving port changes no clock. -/
@[simp] theorem signalServing_clock (s : State) : (signalServing s).clock = s.clock := by
  unfold signalServing signalVector
  split
  · split
    · rfl
    · split <;> rfl
  · rfl

theorem signalServing_none {s : State} (h : s.board.serveVector = none) : signalServing s = s := by
  unfold signalServing
  rw [h]
  split
  · next hv => cases hv
  · rfl

/-- With always-on power, time passes and the device may signal. -/
theorem idle_eq {s : State} (h : s.board.vaon = true) : idle s = signalServing { s with
    clock := s.clock.tick
    life := { s.life with powerOnNs := s.life.powerOnNs + (if s.clock.midStep then 0 else 1) } } := by
  unfold idle; rw [if_pos h]

/-- A count that catches up takes a value in the middle of the nanosecond. -/
theorem Clock.tick_midStep {c : Clock} (h : c.midStep = true) : c.tick = { c with time := c.time + 1, half := true } := by
  unfold Clock.tick; rw [if_pos h]

theorem Clock.midStep_iff {c : Clock} : c.midStep = true ↔ c.running = true ∧ 0 < c.behindNs ∧ c.half = false := by
  simp [Clock.midStep, and_assoc]

theorem Clock.wholeStep_bootCount (c : Clock) : c.wholeStep.bootCount = c.bootCount + 1 := by
  unfold Clock.wholeStep
  dsimp only
  split
  · rfl
  · split <;> rfl

/-- At the end of a nanosecond the count moves on by one, or stands while it is not running or is held (R45, R398). -/
theorem Clock.wholeStep_time (c : Clock) : c.wholeStep.time = c.time + 1 ∨
    c.wholeStep.time = c.time ∧ (c.running = false ∨ 0 < c.holdNs) := by
  unfold Clock.wholeStep
  dsimp only
  split
  · next hr => exact .inr ⟨rfl, .inl (by simpa using hr)⟩
  · split
    · next hh => exact .inr ⟨rfl, .inr hh⟩
    · exact .inl rfl

end Sys2Proof.Machine

open Sys2Proof Sys2Proof.Machine

/-- Settles O5: every operation keeps what `Sound` speaks of, and a step is one command or a nanosecond. -/
theorem stepKeepsNumbersFresh : Obligations.StepKeepsNumbersFresh := by
  intro s u hs h
  rcases step_keeps h with hk | ⟨-, hk⟩
  · exact hk.sound (hs.withQueue _ s.flash)
  · exact hk.sound (hs.withQueue _ _)

/-- Settles O2: a step with no command waiting is a tick of the clock, in the middle of a nanosecond or at its end. -/
theorem idleStepPassesTime : Obligations.IdleStepPassesTime := by
  intro s hp hv
  refine ⟨idle s, step_nil hp, ?_, fun hn => ?_⟩
  · rw [idle_eq hv, signalServing_clock]
    dsimp only
    by_cases hm : s.clock.midStep = true
    · obtain ⟨-, hbehind, hhalf⟩ := Clock.midStep_iff.mp hm
      rw [Clock.tick_midStep hm]
      exact .inr ⟨rfl, rfl, hbehind, hhalf, rfl⟩
    · have ht : s.clock.tick = s.clock.wholeStep := by unfold Clock.tick; rw [if_neg hm]
      rw [ht]
      exact .inl ⟨s.clock.wholeStep_bootCount, s.clock.wholeStep_time⟩
  · rw [idle_eq hv, signalServing_none (by exact hn)]
end

section
/-! SUPPORT. What leaves the requests alone: memory, the clock, the list of requests and its next number stay as they are while
credits move, threads wake or end, and tasks are handed out. -/

namespace Sys2Proof.Machine

open Sys2Proof

/-- No request has changed, no byte of memory, and no time has passed. -/
structure KeepsRequests (s u : State) : Prop where
  mem : u.mem = s.mem
  clock : u.clock = s.clock
  requests : u.requests = s.requests
  nextReq : u.nextReq = s.nextReq

namespace KeepsRequests

variable {z s u : State}

theorem refl (s : State) : KeepsRequests s s := ⟨rfl, rfl, rfl, rfl⟩

theorem trans (a : KeepsRequests z s) (b : KeepsRequests s u) : KeepsRequests z u :=
  ⟨b.mem.trans a.mem, b.clock.trans a.clock, b.requests.trans a.requests, b.nextReq.trans a.nextReq⟩

/-- An update of other fields of the state. -/
theorem other (h : KeepsRequests z s) (hm : u.mem = s.mem) (hc : u.clock = s.clock) (hr : u.requests = s.requests)
    (hn : u.nextReq = s.nextReq) : KeepsRequests z u := h.trans ⟨hm, hc, hr, hn⟩

theorem ite {a b : State} {c : Prop} [Decidable c] (ha : KeepsRequests z a) (hb : KeepsRequests z b) :
    KeepsRequests z (if c then a else b) := by
  split
  · exact ha
  · exact hb

theorem foldl {α : Type} {f : State → α → State} {l : List α}
    (hf : ∀ s a, KeepsRequests z s → KeepsRequests z (f s a)) (h : KeepsRequests z s) :
    KeepsRequests z (l.foldl f s) := foldl_keeps (P := KeepsRequests z) hf l h

theorem findRequest (h : KeepsRequests s u) (i : Nat) : findRequest u i = Machine.findRequest s i := by
  unfold Machine.findRequest; rw [h.requests]

/-- The same request is set before and after. -/
theorem setRequest {q : Request} (h : KeepsRequests s u) : KeepsRequests (setRequest s q) (setRequest u q) :=
  ⟨h.mem, h.clock, by unfold Machine.setRequest; rw [h.requests], h.nextReq⟩

/-! ### Credits -/

theorem addStall {p c n : Nat} (h : KeepsRequests z s) : KeepsRequests z (addStall s p c n) := h.other rfl rfl rfl rfl

theorem reserve {x : AdmPoint × Resource × Nat} (h : KeepsRequests z s) : KeepsRequests z (reserve s x) :=
  ite (h.other rfl rfl rfl rfl) (h.other rfl rfl rfl rfl)

theorem giveBack {res : Resource} {n : Nat} (h : KeepsRequests z s) : KeepsRequests z (giveBack s res n) := by
  obtain ⟨d, l, he⟩ := giveBack_eq s res n
  exact he ▸ h.other rfl rfl rfl rfl

theorem sweepWakes (h : KeepsRequests z s) : KeepsRequests z (sweepWakes s) :=
  ite h (foldl (fun _ _ h => ite h h.giveBack) (h.other rfl rfl rfl rfl))

/-! ### Threads and tasks -/

theorem modRegion {L : Nat} {f : LogRegion → LogRegion} (h : KeepsRequests z s) : KeepsRequests z (modRegion s L f) :=
  h.other rfl rfl rfl rfl

theorem modThread {t : ThreadId} {f : Thread → Thread} (h : KeepsRequests z s) : KeepsRequests z (modThread s t f) := by
  unfold Machine.modThread
  split
  · exact h.other rfl rfl rfl rfl
  · exact h

theorem giveTask {L : Nat} {k : Taker} {x : ReadyTask} (h : KeepsRequests z s) : KeepsRequests z (giveTask s L k x) :=
  ite h.modRegion.modThread.sweepWakes h.modRegion.modThread

theorem serveTakers {L ctx l n : Nat} : ∀ {s : State}, KeepsRequests z s → KeepsRequests z (serveTakers s L ctx l n) := by
  induction n with
  | zero => exact id
  | succ n ih =>
    intro s h
    unfold Machine.serveTakers
    refine ite h ?_
    split
    · exact ih h.modRegion.giveTask
    · exact h

theorem releaseFlows {L ctx : Nat} {p : FlowHeld → Bool} (h : KeepsRequests z s) :
    KeepsRequests z (releaseFlows s L ctx p) := ite (foldl (fun _ _ => serveTakers) h.modRegion) h

theorem endThread {t : ThreadId} (h : KeepsRequests z s) : KeepsRequests z (endThread s t) :=
  h.modThread.sweepWakes.releaseFlows

theorem settle {t : ThreadId} (h : KeepsRequests z s) : KeepsRequests z (settle s t) := by
  unfold Machine.settle
  split
  · exact ite h.endThread h
  · exact h

theorem wake {t : ThreadId} (h : KeepsRequests z s) : KeepsRequests z (wake s t) := h.modThread.settle

theorem freeDelay {r : Request} (h : KeepsRequests z s) : KeepsRequests z (freeDelay s r) := by
  unfold Machine.freeDelay
  split
  · split
    · exact ite h.wake h
    · exact h
  · exact h

end KeepsRequests

end Sys2Proof.Machine
end

section
/-! SUPPORT. Admission of a request (R49 to R53): what its acceptance and its waiting come to, once its address is translated
and it has a tag. -/

namespace Sys2Proof.Machine

open Sys2Proof

/-! ### The path of a request does not depend on what is counted as a stall -/

section Stall

variable {s : State} {p c n : Nat}

theorem addStall_role (q : Nat) : (physOf (addStall s p c n) q).role = (physOf s q).role := by
  unfold addStall
  by_cases h : q = p
  · subst h; rw [physOf_modPhys]
  · rw [physOf_modPhys_other h]

theorem addStall_physOfLogical (L : Nat) : physOfLogical (addStall s p c n) L = physOfLogical s L := by
  unfold physOfLogical
  simp only [addStall_role]

theorem addStall_originRegion (o : Origin) : originRegion (addStall s p c n) o = originRegion s o := rfl
theorem addStall_originCell (o : Origin) : originCell (addStall s p c n) o = originCell s o := rfl

theorem addStall_originPhys (o : Origin) : originPhys (addStall s p c n) o = originPhys s o := by
  unfold originPhys
  rw [addStall_physOfLogical, addStall_originRegion]

theorem addStall_physAt (L : Nat) : physAt (addStall s p c n) L = physAt s L := by
  unfold physAt
  rw [addStall_physOfLogical]

theorem addStall_homeCredit (k : ReqKind) (a : Nat) : homeCredit (addStall s p c n) k a = homeCredit s k a := by
  unfold homeCredit
  rw [addStall_physAt]

theorem addStall_distance (r : Request) (L : Nat) (cell : Option Nat) :
    distance (addStall s p c n) r L cell = distance s r L cell := rfl

theorem addStall_peerPort (d a : Nat) : peerPort (addStall s p c n) d a = peerPort s d a := rfl
theorem addStall_hostPort (a : Nat) : hostPort (addStall s p c n) a = hostPort s a := rfl

theorem addStall_pathNeeds (r : Request) : pathNeeds (addStall s p c n) r = pathNeeds s r := by
  unfold pathNeeds
  simp only [addStall_originRegion, addStall_originPhys, addStall_originCell, addStall_physAt, addStall_homeCredit,
    addStall_distance, addStall_peerPort, addStall_hostPort]

end Stall

/-! ### Acceptance and waiting -/

/-- A request with everything reserved is accepted now, with the credits of its path, and no other request changes. -/
theorem acceptRequest_keeps (s : State) (r : Request) : ∃ phys promise, KeepsRequests (setRequest s
    { r with
      stage := .accepted, accepted := now s, start := now s, phys := phys
      credits := (pathNeeds s r).map (·.2), promise := promise }) (acceptRequest s r) := by
  have hr : KeepsRequests s ((creditNeeds (countWait s r) r).foldl reserve (countWait s r)) :=
    .foldl (fun _ _ => .reserve) (KeepsRequests.refl s).addStall
  unfold acceptRequest
  dsimp only
  revert hr
  generalize (creditNeeds (countWait s r) r).foldl reserve (countWait s r) = t
  intro hr
  have hneeds : pathNeeds (countWait s r) r = pathNeeds s r := addStall_pathNeeds r
  have hnow : now t = now s := congrArg Clock.time hr.clock
  rw [hneeds, hnow]
  split
  · exact ⟨_, _, hr.setRequest.modThread.other rfl rfl rfl rfl⟩
  · exact ⟨_, _, hr.setRequest.modRegion⟩
  · exact ⟨_, _, hr.setRequest.freeDelay⟩

/-- A DELAY that waits holds its thread, and changes nothing but that thread. -/
theorem holdDelay_eq (s : State) (r : Request) : ∃ th, holdDelay s r = { s with threads := th } := by
  unfold holdDelay modThread
  split
  · split
    · exact ⟨_, rfl⟩
    · split
      · exact ⟨_, rfl⟩
      · exact ⟨_, rfl⟩
  · exact ⟨_, rfl⟩

/-- Where a request is to be performed, as its acceptance translates it. -/
def admitPlace (s : State) (r : Request) : Option Nat :=
  if r.direct ∨ !kindAddressed r.kind then some r.devAddr
  else translate s r.ctx (originGroup r.origin) (kindNeed r.kind) r.ctxAddr (kindBytes r.kind)

/-- A waiting request whose acceptance hangs on credits, room and fences alone: it translates to its device address, names
something that is there, and has its tag. -/
structure Admissible (s : State) (id : Nat) (r : Request) : Prop where
  found : findRequest s id = some r
  waiting : r.stage = .waiting
  may : mayAdmit s r = true
  place : admitPlace s r = some r.devAddr
  noStray : strayWatch r = false
  present : namesVacant s r = false
  reachable : spaceOf r.devAddr = 4 → peerReachable s (bits r.devAddr 50 48) = true
  tagged : r.tag ≠ 0

theorem Admissible.exec {s : State} {id : Nat} {r : Request} (h : Admissible s id r) :
    exec (.requestAcceptance id) s = .next ((waitCause s r).elim (acceptRequest s r) fun c =>
      holdDelay (setRequest (countWait s r) { r with since := now s, cause := c }) r) := by
  change execRequestAcceptance id s = _
  unfold execRequestAcceptance
  rw [h.found]
  dsimp only
  rw [if_neg (by simp [h.waiting, h.may])]
  have hplace := h.place
  unfold admitPlace at hplace
  rw [hplace]
  dsimp only
  rw [h.noStray, h.present, if_neg Bool.false_ne_true, if_neg Bool.false_ne_true,
    if_neg (fun hp => by simp [h.reachable hp.2.1] at hp), if_neg h.tagged, if_neg h.tagged]
  cases waitCause s r <;> rfl

theorem Admissible.id_eq {s : State} {id : Nat} {r : Request} (h : Admissible s id r) : r.id = id := by
  have := List.find?_some h.found; simpa using this

/-- A request that lacks nothing is accepted. -/
theorem Admissible.accepts {s : State} {id : Nat} {r : Request} (h : Admissible s id r) (hw : waitCause s r = none) :
    Completes (.requestAcceptance id) s fun u => u.mem = s.mem ∧ u.nextReq = s.nextReq ∧
      ∃ q, findRequest u id = some q ∧ q.stage = .accepted ∧ q.accepted = now s ∧ q.kind = r.kind ∧
        q.devAddr = r.devAddr ∧ q.credits = (pathNeeds s r).map (·.2) := by
  obtain ⟨phys, promise, hk⟩ := acceptRequest_keeps s r
  have hexec := h.exec
  rw [hw] at hexec
  obtain rfl := h.id_eq
  refine ⟨_, hexec, hk.mem, hk.nextReq, _, (hk.findRequest _).trans (findRequest_setRequest (q := { r with
    stage := .accepted, accepted := now s, start := now s, phys := phys
    credits := (pathNeeds s r).map (·.2), promise := promise }) h.found), rfl, rfl, rfl, rfl, rfl⟩

/-- A request that lacks something waits on, with the cause noted. -/
theorem Admissible.waits {s : State} {id c : Nat} {r : Request} (h : Admissible s id r) (hw : waitCause s r = some c) :
    Completes (.requestAcceptance id) s fun u => u.mem = s.mem ∧ u.dests = s.dests ∧ u.ledgers = s.ledgers ∧
      findRequest u id = some { r with since := now s, cause := c } := by
  obtain ⟨th, hh⟩ := holdDelay_eq (setRequest (countWait s r) { r with since := now s, cause := c }) r
  have hexec := h.exec
  rw [hw] at hexec
  obtain rfl := h.id_eq
  refine ⟨_, hexec.trans (congrArg Host.Outcome.next hh), rfl, rfl, rfl, ?_⟩
  exact findRequest_setRequest (s := countWait s r) (q := { r with since := now s, cause := c }) h.found

end Sys2Proof.Machine

open Sys2Proof Sys2Proof.Machine

/-- Settles O28: once a request translates and has its tag, `waitCause` alone decides between acceptance and waiting. -/
theorem requestAdmission : Obligations.RequestAdmission :=
  ⟨fun _ _ _ hfound hwaiting hmay hplace hstray hpresent hreach htag hw =>
      Admissible.accepts ⟨hfound, hwaiting, hmay, hplace, hstray, hpresent, hreach, htag⟩ hw,
    fun _ _ _ _ hfound hwaiting hmay hplace hstray hpresent hreach htag hw =>
      Admissible.waits ⟨hfound, hwaiting, hmay, hplace, hstray, hpresent, hreach, htag⟩ hw⟩
end

section
/-! SUPPORT. Credits: what a lending request and a give-back come to at a destination where no other request waits, as
one equation each. -/

namespace Sys2Proof.Machine

open Sys2Proof

section Lending

variable {s : State} {led : AdmPoint} {res : Resource} {n : Nat}

/-- The later of two settings of a destination stands. -/
theorem setDest_setDest (d e : Destination) : setDest (setDest s res d) res e = setDest s res e := by
  unfold setDest; rw [mset_mset]

/-- What a destination lends does not depend on its credits. -/
theorem lends_setDest (d : Destination) : lends (setDest s res d) res = lends s res := rfl

/-- A destination with one lending request serves it, if it lends and has the credits. -/
theorem serveLending_one {f : Nat} (hl : lends s res = true) (hn : n ≤ f) :
    serveLending (setDest s res { free := f, waiting := [(led, res, n)] }) res 1 =
      setLedger (setDest s res { free := f - n, waiting := [] }) led res
        { lots := (ledgerOf s led res).lots ++ [(n, now s)] } := by
  unfold serveLending
  rw [destOf_setDest]
  simp only [List.find?_cons, lends_setDest, hl, hn, if_true, setDest_setDest, List.erase_cons_head]
  rfl

/-- It leaves the request waiting, if it does not lend now or has not the credits. -/
theorem serveLending_one_waits {f : Nat} (h : lends s res = false ∨ f < n) :
    serveLending (setDest s res { free := f, waiting := [(led, res, n)] }) res 1 =
      setDest s res { free := f, waiting := [(led, res, n)] } := by
  unfold serveLending
  rw [destOf_setDest]
  cases hl : lends s res with
  | false => simp [lends_setDest, hl]
  | true =>
    have hn : ¬ n ≤ f := by simpa [hl] using h
    simp [lends_setDest, hl, hn]

/-- A ledger that asks where nobody waits is the only one to be served. -/
theorem askLending_first (hw : (destOf s res).waiting = []) : askLending s led res n =
    serveLending (setDest s res { free := (destOf s res).free, waiting := [(led, res, n)] }) res 1 := by
  unfold askLending
  simp [hw]

/-- A lending request that is due is sent. -/
theorem exec_lendingRequest (ho : isOwnSlot res = false)
    (hq : ∃ q ∈ s.requests, q.stage = .waiting ∧ ∃ x ∈ creditNeeds s q, x.1 = led ∧ x.2.1 = res ∧
      (ledgerOf s led res).unused < x.2.2) (hn : n ≠ 0) (ht : n ≤ resourceTotal res)
    (hw : (destOf s res).waiting = []) : exec (.lendingRequest led res n) s = .next (askLending s led res n) := by
  obtain ⟨q, hmem, hstage, x, hx, hled, hres, hlack⟩ := hq
  have hlacking : (s.requests.any fun q => q.stage == .waiting && (creditNeeds s q).any fun x =>
      x.1 == led && x.2.1 == res && decide ((ledgerOf s led res).unused < x.2.2)) = true := by
    simp only [List.any_eq_true, Bool.and_eq_true, beq_iff_eq, decide_eq_true_eq]
    exact ⟨q, hmem, hstage, x, hx, ⟨hled, hres⟩, hlack⟩
  change execLendingRequest led res n s = _
  unfold execLendingRequest
  dsimp only
  rw [hlacking, if_neg (by simp [ho, hn, hw, ht])]

end Lending

/-! ### Credits that go back -/

/-- Lots of which some go back hold what stays and what goes. -/
theorem unused_split (l : Ledger) (p : Nat × Nat → Bool) :
    ((l.lots.filter p).map (·.1)).sum + (Ledger.mk (l.lots.filter fun x => !p x)).unused = l.unused := by
  unfold Ledger.unused
  dsimp only
  induction l.lots with
  | nil => rfl
  | cons x r ih =>
    cases hp : p x <;> simp [hp] <;> omega

/-- Credits that have lain unused go back to a destination where nobody waits. -/
theorem exec_creditGiveBack {s : State} {led : AdmPoint} {res : Resource}
    (ho : ∃ x ∈ (ledgerOf s led res).lots, x.2 + 2000 ≤ now s) (hw : (destOf s res).waiting = []) :
    exec (.creditGiveBack led res) s = .next
      (setDest (setLedger s led res { lots := (ledgerOf s led res).lots.filter fun x => !decide (x.2 + 2000 ≤ now s) }) res
        { free := (destOf s res).free +
            (((ledgerOf s led res).lots.filter fun x => decide (x.2 + 2000 ≤ now s)).map (·.1)).sum
          waiting := [] }) := by
  obtain ⟨x, hx, hold⟩ := ho
  have hne : ((ledgerOf s led res).lots.filter fun x => decide (x.2 + 2000 ≤ now s)).isEmpty = false := by
    rw [List.isEmpty_eq_false_iff]
    exact List.ne_nil_of_mem (List.mem_filter.mpr ⟨hx, by simpa using hold⟩)
  change execCreditGiveBack led res s = _
  unfold execCreditGiveBack giveBack
  dsimp only
  rw [hne, if_neg Bool.false_ne_true, serveLending_none (by rw [destOf_setDest]; exact hw)]
  exact congrArg (fun w => Host.Outcome.next (setDest _ res { free := _, waiting := w })) hw

end Sys2Proof.Machine

open Sys2Proof Sys2Proof.Machine

/-- Settles O33: the destination either lends what is asked or keeps the request, and takes back what lay unused. -/
theorem creditsAreLentAndGivenBack : Obligations.CreditsAreLentAndGivenBack := by
  intro s led res n
  refine ⟨fun ho hq hn ht hw => ?_, fun ho hw => ?_⟩
  · have hexec := (exec_lendingRequest ho hq hn ht hw).trans (congrArg _ (askLending_first hw))
    refine ⟨fun hl hf => ⟨_, hexec.trans (congrArg _ (serveLending_one hl hf)), ?_, ?_, ?_, rfl, rfl⟩,
      fun hl => ⟨_, hexec.trans (congrArg _ (serveLending_one_waits hl)), ?_, ?_, rfl⟩⟩
    · rw [setLedger_destOf, destOf_setDest]
      exact Nat.sub_add_cancel hf
    · rw [ledgerOf_setLedger]
      simp [Ledger.unused]
    · rw [setLedger_destOf, destOf_setDest]
    · rw [destOf_setDest]
    · rw [destOf_setDest]
  · refine ⟨_, exec_creditGiveBack ho hw, ?_, ?_, rfl, rfl⟩
    · rw [setDest_ledgerOf, ledgerOf_setLedger]
    · rw [setDest_ledgerOf, ledgerOf_setLedger, destOf_setDest, Nat.add_assoc, unused_split]
end

section
/-! SUPPORT. Transfers: a waiting transfer is found under its number, and reserves its rates alone. -/

namespace Sys2Proof.Machine

open Sys2Proof

/-- Fresh numbers name one thing each. -/
theorem find_of_freshIds {α : Type} {id : α → Nat} {l : List α} {n : Nat} {x : α} (h : freshIds id l n) (hx : x ∈ l) :
    l.find? (fun y => id y == id x) = some x := by
  obtain ⟨hnodup, -⟩ := h
  induction l with
  | nil => cases hx
  | cons a r ih =>
    obtain ⟨hna, hnr⟩ := List.nodup_cons.mp hnodup
    rcases List.mem_cons.mp hx with rfl | hr
    · simp
    · have hne : id a ≠ id x := fun e => hna (e ▸ List.mem_map_of_mem hr)
      rw [List.find?_cons_of_neg (by simpa using hne)]
      exact ih hr hnr

section Acceptance

variable {s : State} {x : Transfer} (hf : freshIds (·.id) s.transfers s.nextXfer) (hx : x ∈ s.transfers)
  (ha : x.accepted = false)

include hf hx ha

/-- A copy, a load, a handover or a migration is accepted alone: the row tries its transfer. -/
theorem exec_transferAcceptance_own (hp : (∃ n, x.purpose = .copyCmd n) ∨ (∃ n L, x.purpose = .load n L) ∨
      (∃ n r, x.purpose = .handover n r) ∨ ∃ L, x.purpose = .migration L) :
    exec (.transferAcceptance x.id) s = .next (tryTransfer s x) := by
  change execTransferAcceptance x.id s = _
  unfold execTransferAcceptance
  rw [find_of_freshIds hf hx]
  dsimp only
  rw [ha, if_neg Bool.false_ne_true]
  rcases hp with ⟨n, hp⟩ | ⟨n, L, hp⟩ | ⟨n, r, hp⟩ | ⟨L, hp⟩ <;> rw [hp]

/-- The transfer of a Reel's job is accepted with the job (R173). -/
theorem exec_transferAcceptance_reel {L r : Nat} (hp : x.purpose = .reel L r) :
    exec (.transferAcceptance x.id) s = exec (.reelJobAccept L r) s := by
  change execTransferAcceptance x.id s = execReelJobAccept L r s
  unfold execTransferAcceptance
  rw [find_of_freshIds hf hx]
  dsimp only
  rw [ha, if_neg Bool.false_ne_true, hp]

end Acceptance

/-- A transfer that finds its rates is marked accepted, and nothing else changes. -/
theorem tryTransfer_accepts {s : State} {x : Transfer} (ha : x.accepted = false) (hr : canReserve s x = true) :
    tryTransfer s x = { s with transfers := s.transfers.map fun y =>
      if y.id = x.id then { y with accepted := true, tAccept := now s } else y } := by
  unfold tryTransfer
  rw [if_pos (by simp [ha, hr])]

end Sys2Proof.Machine

open Sys2Proof Sys2Proof.Machine

/-- Settles O34: the transfer under its number is the one that is accepted, and no other has that number. -/
theorem transferIsAccepted : Obligations.TransferIsAccepted := by
  intro s x hf hx ha
  refine ⟨fun hp hr => ?_, fun L r hp => exec_transferAcceptance_reel hf hx ha hp⟩
  refine ⟨_, (exec_transferAcceptance_own hf hx ha hp).trans (congrArg _ (tryTransfer_accepts ha hr)), rfl, ?_, ?_, ?_⟩
  · exact List.mem_map.mpr ⟨x, hx, if_pos rfl⟩
  · exact List.length_map _
  · exact fun y hy hne => List.mem_map.mpr ⟨y, hy, if_neg hne⟩
end

section
/-! SUPPORT. One region's control interval (R42, R43, R66, R467, R468, R473): bounds of the next target, the rail and the
pace; the rise of a low rail (R43); and lift (R476, R477). -/

namespace Sys2Proof.Machine

open Sys2Proof

/-! ### The next target -/

section Target

variable {s : State} {p : Nat} {x : PhysRegion} {tj : Int}

theorem railFloor_le : railFloor s p ≤ 600 := by
  unfold railFloor
  split <;> omega

/-- The lowest target up to a limit lies within the limit. -/
theorem lowestTarget_le {limit v : Nat} (h : lowestTarget s tj limit = some v) : v ≤ limit := by
  unfold lowestTarget at h
  have hv := List.find?_some h
  simp only [Bool.and_eq_true, decide_eq_true_eq] at hv
  exact hv.1

/-- In fixed-pace mode as in the other, the target that is wanted lies within what is allowed. -/
theorem wantedTarget_le (limit : Nat) :
    (if fixedMode s then (lowestTarget s tj limit).getD limit else limit) ≤ limit := by
  split
  · cases h : lowestTarget s tj limit with
    | none => exact Nat.le_refl _
    | some v => exact lowestTarget_le h
  · exact Nat.le_refl _

theorem allowedTarget_le_ceiling : allowedTarget s p x tj ≤ railCeiling s := Nat.min_le_left _ _

theorem allowedTarget_le_budget : allowedTarget s p x tj ≤ budgetRail s p x tj :=
  (Nat.min_le_right _ _).trans (Nat.min_le_left _ _)

/-- A region at its thermal limit goes down by 25 mV, to its floor at the lowest (R473). -/
theorem allowedTarget_le_thermal (h : throttleC s ≤ tj) :
    allowedTarget s p x tj ≤ Nat.max (railFloor s p) (x.targetMv - 25) := by
  have ht : throttles s x tj = true := by unfold throttles; rw [if_pos h]
  unfold allowedTarget
  rw [ht]
  exact (Nat.min_le_right _ _).trans (Nat.min_le_right _ _)

theorem nextTarget_le_max : nextTarget s p x tj ≤ 900 := Nat.min_le_left _ _

/-- At most 25 mV up, or the floor (R43, R467). -/
theorem nextTarget_le_step : nextTarget s p x tj ≤ Nat.max (x.targetMv + 25) (railFloor s p) :=
  (Nat.min_le_right _ _).trans
    (Nat.max_le.mpr ⟨Nat.le_max_right _ _, (Nat.min_le_right _ _).trans (Nat.le_max_left _ _)⟩)

/-- Above its floor a target lies within what is allowed. -/
theorem nextTarget_le_allowed :
    nextTarget s p x tj ≤ allowedTarget s p x tj ∨ nextTarget s p x tj ≤ railFloor s p := by
  have hmax : nextTarget s p x tj ≤ Nat.max (railFloor s p) (allowedTarget s p x tj) :=
    (Nat.min_le_right _ _).trans (Nat.max_le.mpr ⟨Nat.le_max_left _ _,
      (Nat.min_le_left _ _).trans ((wantedTarget_le _).trans (Nat.le_max_right _ _))⟩)
  exact (le_max_iff.mp hmax).symm

end Target

/-! ### The rail and the pace -/

theorem railSeen_le_max {s : State} {p seen : Nat} : railSeen s p seen ≤ 900 := Nat.min_le_left _ _

theorem railFloor_le_railSeen {s : State} {p seen : Nat} : railFloor s p ≤ railSeen s p seen :=
  Nat.le_min.mpr ⟨railFloor_le.trans (by omega), Nat.le_max_left _ _⟩

/-- Between the floor and 900 mV the rail is what the regulator reports. -/
theorem railSeen_eq {s : State} {p seen : Nat} (hf : railFloor s p ≤ seen) (h : seen ≤ 900) : railSeen s p seen = seen :=
  (congrArg (Nat.min 900) (Nat.max_eq_right hf)).trans (Nat.min_eq_right h)

/-- In fixed-pace mode an active region never exceeds the set pace (R66). -/
theorem paceOf_fixed {s : State} {x : PhysRegion} {mv seen : Nat} {tj : Int}
    (h : fixedMode s = true ∧ ∃ L, x.role = .active L) : paceOf s x mv tj seen ≤ rawField s offPace 11 0 := by
  obtain ⟨hf, L, hr⟩ := h
  unfold paceOf
  rw [hr]
  dsimp only
  rw [if_pos hf]
  exact Nat.min_le_left _ _

/-- Elsewhere the pace is at least that of Table 2.1 and that which the sensors say (R42). -/
theorem paceOf_free {s : State} {x : PhysRegion} {mv seen : Nat} {tj : Int}
    (h : ¬ (fixedMode s = true ∧ ∃ L, x.role = .active L)) : paceOf s x mv tj seen = Nat.max (paceFloor mv tj) seen := by
  unfold paceOf
  split
  · next L hr => exact if_neg fun hf => h ⟨hf, L, hr⟩
  · rfl

/-- A pace depends on the control registers only. -/
theorem paceOf_congr {s t : State} (h : t.regs = s.regs) (x : PhysRegion) (mv : Nat) (tj : Int) (seen : Nat) :
    paceOf t x mv tj seen = paceOf s x mv tj seen := by
  unfold paceOf fixedMode rawField rawReg
  rw [h]

/-! ### What an interval leaves in the region -/

/-- The region `y` after an interval of the region `x`, with the state `s` at the interval's end. -/
structure BurnerReads (s : State) (x : PhysRegion) (p : Nat) (b : BurnerInput) (y : PhysRegion) : Prop where
  target : y.targetMv = nextTarget s p x b.tj
  tj : y.tj = b.tj
  rail : y.vcore = railSeen s p b.railMv
  pace : y.paceNow = paceOf s x y.vcore b.tj b.paceNow
  paceMin_le : y.paceMin ≤ x.paceMin
  paceMin_le_pace : y.paceMin ≤ y.paceNow
  watts : y.powerW = regionWatts s p

section Reads

variable {s : State} {x y : PhysRegion} {p : Nat} {b : BurnerInput} (h : BurnerReads s x p b y)

include h

/-- Stall time and a budget are no readings. -/
theorem BurnerReads.other (st : Map Nat Nat) (w : Nat) : BurnerReads s x p b { y with stallNs := st, budgetW := w } :=
  ⟨h.target, h.tj, h.rail, h.pace, h.paceMin_le, h.paceMin_le_pace, h.watts⟩

/-- The target lies within ceiling and budget, or is the floor (R43, R468). -/
theorem BurnerReads.target_le :
    y.targetMv ≤ railCeiling s ∧ y.targetMv ≤ budgetRail s p x b.tj ∨ y.targetMv ≤ railFloor s p := by
  rw [h.target]
  refine nextTarget_le_allowed.imp_left fun ha => ?_
  exact ⟨ha.trans allowedTarget_le_ceiling, ha.trans allowedTarget_le_budget⟩

/-- From THROTTLE_C up the target goes down (R473). -/
theorem BurnerReads.target_throttled (ht : throttleC s ≤ b.tj) :
    y.targetMv ≤ Nat.max (railFloor s p) (x.targetMv - 25) := by
  rw [h.target]
  rcases nextTarget_le_allowed (s := s) (p := p) (x := x) (tj := b.tj) with ha | hf
  · exact ha.trans (allowedTarget_le_thermal ht)
  · exact hf.trans (Nat.le_max_left _ _)

/-- Outside fixed-pace mode the pace is that of Table 2.1 or more, and what the sensors say or more (R42). -/
theorem BurnerReads.pace_free (hf : ¬ (fixedMode s = true ∧ ∃ L, x.role = .active L)) :
    paceFloor y.vcore b.tj ≤ y.paceNow ∧ b.paceNow ≤ y.paceNow := by
  rw [h.pace, paceOf_free hf]
  exact ⟨Nat.le_max_left _ _, Nat.le_max_right _ _⟩

end Reads

/-! ### What counts, events and flags leave alone -/

/-- Of a region's readings nothing changed, of the package power only flags, and neither activity nor memory. -/
structure KeepsReadings (p : Nat) (s u : State) : Prop where
  region : ∃ st w, physOf u p = { physOf s p with stallNs := st, budgetW := w }
  power : ∃ a c h, u.power = { s.power with capped := a, capOver := c, hot := h }
  activity : u.activity = s.activity
  mem : u.mem = s.mem

namespace KeepsReadings

variable {p : Nat} {z s u : State}

theorem refl (s : State) : KeepsReadings p s s := ⟨⟨_, _, rfl⟩, ⟨_, _, _, rfl⟩, rfl, rfl⟩

theorem trans (a : KeepsReadings p z s) (b : KeepsReadings p s u) : KeepsReadings p z u := by
  obtain ⟨⟨_, _, hr⟩, ⟨_, _, _, hp⟩, ha, hm⟩ := a
  obtain ⟨⟨st, w, kr⟩, ⟨e, c, f, kp⟩, ka, km⟩ := b
  exact ⟨⟨st, w, by rw [kr, hr]⟩, ⟨e, c, f, by rw [kp, hp]⟩, ka.trans ha, km.trans hm⟩

/-- An update of other fields of the state. -/
theorem other (h : KeepsReadings p z s) (hp : u.phys = s.phys) (hd : u.part = s.part) (hw : u.power = s.power)
    (ha : u.activity = s.activity) (hm : u.mem = s.mem) : KeepsReadings p z u :=
  h.trans ⟨⟨_, _, by unfold physOf; rw [hp, hd]⟩, ⟨_, _, _, hw⟩, ha, hm⟩

theorem ite {a b : State} {c : Prop} [Decidable c] (ha : KeepsReadings p z a) (hb : KeepsReadings p z b) :
    KeepsReadings p z (if c then a else b) := by
  split
  · exact ha
  · exact hb

/-- The flags of the package. -/
theorem flags (h : KeepsReadings p z s) (a c f : Bool) :
    KeepsReadings p z { s with power := { s.power with capped := a, capOver := c, hot := f } } :=
  h.trans ⟨⟨_, _, rfl⟩, ⟨a, c, f, rfl⟩, rfl, rfl⟩

theorem modPhys {f : PhysRegion → PhysRegion} (h : KeepsReadings p z s)
    (hf : ∀ x, ∃ st w, f x = { x with stallNs := st, budgetW := w }) : KeepsReadings p z (modPhys s p f) := by
  refine h.trans ⟨?_, ⟨_, _, _, rfl⟩, rfl, rfl⟩
  rw [physOf_modPhys]
  exact hf _

theorem addStall {c n : Nat} (h : KeepsReadings p z s) : KeepsReadings p z (addStall s p c n) :=
  h.modPhys fun x => ⟨_, x.budgetW, rfl⟩

theorem w1cEvent {off hi : Nat} (h : KeepsReadings p z s) : KeepsReadings p z (w1cEvent s off hi) :=
  h.other rfl rfl rfl rfl rfl

theorem w1cWhen {b : Bool} {off hi : Nat} (h : KeepsReadings p z s) : KeepsReadings p z (w1cWhen b s off hi) :=
  ite h.w1cEvent h

theorem deviceEvent {code word : Nat} (h : KeepsReadings p z s) : KeepsReadings p z (deviceEvent s code word) := by
  obtain ⟨r, n, he⟩ := deviceEvent_eq s code word
  exact he ▸ h.other rfl rfl rfl rfl rfl

theorem limited {key : Nat × Nat} {f : State → State} (hf : ∀ s, KeepsReadings p z s → KeepsReadings p z (f s))
    (h : KeepsReadings p z s) : KeepsReadings p z (limited s key f) := by
  rcases limited_cases s key f with he | he
  · rw [he]; exact h
  · rw [he]; exact hf _ (h.other rfl rfl rfl rfl rfl)

/-- The same region is set before and after. -/
theorem setPhys {y : PhysRegion} (h : KeepsReadings p s u) : KeepsReadings p (setPhys s p y) (setPhys u p y) :=
  ⟨⟨y.stallNs, y.budgetW, by rw [physOf_setPhys, physOf_setPhys]⟩, h.power, h.activity, h.mem⟩

/-- The budget of the only Burner that runs. -/
theorem divideBudget (h : KeepsReadings p z s) : KeepsReadings p z (divideBudget s [p]) :=
  h.modPhys fun x => ⟨x.stallNs, _, rfl⟩

end KeepsReadings

/-! ### One region's step, and the whole interval -/

/-- A Burner's step sets its region to what the interval leaves there, and else counts and tells. -/
theorem burnerStep_reads {s t : State} {p : Nat} (b : BurnerInput) (hg : t.regs = s.regs) :
    ∃ y, BurnerReads s (physOf t p) p b y ∧ KeepsReadings p (setPhys t p y) (burnerStep s t p b) := by
  unfold burnerStep
  dsimp only
  simp only [paceOf_congr hg]
  apply Exists.intro
  apply And.symm
  apply And.intro
  case left =>
    refine .ite (.deviceEvent ?stalled) ?stalled
    refine .ite (.addStall ?capped) ?capped
    exact .ite (.addStall (.w1cEvent (.flags (.setPhys (.w1cWhen (.w1cWhen (.w1cWhen (.refl t))))) ..)))
      (.setPhys (.w1cWhen (.w1cWhen (.w1cWhen (.refl t)))))
  case right =>
    exact ⟨rfl, rfl, rfl, rfl, Nat.min_le_left _ _, (Nat.min_le_right _ _).trans (Nat.min_le_left _ _), rfl⟩

/-- With every junction below 108 °C nothing is told of heat. -/
theorem heatFaults_cool {s : State} {p : Nat} {b : BurnerInput} {t : Int} (hb : b.tj < 108) (ht : t < 108) :
    heatFaults s [(p, b)] t = s := by
  have hany : ¬ (108 ≤ t ∨ [(p, b)].any (fun e => decide (108 ≤ e.2.tj)) = true) := by simp [hb, ht]
  have hnone : [(p, b)].filter (fun e => decide (115 ≤ e.2.tj)) = [] := by
    simp [show b.tj < 115 by omega]
  unfold heatFaults
  rw [if_neg hany, hnone]
  rfl

/-- The state when the energy of an interval has been charged. -/
def charged (s : State) (w : Nat) : State :=
  chargeEnergy { s with lastEvent := mset s.lastEvent (0x720, 0) s.clock.bootCount } w

/-- The state when the one Burner that runs has had its step and the package power is estimated. -/
def afterBurner (s : State) (p : Nat) (b : BurnerInput) (w : Nat) (t : Int) : State :=
  let v := burnerStep s (charged s w) p b
  { v with power := { v.power with
      linkW := w + linkWatts s, linkTj := t, pkgW := w + linkWatts s + regionWatts s p } }

section Interval

variable {s : State} {p : Nat} {b : BurnerInput} {w : Nat} {t : Int}

theorem afterBurner_reads : BurnerReads s (physOf s p) p b (physOf (afterBurner s p b w t) p) := by
  obtain ⟨y, hy, hk⟩ := burnerStep_reads (s := s) (t := charged s w) (p := p) b rfl
  obtain ⟨st, bw, hregion⟩ := hk.region
  rw [physOf_setPhys] at hregion
  change BurnerReads s (physOf s p) p b (physOf (burnerStep s (charged s w) p b) p)
  rw [hregion]
  exact hy.other st bw

/-- The device's count takes up the energy of the interval, and the counts of the next one begin (R478, R480). -/
theorem afterBurner_energy : (afterBurner s p b w t).power.energyPj = devicePj s + 1000 * w * chargedNs s ∧
    (afterBurner s p b w t).power.energyAt = s.clock.bootCount ∧ (afterBurner s p b w t).activity = [] ∧
    (afterBurner s p b w t).mem = s.mem := by
  obtain ⟨y, -, hk⟩ := burnerStep_reads (s := s) (t := charged s w) (p := p) b rfl
  obtain ⟨_, _, _, hpower⟩ := hk.power
  exact ⟨congrArg Power.energyPj hpower, congrArg Power.energyAt hpower, hk.activity, hk.mem⟩

/-- The end of the interval of one Burner: the cap is judged, and the next budget is given. -/
def judgeCap (s : State) (p : Nat) : State :=
  divideBudget (if overCap s [p] then
    limited (w1cEvent { s with power := { s.power with capOver := true } } 0x408 62) (0x722, 0) fun t => deviceEvent t 0x0C 8
  else s) [p]

theorem judgeCap_keeps {s : State} {p : Nat} : KeepsReadings p s (judgeCap s p) :=
  .divideBudget (.ite (.limited (fun _ => .deviceEvent) (.w1cEvent (.flags (.refl s) ..))) (.refl s))

/-- An interval of one Burner, the first since power-on. -/
theorem exec_burnerControlInterval_one (hs : s.board.started = true) (hl : mget? s.lastEvent (0x720, 0) = none)
    (hp : p < 18) (hc : (physOf s p).coreEn = true) (hb : b.tj < 108) (ht : t < 108) :
    exec (.burnerControlInterval [(p, b)] w t) s = .next (judgeCap (afterBurner s p b w t) p) := by
  have hburners : burners s [(p, b)] = [(p, b)] := by simp [burners, hp, hc]
  change execBurnerControlInterval [(p, b)] w t s = _
  unfold execBurnerControlInterval
  rw [hl]
  dsimp only
  rw [hburners, if_neg (by simp [hs]), heatFaults_cool hb ht]
  simp only [List.map_cons, List.map_nil, List.foldl_cons, List.foldl_nil, List.sum_singleton]
  rfl

end Interval

/-! ### A low rail rises (R43) -/

theorem exec_railRise {s : State} {region p : Nat} (hp : physOfLogical s region = some p) (hv : (physOf s p).vcore < 600)
    (hc : (physOf s p).coreEn = true) (hw : railWanted s region p = true) : exec (.railRise region) s =
      .next (modPhys s p fun x => { x with targetMv := Nat.max 600 x.targetMv, vcore := 600 }) := by
  change execRailRise region s = _
  unfold execRailRise
  rw [hp]
  dsimp only
  rw [if_neg (by simp [railLow, hv, hc, hw])]

/-! ### Lift (R476, R477) -/

theorem exec_liftFlit {s : State} {r : LiftReport} (ha : liftActive s = true) (hg : bitOf (liftGroup s) r.device = true)
    (hd : r.device ≠ s.part.device) : exec (.liftFlit true r) s = .next { s with power := { s.power with
      reports := s.power.reports.filter (fun x => !(x.device == r.device && x.outcomes == r.outcomes)) ++ [r] } } := by
  change execLiftFlit true r s = _
  unfold execLiftFlit
  rw [if_neg (by simp [ha, hg, hd])]

/-- The greatest of a list is where the fold starts, or listed. -/
theorem foldl_max_eq_or_mem (l : List Nat) (a : Nat) : l.foldl Nat.max a = a ∨ l.foldl Nat.max a ∈ l := by
  induction l generalizing a with
  | nil => exact .inl rfl
  | cons b r ih =>
    rw [List.foldl_cons, List.mem_cons]
    rcases ih (Nat.max a b) with h | h
    · rcases Nat.le_total a b with hab | hab
      · exact .inr (.inl (h.trans (Nat.max_eq_right hab)))
      · exact .inl (h.trans (Nat.max_eq_left hab))
    · exact .inr (.inr h)

/-- The latest outcome among the reports of a set is that of one of them. -/
theorem latest_mem {r : LiftReport} {l : List LiftReport} :
    ∃ x ∈ r :: l, ((r :: l).map (·.tOutcome)).foldl Nat.max 0 = x.tOutcome := by
  rw [List.map_cons, List.foldl_cons, show Nat.max 0 r.tOutcome = r.tOutcome from Nat.zero_max _]
  rcases foldl_max_eq_or_mem (l.map (·.tOutcome)) r.tOutcome with h | h
  · exact ⟨r, List.mem_cons_self, h⟩
  · obtain ⟨x, hx, he⟩ := List.mem_map.mp h
    exact ⟨x, List.mem_cons_of_mem _ hx, he.symm⟩

theorem liftMove_le (step max : Nat) (c d : LiftReport) : liftMove step max c d ≤ step := by
  unfold liftMove
  split
  · exact Int.natCast_nonneg step
  · exact min_le_left _ _

/-- A complete set of reports moves an offset by at most STEP_W, up or down (R477). -/
theorem liftChange_le (s : State) (l : List LiftReport) :
    liftChange s l ≤ rawField s offPower 47 40 ∧ -liftChange s l ≤ rawField s offPower 47 40 := by
  unfold liftChange
  split
  · omega
  · next r rest =>
    have hm := liftMove_le (rawField s offPower 47 40) (rawField s offPower 39 29) (rest.foldl firstReport r)
      (rest.foldl lastReport r)
    dsimp only
    split_ifs <;> omega

/-- What LIFT_OFFSET_APPLY adds to this device's offset for a set of reports (R477; log entry 163 where a boundary has
passed). -/
def liftDue (s : State) (l : List LiftReport) : Int :=
  if now s = boundaryAt ((l.map (·.tOutcome)).foldl Nat.max 0 + 500000) ∧ liftActive s ∧ liftComplete s l then
    liftChange s l
  else 0

theorem liftDue_le (s : State) (l : List LiftReport) :
    liftDue s l ≤ rawField s offPower 47 40 ∧ -liftDue s l ≤ rawField s offPower 47 40 := by
  unfold liftDue
  split
  · exact liftChange_le s l
  · omega

theorem liftDue_none {s : State} {l : List LiftReport}
    (h : liftComplete s l = false ∨ now s ≠ boundaryAt ((l.map (·.tOutcome)).foldl Nat.max 0 + 500000)) :
    liftDue s l = 0 := by
  unfold liftDue
  rw [if_neg]
  rintro ⟨hnow, -, hcomplete⟩
  rcases h with hc | hn
  · rw [hc] at hcomplete; cases hcomplete
  · exact hn hnow

/-- At a boundary that no report is still waiting for, the oldest set is used up. -/
theorem exec_liftOffsetApply {s : State} {r : LiftReport} {rest : List LiftReport} (hr : s.power.reports = r :: rest)
    (hn : now s % 1048576 = 0) (hb : ∀ x ∈ s.power.reports, boundaryAt (x.tOutcome + 500000) ≤ now s) :
    exec .liftOffsetApply s = .next { s with power := { s.power with
      liftOffset := s.power.liftOffset + liftDue s (s.power.reports.filter fun x => x.outcomes == r.outcomes)
      reports := s.power.reports.filter fun x => x.outcomes != r.outcomes } } := by
  have hset : s.power.reports.filter (fun x => x.outcomes == r.outcomes) =
      r :: rest.filter fun x => x.outcomes == r.outcomes := by rw [hr]; simp
  obtain ⟨x, hx, hlatest⟩ := latest_mem (r := r) (l := rest.filter fun x => x.outcomes == r.outcomes)
  rw [← hset] at hx hlatest
  have hpast := hb x (List.mem_filter.mp hx).1
  rw [← hlatest] at hpast
  change execLiftOffsetApply s = _
  unfold execLiftOffsetApply
  split
  · next he => rw [he] at hr; cases hr
  · next r' _ he =>
    obtain rfl : r' = r := by rw [he] at hr; exact (List.cons.inj hr).1
    dsimp only
    rw [if_neg (by simpa [isBoundary, hn] using hpast)]
    rfl

end Sys2Proof.Machine

open Sys2Proof Sys2Proof.Machine

/-- Settles O54: the bounds of one Burner's interval, the rise of a low rail, and the two rows of lift. -/
theorem powerAndLift : Obligations.PowerAndLift := by
  intro s
  refine ⟨fun p b w t hs hl hp hc hb ht => ?_, fun region p hp hv hc hw => ?_, fun r ha hg hd => ?_,
    fun r rest hr hn hb => ?_⟩
  · have hk := judgeCap_keeps (s := afterBurner s p b w t) (p := p)
    obtain ⟨st, bw, hregion⟩ := hk.region
    obtain ⟨_, _, _, hpower⟩ := hk.power
    obtain ⟨henergy, hat, hact, hmem⟩ := afterBurner_energy (s := s) (p := p) (b := b) (w := w) (t := t)
    have h : BurnerReads s (physOf s p) p b (physOf (judgeCap (afterBurner s p b w t) p) p) :=
      hregion ▸ afterBurner_reads.other st bw
    refine ⟨_, exec_burnerControlInterval_one hs hl hp hc hb ht, ?_, ?_, h.target_le, h.target_throttled,
      h.tj, fun hf hm => ?_, ?_, ?_, fun hf => ?_, h.pace_free, h.paceMin_le, h.paceMin_le_pace,
      ?_, ?_, h.watts, ?_, ?_, hk.activity.trans hact, hk.mem.trans hmem⟩
    · rw [h.target]; exact nextTarget_le_max
    · rw [h.target]; exact nextTarget_le_step
    · rw [h.rail]; exact railSeen_eq hf hm
    · rw [h.rail]; exact railFloor_le_railSeen
    · rw [h.rail]; exact railSeen_le_max
    · rw [h.pace]; exact paceOf_fixed hf
    · rw [hpower]; rfl
    · rw [hpower]; rfl
    · rw [hpower]; exact henergy
    · rw [hpower]; exact hat
  · refine ⟨_, exec_railRise hp hv hc hw, ?_, ?_, fun q hq => physOf_modPhys_other hq, rfl, rfl⟩
    · rw [physOf_modPhys]
    · rw [physOf_modPhys]; exact Nat.le_max_left _ _
  · refine ⟨_, exec_liftFlit ha hg hd, rfl, rfl, ?_, fun x hx hne => ?_⟩
    · exact List.mem_append_right _ List.mem_cons_self
    · refine List.mem_append_left _ (List.mem_filter.mpr ⟨hx, ?_⟩)
      rcases hne with houtcomes | hdevice
      · simp [houtcomes]
      · simp [hdevice]
  · obtain ⟨hup, hdown⟩ := liftDue_le s (s.power.reports.filter fun x => x.outcomes == r.outcomes)
    refine ⟨_, exec_liftOffsetApply hr hn hb, rfl, fun x hx => ?_, ?_, ?_, fun hnone => ?_⟩
    · simpa using (List.mem_filter.mp hx).2
    · dsimp only; omega
    · dsimp only; omega
    · dsimp only
      rw [liftDue_none hnone, Int.add_zero]
end

section
open Sys2Proof Sys2Proof.Machine

/-- Settles O59: nothing is at work after reset, so every number is free and memory is canonical; the registers evaluate. -/
theorem resetState : Obligations.ResetState := by
  have hsound : Sound State.reset := ⟨by decide, freshIds_nil, ⟨by decide, by decide⟩, freshIds_nil, freshIds_nil⟩
  refine ⟨hsound, rfl, rfl, fun _ => rfl, fun _ _ => rfl, rfl, rfl, fun _ => rfl, rfl, ?_, ?_, ?_, ?_, ?_⟩
  · decide
  · decide
  · decide
  · decide
  · decide
end

section
/-! SUPPORT. That every command ends in a next state. A word of a thread is refused only where lowering has not passed it;
every other command either does its work or, where its event cannot occur, nothing (log entry 8). -/

namespace Sys2Proof.Machine

open Sys2Proof

/-- A command ends in a next state: it is not refused, and stops with no fault. -/
def Goes (o : Host.Outcome State Fault Refusal) : Prop := ∃ u, o = .next u

namespace Goes

theorem next {u : State} : Goes (.next u) := ⟨u, rfl⟩

theorem ite {a b : Host.Outcome State Fault Refusal} {p : Prop} [Decidable p] (ha : Goes a) (hb : Goes b) :
    Goes (if p then a else b) := by
  split
  · exact ha
  · exact hb

end Goes

/-! ### Words of a thread -/

section Words

variable {s : State} {c : Instr} {t : ThreadId} {k : Common}

theorem issueWord_goes {eff off : State → State} (hw : c.wf = true) : Goes (issueWord c t k eff off s) := by
  unfold issueWord
  rw [if_neg (by simp [hw])]
  exact .ite .next (.ite .next (.ite .next .next))

theorem regWord_goes {f : Thread → Thread} (hw : c.wf = true) : Goes (regWord c t k f s) := issueWord_goes hw

theorem stateWord_goes {f : State → State} (hw : c.wf = true) : Goes (stateWord c t k f s) := issueWord_goes hw

/-- A word that starts a tensor operation issues, or holds its thread (R137). -/
theorem tensorWord_goes {f : State → State} (hw : c.wf = true) : Goes (tensorWord c t k f s) :=
  .ite .next (issueWord_goes hw)

/-- A vector word is refused only where its group has no vector context (R101). -/
theorem vectorWord_goes {f : State → State} (hp : Passed c s) (hv : vectorThread c = some t) :
    Goes (vectorWord c t k f s) := by
  have hvec : (groupOf s t).vec = true := hp.2.1 t hv
  unfold vectorWord
  rw [if_neg (by simp [hvec])]
  exact issueWord_goes hp.1

/-- BR is refused only where its target lies outside the code (R141). -/
theorem execBr_goes {o : CArgs} (hp : Passed (.br t k o) s) : Goes (execBr t k o s) := by
  obtain ⟨hw, -, htarget⟩ := hp
  unfold execBr
  rw [if_neg (by rintro ⟨-, h⟩; omega)]
  exact issueWord_goes hw

/-- LOOP is refused only where its body does not lie ahead of it in the code, or a fifth level would open (R141). -/
theorem execLoop_goes {o : CArgs} (hp : Passed (.loop t k o) s) : Goes (execLoop t k o s) := by
  obtain ⟨hw, -, htarget, hahead, hlevels⟩ := hp
  unfold execLoop
  rw [if_neg (by rintro ⟨-, h⟩; omega)]
  exact issueWord_goes hw

/-- An MMA is refused only where the part's grade has not its rig or its format (R3). -/
theorem execMma_goes {o : MArgs} (hp : Passed (.mma t k o) s) : Goes (execMma t k o s) := by
  obtain ⟨hw, -, hgrade⟩ := hp
  unfold execMma
  rw [if_neg]
  · exact tensorWord_goes hw
  · rintro ⟨hS, hform, -⟩
    rcases hgrade with hT | ⟨hrig, hfmt⟩
    · rw [hS] at hT; cases hT
    · exact hform.elim hrig hfmt

/-- A word that lowering has passed is not refused. -/
theorem exec_word_goes (hc : wordOf c = some (t, k)) (hp : Passed c s) : Goes (exec c s) := by
  cases c with
  | br => exact execBr_goes hp
  | loop => exact execLoop_goes hp
  | mma => exact execMma_goes hp
  | tcopy | tscadd => unfold exec; exact tensorWord_goes hp.1
  | vadd | vsub | vmul | vfma | vmin | vmax | vcmp | vsel | vexp2 | vrcp | vrsq | viadd | visub | vimul | vlogic | vrsum
  | vrmax | vperm | vbcast | vext | vflag | vmov | vcvt | vmaxabs | vld | vst => unfold exec; exact vectorWord_goes hp rfl
  | halt | take => unfold exec; exact issueWord_goes hp.1
  | nop | lrd | add | sub | mul | mulhu | mulhs | divu | remu | divs | rems | and | or | xor | shl | shr | sra | minmax | addi
  | andi | ori | xori | shifti | movi | cmp | cmpi | sel | plog | fadd | fmul | ffma | fminmax | fcmp | fcvt | park =>
    unfold exec; exact regWord_goes hp.1
  | twait | ld | st | atom | atomp | fence | tmaxabs | sig | sigw | watch | unwatch | token | delay | time | reel | dld | dstr
  | dsetw | dgetw => unfold exec; exact stateWord_goes hp.1
  | _ => cases hc

end Words

section Commands

variable {s : State}

/-! ### Commands of the queues -/

theorem atCmd_goes {cmd op : Nat} {f : Cmd → State} : Goes (atCmd s cmd op f) := by
  unfold atCmd
  split <;> exact .next

theorem execDisable_goes {cmd : Nat} : Goes (execDisable cmd s) := by
  unfold execDisable
  split
  · exact .ite .next .next
  · exact .next

theorem execDisableForce_goes {cmd : Nat} : Goes (execDisableForce cmd s) := by
  unfold execDisableForce
  split
  · exact .ite .next .next
  · exact .next

theorem execAllocT2Frames_goes {cmd : Nat} : Goes (execAllocT2Frames cmd s) := by
  unfold execAllocT2Frames
  split
  · exact .ite .next .next
  · exact .next

theorem execAllocPinnedT1_goes {cmd : Nat} : Goes (execAllocPinnedT1 cmd s) := by
  unfold execAllocPinnedT1
  split
  · exact .ite .next .next
  · exact .next

theorem execAllocObject_goes {cmd : Nat} : Goes (execAllocObject cmd s) := by
  unfold execAllocObject
  split
  · exact .ite .next .next
  · exact .next

theorem execLend_goes {cmd : Nat} : Goes (execLend cmd s) := by
  unfold execLend
  split
  · exact .ite .next .next
  · exact .next

theorem execReturnFrames_goes {cmd : Nat} : Goes (execReturnFrames cmd s) := by
  unfold execReturnFrames
  split
  · exact .ite .next .next
  · exact .next

theorem execCommandCompletion_goes {cmd : Nat} : Goes (execCommandCompletion cmd s) := by
  unfold execCommandCompletion
  split
  · exact .next
  · exact .ite .next .next

theorem execCompletionPost_goes {fn queue : Nat} : Goes (execCompletionPost fn queue s) := by
  unfold execCompletionPost
  split
  · exact .next
  · exact .ite .next .next

theorem execCommandAccept_goes {fn queue : Nat} {v : Votes} : Goes (execCommandAccept fn queue v s) := by
  unfold execCommandAccept
  refine .ite .next ?_
  dsimp only
  split <;> exact .next

theorem execGroupVoteDeadline_goes {fn : Nat} : Goes (execGroupVoteDeadline fn s) := by
  unfold execGroupVoteDeadline
  split
  · exact .next
  · exact .ite .next .next

theorem execStagedApplyBoundary_goes {fn : Nat} : Goes (execStagedApplyBoundary fn s) := by
  unfold execStagedApplyBoundary
  split
  · exact .next
  · exact .ite .next (.ite .next .next)

theorem execServiceActionDone_goes {phys : Nat} {passed : Bool} : Goes (execServiceActionDone phys passed s) := by
  unfold execServiceActionDone
  split
  · exact .next
  · refine .ite .next ?_
    dsimp only
    split <;> exact .next

/-! ### Requests and transfers -/

theorem execRequestAcceptance_goes {req : Nat} : Goes (execRequestAcceptance req s) := by
  unfold execRequestAcceptance
  split
  · exact .next
  · refine .ite .next ?_
    dsimp only
    split
    · exact .next
    · refine .ite .next (.ite .next (.ite .next (.ite .next ?_)))
      split <;> exact .next

theorem execRequestPerform_goes {req : Nat} : Goes (execRequestPerform req s) := by
  unfold execRequestPerform
  split
  · exact .next
  · refine .ite .next ?_
    split
    · exact .next
    · exact .next
    · exact .next
    · exact .next
    · exact .ite .next (.ite .next (.ite .next (.ite .next .next)))

theorem execSignalPerform_goes {req : Nat} : Goes (execSignalPerform req s) := by
  unfold execSignalPerform
  split
  · exact .next
  · split
    · exact .ite .next (.ite .next (.ite .next (.ite .next (.ite .next .next))))
    · exact .next

theorem execWatchAck_goes {req : Nat} : Goes (execWatchAck req s) := by
  unfold execWatchAck
  split
  · exact .next
  · split
    · exact .ite .next .next
    · exact .ite .next .next
    · exact .next

theorem execTokenPerform_goes {req : Nat} : Goes (execTokenPerform req s) := by
  unfold execTokenPerform
  split
  · exact .next
  · split
    · exact .ite .next .next
    · exact .next

theorem execRequestCompletion_goes {req : Nat} {resp : List Byte} {poison : Bool} :
    Goes (execRequestCompletion req resp poison s) := by
  unfold execRequestCompletion
  split
  · exact .next
  · exact .ite .next (.ite .next .next)

theorem execCompletionTimeout_goes {req : Nat} : Goes (execCompletionTimeout req s) := by
  unfold execCompletionTimeout
  split
  · exact .next
  · exact .ite .next .next

theorem execWakeNotification_goes {t : ThreadId} : Goes (execWakeNotification t s) := by
  unfold execWakeNotification
  split
  · split
    · exact .ite .next (.ite .next .next)
    · exact .next
  · exact .next

/-! ### Jobs of the engines -/

theorem execReelJobAccept_goes {region reel : Nat} : Goes (execReelJobAccept region reel s) := by
  unfold execReelJobAccept
  dsimp only
  split
  · refine .ite .next ?_
    split
    · exact .next
    · exact .ite .next .next
  · exact .next

theorem execReelJobComplete_goes {region reel : Nat} : Goes (execReelJobComplete region reel s) := by
  unfold execReelJobComplete
  split
  · exact .next
  · exact .ite .next .next

theorem execRowHandover_goes {table row : Nat} : Goes (execRowHandover table row s) := by
  unfold execRowHandover
  dsimp only
  split
  · exact .next
  · exact .ite .next .next

theorem execHandoverCopyDone_goes {table row : Nat} {rowData accData : List Byte} :
    Goes (execHandoverCopyDone table row rowData accData s) := by
  unfold execHandoverCopyDone
  split
  · exact .next
  · exact .ite .next .next

theorem execForwardEntryFree_goes {table row : Nat} {peersClear : Bool} :
    Goes (execForwardEntryFree table row peersClear s) := by
  unfold execForwardEntryFree
  split
  · exact .next
  · exact .ite .next .next

theorem execGatherJobComplete_goes {region job : Nat} : Goes (execGatherJobComplete region job s) := by
  unfold execGatherJobComplete
  split
  · exact .next
  · split
    · exact .next
    · refine .ite .next (.ite .next ?_)
      dsimp only
      split
      · exact .ite .next .next
      · exact .next

theorem execMmaGrant_goes {op : Nat} : Goes (execMmaGrant op s) := by
  unfold execMmaGrant
  split
  · exact .next
  · split
    · refine .ite .next ?_
      split <;> exact .next
    · exact .next

theorem execMmaComplete_goes {op : Nat} : Goes (execMmaComplete op s) := by
  unfold execMmaComplete
  split
  · exact .next
  · split
    · exact .ite .next .next
    · exact .next

theorem execTensorOpComplete_goes {op : Nat} : Goes (execTensorOpComplete op s) := by
  unfold execTensorOpComplete
  split
  · exact .next
  · refine .ite .next ?_
    dsimp only
    split <;> exact .next

theorem execReduce_goes {ctx region : Nat} : Goes (execReduce ctx region s) := by
  unfold execReduce
  refine .ite .next (.ite .next (.ite .next ?_))
  dsimp only
  split
  · exact .next
  · exact .ite .next .next

theorem execReduceDisableDeadline_goes {region job : Nat} : Goes (execReduceDisableDeadline region job s) := by
  unfold execReduceDisableDeadline
  split
  · exact .next
  · split
    · exact .next
    · exact .ite .next .next

theorem execBatchSteering_goes {ctx recordAddr : Nat} : Goes (execBatchSteering ctx recordAddr s) := by
  unfold execBatchSteering
  split <;> exact .next

theorem execStage_goes {ctx region : Nat} : Goes (execStage ctx region s) := by
  unfold execStage
  refine .ite .next (.ite .next (.ite .next ?_))
  split
  · exact .next
  · refine .ite .next ?_
    split <;> exact .next

theorem execWinchCopy_goes {ctx region : Nat} : Goes (execWinchCopy ctx region s) := by
  unfold execWinchCopy
  exact .ite .next (.ite .next (.ite .next .next))

theorem execWinchRelease_goes {ctx region : Nat} : Goes (execWinchRelease ctx region s) := by
  unfold execWinchRelease
  refine .ite .next (.ite .next (.ite .next ?_))
  split <;> exact .next

theorem execWinchEntryComplete_goes {region entry : Nat} : Goes (execWinchEntryComplete region entry s) := by
  unfold execWinchEntryComplete
  split
  · exact .next
  · refine .ite .next (.ite .next ?_)
    split
    · exact .ite .next .next
    · exact .next

/-- A transfer that begins a job accepts the job, which goes on. -/
theorem execTransferAcceptance_goes {xfer : Nat} : Goes (execTransferAcceptance xfer s) := by
  unfold execTransferAcceptance
  split
  · exact .next
  · refine .ite .next ?_
    split
    · exact execReelJobAccept_goes
    · split <;> exact .next
    · exact .ite .next (.ite execWinchCopy_goes execStage_goes)
    · exact .ite .next execReduce_goes
    · exact .next

/-! ### Keels, power and repair -/

theorem execLifetimeWriteRetry_goes {ok : Bool} : Goes (execLifetimeWriteRetry ok s) := by
  unfold execLifetimeWriteRetry
  split
  · exact .ite .next .next
  · exact .next

theorem execRetirementListAppend_goes : Goes (execRetirementListAppend s) := by
  unfold execRetirementListAppend
  split
  · exact .next
  · exact .ite .next .next

theorem execKeelStandbyJoin_goes : Goes (execKeelStandbyJoin s) := by
  unfold execKeelStandbyJoin
  split
  · exact .ite .next .next
  · exact .next

theorem execKeelRotation_goes {passed : Bool} : Goes (execKeelRotation passed s) := by
  unfold execKeelRotation
  split
  · exact .ite .next (.ite .next .next)
  · exact .next

theorem execEpochEdge_goes : Goes (execEpochEdge s) := by
  unfold execEpochEdge
  refine .ite .next (.ite .next ?_)
  split <;> exact .next

theorem execRailRise_goes {region : Nat} : Goes (execRailRise region s) := by
  unfold execRailRise
  split
  · exact .next
  · exact .ite .next .next

theorem execLiftOffsetApply_goes : Goes (execLiftOffsetApply s) := by
  unfold execLiftOffsetApply
  split
  · exact .next
  · exact .ite .next .next

theorem execMctpMessage_goes {m : MctpRequest} : Goes (execMctpMessage m s) := by
  unfold execMctpMessage
  refine .ite .next ?_
  dsimp only
  split <;> exact .next

theorem execCorePgLoss_goes {phys : Nat} : Goes (execCorePgLoss phys s) := by
  unfold execCorePgLoss
  refine .ite .next ?_
  dsimp only
  split
  · exact .ite .next .next
  · exact .next
  · exact .next

theorem execRegionMigration_goes {phys : Nat} : Goes (execRegionMigration phys s) := by
  unfold execRegionMigration
  split
  · exact .ite .next .next
  · exact .next

theorem execRegionFailure_goes {phys : Nat} : Goes (execRegionFailure phys s) := by
  unfold execRegionFailure
  split
  · exact .ite .next .next
  · exact .next

theorem execSpareSplice_goes {region cell : Nat} {lost : Bool} {poisonT0 : List Nat} :
    Goes (execSpareSplice region cell lost poisonT0 s) := by
  unfold execSpareSplice
  split
  · exact .next
  · split
    · exact .next
    · exact .ite .next .next

theorem execMigrationCopyDone_goes {region : Nat} {poisoned : List Nat} : Goes (execMigrationCopyDone region poisoned s) := by
  unfold execMigrationCopyDone
  split
  · split
    · exact .ite .next .next
    · exact .next
  · exact .next

theorem execHandshakeTimeout_goes {u : TimeoutUnit} : Goes (execHandshakeTimeout u s) := by
  unfold execHandshakeTimeout
  dsimp only
  split
  · exact .next
  · refine .ite .next ?_
    split <;> exact .next

theorem execUncorrectableError_goes {p : ErrorPlace} : Goes (execUncorrectableError p s) := by
  unfold execUncorrectableError
  split <;> exact .next

theorem execPatrolScrub_goes {place : ErrorPlace} {flips : Nat} : Goes (execPatrolScrub place flips s) := by
  unfold execPatrolScrub
  refine .ite .next ?_
  dsimp only
  split
  · exact .next
  · split <;> exact .next
  · exact .next

end Commands

/-! ### Every command -/

/-- A command that is not a word of a thread completes in every state. -/
theorem exec_goes {c : Instr} {s : State} (hc : wordOf c = none) : Goes (exec c s) := by
  cases c with
  | breakStopDone | gatherRecordRead | objectRemapBoundary | lendingRequest | creditGiveBack | ownerBatch
  | balancerRead | grant | max | exp | data | outcomePacket | abort | drainComplete | sqTail | cqHead | qctl
  | registerWrite | portDrain | laneWithdraw | freeLendTakeEffect | loftHalfActivate | epochPulse
  | burnerControlInterval | liftFlit | linkRetrain | peerLoss | pcieLinkDown | perstDeassert | perstAssert
  | functionLevelReset | tapInstruction | vaonValid | sharedPgLoss | lrefclkLoss | cellRetire | keelHeartbeat
  | lifetimeWrite | trefReturn | vaonLoss =>
    exact .ite .next .next
  | requestAcceptance => exact execRequestAcceptance_goes
  | transferAcceptance => exact execTransferAcceptance_goes
  | requestPerform => exact execRequestPerform_goes
  | requestCompletion => exact execRequestCompletion_goes
  | signalPerform => exact execSignalPerform_goes
  | watchAck => exact execWatchAck_goes
  | wakeNotification => exact execWakeNotification_goes
  | tokenPerform => exact execTokenPerform_goes
  | waitingFiringPlaced | delayTick | gather | scatterAdd | write | loftFill => exact .next
  | reelJobAccept => exact execReelJobAccept_goes
  | reelJobComplete => exact execReelJobComplete_goes
  | outcome | groupVote | regionMapApply | epochMasterTakeover | portBringup |
  identityFlit | nak | idleFlit | timeFlit | laneChangeFlit | powerGoodRise | trefLoss | prefclkLoss |
  configurationRequest => exact .ite .next (.ite .next .next)
  | gatherJobComplete => exact execGatherJobComplete_goes
  | rowHandover => exact execRowHandover_goes
  | handoverCopyDone => exact execHandoverCopyDone_goes
  | forwardEntryFree => exact execForwardEntryFree_goes
  | mmaGrant => exact execMmaGrant_goes
  | mmaComplete => exact execMmaComplete_goes
  | tensorOpComplete => exact execTensorOpComplete_goes
  | reduce => exact execReduce_goes
  | reduceDisableDeadline => exact execReduceDisableDeadline_goes
  | batchSteering => exact execBatchSteering_goes
  | stage => exact execStage_goes
  | winchCopy => exact execWinchCopy_goes
  | winchRelease => exact execWinchRelease_goes
  | winchEntryComplete => exact execWinchEntryComplete_goes
  | nopCommand | create | destroy | load | start | pause | resume | free | window | apply | publish | copy | balance |
  selfTest | calibration | exchange | checkpoint | restore | addendum => exact atCmd_goes
  | disable => exact execDisable_goes
  | disableForce => exact execDisableForce_goes
  | allocT2Frames => exact execAllocT2Frames_goes
  | allocPinnedT1 => exact execAllocPinnedT1_goes
  | allocObject => exact execAllocObject_goes
  | lend => exact execLend_goes
  | returnFrames => exact execReturnFrames_goes
  | commandAccept => exact execCommandAccept_goes
  | commandCompletion => exact execCommandCompletion_goes
  | completionPost => exact execCompletionPost_goes
  | groupVoteDeadline => exact execGroupVoteDeadline_goes
  | stagedApplyBoundary => exact execStagedApplyBoundary_goes
  | epochEdge => exact execEpochEdge_goes
  | railRise => exact execRailRise_goes
  | liftOffsetApply => exact execLiftOffsetApply_goes
  | dataFlit => exact .ite .next (.ite .next (.ite (.ite .next .next) .next))
  | laneFailure | keelPeriodicSelfCheck => exact .ite .next (.ite .next (.ite .next .next))
  | remoteOperationReceive => exact .ite .next (.ite .next (.ite .next (.ite .next (.ite .next (.ite .next .next)))))
  | completionTimeout => exact execCompletionTimeout_goes
  | mctpMessage => exact execMctpMessage_goes
  | corePgLoss => exact execCorePgLoss_goes
  | handshakeTimeout => exact execHandshakeTimeout_goes
  | uncorrectableError => exact execUncorrectableError_goes
  | spareSplice => exact execSpareSplice_goes
  | regionMigration => exact execRegionMigration_goes
  | migrationCopyDone => exact execMigrationCopyDone_goes
  | regionFailure => exact execRegionFailure_goes
  | serviceActionDone => exact execServiceActionDone_goes
  | keelStandbyJoin => exact execKeelStandbyJoin_goes
  | keelRotation => exact execKeelRotation_goes
  | patrolScrub => exact execPatrolScrub_goes
  | lifetimeWriteRetry => exact execLifetimeWriteRetry_goes
  | retirementListAppend => exact execRetirementListAppend_goes
  | _ => cases hc

end Sys2Proof.Machine

open Sys2Proof Sys2Proof.Machine

/-- Settles O8: a word is refused only by a check that lowering has made, and every other command does its work or nothing. -/
theorem everyCommandCompletes : Obligations.EveryCommandCompletes :=
  ⟨fun _ _ _ _ => exec_word_goes, fun _ _ => exec_goes⟩
end

section
/-! SUPPORT. A state that refutes the statement about tag breaks. A word that starts a tensor operation waits at issue while
eight operations of its thread are pending (R137), and a tagged word that waits there is counted when it issues (log entry
149): its arrival breaks nothing yet. -/

namespace Sys2Proof.Machine

open Sys2Proof

/-- A word that starts a tensor operation holds its thread while eight are pending (R137). -/
theorem tensorWord_full {c : Instr} {t : ThreadId} {k : Common} {f : State → State} {s : State} (hw : c.wf = true)
    (hi : issues c s t k.tag = true) (hg : guardOk k (theThread s t) = true) (hn : 8 ≤ (pendingOps s t).length) :
    tensorWord c t k f s = .next (holdAt s t (.waitTensor 7)) := by
  unfold tensorWord
  exact if_pos ⟨hw, hi, hg, hn⟩

def fullThread : ThreadId := { ctx := 0, cell := 0, group := 0, thread := 0 }

/-- The common fields of a word with tag 1 and no guard. -/
def tagOne : Common := { gen := false, gneg := false, gp := 0, tag := 1 }

/-- A copy with that tag. -/
def taggedCopy : Instr :=
  .tcopy fullThread tagOne
    { d1 := 0, d2 := 0, xe1 := false, x1 := 0, xe2 := false, x2 := 0, sreg := 0, minor := 0 }

/-- Eight operations of the thread, numbered from 0. -/
def fullOps : List TensorOp :=
  (List.range 8).map fun n =>
    { (default : TensorOp) with id := n, t := fullThread, kind := .tcopy default, stage := .running }

/-- A running context of one block whose thread stands at the first of two words with eight operations pending; comparator 0
breaks at the next arrival of tag 1. -/
def fullWait : State :=
  { State.reset with
    contexts := [(0, { Context.blank with
      state := .running, blocks := [(0, 0)], image := some { (default : Image) with code := [0, 0] } })]
    threads := [(fullThread, { theThread State.reset fullThread with run := .ready })]
    regs := [(offTagBreak 0 0, 0x80010001)]
    ops := fullOps, nextOp := 8 }

/-- What is known to hold of every reachable state does not shut the state out. -/
theorem fullWait_sound : Sound fullWait where
  mem := by decide
  requests := freshIds_nil
  ops := ⟨by decide, by decide⟩
  cmds := freshIds_nil
  transfers := freshIds_nil

theorem taggedCopy_passed : Passed taggedCopy fullWait := ⟨by decide, fun _ h => (by cases h), trivial⟩

theorem taggedCopy_issues : issues taggedCopy fullWait fullThread 1 = true := by decide

theorem breakingTag_fullWait : breakingTag fullWait 0 1 = some 0 := by decide

/-- The copy does not issue: its thread is held. -/
theorem exec_taggedCopy : exec taggedCopy fullWait = .next (holdAt fullWait fullThread (.waitTensor 7)) := by
  change execTcopy fullThread tagOne _ fullWait = _
  unfold execTcopy
  exact tensorWord_full (by decide) taggedCopy_issues (by decide) (by decide)

theorem holdAt_fullWait : (theThread (holdAt fullWait fullThread (.waitTensor 7)) fullThread).run = .waitTensor 7 := by rfl

theorem fullWait_run : (theThread fullWait fullThread).run = .ready := by rfl

end Sys2Proof.Machine

open Sys2Proof Sys2Proof.Machine

/-- Refutes O11: on `fullWait` the word would break the context as it issues, but it starts a tensor operation and waits for a
place among eight; the thread is held and no comparator has counted. The premise that is missing is that a word which starts a
tensor operation and whose guard holds finds fewer than eight pending. -/
theorem not_tagBreakStopsTheThread : ¬ Obligations.TagBreakStopsTheThread := by
  intro h
  obtain ⟨u, hu, hthreads, -⟩ := h taggedCopy fullThread _ fullWait 0 rfl taggedCopy_passed taggedCopy_issues (by decide)
    breakingTag_fullWait
  cases hu.symm.trans exec_taggedCopy
  have hsame := congrArg Thread.run (theThread_of_threads_eq hthreads fullThread)
  rw [holdAt_fullWait, fullWait_run] at hsame
  cases hsame
end

section
/-! SUPPORT. A state that refutes the statement about window faults. A request that is refused wakes every entry of the list
of threads that waits for its record; in a list that names a thread twice, the second entry is the thread itself, which goes
on past the end of its code. -/

namespace Sys2Proof.Machine

open Sys2Proof

def twiceThread : ThreadId := { ctx := 0, cell := 0, group := 0, thread := 0 }

/-- The common fields of a word with no tag and no guard. -/
def plainWord : Common := { gen := false, gneg := false, gp := 0, tag := 0 }

/-- A load of one byte at address 0 of window 0. -/
def byteLoad : AArgs := { data := 2, areg := 0, win := 0, minor := 0, disp := 0 }

/-- A thread inside a loop whose body ends at its word. -/
def loopThread : Thread :=
  { theThread State.reset twiceThread with
    pc := 1, run := .ready, loops := [{ start := 0, stop := 1, count := 2, index := 0 }] }

/-- A running context with no window, whose only thread is listed twice: ready at first, and then waiting for request 0. -/
def listedTwice : State :=
  { State.reset with
    contexts := [(0, { Context.blank with
      state := .running, blocks := [(0, 0)], image := some { (default : Image) with code := [0] } })]
    threads := [(twiceThread, loopThread), (twiceThread, { loopThread with run := .waitRecord 0 })] }

/-- What is known to hold of every reachable state does not shut the state out. -/
theorem listedTwice_sound : Sound listedTwice where
  mem := by decide
  requests := freshIds_nil
  ops := ⟨by decide, by decide⟩
  cmds := freshIds_nil
  transfers := freshIds_nil

theorem theThread_listedTwice : theThread listedTwice twiceThread = loopThread := rfl

theorem byteLoad_executes : Executes (.ld twiceThread plainWord byteLoad) twiceThread plainWord listedTwice where
  word := rfl
  passed := ⟨by decide, fun _ h => (by cases h), trivial⟩
  may := by decide
  fresh := by decide
  noBreak := by decide
  guard := by decide
  inside := by decide

theorem translate_byteLoad :
    translate listedTwice 0 (some 0) .read (ctxAddress byteLoad 1 (theThread listedTwice twiceThread)) 1 = none := by decide

/-- How a thread stands in the state that a command gives. -/
def runAfter (o : Host.Outcome State Fault Refusal) (t : ThreadId) : Option RunState :=
  match o with
  | .next u => some (theThread u t).run
  | _ => none

/-- The load ends its thread. -/
theorem runAfter_byteLoad :
    runAfter (exec (.ld twiceThread plainWord byteLoad) listedTwice) twiceThread = some .ended := by rfl

/-- A thread that only goes on would be ready. -/
theorem loopThread_goes_on :
    { (loopThread.wr byteLoad.data 0).advance with readyAt := now listedTwice }.run = .ready := by rfl

end Sys2Proof.Machine

open Sys2Proof Sys2Proof.Machine

/-- Refutes O23: on `listedTwice` the load that no window permits ends its thread, since the thread is listed a second time as
waiting for the request that the load would have been. The premise that is missing is that each thread is listed once. -/
theorem not_windowFaultWords : ¬ Obligations.WindowFaultWords := by
  intro h
  obtain ⟨u, hu, hthread, -⟩ := (h twiceThread plainWord byteLoad listedTwice).1 byteLoad_executes translate_byteLoad
  have hended : (theThread u twiceThread).run = .ended := by
    have h := runAfter_byteLoad
    rw [hu] at h
    exact Option.some.inj h
  have hready : (theThread u twiceThread).run = .ready := (congrArg Thread.run hthread).trans loopThread_goes_on
  rw [hended] at hready
  cases hready
end

section
/-! SUPPORT. What leaves every place alone: no byte of memory, no control register and no context changes while credits move,
requests leave, threads wake or end, tasks are handed out and work is withdrawn. -/

namespace Sys2Proof.Machine

open Sys2Proof

/-- No place has changed: no byte of memory, and nothing that says where an access goes and whether it arrives. -/
structure KeepsPlaces (s u : State) : Prop where
  mem : u.mem = s.mem
  regs : u.regs = s.regs
  contexts : u.contexts = s.contexts
  cfgs : u.cfgs = s.cfgs
  ports : u.ports = s.ports
  lost : ∀ L, regionLost u L = regionLost s L

/-- A region of which neither the vacancy nor the exchange has changed is lost as before. -/
theorem regionLost_congr {s u : State} {L : Nat} (hv : (regionOf u L).vacant = (regionOf s L).vacant)
    (he : (regionOf u L).exchange = (regionOf s L).exchange) : regionLost u L = regionLost s L := by
  unfold regionLost; rw [hv, he]

/-- Data kept by key in which every value changes alike reads so at every key, if the reset value stays. -/
theorem mget_map {α β : Type} [DecidableEq α] {d : β} {f : β → β} (hd : f d = d) (m : Map α β) (k : α) :
    mget d (m.map fun e => (e.1, f e.2)) k = f (mget d m k) := by
  induction m with
  | nil => exact hd.symm
  | cons e r ih =>
    obtain ⟨a, b⟩ := e
    by_cases h : a = k
    · simp [mget, mget?, h]
    · simpa [mget, mget?, h] using ih

namespace KeepsPlaces

variable {z s u : State}

theorem refl (s : State) : KeepsPlaces s s := ⟨rfl, rfl, rfl, rfl, rfl, fun _ => rfl⟩

theorem trans (a : KeepsPlaces z s) (b : KeepsPlaces s u) : KeepsPlaces z u :=
  ⟨b.mem.trans a.mem, b.regs.trans a.regs, b.contexts.trans a.contexts, b.cfgs.trans a.cfgs, b.ports.trans a.ports,
    fun L => (b.lost L).trans (a.lost L)⟩

/-- An update of other fields of the state. -/
theorem other (h : KeepsPlaces z s) (hm : u.mem = s.mem) (hr : u.regs = s.regs) (hx : u.contexts = s.contexts)
    (hc : u.cfgs = s.cfgs) (hp : u.ports = s.ports) (hl : u.logs = s.logs) : KeepsPlaces z u :=
  h.trans ⟨hm, hr, hx, hc, hp, fun L => by unfold regionLost regionOf; rw [hl]⟩

theorem ite {a b : State} {c : Prop} [Decidable c] (ha : KeepsPlaces z a) (hb : KeepsPlaces z b) :
    KeepsPlaces z (if c then a else b) := by
  split
  · exact ha
  · exact hb

theorem foldl {α : Type} {f : State → α → State} {l : List α} (hf : ∀ s a, KeepsPlaces z s → KeepsPlaces z (f s a))
    (h : KeepsPlaces z s) : KeepsPlaces z (l.foldl f s) := foldl_keeps (P := KeepsPlaces z) hf l h

theorem modRegion {L : Nat} {f : LogRegion → LogRegion} (h : KeepsPlaces z s)
    (hf : ∀ R, (f R).vacant = R.vacant ∧ (f R).exchange = R.exchange := by exact fun _ => ⟨rfl, rfl⟩) :
    KeepsPlaces z (modRegion s L f) := by
  refine h.trans ⟨rfl, rfl, rfl, rfl, rfl, fun M => ?_⟩
  by_cases hM : M = L
  · subst hM
    exact regionLost_congr (by rw [regionOf_modRegion, (hf _).1]) (by rw [regionOf_modRegion, (hf _).2])
  · unfold regionLost; rw [regionOf_modRegion_other hM]

theorem mapRegions {f : LogRegion → LogRegion} (h : KeepsPlaces z s)
    (hf : ∀ R, (f R).vacant = R.vacant ∧ (f R).exchange = R.exchange) (hz : f LogRegion.zero = LogRegion.zero) :
    KeepsPlaces z { s with logs := s.logs.map fun e => (e.1, f e.2) } := by
  refine h.trans ⟨rfl, rfl, rfl, rfl, rfl, fun L => ?_⟩
  have hr : regionOf { s with logs := s.logs.map fun e => (e.1, f e.2) } L = f (regionOf s L) := mget_map hz _ _
  exact regionLost_congr (by rw [hr, (hf _).1]) (by rw [hr, (hf _).2])

/-! ### Credits -/

theorem addStall {p c n : Nat} (h : KeepsPlaces z s) : KeepsPlaces z (addStall s p c n) := h.other rfl rfl rfl rfl rfl rfl

theorem giveBack {res : Resource} {n : Nat} (h : KeepsPlaces z s) : KeepsPlaces z (giveBack s res n) := by
  obtain ⟨d, l, he⟩ := giveBack_eq s res n
  exact he ▸ h.other rfl rfl rfl rfl rfl rfl

theorem returnCredits {l : List (Resource × Nat)} (h : KeepsPlaces z s) : KeepsPlaces z (returnCredits s l) :=
  foldl (fun _ _ h => ite h h.giveBack) h

theorem sweepWakes (h : KeepsPlaces z s) : KeepsPlaces z (sweepWakes s) :=
  ite h (returnCredits (h.other rfl rfl rfl rfl rfl rfl))

/-! ### Threads and tasks -/

theorem modThread {t : ThreadId} {f : Thread → Thread} (h : KeepsPlaces z s) : KeepsPlaces z (modThread s t f) := by
  unfold Machine.modThread
  split
  · exact h.other rfl rfl rfl rfl rfl rfl
  · exact h

theorem giveTask {L : Nat} {k : Taker} {x : ReadyTask} (h : KeepsPlaces z s) : KeepsPlaces z (giveTask s L k x) :=
  have hm := h.modRegion.modThread
  ite hm.sweepWakes hm

theorem serveTakers {L ctx l n : Nat} : ∀ {s : State}, KeepsPlaces z s → KeepsPlaces z (serveTakers s L ctx l n) := by
  induction n with
  | zero => exact id
  | succ n ih =>
    intro s h
    unfold Machine.serveTakers
    refine ite h ?_
    split
    · exact ih h.modRegion.giveTask
    · exact h

theorem serveAll {L ctx : Nat} (h : KeepsPlaces z s) : KeepsPlaces z (serveAll s L ctx) :=
  foldl (fun _ _ => serveTakers) h

theorem releaseFlows {L ctx : Nat} {p : FlowHeld → Bool} (h : KeepsPlaces z s) :
    KeepsPlaces z (releaseFlows s L ctx p) := ite h.modRegion.serveAll h

theorem recallTasks {L ctx l : Nat} (h : KeepsPlaces z s) : KeepsPlaces z (recallTasks s L ctx l) := by
  unfold Machine.recallTasks
  refine modRegion ?_
  exact foldl (fun _ _ => modThread) h

theorem placeTask {L ctx : Nat} {x : ReadyTask} (h : KeepsPlaces z s) : KeepsPlaces z (placeTask s L ctx x) :=
  serveTakers h.recallTasks.modRegion

theorem moveDue {L boundary n : Nat} : ∀ {s : State}, KeepsPlaces z s → KeepsPlaces z (moveDue s L boundary n) := by
  induction n with
  | zero => exact id
  | succ n ih =>
    intro s h
    unfold Machine.moveDue
    dsimp only
    split
    · exact ite (ih h.modRegion.placeTask) h
    · exact h

theorem endThread {t : ThreadId} (h : KeepsPlaces z s) : KeepsPlaces z (endThread s t) :=
  h.modThread.sweepWakes.releaseFlows

theorem settle {t : ThreadId} (h : KeepsPlaces z s) : KeepsPlaces z (settle s t) := by
  unfold Machine.settle
  split
  · exact ite h.endThread h
  · exact h

theorem wake {t : ThreadId} (h : KeepsPlaces z s) : KeepsPlaces z (wake s t) := h.modThread.settle

theorem dropTakers {p : ThreadId → Bool} (h : KeepsPlaces z s) : KeepsPlaces z (dropTakers s p) :=
  h.mapRegions (f := fun R => { R with takers := R.takers.filter fun k => !p k.t }) (fun _ => ⟨rfl, rfl⟩) rfl

/-! ### Requests that leave -/

theorem setOp {q : TensorOp} (h : KeepsPlaces z s) : KeepsPlaces z (setOp s q) := h.other rfl rfl rfl rfl rfl rfl

theorem issueFeeds {op n : Nat} : ∀ {s : State}, KeepsPlaces z s → KeepsPlaces z (issueFeeds s op n) := by
  induction n with
  | zero => exact id
  | succ n ih =>
    intro s h
    unfold Machine.issueFeeds
    split
    · split
      · exact ih (h.other rfl rfl rfl rfl rfl rfl)
      · exact h
    · exact h

theorem feedDone {op : Nat} {r : Request} (h : KeepsPlaces z s) : KeepsPlaces z (feedDone s op r) := by
  unfold Machine.feedDone
  split
  · split
    · exact foldl (fun _ _ => issueFeeds) h.setOp
    · exact h
  · exact h

theorem wakeRecord {req : Nat} (h : KeepsPlaces z s) : KeepsPlaces z (wakeRecord s req) :=
  foldl (fun _ _ h => ite h.wake h) h

theorem fenceCheck {t : ThreadId} (h : KeepsPlaces z s) : KeepsPlaces z (fenceCheck s t) := by
  unfold Machine.fenceCheck
  split
  · exact ite h.wake h
  · exact h

theorem finishRequest {r : Request} (h : KeepsPlaces z s) : KeepsPlaces z (finishRequest s r) := by
  let t := Machine.returnCredits { s with requests := s.requests.filter fun q => q.id ≠ r.id } r.credits
  have hc : KeepsPlaces z t := returnCredits (h.other rfl rfl rfl rfl rfl rfl)
  have ht : KeepsPlaces z (releaseAfter t r.id) := hc.other rfl rfl rfl rfl rfl rfl
  unfold Machine.finishRequest
  dsimp only
  split
  · exact ht.feedDone
  · refine fenceCheck (wakeRecord ?_)
    split
    · exact ite ht.wake ht
    · exact ht
  · exact ht.modRegion
  · exact ht

theorem dropWaiting {ctx : Nat} (h : KeepsPlaces z s) : KeepsPlaces z (dropWaiting s ctx) :=
  foldl (fun _ _ => finishRequest) h

/-! ### Work that is withdrawn -/

theorem withdrawWait {q : TensorOp} (h : KeepsPlaces z s) : KeepsPlaces z (withdrawWait s q) := by
  unfold Machine.withdrawWait
  split
  · unfold countRigWait modBlock
    dsimp only
    split
    · exact h.modRegion.addStall
    · exact h.modRegion
  · exact h

theorem dropOps {p : TensorOp → Bool} (h : KeepsPlaces z s) : KeepsPlaces z (dropOps s p) :=
  (foldl (fun _ _ => withdrawWait) h).other rfl rfl rfl rfl rfl rfl

theorem endTransfer {x : XferUse} (h : KeepsPlaces z s) : KeepsPlaces z (endTransfer s x) :=
  h.other rfl rfl rfl rfl rfl rfl

theorem dropQueued {L r ctx : Nat} (h : KeepsPlaces z s) : KeepsPlaces z (dropQueued s L r ctx) :=
  have hm := h.modRegion
  ite hm.endTransfer hm

theorem postEvent {f code ctx detail word : Nat} (h : KeepsPlaces z s) :
    KeepsPlaces z (postEvent s f code ctx detail word) := by
  obtain ⟨r, n, he⟩ := postEvent_eq s f code ctx detail word
  exact he ▸ h.other rfl rfl rfl rfl rfl rfl

theorem releaseVersions {t : Nat} (h : KeepsPlaces z s) : KeepsPlaces z (releaseVersions s t) :=
  foldl (fun _ _ => postEvent) (h.other rfl rfl rfl rfl rfl rfl)

theorem dropTaken {L ctx : Nat} (h : KeepsPlaces z s) : KeepsPlaces z (dropTaken s L ctx) :=
  foldl (fun _ _ h => h.modRegion.endTransfer.releaseVersions) h

theorem endGate {L ctx : Nat} (h : KeepsPlaces z s) : KeepsPlaces z (endGate s L ctx) := by
  unfold Machine.endGate
  split
  · exact h.modRegion.returnCredits
  · exact h

theorem dropHeads {L ctx : Nat} (h : KeepsPlaces z s) : KeepsPlaces z (dropHeads s L ctx) :=
  h.endGate.endTransfer.endTransfer

theorem modSeq {L : Nat} {f : Sequencer → Sequencer} (h : KeepsPlaces z s) : KeepsPlaces z (modSeq s L f) :=
  h.modRegion

end KeepsPlaces

end Sys2Proof.Machine
end

section
/-! SUPPORT. A context that pauses and one that has drained: the commands that end with it change nothing but themselves. -/

namespace Sys2Proof.Machine

open Sys2Proof

/-- Commands whose work ends change nothing but the commands. -/
theorem foldl_endCmd (l : List Cmd) (status detail : Nat) (result : Cmd → Nat) (s : State) :
    ∃ cs, l.foldl (fun s c => endCmd s c status detail (result c)) s = { s with cmds := cs } := by
  induction l generalizing s with
  | nil => exact ⟨s.cmds, rfl⟩
  | cons c r ih =>
    obtain ⟨cs, h⟩ := ih (endCmd s c status detail (result c))
    exact ⟨cs, h⟩

theorem endPauses_eq (s : State) (ctx : Nat) : ∃ cs, endPauses s ctx = { s with cmds := cs } :=
  foldl_endCmd _ stOk 0 (fun _ => 0) s

theorem endDisables_eq (s : State) (ctx : Nat) : ∃ cs, endDisables s ctx = { s with cmds := cs } :=
  foldl_endCmd _ stOk 0 (fun c => c.size) s

/-- A break that has stopped the threads pauses its context. -/
theorem exec_breakStopDone {s : State} {ctx : Nat} (hr : (ctxOf s ctx).state = .running)
    (hb : (ctxOf s ctx).breaking = true) : ∃ cs, exec (.breakStopDone ctx) s =
      .next { modCtx s ctx fun x => { x with state := .paused, breaking := false } with cmds := cs } := by
  obtain ⟨cs, h⟩ := endPauses_eq (modCtx s ctx fun x => { x with state := .paused, breaking := false }) ctx
  refine ⟨cs, ?_⟩
  change execBreakStopDone ctx s = _
  unfold execBreakStopDone
  dsimp only
  rw [if_neg (by simp [hr, hb]), h]

namespace KeepsPlaces

variable {z s : State}

theorem endThreads {ctx : Nat} (h : KeepsPlaces z s) : KeepsPlaces z (endThreads s ctx) :=
  h.other rfl rfl rfl rfl rfl rfl

theorem releaseCtxFlows {ctx : Nat} (h : KeepsPlaces z s) : KeepsPlaces z (releaseCtxFlows s ctx) :=
  foldl (fun _ _ => releaseFlows) h

theorem endDisables {ctx : Nat} (h : KeepsPlaces z s) : KeepsPlaces z (endDisables s ctx) := by
  obtain ⟨cs, he⟩ := endDisables_eq s ctx
  exact he ▸ h.other rfl rfl rfl rfl rfl rfl

theorem ctxOf {s u : State} (h : KeepsPlaces s u) (c : Nat) : ctxOf u c = Machine.ctxOf s c := by
  unfold Machine.ctxOf; rw [h.contexts]

end KeepsPlaces

/-- A context of which nothing is at work any more stops; its threads, takers and flows go. -/
theorem exec_drainComplete {s : State} {ctx : Nat} (hs : (ctxOf s ctx).state = .draining) (hd : drained s ctx = true) :
    ∃ u, exec (.drainComplete ctx) s = .next u ∧
      KeepsPlaces (modCtx s ctx fun x => { x with state := .stopped, drainCmd := none }) u := by
  have he : exec (.drainComplete ctx) s =
      .next (endDisables (releaseCtxFlows (sweepWakes (dropTakers (endThreads
        (modCtx s ctx fun x => { x with state := .stopped, drainCmd := none }) ctx) fun t => t.ctx == ctx)) ctx) ctx) := by
    change execDrainComplete ctx s = _
    unfold execDrainComplete
    exact if_neg (by simp [hs, hd])
  exact ⟨_, he, (KeepsPlaces.refl _).endThreads.dropTakers.sweepWakes.releaseCtxFlows.endDisables⟩

end Sys2Proof.Machine

open Sys2Proof Sys2Proof.Machine

/-- Settles O43: the break's end sets the state of its context alone; a drain's end sets it, and takes only threads and tasks
away. -/
theorem contextsPauseAndStop : Obligations.ContextsPauseAndStop := by
  intro s ctx
  refine ⟨fun hr hb => ?_, fun hs hd => ?_⟩
  · obtain ⟨cs, h⟩ := exec_breakStopDone hr hb
    have hx : ctxOf { modCtx s ctx fun x => { x with state := .paused, breaking := false } with cmds := cs } ctx =
        { ctxOf s ctx with state := .paused, breaking := false } :=
      mget_mset_same _ _ _ _
    exact ⟨_, h, by rw [hx], by rw [hx], rfl, rfl⟩
  · obtain ⟨u, h, hk⟩ := exec_drainComplete hs hd
    exact ⟨u, h, by rw [hk.ctxOf, ctxOf_modCtx], hk.mem⟩
end

section
/-! SUPPORT. The epoch boundary for lofts and pool objects. Each object that is re-homed or evicted is replaced by its new
version, found by its handle; the handles of the pool are distinct, so the pool is mapped by one function of an object. -/

namespace Sys2Proof.Machine

open Sys2Proof

/-! ### Lofts -/

/-- A region all of whose ready loft halves have become active (R220). -/
def LogRegion.activated (R : LogRegion) : LogRegion := { R with lofts := R.lofts.map fun x => (x.1, x.2.activate) }

/-- At a boundary every loft that has filled a half changes to it. -/
theorem loftOf_activated (s : State) (L c : Nat) :
    loftOf { s with logs := s.logs.map fun e => (e.1, e.2.activated) } L c = (loftOf s L c).activate := by
  have hregion : regionOf { s with logs := s.logs.map fun e => (e.1, e.2.activated) } L = (regionOf s L).activated :=
    mget_map rfl s.logs L
  unfold loftOf
  rw [hregion]
  exact mget_map (f := Loft.activate) rfl _ _

theorem exec_loftHalfActivate {s : State} (hb : isBoundary (now s) = true) :
    exec .loftHalfActivate s = .next { s with logs := s.logs.map fun e => (e.1, e.2.activated) } := by
  change execLoftHalfActivate s = _
  unfold execLoftHalfActivate
  exact if_neg (by simp [hb])

/-! ### A pool whose objects are replaced by handle -/

/-- An object after each object of a list has replaced the one of its handle. -/
def replacedBy (g : PoolObject → PoolObject → PoolObject) (l : List PoolObject) (x : PoolObject) : PoolObject :=
  l.foldl (fun x o => if x.handle = o.handle then g o x else x) x

section Replace

variable {g : PoolObject → PoolObject → PoolObject} {l : List PoolObject} {x : PoolObject}

theorem replacedBy_other (h : ∀ o ∈ l, x.handle ≠ o.handle) : replacedBy g l x = x := by
  induction l with
  | nil => rfl
  | cons o r ih =>
    unfold replacedBy
    rw [List.foldl_cons, if_neg (h o List.mem_cons_self)]
    exact ih fun q hq => h q (List.mem_cons_of_mem _ hq)

theorem replacedBy_mem (hg : ∀ o x, x.handle = o.handle → (g o x).handle = x.handle) (hn : (l.map (·.handle)).Nodup)
    (hx : x ∈ l) : replacedBy g l x = g x x := by
  induction l with
  | nil => cases hx
  | cons o r ih =>
    obtain ⟨ho, hr⟩ := List.nodup_cons.mp hn
    unfold replacedBy
    rw [List.foldl_cons]
    rcases List.mem_cons.mp hx with rfl | hxr
    · rw [if_pos rfl]
      refine replacedBy_other fun q hq he => ho ?_
      rw [hg x x rfl] at he
      exact List.mem_map.mpr ⟨q, hq, he.symm⟩
    · rw [if_neg fun he => ho (List.mem_map.mpr ⟨x, hxr, he⟩)]
      exact ih hr hxr

/-- Where the objects of a test replace those of their handles in a pool of distinct handles, each replaces itself. -/
theorem map_replacedBy_filter {p : PoolObject → Bool} (hg : ∀ o x, x.handle = o.handle → (g o x).handle = x.handle)
    (hn : (l.map (·.handle)).Nodup) :
    l.map (replacedBy g (l.filter p)) = l.map fun x => if p x then g x x else x := by
  refine List.map_congr_left fun x hx => ?_
  split
  · next hp =>
    exact replacedBy_mem hg (hn.sublist (List.filter_sublist.map _)) (List.mem_filter.mpr ⟨hx, hp⟩)
  · next hp =>
    refine replacedBy_other fun o ho he => hp ?_
    obtain ⟨hol, hop⟩ := List.mem_filter.mp ho
    exact List.inj_on_of_nodup_map hn hx hol he ▸ hop

/-- Steps that each replace one object replace them all. -/
theorem objects_foldl {f : State → PoolObject → State}
    (hf : ∀ s o, (f s o).objects = s.objects.map fun x => if x.handle = o.handle then g o x else x) (s : State) :
    (l.foldl f s).objects = s.objects.map (replacedBy g l) := by
  induction l generalizing s with
  | nil => exact (List.map_id _).symm
  | cons o r ih =>
    rw [List.foldl_cons, ih, hf, List.map_map]
    rfl

end Replace

/-! ### What the boundary does to one object -/

/-- The object that moves to the home its copy has filled (R355). -/
def PoolObject.rehomed (o x : PoolObject) : PoolObject :=
  match o.nextHome with
  | some h => { o with home := some h, nextHome := none, evicting := false }
  | none => x

/-- The object that loses its home (R354). -/
def PoolObject.evicted (o x : PoolObject) : PoolObject :=
  match o.home with
  | some _ => { o with home := none, evicting := false }
  | none => x

section

variable {o : PoolObject} {h : Nat × Nat} (x : PoolObject)

theorem PoolObject.rehomed_none (hn : o.nextHome = none) : o.rehomed x = x := by
  unfold rehomed; rw [hn]

theorem PoolObject.rehomed_some (hn : o.nextHome = some h) :
    o.rehomed x = { o with home := some h, nextHome := none, evicting := false } := by
  unfold rehomed; rw [hn]

theorem PoolObject.evicted_none (hn : o.home = none) : o.evicted x = x := by
  unfold evicted; rw [hn]

theorem PoolObject.evicted_some (hn : o.home = some h) : o.evicted x = { o with home := none, evicting := false } := by
  unfold evicted; rw [hn]

end

theorem PoolObject.rehomed_handle (o x : PoolObject) (h : x.handle = o.handle) : (o.rehomed x).handle = x.handle := by
  unfold rehomed
  split
  · exact h.symm
  · rfl

theorem PoolObject.evicted_handle (o x : PoolObject) (h : x.handle = o.handle) : (o.evicted x).handle = x.handle := by
  unfold evicted
  split
  · exact h.symm
  · rfl

theorem PoolObject.rehomed_of_next (x : PoolObject) : (if x.nextHome.isSome then x.rehomed x else x) = x.rehomed x := by
  unfold rehomed
  cases x.nextHome <;> rfl

theorem PoolObject.rehomed_nextHome (x : PoolObject) : (x.rehomed x).nextHome = none := by
  unfold rehomed
  split
  · rfl
  · assumption

theorem PoolObject.evicted_nextHome (x : PoolObject) : (x.evicted x).nextHome = x.nextHome := by
  unfold evicted
  split <;> rfl

/-- An object that a boundary evicts, if it is selected. -/
def PoolObject.left (x : PoolObject) : PoolObject := if x.evicting then x.evicted x else x

/-- An object after a boundary at which it is re-homed or evicted, or neither. -/
def PoolObject.remapped (x : PoolObject) : PoolObject := (x.rehomed x).left

theorem PoolObject.left_handle (x : PoolObject) : x.left.handle = x.handle := by
  unfold left
  split
  · exact evicted_handle x x rfl
  · rfl

theorem PoolObject.left_nextHome (x : PoolObject) : x.left.nextHome = x.nextHome := by
  unfold left
  split
  · exact evicted_nextHome x
  · rfl

theorem PoolObject.remapped_handle (x : PoolObject) : x.remapped.handle = x.handle :=
  (left_handle _).trans (rehomed_handle x x rfl)

theorem PoolObject.remapped_nextHome (x : PoolObject) : x.remapped.nextHome = none :=
  (left_nextHome _).trans x.rehomed_nextHome

theorem PoolObject.remapped_home_of_next {x : PoolObject} {h : Nat × Nat} (hx : x.nextHome = some h) :
    x.remapped.home = some h := by
  simp [remapped, left, rehomed_some x hx]

theorem PoolObject.remapped_home_of_evicting {x : PoolObject} (hx : x.nextHome = none) (he : x.evicting = true)
    (hh : x.home ≠ none) : x.remapped.home = none := by
  obtain ⟨h, hh⟩ := Option.ne_none_iff_exists'.mp hh
  simp [remapped, left, rehomed_none x hx, evicted_some x hh, he]

/-! ### What the boundary does to the pool -/

theorem mapObject_eq (s : State) (o : PoolObject) : ∃ rs, mapObject s o = { s with regs := rs } := by
  unfold mapObject
  generalize o.windows = l
  induction l generalizing s with
  | nil => exact ⟨s.regs, rfl⟩
  | cons x r ih =>
    obtain ⟨rs, h⟩ := ih (setRaw s (offWindow x.1 x.2)
      (BitVec.ofNat 64 (winEntry s x.1 x.2 - bits (winEntry s x.1 x.2) 34 0 + o.place / 2097152)))
    exact ⟨rs, h⟩

@[simp] theorem mapObject_mem (s : State) (o : PoolObject) : (mapObject s o).mem = s.mem := by
  obtain ⟨_, h⟩ := mapObject_eq s o; rw [h]

@[simp] theorem mapObject_objects (s : State) (o : PoolObject) : (mapObject s o).objects = s.objects := by
  obtain ⟨_, h⟩ := mapObject_eq s o; rw [h]

theorem rehome_mem (s : State) (o : PoolObject) : (rehome s o).mem = s.mem := by
  unfold rehome
  split
  · rfl
  · dsimp only
    rw [mapObject_mem, modObject_mem]
    split
    · split <;> rfl
    · rfl

theorem rehome_objects (s : State) (o : PoolObject) :
    (rehome s o).objects = s.objects.map fun x => if x.handle = o.handle then o.rehomed x else x := by
  unfold rehome
  split
  · next hn => simp [PoolObject.rehomed_none _ hn]
  · next h hn =>
    simp only [PoolObject.rehomed_some _ hn, mapObject_objects]
    split
    · split <;> rfl
    · rfl

theorem evict_mem (s : State) (o : PoolObject) : (evict s o).mem = s.mem := by
  unfold evict
  split
  · rfl
  · dsimp only
    rw [mapObject_mem, modObject_mem]
    split <;> rfl

theorem evict_objects (s : State) (o : PoolObject) :
    (evict s o).objects = s.objects.map fun x => if x.handle = o.handle then o.evicted x else x := by
  unfold evict
  split
  · next hn => simp [PoolObject.evicted_none _ hn]
  · next H u hn =>
    simp only [PoolObject.evicted_some _ hn, mapObject_objects]
    split <;> rfl

/-- Lofts that take runs change neither memory nor objects. -/
theorem placeLoft_mem (L : Nat) (s : State) (c : Nat) :
    (placeLoft L s c).mem = s.mem ∧ (placeLoft L s c).objects = s.objects := by
  unfold placeLoft
  dsimp only
  split <;> exact ⟨rfl, rfl⟩

theorem freedUnits_mem (s : State) : (freedUnits s).mem = s.mem ∧ (freedUnits s).objects = s.objects := by
  unfold freedUnits
  dsimp only
  refine foldl_keeps (P := fun u : State => u.mem = s.mem ∧ u.objects = s.objects) (fun b e hb => ?_) _ ⟨rfl, rfl⟩
  refine foldl_keeps (P := fun u : State => u.mem = s.mem ∧ u.objects = s.objects) (fun b c hb => ?_) _ hb
  exact ⟨(placeLoft_mem _ _ _).1.trans hb.1, (placeLoft_mem _ _ _).2.trans hb.2⟩

/-- The pool after a boundary. -/
theorem exec_objectRemapBoundary {s : State} (hb : isBoundary (now s) = true) (hn : (s.objects.map (·.handle)).Nodup) :
    Completes .objectRemapBoundary s fun u => u.mem = s.mem ∧ u.objects = s.objects.map PoolObject.remapped := by
  let a := (s.objects.filter fun o => o.nextHome.isSome).foldl rehome s
  let b := (a.objects.filter fun o => o.evicting).foldl evict a
  have hexec : exec .objectRemapBoundary s = .next (freedUnits b) := by
    change execObjectRemapBoundary s = _
    unfold execObjectRemapBoundary
    exact if_neg (by simp [hb])
  have ha : a.objects = s.objects.map fun x => x.rehomed x :=
    (objects_foldl rehome_objects s).trans ((map_replacedBy_filter PoolObject.rehomed_handle hn).trans
      (List.map_congr_left fun x _ => x.rehomed_of_next))
  have hna : (a.objects.map (·.handle)).Nodup := by
    have : a.objects.map (·.handle) = s.objects.map (·.handle) := by
      rw [ha, List.map_map]
      exact List.map_congr_left fun x _ => x.rehomed_handle x rfl
    rwa [this]
  have hbo : b.objects = a.objects.map PoolObject.left :=
    (objects_foldl evict_objects a).trans (map_replacedBy_filter PoolObject.evicted_handle hna)
  have hma : a.mem = s.mem := foldl_keeps (P := fun u => u.mem = s.mem) (fun u o h => (rehome_mem u o).trans h) _ rfl
  have hmb : b.mem = a.mem := foldl_keeps (P := fun u => u.mem = a.mem) (fun u o h => (evict_mem u o).trans h) _ rfl
  refine ⟨_, hexec, (freedUnits_mem b).1.trans (hmb.trans hma), ?_⟩
  rw [(freedUnits_mem b).2, hbo, ha, List.map_map]
  rfl

end Sys2Proof.Machine

open Sys2Proof Sys2Proof.Machine

/-- Settles O38: the ready halves change in one map of the regions, and the pool is mapped by one function of an object. -/
theorem boundaryRemaps : Obligations.BoundaryRemaps := by
  intro s
  refine ⟨fun hb => ?_, fun hb => ⟨?_, ?_⟩, fun hb hn => ?_⟩
  · exact ⟨_, exec_loftHalfActivate hb, rfl, rfl, loftOf_activated s⟩
  · exact if_pos (by simp [hb])
  · exact if_pos (by simp [hb])
  · obtain ⟨u, hu, hmem, hobjects⟩ := exec_objectRemapBoundary hb hn
    have hafter : ∀ x ∈ s.objects, x.remapped ∈ u.objects := fun x hx => hobjects ▸ List.mem_map_of_mem hx
    refine ⟨u, hu, hmem, ?_, fun y hy => ?_, fun x hx h hnext => ?_, fun x hx hnext hev hhome => ?_⟩
    · rw [hobjects, List.map_map]
      exact List.map_congr_left fun x _ => x.remapped_handle
    · rw [hobjects] at hy
      obtain ⟨x, -, rfl⟩ := List.mem_map.mp hy
      exact x.remapped_nextHome
    · exact ⟨_, hafter x hx, x.remapped_handle, PoolObject.remapped_home_of_next hnext⟩
    · exact ⟨_, hafter x hx, x.remapped_handle, PoolObject.remapped_home_of_evicting hnext hev hhome⟩
end

section
/-! SUPPORT. What a write leaves alone. A write to a peer changes only what takes operations there: credits, links and what
has left; any write leaves the contexts and the requests alone, and so does the count of an access. -/

namespace Sys2Proof.Machine

open Sys2Proof

/-! ### Operations sent to peers -/

/-- Nothing has changed but credits, links and what has left the device. -/
def OnlySends (s u : State) : Prop := ∃ d l k o, u = { s with dests := d, ledgers := l, links := k, out := o }

namespace OnlySends

variable {z s u : State}

theorem refl (s : State) : OnlySends s s := ⟨_, _, _, _, rfl⟩

theorem other {d : Map Resource Destination} {l : Map (AdmPoint × Resource) Ledger} {k : Map Nat Link} {o : List Output}
    (h : OnlySends z s) : OnlySends z { s with dests := d, ledgers := l, links := k, out := o } := by
  obtain ⟨_, _, _, _, rfl⟩ := h
  exact ⟨_, _, _, _, rfl⟩

theorem ite {a b : State} {c : Prop} [Decidable c] (ha : OnlySends z a) (hb : OnlySends z b) :
    OnlySends z (if c then a else b) := by
  split
  · exact ha
  · exact hb

theorem askLending {led : AdmPoint} {res : Resource} {n : Nat} (h : OnlySends z s) :
    OnlySends z (askLending s led res n) := by
  unfold Machine.askLending
  refine ite h ?_
  let t := setDest s res { destOf s res with waiting := (destOf s res).waiting ++ [(led, res, n)] }
  obtain ⟨d, l, he⟩ := serveLending_eq res (destOf t res).waiting.length t
  exact he ▸ h.other

theorem reserve {x : AdmPoint × Resource × Nat} (h : OnlySends z s) : OnlySends z (reserve s x) := ite h.other h.other

theorem modLink {p : Nat} {f : Link → Link} (h : OnlySends z s) : OnlySends z (modLink s p f) := h.other

theorem emitFlit {port kind seq : Nat} {payload : List Byte} (h : OnlySends z s) :
    OnlySends z (emitFlit s port kind seq payload) := h.other

theorem sendFlits {port k : Nat} : ∀ {s : State}, OnlySends z s → OnlySends z (sendFlits port k s) := by
  induction k with
  | zero => exact id
  | succ k ih =>
    intro s h
    unfold Machine.sendFlits
    split
    · exact h
    · exact ite h (ite h.askLending (ih (ite h h.reserve).modLink.emitFlit))

theorem queueOp {held : Bool} {port : Nat} {o : OpHeader} {payload : List Byte} (h : OnlySends z s) :
    OnlySends z (queueOp held s port o payload) := sendFlits h.other

theorem sendPieces {fn k : Nat} : ∀ {s : State} {a : Nat} {bs : List Byte}, OnlySends z s →
    OnlySends z (sendPieces s fn a bs k) := by
  induction k with
  | zero => exact id
  | succ k ih =>
    intro s a bs h
    unfold Machine.sendPieces
    refine ite h ?_
    split
    · exact ih h.queueOp
    · exact h

theorem keepsPlaces (h : OnlySends s u) : KeepsPlaces s u := by
  obtain ⟨_, _, _, _, rfl⟩ := h
  exact (KeepsPlaces.refl s).other rfl rfl rfl rfl rfl rfl

end OnlySends

/-- A write to a peer leaves every place of this device alone. -/
theorem KeepsPlaces.devWrite_peer {z s : State} {fn a : Nat} {bs : List Byte} (ha : spaceOf a = 4) (h : KeepsPlaces z s) :
    KeepsPlaces z (devWrite s fn a bs) := by
  unfold Machine.devWrite coreWrite
  rw [if_pos ha]
  exact ite h (ite h (ite h (h.trans (OnlySends.refl s).sendPieces.keepsPlaces)))

/-! ### Writes of memory, and what an access counts -/

/-- No context and no request has changed. -/
structure KeepsHeld (s u : State) : Prop where
  contexts : u.contexts = s.contexts
  requests : u.requests = s.requests

namespace KeepsHeld

variable {z s u : State}

theorem refl (s : State) : KeepsHeld s s := ⟨rfl, rfl⟩

theorem other (h : KeepsHeld z s) (hx : u.contexts = s.contexts) (hr : u.requests = s.requests) : KeepsHeld z u :=
  ⟨hx.trans h.contexts, hr.trans h.requests⟩

theorem ite {a b : State} {c : Prop} [Decidable c] (ha : KeepsHeld z a) (hb : KeepsHeld z b) :
    KeepsHeld z (if c then a else b) := by
  split
  · exact ha
  · exact hb

theorem foldl {α : Type} {f : State → α → State} {l : List α} (hf : ∀ s a, KeepsHeld z s → KeepsHeld z (f s a))
    (h : KeepsHeld z s) : KeepsHeld z (l.foldl f s) := foldl_keeps (P := KeepsHeld z) hf l h

theorem ctxOf (h : KeepsHeld s u) (c : Nat) : ctxOf u c = Machine.ctxOf s c := by
  unfold Machine.ctxOf; rw [h.contexts]

theorem sends (h : KeepsHeld z s) (hs : OnlySends s u) : KeepsHeld z u := by
  obtain ⟨_, _, _, _, rfl⟩ := hs
  exact h.other rfl rfl

theorem postEvent {f code ctx detail word : Nat} (h : KeepsHeld z s) : KeepsHeld z (postEvent s f code ctx detail word) := by
  obtain ⟨_, _, he⟩ := postEvent_eq s f code ctx detail word
  exact he ▸ h.other rfl rfl

theorem updatePage {page : Nat} (h : KeepsHeld z s) : KeepsHeld z (updatePage s page) := by
  unfold Machine.updatePage
  dsimp only
  refine ite h (ite (postEvent ?_) ?_)
  all_goals
    split
    · exact ite (postEvent (h.other rfl rfl)) (h.other rfl rfl)
    · exact h.other rfl rfl

theorem devWrite {fn a : Nat} {bs : List Byte} (h : KeepsHeld z s) : KeepsHeld z (devWrite s fn a bs) := by
  have hm : KeepsHeld z { s with mem := s.mem.store (memKey s a) bs } := h.other rfl rfl
  exact ite h (ite h (ite (ite h (h.sends (OnlySends.refl s).sendPieces))
    (ite (foldl (fun _ _ => updatePage) hm) (ite (hm.other rfl rfl) (hm.other rfl rfl)))))

theorem countAct {x : ActUnit} {c : Option Nat} {k : ActClass} {n : Nat} (h : KeepsHeld z s) :
    KeepsHeld z (countAct s x c k n) := ite h (h.other rfl rfl)

theorem countCrossing {own die port n : Nat} {c : Option Nat} (h : KeepsHeld z s) :
    KeepsHeld z (countCrossing s own c die port n) := countAct (ite h.countAct h)

theorem countAccess {own a n : Nat} {c : Option Nat} (h : KeepsHeld z s) : KeepsHeld z (countAccess s own c a n) := by
  unfold Machine.countAccess
  refine ite h ?_
  split
  · exact foldl (fun _ _ => countAct) h.countCrossing
  · exact countAct (ite (countAct (ite h.countAct h)) (ite h.countAct h))
  · exact countAct (ite (countAct (ite h.countAct h)) (ite h.countAct h))
  · split
    · exact h.countCrossing.countAct.countAct
    · exact h
  · exact h.countCrossing.countAct

end KeepsHeld

end Sys2Proof.Machine
end

section
/-! SUPPORT. CREATE, DESTROY and LOAD: the context that each makes, and what a LOAD leaves alone until it ends. -/

namespace Sys2Proof.Machine

open Sys2Proof

/-! ### CREATE and DESTROY -/

@[simp] theorem chargeWork_threads {s t : State} {id : Nat} : (chargeWork s t id).threads = t.threads := rfl
@[simp] theorem chargeWork_hold {s t : State} {id : Nat} : (chargeWork s t id).hold = t.hold := rfl
@[simp] theorem chargeWork_groups {s t : State} {id : Nat} : (chargeWork s t id).groups = t.groups := rfl
@[simp] theorem chargeWork_requests {s t : State} {id : Nat} : (chargeWork s t id).requests = t.requests := rfl
@[simp] theorem chargeWork_ctxOf {s t : State} {id c : Nat} : ctxOf (chargeWork s t id) c = ctxOf t c := rfl

/-- A list of blocks in cell order holds the same blocks. -/
theorem inCellOrder_perm (l : List (Nat × Nat)) : (inCellOrder l).Perm l := List.mergeSort_perm _ _

/-- Where CREATE has no fault there is a free context. -/
theorem freeContext_of_createFault {s : State} {c : Cmd} {l : List (Nat × Nat)} (h : createFault s c l = none) :
    ∃ k, freeContext s = some k := by
  refine Option.ne_none_iff_exists'.mp fun hnone => ?_
  unfold createFault at h
  simp only [hnone, Option.isNone_none, true_or, if_true] at h
  split_ifs at h

/-- The context that CREATE makes. -/
def newCtx (s : State) (c : Cmd) : Context :=
  { Context.blank with
    state := .created, fn := c.fn, slot := (newSlot s c.fn).getD 0xFF, blocks := inCellOrder (namedBlocks s c) }

theorem createCtx_eq {s : State} {c : Cmd} {k : Nat} (hf : createFault s c (namedBlocks s c) = none)
    (hk : freeContext s = some k) : createCtx s c = endCmd (setCtx (clearBlock (disownActivity s k) k) k (newCtx s c)) c
      stOk 0 (k + (newCtx s c).slot * 256) := by
  unfold createCtx
  dsimp only
  rw [hf, hk]
  rfl

theorem createCtx_fault {s : State} {c : Cmd} {st d : Nat} (hf : createFault s c (namedBlocks s c) = some (st, d)) :
    createCtx s c = endCmd s c st d 0 := by
  unfold createCtx
  dsimp only
  rw [hf]

section

variable {s : State} {id : Nat} {c : Cmd}

theorem completes_create (h : AtWork s id 1 c) (hf : createFault s c (namedBlocks s c) = none) :
    Completes (.create id) s fun u =>
      ∃ k, freeContext s = some k ∧ (ctxOf u k).state = .created ∧ (ctxOf u k).fn = c.fn ∧
        (ctxOf u k).blocks.Perm (namedBlocks s c) ∧ (∀ j, j ≠ k → ctxOf u j = ctxOf s j) ∧ u.mem = s.mem ∧
        u.threads = s.threads ∧ Ended u id 0 0 (k + (ctxOf u k).slot * 256) := by
  obtain ⟨k, hk⟩ := freeContext_of_createFault hf
  refine h.completes (f := createCtx s) rfl ?_
  rw [createCtx_eq hf hk]
  have hx : ctxOf (setCtx (clearBlock (disownActivity s k) k) k (newCtx s c)) k = newCtx s c := mget_mset_same _ _ _ _
  simp only [chargeWork_ctxOf, endCmd_ctxOf, chargeWork_mem, chargeWork_threads, endCmd_mem, endCmd_threads]
  refine ⟨k, hk, by rw [hx]; rfl, by rw [hx]; rfl, ?_, fun j hj => ?_, rfl, rfl, ?_⟩
  · rw [hx]; exact inCellOrder_perm _
  · exact mget_mset_other _ _ _ hj
  · rw [hx, ← findCmd_id h.found]
    exact ended_of_endCmd (t := setCtx (clearBlock (disownActivity s k) k) k (newCtx s c)) h.listed

/-- A state in which a context has become empty: nothing of it is listed. -/
def emptied (s : State) (ctx : Nat) : State :=
  { clearBlock (setCtx s ctx Context.blank) ctx with
    threads := s.threads.filter fun e => e.1.ctx != ctx
    groups := s.groups.filter fun e => e.1.1 != ctx
    vectors := s.vectors.filter fun e => e.1.1 != ctx }

theorem destroyCtx_eq (s : State) (ctx f q : Nat) : ∃ t, destroyCtx s ctx f q = emptied t ctx := ⟨_, rfl⟩

theorem completes_destroy (h : AtWork s id 2 c) : Completes (.destroy id) s fun u =>
    ctxOf u c.ctx = Context.blank ∧ (∀ e ∈ u.threads, e.1.ctx ≠ c.ctx) ∧ ∀ e ∈ u.groups, e.1.1 ≠ c.ctx := by
  refine h.completes (f := destroyCmd s) rfl ?_
  obtain ⟨t, ht⟩ := destroyCtx_eq s c.ctx c.fn c.queue
  unfold destroyCmd
  rw [ht, chargeWork_ctxOf, chargeWork_threads, chargeWork_groups, endCmd_ctxOf, endCmd_threads, endCmd_groups]
  refine ⟨mget_mset_same _ _ _ _, fun e he => ?_, fun e he => ?_⟩
  · simpa using (List.mem_filter.mp he).2
  · simpa using (List.mem_filter.mp he).2

end

/-! ### LOAD -/

/-- The transfers of a LOAD that ask change only what asks for rates. -/
theorem askTransfer_eq (s : State) (u : XferUse) (c into : Option Nat) (hops : List (Hop × Nat)) :
    ∃ x n, askTransfer s u c into hops = { s with transfers := x, nextXfer := n } := by
  unfold askTransfer
  split
  · split
    · exact ⟨s.transfers, s.nextXfer, rfl⟩
    · exact ⟨_, s.nextXfer, rfl⟩
  · exact ⟨_, _, rfl⟩

theorem tryTransfer_eq (s : State) (x : Transfer) : ∃ l, tryTransfer s x = { s with transfers := l } := by
  unfold tryTransfer
  split
  · exact ⟨_, rfl⟩
  · exact ⟨s.transfers, rfl⟩

theorem reserveRates_eq (s : State) (u : XferUse) (c into : Option Nat) (hops : List (Hop × Nat)) :
    ∃ x n, reserveRates s u c into hops = { s with transfers := x, nextXfer := n } := by
  obtain ⟨x, n, ha⟩ := askTransfer_eq s u c into hops
  unfold reserveRates
  rw [ha]
  dsimp only
  split
  · obtain ⟨l, ht⟩ := tryTransfer_eq { s with transfers := x, nextXfer := n } ‹_›
    exact ⟨l, n, ht⟩
  · exact ⟨x, n, rfl⟩

theorem askLoad_eq (s : State) (c : Cmd) (im : Image) (n : Nat) :
    ∃ x m, askLoad s c im n = { s with transfers := x, nextXfer := m } := by
  unfold askLoad
  refine foldl_keeps (P := fun u => ∃ x m, u = { s with transfers := x, nextXfer := m }) ?_ _
    ⟨s.transfers, s.nextXfer, rfl⟩
  rintro _ L ⟨x, m, rfl⟩
  obtain ⟨y, k, h⟩ := reserveRates_eq { s with transfers := x, nextXfer := m } (.load c.id L) (some c.ctx) none
    (loadHops (c.view { s with transfers := x, nextXfer := m }) c.ctx im n L)
  exact ⟨y, k, h⟩

theorem keepLowered_eq (s : State) (d : BitVec 384) (rev : Nat) : ∃ l, keepLowered s d rev = { s with lowered := l } := by
  unfold keepLowered
  split
  · exact ⟨s.lowered, rfl⟩
  · exact ⟨_, rfl⟩

theorem writeConstants_held (s : State) (c : Cmd) (im : Image) (bs : List Byte) : KeepsHeld s (writeConstants s c im bs) := by
  unfold writeConstants
  split
  · exact (KeepsHeld.refl s).countAccess.devWrite
  · exact .refl s

theorem writeConstants_config (s : State) (c : Cmd) (im : Image) (bs : List Byte) :
    KeepsConfig s (writeConstants s c im bs) := by
  unfold writeConstants
  split
  · exact (KeepsConfig.refl s).countAccess.devWrite
  · exact .refl s

/-- What the end of a LOAD leaves, for a command that is listed. -/
theorem finishLoad_spec {s0 s : State} {c d : Cmd} {im : Image} {bs : List Byte} (hd : findCmd s c.id = some d) :
    (ctxOf (finishLoad s c im bs) c.ctx).state = .loaded ∧ (ctxOf (finishLoad s c im bs) c.ctx).image = some im ∧
      (finishLoad s c im bs).requests = s.requests ∧
      Ended (chargeWork s0 (finishLoad s c im bs) c.id) c.id 0 0 im.nativeLines := by
  let l := modCtx (keepLowered s im.digest c.rev) c.ctx fun x =>
    { x with state := .loaded, image := some im, restoredLeft := none }
  let w := writeConstants l c im bs
  obtain ⟨x, hk⟩ := keepLowered_eq s im.digest c.rev
  have hl : findCmd w c.id = some d := ((writeConstants_config l c im bs).findCmd c.id).trans (by
    change findCmd (keepLowered s im.digest c.rev) c.id = _
    rw [hk]; exact hd)
  have hw : ctxOf (finishLoad s c im bs) c.ctx = ctxOf l c.ctx := (writeConstants_held l c im bs).ctxOf c.ctx
  refine ⟨?_, ?_, ?_, ended_of_endCmd (t := endCmdTransfers w c.id) hl⟩
  · rw [hw]; exact congrArg Context.state ctxOf_modCtx
  · rw [hw]; exact congrArg Context.image ctxOf_modCtx
  · refine (writeConstants_held l c im bs).requests.trans ?_
    change (keepLowered s im.digest c.rev).requests = _
    rw [hk]

section

variable {s : State} {id : Nat} {c : Cmd}

/-- An image that fails a step ends the LOAD with that step (R78). -/
theorem completes_load_failing {step st : Nat} (h : AtWork s id 3 c) (hp : imagePlace s c = true)
    (hi : imageFailure s.part.grade (imageBytes s c) (ctxOf s c.ctx).blocks.length c.rev = some (step, st)) :
    Completes (.load id) s fun u => { u with cmds := s.cmds, transfers := s.transfers } = s ∧ Ended u id st step 0 := by
  have hl : loadCmd s c = endCmd (endCmdTransfers s c.id) c st step 0 := by
    unfold loadCmd
    simp only [hp, Bool.not_true, Bool.false_eq_true, if_false, hi]
  refine h.completes (f := loadCmd s) rfl ?_
  rw [hl, ← findCmd_id h.found]
  have hfound : findCmd (endCmdTransfers s c.id) c.id = some c := h.listed
  refine ⟨?_, ended_of_endCmd hfound⟩
  unfold chargeWork endCmd setCmd endCmdTransfers
  rfl

/-- The command after the Keels have agreed. -/
def Cmd.agreed (c : Cmd) : Cmd := { c with phase := 1 }

/-- The state in which the transfers of a LOAD ask: a first ballot has been taken (R84). -/
def votedLoad (s : State) (c : Cmd) : State := if c.phase = 0 then newBallot (setCmd s c.agreed) else s

theorem votedLoad_requests : (votedLoad s c).requests = s.requests := by
  unfold votedLoad
  split <;> rfl

theorem findCmd_votedLoad {d : Cmd} (h : findCmd s c.id = some d) : ∃ e, findCmd (votedLoad s c) c.id = some e := by
  unfold votedLoad
  split
  · exact ⟨_, findCmd_setCmd (d := c.agreed) h⟩
  · exact ⟨_, h⟩

theorem askLoad_requests {d : Cmd} {im : Image} {n : Nat} : (askLoad s d im n).requests = s.requests := by
  obtain ⟨_, _, h⟩ := askLoad_eq s d im n
  rw [h]

theorem askLoad_findCmd {d : Cmd} {im : Image} {n k : Nat} : findCmd (askLoad s d im n) k = findCmd s k := by
  obtain ⟨_, _, h⟩ := askLoad_eq s d im n
  rw [h]
  rfl

/-- A valid image on which the Keels agree asks for its rates, and loads when it has them. -/
theorem loadCmd_agreed (hp : imagePlace s c = true)
    (hi : imageFailure s.part.grade (imageBytes s c) (ctxOf s c.ctx).blocks.length c.rev = none)
    (hv : ¬(c.phase = 0 ∧ (!quorumAgrees s s.keels.ballot) = true)) :
    loadCmd s c =
      let t := askLoad (votedLoad s c) c.agreed (loadedImage (imageBytes s c) c.rev) (imgConstants (imageBytes s c)).length
      if loadReserved t c.agreed then
        finishLoad t c.agreed (loadedImage (imageBytes s c) c.rev) (imgConstants (imageBytes s c))
      else t := by
  unfold loadCmd
  simp only [hp, Bool.not_true, Bool.false_eq_true, if_false, hi]
  exact if_neg hv

/-- A valid image on which the Keels agree loads when its transfers have their rates. -/
theorem completes_load {im : Image} (h : AtWork s id 3 c) (hp : imagePlace s c = true)
    (hi : imageFailure s.part.grade (imageBytes s c) (ctxOf s c.ctx).blocks.length c.rev = none)
    (hv : c.phase = 0 → quorumAgrees s s.keels.ballot = true) (him : loadedImage (imageBytes s c) c.rev = im)
    (hr : loadReserved (askLoad (votedLoad s c) c.agreed im (imgConstants (imageBytes s c)).length) c.agreed = true) :
    Completes (.load id) s fun u => (ctxOf u c.ctx).state = .loaded ∧ (ctxOf u c.ctx).image = some im ∧
      u.requests = s.requests ∧ Ended u id 0 0 im.nativeLines := by
  have hl := loadCmd_agreed hp hi (fun hx => by simp [hv hx.1] at hx)
  rw [him] at hl
  dsimp only at hl
  rw [if_pos hr] at hl
  obtain ⟨d, hd⟩ := findCmd_votedLoad h.listed
  obtain ⟨hstate, himage, hrequests, hended⟩ := finishLoad_spec (s0 := s) (c := c.agreed) (im := im)
    (bs := imgConstants (imageBytes s c)) (askLoad_findCmd.trans hd)
  refine h.completes (f := loadCmd s) rfl ?_
  rw [hl, ← findCmd_id h.found]
  exact ⟨hstate, himage, hrequests.trans (askLoad_requests.trans votedLoad_requests), hended⟩

/-- A ballot touches neither contexts, threads nor memory, and puts nothing on hold. -/
theorem newBallot_setCmd_keeps (s : State) (d : Cmd) :
    (newBallot (setCmd s d)).contexts = s.contexts ∧ (newBallot (setCmd s d)).hold = s.hold ∧
      (newBallot (setCmd s d)).mem = s.mem ∧ (newBallot (setCmd s d)).threads = s.threads := by
  unfold newBallot freshNat
  exact ⟨rfl, rfl, rfl, rfl⟩

/-- A first disagreement of voters that all pass their self-check changes nothing (R448). -/
theorem disagreement_first {v : Votes} (h : failingVoters s v = []) : disagreement s v false = s := by
  unfold disagreement
  rw [h]
  rfl

/-- The command after a first disagreement. -/
def Cmd.again (c : Cmd) : Cmd := { c with retried := true }

/-- A first disagreement of Keels that all pass their self-check leaves the LOAD to be tried again (R448). -/
theorem loadCmd_disagreeing (hp : imagePlace s c = true)
    (hi : imageFailure s.part.grade (imageBytes s c) (ctxOf s c.ctx).blocks.length c.rev = none)
    (hv : c.phase = 0 ∧ (!quorumAgrees s s.keels.ballot) = true) :
    loadCmd s c = disagreement (newBallot (setCmd s c.again)) s.keels.ballot c.retried := by
  unfold loadCmd
  simp only [hp, Bool.not_true, Bool.false_eq_true, if_false, hi]
  exact if_pos hv

theorem completes_load_disagreeing (h : AtWork s id 3 c) (hp : imagePlace s c = true)
    (hi : imageFailure s.part.grade (imageBytes s c) (ctxOf s c.ctx).blocks.length c.rev = none) (hphase : c.phase = 0)
    (hv : quorumAgrees s s.keels.ballot = false) (hf : failingVoters s s.keels.ballot = []) (hr : c.retried = false) :
    Completes (.load id) s fun u =>
      u.contexts = s.contexts ∧ u.hold = s.hold ∧ u.mem = s.mem ∧ u.threads = s.threads := by
  refine h.completes (f := loadCmd s) rfl ?_
  have hvoters : failingVoters (newBallot (setCmd s c.again)) s.keels.ballot = [] := hf
  rw [loadCmd_disagreeing hp hi ⟨hphase, by rw [hv]; rfl⟩, hr, disagreement_first hvoters]
  exact newBallot_setCmd_keeps s c.again

end

end Sys2Proof.Machine
end

section
/-! SUPPORT. START, PAUSE and RESUME: the threads that a start makes, and what the other two leave alone. -/

namespace Sys2Proof.Machine

open Sys2Proof

/-! ### START -/

/-- Wake credits that go back change only what holds credits. -/
theorem sweepWakes_eq (s : State) : ∃ d l w, sweepWakes s = { s with dests := d, ledgers := l, wakes := w } := by
  unfold sweepWakes
  dsimp only
  split
  · exact ⟨s.dests, s.ledgers, s.wakes, rfl⟩
  · refine foldl_keeps (P := fun u : State => ∃ d l w, u = { s with dests := d, ledgers := l, wakes := w }) ?_ _ ?_
    · rintro _ x ⟨d, l, w, rfl⟩
      split
      · exact ⟨d, l, w, rfl⟩
      · obtain ⟨e, k, h⟩ := giveBack_eq { s with dests := d, ledgers := l, wakes := w } x.1 x.2
        exact ⟨e, k, w, h⟩
    · exact ⟨s.dests, s.ledgers, _, rfl⟩

theorem wakeRails_eq (s : State) (ctx : Nat) : ∃ p, wakeRails s ctx = { s with phys := p } := by
  refine foldl_keeps (P := fun u => ∃ p, u = { s with phys := p }) ?_ _ ⟨s.phys, rfl⟩
  rintro _ L ⟨p, rfl⟩
  split
  · split
    · exact ⟨_, rfl⟩
    · exact ⟨p, rfl⟩
  · exact ⟨p, rfl⟩

theorem dropTails_eq (s : State) (ctx : Nat) : ∃ l, dropTails s ctx = { s with logs := l } := by
  refine foldl_keeps (P := fun u => ∃ l, u = { s with logs := l }) ?_ _ ⟨s.logs, rfl⟩
  rintro _ L ⟨l, rfl⟩
  exact ⟨_, rfl⟩

/-- The threads that the launch records of an image start on the cells of a context (R100). -/
def startedThreads (ctx : Nat) (x : Context) (im : Image) (t : Nat) : List (ThreadId × Thread) :=
  (starts x im).flatMap fun e => (List.range e.2.threads).map fun n =>
    ({ ctx := ctx, cell := e.1, group := e.2.group, thread := n }, startThread e.2 e.1 n t)

/-- A launch changes the threads, groups and vector contexts, takers and credits of wakes. -/
theorem launchAll_eq (s : State) (ctx : Nat) (im : Image) : ∃ g v lg d l w, launchAll s ctx im =
    { s with
      threads := (s.threads.filter fun e => e.1.ctx != ctx) ++ startedThreads ctx (ctxOf s ctx) im (now s)
      groups := g, vectors := v, logs := lg, dests := d, ledgers := l, wakes := w } := by
  unfold launchAll
  dsimp only
  obtain ⟨d, l, w, h⟩ := sweepWakes_eq _
  exact ⟨_, _, _, d, l, w, h⟩

/-- The state before a started context is set running. -/
def launched (s : State) (ctx : Nat) (im : Image) : State := dropTails (launchAll (wakeRails s ctx) ctx im) ctx

theorem launched_eq (s : State) (ctx : Nat) (im : Image) : ∃ p g v lg d l w, launched s ctx im =
    { s with
      threads := (s.threads.filter fun e => e.1.ctx != ctx) ++ startedThreads ctx (ctxOf s ctx) im (now s)
      phys := p, groups := g, vectors := v, logs := lg, dests := d, ledgers := l, wakes := w } := by
  obtain ⟨p, hp⟩ := wakeRails_eq s ctx
  obtain ⟨g, v, lg, d, l, w, hl⟩ := launchAll_eq (wakeRails s ctx) ctx im
  obtain ⟨lg', ht⟩ := dropTails_eq (launchAll (wakeRails s ctx) ctx im) ctx
  refine ⟨p, g, v, lg', d, l, w, ?_⟩
  unfold launched
  rw [ht, hl, hp]
  rfl

/-- A thread as its launch record starts it (Table 3.11). -/
def StartedBy (l : Launch) (e : ThreadId × Thread) : Prop :=
  e.1.group = l.group ∧ e.2.pc = l.entry ∧ e.2.run = .ready ∧ e.2.loops = [] ∧
    e.2.rd 0 = BitVec.ofNat 32 e.1.thread ∧ e.2.rd 1 = BitVec.ofNat 32 l.group ∧ e.2.rd 2 = BitVec.ofNat 32 e.1.cell

theorem startedBy_startThread (l : Launch) (ctx cell n t : Nat) :
    StartedBy l ({ ctx := ctx, cell := cell, group := l.group, thread := n }, startThread l cell n t) := by
  refine ⟨rfl, rfl, rfl, rfl, ?_, ?_, ?_⟩ <;> simp [Thread.rd, startThread]

/-- Every started thread has a launch record. -/
theorem mem_startedThreads {ctx t : Nat} {x : Context} {im : Image} {e : ThreadId × Thread}
    (h : e ∈ startedThreads ctx x im t) : ∃ l ∈ im.launches, StartedBy l e := by
  obtain ⟨⟨cell, l⟩, hstart, he⟩ := List.mem_flatMap.mp h
  obtain ⟨n, -, rfl⟩ := List.mem_map.mp he
  obtain ⟨_, -, hl⟩ := List.mem_flatMap.mp hstart
  obtain ⟨r, hr, hpair⟩ := List.mem_map.mp hl
  cases hpair
  exact ⟨l, hr, startedBy_startThread l ctx cell n t⟩

section

variable {s : State} {id : Nat} {c : Cmd}

/-- Where every binding is met the threads begin (R96, R100). -/
theorem startCmd_met {im : Image} (hi : (ctxOf s c.ctx).image = some im)
    (hm : im.bindings.all (bindingMet (c.view s) c.ctx) = true) :
    ∃ f : Context → Context, (∀ x, (f x).state = .running) ∧
      startCmd s c = endCmd (modCtx (launched s c.ctx im) c.ctx f) c stOk 0 0 := by
  refine ⟨fun x => x.started (recipeSteps (c.view s) c.ctx) (ctxPj s c.ctx), fun _ => rfl, ?_⟩
  unfold startCmd
  rw [hi]
  exact if_pos hm

theorem completes_start {im : Image} (h : AtWork s id 4 c) (hi : (ctxOf s c.ctx).image = some im)
    (hm : im.bindings.all (bindingMet (c.view s) c.ctx) = true) :
    Completes (.start id) s fun u => (ctxOf u c.ctx).state = .running ∧ Ended u id 0 0 0 ∧ u.mem = s.mem ∧
      (∀ e ∈ u.threads, e.1.ctx = c.ctx → ∃ l ∈ im.launches, StartedBy l e) ∧
      ∀ e ∈ s.threads, e.1.ctx ≠ c.ctx → e ∈ u.threads := by
  obtain ⟨f, hf, hcmd⟩ := startCmd_met hi hm
  obtain ⟨p, g, v, lg, d, l, w, hl⟩ := launched_eq s c.ctx im
  refine h.completes (f := startCmd s) rfl ?_
  rw [hcmd, ← findCmd_id h.found]
  have hthreads : (chargeWork s (endCmd (modCtx (launched s c.ctx im) c.ctx f) c stOk 0 0) c.id).threads =
      (s.threads.filter fun e => e.1.ctx != c.ctx) ++ startedThreads c.ctx (ctxOf s c.ctx) im (now s) := by
    rw [chargeWork_threads, endCmd_threads, modCtx_threads, hl]
  have hfound : findCmd (modCtx (launched s c.ctx im) c.ctx f) c.id = some c := by
    rw [hl]; exact h.listed
  refine ⟨?_, ended_of_endCmd hfound, ?_, fun e he hctx => ?_, fun e he hctx => ?_⟩
  · rw [chargeWork_ctxOf, endCmd_ctxOf, ctxOf_modCtx, hf]
  · rw [chargeWork_mem, endCmd_mem, modCtx_mem, hl]
  · rw [hthreads] at he
    rcases List.mem_append.mp he with he | he
    · simp [hctx] at he
    · exact mem_startedThreads he
  · rw [hthreads]
    exact List.mem_append_left _ (List.mem_filter.mpr ⟨he, by simpa using hctx⟩)

/-! ### PAUSE and RESUME -/

theorem completes_pause (h : AtWork s id 5 c) (hr : (ctxOf s c.ctx).state = .running)
    (hb : (ctxOf s c.ctx).breaking = false) : Completes (.pause id) s fun u =>
      (ctxOf u c.ctx).state = .running ∧ (ctxOf u c.ctx).breaking = true ∧ (ctxOf u c.ctx).brk.cause = 3 ∧
      (ctxOf u c.ctx).brk.time = now s ∧ u.threads = s.threads ∧ u.mem = s.mem := by
  have hcmd : pauseCmd s c =
      setCmd (beginBreak s c.ctx { BreakInfo.zero with cause := 3, time := now s } none) { c with phase := 1 } := by
    unfold pauseCmd
    simp only [hr, hb, ne_eq, not_true_eq_false, if_false, Bool.false_eq_true]
  refine h.completes (f := pauseCmd s) rfl ?_
  rw [hcmd, chargeWork_ctxOf, setCmd_ctxOf, chargeWork_threads, chargeWork_mem, setCmd_threads, setCmd_mem]
  unfold beginBreak
  rw [ctxOf_modCtx]
  exact ⟨hr, rfl, rfl, rfl, rfl, rfl⟩

/-- Apart from its state a context that resumes leaves every place alone. -/
theorem resumeCtx_keeps (s : State) (ctx : Nat) :
    KeepsPlaces (modCtx s ctx fun x => { x with state := .running }) (resumeCtx s ctx) := by
  unfold resumeCtx
  exact .foldl (fun _ _ h => h.moveDue.serveAll) (.refl _)

theorem completes_resume (h : AtWork s id 6 c) (hp : (ctxOf s c.ctx).state = .paused) :
    Completes (.resume id) s fun u => (ctxOf u c.ctx).state = .running ∧ u.mem = s.mem := by
  refine h.completes (f := fun c => if (ctxOf s c.ctx).state = .paused then endCmd (resumeCtx s c.ctx) c stOk 0 0
    else endCmd s c stOk 0 0) rfl ?_
  rw [if_pos hp, chargeWork_ctxOf, chargeWork_mem, endCmd_ctxOf, endCmd_mem, (resumeCtx_keeps s c.ctx).ctxOf, ctxOf_modCtx]
  exact ⟨rfl, (resumeCtx_keeps s c.ctx).mem⟩

end

end Sys2Proof.Machine
end

section
/-! SUPPORT. DISABLE. The units of a context's regions drop what has not been accepted; where no record waits in a Winch ring,
no byte of memory changes. Whether a record waits is read from the header of the ring. In this device the header reads as it
did when the command came; a header in a peer may read otherwise, but then the count of records consumed goes to the peer as
well. -/

namespace Sys2Proof.Machine

open Sys2Proof

/-! ### What an engine of a context reaches -/

/-- All that says what an engine of a context reads in this device is as it was. -/
structure KeepsReach (c : Nat) (s u : State) : Prop where
  mem : u.mem = s.mem
  regs : u.regs = s.regs
  cfgs : u.cfgs = s.cfgs
  ports : u.ports = s.ports
  lost : ∀ L, regionLost u L = regionLost s L
  fn : (ctxOf u c).fn = (ctxOf s c).fn

theorem KeepsPlaces.reach {c : Nat} {s u : State} (h : KeepsPlaces s u) : KeepsReach c s u :=
  ⟨h.mem, h.regs, h.cfgs, h.ports, h.lost, by rw [h.ctxOf]⟩

namespace KeepsReach

variable {c : Nat} {z s u : State}

theorem refl (s : State) : KeepsReach c s s := ⟨rfl, rfl, rfl, rfl, fun _ => rfl, rfl⟩

theorem trans (a : KeepsReach c z s) (b : KeepsReach c s u) : KeepsReach c z u :=
  ⟨b.mem.trans a.mem, b.regs.trans a.regs, b.cfgs.trans a.cfgs, b.ports.trans a.ports, fun L => (b.lost L).trans (a.lost L),
    b.fn.trans a.fn⟩

theorem modCtx {f : Context → Context} (h : KeepsReach c z s) (hf : ∀ x, (f x).fn = x.fn := by exact fun _ => rfl) :
    KeepsReach c z (modCtx s c f) :=
  h.trans ⟨rfl, rfl, rfl, rfl, fun _ => rfl, by rw [ctxOf_modCtx, hf]⟩

theorem windowFault {ca : Nat} (h : KeepsReach c z s) : KeepsReach c z (windowFault s c ca) := by
  unfold Machine.windowFault ctxEventOnce
  split
  · exact h.modCtx
  · exact h.modCtx.modCtx.trans (KeepsPlaces.refl _).postEvent.reach

theorem rawReg_eq (h : KeepsReach c s u) (off : Nat) : rawReg u off = rawReg s off := by
  unfold rawReg; rw [h.regs]

theorem twoHosts_eq (h : KeepsReach c s u) : twoHosts u = twoHosts s := by
  unfold twoHosts; rw [h.rawReg_eq]

theorem hostServes_eq (h : KeepsReach c s u) (f a : Nat) : hostServes u f a = hostServes s f a := by
  unfold hostServes hostPort cfgAt parentFn portOf rawField
  rw [h.twoHosts_eq, h.rawReg_eq, h.cfgs, h.ports]

theorem translate_eq (h : KeepsReach c s u) (need : Need) (ca n : Nat) :
    translate u c none need ca n = translate s c none need ca n := by
  unfold translate winEntry t0Reach
  simp only [h.rawReg_eq, h.hostServes_eq, h.fn]

theorem memKey_eq (h : KeepsReach c s u) (a : Nat) : memKey u a = memKey s a := by
  unfold memKey; rw [h.twoHosts_eq]

/-- What stands in this device reads as before. -/
theorem devRead_eq {a : Nat} (h : KeepsReach c s u) (ha : spaceOf a ≠ 4) (n : Nat) : devRead u a n = devRead s a n := by
  have hpeer : ∀ t, peerGone t a = false := fun t => by unfold peerGone; simp [ha]
  unfold devRead coreRead lostAt
  rw [hpeer, hpeer, if_neg ha, if_neg ha, h.lost, h.mem, h.memKey_eq]

end KeepsReach

/-! ### The header of a ring -/

/-- A ring whose header the engine reads in a peer. -/
def PeerRing (s : State) (c L k : Nat) : Prop :=
  ∃ a, translate s c none .read (ringBase s c L k) 4 = some a ∧ spaceOf a = 4

section

variable {c L k : Nat} {s u : State}

theorem KeepsReach.ringBase_eq (h : KeepsReach c s u) : ringBase u c L k = ringBase s c L k := by
  unfold ringBase rawField
  rw [h.rawReg_eq]

theorem KeepsReach.peerRing (h : KeepsReach c s u) (hp : PeerRing s c L k) : PeerRing u c L k := by
  obtain ⟨a, ha, hspace⟩ := hp
  exact ⟨a, by rw [h.ringBase_eq, h.translate_eq, ha], hspace⟩

/-- A header that does not stand in a peer says what it said. -/
theorem KeepsReach.ringHas_eq (h : KeepsReach c s u) (hp : ¬PeerRing s c L k) (next : Nat) :
    ringHas u c L k next = ringHas s c L k next := by
  have hread : winRead u c none (ringBase s c L k) 4 = winRead s c none (ringBase s c L k) 4 := by
    unfold winRead
    rw [h.translate_eq]
    split
    · next a ha => exact h.devRead_eq (fun hspace => hp ⟨a, ha, hspace⟩) 4
    · rfl
  unfold ringHas ringEn
  rw [h.ringBase_eq, hread, h.rawReg_eq]

/-- Where an access arrives. -/
theorem translate_some {need : Need} {ca n a : Nat} (h : translate s c none need ca n = some a) :
    a = winBase (winEntry s c (bits ca 47 40)) + bits ca 39 0 := by
  unfold translate at h
  dsimp only at h
  split_ifs at h
  exact (Option.some.inj h).symm

/-- The count of consumed records stands four bytes behind the start of the header, in the same window. -/
theorem bits_ctxPlus_four {base : Nat} (h : base % 64 = 0) :
    bits (ctxPlus base 4) 47 40 = bits base 47 40 ∧ bits (ctxPlus base 4) 39 0 = bits base 39 0 + 4 := by
  unfold bits ctxPlus
  omega

theorem ringBase_aligned (s : State) (c L k : Nat) : ringBase s c L k % 64 = 0 := by
  unfold ringBase
  omega

/-- That count stands in the space in which the header starts. -/
theorem PeerRing.consumed {n a : Nat} (hp : PeerRing s c L k)
    (h : translate s c none .write (ctxPlus (ringBase s c L k) 4) n = some a) : spaceOf a = 4 := by
  obtain ⟨b, hb, hspace⟩ := hp
  obtain ⟨hwindow, hoff⟩ := bits_ctxPlus_four (ringBase_aligned s c L k)
  have hstart := translate_some hb
  have haddr := translate_some h
  rw [hwindow, hoff] at haddr
  have halign : b % 64 = 0 := by
    have := ringBase_aligned s c L k
    rw [hstart]
    unfold winBase bits
    omega
  have hab : a = b + 4 := by omega
  rw [← hspace, hab]
  unfold spaceOf bits
  omega

/-! ### A ring from which nothing is dropped in this device -/

/-- No record waits in the Winch ring of a region, or the ring stands in a peer. -/
def Quiet (s : State) (c L : Nat) : Prop := PeerRing s c L 2 ∨ ringHas s c L 2 (winchNextOf s c L) = false

theorem Quiet.of_reach (hq : Quiet s c L) (h : KeepsReach c s u) (hn : winchNextOf u c L = winchNextOf s c L) :
    Quiet u c L := by
  by_cases hp : PeerRing s c L 2
  · exact .inl (h.peerRing hp)
  · exact .inr (by rw [hn, h.ringHas_eq hp]; exact hq.resolve_left hp)

theorem winchNextOf_congr (h : (ctxOf u c).regions = (ctxOf s c).regions) : winchNextOf u c L = winchNextOf s c L := by
  unfold winchNextOf ctxRegionOf
  rw [h]

theorem Quiet.of_places (hq : Quiet s c L) (h : KeepsPlaces s u) : Quiet u c L :=
  hq.of_reach h.reach (winchNextOf_congr (by rw [h.ctxOf]))

end

/-! ### The Winch ring -/

/-- A context that a DISABLE drains. -/
structure DrainedBy (c cmd : Nat) (u : State) : Prop where
  state : (ctxOf u c).state = .draining
  drainCmd : (ctxOf u c).drainCmd = some cmd

namespace DrainedBy

variable {c cmd : Nat} {s u : State}

theorem places (h : DrainedBy c cmd s) (hk : KeepsPlaces s u) : DrainedBy c cmd u :=
  ⟨by rw [hk.ctxOf, h.state], by rw [hk.ctxOf, h.drainCmd]⟩

theorem modCtx {f : Context → Context} (h : DrainedBy c cmd s)
    (hf : ∀ x, (f x).state = x.state ∧ (f x).drainCmd = x.drainCmd := by exact fun _ => ⟨rfl, rfl⟩) :
    DrainedBy c cmd (modCtx s c f) :=
  ⟨by rw [ctxOf_modCtx, (hf _).1, h.state], by rw [ctxOf_modCtx, (hf _).2, h.drainCmd]⟩

theorem winWrite {g : Option Nat} {ca : Nat} {bs : List Byte} (h : DrainedBy c cmd s) :
    DrainedBy c cmd (winWrite s c g ca bs) := by
  unfold Machine.winWrite
  split
  · have hk := (KeepsHeld.refl s).devWrite (fn := (ctxOf s c).fn) (a := ‹_›) (bs := bs)
    exact ⟨by rw [hk.ctxOf, h.state], by rw [hk.ctxOf, h.drainCmd]⟩
  · unfold windowFault ctxEventOnce
    split
    · exact h.modCtx
    · exact h.modCtx.modCtx.places (KeepsPlaces.refl _).postEvent

theorem dropRing {L : Nat} (h : DrainedBy c cmd s) : DrainedBy c cmd (dropRing s L c) := by
  unfold Machine.dropRing
  split
  · exact h.modCtx.winWrite
  · exact h

end DrainedBy

section

variable {c : Nat} {s : State}

theorem winchNextOf_modCtxRegion_other {L M : Nat} {f : CtxRegion → CtxRegion} (h : M ≠ L) :
    winchNextOf (modCtxRegion s c L f) c M = winchNextOf s c M := by
  unfold winchNextOf modCtxRegion
  rw [ctxOf_modCtx]
  exact congrArg CtxRegion.winchNext (mget_mset_other _ _ _ h)

theorem windowFault_regions (s : State) (c ca : Nat) : (ctxOf (windowFault s c ca) c).regions = (ctxOf s c).regions := by
  unfold windowFault ctxEventOnce
  split
  · rw [ctxOf_modCtx]
  · unfold ctxEvent
    rw [(KeepsPlaces.refl _).postEvent.ctxOf, ctxOf_modCtx, ctxOf_modCtx]

/-- A write of an engine that can only arrive in a peer changes nothing that an engine reaches here, and no position of a
ring. -/
theorem winWrite_peer {ca : Nat} {bs : List Byte}
    (hp : ∀ a, translate s c none .write ca bs.length = some a → spaceOf a = 4) :
    KeepsReach c s (winWrite s c none ca bs) ∧ (ctxOf (winWrite s c none ca bs) c).regions = (ctxOf s c).regions := by
  unfold winWrite
  split
  · next a ha =>
    have hk := (KeepsPlaces.refl s).devWrite_peer (fn := (ctxOf s c).fn) (bs := bs) (hp a ha)
    exact ⟨hk.reach, by rw [hk.ctxOf]⟩
  · exact ⟨(KeepsReach.refl s).windowFault, windowFault_regions s c ca⟩

/-- So does the count of consumed records of a ring in a peer. -/
theorem writeConsumed_peer {L next : Nat} (hp : PeerRing s c L 2) : KeepsReach c s (writeConsumed s c L 2 next) ∧
    ∀ M, winchNextOf (writeConsumed s c L 2 next) c M = winchNextOf s c M := by
  obtain ⟨hreach, hregions⟩ := winWrite_peer (ca := ctxPlus (ringBase s c L 2) 4) (bs := leBytes 4 next)
    fun a ha => hp.consumed ha
  exact ⟨hreach, fun M => winchNextOf_congr hregions⟩

/-- A quiet ring that is dropped leaves what an engine reaches here as it was, and every quiet ring quiet. -/
theorem dropRing_quiet {L : Nat} (hq : Quiet s c L) :
    KeepsReach c s (dropRing s L c) ∧ ∀ M, Quiet s c M → Quiet (dropRing s L c) c M := by
  unfold dropRing
  split
  · next hhas =>
    have hp : PeerRing s c L 2 := hq.resolve_right (by simp [hhas])
    have hmod : KeepsReach c s (modCtxRegion s c L fun x =>
        { x with winchNext := leNat (winRead s c none (ringBase s c L 2) 4) }) := (KeepsReach.refl s).modCtx
    obtain ⟨hwrite, hnext⟩ :=
      writeConsumed_peer (next := leNat (winRead s c none (ringBase s c L 2) 4)) (hmod.peerRing hp)
    have hreach := hmod.trans hwrite
    refine ⟨hreach, fun M hM => ?_⟩
    by_cases hML : M = L
    · subst hML; exact .inl (hreach.peerRing hp)
    · exact hM.of_reach hreach ((hnext M).trans (winchNextOf_modCtxRegion_other hML))
  · exact ⟨.refl s, fun M h => h⟩

end

/-! ### DISABLE -/

section

variable {s : State} {c : Cmd} {L : Nat}

/-- What a DISABLE drops of a region before its Winch ring. -/
def dropHeld (s : State) (L ctx : Nat) : State :=
  dropHeads (dropTaken ([0, 1, 2, 3].foldl (fun s r => dropQueued s L r ctx) s) L ctx) L ctx

theorem dropHeld_places (s : State) (L ctx : Nat) : KeepsPlaces s (dropHeld s L ctx) :=
  (KeepsPlaces.foldl (fun _ _ h => h.dropQueued) (.refl s)).dropTaken.dropHeads

/-- After the ring only deadlines of reductions are set. -/
theorem drainRegion_places (s : State) (c : Cmd) (L : Nat) :
    KeepsPlaces (dropRing (dropHeld s L c.ctx) L c.ctx) (drainRegion c s L) := by
  unfold drainRegion dropHeld
  exact (KeepsPlaces.refl _).modSeq

theorem drainRegion_drained {cmd : Nat} (h : DrainedBy c.ctx cmd s) : DrainedBy c.ctx cmd (drainRegion c s L) :=
  ((h.places (dropHeld_places s L c.ctx)).dropRing).places (drainRegion_places s c L)

theorem drainRegion_quiet (hq : Quiet s c.ctx L) :
    KeepsReach c.ctx s (drainRegion c s L) ∧ ∀ M, Quiet s c.ctx M → Quiet (drainRegion c s L) c.ctx M := by
  have hheld := dropHeld_places s L c.ctx
  obtain ⟨hring, hquiet⟩ := dropRing_quiet (hq.of_places hheld)
  have hend := drainRegion_places s c L
  exact ⟨hheld.reach.trans (hring.trans hend.reach), fun M hM => (hquiet M (hM.of_places hheld)).of_places hend⟩

/-- Where every ring is quiet no region's part of a DISABLE changes memory. -/
theorem foldl_drainRegion_mem {l : List Nat} (hq : ∀ L ∈ l, Quiet s c.ctx L) :
    (l.foldl (drainRegion c) s).mem = s.mem := by
  induction l generalizing s with
  | nil => rfl
  | cons L r ih =>
    obtain ⟨hreach, hquiet⟩ := drainRegion_quiet (hq L List.mem_cons_self)
    rw [List.foldl_cons, ih fun M hM => hquiet M (hq M (List.mem_cons_of_mem _ hM))]
    exact hreach.mem

/-- A context to which admission is closed (R90). -/
def closed (s : State) (c : Cmd) : State :=
  modCtx (setCmd s { c with size := itemCount s c.ctx, phase := 1 }) c.ctx fun x =>
    { x with state := .draining, breaking := false, drainCmd := some c.id }

theorem ctxOf_closed : ctxOf (closed s c) c.ctx =
    { ctxOf s c.ctx with state := .draining, breaking := false, drainCmd := some c.id } := ctxOf_modCtx

/-- That context when its waiting requests and MMAs are withdrawn. -/
def withdrawn (s : State) (c : Cmd) : State := withdrawMmas (dropWaiting (closed s c) c.ctx) c.ctx

theorem withdrawn_places (s : State) (c : Cmd) : KeepsPlaces (closed s c) (withdrawn s c) :=
  (KeepsPlaces.refl (closed s c)).dropWaiting.dropOps

theorem disableCmd_eq (h : c.phase = 0) : disableCmd s c = (ctxRegions s c.ctx).foldl (drainRegion c) (withdrawn s c) := by
  have hblocks : ctxRegions (closed s c) c.ctx = ctxRegions s c.ctx := by
    unfold ctxRegions
    rw [ctxOf_closed]
  rw [← hblocks]
  unfold disableCmd
  exact if_neg (by simp [h])

theorem closed_drained (s : State) (c : Cmd) : DrainedBy c.ctx c.id (closed s c) :=
  ⟨by rw [ctxOf_closed], by rw [ctxOf_closed]⟩

theorem disableCmd_drained (h : c.phase = 0) : DrainedBy c.ctx c.id (disableCmd s c) := by
  rw [disableCmd_eq h]
  exact foldl_keeps (P := DrainedBy c.ctx c.id) (fun _ _ => drainRegion_drained) _
    ((closed_drained s c).places (withdrawn_places s c))

theorem closed_reach (s : State) (c : Cmd) : KeepsReach c.ctx s (closed s c) :=
  ⟨rfl, rfl, rfl, rfl, fun _ => rfl, by rw [ctxOf_closed]⟩

theorem disableCmd_mem (h : c.phase = 0)
    (hq : ∀ L ∈ ctxRegions s c.ctx, ringHas s c.ctx L 2 (winchNextOf s c.ctx L) = false) :
    (disableCmd s c).mem = s.mem := by
  rw [disableCmd_eq h, foldl_drainRegion_mem, (withdrawn_places s c).mem]
  · rfl
  · intro L hL
    have hnext : winchNextOf (closed s c) c.ctx L = winchNextOf s c.ctx L :=
      winchNextOf_congr (by rw [ctxOf_closed])
    exact (Quiet.of_reach (.inr (hq L hL)) (closed_reach s c) hnext).of_places (withdrawn_places s c)

/-- A command at work is running. -/
theorem AtWork.running {id op : Nat} (h : AtWork s id op c) : runningCmd s id op = some c := by
  unfold runningCmd
  rw [h.found]
  exact if_pos ⟨h.stage, h.opcode⟩

theorem completes_disable {id : Nat} (h : AtWork s id 7 c) (hf : c.force = false) (hphase : c.phase = 0) :
    Completes (.disable id) s fun u => (ctxOf u c.ctx).state = .draining ∧ (ctxOf u c.ctx).drainCmd = some c.id ∧
      ((∀ L ∈ ctxRegions s c.ctx, ringHas s c.ctx L 2 (winchNextOf s c.ctx L) = false) → u.mem = s.mem) := by
  have hexec : exec (.disable id) s = .next (disableCmd s c) := by
    change execDisable id s = _
    unfold execDisable
    rw [h.running]
    exact if_neg (by simp [hf])
  exact ⟨_, hexec, (disableCmd_drained hphase).state, (disableCmd_drained hphase).drainCmd, disableCmd_mem hphase⟩

/-- A forced DISABLE leaves its context stopped (R91). -/
theorem completes_disableForce {id : Nat} (h : AtWork s id 7 c) (hf : c.force = true) :
    Completes (.disableForce id) s fun u => (ctxOf u c.ctx).state = .stopped ∧ (ctxOf u c.ctx).breaking = false := by
  have hexec : exec (.disableForce id) s = .next (forceCmd s c) := by
    change execDisableForce id s = _
    unfold execDisableForce
    rw [h.running]
    exact if_pos hf
  refine ⟨_, hexec, ?_⟩
  unfold forceCmd
  dsimp only
  rw [endCmd_ctxOf, (KeepsPlaces.refl _).endDisables.ctxOf, ctxOf_modCtx]
  exact ⟨rfl, rfl⟩

end

end Sys2Proof.Machine
end

section
open Sys2Proof Sys2Proof.Machine

/-- Settles O46, command by command. DISABLE is the one whose memory clause needs an invariant: that its rings stay quiet. -/
theorem contextCommands : Obligations.ContextCommands := by
  intro s id c
  dsimp only
  refine ⟨fun h => ?_, completes_create, fun h st d hf => ?_, completes_destroy, fun h hp => ⟨?_, ?_, ?_⟩, ?_,
    completes_pause, completes_resume, completes_disable, completes_disableForce⟩
  · exact h.completes_ended (f := fun c => endCmd s c stOk 0 0) rfl rfl
  · exact h.completes_ended (f := createCtx s) rfl (createCtx_fault hf)
  · exact fun step st hi => completes_load_failing h hp hi
  · exact fun hi hv hr => completes_load h hp hi hv rfl hr
  · exact completes_load_disagreeing h hp
  · exact fun im => completes_start
end

section
/-! SUPPORT. The words of the thread instructions (R107 to R110): the fields of each format, put in their places under the common
fields, are read back as they were put, so the major opcode and the format give the instruction back. -/

namespace Sys2Proof

/-! ### Fields in their places -/

theorem getFin_of_wordBits {n w hi lo : Nat} [NeZero n] {x : Fin n} (h : wordBits w hi lo = x.val) : getFin n w hi lo = x := by
  unfold getFin
  rw [h]
  exact Fin.ofNat_val_eq_self x

theorem wordBit_of_wordBits {w n : Nat} {b : Bool} (h : wordBits w n n = b.toNat) : wordBit w n = b := by
  unfold wordBit
  rw [h]
  cases b <;> rfl

theorem ofNat_of_wordBits {n w hi lo : Nat} {x : BitVec n} (h : wordBits w hi lo = x.toNat) :
    BitVec.ofNat n (wordBits w hi lo) = x := by
  rw [h, BitVec.ofNat_toNat, BitVec.setWidth_eq]

theorem putBit_eq (b : Bool) (n : Nat) : putBit b n = b.toNat * 2 ^ n := by
  cases b <;> simp [putBit]

/-- The fields of a format fill bits 50 to 12 of a word. -/
def FillsFields (p : Nat) : Prop := p < 2 ^ 51 ∧ p % 2 ^ 12 = 0

/-! ### The common fields -/

section Common

variable {m p : Nat} {k : Common}

/-- The common fields stand above bit 50, but for the tag. -/
theorem putCommon_split (m : Nat) (k : Common) : ∃ h, putCommon m k = h * 2 ^ 51 + k.tag.toNat ∧
    h = m * 2 ^ 5 + k.gen.toNat * 2 ^ 4 + k.gneg.toNat * 2 ^ 3 + k.gp.val := by
  refine ⟨_, ?_, rfl⟩
  unfold putCommon
  rw [putBit_eq, putBit_eq]
  ring

theorem wordBits_major (hm : m < 256) (hp : FillsFields p) : wordBits (putCommon m k + p) 63 56 = m := by
  obtain ⟨hlt, hlow⟩ := hp
  obtain ⟨h, e, hh⟩ := putCommon_split m k
  have hgen := k.gen.toNat_le
  have hgneg := k.gneg.toNat_le
  have hgp := k.gp.isLt
  have htag := k.tag.isLt
  rw [e]
  unfold wordBits
  omega

theorem getCommon_put (hp : FillsFields p) : getCommon (putCommon m k + p) = k := by
  obtain ⟨hlt, hlow⟩ := hp
  obtain ⟨h, e, hh⟩ := putCommon_split m k
  have hgen := k.gen.toNat_le
  have hgneg := k.gneg.toNat_le
  rw [e]
  unfold getCommon
  obtain ⟨gen, gneg, gp, tag⟩ := k
  dsimp only at hh hgen hgneg ⊢
  rw [Common.mk.injEq]
  refine ⟨wordBit_of_wordBits ?_, wordBit_of_wordBits ?_, getFin_of_wordBits ?_, BitVec.eq_of_toNat_eq ?_⟩
  · unfold wordBits; omega
  · unfold wordBits; omega
  · unfold wordBits; omega
  · rw [BitVec.toNat_ofNat]; omega

theorem putCommon_lt (hm : m < 256) (hp : FillsFields p) : putCommon m k + p < 2 ^ 64 := by
  obtain ⟨hlt, hlow⟩ := hp
  obtain ⟨h, e, hh⟩ := putCommon_split m k
  have hgen := k.gen.toNat_le
  have hgneg := k.gneg.toNat_le
  omega

/-- Between bit 12 and bit 50 the common fields are not seen. -/
theorem wordBits_fields {hi lo : Nat} (hhi : hi < 51) (hlo : 12 ≤ lo) (hle : lo ≤ hi) (hp : FillsFields p) :
    wordBits (putCommon m k + p) hi lo = wordBits p hi lo := by
  obtain ⟨-, hlow⟩ := hp
  obtain ⟨h, e, -⟩ := putCommon_split m k
  obtain ⟨l, rfl⟩ : ∃ l, lo = 12 + l := ⟨lo - 12, by omega⟩
  have htag := k.tag.isLt
  have hdiv : (putCommon m k + p) / 2 ^ 12 = p / 2 ^ 12 + h * 2 ^ 39 := by omega
  have hsplit : h * 2 ^ 39 = h * 2 ^ (50 - hi) * 2 ^ (hi + 1 - (12 + l)) * 2 ^ l := by
    rw [Nat.mul_assoc, Nat.mul_assoc, ← Nat.pow_add, ← Nat.pow_add]
    congr 2
    omega
  unfold wordBits
  rw [Nat.pow_add, ← Nat.div_div_eq_div_mul, ← Nat.div_div_eq_div_mul, hdiv, hsplit,
    Nat.add_mul_div_right _ _ (Nat.two_pow_pos l), Nat.add_mul_mod_self_right]

end Common

/-! ### The formats -/

section Formats

variable {t : ThreadId} {m : Nat} {k : Common}

theorem putC_fills (o : CArgs) : FillsFields (putC o) := by
  have hci := o.ci.toNat_le
  unfold FillsFields putC
  rw [putBit_eq]
  omega

theorem putR_fills (o : RArgs) : FillsFields (putR o) := by unfold FillsFields putR; omega

theorem putI_fills (o : IArgs) : FillsFields (putI o) := by unfold FillsFields putI; omega

theorem putL_fills (o : LArgs) : FillsFields (putL o) := by unfold FillsFields putL; omega

theorem putV_fills (o : VArgs) : FillsFields (putV o) := by
  have hme := o.me.toNat_le
  unfold FillsFields putV
  rw [putBit_eq]
  omega

theorem putA_fills (o : AArgs) : FillsFields (putA o) := by unfold FillsFields putA; omega

theorem putM_fills (o : MArgs) : FillsFields (putM o) := by
  have hxae := o.xae.toNat_le
  have hxce := o.xce.toNat_le
  have hta := o.ta.toNat_le
  have htb := o.tb.toNat_le
  have hacc := o.acc.toNat_le
  have hskip := o.skip.toNat_le
  unfold FillsFields putM
  simp only [putBit_eq]
  omega

theorem putT_fills (o : TArgs) : FillsFields (putT o) := by
  have hxe1 := o.xe1.toNat_le
  have hxe2 := o.xe2.toNat_le
  unfold FillsFields putT
  simp only [putBit_eq]
  omega

theorem getC_putC (o : CArgs) : getC (putC o) = o := by
  obtain ⟨a, ci, imm16, target⟩ := o
  have hci := ci.toNat_le
  unfold getC putC
  dsimp only
  rw [putBit_eq, CArgs.mk.injEq]
  refine ⟨getFin_of_wordBits ?_, wordBit_of_wordBits ?_, ofNat_of_wordBits ?_, ofNat_of_wordBits ?_⟩ <;> unfold wordBits <;>
    omega

theorem getR_putR (o : RArgs) : getR (putR o) = o := by
  obtain ⟨dst, a, b, c, minor⟩ := o
  unfold getR putR
  dsimp only
  rw [RArgs.mk.injEq]
  refine ⟨?_, ?_, ?_, ?_, ?_⟩ <;> refine getFin_of_wordBits ?_ <;> unfold wordBits <;> omega

theorem getI_putI (o : IArgs) : getI (putI o) = o := by
  obtain ⟨dst, a, minor, imm⟩ := o
  unfold getI putI
  dsimp only
  rw [IArgs.mk.injEq]
  refine ⟨getFin_of_wordBits ?_, getFin_of_wordBits ?_, getFin_of_wordBits ?_, ofNat_of_wordBits ?_⟩ <;> unfold wordBits <;>
    omega

theorem getL_putL (o : LArgs) : getL (putL o) = o := by
  obtain ⟨dst, imm32⟩ := o
  unfold getL putL
  dsimp only
  rw [LArgs.mk.injEq]
  refine ⟨getFin_of_wordBits ?_, ofNat_of_wordBits ?_⟩ <;> unfold wordBits <;> omega

theorem getV_putV (o : VArgs) : getV (putV o) = o := by
  obtain ⟨vd, va, vb, vc, me, vm, minor⟩ := o
  have hme := me.toNat_le
  unfold getV putV
  dsimp only
  rw [putBit_eq, VArgs.mk.injEq]
  refine ⟨getFin_of_wordBits ?_, getFin_of_wordBits ?_, getFin_of_wordBits ?_, getFin_of_wordBits ?_, wordBit_of_wordBits ?_,
    getFin_of_wordBits ?_, getFin_of_wordBits ?_⟩ <;> unfold wordBits <;> omega

theorem getA_putA (o : AArgs) : getA (putA o) = o := by
  obtain ⟨data, areg, win, minor, disp⟩ := o
  unfold getA putA
  dsimp only
  rw [AArgs.mk.injEq]
  refine ⟨getFin_of_wordBits ?_, getFin_of_wordBits ?_, ofNat_of_wordBits ?_, getFin_of_wordBits ?_, ofNat_of_wordBits ?_⟩ <;>
    unfold wordBits <;> omega

theorem getM_putM (o : MArgs) : getM (putM o) = o := by
  obtain ⟨dc, da, db, xae, xa, xce, xc, rig, fmta, fmtb, ta, tb, acc, spa, spb, skip⟩ := o
  have hxae := xae.toNat_le
  have hxce := xce.toNat_le
  have hta := ta.toNat_le
  have htb := tb.toNat_le
  have hacc := acc.toNat_le
  have hskip := skip.toNat_le
  unfold getM putM
  dsimp only
  simp only [putBit_eq]
  rw [MArgs.mk.injEq]
  refine ⟨getFin_of_wordBits ?_, getFin_of_wordBits ?_, getFin_of_wordBits ?_, wordBit_of_wordBits ?_, getFin_of_wordBits ?_,
    wordBit_of_wordBits ?_, getFin_of_wordBits ?_, getFin_of_wordBits ?_, getFin_of_wordBits ?_, getFin_of_wordBits ?_,
    wordBit_of_wordBits ?_, wordBit_of_wordBits ?_, wordBit_of_wordBits ?_, getFin_of_wordBits ?_, getFin_of_wordBits ?_,
    wordBit_of_wordBits ?_⟩ <;> unfold wordBits <;> omega

theorem getT_putT (o : TArgs) : getT (putT o) = o := by
  obtain ⟨d1, d2, xe1, x1, xe2, x2, sreg, minor⟩ := o
  have hxe1 := xe1.toNat_le
  have hxe2 := xe2.toNat_le
  unfold getT putT
  dsimp only
  simp only [putBit_eq]
  rw [TArgs.mk.injEq]
  refine ⟨getFin_of_wordBits ?_, getFin_of_wordBits ?_, wordBit_of_wordBits ?_, getFin_of_wordBits ?_, wordBit_of_wordBits ?_,
    getFin_of_wordBits ?_, getFin_of_wordBits ?_, getFin_of_wordBits ?_⟩ <;> unfold wordBits <;> omega

/-- A format reads only its own bits, so its fields are read under the common fields too. -/
theorem getC_put (o : CArgs) : getC (putCommon m k + putC o) = o := by
  conv_rhs => rw [← getC_putC o]
  simp [getC, getFin, wordBit, wordBits_fields, putC_fills]

theorem getR_put (o : RArgs) : getR (putCommon m k + putR o) = o := by
  conv_rhs => rw [← getR_putR o]
  simp [getR, getFin, wordBits_fields, putR_fills]

theorem getI_put (o : IArgs) : getI (putCommon m k + putI o) = o := by
  conv_rhs => rw [← getI_putI o]
  simp [getI, getFin, wordBits_fields, putI_fills]

theorem getL_put (o : LArgs) : getL (putCommon m k + putL o) = o := by
  conv_rhs => rw [← getL_putL o]
  simp [getL, getFin, wordBits_fields, putL_fills]

theorem getV_put (o : VArgs) : getV (putCommon m k + putV o) = o := by
  conv_rhs => rw [← getV_putV o]
  simp [getV, getFin, wordBit, wordBits_fields, putV_fills]

theorem getA_put (o : AArgs) : getA (putCommon m k + putA o) = o := by
  conv_rhs => rw [← getA_putA o]
  simp [getA, getFin, wordBits_fields, putA_fills]

theorem getM_put (o : MArgs) : getM (putCommon m k + putM o) = o := by
  conv_rhs => rw [← getM_putM o]
  simp [getM, getFin, wordBit, wordBits_fields, putM_fills]

theorem getT_put (o : TArgs) : getT (putCommon m k + putT o) = o := by
  conv_rhs => rw [← getT_putT o]
  simp [getT, getFin, wordBit, wordBits_fields, putT_fills]

end Formats

/-! ### The words -/

open Machine

/-- Every instruction is put as a major opcode of 8 bits over the fields of its format. -/
theorem encodeWord_shape {i : Instr} {w : Nat} (h : encodeWord i = some w) :
    ∃ m k p, m < 256 ∧ FillsFields p ∧ w = putCommon m k + p := by
  cases i with
  | nop | br | loop | halt => cases h; exact ⟨_, _, _, by decide, putC_fills _, rfl⟩
  | lrd | addi | andi | ori | xori | shifti | cmpi | twait | unwatch | park | take | time | dsetw | dgetw =>
    cases h; exact ⟨_, _, _, by decide, putI_fills _, rfl⟩
  | add | sub | mul | mulhu | mulhs | divu | remu | divs | rems | and | or | xor | shl | shr | sra | minmax | cmp | sel | plog
  | fadd | fmul | ffma | fminmax | fcmp | fcvt | token | delay => cases h; exact ⟨_, _, _, by decide, putR_fills _, rfl⟩
  | movi => cases h; exact ⟨_, _, _, by decide, putL_fills _, rfl⟩
  | vadd | vsub | vmul | vfma | vmin | vmax | vcmp | vsel | vexp2 | vrcp | vrsq | viadd | visub | vimul | vlogic | vrsum | vrmax
  | vperm | vbcast | vext | vflag | vmov | vcvt | vmaxabs => cases h; exact ⟨_, _, _, by decide, putV_fills _, rfl⟩
  | mma => cases h; exact ⟨_, _, _, by decide, putM_fills _, rfl⟩
  | ld | st | vld | vst | atom | atomp | fence | sig | sigw | watch | reel | dld | dstr =>
    cases h; exact ⟨_, _, _, by decide, putA_fills _, rfl⟩
  | tcopy | tscadd | tmaxabs => cases h; exact ⟨_, _, _, by decide, putT_fills _, rfl⟩
  | _ => cases h

/-- A word is read as the instruction that was put, for the thread that executes it. -/
theorem readWord_of_encodeWord {i : Instr} {t : ThreadId} {k : Common} {w : Nat} (hi : wordOf i = some (t, k))
    (h : encodeWord i = some w) : readWord t w = some i := by
  cases i with
  | nop _ _ o | br _ _ o | loop _ _ o | halt _ _ o =>
    cases hi; cases h
    unfold readWord
    rw [wordBits_major (by decide) (putC_fills o), getCommon_put (putC_fills o), getC_put]
    rfl
  | lrd _ _ o | addi _ _ o | andi _ _ o | ori _ _ o | xori _ _ o | shifti _ _ o | cmpi _ _ o | twait _ _ o | unwatch _ _ o
  | park _ _ o | take _ _ o | time _ _ o | dsetw _ _ o | dgetw _ _ o =>
    cases hi; cases h
    unfold readWord
    rw [wordBits_major (by decide) (putI_fills o), getCommon_put (putI_fills o), getI_put]
    rfl
  | add _ _ o | sub _ _ o | mul _ _ o | mulhu _ _ o | mulhs _ _ o | divu _ _ o | remu _ _ o | divs _ _ o | rems _ _ o
  | and _ _ o | or _ _ o | xor _ _ o | shl _ _ o | shr _ _ o | sra _ _ o | minmax _ _ o | cmp _ _ o | sel _ _ o | plog _ _ o
  | fadd _ _ o | fmul _ _ o | ffma _ _ o | fminmax _ _ o | fcmp _ _ o | fcvt _ _ o | token _ _ o | delay _ _ o =>
    cases hi; cases h
    unfold readWord
    rw [wordBits_major (by decide) (putR_fills o), getCommon_put (putR_fills o), getR_put]
    rfl
  | movi _ _ o =>
    cases hi; cases h
    unfold readWord
    rw [wordBits_major (by decide) (putL_fills o), getCommon_put (putL_fills o), getL_put]
    rfl
  | vadd _ _ o | vsub _ _ o | vmul _ _ o | vfma _ _ o | vmin _ _ o | vmax _ _ o | vcmp _ _ o | vsel _ _ o | vexp2 _ _ o
  | vrcp _ _ o | vrsq _ _ o | viadd _ _ o | visub _ _ o | vimul _ _ o | vlogic _ _ o | vrsum _ _ o | vrmax _ _ o
  | vperm _ _ o | vbcast _ _ o | vext _ _ o | vflag _ _ o | vmov _ _ o | vcvt _ _ o | vmaxabs _ _ o =>
    cases hi; cases h
    unfold readWord
    rw [wordBits_major (by decide) (putV_fills o), getCommon_put (putV_fills o), getV_put]
    rfl
  | mma _ _ o =>
    cases hi; cases h
    unfold readWord
    rw [wordBits_major (by decide) (putM_fills o), getCommon_put (putM_fills o), getM_put]
    rfl
  | ld _ _ o | st _ _ o | vld _ _ o | vst _ _ o | atom _ _ o | atomp _ _ o | fence _ _ o | sig _ _ o | sigw _ _ o
  | watch _ _ o | reel _ _ o | dld _ _ o | dstr _ _ o =>
    cases hi; cases h
    unfold readWord
    rw [wordBits_major (by decide) (putA_fills o), getCommon_put (putA_fills o), getA_put]
    rfl
  | tcopy _ _ o | tscadd _ _ o | tmaxabs _ _ o =>
    cases hi; cases h
    unfold readWord
    rw [wordBits_major (by decide) (putT_fills o), getCommon_put (putT_fills o), getT_put]
    rfl
  | _ => cases hi

/-- A legal instruction is decoded from its word. -/
theorem decodeWord_encodeWord {i : Instr} {t : ThreadId} {k : Common} {w : Nat} (hi : wordOf i = some (t, k))
    (hwf : i.wf = true) (h : encodeWord i = some w) : decodeWord t w = some i := by
  unfold decodeWord
  rw [readWord_of_encodeWord hi h]
  simp [hwf, h]

theorem encodeWord_lt {i : Instr} {w : Nat} (h : encodeWord i = some w) : w < 2 ^ 64 := by
  obtain ⟨m, k, p, hm, hp, rfl⟩ := encodeWord_shape h
  exact putCommon_lt hm hp

/-- Every thread instruction has a word. -/
theorem encodeWord_isSome {i : Instr} {t : ThreadId} {k : Common} (hi : wordOf i = some (t, k)) :
    ∃ w, encodeWord i = some w := by
  cases i with
  | nop | br | loop | halt | lrd | addi | andi | ori | xori | shifti | cmpi | twait | unwatch | park | take | time | dsetw | dgetw
  | add | sub | mul | mulhu | mulhs | divu | remu | divs | rems | and | or | xor | shl | shr | sra | minmax | cmp | sel | plog
  | fadd | fmul | ffma | fminmax | fcmp | fcvt | token | delay | movi | vadd | vsub | vmul | vfma | vmin | vmax | vcmp | vsel
  | vexp2 | vrcp | vrsq | viadd | visub | vimul | vlogic | vrsum | vrmax | vperm | vbcast | vext | vflag | vmov | vcvt | vmaxabs
  | mma | ld | st | vld | vst | atom | atomp | fence | sig | sigw | watch | reel | dld | dstr | tcopy | tscadd | tmaxabs =>
    exact ⟨_, rfl⟩
  | _ => cases hi

end Sys2Proof

open Sys2Proof Sys2Proof.Machine

/-- Settles O60: a word's major opcode and the fields of its format are read back as they were put. -/
theorem threadWordsRoundTrip : Obligations.ThreadWordsRoundTrip :=
  ⟨fun _ _ _ _ hi hwf h => ⟨decodeWord_encodeWord hi hwf h, encodeWord_lt h⟩, fun _ _ _ hi => encodeWord_isSome hi⟩
end

section
/-! SUPPORT. Memory and its codes: canonical data is determined by what it reads, a store where nothing is poisoned reads back, and
one or two flipped bits of a word, or one of a sector, are found (R375). -/

namespace Sys2Proof.Machine

open Sys2Proof

/-! ### Canonical data -/

/-- The first listed address reads what is listed there, which is not zero. -/
theorem cellsRead_head {l : List Host.Cell} {lo a : Nat} {v : Byte} (h : cellsWf lo ((a, v) :: l) = true) :
    cellsRead ((a, v) :: l) a ≠ 0 := by
  simp only [cellsWf, Bool.and_eq_true, decide_eq_true_eq] at h
  simpa [cellsRead] using h.1.2

/-- Below its first listed address canonical data reads zero. -/
theorem cellsRead_cons_below {l : List Host.Cell} {a x : Nat} {v : Byte} (h : x < a) : cellsRead ((a, v) :: l) x = 0 := by
  simp only [cellsRead]
  rw [if_neg (by omega), if_pos h]

/-- Two canonical lists that read alike are the same list. -/
theorem cells_ext : ∀ {l r : List Host.Cell} {lo hi : Nat}, cellsWf lo l = true → cellsWf hi r = true →
    (∀ a, cellsRead l a = cellsRead r a) → l = r
  | [], [], _, _, _, _, _ => rfl
  | [], (b, w) :: r, _, _, _, hr, h => absurd (h b).symm (cellsRead_head hr)
  | (a, v) :: l, [], _, _, hl, _, h => absurd (h a) (cellsRead_head hl)
  | (a, v) :: l, (b, w) :: r, _, _, hl, hr, h => by
    have hab : a = b := by
      rcases Nat.lt_trichotomy a b with hlt | heq | hgt
      · exact absurd ((h a).trans (cellsRead_cons_below hlt)) (cellsRead_head hl)
      · exact heq
      · exact absurd ((h b).symm.trans (cellsRead_cons_below hgt)) (cellsRead_head hr)
    subst hab
    have hvw : v = w := by simpa [cellsRead] using h a
    subst hvw
    simp only [cellsWf, Bool.and_eq_true] at hl hr
    have htail : ∀ x, cellsRead l x = cellsRead r x := by
      intro x
      by_cases hx : x ≤ a
      · rw [cellsRead_below hl.2 (by omega), cellsRead_below hr.2 (by omega)]
      · have hxa := h x
        simpa only [cellsRead, if_neg (show ¬ a = x by omega), if_neg (show ¬ x < a by omega)] using hxa
    rw [cells_ext hl.2 hr.2 htail]

/-! ### A store where nothing is poisoned -/

/-- A byte that is put reads back, and every other byte reads as before. -/
theorem Memory.read_putByte {m : Memory} {x y : Nat} {b : Byte} (h : m.wf = true) :
    (m.putByte x b).readByte y = if y = x then b else m.readByte y := by
  show (m.writeByte x b).readByte y = _
  split
  · next he => subst he; exact Memory.read_writeByte_same h
  · next hne => exact Memory.read_writeByte_other h hne

/-- The bytes of a list put one after another from an address on. -/
def Memory.putBytes (m : Memory) (a : Nat) : List Byte → Memory
  | [] => m
  | b :: r => (m.putByte a b).putBytes (a + 1) r

theorem Memory.read_putBytes {bs : List Byte} : ∀ {m : Memory} {a y : Nat}, m.wf = true →
    (m.putBytes a bs).readByte y = if y < a then m.readByte y else (bs[y - a]?).getD (m.readByte y) := by
  induction bs with
  | nil => intro m a y h; simp [Memory.putBytes]
  | cons b r ih =>
    intro m a y h
    rw [Memory.putBytes, ih (Memory.putByte_wf h), Memory.read_putByte h]
    rcases Nat.lt_trichotomy y a with hlt | rfl | hgt
    · rw [if_pos (by omega), if_neg (by omega), if_pos hlt]
    · simp
    · have hstep : y - a = y - (a + 1) + 1 := by omega
      rw [if_neg (by omega), if_neg (by omega), if_neg (by omega), hstep, List.getElem?_cons_succ]

/-- Where no word of its range is poisoned, a store puts every byte. -/
theorem Memory.store_eq_putBytes {m : Memory} {a : Nat} {bs : List Byte}
    (h : ∀ x, a ≤ x → x < a + bs.length → wordPoisoned m x = false) : m.store a bs = m.putBytes a bs := by
  have hallowed : ∀ x, a ≤ x → x < a + bs.length → storeAllowed m a bs.length x = true := by
    intro x hlo hhi
    simp [storeAllowed, h x hlo hhi]
  have hfold : ∀ (r : List Byte) (k : Nat) (n : Memory), k + r.length = bs.length →
      (r.zipIdx k).foldl (fun acc (b, i) => if storeAllowed m a bs.length (a + i) then acc.putByte (a + i) b else acc) n =
        n.putBytes (a + k) r := by
    intro r
    induction r with
    | nil => intro k n _; rfl
    | cons b r ih =>
      intro k n hk
      rw [List.length_cons] at hk
      rw [List.zipIdx_cons, List.foldl_cons, ih (k + 1) _ (by omega)]
      dsimp only
      rw [if_pos (hallowed (a + k) (by omega) (by omega))]
      rfl
  exact hfold bs 0 m (by omega)

theorem Memory.read_store_inside {m : Memory} {a i : Nat} {bs : List Byte} (hw : m.wf = true)
    (h : ∀ x, a ≤ x → x < a + bs.length → wordPoisoned m x = false) (hi : i < bs.length) :
    (m.store a bs).readByte (a + i) = bs[i] := by
  rw [Memory.store_eq_putBytes h, Memory.read_putBytes hw, if_neg (by omega), Nat.add_sub_cancel_left,
    List.getElem?_eq_getElem hi, Option.getD_some]

theorem Memory.read_store_outside {m : Memory} {a x : Nat} {bs : List Byte} (hw : m.wf = true)
    (h : ∀ x, a ≤ x → x < a + bs.length → wordPoisoned m x = false) (hx : x < a ∨ a + bs.length ≤ x) :
    (m.store a bs).readByte x = m.readByte x := by
  rw [Memory.store_eq_putBytes h, Memory.read_putBytes hw]
  split
  · rfl
  · rw [List.getElem?_eq_none (by omega), Option.getD_none]

/-! ### The check of a word -/

/-- The column of the check matrix for bit k of a word and its code. -/
def checkColumn (k : Nat) : BitVec 7 := hsiaoCode (BitVec.ofNat 32 (2 ^ k)) ^^^ BitVec.ofNat 7 (2 ^ k / 2 ^ 32)

/-- Whether an odd number of a syndrome's bits are set. -/
def oddWeight (x : BitVec 7) : Bool := (List.range 7).foldl (fun a i => xor a (x.getLsbD i)) false

theorem foldl_xor {α : Type} (f g : α → Bool) (l : List α) : ∀ a b : Bool,
    l.foldl (fun c i => xor c (xor (f i) (g i))) (xor a b) = xor (l.foldl (fun c i => xor c (f i)) a)
      (l.foldl (fun c i => xor c (g i)) b) := by
  induction l with
  | nil => intro a b; rfl
  | cons i r ih =>
    intro a b
    have hswap : xor (xor a b) (xor (f i) (g i)) = xor (xor a (f i)) (xor b (g i)) := by
      rw [Bool.xor_assoc, Bool.xor_assoc, Bool.xor_left_comm b]
    rw [List.foldl_cons, List.foldl_cons, List.foldl_cons, hswap, ih]

theorem oddWeight_xor (x y : BitVec 7) : oddWeight (x ^^^ y) = xor (oddWeight x) (oddWeight y) := by
  unfold oddWeight
  simp only [BitVec.getLsbD_xor]
  exact foldl_xor _ _ _ false false

theorem oddWeight_checkColumn : ∀ k < 39, oddWeight (checkColumn k) = true := by decide

theorem checkColumn_injective : ∀ k < 39, ∀ j < k, checkColumn j ≠ checkColumn k := by decide

theorem checkSyndrome_checkColumn : ∀ k < 39, checkSyndrome (checkColumn k) = .corrected := by decide

/-- A syndrome of even weight, not zero, is the column of no bit. -/
theorem checkSyndrome_even {x : BitVec 7} (hz : x ≠ 0) (h : oddWeight x = false) : checkSyndrome x = .uncorrectable := by
  have hdata : ∀ c ∈ hsiaoColumns, oddWeight c = true := by decide
  have hcheck : ∀ i ∈ List.range 7, oddWeight (BitVec.ofNat 7 (2 ^ i)) = true := by decide
  unfold checkSyndrome
  rw [if_neg hz, if_neg]
  rintro (hmem | hany)
  · rw [hdata x (List.contains_iff_mem.mp hmem)] at h
    cases h
  · obtain ⟨i, hi, he⟩ := List.any_eq_true.mp hany
    rw [beq_iff_eq.mp he, hcheck i hi] at h
    cases h

theorem checkWord_clean (w : Word) : checkWord w 0 = .clean := by
  rw [checkWord_eq]
  decide

theorem checkWord_corrected (w : Word) {k : Nat} (h : k < 39) : checkWord w (2 ^ k) = .corrected := by
  unfold checkWord
  rw [syndrome_flip]
  exact checkSyndrome_checkColumn k h

/-- The columns are distinct and of odd weight, so the sum of two is not zero and of even weight. -/
theorem checkWord_uncorrectable (w : Word) {j k : Nat} (hjk : j < k) (h : k < 39) :
    checkWord w (2 ^ j + 2 ^ k) = .uncorrectable := by
  have hadd : ∀ k < 39, ∀ j < k, 2 ^ j + 2 ^ k = 2 ^ j ^^^ 2 ^ k := by decide
  have hsum : hsiaoCode (BitVec.ofNat 32 (2 ^ j + 2 ^ k)) ^^^ BitVec.ofNat 7 ((2 ^ j + 2 ^ k) / 2 ^ 32) =
      checkColumn j ^^^ checkColumn k := by
    rw [hadd k h j hjk, BitVec.ofNat_xor, hsiaoCode_xor, Nat.xor_div_two_pow, BitVec.ofNat_xor]
    unfold checkColumn
    ac_rfl
  unfold checkWord
  rw [syndrome_flip, hsum]
  refine checkSyndrome_even (fun hz => checkColumn_injective k h j hjk (BitVec.xor_eq_zero_iff.mp hz)) ?_
  rw [oddWeight_xor, oddWeight_checkColumn k h, oddWeight_checkColumn j (by omega)]
  rfl

/-! ### The check of a sector -/

/-- The field of one flipped bit. -/
theorem bits_two_pow {k hi lo : Nat} (h : lo ≤ hi) : bits (2 ^ k) hi lo = if lo ≤ k ∧ k ≤ hi then 2 ^ (k - lo) else 0 := by
  unfold bits
  by_cases hlo : lo ≤ k
  · rw [Nat.pow_div hlo (by decide)]
    by_cases hhi : k ≤ hi
    · rw [if_pos ⟨hlo, hhi⟩, Nat.mod_eq_of_lt (Nat.pow_lt_pow_right (by decide) (by omega))]
    · rw [if_neg (by omega)]
      exact Nat.mod_eq_zero_of_dvd (Nat.pow_dvd_pow 2 (by omega))
  · rw [if_neg (by omega), Nat.div_eq_of_lt (Nat.pow_lt_pow_right (by decide) (by omega)), Nat.zero_mod]

/-- The word of the sector that bit k of its data and codes belongs to. -/
def sectorWordOf (k : Nat) : Nat := if k < 256 then k / 32 else (k - 256) / 7

/-- Its place among the 39 bits of that word. -/
def sectorBitOf (k : Nat) : Nat := if k < 256 then k % 32 else 32 + (k - 256) % 7

/-- One flipped bit of a sector's data or codes is one flipped bit of its word, and none of any other. -/
theorem wordFlips_two_pow {k i : Nat} (hk : k < 312) (hi : i < 8) :
    wordFlips (2 ^ k) i = if sectorWordOf k = i then 2 ^ sectorBitOf k else 0 := by
  unfold wordFlips sectorWordOf sectorBitOf
  rw [bits_two_pow (by omega), bits_two_pow (by omega)]
  by_cases hd : k < 256
  · rw [if_pos hd, if_pos hd, if_neg (show ¬ (256 + 7 * i ≤ k ∧ k ≤ 256 + 7 * i + 6) by omega), Nat.mul_zero, Nat.add_zero]
    by_cases hw : k / 32 = i
    · rw [if_pos hw, if_pos (by omega), show k - 32 * i = k % 32 by omega]
    · rw [if_neg hw, if_neg (by omega)]
  · rw [if_neg hd, if_neg hd, if_neg (show ¬ (32 * i ≤ k ∧ k ≤ 32 * i + 31) by omega), Nat.zero_add]
    by_cases hw : (k - 256) / 7 = i
    · rw [if_pos hw, if_pos (by omega), ← Nat.pow_add, show k - (256 + 7 * i) = (k - 256) % 7 by omega]
    · rw [if_neg hw, if_neg (by omega), Nat.mul_zero]

theorem sectorWords_length (bs : List Byte) : (sectorWords bs).length = 8 := by simp [sectorWords]

/-- What the checks of the eight words of a sector find: an outcome is among them when the check of a word has it. -/
theorem mem_sector_checks {bs : List Byte} {flips : Nat} {x : Checked} :
    x ∈ (sectorWords bs).zipIdx.map (fun y => checkWord y.1 (wordFlips flips y.2)) ↔
      ∃ i, i < 8 ∧ checkWord 0 (wordFlips flips i) = x := by
  rw [List.mem_map]
  constructor
  · rintro ⟨⟨w, i⟩, hmem, rfl⟩
    have hi := (List.mem_zipIdx hmem).2.1
    rw [sectorWords_length] at hi
    exact ⟨i, by omega, (checkWord_eq w _).symm⟩
  · rintro ⟨i, hi, rfl⟩
    refine ⟨((sectorWords bs)[i]'(by rw [sectorWords_length]; exact hi), i), ?_, checkWord_eq _ _⟩
    exact List.mk_mem_zipIdx_iff_getElem?.mpr (List.getElem?_eq_getElem _)

/-- A sector in which no word is uncorrectable and the locator stands is as its words are. -/
theorem checkSector_of_words {bs : List Byte} {flips : Nat} (hloc : bits flips 319 312 = 0)
    (hw : ∀ i, i < 8 → checkWord 0 (wordFlips flips i) ≠ .uncorrectable) :
    ((∃ i, i < 8 ∧ checkWord 0 (wordFlips flips i) = .corrected) → checkSector bs flips = .corrected) ∧
      ((¬ ∃ i, i < 8 ∧ checkWord 0 (wordFlips flips i) = .corrected) → checkSector bs flips = .clean) := by
  have hnone : ¬ ∃ i, i < 8 ∧ checkWord 0 (wordFlips flips i) = .uncorrectable := fun ⟨i, hi, he⟩ => hw i hi he
  unfold checkSector
  simp only [List.contains_iff_mem, mem_sector_checks, hloc, hnone, ne_eq, not_true_eq_false, or_self, if_false]
  exact ⟨fun h => if_pos h, fun h => if_neg h⟩

theorem checkSector_clean (bs : List Byte) : checkSector bs 0 = .clean := by
  have hzero : ∀ i, wordFlips 0 i = 0 := fun i => by unfold wordFlips bits; simp only [Nat.zero_div, Nat.zero_mod, Nat.mul_zero]
  refine (checkSector_of_words (by unfold bits; rw [Nat.zero_div, Nat.zero_mod]) fun i _ => ?_).2 ?_
  · rw [hzero, checkWord_clean]; decide
  · rintro ⟨i, -, he⟩
    rw [hzero, checkWord_clean] at he
    cases he

theorem checkSector_corrected (bs : List Byte) {k : Nat} (hk : k < 312) : checkSector bs (2 ^ k) = .corrected := by
  have hbit : sectorBitOf k < 39 := by unfold sectorBitOf; split <;> omega
  have hword : sectorWordOf k < 8 := by unfold sectorWordOf; split <;> omega
  refine (checkSector_of_words ?_ fun i hi => ?_).1 ⟨sectorWordOf k, hword, ?_⟩
  · rw [bits_two_pow (by omega), if_neg (by omega)]
  · rw [wordFlips_two_pow hk hi]
    split
    · rw [checkWord_corrected _ hbit]; decide
    · rw [checkWord_clean]; decide
  · rw [wordFlips_two_pow hk hword, if_pos rfl, checkWord_corrected _ hbit]

theorem checkSector_locator (bs : List Byte) {k : Nat} (hlo : 312 ≤ k) (hhi : k < 320) :
    checkSector bs (2 ^ k) = .uncorrectable := by
  unfold checkSector
  rw [if_pos]
  left
  rw [bits_two_pow (by omega), if_pos (by omega)]
  exact (Nat.two_pow_pos _).ne'

/-- The locator holds its granule modulo 16, its sector, and their even parity. -/
theorem locator_fields (g : Nat) {n : Nat} (hn : n < 8) : bits (locator g n) 7 4 = g % 16 ∧ bits (locator g n) 3 1 = n ∧
    locator g n < 256 ∧ ((List.range 8).map fun i => bits (locator g n) i i).sum % 2 = 0 := by
  have hall : ∀ q < 16, ∀ n < 8, bits (locator q n) 7 4 = q ∧ bits (locator q n) 3 1 = n ∧ locator q n < 256 ∧
      ((List.range 8).map fun i => bits (locator q n) i i).sum % 2 = 0 := by decide
  have hmod : locator g n = locator (g % 16) n := by unfold locator; rw [Nat.mod_mod]
  rw [hmod]
  exact hall _ (Nat.mod_lt _ (by decide)) n hn

end Sys2Proof.Machine

open Sys2Proof Sys2Proof.Machine

/-- Settles O7: canonical data is its reads, a store of clean words is its bytes put in turn, and the check of a word depends only
on what was flipped. -/
theorem memoryReadsAndStores : Obligations.MemoryReadsAndStores := by
  refine ⟨fun m n hm hn h => cells_ext hm hn h, fun m a bs hw h => ⟨fun i hi => Memory.read_store_inside hw h hi,
    fun x hx => Memory.read_store_outside hw h hx⟩, ⟨checkWord_clean, fun w k hk => checkWord_corrected w hk,
    fun w j k hjk hk => checkWord_uncorrectable w hjk hk, fun bs => ⟨checkSector_clean bs, fun k hk => checkSector_corrected bs hk,
      fun k hlo hhi => checkSector_locator bs hlo hhi⟩, fun g n hn => locator_fields g hn⟩⟩
end

section
/-! SUPPORT. The words that change their own thread only: what each writes, from the law of a register word that its thread executes
(Laws/Issue.lean). -/

namespace Sys2Proof.Machine

open Sys2Proof

/-! ### Register words -/

section RegisterWords

variable {c : Instr} {t : ThreadId} {k : Common} {s : State}

theorem advance_pc_of_place {x y : Thread} (hpc : x.pc = y.pc) (hloops : x.loops = y.loops) : x.advance.pc = y.advance.pc := by
  unfold Thread.advance
  rw [hpc, hloops]

/-- A register word that leaves the place of its thread changes its thread by `f`, steps past itself and changes nothing else. -/
theorem completes_regWord {f : Thread → Thread} (he : exec c s = regWord c t k f s) (h : Executes c t k s)
    (hpc : (f (theThread s t)).pc = (theThread s t).pc) (hloops : (f (theThread s t)).loops = (theThread s t).loops) :
    Completes c s fun u => OnlyThread s u t (f (theThread s t)).advance := by
  obtain ⟨u, hu, ht⟩ := regWord_executes h (f := f) (advance_pc_of_place hpc hloops)
  exact ⟨u, he.trans hu, ht⟩

theorem writesS_of_regWord {dst : Fin 32} {g : Thread → Word} {v : Word}
    (he : exec c s = regWord c t k (fun th => th.wr dst (g th)) s) (hv : g (theThread s t) = v) (h : Executes c t k s) :
    WritesS c s t dst v := by
  subst hv
  exact completes_regWord he h rfl rfl

theorem writesP_of_regWord {dst : Nat} {g : Thread → Bool} {v : Bool}
    (he : exec c s = regWord c t k (fun th => th.wrP (Fin.ofNat 8 dst) (g th)) s) (hv : g (theThread s t) = v)
    (h : Executes c t k s) : WritesP c s t dst v := by
  subst hv
  exact completes_regWord he h rfl rfl

/-- The fields of a word that its thread executes are legal. -/
theorem Executes.wf (h : Executes c t k s) : c.wf = true := h.passed.1

end RegisterWords

/-! ### Division (R114) -/

/-- −2^31 by −1 needs no case of its own: the quotient 2^31 wraps to −2^31. -/
theorem divS_eq (a b : Word) : divS a b = if b = 0 then -1 else if a = 0x80000000 ∧ b = -1 then 0x80000000 else
    BitVec.ofInt 32 (a.toInt.tdiv b.toInt) := by
  unfold divS
  split
  · rfl
  · split
    · next h => obtain ⟨rfl, rfl⟩ := h; decide
    · rfl

theorem remS_eq (a b : Word) : remS a b = if b = 0 then a else if a = 0x80000000 ∧ b = -1 then 0 else
    BitVec.ofInt 32 (a.toInt.tmod b.toInt) := by
  unfold remS
  split
  · rfl
  · split
    · next h => obtain ⟨rfl, rfl⟩ := h; decide
    · rfl

/-! ### Immediates -/

/-- The sign extension of a small immediate is the immediate. -/
theorem immWord_toNat {o : IArgs} (h : o.imm.toNat ≤ 31) : (immWord o).toNat % 32 = o.imm.toNat := by
  have hmsb : o.imm.msb = false := by rw [BitVec.msb_eq_false_iff_two_mul_lt]; omega
  unfold immWord
  rw [BitVec.signExtend_eq_setWidth_of_msb_false hmsb, BitVec.toNat_setWidth]
  omega

theorem shiftImm_shl {o : IArgs} (a : Word) (h : o.imm.toNat ≤ 31) : shiftImm 0 a (immWord o) = a <<< o.imm.toNat := by
  show a <<< ((immWord o).toNat % 32) = _
  rw [immWord_toNat h]

theorem shiftImm_shr {o : IArgs} (a : Word) (h : o.imm.toNat ≤ 31) : shiftImm 1 a (immWord o) = a >>> o.imm.toNat := by
  show a >>> ((immWord o).toNat % 32) = _
  rw [immWord_toNat h]

theorem shiftImm_sra {o : IArgs} (a : Word) (h : o.imm.toNat ≤ 31) :
    shiftImm 2 a (immWord o) = a.sshiftRight o.imm.toNat := by
  show a.sshiftRight ((immWord o).toNat % 32) = _
  rw [immWord_toNat h]

/-- A legal SHIFTI names an amount below 32. -/
theorem shifti_amount {t : ThreadId} {k : Common} {o : IArgs} (h : (Instr.shifti t k o).wf = true) : o.imm.toNat ≤ 31 := by
  simp only [Instr.wf, Bool.and_eq_true, decide_eq_true_eq] at h
  exact h.2.2

/-- A legal LRD names a level below 4. -/
theorem lrd_level {t : ThreadId} {k : Common} {o : IArgs} (h : (Instr.lrd t k o).wf = true) : o.imm.toNat % 4 = o.imm.toNat := by
  simp only [Instr.wf, Bool.and_eq_true, decide_eq_true_eq] at h
  omega

/-! ### Comparisons -/

theorem cmpWord_eq (n : Nat) (a b : Word) : cmpWord n a b =
    match n with
    | 0 => a == b
    | 1 => a != b
    | 2 => decide (a.toInt < b.toInt)
    | 3 => decide (a.toInt ≤ b.toInt)
    | 4 => decide (a.toNat < b.toNat)
    | _ => decide (a.toNat ≤ b.toNat) := by
  match n with
  | 0 | 1 | 2 | 3 | 4 | _ + 5 => rfl

theorem minMax_eq (n : Nat) (a b : Word) : minMax n a b =
    match n with
    | 0 => if a.toInt ≤ b.toInt then a else b
    | 1 => if a.toInt ≤ b.toInt then b else a
    | 2 => if a.toNat ≤ b.toNat then a else b
    | _ => if a.toNat ≤ b.toNat then b else a := by
  match n with
  | 0 | 1 | 2 | _ + 3 => simp only [minMax, BitVec.sle, BitVec.ule, decide_eq_true_eq]

theorem plogOp_eq (n : Nat) (a b : Bool) : plogOp n a b =
    match n with
    | 0 => a && b
    | 1 => a || b
    | 2 => a != b
    | 3 => a && !b
    | 4 => true
    | _ => false := by
  match n with
  | 0 | 1 | 2 | 3 | 4 | _ + 5 => rfl

end Sys2Proof.Machine

open Sys2Proof Sys2Proof.Machine

/-- Settles O12: each word is a register word by its own operation. -/
theorem arithmeticWords : Obligations.ArithmeticWords := fun _ _ _ _ =>
  ⟨writesS_of_regWord rfl rfl, writesS_of_regWord rfl rfl, writesS_of_regWord rfl rfl, writesS_of_regWord rfl rfl,
    writesS_of_regWord rfl rfl, writesS_of_regWord rfl rfl, writesS_of_regWord rfl rfl, writesS_of_regWord rfl rfl,
    writesS_of_regWord rfl rfl, writesS_of_regWord rfl rfl, writesS_of_regWord rfl rfl⟩

/-- Settles O13: division and remainder, with the two special cases of R114. -/
theorem divisionWords : Obligations.DivisionWords := fun _ _ _ _ =>
  ⟨writesS_of_regWord rfl rfl, writesS_of_regWord rfl rfl, writesS_of_regWord rfl (divS_eq _ _),
    writesS_of_regWord rfl (remS_eq _ _)⟩

/-- Settles O14: the immediate words, SHIFTI and LRD within the range of their immediate, and MOVI. -/
theorem immediateWords : Obligations.ImmediateWords := by
  intro t k o s th
  refine ⟨writesS_of_regWord rfl rfl, writesS_of_regWord rfl rfl, writesS_of_regWord rfl rfl, writesS_of_regWord rfl rfl,
    fun h hm => ?_, fun h hm => ?_, fun h hm => ?_, fun h => ?_, fun l => writesS_of_regWord rfl rfl⟩
  · refine writesS_of_regWord (g := fun th => shiftImm o.minor.val (th.rd o.a) (immWord o)) rfl ?_ h
    rw [hm]
    exact shiftImm_shl _ (shifti_amount h.wf)
  · refine writesS_of_regWord (g := fun th => shiftImm o.minor.val (th.rd o.a) (immWord o)) rfl ?_ h
    rw [hm]
    exact shiftImm_shr _ (shifti_amount h.wf)
  · refine writesS_of_regWord (g := fun th => shiftImm o.minor.val (th.rd o.a) (immWord o)) rfl ?_ h
    rw [hm]
    exact shiftImm_sra _ (shifti_amount h.wf)
  · refine writesS_of_regWord rfl ?_ h
    rw [lrd_level h.wf]
    simp only [Fin.ext_iff]
    rfl

/-- Settles O15: the comparisons and selections by MINOR. -/
theorem predicateWords : Obligations.PredicateWords := by
  intro t k o s th
  exact ⟨writesP_of_regWord rfl (cmpWord_eq _ _ _), writesP_of_regWord rfl (plogOp_eq _ _ _), writesS_of_regWord rfl rfl,
    writesS_of_regWord rfl (minMax_eq _ _ _), fun i => writesP_of_regWord rfl (cmpWord_eq _ _ _)⟩
end

section
/-! SUPPORT. Words whose guard does not hold (R108), and the words that place their thread anew: BR, LOOP and the end of a loop's
body (R140 to R143). -/

namespace Sys2Proof.Machine

open Sys2Proof

/-! ### A guard that does not hold -/

/-- Where a thread goes on from a word whose guard does not hold: past the word, past the body of a LOOP. -/
def skipWord (c : Instr) (th : Thread) : Thread :=
  match c with
  | .loop _ _ o => th.skipTo o.target.toNat
  | _ => th.advance

/-- The outcome `r` of a word that lowering has passed and whose guard does not hold: its issue, with no effect but the skip. -/
def SkipsWord (c : Instr) (t : ThreadId) (k : Common) (s : State) (r : Host.Outcome State Fault Refusal) : Prop :=
  Passed c s → guardOk k (theThread s t) = false → ∃ eff, r = issueWord c t k eff (fun s => modThread s t (skipWord c)) s

section Skips

variable {t : ThreadId} {k : Common} {s : State}

theorem issueWord_skips {c : Instr} {eff : State → State} (hc : skipWord c = Thread.advance) :
    SkipsWord c t k s (issueWord c t k eff (stepPc t) s) := fun _ _ => ⟨eff, by unfold stepPc; rw [hc]⟩

theorem regWord_skips {c : Instr} {f : Thread → Thread} (hc : skipWord c = Thread.advance) :
    SkipsWord c t k s (regWord c t k f s) := issueWord_skips hc

theorem stateWord_skips {c : Instr} {f : State → State} (hc : skipWord c = Thread.advance) :
    SkipsWord c t k s (stateWord c t k f s) := issueWord_skips hc

theorem vectorWord_skips {c : Instr} {f : State → State} (hv : vectorThread c = some t) (hc : skipWord c = Thread.advance) :
    SkipsWord c t k s (vectorWord c t k f s) := by
  intro hp hg
  have hvec : (groupOf s t).vec = true := hp.2.1 t hv
  unfold vectorWord
  rw [if_neg (by simp [hvec])]
  exact issueWord_skips hc hp hg

theorem laneWord_skips {c : Instr} {f : State → State} (hv : vectorThread c = some t) (hc : skipWord c = Thread.advance) :
    SkipsWord c t k s (laneWord c t k f s) := vectorWord_skips hv hc

theorem tensorWord_skips {c : Instr} {f : State → State} (hc : skipWord c = Thread.advance) :
    SkipsWord c t k s (tensorWord c t k f s) := by
  intro hp hg
  unfold tensorWord
  rw [if_neg (by simp [hg])]
  exact issueWord_skips hc hp hg

theorem execBr_skips {o : CArgs} : SkipsWord (.br t k o) t k s (execBr t k o s) := by
  intro hp hg
  obtain ⟨-, -, hcode⟩ := hp
  unfold execBr
  rw [if_neg (fun h => absurd h.2 (Nat.not_le.mpr hcode))]
  exact ⟨_, rfl⟩

/-- A LOOP that lowering has passed issues. -/
theorem execLoop_passed {o : CArgs} (hp : Passed (.loop t k o) s) : execLoop t k o s =
    issueWord (.loop t k o) t k (fun s => modThread s t fun th => th.enterLoop o)
      (fun s => modThread s t fun th => th.skipTo o.target.toNat) s := by
  obtain ⟨-, -, hcode, hforward, hdepth⟩ := hp
  unfold execLoop
  rw [if_neg (by omega)]

theorem execLoop_skips {o : CArgs} : SkipsWord (.loop t k o) t k s (execLoop t k o s) := by
  intro hp hg
  exact ⟨_, execLoop_passed hp⟩

/-- An MMA that lowering has passed is one that the grade has (R3, R101). -/
theorem execMma_passed {o : MArgs} (hp : Passed (.mma t k o) s) :
    execMma t k o s = tensorWord (.mma t k o) t k (startMma t k o) s := by
  have hgrade : ¬ (s.part.grade = .S ∧ (o.rig.val = 4 ∨ o.fmta.val = 6) ∧ canIssue s t = true) := by
    rintro ⟨hS, hform, -⟩
    rcases hp.2.2 with hT | ⟨hrig, hfmt⟩
    · rw [hS] at hT; cases hT
    · exact hform.elim hrig hfmt
  unfold execMma
  rw [if_neg hgrade]

theorem execMma_skips {o : MArgs} : SkipsWord (.mma t k o) t k s (execMma t k o s) := by
  intro hp hg
  rw [execMma_passed hp]
  exact tensorWord_skips rfl hp hg

/-- Every word of a thread skips. -/
theorem exec_skips {c : Instr} (hw : wordOf c = some (t, k)) : SkipsWord c t k s (exec c s) := by
  cases c with
  | br => cases hw; exact execBr_skips
  | loop => cases hw; exact execLoop_skips
  | mma => cases hw; exact execMma_skips
  | tcopy | tscadd => cases hw; unfold exec; exact tensorWord_skips rfl
  | vadd | vsub | vmul | vfma | vmin | vmax | vcmp | vsel | vexp2 | vrcp | vrsq | viadd | visub | vimul | vlogic | vrsum | vrmax
  | vperm | vbcast | vext | vflag | vmov | vcvt | vmaxabs => cases hw; unfold exec; exact laneWord_skips rfl rfl
  | vld | vst => cases hw; unfold exec; exact vectorWord_skips rfl rfl
  | halt => cases hw; unfold exec execHalt; exact issueWord_skips rfl
  | take => cases hw; unfold exec execTake; exact issueWord_skips rfl
  | nop | lrd | add | sub | mul | mulhu | mulhs | divu | remu | divs | rems | and | or | xor | shl | shr | sra | minmax | addi
  | andi | ori | xori | shifti | movi | cmp | cmpi | sel | plog | fadd | fmul | ffma | fminmax | fcmp | fcvt | park =>
    cases hw; unfold exec; exact regWord_skips rfl
  | twait | ld | st | atom | atomp | fence | tmaxabs | sig | sigw | watch | unwatch | token | delay | time | reel | dld | dstr
  | dsetw | dgetw => cases hw; unfold exec; exact stateWord_skips rfl
  | _ => cases hw

/-- A word whose guard does not hold changes its thread by the skip alone. -/
theorem completes_skip {c : Instr} (h : Arrives c t k s) (hg : guardOk k (theThread s t) = false)
    (hp : (skipWord c (theThread s t)).pc < codeWords (ctxOf s t.ctx)) :
    Completes c s fun u => OnlyThread s u t (skipWord c (theThread s t)) := by
  obtain ⟨eff, he⟩ := exec_skips h.word h.passed hg
  exact ⟨_, he.trans (issueWord_off h.passed.1 h.may h.fresh h.noBreak hg),
    onlyThread_of_mod (canIssue_of_issues h.may) fun _ => hp⟩

end Skips

/-- A guard fails where the word has one and its predicate is as GNEG has it (R108). -/
theorem guardOk_false {k : Common} {th : Thread} : guardOk k th = false ↔ k.gen = true ∧ th.rdP k.gp = k.gneg := by
  unfold guardOk
  cases k.gen <;> cases th.rdP k.gp <;> cases k.gneg <;> decide

/-- The common fields of a legal word are legal. -/
theorem Common.ok_of_wf {c : Instr} {t : ThreadId} {k : Common} (hw : wordOf c = some (t, k)) (h : c.wf = true) :
    k.ok = true := by
  cases c with
  | movi => cases hw; exact h
  | br | loop | mma | tcopy | tscadd | vadd | vsub | vmul | vfma | vmin | vmax | vcmp | vsel | vexp2 | vrcp | vrsq | viadd | visub
  | vimul | vlogic | vrsum | vrmax | vperm | vbcast | vext | vflag | vmov | vcvt | vmaxabs | vld | vst | halt | take | nop | lrd
  | add | sub | mul | mulhu | mulhs | divu | remu | divs | rems | and | or | xor | shl | shr | sra | minmax | addi | andi | ori
  | xori | shifti | cmp | cmpi | sel | plog | fadd | fmul | ffma | fminmax | fcmp | fcvt | park | twait | ld | st | atom
  | atomp | fence | tmaxabs | sig | sigw | watch | unwatch | token | delay | time | reel | dld | dstr | dsetw | dgetw =>
    cases hw; exact (Bool.and_eq_true _ _ ▸ h : _ ∧ _).1
  | _ => cases hw

/-! ### BR and LOOP -/

section Control

variable {t : ThreadId} {k : Common} {s : State} {o : CArgs}

theorem branch_eq (th : Thread) (target : Nat) : th.branch target =
    { th with
      pc := target
      loops := th.loops.dropWhile fun l => !decide (l.start ≤ target ∧ target ≤ l.stop) } := by
  unfold Thread.branch
  simp only [Bool.decide_and]

/-- BR moves its thread to its target, which lowering has found in the code (R143). -/
theorem completes_br (h : Arrives (.br t k o) t k s) (hg : guardOk k (theThread s t) = true) :
    Completes (.br t k o) s fun u => OnlyThread s u t ((theThread s t).branch o.target.toNat) := by
  obtain ⟨-, -, hcode⟩ := h.passed
  have hexec : exec (.br t k o) s =
      issueWord (.br t k o) t k (fun s => modThread s t fun th => th.branch o.target.toNat) (stepPc t) s :=
    if_neg fun hc => absurd hc.2 (Nat.not_le.mpr hcode)
  exact ⟨_, hexec.trans (issueWord_guard h.passed.1 h.may h.fresh h.noBreak hg),
    onlyThread_of_mod (canIssue_of_issues h.may) fun _ => hcode⟩

/-- LOOP enters its body or skips it (R140, R142). -/
theorem completes_loop (h : Arrives (.loop t k o) t k s) (hg : guardOk k (theThread s t) = true)
    (hp : ((theThread s t).enterLoop o).pc < codeWords (ctxOf s t.ctx)) :
    Completes (.loop t k o) s fun u => OnlyThread s u t ((theThread s t).enterLoop o) :=
  ⟨_, (execLoop_passed h.passed).trans (issueWord_guard h.passed.1 h.may h.fresh h.noBreak hg),
    onlyThread_of_mod (canIssue_of_issues h.may) fun _ => hp⟩

theorem enterLoop_zero {th : Thread} (hc : loopCount o th = 0) : th.enterLoop o = th.skipTo o.target.toNat := if_pos hc

theorem enterLoop_pos {th : Thread} (hc : loopCount o th ≠ 0) : th.enterLoop o =
    { th with
      pc := th.pc + 1
      loops := { start := th.pc + 1, stop := o.target.toNat, count := loopCount o th, index := 0 } :: th.loops } := if_neg hc

end Control

/-! ### The end of a loop's body (R142) -/

theorem endStep_repeats {p : Nat} {l : LoopLevel} {r : List LoopLevel} (hp : l.stop = p) (hc : l.index + 1 < l.count) :
    endStep p (l :: r) = (l.start, { l with index := l.index + 1 } :: r) := by
  rw [endStep, if_pos hp, if_pos hc]

theorem endStep_pops {p : Nat} {l : LoopLevel} {r : List LoopLevel} (hp : l.stop = p) (hc : l.count ≤ l.index + 1) :
    endStep p (l :: r) = endStep p r := by
  rw [endStep, if_pos hp, if_neg (Nat.not_lt.mpr hc)]

theorem endStep_inside {p : Nat} {l : LoopLevel} {r : List LoopLevel} (hp : l.stop ≠ p) : endStep p (l :: r) = (p + 1, l :: r) := by
  rw [endStep, if_neg hp]

end Sys2Proof.Machine

open Sys2Proof Sys2Proof.Machine

/-- Settles O10: every word issues with the same skip, and a guard is judged by its fields. -/
theorem guardedOffWordHasNoEffect : Obligations.GuardedOffWordHasNoEffect := by
  refine ⟨fun c t k s h hg hp => completes_skip h hg hp, fun k th => guardOk_false, fun c t k hw hwf hgen => ?_⟩
  have hok := Common.ok_of_wf hw hwf
  simp only [Common.ok, hgen, Bool.false_or, Bool.and_eq_true, Bool.not_eq_true', beq_iff_eq] at hok
  exact ⟨hok.1, Fin.ext hok.2⟩

/-- Settles O17: NOP, BR and LOOP place their thread, and `endStep` is the end of a body. -/
theorem controlWords : Obligations.ControlWords := by
  refine ⟨fun t k o s => ?_, fun _ _ _ => endStep_repeats, fun _ _ _ => endStep_pops, fun _ _ _ => endStep_inside, fun _ => rfl⟩
  intro th
  refine ⟨fun h => completes_regWord (f := id) rfl h rfl rfl, fun h hg => ?_, fun h hg => ⟨fun hc hp => ?_, fun hc => ?_⟩⟩
  · rw [← branch_eq]
    exact completes_br h hg
  · have henter := enterLoop_zero (o := o) hc
    rw [← henter] at hp ⊢
    exact completes_loop h hg hp
  · have henter := enterLoop_pos (o := o) (th := th) hc
    obtain ⟨-, -, hcode, hforward, -⟩ := h.passed
    have hp : (th.enterLoop o).pc < codeWords (ctxOf s t.ctx) := by
      rw [henter]
      exact Nat.lt_of_le_of_lt hforward hcode
    have hloop := completes_loop h hg hp
    rw [henter] at hloop
    exact hloop
end

section
/-! SUPPORT. The FP32 words (R115): NaN operands, and that an FP32 word that is not a NaN stands for a value that converts back to it. -/

namespace Sys2Proof.Machine

open Sys2Proof

/-! ### NaN -/

theorem eq_nan_of_isNan {x : FpVal} (h : x.isNan = true) : x = .nan := by
  cases x with
  | nan => rfl
  | inf | fin => cases h

theorem add_nan (x : FpVal) : x.add .nan = .nan := by cases x <;> rfl

theorem mul_nan (x : FpVal) : x.mul .nan = .nan := by cases x <;> rfl

theorem toF32_nan : toF32 .nan = 0x7FC00000 := by decide

theorem fadd_nan {a b : Word} (h : (f32 a).isNan = true ∨ (f32 b).isNan = true) : fadd a b = 0x7FC00000 := by
  unfold fadd
  rcases h with h | h <;> rw [eq_nan_of_isNan h]
  · exact toF32_nan
  · rw [add_nan, toF32_nan]

theorem fmul_nan {a b : Word} (h : (f32 a).isNan = true ∨ (f32 b).isNan = true) : fmul a b = 0x7FC00000 := by
  unfold fmul
  rcases h with h | h <;> rw [eq_nan_of_isNan h]
  · exact toF32_nan
  · rw [mul_nan, toF32_nan]

theorem ffma_nan {a b c : Word} (h : (f32 a).isNan = true ∨ (f32 b).isNan = true ∨ (f32 c).isNan = true) :
    ffma a b c = 0x7FC00000 := by
  unfold ffma
  rcases h with h | h | h <;> rw [eq_nan_of_isNan h]
  · exact toF32_nan
  · rw [mul_nan]
    exact toF32_nan
  · rw [add_nan, toF32_nan]

/-! ### A word that is not a NaN -/

/-- A magnitude that has the spacing of its binade is rounded to itself. -/
theorem roundMag_exact {m : Nat} {e E : Int} (hm : m ≠ 0) (hE : (if ilog2 m e < -126 then -126 else ilog2 m e) = E)
    (he : e = E - 23) : fmtFP32.roundMag .nearest m e = (E + 126).toNat * 2 ^ 23 + m := by
  have hq : E - (fmtFP32.fBits : Int) = e := he.symm
  have hmin : (1 - (fmtFP32.bias : Int)) = -126 := rfl
  unfold FpFmt.roundMag
  rw [if_neg hm]
  dsimp only
  rw [hmin, hE, hq]
  unfold roundUnits
  rw [if_pos (Int.le_refl e), Int.sub_self, show E - -126 = E + 126 by omega]
  show (E + 126).toNat * 2 ^ 23 + m * 2 ^ 0 = _
  rw [Nat.pow_zero, Nat.mul_one]

/-- The sign above the magnitude of a word gives the word back. -/
theorem signed_of_word (w : Word) : fmtFP32.signed (bitOf w.toNat 31) (w.toNat % 2 ^ 31) = w.toNat := by
  have hlt := w.isLt
  unfold FpFmt.signed bitOf
  show (if (w.toNat / 2 ^ 31 % 2 == 1) = true then 2 ^ 31 else 0) + w.toNat % 2 ^ 31 = w.toNat
  split
  · next h => rw [beq_iff_eq] at h; omega
  · next h => rw [beq_iff_eq] at h; omega

/-- The magnitude of a subnormal value is its fraction. -/
theorem roundMag_subnormal {F : Nat} (hF : F < 2 ^ 23) : fmtFP32.roundMag .nearest F (-149) = F := by
  by_cases hz : F = 0
  · subst hz; rfl
  · have hlog : Nat.log2 F < 23 := (Nat.log2_lt hz).mpr hF
    rw [roundMag_exact (E := -126) hz (if_pos (by unfold ilog2; omega)) (by decide)]
    simp

/-- The magnitude of a normal value is its exponent above its fraction. -/
theorem roundMag_normal {E F : Nat} (hE : 1 ≤ E) (hF : F < 2 ^ 23) :
    fmtFP32.roundMag .nearest (2 ^ 23 + F) ((E : Int) - 127 - 23) = E * 2 ^ 23 + F := by
  have hlog : Nat.log2 (2 ^ 23 + F) = 23 := (Nat.log2_eq_iff (by omega)).mpr ⟨by omega, by omega⟩
  have hbinade : ilog2 (2 ^ 23 + F) ((E : Int) - 127 - 23) = (E : Int) - 127 := by unfold ilog2; omega
  rw [roundMag_exact (E := (E : Int) - 127) (by omega) (by rw [hbinade, if_neg (by omega)]) rfl]
  omega

/-- What a finite value of the magnitude of a word converts to. -/
theorem rne_fin {neg : Bool} {m mag : Nat} {e : Int} (hr : fmtFP32.roundMag .nearest m e = mag) (hle : mag ≤ 0x7F7FFFFF) :
    fmtFP32.rne (.fin neg m e) = fmtFP32.signed neg mag := by
  have hmax : mag ≤ fmtFP32.maxBits := hle
  unfold FpFmt.rne FpFmt.convert
  simp only [hr, if_pos hmax]

/-- A word that is not a NaN is what its value converts to. -/
theorem toF32_f32 {w : Word} (h : (f32 w).isNan = false) : toF32 (f32 w) = w := by
  suffices hr : fmtFP32.rne (f32 w) = w.toNat by
    unfold toF32
    rw [hr, BitVec.ofNat_toNat, BitVec.setWidth_eq]
  have hsplit : f32 w =
      if 0x7F7FFFFF < w.toNat % 2 ^ 31 then (if w.toNat % 2 ^ 31 = 0x7F800000 then .inf (bitOf w.toNat 31) else .nan)
      else if w.toNat % 2 ^ 31 / 2 ^ 23 = 0 then .fin (bitOf w.toNat 31) (w.toNat % 2 ^ 31 % 2 ^ 23) (-149)
      else .fin (bitOf w.toNat 31) (2 ^ 23 + w.toNat % 2 ^ 31 % 2 ^ 23) (((w.toNat % 2 ^ 31 / 2 ^ 23 : Nat) : Int) - 127 - 23) := by
    unfold f32 FpFmt.value
    simp only [fmtFP32, and_true]
    rfl
  have hword := signed_of_word w
  rw [hsplit] at h ⊢
  split at h
  · split at h
    · next hbig hinf =>
      rw [if_pos hbig, if_pos hinf]
      rw [hinf] at hword
      exact hword
    · cases h
  · next hfin =>
    rw [if_neg hfin]
    split
    · next hE =>
      rw [rne_fin (roundMag_subnormal (Nat.mod_lt _ (by decide))) (by omega),
        show w.toNat % 2 ^ 31 % 2 ^ 23 = w.toNat % 2 ^ 31 by omega, hword]
    · next hE =>
      rw [rne_fin (roundMag_normal (by omega) (Nat.mod_lt _ (by decide))) (by omega),
        show w.toNat % 2 ^ 31 / 2 ^ 23 * 2 ^ 23 + w.toNat % 2 ^ 31 % 2 ^ 23 = w.toNat % 2 ^ 31 by omega, hword]

/-- The other operand is the minimum and the maximum beside a NaN. -/
theorem fminmax_nan {a b : Word} (ha : (f32 a).isNan = true) (hb : (f32 b).isNan = false) :
    fmin a b = b ∧ fmin b a = b ∧ fmax a b = b ∧ fmax b a = b := by
  unfold fmin fmax FpVal.min FpVal.max
  simp [ha, hb, toF32_f32 hb]

theorem fcvt_nan {a : Word} (h : (f32 a).isNan = true) : fcvt 2 a = 0 ∧ fcvt 3 a = 0 := by
  unfold fcvt
  rw [eq_nan_of_isNan h]
  exact ⟨rfl, rfl⟩

theorem fminmax_zero : fmin 0x80000000 0 = 0x80000000 ∧ fmin 0 0x80000000 = 0x80000000 ∧ fmax 0x80000000 0 = 0 ∧
    fmax 0 0x80000000 = 0 := by decide

theorem fminmax_eq (n : Fin 16) (a b : Word) : (if n.val = 0 then fmin else fmax) a b = if n = 0 then fmin a b else fmax a b := by
  by_cases h : n = 0
  · subst h; rfl
  · have hv : n.val ≠ 0 := fun e => h (Fin.ext e)
    rw [if_neg h, if_neg hv]

end Sys2Proof.Machine

open Sys2Proof Sys2Proof.Machine

/-- Settles O16: the words are register words by the model's FP32 operations, whose special values these are. -/
theorem floatWords : Obligations.FloatWords := by
  refine ⟨fun t k o s => ?_, fun a b h => ⟨fadd_nan h, fmul_nan h⟩, fun a b c h => ffma_nan h, fun a b ha hb => fminmax_nan ha hb,
    fminmax_zero, fun a h => fcvt_nan h⟩
  exact ⟨writesS_of_regWord rfl rfl, writesS_of_regWord rfl rfl, writesS_of_regWord rfl rfl,
    writesS_of_regWord rfl (fminmax_eq _ _ _), writesP_of_regWord rfl rfl, writesS_of_regWord rfl rfl⟩
end

section
/-! SUPPORT. Words with an effect on the state: the outcome of such a word at a thread that executes it, and what the counting of an
arrival leaves alone. -/

namespace Sys2Proof.Machine

open Sys2Proof

/-! ### What the counting of an arrival leaves alone -/

section Counting

variable {s z : State} {t : ThreadId}

/-- Of its context the counting of an arrival changes the note of the last arrival. -/
theorem Counted.ctxOf_eq (h : Counted s z t) (c : Nat) : ∃ l, ctxOf z c = { ctxOf s c with lastCount := l } := by
  obtain ⟨r, w, x, rfl, -, rfl | rfl⟩ := h
  · exact ⟨(ctxOf s c).lastCount, rfl⟩
  · by_cases hc : c = t.ctx
    · subst hc
      exact ⟨some (now s, t), mget_mset_same _ _ _ _⟩
    · exact ⟨(ctxOf s c).lastCount, mget_mset_other _ _ _ hc⟩

theorem Counted.rawReg_eq (h : Counted s z t) {off : Nat} (ho : ∀ i, i < 4 → off ≠ offTagBreak t.ctx i) :
    rawReg z off = rawReg s off := by
  obtain ⟨r, w, x, rfl, hr, -⟩ := h
  unfold rawReg mget
  rw [(hr off ho).1]

theorem Counted.threads_eq (h : Counted s z t) : z.threads = s.threads := by
  obtain ⟨r, w, x, rfl, -, -⟩ := h; rfl

theorem Counted.requests_eq (h : Counted s z t) : z.requests = s.requests := by
  obtain ⟨r, w, x, rfl, -, -⟩ := h; rfl

theorem Counted.nextReq_eq (h : Counted s z t) : z.nextReq = s.nextReq := by
  obtain ⟨r, w, x, rfl, -, -⟩ := h; rfl

theorem Counted.groups_eq (h : Counted s z t) : z.groups = s.groups := by
  obtain ⟨r, w, x, rfl, -, -⟩ := h; rfl

theorem Counted.vectors_eq (h : Counted s z t) : z.vectors = s.vectors := by
  obtain ⟨r, w, x, rfl, -, -⟩ := h; rfl

theorem Counted.mem_eq (h : Counted s z t) : z.mem = s.mem := by
  obtain ⟨r, w, x, rfl, -, -⟩ := h; rfl

theorem Counted.clock_eq (h : Counted s z t) : z.clock = s.clock := by
  obtain ⟨r, w, x, rfl, -, -⟩ := h; rfl

theorem Counted.logs_eq (h : Counted s z t) : z.logs = s.logs := by
  obtain ⟨r, w, x, rfl, -, -⟩ := h; rfl

theorem Counted.wakes_eq (h : Counted s z t) : z.wakes = s.wakes := by
  obtain ⟨r, w, x, rfl, -, -⟩ := h; rfl

theorem Counted.phys_eq (h : Counted s z t) : z.phys = s.phys := by
  obtain ⟨r, w, x, rfl, -, -⟩ := h; rfl

theorem Counted.part_eq (h : Counted s z t) : z.part = s.part := by
  obtain ⟨r, w, x, rfl, -, -⟩ := h; rfl

theorem Counted.activity_eq (h : Counted s z t) : z.activity = s.activity := by
  obtain ⟨r, w, x, rfl, -, -⟩ := h; rfl

theorem Counted.now_eq (h : Counted s z t) : now z = now s := by unfold now; rw [h.clock_eq]

theorem Counted.theThread_eq (h : Counted s z t) (t' : ThreadId) : theThread z t' = theThread s t' := by
  unfold theThread threadOf; rw [h.threads_eq]

theorem Counted.threadOf_eq (h : Counted s z t) (t' : ThreadId) : threadOf z t' = threadOf s t' := by
  unfold threadOf; rw [h.threads_eq]

theorem Counted.groupOf_eq (h : Counted s z t) (t' : ThreadId) : groupOf z t' = groupOf s t' := by
  unfold groupOf; rw [h.groups_eq]

theorem Counted.vectorOf_eq (h : Counted s z t) (t' : ThreadId) : vectorOf z t' = vectorOf s t' := by
  unfold vectorOf; rw [h.vectors_eq]

theorem Counted.threadRegion_eq (h : Counted s z t) (t' : ThreadId) : threadRegion z t' = threadRegion s t' := by
  obtain ⟨l, hl⟩ := h.ctxOf_eq t'.ctx
  unfold threadRegion cellPlace
  rw [hl]

theorem Counted.outstanding_eq (h : Counted s z t) (t' : ThreadId) (p : ReqKind → Bool) :
    outstanding z t' p = outstanding s t' p := by
  unfold outstanding requestsOf; rw [h.requests_eq]

end Counting

/-! ### A word with an effect on the state -/

section StateWords

variable {c : Instr} {t : ThreadId} {k : Common} {s : State} {f : State → State}

/-- A thread that steps past its word and has a next one, or waits, stands there. -/
theorem settle_stepped {y : State} {th : Thread} (ht : threadOf y t = some th)
    (hp : th.run = .ready → th.advance.pc < codeWords (ctxOf y t.ctx)) :
    settle (standsAt (stepPc t y) t) t = { y with threads := mset y.threads t { th.advance with readyAt := now y } } := by
  have hstep : stepPc t y = { y with threads := mset y.threads t th.advance } := modThread_eq ht
  have hn : threadOf (stepPc t y) t = some th.advance := by rw [hstep]; exact mget?_mset_same _ _ _
  have hstand : standsAt (stepPc t y) t = { y with threads := mset y.threads t { th.advance with readyAt := now y } } := by
    rw [standsAt_eq hn, hstep]
    exact congrArg (fun m => ({ y with threads := m } : State)) (mset_mset _ _ _ _)
  rw [hstand]
  have hl : threadOf { y with threads := mset y.threads t { th.advance with readyAt := now y } } t =
      some { th.advance with readyAt := now y } := mget?_mset_same _ _ _
  by_cases hr : th.run = .ready
  · exact settle_eq hl (hp hr)
  · exact settle_of_not_ready hl hr

/-- A word with the effect `f` completes in what `f` makes of the state with the arrival counted, its thread stepped past the
word. -/
theorem completes_stateWord {P : State → Prop} (he : exec c s = stateWord c t k f s) (h : Executes c t k s)
    (hf : ∀ z, Counted s z t → ∃ th, threadOf (f z) t = some th ∧
      (th.run = .ready → th.pc = (theThread s t).pc ∧ th.loops = (theThread s t).loops ∧
        codeWords (ctxOf (f z) t.ctx) = codeWords (ctxOf z t.ctx)) ∧
      P { f z with threads := mset (f z).threads t { th.advance with readyAt := now (f z) } }) : Completes c s P := by
  have hc := countArrival_counted s t k.tag
  obtain ⟨th, ht, hplace, hP⟩ := hf _ hc
  refine ⟨_, he.trans (issueWord_guard h.passed.1 h.may h.fresh h.noBreak h.guard), ?_⟩
  rw [settle_stepped ht]
  · exact hP
  · intro hr
    obtain ⟨hpc, hloops, hcode⟩ := hplace hr
    rw [advance_pc_of_place hpc hloops, hcode, codeWords_counted hc]
    exact h.inside

/-- A thread that executes its word is there and is ready. -/
theorem Executes.thread (h : Executes c t k s) : threadOf s t = some (theThread s t) ∧ (theThread s t).run = .ready :=
  threadOf_of_canIssue (canIssue_of_issues h.may)

/-- A word whose effect is one on its own thread alone. -/
theorem completes_threadWord {g : Thread → Thread} (he : exec c s = stateWord c t k f s) (h : Executes c t k s)
    (hf : ∀ z, Counted s z t → f z = modThread z t g) (hpc : (g (theThread s t)).pc = (theThread s t).pc)
    (hloops : (g (theThread s t)).loops = (theThread s t).loops) :
    Completes c s fun u => OnlyThread s u t (g (theThread s t)).advance := by
  refine completes_stateWord he h fun z hz => ⟨g (theThread s t), ?_, fun _ => ⟨hpc, hloops, ?_⟩, z, hz, ?_⟩
  all_goals
    have ht : threadOf z t = some (theThread s t) := (hz.threadOf_eq t).trans h.thread.1
    rw [hf z hz, modThread_eq ht]
  · exact mget?_mset_same _ _ _
  · rfl
  · rw [← hz.threads_eq, ← hz.now_eq]
    exact congrArg (fun m => ({ z with threads := m } : State)) (mset_mset _ _ _ _)

end StateWords

end Sys2Proof.Machine
end

section
/-! SUPPORT. The vector words (R117 to R119): a word that operates on lanes at a thread that executes it, the lanes that it writes,
and the fixed tree over them. -/

namespace Sys2Proof.Machine

open Sys2Proof

/-! ### Words that operate on lanes -/

/-- Setting a key to what it has leaves a map as it is. -/
theorem mset_same {α β : Type} [DecidableEq α] {m : Map α β} {k : α} {v : β} (h : mget? m k = some v) : mset m k v = m := by
  induction m with
  | nil => cases h
  | cons e r ih =>
    obtain ⟨a, b⟩ := e
    unfold mget? at h
    unfold mset
    split at h
    · next hk => cases h; subst hk; rw [if_pos rfl]
    · next hk => rw [if_neg hk, ih h]

theorem modThread_id {s : State} {t : ThreadId} {th : Thread} (h : threadOf s t = some th) : modThread s t id = s := by
  rw [modThread_eq h]
  exact congrArg (fun m => ({ s with threads := m } : State)) (mset_same h)

/-- A count of activity changes the counts alone. -/
theorem countAct_eq (s : State) (u : ActUnit) (c : Option Nat) (k : ActClass) (n : Nat) :
    ∃ a, countAct s u c k n = { s with activity := a } := by
  unfold countAct
  split
  · exact ⟨s.activity, rfl⟩
  · exact ⟨_, rfl⟩

theorem countLanes_eq (s : State) (t : ThreadId) : countLanes s t = { s with activity := (countLanes s t).activity } := by
  unfold countLanes
  split
  · obtain ⟨a, ha⟩ := countAct_eq s (.region _) (some t.ctx) .vector 64
    rw [ha]
  · rfl

/-- What a lane operation counts depends on its thread's region and on what has been counted. -/
theorem countLanes_activity {s u : State} {t : ThreadId} (hr : threadRegion u t = threadRegion s t) (hd : u.part = s.part)
    (hp : u.phys = s.phys) (ha : u.activity = s.activity) : (countLanes u t).activity = (countLanes s t).activity := by
  have hphys : physOfLogical u (threadRegion u t) = physOfLogical s (threadRegion s t) := by
    unfold physOfLogical physOf; rw [hr, hd, hp]
  unfold countLanes countAct
  rw [hphys]
  split
  · simp only [ha]
    rfl
  · exact ha

section LaneWords

variable {c : Instr} {t : ThreadId} {k : Common} {s : State} {f : State → State}

/-- A vector word that lowering has passed is a word with an effect on the state (R101). -/
theorem vectorWord_passed (hv : vectorThread c = some t) (hp : Passed c s) : vectorWord c t k f s = stateWord c t k f s := by
  have hvec : (groupOf s t).vec = true := hp.2.1 t hv
  unfold vectorWord
  rw [if_neg (by simp [hvec])]

/-- A word on lanes that changes a register of its thread alone. -/
theorem completes_laneThread {g : Thread → Thread} (he : exec c s = laneWord c t k f s) (hv : vectorThread c = some t)
    (h : Executes c t k s) (hf : ∀ z, Counted s z t → f z = modThread z t g)
    (hpc : (g (theThread s t)).pc = (theThread s t).pc) (hloops : (g (theThread s t)).loops = (theThread s t).loops) :
    Completes c s fun u => OnlyLanes s u t (g (theThread s t)).advance := by
  refine completes_stateWord (f := fun u => countLanes (f u) t) (he.trans (vectorWord_passed hv h.passed)) h fun z hz => ?_
  have ht : threadOf z t = some (theThread s t) := (hz.threadOf_eq t).trans h.thread.1
  have hy : countLanes (f z) t =
      { z with threads := mset z.threads t (g (theThread s t)), activity := (countLanes s t).activity } := by
    have hfz : f z = { z with threads := mset z.threads t (g (theThread s t)) } := (hf z hz).trans (modThread_eq ht)
    have hcount : (countLanes (f z) t).activity = (countLanes s t).activity := by
      rw [hfz]
      exact countLanes_activity (hz.threadRegion_eq t) hz.part_eq hz.phys_eq hz.activity_eq
    rw [countLanes_eq, hcount, hfz]
  refine ⟨g (theThread s t), ?_, fun _ => ⟨hpc, hloops, ?_⟩, z, hz, ?_⟩ <;> rw [hy]
  · exact mget?_mset_same _ _ _
  · rfl
  · rw [← hz.threads_eq, ← hz.now_eq]
    exact congrArg (fun m => ({ z with threads := m, activity := (countLanes s t).activity } : State)) (mset_mset _ _ _ _)

/-- A word on lanes that leaves the vector context as `v`, and its thread changed by `g`. -/
theorem completes_laneVector {g : Thread → Thread} {v : VectorCtx} (he : exec c s = laneWord c t k f s)
    (hv : vectorThread c = some t) (h : Executes c t k s)
    (hf : ∀ z, Counted s z t → f z = setVector (modThread z t g) t v)
    (hpc : (g (theThread s t)).pc = (theThread s t).pc) (hloops : (g (theThread s t)).loops = (theThread s t).loops) :
    Completes c s fun u => OnlyVector s u t (g (theThread s t)).advance v := by
  refine completes_stateWord (f := fun u => countLanes (f u) t) (he.trans (vectorWord_passed hv h.passed)) h fun z hz => ?_
  have ht : threadOf z t = some (theThread s t) := (hz.threadOf_eq t).trans h.thread.1
  have hy : countLanes (f z) t =
      setVector { z with threads := mset z.threads t (g (theThread s t)), activity := (countLanes s t).activity } t v := by
    have hfz : f z = setVector { z with threads := mset z.threads t (g (theThread s t)) } t v :=
      (hf z hz).trans (congrArg (setVector · t v) (modThread_eq ht))
    have hcount : (countLanes (f z) t).activity = (countLanes s t).activity := by
      rw [hfz]
      exact countLanes_activity (hz.threadRegion_eq t) hz.part_eq hz.phys_eq hz.activity_eq
    rw [countLanes_eq, hcount, hfz]
    rfl
  refine ⟨g (theThread s t), ?_, fun _ => ⟨hpc, hloops, ?_⟩, _, ⟨z, hz, rfl⟩, ?_⟩ <;> rw [hy]
  · exact mget?_mset_same _ _ _
  · rfl
  · rw [← hz.threads_eq, ← hz.now_eq, ← hz.vectors_eq]
    exact congrArg (fun m => setVector { z with threads := m, activity := (countLanes s t).activity } t v) (mset_mset _ _ _ _)

/-- A word that leaves its thread's registers, and the vector context as `g` makes it. -/
theorem completes_onVector {g : VectorCtx → VectorCtx} (he : exec c s = laneWord c t k (onVector t g) s)
    (hv : vectorThread c = some t) (h : Executes c t k s) :
    Completes c s fun u => OnlyVector s u t (theThread s t).advance (g (vectorOf s t)) := by
  refine completes_laneVector (g := id) he hv h (fun z hz => ?_) rfl rfl
  rw [modThread_id ((hz.threadOf_eq t).trans h.thread.1), ← hz.vectorOf_eq t]
  rfl

/-- A word that writes a result of the vector context to an s register. -/
theorem writesLaneS_of_toScalar {o : VArgs} {g : VectorCtx → Word} {v : Word}
    (he : exec c s = laneWord c t k (toScalar t o g) s) (hvt : vectorThread c = some t) (hv : g (vectorOf s t) = v)
    (h : Executes c t k s) : WritesLaneS c s t o.vd v := by
  subst hv
  refine completes_laneThread (g := fun th => th.wr o.vd (g (vectorOf s t))) he hvt h (fun z hz => ?_) rfl rfl
  rw [← hz.vectorOf_eq t]
  rfl

end LaneWords

/-! ### The lanes that a word writes -/

section Lanes

variable {o : VArgs} {f : Fin 64 → Word} {v : VectorCtx}

theorem laneMap_lane (i : Fin 64) :
    (laneMap o f v).v[o.vd][i] = if !o.me || v.v[o.vm][i] != 0 then f i else v.v[o.vd][i] := by
  simp [laneMap, takesPart]

theorem laneMap_other {r : Fin 32} (h : r ≠ o.vd) : (laneMap o f v).v[r] = v.v[r] := by
  have hne : (o.vd : Nat) ≠ r := fun e => h (Fin.ext e.symm)
  simp [laneMap, Vector.getElem_set_ne _ _ hne]

end Lanes

section LaneMaps

variable {c : Instr} {t : ThreadId} {k : Common} {s : State} {o : VArgs}

/-- A word that writes lanes and ors into OVF. -/
theorem writesV_of_orOvf {f : VectorCtx → Fin 64 → Word} {g : VectorCtx → Bool} {x : Fin 64 → Word} {b : Bool}
    (he : exec c s = laneWord c t k (onVector t fun v => (laneMap o (f v) v).orOvf (g v)) s) (hv : vectorThread c = some t)
    (hx : f (vectorOf s t) = x) (hb : ((vectorOf s t).ovf || g (vectorOf s t)) = b) (h : Executes c t k s) :
    WritesV c s t o x b := by
  subst hx hb
  obtain ⟨u, hu, hP⟩ := completes_onVector he hv h
  exact ⟨u, hu, _, hP, rfl, laneMap_lane, fun r hr => laneMap_other hr⟩

/-- A word that writes lanes and leaves OVF. -/
theorem writesV_of_laneMap {f : VectorCtx → Fin 64 → Word} {x : Fin 64 → Word}
    (he : exec c s = laneWord c t k (onVector t fun v => laneMap o (f v) v) s) (hv : vectorThread c = some t)
    (hx : f (vectorOf s t) = x) (h : Executes c t k s) : WritesV c s t o x (vectorOf s t).ovf := by
  subst hx
  obtain ⟨u, hu, hP⟩ := completes_onVector he hv h
  exact ⟨u, hu, _, hP, rfl, laneMap_lane, fun r hr => laneMap_other hr⟩

end LaneMaps

theorem vlogicOp_eq (n : Nat) (a b : Word) : vlogicOp n a b =
    match n with
    | 0 => a &&& b
    | 1 => a ||| b
    | 2 => a ^^^ b
    | 3 => a <<< (b.toNat % 32)
    | 4 => a >>> (b.toNat % 32)
    | _ => a.sshiftRight (b.toNat % 32) := by
  match n with
  | 0 | 1 | 2 | 3 | 4 | _ + 5 => rfl

/-! ### The fixed tree of R118 -/

/-- One level of the tree combines each entry with the one half the width above it. -/
theorem treeEntry_level (f : Word → Word → Word) (leaf : Nat → Word) {m n : Nat} (h : m + (n + 1) = 6) :
    List.zipWith f (((List.range (2 ^ (n + 1))).map (treeEntry f leaf m)).take (2 ^ n))
      (((List.range (2 ^ (n + 1))).map (treeEntry f leaf m)).drop (2 ^ n)) =
    (List.range (2 ^ n)).map (treeEntry f leaf (m + 1)) := by
  have hw : 5 - m = n := by omega
  have h2 : 2 ^ (n + 1) = 2 ^ n + 2 ^ n := by omega
  apply List.ext_getElem
  · simp [h2]
  · intro i h1 hi
    simp [treeEntry, hw, Nat.add_comm (2 ^ n) i]

theorem treeLevels_eq_treeEntry (f : Word → Word → Word) (leaf : Nat → Word) (n : Nat) :
    ∀ m, m + n = 6 → treeLevels f n ((List.range (2 ^ n)).map (treeEntry f leaf m)) = [treeEntry f leaf 6 0] := by
  induction n with
  | zero => intro m hm; obtain rfl : m = 6 := by omega
            rfl
  | succ n ih =>
    intro m hm
    have hhalf : ((List.range (2 ^ (n + 1))).map (treeEntry f leaf m)).length / 2 = 2 ^ n := by
      simp only [List.length_map, List.length_range]
      omega
    unfold treeLevels
    rw [hhalf, treeEntry_level f leaf hm]
    exact ih (m + 1) (by omega)

theorem laneTree_eq_treeEntry (o : VArgs) (f : Word → Word → Word) (pre : Word → Word) (n : Word) (v : VectorCtx) :
    laneTree o f pre n v = treeEntry f
      (fun i => if !o.me || v.v[o.vm][Fin.ofNat 64 i] != 0 then pre v.v[o.va][Fin.ofNat 64 i] else n) 6 0 := by
  have hmap (g : Fin 64 → Word) : (List.finRange 64).map g = (List.range (2 ^ 6)).map fun i => g (Fin.ofNat 64 i) := by
    apply List.ext_getElem
    · simp
    · intro i h1 h2
      have hi : i < 64 := by simpa using h1
      simp [Fin.ofNat, Nat.mod_eq_of_lt hi]
  unfold laneTree
  rw [hmap]
  exact congrArg (List.headD · n) (treeLevels_eq_treeEntry f _ 6 0 rfl)

theorem Counted.roundSeed_eq {s z : State} {t : ThreadId} (h : Counted s z t) :
    rawReg z (offRoundSeed t.ctx) = rawReg s (offRoundSeed t.ctx) := by
  refine h.rawReg_eq fun i hi => ?_
  unfold offRoundSeed offTagBreak
  omega

end Sys2Proof.Machine
end

section
open Sys2Proof Sys2Proof.Machine

/-- Settles O19: every lane word is a lane map on the vector context; the two that add or subtract integers also or into OVF. -/
theorem vectorLaneWords : Obligations.VectorLaneWords := by
  unfold Obligations.VectorLaneWords
  intro t k o s
  have hsum (i : Fin 64) := Bool.decide_or
    ((vectorOf s t).v[o.va][i].toInt + (vectorOf s t).v[o.vb][i].toInt < -2147483648)
    (2147483647 < (vectorOf s t).v[o.va][i].toInt + (vectorOf s t).v[o.vb][i].toInt)
  have hdiff (i : Fin 64) := Bool.decide_or
    ((vectorOf s t).v[o.va][i].toInt - (vectorOf s t).v[o.vb][i].toInt < -2147483648)
    (2147483647 < (vectorOf s t).v[o.va][i].toInt - (vectorOf s t).v[o.vb][i].toInt)
  refine ⟨writesV_of_laneMap rfl rfl rfl, writesV_of_laneMap rfl rfl rfl, writesV_of_laneMap rfl rfl rfl,
    writesV_of_laneMap rfl rfl rfl, writesV_of_laneMap rfl rfl rfl, writesV_of_laneMap rfl rfl rfl,
    writesV_of_laneMap rfl rfl rfl, writesV_of_laneMap rfl rfl rfl, writesV_of_laneMap rfl rfl rfl,
    writesV_of_laneMap rfl rfl rfl, writesV_of_laneMap rfl rfl rfl, writesV_of_laneMap rfl rfl rfl,
    writesV_of_laneMap rfl rfl rfl, writesV_of_laneMap rfl rfl (funext fun i => vlogicOp_eq _ _ _),
    writesV_of_laneMap rfl rfl rfl, fun h => ?vbcast, fun h => ?viadd, fun h => ?visub⟩
  case vbcast =>
    obtain ⟨u, hu, hP⟩ := completes_laneVector (g := id)
      (v := laneMap o (fun _ => (theThread s t).rd o.va) (vectorOf s t)) rfl rfl h (fun z hz => by
        rw [modThread_id ((hz.threadOf_eq t).trans h.thread.1), ← hz.vectorOf_eq t, ← hz.theThread_eq t]
        rfl) rfl rfl
    exact ⟨u, hu, _, hP, rfl, laneMap_lane, fun r hr => laneMap_other hr⟩
  case viadd =>
    simp only [hsum]
    exact writesV_of_orOvf rfl rfl rfl rfl h
  case visub =>
    simp only [hdiff]
    exact writesV_of_orOvf rfl rfl rfl rfl h

/-- Settles O20: the reductions are the tree of R118 level by level, and the others change the vector context or one s register. -/
theorem vectorToScalarWords : Obligations.VectorToScalarWords := by
  unfold Obligations.VectorToScalarWords
  intro t k o s th v part leaf lane
  refine ⟨writesLaneS_of_toScalar rfl rfl (laneTree_eq_treeEntry o fadd id _ v),
    writesLaneS_of_toScalar rfl rfl (laneTree_eq_treeEntry o fmax id _ v),
    writesLaneS_of_toScalar rfl rfl (laneTree_eq_treeEntry o fmax fabs _ v),
    fun h hpart => ?taken, fun h hpart => ?left, fun h => ?vflag, fun h => ?vcvt⟩
  case taken =>
    refine completes_laneThread (g := fun th => th.wr o.vd v.v[o.va][lane]) rfl rfl h (fun z hz => ?_) rfl rfl
    simp only [hz.theThread_eq, hz.vectorOf_eq, toScalar]
    exact if_pos hpart
  case left =>
    refine completes_laneThread (g := id) rfl rfl h (fun z hz => ?_) rfl rfl
    simp only [hz.theThread_eq, hz.vectorOf_eq, modThread_id ((hz.threadOf_eq t).trans h.thread.1)]
    exact if_neg (Bool.eq_false_iff.mp hpart)
  case vflag =>
    have hflag : BitVec.ofNat 32 (b2n v.ovf) = if v.ovf then 1 else 0 := by cases v.ovf <;> rfl
    rw [← hflag]
    refine completes_laneVector (g := fun th => th.wr o.vd (BitVec.ofNat 32 (b2n v.ovf))) rfl rfl h (fun z hz => ?_) rfl rfl
    unfold onVector toScalar
    rw [hz.vectorOf_eq]
    have hm (z : State) (g) : vectorOf (modThread z t g) t = vectorOf z t := by
      unfold modThread; split <;> rfl
    rw [hm, hz.vectorOf_eq]
  case vcvt =>
    refine completes_laneVector (g := id) rfl rfl h (fun z hz => ?_) rfl rfl
    rw [modThread_id ((hz.threadOf_eq t).trans h.thread.1), ← hz.roundSeed_eq]
    unfold onVector
    rw [hz.vectorOf_eq]

end

section
/-! SUPPORT. The words that make a request (R120 to R125, R154, R159, R166): the translation of an address after the counting of an
arrival, and the outcome of an access that translates. -/

namespace Sys2Proof.Machine

open Sys2Proof

section Translation

variable {s z : State} {t : ThreadId}

theorem bits_lt (v hi lo : Nat) : bits v hi lo < 2 ^ (hi + 1 - lo) := Nat.mod_lt _ (Nat.two_pow_pos _)

theorem Counted.winEntry_eq (h : Counted s z t) (ca : Nat) :
    winEntry z t.ctx (bits ca 47 40) = winEntry s t.ctx (bits ca 47 40) := by
  have hw : bits ca 47 40 < 256 := bits_lt ca 47 40
  unfold winEntry
  rw [h.rawReg_eq]
  intro i hi
  unfold offWindow offTagBreak
  omega

theorem Counted.rawReg_low (h : Counted s z t) {off : Nat} (ho : off < 0x400000) : rawReg z off = rawReg s off := by
  refine h.rawReg_eq fun i hi => ?_
  unfold offTagBreak ctxBlock
  omega

theorem Counted.hostServes_eq (h : Counted s z t) (f a : Nat) : hostServes z f a = hostServes s f a := by
  have hreg : rawReg z offPcie = rawReg s offPcie := h.rawReg_low (by decide)
  have hcfgs : z.cfgs = s.cfgs ∧ z.ports = s.ports := by obtain ⟨r, w, x, rfl, -, -⟩ := h; exact ⟨rfl, rfl⟩
  unfold hostServes hostPort cfgAt parentFn portOf rawField twoHosts
  rw [hreg, hcfgs.1, hcfgs.2]

/-- An address translates after the counting of an arrival as before it. -/
theorem Counted.translate_eq (h : Counted s z t) (grp : Option Nat) (need : Need) (ca n : Nat) :
    translate z t.ctx grp need ca n = translate s t.ctx grp need ca n := by
  obtain ⟨l, hl⟩ := h.ctxOf_eq t.ctx
  have hreach (a : Nat) : t0Reach (ctxOf z t.ctx) grp a n = t0Reach (ctxOf s t.ctx) grp a n := by
    rw [hl]; rfl
  have hfn : (ctxOf z t.ctx).fn = (ctxOf s t.ctx).fn := by rw [hl]
  unfold translate
  rw [h.winEntry_eq, hfn]
  simp only [hreach, h.hostServes_eq]

theorem Counted.newRequest_eq (h : Counted s z t) (c : Nat) (o : Origin) (k : ReqKind) (ca a : Nat) (d : Bool) (l : List Nat) :
    newRequest z c o k ca a d l = newRequest s c o k ca a d l := by
  unfold newRequest
  rw [h.nextReq_eq, h.now_eq]

end Translation

section Requests

variable {c : Instr} {t : ThreadId} {k : Common} {s : State} {f : State → State}

/-- A word that makes the request `r`, with a tag or without, and holds its thread for it when `waits`. -/
theorem asks_of_addRequest {r : Request} {waits : Bool} (he : exec c s = stateWord c t k f s) (h : Executes c t k s)
    (hid : r.id = s.nextReq)
    (hf : ∀ z, Counted s z t → ∃ tag, f z =
      if waits then modThread (addRequest z { r with tag := tag }) t fun th => { th with run := .waitReq s.nextReq }
      else addRequest z { r with tag := tag }) : Asks c s t r waits := by
  refine completes_stateWord he h fun z hz => ?_
  obtain ⟨tag, hfz⟩ := hf z hz
  have ht : threadOf z t = some (theThread s t) := (hz.threadOf_eq t).trans h.thread.1
  have hadd : addRequest z { r with tag := tag } =
      { z with requests := s.requests ++ [{ r with tag := tag }], nextReq := s.nextReq + 1 } := by
    unfold addRequest
    rw [hz.requests_eq, hz.nextReq_eq, ← hid]
  cases waits
  · have hy : f z = { z with requests := s.requests ++ [{ r with tag := tag }], nextReq := s.nextReq + 1 } := hfz.trans hadd
    refine ⟨theThread s t, by rw [hy]; exact ht, fun _ => ⟨rfl, rfl, by rw [hy]; rfl⟩, tag, z, hz, ?_⟩
    have hrun : (theThread s t).advance.run = .ready := h.thread.2
    rw [hy, ← hz.threads_eq, ← hz.now_eq]
    simp only [Bool.false_eq_true, if_false, ← hrun]
    rfl
  · have hy : f z = { z with
        requests := s.requests ++ [{ r with tag := tag }]
        nextReq := s.nextReq + 1
        threads := mset z.threads t { theThread s t with run := .waitReq s.nextReq } } := by
      rw [hfz, if_pos rfl, hadd]
      exact modThread_eq ht
    refine ⟨{ theThread s t with run := .waitReq s.nextReq }, by rw [hy]; exact mget?_mset_same _ _ _,
      fun hr => (by cases hr), tag, z, hz, ?_⟩
    rw [hy, ← hz.threads_eq, ← hz.now_eq]
    exact congrArg (fun m => ({ z with requests := s.requests ++ [{ r with tag := tag }], nextReq := s.nextReq + 1, threads := m } : State))
      (mset_mset _ _ _ _)

/-- What an access makes of a state with its arrival counted. -/
theorem access_translated {kind : ReqKind} {o : AArgs} {align a : Nat} {l : List Nat} {z : State} (hz : Counted s z t)
    (htr : translate s t.ctx (some t.group) (kindNeed kind) (ctxAddress o align (theThread s t)) (kindBytes kind) = some a) :
    ∃ tag, access t kind o align l z =
      if holds kind then modThread (addRequest z { newRequest s t.ctx (.thread t) kind (ctxAddress o align (theThread s t)) a false l
        with tag := tag }) t fun th => { th with run := .waitReq s.nextReq }
      else addRequest z { newRequest s t.ctx (.thread t) kind (ctxAddress o align (theThread s t)) a false l with tag := tag } := by
  refine ⟨takeTag z (newRequest s t.ctx (.thread t) kind (ctxAddress o align (theThread s t)) a false l), ?_⟩
  unfold access
  dsimp only
  rw [hz.theThread_eq, hz.translate_eq, htr]
  unfold accessAt
  simp only [hz.newRequest_eq]
  rfl

/-- An access whose address translates makes its request; it holds its thread when its kind does. -/
theorem asks_of_access {kind : ReqKind} {o : AArgs} {align a : Nat} {l : List Nat} {waits : Bool}
    (he : exec c s = stateWord c t k f s) (hw : holds kind = waits) (h : Executes c t k s)
    (htr : translate s t.ctx (some t.group) (kindNeed kind) (ctxAddress o align (theThread s t)) (kindBytes kind) = some a)
    (hf : ∀ z, Counted s z t → f z = access t kind o align l z) :
    Asks c s t (newRequest s t.ctx (.thread t) kind (ctxAddress o align (theThread s t)) a false l) waits := by
  subst hw
  refine asks_of_addRequest he h rfl fun z hz => ?_
  obtain ⟨tag, htag⟩ := access_translated (l := l) hz htr
  exact ⟨tag, (hf z hz).trans htag⟩

/-- A store of `n` bytes that translates makes its request and does not hold its thread. -/
theorem asks_of_store {bs : State → List Byte} {o : AArgs} {n a : Nat}
    (he : exec c s = stateWord c t k (fun s => access t (.store (bs s)) o n [] s) s) (h : Executes c t k s)
    (hlen : (bs s).length = n) (hbs : ∀ z, Counted s z t → bs z = bs s)
    (htr : translate s t.ctx (some t.group) .write (ctxAddress o n (theThread s t)) n = some a) :
    Asks c s t (newRequest s t.ctx (.thread t) (.store (bs s)) (ctxAddress o n (theThread s t)) a false []) false := by
  have hbytes : kindBytes (.store (bs s)) = n := hlen
  refine asks_of_access he rfl h ?_ fun z hz => by rw [hbs z hz]
  rw [hbytes]
  exact htr

end Requests

@[simp] theorem length_leBytes (n v : Nat) : (leBytes n v).length = n := by
  induction n generalizing v with
  | zero => rfl
  | succ n ih => exact congrArg (· + 1) (ih _)

theorem length_storeBytes (o : AArgs) (th : Thread) : (storeBytes o th).length = 2 ^ o.minor.val := by
  unfold storeBytes
  split
  · next h => rw [length_leBytes, h]; rfl
  · exact length_leBytes _ _

theorem length_laneBytes (v : Vector Word 64) : (laneBytes v).length = 256 := by
  simp [laneBytes, List.length_flatMap]

theorem kindNeed_atomicKind (o : AArgs) (th : Thread) (ret : Bool) : kindNeed (atomicKind o th ret) = .atomic := by
  unfold atomicKind; dsimp only; split <;> rfl

theorem kindBytes_atomicKind (o : AArgs) (th : Thread) (ret : Bool) :
    kindBytes (atomicKind o th ret) = atomicBytes o.minor.val := by
  unfold atomicKind; dsimp only; split <;> rfl

theorem holds_atomicKind (o : AArgs) (th : Thread) (ret : Bool) : holds (atomicKind o th ret) = ret := by
  unfold atomicKind; dsimp only; split <;> cases ret <;> rfl

end Sys2Proof.Machine
end

section
open Sys2Proof Sys2Proof.Machine

/-- Settles O21: each word is an access of its kind, whose need and size are those that the address translates for. -/
theorem accessWords : Obligations.AccessWords := by
  unfold Obligations.AccessWords
  intro t k o s a th ca req at_ n m
  refine ⟨fun h ht => ?ld, fun h ht => ?vld, fun h ht => ?dld, fun h ht => ?atom, fun h ht => ?atomp,
    fun h ht => ?st, fun h ht => ?vst, fun h hlen ht => ?dstr⟩
  case ld => exact asks_of_access rfl rfl h ht fun z _ => rfl
  case vld =>
    have he : exec (.vld t k o) s = vectorWord (.vld t k o) t k (access t (.vload o.data) o 256 []) s := rfl
    exact asks_of_access (he.trans (vectorWord_passed rfl h.passed)) rfl h ht fun z _ => rfl
  case dld => exact asks_of_access rfl rfl h ht fun z _ => rfl
  case atom =>
    refine asks_of_access (f := fun s => access t (atomicKind o (theThread s t) true) o m [] s) rfl
      (holds_atomicKind o th true) h ?_
      fun z hz => congrArg (fun th => access t (atomicKind o th true) o m [] z) (hz.theThread_eq t)
    rw [kindNeed_atomicKind, kindBytes_atomicKind]
    exact ht
  case atomp =>
    refine asks_of_access (f := fun s => access t (atomicKind o (theThread s t) false) o m [] s) rfl
      (holds_atomicKind o th false) h ?_
      fun z hz => congrArg (fun th => access t (atomicKind o th false) o m [] z) (hz.theThread_eq t)
    rw [kindNeed_atomicKind, kindBytes_atomicKind]
    exact ht
  case st =>
    exact asks_of_store (bs := fun s => storeBytes o (theThread s t)) rfl h (length_storeBytes o th)
      (fun z hz => congrArg (storeBytes o) (hz.theThread_eq t)) ht
  case vst =>
    have he : exec (.vst t k o) s =
        vectorWord (.vst t k o) t k (fun s => access t (.store (laneBytes (vectorOf s t).v[o.data])) o 256 [] s) s := rfl
    exact asks_of_store (bs := fun s => laneBytes (vectorOf s t).v[o.data]) (he.trans (vectorWord_passed rfl h.passed)) h
      (length_laneBytes _) (fun z hz => congrArg (fun v => laneBytes v.v[o.data]) (hz.vectorOf_eq t)) ht
  case dstr =>
    exact asks_of_store (bs := fun s => recordOf (groupOf s t) (o.minor.val == 1) o.data.val) rfl h hlen
      (fun z hz => congrArg (fun g => recordOf g (o.minor.val == 1) o.data.val) (hz.groupOf_eq t)) ht

end

section
/-! SUPPORT. Signals, WATCH, TOKEN and DELAY (R125, R147, R151, R154, R159, R166), and the clearing of a watch slot. -/

namespace Sys2Proof.Machine

open Sys2Proof

theorem theThread_of_threadOf {s : State} {t : ThreadId} {th : Thread} (h : threadOf s t = some th) : theThread s t = th := by
  unfold theThread; rw [h]; rfl

/-! ### The clearing of a slot (R151) -/

section Slots

variable {s z : State} {t : ThreadId} {th : Thread} {slot : Fin 16}

/-- A thread with one slot of its watch set cleared. -/
def Thread.cleared (th : Thread) (slot : Fin 16) : Thread := { th with watch := th.watch.set slot WatchSlot.empty }

/-- The clearing of a slot changes its thread, and of the wake credits what was the slot's. -/
theorem clearSlot_eq (ht : threadOf s t = some th) : ∃ d l w, clearSlot s t slot =
    { s with dests := d, ledgers := l, wakes := w, threads := mset s.threads t (th.cleared slot) } := by
  obtain ⟨d, l, w, h⟩ := sweepWakes_eq (modThread s t fun th => th.cleared slot)
  refine ⟨d, l, w, h.trans ?_⟩
  rw [modThread_eq ht]

/-- An access that holds its thread, from a state in which its address translates. -/
theorem access_holds {kind : ReqKind} {o : AArgs} {align a : Nat} {l : List Nat} (ht : threadOf s t = some th)
    (htr : translate s t.ctx (some t.group) (kindNeed kind) (ctxAddress o align th) (kindBytes kind) = some a)
    (hh : holds kind = true) : ∃ r, r.kind = kind ∧ r.devAddr = a ∧ access t kind o align l s =
      { s with
        requests := s.requests ++ [r], nextReq := s.nextReq + 1
        threads := mset s.threads t { th with run := .waitReq s.nextReq } } := by
  let r := newRequest s t.ctx (.thread t) kind (ctxAddress o align th) a false l
  refine ⟨{ r with tag := takeTag s r }, rfl, rfl, ?_⟩
  have hthe : theThread s t = th := theThread_of_threadOf ht
  unfold access
  dsimp only
  rw [hthe, htr]
  unfold accessAt
  dsimp only
  rw [if_pos hh]
  exact modThread_eq (s := addRequest s { r with tag := takeTag s r }) ht

/-- A WATCH of a word that has a watch directory: its slot is cleared, and the thread waits for the acknowledgement. -/
theorem watchWord_eq {o : AArgs} {a : Nat} (ht : threadOf s t = some th)
    (htr : translate s t.ctx (some t.group) .read (ctxAddress o 4 th) 4 = some a) (hw : watchable a = true) :
    ∃ d l w r, r.kind = .watch (Fin.ofNat 16 o.data.val) ∧ r.devAddr = a ∧ watchWord t o s =
      { s with
        dests := d, ledgers := l, wakes := w
        requests := s.requests ++ [r], nextReq := s.nextReq + 1
        threads := mset s.threads t { th.cleared (Fin.ofNat 16 o.data.val) with run := .waitReq s.nextReq } } := by
  obtain ⟨d, l, w, hclear⟩ := clearSlot_eq (slot := Fin.ofNat 16 o.data.val) ht
  have hth : threadOf (clearSlot s t (Fin.ofNat 16 o.data.val)) t = some (th.cleared (Fin.ofNat 16 o.data.val)) := by
    rw [hclear]; exact mget?_mset_same _ _ _
  have htry : translate (clearSlot s t (Fin.ofNat 16 o.data.val)) t.ctx (some t.group) .read
      (ctxAddress o 4 (th.cleared (Fin.ofNat 16 o.data.val))) 4 = some a := by rw [hclear]; exact htr
  obtain ⟨r, hkind, haddr, haccess⟩ := access_holds (l := []) hth
    (show translate _ _ _ (kindNeed (.watch (Fin.ofNat 16 o.data.val))) _
      (kindBytes (.watch (Fin.ofNat 16 o.data.val))) = _ from htry) rfl
  refine ⟨d, l, w, r, hkind, haddr, ?_⟩
  unfold watchWord
  dsimp only
  rw [theThread_of_threadOf hth, htry]
  unfold watchAt
  dsimp only
  rw [if_pos hw, haccess, hclear]
  exact congrArg
    (fun m => ({ s with
      dests := d
      ledgers := l
      wakes := w
      requests := s.requests ++ [r]
      nextReq := s.nextReq + 1
      threads := m } : State))
    (mset_mset _ _ _ _)

end Slots

/-! ### The delay list (R166) -/

section Delays

variable {s z : State} {t : ThreadId}

/-- The thread that was set last is the one found. -/
theorem theThread_mset (y : State) (m : Map ThreadId Thread) (x : Thread) : theThread { y with threads := mset m t x } t = x :=
  theThread_of_threadOf (mget?_mset_same _ _ _)

theorem Counted.originRegion_eq (h : Counted s z t) (o : Origin) : originRegion z o = originRegion s o := by
  cases o with
  | thread t' => exact h.threadRegion_eq t'
  | _ => rfl

theorem Counted.delayCount_eq (h : Counted s z t) (L : Nat) : delayCount z L = delayCount s L := by
  unfold delayCount regionOf
  rw [h.logs_eq, h.requests_eq]
  simp only [h.originRegion_eq]

/-- A request that waits at admission is no task of the delay list. -/
theorem delayCount_addRequest {r : Request} (hr : r.stage = .waiting) (L : Nat) : delayCount (addRequest s r) L = delayCount s L := by
  unfold delayCount addRequest
  simp only [List.filter_append, List.length_append]
  have hnew : (ReqStage.waiting == ReqStage.accepted) = false := rfl
  simp only [hr, hnew, Bool.false_and, List.filter_cons, List.filter_nil, Bool.false_eq_true, if_false, List.length_nil, Nat.add_zero]
  rfl

/-- DELAY from a state with its arrival counted: the request is added, and it holds its thread when the list is full. -/
theorem sendDelay_counted {o : RArgs} (h : Counted s z t) (ht : threadOf s t = some (theThread s t))
    (hr : (theThread s t).run = .ready) :
    let r := newRequest s t.ctx (.thread t) (.delay ((theThread s t).rdPair o.a) ((theThread s t).rdPair o.b).toNat) 0 0 true []
    sendDelay t o z = if decide (8192 ≤ delayCount s (threadRegion s t)) = true then
      modThread (addRequest z { r with tag := takeTag z r }) t fun th => { th with run := .waitReq s.nextReq }
    else addRequest z { r with tag := takeTag z r } := by
  intro r
  have hsend : sendDelay t o z = holdDelay (addRequest z { r with tag := takeTag z r }) r := by
    unfold sendDelay
    simp only [h.theThread_eq, h.newRequest_eq]
    rfl
  have hroom : roomAtTarget (addRequest z { r with tag := takeTag z r }) r = decide (delayCount s (threadRegion s t) < 8192) := by
    have hcount := delayCount_addRequest (s := z) (r := { r with tag := takeTag z r }) rfl (threadRegion s t)
    rw [h.delayCount_eq] at hcount
    rw [← hcount, ← h.threadRegion_eq t]
    rfl
  have hadd : threadOf (addRequest z { r with tag := takeTag z r }) t = some (theThread s t) := (h.threadOf_eq t).trans ht
  rw [hsend]
  unfold holdDelay
  change (if roomAtTarget _ r = true then _ else _) = _
  rw [hroom]
  by_cases hfull : 8192 ≤ delayCount s (threadRegion s t)
  · rw [if_neg (by simpa using hfull), if_pos (by simpa using hfull), modThread_eq hadd, modThread_eq hadd, if_pos hr]
    rfl
  · rw [if_pos (by simpa using hfull), if_neg (by simpa using hfull)]

end Delays

end Sys2Proof.Machine
end

section
open Sys2Proof Sys2Proof.Machine

/-- Settles O22: the signals are accesses that follow their thread's stores; WATCH is an access from the state with its slot cleared;
TOKEN and DELAY add their request, and DELAY holds its thread when the list is full. -/
theorem taskUnitWords : Obligations.TaskUnitWords := by
  unfold Obligations.TaskUnitWords
  intro t k s a th
  refine ⟨fun o htr => ⟨fun h => ?sig, fun h => ?sigw⟩, fun o h htr hw => ?watch, fun o h => ?token, fun o h => ?delay⟩
  case sig =>
    refine asks_of_access
      (f := fun s => access t (.signal o.minor.val ((theThread s t).rd o.data) false) o 4 (outstanding s t isStore) s)
      rfl rfl h htr fun z hz => ?_
    rw [hz.theThread_eq, hz.outstanding_eq]
  case sigw =>
    refine asks_of_access
      (f := fun s => access t (.signal o.minor.val ((theThread s t).rd o.data) true) o 4 (outstanding s t isStore) s)
      rfl rfl h htr fun z hz => ?_
    rw [hz.theThread_eq, hz.outstanding_eq]
  case watch =>
    refine completes_stateWord (f := watchWord t o) rfl h fun z hz => ?_
    obtain ⟨d, l, w, r, hkind, haddr, hz'⟩ :=
      watchWord_eq ((hz.threadOf_eq t).trans h.thread.1) ((hz.translate_eq _ _ _ _).trans htr) hw
    have ht : threadOf (watchWord t o z) t =
        some { (theThread s t).cleared (Fin.ofNat 16 o.data.val) with run := .waitReq z.nextReq } := by
      rw [hz']; exact mget?_mset_same _ _ _
    refine ⟨_, ht, fun hr => (by cases hr), ?_, ?_, r, ?_, hkind, haddr⟩
    · rw [← hz.nextReq_eq, ← hz.now_eq]
      rw [theThread_mset, hz']
      rfl
    · rw [hz']; exact hz.mem_eq
    · rw [hz']; exact congrArg (· ++ [r]) hz.requests_eq
  case token =>
    refine asks_of_addRequest (f := sendToken t o) rfl h rfl fun z hz => ⟨takeTag z (newRequest s t.ctx (.thread t)
      (.token (th.rdPair o.a) (if tokKind (th.rdPair o.a) = 1 then th.rdPair o.b else 0)) 0 0 true (outstanding s t isPosted)), ?_⟩
    unfold sendToken
    simp only [hz.theThread_eq, hz.outstanding_eq, hz.newRequest_eq]
    rfl
  case delay =>
    refine asks_of_addRequest (f := sendDelay t o) rfl h rfl fun z hz => ⟨_, sendDelay_counted hz h.thread.1 h.thread.2⟩

end

section
/-! SUPPORT. FENCE, TWAIT, UNWATCH, PARK, TIME and the words on descriptor records (R123, R127, R129, R137, R146, R150, R151): the
fields of a record of which one is replaced, and the wake credits after a slot has been cleared. -/

namespace Sys2Proof.Machine

open Sys2Proof

/-! ### Fields of a record -/

section Records

variable {r bs : List Byte} {off : Nat}

theorem leNat_leBytes (n v : Nat) : leNat (leBytes n v) = v % 256 ^ n := by
  induction n generalizing v with
  | zero => exact (Nat.mod_one v).symm
  | succ n ih =>
    have hbyte : (BitVec.ofNat 8 v).toNat = v % 256 := BitVec.toNat_ofNat v 8
    unfold leBytes leNat
    rw [ih, hbyte, Nat.pow_succ', Nat.mod_mul]

theorem length_patch (h : off + bs.length ≤ r.length) : (patch r off bs).length = r.length := by
  unfold patch
  simp only [List.length_append, List.length_take, List.length_drop]
  omega

theorem getElem?_patch (h : off + bs.length ≤ r.length) (i : Nat) :
    (patch r off bs)[i]? = if off ≤ i ∧ i < off + bs.length then bs[i - off]? else r[i]? := by
  have htake : (r.take off).length = off := by rw [List.length_take]; omega
  unfold patch
  split
  · next hi =>
    rw [List.getElem?_append_left (by rw [List.length_append, htake]; omega), List.getElem?_append_right (by omega), htake]
  · next hi =>
    rcases Nat.lt_or_ge i off with hlt | hge
    · rw [List.getElem?_append_left (by rw [List.length_append, htake]; omega), List.getElem?_append_left (by omega),
        List.getElem?_take_of_lt hlt]
    · rw [List.getElem?_append_right (by rw [List.length_append, htake]; omega), List.getElem?_drop, List.length_append, htake]
      congr 1
      omega

/-- The field that was replaced. -/
theorem fieldAt_patch_same {n : Nat} (hn : bs.length = n) (h : off + n ≤ r.length) : fieldAt (patch r off bs) off n = leNat bs := by
  subst hn
  unfold fieldAt
  congr 1
  apply List.ext_getElem?
  intro i
  rw [List.getElem?_take, List.getElem?_drop, getElem?_patch h]
  split
  · rw [if_pos (by omega), Nat.add_sub_cancel_left]
  · rw [List.getElem?_eq_none (by omega)]

/-- A field that lies apart from the one replaced. -/
theorem fieldAt_patch_other {m n : Nat} (h : off + bs.length ≤ r.length) (hm : m + n ≤ off ∨ off + bs.length ≤ m) :
    fieldAt (patch r off bs) m n = fieldAt r m n := by
  unfold fieldAt
  congr 1
  apply List.ext_getElem?
  intro i
  rw [List.getElem?_take, List.getElem?_take, List.getElem?_drop, List.getElem?_drop]
  split
  · rw [getElem?_patch h, if_neg (by omega)]
  · rfl

theorem recordOf_putRecord (g : Group) (x : Bool) (n : Nat) (r : List Byte) : recordOf (g.putRecord x n r) x n = r := by
  cases x <;> simp [recordOf, Group.putRecord]

end Records

/-! ### Wake credits after the clearing of a slot (R151) -/

section Sweep

variable {s : State} {t : ThreadId}

theorem wakes_returnCredits (s : State) (l : List (Resource × Nat)) : (returnCredits s l).wakes = s.wakes := by
  refine foldl_keeps (P := fun u : State => u.wakes = s.wakes) ?_ _ rfl
  intro u x hu
  split
  · exact hu
  · obtain ⟨d, k, h⟩ := giveBack_eq u x.1 x.2
    rw [h]
    exact hu

/-- The credits that stay are those whose slot holds a registration. -/
theorem wakes_sweepWakes (s : State) : (sweepWakes s).wakes = s.wakes.filter fun w => slotHolds s w.t w.slot := by
  unfold sweepWakes
  dsimp only
  split
  · next h =>
    refine (List.filter_eq_self.mpr fun w hw => ?_).symm
    simpa using List.filter_eq_nil_iff.mp h w hw
  · exact wakes_returnCredits _ _

/-- No wake credit of a slot stays once the slot is cleared. -/
theorem wakes_clearSlot {th : Thread} {slot : Fin 16} (ht : threadOf s t = some th) {w : WakeCredit}
    (hw : w ∈ (clearSlot s t slot).wakes) : w ∈ s.wakes ∧ ¬(w.t = t ∧ w.slot = slot) := by
  have hm : modThread s t (·.cleared slot) = setThread s t (th.cleared slot) := modThread_eq ht
  have hw : w ∈ (sweepWakes (setThread s t (th.cleared slot))).wakes := by rw [← hm]; exact hw
  rw [wakes_sweepWakes] at hw
  obtain ⟨hmem, hholds⟩ := List.mem_filter.mp hw
  refine ⟨hmem, ?_⟩
  rintro ⟨rfl, rfl⟩
  have hempty : slotHolds (setThread s w.t (th.cleared w.slot)) w.t w.slot = false := by
    have hget : mget? (setThread s w.t (th.cleared w.slot)).threads w.t = some (th.cleared w.slot) := mget?_mset_same _ _ _
    unfold slotHolds
    rw [hget]
    simp [Thread.cleared, WatchSlot.empty]
  rw [hempty] at hholds
  cases hholds

end Sweep

/-- With no slot written the mask of written slots is zero (R150). -/
theorem writtenMask_eq_zero {th : Thread} (h : ∀ i : Fin 16, th.watch[i].written = false) : th.writtenMask = 0 := by
  refine foldl_keeps (P := fun a : Nat => a = 0) ?_ _ rfl
  rintro _ i rfl
  rw [Nat.zero_add]
  split
  · next w hw =>
    obtain ⟨hi, rfl⟩ := List.getElem?_eq_some_iff.mp hw
    have hn : th.watch.toList[i].written = false := h ⟨i, by simpa using hi⟩
    rw [hn]
    rfl
  · rfl

/-! ### Words that wait or go on, clear a slot, park, or replace a word of a record -/

section Words

variable {c : Instr} {t : ThreadId} {k : Common} {s : State}

/-- A word that goes on under a condition and otherwise leaves its thread waiting. -/
theorem completes_wait {p : State → Prop} [∀ s, Decidable (p s)] {r : RunState}
    (he : exec c s = stateWord c t k (fun s => if p s then s else modThread s t fun th => { th with run := r }) s)
    (h : Executes c t k s) (hp : ∀ z, Counted s z t → (p z ↔ p s)) :
    Completes c s fun u => OnlyThread s u t { (theThread s t).advance with run := if p s then .ready else r } := by
  have hrun : (theThread s t).advance.run = .ready := h.thread.2
  by_cases hs : p s
  · rw [if_pos hs, ← hrun]
    refine completes_threadWord (g := id) he h (fun z hz => ?_) rfl rfl
    rw [modThread_id ((hz.threadOf_eq t).trans h.thread.1)]
    exact if_pos ((hp z hz).mpr hs)
  · rw [if_neg hs]
    exact completes_threadWord (g := fun th => { th with run := r }) he h
      (fun z hz => if_neg fun hz' => hs ((hp z hz).mp hz')) rfl rfl

/-- A word that writes what it finds in the state to an s register. -/
theorem writesS_of_threadWord {g : State → Word} {dst : Fin 32}
    (he : exec c s = stateWord c t k (fun s => modThread s t fun th => th.wr dst (g s)) s) (h : Executes c t k s)
    (hg : ∀ z, Counted s z t → g z = g s) : WritesS c s t dst (g s) :=
  completes_threadWord (g := fun th => th.wr dst (g s)) he h (fun z hz => by rw [hg z hz]) rfl rfl

/-- A word that clears a slot of its thread. -/
theorem completes_clearSlot {slot : Fin 16} (he : exec c s = stateWord c t k (fun s => clearSlot s t slot) s)
    (h : Executes c t k s) : Completes c s fun u =>
      theThread u t = { (theThread s t).advance with
        watch := (theThread s t).watch.set slot WatchSlot.empty, readyAt := now s } ∧
      (∀ w ∈ u.wakes, w ∈ s.wakes ∧ ¬(w.t = t ∧ w.slot = slot)) ∧ u.mem = s.mem ∧ u.requests = s.requests ∧
      ∀ t', t' ≠ t → threadOf u t' = threadOf s t' := by
  refine completes_stateWord (f := fun s => clearSlot s t slot) he h fun z hz => ?_
  have ht : threadOf z t = some (theThread s t) := (hz.threadOf_eq t).trans h.thread.1
  obtain ⟨d, l, w, hclear⟩ := clearSlot_eq (slot := slot) ht
  have hth : threadOf (clearSlot z t slot) t = some ((theThread s t).cleared slot) := by
    rw [hclear]; exact mget?_mset_same _ _ _
  refine ⟨_, hth, fun _ => ⟨rfl, rfl, by rw [hclear]; rfl⟩, ?_, fun x hx => hz.wakes_eq ▸ wakes_clearSlot ht hx, ?_, ?_,
    fun t' ht' => ?_⟩
  · rw [theThread_mset, ← hz.now_eq, hclear]
    rfl
  · rw [hclear]; exact hz.mem_eq
  · rw [hclear]; exact hz.requests_eq
  · rw [hclear]
    refine (mget?_mset_other _ _ ht').trans ((mget?_mset_other _ _ ht').trans ?_)
    rw [hz.threads_eq]
    rfl

/-- DSETW (R129). -/
theorem completes_setWord {o : IArgs} (he : exec c s = stateWord c t k (setWord t o) s) (h : Executes c t k s) : Completes c s fun u =>
      theThread u t = { (theThread s t).advance with readyAt := now s } ∧ u.mem = s.mem ∧
      recordOf (groupOf u t) (o.minor.val == 1) o.dst.val = patch (recordOf (groupOf s t) (o.minor.val == 1) o.dst.val)
        (4 * (o.imm.toNat % 16)) (leBytes 4 ((theThread s t).rd o.a).toNat) := by
  refine completes_stateWord (f := setWord t o) he h fun z hz => ?_
  have ht : threadOf z t = some (theThread s t) := (hz.threadOf_eq t).trans h.thread.1
  have hfz : ∃ g, setWord t o z = setGroup z t g ∧ recordOf g (o.minor.val == 1) o.dst.val =
      patch (recordOf (groupOf s t) (o.minor.val == 1) o.dst.val) (4 * (o.imm.toNat % 16))
        (leBytes 4 ((theThread s t).rd o.a).toNat) := by
    refine ⟨_, rfl, ?_⟩
    rw [hz.groupOf_eq, hz.theThread_eq, recordOf_putRecord]
  obtain ⟨g, hg, hrec⟩ := hfz
  refine ⟨theThread s t, by rw [hg]; exact ht, fun _ => ⟨rfl, rfl, by rw [hg]; rfl⟩, ?_, ?_, ?_⟩
  · rw [theThread_mset, ← hz.now_eq, hg]
    rfl
  · rw [hg]; exact hz.mem_eq
  · have hgroup (m : Map ThreadId Thread) : groupOf { setWord t o z with threads := m } t = g := by
      rw [hg]; exact mget_mset_same _ _ _ _
    rw [hgroup, hrec]

/-- A timestamp is within 8 ns of the count (R46). -/
theorem timestamp_bounds (s : State) : now s ≤ timestamp s + 8 ∧ timestamp s ≤ now s + 8 := by
  have := Nat.mod_lt (Config.freeNat s.freeCounter) (show 0 < 17 by decide)
  unfold timestamp
  omega

/-- TIME (R46, R146). -/
theorem completes_time {o : IArgs} (he : exec c s = stateWord c t k (fun s =>
      { modThread s t fun th => th.wrPair o.dst (BitVec.ofNat 64 (timestamp s)) with freeCounter := s.freeCounter + 1 }) s)
    (h : Executes c t k s) (hhigh : now s + 8 < 2 ^ 64) : Completes c s fun u => ∃ v : DWord, now s ≤ v.toNat + 8 ∧
      v.toNat ≤ now s + 8 ∧ theThread u t = { ((theThread s t).wrPair o.dst v).advance with readyAt := now s } ∧ u.mem = s.mem ∧
      u.requests = s.requests ∧ ∀ t', t' ≠ t → threadOf u t' = threadOf s t' := by
  refine completes_stateWord he h fun z hz => ?_
  have ht : threadOf z t = some (theThread s t) := (hz.threadOf_eq t).trans h.thread.1
  obtain ⟨hlow, hup⟩ := timestamp_bounds z
  rw [hz.now_eq] at hlow hup
  have hval : (BitVec.ofNat 64 (timestamp z)).toNat = timestamp z := by
    rw [BitVec.toNat_ofNat]; exact Nat.mod_eq_of_lt (by omega)
  rw [modThread_eq ht]
  refine ⟨(theThread s t).wrPair o.dst (BitVec.ofNat 64 (timestamp z)), mget?_mset_same _ _ _, fun _ => ⟨rfl, rfl, rfl⟩,
    BitVec.ofNat 64 (timestamp z), by omega, by omega, ?_, hz.mem_eq, hz.requests_eq, fun t' ht' => ?_⟩
  · rw [theThread_mset, ← hz.now_eq]
    rfl
  · refine (mget?_mset_other _ _ ht').trans ((mget?_mset_other _ _ ht').trans ?_)
    rw [hz.threads_eq]
    rfl

end Words

end Sys2Proof.Machine
end

section
open Sys2Proof Sys2Proof.Machine

/-- Settles O24: each word by what it makes of its thread, of its slot, or of its group's record. -/
theorem waitTimeAndDescriptorWords : Obligations.WaitTimeAndDescriptorWords := by
  unfold Obligations.WaitTimeAndDescriptorWords
  refine ⟨fun t k o s => ?_, fun t k o s h hlow hhigh => ?time⟩
  · intro th
    refine ⟨fun f h => ?fence, fun h => ?twait, completes_clearSlot rfl, fun h hnone => ?parks, fun h hsome => ?unparks,
      fun h => ?dgetw, fun h hlen => ?dsetw⟩
    case fence =>
      exact completes_wait (p := fun s => outstanding s t isPosted = []) rfl h fun z hz => by rw [hz.outstanding_eq]
    case twait =>
      refine completes_wait (p := fun s => (pendingOps s t).length ≤ o.imm.toNat) rfl h fun z hz => ?_
      obtain ⟨r, w, x, rfl, -, -⟩ := hz
      rfl
    case parks =>
      have hpark : th.park o.dst = { th with run := .parked o.dst } := if_pos (writtenMask_eq_zero hnone)
      have hc := completes_regWord (f := fun th => th.park o.dst) rfl h ((congrArg Thread.pc hpark).trans rfl)
        ((congrArg Thread.loops hpark).trans rfl)
      rwa [hpark] at hc
    case unparks =>
      have hpark : th.park o.dst = th.unpark o.dst := if_neg hsome
      have hc := completes_regWord (f := fun th => th.park o.dst) rfl h ((congrArg Thread.pc hpark).trans rfl)
        ((congrArg Thread.loops hpark).trans rfl)
      have hrun : (th.wr o.dst (BitVec.ofNat 32 th.writtenMask)).advance.run = .ready := h.thread.2
      rw [hpark] at hc
      unfold Thread.unpark at hc
      rw [← hrun] at hc
      exact hc
    case dgetw =>
      exact writesS_of_threadWord (g := fun s => BitVec.ofNat 32
        (fieldAt (recordOf (groupOf s t) (o.minor.val == 1) o.a.val) (4 * (o.imm.toNat % 16)) 4)) rfl h fun z hz => by
          rw [hz.groupOf_eq]
    case dsetw =>
      have hfit : 4 * (o.imm.toNat % 16) + (leBytes 4 (th.rd o.a).toNat).length ≤
          (recordOf (groupOf s t) (o.minor.val == 1) o.dst.val).length := by rw [hlen, length_leBytes]; omega
      obtain ⟨u, hu, hth, hmem, hrec⟩ := completes_setWord rfl h
      refine ⟨u, hu, hth, hmem, ?_, ?_, fun w hw hne => ?_⟩
      · rw [hrec, fieldAt_patch_same (length_leBytes _ _) (by rw [hlen]; omega), leNat_leBytes]
        exact Nat.mod_eq_of_lt (th.rd o.a).isLt
      · rw [hrec, length_patch hfit, hlen]
      · rw [hrec, fieldAt_patch_other hfit]
        rw [length_leBytes]
        omega
  case time => exact completes_time rfl h hhigh

end

section
/-! SUPPORT. The words that start a tensor operation (R129, R137, R139): the operation under its fresh number, and the one that is
presented next. -/

namespace Sys2Proof.Machine

open Sys2Proof

/-- Operations to which one has been added under the number `n`. -/
def OpAdded (old ops : List TensorOp) (n : Nat) (t : ThreadId) (kind : TensorKind) : Prop :=
  ops.map (·.id) = old.map (·.id) ++ [n] ∧
    ∀ q ∈ ops, q.id = n → q.t = t ∧ q.kind = kind ∧ q.mask = [] ∧ q.tainted = false

section Operations

variable {old ops : List TensorOp} {s : State} {n : Nat} {t : ThreadId} {kind : TensorKind}

theorem OpAdded.exists_op (h : OpAdded old ops n t kind) :
    ∃ q ∈ ops, q.id = n ∧ q.t = t ∧ q.kind = kind ∧ q.mask = [] ∧ q.tainted = false := by
  have hn : n ∈ ops.map (·.id) := by rw [h.1]; simp
  obtain ⟨q, hq, hid⟩ := List.mem_map.mp hn
  exact ⟨q, hq, hid, h.2 q hq hid⟩

/-- A new operation under a fresh number. -/
theorem opAdded_addOp (hs : freshIds (·.id) s.ops s.nextOp) {q : TensorOp}
    (hq : q.t = t ∧ q.kind = kind ∧ q.mask = [] ∧ q.tainted = false) : OpAdded s.ops (addOp s q).ops s.nextOp t kind := by
  refine ⟨by simp [addOp], fun x hx hid => ?_⟩
  rcases List.mem_append.mp hx with hold | hnew
  · exact absurd hid (Nat.ne_of_lt (hs.2 x hold))
  · obtain rfl := List.mem_singleton.mp hnew
    exact hq

/-- Replacing an operation by itself in another stage adds and removes none. -/
theorem OpAdded.setOp (h : OpAdded old s.ops n t kind) {q : TensorOp} (hq : q ∈ s.ops) (g : OpStage) :
    OpAdded old (setOp s { q with stage := g }).ops n t kind := by
  refine ⟨?_, fun x hx hid => ?_⟩
  · rw [← h.1]
    unfold Machine.setOp
    rw [List.map_map]
    refine List.map_congr_left fun x _ => ?_
    show (if x.id = q.id then { q with stage := g } else x).id = x.id
    split
    · next hx => exact hx.symm
    · rfl
  · obtain ⟨y, hy, rfl⟩ := List.mem_map.mp hx
    dsimp only at hid ⊢
    split at hid
    · next hyq =>
      rw [if_pos hyq]
      exact h.2 q hq hid
    · next hyq =>
      rw [if_neg hyq]
      exact h.2 y hy hid

/-- The presentation of the next MMA of a cell changes the stage of one operation at most. -/
theorem OpAdded.presentNext (h : OpAdded old s.ops n t kind) (L cell : Nat) :
    ∃ ops, presentNext s L cell = { s with ops := ops } ∧ OpAdded old ops n t kind := by
  unfold Machine.presentNext
  dsimp only
  split
  · exact ⟨s.ops, rfl, h⟩
  · split
    · next q hfind => exact ⟨_, rfl, h.setOp (List.mem_of_mem_filter (List.mem_of_find?_eq_some hfind)) _⟩
    · exact ⟨s.ops, rfl, h⟩

theorem Counted.ops_eq {z : State} (h : Counted s z t) : z.ops = s.ops ∧ z.nextOp = s.nextOp := by
  obtain ⟨r, w, x, rfl, -, -⟩ := h; exact ⟨rfl, rfl⟩

end Operations

section TensorWords

variable {c : Instr} {t : ThreadId} {k : Common} {s : State} {f : State → State} {kind : TensorKind}

/-- With fewer than eight operations pending a tensor word is a word with an effect on the state (R137). -/
theorem tensorWord_room (h : (pendingOps s t).length < 8) : tensorWord c t k f s = stateWord c t k f s :=
  if_neg fun hfull => absurd hfull.2.2.2 (Nat.not_le.mpr h)

/-- A word that adds an operation, and leaves its thread running as `run`. -/
theorem starts_of_added {run : RunState} (he : exec c s = stateWord c t k f s) (h : Executes c t k s)
    (hf : ∀ z, Counted s z t → ∃ ops, OpAdded s.ops ops s.nextOp t kind ∧ f z =
      { z with ops := ops, nextOp := s.nextOp + 1, threads := mset z.threads t { theThread s t with run := run } }) :
    Starts c s t kind run := by
  refine completes_stateWord he h fun z hz => ?_
  obtain ⟨ops, hops, hfz⟩ := hf z hz
  refine ⟨{ theThread s t with run := run }, by rw [hfz]; exact mget?_mset_same _ _ _, fun _ => ⟨rfl, rfl, by rw [hfz]; rfl⟩,
    ?_, ?_, ?_, ?_, ?_, ?_⟩
  · rw [theThread_mset, ← hz.now_eq, hfz]
    rfl
  · rw [hfz]; exact hz.mem_eq
  · rw [hfz]; exact hz.requests_eq
  · rw [hfz]
  · rw [hfz]; exact hops.1
  · rw [hfz]; exact hops.exists_op

/-- The same for a word that lets its thread go on. -/
theorem starts_of_ready (he : exec c s = stateWord c t k f s) (h : Executes c t k s)
    (hf : ∀ z, Counted s z t → ∃ ops, OpAdded s.ops ops s.nextOp t kind ∧ f z = { z with ops := ops, nextOp := s.nextOp + 1 }) :
    Starts c s t kind .ready := by
  refine starts_of_added he h fun z hz => ?_
  obtain ⟨ops, hops, hfz⟩ := hf z hz
  have hself : mset z.threads t { theThread s t with run := .ready } = z.threads := by
    rw [← h.thread.2]
    exact mset_same ((hz.threadOf_eq t).trans h.thread.1)
  exact ⟨ops, hops, by rw [hself]; exact hfz⟩

end TensorWords

end Sys2Proof.Machine
end

section
open Sys2Proof Sys2Proof.Machine

/-- Settles O25: each word adds one operation under the fresh number; MMA also presents the next of its cell. -/
theorem tensorWords : Obligations.TensorWords := by
  unfold Obligations.TensorWords
  intro t k s hs hroom
  have hadd {z : State} (hz : Counted s z t) (q : TensorOp) {kind : TensorKind}
      (hq : q.t = t ∧ q.kind = kind ∧ q.mask = [] ∧ q.tainted = false) :
      OpAdded s.ops (addOp z q).ops s.nextOp t kind ∧
        addOp z q = { z with ops := (addOp z q).ops, nextOp := s.nextOp + 1 } := by
    obtain ⟨hops, hnext⟩ := hz.ops_eq
    rw [← hops, ← hnext]
    exact ⟨opAdded_addOp (by rw [hops, hnext]; exact hs.ops) hq, rfl⟩
  refine ⟨fun o h => ?mma, fun o h => ?tcopy, fun o h => ?tscadd, fun o h => ?tmaxabs⟩
  case mma =>
    refine starts_of_ready (f := startMma t k o) ((execMma_passed h.passed).trans (tensorWord_room hroom)) h fun z hz => ?_
    obtain ⟨hadded, heq⟩ := hadd hz (newOp z t (.mma o k.tag) o.dc o.da o.db 0 .queued) ⟨rfl, rfl, rfl, rfl⟩
    obtain ⟨ops, hpresent, hops⟩ := hadded.presentNext (newOp z t (.mma o k.tag) o.dc o.da o.db 0 .queued).region
      (newOp z t (.mma o k.tag) o.dc o.da o.db 0 .queued).cell
    refine ⟨ops, hops, hpresent.trans ?_⟩
    rw [heq]
  case tcopy =>
    have he : exec (.tcopy t k o) s = tensorWord (.tcopy t k o) t k
      (fun s => addOp s (newOp s t (.tcopy o) o.d1 o.d2 0 ((theThread s t).rd o.sreg) .running)) s := rfl
    exact starts_of_ready (he.trans (tensorWord_room hroom)) h fun z hz => ⟨_, hadd hz _ ⟨rfl, rfl, rfl, rfl⟩⟩
  case tscadd =>
    have he : exec (.tscadd t k o) s = tensorWord (.tscadd t k o) t k
      (fun s => addOp s (newOp s t (.tscadd o) o.d1 o.d2 0 ((theThread s t).rd o.sreg) .running)) s := rfl
    exact starts_of_ready (he.trans (tensorWord_room hroom)) h fun z hz => ⟨_, hadd hz _ ⟨rfl, rfl, rfl, rfl⟩⟩
  case tmaxabs =>
    refine starts_of_added (f := startMaxabs t o) rfl h fun z hz => ?_
    have ht : threadOf z t = some (theThread s t) := (hz.threadOf_eq t).trans h.thread.1
    let q : TensorOp := { newOp z t (.tmaxabs o) 0 o.d2 0 0 .running with
      recipe := if recipeMode z t.ctx then
        some (recipeExp z t.ctx (windowKind (ctxOf z t.ctx) (fieldAt (newOp z t (.tmaxabs o) 0 o.d2 0 0 .running).d2 4 1)))
      else none }
    obtain ⟨hadded, -⟩ := hadd hz q ⟨rfl, rfl, rfl, rfl⟩
    have hmod : startMaxabs t o z =
        { addOp z q with threads := mset z.threads t { theThread s t with run := .waitOp z.nextOp } } :=
      modThread_eq (s := addOp z q) ht
    refine ⟨_, hadded, hmod.trans ?_⟩
    rw [← hz.ops_eq.2]
    rfl

end

section
/-! SUPPORT. What an end of a thread does to other threads (R144, R164, R165): when its flow leaves service, task words go to threads
that wait in TAKE, and to no other. -/

namespace Sys2Proof.Machine

open Sys2Proof

/-! ### The service of the takers of a region -/

/-- Threads have changed that a taker of the region stood for and that waited in TAKE; no other thread has, and no taker has come. -/
structure ServesOnly (L : Nat) (s u : State) : Prop where
  takers : ∀ x ∈ (regionOf u L).takers, x ∈ (regionOf s L).takers
  threads : ∀ t, (∀ x ∈ (regionOf s L).takers, x.t = t → takerWaits s x = false) → threadOf u t = threadOf s t

theorem threadOf_modThread_same {s : State} {t : ThreadId} {th : Thread} {f : Thread → Thread} (h : threadOf s t = some th) :
    threadOf (modThread s t f) t = some (f th) := by
  rw [modThread_eq h]; exact mget?_mset_same _ _ _

theorem threadOf_modThread_other {s : State} {t d : ThreadId} {f : Thread → Thread} (h : d ≠ t) :
    threadOf (modThread s t f) d = threadOf s d := by
  unfold modThread
  split
  · exact threadOf_setThread_other h
  · rfl

theorem threadOf_sweepWakes (s : State) (t : ThreadId) : threadOf (sweepWakes s) t = threadOf s t := by
  obtain ⟨d, l, w, h⟩ := sweepWakes_eq s
  rw [h]; rfl

theorem regionOf_sweepWakes (s : State) (L : Nat) : regionOf (sweepWakes s) L = regionOf s L := by
  obtain ⟨d, l, w, h⟩ := sweepWakes_eq s
  rw [h]; rfl

theorem regionOf_modThread (s : State) (t : ThreadId) (f : Thread → Thread) (L : Nat) :
    regionOf (modThread s t f) L = regionOf s L := by
  unfold modThread; split <;> rfl

theorem takerWaits_congr {s u : State} {x : Taker} (h : threadOf u x.t = threadOf s x.t) : takerWaits u x = takerWaits s x := by
  unfold takerWaits; rw [h]

namespace ServesOnly

variable {L : Nat} {s u w : State}

theorem refl (s : State) : ServesOnly L s s := ⟨fun _ h => h, fun _ _ => rfl⟩

theorem trans (a : ServesOnly L s u) (b : ServesOnly L u w) : ServesOnly L s w := by
  refine ⟨fun x hx => a.takers x (b.takers x hx), fun t ht => ?_⟩
  have hsame := a.threads t ht
  refine (b.threads t fun x hx hxt => ?_).trans hsame
  rw [takerWaits_congr (s := s) (by rw [hxt, hsame])]
  exact ht x (a.takers x hx) hxt

/-- An update of other fields of the region. -/
theorem modRegion {f : LogRegion → LogRegion} (hf : (f (regionOf s L)).takers = (regionOf s L).takers) :
    ServesOnly L s (modRegion s L f) :=
  ⟨fun x hx => by rwa [regionOf_modRegion, hf] at hx, fun _ _ => rfl⟩

theorem giveTask {k : Taker} {x : ReadyTask} (hk : k ∈ (regionOf s L).takers) (hw : takerWaits s k = true) :
    ServesOnly L s (giveTask s L k x) := by
  refine ⟨fun y hy => ?_, fun t ht => ?_⟩
  · have hreg : (regionOf (Machine.giveTask s L k x) L).takers = (regionOf s L).takers.filter fun y => y.t ≠ k.t := by
      unfold Machine.giveTask
      dsimp only
      split <;> simp only [regionOf_sweepWakes, regionOf_modThread, regionOf_modRegion]
    rw [hreg] at hy
    exact List.mem_of_mem_filter hy
  · have hne : t ≠ k.t := by
      rintro rfl
      rw [ht k hk rfl] at hw
      cases hw
    unfold Machine.giveTask
    dsimp only
    split
    · rw [threadOf_sweepWakes, threadOf_modThread_other hne]; rfl
    · rw [threadOf_modThread_other hne]; rfl

theorem serveTakers {ctx l n : Nat} : ∀ s : State, ServesOnly L s (serveTakers s L ctx l n) := by
  induction n with
  | zero => exact refl
  | succ n ih =>
    intro s
    unfold Machine.serveTakers
    split
    · exact refl s
    · split
      · next k x rest hfind _ =>
        have hk := List.mem_of_find?_eq_some hfind
        have hwaits : takerWaits s k = true := by
          have h := List.find?_some hfind
          simp only [Bool.and_eq_true] at h
          exact h.2
        have hready : ServesOnly L s (Machine.modRegion s L fun R => { R with ready := mset R.ready (ctx, l) rest }) := modRegion rfl
        refine (hready.trans (giveTask ?_ hwaits)).trans (ih _)
        rw [regionOf_modRegion]
        exact hk
      · exact refl s

theorem releaseFlows {ctx : Nat} {p : FlowHeld → Bool} (s : State) : ServesOnly L s (releaseFlows s L ctx p) := by
  unfold Machine.releaseFlows
  split
  · refine (modRegion (f := fun R => { R with flows := R.flows.filter fun f => !p f }) rfl).trans ?_
    exact foldl_keeps (P := ServesOnly L _) (fun _ _ h => h.trans (serveTakers _)) _ (refl _)
  · exact refl s

end ServesOnly

/-! ### The end of a thread (R144) -/

section Ends

variable {s : State} {t : ThreadId} {th : Thread}

/-- The thread that ends is as HALT leaves it. -/
theorem threadOf_endThread (h : threadOf s t = some th) : threadOf (endThread s t) t = some th.halted := by
  have hhalt : threadOf (sweepWakes (modThread s t Thread.halted)) t = some th.halted := by
    rw [threadOf_sweepWakes, threadOf_modThread_same h]
  unfold endThread
  rw [(ServesOnly.releaseFlows _).threads t, hhalt]
  rintro x - rfl
  unfold takerWaits
  rw [hhalt]
  rfl

/-- Another thread changes only if it waits in TAKE as a taker of the region. -/
theorem threadOf_endThread_other {d : ThreadId} (hd : d ≠ t)
    (hw : ∀ x ∈ (regionOf s (threadRegion s t)).takers, x.t = d → takerWaits s x = false) :
    threadOf (endThread s t) d = threadOf s d := by
  have hbefore : threadOf (sweepWakes (modThread s t Thread.halted)) d = threadOf s d := by
    rw [threadOf_sweepWakes, threadOf_modThread_other hd]
  unfold endThread
  rw [(ServesOnly.releaseFlows _).threads d, hbefore]
  intro x hx hxd
  rw [regionOf_sweepWakes, regionOf_modThread] at hx
  rw [takerWaits_congr (s := s) (by rw [hxd]; exact hbefore)]
  exact hw x hx hxd

/-- A thread that does not go on stands where it is. -/
theorem settle_standsAt_of_not_ready (h : threadOf s t = some th) (hr : th.run ≠ .ready) :
    settle (standsAt s t) t = { s with threads := mset s.threads t { th with readyAt := now s } } := by
  rw [standsAt_eq h]
  exact settle_of_not_ready (mget?_mset_same _ _ _) hr

end Ends

end Sys2Proof.Machine
end

section
open Sys2Proof Sys2Proof.Machine

/-- Settles O18: the thread ends, and what follows serves threads that wait in TAKE. -/
theorem haltEndsTheThread : Obligations.HaltEndsTheThread := by
  unfold Obligations.HaltEndsTheThread
  intro t k o s h hg _
  have hz := countArrival_counted s t k.tag
  have ht : threadOf (countArrival s t k.tag) t = some (theThread s t) :=
    (hz.threadOf_eq t).trans (threadOf_of_canIssue (canIssue_of_issues h.may)).1
  have hend := threadOf_endThread ht
  have hexec : exec (.halt t k o) s = .next (settle (standsAt (endThread (countArrival s t k.tag) t) t) t) :=
    issueWord_guard (eff := fun s => endThread s t) (off := stepPc t) h.passed.1 h.may h.fresh h.noBreak hg
  rw [settle_standsAt_of_not_ready hend RunState.noConfusion] at hexec
  refine ⟨_, hexec, ?_⟩
  beta_reduce
  rw [theThread_mset]
  refine ⟨rfl, rfl, fun i => by simp [Thread.halted], rfl, rfl, (KeepsPlaces.refl _).endThread.mem.trans hz.mem_eq,
    fun t' hne hfree => ?_⟩
  refine (mget?_mset_other _ _ hne).trans ((threadOf_endThread_other hne fun x hx hxt => ?_).trans (hz.threadOf_eq t'))
  rw [hz.threadRegion_eq] at hx
  unfold regionOf at hx hfree
  rw [hz.logs_eq] at hx
  exact absurd hxt (hfree x hx)

end

section
/-! SUPPORT. The performance of a request (R122, R124): what it stores, what it reads, and what the judging of a promise or a job, the
return of credits and the pages of T2 leave alone. -/

namespace Sys2Proof.Machine

open Sys2Proof

/-! ### What leaves memory, contexts, requests and threads alone -/

/-- No byte of memory, no context, no request and no thread has changed, and no time has passed. -/
structure KeepsItems (s u : State) : Prop where
  mem : u.mem = s.mem
  clock : u.clock = s.clock
  contexts : u.contexts = s.contexts
  requests : u.requests = s.requests
  threads : u.threads = s.threads

namespace KeepsItems

variable {z s u : State}

theorem refl (s : State) : KeepsItems s s := ⟨rfl, rfl, rfl, rfl, rfl⟩

/-- An update of other fields of the state. -/
theorem other (h : KeepsItems z s) (hm : u.mem = s.mem) (hc : u.clock = s.clock) (hx : u.contexts = s.contexts)
    (hr : u.requests = s.requests) (ht : u.threads = s.threads) : KeepsItems z u :=
  ⟨hm.trans h.mem, hc.trans h.clock, hx.trans h.contexts, hr.trans h.requests, ht.trans h.threads⟩

theorem trans (a : KeepsItems z s) (b : KeepsItems s u) : KeepsItems z u := a.other b.mem b.clock b.contexts b.requests b.threads

theorem ite {a b : State} {c : Prop} [Decidable c] (ha : KeepsItems z a) (hb : KeepsItems z b) :
    KeepsItems z (if c then a else b) := by
  split
  · exact ha
  · exact hb

theorem foldl {α : Type} {f : State → α → State} {l : List α} (hf : ∀ s a, KeepsItems z s → KeepsItems z (f s a))
    (h : KeepsItems z s) : KeepsItems z (l.foldl f s) := foldl_keeps (P := KeepsItems z) hf l h

/-! ### Events and promises -/

theorem postEvent {f code ctx detail word : Nat} (h : KeepsItems z s) : KeepsItems z (postEvent s f code ctx detail word) := by
  obtain ⟨r, n, he⟩ := postEvent_eq s f code ctx detail word
  exact he ▸ h.other rfl rfl rfl rfl rfl

theorem limited {key : Nat × Nat} {f : State → State} (h : KeepsItems z s) (hf : ∀ u, KeepsItems z u → KeepsItems z (f u)) :
    KeepsItems z (limited s key f) := by
  rcases limited_cases s key f with he | he
  · rw [he]; exact h
  · rw [he]; exact hf _ (h.other rfl rfl rfl rfl rfl)

theorem promiseMiss {phys c row : Nat} (h : KeepsItems z s) : KeepsItems z (promiseMiss s phys c row) := by
  unfold Machine.promiseMiss
  refine limited (limited (h.other rfl rfl rfl rfl rfl) fun _ hu => ?_) fun _ hu => hu.postEvent
  exact hu.other rfl rfl rfl rfl rfl

theorem checkPromise {r : Request} (h : KeepsItems z s) : KeepsItems z (checkPromise s r) := ite h.promiseMiss h

/-! ### Credits and jobs -/

theorem giveBack {res : Resource} {n : Nat} (h : KeepsItems z s) : KeepsItems z (giveBack s res n) := by
  obtain ⟨d, l, he⟩ := giveBack_eq s res n
  exact he ▸ h.other rfl rfl rfl rfl rfl

theorem returnCredits {l : List (Resource × Nat)} (h : KeepsItems z s) : KeepsItems z (returnCredits s l) :=
  foldl (fun _ _ h => ite h h.giveBack) h

theorem modRegion {L : Nat} {f : LogRegion → LogRegion} (h : KeepsItems z s) : KeepsItems z (modRegion s L f) :=
  h.other rfl rfl rfl rfl rfl

theorem releaseVersions {t : Nat} (h : KeepsItems z s) : KeepsItems z (releaseVersions s t) :=
  foldl (fun _ _ => postEvent) (h.other rfl rfl rfl rfl rfl)

theorem closeJob {o : Origin} (h : KeepsItems z s) : KeepsItems z (closeJob s o) := by
  unfold Machine.closeJob
  split
  · exact h.modRegion
  · split
    · exact h.modRegion.releaseVersions
    · exact h
  · exact h.modRegion
  · exact h

theorem judgeJob {ctx : Nat} {j : Option JobPromise} (h : KeepsItems z s) : KeepsItems z (judgeJob s ctx j) := by
  unfold Machine.judgeJob
  split
  · have hm := fun j : JobPromise => ite (c := j.due ≠ 0 ∧ j.due < now s) (h.promiseMiss (phys := j.phys) (c := ctx) (row := j.row)) h
    dsimp only
    split
    · exact (hm _).closeJob
    · exact hm _
  · exact h

/-! ### The pages of T2 -/

theorem updatePage {page : Nat} (h : KeepsItems z s) : KeepsItems z (updatePage s page) := by
  unfold Machine.updatePage
  dsimp only
  refine ite h (ite (postEvent ?_) ?_)
  all_goals
    split
    · exact ite (postEvent (h.other rfl rfl rfl rfl rfl)) (h.other rfl rfl rfl rfl rfl)
    · exact h.other rfl rfl rfl rfl rfl

end KeepsItems

/-! ### What an access counts -/

section Counts

variable {s u : State}

/-- Only activity has been counted. -/
def OnlyActivity (s u : State) : Prop := ∃ a, u = { s with activity := a }

theorem OnlyActivity.refl (s : State) : OnlyActivity s s := ⟨s.activity, rfl⟩

theorem OnlyActivity.ite {a b : State} {c : Prop} [Decidable c] (ha : OnlyActivity s a) (hb : OnlyActivity s b) :
    OnlyActivity s (if c then a else b) := by
  split
  · exact ha
  · exact hb

theorem OnlyActivity.countAct {x : ActUnit} {c : Option Nat} {k : ActClass} {n : Nat} (h : OnlyActivity s u) :
    OnlyActivity s (countAct u x c k n) := by
  obtain ⟨a, rfl⟩ := h
  obtain ⟨b, hb⟩ := countAct_eq { s with activity := a } x c k n
  exact ⟨b, hb⟩

theorem OnlyActivity.countCrossing {own die port n : Nat} {c : Option Nat} (h : OnlyActivity s u) :
    OnlyActivity s (countCrossing u own c die port n) := countAct (ite h.countAct h)

theorem OnlyActivity.countAccess {own a n : Nat} {c : Option Nat} (h : OnlyActivity s u) :
    OnlyActivity s (countAccess u own c a n) := by
  unfold Machine.countAccess
  refine ite h ?_
  split
  · exact foldl_keeps (P := OnlyActivity s) (fun _ _ => countAct) _ h.countCrossing
  · exact countAct (ite (countAct (ite h.countAct h)) (ite h.countAct h))
  · exact countAct (ite (countAct (ite h.countAct h)) (ite h.countAct h))
  · split
    · exact h.countCrossing.countAct.countAct
    · exact h
  · exact h.countCrossing.countAct

theorem countRequest_onlyActivity (s : State) (r : Request) : OnlyActivity s (countRequest s r) :=
  (OnlyActivity.refl s).countAccess

end Counts

/-! ### A request that is performed -/

section Performed

variable {s : State} {id : Nat} {r : Request}

theorem findRequest_id (h : findRequest s id = some r) : r.id = id := by
  simpa using List.find?_some h

/-- What the performance of a request comes to once its target has been reached: what is judged, the request, and credits. -/
theorem performed_eq (s : State) (r : Request) (bs : List Byte) (poison : Option Nat) : ∃ y q l, KeepsItems s y ∧
    (q.id = r.id ∧ q.stage = .performed ∧ q.kind = r.kind ∧ q.result = bs ∧ q.poisonAt = poison) ∧
    performed s r bs poison = returnCredits (setRequest y q) l := by
  have hs := KeepsItems.refl s
  have hpromise := KeepsItems.ite (c := twoPhase s r = true ∨ (kindAddressed r.kind && spaceOf r.devAddr == 5) = true)
    (hs.checkPromise (r := r)) hs
  refine ⟨_, _, _, ?_, ?_, rfl⟩
  · exact .ite hpromise hpromise.judgeJob
  · exact ⟨rfl, rfl, rfl, rfl, rfl⟩

/-- A performed request waits for its completion only; memory, contexts and threads stay as they are. -/
theorem performed_spec (hf : findRequest s id = some r) (bs : List Byte) (poison : Option Nat) :
    (performed s r bs poison).mem = s.mem ∧ (performed s r bs poison).contexts = s.contexts ∧
      (performed s r bs poison).threads = s.threads ∧
      ∃ q, findRequest (performed s r bs poison) id = some q ∧ q.stage = .performed ∧ q.kind = r.kind ∧ q.result = bs ∧
        q.poisonAt = poison := by
  obtain rfl := findRequest_id hf
  obtain ⟨y, q, l, hy, ⟨hid, hq⟩, he⟩ := performed_eq s r bs poison
  have hc : KeepsItems (setRequest y q) (returnCredits (setRequest y q) l) := (KeepsItems.refl _).returnCredits
  rw [he, hc.mem, hc.contexts, hc.threads]
  refine ⟨hy.mem, hy.contexts, hy.threads, q, ?_, hq⟩
  have hold : findRequest y q.id = some r := by
    rw [hid, ← hf]
    unfold findRequest
    rw [hy.requests]
  have hset := findRequest_setRequest hold
  rw [← hid, ← hset]
  unfold findRequest
  rw [hc.requests]

/-- A write in T0, T1 or T2 stores its bytes; no context and no request changes. -/
theorem coreWrite_stores {fn a : Nat} {bs : List Byte} (ha : spaceOf a < 3) (hbs : bs ≠ []) :
    (coreWrite s fn a bs).mem = s.mem.store (memKey s a) bs ∧ (coreWrite s fn a bs).contexts = s.contexts ∧
      (coreWrite s fn a bs).requests = s.requests := by
  unfold coreWrite
  rw [if_neg hbs, if_neg (by omega)]
  dsimp only
  split
  · have h := KeepsItems.foldl (f := updatePage) (l := pagesOf a bs.length) (fun _ _ => KeepsItems.updatePage)
      (.refl { s with mem := s.mem.store (memKey s a) bs })
    exact ⟨h.mem, h.contexts, h.requests⟩
  · rw [if_neg (by omega)]
    exact ⟨rfl, rfl, rfl⟩

/-- A request at a target that is there is performed there. -/
theorem exec_requestPerform {s : State} (hf : findRequest s id = some r) (hm : mayPerform s r = true)
    (ht : targetFailed s r = false) (hw : strayWrite s r = false) (ha : spaceOf r.devAddr < 3)
    (hk : (∃ bs, r.kind = .store bs ∨ r.kind = .drain bs) ∨ ∃ n signed dst, r.kind = .load n signed dst) :
    exec (.requestPerform id) s = .next (performAt (countRequest s r) r) := by
  change execRequestPerform id s = _
  unfold execRequestPerform
  rw [hf]
  dsimp only
  rw [if_neg (by simp [hm])]
  obtain ⟨bs, hk | hk⟩ | ⟨n, signed, dst, hk⟩ := hk
  all_goals
    rw [hk]
    dsimp only
    rw [if_neg (by simp [ht]), if_neg (by omega), if_neg (by omega), if_neg (by simp [hw])]

end Performed

end Sys2Proof.Machine
end

section
open Sys2Proof Sys2Proof.Machine

/-- Settles O29: the request is performed at its target on a state in which only activity has been counted. -/
theorem requestIsPerformed : Obligations.RequestIsPerformed := by
  unfold Obligations.RequestIsPerformed
  intro s id r hf hm ht hw ha
  obtain ⟨act, hact⟩ := countRequest_onlyActivity s r
  refine ⟨fun bs hk => ⟨_, exec_requestPerform hf hm ht hw ha (.inl ⟨bs, hk⟩), ?_⟩,
    fun n signed dst hk => ⟨_, exec_requestPerform hf hm ht hw ha (.inr ⟨n, signed, dst, hk⟩), ?_⟩⟩
  · have hat : ∃ fn, performAt (countRequest s r) r = performed (coreWrite (countRequest s r) fn r.devAddr bs) r [] none := by
      unfold performAt
      rcases hk with hk | hk <;> rw [hk] <;> exact ⟨_, rfl⟩
    obtain ⟨fn, hat⟩ := hat
    have hwrite : (bs = [] ∨ (coreWrite (countRequest s r) fn r.devAddr bs).mem = s.mem.store (memKey s r.devAddr) bs) ∧
        (coreWrite (countRequest s r) fn r.devAddr bs).contexts = s.contexts ∧
        (coreWrite (countRequest s r) fn r.devAddr bs).requests = s.requests := by
      rw [hact]
      by_cases hbs : bs = []
      · exact ⟨.inl hbs, by unfold coreWrite; rw [if_pos hbs], by unfold coreWrite; rw [if_pos hbs]⟩
      · obtain ⟨hmem, hkept⟩ := coreWrite_stores (s := { s with activity := act }) (fn := fn) ha hbs
        exact ⟨.inr hmem, hkept⟩
    obtain ⟨hmem, hctx, hreq⟩ := hwrite
    have hfw : findRequest (coreWrite (countRequest s r) fn r.devAddr bs) id = some r := by
      rw [← hf]; unfold findRequest; rw [hreq]
    obtain ⟨pmem, pctx, -, q, hq, hstage, hkind, -⟩ := performed_spec hfw [] none
    beta_reduce
    rw [hat, pmem, pctx]
    exact ⟨hmem, hctx, q, hq, hstage, hkind⟩
  · have hat : performAt (countRequest s r) r =
        performed (countRequest s r) r (s.mem.fetchBytes (memKey s r.devAddr) n) (corePoison s r.devAddr n) := by
      have hgone : peerGone (countRequest s r) r.devAddr = false := by
        unfold peerGone
        rw [show (spaceOf r.devAddr == 4) = false by simpa using (by omega : spaceOf r.devAddr ≠ 4)]
        rfl
      unfold performAt
      rw [hk]
      dsimp only
      rw [if_neg (by omega)]
      unfold kindBytes coreRead
      rw [hgone, if_neg (by decide), if_neg (by omega), hact]
      rfl
    have hfr : findRequest (countRequest s r) id = some r := by rw [hact]; exact hf
    obtain ⟨pmem, -, pthreads, q, hq⟩ :=
      performed_spec hfr (s.mem.fetchBytes (memKey s r.devAddr) n) (corePoison s r.devAddr n)
    beta_reduce
    rw [hat, pmem, pthreads]
    exact ⟨by rw [hact], by rw [hact], q, hq⟩

end

section
/-! SUPPORT. Threads that run on (R122, R147, R150, R153): a request that leaves resumes the thread that waits for it, and no service
or wake of another thread changes it then. -/

namespace Sys2Proof.Machine

open Sys2Proof

section Resume

variable {s u : State} {t d : ThreadId} {th x : Thread}

/-! ### A thread that runs stays as it is -/

/-- The thread stands as `x`, and neither a context nor the clock has changed. -/
structure Stands (s : State) (t : ThreadId) (x : Thread) (u : State) : Prop where
  contexts : u.contexts = s.contexts
  clock : u.clock = s.clock
  thread : threadOf u t = some x

theorem threadOf_settle_other (hd : d ≠ t) (h : threadOf s d = some x) (hr : x.run = .ready) :
    threadOf (settle s t) d = some x := by
  unfold settle
  split
  · split
    · rw [threadOf_endThread_other hd, h]
      rintro y - rfl
      unfold takerWaits
      rw [h]
      show (x.run == _) = false
      rw [hr]
      rfl
    · exact h
  · exact h

/-- A wake of another thread leaves a thread that runs, and a second wake at its instant changes nothing of it. -/
theorem Stands.wake (h : Stands s t x u) (hr : x.run = .ready) (hn : x.readyAt = now s) (hp : x.pc < codeWords (ctxOf s t.ctx))
    (d : ThreadId) : Stands s t x (wake u d) := by
  refine ⟨(KeepsPlaces.refl u).wake.contexts.trans h.contexts, (KeepsRequests.refl u).wake.clock.trans h.clock, ?_⟩
  unfold Machine.wake
  by_cases hd : t = d
  · subst hd
    have hnow : now u = now s := congrArg Clock.time h.clock
    have hctx : ctxOf u t.ctx = ctxOf s t.ctx := by unfold ctxOf; rw [h.contexts]
    have hx : { x with run := .ready, readyAt := now u } = x := by rw [hnow, ← hr, ← hn]
    have hset : threadOf (modThread u t fun th => { th with run := .ready, readyAt := now u }) t = some x := by
      rw [threadOf_modThread_same h.thread, hx]
    have hcode : ctxOf (modThread u t fun th => { th with run := .ready, readyAt := now u }) t.ctx = ctxOf s t.ctx := by
      rw [modThread_eq h.thread]; exact hctx
    rw [settle_eq hset (by rw [hcode]; exact hp), hset]
  · exact threadOf_settle_other hd ((threadOf_modThread_other hd).trans h.thread) hr

theorem Stands.wakeRecord (h : Stands s t x u) (hr : x.run = .ready) (hn : x.readyAt = now s)
    (hp : x.pc < codeWords (ctxOf s t.ctx)) (id : Nat) : Stands s t x (wakeRecord u id) := by
  refine foldl_keeps (P := Stands s t x) (fun u e hu => ?_) _ h
  split
  · exact hu.wake hr hn hp e.1
  · exact hu

/-- A thread that runs is held by no fence. -/
theorem fenceCheck_of_ready (h : threadOf s t = some x) (hr : x.run = .ready) : fenceCheck s t = s := by
  unfold fenceCheck
  rw [h]
  dsimp only
  rw [if_neg (by rw [hr]; exact fun hc => RunState.noConfusion hc.1)]

/-! ### The end of a request that holds its thread (R122, R147) -/

/-- A request has left, and its credits are back: contexts, threads and the clock are as they were, and its number is free. -/
structure HasLeft (s : State) (id : Nat) (u : State) : Prop where
  contexts : u.contexts = s.contexts
  clock : u.clock = s.clock
  threads : u.threads = s.threads
  gone : ∀ q ∈ u.requests, q.id ≠ id

theorem hasLeft_releaseAfter (s : State) (r : Request) :
    HasLeft s r.id (releaseAfter (returnCredits { s with requests := s.requests.filter fun q => q.id ≠ r.id } r.credits) r.id) := by
  have hy : KeepsItems { s with requests := s.requests.filter fun q => q.id ≠ r.id }
      (returnCredits { s with requests := s.requests.filter fun q => q.id ≠ r.id } r.credits) := (KeepsItems.refl _).returnCredits
  refine ⟨hy.contexts, hy.clock, hy.threads, fun q hq => ?_⟩
  obtain ⟨p, hp, rfl⟩ := List.mem_map.mp hq
  have hid : p.id ≠ r.id := by
    rw [hy.requests] at hp
    simpa using (List.mem_filter.mp hp).2
  dsimp only
  split_ifs <;> exact hid

/-- A request that holds its thread leaves: the thread wakes, and then those that stood at a word for it. -/
theorem finishRequest_held {r : Request} (ho : r.origin = .thread t) (h : threadOf s t = some th) (hw : th.run = .waitReq r.id) :
    ∃ y, HasLeft s r.id y ∧ finishRequest s r = fenceCheck (wakeRecord (wake y t) r.id) t := by
  have hy := hasLeft_releaseAfter s r
  refine ⟨_, hy, ?_⟩
  unfold finishRequest
  dsimp only
  rw [ho]
  dsimp only
  revert hy
  generalize releaseAfter (returnCredits { s with requests := s.requests.filter fun q => q.id ≠ r.id } r.credits) r.id = y
  intro hy
  have hty : threadOf y t = some th := by rw [← h]; exact congrArg (mget? · t) hy.threads
  rw [hty]
  dsimp only
  rw [if_pos hw]

/-- A request that leaves resumes the thread that waits for it, at this instant, and is gone. -/
theorem finishRequest_resumes {r : Request} (ho : r.origin = .thread t) (h : threadOf s t = some th) (hw : th.run = .waitReq r.id)
    (hp : th.pc < codeWords (ctxOf s t.ctx)) :
    threadOf (finishRequest s r) t = some { th with run := .ready, readyAt := now s } ∧ (finishRequest s r).mem = s.mem ∧
      findRequest (finishRequest s r) r.id = none := by
  obtain ⟨y, hy, he⟩ := finishRequest_held ho h hw
  have hty : threadOf y t = some th := by rw [← h]; exact congrArg (mget? · t) hy.threads
  have hnow : now y = now s := congrArg Clock.time hy.clock
  have hctx : ctxOf y t.ctx = ctxOf s t.ctx := by unfold ctxOf; rw [hy.contexts]
  have hwake : wake y t = { y with threads := mset y.threads t { th with run := .ready, readyAt := now s } } := by
    unfold wake
    rw [modThread_eq hty, hnow]
    exact settle_eq (mget?_mset_same _ _ _) (by rw [← hctx] at hp; exact hp)
  have hwoken : Stands s t { th with run := .ready, readyAt := now s } (wake y t) := by
    rw [hwake]; exact ⟨hy.contexts, hy.clock, mget?_mset_same _ _ _⟩
  have hstands := hwoken.wakeRecord rfl rfl hp r.id
  refine ⟨?_, (KeepsPlaces.refl s).finishRequest.mem, ?_⟩
  · rw [he, fenceCheck_of_ready hstands.thread rfl]
    exact hstands.thread
  · rw [he, fenceCheck_of_ready hstands.thread rfl]
    have hreq : (wakeRecord (wake y t) r.id).requests = y.requests :=
      (KeepsRequests.foldl (fun _ _ h => .ite h.wake h) (KeepsRequests.refl y).wake).requests
    unfold findRequest
    rw [hreq, List.find?_eq_none]
    intro q hq
    simpa using hy.gone q hq

end Resume

end Sys2Proof.Machine
end

section
/-! SUPPORT. What a load delivers, and the wake of a parked thread (R122, R150, R153). -/

namespace Sys2Proof.Machine

open Sys2Proof

section Results

variable {s : State} {id : Nat} {r : Request} {t : ThreadId} {th : Thread}

/-- A load of this device or its host that met no poison: its thread takes the value, and the request leaves. -/
theorem completed_load {n : Nat} {signed : Bool} {dst : Fin 32} {resp : List Byte} {poison : Bool}
    (hk : r.kind = .load n signed dst) (hn : n ≠ 8) (ho : r.origin = .thread t) (hp : r.poisonAt = none)
    (ha : spaceOf r.devAddr ≠ 4) (hpoison : spaceOf r.devAddr = 5 → poison = false) : completed s r resp poison =
      finishRequest (modThread (checkPromise s r) t fun th => th.wr dst (BitVec.ofNat 32 (loadValue n signed r.result))) r := by
  have htlp : poisonedTlp r poison = false := by
    unfold poisonedTlp
    by_cases h5 : spaceOf r.devAddr = 5
    · rw [hpoison h5]; rfl
    · simp [h5]
  have hdata : completionData r resp poison = (r.result, none) := by
    unfold completionData
    rw [htlp, if_neg (by decide), if_neg (fun h => ha h.2.1), hp]
  unfold completed
  dsimp only
  rw [hdata, htlp]
  dsimp only
  have hstore : isStore r.kind = false := by rw [hk]; rfl
  have hdeliver (u : State) : deliver u r r.result =
      modThread u t fun th => th.wr dst (BitVec.ofNat 32 (loadValue n signed r.result)) := by
    unfold deliver
    rw [ho, hk]
    simp only [if_neg hn]
  rw [hstore, hdeliver]
  rfl

/-- A promise that is judged leaves a thread and its code as they are. -/
theorem checkPromise_thread (h : threadOf s t = some th) : threadOf (checkPromise s r) t = some th ∧
    ctxOf (checkPromise s r) t.ctx = ctxOf s t.ctx ∧ now (checkPromise s r) = now s ∧ (checkPromise s r).mem = s.mem := by
  have hc := (KeepsItems.refl s).checkPromise (r := r)
  refine ⟨?_, ?_, congrArg Clock.time hc.clock, hc.mem⟩
  · rw [← h]; exact congrArg (mget? · t) hc.threads
  · unfold ctxOf; rw [hc.contexts]

/-- A miss of a promise changes the role of no region, and no region's work. -/
theorem promiseMiss_roles (phys c row : Nat) : (∀ q, (physOf (promiseMiss s phys c row) q).role = (physOf s q).role) ∧
    (promiseMiss s phys c row).logs = s.logs := by
  unfold promiseMiss
  dsimp only
  have hstart (f : PhysRegion → PhysRegion) (hf : ∀ x, (f x).role = x.role) :
      (∀ q, (physOf (modPhys (w1cEvent s (offPhys phys) 62) phys f) q).role = (physOf s q).role) ∧
        (modPhys (w1cEvent s (offPhys phys) 62) phys f).logs = s.logs := by
    refine ⟨fun q => ?_, rfl⟩
    by_cases hq : q = phys
    · subst hq
      rw [physOf_modPhys, hf]
      rfl
    · rw [physOf_modPhys_other hq]
      rfl
  have hlimited {u : State} {key : Nat × Nat} {f : State → State}
      (hu : (∀ q, (physOf u q).role = (physOf s q).role) ∧ u.logs = s.logs)
      (hf : ∀ v, (∀ q, physOf (f v) q = physOf v q) ∧ (f v).logs = v.logs) :
      (∀ q, (physOf (limited u key f) q).role = (physOf s q).role) ∧ (limited u key f).logs = s.logs := by
    rcases limited_cases u key f with he | he
    · rw [he]; exact hu
    · rw [he, (hf _).2]
      refine ⟨fun q => ?_, hu.2⟩
      rw [(hf _).1]
      exact hu.1 q
  refine hlimited (hlimited (hstart _ fun _ => rfl) fun _ => ⟨fun _ => rfl, rfl⟩) fun v => ?_
  unfold ctxEvent
  obtain ⟨a, b, he⟩ := postEvent_eq v (ctxOf v c).fn 0x0C c (row % 65536) row
  rw [he]
  exact ⟨fun _ => rfl, rfl⟩

theorem targetFailed_checkPromise (r q : Request) : targetFailed (checkPromise s r) q = targetFailed s q := by
  unfold checkPromise
  split
  · obtain ⟨hrole, hlogs⟩ := promiseMiss_roles (s := s) (originPhys s r.origin) r.ctx (promiseRow s r)
    unfold targetFailed physFailed
    rw [hrole, hlogs]
  · rfl

/-- A thread changed by its request's result, and resumed as the request leaves. -/
theorem finishRequest_delivered {f : Thread → Thread} (ho : r.origin = .thread t) (h : threadOf s t = some th)
    (hw : th.run = .waitReq r.id) (hp : th.pc < codeWords (ctxOf s t.ctx)) (hrun : (f th).run = th.run) (hpc : (f th).pc = th.pc) :
    threadOf (finishRequest (modThread (checkPromise s r) t f) r) t = some { f th with run := .ready, readyAt := now s } ∧
      (finishRequest (modThread (checkPromise s r) t f) r).mem = s.mem ∧
      findRequest (finishRequest (modThread (checkPromise s r) t f) r) r.id = none := by
  obtain ⟨ht, hctx, hnow, hmem⟩ := checkPromise_thread (r := r) h
  have hmod := modThread_eq (f := f) ht
  obtain ⟨hthread, hmem', hgone⟩ := finishRequest_resumes (r := r) ho (threadOf_modThread_same (f := f) ht) (by rw [hrun]; exact hw)
    (by rw [hpc, hmod]; exact hctx ▸ hp)
  refine ⟨?_, ?_, hgone⟩
  · rw [hthread, hmod, ← hnow]
    rfl
  · rw [hmem', hmod]
    exact hmem

/-- A mask of written slots depends on which slots are written alone. -/
theorem writtenMask_map {f : WatchSlot → WatchSlot} (hf : ∀ w, (f w).written = w.written) :
    ({ th with watch := th.watch.map f } : Thread).writtenMask = th.writtenMask := by
  unfold Thread.writtenMask
  refine congrArg (fun g : Nat → Nat → Nat => (List.range 16).foldl g 0) (funext fun a => funext fun i => ?_)
  dsimp only
  rw [Vector.toList_map, List.getElem?_map]
  cases th.watch.toList[i]? with
  | none => rfl
  | some w => exact congrArg (fun b : Bool => a + if b = true then 2 ^ i else 0) (hf w)

/-- A slot whose wake is due anew from the instant at which the rail is awaited (R43). -/
def dueAgain (s : State) (t : ThreadId) (w : WatchSlot) : WatchSlot :=
  if w.written ∧ w.due ≠ 0 then { w with due := 10 * now s + wakeTenths s t (w.addr.getD 0) } else w

theorem dueAgain_written (s : State) (t : ThreadId) (w : WatchSlot) : (dueAgain s t w).written = w.written := by
  unfold dueAgain
  split <;> rfl

/-- A wake that comes in time is no miss (R153). -/
theorem judgeWake_inTime (h : th.wakeDue = 0 ∨ 10 * now s ≤ th.wakeDue) : judgeWake s t th = s := by
  unfold judgeWake
  split
  · rw [if_neg (by omega)]
  · rfl

/-- What the wake of a parked thread comes to (R43, R150). -/
theorem exec_wakeNotification {dst : Fin 32} (h : threadOf s t = some th) (hr : th.run = .parked dst) (hm : th.writtenMask ≠ 0)
    (hc : ctxRuns s t.ctx = true) (hcell : cellRuns s t = true) : exec (.wakeNotification t) s =
      if railLow s (physAt s (threadRegion s t)) then .next (awaitRail s t)
      else .next (settle (setThread (judgeWake s t th) t { (th.unpark dst) with readyAt := now s }) t) := by
  change execWakeNotification t s = _
  unfold execWakeNotification
  rw [h]
  dsimp only
  rw [hr]
  dsimp only
  rw [if_neg (by simp [hm, hc, hcell])]

end Results

end Sys2Proof.Machine
end

section
open Sys2Proof Sys2Proof.Machine

/-- Settles O30: a load and the acknowledgement of a WATCH change their thread and leave, which resumes it; a wake writes the mask, or
waits for the rail. -/
theorem threadsWakeWithTheirResults : Obligations.ThreadsWakeWithTheirResults := by
  unfold Obligations.ThreadsWakeWithTheirResults
  refine ⟨?load, ?watch, ?wake⟩
  case load =>
    intro s id r t th n signed dst resp poison hf hstage hheld hk hn ho hp ha hpoison ht hrun hpc
    obtain rfl := findRequest_id hf
    have hexec : exec (.requestCompletion r.id resp poison) s = .next (completed s r resp poison) := by
      change execRequestCompletion r.id resp poison s = _
      unfold execRequestCompletion
      rw [hf]
      dsimp only
      rw [if_neg (by simp [hstage, hheld]), ho]
      exact if_neg Bool.false_ne_true
    rw [completed_load hk hn ho hp ha hpoison] at hexec
    exact ⟨_, hexec, finishRequest_delivered ho ht hrun hpc rfl rfl⟩
  case watch =>
    intro s id r t th slot hf hk ho hm hheld htarget ht hrun hpc
    obtain rfl := findRequest_id hf
    have hsame : targetFailed (checkPromise s r) r = false := (targetFailed_checkPromise r r).trans htarget
    have hexec : exec (.watchAck r.id) s = .next (finishRequest (modThread (checkPromise s r) t fun th =>
        { th with watch := th.watch.set slot { addr := some r.devAddr, acked := true, written := false, due := 0 } }) r) := by
      change execWatchAck r.id s = _
      unfold execWatchAck
      rw [hf]
      dsimp only
      rw [hk, ho]
      dsimp only
      rw [if_neg (by simp [hm, hheld]), hsame]
      rfl
    exact ⟨_, hexec, finishRequest_delivered ho ht hrun hpc rfl rfl⟩
  case wake =>
    intro s t th dst ht hrun hmask hctx hcell hpc rail
    have hexec := exec_wakeNotification ht hrun hmask hctx hcell
    refine ⟨fun hrail htime => ?_, fun hrail => ?_⟩
    · have hlow : railLow s (physAt s (threadRegion s t)) = false := decide_eq_false (by omega)
      rw [hexec, hlow, if_neg (by decide), judgeWake_inTime htime]
      exact congrArg Host.Outcome.next (settle_eq (mget?_mset_same _ _ _) hpc)
    · have hlow : railLow s (physAt s (threadRegion s t)) = true := decide_eq_true hrail
      rw [hlow, if_pos rfl] at hexec
      refine ⟨_, hexec, ?_⟩
      have hmod : awaitRail s t = { s with threads := mset s.threads t { th with watch := th.watch.map (dueAgain s t) } } :=
        modThread_eq ht
      rw [hmod]
      refine ⟨rfl, rfl, _, mget?_mset_same _ _ _, hrun, writtenMask_map (dueAgain_written s t), rfl, fun t' ht' => ?_⟩
      exact mget?_mset_other _ _ ht'

end

section
/-! SUPPORT. What a unit's job leaves alone as it reads and writes for its context: what its events report, what its writes change, and
the Reels (R95, R167, R192, R501). -/

namespace Sys2Proof.Machine

open Sys2Proof

/-! ### Events -/

/-- Only what counts, logs and reports events has changed; a context keeps its function. -/
structure OnlyReports (s u : State) : Prop where
  form : ∃ x p w f n e r k, u =
    { s with contexts := x, phys := p, w1cAt := w, faultLog := f, logTotal := n, lastEvent := e, records := r, fns := k }
  fn : ∀ c, (ctxOf u c).fn = (ctxOf s c).fn

namespace OnlyReports

variable {z s u : State}

theorem refl (s : State) : OnlyReports s s := ⟨⟨_, _, _, _, _, _, _, _, rfl⟩, fun _ => rfl⟩

theorem trans (a : OnlyReports z s) (b : OnlyReports s u) : OnlyReports z u := by
  refine ⟨?_, fun c => (b.fn c).trans (a.fn c)⟩
  obtain ⟨x, p, w, f, n, e, r, k, rfl⟩ := a.form
  obtain ⟨x', p', w', f', n', e', r', k', rfl⟩ := b.form
  exact ⟨_, _, _, _, _, _, _, _, rfl⟩

theorem ite {a b : State} {c : Prop} [Decidable c] (ha : OnlyReports z a) (hb : OnlyReports z b) :
    OnlyReports z (if c then a else b) := by
  split
  · exact ha
  · exact hb

theorem modCtx {c : Nat} {f : Context → Context} (h : OnlyReports z s) (hf : ∀ x, (f x).fn = x.fn := by exact fun _ => rfl) :
    OnlyReports z (modCtx s c f) := by
  refine h.trans ⟨⟨_, _, _, _, _, _, _, _, rfl⟩, fun d => ?_⟩
  by_cases hd : d = c
  · subst hd; rw [ctxOf_modCtx, hf]
  · rw [ctxOf_modCtx_other hd]

theorem modPhys {p : Nat} {f : PhysRegion → PhysRegion} (h : OnlyReports z s) : OnlyReports z (modPhys s p f) :=
  h.trans ⟨⟨_, _, _, _, _, _, _, _, rfl⟩, fun _ => rfl⟩

theorem w1cEvent {off hi : Nat} (h : OnlyReports z s) : OnlyReports z (w1cEvent s off hi) :=
  h.trans ⟨⟨_, _, _, _, _, _, _, _, rfl⟩, fun _ => rfl⟩

theorem logFault {code p v c d : Nat} (h : OnlyReports z s) : OnlyReports z (logFault s code p v c d) :=
  h.trans ⟨⟨_, _, _, _, _, _, _, _, rfl⟩, fun _ => rfl⟩

theorem eventAt {e : Map (Nat × Nat) Nat} (h : OnlyReports z s) : OnlyReports z { s with lastEvent := e } :=
  h.trans ⟨⟨_, _, _, _, _, _, _, _, rfl⟩, fun _ => rfl⟩

theorem postEvent {f code ctx detail word : Nat} (h : OnlyReports z s) : OnlyReports z (postEvent s f code ctx detail word) := by
  obtain ⟨r, n, he⟩ := postEvent_eq s f code ctx detail word
  rw [he]
  exact h.trans ⟨⟨_, _, _, _, _, _, _, _, rfl⟩, fun _ => rfl⟩

theorem limited {key : Nat × Nat} {f : State → State} (h : OnlyReports z s) (hf : ∀ u, OnlyReports z u → OnlyReports z (f u)) :
    OnlyReports z (limited s key f) := by
  rcases limited_cases s key f with he | he
  · rw [he]; exact h
  · rw [he]; exact hf _ h.eventAt

theorem promiseMiss {phys c row : Nat} (h : OnlyReports z s) : OnlyReports z (promiseMiss s phys c row) :=
  limited (limited h.w1cEvent.modPhys fun _ => logFault) fun _ => postEvent

theorem windowFault {c ca : Nat} (h : OnlyReports z s) : OnlyReports z (windowFault s c ca) := by
  have hm : OnlyReports z (Machine.modCtx s c fun x => { x with winFaults := satAdd 0xFFFF x.winFaults 1 }) := h.modCtx
  exact ite hm hm.modCtx.postEvent

theorem peerLossEvent {c dev : Nat} (h : OnlyReports z s) : OnlyReports z (peerLossEvent s c dev) := by
  unfold Machine.peerLossEvent
  dsimp only
  split
  · exact h
  · exact h.eventAt.postEvent

theorem poisonedRead {c a p : Nat} (h : OnlyReports z s) : OnlyReports z (poisonedRead s c a p) :=
  have hp : OnlyReports z (poisonEvent s c p) := limited h fun _ => postEvent
  ite hp.peerLossEvent hp

/-- A report leaves the places of memory, and the ways to them, as they are. -/
theorem reach (h : OnlyReports s u) (c : Nat) : KeepsReach c s u := by
  have hfn := h.fn c
  obtain ⟨x, p, w, f, n, e, r, k, rfl⟩ := h.form
  exact ⟨rfl, rfl, rfl, rfl, fun _ => rfl, hfn⟩

theorem kept (h : OnlyReports s u) : u.mem = s.mem ∧ u.transfers = s.transfers ∧ u.logs = s.logs := by
  obtain ⟨x, p, w, f, n, e, r, k, rfl⟩ := h.form
  exact ⟨rfl, rfl, rfl⟩

end OnlyReports

/-! ### Reads by a unit -/

theorem OnlySends.askPeer {s u : State} {fn a n : Nat} (h : OnlySends s u) : OnlySends s (askPeer u fn a n) := by
  refine ite (foldl_keeps (P := OnlySends s) (fun v i hv => ?_) _ h) h
  split
  · exact hv.queueOp
  · exact hv

/-- A unit that reads for a context changes what counts, sends and reports; places, ways and regions stay as they are. -/
structure ReadsOnly (c : Nat) (s u : State) : Prop where
  reach : KeepsReach c s u
  logs : u.logs = s.logs

namespace ReadsOnly

variable {c : Nat} {z s u : State}

theorem refl (s : State) : ReadsOnly c s s := ⟨.refl s, rfl⟩

theorem trans (a : ReadsOnly c z s) (b : ReadsOnly c s u) : ReadsOnly c z u := ⟨a.reach.trans b.reach, b.logs.trans a.logs⟩

theorem reports (h : ReadsOnly c z s) (hr : OnlyReports s u) : ReadsOnly c z u := h.trans ⟨hr.reach c, hr.kept.2.2⟩

theorem sends (h : ReadsOnly c z s) (hs : OnlySends s u) : ReadsOnly c z u := by
  refine h.trans ⟨hs.keepsPlaces.reach, ?_⟩
  obtain ⟨_, _, _, _, rfl⟩ := hs
  rfl

theorem activity (h : ReadsOnly c z s) (ha : OnlyActivity s u) : ReadsOnly c z u := by
  obtain ⟨a, rfl⟩ := ha
  exact h.trans ⟨⟨rfl, rfl, rfl, rfl, fun _ => rfl, rfl⟩, rfl⟩

theorem winReadMark {ca n : Nat} (h : ReadsOnly c z s) : ReadsOnly c z (winReadMark s c none ca n) := by
  unfold Machine.winReadMark
  split
  · next a _ =>
    have hh : ReadsOnly c z (if spaceOf a = 5 then hostRequest s (ctxOf s c).fn false a n else s) := by
      split
      · exact h.trans ⟨⟨rfl, rfl, rfl, rfl, fun _ => rfl, rfl⟩, rfl⟩
      · exact h
    dsimp only
    split
    · exact hh.reports (OnlyReports.refl _).poisonedRead
    · exact hh
  · exact h.reports (OnlyReports.refl _).windowFault

theorem unitReads {o : Origin} {l : List (Nat × Nat)} (h : ReadsOnly c z s) : ReadsOnly c z (unitReads s c o l) := by
  refine foldl_keeps (P := ReadsOnly c z) (fun v x hv => winReadMark ?_) _ h
  split
  · exact (hv.activity (OnlyActivity.refl v).countAccess).sends (OnlySends.refl _).askPeer
  · exact hv

end ReadsOnly

/-! ### The Reels through a unit's writes -/

/-- No Reel has changed. -/
structure KeepsReels (s u : State) : Prop where
  reels : ∀ L, (regionOf u L).reels = (regionOf s L).reels

namespace KeepsReels

variable {z s u : State}

theorem refl (s : State) : KeepsReels s s := ⟨fun _ => rfl⟩

theorem trans (a : KeepsReels z s) (b : KeepsReels s u) : KeepsReels z u := ⟨fun L => (b.reels L).trans (a.reels L)⟩

/-- An update of other fields of the state. -/
theorem other (h : KeepsReels z s) (hl : u.logs = s.logs) : KeepsReels z u :=
  h.trans ⟨fun L => by unfold regionOf; rw [hl]⟩

theorem ite {a b : State} {c : Prop} [Decidable c] (ha : KeepsReels z a) (hb : KeepsReels z b) :
    KeepsReels z (if c then a else b) := by
  split
  · exact ha
  · exact hb

theorem foldl {α : Type} {f : State → α → State} {l : List α} (hf : ∀ s a, KeepsReels z s → KeepsReels z (f s a))
    (h : KeepsReels z s) : KeepsReels z (l.foldl f s) := foldl_keeps (P := KeepsReels z) hf l h

theorem reelUnit (h : KeepsReels s u) (L r : Nat) : reelUnit u L r = Machine.reelUnit s L r := by
  unfold Machine.reelUnit; rw [h.reels]

theorem reports (h : KeepsReels z s) (hr : OnlyReports s u) : KeepsReels z u := h.other hr.kept.2.2

theorem sends (h : KeepsReels z s) (hs : OnlySends s u) : KeepsReels z u := by
  obtain ⟨_, _, _, _, rfl⟩ := hs
  exact h.other rfl

theorem activity (h : KeepsReels z s) (ha : OnlyActivity s u) : KeepsReels z u := by
  obtain ⟨a, rfl⟩ := ha
  exact h.other rfl

theorem updatePage {page : Nat} (h : KeepsReels z s) : KeepsReels z (updatePage s page) := by
  have post {v : State} {f code ctx detail word : Nat} (hv : KeepsReels z v) :
      KeepsReels z (postEvent v f code ctx detail word) := hv.reports (OnlyReports.refl v).postEvent
  unfold Machine.updatePage
  dsimp only
  refine ite h (ite (post ?_) ?_)
  all_goals
    split
    · exact ite (post (h.other rfl)) (h.other rfl)
    · exact h.other rfl

theorem markWritten {a n : Nat} (h : KeepsReels z s) : KeepsReels z (markWritten s a n) :=
  h.trans ⟨fun L => (congrArg LogRegion.reels (mget_map (d := LogRegion.zero)
    (f := fun R : LogRegion => { R with gates := R.gates.map fun g => (g.1, g.2.mark a n) }) rfl s.logs L)).trans rfl⟩

theorem devWrite {fn a : Nat} {bs : List Byte} (h : KeepsReels z s) : KeepsReels z (devWrite s fn a bs) := by
  have hm : KeepsReels z { s with mem := s.mem.store (memKey s a) bs } := h.other rfl
  exact ite h (ite h (ite (ite h (h.sends (OnlySends.refl s).sendPieces))
    (ite (foldl (fun _ _ => updatePage) hm) (ite (hm.other rfl) hm.markWritten))))

theorem remoteStore {ctx k : Nat} {o : Origin} : ∀ {s : State} {a : Nat} {bs : List Byte}, KeepsReels z s →
    KeepsReels z (remoteStore s ctx o a bs k) := by
  induction k with
  | zero => exact id
  | succ k ih =>
    intro s a bs h
    refine ite h (ih ?_)
    have hr (r : Request) : KeepsReels z (countRequest (addRequest s r) r) :=
      activity (s := addRequest s r) (h.other rfl) (countRequest_onlyActivity _ r)
    unfold remotePiece
    dsimp only
    split
    · exact (hr _).sends (OnlySends.refl _).queueOp
    · exact hr _

theorem undefinedEffect {c : Nat} (h : KeepsReels z s) : KeepsReels z (undefinedEffect s c) := by
  have hstores {l : List (Nat × Byte)} {v : State} (hv : KeepsReels z v) : KeepsReels z (l.foldl (undefinedStore c) v) := by
    refine foldl (fun w x hw => ?_) hv
    unfold undefinedStore
    split
    · exact hw.devWrite
    · exact hw
  have hs := hstores (l := Config.undefinedStores s.freeCounter) (v := { s with freeCounter := s.freeCounter + 1 }) (h.other rfl)
  exact ite (hs.other rfl) (hs.other rfl)

theorem unitWrite {ctx ca : Nat} {o : Origin} {bs : List Byte} (h : KeepsReels z s) : KeepsReels z (unitWrite s ctx o ca bs) := by
  unfold Machine.unitWrite
  split
  · exact ite (ite (h.reports (OnlyReports.refl s).peerLossEvent) h.remoteStore)
      (ite h.undefinedEffect (h.activity (OnlyActivity.refl s).countAccess).devWrite)
  · exact h.reports (OnlyReports.refl s).windowFault

theorem writeOut {c ca : Nat} {o : Origin} {bs : List Byte} (h : KeepsReels z s) : KeepsReels z (writeOut s c o ca bs) := by
  have hchunks (n : Nat) : ∀ {s : State} {ca : Nat} {bs : List Byte}, KeepsReels z s →
      KeepsReels z (writeChunks s c o ca n bs) := by
    induction n with
    | zero => exact id
    | succ n ih => exact fun h => ite h (ih h.unitWrite)
  exact hchunks _ h

theorem finishFrame {o : Origin} {r : ReelRun} {x : Samp} (h : KeepsReels z s) : KeepsReels z (finishFrame s o r x) := by
  have hw : KeepsReels z (withWindows s r.job.ctx r.wins) := h.other rfl
  have hreads : KeepsReels z (Machine.unitReads (withWindows s r.job.ctx r.wins) r.job.ctx o x.reads) :=
    hw.other (ReadsOnly.refl (c := r.job.ctx) _).unitReads.logs
  have hf : KeepsReels z (if r.tainted then Machine.undefinedEffect (withWindows s r.job.ctx r.wins) r.job.ctx
      else writeFrame (Machine.unitReads (withWindows s r.job.ctx r.wins) r.job.ctx o x.reads) r.job.ctx o r x) :=
    ite hw.undefinedEffect hreads.writeOut.unitWrite
  exact hf.other rfl

end KeepsReels

/-! ### What a unit reports when its job ends (R167, R192) -/

/-- No Reel, no byte of memory and no transfer has changed. -/
structure KeepsFrame (s u : State) : Prop where
  reels : KeepsReels s u
  mem : u.mem = s.mem
  transfers : u.transfers = s.transfers

namespace KeepsFrame

variable {z s u : State}

theorem refl (s : State) : KeepsFrame s s := ⟨.refl s, rfl, rfl⟩

/-- An update of other fields of the state. -/
theorem other (h : KeepsFrame z s) (hl : u.logs = s.logs) (hm : u.mem = s.mem) (ht : u.transfers = s.transfers) :
    KeepsFrame z u := ⟨h.reels.other hl, hm.trans h.mem, ht.trans h.transfers⟩

theorem ite {a b : State} {c : Prop} [Decidable c] (ha : KeepsFrame z a) (hb : KeepsFrame z b) :
    KeepsFrame z (if c then a else b) := by
  split
  · exact ha
  · exact hb

theorem reports (h : KeepsFrame z s) (hr : OnlyReports s u) : KeepsFrame z u := by
  obtain ⟨hm, ht, hl⟩ := hr.kept
  exact h.other hl hm ht

theorem unitToken {ctx : Nat} {o : Origin} {w : DWord} {d : Option Nat} {j : Option JobPromise} (h : KeepsFrame z s) :
    KeepsFrame z (unitToken s ctx o w d j) := ite h (h.other rfl rfl rfl)

theorem unitSignal {ctx ca v : Nat} {o : Origin} {l : List Nat} {j : Option JobPromise} (h : KeepsFrame z s) :
    KeepsFrame z (unitSignal s ctx o ca v l j) := by
  unfold Machine.unitSignal
  refine ite h ?_
  split
  · exact h.other rfl rfl rfl
  · exact h.reports (OnlyReports.refl s).windowFault

end KeepsFrame

/-- A job's report leaves its frame, or, where the job names no token, may end it at once. -/
theorem unitReport_cases (s : State) (ctx : Nat) (o : Origin) (token : DWord) (done : Nat) (d : Option Nat) (j : Option JobPromise) :
    KeepsFrame s (unitReport s ctx o token done d j) ∨
      token = 0 ∧ ∃ v, KeepsFrame s v ∧ unitReport s ctx o token done d j = judgeJob v ctx j := by
  unfold unitReport
  dsimp only
  split
  · next h =>
    unfold unitEnd
    split
    · exact .inl ((KeepsFrame.refl s).unitToken.unitSignal.other rfl rfl rfl)
    · exact .inr ⟨h.1, _, (KeepsFrame.refl s).unitToken.unitSignal, rfl⟩
  · exact .inl (KeepsFrame.refl s).unitToken.unitSignal

end Sys2Proof.Machine
end

section
/-! SUPPORT. The Reels (R146, R172 to R177, R191 to R196): a job that is queued, a job that is taken or refused, and one that ends. -/

namespace Sys2Proof.Machine

open Sys2Proof

section Reels

variable {s : State} {L r : Nat}

/-! ### The Reels of a region -/

/-- A change that leaves the queues of Reels leaves the queue of each. -/
theorem queue_modReel {a b : Nat} {f : ReelUnit → ReelUnit} (hf : ∀ u, (f u).queue = u.queue) :
    (reelUnit (modReel s a b f) L r).queue = (reelUnit s L r).queue := by
  by_cases ha : L = a
  · subst ha
    by_cases hb : r = b
    · subst hb
      rw [reelUnit_modReel, hf]
    · unfold reelUnit modReel
      rw [regionOf_modRegion]
      exact congrArg ReelUnit.queue (mget_mset_other _ _ _ hb)
  · unfold reelUnit modReel
    rw [regionOf_modRegion_other ha]

/-- Data kept by key of which the value at one key changes, if the reset value stays. -/
theorem mget_mapAt {α β : Type} [DecidableEq α] {d : β} {f : β → β} (hd : f d = d) (m : Map α β) (k : α) :
    mget d (m.map fun e => if e.1 = k then (e.1, f e.2) else e) k = f (mget d m k) := by
  induction m with
  | nil => exact hd.symm
  | cons e m ih =>
    obtain ⟨a, b⟩ := e
    by_cases h : a = k
    · simp [mget, mget?, h]
    · simpa [mget, mget?, h] using ih

/-- A job that is closed leaves its Reel, and the queue as it is (R176). -/
theorem reelUnit_closeJob : reelUnit (closeJob s (.reel L r)) L r = { reelUnit s L r with running := none } := by
  unfold closeJob reelUnit
  rw [regionOf_modRegion]
  exact mget_mapAt (d := ReelUnit.zero) (f := fun u => { u with running := none }) rfl _ _

/-! ### Acceptance -/

/-- A transfer that holds its rates asks for nothing more. -/
theorem reserveRates_of_ratesSince {x : XferUse} {t : Nat} (h : ratesSince s x = some t) (c into : Option Nat)
    (hops : List (Hop × Nat)) : reserveRates s x c into hops = s := by
  unfold ratesSince at h
  split at h
  · next y hy =>
    split at h
    · next hacc =>
      have hask : askTransfer s x c into hops = s := by
        unfold askTransfer
        rw [hy]
        exact if_pos hacc
      unfold reserveRates tryTransfer
      dsimp only
      rw [hask, hy]
      exact if_neg (by simp [hacc])
    · cases h
  · cases h

/-- The checks of a job depend on its window alone. -/
theorem KeepsReach.reelOk_eq {u : State} {c : Nat} (h : KeepsReach c s u) (rec_ gr : List Byte) :
    reelOk u c rec_ gr = reelOk s c rec_ gr := by
  have hheader (j : ReelDesc) : frameHeaderOk u c j = frameHeaderOk s c j := by
    unfold frameHeaderOk; rw [h.translate_eq]
  have hspace (j : ReelDesc) : frameSpaceOk u j c = frameSpaceOk s j c := by
    unfold frameSpaceOk winEntry; rw [h.rawReg_eq]
  unfold reelOk
  dsimp only
  rw [hheader, hspace]

/-- A job that starts runs with what was read, and leaves the queue (R177, R191). -/
theorem startReel_spec (job : ReelJob) (rec_ gr : List Byte) (t : Nat) :
    (reelUnit (startReel s L r job rec_ gr t) L r).queue = (reelUnit s L r).queue ∧
      ∃ run, (reelUnit (startReel s L r job rec_ gr t) L r).running = some run ∧ run.job = job ∧ run.desc = readReelDesc rec_ ∧
        run.graphRec = gr ∧ run.tAccept = t ∧ run.promise = t + (readReelDesc rec_).promiseNs := by
  have htaint : (reelUnit (taintFrames s job.ctx (readReelDesc rec_)) L r).queue = (reelUnit s L r).queue := by
    refine foldl_keeps (P := fun u => (reelUnit u L r).queue = (reelUnit s L r).queue) (fun u x hu => ?_) _ rfl
    split
    · rw [← hu]
      exact queue_modReel fun _ => rfl
    · exact hu
  unfold startReel
  dsimp only
  rw [reelUnit_modReel]
  refine ⟨?_, _, rfl, rfl, rfl, rfl, rfl, rfl⟩
  dsimp only
  split
  · exact htaint
  · rw [(KeepsReels.refl _).unitWrite.reelUnit, htaint]

/-- A refused job leaves the Reel as it is (R195). -/
theorem refuseReel_keepsReels (job : ReelJob) (j : ReelDesc) : KeepsReels s (refuseReel s L r job j) := by
  have hs := KeepsReels.refl s
  have hw := KeepsReels.ite (c := frameHeaderOk s job.ctx j = true)
    (hs.unitWrite (ctx := job.ctx) (o := .reel L r) (ca := j.frame) (bs := leBytes 4 0 ++ leBytes 2 stRejected)
      |>.unitWrite (ctx := job.ctx) (o := .reel L r) (ca := j.frame + 7) (bs := [0])) hs
  refine hw.trans ?_
  rcases unitReport_cases _ job.ctx (.reel L r) j.token j.done none none with h | ⟨-, v, hv, he⟩
  · exact h.reels
  · unfold refuseReel
    dsimp only
    rw [he]
    exact hv.reels

/-- A Reel takes the job at the head of its queue when it holds its rates: the job starts, or is refused. -/
theorem exec_reelJobAccept {job : ReelJob} {rest : List ReelJob} {t : Nat} (hrun : (reelUnit s L r).running = none)
    (hqueue : (reelUnit s L r).queue = job :: rest) (hunits : unitsAccept s L = true) (hctx : (ctxOf s job.ctx).state ≠ .paused)
    (hrates : ratesSince s (.reel L r) = some t) :
    ∃ v, KeepsReach job.ctx s v ∧ reelUnit v L r = { reelUnit s L r with queue := rest } ∧ exec (.reelJobAccept L r) s =
      .next (if reelOk v job.ctx (winRead s job.ctx none job.descAddr 128)
          (winRead s job.ctx none (readReelDesc (winRead s job.ctx none job.descAddr 128)).graph 64) then
        startReel v L r job (winRead s job.ctx none job.descAddr 128)
          (winRead s job.ctx none (readReelDesc (winRead s job.ctx none job.descAddr 128)).graph 64) t
      else endTransfer (refuseReel v L r job (readReelDesc (winRead s job.ctx none job.descAddr 128))) (.reel L r)) := by
  have hreads := (ReadsOnly.refl (c := job.ctx) s).unitReads (o := .reel L r)
    (l := [(job.descAddr, 128), ((readReelDesc (winRead s job.ctx none job.descAddr 128)).graph, 64)])
  refine ⟨modReel (unitReads s job.ctx (.reel L r)
    [(job.descAddr, 128), ((readReelDesc (winRead s job.ctx none job.descAddr 128)).graph, 64)]) L r
    fun u => { u with queue := rest }, hreads.reach.trans (KeepsPlaces.refl _).modRegion.reach, ?_, ?_⟩
  · rw [reelUnit_modReel]
    unfold reelUnit regionOf
    rw [hreads.logs]
  · change execReelJobAccept L r s = _
    unfold execReelJobAccept
    dsimp only
    rw [hrun, hqueue]
    dsimp only
    rw [if_neg (by simp [hunits, hctx]), reserveRates_of_ratesSince hrates, hrates]
    dsimp only
    split <;> rfl

/-! ### Completion -/

/-- A written frame, with the units and the activity of its job counted (R190 to R192). -/
def frameDone (s : State) (L r : Nat) (run : ReelRun) (x : Samp) : State :=
  countAct (modReelCount (addIndexFaults (finishFrame s (.reel L r) run x) run.job.ctx x.faults) (originPhys s (.reel L r)) r
    fun k => { k with units := (k.units + x.units) % 2 ^ 40 }) (.region (originPhys s (.reel L r))) (some run.job.ctx) .reel x.units

theorem frameDone_spec (run : ReelRun) (x : Samp) : KeepsReels s (frameDone s L r run x) ∧
    (frameDone s L r run x).mem = (finishFrame s (.reel L r) run x).mem := by
  have hframe : KeepsReels s (finishFrame s (.reel L r) run x) := (KeepsReels.refl s).finishFrame
  unfold frameDone
  obtain ⟨a, ha⟩ := countAct_eq (modReelCount (addIndexFaults (finishFrame s (.reel L r) run x) run.job.ctx x.faults)
    (originPhys s (.reel L r)) r fun k => { k with units := (k.units + x.units) % 2 ^ 40 }) (.region (originPhys s (.reel L r)))
    (some run.job.ctx) .reel x.units
  rw [ha]
  exact ⟨hframe.other rfl, rfl⟩

/-- No transfer of a purpose is left once it has ended. -/
theorem findTransfer_endTransfer (x : XferUse) : findTransfer (endTransfer s x) x = none := by
  unfold findTransfer
  rw [List.find?_eq_none]
  intro y hy
  have h := (List.mem_filter.mp hy).2
  simpa using h

/-- The job of a Reel that reports has written its frame, or has left the Reel where it names no token. -/
theorem unitReport_reel {ctx done due phys row : Nat} {token : DWord} {run : ReelRun} (h : (reelUnit s L r).running = some run) :
    let u := unitReport s ctx (.reel L r) token done none (some { due := due, phys := phys, row := row, job := some (.reel L r) })
    ((reelUnit u L r).running = some run ∨ (reelUnit u L r).running = none ∧ token = 0) ∧
      (reelUnit u L r).queue = (reelUnit s L r).queue ∧ u.transfers = s.transfers ∧ u.mem = s.mem := by
  intro u
  rcases unitReport_cases s ctx (.reel L r) token done none
    (some { due := due, phys := phys, row := row, job := some (.reel L r) }) with hk | ⟨htoken, v, hv, he⟩
  · have hunit : reelUnit u L r = reelUnit s L r := hk.reels.reelUnit L r
    rw [hunit]
    exact ⟨.inl h, rfl, hk.transfers, hk.mem⟩
  · have hm : KeepsFrame s (if due ≠ 0 ∧ due < now v then promiseMiss v phys ctx row else v) :=
      .ite (hv.reports (OnlyReports.refl v).promiseMiss) hv
    have hu : u = closeJob (if due ≠ 0 ∧ due < now v then promiseMiss v phys ctx row else v) (.reel L r) := he
    rw [hu, reelUnit_closeJob, hm.reels.reelUnit]
    exact ⟨.inr ⟨rfl, htoken⟩, rfl, hm.transfers, hm.mem⟩

/-- The state of a Reel whose job has written its frame: its rates are free, and its report is still to come. -/
def frameWritten (s : State) (L r : Nat) (run : ReelRun) (x : Samp) : State :=
  endTransfer (modReel (frameDone s L r run x) L r fun u => { u with running := some { run with written := true } }) (.reel L r)

/-- What the completion of a job leaves. -/
def jobReported (s : State) (L r : Nat) (run : ReelRun) (x : Samp) : State :=
  unitReport (frameWritten s L r run x) run.job.ctx (.reel L r) run.desc.token run.desc.done none
    (some { due := run.promise, phys := originPhys s (.reel L r), row := 13, job := some (.reel L r) })

/-- A job that completes has its frame written, gives its rates up, and reports (R188 to R192). -/
theorem exec_reelJobComplete {run : ReelRun} (hrun : (reelUnit s L r).running = some run) (hwritten : run.written = false)
    (hvacant : (regionOf s L).vacant = false) (hfailed : physFailed s (originPhys s (.reel L r)) = false) :
    exec (.reelJobComplete L r) s = .next (jobReported s L r run
      (sample (unitReader (withWindows s run.job.ctx run.wins) run.job.ctx) run.desc (readGraph run.graphRec))) := by
  change execReelJobComplete L r s = _
  unfold execReelJobComplete
  rw [hrun]
  dsimp only
  rw [if_neg (by simp [hwritten, hvacant, hfailed])]
  rfl

theorem frameWritten_spec (run : ReelRun) (x : Samp) :
    reelUnit (frameWritten s L r run x) L r = { reelUnit s L r with running := some { run with written := true } } ∧
      findTransfer (frameWritten s L r run x) (.reel L r) = none ∧
      (frameWritten s L r run x).mem = (finishFrame s (.reel L r) run x).mem := by
  obtain ⟨hkept, hmem⟩ := frameDone_spec (s := s) (L := L) (r := r) run x
  have hunit : reelUnit (frameWritten s L r run x) L r =
      { reelUnit (frameDone s L r run x) L r with running := some { run with written := true } } := reelUnit_modReel
  exact ⟨by rw [hunit, hkept.reelUnit], findTransfer_endTransfer _, hmem⟩

/-- The job of a Reel that has completed runs until it has reported, or has left the Reel; its queue and its frame stay. -/
theorem jobReported_spec (run : ReelRun) (x : Samp) :
    ((reelUnit (jobReported s L r run x) L r).running = some { run with written := true } ∨
        (reelUnit (jobReported s L r run x) L r).running = none ∧ run.desc.token = 0) ∧
      (reelUnit (jobReported s L r run x) L r).queue = (reelUnit s L r).queue ∧
      findTransfer (jobReported s L r run x) (.reel L r) = none ∧
      (jobReported s L r run x).mem = (finishFrame s (.reel L r) run x).mem := by
  obtain ⟨hunit, htransfer, hframe⟩ := frameWritten_spec (s := s) (L := L) (r := r) run x
  obtain ⟨hrunning, hqueue, htransfers, hmem⟩ := unitReport_reel (ctx := run.job.ctx) (done := run.desc.done)
    (due := run.promise) (phys := originPhys s (.reel L r)) (row := 13) (token := run.desc.token)
    (show (reelUnit (frameWritten s L r run x) L r).running = _ by rw [hunit])
  refine ⟨hrunning, ?_, ?_, hmem.trans hframe⟩
  · rw [hunit] at hqueue
    exact hqueue
  · rw [← htransfer]
    unfold findTransfer
    exact congrArg (List.find? _) htransfers

end Reels

/-! ### Submission (R172) -/

section Submission

variable {s z : State} {t : ThreadId} {L r : Nat}

theorem reelCount_modReelCount {p : Nat} {f : ReelCount → ReelCount} :
    mget ReelCount.zero (physOf (modReelCount s p r f) p).reels r = f (mget ReelCount.zero (physOf s p).reels r) := by
  unfold modReelCount
  rw [physOf_modPhys]
  exact mget_mset_same _ _ _ _

theorem Counted.physOf_eq (h : Counted s z t) (p : Nat) : physOf z p = physOf s p := by
  unfold physOf; rw [h.phys_eq, h.part_eq]

theorem Counted.physOfLogical_eq (h : Counted s z t) (L : Nat) : physOfLogical z L = physOfLogical s L := by
  unfold physOfLogical; simp only [h.physOf_eq]

theorem Counted.reelUnit_eq (h : Counted s z t) (L r : Nat) : reelUnit z L r = reelUnit s L r := by
  unfold reelUnit regionOf; rw [h.logs_eq]

theorem Counted.queued_eq (h : Counted s z t) (L r : Nat) : queued z L r = queued s L r := by
  unfold queued; rw [h.reelUnit_eq]

theorem Counted.leastReel_eq (h : Counted s z t) (L : Nat) : leastReel z L = leastReel s L := by
  unfold leastReel; simp only [h.queued_eq]

/-- The Reel that a REEL names (R172). -/
def reelNamed (s : State) (L : Nat) (o : AArgs) : Nat := if o.minor.val = 15 then leastReel s L else o.minor.val

theorem Counted.reelNamed_eq (h : Counted s z t) (L : Nat) (o : AArgs) : reelNamed z L o = reelNamed s L o := by
  unfold reelNamed; rw [h.leastReel_eq]

/-- What the physical region of a logical region counts of a Reel. -/
def reelCount (s : State) (L r : Nat) : ReelCount := mget ReelCount.zero (physOf s ((physOfLogical s L).getD 0xFF)).reels r

theorem Counted.reelCount_eq (h : Counted s z t) (L r : Nat) : reelCount z L r = reelCount s L r := by
  unfold reelCount; rw [h.physOf_eq, h.physOfLogical_eq]

/-- The job that a REEL submits to a Reel (Table 6.1). -/
def submittedJob (s : State) (t : ThreadId) (o : AArgs) (L r : Nat) : ReelJob :=
  { ctx := t.ctx, handle := reelHandle L r (reelCount s L r).nextSeq, descAddr := ctxAddress o 64 (theThread s t),
    seq := (reelCount s L r).nextSeq }

/-- A Reel is now `x` and its counts are `n`; threads, contexts, requests and memory are as they were. -/
structure ReelChanged (s y : State) (L r : Nat) (x : ReelUnit) (n : ReelCount) : Prop where
  unit : reelUnit y L r = x
  count : mget ReelCount.zero (physOf y ((physOfLogical s L).getD 0xFF)).reels r = n
  threads : y.threads = s.threads
  contexts : y.contexts = s.contexts
  requests : y.requests = s.requests
  mem : y.mem = s.mem
  clock : y.clock = s.clock

/-- A full queue refuses the job: the count rises, and the thread takes BUSY. -/
theorem submitReel_full {o : AArgs} (hL : threadRegion s t = L) (hr : reelNamed s L o = r) (hq : 64 ≤ queued s L r) :
    ∃ y, submitReel t o s = modThread y t (fun th => th.wr o.data 0x80000000) ∧ ReelChanged s y L r (reelUnit s L r)
      { reelCount s L r with refused := Nat.min 0xFFFF ((reelCount s L r).refused + 1) } := by
  subst hL hr
  exact ⟨_, if_pos hq, rfl, reelCount_modReelCount, rfl, rfl, rfl, rfl, rfl⟩

/-- Else the job goes to the end of the queue, and the thread takes its handle. -/
theorem submitReel_room {o : AArgs} (hL : threadRegion s t = L) (hr : reelNamed s L o = r) (hq : queued s L r < 64) :
    ∃ y, submitReel t o s = modThread y t (fun th => th.wr o.data (submittedJob s t o L r).handle) ∧ ReelChanged s y L r
      { reelUnit s L r with queue := (reelUnit s L r).queue ++ [submittedJob s t o L r] }
      { reelCount s L r with nextSeq := ((reelCount s L r).nextSeq + 1) % 2 ^ 25 } := by
  subst hL hr
  exact ⟨_, if_neg (Nat.not_le.mpr hq), reelUnit_modReel, reelCount_modReelCount, rfl, rfl, rfl, rfl, rfl⟩

/-- What REEL leaves, from what its submission makes of a state in which the arrival has been counted (R146). -/
theorem exec_reel {k : Common} {o : AArgs} {x : ReelUnit} {n : ReelCount} {v : Word} (h : Executes (.reel t k o) t k s)
    (hf : ∀ z, Counted s z t → ∃ y, submitReel t o z = modThread y t (fun th => th.wr o.data v) ∧ ReelChanged z y L r x n) :
    ∃ u, exec (.reel t k o) s = .next u ∧ reelUnit u L r = x ∧
      mget ReelCount.zero (physOf u ((physOfLogical s L).getD 0xFF)).reels r = n ∧
      theThread u t = { ((theThread s t).wr o.data v).advance with readyAt := now s } ∧ u.mem = s.mem ∧ u.requests = s.requests ∧
      ∀ t', t' ≠ t → threadOf u t' = threadOf s t' := by
  refine completes_stateWord (f := submitReel t o) rfl h fun z hz => ?_
  obtain ⟨y, hy, hc⟩ := hf z hz
  have ht : threadOf y t = some (theThread s t) := by
    rw [← h.thread.1, ← hz.threadOf_eq]; exact congrArg (mget? · t) hc.threads
  have hfz : submitReel t o z = { y with threads := mset y.threads t ((theThread s t).wr o.data v) } := hy.trans (modThread_eq ht)
  have hnow : now y = now s := (congrArg Clock.time hc.clock).trans hz.now_eq
  have hctx : ctxOf y t.ctx = ctxOf z t.ctx := by unfold ctxOf; rw [hc.contexts]
  rw [hfz]
  refine ⟨(theThread s t).wr o.data v, mget?_mset_same _ _ _, fun _ => ⟨rfl, rfl, congrArg codeWords hctx⟩, hc.unit, ?_, ?_,
    hc.mem.trans hz.mem_eq, hc.requests.trans hz.requests_eq, fun t' ht' => ?_⟩
  · rw [← hz.physOfLogical_eq]
    exact hc.count
  · rw [theThread_mset, ← hnow]
    rfl
  · refine (mget?_mset_other _ _ ht').trans ((mget?_mset_other _ _ ht').trans ?_)
    rw [hc.threads, hz.threads_eq]
    rfl

end Submission

end Sys2Proof.Machine
end

section
open Sys2Proof Sys2Proof.Machine

/-- Settles O26: a REEL queues its job or is refused; a Reel with rates takes the head of its queue; a job that completes has written
its frame, and what it reports leaves the frame and the queue as they are. -/
theorem reels : Obligations.Reels := by
  unfold Obligations.Reels
  refine ⟨fun t k o s h => ?submit, fun s L r => ⟨fun job rest t hrun hqueue hunits hctx hrates => ?accept, ?close,
    fun run hrun hwritten hvacant hfailed => ?complete⟩⟩
  case submit =>
    intro L reel p n job
    refine ⟨fun hroom => exec_reel h fun z hz => ?_, fun hfull => exec_reel h fun z hz => ?_⟩
    · obtain ⟨y, hy, hc⟩ := submitReel_room (o := o) (L := L) (r := reel) (hz.threadRegion_eq t)
        (hz.reelNamed_eq L o) ((hz.queued_eq L reel).symm ▸ hroom)
      have hjob : submittedJob z t o L reel = job := by
        unfold submittedJob; rw [hz.reelCount_eq, hz.theThread_eq]; rfl
      rw [hjob] at hy
      rw [hjob, hz.reelUnit_eq, hz.reelCount_eq] at hc
      exact ⟨y, hy, hc⟩
    · obtain ⟨y, hy, hc⟩ := submitReel_full (o := o) (L := L) (r := reel) (hz.threadRegion_eq t)
        (hz.reelNamed_eq L o) ((hz.queued_eq L reel).symm ▸ hfull)
      rw [hz.reelUnit_eq, hz.reelCount_eq] at hc
      exact ⟨y, hy, hc⟩
  case accept =>
    intro desc graph
    obtain ⟨v, hreach, hunit, hexec⟩ := exec_reelJobAccept hrun hqueue hunits hctx hrates
    rw [hreach.reelOk_eq] at hexec
    by_cases hok : reelOk s job.ctx desc graph = true
    · obtain ⟨hq, hstarted⟩ := startReel_spec (s := v) (L := L) (r := r) job desc graph t
      refine ⟨_, hexec.trans (congrArg _ (if_pos hok)), by rw [hq, hunit], fun _ => hstarted, fun hno => ?_⟩
      rw [hok] at hno
      cases hno
    · have hkept : reelUnit (endTransfer (refuseReel v L r job (readReelDesc desc)) (.reel L r)) L r = reelUnit v L r :=
        (refuseReel_keepsReels job (readReelDesc desc)).reelUnit L r
      refine ⟨_, hexec.trans (congrArg _ (if_neg hok)), by rw [hkept, hunit], fun hyes => absurd hyes hok, fun _ => ?_⟩
      rw [hkept, hunit]
      exact hrun
  case close => rw [reelUnit_closeJob]
  case complete =>
    exact ⟨_, exec_reelJobComplete hrun hwritten hvacant hfailed, jobReported_spec run _⟩

end

section
/-! SUPPORT. The performance of a signal (R154 to R156, R376): the word it leaves, written as an atomic operation writes it. -/

namespace Sys2Proof.Machine

open Sys2Proof

theorem leNat_lt (bs : List Byte) : leNat bs < 256 ^ bs.length := by
  induction bs with
  | nil => exact Nat.one_pos
  | cons b bs ih =>
    have hb : b.toNat < 256 := b.isLt
    rw [List.length_cons, Nat.pow_succ]
    unfold leNat
    omega

section Signals

variable {s : State} {id : Nat} {r : Request} {fn a m : Nat} {v : Word} {held : Bool}

/-- A range that is not poisoned lies in no lost region. -/
theorem lostAt_of_devPoison {n : Nat} (h : devPoison s a n = none) : lostAt s a = false := by
  unfold devPoison at h
  split at h
  · cases h
  · next hl => exact Bool.eq_false_iff.mpr hl

/-- What a read finds at an address of this device that is in no lost region. -/
theorem devRead_eq {n : Nat} (hl : lostAt s a = false) (ha : spaceOf a < 3) : devRead s a n = s.mem.fetchBytes (memKey s a) n := by
  have hgone : peerGone s a = false := by
    unfold peerGone
    rw [beq_false_of_ne (by omega), Bool.false_and]
  unfold devRead coreRead
  rw [hl, if_neg Bool.false_ne_true, hgone, if_neg Bool.false_ne_true, if_neg (by omega)]

/-- The word that a signal leaves in place of `old`: set, added to, or ORed into (R154). -/
def signalWord (m old : Nat) (v : Word) : Nat :=
  if m = 0 then v.toNat else if m = 1 then (old + v.toNat) % 2 ^ 32 else old ||| v.toNat

/-- A 32-bit atomic operation that stores writes its new value at its target. -/
theorem devAtomic_eq {x : Nat} {new : Word} (hp : devPoison s a 4 = none) (ha : spaceOf a < 3) (hm : m ≠ 1)
    (hnew : atomic32 m (BitVec.ofNat 32 (leNat (s.mem.fetchBytes (memKey s a) 4))) (BitVec.ofNat 32 x) 0 = some new) :
    (devAtomic s fn a m x 0).2 = coreWrite s fn a (leBytes 4 new.toNat) := by
  have hl := lostAt_of_devPoison hp
  have hbytes : atomicBytes m = 4 := if_neg hm
  have hstore : atomicStore m (leNat (s.mem.fetchBytes (memKey s a) 4)) x 0 = some (leBytes 4 new.toNat) := by
    unfold atomicStore
    rw [if_neg hm]
    exact congrArg (Option.map _) hnew
  unfold devAtomic
  dsimp only
  rw [hbytes, hp, devRead_eq hl ha]
  dsimp only
  rw [hstore]
  dsimp only
  unfold devWrite
  rw [hl, if_neg Bool.false_ne_true]

/-- A signal at a clean word of this device writes the word it makes of it. -/
theorem signalAt_eq (hp : devPoison s a 4 = none) (ha : spaceOf a < 3) : signalAt s fn a m v =
    coreWrite s fn a (leBytes 4 (signalWord m (leNat (s.mem.fetchBytes (memKey s a) 4)) v)) := by
  have hold : leNat (s.mem.fetchBytes (memKey s a) 4) < 2 ^ 32 := by
    have h := leNat_lt (s.mem.fetchBytes (memKey s a) 4)
    rwa [show (s.mem.fetchBytes (memKey s a) 4).length = 4 by simp [Memory.fetchBytes]] at h
  match m with
  | 0 =>
    unfold signalAt devWrite
    rw [lostAt_of_devPoison hp]
    rfl
  | 1 =>
    refine (devAtomic_eq hp ha Nat.zero_ne_one rfl).trans ?_
    rw [BitVec.toNat_add, BitVec.toNat_ofNat, BitVec.toNat_ofNat, ← Nat.add_mod]
    rfl
  | n + 2 =>
    refine (devAtomic_eq hp ha (by decide) rfl).trans ?_
    rw [BitVec.toNat_or, BitVec.toNat_ofNat, BitVec.toNat_ofNat, Nat.mod_eq_of_lt hold, Nat.mod_eq_of_lt v.isLt]
    rfl

/-- A signal at a target that is there is performed there. -/
theorem exec_signalPerform (hf : findRequest s id = some r) (hk : r.kind = .signal m v held) (hm : mayPerform s r = true)
    (ht : targetFailed s r = false) (hw : strayWrite s r = false) (ha : spaceOf r.devAddr < 3) : exec (.signalPerform id) s =
      .next (performed (signalWakes (signalAt (countRequest s r) (ctxOf s r.ctx).fn r.devAddr m v) r) r [] none) := by
  change execSignalPerform id s = _
  unfold execSignalPerform
  rw [hf]
  dsimp only
  rw [hk]
  dsimp only
  rw [if_neg (by simp [hm]), if_neg (by simp [ht]), if_neg (by omega), if_neg (by omega), if_neg (by simp [hw])]

end Signals

end Sys2Proof.Machine
end

section
open Sys2Proof Sys2Proof.Machine

/-- Settles O31: on a state in which only activity has been counted the signal writes the word it makes; the wakes of its watchers and
what is judged leave memory and the request alone. -/
theorem signalIsPerformed : Obligations.SignalIsPerformed := by
  unfold Obligations.SignalIsPerformed
  intro s id r m v held hf hk hm ht hw hspace hp old new
  have ha : spaceOf r.devAddr < 3 := by omega
  obtain ⟨act, hact⟩ := countRequest_onlyActivity s r
  have hwrite : signalAt (countRequest s r) (ctxOf s r.ctx).fn r.devAddr m v =
      coreWrite { s with activity := act } (ctxOf s r.ctx).fn r.devAddr (leBytes 4 new) := by
    rw [hact]
    exact signalAt_eq (s := { s with activity := act }) hp ha
  have hexec := exec_signalPerform hf hk hm ht hw ha
  rw [hwrite] at hexec
  obtain ⟨hmem, -, hreq⟩ := coreWrite_stores (s := { s with activity := act }) (fn := (ctxOf s r.ctx).fn) (bs := leBytes 4 new) ha
    (List.cons_ne_nil _ _)
  have hfound : findRequest (signalWakes (coreWrite { s with activity := act } (ctxOf s r.ctx).fn r.devAddr (leBytes 4 new)) r) id =
      some r := (congrArg (List.find? _) hreq).trans hf
  obtain ⟨pmem, -, -, q, hq, hstage, -⟩ := performed_spec hfound [] none
  exact ⟨_, hexec, pmem.trans hmem, q, hq, hstage⟩

end

section
/-! SUPPORT. The task unit with no thread waiting in TAKE and none served at this instant (R161, R163 to R166): a task word goes to the
end of its list, and a thread that takes is given the first word of its list or waits for one. -/

namespace Sys2Proof.Machine

open Sys2Proof

/-! ### Pairs and places of a thread -/

/-- A pair is read back as it was written (R120, R146). -/
@[simp] theorem Thread.rdPair_wrPair (th : Thread) (r : Fin 32) (v : DWord) : (th.wrPair r v).rdPair r = v := by
  have hne : (r + 1).val ≠ r.val := by
    have h : r.val < 32 := r.isLt
    rw [Fin.val_add]
    change (r.val + 1) % 32 ≠ r.val
    omega
  have hhigh : (th.wrPair r v).s[r + 1] = (v >>> 32).setWidth 32 := Vector.getElem_set_self _
  have hlow : (th.wrPair r v).s[r] = v.setWidth 32 :=
    (Vector.getElem_set_ne (r + 1).isLt r.isLt hne).trans (Vector.getElem_set_self r.isLt)
  unfold Thread.rdPair
  rw [hhigh, hlow]
  ext i hi
  rw [BitVec.getElem_append]
  split
  · rw [BitVec.getElem_setWidth, BitVec.getLsbD_eq_getElem hi]
  · next h =>
    rw [BitVec.getElem_setWidth, BitVec.getLsbD_ushiftRight, Nat.add_sub_cancel' (by omega), BitVec.getLsbD_eq_getElem hi]

/-- A thread that goes on to a next word, or does not go on, stands where it is. -/
theorem settle_standsAt {s : State} {t : ThreadId} {th : Thread} (h : threadOf s t = some th)
    (hp : th.run = .ready → th.pc < codeWords (ctxOf s t.ctx)) :
    settle (standsAt s t) t = setThread s t { th with readyAt := now s } := by
  by_cases hr : th.run = .ready
  · rw [standsAt_eq h]
    exact settle_eq (mget?_mset_same _ _ _) (hp hr)
  · exact settle_standsAt_of_not_ready h hr

section Regions

variable {s : State} {L ctx l cell e : Nat}

theorem setRegion_setRegion (x y : LogRegion) : setRegion (setRegion s L x) L y = setRegion s L y :=
  congrArg (fun m => ({ s with logs := m } : State)) (mset_mset _ _ _ _)

theorem modRegion_setRegion (x : LogRegion) (f : LogRegion → LogRegion) :
    modRegion (setRegion s L x) L f = setRegion s L (f x) := by
  unfold modRegion
  rw [regionOf_setRegion, setRegion_setRegion]

@[simp] theorem readyTasks_mset (R : LogRegion) (l' : List ReadyTask) :
    readyTasks { R with ready := mset R.ready (ctx, l) l' } ctx l = l' := mget_mset_same _ _ _ _

/-! ### A task word is placed (R163) -/

/-- Nothing is taken back where nothing has been handed out at this instant. -/
theorem recallTasks_eq (hh : ∀ h ∈ (regionOf s L).handed, h.at_ ≠ instant s) : recallTasks s L ctx l = setRegion s L (regionOf s L) := by
  have hnone : ((regionOf s L).handed.filter fun h => h.taker.t.ctx == ctx && h.taker.list == l && h.fresh s) = [] := by
    refine List.filter_eq_nil_iff.mpr fun h hm => ?_
    have hold : h.fresh s = false := by
      unfold Handed.fresh
      rw [beq_false_of_ne (hh h hm), Bool.false_and]
    simp [hold]
  unfold recallTasks modRegion
  dsimp only
  rw [hnone]
  simp

/-- A task word that is later than all of a list goes to its end. -/
theorem insertTask_last {x : ReadyTask} {r : List ReadyTask} (h : ∀ q ∈ r, q.at_ < x.at_) : insertTask x r = r ++ [x] := by
  have hafter : ∀ q ∈ r, (!x.precedes q) = true := fun q hq => by
    unfold ReadyTask.precedes
    rw [beq_false_of_ne (Nat.ne_of_gt (h q hq)), Bool.false_and, Bool.not_false]
  unfold insertTask
  rw [List.takeWhile_eq_self_iff.mpr hafter, List.dropWhile_eq_nil_iff.mpr hafter]

/-- A task word that no thread takes goes to the end of its list, and nothing else changes. -/
theorem placeTask_last {x : ReadyTask} (ht : (regionOf s L).takers = []) (hh : ∀ h ∈ (regionOf s L).handed, h.at_ ≠ instant s)
    (hl : ∀ q ∈ readyTasks (regionOf s L) ctx (taskList x.task), q.at_ < x.at_) :
    placeTask s L ctx x = setRegion s L { regionOf s L with
      ready := mset (regionOf s L).ready (ctx, taskList x.task)
        (readyTasks (regionOf s L) ctx (taskList x.task) ++ [x]) } := by
  unfold placeTask serveList
  dsimp only
  rw [recallTasks_eq hh, modRegion_setRegion, regionOf_setRegion, insertTask_last hl, ht]
  rfl

/-- The match test of an entry that is not armed fires nothing (R160). -/
theorem matchTest_of_not_armed (h : (entryOf s L cell e).armed = false) : matchTest s ctx L cell e = s := by
  have hc : (entryOf s L cell e).complete = false := by unfold MatchEntry.complete; rw [h, Bool.false_and]
  unfold matchTest
  dsimp only
  rw [hc, if_neg fun hn => Bool.false_ne_true hn.2]

/-- The only firing that waits is placed when there is room (R161). -/
theorem placeFiring_only {f : Firing} {w : DWord} (hf : (regionOf s L).firings = [f]) (hroom : readyCount (regionOf s L) < 16384)
    (ho : blockOwner s L (f.cell / 8) = some ctx) (hw : (entryOf s L f.cell f.entry).waiting = some w)
    (ha : (entryOf s L f.cell f.entry).armed = false) (ht : (regionOf s L).takers = [])
    (hh : ∀ h ∈ (regionOf s L).handed, h.at_ ≠ instant s)
    (hl : ∀ q ∈ readyTasks (regionOf s L) ctx (taskList w), q.at_ < now s) :
    placeFiring s L = setRegion s L { regionOf s L with
      firings := []
      entries := mset (regionOf s L).entries (f.cell, f.entry) { entryOf s L f.cell f.entry with waiting := none }
      ready := mset (regionOf s L).ready (ctx, taskList w) (readyTasks (regionOf s L) ctx (taskList w) ++
        [{ task := w, at_ := now s, delayed := false, cell := f.cell, entry := f.entry }]) } := by
  have hready : setEntry (modRegion s L fun R => { R with firings := [] }) L f.cell f.entry
      { entryOf s L f.cell f.entry with waiting := none } = setRegion s L { regionOf s L with
        firings := []
        entries := mset (regionOf s L).entries (f.cell, f.entry) { entryOf s L f.cell f.entry with waiting := none } } :=
    modRegion_setRegion _ _
  unfold placeFiring
  rw [hf]
  dsimp only
  rw [if_pos hroom, ho, hw]
  dsimp only
  rw [hready, placeTask_last (by rw [regionOf_setRegion]; exact ht) (by rw [regionOf_setRegion]; exact hh)
    (by rw [regionOf_setRegion]; exact hl), regionOf_setRegion, setRegion_setRegion]
  refine matchTest_of_not_armed ?_
  unfold entryOf
  rw [regionOf_setRegion, mget_mset_same]
  exact ha

/-- The only task of a delay list moves at a tick at which it is due, when there is room and no firing waits (R166). -/
theorem moveDue_only {d : Delayed} {boundary : Nat} (hd : (regionOf s L).delay = [d]) (hdue : d.due ≤ boundary)
    (hp : (ctxOf s d.ctx).state ≠ .paused) (hf : (regionOf s L).firings = []) (hroom : readyCount (regionOf s L) < 16384)
    (ht : (regionOf s L).takers = []) (hh : ∀ h ∈ (regionOf s L).handed, h.at_ ≠ instant s)
    (hl : ∀ q ∈ readyTasks (regionOf s L) d.ctx (taskList d.task), q.at_ < now s) :
    moveDue s L boundary (regionOf s L).delay.length = setRegion s L { regionOf s L with
      delay := []
      ready := mset (regionOf s L).ready (d.ctx, taskList d.task) (readyTasks (regionOf s L) d.ctx (taskList d.task) ++
        [{ task := d.task, at_ := now s, delayed := true, cell := 0, entry := 0 }]) } := by
  have hfirst : earliest (fun d => decide (d.due ≤ boundary) && (ctxOf s d.ctx).state != .paused) (regionOf s L).delay =
      some d := by
    rw [hd]
    exact if_pos (by simp [hdue, hp])
  have hrest : (regionOf s L).delay.erase d = [] := by rw [hd]; exact List.erase_cons_head d []
  rw [show (regionOf s L).delay.length = 1 by rw [hd]; rfl]
  unfold moveDue
  dsimp only
  rw [hfirst]
  dsimp only
  rw [if_pos ⟨hroom, hf⟩]
  have hmoved : modRegion s L (fun R => { R with delay := R.delay.erase d }) = setRegion s L { regionOf s L with delay := [] } := by
    unfold modRegion
    beta_reduce
    rw [hrest]
  unfold moveDue
  rw [hmoved, placeTask_last (by rw [regionOf_setRegion]; exact ht) (by rw [regionOf_setRegion]; exact hh)
    (by rw [regionOf_setRegion]; exact hl), regionOf_setRegion, setRegion_setRegion]
  rfl

end Regions

/-! ### TAKE (R164, R165) -/

section Takes

variable {s : State} {t : ThreadId} {th : Thread} {o : IArgs} {L : Nat}

theorem modThread_eq_setThread {f : Thread → Thread} (h : threadOf s t = some th) : modThread s t f = setThread s t (f th) :=
  modThread_eq h

theorem setThread_setThread (x y : Thread) : setThread (setThread s t x) t y = setThread s t y :=
  congrArg (fun m => ({ s with threads := m } : State)) (mset_mset _ _ _ _)

theorem setThread_setRegion (x : Thread) (R : LogRegion) : setThread (setRegion s L R) t x = setRegion (setThread s t x) L R := rfl

theorem regionOf_setThread (x : Thread) : regionOf (setThread s t x) L = regionOf s L := rfl

/-- A thread that begins to wait in TAKE. -/
def newTaker (s : State) (t : ThreadId) (o : IArgs) : Taker := { t := t, list := o.minor.val, dst := o.dst, since := now s }

/-- A thread as it waits in TAKE. -/
def Thread.taking (th : Thread) (o : IArgs) : Thread := { th with run := .taking o.minor.val o.dst }

/-- The state in which the thread waits in TAKE as the only taker of its region. -/
def takerStands (s : State) (t : ThreadId) (th : Thread) (o : IArgs) (L : Nat) : State :=
  setRegion (setThread s t (th.taking o)) L { regionOf s L with takers := [newTaker s t o] }

theorem threadOf_takerStands : threadOf (takerStands s t th o L) t = some (th.taking o) := threadOf_setThread

theorem regionOf_takerStands : regionOf (takerStands s t th o L) L = { regionOf s L with takers := [newTaker s t o] } :=
  regionOf_setRegion

/-- A thread that holds no flow, with no taker before it, waits alone before it is served. -/
theorem takeTask_alone (h : threadOf s t = some th) (hL : threadRegion s t = L) (ht : (regionOf s L).takers = [])
    (hf : (regionOf s L).flows = []) (hh : ∀ h ∈ (regionOf s L).handed, h.at_ ≠ instant s) :
    takeTask t o s = serveTakers (takerStands s t th o L) L t.ctx o.minor.val 1 := by
  have hrelease : releaseFlows s L t.ctx (fun f => f.holder == t) = s := by
    unfold releaseFlows
    rw [hf]
    rfl
  have hrecall : recallTasks (setThread s t (th.taking o)) L t.ctx o.minor.val =
      setRegion (setThread s t (th.taking o)) L (regionOf s L) := recallTasks_eq hh
  unfold takeTask
  dsimp only
  rw [hL, hrelease, modThread_eq_setThread h]
  change serveList (modRegion (recallTasks (setThread s t (th.taking o)) L t.ctx o.minor.val) L _) L t.ctx o.minor.val = _
  unfold serveList
  rw [hrecall, modRegion_setRegion, regionOf_setRegion, ht]
  rfl

/-- With an empty list every taker goes on waiting. -/
theorem serveTakers_empty {ctx l n : Nat} (h : readyTasks (regionOf s L) ctx l = []) : serveTakers s L ctx l n = s := by
  cases n with
  | zero => rfl
  | succ n =>
    unfold serveTakers
    rw [h]
    unfold firstEligible
    split
    · rfl
    · split
      · next hn => cases hn
      · rfl

/-- The only taker is given the first task word of its list when no flow is in service. -/
theorem serveTakers_only {x : ReadyTask} {rest : List ReadyTask} (hc : ctxRuns s t.ctx = true) (hf : (regionOf s L).flows = [])
    (hr : readyTasks (regionOf s L) t.ctx o.minor.val = x :: rest) :
    serveTakers (takerStands s t th o L) L t.ctx o.minor.val 1 =
      giveTask (modRegion (takerStands s t th o L) L fun R => { R with ready := mset R.ready (t.ctx, o.minor.val) rest }) L
        (newTaker s t o) x := by
  have hrun : ctxRuns (takerStands s t th o L) t.ctx = true := hc
  have hwaits : takerWaits (takerStands s t th o L) (newTaker s t o) = true := by
    unfold takerWaits
    rw [show threadOf (takerStands s t th o L) (newTaker s t o).t = _ from threadOf_takerStands]
    exact beq_self_eq_true _
  have hfind : (regionOf (takerStands s t th o L) L).takers.find?
      (fun k => k.t.ctx == t.ctx && k.list == o.minor.val && takerWaits (takerStands s t th o L) k) = some (newTaker s t o) := by
    rw [regionOf_takerStands, List.find?_cons_of_pos]
    rw [hwaits]
    simp [newTaker]
  have hfirst : firstEligible (regionOf (takerStands s t th o L) L) t.ctx
      (readyTasks (regionOf (takerStands s t th o L) L) t.ctx o.minor.val) = some (x, rest) := by
    rw [regionOf_takerStands]
    change firstEligible _ _ (readyTasks (regionOf s L) t.ctx o.minor.val) = _
    rw [hr]
    refine if_pos (.inr ?_)
    unfold flowBusy
    rw [hf]
    rfl
  unfold serveTakers
  rw [hrun, hfind, hfirst]
  rfl

/-- A thread as it runs on with a task word. -/
def Thread.given (th : Thread) (dst : Fin 32) (w : DWord) (at_ : Nat) : Thread :=
  { th.wrPair dst w with run := .ready, readyAt := at_ }

/-- A thread that is given a task word runs on with it, and no longer waits; the word's flow goes into service. -/
theorem giveTask_eq {k : Taker} {x : ReadyTask} (h : threadOf s k.t = some th) (hp : th.pc < codeWords (ctxOf s k.t.ctx)) :
    ∃ handed, giveTask s L k x = setRegion (setThread s k.t (th.given k.dst x.task (now s))) L
      { regionOf s L with
        takers := (regionOf s L).takers.filter fun y => y.t ≠ k.t
        handed := handed
        flows := if taskFlow x.task = 0 then (regionOf s L).flows
          else (regionOf s L).flows ++ [{ ctx := k.t.ctx, flow := taskFlow x.task, holder := k.t }] } := by
  have he : atEnd s k.t = false := by
    unfold atEnd
    rw [h]
    exact decide_eq_false (Nat.not_le.mpr hp)
  unfold giveTask
  simp only [he, Bool.false_eq_true, or_false, if_false]
  exact ⟨_, modThread_eq h⟩

/-- The thread takes the first task word of its list, and the word's flow goes into service. -/
theorem takeTask_gives {x : ReadyTask} {rest : List ReadyTask} (h : threadOf s t = some th) (hL : threadRegion s t = L)
    (ht : (regionOf s L).takers = []) (hf : (regionOf s L).flows = []) (hh : ∀ h ∈ (regionOf s L).handed, h.at_ ≠ instant s)
    (hc : ctxRuns s t.ctx = true) (hp : th.pc < codeWords (ctxOf s t.ctx))
    (hr : readyTasks (regionOf s L) t.ctx o.minor.val = x :: rest) : ∃ handed,
    takeTask t o s = setRegion (setThread s t (th.given o.dst x.task (now s))) L
      { regionOf s L with
        ready := mset (regionOf s L).ready (t.ctx, o.minor.val) rest
        takers := [], handed := handed
        flows := if taskFlow x.task = 0 then [] else [{ ctx := t.ctx, flow := taskFlow x.task, holder := t }] } := by
  let y := modRegion (takerStands s t th o L) L fun R => { R with ready := mset R.ready (t.ctx, o.minor.val) rest }
  have hy : y = setRegion (setThread s t (th.taking o)) L
      { regionOf s L with takers := [newTaker s t o], ready := mset (regionOf s L).ready (t.ctx, o.minor.val) rest } :=
    modRegion_setRegion _ _
  have hgive := giveTask_eq (s := y) (L := L) (k := newTaker s t o) (x := x) (th := th.taking o) threadOf_setThread hp
  obtain ⟨handed, hgive⟩ := hgive
  refine ⟨handed, (takeTask_alone h hL ht hf hh).trans ((serveTakers_only hc hf hr).trans (hgive.trans ?_))⟩
  rw [hy, regionOf_setRegion, setThread_setRegion, setRegion_setRegion]
  dsimp only
  rw [hf, List.filter_cons_of_neg (by simp), List.filter_nil]
  exact congrArg (setRegion · L _) (setThread_setThread _ _)

end Takes

end Sys2Proof.Machine
end

section
/-! SUPPORT. TAKE as a word that its thread executes (R164). -/

namespace Sys2Proof.Machine

open Sys2Proof

section TakeWord

variable {s : State} {t : ThreadId} {k : Common} {o : IArgs}

theorem Counted.ctxRuns_eq {z : State} (h : Counted s z t) (c : Nat) : ctxRuns z c = ctxRuns s c := by
  obtain ⟨l, hl⟩ := h.ctxOf_eq c
  unfold ctxRuns
  rw [hl]

/-- A thread that executes a word is in a running context. -/
theorem Executes.ctxRuns {c : Instr} (h : Executes c t k s) : ctxRuns s t.ctx = true := by
  have hmay := canIssue_of_issues h.may
  unfold canIssue at hmay
  rw [h.thread.1] at hmay
  simp only [Bool.and_eq_true] at hmay
  exact hmay.1.1.2

/-- The thread has stepped past its word and goes on in a running context; time, memory and the regions are as they were. -/
structure StepsPast (s : State) (t : ThreadId) (y : State) : Prop where
  thread : threadOf y t = some (theThread s t).advance
  place : threadRegion y t = threadRegion s t
  clock : y.clock = s.clock
  mem : y.mem = s.mem
  logs : y.logs = s.logs
  runs : Machine.ctxRuns y t.ctx = true
  inside : (theThread s t).advance.pc < codeWords (ctxOf y t.ctx)

/-- TAKE takes for its thread once that has stepped past the word. -/
theorem exec_take (h : Executes (.take t k o) t k s) :
    ∃ y, StepsPast s t y ∧ exec (.take t k o) s = .next (settle (standsAt (takeTask t o y) t) t) := by
  have hz := countArrival_counted s t k.tag
  have hstep : stepPc t (countArrival s t k.tag) = setThread (countArrival s t k.tag) t (theThread s t).advance :=
    modThread_eq_setThread ((hz.threadOf_eq t).trans h.thread.1)
  refine ⟨stepPc t (countArrival s t k.tag), ?_,
    issueWord_guard (eff := fun s => takeTask t o (stepPc t s)) (off := stepPc t) h.passed.1 h.may h.fresh h.noBreak h.guard⟩
  rw [hstep]
  exact
    { thread := threadOf_setThread
      place := hz.threadRegion_eq t
      clock := hz.clock_eq
      mem := hz.mem_eq
      logs := hz.logs_eq
      runs := (hz.ctxRuns_eq _).trans h.ctxRuns
      inside := (codeWords_counted hz).symm ▸ h.inside }

end TakeWord

end Sys2Proof.Machine
end

section
open Sys2Proof Sys2Proof.Machine

/-- Settles O27: a TAKE makes its thread the only taker, which is given the first word of its list or waits on; a firing and a due task
are placed at the end of a list that no thread takes from. -/
theorem takesAndWaitingTasks : Obligations.TakesAndWaitingTasks := by
  unfold Obligations.TakesAndWaitingTasks
  refine ⟨?take, fun s L ctx f w hf hroom ho hw ha ht hh hl => ?firing, fun s L d hd hdue hp hf hroom ht hh hl => ?delay⟩
  case take =>
    intro t k o s h L htakers hflows hhanded
    obtain ⟨y, hy, hexec⟩ := exec_take h
    have hregion : regionOf y L = regionOf s L := by unfold regionOf; rw [hy.logs]
    have hinstant : instant y = instant s := by unfold instant; rw [hy.clock]
    have hnow : now y = now s := congrArg Clock.time hy.clock
    rw [← hregion] at htakers hflows hhanded ⊢
    rw [← hinstant] at hhanded
    refine ⟨fun w rest hlist => ?gives, fun hlist => ?waits⟩
    case gives =>
      obtain ⟨x, xs, hready, rfl, rfl⟩ := List.map_eq_cons_iff.mp hlist
      obtain ⟨handed, hgives⟩ := takeTask_gives hy.thread hy.place htakers hflows hhanded hy.runs hy.inside hready
      have hthread : threadOf (takeTask t o y) t = some ((theThread s t).advance.given o.dst x.task (now y)) := by
        rw [hgives]; exact threadOf_setThread
      rw [settle_standsAt hthread fun _ => by rw [hgives]; exact hy.inside, hgives] at hexec
      refine ⟨_, hexec, ?_⟩
      beta_reduce
      rw [theThread_setThread, regionOf_setThread, regionOf_setRegion]
      exact ⟨rfl, Thread.rdPair_wrPair _ _ _, rfl, congrArg (List.map _) (readyTasks_mset _ _), rfl, rfl, hy.mem⟩
    case waits =>
      have hready : readyTasks (regionOf (takerStands y t (theThread s t).advance o L) L) t.ctx o.minor.val = [] := by
        rw [regionOf_takerStands]
        exact List.map_eq_nil_iff.mp hlist
      rw [takeTask_alone hy.thread hy.place htakers hflows hhanded, serveTakers_empty hready,
        settle_standsAt threadOf_takerStands RunState.noConfusion] at hexec
      refine ⟨_, hexec, ?_⟩
      beta_reduce
      rw [theThread_setThread, regionOf_setThread, regionOf_takerStands, ← hnow]
      exact ⟨rfl, rfl, rfl, hy.mem⟩
  case firing =>
    refine ⟨_, congrArg Host.Outcome.next (placeFiring_only hf hroom ho hw ha ht hh hl), ?_⟩
    beta_reduce
    unfold entryOf readyList
    rw [regionOf_setRegion]
    refine ⟨rfl, congrArg MatchEntry.waiting (mget_mset_same _ _ _ _), ?_, rfl⟩
    exact (congrArg (List.map _) (readyTasks_mset _ _)).trans List.map_append
  case delay =>
    refine ⟨_, congrArg Host.Outcome.next (moveDue_only hd hdue hp hf hroom ht hh hl), ?_⟩
    beta_reduce
    unfold readyList
    rw [regionOf_setRegion]
    exact ⟨rfl, (congrArg (List.map _) (readyTasks_mset _ _)).trans List.map_append, rfl⟩

end

section
/-! SUPPORT. A state that refutes the statement about tokens. A request of a feeder that leaves lets the feeders of its operation issue
their next one (R237), under the next number to be given. -/

namespace Sys2Proof.Machine

open Sys2Proof

/-- A read of feeder A of spar 0. -/
def feederRead : FeedReq := { side := 0, spar := 0, pair := 0, pos := 0, off := 0, addr := 0, bytes := 0 }

/-- An operation that has request 0 under way at its feeder A, and one more to issue there. -/
def feedingOp : TensorOp := { (default : TensorOp) with id := 0, feeds := [feederRead], reading := [(0, feederRead)] }

/-- An accepted token in the name of that feeder, with no promise. -/
def feederToken : Request :=
  { (default : Request) with id := 0, origin := .feeder 0 fullThread 0 0 0 0, kind := .token 0 0, stage := .accepted, phys := 0xFF }

/-- The state after reset with the operation and the token, where the number of the token is also the next to be given. -/
def numberTwice : State := { State.reset with requests := [feederToken], nextReq := 0, ops := [feedingOp], nextOp := 1 }

theorem mayPerform_feederToken : mayPerform numberTwice feederToken = true := by decide

theorem targetFailed_feederToken : targetFailed numberTwice feederToken = false := by decide

/-- The token leaves, and the feeder's next request takes its number. -/
theorem findRequest_feederToken_left :
    (findRequest (finishRequest (performToken numberTwice feederToken.ctx 0 0 none) feederToken) 0).isSome = true := by rfl

end Sys2Proof.Machine

open Sys2Proof Sys2Proof.Machine

/-- Refutes O32: on `numberTwice` the token that is performed leaves, but its number is still found: the feeder in whose name it stands
issues its next request, which takes that number. The state is not `Sound`, and that is the premise which the statement lacks: with it
a new request never takes the number of a listed one. (No step of the model puts a token in a feeder's name either.) -/
theorem not_tokens : ¬ Obligations.Tokens := by
  intro h
  obtain ⟨hperforms, -⟩ := h
  obtain ⟨u, -, hu, hgone, -⟩ := hperforms numberTwice 0 feederToken 0 0 rfl rfl mayPerform_feederToken
    targetFailed_feederToken rfl rfl (.inl rfl)
  have hleft := findRequest_feederToken_left
  rw [← hu, hgone] at hleft
  cases hleft
end

section
/-! SUPPORT. What leaves the work of the gather engines alone: the regions are as they were in some part of theirs, the rings of every
context and the transfers are as they were, while units read, write, serve rows, send batches and report (R95, R167, R211, R212). -/

namespace Sys2Proof.Machine

open Sys2Proof

/-- No region has changed in its part `f`, no context in what its rings have come to, and no transfer. A watched word that is written
marks a gate, which is no part of `f` (R149). -/
structure KeepsWork {α : Type} (f : LogRegion → α) (s u : State) : Prop where
  gates : ∀ R g, f { R with gates := g } = f R
  part : ∀ L, f (regionOf u L) = f (regionOf s L)
  rings : ∀ c, (ctxOf u c).regions = (ctxOf s c).regions
  transfers : u.transfers = s.transfers

namespace KeepsWork

variable {α : Type} {f : LogRegion → α} {z s u : State}

theorem refl (s : State) (hf : ∀ R g, f { R with gates := g } = f R := by exact fun _ _ => rfl) : KeepsWork f s s :=
  ⟨hf, fun _ => rfl, fun _ => rfl, rfl⟩

theorem trans (a : KeepsWork f z s) (b : KeepsWork f s u) : KeepsWork f z u :=
  ⟨a.gates, fun L => (b.part L).trans (a.part L), fun c => (b.rings c).trans (a.rings c), b.transfers.trans a.transfers⟩

/-- An update of other fields of the state. -/
theorem other (h : KeepsWork f z s) (hl : u.logs = s.logs) (hx : u.contexts = s.contexts) (ht : u.transfers = s.transfers) :
    KeepsWork f z u :=
  h.trans ⟨h.gates, fun L => by unfold regionOf; rw [hl], fun c => by unfold ctxOf; rw [hx], ht⟩

theorem ite {a b : State} {c : Prop} [Decidable c] (ha : KeepsWork f z a) (hb : KeepsWork f z b) :
    KeepsWork f z (if c then a else b) := by
  split
  · exact ha
  · exact hb

theorem foldl {β : Type} {g : State → β → State} {l : List β} (hg : ∀ s a, KeepsWork f z s → KeepsWork f z (g s a))
    (h : KeepsWork f z s) : KeepsWork f z (l.foldl g s) := foldl_keeps (P := KeepsWork f z) hg l h

theorem modRegion {L : Nat} {g : LogRegion → LogRegion} (h : KeepsWork f z s)
    (hg : f (g (regionOf s L)) = f (regionOf s L)) : KeepsWork f z (modRegion s L g) := by
  refine h.trans ⟨h.gates, fun M => ?_, fun _ => rfl, rfl⟩
  by_cases hM : M = L
  · subst hM; rw [regionOf_modRegion, hg]
  · rw [regionOf_modRegion_other hM]

theorem modCtx {c : Nat} {g : Context → Context} (h : KeepsWork f z s)
    (hg : ∀ x, (g x).regions = x.regions := by exact fun _ => rfl) : KeepsWork f z (modCtx s c g) := by
  refine h.trans ⟨h.gates, fun _ => rfl, fun d => ?_, rfl⟩
  by_cases hd : d = c
  · subst hd; rw [ctxOf_modCtx, hg]
  · rw [ctxOf_modCtx_other hd]

/-! ### Credits, links and activity -/

theorem sends (h : KeepsWork f z s) (hs : OnlySends s u) : KeepsWork f z u := by
  obtain ⟨_, _, _, _, rfl⟩ := hs
  exact h.other rfl rfl rfl

theorem activity (h : KeepsWork f z s) (ha : OnlyActivity s u) : KeepsWork f z u := by
  obtain ⟨_, rfl⟩ := ha
  exact h.other rfl rfl rfl

theorem countAccess {own a n : Nat} {c : Option Nat} (h : KeepsWork f z s) : KeepsWork f z (countAccess s own c a n) :=
  h.activity (OnlyActivity.refl s).countAccess

theorem giveBack {res : Resource} {n : Nat} (h : KeepsWork f z s) : KeepsWork f z (giveBack s res n) := by
  obtain ⟨d, l, he⟩ := giveBack_eq s res n
  exact he ▸ h.other rfl rfl rfl

theorem returnCredits {l : List (Resource × Nat)} (h : KeepsWork f z s) : KeepsWork f z (returnCredits s l) :=
  foldl (fun _ _ h => ite h h.giveBack) h

/-! ### Events and promises -/

theorem postEvent {fn code ctx detail word : Nat} (h : KeepsWork f z s) : KeepsWork f z (postEvent s fn code ctx detail word) := by
  obtain ⟨r, n, he⟩ := postEvent_eq s fn code ctx detail word
  exact he ▸ h.other rfl rfl rfl

theorem limited {key : Nat × Nat} {g : State → State} (h : KeepsWork f z s) (hg : ∀ u, KeepsWork f z u → KeepsWork f z (g u)) :
    KeepsWork f z (limited s key g) := by
  rcases limited_cases s key g with he | he
  · rw [he]; exact h
  · rw [he]; exact hg _ (h.other rfl rfl rfl)

theorem promiseMiss {phys c row : Nat} (h : KeepsWork f z s) : KeepsWork f z (promiseMiss s phys c row) := by
  unfold Machine.promiseMiss
  refine limited (limited (h.other rfl rfl rfl) fun _ hu => ?_) fun _ hu => hu.postEvent
  exact hu.other rfl rfl rfl

theorem windowFault {c ca : Nat} (h : KeepsWork f z s) : KeepsWork f z (windowFault s c ca) :=
  have hm : KeepsWork f z (Machine.modCtx s c fun x => { x with winFaults := satAdd 0xFFFF x.winFaults 1 }) := h.modCtx
  ite hm hm.modCtx.postEvent

theorem poisonEvent {c a : Nat} (h : KeepsWork f z s) : KeepsWork f z (poisonEvent s c a) := limited h fun _ hu => hu.postEvent

theorem peerLossEvent {c dev : Nat} (h : KeepsWork f z s) : KeepsWork f z (peerLossEvent s c dev) := by
  unfold Machine.peerLossEvent
  dsimp only
  split
  · exact h
  · exact postEvent (h.other rfl rfl rfl)

theorem releaseVersions {t : Nat} (h : KeepsWork f z s) : KeepsWork f z (releaseVersions s t) :=
  foldl (fun _ _ hv => hv.postEvent) (h.other rfl rfl rfl)

/-! ### Reads and writes of a unit -/

theorem unitReads {c : Nat} {o : Origin} {l : List (Nat × Nat)} (h : KeepsWork f z s) : KeepsWork f z (unitReads s c o l) := by
  have hmark {v : State} {ca n : Nat} (hv : KeepsWork f z v) : KeepsWork f z (winReadMark v c none ca n) := by
    unfold winReadMark
    split
    · next a _ =>
      have hh : KeepsWork f z (if spaceOf a = 5 then hostRequest v (ctxOf v c).fn false a n else v) :=
        ite (hv.other rfl rfl rfl) hv
      dsimp only
      split
      · exact ite hh.poisonEvent.peerLossEvent hh.poisonEvent
      · exact hh
    · exact hv.windowFault
  refine foldl (fun v x hv => hmark ?_) h
  split
  · exact hv.countAccess.sends (OnlySends.refl _).askPeer
  · exact hv

theorem updatePage {page : Nat} (h : KeepsWork f z s) : KeepsWork f z (updatePage s page) := by
  unfold Machine.updatePage
  dsimp only
  refine ite h (ite (postEvent ?_) ?_)
  all_goals
    split
    · exact ite (postEvent (h.other rfl rfl rfl)) (h.other rfl rfl rfl)
    · exact h.other rfl rfl rfl

theorem markWritten {a n : Nat} (h : KeepsWork f z s) : KeepsWork f z (markWritten s a n) := by
  refine h.trans ⟨h.gates, fun L => ?_, fun _ => rfl, rfl⟩
  have hL : regionOf (Machine.markWritten s a n) L = _ := mget_map (d := LogRegion.zero)
    (f := fun R : LogRegion => { R with gates := R.gates.map fun g => (g.1, g.2.mark a n) }) rfl s.logs L
  rw [hL]
  exact h.gates _ _

theorem devWrite {fn a : Nat} {bs : List Byte} (h : KeepsWork f z s) : KeepsWork f z (devWrite s fn a bs) := by
  have hm : KeepsWork f z { s with mem := s.mem.store (memKey s a) bs } := h.other rfl rfl rfl
  exact ite h (ite h (ite (ite h (h.sends (OnlySends.refl s).sendPieces))
    (ite (foldl (fun _ _ => updatePage) hm) (ite (hm.other rfl rfl rfl) hm.markWritten))))

theorem winWrite {c ca : Nat} {bs : List Byte} (h : KeepsWork f z s) : KeepsWork f z (winWrite s c none ca bs) := by
  unfold Machine.winWrite
  split
  · exact h.devWrite
  · exact h.windowFault

theorem addRequest {r : Request} (h : KeepsWork f z s) : KeepsWork f z (addRequest s r) := h.other rfl rfl rfl

theorem remotePiece {ctx a : Nat} {o : Origin} {bs payload : List Byte} {p : Option Nat} {cr : List (Resource × Nat)}
    (h : KeepsWork f z s) : KeepsWork f z (remotePiece s ctx o a bs payload p cr) := by
  have hr (r : Request) : KeepsWork f z (countRequest (Machine.addRequest s r) r) :=
    h.addRequest.activity (countRequest_onlyActivity _ r)
  unfold Machine.remotePiece
  dsimp only
  split
  · exact (hr _).sends (OnlySends.refl _).queueOp
  · exact hr _

theorem remoteStore {ctx k : Nat} {o : Origin} : ∀ {s : State} {a : Nat} {bs : List Byte}, KeepsWork f z s →
    KeepsWork f z (remoteStore s ctx o a bs k) := by
  induction k with
  | zero => exact id
  | succ k ih => exact fun h => ite h (ih h.remotePiece)

theorem undefinedEffect {c : Nat} (h : KeepsWork f z s) : KeepsWork f z (undefinedEffect s c) := by
  have hstore (v : State) (x : Nat × Byte) (hv : KeepsWork f z v) : KeepsWork f z (undefinedStore c v x) := by
    unfold undefinedStore
    split
    · exact hv.devWrite
    · exact hv
  have hs := foldl (l := Config.undefinedStores s.freeCounter) hstore
    (h.other (u := { s with freeCounter := s.freeCounter + 1 }) rfl rfl rfl)
  exact ite (modCtx (hs.other rfl rfl rfl)) (hs.other rfl rfl rfl)

theorem unitWrite {ctx ca : Nat} {o : Origin} {bs : List Byte} (h : KeepsWork f z s) : KeepsWork f z (unitWrite s ctx o ca bs) := by
  unfold Machine.unitWrite
  split
  · exact ite (ite h.peerLossEvent h.remoteStore) (ite h.undefinedEffect h.countAccess.devWrite)
  · exact h.windowFault

/-- Work under the windows of an acceptance, which the registers do not keep (R94). -/
theorem underWindows {c : Nat} {ws : Map Nat DWord} {g : State → State} (h : KeepsWork f z s)
    (hg : ∀ u, KeepsWork f z u → KeepsWork f z (g u)) : KeepsWork f z (underWindows s c ws g) :=
  (hg (withWindows s c ws) (h.other rfl rfl rfl)).other rfl rfl rfl

/-! ### What a job reports (R167, R206) -/

theorem unitToken {ctx : Nat} {o : Origin} {w : DWord} {d : Option Nat} {j : Option JobPromise} (h : KeepsWork f z s) :
    KeepsWork f z (unitToken s ctx o w d j) := ite h h.addRequest

theorem unitSignal {ctx ca v : Nat} {o : Origin} {l : List Nat} {j : Option JobPromise} (h : KeepsWork f z s) :
    KeepsWork f z (unitSignal s ctx o ca v l j) := by
  unfold Machine.unitSignal
  refine ite h ?_
  split
  · exact h.addRequest
  · exact h.windowFault

/-- A report leaves the work alone, or ends the job at once. -/
theorem unitReport_cases {ctx done : Nat} {o : Origin} {token : DWord} {d : Option Nat} {j : Option JobPromise}
    (h : KeepsWork f z s) : KeepsWork f z (unitReport s ctx o token done d j) ∨
      ∃ v, KeepsWork f z v ∧ unitReport s ctx o token done d j = judgeJob v ctx j := by
  have hs := (h.unitToken (ctx := ctx) (o := o) (w := token) (d := d)
    (j := if done ≠ 0 ∧ (translate s ctx none .write (done / 4 * 4) 4).isSome then none else j)).unitSignal
    (ctx := ctx) (ca := done) (v := 1) (o := o) (l := if token = 0 then [] else [s.nextReq]) (j := j)
  unfold unitReport
  dsimp only
  split
  · unfold unitEnd
    split
    · exact .inl (hs.other rfl rfl rfl)
    · exact .inr ⟨_, hs, rfl⟩
  · exact .inl hs

/-- A report that judges no job leaves the work alone. -/
theorem unitReport_none {ctx done : Nat} {o : Origin} {token : DWord} {d : Option Nat} (h : KeepsWork f z s) :
    KeepsWork f z (unitReport s ctx o token done d none) := by
  rcases h.unitReport_cases (ctx := ctx) (done := done) (o := o) (token := token) (d := d) (j := none) with hr | ⟨v, hv, he⟩
  · exact hr
  · rw [he]; exact hv

end KeepsWork

end Sys2Proof.Machine
end

section
/-! SUPPORT. What owners leave of the work of gather engines: batches that are sent change no region, and rows that are served change
of a job only what it has fetched and what it counts (R207, R208, R211, R212). -/

namespace Sys2Proof.Machine

open Sys2Proof

namespace KeepsWork

/-! ### Batches that are sent -/

section

variable {α : Type} {f : LogRegion → α} {z s : State}

/-- An operation that judges no job when it is performed. -/
theorem performed {r : Request} {bs : List Byte} {poison : Option Nat} (hr : r.judge = none) (h : KeepsWork f z s) :
    KeepsWork f z (performed s r bs poison) := by
  have hjudge {v : State} (hv : KeepsWork f z v) : KeepsWork f z (judgeJob v r.ctx r.judge) := by rw [hr]; exact hv
  have hcheck {c : Prop} [Decidable c] : KeepsWork f z (if c then checkPromise s r else s) := ite (ite h.promiseMiss h) h
  exact returnCredits (other (ite hcheck (hjudge hcheck)) rfl rfl rfl)

theorem peerOp {r : Request} (h : KeepsWork f z s) : KeepsWork f z (peerOp s r) := by
  unfold Machine.peerOp
  dsimp only
  split
  · exact h
  · split <;> exact h.sends (OnlySends.refl s).queueOp

theorem devAtomic {fn a m x y : Nat} (h : KeepsWork f z s) : KeepsWork f z (devAtomic s fn a m x y).2 := by
  unfold Machine.devAtomic
  dsimp only
  split
  · exact h
  · split
    · exact h.devWrite
    · exact h

theorem arriveAdd {L : Nat} {b : OwnerBatch} {after : List Nat} (h : KeepsWork f z s) : KeepsWork f z (arriveAdd s L b after) :=
  ite h (ite h.addRequest (ite (ite h (performed rfl h.addRequest.peerOp)) h.devAtomic))

theorem poisonOut {a n : Nat} (h : KeepsWork f z s) : KeepsWork f z (poisonOut s a n) := ite (h.other rfl rfl rfl) h

theorem lostBatch {L owner : Nat} {b : OwnerBatch} (h : KeepsWork f z s) : KeepsWork f z (lostBatch s L owner b) := by
  unfold Machine.lostBatch
  dsimp only
  refine arriveAdd ?_
  split
  · refine peerLossEvent (ite (poisonEvent ?_) ?_)
    all_goals exact ite (foldl (fun _ _ hv => hv.devWrite.poisonOut) h) h
  · exact ite (foldl (fun _ _ hv => hv.devWrite.poisonOut) h) h

theorem sendBatch {L owner : Nat} {b : OwnerBatch} (h : KeepsWork f z s) : KeepsWork f z (sendBatch s L owner b) :=
  ite (h.other rfl rfl rfl) (ite h.lostBatch.giveBack (remotePiece (h.other rfl rfl rfl)))

theorem sendBatches {L : Nat} {l : List (Nat × OwnerBatch)} : ∀ {s : State}, KeepsWork f z s →
    KeepsWork f z (sendBatches L l s).1 := by
  induction l with
  | nil => exact id
  | cons x r ih =>
    intro s h
    have hask : KeepsWork f z (askInbox s L x.1) := ite h (h.sends (OnlySends.refl s).askLending)
    unfold Machine.sendBatches
    dsimp only
    split
    · exact ih (hask.sends (OnlySends.refl _).reserve).sendBatch
    · exact ih hask

end

end KeepsWork

/-! ### Rows that are served -/

/-- What of a job its acceptance has set. -/
def GatherJob.standing (j : GatherJob) : Nat × Bool × Nat := (j.tag, j.accepted, j.tAccept)

/-- How the jobs of a region's engine stand. -/
def standings (R : LogRegion) : List (Nat × Bool × Nat) := R.gatherJobs.map GatherJob.standing

/-- No job of any region stands otherwise. -/
abbrev KeepsStandings (s u : State) : Prop := KeepsWork standings s u

namespace KeepsWork

variable {z s : State}

/-- An update of one job that leaves how it stands. -/
theorem modJob {L tag : Nat} {g : GatherJob → GatherJob} (h : KeepsStandings z s) (hg : ∀ j, (g j).standing = j.standing) :
    KeepsStandings z (Machine.modRegion s L fun R =>
      { R with gatherJobs := R.gatherJobs.map fun k => if k.tag = tag then g k else k }) := by
  refine h.modRegion ?_
  unfold standings
  rw [List.map_map]
  refine List.map_congr_left fun j _ => ?_
  rw [Function.comp_apply]
  split
  · exact hg j
  · rfl

theorem servePoison {b : OwnerBatch} {v : TableVersion} {r : Nat} {p : RowPlace} (h : KeepsStandings z s) :
    KeepsStandings z (servePoison s b v r p) := by
  unfold Machine.servePoison
  split
  · exact h.poisonEvent
  · exact h

theorem noteFetched {b : OwnerBatch} {dest : Nat} {bs : List Byte} (h : KeepsStandings z s) :
    KeepsStandings z (noteFetched s b dest bs) := ite (h.modJob fun _ => rfl) h

theorem engineStore {o : Origin} {fn a : Nat} {c : Option Nat} {bs : List Byte} (h : KeepsStandings z s) :
    KeepsStandings z (engineStore s o fn c a bs) := ite (ite h h.remoteStore) h.countAccess.devWrite

theorem serveEntry {o : Origin} {L : Nat} {b : OwnerBatch} {v : TableVersion} {e : Nat × Nat} {payload : List Byte} {p : RowPlace}
    (h : KeepsStandings z s) : KeepsStandings z (serveEntry s o L b v e payload p) := by
  have hc : KeepsStandings z (countServed s L b.hdr.table e.1) := h.other rfl rfl rfl
  unfold Machine.serveEntry
  dsimp only
  split
  · exact hc.servePoison.countAccess.noteFetched.engineStore
  · exact hc.devWrite
  · exact hc.devWrite

theorem countPart {b : OwnerBatch} (h : KeepsStandings z s) : KeepsStandings z (countPart s b) := ite (h.modJob fun _ => rfl) h

theorem serveEntries {o : Origin} {L : Nat} {b : OwnerBatch} {v : TableVersion} {l : List ((Nat × Nat) × List Byte)} :
    ∀ {gone : Bool} {s : State}, KeepsStandings z s → KeepsStandings z (serveEntries o L b v l gone s).2 := by
  induction l with
  | nil => exact id
  | cons x rest ih =>
    intro gone s h
    unfold Machine.serveEntries
    dsimp only
    split
    · exact ih h.serveEntry
    · exact ih ((h.countPart.other (u := countForward (Machine.countPart s b) L b.hdr.table) rfl rfl rfl).modRegion rfl)
    · exact ih (h.countPart.other rfl rfl rfl)

theorem sendForwards {L : Nat} (h : KeepsStandings z s) : KeepsStandings z (sendForwards s L) := by
  unfold Machine.sendForwards
  exact modRegion h.sendBatches rfl

end KeepsWork

end Sys2Proof.Machine
end

section
/-! SUPPORT. Gather jobs (R203 to R212): a record that is taken or refused, a job that is accepted, and a job that finishes its data,
reports and leaves its engine. -/

namespace Sys2Proof.Machine

open Sys2Proof

section Gather

variable {s : State} {L c : Nat}

/-! ### Taking a record (R203, R205) -/

/-- The jobs of a region's engine, and the number that its next job takes. -/
def engineJobs (R : LogRegion) : List GatherJob × Nat := (R.gatherJobs, R.nextGather)

/-- No job of any engine has changed, and none has come or gone. -/
abbrev KeepsEngines (s u : State) : Prop := KeepsWork engineJobs s u

theorem gatherJobs_of_keepsEngines {u : State} (h : KeepsEngines s u) : (regionOf u L).gatherJobs = (regionOf s L).gatherJobs :=
  congrArg Prod.fst (h.part L)

theorem KeepsWork.refuseGather {α : Type} {f : LogRegion → α} {z : State} {tag : Nat} {r : GatherRec} (h : KeepsWork f z s) :
    KeepsWork f z (refuseGather s L c tag r) := (KeepsWork.ite h.unitWrite h).unitReport_none

theorem gatherNext_of_keepsWork {α : Type} {f : LogRegion → α} {u : State} (h : KeepsWork f s u) :
    (ctxRegionOf (ctxOf u c) L).gatherNext = (ctxRegionOf (ctxOf s c) L).gatherNext := by
  unfold ctxRegionOf; rw [h.rings]

/-- The number of the next job has moved on, and one job may have been added under the number. -/
def TakesOne (c : Nat) (R T : LogRegion) : Prop :=
  T.nextGather = R.nextGather + 1 ∧ (T.gatherJobs = R.gatherJobs ∨
    ∃ j, T.gatherJobs = R.gatherJobs ++ [j] ∧ j.tag = R.nextGather ∧ j.ctx = c)

theorem TakesOne.congr {R R' T T' : LogRegion} (h : TakesOne c R T) (hR : engineJobs R = engineJobs R')
    (hT : engineJobs T' = engineJobs T) : TakesOne c R' T' := by
  obtain ⟨hjobs, hnext⟩ := Prod.mk.inj hR
  obtain ⟨hjobs', hnext'⟩ := Prod.mk.inj hT
  unfold TakesOne at h ⊢
  rw [← hjobs, ← hnext, hjobs', hnext']
  exact h

/-- The record's job is listed, or refused; the rings stay. -/
theorem takeRecord_spec (next : Nat) (r : GatherRec) :
    (ctxRegionOf (ctxOf (takeRecord s L c next r) c) L).gatherNext = (ctxRegionOf (ctxOf s c) L).gatherNext ∧
      TakesOne c (regionOf s L) (regionOf (takeRecord s L c next r) L) := by
  have hreads : KeepsEngines s (unitReads s c (.gather L (regionOf s L).nextGather) (recordReads r)) :=
    (KeepsWork.refl s).unitReads
  unfold takeRecord
  dsimp only
  generalize unitReads s c (.gather L (regionOf s L).nextGather) (recordReads r) = v at hreads
  rw [← gatherNext_of_keepsWork hreads]
  split
  · refine ⟨rfl, TakesOne.congr (R := regionOf v L) ?_ (hreads.part L) rfl⟩
    rw [regionOf_modRegion, regionOf_modRegion]
    exact ⟨rfl, .inr ⟨newGatherJob v L c next r, rfl, rfl, rfl⟩⟩
  · have hrefused := (KeepsWork.refl (f := engineJobs) (modRegion v L fun R => { R with nextGather := R.nextGather + 1 })).refuseGather
      (L := L) (c := c) (tag := (regionOf s L).nextGather) (r := r)
    refine ⟨(gatherNext_of_keepsWork hrefused).trans (by rw [modRegion_ctxOf]),
      TakesOne.congr (R := regionOf v L) ?_ (hreads.part L) (hrefused.part L)⟩
    rw [regionOf_modRegion]
    exact ⟨rfl, .inl rfl⟩

/-- The state in which the engine has read the next record of a ring. -/
def recordRead (s : State) (L c next : Nat) : State :=
  unitReads s c (.gather L (regionOf s L).nextGather) [(ringRecordAddr s c L 0 next 64, 64)]

/-- The state in which the record has been counted as consumed. -/
def recordConsumed (s : State) (L c next : Nat) : State :=
  writeConsumed (modCtxRegion (recordRead s L c next) c L fun x => { x with gatherNext := (next + 1) % 2 ^ 32 }) c L 0 (next + 1)

theorem ctxRegionOf_modCtxRegion {f : CtxRegion → CtxRegion} :
    ctxRegionOf (ctxOf (modCtxRegion s c L f) c) L = f (ctxRegionOf (ctxOf s c) L) := by
  unfold modCtxRegion ctxRegionOf
  rw [ctxOf_modCtx]
  exact mget_mset_same _ _ _ _

theorem regionOf_modCtxRegion {M : Nat} {f : CtxRegion → CtxRegion} : regionOf (modCtxRegion s c L f) M = regionOf s M :=
  modCtx_regionOf

theorem KeepsWork.writeConsumed {α : Type} {f : LogRegion → α} {z : State} {k next : Nat} (h : KeepsWork f z s) :
    KeepsWork f z (writeConsumed s c L k next) := by
  unfold Machine.writeConsumed
  exact h.winWrite

theorem recordConsumed_spec (next : Nat) :
    (ctxRegionOf (ctxOf (recordConsumed s L c next) c) L).gatherNext = (next + 1) % 2 ^ 32 ∧
      engineJobs (regionOf (recordConsumed s L c next) L) = engineJobs (regionOf s L) := by
  have hread : KeepsEngines s (recordRead s L c next) := (KeepsWork.refl s).unitReads
  have hwrite : KeepsEngines (modCtxRegion (recordRead s L c next) c L fun x => { x with gatherNext := (next + 1) % 2 ^ 32 })
      (recordConsumed s L c next) := (KeepsWork.refl _).writeConsumed
  exact ⟨(gatherNext_of_keepsWork hwrite).trans (congrArg CtxRegion.gatherNext ctxRegionOf_modCtxRegion),
    (hwrite.part L).trans ((congrArg engineJobs regionOf_modCtxRegion).trans (hread.part L))⟩

/-- A record that stands in an open ring is consumed, and then taken. -/
theorem exec_gatherRecordRead {next : Nat} (hctx : ctxRuns s c = true) (hunits : unitsAccept s L = true)
    (hroom : (regionOf s L).gatherJobs.length < 4) (hnone : ∀ j ∈ (regionOf s L).gatherJobs, j.ctx = c → j.accepted = true)
    (hnext : (ctxRegionOf (ctxOf s c) L).gatherNext = next) (hring : ringHas s c L 0 next = true) :
    exec (.gatherRecordRead c L) s = .next (takeRecord (recordConsumed s L c next) L c next
      (readGatherRec (winRead s c none (ringRecordAddr s c L 0 next 64) 64))) := by
  subst hnext
  have hwaits : ((regionOf s L).gatherJobs.any fun j => j.ctx == c && !j.accepted) = false := by
    simpa using hnone
  refine (if_neg ?_ : execGatherRecordRead c L s = _)
  simp [hctx, hunits, hring, hwaits, hroom]

/-! ### Acceptance (R205, R207) -/

/-- A job of a region's engine has been accepted at an instant. -/
def AcceptedAt (s : State) (L tag t : Nat) : Prop := (tag, true, t) ∈ standings (regionOf s L)

theorem acceptedAt_iff {tag t : Nat} :
    AcceptedAt s L tag t ↔ ∃ x ∈ (regionOf s L).gatherJobs, x.tag = tag ∧ x.accepted = true ∧ x.tAccept = t := by
  simp [AcceptedAt, standings, GatherJob.standing]

theorem AcceptedAt.of_keepsWork {u : State} {tag t : Nat} (h : AcceptedAt s L tag t) (hk : KeepsStandings s u) : AcceptedAt u L tag t := by
  unfold AcceptedAt
  rw [hk.part]
  exact h

/-- The job that is listed under a number becomes one that is accepted. -/
theorem acceptedAt_modGatherJob {tag t : Nat} {j : GatherJob} (hin : ∃ k ∈ (regionOf s L).gatherJobs, k.tag = tag)
    (htag : j.tag = tag) (hacc : j.accepted = true) (ht : j.tAccept = t) : AcceptedAt (modGatherJob s L tag fun _ => j) L tag t := by
  obtain ⟨k, hk, hktag⟩ := hin
  rw [acceptedAt_iff]
  unfold modGatherJob
  rw [regionOf_modRegion]
  exact ⟨j, List.mem_map.mpr ⟨k, hk, if_pos hktag⟩, htag, hacc, ht⟩

/-- Under its number a job stays listed. -/
theorem listed_of_keepsStandings {u : State} {j : GatherJob} (hj : j ∈ (regionOf s L).gatherJobs) (hk : KeepsStandings s u) :
    ∃ k ∈ (regionOf u L).gatherJobs, k.tag = j.tag := by
  have hin : j.standing ∈ standings (regionOf u L) := by
    rw [hk.part]
    exact List.mem_map_of_mem hj
  obtain ⟨k, hk, he⟩ := List.mem_map.mp hin
  exact ⟨k, hk, congrArg Prod.fst he⟩

namespace KeepsWork

variable {α : Type} {f : LogRegion → α} {z : State}

theorem rowFaults {j : GatherJob} {d : TableDesc} (h : KeepsWork f z s) : KeepsWork f z (rowFaults s j d) :=
  ite h (foldl (fun _ _ hv => ite hv hv.windowFault) h)

theorem zeroRows {o : Origin} {j : GatherJob} {d : TableDesc} (h : KeepsWork f z s) : KeepsWork f z (zeroRows s o j d) :=
  ite h (foldl (fun _ _ hv => hv.unitWrite) h)

theorem keepPin {j : GatherJob} (h : KeepsWork f z s) : KeepsWork f z (keepPin s j) := ite (h.other rfl rfl rfl) h

end KeepsWork

/-- A job that runs is listed as accepted, and what it then serves and sends leaves it so (R207 to R212). -/
theorem runGather_accepts {j : GatherJob} (hj : j ∈ (regionOf s L).gatherJobs) {j0 : GatherJob} (hj0 : j0.tag = j.tag)
    (v : TableVersion) (t : Nat) : AcceptedAt (runGather s L j0 v t) L j0.tag t := by
  unfold runGather
  extract_lets d o l all jAcc reply stride hits mine bs own sHits sFaults sListed served sent sCounted
  have hhits : KeepsStandings s sHits := .foldl (fun _ _ hv => hv.unitWrite) (.refl s)
  have hfaults : KeepsStandings s sFaults := hhits.unitReads.zeroRows.rowFaults
  have hlisted : AcceptedAt sListed L j0.tag t := by
    obtain ⟨k, hk, htag⟩ := listed_of_keepsStandings hj hfaults.devWrite
    exact acceptedAt_modGatherJob ⟨k, hk, htag.trans hj0.symm⟩ rfl rfl rfl
  have hserved : KeepsStandings sListed served.2 := (KeepsWork.refl sListed).serveEntries
  have hsent : KeepsStandings sListed sent.1 := hserved.sendForwards.sendBatches
  have hcounted : KeepsStandings sListed sCounted := hsent.modJob fun _ => rfl
  exact hlisted.of_keepsWork hcounted.keepPin

/-- A taken job that holds its rates, and passes its checks still, is accepted at the instant from which it holds them (R205). -/
theorem acceptGather_accepts {op tag t : Nat} {j : GatherJob} {v : TableVersion} (hfind : findGather s L tag = some j)
    (htaken : j.accepted = false) (hctx : ctxRuns s j.ctx = true) (hunits : unitsAccept s L = true)
    (hpins : j.rcd.keepPin = true → keptCount s < 4096) (hversion : findVersion s j.rcd.table j.version = some v)
    (hrates : ratesSince s (.gather L tag) = some t)
    (hok : stillOk s L { j with rows := rowsOf s j.ctx (listEntries s j.ctx j.rcd) } v = true) (hop : j.rcd.op = op)
    (hfill : op = 4 → fillMayStart s L j = true) : AcceptedAt (acceptGather op L tag s) L tag t := by
  have htag : j.tag = tag := by simpa using List.find?_some hfind
  have hmay : ¬(j.accepted = true ∨ j.rcd.op ≠ op ∨ (!ctxRuns s j.ctx) = true ∨ (!unitsAccept s L) = true ∨
      (j.rcd.keepPin = true ∧ 4096 ≤ keptCount s) ∨ (op = 4 ∧ (!fillMayStart s L j) = true)) := by
    rintro (h | h | h | h | ⟨h, hfull⟩ | ⟨h, hno⟩)
    · simp [htaken] at h
    · exact h hop
    · simp [hctx] at h
    · simp [hunits] at h
    · exact absurd (hpins h) (Nat.not_lt.mpr hfull)
    · simp [hfill h] at hno
  unfold acceptGather
  rw [hfind]
  dsimp only
  rw [if_neg hmay, hversion]
  dsimp only
  rw [if_neg (by simp [hok]), reserveRates_of_ratesSince hrates, hrates]
  dsimp only
  obtain ⟨k, hk, hktag⟩ := listed_of_keepsStandings (List.mem_of_find?_eq_some hfind)
    ((KeepsWork.refl s).unitReads (c := j.ctx) (o := .gather L tag)
      (l := (idAddrs (listEntries s j.ctx j.rcd)).map fun a => (a, 8)))
  subst htag
  exact runGather_accepts (j0 := { j with rows := rowsOf s j.ctx (listEntries s j.ctx j.rcd) }) hk hktag.symm v t

/-! ### Completion (R206, R208 to R210, R220) -/

/-- Every job under a number in a region's engine has a property. -/
def JobsHave (p : GatherJob → Prop) (tag : Nat) (l : List GatherJob) : Prop := ∀ x ∈ l, x.tag = tag → p x

theorem JobsHave.filter {p : GatherJob → Prop} {tag : Nat} {l : List GatherJob} (h : JobsHave p tag l) (q : GatherJob → Bool) :
    JobsHave p tag (l.filter q) := fun x hx => h x (List.mem_of_mem_filter hx)

theorem jobsHave_modGatherJob {p : GatherJob → Prop} {tag : Nat} {g : GatherJob → GatherJob}
    (hg : ∀ y ∈ (regionOf s L).gatherJobs, y.tag = tag → p (g y)) : JobsHave p tag (regionOf (modGatherJob s L tag g) L).gatherJobs := by
  unfold modGatherJob
  rw [regionOf_modRegion]
  intro x hx htag
  obtain ⟨y, hy, rfl⟩ := List.mem_map.mp hx
  by_cases h : y.tag = tag
  · rw [if_pos h]; exact hg y hy h
  · rw [if_neg h] at htag; exact absurd htag h

/-- A job that is closed leaves its engine, and no other does (R206). -/
theorem gatherJobs_closeJob (tag : Nat) : (regionOf (closeJob s (.gather L tag)) L).gatherJobs =
    (regionOf s L).gatherJobs.filter fun k => k.tag != tag := by
  unfold closeJob
  dsimp only
  split
  · rw [gatherJobs_of_keepsEngines (KeepsWork.refl _).releaseVersions, regionOf_modRegion]
  · next hnone =>
    refine (List.filter_eq_self.mpr fun k hk => ?_).symm
    have hother := List.find?_eq_none.mp hnone k hk
    simpa using hother

theorem transfers_closeJob (tag : Nat) : (closeJob s (.gather L tag)).transfers = s.transfers := by
  unfold closeJob
  dsimp only
  split
  · exact (KeepsWork.refl (f := engineJobs) _).releaseVersions.transfers
  · rfl

/-- What a job reports leaves the jobs of its engine as they were, but that its own may have left; no transfer changes. -/
theorem unitReport_gather {ctx done due phys row tag : Nat} {token : DWord} :
    let u := unitReport s ctx (.gather L tag) token done none
      (some { due := due, phys := phys, row := row, job := some (.gather L tag) })
    (∃ q, (regionOf u L).gatherJobs = (regionOf s L).gatherJobs.filter q) ∧ u.transfers = s.transfers := by
  intro u
  rcases (KeepsWork.refl (f := engineJobs) s).unitReport_cases (ctx := ctx) (done := done) (o := .gather L tag)
    (token := token) (d := none) (j := some { due := due, phys := phys, row := row, job := some (.gather L tag) }) with hk | ⟨v, hv, he⟩
  · exact ⟨⟨fun _ => true, by rw [gatherJobs_of_keepsEngines hk, List.filter_true]⟩, hk.transfers⟩
  · have hm : KeepsEngines s (if due ≠ 0 ∧ due < now v then promiseMiss v phys ctx row else v) := .ite hv.promiseMiss hv
    have hu : u = closeJob (if due ≠ 0 ∧ due < now v then promiseMiss v phys ctx row else v) (.gather L tag) := he
    rw [hu, gatherJobs_closeJob, transfers_closeJob, gatherJobs_of_keepsEngines hm]
    exact ⟨⟨_, rfl⟩, hm.transfers⟩

theorem KeepsWork.finishPins {α : Type} {f : LogRegion → α} {z : State} {o : Origin} {j : GatherJob} (h : KeepsWork f z s) :
    KeepsWork f z (finishPins s o j) := by
  have hp : KeepsWork f z (if j.rcd.keepPin then
      Machine.unitWrite s j.ctx o j.rcd.pin (leBytes 4 j.version ++ leBytes 2 j.epoch ++ leBytes 1 j.rcd.table ++ [0]) else s) :=
    ite h.unitWrite h
  unfold Machine.finishPins
  dsimp only
  split
  · split
    · exact hp.other rfl rfl rfl
    · exact hp
  · exact hp

theorem KeepsWork.finishGather {α : Type} {f : LogRegion → α} {z : State} {j : GatherJob} (h : KeepsWork f z s) :
    KeepsWork f z (finishGather s L j) := h.underWindows fun _ hu => hu.finishPins.unitWrite

/-- A job that reports has given up its rates, and is the job it was, but for being reported (R206). -/
theorem reportGather_spec (j : GatherJob) : findTransfer (reportGather s L j) (.gather L j.tag) = none ∧
    JobsHave (fun x => ∃ y ∈ (regionOf s L).gatherJobs, y.tag = j.tag ∧ x = { y with reported := true }) j.tag
      (regionOf (reportGather s L j) L).gatherJobs := by
  have hfinish : KeepsEngines s (addIndexFaults (finishGather s L j) j.ctx j.indexFaults) :=
    (KeepsWork.refl s).finishGather.modCtx
  unfold reportGather
  dsimp only
  obtain ⟨⟨q, hq⟩, htransfers⟩ := unitReport_gather (s := endTransfer (modGatherJob
    (addIndexFaults (finishGather s L j) j.ctx j.indexFaults) L j.tag fun k => { k with reported := true }) (.gather L j.tag))
    (L := L) (tag := j.tag)
  refine ⟨?_, ?_⟩
  · rw [← findTransfer_endTransfer]
    unfold findTransfer
    exact congrArg (List.find? _) htransfers
  · rw [hq]
    refine JobsHave.filter (jobsHave_modGatherJob (g := fun k => { k with reported := true }) fun y hy htag => ?_) q
    rw [gatherJobs_of_keepsEngines hfinish] at hy
    exact ⟨y, hy, htag, rfl⟩

/-- A job that has finished its data is marked so (R208, R212). -/
theorem finishData_dataOut (j : GatherJob) (d : TableDesc) :
    JobsHave (fun x => x.dataOut = true) j.tag (regionOf (finishData s L j d) L).gatherJobs :=
  jobsHave_modGatherJob fun _ _ _ => rfl

/-- The state in which the data of a job is finished. -/
def dataFinished (s : State) (L : Nat) (j : GatherJob) (d : TableDesc) : State := if j.dataOut then s else finishData s L j d

section Completion

variable {tag : Nat} {j : GatherJob} {v : TableVersion} (hfind : findGather s L tag = some j)
  (hversion : findVersion s j.rcd.table j.version = some v) (hreported : j.reported = false) (hdone : dataDone s L j = true)
  (hlost : regionLost s L = false)

include hfind hversion hreported hdone hlost

/-- A job whose batches have all been answered finishes its data, and reports once every write of them has been performed. -/
theorem exec_gatherJobComplete : exec (.gatherJobComplete L tag) s =
    match findGather (dataFinished s L j v.desc) L tag with
    | some k => if unitWrites (dataFinished s L j v.desc) (.gather L tag) = [] then
        .next (reportGather (dataFinished s L j v.desc) L k) else .next (dataFinished s L j v.desc)
    | none => .next (dataFinished s L j v.desc) := by
  change execGatherJobComplete L tag s = _
  unfold execGatherJobComplete
  rw [hfind]
  dsimp only
  rw [hversion]
  dsimp only
  rw [if_neg (by simp [hreported, hlost]), if_neg (by simp [hdone])]
  rfl

/-- The data of a job that was not finished is finished, whether the job then reports or not. -/
theorem completes_dataOut (hout : j.dataOut = false) : Completes (.gatherJobComplete L tag) s fun u =>
    JobsHave (fun x => x.dataOut = true) tag (regionOf u L).gatherJobs := by
  have htag : j.tag = tag := by simpa using List.find?_some hfind
  have hfinished : JobsHave (fun x => x.dataOut = true) tag (regionOf (dataFinished s L j v.desc) L).gatherJobs := by
    unfold dataFinished
    rw [hout]
    exact htag ▸ finishData_dataOut j v.desc
  have hexec := exec_gatherJobComplete hfind hversion hreported hdone hlost
  split at hexec
  · next k hk =>
    have hktag : k.tag = tag := by simpa using List.find?_some hk
    split at hexec
    · obtain ⟨-, hjobs⟩ := reportGather_spec (s := dataFinished s L j v.desc) (L := L) k
      refine ⟨_, hexec, fun x hx hxtag => ?_⟩
      obtain ⟨y, hy, hytag, rfl⟩ := hjobs x hx (hxtag.trans hktag.symm)
      exact hfinished y hy (hytag.trans hktag)
    · exact ⟨_, hexec, hfinished⟩
  · exact ⟨_, hexec, hfinished⟩

/-- A job whose data was finished, and whose writes have all been performed, reports. -/
theorem completes_reported (hout : j.dataOut = true) : Completes (.gatherJobComplete L tag) s fun u =>
    findTransfer u (.gather L tag) = none ∧ JobsHave (fun x => x.reported = true) tag (regionOf u L).gatherJobs := by
  have htag : j.tag = tag := by simpa using List.find?_some hfind
  have hwrites : unitWrites s (.gather L tag) = [] := by
    unfold dataDone at hdone
    simp only [Bool.and_eq_true, beq_iff_eq, htag] at hdone
    exact hdone.2
  have hexec := exec_gatherJobComplete hfind hversion hreported hdone hlost
  have hfinished : dataFinished s L j v.desc = s := if_pos hout
  rw [hfinished, hfind] at hexec
  dsimp only at hexec
  rw [if_pos hwrites] at hexec
  obtain ⟨htransfer, hjobs⟩ := reportGather_spec (s := s) (L := L) j
  rw [htag] at htransfer hjobs
  refine ⟨_, hexec, htransfer, fun x hx hxtag => ?_⟩
  obtain ⟨y, -, -, rfl⟩ := hjobs x hx hxtag
  rfl

end Completion

end Gather

end Sys2Proof.Machine
end

section
open Sys2Proof Sys2Proof.Machine

/-- Settles O36: a record that is read is listed or refused; a job that runs is listed as accepted, which nothing that it serves or sends
changes; what a job writes as it completes leaves the jobs of the engine, and its report at most lets it leave. -/
theorem gatherJobs : Obligations.GatherJobs := by
  unfold Obligations.GatherJobs
  refine ⟨fun s c L hctx hunits hroom hnone hring => ?read,
    fun s L tag t j v hfind htaken hctx hunits hpins hversion hrates hok => ?accept,
    fun s L tag j v hfind hversion hreported hdone hlost =>
      ⟨completes_dataOut hfind hversion hreported hdone hlost, completes_reported hfind hversion hreported hdone hlost, ?close⟩⟩
  case read =>
    have hexec := exec_gatherRecordRead hctx hunits hroom hnone rfl hring
    obtain ⟨hnext, hjobs⟩ := recordConsumed_spec (s := s) (L := L) (c := c) (ctxRegionOf (ctxOf s c) L).gatherNext
    obtain ⟨hring', htakes⟩ := takeRecord_spec (s := recordConsumed s L c (ctxRegionOf (ctxOf s c) L).gatherNext) (L := L) (c := c)
      (ctxRegionOf (ctxOf s c) L).gatherNext
      (readGatherRec (winRead s c none (ringRecordAddr s c L 0 (ctxRegionOf (ctxOf s c) L).gatherNext 64) 64))
    exact ⟨_, hexec, hring'.trans hnext, htakes.congr hjobs rfl⟩
  case accept =>
    have haccepts (op : Nat) (hop : j.rcd.op = op) (hfill : op = 4 → fillMayStart s L j = true) :=
      acceptedAt_iff.mp (acceptGather_accepts hfind htaken hctx hunits hpins hversion hrates hok hop hfill)
    exact ⟨fun hop => ⟨_, rfl, haccepts 1 hop nofun⟩, fun hop => ⟨_, rfl, haccepts 2 hop nofun⟩,
      fun hop => ⟨_, rfl, haccepts 3 hop nofun⟩, fun hop hfill => ⟨_, rfl, haccepts 4 hop fun _ => hfill⟩⟩
  case close =>
    intro x hx
    rw [gatherJobs_closeJob] at hx
    simpa using (List.mem_filter.mp hx).2

end
section
/-! SUPPORT. A state that refutes the statement about rows that change owner. The address to which an old owner copies a row is put together
from the number of the new owner's device (R343, R393), and a number past the seven bits of an owner code (Table 7.7) gives an address
in host memory. -/

namespace Sys2Proof.Machine

open Sys2Proof

/-- A version with one row of one byte, at home at the start of the T2 of this device. -/
def byteRow : TableVersion :=
  { desc := { (default : TableDesc) with rows := 1, rowElems := 1, rowBytes := 1, rps := 1, shards := 1 }, shards := [default], mig := [] }

/-- Its row is due to move to device 16, where the board has eight devices. -/
def strayMove : StagedMove := { row := 0, newOwner := 16 * 16, newSlot := 0, boundary := 0 }

/-- The state after reset with that table and that move; the byte of the row is 1. -/
def movingAway : State :=
  { State.reset with
    mem := State.reset.mem.store 0 [1]
    tables := [(0, { (default : TableState) with versions := [byteRow], moves := [strayMove] })] }

theorem pinsRecent_movingAway : pinsRecent movingAway 0 = true := by decide

/-- The handover copies the row's byte to the address of device 16, which reads as one of space 5, host memory. -/
theorem rowHandover_strayMove : ∃ u, exec (.rowHandover 0 0) movingAway = .next u ∧
    u.mem.readByte (memKey movingAway (peerAddr 16 0 0)) = 1 := ⟨_, rfl, by decide⟩

theorem hostByte_movingAway : movingAway.mem.readByte (memKey movingAway (peerAddr 16 0 0)) = 0 := by decide

end Sys2Proof.Machine

open Sys2Proof Sys2Proof.Machine

/-- Refutes O37: on `movingAway` the handover writes a byte of this machine's memory, since the copy that goes to a peer goes to an
address in host memory. The premise that the statement lacks is that every due move names an owner below 128 (Table 7.7); under it the
address of a copy on another device is a peer's, and the copy leaves as operations (R392). -/
theorem not_shardRows : ¬ Obligations.ShardRows := by
  rintro ⟨-, hmoves, -⟩
  obtain ⟨hhandover, -⟩ := hmoves movingAway 0 0
  obtain ⟨u, hu, hmem, -⟩ := hhandover strayMove rfl (Nat.le_refl 0) rfl pinsRecent_movingAway
  obtain ⟨v, hv, hbyte⟩ := rowHandover_strayMove
  obtain rfl : u = v := Host.Outcome.next.inj (hu.symm.trans hv)
  rw [hmem, hostByte_movingAway] at hbyte
  cases hbyte
end

section
/-! SUPPORT. The grant of an MMA and the completion of a tensor operation (R137, R231 to R236): what each leaves of memory, of the threads
and of the list of operations. -/

namespace Sys2Proof.Machine

open Sys2Proof

/-! ### Operations under their numbers -/

theorem findOp_spec {s : State} {op : Nat} {q : TensorOp} (h : findOp s op = some q) : q ∈ s.ops ∧ q.id = op :=
  ⟨List.mem_of_find?_eq_some h, by simpa using List.find?_some h⟩

/-- Replacing an operation keeps the numbers. -/
theorem setOp_ids (s : State) (q : TensorOp) : (setOp s q).ops.map (·.id) = s.ops.map (·.id) := by
  unfold setOp
  rw [List.map_map]
  refine List.map_congr_left fun x _ => ?_
  show (if x.id = q.id then q else x).id = x.id
  split
  · next h => exact h.symm
  · rfl

theorem mem_setOp {s : State} {p q : TensorOp} (h : p ∈ (setOp s q).ops) : p = q ∨ (p ∈ s.ops ∧ p.id ≠ q.id) := by
  obtain ⟨x, hx, rfl⟩ := List.mem_map.mp h
  split
  · exact .inl rfl
  · next hne => exact .inr ⟨hx, hne⟩

/-- No operation stands under a number that has been filtered out. -/
theorem findOp_of_ops_filter {s : State} {l : List TensorOp} {op : Nat} (h : s.ops = l.filter fun p => p.id ≠ op) :
    findOp s op = none := by
  unfold findOp
  rw [h, List.find?_eq_none]
  intro x hx
  simpa using (List.mem_filter.mp hx).2

/-! ### The grant of an MMA -/

/-- What a grant leaves alone, and what every operation under the number of the granted one is. -/
structure GrantStands (s : State) (op : Nat) (stage : OpStage) (kind : TensorKind) (u : State) : Prop where
  mem : u.mem = s.mem
  threads : u.threads = s.threads
  ids : u.ops.map (·.id) = s.ops.map (·.id)
  granted : ∀ p ∈ u.ops, p.id = op → p.stage = stage ∧ p.kind = kind

namespace GrantStands

variable {s u : State} {op : Nat} {stage : OpStage} {kind : TensorKind}

/-- The operation that is granted is set in a state that differs only in other fields. -/
theorem of_setOp {q : TensorOp} (hm : u.mem = s.mem) (ht : u.threads = s.threads) (ho : u.ops = s.ops)
    (hs : q.stage = stage) (hk : q.kind = kind) (hid : q.id = op) : GrantStands s op stage kind (setOp u q) where
  mem := hm
  threads := ht
  ids := by rw [setOp_ids, ho]
  granted p hp hpid := by
    rcases mem_setOp hp with rfl | ⟨-, hne⟩
    · exact ⟨hs, hk⟩
    · exact absurd (hpid.trans hid.symm) hne

/-- Another replacement that does not undo the grant. -/
theorem setOp {q : TensorOp} (h : GrantStands s op stage kind u) (hq : q.id = op → q.stage = stage ∧ q.kind = kind) :
    GrantStands s op stage kind (setOp u q) where
  mem := h.mem
  threads := h.threads
  ids := by rw [setOp_ids, h.ids]
  granted p hp hpid := by
    rcases mem_setOp hp with rfl | ⟨hold, -⟩
    · exact hq hpid
    · exact h.granted p hold hpid

/-- The MMA that the cell presents next was queued, so it is not the granted one. -/
theorem presentNext {L cell : Nat} (h : GrantStands s op stage kind u) (hg : stage ≠ .queued) :
    GrantStands s op stage kind (presentNext u L cell) := by
  unfold Machine.presentNext
  dsimp only
  split
  · exact h
  · split
    · next q hfind =>
      have hqueued : q.stage = .queued := by simpa using List.find?_some hfind
      have hmem : q ∈ u.ops := List.mem_of_mem_filter (List.mem_of_find?_eq_some hfind)
      exact h.setOp fun hid => absurd ((h.granted q hmem hid).1.symm.trans hqueued) hg
    · exact h

/-- A feeder's request changes what its operation still has to read, not its stage. -/
theorem issueFeed {q : TensorOp} {f : FeedReq} (h : GrantStands s op stage kind u) (hq : q ∈ u.ops) :
    GrantStands s op stage kind (issueFeed u q f) := by
  have hadded : GrantStands s op stage kind (addRequest u (feedRequest u q f)) := ⟨h.mem, h.threads, h.ids, h.granted⟩
  exact hadded.setOp fun hid => h.granted q hq hid

theorem issueFeeds {n : Nat} : ∀ {u : State}, GrantStands s op stage kind u → GrantStands s op stage kind (issueFeeds u op n) := by
  induction n with
  | zero => exact id
  | succ n ih =>
    intro u h
    unfold Machine.issueFeeds
    split
    · next q hfind =>
      split
      · exact ih (h.issueFeed (findOp_spec hfind).1)
      · exact h
    · exact h

theorem exists_op (h : GrantStands s op stage kind u) {q : TensorOp} (hfind : findOp s op = some q) :
    ∃ p ∈ u.ops, p.id = op ∧ p.stage = stage ∧ p.kind = kind := by
  obtain ⟨hq, hid⟩ := findOp_spec hfind
  have hop : op ∈ u.ops.map (·.id) := h.ids ▸ hid ▸ List.mem_map_of_mem hq
  obtain ⟨p, hp, hpid⟩ := List.mem_map.mp hop
  exact ⟨p, hp, hpid, h.granted p hp hpid⟩

end GrantStands

/-- The wait of an MMA is counted in its block and in its physical region (R236). -/
theorem countRigWait_eq (s : State) (q : TensorOp) (since : Nat) : ∃ l p, countRigWait s q since = { s with logs := l, phys := p } := by
  unfold countRigWait
  dsimp only
  split <;> exact ⟨_, _, rfl⟩

/-- What a grant counts, it counts in a context, with an event at most (R262, R270). -/
theorem grantCounts_onlyReports (s : State) (q : TensorOp) : OnlyReports s (grantCounts s q) := by
  unfold grantCounts
  split
  · split
    · refine .ite (.refl s) (.ite (OnlyReports.refl s).modCtx (.ite ?_ ?_))
      · exact (OnlyReports.refl s).modCtx.modCtx
      · exact (OnlyReports.refl s).modCtx.modCtx.modCtx.postEvent
    · exact .refl s
  · exact .refl s

/-- A plan adds what feeders and drain will issue, or gives up the results. -/
theorem planMma_spec (s : State) (q : TensorOp) :
    (planMma s q).id = q.id ∧ (planMma s q).stage = q.stage ∧ (planMma s q).kind = q.kind := by
  unfold planMma
  split
  · split
    · split <;> exact ⟨rfl, rfl, rfl⟩
    · exact ⟨rfl, rfl, rfl⟩
  · exact ⟨rfl, rfl, rfl⟩

/-- An MMA as its grant leaves it, before its feeders issue. -/
def grantedOp (s : State) (q : TensorOp) (g : Nat × Nat) (at_ : Nat) : TensorOp :=
  planMma s
    { q with stage := .granted g.1 g.2 (now s) at_, mask := copiedMask s q, fedAt := now s, startAt := now s
             loadBeats := 32, wins := opWindows s q }

theorem grantedOp_spec (s : State) (q : TensorOp) (g : Nat × Nat) (at_ : Nat) : (grantedOp s q g at_).id = q.id ∧
    (grantedOp s q g at_).stage = .granted g.1 g.2 (now s) at_ ∧ (grantedOp s q g at_).kind = q.kind :=
  planMma_spec s _

/-- The operation is set as granted in the state that has counted its wait and its tiles. -/
def grantSet (s : State) (q : TensorOp) (g : Nat × Nat) (at_ : Nat) : State :=
  setOp (grantCounts s (grantedOp s q g at_)) { grantedOp s q g at_ with counted := true }

theorem exec_mmaGrant {s : State} {op at_ since : Nat} {q : TensorOp} {g : Nat × Nat} (hfind : findOp s op = some q)
    (hstage : q.stage = .presented at_ since) (hawaits : q.awaits = []) (hctx : (ctxOf s q.t.ctx).state = .running)
    (hruns : opRuns s q = true) (hexchange : (regionOf s q.region).exchange = none) (hwhole : rigWhole s q = true)
    (hgrant : grantOf s q = some g) :
    exec (.mmaGrant op) s = .next (issueFeeds (presentNext (grantSet (countRigWait s q since) q g at_) q.region q.cell) op
      (grantedOp (countRigWait s q since) q g at_).feeds.length) := by
  change execMmaGrant op s = _
  unfold execMmaGrant
  rw [hfind]
  dsimp only
  rw [hstage]
  dsimp only
  rw [if_neg (by simp [hctx, hruns, hexchange, hwhole, hawaits]), hgrant]
  rfl

/-- Setting the operation as granted changes it alone, of memory, threads and operations. -/
theorem grantSet_stands {s : State} {op at_ since : Nat} {q : TensorOp} {g : Nat × Nat} (hid : q.id = op) :
    GrantStands s op (.granted g.1 g.2 (now s) at_) q.kind (grantSet (countRigWait s q since) q g at_) := by
  obtain ⟨l, p, hwait⟩ := countRigWait_eq s q since
  obtain ⟨hqid, hstage, hkind⟩ := grantedOp_spec (countRigWait s q since) q g at_
  have hnow : now (countRigWait s q since) = now s := by rw [hwait]; rfl
  obtain ⟨x, p', w, f, n, e, r, k, hcounts⟩ :=
    (grantCounts_onlyReports (countRigWait s q since) (grantedOp (countRigWait s q since) q g at_)).form
  unfold grantSet
  rw [hcounts]
  exact .of_setOp (by rw [hwait]) (by rw [hwait]) (by rw [hwait]) (hstage.trans (by rw [hnow])) hkind (hqid.trans hid)

/-! ### Threads that go on, and the operations -/

section Wakes

variable (s : State) (t : ThreadId)

@[simp] theorem modThread_ops (f : Thread → Thread) : (modThread s t f).ops = s.ops := by
  unfold modThread; split <;> rfl

@[simp] theorem sweepWakes_ops : (sweepWakes s).ops = s.ops := by
  obtain ⟨d, l, w, h⟩ := sweepWakes_eq s
  rw [h]

@[simp] theorem giveTask_ops (L : Nat) (k : Taker) (x : ReadyTask) : (giveTask s L k x).ops = s.ops := by
  unfold giveTask
  dsimp only
  split <;> simp

@[simp] theorem serveTakers_ops (L ctx l n : Nat) : (serveTakers s L ctx l n).ops = s.ops := by
  induction n generalizing s with
  | zero => rfl
  | succ n ih =>
    unfold serveTakers
    split
    · rfl
    · split
      · rw [ih, giveTask_ops, modRegion_ops]
      · rfl

@[simp] theorem releaseFlows_ops (L ctx : Nat) (p : FlowHeld → Bool) : (releaseFlows s L ctx p).ops = s.ops := by
  unfold releaseFlows
  split
  · exact foldl_keeps (P := fun u : State => u.ops = s.ops) (fun u _ h => (serveTakers_ops u _ _ _ _).trans h) _ rfl
  · rfl

@[simp] theorem wake_ops : (wake s t).ops = s.ops := by
  unfold wake settle
  split
  · split
    · simp [endThread]
    · simp
  · simp

@[simp] theorem tensorWake_ops (id : Nat) : (tensorWake s t id).ops = s.ops := by
  unfold tensorWake
  split
  · split
    · split <;> simp
    · split <;> simp
    · rfl
  · rfl

end Wakes

/-! ### Completion -/

/-- An operation that completes with the effect `eff` from the state `r` leaves; without a conflict its effect is its own (R235). -/
def OpCompleted (op : Nat) (q : TensorOp) (r : State) (eff : State → State) (u : State) : Prop :=
  findOp u op = none ∧ (q.tainted = false → conflicting r q = [] →
    u = tensorWake { eff r with ops := (eff r).ops.filter fun p => p.id ≠ op } q.t op)

theorem taint_nil (s : State) : taint s [] = s := by simp [taint]

theorem completeOp_completed {op : Nat} {q : TensorOp} (hid : q.id = op) (r : State) (eff : State → State) :
    OpCompleted op q r eff (completeOp r q eff) := by
  subst hid
  refine ⟨findOp_of_ops_filter (tensorWake_ops _ _ _), fun hclean hnone => ?_⟩
  unfold completeOp
  rw [hnone]
  dsimp only
  rw [taint_nil, if_neg (by simp [hclean])]

theorem completes_of_completeOp {c : Instr} {s : State} {op : Nat} {q : TensorOp} {r : State} {eff : State → State} (hid : q.id = op)
    (hexec : exec c s = .next (completeOp r q eff)) : Completes c s (OpCompleted op q r eff) :=
  ⟨_, hexec, completeOp_completed hid r eff⟩

theorem exec_mmaComplete {s : State} {op : Nat} {q : TensorOp} {o : MArgs} {tag : BitVec 12} (hfind : findOp s op = some q)
    (hkind : q.kind = .mma o tag) (hfirst : firstOnSpars s q = true) (hruns : opRuns s q = true) (hwhole : rigWhole s q = true)
    (hended : feedsEnded s q = true) :
    exec (.mmaComplete op) s = .next (completeOp (startFollow (countMma s q o) q) q (mmaEffect q o tag)) := by
  change execMmaComplete op s = _
  unfold execMmaComplete
  rw [hfind]
  dsimp only
  rw [hkind]
  dsimp only
  rw [if_neg (by simp [hfirst, hruns, hwhole, hended])]

/-- The accesses of an operation are counted (R478). -/
def spansCounted (s : State) (q : TensorOp) : State := countSpans s q ((opAccess s q).1 ++ (opAccess s q).2)

/-- An operation that no spar performs completes with its effect under the windows it was issued with (R94). -/
def completeMove (s : State) (q : TensorOp) (eff : State → State) : State :=
  completeOp (spansCounted s q) q fun r => underWindows r q.t.ctx q.wins eff

theorem completes_of_completeMove {c : Instr} {s : State} {op : Nat} {q : TensorOp} {eff : State → State} (hid : q.id = op)
    (hexec : exec c s = .next (completeMove s q eff)) :
    Completes c s (OpCompleted op q (spansCounted s q) fun r => underWindows r q.t.ctx q.wins eff) :=
  completes_of_completeOp hid hexec

/-- With every record there and no operand fenced, the kind of the operation says what completes; an MMA does not, but its accesses
have been counted. -/
theorem exec_tensorOpComplete {s : State} {op : Nat} {q : TensorOp} (hfind : findOp s op = some q) (hruns : opRuns s q = true)
    (hawaits : q.awaits = []) (hfenced : opFenced s q = false) :
    exec (.tensorOpComplete op) s = match q.kind with
      | .tcopy o => .next (completeMove s q (tcopyEffect q o))
      | .tscadd o => .next (completeMove s q (tscaddEffect q o))
      | .tmaxabs o => .next (completeMove s q (tmaxabsEffect q o))
      | .mma _ _ => notNow (spansCounted s q) := by
  change execTensorOpComplete op s = _
  unfold execTensorOpComplete
  rw [hfind]
  dsimp only
  rw [if_neg (by simp [hruns, hawaits, hfenced])]
  rfl

end Sys2Proof.Machine
end

section
open Sys2Proof Sys2Proof.Machine

/-- Settles O35: the operation granted is the one under its number, which neither the next presentation nor its feeders' requests change;
an operation that completes leaves by the filter of its number, since a thread that goes on touches no operation. -/
theorem tensorOperations : Obligations.TensorOperations := by
  unfold Obligations.TensorOperations
  refine ⟨fun s op at_ since q g _ hfind hstage hawaits hctx hruns hexchange hwhole hgrant => ?grant, fun s op q hfind hruns => ?complete⟩
  case grant =>
    have hexec := exec_mmaGrant hfind hstage hawaits hctx hruns hexchange hwhole hgrant
    have hset := grantSet_stands (s := s) (at_ := at_) (since := since) (g := g) (findOp_spec hfind).2
    have h := (hset.presentNext (L := q.region) (cell := q.cell) nofun).issueFeeds
      (n := (grantedOp (countRigWait s q since) q g at_).feeds.length)
    exact ⟨_, hexec, h.mem, h.threads, h.ids, h.exists_op hfind⟩
  case complete =>
    have hid := (findOp_spec hfind).2
    refine ⟨fun o tag hkind hfirst hwhole hended =>
      completes_of_completeOp hid (exec_mmaComplete hfind hkind hfirst hruns hwhole hended), fun hawaits hfenced => ?_⟩
    have hexec := exec_tensorOpComplete hfind hruns hawaits hfenced
    exact ⟨fun o hkind => completes_of_completeMove hid (by rw [hexec, hkind]),
      fun o hkind => completes_of_completeMove hid (by rw [hexec, hkind]),
      fun o hkind => completes_of_completeMove hid (by rw [hexec, hkind])⟩
end

section
/-! SUPPORT. Packets that come before their turn (R318, R319): where a packet is written, and a sequencer that can do nothing with what
its inbox holds. -/

namespace Sys2Proof.Machine

open Sys2Proof

/-! ### The places of an inbox (R318, R343, R351) -/

/-- Every place of a region's inbox lies in T1. -/
theorem spaceOf_packetAddr {L : Nat} (hL : L < 16) (k : Nat) : spaceOf (packetAddr L k) = 1 := by
  unfold spaceOf bits packetAddr t1Addr
  omega

/-- It lies in the T1 of that region. -/
theorem addrRegion_packetAddr {L : Nat} (hL : L < 16) (k : Nat) : addrRegion (packetAddr L k) = L := by
  unfold addrRegion bits packetAddr t1Addr
  omega

theorem packetBytes_ne_nil (p : Packet) : packetBytes p ≠ [] := nofun

/-- A write into T1 of a region that is there stores its bytes; the watches that it marks hold no credit. -/
theorem devWrite_t1 {s : State} {fn a : Nat} {bs : List Byte} (hl : lostAt s a = false) (ha : spaceOf a = 1) (hbs : bs ≠ []) :
    (devWrite s fn a bs).mem = s.mem.store (memKey s a) bs ∧ ∀ res, destOf (devWrite s fn a bs) res = destOf s res := by
  have hwrite : devWrite s fn a bs = markWritten { s with mem := s.mem.store (memKey s a) bs } a bs.length := by
    unfold devWrite coreWrite
    rw [hl, if_neg Bool.false_ne_true, if_neg hbs, if_neg (by omega)]
    dsimp only
    rw [if_neg (by omega), if_neg (by omega)]
  rw [hwrite]
  exact ⟨rfl, fun _ => rfl⟩

/-! ### Sequencers with nothing to do -/

section Idle

variable {s : State} {L : Nat}

theorem drainInbox_of_early (h : ∀ p ∈ (seqOf s L).inbox, packetReady (seqOf s L) p = false) (n : Nat) :
    drainInbox L n s = s := by
  cases n with
  | zero => rfl
  | succ n =>
    have hnone : (seqOf s L).inbox.find? (packetReady (seqOf s L)) = none :=
      List.find?_eq_none.mpr fun p hp => by simp [h p hp]
    unfold drainInbox
    rw [hnone]

/-- A sequencer with no job and no packet to send is left as it is. -/
theorem settleSeq_of_empty (hout : (seqOf s L).outq = []) (hjobs : (seqOf s L).jobs = []) :
    settleSeq s L = modSeq s L fun q => { q with outq := [] } := by
  have hsend : sendAll L ((seqOf s L).outq.length + 1) s = modSeq s L fun q => { q with outq := [] } := by
    rw [hout]
    unfold sendAll
    rw [hout]
    rfl
  unfold settleSeq
  dsimp only
  rw [hsend, seqOf_modSeq, hjobs]
  rfl

/-- With no packet to send anywhere, no job here, and no packet here whose turn has come, the sequencers stand. -/
theorem runSequencers_of_idle (hout : ∀ l, (seqOf s l).outq = []) (hjobs : (seqOf s L).jobs = [])
    (hearly : ∀ p ∈ (seqOf s L).inbox, packetReady (seqOf s L) p = false) :
    runSequencers s L = modSeq s L fun q => { q with outq := [] } := by
  have hsame : seqOf (modSeq s L fun q => { q with outq := [] }) L = seqOf s L := by
    rw [seqOf_modSeq, ← hout L]
  have hnone : ∀ l, (seqOf (modSeq s L fun q => { q with outq := [] }) l).outq = [] := by
    intro l
    by_cases hl : l = L
    · rw [hl, hsame, hout]
    · unfold seqOf modSeq
      rw [regionOf_modRegion_other hl]
      exact hout l
  unfold runSequencers
  dsimp only
  rw [drainInbox_of_early hearly, settleSeq_of_empty (hout L) hjobs, drainInbox_of_early (by rw [hsame]; exact hearly)]
  simp [hnone]

end Idle

/-! ### A packet of a peer -/

section Early

variable {s : State} {L : Nat} {p : Packet}

/-- A packet of a peer takes a credit of the inbox. -/
theorem takeWay_of_peer (hway : (seqOf s L).underWay = []) : takeWay s L p =
    setDest s (.reduceInbox L) { destOf s (.reduceInbox L) with free := (destOf s (.reduceInbox L)).free - 1 } := by
  unfold takeWay onItsWay
  rw [hway]
  rfl

theorem seqOf_devWrite (s : State) (fn a : Nat) (bs : List Byte) (l : Nat) : seqOf (devWrite s fn a bs) l = seqOf s l :=
  (KeepsWork.refl (f := LogRegion.seqr) s).devWrite.part l

/-- The state in which the bytes of a packet stand in the inbox. -/
def packetWritten (s : State) (L : Nat) (p : Packet) : State :=
  devWrite s (packetFn s L p) (packetAddr L (regionOf s L).packetNext) (packetBytes p)

theorem seqOf_packetWritten (s : State) (L : Nat) (p : Packet) (l : Nat) : seqOf (packetWritten s L p) l = seqOf s l := by
  unfold packetWritten
  exact seqOf_devWrite s _ _ _ l

/-- The bytes take the place of the packet in memory, and the write no credit. -/
theorem packetWritten_spec (hL : L < 16) (hlost : regionLost s L = false) :
    (packetWritten s L p).mem = s.mem.store (memKey s (packetAddr L (regionOf s L).packetNext)) (packetBytes p) ∧
      ∀ res, destOf (packetWritten s L p) res = destOf s res := by
  have hspace := spaceOf_packetAddr hL (regionOf s L).packetNext
  have hthere : lostAt s (packetAddr L (regionOf s L).packetNext) = false := by
    unfold lostAt
    rw [addrRegion_packetAddr hL, hlost, Bool.and_false]
  exact devWrite_t1 hthere hspace (packetBytes_ne_nil p)

/-- The sequencer of a region holds a packet. -/
def packetHeld (s : State) (L : Nat) (p : Packet) : State :=
  modRegion s L fun R => { R with seqr := { R.seqr with inbox := R.seqr.inbox ++ [p] }, packetNext := R.packetNext + 1 }

theorem storePacket_eq : storePacket s L p = packetHeld (packetWritten s L p) L p := rfl

theorem seqOf_packetHeld : seqOf (packetHeld s L p) L = { seqOf s L with inbox := (seqOf s L).inbox ++ [p] } :=
  congrArg LogRegion.seqr regionOf_modRegion

theorem seqOf_packetHeld_other {l : Nat} (hl : l ≠ L) : seqOf (packetHeld s L p) l = seqOf s l :=
  congrArg LogRegion.seqr (regionOf_modRegion_other hl)

theorem packetHeld_kept : (packetHeld s L p).mem = s.mem ∧ ∀ res, destOf (packetHeld s L p) res = destOf s res :=
  ⟨rfl, fun _ => rfl⟩

/-- A packet that is stored is held, and has taken its place in memory. -/
theorem storePacket_spec (hL : L < 16) (hlost : regionLost s L = false) :
    seqOf (storePacket s L p) L = { seqOf s L with inbox := (seqOf s L).inbox ++ [p] } ∧
      (∀ l, l ≠ L → seqOf (storePacket s L p) l = seqOf s l) ∧
      (∀ res, destOf (storePacket s L p) res = destOf s res) ∧
      (storePacket s L p).mem = s.mem.store (memKey s (packetAddr L (regionOf s L).packetNext)) (packetBytes p) := by
  obtain ⟨hmem, hdest⟩ := packetWritten_spec (p := p) hL hlost
  obtain ⟨hmem', hdest'⟩ := packetHeld_kept (s := packetWritten s L p) (L := L) (p := p)
  rw [storePacket_eq, seqOf_packetHeld, seqOf_packetWritten]
  exact ⟨rfl, fun l hl => (seqOf_packetHeld_other hl).trans (seqOf_packetWritten s L p l),
    fun res => (hdest' res).trans (hdest res), hmem'.trans hmem⟩

/-- What the sequencers do when a region's inbox receives a packet before its turn: nothing. -/
theorem runSequencers_of_held (hout : ∀ l, (seqOf s l).outq = []) (hjobs : (seqOf s L).jobs = [])
    (hinbox : (seqOf s L).inbox = [p]) (hseq : p.seq ≠ mget 0 (seqOf s L).recvSeq (p.sender, p.ch)) :
    runSequencers s L = modSeq s L fun q => { q with outq := [] } := by
  refine runSequencers_of_idle hout hjobs fun x hx => ?_
  rw [hinbox] at hx
  rw [List.mem_singleton.mp hx]
  unfold packetReady
  rw [beq_false_of_ne hseq, Bool.false_and]

/-- A packet of a peer that comes before its turn takes a credit, is written to its place, and is held. -/
theorem packetArrives_early {op : Nat} {q : Packet} (hq : { p with op := op } = q) (hL : L < 16) (hlost : regionLost s L = false)
    (hinbox : (seqOf s L).inbox = []) (hout : ∀ l, (seqOf s l).outq = []) (hjobs : (seqOf s L).jobs = [])
    (hway : (seqOf s L).underWay = []) (hfree : (destOf s (.reduceInbox L)).free ≠ 0)
    (hseq : q.seq ≠ mget 0 (seqOf s L).recvSeq (q.sender, q.ch)) :
    ∃ u, packetArrives op L p s = .next u ∧ (seqOf u L).inbox = [q] ∧
      (destOf u (.reduceInbox L)).free + 1 = (destOf s (.reduceInbox L)).free ∧
      u.mem = s.mem.store (memKey s (packetAddr L (regionOf s L).packetNext)) (packetBytes q) := by
  have hexec : packetArrives op L p s = .next (runSequencers (storePacket (takeWay s L q) L q) L) := by
    unfold packetArrives
    rw [hq, if_neg (by simp [hlost, hfree])]
  rw [takeWay_of_peer hway] at hexec
  generalize hd : ({ destOf s (.reduceInbox L) with free := (destOf s (.reduceInbox L)).free - 1 } : Destination) = d at hexec
  obtain ⟨hheld, hothers, hdest, hmem⟩ := storePacket_spec (s := setDest s (.reduceInbox L) d) (p := q) hL
    ((regionLost_congr (by rw [setDest_regionOf]) (by rw [setDest_regionOf])).trans hlost)
  generalize storePacket (setDest s (.reduceInbox L) d) L q = t at hexec hheld hothers hdest hmem
  rw [setDest_seqOf, hinbox, List.nil_append] at hheld
  rw [setDest_mem, setDest_memKey, setDest_regionOf] at hmem
  have hsent (l : Nat) : (seqOf t l).outq = [] := by
    by_cases hl : l = L
    · rw [hl, hheld]; exact hout L
    · rw [hothers l hl, setDest_seqOf, hout]
  rw [runSequencers_of_held (p := q) hsent (by rw [hheld]; exact hjobs) (by rw [hheld]) (by rw [hheld]; exact hseq)] at hexec
  refine ⟨_, hexec, ?_, ?_, modSeq_mem.trans hmem⟩
  · rw [seqOf_modSeq, hheld]
  · rw [modSeq_destOf, hdest, destOf_setDest, ← hd]
    exact Nat.sub_add_cancel (Nat.pos_of_ne_zero hfree)

end Early

end Sys2Proof.Machine
end

section
open Sys2Proof Sys2Proof.Machine

/-- Settles O40: a packet of each kind arrives alike. It takes its credit, and the sequencer that holds it has nothing to do before its
turn comes. -/
theorem earlyPacketIsHeld : Obligations.EarlyPacketIsHeld := by
  unfold Obligations.EarlyPacketIsHeld
  intro s region p hL hlost hinbox hout hjobs hway hfree hseq held
  have harrives (op : Nat) : ∃ u, packetArrives op region p s = .next u ∧ held op u :=
    packetArrives_early rfl hL hlost hinbox hout hjobs hway hfree hseq
  exact ⟨harrives 1, harrives 2, harrives 3, harrives 4, harrives 5, harrives 6⟩

end

section
/-! SUPPORT. What the units leave of the records and of the steering step: events only add records (R415, R418), and no read, write or
report of a unit's job changes whether a context's steering step is due (R325). -/

namespace Sys2Proof.Machine

-- One proof at a time: each that waits for another holds a thread, whose stack counts toward the memory limit.
set_option Elab.async false

open Sys2Proof

/-- Records have only been added, and the steering step of every context is as due as it was. -/
structure OnlyAddsRecords (s u : State) : Prop where
  records : s.records <+: u.records
  steer : ∀ c, (ctxOf u c).steer = (ctxOf s c).steer

namespace OnlyAddsRecords

variable {z s u : State}

theorem refl (s : State) : OnlyAddsRecords s s := ⟨List.prefix_rfl, fun _ => rfl⟩

theorem trans (a : OnlyAddsRecords z s) (b : OnlyAddsRecords s u) : OnlyAddsRecords z u :=
  ⟨a.records.trans b.records, fun c => (b.steer c).trans (a.steer c)⟩

/-- An update of other fields of the state. -/
theorem other (h : OnlyAddsRecords z s) (hr : u.records = s.records) (hx : u.contexts = s.contexts) : OnlyAddsRecords z u :=
  h.trans ⟨by rw [hr], fun c => by unfold ctxOf; rw [hx]⟩

theorem ite {a b : State} {c : Prop} [Decidable c] (ha : OnlyAddsRecords z a) (hb : OnlyAddsRecords z b) :
    OnlyAddsRecords z (if c then a else b) := by
  split
  · exact ha
  · exact hb

theorem foldl {α : Type} {f : State → α → State} {l : List α} (hf : ∀ s a, OnlyAddsRecords z s → OnlyAddsRecords z (f s a))
    (h : OnlyAddsRecords z s) : OnlyAddsRecords z (l.foldl f s) := foldl_keeps (P := OnlyAddsRecords z) hf l h

theorem modCtx {c : Nat} {f : Context → Context} (h : OnlyAddsRecords z s)
    (hf : ∀ x, (f x).steer = x.steer := by exact fun _ => rfl) : OnlyAddsRecords z (modCtx s c f) := by
  refine h.trans ⟨List.prefix_rfl, fun d => ?_⟩
  by_cases hd : d = c
  · subst hd; rw [ctxOf_modCtx, hf]
  · rw [ctxOf_modCtx_other hd]

theorem sends (h : OnlyAddsRecords z s) (hs : OnlySends s u) : OnlyAddsRecords z u := by
  obtain ⟨_, _, _, _, rfl⟩ := hs
  exact h.other rfl rfl

theorem activity (h : OnlyAddsRecords z s) (ha : OnlyActivity s u) : OnlyAddsRecords z u := by
  obtain ⟨_, rfl⟩ := ha
  exact h.other rfl rfl

theorem countAccess {own a n : Nat} {c : Option Nat} (h : OnlyAddsRecords z s) : OnlyAddsRecords z (countAccess s own c a n) :=
  h.activity (OnlyActivity.refl s).countAccess

theorem giveBack {res : Resource} {n : Nat} (h : OnlyAddsRecords z s) : OnlyAddsRecords z (giveBack s res n) := by
  obtain ⟨d, l, he⟩ := giveBack_eq s res n
  exact he ▸ h.other rfl rfl

/-! ### Events -/

theorem postEvent {f code ctx detail word : Nat} (h : OnlyAddsRecords z s) :
    OnlyAddsRecords z (postEvent s f code ctx detail word) := by
  unfold Machine.postEvent
  split
  · exact h.trans ⟨List.prefix_append _ _, fun _ => rfl⟩
  · exact h.other rfl rfl

theorem limited {key : Nat × Nat} {f : State → State} (h : OnlyAddsRecords z s)
    (hf : ∀ u, OnlyAddsRecords z u → OnlyAddsRecords z (f u)) : OnlyAddsRecords z (limited s key f) := by
  rcases limited_cases s key f with he | he
  · rw [he]; exact h
  · rw [he]; exact hf _ (h.other rfl rfl)

theorem promiseMiss {phys c row : Nat} (h : OnlyAddsRecords z s) : OnlyAddsRecords z (promiseMiss s phys c row) := by
  unfold Machine.promiseMiss
  refine limited (limited (h.other rfl rfl) fun _ hu => ?_) fun _ hu => hu.postEvent
  exact hu.other rfl rfl

theorem windowFault {c ca : Nat} (h : OnlyAddsRecords z s) : OnlyAddsRecords z (windowFault s c ca) :=
  have hm : OnlyAddsRecords z (Machine.modCtx s c fun x => { x with winFaults := satAdd 0xFFFF x.winFaults 1 }) := h.modCtx
  ite hm hm.modCtx.postEvent

theorem peerLossEvent {c dev : Nat} (h : OnlyAddsRecords z s) : OnlyAddsRecords z (peerLossEvent s c dev) := by
  unfold Machine.peerLossEvent
  dsimp only
  split
  · exact h
  · exact postEvent (h.other rfl rfl)

theorem poisonedRead {c a p : Nat} (h : OnlyAddsRecords z s) : OnlyAddsRecords z (poisonedRead s c a p) :=
  have hp : OnlyAddsRecords z (poisonEvent s c p) := limited h fun _ => postEvent
  ite hp.peerLossEvent hp

/-! ### Reads and writes of a unit -/

theorem winReadMark {c ca n : Nat} (h : OnlyAddsRecords z s) : OnlyAddsRecords z (winReadMark s c none ca n) := by
  unfold Machine.winReadMark
  split
  · next a _ =>
    have hh : OnlyAddsRecords z (if spaceOf a = 5 then hostRequest s (ctxOf s c).fn false a n else s) := ite (h.other rfl rfl) h
    dsimp only
    split
    · exact hh.poisonedRead
    · exact hh
  · exact h.windowFault

theorem unitReads {c : Nat} {o : Origin} {l : List (Nat × Nat)} (h : OnlyAddsRecords z s) :
    OnlyAddsRecords z (unitReads s c o l) := by
  refine foldl (fun v x hv => winReadMark ?_) h
  split
  · exact hv.countAccess.sends (OnlySends.refl _).askPeer
  · exact hv

theorem updatePage {page : Nat} (h : OnlyAddsRecords z s) : OnlyAddsRecords z (updatePage s page) := by
  unfold Machine.updatePage
  dsimp only
  refine ite h (ite (postEvent ?_) ?_)
  all_goals
    split
    · exact ite (postEvent (h.other rfl rfl)) (h.other rfl rfl)
    · exact h.other rfl rfl

theorem devWrite {fn a : Nat} {bs : List Byte} (h : OnlyAddsRecords z s) : OnlyAddsRecords z (devWrite s fn a bs) := by
  have hm : OnlyAddsRecords z { s with mem := s.mem.store (memKey s a) bs } := h.other rfl rfl
  exact ite h (ite h (ite (ite h (h.sends (OnlySends.refl s).sendPieces))
    (ite (foldl (fun _ _ => updatePage) hm) (ite (hm.other rfl rfl) (hm.other rfl rfl)))))

theorem winWrite {c ca : Nat} {bs : List Byte} (h : OnlyAddsRecords z s) : OnlyAddsRecords z (winWrite s c none ca bs) := by
  unfold Machine.winWrite
  split
  · exact h.devWrite
  · exact h.windowFault

theorem addRequest {r : Request} (h : OnlyAddsRecords z s) : OnlyAddsRecords z (addRequest s r) := h.other rfl rfl

theorem remotePiece {ctx a : Nat} {o : Origin} {bs payload : List Byte} {p : Option Nat} {cr : List (Resource × Nat)}
    (h : OnlyAddsRecords z s) : OnlyAddsRecords z (remotePiece s ctx o a bs payload p cr) := by
  have hr (r : Request) : OnlyAddsRecords z (countRequest (Machine.addRequest s r) r) :=
    h.addRequest.activity (countRequest_onlyActivity _ r)
  unfold Machine.remotePiece
  dsimp only
  split
  · exact (hr _).sends (OnlySends.refl _).queueOp
  · exact hr _

theorem remoteStore {ctx k : Nat} {o : Origin} : ∀ {s : State} {a : Nat} {bs : List Byte}, OnlyAddsRecords z s →
    OnlyAddsRecords z (remoteStore s ctx o a bs k) := by
  induction k with
  | zero => exact id
  | succ k ih => exact fun h => ite h (ih h.remotePiece)

theorem undefinedEffect {c : Nat} (h : OnlyAddsRecords z s) : OnlyAddsRecords z (undefinedEffect s c) := by
  have hstore (v : State) (x : Nat × Byte) (hv : OnlyAddsRecords z v) : OnlyAddsRecords z (undefinedStore c v x) := by
    unfold undefinedStore
    split
    · exact hv.devWrite
    · exact hv
  have hs := foldl (l := Config.undefinedStores s.freeCounter) hstore
    (h.other (u := { s with freeCounter := s.freeCounter + 1 }) rfl rfl)
  exact ite (modCtx (hs.other rfl rfl)) (hs.other rfl rfl)

theorem unitWrite {ctx ca : Nat} {o : Origin} {bs : List Byte} (h : OnlyAddsRecords z s) :
    OnlyAddsRecords z (unitWrite s ctx o ca bs) := by
  unfold Machine.unitWrite
  split
  · exact ite (ite h.peerLossEvent h.remoteStore) (ite h.undefinedEffect h.countAccess.devWrite)
  · exact h.windowFault

theorem devAtomic {fn a m x y : Nat} (h : OnlyAddsRecords z s) : OnlyAddsRecords z (devAtomic s fn a m x y).2 := by
  unfold Machine.devAtomic
  dsimp only
  split
  · exact h
  · split
    · exact h.devWrite
    · exact h

/-! ### What a job reports (R167) -/

theorem unitToken {ctx : Nat} {o : Origin} {w : DWord} {d : Option Nat} {j : Option JobPromise} (h : OnlyAddsRecords z s) :
    OnlyAddsRecords z (unitToken s ctx o w d j) := ite h h.addRequest

theorem unitSignal {ctx ca v : Nat} {o : Origin} {l : List Nat} {j : Option JobPromise} (h : OnlyAddsRecords z s) :
    OnlyAddsRecords z (unitSignal s ctx o ca v l j) := by
  unfold Machine.unitSignal
  refine ite h ?_
  split
  · exact h.addRequest
  · exact h.windowFault

end OnlyAddsRecords

/-! ### Steering (R325) -/

/-- Steering reads and writes its record and the statistics; no context's step becomes due by it. -/
theorem steerEffect_onlyAddsRecords (s : State) (c ca : Nat) (flag : Bool) : OnlyAddsRecords s (steerEffect s c ca flag) := by
  have hmasks (u : State) (fn : Nat) (r : List Byte) (h : OnlyAddsRecords s u) : OnlyAddsRecords s (clearMasks u fn r) :=
    .foldl (fun _ _ hv => hv.devWrite) h
  unfold steerEffect
  extract_lets r fn n x off cleared old use g2e se f mb ignored s1 s2 s3 s4
  have hcleared : OnlyAddsRecords s cleared := hmasks _ _ _ (OnlyAddsRecords.refl s).winReadMark
  have hfree : OnlyAddsRecords s f.2 := hcleared.other rfl rfl
  exact hfree.winWrite.winWrite.winWrite.winWrite.winWrite

end Sys2Proof.Machine
end

section
/-! SUPPORT. What the reduction sequencers leave as they work (R310 to R327): a job leaves a sequencer or stays, none joins it and none
takes a tag; no ring moves on; records are only added. -/

namespace Sys2Proof.Machine

-- One proof at a time: each that waits for another holds a thread, whose stack counts toward the memory limit.
set_option Elab.async false

open Sys2Proof

/-! ### Reports that judge no job of another unit -/

section Reports

variable {α : Type} {f : LogRegion → α} {z s : State} {ctx : Nat} {o : Origin}

theorem KeepsWork.unitEnd {j : Option JobPromise} (hj : ∀ p ∈ j, p.job = none) (h : KeepsWork f z s) :
    KeepsWork f z (unitEnd s ctx o j) := by
  unfold Machine.unitEnd
  split
  · exact h.other rfl rfl rfl
  · cases j with
    | none => exact h
    | some p =>
      unfold judgeJob
      dsimp only
      rw [hj p rfl]
      exact ite h.promiseMiss h

theorem KeepsWork.unitReport {token : DWord} {done : Nat} {d : Option Nat} {j : Option JobPromise} (hj : ∀ p ∈ j, p.job = none)
    (h : KeepsWork f z s) : KeepsWork f z (unitReport s ctx o token done d j) :=
  have hs := h.unitToken.unitSignal
  ite (hs.unitEnd hj) hs

theorem OnlyAddsRecords.unitEnd {j : Option JobPromise} (hj : ∀ p ∈ j, p.job = none) (h : OnlyAddsRecords z s) :
    OnlyAddsRecords z (unitEnd s ctx o j) := by
  unfold Machine.unitEnd
  split
  · exact h.other rfl rfl
  · cases j with
    | none => exact h
    | some p =>
      unfold judgeJob
      dsimp only
      rw [hj p rfl]
      exact ite h.promiseMiss h

theorem OnlyAddsRecords.unitReport {token : DWord} {done : Nat} {d : Option Nat} {j : Option JobPromise}
    (hj : ∀ p ∈ j, p.job = none) (h : OnlyAddsRecords z s) : OnlyAddsRecords z (unitReport s ctx o token done d j) :=
  have hs := h.unitToken.unitSignal
  ite (hs.unitEnd hj) hs

end Reports

/-! ### What the sequencers leave -/

/-- The tags of the jobs of a sequencer. -/
def Sequencer.tags (q : Sequencer) : List Nat := q.jobs.map (·.tag)

/-- The next record of a context's reduction ring in a region. -/
def nextReduce (s : State) (c L : Nat) : Nat := (ctxRegionOf (ctxOf s c) L).reduceNext

/-- No sequencer has taken a job or a tag, no ring has moved on, and records have only been added. -/
structure KeepsTags (s u : State) : Prop where
  records : s.records <+: u.records
  nextTag : ∀ L, (seqOf u L).nextTag = (seqOf s L).nextTag
  tags : ∀ L, (seqOf u L).tags ⊆ (seqOf s L).tags
  rings : ∀ c L, nextReduce u c L = nextReduce s c L

/-- Jobs that are replaced by jobs of their tags leave the tags as they are. -/
theorem map_tags_subset {f : ReduceJob → ReduceJob} (hf : ∀ k, (f k).tag = k.tag) (l : List ReduceJob) :
    (l.map f).map (·.tag) ⊆ l.map (·.tag) := by
  have hmap : (l.map f).map (·.tag) = l.map (·.tag) := by
    rw [List.map_map]
    exact List.map_congr_left fun k _ => hf k
  rw [hmap]
  exact List.Subset.refl _

theorem filter_tags_subset (p : ReduceJob → Bool) (l : List ReduceJob) : (l.filter p).map (·.tag) ⊆ l.map (·.tag) :=
  List.map_subset _ (List.filter_subset_self _)

/-- An operation of a unit to a peer is sent, and nothing else. -/
theorem OnlySends.peerOp {s u : State} {r : Request} (h : OnlySends s u) : OnlySends s (peerOp u r) := by
  unfold Machine.peerOp
  dsimp only
  split
  · exact h
  · split <;> exact h.queueOp

theorem nextReduce_modCtxRegion {s : State} {c L : Nat} {f : CtxRegion → CtxRegion}
    (hf : ∀ x, (f x).reduceNext = x.reduceNext) (d M : Nat) : nextReduce (modCtxRegion s c L f) d M = nextReduce s d M := by
  unfold nextReduce
  by_cases hd : d = c
  · subst hd
    by_cases hM : M = L
    · subst hM; rw [ctxRegionOf_modCtxRegion, hf]
    · unfold modCtxRegion ctxRegionOf mmod
      rw [ctxOf_modCtx]
      exact congrArg CtxRegion.reduceNext (mget_mset_other _ _ _ hM)
  · unfold modCtxRegion
    rw [ctxOf_modCtx_other hd]

namespace KeepsTags

variable {z s u : State} {L : Nat} {j : ReduceJob}

theorem refl (s : State) : KeepsTags s s := ⟨List.prefix_rfl, fun _ => rfl, fun _ => List.Subset.refl _, fun _ _ => rfl⟩

theorem trans (a : KeepsTags z s) (b : KeepsTags s u) : KeepsTags z u :=
  ⟨a.records.trans b.records, fun L => (b.nextTag L).trans (a.nextTag L), fun L => List.Subset.trans (b.tags L) (a.tags L),
    fun c L => (b.rings c L).trans (a.rings c L)⟩

theorem ite {a b : State} {c : Prop} [Decidable c] (ha : KeepsTags z a) (hb : KeepsTags z b) : KeepsTags z (if c then a else b) := by
  split
  · exact ha
  · exact hb

theorem foldl {α : Type} {f : State → α → State} {l : List α} (hf : ∀ s a, KeepsTags z s → KeepsTags z (f s a))
    (h : KeepsTags z s) : KeepsTags z (l.foldl f s) := foldl_keeps (P := KeepsTags z) hf l h

/-- What a unit does that touches no sequencer and no ring. -/
theorem unit (h : KeepsTags z s) (hw : KeepsWork LogRegion.seqr s u) (hr : OnlyAddsRecords s u) : KeepsTags z u := by
  have hseq (L : Nat) : seqOf u L = seqOf s L := hw.part L
  refine h.trans ⟨hr.records, fun L => by rw [hseq], fun L => by rw [hseq]; exact List.Subset.refl _, fun c L => ?_⟩
  unfold nextReduce ctxRegionOf
  rw [hw.rings]

/-- An update of other fields of the state. -/
theorem other (h : KeepsTags z s) (hl : u.logs = s.logs) (hx : u.contexts = s.contexts) (hr : u.records = s.records) :
    KeepsTags z u := by
  refine h.trans ⟨by rw [hr], fun L => ?_, fun L => ?_, fun c L => ?_⟩
  · unfold seqOf regionOf; rw [hl]
  · unfold seqOf regionOf; rw [hl]; exact List.Subset.refl _
  · unfold nextReduce ctxOf; rw [hx]

theorem modSeq {f : Sequencer → Sequencer} (h : KeepsTags z s)
    (hn : ∀ q, (f q).nextTag = q.nextTag := by exact fun _ => rfl)
    (ht : ∀ q, (f q).tags ⊆ q.tags := by exact fun _ => List.Subset.refl _) : KeepsTags z (modSeq s L f) := by
  have hother {M : Nat} (hM : M ≠ L) : seqOf (Machine.modSeq s L f) M = seqOf s M :=
    congrArg LogRegion.seqr (regionOf_modRegion_other hM)
  refine h.trans ⟨List.prefix_rfl, fun M => ?_, fun M => ?_, fun _ _ => rfl⟩
  · by_cases hM : M = L
    · rw [hM, seqOf_modSeq, hn]
    · rw [hother hM]
  · by_cases hM : M = L
    · rw [hM, seqOf_modSeq]; exact ht _
    · rw [hother hM]; exact List.Subset.refl _

theorem modCtx {c : Nat} {f : Context → Context} (h : KeepsTags z s)
    (hf : ∀ x, (f x).regions = x.regions := by exact fun _ => rfl) : KeepsTags z (modCtx s c f) := by
  refine h.trans ⟨List.prefix_rfl, fun _ => rfl, fun _ => List.Subset.refl _, fun d L => ?_⟩
  unfold nextReduce ctxRegionOf
  by_cases hd : d = c
  · rw [hd, ctxOf_modCtx, hf]
  · rw [ctxOf_modCtx_other hd]

theorem modCtxRegion {c : Nat} {f : CtxRegion → CtxRegion} (h : KeepsTags z s)
    (hf : ∀ x, (f x).reduceNext = x.reduceNext := by exact fun _ => rfl) : KeepsTags z (modCtxRegion s c L f) :=
  h.trans ⟨List.prefix_rfl, fun _ => rfl, fun _ => List.Subset.refl _, nextReduce_modCtxRegion hf⟩

/-! ### Acts of the unit -/

theorem sends (h : KeepsTags z s) (hs : OnlySends s u) : KeepsTags z u :=
  h.unit ((KeepsWork.refl s).sends hs) ((OnlyAddsRecords.refl s).sends hs)

theorem giveBack {res : Resource} {n : Nat} (h : KeepsTags z s) : KeepsTags z (giveBack s res n) :=
  h.unit (KeepsWork.refl s).giveBack (OnlyAddsRecords.refl s).giveBack

theorem promiseMiss {phys c row : Nat} (h : KeepsTags z s) : KeepsTags z (promiseMiss s phys c row) :=
  h.unit (KeepsWork.refl s).promiseMiss (OnlyAddsRecords.refl s).promiseMiss

theorem peerLossEvent {c dev : Nat} (h : KeepsTags z s) : KeepsTags z (peerLossEvent s c dev) :=
  h.unit (KeepsWork.refl s).peerLossEvent (OnlyAddsRecords.refl s).peerLossEvent

theorem unitReads {c : Nat} {o : Origin} {l : List (Nat × Nat)} (h : KeepsTags z s) : KeepsTags z (unitReads s c o l) :=
  h.unit (KeepsWork.refl s).unitReads (OnlyAddsRecords.refl s).unitReads

theorem unitWrite {c ca : Nat} {o : Origin} {bs : List Byte} (h : KeepsTags z s) : KeepsTags z (unitWrite s c o ca bs) :=
  h.unit (KeepsWork.refl s).unitWrite (OnlyAddsRecords.refl s).unitWrite

theorem undefinedEffect {c : Nat} (h : KeepsTags z s) : KeepsTags z (undefinedEffect s c) :=
  h.unit (KeepsWork.refl s).undefinedEffect (OnlyAddsRecords.refl s).undefinedEffect

theorem remotePiece {ctx a : Nat} {o : Origin} {bs payload : List Byte} {p : Option Nat} {cr : List (Resource × Nat)}
    (h : KeepsTags z s) : KeepsTags z (remotePiece s ctx o a bs payload p cr) :=
  h.unit (KeepsWork.refl s).remotePiece (OnlyAddsRecords.refl s).remotePiece

/-- A mask bit is set in this device's memory, or by an operation to a peer (R324). -/
theorem orWord {c a n : Nat} {o : Origin} (h : KeepsTags z s) : KeepsTags z (orWord s c o a n) := by
  unfold Machine.orWord
  split
  · exact h.unit (KeepsWork.refl s).windowFault (OnlyAddsRecords.refl s).windowFault
  · refine ite (ite h.peerLossEvent ?_) ?_
    · have hr (r : Request) : KeepsTags z (countRequest (addRequest s r) r) :=
        h.unit ((KeepsWork.refl s).addRequest.activity (countRequest_onlyActivity _ r))
          ((OnlyAddsRecords.refl s).addRequest.activity (countRequest_onlyActivity _ r))
      exact (hr _).sends (OnlySends.refl _).peerOp
    · exact h.unit (KeepsWork.refl s).countAccess.devAtomic (OnlyAddsRecords.refl s).countAccess.devAtomic

theorem jobPass {f : State → State} (h : KeepsTags z s) (hf : ∀ u, KeepsTags z u → KeepsTags z (f u)) :
    KeepsTags z (jobPass s j f) :=
  (hf (withWindows s j.ctx j.wins) (h.other rfl rfl rfl)).other rfl rfl rfl

theorem reportReduce (h : KeepsTags z s) : KeepsTags z (reportReduce s L j) := by
  have hjob : ∀ p ∈ j.doneBy.map fun t => ({ due := t, phys := (physOfLogical s L).getD 0xFF, row := 15, job := none } : JobPromise),
      p.job = none := by
    intro p hp
    obtain ⟨t, -, rfl⟩ := Option.map_eq_some_iff.mp hp
    rfl
  exact h.unit ((KeepsWork.refl s).unitReport hjob) ((OnlyAddsRecords.refl s).unitReport hjob)

/-! ### Jobs and packets -/

theorem setReduce (h : KeepsTags z s) : KeepsTags z (setReduce s L j) := by
  refine h.modSeq (fun _ => rfl) fun q => map_tags_subset (fun k => ?_) q.jobs
  split
  · next htag => exact htag.symm
  · rfl

theorem contributed {c : Nat} (h : KeepsTags z s) : KeepsTags z (contributed s L c) := h.modSeq

theorem queuePacket {tag dest : Nat} {p : Packet} (h : KeepsTags z s) : KeepsTags z (queuePacket s L tag dest p) := h.modSeq

theorem queueBlocks {op dest lo hi : Nat} {payload : Nat → Nat → List Byte} (h : KeepsTags z s) :
    KeepsTags z (queueBlocks s L j op dest lo hi payload) := foldl (fun _ _ => queuePacket) h

theorem removeReduce (h : KeepsTags z s) : KeepsTags z (removeReduce s L j) := by
  unfold Machine.removeReduce
  extract_lets s1
  have h1 : KeepsTags z s1 := h.modSeq (fun _ => rfl) fun q => filter_tags_subset _ q.jobs
  exact h1.other rfl rfl rfl

theorem dropTail (h : KeepsTags z s) : KeepsTags z (dropTail s L j) :=
  h.modSeq.jobPass fun _ hu => foldl (fun _ _ => unitWrite) hu

/-- A job that is aborted is removed, between what else its abort does. -/
theorem abortReduce_removes (s : State) (L : Nat) (j : ReduceJob) (send aborted report : Bool) :
    ∃ v, KeepsTags s v ∧ KeepsTags (Machine.removeReduce v L j) (abortReduce s L j send aborted report) := by
  unfold abortReduce
  extract_lets s1 sDropped sCounted sWritten sRemoved sSent
  have hdropped : KeepsTags s sDropped := (refl s).modSeq.dropTail
  have hcounted : KeepsTags s sCounted := ite hdropped.modCtxRegion.contributed hdropped
  have hwritten : KeepsTags s sWritten := ite (hcounted.jobPass fun _ => unitWrite) hcounted
  have hsent : KeepsTags sRemoved sSent := ite (foldl (fun _ _ => queuePacket) (refl _)) (refl _)
  exact ⟨sWritten, hwritten, ite hsent.reportReduce hsent⟩

theorem abortReduce {send aborted report : Bool} (h : KeepsTags z s) : KeepsTags z (abortReduce s L j send aborted report) := by
  obtain ⟨v, hv, hremoved⟩ := abortReduce_removes s L j send aborted report
  exact (h.trans hv).removeReduce.trans hremoved

/-! ### The passes of a contributor and of an owner (R310 to R317, R320, R324) -/

theorem writeStat {o : Origin} {off idx mask : Nat} {v : Word} {samples : Option Nat} (h : KeepsTags z s) :
    KeepsTags z (writeStat s o j off idx v mask samples) := by
  unfold Machine.writeStat
  refine ite h (orWord ?_)
  split
  · exact h.unitWrite.unitWrite
  · exact h.unitWrite

theorem localPass (h : KeepsTags z s) : KeepsTags z (localPass s L j) := by
  unfold Machine.localPass
  extract_lets r o e th g x w sRead sBlocks sWritten sStat
  have hread : KeepsTags z sRead := h.unitReads
  have hblocks : KeepsTags z sBlocks := foldl (fun _ _ => unitWrite) hread
  have hwritten : KeepsTags z sWritten := ite hread.undefinedEffect (foldl (fun _ _ => unitWrite) hblocks)
  have hstat : KeepsTags z sStat := hwritten.writeStat
  exact hstat.setReduce

theorem contributorStart (h : KeepsTags z s) : KeepsTags z (contributorStart s L j) := ite h (h.jobPass fun _ => localPass)

theorem sendMax {owner : Nat} (h : KeepsTags z s) : KeepsTags z (sendMax s L j owner) := foldl (fun _ _ => queueBlocks) h

theorem convertPass (h : KeepsTags z s) : KeepsTags z (convertPass s L j) := by
  unfold Machine.convertPass
  extract_lets r o x s1 half s2 s3 bytes s4
  have h1 : KeepsTags z s1 := h.unitReads
  have h2 : KeepsTags z s2 := ite h1.undefinedEffect (unitWrite (foldl (fun _ _ => unitWrite) h1))
  have h3 : KeepsTags z s3 := ite h1 h2.modSeq
  exact foldl (fun _ _ => queueBlocks) h3.setReduce

theorem learnExps {es : List (Nat × BitVec 8)} (h : KeepsTags z s) : KeepsTags z (learnExps s L j es).2 := by
  unfold Machine.learnExps
  dsimp only
  split
  · exact h.setReduce
  · exact h.setReduce.modCtxRegion.contributed

theorem agreePass (h : KeepsTags z s) : KeepsTags z (agreePass s L j) := foldl (fun _ _ => queueBlocks) h.learnExps

theorem addBlock {o : Origin} {b : Nat} {bs : List Byte} (h : KeepsTags z s) : KeepsTags z (addBlock s o j b bs) := ite h h.unitWrite

theorem writeResult {o : Origin} {accs : List (BitVec 8 × List Word)} (h : KeepsTags z s) :
    KeepsTags z (writeResult s o j accs) := by
  unfold Machine.writeResult
  extract_lets r n F s1 s2
  have h1 : KeepsTags z s1 := ite (foldl (fun _ _ => unitWrite) h) h
  exact ite (foldl (fun _ _ => unitWrite) (foldl (fun _ _ => unitWrite) h1)) h1

theorem resultPass (h : KeepsTags z s) : KeepsTags z (resultPass s L j) := by
  unfold Machine.resultPass
  exact (ite h.unitReads.undefinedEffect h.unitReads.writeResult).writeStat.setReduce

theorem ownerStart (h : KeepsTags z s) : KeepsTags z (ownerStart s L j) := by
  have hcleared := ite (c := j.tainted = true) h (h.jobPass (j := j)
    (f := fun s => clearArea s j.ctx (jobUnit L j) j.rcd.acc (256 * j.rcd.bpo)) fun _ hu => foldl (fun _ _ => unitWrite) hu)
  exact ite h (foldl (fun _ _ => queuePacket) hcleared)

theorem taintReduce (h : KeepsTags z s) : KeepsTags z (taintReduce s L j) := by
  unfold Machine.taintReduce
  refine ite h (foldl (fun v x hv => hv.modSeq (fun _ => rfl) fun q => map_tags_subset (fun k => ?_) q.jobs) h)
  split <;> rfl

/-! ### Packets that are performed (R318, R319, R326) -/

section Packets

variable {p : Packet}

theorem performGrant (h : KeepsTags z s) : KeepsTags z (performGrant s L j p) := ite h h.setReduce.sendMax

theorem performMax (h : KeepsTags z s) : KeepsTags z (performMax s L j p) := ite h.setReduce.agreePass h.setReduce

theorem performExp (h : KeepsTags z s) : KeepsTags z (performExp s L j p) :=
  ite (h.learnExps.setReduce.jobPass fun _ => convertPass) h.learnExps.setReduce

theorem performData (h : KeepsTags z s) : KeepsTags z (performData s L j p) := by
  unfold Machine.performData
  extract_lets k s1 j' s2
  have h1 : KeepsTags z s1 := ite h (h.jobPass fun _ hu => foldl (fun _ _ => addBlock) hu)
  have h2 : KeepsTags z s2 := h1.setReduce
  exact ite (h2.jobPass fun _ => resultPass) h2

theorem performPacket (h : KeepsTags z s) : KeepsTags z (performPacket s L j p) := by
  unfold Machine.performPacket
  refine ite h.abortReduce (ite h.abortReduce ?_)
  split
  · exact h.performGrant
  · exact h.performMax
  · exact h.performExp
  · exact h.performData
  · exact h.setReduce

theorem drainInbox {n : Nat} : ∀ {s : State}, KeepsTags z s → KeepsTags z (drainInbox L n s) := by
  induction n with
  | zero => exact id
  | succ n ih =>
    intro s h
    unfold Machine.drainInbox
    split
    · exact h
    · refine ih ?_
      have hgiven (q : Packet) := (h.modSeq (L := L) (f := fun r =>
        { r with inbox := r.inbox.erase q, recvSeq := mset r.recvSeq (q.sender, q.ch) ((q.seq + 1) % 2 ^ 32) })).giveBack
          (res := .reduceInbox L) (n := 1)
      split
      · exact (hgiven _).performPacket
      · exact hgiven _

/-! ### Packets that are sent (R311, R318, R319) -/

theorem askPacket {dest : Nat} (h : KeepsTags z s) : KeepsTags z (askPacket s L dest) := ite h (h.sends (OnlySends.refl s).askLending)

theorem deliverPacket {ctx dest : Nat} (h : KeepsTags z s) : KeepsTags z (deliverPacket s L ctx dest p) := by
  have hreserved : KeepsTags z (reserve s (.region L, packetBox s dest, 1)) := h.sends (OnlySends.refl s).reserve
  have hend {ctx : Nat} {o : Origin} {due phys row : Nat} {v : State} (hv : KeepsTags z v) :
      KeepsTags z (unitEnd v ctx o (some { due := due, phys := phys, row := row, job := none })) := by
    have hjob : ∀ x ∈ some ({ due := due, phys := phys, row := row, job := none } : JobPromise), x.job = none := by
      rintro x ⟨rfl⟩; rfl
    exact hv.unit ((KeepsWork.refl v).unitEnd hjob) ((OnlyAddsRecords.refl v).unitEnd hjob)
  unfold Machine.deliverPacket
  refine ite (modSeq (hreserved.other rfl rfl rfl)) (ite h.peerLossEvent ?_)
  extract_lets k a
  have hk : KeepsTags z k.2 := hreserved.other rfl rfl rfl
  exact hend hk.remotePiece

theorem sendPacket {x : Nat × Nat × Packet} (h : KeepsTags z s) : KeepsTags z (sendPacket s L x) := by
  refine deliverPacket (h.modSeq (fun _ => rfl) fun q => map_tags_subset (fun k => ?_) q.jobs)
  split <;> rfl

theorem sendPass {l : List (Nat × Nat × Packet)} : ∀ {kept : List (Nat × Nat × Packet)} {s : State}, KeepsTags z s →
    KeepsTags z (sendPass L l kept s).2 := by
  induction l with
  | nil => exact id
  | cons x r ih =>
    intro kept s h
    unfold Machine.sendPass
    split
    · exact ih h
    · dsimp only
      split
      · exact ih h.askPacket.sendPacket
      · exact ih h.askPacket

theorem sendAll {n : Nat} : ∀ {s : State}, KeepsTags z s → KeepsTags z (sendAll L n s) := by
  induction n with
  | zero => exact id
  | succ n ih => exact fun h => ite h.sendPass.modSeq (ih h.sendPass.modSeq)

end Packets

/-! ### Jobs that complete (R310, R321 to R323) -/

theorem applyLoss {c loss : Nat} {o : Origin} {flag : Bool} (h : KeepsTags z s) : KeepsTags z (applyLoss s c o loss flag) :=
  h.unitReads.unitWrite.unitWrite

theorem sendLift {c t : Nat} (h : KeepsTags z s) : KeepsTags z (sendLift s c t) := by
  unfold Machine.sendLift
  refine ite h (foldl (fun v d hv => ?_) (h.other rfl rfl rfl))
  split
  · exact hv.other rfl rfl rfl
  · exact hv

theorem stepOutcome {o : Origin} (h : KeepsTags z s) : KeepsTags z (stepOutcome s o j) := h.applyLoss.modCtx.sendLift

theorem settleTail {o : Origin} {flag : Bool} {x : PendingTail} (h : KeepsTags z s) : KeepsTags z (settleTail s o flag x) :=
  ite h.unitWrite h.unitReads.unitWrite.unitWrite

theorem outcomeEffect (h : KeepsTags z s) : KeepsTags z (outcomeEffect s L j) := by
  unfold Machine.outcomeEffect
  extract_lets o s1 mine tails s2 s3
  have h1 : KeepsTags z s1 := h.jobPass fun _ => unitWrite
  have h3 : KeepsTags z s3 := foldl (fun _ _ => settleTail) h1.modSeq
  exact ite (h3.jobPass fun _ => stepOutcome) h3

theorem endInterval (h : KeepsTags z s) : KeepsTags z (endInterval s L j) := by
  unfold Machine.endInterval
  split
  · exact ite h (ite h.setReduce.promiseMiss h.setReduce)
  · exact h

theorem completeReduce (h : KeepsTags z s) : KeepsTags z (completeReduce s L j) := by
  have he : KeepsTags z (if j.rcd.op = 2 then Machine.outcomeEffect s L j else s) := ite h.outcomeEffect h
  exact he.modCtxRegion.reportReduce.setReduce

theorem finishReduce (h : KeepsTags z s) : KeepsTags z (finishReduce s L j) := by
  unfold Machine.finishReduce
  extract_lets s1
  have h1 : KeepsTags z s1 := ite h.completeReduce h
  split
  · exact ite h1.removeReduce h1
  · exact h1

theorem settleSeq (h : KeepsTags z s) : KeepsTags z (settleSeq s L) := by
  unfold Machine.settleSeq
  refine foldl (fun v t hv => ?_) h.sendAll
  split
  · dsimp only
    split
    · exact hv.endInterval.finishReduce
    · exact hv.endInterval
  · exact hv

theorem runSequencers (h : KeepsTags z s) : KeepsTags z (runSequencers s L) :=
  foldl (fun _ _ => settleSeq) h.drainInbox.settleSeq.drainInbox

end KeepsTags

end Sys2Proof.Machine
end

section
/-! SUPPORT. REDUCE and OUTCOME records that are taken (R306, R307, R326), and jobs that are aborted at their deadlines (R327). -/

namespace Sys2Proof.Machine

-- One proof at a time: each that waits for another holds a thread, whose stack counts toward the memory limit.
set_option Elab.async false

open Sys2Proof

section Taking

variable {s u : State} {c L next : Nat} {r : ReduceRec}

/-! ### Rings and sequencers through single updates -/

theorem seqOf_of_keepsWork (h : KeepsWork LogRegion.seqr s u) (M : Nat) : seqOf u M = seqOf s M := h.part M

theorem nextReduce_of_keepsWork {α : Type} {f : LogRegion → α} (h : KeepsWork f s u) (d M : Nat) :
    nextReduce u d M = nextReduce s d M := by
  unfold nextReduce ctxRegionOf
  rw [h.rings]

theorem nextReduce_modSeq {M : Nat} {f : Sequencer → Sequencer} (d N : Nat) : nextReduce (modSeq s M f) d N = nextReduce s d N := rfl

theorem seqOf_modCtxRegion {f : CtxRegion → CtxRegion} (M : Nat) : seqOf (modCtxRegion s c L f) M = seqOf s M := rfl

theorem nextReduce_modCtxRegion_same {f : CtxRegion → CtxRegion} :
    nextReduce (modCtxRegion s c L f) c L = (f (ctxRegionOf (ctxOf s c) L)).reduceNext :=
  congrArg CtxRegion.reduceNext ctxRegionOf_modCtxRegion

/-! ### A record that is consumed, and a job that is refused or added -/

/-- A record is read, its ring moves on, and the ring's head in memory is written. -/
theorem consumeReduce_parts (s : State) (c L next : Nat) (r : ReduceRec) : ∃ v, KeepsWork LogRegion.seqr s v ∧
    KeepsWork LogRegion.seqr (modCtxRegion v c L fun x => { x with reduceNext := (next + 1) % 2 ^ 32 }) (consumeReduce s c L next r) :=
  ⟨_, (KeepsWork.refl s).unitReads, (KeepsWork.refl _).writeConsumed⟩

/-- A record that is consumed moves its ring on; no sequencer changes. -/
theorem consumeReduce_spec (s : State) (c L next : Nat) (r : ReduceRec) :
    nextReduce (consumeReduce s c L next r) c L = (next + 1) % 2 ^ 32 ∧ ∀ M, seqOf (consumeReduce s c L next r) M = seqOf s M := by
  obtain ⟨v, hread, hwritten⟩ := consumeReduce_parts s c L next r
  refine ⟨?_, fun M => ?_⟩
  · rw [nextReduce_of_keepsWork hwritten, nextReduce_modCtxRegion_same]
  · rw [seqOf_of_keepsWork hwritten, seqOf_modCtxRegion, seqOf_of_keepsWork hread]

/-- A refusal is counted, reported, and takes a tag; no job changes. -/
theorem refuseReduce_parts (s : State) (L c : Nat) (r : ReduceRec) : ∃ v,
    KeepsWork (fun R => R.seqr.jobs) (modCtxRegion s c L fun x => { x with refusedJobs := satAdd 0xFF x.refusedJobs 1 }) v ∧
      refuseReduce s L c r = modSeq v L fun q => { q with nextTag := q.nextTag + 1 } := by
  unfold refuseReduce
  extract_lets o sCounted sTold
  have hcounted : KeepsWork (fun R => R.seqr.jobs) sCounted sCounted := .refl sCounted
  have hcontributed : KeepsWork (fun R => R.seqr.jobs) sCounted (contributed sCounted L c) := by
    unfold contributed modSeq
    exact hcounted.modRegion rfl
  have htold : KeepsWork (fun R => R.seqr.jobs) sCounted sTold := .ite (.ite hcounted.unitWrite hcounted) hcontributed
  exact ⟨_, htold.unitReport fun _ hp => absurd hp (Option.not_mem_none _), rfl⟩

/-- A job that is refused leaves the ring where it is and the jobs of its sequencer as they are. -/
theorem refuseReduce_spec (s : State) (L c : Nat) (r : ReduceRec) : nextReduce (refuseReduce s L c r) c L = nextReduce s c L ∧
    (seqOf (refuseReduce s L c r) L).jobs = (seqOf s L).jobs := by
  obtain ⟨v, hv, he⟩ := refuseReduce_parts s L c r
  have hjobs : (seqOf v L).jobs = (seqOf s L).jobs := hv.part L
  rw [he, nextReduce_modSeq, nextReduce_of_keepsWork hv, nextReduce_modCtxRegion_same, seqOf_modSeq]
  exact ⟨rfl, hjobs⟩

/-- A record is refused: the ring has moved on, and no job of the sequencer has changed. -/
def RecordRefused (s : State) (c L next : Nat) (u : State) : Prop :=
  nextReduce u c L = (next + 1) % 2 ^ 32 ∧ (seqOf u L).jobs = (seqOf s L).jobs

theorem recordRefused (s : State) (c L next : Nat) (r : ReduceRec) :
    RecordRefused s c L next (refuseReduce (consumeReduce s c L next r) L c r) := by
  obtain ⟨hnext, hseqs⟩ := consumeReduce_spec s c L next r
  obtain ⟨hring, hjobs⟩ := refuseReduce_spec (consumeReduce s c L next r) L c r
  exact ⟨hring.trans hnext, by rw [hjobs, hseqs]⟩

/-- Its transfer may end as well. -/
theorem RecordRefused.endTransfer {x : XferUse} (h : RecordRefused s c L next u) : RecordRefused s c L next (endTransfer u x) := h

theorem RecordRefused.completes {i : Instr} (h : RecordRefused s c L next u) (hexec : exec i s = .next u) :
    Completes i s fun u => (ctxRegionOf (ctxOf u c) L).reduceNext = (next + 1) % 2 ^ 32 ∧ (seqOf u L).jobs = (seqOf s L).jobs :=
  ⟨u, hexec, h⟩

/-- A record is accepted: the ring has moved on, and the sequencer has given its next tag. -/
def RecordAccepted (s : State) (c L next : Nat) (u : State) : Prop :=
  nextReduce u c L = (next + 1) % 2 ^ 32 ∧ (seqOf u L).nextTag = (seqOf s L).nextTag + 1

theorem RecordAccepted.completes {i : Instr} (h : RecordAccepted s c L next u) (hexec : exec i s = .next u) :
    Completes i s fun u => (ctxRegionOf (ctxOf u c) L).reduceNext = (next + 1) % 2 ^ 32 ∧
      (seqOf u L).nextTag = (seqOf s L).nextTag + 1 :=
  ⟨u, hexec, h⟩

theorem RecordAccepted.of_keepsTags {v : State} (h : RecordAccepted s c L next u) (hk : KeepsTags u v) :
    RecordAccepted s c L next v :=
  ⟨(hk.rings c L).trans h.1, (hk.nextTag L).trans h.2⟩

theorem addReduce_spec (s : State) (c L : Nat) (j : ReduceJob) : nextReduce (addReduce s L j) c L = nextReduce s c L ∧
    (seqOf (addReduce s L j) L).nextTag = (seqOf s L).nextTag + 1 := by
  unfold addReduce
  rw [seqOf_modSeq]
  exact ⟨rfl, rfl⟩

/-- The job of a consumed record takes the next tag. -/
theorem recordAccepted_addReduce (s : State) (c L next : Nat) (r : ReduceRec) (j : ReduceJob) :
    RecordAccepted s c L next (addReduce (consumeReduce s c L next r) L j) := by
  obtain ⟨hnext, hseqs⟩ := consumeReduce_spec s c L next r
  obtain ⟨hring, htag⟩ := addReduce_spec (consumeReduce s c L next r) c L j
  exact ⟨hring.trans hnext, by rw [htag, hseqs]⟩

/-- A REDUCE job that starts takes the tag once: no pass of it takes another, or moves the ring (R310). -/
theorem startReduce_accepted (s : State) (L c next : Nat) (r : ReduceRec) (t : Nat) :
    RecordAccepted s c L next (startReduce s L c next r t) := by
  unfold startReduce
  extract_lets j sTainted sStarted
  have htainted : KeepsTags (addReduce (consumeReduce s c L next r) L j) sTainted := (KeepsTags.refl _).taintReduce
  have hstarted : KeepsTags (addReduce (consumeReduce s c L next r) L j) sStarted := by
    unfold sStarted
    split
    · exact htainted.ownerStart.contributorStart
    · exact htainted
  exact (recordAccepted_addReduce s c L next r j).of_keepsTags hstarted.runSequencers

/-- So does an OUTCOME job (R321). -/
theorem startOutcome_accepted (s : State) (L c next : Nat) (r : ReduceRec) :
    RecordAccepted s c L next (startOutcome s L c next r) := by
  unfold startOutcome
  extract_lets used chans flag sRead j sAdded sCleared sQueued
  have hread : KeepsWork LogRegion.seqr s sRead := (KeepsWork.refl s).unitReads
  obtain ⟨hnext, htag⟩ := recordAccepted_addReduce sRead c L next r j
  have hadded : RecordAccepted s c L next sAdded := ⟨hnext, by rw [← seqOf_of_keepsWork hread]; exact htag⟩
  have hcleared : KeepsTags sAdded sCleared := (KeepsTags.refl sAdded).modSeq
  have hqueued : KeepsTags sAdded sQueued := .foldl (fun _ _ hu => .foldl (fun _ _ => .queuePacket) hu) hcleared
  exact hadded.of_keepsTags hqueued.runSequencers

/-! ### The record at the head of a ring (R306, R307, R326) -/

section Head

variable (hnext : (ctxRegionOf (ctxOf s c) L).reduceNext = next) (hr : reduceHead s c L next = r)
  (hmay : reduceMayTake s c L = true) (hwaits : reduceWaits s L c r = false)

include hnext hr hmay hwaits

/-- A REDUCE record whose fields are out of range is refused. -/
theorem exec_reduce_unfit (hop : r.op ≠ 2) (hok : reduceRecOk r = false) :
    exec (.reduce c L) s = .next (refuseReduce (consumeReduce s c L next r) L c r) := by
  change execReduce c L s = _
  unfold execReduce
  dsimp only
  rw [hnext, hr, if_neg (by simp [hmay, hop, hwaits]), if_pos (by simp [hok])]

/-- One that has its claim and its rates starts, or is refused for a conflict. -/
theorem exec_reduce_fit {t : Nat} (hop : r.op ≠ 2) (hok : reduceRecOk r = true) (hclaim : claimOk s L c r = true)
    (hrates : ratesSince s (.reduce L (c * 2 ^ 32 + next)) = some t) :
    exec (.reduce c L) s = if reduceConflict s L c r then
        .next (endTransfer (refuseReduce (consumeReduce s c L next r) L c r) (.reduce L (c * 2 ^ 32 + next)))
      else .next (startReduce s L c next r t) := by
  change execReduce c L s = _
  unfold execReduce
  dsimp only
  rw [hnext, hr, if_neg (by simp [hmay, hop, hwaits]), if_neg (by simp [hok]), if_neg (by simp [hclaim]),
    reserveRates_of_ratesSince hrates, hrates]

/-- An OUTCOME record whose fields are out of range, or that conflicts with a job in flight, is refused. -/
theorem exec_outcome_unfit (hop : r.op = 2) (hno : reduceRecOk r = false ∨ reduceConflict s L c r = true) :
    exec (.outcome c L) s = .next (refuseReduce (consumeReduce s c L next r) L c r) := by
  change execOutcome c L s = _
  unfold execOutcome
  dsimp only
  rw [hnext, hr, if_neg (by simp [hmay, hop, hwaits]), if_pos (by simpa using hno)]

/-- Any other starts. -/
theorem exec_outcome_fit (hop : r.op = 2) (hok : reduceRecOk r = true) (hconflict : reduceConflict s L c r = false) :
    exec (.outcome c L) s = .next (startOutcome s L c next r) := by
  change execOutcome c L s = _
  unfold execOutcome
  dsimp only
  rw [hnext, hr, if_neg (by simp [hmay, hop, hwaits]), if_neg (by simp [hok, hconflict])]

end Head

end Taking

/-! ### Jobs that are aborted (R327) -/

theorem findReduce_eq_none {s : State} {L t : Nat} (h : t ∉ (seqOf s L).tags) : findReduce s L t = none := by
  unfold findReduce
  rw [List.find?_eq_none]
  intro k hk
  have hne : k.tag ≠ t := fun he => h (List.mem_map.mpr ⟨k, hk, he⟩)
  simpa using hne

theorem tag_of_findReduce {s : State} {L t : Nat} {j : ReduceJob} (h : findReduce s L t = some j) : j.tag = t := by
  simpa using List.find?_some h

/-- A job that is removed leaves its tag to no other. -/
theorem not_mem_tags_removeReduce (s : State) (L : Nat) (j : ReduceJob) : j.tag ∉ (seqOf (removeReduce s L j) L).tags := by
  have hjobs : (seqOf (removeReduce s L j) L).jobs = (seqOf s L).jobs.filter fun k => k.tag != j.tag := by
    unfold removeReduce
    dsimp only
    rw [endTransfer_seqOf, seqOf_modSeq]
  unfold Sequencer.tags
  rw [hjobs]
  intro hin
  obtain ⟨k, hk, htag⟩ := List.mem_map.mp hin
  exact absurd htag (by simpa using (List.mem_filter.mp hk).2)

/-- An aborted job has left its sequencer, however the sequencers go on. -/
theorem findReduce_abortAndRun (s : State) (L : Nat) (j : ReduceJob) (send aborted report : Bool) :
    findReduce (abortAndRun s L j send aborted report) L j.tag = none := by
  obtain ⟨v, -, hremoved⟩ := KeepsTags.abortReduce_removes s L j send aborted report
  exact findReduce_eq_none fun hin => not_mem_tags_removeReduce v L j (hremoved.runSequencers.tags L hin)

theorem records_abortAndRun (s : State) (L : Nat) (j : ReduceJob) (send aborted report : Bool) :
    s.records <+: (abortAndRun s L j send aborted report).records :=
  ((KeepsTags.refl s).abortReduce.runSequencers).records

/-- The item record of a reduction job that was stopped (R417). -/
theorem itemRecord_records (s : State) (f q index accepted : Nat) : ∃ r, (itemRecord s f q 6 index accepted).records = s.records ++ [r] ∧
    r.cid = 0xFFFF ∧ r.status = 4 ∧ r.result / 2 ^ 28 = 6 ∧ r.result % 2 ^ 28 = index % 2 ^ 28 ∧ r.tDone = now s := by
  refine ⟨_, postRecord_records, rfl, rfl, ?_, ?_, rfl⟩
  · show (6 * 2 ^ 28 + index % 2 ^ 28) / 2 ^ 28 = 6
    omega
  · show (6 * 2 ^ 28 + index % 2 ^ 28) % 2 ^ 28 = index % 2 ^ 28
    omega

/-- At its deadline a job gets its item record and is aborted. -/
theorem exec_reduceDisableDeadline {s : State} {L tag d : Nat} {j : ReduceJob} (hfind : findReduce s L tag = some j)
    (hdeadline : j.deadline = some d) (hdue : d ≤ now s) : ∃ q, exec (.reduceDisableDeadline L tag) s =
      .next (abortAndRun (itemRecord s (ctxOf s j.ctx).fn q 6 j.ringIndex j.tAccept) L j true true true) := by
  change ∃ q, execReduceDisableDeadline L tag s = _
  unfold execReduceDisableDeadline
  rw [hfind]
  dsimp only
  rw [hdeadline]
  dsimp only
  rw [if_neg (Nat.not_lt.mpr hdue)]
  exact ⟨_, rfl⟩

/-! ### Batch steering (R325) -/

theorem exec_batchSteering {s : State} {c rcd : Nat} {x : Bool × Nat} (h : (ctxOf s c).steer = some x) :
    exec (.batchSteering c rcd) s = .next (steerEffect (modCtx s c fun y => { y with steer := none }) c rcd x.1) := by
  change execBatchSteering c rcd s = _
  unfold execBatchSteering
  rw [h]

end Sys2Proof.Machine
end

section
open Sys2Proof Sys2Proof.Machine

/-- Settles O39: a record that is consumed moves the ring on, and a refusal touches no job. A job that is added takes the tag, and
nothing that the sequencers then do takes another or moves the ring. -/
theorem reductionRecordIsTaken : Obligations.ReductionRecordIsTaken := by
  unfold Obligations.ReductionRecordIsTaken
  intro s ctx region hmay next r moved refused rates hwaits
  have hnext : (ctxRegionOf (ctxOf s ctx) region).reduceNext = next := rfl
  have hr : reduceHead s ctx region next = r := rfl
  clear_value r next
  refine ⟨fun hop hok => ?unfit, fun hop hno => ?outcomeUnfit, fun hop hok hclaim ⟨t, hrates⟩ => ?fit,
    fun hop hok hconflict => ?outcomeFit⟩
  case unfit => exact (recordRefused s ctx region next r).completes (exec_reduce_unfit hnext hr hmay hwaits hop hok)
  case outcomeUnfit => exact (recordRefused s ctx region next r).completes (exec_outcome_unfit hnext hr hmay hwaits hop hno)
  case fit =>
    have hexec := exec_reduce_fit hnext hr hmay hwaits hop hok hclaim hrates
    refine ⟨fun hconflict => ?_, fun hconflict => ?_⟩
    · rw [hconflict, if_pos rfl] at hexec
      exact (recordRefused s ctx region next r).endTransfer.completes hexec
    · rw [hconflict, if_neg Bool.false_ne_true] at hexec
      exact (startReduce_accepted s region ctx next r t).completes hexec
  case outcomeFit =>
    exact (startOutcome_accepted s region ctx next r).completes (exec_outcome_fit hnext hr hmay hwaits hop hok hconflict)

/-- Settles O41: the item record is added first, and the abort takes every job of the tag away, which no sequencer takes again; a steering
step that runs is cleared before it reads and writes, and none of its reads and writes makes it due. -/
theorem reductionDeadlineAndSteering : Obligations.ReductionDeadlineAndSteering := by
  unfold Obligations.ReductionDeadlineAndSteering
  refine ⟨fun s region job d j hfind hdeadline hdue => ?deadline, fun s ctx rcd x hsteer => ?steering⟩
  case deadline =>
    obtain ⟨q, hexec⟩ := exec_reduceDisableDeadline hfind hdeadline hdue
    obtain ⟨r, hrecord, hfields⟩ := itemRecord_records s (ctxOf s j.ctx).fn q j.ringIndex j.tAccept
    obtain ⟨more, hmore⟩ := records_abortAndRun (itemRecord s (ctxOf s j.ctx).fn q 6 j.ringIndex j.tAccept) region j true true true
    have hgone := findReduce_abortAndRun (itemRecord s (ctxOf s j.ctx).fn q 6 j.ringIndex j.tAccept) region j true true true
    rw [tag_of_findReduce hfind] at hgone
    rw [hrecord, List.append_assoc] at hmore
    exact ⟨_, hexec, hgone, r, more, hmore.symm, hfields⟩
  case steering =>
    have hkept := steerEffect_onlyAddsRecords (modCtx s ctx fun y => { y with steer := none }) ctx rcd x.1
    exact ⟨_, exec_batchSteering hsteer, (hkept.steer ctx).trans (by rw [ctxOf_modCtx]), rfl⟩

end

section
open Sys2Proof Sys2Proof.Machine

/-- Settles O4: every operation keeps the canonical form, and taking a command from the queue, or the flash as a power-on reads it, is
no change of memory. -/
theorem stepKeepsMemoryCanonical : Obligations.StepKeepsMemoryCanonical := by
  intro s u hmem h
  rcases step_keeps h with hk | ⟨-, hk⟩
  · exact hk.mem hmem
  · exact hk.mem hmem

end

section
/-! SUPPORT. What leaves the memory that is given out alone: no object of the pool, no allocation, no handle and no instant changes while a
unit reads, writes and reports (R95, R167, R351, R352). -/

namespace Sys2Proof.Machine

-- One proof at a time: each that waits for another holds a thread, whose stack counts toward the memory limit.
set_option Elab.async false

open Sys2Proof

/-- No object of the pool and no allocation has changed, no handle has been given, and no time has passed. -/
structure KeepsPool (s u : State) : Prop where
  objects : u.objects = s.objects
  allocs : u.allocs = s.allocs
  nextHandle : u.nextHandle = s.nextHandle
  clock : u.clock = s.clock

namespace KeepsPool

variable {z s u : State}

theorem refl (s : State) : KeepsPool s s := ⟨rfl, rfl, rfl, rfl⟩

/-- An update of other fields of the state. -/
theorem other (h : KeepsPool z s) (ho : u.objects = s.objects) (ha : u.allocs = s.allocs) (hn : u.nextHandle = s.nextHandle)
    (hc : u.clock = s.clock) : KeepsPool z u :=
  ⟨ho.trans h.objects, ha.trans h.allocs, hn.trans h.nextHandle, hc.trans h.clock⟩

theorem ite {a b : State} {c : Prop} [Decidable c] (ha : KeepsPool z a) (hb : KeepsPool z b) : KeepsPool z (if c then a else b) := by
  split
  · exact ha
  · exact hb

theorem foldl {α : Type} {f : State → α → State} {l : List α} (hf : ∀ s a, KeepsPool z s → KeepsPool z (f s a))
    (h : KeepsPool z s) : KeepsPool z (l.foldl f s) := foldl_keeps (P := KeepsPool z) hf l h

theorem modRegion {L : Nat} {f : LogRegion → LogRegion} (h : KeepsPool z s) : KeepsPool z (modRegion s L f) := h.other rfl rfl rfl rfl

theorem modCtxRegion {c L : Nat} {f : CtxRegion → CtxRegion} (h : KeepsPool z s) : KeepsPool z (modCtxRegion s c L f) :=
  h.other rfl rfl rfl rfl

/-! ### Credits, links, activity and reports -/

theorem reports (h : KeepsPool z s) (hr : OnlyReports s u) : KeepsPool z u := by
  obtain ⟨_, _, _, _, _, _, _, _, rfl⟩ := hr.form
  exact h.other rfl rfl rfl rfl

theorem sends (h : KeepsPool z s) (hs : OnlySends s u) : KeepsPool z u := by
  obtain ⟨_, _, _, _, rfl⟩ := hs
  exact h.other rfl rfl rfl rfl

theorem activity (h : KeepsPool z s) (ha : OnlyActivity s u) : KeepsPool z u := by
  obtain ⟨_, rfl⟩ := ha
  exact h.other rfl rfl rfl rfl

theorem returnCredits {l : List (Resource × Nat)} (h : KeepsPool z s) : KeepsPool z (returnCredits s l) := by
  refine foldl (fun v x hv => ite hv ?_) h
  obtain ⟨_, _, he⟩ := giveBack_eq v x.1 x.2
  exact he ▸ hv.other rfl rfl rfl rfl

theorem postEvent {f code ctx detail word : Nat} (h : KeepsPool z s) : KeepsPool z (postEvent s f code ctx detail word) :=
  h.reports (OnlyReports.refl s).postEvent

/-! ### Reads and writes of a unit -/

theorem winReadMark {c ca n : Nat} (h : KeepsPool z s) : KeepsPool z (winReadMark s c none ca n) := by
  unfold Machine.winReadMark
  split
  · next a _ =>
    have hh : KeepsPool z (if spaceOf a = 5 then hostRequest s (ctxOf s c).fn false a n else s) := ite (h.other rfl rfl rfl rfl) h
    dsimp only
    split
    · exact hh.reports (OnlyReports.refl _).poisonedRead
    · exact hh
  · exact h.reports (OnlyReports.refl s).windowFault

theorem unitReads {c : Nat} {o : Origin} {l : List (Nat × Nat)} (h : KeepsPool z s) : KeepsPool z (unitReads s c o l) := by
  refine foldl (fun v x hv => winReadMark ?_) h
  split
  · exact (hv.activity (OnlyActivity.refl v).countAccess).sends (OnlySends.refl _).askPeer
  · exact hv

theorem updatePage {page : Nat} (h : KeepsPool z s) : KeepsPool z (updatePage s page) := by
  unfold Machine.updatePage
  dsimp only
  refine ite h (ite (postEvent ?_) ?_)
  all_goals
    split
    · exact ite (postEvent (h.other rfl rfl rfl rfl)) (h.other rfl rfl rfl rfl)
    · exact h.other rfl rfl rfl rfl

theorem devWrite {fn a : Nat} {bs : List Byte} (h : KeepsPool z s) : KeepsPool z (devWrite s fn a bs) := by
  have hm : KeepsPool z { s with mem := s.mem.store (memKey s a) bs } := h.other rfl rfl rfl rfl
  exact ite h (ite h (ite (ite h (h.sends (OnlySends.refl s).sendPieces))
    (ite (foldl (fun _ _ => updatePage) hm) (ite (hm.other rfl rfl rfl rfl) (hm.other rfl rfl rfl rfl)))))

theorem winWrite {c ca : Nat} {bs : List Byte} (h : KeepsPool z s) : KeepsPool z (winWrite s c none ca bs) := by
  unfold Machine.winWrite
  split
  · exact h.devWrite
  · exact h.reports (OnlyReports.refl s).windowFault

theorem writeConsumed {c L k next : Nat} (h : KeepsPool z s) : KeepsPool z (writeConsumed s c L k next) := by
  unfold Machine.writeConsumed
  exact h.winWrite

/-! ### What a job reports (R167) -/

theorem unitToken {ctx : Nat} {o : Origin} {w : DWord} {d : Option Nat} {j : Option JobPromise} (h : KeepsPool z s) :
    KeepsPool z (unitToken s ctx o w d j) := ite h (h.other rfl rfl rfl rfl)

theorem unitSignal {ctx ca v : Nat} {o : Origin} {l : List Nat} {j : Option JobPromise} (h : KeepsPool z s) :
    KeepsPool z (unitSignal s ctx o ca v l j) := by
  unfold Machine.unitSignal
  refine ite h ?_
  split
  · exact h.other rfl rfl rfl rfl
  · exact h.reports (OnlyReports.refl s).windowFault

theorem closeJob {o : Origin} (h : KeepsPool z s) : KeepsPool z (closeJob s o) := by
  unfold Machine.closeJob
  split
  · exact h.modRegion
  · split
    · exact foldl (fun _ _ => postEvent) (h.other rfl rfl rfl rfl)
    · exact h
  · exact h.modRegion
  · exact h

theorem judgeJob {ctx : Nat} {j : Option JobPromise} (h : KeepsPool z s) : KeepsPool z (judgeJob s ctx j) := by
  cases j with
  | none => exact h
  | some p =>
    have hp : KeepsPool z (if p.due ≠ 0 ∧ p.due < now s then promiseMiss s p.phys ctx p.row else s) :=
      ite (h.reports (OnlyReports.refl s).promiseMiss) h
    unfold Machine.judgeJob
    dsimp only
    split
    · exact hp.closeJob
    · exact hp

theorem unitReport {ctx done : Nat} {o : Origin} {token : DWord} {d : Option Nat} {j : Option JobPromise} (h : KeepsPool z s) :
    KeepsPool z (unitReport s ctx o token done d j) := by
  have hs := (h.unitToken (ctx := ctx) (o := o) (w := token) (d := d)
    (j := if done ≠ 0 ∧ (translate s ctx none .write (done / 4 * 4) 4).isSome then none else j)).unitSignal
    (ctx := ctx) (ca := done) (v := 1) (o := o) (l := if token = 0 then [] else [s.nextReq]) (j := j)
  refine ite ?_ hs
  unfold unitEnd
  split
  · exact hs.other rfl rfl rfl rfl
  · exact hs.judgeJob

end KeepsPool

end Sys2Proof.Machine
end

section
/-! SUPPORT. The Winch (R353, R368 to R371): an entry that is accepted, one that is released, and one whose bytes are there. -/

namespace Sys2Proof.Machine

-- One proof at a time: each that waits for another holds a thread, whose stack counts toward the memory limit.
set_option Elab.async false

open Sys2Proof

section Winch

variable {s : State} {L c : Nat} {r : WinchRec}

/-! ### The head of a ring -/

/-- The entries of a region's Winch, and the tag that its next entry takes. -/
def winchPart (R : LogRegion) : List WinchEntry × Nat := (R.winch, R.nextWinch)

theorem KeepsWork.endGate {α : Type} {f : LogRegion → α} {z : State} (h : KeepsWork f z s) : KeepsWork f z (endGate s L c) := by
  unfold Machine.endGate
  split
  · exact (h.modRegion (h.gates _ _)).returnCredits
  · exact h

theorem KeepsPool.endGate {z : State} (h : KeepsPool z s) : KeepsPool z (endGate s L c) := by
  unfold Machine.endGate
  split
  · exact h.modRegion.returnCredits
  · exact h

/-- Whose turn comes next is no part of the entries. -/
theorem winchPart_turn (R : LogRegion) (n : Nat) : winchPart { R with winchTurn := n } = winchPart R := rfl

/-- The head of a ring is read, counted as consumed, and passed in turn; no entry of a Winch changes, and no object. -/
theorem consumeWinch_spec (s : State) (L c : Nat) :
    winchPart (regionOf (consumeWinch s L c) L) = winchPart (regionOf s L) ∧ KeepsPool s (consumeWinch s L c) := by
  unfold consumeWinch
  extract_lets next sRead sCounted sTurn
  have hread : KeepsWork winchPart s sRead := (KeepsWork.refl s).endGate.unitReads
  have hpool : KeepsPool s sRead := (KeepsPool.refl s).endGate.unitReads
  clear_value sRead
  have hcounted : regionOf sCounted L = regionOf sRead L := regionOf_modCtxRegion
  have hpoolCounted : KeepsPool s sCounted := hpool.modCtxRegion
  clear_value sCounted
  have hwritten : KeepsWork winchPart sCounted (writeConsumed sTurn c L 2 (next + 1)) :=
    ((KeepsWork.refl sCounted).modRegion (winchPart_turn _ _)).writeConsumed
  refine ⟨?_, hpoolCounted.modRegion.writeConsumed⟩
  rw [hwritten.part, hcounted, hread.part]

/-- An entry of a ring has been accepted under the next tag of its region's Winch. -/
def WinchAccepted (s : State) (c L : Nat) (r : WinchRec) (u : State) : Prop :=
  (regionOf u L).nextWinch = (regionOf s L).nextWinch + 1 ∧
    ∃ e ∈ (regionOf u L).winch, e.tag = (regionOf s L).nextWinch ∧ e.rcd = r ∧ e.ctx = c ∧ e.tAccept = now s

/-- The count of an entry at risk changes no Winch and nothing of the pool. -/
theorem countAtRisk_spec (v : State) (p : Prop) [Decidable p] (f : CtxRegion → CtxRegion) :
    regionOf (if p then modCtxRegion v c L f else v) L = regionOf v L ∧ KeepsPool v (if p then modCtxRegion v c L f else v) := by
  split
  · exact ⟨regionOf_modCtxRegion, (KeepsPool.refl v).modCtxRegion⟩
  · exact ⟨rfl, .refl v⟩

/-- An entry that joins a Winch at an instant is there under its next tag. -/
theorem winchAccepted_of_added {v : State} {e : WinchEntry} (hpart : winchPart (regionOf v L) = winchPart (regionOf s L))
    (htag : e.tag = (regionOf v L).nextWinch) (hrcd : e.rcd = r) (hctx : e.ctx = c) (htime : e.tAccept = now s) :
    WinchAccepted s c L r (modRegion v L fun R => { R with nextWinch := R.nextWinch + 1, winch := R.winch ++ [e] }) := by
  have hnext : (regionOf v L).nextWinch = (regionOf s L).nextWinch := (Prod.mk.inj hpart).2
  unfold WinchAccepted
  rw [regionOf_modRegion, ← hnext]
  exact ⟨rfl, e, List.mem_append_right _ (List.mem_singleton_self e), htag, hrcd, hctx, htime⟩

/-- The entry takes the next tag; the pool stays as it is. -/
theorem acceptWinch_spec (s : State) (L c : Nat) (r : WinchRec) (run : Option (Nat × Nat)) (T : Option Nat) :
    WinchAccepted s c L r (acceptWinch s L c r run T) ∧ KeepsPool s (acceptWinch s L c r run T) := by
  obtain ⟨hpart, hpool⟩ := consumeWinch_spec s L c
  unfold acceptWinch
  dsimp only
  generalize consumeWinch s L c = v at hpart hpool
  obtain ⟨hregion, hcounted⟩ := countAtRisk_spec (c := c) (L := L) v (atRisk (now v) r T = true)
    fun x => { x with atRisk := satAdd 0xFFFF x.atRisk 1 }
  generalize (if atRisk (now v) r T = true then modCtxRegion v c L fun x => { x with atRisk := satAdd 0xFFFF x.atRisk 1 } else v) = w
    at hregion hcounted
  have hpoolCounted : KeepsPool s w := hpool.other hcounted.objects hcounted.allocs hcounted.nextHandle hcounted.clock
  exact ⟨winchAccepted_of_added (by rw [hregion, hpart]) rfl rfl rfl (congrArg Clock.time hpoolCounted.clock), hpoolCounted.modRegion⟩

/-- An entry that holds its rates and needs no new home is accepted. -/
theorem reserveWinch_of_rates {t : Nat} (hrates : ratesSince s (winchUse L c (winchNextOf s c L)) = some t) :
    reserveWinch s L c r none = acceptWinch s L c r none (winchTime s L c r none) := by
  unfold reserveWinch
  dsimp only
  rw [reserveRates_of_ratesSince hrates, hrates]

section Head

variable (hr : winchHead s c L = r) (hready : winchReady s L c = true) (hturn : winchTurnOf s L c = true)
  (hok : winchOk s c r = true) (hgate : gateOpen s L c r = true)
include hr hready hturn hok hgate

theorem exec_stage {o : PoolObject} (hop : r.op = 1) (ho : objectOf s c r.window = some o) (hhome : o.home ≠ none) :
    exec (.stage c L) s = .next (reserveWinch s L c r none) := by
  subst hr
  change execStage c L s = _
  unfold execStage
  simp [hop, hready, hturn, hok, hgate, ho, Option.isSome_iff_ne_none.mpr hhome]

theorem exec_winchCopy (hop : r.op = 2) : exec (.winchCopy c L) s = .next (reserveWinch s L c r none) := by
  subst hr
  change execWinchCopy c L s = _
  unfold execWinchCopy
  simp [hop, hready, hturn, hok, hgate]

theorem exec_winchRelease {o : PoolObject} (hop : r.op = 3) (ho : objectOf s c r.window = some o) :
    exec (.winchRelease c L) s = .next (reportWinch (modObject (acceptWinch s L c r none (some (winchUnit r * 1000))) o.handle
      fun x => { x with hold := x.hold - 1 }) L (regionOf s L).nextWinch) := by
  subst hr
  change execWinchRelease c L s = _
  unfold execWinchRelease
  simp [hop, hready, hturn, hok, hgate, ho]

end Head

/-! ### An entry that reports (R167, R370) -/

/-- The state in which an entry of a Winch is marked as having reported. -/
def markReported (s : State) (L tag : Nat) : State :=
  modRegion s L fun R => { R with winch := R.winch.map fun x => if x.tag = tag then { x with reported := true } else x }

/-- A report leaves the Winches as they are when the entry is marked, or it ends the entry at once. -/
theorem reportWinch_cases {tag : Nat} {e : WinchEntry} (hfind : (regionOf s L).winch.find? (fun x => x.tag == tag) = some e) :
    KeepsWork winchPart (markReported s L tag) (reportWinch s L tag) ∨
      ∃ v, KeepsWork winchPart (markReported s L tag) v ∧ reportWinch s L tag = closeJob v (.winch L tag) := by
  have hmarked := KeepsWork.refl (f := winchPart) (markReported s L tag)
  have he : reportWinch s L tag = unitReport (markReported s L tag) e.ctx (.winch L tag) e.rcd.token e.rcd.done e.rcd.due
      (some { due := e.promise.getD 0, phys := originPhys (markReported s L tag) (.winch L tag), row := 16,
              job := some (.winch L tag) }) := by
    unfold reportWinch
    rw [hfind]
    rfl
  rw [he]
  refine hmarked.unitReport_cases.imp_right fun ⟨v, hv, hjudged⟩ => ?_
  exact ⟨_, .ite hv.promiseMiss hv, hjudged⟩

/-- An entry that is closed is gone from its Winch. -/
theorem closeJob_winch_gone (s : State) (L tag : Nat) : ∀ x ∈ (regionOf (closeJob s (.winch L tag)) L).winch, x.tag ≠ tag := by
  unfold closeJob
  rw [regionOf_modRegion]
  intro x hx
  simpa using (List.mem_filter.mp hx).2

/-- What a report leaves of an entry in the Winch has reported. -/
theorem reportWinch_reported (s : State) (L tag : Nat) :
    ∀ x ∈ (regionOf (reportWinch s L tag) L).winch, x.tag = tag → x.reported = true := by
  intro x hx htag
  cases hfind : (regionOf s L).winch.find? (fun x => x.tag == tag) with
  | none =>
    have he : reportWinch s L tag = s := by unfold reportWinch; rw [hfind]
    rw [he] at hx
    exact absurd htag (by simpa using List.find?_eq_none.mp hfind x hx)
  | some e =>
    rcases reportWinch_cases hfind with hk | ⟨v, -, he⟩
    · have hwinch : (regionOf (reportWinch s L tag) L).winch = _ := congrArg Prod.fst (hk.part L)
      rw [hwinch, markReported, regionOf_modRegion] at hx
      obtain ⟨y, -, rfl⟩ := List.mem_map.mp hx
      split
      · rfl
      · next hy => exact absurd (by simpa [if_neg hy] using htag) hy
    · rw [he] at hx
      exact absurd htag (closeJob_winch_gone v L tag x hx)

/-- A report takes no tag. -/
theorem reportWinch_nextWinch (s : State) (L tag : Nat) : (regionOf (reportWinch s L tag) L).nextWinch = (regionOf s L).nextWinch := by
  have hmarked : (regionOf (markReported s L tag) L).nextWinch = (regionOf s L).nextWinch := by
    unfold markReported
    rw [regionOf_modRegion]
  cases hfind : (regionOf s L).winch.find? (fun x => x.tag == tag) with
  | none => unfold reportWinch; rw [hfind]
  | some e =>
    rcases reportWinch_cases hfind with hk | ⟨v, hk, he⟩
    · exact (congrArg Prod.snd (hk.part L)).trans hmarked
    · have hv : (regionOf v L).nextWinch = _ := congrArg Prod.snd (hk.part L)
      rw [he, closeJob, regionOf_modRegion]
      exact hv.trans hmarked

theorem KeepsPool.reportWinch {z : State} {tag : Nat} (h : KeepsPool z s) : KeepsPool z (reportWinch s L tag) := by
  unfold Machine.reportWinch
  split
  · exact h
  · exact h.modRegion.unitReport

/-- A RELEASE takes its tag and lowers the hold of its object. -/
theorem released_spec {o : PoolObject} (ho : objectOf s c r.window = some o) (T : Option Nat) :
    let u := reportWinch (modObject (acceptWinch s L c r none T) o.handle fun x => { x with hold := x.hold - 1 }) L
      (regionOf s L).nextWinch
    (regionOf u L).nextWinch = (regionOf s L).nextWinch + 1 ∧ ∃ x ∈ u.objects, x.handle = o.handle ∧ x.hold = o.hold - 1 := by
  obtain ⟨⟨hnext, -⟩, hpool⟩ := acceptWinch_spec s L c r none T
  refine ⟨?_, ?_⟩
  · rw [reportWinch_nextWinch, modObject_regionOf, hnext]
  · have hmem : o ∈ (acceptWinch s L c r none T).objects := hpool.objects ▸ List.mem_of_find?_eq_some ho
    have hobjects := ((KeepsPool.refl (modObject (acceptWinch s L c r none T) o.handle fun x => { x with hold := x.hold - 1 })).reportWinch
      (L := L) (tag := (regionOf s L).nextWinch)).objects
    rw [hobjects]
    exact ⟨_, List.mem_map_of_mem hmem, by rw [if_pos rfl], by rw [if_pos rfl]⟩

/-! ### An entry whose bytes are there (R353, R355, R370) -/

/-- A finished entry has reported where it is still in the Winch. -/
theorem finishWinch_reported (s : State) (L : Nat) (e : WinchEntry) :
    ∀ x ∈ (regionOf (finishWinch s L e) L).winch, x.tag = e.tag → x.reported = true := by
  unfold finishWinch
  exact reportWinch_reported _ L e.tag

/-- An entry whose object needs no new home is finished when its bytes have moved. -/
theorem movedWinch_home {e : WinchEntry} (h : e.newHome = none) : movedWinch s L e = finishWinch (winchMove s L e) L e := by
  unfold movedWinch
  rw [h]

/-- An entry whose object waits for its new home has copied its bytes. -/
theorem movedWinch_copied {e : WinchEntry} {h : Nat × Nat} (hhome : e.newHome = some h) :
    ∀ x ∈ (regionOf (movedWinch s L e) L).winch, x.tag = e.tag → x.copied = true := by
  intro x hx htag
  unfold movedWinch at hx
  rw [hhome] at hx
  dsimp only at hx
  rw [regionOf_modRegion] at hx
  obtain ⟨y, -, rfl⟩ := List.mem_map.mp hx
  split
  · rfl
  · next hy => exact absurd (by simpa [if_neg hy] using htag) hy

section Complete

variable {entry : Nat} {e : WinchEntry} (hfind : (regionOf s L).winch.find? (fun x => x.tag == entry) = some e)
  (hthere : (regionOf s L).vacant = false) (hreported : e.reported = false)
include hfind hthere hreported

theorem exec_winchEntryComplete_moves (hcopied : e.copied = false) :
    exec (.winchEntryComplete L entry) s = .next (movedWinch s L e) := by
  change execWinchEntryComplete L entry s = _
  unfold execWinchEntryComplete
  rw [hfind]
  simp [hthere, hreported, hcopied]

theorem exec_winchEntryComplete_copied (hcopied : e.copied = true)
    (hmapped : ∀ o, objectOf s e.ctx e.rcd.window = some o → o.nextHome = none) :
    exec (.winchEntryComplete L entry) s = .next (finishWinch s L e) := by
  change execWinchEntryComplete L entry s = _
  unfold execWinchEntryComplete
  rw [hfind]
  simp only [hthere, hreported, hcopied]
  cases ho : objectOf s e.ctx e.rcd.window with
  | none => rfl
  | some o => simp [hmapped o ho]

end Complete

end Winch

end Sys2Proof.Machine

open Sys2Proof Sys2Proof.Machine

/-- Settles O42: an entry that is accepted takes the next tag, and nothing that its ring's head reads or writes changes a Winch or an
object; a report marks its entry before it can end it, and an entry that waits for a boundary is marked as copied. -/
theorem winchEntries : Obligations.WinchEntries := by
  unfold Obligations.WinchEntries
  refine ⟨fun s c L hready hturn hok hgate => ⟨fun o hop ho hhome ⟨t, hrates⟩ => ?stage,
    fun hop ⟨t, hrates⟩ => ?copy, fun o hop ho _ _ => ?release⟩, fun s L entry e hfind hthere hreported =>
    ⟨fun hdone hmapped => ?reports, fun h hcopied hhome => ?copies, closeJob_winch_gone s L entry⟩⟩
  case stage =>
    refine ⟨_, exec_stage rfl hready hturn hok hgate hop ho hhome, ?_⟩
    rw [reserveWinch_of_rates hrates]
    exact (acceptWinch_spec s L c _ none _).1
  case copy =>
    refine ⟨_, exec_winchCopy rfl hready hturn hok hgate hop, ?_⟩
    rw [reserveWinch_of_rates hrates]
    exact (acceptWinch_spec s L c _ none _).1
  case release => exact ⟨_, exec_winchRelease rfl hready hturn hok hgate hop ho, released_spec ho _⟩
  all_goals obtain rfl : e.tag = entry := by simpa using List.find?_some hfind
  case reports =>
    cases hcopied : e.copied with
    | true => exact ⟨_, exec_winchEntryComplete_copied hfind hthere hreported hcopied (hmapped hcopied), finishWinch_reported s L e⟩
    | false =>
      have hhome : e.newHome = none := hdone.resolve_left (by simp [hcopied])
      refine ⟨_, exec_winchEntryComplete_moves hfind hthere hreported hcopied, ?_⟩
      rw [movedWinch_home hhome]
      exact finishWinch_reported _ L e
  case copies => exact ⟨_, exec_winchEntryComplete_moves hfind hthere hreported hcopied, movedWinch_copied hhome⟩

end

section
/-! SUPPORT. ALLOC, FREE, LEND and RETURN (R351, R352, R359, R363, R421): free runs of frames and of units, what an allocation is given,
and what waits for a boundary. -/

namespace Sys2Proof.Machine

-- One proof at a time: each that waits for another holds a thread, whose stack counts toward the memory limit.
set_option Elab.async false

open Sys2Proof

section Memory

variable {s : State} {c : Cmd} {id : Nat}

/-! ### Free runs -/

/-- The run that a search of a stack gives is free: the least of the free ones is one of them. -/
theorem framesFree_of_fitFrames {k n u : Nat} (h : fitFrames s k n = some u) : framesFree s k u n = true := by
  revert u
  unfold fitFrames
  dsimp only
  refine List.foldlRecOn (motive := fun a : Option Nat => ∀ {u}, a = some u → framesFree s k u n = true) _ _ ?none ?step
  case none =>
    intro u h
    cases h
  case step =>
    intro a ha y hy u hu
    have hyfree : framesFree s k y n = true := (List.mem_filter.mp hy).2
    cases a with
    | none => exact Option.some.inj hu ▸ hyfree
    | some x =>
      have hmin : Nat.min x y = u := Option.some.inj hu
      rcases Nat.le_total x y with hxy | hyx
      · exact ha (congrArg some ((Nat.min_eq_left hxy).symm.trans hmin))
      · exact (Nat.min_eq_right hyx).symm.trans hmin ▸ hyfree

/-- The run that a search of some stacks gives is free in one of them. -/
theorem framesFree_of_fitIn {n u : Nat} {l : List Nat} (h : fitIn s n l = some u) : ∃ k, framesFree s k u n = true := by
  induction l with
  | nil => cases h
  | cons k r ih =>
    unfold fitIn at h
    split at h
    · next x hx => exact ⟨k, Option.some.inj h ▸ framesFree_of_fitFrames hx⟩
    · exact ih h

/-- A free run of frames meets none that is taken. -/
theorem apart_of_framesFree {k u n : Nat} (h : framesFree s k u n = true) :
    ∀ t ∈ takenFrames s, u + n ≤ t.1 ∨ t.1 + t.2 ≤ u := by
  obtain ⟨-, hall⟩ := Bool.and_eq_true_iff.mp h
  exact fun t ht => of_decide_eq_true (List.all_eq_true.mp hall t ht)

/-- Where the first n numbers of a range satisfy a test, at least n do. -/
theorem length_filter_range_ge {p : Nat → Bool} {f : Nat → Nat} {n m : Nat} (hn : n ≤ m) (hp : ∀ i, i < n → p (f i) = true) :
    n ≤ (((List.range m).map f).filter p).length := by
  have hfirst : ((List.range n).map f).filter p = (List.range n).map f :=
    List.filter_eq_self.mpr fun x hx => by
      obtain ⟨i, hi, rfl⟩ := List.mem_map.mp hx
      exact hp i (List.mem_range.mp hi)
  have hsub : List.Sublist (((List.range n).map f).filter p) (((List.range m).map f).filter p) :=
    ((List.range_sublist.mpr hn).map f).filter p
  calc n = ((List.range n).map f).length := by simp
    _ = (((List.range n).map f).filter p).length := by rw [hfirst]
    _ ≤ _ := hsub.length_le

/-- Units of T1 that are freed, and lofts that take them, change regions only. -/
theorem freedUnits_eq (s : State) : ∃ l, freedUnits s = { s with logs := l } := by
  unfold freedUnits
  refine foldl_keeps (P := fun u : State => ∃ l, u = { s with logs := l }) (fun v e hv => ?_) _ ⟨_, rfl⟩
  refine foldl_keeps (P := fun u : State => ∃ l, u = { s with logs := l }) (fun w x hw => ?_) _ hv
  obtain ⟨l, rfl⟩ := hw
  unfold placeLoft
  dsimp only
  split
  · exact ⟨_, rfl⟩
  · exact ⟨l, rfl⟩

/-- A search for units that finds a run has freed units, and selected nothing. -/
theorem seekRun_found {n : Nat} {homes : List Nat} {x : Nat × Nat} {t : State} (h : seekRun s n homes = (some x, t)) :
    ∃ l, t = { s with logs := l } := by
  unfold seekRun at h
  dsimp only at h
  split at h
  · exact (Prod.mk.inj h).2 ▸ freedUnits_eq s
  · cases h

/-- Every unit of a run that is taken has the use that it is given. -/
theorem takeUnits_units (s : State) (H u n : Nat) (x : UnitUse) {i : Nat} (hi : i < n) :
    mget? (regionOf (takeUnits s H u n x) H).units (u + i) = some x := by
  unfold takeUnits
  rw [regionOf_modRegion]
  dsimp only
  induction n with
  | zero => omega
  | succ n ih =>
    rw [List.range_succ, List.foldl_append, List.foldl_cons, List.foldl_nil, mget?_mset]
    split
    · rfl
    · exact ih (by omega)

/-! ### ALLOC -/

/-- The allocation that a command is given. -/
def allocationOf (c : Cmd) (h base width : Nat) : Allocation :=
  { handle := h, fn := c.fn, tier := c.tier, base := base, units := c.units, backing := c.backing, width := width }

theorem quotaEvent_eq (s t : State) (f : Nat) : ∃ r n, quotaEvent s t f = { t with records := r, fns := n } := by
  unfold quotaEvent
  split
  · exact postEvent_eq _ _ _ _ _ _
  · exact ⟨t.records, t.fns, rfl⟩

/-- An allocation takes the next handle; its record goes to the host, and the command's work ends with the handle. -/
theorem giveAlloc_eq (s : State) (c : Cmd) (base width : Nat) : ∃ r n m o, giveAlloc s c base width = endCmd { s with
    nextHandle := s.nextHandle + 1, allocs := s.allocs ++ [allocationOf c s.nextHandle base width],
    records := r, fns := n, mem := m, out := o } c 0 0 s.nextHandle := by
  unfold giveAlloc
  obtain ⟨r, n, he⟩ := quotaEvent_eq s { s with
    nextHandle := s.nextHandle + 1, allocs := s.allocs ++ [allocationOf c s.nextHandle base width] } c.fn
  exact ⟨r, n, _, _, by unfold allocationOf at he; dsimp only; rw [he]; rfl⟩

/-- Memory of a tier has been given to a command under the next handle. -/
def Given (s : State) (c : Cmd) (tier base : Nat) (u : State) : Prop :=
  u.nextHandle = s.nextHandle + 1 ∧ ∃ a, u.allocs = s.allocs ++ [a] ∧ a.handle = s.nextHandle ∧ a.fn = c.fn ∧ a.tier = tier ∧
    a.base = base ∧ a.units = c.units

theorem given_giveAlloc (s : State) (c : Cmd) (base width : Nat) : Given s c c.tier base (giveAlloc s c base width) := by
  obtain ⟨r, n, m, o, he⟩ := giveAlloc_eq s c base width
  rw [he]
  exact ⟨rfl, _, rfl, rfl, rfl, rfl, rfl, rfl⟩

theorem Given.of_keepsPool {tier base : Nat} {u v : State} (h : Given s c tier base u) (hk : KeepsPool u v) : Given s c tier base v := by
  unfold Given at h ⊢
  rw [hk.nextHandle, hk.allocs]
  exact h

/-- A listed command that is given memory has ended with the handle. -/
theorem ended_giveAlloc {d : Cmd} (h : findCmd s c.id = some d) (base width : Nat) :
    Ended (giveAlloc s c base width) c.id 0 0 s.nextHandle := by
  obtain ⟨r, n, m, o, he⟩ := giveAlloc_eq s c base width
  rw [he]
  exact ⟨_, findCmd_endCmd h, rfl, rfl, rfl, rfl⟩

theorem Ended.of_keepsConfig {u v : State} {a b r : Nat} (h : Ended u id a b r) (hk : KeepsConfig u v) : Ended v id a b r := by
  unfold Ended
  rw [hk.findCmd]
  exact h

theorem giveAlloc_kept (s : State) (c : Cmd) (base width : Nat) : (giveAlloc s c base width).contexts = s.contexts ∧
    (giveAlloc s c base width).logs = s.logs ∧ (giveAlloc s c base width).objects = s.objects := by
  obtain ⟨r, n, m, o, he⟩ := giveAlloc_eq s c base width
  rw [he]
  exact ⟨rfl, rfl, rfl⟩

/-- Frames of T2 are given in the lowest run, and the pages there stored anew. -/
theorem completes_allocT2Frames (h : AtWork s id 0x08 c) (htier : c.tier = 0) (hok : allocFault s c = none) {u0 : Nat}
    (hfit : fitIn s c.units (if c.place = 0xFF then List.range 16 else [c.place]) = some u0) :
    Completes (.allocT2Frames id) s fun u => Given s c 0 (u0 * 2097152) u ∧ u.contexts = s.contexts ∧ Ended u id 0 0 s.nextHandle := by
  let w := giveAlloc (freshNat s).2 c (u0 * 2097152) ((freshNat s).1 % 3)
  have hexec : exec (.allocT2Frames id) s = .next (rewidth w (u0 * 2097152) c.units) := by
    change execAllocT2Frames id s = _
    unfold execAllocT2Frames allocFrames
    rw [h.running]
    dsimp only
    rw [if_neg (by omega), hok, hfit]
  have hpool : KeepsPool w (rewidth w (u0 * 2097152) c.units) := .foldl (fun _ _ => .updatePage) (.refl w)
  have hconfig : KeepsConfig w (rewidth w (u0 * 2097152) c.units) := .foldl (fun _ _ => .updatePage) (.refl w)
  have hheld : KeepsHeld w (rewidth w (u0 * 2097152) c.units) := .foldl (fun _ _ => .updatePage) (.refl w)
  have hgiven : Given s c c.tier (u0 * 2097152) w := given_giveAlloc (freshNat s).2 c _ _
  have hended : Ended w c.id 0 0 s.nextHandle := ended_giveAlloc (s := (freshNat s).2) h.listed _ _
  refine ⟨_, hexec, htier ▸ hgiven.of_keepsPool hpool, ?_, findCmd_id h.found ▸ hended.of_keepsConfig hconfig⟩
  rw [hheld.contexts]
  exact (giveAlloc_kept (freshNat s).2 c _ _).1

/-- A run of units that is found is given. -/
theorem allocRun_found {x : Nat × Nat} {t : State} {give : State → Nat × Nat → State} (hok : allocFault s c = none)
    (hseek : seekRun s c.units (allocHomes s c) = (some x, t)) : allocRun s c give = give t x := by
  unfold allocRun
  rw [hok]
  dsimp only
  rw [hseek]

/-- Pinned units of T1 are given where a run is found. -/
theorem completes_allocPinnedT1 (h : AtWork s id 0x08 c) (htier : c.tier = 1) (hok : allocFault s c = none) {H n : Nat} {t : State}
    (hseek : seekRun s c.units (allocHomes s c) = (some (H, n), t)) :
    Completes (.allocPinnedT1 id) s fun u => Given s c 1 (unitAddr1 H n) u ∧
      ∀ i, i < c.units → mget? (regionOf u H).units (n + i) = some (.pinned s.nextHandle) := by
  obtain ⟨l, rfl⟩ := seekRun_found hseek
  let w := takeUnits { s with logs := l } H n c.units (.pinned s.nextHandle)
  have hexec : exec (.allocPinnedT1 id) s = .next (giveAlloc w c (unitAddr1 H n) 0) := by
    change execAllocPinnedT1 id s = _
    unfold execAllocPinnedT1
    rw [h.running]
    dsimp only
    rw [if_neg (by omega), allocRun_found hok hseek]
  have hgiven : Given s c c.tier (unitAddr1 H n) (giveAlloc w c (unitAddr1 H n) 0) := given_giveAlloc w c _ _
  refine ⟨_, hexec, htier ▸ hgiven, fun i hi => ?_⟩
  have hregion : regionOf (giveAlloc w c (unitAddr1 H n) 0) H = regionOf w H := by
    unfold regionOf
    rw [(giveAlloc_kept w c _ _).2.1]
  rw [hregion]
  exact takeUnits_units _ H n c.units _ hi

/-- An object is given a home where a run is found; it has no window and no hold. -/
theorem completes_allocObject (h : AtWork s id 0x08 c) (htier : c.tier = 2) (hok : allocFault s c = none) {H n : Nat} {t : State}
    (hseek : seekRun s c.units (allocHomes s c) = (some (H, n), t)) :
    Completes (.allocObject id) s fun u => Given s c 2 (unitAddr1 H n) u ∧
      ∃ o ∈ u.objects, o.handle = s.nextHandle ∧ o.home = some (H, n) ∧ o.backing = c.backing ∧ o.hold = 0 ∧ o.windows = [] := by
  obtain ⟨l, rfl⟩ := seekRun_found hseek
  let o := newObject { s with logs := l } c (H, n)
  let w := { takeUnits { s with logs := l } H n c.units (.home s.nextHandle) with objects := s.objects ++ [o] }
  have hexec : exec (.allocObject id) s = .next (giveAlloc w c (unitAddr1 H n) 0) := by
    change execAllocObject id s = _
    unfold execAllocObject
    rw [h.running]
    dsimp only
    rw [if_neg (by omega), allocRun_found hok hseek]
    rfl
  have hgiven : Given s c c.tier (unitAddr1 H n) (giveAlloc w c (unitAddr1 H n) 0) := given_giveAlloc w c _ _
  refine ⟨_, hexec, htier ▸ hgiven, o, ?_, rfl, rfl, rfl, rfl, rfl⟩
  rw [(giveAlloc_kept w c _ _).2.2]
  exact List.mem_append_right _ (List.mem_singleton_self o)

/-! ### What waits for a boundary (R421) -/

/-- The boundary of R421 is the first that comes at least 1,000,000 ns after the acceptance. -/
theorem laterBoundary_spec (c : Cmd) : c.tAccept + 1000000 ≤ laterBoundary c ∧
    laterBoundary c < c.tAccept + 1000000 + 1048576 ∧ laterBoundary c % 1048576 = 0 := by
  unfold laterBoundary boundaryAt ceilDiv
  omega

/-- The memory of FREE goes at its boundary. -/
theorem completes_free (h : AtWork s id 0x09 c) (hphase : c.phase = 0) {a : Allocation}
    (ha : s.allocs.find? (fun x => x.handle == c.field 8 4 && x.fn == c.fn) = some a) (hmapped : stillMapped s a = false) :
    Completes (.free id) s fun u => u.later = s.later ++ [(.free c.id a.handle, laterBoundary c)] ∧
      { u with later := s.later, cmds := s.cmds } = s := by
  refine h.completes (f := freeCmd s) rfl ?_
  have hwork : freeCmd s c = setCmd { s with later := s.later ++ [(.free c.id a.handle, laterBoundary c)] } { c with phase := 1 } := by
    unfold freeCmd
    rw [if_neg (by omega), ha]
    dsimp only
    rw [hmapped, if_neg Bool.false_ne_true]
  rw [hwork]
  exact ⟨rfl, rfl⟩

/-- The frames that LEND sets aside: the first free ones of the stack. -/
def lentFrames (s : State) (c : Cmd) : List Nat :=
  (((List.range (stackFrames s.part.grade)).map (firstFrame (c.field 0x0A 1) + ·)).filter fun u =>
    framesFree s (c.field 0x0A 1) u 1).take c.units

/-- Where the first frames of a stack are free, LEND finds as many as it asks for. -/
theorem lentFrames_length (hfree : ∀ i, i < c.units → framesFree s (c.field 0x0A 1) (firstFrame (c.field 0x0A 1) + i) 1 = true)
    (hfit : c.units ≤ stackFrames s.part.grade) : (lentFrames s c).length = c.units := by
  unfold lentFrames
  rw [List.length_take]
  exact Nat.min_eq_left (length_filter_range_ge hfit hfree)

/-- The frames are lent at the boundary. -/
theorem completes_lend (h : AtWork s id 0x0D c) (hlend : c.field 0x0B 1 = 0) (hphase : c.phase = 0) (hok : lendFault s c = none)
    (hquota : overQuota s c.place = false)
    (hfree : ∀ i, i < c.units → framesFree s (c.field 0x0A 1) (firstFrame (c.field 0x0A 1) + i) 1 = true)
    (hfit : c.units ≤ stackFrames s.part.grade) :
    Completes (.lend id) s fun u => { u with later := s.later, cmds := s.cmds } = s ∧
      ∃ ls : List Loan, u.later = s.later ++ [(.lend c.id ls, laterBoundary c)] ∧ ls.length = c.units ∧
        ∀ l ∈ ls, l.peer = c.tier ∧ l.fn = c.place ∧ l.lender = c.fn := by
  let ls := (lentFrames s c).map fun u => ({ peer := c.tier, fn := c.place, lender := c.fn, base := u * 2097152 } : Loan)
  have hlength := lentFrames_length hfree hfit
  have hwork : lendCmd s c = setCmd { s with later := s.later ++ [(.lend c.id ls, laterBoundary c)] } { c with phase := 1 } := by
    unfold lendCmd
    rw [if_neg (by omega), hok]
    dsimp only
    rw [if_neg (by omega : ¬ stackFrames s.part.grade < c.units)]
    exact if_neg (not_or.mpr ⟨by simp [hquota], Nat.not_lt.mpr (Nat.le_of_eq hlength.symm)⟩)
  have hexec : exec (.lend id) s = .next (lendCmd s c) := by
    change execLend id s = _
    unfold execLend
    rw [h.running]
    exact if_neg (by omega)
  refine ⟨_, hexec, ?_⟩
  rw [hwork]
  refine ⟨rfl, ls, rfl, (List.length_map _).trans hlength, fun l hl => ?_⟩
  obtain ⟨u, -, rfl⟩ := List.mem_map.mp hl
  exact ⟨rfl, rfl, rfl⟩

/-- Loans that RETURN names, each once, go back at the boundary. -/
theorem completes_returnFrames (h : AtWork s id 0x0D c) (hreturn : c.field 0x0B 1 = 1) (hphase : c.phase = 0)
    (hok : lendFault s c = none) (hlent : ∀ l ∈ c.loansNamed s, l ∈ s.loans) (honce : (c.loansNamed s).Nodup) :
    Completes (.returnFrames id) s fun u => { u with later := s.later, cmds := s.cmds } = s ∧
      u.later = s.later ++ [(.giveBack c.id (c.loansNamed s), laterBoundary c)] := by
  have hall : (c.loansNamed s).all s.loans.contains = true :=
    List.all_eq_true.mpr fun l hl => List.contains_iff_mem.mpr (hlent l hl)
  have hwork : returnCmd s c =
      setCmd { s with later := s.later ++ [(.giveBack c.id (c.loansNamed s), laterBoundary c)] } { c with phase := 1 } := by
    unfold returnCmd
    rw [if_neg (by omega), hok]
    exact if_pos ⟨hall, congrArg List.length honce.dedup⟩
  have hexec : exec (.returnFrames id) s = .next (returnCmd s c) := by
    change execReturnFrames id s = _
    unfold execReturnFrames
    rw [h.running]
    exact if_pos hreturn
  refine ⟨_, hexec, ?_⟩
  rw [hwork]
  exact ⟨rfl, rfl⟩

/-- At its boundary a RETURN takes its loans away, and its command has ended. -/
theorem completes_giveBack {d : Cmd} {ls : List Loan} {b : Nat} (hcmd : findCmd s id = some d) (hlater : s.later = [(.giveBack id ls, b)])
    (hdue : b ≤ now s) (hboundary : isBoundary (now s) = true) :
    Completes .freeLendTakeEffect s fun u => u.later = [] ∧ u.mem = s.mem ∧ u.allocs = s.allocs ∧
      (∀ l, l ∈ u.loans ↔ l ∈ s.loans ∧ l ∉ ls) ∧ Ended u id 0 0 ls.length := by
  let v := { s with later := [], loans := s.loans.filter fun l => !ls.contains l }
  have hexec : exec .freeLendTakeEffect s = .next (endLater v id ls.length) := by
    change execFreeLendTakeEffect s = _
    unfold execFreeLendTakeEffect
    rw [hlater]
    simp [hdue, hboundary, takeEffect, v]
  have hend : endLater v id ls.length = endCmd v d 0 0 ls.length := by
    unfold endLater
    rw [show findCmd v id = some d from hcmd]
    rfl
  refine ⟨_, hexec, ?_⟩
  rw [hend]
  refine ⟨rfl, rfl, rfl, fun l => ?_, ?_⟩
  · change l ∈ s.loans.filter _ ↔ _
    simp
  · obtain rfl := findCmd_id hcmd
    exact ⟨_, findCmd_endCmd (s := v) hcmd, rfl, rfl, rfl, rfl⟩

end Memory

end Sys2Proof.Machine
end

section
/-! SUPPORT. COPY and BALANCE (R217, R370, R371, R501): where the bytes of a move within this device and its hosts go, and the counts that
BALANCE writes. -/

namespace Sys2Proof.Machine

-- One proof at a time: each that waits for another holds a thread, whose stack counts toward the memory limit.
set_option Elab.async false

open Sys2Proof

section Move

variable {s : State} {fn a b n : Nat}

/-! ### A move within this device and its hosts -/

@[simp] theorem Memory.move_zero (m : Memory) (x y : Nat) : m.move x y 0 = m := rfl

@[simp] theorem Memory.store_nil (m : Memory) (x : Nat) : m.store x [] = m := rfl

@[simp] theorem Memory.fetchBytes_zero (m : Memory) (x : Nat) : m.fetchBytes x 0 = [] := rfl

/-- What a move asks of a host or a peer before its bytes come leaves what it reaches alone. -/
theorem askSource_reach (s : State) (fn a n : Nat) :
    KeepsReach 0 s (if spaceOf a = 5 then hostRequest s fn false a n else askPeer s fn a n) :=
  (OnlySends.ite (OnlySends.refl s).other (OnlySends.refl s).askPeer).keepsPlaces.reach

theorem KeepsReach.lostAt_eq {k : Nat} {u : State} (h : KeepsReach k s u) (x : Nat) : lostAt u x = lostAt s x := by
  unfold lostAt
  rw [h.lost]

/-- Pages that are stored anew keep their bytes. -/
theorem foldl_updatePage_mem (s : State) (l : List Nat) : (l.foldl updatePage s).mem = s.mem :=
  (KeepsItems.foldl (fun _ _ => .updatePage) (.refl s)).mem

/-- Bytes that go to a host are stored as they are read. -/
theorem hostMove_mem (s : State) (fn a b n : Nat) : (hostMove s fn a b n).mem = s.mem.store (memKey s b) (devRead s a n) := by
  unfold hostMove
  refine foldl_keeps (P := fun u : State => u.mem = s.mem.store (memKey s b) (devRead s a n)) (fun u x hu => ?_) _ rfl
  split <;> exact hu

/-- In a place of this device that is there, a unit reads what memory holds. -/
theorem devRead_here (ha : spaceOf a ≠ 4) (hl : lostAt s a = false) : devRead s a n = s.mem.fetchBytes (memKey s a) n := by
  have hpeer : peerGone s a = false := by unfold peerGone; simp [ha]
  unfold devRead coreRead
  rw [hl, hpeer, if_neg Bool.false_ne_true, if_neg Bool.false_ne_true, if_neg ha]

section

variable (ha : spaceOf a ≠ 4) (hla : lostAt s a = false) (hlb : lostAt s b = false)
include ha hla hlb

/-- A move into T2, T1 or T0 carries poison onward (R501). -/
theorem devMove_mem_inside (hb : spaceOf b < 3) : (devMove s fn a b n).mem = s.mem.move (memKey s a) (memKey s b) n := by
  have hreach := askSource_reach s fn a n
  unfold devMove
  by_cases hn : n = 0
  · rw [if_pos (.inl hn), hn, Memory.move_zero]
  · rw [if_neg (by simp [hn, hlb])]
    dsimp only
    generalize (if spaceOf a = 5 then hostRequest s fn false a n else askPeer s fn a n) = v at hreach ⊢
    have hhere : ¬(lostAt v a = true ∨ spaceOf a = 4 ∨ spaceOf b = 4) := by
      rintro (hl | ha4 | hb4)
      · rw [hreach.lostAt_eq, hla] at hl
        cases hl
      · exact ha ha4
      · omega
    rw [if_neg (by omega), if_neg hhere, ← hreach.mem, ← hreach.memKey_eq, ← hreach.memKey_eq]
    split
    · exact foldl_updatePage_mem _ _
    · rfl

/-- A move to a host stores the bytes as they are read. -/
theorem devMove_mem_host (hb : spaceOf b = 5) :
    (devMove s fn a b n).mem = s.mem.store (memKey s b) (s.mem.fetchBytes (memKey s a) n) := by
  have hreach := askSource_reach s fn a n
  unfold devMove
  by_cases hn : n = 0
  · rw [if_pos (.inl hn), hn, Memory.fetchBytes_zero, Memory.store_nil]
  · rw [if_neg (by simp [hn, hlb])]
    dsimp only
    generalize (if spaceOf a = 5 then hostRequest s fn false a n else askPeer s fn a n) = v at hreach ⊢
    rw [if_pos hb, hostMove_mem, hreach.devRead_eq ha, devRead_here ha hla, hreach.mem, hreach.memKey_eq]

end

/-! ### COPY -/

/-- What a COPY leaves before its bytes move: counts, and events. -/
def copyTold (s : State) (fn ctx a b n : Nat) : State :=
  poisonFor (peerLossFor (countMove s ctx a b n) fn ctx a) fn ctx a n

/-- Only activity is counted and events are reported. -/
theorem copyTold_spec (s : State) (fn ctx a b n : Nat) : ∃ v, OnlyActivity s v ∧ OnlyReports v (copyTold s fn ctx a b n) := by
  refine ⟨countMove s ctx a b n, (OnlyActivity.refl s).countAccess.countAccess, ?_⟩
  have hloss : OnlyReports (countMove s ctx a b n) (peerLossFor (countMove s ctx a b n) fn ctx a) :=
    .ite (.refl _) (OnlyReports.refl _).eventAt.postEvent
  unfold copyTold poisonFor
  split
  · exact hloss
  · exact .ite (hloss.limited fun _ => .postEvent) (hloss.limited fun _ => .postEvent)

/-- What a COPY reads of the state is as it was: what its move reaches, the rows of old versions, and the commands. -/
structure KeepsCopy (s u : State) : Prop where
  reach : KeepsReach 0 s u
  shards : ∀ x k, oldShard u x k = oldShard s x k
  cmds : ∀ i, findCmd u i = findCmd s i

theorem KeepsCopy.trans {z u : State} (h : KeepsCopy z s) (k : KeepsCopy s u) : KeepsCopy z u :=
  ⟨h.reach.trans k.reach, fun x n => (k.shards x n).trans (h.shards x n), fun i => (k.cmds i).trans (h.cmds i)⟩

theorem copyTold_kept (s : State) (fn ctx a b n : Nat) : KeepsCopy s (copyTold s fn ctx a b n) := by
  obtain ⟨v, hactivity, hreports⟩ := copyTold_spec s fn ctx a b n
  have hreach := (((ReadsOnly.refl (c := 0) s).activity hactivity).reports hreports).reach
  obtain ⟨_, rfl⟩ := hactivity
  obtain ⟨_, _, _, _, _, _, _, _, he⟩ := hreports.form
  rw [he] at hreach ⊢
  exact ⟨hreach, fun _ _ => rfl, fun _ => rfl⟩

theorem reserveRates_kept (s : State) (u : XferUse) (c into : Option Nat) (hops : List (Hop × Nat)) :
    KeepsCopy s (reserveRates s u c into hops) := by
  obtain ⟨x, k, he⟩ := reserveRates_eq s u c into hops
  rw [he]
  exact ⟨⟨rfl, rfl, rfl, rfl, fun _ => rfl, rfl⟩, fun _ _ => rfl, fun _ => rfl⟩

/-- A move of a COPY between places of this device and hosts that serve its function moves the bytes. -/
theorem moveFor_here {ctx : Nat} (ha : spaceOf a ≠ 4) (hb : spaceOf b ≠ 4) (hsa : spaceOf a = 5 → hostServes s fn a = true)
    (hsb : spaceOf b = 5 → hostServes s fn b = true) (hold : oldShard s b n = false) :
    moveFor s fn ctx a b n = devMove (copyTold s fn ctx a b n) fn a b n := by
  obtain ⟨hreach, hshard, -⟩ := copyTold_kept s fn ctx a b n
  unfold moveFor
  dsimp only
  rw [← copyTold, hreach.hostServes_eq, if_neg (fun h => by simp [hsb h.1] at h), hshard, hold, if_neg Bool.false_ne_true, hreach.hostServes_eq,
    if_neg (fun h => by simp [hsa h.1] at h)]
  unfold crossMove crossesStored
  simp [ha, hb]

end Move

section Commands

variable {s : State} {c : Cmd} {id : Nat}

/-- The place of a COPY's end: of this device, or of a host that serves the function. -/
def CopyEnd (s : State) (c : Cmd) (a : Nat) : Prop :=
  spaceOf a ≠ 4 ∧ (spaceOf a = 5 → hostServes s c.fn a = true) ∧ lostAt s a = false

theorem CopyEnd.of_kept {u : State} {x : Nat} (h : CopyEnd s c x) (hk : KeepsCopy s u) : CopyEnd u c x :=
  ⟨h.1, fun h5 => (hk.reach.hostServes_eq _ _).trans (h.2.1 h5), (hk.reach.lostAt_eq x).trans h.2.2⟩

/-- A COPY that holds its rates and whose ends are places of this device and its hosts moves its bytes, on a state on which it has only
told of them, and ends. -/
theorem copyCmd_moves (hok : copyFault s c = none) {t : Nat}
    (hrates : ratesSince (reserveRates s (.copyCmd c.id) none (stackAt (c.field 0x10 8))
      (hostHops s (c.field 8 8) (c.field 0x10 8) (c.field 0x18 4) (c.field 0x1C 4))) (.copyCmd c.id) = some t)
    (ha : CopyEnd s c (c.field 8 8)) (hb : CopyEnd s c (c.field 0x10 8))
    (hold : oldShard s (c.field 0x10 8) (c.field 0x18 4) = false) :
    ∃ v, KeepsCopy s v ∧ copyCmd s c = endCmd (devMove v c.fn (c.field 8 8) (c.field 0x10 8) (c.field 0x18 4)) c 0 0 0 := by
  unfold copyCmd
  rw [hok]
  dsimp only
  have hreserved := reserveRates_kept s (.copyCmd c.id) none (stackAt (c.field 0x10 8))
    (hostHops s (c.field 8 8) (c.field 0x10 8) (c.field 0x18 4) (c.field 0x1C 4))
  generalize reserveRates s (.copyCmd c.id) none (stackAt (c.field 0x10 8))
    (hostHops s (c.field 8 8) (c.field 0x10 8) (c.field 0x18 4) (c.field 0x1C 4)) = r at hrates hreserved ⊢
  obtain ⟨ha4, ha5, -⟩ := ha.of_kept hreserved
  obtain ⟨hb4, hb5, -⟩ := hb.of_kept hreserved
  rw [hrates]
  dsimp only
  rw [moveFor_here ha4 hb4 ha5 hb5 ((hreserved.shards _ _).trans hold)]
  exact ⟨_, hreserved.trans (copyTold_kept r _ _ _ _ _), rfl⟩

/-- The bytes of a COPY are moved, into this device with their poison. -/
theorem completes_copy (h : AtWork s id 0x0E c) (hok : copyFault s c = none) {t : Nat}
    (hrates : ratesSince (reserveRates s (.copyCmd c.id) none (stackAt (c.field 0x10 8))
      (hostHops s (c.field 8 8) (c.field 0x10 8) (c.field 0x18 4) (c.field 0x1C 4))) (.copyCmd c.id) = some t)
    (ha : CopyEnd s c (c.field 8 8)) (hb : CopyEnd s c (c.field 0x10 8))
    (hold : oldShard s (c.field 0x10 8) (c.field 0x18 4) = false) :
    Completes (.copy id) s fun u => Ended u id 0 0 0 ∧
      (spaceOf (c.field 0x10 8) < 3 →
        u.mem = s.mem.move (memKey s (c.field 8 8)) (memKey s (c.field 0x10 8)) (c.field 0x18 4)) ∧
      (spaceOf (c.field 0x10 8) = 5 → u.mem = s.mem.store (memKey s (c.field 0x10 8))
        (s.mem.fetchBytes (memKey s (c.field 8 8)) (c.field 0x18 4))) := by
  obtain ⟨v, hkept, hwork⟩ := copyCmd_moves hok hrates ha hb hold
  obtain ⟨-, -, hla⟩ := ha.of_kept hkept
  obtain ⟨-, -, hlb⟩ := hb.of_kept hkept
  refine h.completes (f := copyCmd s) rfl ?_
  rw [hwork, ← findCmd_id h.found, chargeWork_mem]
  refine ⟨ended_of_endCmd (d := c) ?_, fun hinside => ?_, fun hhost => ?_⟩
  · rw [(KeepsConfig.refl v).devMove.findCmd, hkept.cmds]
    exact h.listed
  · rw [← hkept.reach.mem, ← hkept.reach.memKey_eq, ← hkept.reach.memKey_eq]
    exact devMove_mem_inside ha.1 hla hlb hinside
  · rw [← hkept.reach.mem, ← hkept.reach.memKey_eq, ← hkept.reach.memKey_eq]
    exact devMove_mem_host ha.1 hla hlb hhost

/-! ### BALANCE -/

theorem gradeRegions_le (s : State) : gradeRegions s ≤ 16 := by
  unfold gradeRegions activeCount
  split <;> decide

/-- The state in which BALANCE has written the counts of a region to the host and cleared them. -/
def balanced (s : State) (c : Cmd) (p : Nat) : State :=
  modPhys (hostWrite s c.fn (c.field 0x10 8) (balanceBytes (physOf s p))) p fun y => { y with sketch := [], shardLoad := [] }

theorem physOf_balanced (s : State) (c : Cmd) (p : Nat) :
    physOf (balanced s c p) p = { physOf s p with sketch := [], shardLoad := [] } := by
  unfold balanced
  rw [physOf_modPhys, hostWrite_physOf]

theorem physOf_balanced_other {p q : Nat} (s : State) (c : Cmd) (hq : q ≠ p) : physOf (balanced s c p) q = physOf s q := by
  unfold balanced
  rw [physOf_modPhys_other hq, hostWrite_physOf]

theorem balanced_mem (s : State) (c : Cmd) (p : Nat) : (balanced s c p).mem =
    s.mem.store (memKey s (hostAddr (fnPort s c.fn) (c.field 0x10 8))) (balanceBytes (physOf s p)) := by
  unfold balanced
  rw [modPhys_mem, hostWrite_mem]

theorem findCmd_balanced (s : State) (c : Cmd) (p i : Nat) : findCmd (balanced s c p) i = findCmd s i := by
  unfold balanced
  rw [modPhys_findCmd, hostWrite_findCmd]

@[simp] theorem chargeWork_physOf {t : State} {q : Nat} : physOf (chargeWork s t id) q = physOf t q := rfl

theorem balanceCmd_eq (hregion : c.field 8 1 < gradeRegions s) {p : Nat} (hp : physOfLogical s (c.field 8 1) = some p) :
    balanceCmd s c = endCmd (balanced s c p) c 0 0 (physOf s p).sketch.length := by
  have hle := gradeRegions_le s
  unfold balanceCmd
  dsimp only
  rw [if_neg (by omega), if_neg (by omega), hp]
  rfl

/-- The counts of a region go to the host, and are cleared. -/
theorem completes_balance (h : AtWork s id 0x0F c) (hregion : c.field 8 1 < gradeRegions s) {p : Nat}
    (hp : physOfLogical s (c.field 8 1) = some p) :
    Completes (.balance id) s fun u => Ended u id 0 0 (physOf s p).sketch.length ∧ (physOf u p).sketch = [] ∧
      (physOf u p).shardLoad = [] ∧ (∀ q, q ≠ p → physOf u q = physOf s q) ∧
      u.mem = s.mem.store (memKey s (hostAddr (fnPort s c.fn) (c.field 0x10 8))) (balanceBytes (physOf s p)) := by
  have hlisted : findCmd (balanced s c p) c.id = some c := (findCmd_balanced s c p c.id).trans h.listed
  refine h.completes (f := balanceCmd s) rfl ?_
  rw [balanceCmd_eq hregion hp, ← findCmd_id h.found, chargeWork_mem, endCmd_mem]
  refine ⟨ended_of_endCmd hlisted, ?_, ?_, fun q hq => ?_, balanced_mem s c p⟩
  · rw [chargeWork_physOf, endCmd_physOf, physOf_balanced]
  · rw [chargeWork_physOf, endCmd_physOf, physOf_balanced]
  · rw [chargeWork_physOf, endCmd_physOf, physOf_balanced_other s c hq]

end Commands

end Sys2Proof.Machine
end

section
open Sys2Proof Sys2Proof.Machine

/-- Settles O47: an allocation takes the next handle and changes nothing of what stood; what waits for a boundary is listed with it, and
changes nothing else before; a COPY moves its bytes on a state in which only counts and events have changed. -/
theorem memoryCommands : Obligations.MemoryCommands := by
  unfold Obligations.MemoryCommands
  refine ⟨fun s id c => ⟨fun h htier hok u0 hfit => ?frames, fun h htier hok H n t hseek => ?pinned,
    fun h htier hok H n t hseek => ?object, fun a h hphase ha hmapped => ?free,
    fun h hlend hphase hok hquota hfree hfit => ?lend, fun h hreturn hphase hok hlent honce => ?returned,
    fun d ls b hcmd hlater hdue hboundary => ?takesEffect⟩,
    fun s id c => ⟨fun h hok ⟨t, hrates⟩ ha hb hold => ?copy, fun h hregion p hp => ?balance⟩⟩
  case frames =>
    obtain ⟨k, hfree⟩ := framesFree_of_fitIn hfit
    exact ⟨apart_of_framesFree hfree, completes_allocT2Frames h htier hok hfit⟩
  case pinned => exact completes_allocPinnedT1 h htier hok hseek
  case object => exact completes_allocObject h htier hok hseek
  case free =>
    obtain ⟨u, hexec, hlater, hsame⟩ := completes_free h hphase ha hmapped
    obtain ⟨hafter, hfirst, hboundary⟩ := laterBoundary_spec c
    exact ⟨u, hexec, hlater, hafter, hfirst, hboundary, hsame⟩
  case lend => exact completes_lend h hlend hphase hok hquota hfree hfit
  case returned => exact completes_returnFrames h hreturn hphase hok hlent honce
  case takesEffect => exact completes_giveBack hcmd hlater hdue hboundary
  case copy => exact completes_copy h hok hrates ha hb hold
  case balance => exact completes_balance h hregion hp

end

section
/-! SUPPORT. The epoch line and device time (R397 to R400, R490): what the master's pulse, an edge, a takeover and the loss of TREF make of
the clock. -/

namespace Sys2Proof.Machine

open Sys2Proof

/-! ### The pulse of the master (R397) -/

theorem announce_eq (s : State) (b : Nat) :
    announce s b = { s with out := s.out ++ (upPorts s).map fun p => Output.timeFlit p b } :=
  foldl_emit _ _ _

theorem completes_epochPulse {s : State} (hmaster : s.clock.master = true) (hrun : s.clock.running = true)
    (hhold : s.hold = false) (hboundary : s.clock.time % 1048576 = 0) (hpos : 0 < s.clock.time)
    (hlast : mget? s.lastEvent (0x700, 0) ≠ some s.clock.time) :
    Completes .epochPulse s fun u => u.clock.time = s.clock.time ∧ u.clock.silence = 0 ∧
      u.out.getLast? = some (.epochPulse s.clock.time) ∧ u.mem = s.mem := by
  have hgo : ¬(!s.clock.master ∨ !s.clock.running ∨ s.hold ∨ !isBoundary s.clock.time ∨ s.clock.time = 0 ∨
      mget? s.lastEvent (0x700, 0) = some s.clock.time) := by
    simp [isBoundary, hmaster, hrun, hhold, hboundary, hlast, hpos.ne']
  refine ⟨_, if_neg hgo, ?_⟩
  rw [announce_eq]
  exact ⟨rfl, rfl, List.getLast?_concat, rfl⟩

/-! ### An edge (R398, R400) -/

/-- An event to a queue that is open is a record of its code. -/
theorem deviceEvent_record {s : State} (code word : Nat) (h : (queueOf s 0 0).en = true) :
    ∃ r, (deviceEvent s code word).records = s.records ++ [r] ∧ r.fn = 0 ∧ r.result / 2 ^ 24 = code := by
  unfold deviceEvent postEvent
  rw [if_pos h]
  refine ⟨_, rfl, rfl, ?_⟩
  dsimp only
  omega

/-- The event of an offset above 200 ns leaves the clock as the correction has made it. -/
theorem correctTime_clock (s : State) : (correctTime s).clock = s.clock.correct (edgeBoundary s.clock) := by
  unfold correctTime
  dsimp only
  split
  · obtain ⟨r, n, he⟩ := deviceEvent_eq { s with clock := s.clock.correct (edgeBoundary s.clock) } 0x0D
      (s.clock.time - edgeBoundary s.clock + (edgeBoundary s.clock - s.clock.time))
    rw [he]
  · rfl

theorem correctTime_within {s : State} (hahead : s.clock.time - edgeBoundary s.clock ≤ 200)
    (hbehind : edgeBoundary s.clock - s.clock.time ≤ 200) :
    correctTime s = { s with clock := s.clock.correct (edgeBoundary s.clock) } :=
  if_neg (by omega)

theorem correctTime_beyond {s : State}
    (h : 200 < s.clock.time - edgeBoundary s.clock ∨ 200 < edgeBoundary s.clock - s.clock.time) :
    correctTime s = deviceEvent { s with clock := s.clock.correct (edgeBoundary s.clock) } 0x0D
      (s.clock.time - edgeBoundary s.clock + (edgeBoundary s.clock - s.clock.time)) :=
  if_pos (by omega)

theorem exec_epochEdge_aligned {s : State} (hmaster : s.clock.master = false) (halign : s.clock.aligned = true) :
    exec .epochEdge s = .next (correctTime s) := by
  show execEpochEdge s = _
  unfold execEpochEdge
  simp [hmaster, halign]

theorem completes_epochEdge_aligned {s : State} (hmaster : s.clock.master = false) (halign : s.clock.aligned = true) :
    Completes .epochEdge s fun u =>
      let b := edgeBoundary s.clock
      u.clock.time = s.clock.time ∧ u.clock.holdNs = s.clock.time - b ∧ u.clock.behindNs = b - s.clock.time ∧
      u.clock.announced = none ∧ u.clock.silence = 0 ∧
      (s.clock.time - b ≤ 200 ∧ b - s.clock.time ≤ 200 → u.records = s.records ∧ u.fns = s.fns) ∧
      (200 < s.clock.time - b ∨ 200 < b - s.clock.time → (queueOf s 0 0).en = true →
        ∃ r, u.records = s.records ++ [r] ∧ r.fn = 0 ∧ r.result / 2 ^ 24 = 0x0D) := by
  refine ⟨_, exec_epochEdge_aligned hmaster halign, ?_⟩
  dsimp only
  rw [correctTime_clock]
  refine ⟨rfl, rfl, rfl, rfl, rfl, fun ⟨hahead, hbehind⟩ => ?_, fun hfar hopen => ?_⟩
  · rw [correctTime_within hahead hbehind]
    exact ⟨rfl, rfl⟩
  · rw [correctTime_beyond hfar]
    exact deviceEvent_record _ _ hopen

theorem completes_epochEdge_unaligned {s : State} (hmaster : s.clock.master = false) (halign : s.clock.aligned = false) :
    (∀ b, s.clock.announced = some b → Completes .epochEdge s fun u => u.clock.time = b ∧ u.clock.aligned = true ∧
      u.clock.running = true ∧ { u with clock := s.clock } = s) ∧
    (s.clock.announced = none → Completes .epochEdge s fun u => u.clock.time = s.clock.time ∧ u.clock.aligned = false ∧
      u.clock.silence = 0 ∧ { u with clock := s.clock } = s) := by
  have hmaster' : ¬s.clock.master = true := by simp [hmaster]
  have halign' : ¬s.clock.aligned = true := by simp [halign]
  refine ⟨fun b hb => ⟨{ s with clock := { s.clock with
      time := b, running := true, aligned := true, silence := 0, announced := none } }, ?_, rfl, rfl, rfl, rfl⟩,
    fun hb => ⟨{ s with clock := { s.clock with silence := 0 } }, ?_, rfl, halign, rfl, rfl⟩⟩
  all_goals
    refine (if_neg hmaster').trans ((if_neg halign').trans ?_)
    split
  · next d hd => cases hb.symm.trans hd; rfl
  · next hd => cases hb.symm.trans hd
  · next d hd => cases hb.symm.trans hd
  · rfl

/-! ### The takeover (R399) and the oscillators (R490) -/

theorem completes_epochMasterTakeover {s : State} (hmaster : s.clock.master = false) (hhold : s.hold = false)
    (hformed : s.keels.formed = true) (hsilent : (s.part.device + 2) * 1048576 ≤ s.clock.silence) :
    Completes .epochMasterTakeover s fun u => u.clock.master = true ∧ u.clock.silence = 0 ∧
      (s.clock.aligned = true → u.clock.time = s.clock.time) ∧
      (s.clock.aligned = false → u.clock.time = 0 ∧ u.clock.running = true ∧ u.clock.aligned = true) := by
  have hgo : ¬(s.clock.master ∨ s.hold ∨ !s.keels.formed ∨ s.clock.silence < (s.part.device + 2) * 1048576) := by
    simp [hmaster, hhold, hformed, hsilent]
  cases halign : s.clock.aligned with
  | true =>
    refine ⟨_, (if_neg hgo).trans (if_pos halign), ?_⟩
    simp
  | false =>
    refine ⟨_, (if_neg hgo).trans (if_neg (by simp [halign])), ?_⟩
    rw [announce_eq]
    simp

theorem completes_trefLoss {s : State} (hvaon : s.board.vaon = true) (hosc : s.clock.internalOsc = false) :
    Completes .trefLoss s fun u => u.clock.internalOsc = true ∧ u.clock.time = s.clock.time ∧ u.mem = s.mem ∧
      u.contexts = s.contexts := by
  have hgo : ¬(!s.board.vaon ∨ s.clock.internalOsc) := by simp [hvaon, hosc]
  by_cases hposted : s.clock.oscPosted = true
  · exact ⟨_, (if_neg hgo).trans (if_pos hposted), rfl, rfl, rfl, rfl⟩
  · refine ⟨_, (if_neg hgo).trans (if_neg hposted), ?_⟩
    obtain ⟨r, n, he⟩ := deviceEvent_eq (freshNat { s with clock := { s.clock with internalOsc := true, oscPosted := true } }).2
      0x0D (freshNat { s with clock := { s.clock with internalOsc := true, oscPosted := true } }).1
    rw [he]
    exact ⟨rfl, rfl, rfl, rfl⟩

theorem completes_trefReturn {s : State} (hosc : s.clock.internalOsc = true) :
    Completes .trefReturn s fun u => u.clock.internalOsc = false ∧ u.clock.time = s.clock.time ∧
      { u with clock := s.clock } = s :=
  ⟨_, if_neg (by simp [hosc]), rfl, rfl, rfl⟩

end Sys2Proof.Machine
end

section
open Sys2Proof Sys2Proof.Machine

/-- Settles O53, row by row: an aligned edge is a correction of the count, and any other edge takes the announced boundary or none. -/
theorem epochTime : Obligations.EpochTime := by
  unfold Obligations.EpochTime
  intro s
  exact ⟨completes_epochPulse, completes_epochEdge_aligned, completes_epochEdge_unaligned, completes_epochMasterTakeover,
    completes_trefLoss, completes_trefReturn⟩

end

section
/-! SUPPORT. A state that refutes the statement about lanes and peers. The header of an operation carries 41 bits of inner address (R392,
Table 14.6), and in the states of the statement nothing bounds the number that stands for them: one with higher bits makes an address in
host memory of an operation on T1, and a write there leaves by a host port before it is answered. -/

namespace Sys2Proof.Machine

open Sys2Proof

/-- A write of four bytes to T1, whose inner address carries into the code of the space. -/
def strayWide : OpHeader :=
  { op := 2, fn := 0, tag := 0, len := 4, space := 1, inner := 4 * 2 ^ 52, minor := 0, poison := false }

/-- The state after reset with that operation in the receive buffer of port 0. -/
def wideInner : State :=
  modLink State.reset 0 fun l => { l with inbox := [(strayWide, [1, 2, 3, 4])] }

theorem spaceOf_strayWide : spaceOf (opAddr strayWide) = 5 := by decide

/-- The write passes the check of R395, since the bus addresses of one host port are of every function. -/
theorem strayWide_passes : peerOpAllowed wideInner (farEnd wideInner 0).1 strayWide = true ∧
    peerWriteOpen wideInner strayWide = true ∧ regionOpen wideInner (opAddr strayWide) = true ∧
    lostAt wideInner (opAddr strayWide) = false := by decide

/-- What leaves the device first is the request to the host. -/
theorem exec_strayWide : ∃ u, exec (.remoteOperationReceive 0 strayWide [1, 2, 3, 4]) wideInner = .next u ∧
    u.out.head? = some (.hostRequest 1 0 true 0 4) := ⟨_, rfl, by decide⟩

end Sys2Proof.Machine

open Sys2Proof Sys2Proof.Machine

/-- Refutes O52: on `wideInner` the write of a peer that passes R395 is not answered first, as the statement says of it, but goes to the
host. The premise that the statement lacks is that the inner address fits its 41 bits (Table 14.6); under it the address lies in the space
that the header names, and no write to T2, T1 or T0 leaves the device. -/
theorem not_lanesAndPeers : ¬ Obligations.LanesAndPeers := by
  intro h
  obtain ⟨-, -, -, hops, -⟩ := h wideInner 0
  obtain ⟨hwrite, -⟩ := hops strayWide [1, 2, 3, 4] rfl rfl
  obtain ⟨hallowed, hopen, hregion, hlost⟩ := strayWide_passes
  obtain ⟨u, hu, -, -, r, ⟨fs, hout, -⟩, -⟩ := hwrite rfl hallowed hopen ⟨hregion, hlost⟩ rfl
  obtain ⟨v, hv, hfirst⟩ := exec_strayWide
  obtain rfl : u = v := Host.Outcome.next.inj (hu.symm.trans hv)
  rw [hout] at hfirst
  cases hfirst

end

section
/-! SUPPORT. Device links (R383 to R390): what a flit that leaves changes of its port, what the answer to a flit and a resend come to, and the
bring-up of a port. -/

namespace Sys2Proof.Machine

open Sys2Proof

/-! ### What goes out -/

/-- One flit without payload has left by a port, and nothing else. -/
def FlitLeaves (port : Nat) (s u : State) (kind seq ack credits : Nat) : Prop := ∃ crc,
  u.out = s.out ++ [.flit port { kind := kind, seq := seq, ack := ack, credits := credits } [] crc]

/-- The data flits of a list have left by a port again, in order, each with its SEQ, and nothing else. -/
def FlitsResent (port : Nat) (s u : State) (r : List (Nat × List Byte)) : Prop := ∃ more : List Output,
  u.out = s.out ++ more ∧ more.length = r.length ∧ ∀ (i : Nat) (e : Nat × List Byte), r[i]? = some e →
    ∃ (h : FlitHead) (crc : Word), more[i]? = some (Output.flit port h e.2 crc) ∧ h.kind = 0 ∧ h.seq = e.1

/-- CREDITS of the next flit of a port (R387, R396). -/
def roomToReturn (s : State) (port : Nat) : Nat := if s.hold then 0 else Nat.min 31 ((linkOf s port).freed / 8)

/-- A port after n units of CREDITS have gone out. -/
def Link.lend (l : Link) (n : Nat) : Link := { l with freed := l.freed - 8 * n, lent := l.lent + 8 * n }

/-- A port is as it was but for what numbers, keeps and pays for the data flits that leave, and the credits that it gives back. -/
def Link.SendsOn (l m : Link) : Prop := ∃ q r o f n, m = { l with sendSeq := q, replay := r, outq := o, freed := f, lent := n }

theorem Link.SendsOn.refl (l : Link) : l.SendsOn l := ⟨_, _, _, _, _, rfl⟩

theorem Link.SendsOn.trans {k l m : Link} (a : k.SendsOn l) (b : l.SendsOn m) : k.SendsOn m := by
  obtain ⟨_, _, _, _, _, rfl⟩ := a
  obtain ⟨_, _, _, _, _, rfl⟩ := b
  exact ⟨_, _, _, _, _, rfl⟩

section Flits

variable {s : State} {port kind seq : Nat} {bs : List Byte}

/-- Of its port a flit that leaves changes what CREDITS gives back. -/
@[simp] theorem linkOf_emitFlit : linkOf (emitFlit s port kind seq bs) port = (linkOf s port).lend (roomToReturn s port) := by
  show linkOf (modLink s port (Link.lend · (roomToReturn s port))) port = _
  exact linkOf_modLink

/-- A flit that leaves a state `t` in which the port has the same slots to give back as before. -/
theorem emitFlit_after {t : State} (hout : t.out = s.out) (hhold : t.hold = s.hold)
    (hfreed : (linkOf t port).freed = (linkOf s port).freed) :
    linkOf (emitFlit t port kind seq []) port = (linkOf t port).lend (roomToReturn s port) ∧
    FlitLeaves port s (emitFlit t port kind seq []) kind seq (((linkOf t port).recvSeq + 4095) % 4096) (roomToReturn s port) := by
  have hroom : roomToReturn t port = roomToReturn s port := by
    unfold roomToReturn
    rw [hhold, hfreed]
  refine ⟨by rw [linkOf_emitFlit, hroom], flitCrc (flitHead t port kind seq) [], ?_⟩
  rw [← hout, ← hroom]
  rfl

@[simp] theorem linkOf_giveBack {res : Resource} {n q : Nat} : linkOf (giveBack s res n) q = linkOf s q := by
  obtain ⟨d, l, he⟩ := giveBack_eq s res n
  rw [he]
  rfl

@[simp] theorem linkOf_askLending {led : AdmPoint} {res : Resource} {n q : Nat} :
    linkOf (askLending s led res n) q = linkOf s q := by
  unfold askLending
  split
  · rfl
  · dsimp only
    obtain ⟨d, l, he⟩ := serveLending_eq res
      (destOf (setDest s res { destOf s res with waiting := (destOf s res).waiting ++ [(led, res, n)] }) res).waiting.length
      (setDest s res { destOf s res with waiting := (destOf s res).waiting ++ [(led, res, n)] })
    rw [he]
    rfl

@[simp] theorem linkOf_reserve {x : AdmPoint × Resource × Nat} {q : Nat} : linkOf (reserve s x) q = linkOf s q := by
  unfold reserve
  dsimp only
  split <;> rfl

end Flits

/-! ### Flits that wait, and flits that are sent again (R385) -/

theorem sendsOn_sendFlits (port k : Nat) : ∀ s : State, (linkOf s port).SendsOn (linkOf (sendFlits port k s) port) := by
  induction k with
  | zero => exact fun s => .refl _
  | succ k ih =>
    intro s
    unfold sendFlits
    split
    · exact .refl _
    · split
      · exact .refl _
      · split
        · rw [linkOf_askLending]; exact .refl _
        · refine .trans ?_ (ih _)
          rw [linkOf_emitFlit, linkOf_modLink]
          split
          · exact ⟨_, _, _, _, _, rfl⟩
          · rw [linkOf_reserve]; exact ⟨_, _, _, _, _, rfl⟩

theorem pumpPort_of_empty {s : State} {port : Nat} (h : (linkOf s port).outq = []) : pumpPort s port = s := by
  unfold pumpPort
  rw [h]
  rfl

theorem sendsOn_takeAck (s : State) (port ack credits : Nat) : (linkOf s port).SendsOn (linkOf (takeAck s port ack credits) port) := by
  unfold takeAck
  refine .trans ?_ (sendsOn_sendFlits port _ _)
  rw [linkOf_giveBack, linkOf_modLink]
  exact ⟨_, _, _, _, _, rfl⟩

theorem onlySends_takeAck (s : State) (port ack credits : Nat) : OnlySends s (takeAck s port ack credits) := by
  have hmod := (OnlySends.refl s).modLink (p := port) (f := fun l => { l with replay := dropAcked ack l.replay })
  obtain ⟨d, l, he⟩ := giveBack_eq (modLink s port fun l => { l with replay := dropAcked ack l.replay }) (.flits port)
    (Nat.min (8 * credits) (resourceTotal (.flits port) - (destOf s (.flits port)).free))
  have hback : OnlySends s (giveBack (modLink s port fun l => { l with replay := dropAcked ack l.replay }) (.flits port)
    (Nat.min (8 * credits) (resourceTotal (.flits port) - (destOf s (.flits port)).free))) := he ▸ hmod.other
  exact hback.sendFlits

/-- With no data flit waiting, an ACK takes what it covers out of the replay buffer, and CREDITS go back. -/
theorem takeAck_of_empty {s : State} {port : Nat} (ack credits : Nat) (h : (linkOf s port).outq = []) :
    takeAck s port ack credits = giveBack (modLink s port fun l => { l with replay := dropAcked ack l.replay }) (.flits port)
      (Nat.min (8 * credits) (768 - (destOf s (.flits port)).free)) :=
  pumpPort_of_empty (by rw [linkOf_giveBack, linkOf_modLink]; exact h)

/-- A resend changes of its port the credits that it gives back, and no more. -/
theorem linkOf_resendAll (s : State) (port : Nat) : ∃ f n, linkOf (resendAll s port) port =
    { linkOf s port with freed := f, lent := n } := by
  refine foldl_keeps (P := fun u => ∃ f n, linkOf u port = { linkOf s port with freed := f, lent := n }) ?_ _ ⟨_, _, rfl⟩
  rintro u e ⟨f, n, he⟩
  exact ⟨_, _, by rw [linkOf_emitFlit, he]; rfl⟩

theorem flitsResent_foldl (port : Nat) (r : List (Nat × List Byte)) : ∀ s : State,
    FlitsResent port s (r.foldl (fun s e => emitFlit s port 0 e.1 e.2) s) r := by
  induction r with
  | nil => exact fun s => ⟨[], by simp, rfl, by simp⟩
  | cons e r ih =>
    intro s
    obtain ⟨more, hout, hlen, hall⟩ := ih (emitFlit s port 0 e.1 e.2)
    refine ⟨.flit port (flitHead s port 0 e.1) e.2 (flitCrc (flitHead s port 0 e.1) e.2) :: more, ?_, by simp [hlen], ?_⟩
    · rw [List.foldl_cons, hout]
      simp [emitFlit]
    · intro i d hd
      cases i with
      | zero => cases hd; exact ⟨_, _, rfl, rfl, rfl⟩
      | succ i => exact hall i d hd

theorem flitsResent_resendAll (s : State) (port : Nat) : FlitsResent port s (resendAll s port) (linkOf s port).replay :=
  flitsResent_foldl port _ s

/-! ### Bring-up (R383) -/

section

variable {s : State} {port : Nat}

theorem up_of_mayTrain (h : mayTrain s port = true) : (linkOf s port).up = false := by
  unfold mayTrain at h
  simp only [Bool.and_eq_true, Bool.not_eq_true'] at h
  exact h.2

theorem chosenLanes_usable (l : Link) (lanes : BitVec 9) : chosenLanes (usableLanes l lanes) =
    if (usableLanes l lanes).length = 9 then List.range 8 else usableLanes l lanes := by
  have hle : (usableLanes l lanes).length ≤ 9 := (List.length_filter_le _ _).trans_eq List.length_range
  exact if_congr (by omega) rfl rfl

theorem completes_portBringup {lanes : BitVec 9} (hmay : mayTrain s port = true) :
    (7 ≤ (usableLanes (linkOf s port) lanes).length → Completes (.portBringup port lanes) s fun u =>
      (linkOf u port).training = true ∧ (linkOf u port).up = false ∧
      (linkOf u port).lanes = (if (usableLanes (linkOf s port) lanes).length = 9 then List.range 8
        else usableLanes (linkOf s port) lanes) ∧
      u.out = s.out ++ [.identity port s.part.device port s.flash.boardSerial s.part.romRev]) ∧
    ((usableLanes (linkOf s port) lanes).length < 7 → Completes (.portBringup port lanes) s fun u =>
      (linkOf u port).training = false ∧ (linkOf u port).up = false ∧ u.out = s.out) := by
  have hgo : ¬(!mayTrain s port) = true := by simp [hmay]
  have hup := up_of_mayTrain hmay
  refine ⟨fun h => ⟨_, (if_neg hgo).trans (if_neg (by omega)), ?_⟩, fun h => ⟨_, (if_neg hgo).trans (if_pos h), ?_⟩⟩
  · simpa using ⟨hup, chosenLanes_usable _ _⟩
  · simpa using hup

/-- The first thing that a port does when it comes up. -/
def Link.fresh (l : Link) : Link :=
  { l with
    up := true, training := false, sendSeq := 0, outq := [], replay := [], recvSeq := 0, discarding := false, failSeq := 0
    freed := 0, lent := 768, failCount := 0, nakAck := 0, nakCount := 0, draining := false, wiringFault := false
    rateBlocked := decide (l.lanes.length = 7) }

theorem portComesUp_of_none (hw : (destOf s (.flits port)).waiting = []) :
    portComesUp s port = setDest (setLedger (modLink s port Link.fresh) (.linkDie (portDie port)) (.flits port) { lots := [] })
      (.flits port) { free := 768, waiting := (destOf s (.flits port)).waiting } :=
  serveLending_none (by rw [destOf_setDest]; exact hw) _

theorem completes_identityFlit {d p : Nat} {serial : DWord} (htrain : (linkOf s port).training = true) :
    (farEnd s port = (d, p) → serial = s.flash.boardSerial → (destOf s (.flits port)).waiting = [] →
      Completes (.identityFlit port d p serial) s fun u =>
        (linkOf u port).up = true ∧ (linkOf u port).sendSeq = 0 ∧ (linkOf u port).recvSeq = 0 ∧
        (linkOf u port).replay = [] ∧ (linkOf u port).outq = [] ∧ (linkOf u port).lanes = (linkOf s port).lanes ∧
        (linkOf u port).lent = 768 ∧ (destOf u (.flits port)).free = 768) ∧
    (farEnd s port ≠ (d, p) ∨ serial ≠ s.flash.boardSerial → Completes (.identityFlit port d p serial) s fun u =>
      (linkOf u port).up = (linkOf s port).up ∧ (linkOf u port).wiringFault = true ∧ u.out = s.out ++ [.wiringFault port]) := by
  have hgo : ¬(!(linkOf s port).training) = true := by simp [htrain]
  refine ⟨fun hfar hserial hw => ⟨_, (if_neg hgo).trans (if_pos ⟨hfar, hserial⟩), ?_⟩,
    fun h => ⟨_, (if_neg hgo).trans (if_neg ?_), ?_⟩⟩
  · rw [portComesUp_of_none hw]
    simp [Link.fresh]
  · rintro ⟨hfar, hserial⟩
    exact h.elim (· hfar) (· hserial)
  · simp

end

/-! ### Data flits and their answers (R385, R387) -/

section

variable {s : State} {port seq ack credits : Nat} {ops : List (OpHeader × List Byte)}

/-- A port that has taken a data flit in its turn. -/
def Link.take (ops : List (OpHeader × List Byte)) (l : Link) : Link :=
  { l with recvSeq := (l.recvSeq + 1) % 4096, discarding := false, failCount := 0, inbox := l.inbox ++ ops, lent := l.lent - 1 }

theorem exec_dataFlit_inTurn (hup : (linkOf s port).up = true) (hlent : 0 < (linkOf s port).lent)
    (hseq : seq = (linkOf s port).recvSeq) : exec (.dataFlit port seq ack credits true ops) s =
      .next (sendIdle (takeAck (modLink s port (Link.take ops)) port ack credits) port) := by
  have hgo : ¬(!(linkOf s port).up ∨ (linkOf s port).lent = 0) := by simp [hup, hlent.ne']
  exact (if_neg hgo).trans (if_neg (not_not.mpr hseq))

theorem takeAck_quiet (h : (linkOf s port).outq = []) :
    linkOf (takeAck s port ack credits) port = { linkOf s port with replay := dropAcked ack (linkOf s port).replay } ∧
    (takeAck s port ack credits).out = s.out := by
  rw [takeAck_of_empty ack credits h, linkOf_giveBack, linkOf_modLink]
  obtain ⟨d, l, he⟩ := giveBack_eq (modLink s port fun l => { l with replay := dropAcked ack l.replay }) (.flits port)
    (Nat.min (8 * credits) (768 - (destOf s (.flits port)).free))
  exact ⟨rfl, by rw [he]; rfl⟩

theorem takeAck_mem_hold : (takeAck s port ack credits).mem = s.mem ∧ (takeAck s port ack credits).hold = s.hold := by
  obtain ⟨_, _, _, _, he⟩ := onlySends_takeAck s port ack credits
  rw [he]
  exact ⟨rfl, rfl⟩

/-- What the idle flit that answers leaves of a port. -/
theorem sendIdle_of_sendsOn {t : State} {l : Link} (h : l.SendsOn (linkOf t port)) :
    (linkOf (sendIdle t port) port).recvSeq = l.recvSeq ∧ (linkOf (sendIdle t port) port).inbox = l.inbox ∧
    (linkOf (sendIdle t port) port).discarding = l.discarding ∧ (linkOf (sendIdle t port) port).failCount = l.failCount := by
  obtain ⟨_, _, _, _, _, he⟩ := h
  rw [sendIdle, linkOf_emitFlit, he]
  exact ⟨rfl, rfl, rfl, rfl⟩

theorem completes_dataFlit_inTurn (hup : (linkOf s port).up = true) (hlent : 0 < (linkOf s port).lent)
    (hseq : seq = (linkOf s port).recvSeq) : Completes (.dataFlit port seq ack credits true ops) s fun u =>
      (linkOf u port).recvSeq = ((linkOf s port).recvSeq + 1) % 4096 ∧ (linkOf u port).inbox = (linkOf s port).inbox ++ ops ∧
      (linkOf u port).discarding = false ∧ (linkOf u port).failCount = 0 ∧ u.mem = s.mem ∧
      ((linkOf s port).outq = [] → (linkOf u port).replay = dropAcked ack (linkOf s port).replay ∧
        (linkOf u port).lent = (linkOf s port).lent - 1 + 8 * roomToReturn s port ∧
        (linkOf u port).freed = (linkOf s port).freed - 8 * roomToReturn s port ∧
        FlitLeaves port s u 1 0 ((((linkOf s port).recvSeq + 1) % 4096 + 4095) % 4096) (roomToReturn s port)) := by
  refine ⟨_, exec_dataFlit_inTurn hup hlent hseq, ?_⟩
  have hlink : linkOf (modLink s port (Link.take ops)) port = (linkOf s port).take ops := linkOf_modLink
  have hsends := hlink ▸ sendsOn_takeAck (modLink s port (Link.take ops)) port ack credits
  obtain ⟨hmem, hhold⟩ := takeAck_mem_hold (s := modLink s port (Link.take ops)) (port := port) (ack := ack) (credits := credits)
  have hquiet := takeAck_quiet (s := modLink s port (Link.take ops)) (port := port) (ack := ack) (credits := credits)
  rw [hlink] at hquiet
  change _ = s.mem at hmem
  change _ = s.hold at hhold
  change (linkOf s port).outq = [] → _ ∧ _ = s.out at hquiet
  generalize takeAck (modLink s port (Link.take ops)) port ack credits = t at *
  obtain ⟨hrecv, hinbox, hdisc, hfail⟩ := sendIdle_of_sendsOn hsends
  refine ⟨hrecv, hinbox, hdisc, hfail, hmem, fun hempty => ?_⟩
  obtain ⟨htook, hout⟩ := hquiet hempty
  obtain ⟨hidle, hleaves⟩ := emitFlit_after (kind := 1) (seq := 0) hout hhold (by rw [htook]; rfl)
  rw [htook] at hidle hleaves
  refine ⟨?_, ?_, ?_, hleaves⟩
  iterate 3 · rw [sendIdle, hidle]; rfl

/-- The NAK that leaves, of a state that differs from `s` in what a port discards and counts. -/
theorem sendNak_after {t : State} {l : Link} (hout : t.out = s.out) (hhold : t.hold = s.hold) (hlink : linkOf t port = l)
    (hfreed : l.freed = (linkOf s port).freed) : linkOf (sendNak t port) port = l.lend (roomToReturn s port) ∧
    FlitLeaves port s (sendNak t port) 2 0 ((l.recvSeq + 4095) % 4096) (roomToReturn s port) := by
  subst hlink
  exact emitFlit_after hout hhold hfreed

/-- A port that discards what comes until the flit that it waits for. -/
def Link.discard (l : Link) : Link := { l with discarding := true }

/-- A data flit with a good CRC that is out of its turn is answered by the NAK of a run of discarded flits. -/
theorem completes_dataFlit_outOfTurn (hup : (linkOf s port).up = true) (hlent : 0 < (linkOf s port).lent)
    (hseq : seq ≠ (linkOf s port).recvSeq) (hfirst : (linkOf s port).discarding = false) :
    Completes (.dataFlit port seq ack credits true ops) s fun u => (linkOf u port).recvSeq = (linkOf s port).recvSeq ∧
      (linkOf u port).inbox = (linkOf s port).inbox ∧ (linkOf u port).discarding = true ∧
      FlitLeaves port s u 2 0 (((linkOf s port).recvSeq + 4095) % 4096) (roomToReturn s port) := by
  have hgo : ¬(!(linkOf s port).up ∨ (linkOf s port).lent = 0) := by simp [hup, hlent.ne']
  refine ⟨sendNak (modLink s port Link.discard) port,
    (if_neg hgo).trans ((if_pos hseq).trans (if_neg (by simp [hfirst]))), ?_⟩
  have hlink : linkOf (modLink s port Link.discard) port = (linkOf s port).discard := linkOf_modLink
  obtain ⟨hnak, hleaves⟩ := sendNak_after (s := s) (t := modLink s port Link.discard) rfl rfl hlink rfl
  refine ⟨?_, ?_, ?_, hleaves⟩
  iterate 3 · rw [hnak]; rfl

/-- A port at which the CRC of the first flit of a run has failed. -/
def Link.spoil (l : Link) : Link :=
  { l with
    crcErrors := satAdd 0xFFFF l.crcErrors 1, discarding := true
    failCount := if l.failSeq = l.recvSeq then l.failCount + 1 else 1, failSeq := l.recvSeq }

/-- The first bad flit of a run has its port discard, and count, and send a NAK. -/
theorem badFlit_first (hfirst : (linkOf s port).discarding = false) : ∃ t, badFlit s port seq = sendNak t port ∧ t.out = s.out ∧
    t.hold = s.hold ∧ linkOf t port = (linkOf s port).spoil := by
  have hlink : linkOf (modLink s port Link.spoil) port = (linkOf s port).spoil := linkOf_modLink
  refine ⟨{ modLink s port Link.spoil with life := { s.life with portCrc := mmod 0 s.life.portCrc port (· + 1) } },
    ?_, rfl, rfl, hlink⟩
  unfold badFlit
  simp only [hfirst, Bool.not_false, Bool.true_or, if_true, Bool.not_true, Bool.false_eq_true, if_false]
  rfl

theorem completes_dataFlit_bad (hup : (linkOf s port).up = true) (hlent : 0 < (linkOf s port).lent)
    (hfirst : (linkOf s port).discarding = false) : Completes (.dataFlit port seq ack credits false ops) s fun u =>
      (linkOf u port).recvSeq = (linkOf s port).recvSeq ∧ (linkOf u port).inbox = (linkOf s port).inbox ∧
      (linkOf u port).crcErrors = Nat.min 0xFFFF ((linkOf s port).crcErrors + 1) ∧
      FlitLeaves port s u 2 0 (((linkOf s port).recvSeq + 4095) % 4096) (roomToReturn s port) := by
  have hgo : ¬(!(linkOf s port).up ∨ (linkOf s port).lent = 0) := by simp [hup, hlent.ne']
  obtain ⟨t, hbad, hout, hhold, hlink⟩ := badFlit_first (seq := seq) hfirst
  obtain ⟨hnak, hleaves⟩ := sendNak_after hout hhold hlink rfl
  refine ⟨sendNak t port, (if_neg hgo).trans ((if_pos rfl).trans (congrArg _ hbad)), ?_, ?_, ?_, hleaves⟩
  iterate 3 · rw [hnak]; rfl

/-! ### NAK, idle flits and the other flits of a port (R384 to R389, R398) -/

/-- A port that a NAK has reached. -/
def Link.nacked (ack : Nat) (l : Link) : Link :=
  { l with
    replays := satAdd 0xFFFF l.replays 1, replay := dropAcked ack l.replay
    nakCount := if l.nakAck = ack then l.nakCount + 1 else 1, nakAck := ack }

/-- After a resend the data flits that wait follow; a port without any is as the resend left it. -/
theorem pumpPort_resendAll {t : State} {l : Link} (hlink : linkOf t port = l) :
    (linkOf (pumpPort (resendAll t port) port) port).replays = l.replays ∧
    (l.outq = [] → (linkOf (pumpPort (resendAll t port) port) port).replay = l.replay ∧
      FlitsResent port t (pumpPort (resendAll t port) port) l.replay) := by
  subst hlink
  obtain ⟨f, n, hresent⟩ := linkOf_resendAll t port
  have hall := flitsResent_resendAll t port
  generalize resendAll t port = v at *
  refine ⟨?_, fun hempty => ?_⟩
  · obtain ⟨_, _, _, _, _, hpumped⟩ := sendsOn_sendFlits port (linkOf v port).outq.length v
    rw [pumpPort, hpumped, hresent]
  · rw [pumpPort_of_empty (by rw [hresent]; exact hempty), hresent]
    exact ⟨rfl, hall⟩

theorem completes_nak (hup : (linkOf s port).up = true) : Completes (.nak port ack true) s fun u =>
    (linkOf u port).replays = Nat.min 0xFFFF ((linkOf s port).replays + 1) ∧ ((linkOf s port).outq = [] →
      (linkOf u port).replay = dropAcked ack (linkOf s port).replay ∧
      FlitsResent port s u (dropAcked ack (linkOf s port).replay)) := by
  have hgo : ¬(!portUp s port) = true := by simp [portUp, hup]
  have hlink : linkOf (modLink s port (Link.nacked ack)) port = (linkOf s port).nacked ack := linkOf_modLink
  exact ⟨pumpPort (resendAll (modLink s port (Link.nacked ack)) port) port, if_neg hgo, pumpPort_resendAll hlink⟩

/-- With no data flit waiting and nobody asking for its flit credits, a port's credits come back to it. -/
theorem free_takeAck_of_empty (hout : (linkOf s port).outq = []) (hwait : (destOf s (.flits port)).waiting = []) :
    (destOf (takeAck s port ack credits) (.flits port)).free =
      (destOf s (.flits port)).free + Nat.min (8 * credits) (768 - (destOf s (.flits port)).free) := by
  rw [takeAck_of_empty ack credits hout, giveBack, serveLending_none (by rw [destOf_setDest]; exact hwait), destOf_setDest]
  rfl

theorem completes_idleFlit (hup : (linkOf s port).up = true) : Completes (.idleFlit port ack credits true) s fun u =>
    (linkOf u port).inbox = (linkOf s port).inbox ∧ u.mem = s.mem ∧ ((linkOf s port).outq = [] →
      (linkOf u port).replay = dropAcked ack (linkOf s port).replay ∧ u.out = s.out ∧
      ((destOf s (.flits port)).waiting = [] → (destOf u (.flits port)).free = (destOf s (.flits port)).free +
        Nat.min (8 * credits) (768 - (destOf s (.flits port)).free))) := by
  have hgo : ¬(!portUp s port) = true := by simp [portUp, hup]
  refine ⟨takeAck s port ack credits, (if_neg hgo).trans (if_neg Bool.false_ne_true), ?_, takeAck_mem_hold.1, fun hempty => ?_⟩
  · obtain ⟨_, _, _, _, _, he⟩ := sendsOn_takeAck s port ack credits
    rw [he]
  · obtain ⟨htook, hout⟩ := takeAck_quiet (ack := ack) (credits := credits) hempty
    exact ⟨by rw [htook], hout, free_takeAck_of_empty hempty⟩

theorem exec_badAnswers (hup : (linkOf s port).up = true) :
    exec (.nak port ack false) s = .next s ∧ exec (.idleFlit port ack credits false) s = .next s := by
  have hgo : ¬(!portUp s port) = true := by simp [portUp, hup]
  exact ⟨(if_neg hgo).trans (if_pos rfl), (if_neg hgo).trans (if_pos rfl)⟩

theorem completes_timeFlit (hup : (linkOf s port).up = true) (b : Nat) : Completes (.timeFlit port b true) s fun u =>
    u.clock.announced = some b ∧ { u with clock := s.clock } = s ∧ u.clock.time = s.clock.time := by
  have hgo : ¬(!portUp s port) = true := by simp [portUp, hup]
  exact ⟨_, (if_neg hgo).trans (if_neg Bool.false_ne_true), rfl, rfl, rfl⟩

theorem completes_laneChangeFlit {lane : Nat} (hup : (linkOf s port).up = true) (hspare : (linkOf s port).spareFor = none)
    (hgood : 8 ∉ (linkOf s port).failedLanes) (hlane : lane ∈ (linkOf s port).lanes) :
    Completes (.laneChangeFlit port lane true) s fun u => (linkOf u port).spareFor = some lane ∧
      (linkOf u port).lanes = (linkOf s port).lanes.map (fun n => if n = lane then 8 else n) ∧
      u.out = s.out ++ [.laneChange port lane] := by
  have hgo : ¬(!(linkOf s port).up) = true := by simp [hup]
  have hmove : ¬(!true = true ∨ (!(linkOf s port).spareFree) = true ∨ (!(linkOf s port).lanes.contains lane) = true) := by
    simp [Link.spareFree, hspare, hgood, hlane]
  have hlink : linkOf (modLink s port fun l => l.spare lane) port = (linkOf s port).spare lane := linkOf_modLink
  refine ⟨toSpare s port lane, (if_neg hgo).trans (if_neg hmove), ?_, ?_, rfl⟩
  · exact congrArg Link.spareFor hlink
  · exact congrArg Link.lanes hlink

/-- A port that has trained again. -/
def Link.retrained (l : Link) : Link := { l with retrains := satAdd 0xFFF l.retrains 1, failCount := 0, nakCount := 0 }

theorem exec_linkRetrain (hup : (linkOf s port).up = true) (hfail : 8 ≤ (linkOf s port).failCount ∨ 8 ≤ (linkOf s port).nakCount) :
    ∃ t, exec (.linkRetrain port) s = .next (resendAll t port) ∧ t.out = s.out ∧ linkOf t port = (linkOf s port).retrained := by
  have hgo : ¬(!(linkOf s port).up ∨ (linkOf s port).failCount < 8 ∧ (linkOf s port).nakCount < 8) := by
    simp [hup]; omega
  have hlink : linkOf (modLink s port Link.retrained) port = (linkOf s port).retrained := linkOf_modLink
  exact ⟨{ modLink s port Link.retrained with
    life := { s.life with portRetrains := mmod 0 s.life.portRetrains port (· + 1) } }, if_neg hgo, rfl, hlink⟩

theorem completes_linkRetrain (hup : (linkOf s port).up = true)
    (hfail : 8 ≤ (linkOf s port).failCount ∨ 8 ≤ (linkOf s port).nakCount) : Completes (.linkRetrain port) s fun u =>
      (linkOf u port).retrains = Nat.min 0xFFF ((linkOf s port).retrains + 1) ∧ (linkOf u port).failCount = 0 ∧
      (linkOf u port).nakCount = 0 ∧ (linkOf u port).up = true ∧ FlitsResent port s u (linkOf s port).replay := by
  obtain ⟨t, hexec, hout, hlink⟩ := exec_linkRetrain hup hfail
  obtain ⟨f, n, hresent⟩ := linkOf_resendAll t port
  have hall := flitsResent_resendAll t port
  rw [hlink] at hresent hall
  refine ⟨_, hexec, ?_, ?_, ?_, ?_, ?_⟩
  iterate 3 · rw [hresent]; rfl
  · rw [hresent]; exact hup
  · unfold FlitsResent at hall ⊢
    rwa [hout] at hall

end

end Sys2Proof.Machine

open Sys2Proof Sys2Proof.Machine

/-- Settles O51, by what each flit of a port makes of the port, and of what leaves by it. -/
theorem linkFlits : Obligations.LinkFlits := by
  intro s port
  refine ⟨fun lanes hmay => completes_portBringup hmay, fun d p serial htrain => completes_identityFlit htrain,
    fun seq ack credits ops hup hlent => ⟨completes_dataFlit_inTurn hup hlent, completes_dataFlit_outOfTurn hup hlent,
      completes_dataFlit_bad hup hlent⟩,
    fun ack credits hup => ⟨completes_nak hup, completes_idleFlit hup, exec_badAnswers hup⟩,
    fun b hup => completes_timeFlit hup b, fun lane hup hspare hgood hlane => completes_laneChangeFlit hup hspare hgood hlane,
    completes_linkRetrain⟩

end

section
/-! SUPPORT. Configuration spaces (R401, R405): nothing that a context's items do when they end, and nothing that frees what a function
holds, changes the configuration space of any function at any port. -/

namespace Sys2Proof.Machine

-- One proof at a time: each that waits for another holds a thread, whose stack counts toward the memory limit.
set_option Elab.async false

open Sys2Proof

/-- No configuration space has changed. -/
structure KeepsSpaces (s u : State) : Prop where
  cfgs : u.cfgs = s.cfgs

/-- The proofs speak of fields, and turn to this where the kernel would unfold the states in order to compare their fields. -/
@[simp] theorem keepsSpaces_iff {s u : State} : KeepsSpaces s u ↔ u.cfgs = s.cfgs := ⟨KeepsSpaces.cfgs, KeepsSpaces.mk⟩

section Configuration

variable {s : State} {fn a b n m k c g ctx L : Nat} {bs : List Byte} {o : Origin} {res : Resource}

@[simp] theorem ite_cfgs {p : Prop} [Decidable p] {a b : State} :
    (if p then a else b).cfgs = if p then a.cfgs else b.cfgs := apply_ite State.cfgs p a b

@[simp] theorem foldl_cfgs {α : Type} {f : State → α → State} (h : ∀ s a, KeepsSpaces s (f s a)) (l : List α) :
    (l.foldl f s).cfgs = s.cfgs :=
  foldl_keeps (P := fun u : State => u.cfgs = s.cfgs) (fun _ _ e => (h _ _).cfgs.trans e) l rfl

/-! ### Counts, events and operations to peers -/

@[simp] theorem giveBack_cfgs : (giveBack s res n).cfgs = s.cfgs := ((KeepsPlaces.refl s).giveBack).cfgs
@[simp] theorem returnCredits_cfgs {l : List (Resource × Nat)} : (returnCredits s l).cfgs = s.cfgs :=
  (KeepsPlaces.refl s).returnCredits.cfgs
@[simp] theorem sweepWakes_cfgs : (sweepWakes s).cfgs = s.cfgs := (KeepsPlaces.refl s).sweepWakes.cfgs
@[simp] theorem finishRequest_cfgs {r : Request} : (finishRequest s r).cfgs = s.cfgs := (KeepsPlaces.refl s).finishRequest.cfgs
@[simp] theorem dropOps_cfgs {p : TensorOp → Bool} : (dropOps s p).cfgs = s.cfgs := (KeepsPlaces.refl s).dropOps.cfgs
@[simp] theorem dropTakers_cfgs {p : ThreadId → Bool} : (dropTakers s p).cfgs = s.cfgs := (KeepsPlaces.refl s).dropTakers.cfgs
@[simp] theorem dropQueued_cfgs : (dropQueued s L n ctx).cfgs = s.cfgs := (KeepsPlaces.refl s).dropQueued.cfgs
@[simp] theorem dropTaken_cfgs : (dropTaken s L ctx).cfgs = s.cfgs := (KeepsPlaces.refl s).dropTaken.cfgs
@[simp] theorem dropHeads_cfgs : (dropHeads s L ctx).cfgs = s.cfgs := (KeepsPlaces.refl s).dropHeads.cfgs
@[simp] theorem postEvent_cfgs {f code d w : Nat} : (postEvent s f code ctx d w).cfgs = s.cfgs := (KeepsPlaces.refl s).postEvent.cfgs
@[simp] theorem releaseVersions_cfgs : (releaseVersions s n).cfgs = s.cfgs := (KeepsPlaces.refl s).releaseVersions.cfgs

theorem OnlyReports.cfgs {u : State} (h : OnlyReports s u) : u.cfgs = s.cfgs := by
  obtain ⟨_, _, _, _, _, _, _, _, he⟩ := h.form
  rw [he]

@[simp] theorem promiseMiss_cfgs {p row : Nat} : (promiseMiss s p ctx row).cfgs = s.cfgs := (OnlyReports.refl s).promiseMiss.cfgs
@[simp] theorem windowFault_cfgs : (windowFault s ctx a).cfgs = s.cfgs := (OnlyReports.refl s).windowFault.cfgs
@[simp] theorem peerLossEvent_cfgs : (peerLossEvent s ctx n).cfgs = s.cfgs := (OnlyReports.refl s).peerLossEvent.cfgs
@[simp] theorem poisonedRead_cfgs : (poisonedRead s ctx a n).cfgs = s.cfgs := (OnlyReports.refl s).poisonedRead.cfgs

theorem OnlySends.cfgs {u : State} (h : OnlySends s u) : u.cfgs = s.cfgs := h.keepsPlaces.cfgs

@[simp] theorem askLending_cfgs {led : AdmPoint} : (askLending s led res n).cfgs = s.cfgs := (OnlySends.refl s).askLending.cfgs
@[simp] theorem reserve_cfgs {x : AdmPoint × Resource × Nat} : (reserve s x).cfgs = s.cfgs := (OnlySends.refl s).reserve.cfgs
@[simp] theorem queueOp_cfgs {held : Bool} {p : Nat} {h : OpHeader} : (queueOp held s p h bs).cfgs = s.cfgs :=
  (OnlySends.refl s).queueOp.cfgs
@[simp] theorem sendPieces_cfgs : (sendPieces s fn a bs n).cfgs = s.cfgs := (OnlySends.refl s).sendPieces.cfgs
@[simp] theorem askPeer_cfgs : (askPeer s fn a n).cfgs = s.cfgs := (OnlySends.refl s).askPeer.cfgs
@[simp] theorem peerOp_cfgs {r : Request} : (peerOp s r).cfgs = s.cfgs := (OnlySends.refl s).peerOp.cfgs
@[simp] theorem sendUnitOp_cfgs {p : Nat} {h : OpHeader} : (sendUnitOp s p h bs).cfgs = s.cfgs := queueOp_cfgs

@[simp] theorem countAccess_cfgs {own : Nat} {c : Option Nat} : (countAccess s own c a n).cfgs = s.cfgs := by
  obtain ⟨_, he⟩ := (OnlyActivity.refl s).countAccess (own := own) (c := c) (a := a) (n := n)
  rw [he]

/-! ### Writes and moves of bytes -/

@[simp] theorem quotaEvent_cfgs {t : State} : (quotaEvent s t n).cfgs = t.cfgs := by simp [quotaEvent]
@[simp] theorem floorEvent_cfgs {t : State} : (floorEvent s t n m).cfgs = t.cfgs := by simp [floorEvent, deviceEvent]

@[simp] theorem updatePage_cfgs : (updatePage s n).cfgs = s.cfgs := by
  unfold updatePage
  split <;> simp

@[simp] theorem markWritten_cfgs : (markWritten s a n).cfgs = s.cfgs := rfl
@[simp] theorem hostRequest_cfgs {w : Bool} : (hostRequest s fn w a n).cfgs = s.cfgs := rfl

@[simp] theorem coreWrite_cfgs : (coreWrite s fn a bs).cfgs = s.cfgs := by simp [coreWrite]
@[simp] theorem devWrite_cfgs : (devWrite s fn a bs).cfgs = s.cfgs := by simp [devWrite]
@[simp] theorem poisonOut_cfgs : (poisonOut s a n).cfgs = s.cfgs := by simp [poisonOut]
@[simp] theorem hostMove_cfgs : (hostMove s fn a b n).cfgs = s.cfgs := by simp [hostMove]
@[simp] theorem devMove_cfgs : (devMove s fn a b n).cfgs = s.cfgs := by simp [devMove]

theorem winReadMark_cfgs {i : Option Nat} : (winReadMark s ctx i a n).cfgs = s.cfgs := by
  unfold winReadMark
  split
  · dsimp only
    split <;> simp
  · simp

@[simp] theorem winWrite_cfgs {i : Option Nat} : (winWrite s ctx i a bs).cfgs = s.cfgs := by
  unfold winWrite
  split <;> simp

@[simp] theorem underWindows_cfgs {ws : Map Nat DWord} {f : State → State} (h : ∀ s, KeepsSpaces s (f s)) :
    (underWindows s ctx ws f).cfgs = s.cfgs := (h _).cfgs

@[simp] theorem devAtomic_cfgs : (devAtomic s fn a n m k).2.cfgs = s.cfgs := by
  unfold devAtomic
  dsimp only
  split
  · rfl
  · split <;> simp

@[simp] theorem undefinedStore_cfgs {x : Nat × Byte} : (undefinedStore ctx s x).cfgs = s.cfgs := by
  unfold undefinedStore
  split <;> simp

@[simp] theorem undefinedEffect_cfgs : (undefinedEffect s ctx).cfgs = s.cfgs := by simp [undefinedEffect, beginBreak]

/-! ### Stores, loads and reports of a unit -/

@[simp] theorem closeJob_cfgs : (closeJob s o).cfgs = s.cfgs := by
  unfold closeJob
  split
  case h_2 => split <;> simp
  all_goals simp

@[simp] theorem judgeJob_cfgs {j : Option JobPromise} : (judgeJob s ctx j).cfgs = s.cfgs := by
  unfold judgeJob
  split
  · dsimp only
    split <;> simp
  · rfl

@[simp] theorem addRequest_cfgs {r : Request} : (addRequest s r).cfgs = s.cfgs := rfl
@[simp] theorem countRequest_cfgs {r : Request} : (countRequest s r).cfgs = s.cfgs := countAccess_cfgs

@[simp] theorem remotePiece_cfgs {pl : List Byte} {p : Option Nat} {cr : List (Resource × Nat)} :
    (remotePiece s ctx o a bs pl p cr).cfgs = s.cfgs := by
  unfold remotePiece
  dsimp only
  split <;> simp

@[simp] theorem remoteStore_cfgs : ∀ {s : State} {a : Nat} {bs : List Byte}, (remoteStore s ctx o a bs n).cfgs = s.cfgs := by
  induction n with
  | zero => exact rfl
  | succ n ih => simp [remoteStore, ih]

@[simp] theorem unitStore_cfgs : (unitStore s ctx o a bs).cfgs = s.cfgs := by simp [unitStore]

@[simp] theorem unitWrite_cfgs : (unitWrite s ctx o a bs).cfgs = s.cfgs := by
  unfold unitWrite
  split <;> simp

@[simp] theorem unitReads_cfgs {l : List (Nat × Nat)} : (unitReads s ctx o l).cfgs = s.cfgs := by
  refine foldl_cfgs (fun s x => ⟨?_⟩) l
  rw [winReadMark_cfgs]
  split <;> simp

@[simp] theorem writeChunks_cfgs : ∀ {s : State} {a : Nat} {bs : List Byte}, (writeChunks s ctx o a n bs).cfgs = s.cfgs := by
  induction n with
  | zero => exact rfl
  | succ n ih => simp [writeChunks, ih]

@[simp] theorem writeOut_cfgs : (writeOut s ctx o a bs).cfgs = s.cfgs := writeChunks_cfgs

@[simp] theorem unitToken_cfgs {w : DWord} {d : Option Nat} {j : Option JobPromise} : (unitToken s ctx o w d j).cfgs = s.cfgs := by
  simp [unitToken]

@[simp] theorem unitSignal_cfgs {l : List Nat} {j : Option JobPromise} : (unitSignal s ctx o a n l j).cfgs = s.cfgs := by
  unfold unitSignal
  split
  · rfl
  · split <;> simp

@[simp] theorem unitEnd_cfgs {j : Option JobPromise} : (unitEnd s ctx o j).cfgs = s.cfgs := by
  unfold unitEnd
  split <;> simp

@[simp] theorem unitReport_cfgs {w : DWord} {d : Option Nat} {j : Option JobPromise} :
    (unitReport s ctx o w n d j).cfgs = s.cfgs := by simp [unitReport]

/-! ### Reductions -/

section Reductions

variable {j : ReduceJob} {p : Packet}

@[simp] theorem setReduce_cfgs : (setReduce s L j).cfgs = s.cfgs := rfl
@[simp] theorem contributed_cfgs : (contributed s L ctx).cfgs = s.cfgs := rfl
@[simp] theorem modCtxRegion_cfgs {f : CtxRegion → CtxRegion} : (modCtxRegion s ctx L f).cfgs = s.cfgs := rfl
@[simp] theorem queuePacket_cfgs : (queuePacket s L n m p).cfgs = s.cfgs := (rfl)
@[simp] theorem removeReduce_cfgs : (removeReduce s L j).cfgs = s.cfgs := rfl
@[simp] theorem freshNat_cfgs : (freshNat s).2.cfgs = s.cfgs := rfl

@[simp] theorem jobPass_cfgs {f : State → State} (h : ∀ s, KeepsSpaces s (f s)) : (jobPass s j f).cfgs = s.cfgs :=
  underWindows_cfgs h

@[simp] theorem askPacket_cfgs : (askPacket s L n).cfgs = s.cfgs := by simp [askPacket]
@[simp] theorem deliverPacket_cfgs : (deliverPacket s L ctx n p).cfgs = s.cfgs := by simp [deliverPacket]
@[simp] theorem sendPacket_cfgs {x : Nat × Nat × Packet} : (sendPacket s L x).cfgs = s.cfgs := by simp [sendPacket]

@[simp] theorem sendPass_cfgs {l : List (Nat × Nat × Packet)} : ∀ {kept : List (Nat × Nat × Packet)} {s : State},
    (sendPass L l kept s).2.cfgs = s.cfgs := by
  induction l with
  | nil => exact rfl
  | cons x r ih =>
    intro kept s
    unfold sendPass
    split
    · exact ih
    · dsimp only
      split <;> simp [ih]

@[simp] theorem sendAll_cfgs : ∀ {s : State}, (sendAll L n s).cfgs = s.cfgs := by
  induction n with
  | zero => exact rfl
  | succ n ih => simp [sendAll, ih]

@[simp] theorem queueBlocks_cfgs {lo hi k d : Nat} {f : Nat → Nat → List Byte} : (queueBlocks s L j k d lo hi f).cfgs = s.cfgs := by
  simp [queueBlocks]

@[simp] theorem reportReduce_cfgs : (reportReduce s L j).cfgs = s.cfgs := unitReport_cfgs
@[simp] theorem dropTail_cfgs : (dropTail s L j).cfgs = s.cfgs := keepsSpaces_iff.mp (by simp [dropTail])

@[simp] theorem abortReduce_cfgs {x y z : Bool} : (abortReduce s L j x y z).cfgs = s.cfgs := by simp [abortReduce]

@[simp] theorem orWord_cfgs : (orWord s ctx o a n).cfgs = s.cfgs := by
  unfold orWord
  split <;> simp

@[simp] theorem atomicOr_cfgs : (atomicOr s ctx o a n).cfgs = s.cfgs := orWord_cfgs

@[simp] theorem writeStat_cfgs {k : Nat} {w : Word} {i : Option Nat} : (writeStat s o j n m w k i).cfgs = s.cfgs := by
  rw [← keepsSpaces_iff]
  unfold writeStat
  split
  · simp
  · dsimp only
    split <;> simp

@[simp] theorem sendMax_cfgs : (sendMax s L j n).cfgs = s.cfgs := by simp [sendMax]
@[simp] theorem convertPass_cfgs : (convertPass s L j).cfgs = s.cfgs := keepsSpaces_iff.mp (by simp [convertPass])

@[simp] theorem learnExps_cfgs {es : List (Nat × BitVec 8)} : (learnExps s L j es).2.cfgs = s.cfgs := by
  unfold learnExps
  dsimp only
  split <;> simp

@[simp] theorem agreePass_cfgs : (agreePass s L j).cfgs = s.cfgs := by simp [agreePass]
@[simp] theorem addBlock_cfgs : (addBlock s o j n bs).cfgs = s.cfgs := by simp [addBlock]
@[simp] theorem writeResult_cfgs {l : List (BitVec 8 × List Word)} : (writeResult s o j l).cfgs = s.cfgs :=
  keepsSpaces_iff.mp (by simp [writeResult])
@[simp] theorem resultPass_cfgs : (resultPass s L j).cfgs = s.cfgs := by simp [resultPass]
@[simp] theorem performGrant_cfgs : (performGrant s L j p).cfgs = s.cfgs := by simp [performGrant]
@[simp] theorem performMax_cfgs : (performMax s L j p).cfgs = s.cfgs := by simp [performMax]
@[simp] theorem performExp_cfgs : (performExp s L j p).cfgs = s.cfgs := by simp [performExp]
@[simp] theorem performData_cfgs : (performData s L j p).cfgs = s.cfgs := by simp [performData]
@[simp] theorem performOutcome_cfgs : (performOutcome s L j p).cfgs = s.cfgs := rfl

@[simp] theorem performPacket_cfgs : (performPacket s L j p).cfgs = s.cfgs := by
  unfold performPacket
  split
  · simp
  · split
    · simp
    · split <;> simp

@[simp] theorem drainInbox_cfgs : ∀ {s : State}, (drainInbox L n s).cfgs = s.cfgs := by
  induction n with
  | zero => exact rfl
  | succ n ih =>
    intro s
    unfold drainInbox
    split
    · rfl
    · dsimp only
      rw [ih]
      split <;> simp

@[simp] theorem applyLoss_cfgs {x : Bool} : (applyLoss s ctx o n x).cfgs = s.cfgs := by simp [applyLoss]

@[simp] theorem sendLift_cfgs : (sendLift s ctx n).cfgs = s.cfgs := by
  unfold sendLift
  split
  · rfl
  · refine foldl_cfgs (fun s d => ⟨?_⟩) _
    split <;> simp

@[simp] theorem stepOutcome_cfgs : (stepOutcome s o j).cfgs = s.cfgs :=
  sendLift_cfgs.trans (modCtx_cfgs.trans applyLoss_cfgs)
@[simp] theorem settleTail_cfgs {x : Bool} {t : PendingTail} : (settleTail s o x t).cfgs = s.cfgs := by simp [settleTail]
@[simp] theorem outcomeEffect_cfgs : (outcomeEffect s L j).cfgs = s.cfgs := keepsSpaces_iff.mp (by simp [outcomeEffect])

@[simp] theorem endInterval_cfgs : (endInterval s L j).cfgs = s.cfgs := by
  unfold endInterval
  split <;> simp

@[simp] theorem completeReduce_cfgs : (completeReduce s L j).cfgs = s.cfgs := by simp [completeReduce]

@[simp] theorem finishReduce_cfgs : (finishReduce s L j).cfgs = s.cfgs := by
  unfold finishReduce
  dsimp only
  split <;> simp

@[simp] theorem settleSeq_cfgs : (settleSeq s L).cfgs = s.cfgs := by
  refine (foldl_cfgs (fun s t => ⟨?_⟩) _).trans sendAll_cfgs
  split
  · dsimp only
    split <;> simp
  · rfl

@[simp] theorem runSequencers_cfgs : (runSequencers s L).cfgs = s.cfgs := by simp [runSequencers]
@[simp] theorem abortAndRun_cfgs {x y z : Bool} : (abortAndRun s L j x y z).cfgs = s.cfgs := by simp [abortAndRun]

end Reductions

/-! ### Moves of the Winches and rows of the tensor units -/

@[simp] theorem freshBytes_cfgs : (freshBytes s n).2.cfgs = s.cfgs := rfl

@[simp] theorem sendMove_cfgs : (sendMove s fn a b n).cfgs = s.cfgs := by
  unfold sendMove
  split
  · rfl
  · refine (foldl_cfgs (fun t x => ⟨?_⟩) _).trans (by simp)
    split <;> simp

@[simp] theorem takeLines_cfgs : (takeLines s fn a b n).cfgs = s.cfgs := by simp [takeLines]
@[simp] theorem crossMove_cfgs : (crossMove s fn a b n).cfgs = s.cfgs := by simp [crossMove]

@[simp] theorem winchBytesMove_cfgs : (winchBytesMove s o ctx a b n).cfgs = s.cfgs := by
  unfold winchBytesMove
  dsimp only
  split
  · split <;> split <;> simp
  · split <;> split <;> simp

@[simp] theorem copyChunk_cfgs : (copyChunk s o ctx a b n).cfgs = s.cfgs := by
  unfold copyChunk
  split <;> simp

@[simp] theorem packWrite_cfgs {x : Bool} : (packWrite s ctx o a bs x).cfgs = s.cfgs := by
  unfold packWrite
  split <;> simp

@[simp] theorem packPages_cfgs : ∀ {a b : Nat} {s : State}, (packPages o ctx n a b s).cfgs = s.cfgs := by
  induction n with
  | zero => exact rfl
  | succ n ih => simp [packPages, ih]

@[simp] theorem unpackPages_cfgs : ∀ {a b : Nat} {s : State}, (unpackPages o ctx n a b s).cfgs = s.cfgs := by
  induction n with
  | zero => exact rfl
  | succ n ih =>
    intro a b s
    rw [← keepsSpaces_iff, unpackPages]
    exact ⟨ih.trans (ite_cfgs.trans (by rw [writeOut_cfgs, writeOut_cfgs, freshBytes_cfgs, ite_self, unitReads_cfgs]))⟩

@[simp] theorem stageBytes_cfgs : (stageBytes s o ctx k a b n).cfgs = s.cfgs := by simp [stageBytes]
@[simp] theorem addFlags_cfgs : (addFlags s ctx n).cfgs = s.cfgs := (rfl)
@[simp] theorem addIndexFaults_cfgs : (addIndexFaults s ctx n).cfgs = s.cfgs := (rfl)
@[simp] theorem markSpans_cfgs {l : List (Nat × Nat)} : (markSpans s ctx g l).cfgs = s.cfgs :=
  foldl_cfgs (fun _ _ => ⟨winReadMark_cfgs⟩) _

@[simp] theorem writeRanges_cfgs {l : List (Nat × Nat)} : ∀ {s : State} {bs : List Byte},
    (writeRanges s ctx g l bs).cfgs = s.cfgs := by
  induction l with
  | nil => exact rfl
  | cons x r ih => simp [writeRanges, ih]

@[simp] theorem writeSpans_cfgs {l : List (Nat × Nat)} : (writeSpans s ctx g l bs).cfgs = s.cfgs := writeRanges_cfgs
@[simp] theorem markRows_cfgs {x : Operand} : (markRows s ctx g x n).cfgs = s.cfgs := by simp [markRows]
@[simp] theorem markOperand_cfgs {x : Operand} : (markOperand s ctx g x n).cfgs = s.cfgs := by simp [markOperand]

@[simp] theorem putRow_cfgs {t : Tensor} {es : List Nat} {x : Option (List Byte)} :
    (putRow s ctx g t a n m es x).cfgs = s.cfgs := by
  unfold putRow
  dsimp only
  split <;> simp

section Rows

variable {q : TensorOp} {x : TArgs} {u v : Operand} {i j : Option Nat} {p : Nat × Nat × Nat}
  {f : Option Nat → Option Nat → Nat × Nat × Nat → State → State}

@[simp] theorem copyRow_cfgs : (copyRow q x u v n m i j p s).cfgs = s.cfgs := by
  unfold copyRow
  split <;> simp

@[simp] theorem scaddRow_cfgs : (scaddRow q x u v n m i j p s).cfgs = s.cfgs := by
  unfold scaddRow
  split <;> simp

@[simp] theorem eachRow_cfgs (h : ∀ i j p s, KeepsSpaces s (f i j p s)) : (eachRow q u v n f s).cfgs = s.cfgs :=
  foldl_cfgs (fun _ _ => h _ _ _ _) _

@[simp] theorem copyEffect_cfgs {f : Nat → Nat → Option Nat → Option Nat → Nat × Nat × Nat → State → State}
    (h : ∀ n m i j p s, KeepsSpaces s (f n m i j p s)) : (copyEffect q u v f s).cfgs = s.cfgs := by
  simp [copyEffect, eachRow_cfgs (h _ _)]

@[simp] theorem stopCopy_cfgs {y z : Bool} {f : Nat → Nat → Option Nat → Option Nat → Nat × Nat × Nat → State → State}
    (h : ∀ n m i j p s, (f n m i j p s).cfgs = s.cfgs) : (stopCopy s q y z u v f).cfgs = s.cfgs := by
  simp [stopCopy, h]

@[simp] theorem stopMma_cfgs {x : MArgs} : (stopMma s q x).cfgs = s.cfgs := by
  unfold stopMma
  split <;> simp

@[simp] theorem stopOp_cfgs : (stopOp s q).cfgs = s.cfgs := by
  refine underWindows_cfgs fun s => ⟨?_⟩
  split
  · simp
  · split <;> simp
  · split <;> simp
  · rfl

end Rows

/-! ### Items that end with their context -/

@[simp] theorem dropGather_cfgs : (dropGather s L n).cfgs = s.cfgs := rfl
@[simp] theorem dropWinch_cfgs {e : WinchEntry} : (dropWinch s L e).cfgs = s.cfgs := rfl
@[simp] theorem itemRecord_cfgs {f q i t : Nat} : (itemRecord s f q k i t).cfgs = s.cfgs := rfl

@[simp] theorem abortRequests_cfgs {f q : Nat} : (abortRequests s ctx f q).cfgs = s.cfgs := by
  refine foldl_cfgs (fun s r => ⟨?_⟩) _
  rw [finishRequest_cfgs]
  split <;> simp

@[simp] theorem abortOps_cfgs : (abortOps s ctx).cfgs = s.cfgs := by simp [abortOps]

@[simp] theorem abortReel_cfgs {r f q : Nat} : (abortReel s L r ctx f q).cfgs = s.cfgs := by
  unfold abortReel
  split <;> simp

@[simp] theorem abortGathers_cfgs {f q : Nat} : (abortGathers s L ctx f q).cfgs = s.cfgs := by simp [abortGathers]

@[simp] theorem abortReduces_cfgs {f q : Nat} : (abortReduces s L ctx f q).cfgs = s.cfgs := by
  refine foldl_cfgs (fun s r => ⟨?_⟩) _
  split <;> simp

@[simp] theorem stopChunks_cfgs : (stopChunks o ctx a b n s).cfgs = s.cfgs := by simp [stopChunks]

@[simp] theorem stopWinch_cfgs {e : WinchEntry} : (stopWinch s L e).cfgs = s.cfgs := by
  unfold stopWinch
  dsimp only
  split
  · rfl
  · refine underWindows_cfgs fun s => ⟨?_⟩
    split
    · split <;> simp
    · simp

@[simp] theorem giveRunBack_cfgs {e : WinchEntry} : (giveRunBack s e).cfgs = s.cfgs := by
  unfold giveRunBack
  split <;> simp

@[simp] theorem abortWinches_cfgs {f q : Nat} : (abortWinches s L ctx f q).cfgs = s.cfgs := by simp [abortWinches]
@[simp] theorem dropTasks_cfgs : (dropTasks s L ctx).cfgs = s.cfgs := rfl
@[simp] theorem abortRegion_cfgs {f q : Nat} : (abortRegion ctx f q s L).cfgs = s.cfgs := by simp [abortRegion]
@[simp] theorem dropPins_cfgs : (dropPins s ctx).cfgs = s.cfgs := by simp [dropPins]
@[simp] theorem dropHolds_cfgs {x : Bool} : (dropHolds s ctx x).cfgs = s.cfgs := rfl
@[simp] theorem endThreads_cfgs : (endThreads s ctx).cfgs = s.cfgs := rfl
@[simp] theorem abortItems_cfgs {f q : Nat} : (abortItems s ctx f q).cfgs = s.cfgs := by simp [abortItems]
@[simp] theorem dropStaged_cfgs : (dropStaged s ctx).cfgs = s.cfgs := rfl
@[simp] theorem leaveRegion_cfgs : (leaveRegion ctx s L).cfgs = s.cfgs := (rfl)

@[simp] theorem destroyCtx_cfgs {f q : Nat} : (destroyCtx s ctx f q).cfgs = s.cfgs := by
  simp [destroyCtx, clearBlock, disownActivity]

/-! ### What a function holds (R405) -/

@[simp] theorem freeUnits_cfgs {p : UnitUse → Bool} : (freeUnits s L p).cfgs = s.cfgs := (rfl)
@[simp] theorem dropAreas_cfgs : (dropAreas s a n).cfgs = s.cfgs := by simp [dropAreas]

@[simp] theorem dropAlloc_cfgs : (dropAlloc s n).cfgs = s.cfgs := by
  unfold dropAlloc
  split <;> simp

@[simp] theorem dropCommands_cfgs : (dropCommands s fn).cfgs = s.cfgs := by simp [dropCommands]
@[simp] theorem dropHoldings_cfgs : (dropHoldings s fn).cfgs = s.cfgs := by simp [dropHoldings]

end Configuration
end Sys2Proof.Machine
end

section
/-! SUPPORT. Host ports, resets, configuration requests and test access (R402 to R407, R493). -/

namespace Sys2Proof.Machine

open Sys2Proof

/-! ### Configuration spaces that are reset (R404, R405) -/

/-- Data kept by key from which the keys that satisfy a test are dropped. -/
theorem mget?_filter {α β : Type} [DecidableEq α] (p : α → Bool) (m : Map α β) (k : α) :
    mget? (m.filter fun e => p e.1) k = if p k then mget? m k else none := by
  induction m with
  | nil => simp [mget?]
  | cons e r ih =>
    obtain ⟨a, b⟩ := e
    rw [List.filter_cons]
    by_cases hk : a = k
    · subst hk
      by_cases hp : p a = true <;> simp [mget?, hp, ih]
    · by_cases hp : p a = true <;> simp [mget?, hp, hk, ih]

section

variable {s : State} {p : Nat × Nat → Bool} {q f : Nat}

theorem cfgAt_resetConfig (h : p (q, f) = true) : cfgAt (resetConfig s p) q f = FnConfig.zero := by
  simp [cfgAt, resetConfig, mget, mget?_filter (fun k => !p k), h]

theorem cfgAt_resetConfig_other (h : p (q, f) = false) : cfgAt (resetConfig s p) q f = cfgAt s q f := by
  simp [cfgAt, resetConfig, mget, mget?_filter (fun k => !p k), h]

theorem cfgAt_congr {u : State} (h : u.cfgs = s.cfgs) : cfgAt u q f = cfgAt s q f := by
  unfold cfgAt
  rw [h]

end

/-! ### The link of a host port and PERST# (R402 to R404, R488) -/

section

variable {s : State} {port : Nat}

/-- A word of 64 bits in which bit 62 is replaced. -/
theorem bitOf_replace {v b : Nat} (hb : b < 2) :
    b2n (bitOf (BitVec.ofNat 64 (v - b2n (bitOf v 62) * 2 ^ 62 + b * 2 ^ 62)).toNat 62) = b := by
  rw [BitVec.toNat_ofNat]
  unfold b2n bitOf
  rcases Nat.mod_two_eq_zero_or_one (v / 2 ^ 62) with h | h
  · simp only [h]
    interval_cases b <;> simp <;> omega
  · simp only [h]
    interval_cases b <;> simp <;> omega

theorem lt_boundaryAfter (t : Nat) : t < boundaryAfter t := by
  unfold boundaryAfter
  omega

/-- The word of the PCIe register with the serving port `port` (R402). -/
def servedBy (s : State) (port : Nat) : DWord :=
  BitVec.ofNat 64 ((rawReg s offPcie).toNat - b2n (bitOf (rawReg s offPcie).toNat 62) * 2 ^ 62 + port * 2 ^ 62)

/-- The switch away from the serving port: the register names the port that is gone, until the next boundary. -/
theorem switchServing_eq (h : servingPort s = port) : ∃ v, switchServing s port =
    { setRaw s offPcie (servedBy s port) with
      freeCounter := s.freeCounter + 1
      board := { s.board with serveSwitch := some (boundaryAfter (now s)), serveVector := some v } } :=
  ⟨_, if_neg (not_not.mpr h)⟩

/-- From the boundary that follows on, and not before, the other port serves (R403). -/
theorem servingPort_switchServing (hport : port < 2) (h : servingPort s = port) :
    servingPort (switchServing s port) = port ∧
    servingPort { switchServing s port with clock := { (switchServing s port).clock with time := boundaryAfter (now s) } } =
      1 - port := by
  obtain ⟨v, he⟩ := switchServing_eq h
  have hbit : b2n (bitOf (servedBy s port).toNat 62) = port := bitOf_replace hport
  have hnow : ¬boundaryAfter (now s) ≤ s.clock.time := (lt_boundaryAfter _).not_ge
  rw [he]
  constructor
  · show (if boundaryAfter (now s) ≤ s.clock.time then 1 - b2n (bitOf (rawReg (setRaw s offPcie (servedBy s port)) offPcie).toNat 62)
      else b2n (bitOf (rawReg (setRaw s offPcie (servedBy s port)) offPcie).toNat 62)) = port
    rw [if_neg hnow, rawReg_setRaw, hbit]
  · show (if boundaryAfter (now s) ≤ boundaryAfter (now s) then
        1 - b2n (bitOf (rawReg (setRaw s offPcie (servedBy s port)) offPcie).toNat 62)
      else b2n (bitOf (rawReg (setRaw s offPcie (servedBy s port)) offPcie).toNat 62)) = 1 - port
    rw [if_pos le_rfl, rawReg_setRaw, hbit]

@[simp] theorem portOf_switchServing {q : Nat} : portOf (switchServing s port) q = portOf s q := by
  unfold switchServing
  split <;> rfl

theorem switchServing_frame : (switchServing s port).mem = s.mem ∧ (switchServing s port).contexts = s.contexts := by
  unfold switchServing
  split <;> exact ⟨rfl, rfl⟩

/-- A host port without link. -/
def PciePort.dark (x : PciePort) : PciePort := { x with linkUp := false, speed := 0, width := 0 }

theorem portLost_oneHost (h : twoHosts s = false) : portLost s port = switchServing (modPort s port PciePort.dark) port :=
  if_neg (by rw [show twoHosts (modPort s port _) = false from h]; exact Bool.false_ne_true)

theorem completes_pcieLinkDown (hup : (portOf s port).linkUp = true) (hone : twoHosts s = false) :
    Completes (.pcieLinkDown port) s fun u => (portOf u port).linkUp = false ∧ u.mem = s.mem ∧ u.contexts = s.contexts ∧
      (servingPort s = port → port < 2 → servingPort u = port ∧
        servingPort { u with clock := { u.clock with time := boundaryAfter (now s) } } = 1 - port) := by
  refine ⟨portLost s port, if_pos hup, ?_⟩
  rw [portLost_oneHost hone]
  obtain ⟨hmem, hcontexts⟩ := switchServing_frame (s := modPort s port PciePort.dark) (port := port)
  exact ⟨by rw [portOf_switchServing, portOf_modPort]; rfl, hmem, hcontexts,
    fun hserves hport => servingPort_switchServing (s := modPort s port PciePort.dark) hport hserves⟩

/-- A host port that has trained, to what the free value `v` says, and becomes ready at `n`. -/
def PciePort.trained (v n : Nat) (x : PciePort) : PciePort :=
  { x with linkUp := true, speed := v % 6 + 1, width := 2 ^ (v / 6 % 5), readyAt := some n }

/-- A port that trains becomes ready within 100 ms of the later of the deassertion and the power-on delay (R404). -/
theorem trainPort_eq {t : Nat} (hperst : (portOf s port).perst = false) (hclk : (portOf s port).refclk = true)
    (hpower : s.board.poweredAt = some t) : ∃ v n, trainPort s port =
      modPort (freshNat s).2 port (PciePort.trained v (Nat.max s.clock.bootCount (t + 60000000) + n)) ∧ n ≤ 100000000 := by
  refine ⟨(freshNat s).1, (freshNat s).1 % 100000001, ?_, by omega⟩
  unfold trainPort
  simp only [hpower, hperst, hclk, Bool.not_true, Bool.false_eq_true, or_self, if_false]
  rfl

/-- PERST# released at a port. -/
def PciePort.released (x : PciePort) : PciePort := { x with perst := false }

theorem completes_perstDeassert {t : Nat} (hport : port < 2) (hperst : (portOf s port).perst = true)
    (hclk : (portOf s port).refclk = true) (hpower : s.board.poweredAt = some t) :
    Completes (.perstDeassert port) s fun u => (portOf u port).perst = false ∧ (portOf u port).linkUp = true ∧
      ∃ n, (portOf u port).readyAt = some n ∧ Nat.max s.clock.bootCount (t + 60000000) ≤ n ∧
        n ≤ Nat.max s.clock.bootCount (t + 60000000) + 100000000 := by
  have hgo : ¬(2 ≤ port ∨ (!(portOf s port).perst) = true) := by simp [hport, hperst]
  have hreleased : portOf (modPort s port PciePort.released) port = (portOf s port).released := portOf_modPort
  obtain ⟨v, n, htrains, hn⟩ := trainPort_eq (s := modPort s port PciePort.released) (port := port) (t := t)
    (by rw [hreleased]; rfl) (by rw [hreleased]; exact hclk) hpower
  refine ⟨_, (if_neg hgo).trans (congrArg _ htrains), ?_⟩
  beta_reduce
  rw [portOf_modPort]
  exact ⟨congrArg PciePort.perst hreleased, rfl, _, rfl, Nat.le_add_right _ _, Nat.add_le_add_left hn _⟩

/-- PERST# asserted at a port. -/
def PciePort.held (x : PciePort) : PciePort := { x with perst := true, readyAt := none }

theorem completes_perstAssert (hport : port < 2) (hperst : (portOf s port).perst = false) :
    Completes (.perstAssert port) s fun u => (portOf u port).perst = true ∧ (portOf u port).readyAt = none := by
  have hgo : ¬(2 ≤ port ∨ (portOf s port).perst = true) := by simp [hport, hperst]
  refine ⟨_, if_neg hgo, ?_⟩
  beta_reduce
  rw [portOf_modPort]
  exact ⟨rfl, rfl⟩

/-- At a port without link PERST# resets the configuration spaces of that port, and nothing else of the device. -/
theorem completes_perstAssert_noLink (hport : port < 2) (hperst : (portOf s port).perst = false)
    (hdown : (portOf s port).linkUp = false) : Completes (.perstAssert port) s fun u =>
      u.mem = s.mem ∧ u.contexts = s.contexts ∧ u.regs = s.regs ∧ u.fns = s.fns ∧
      (∀ f, (cfgAt u port f).busMaster = false ∧ (cfgAt u port f).msix = [] ∧ (cfgAt u port f).timeoutNs = 50000000) ∧
      ∀ q f, q ≠ port → cfgAt u q f = cfgAt s q f := by
  have hgo : ¬(2 ≤ port ∨ (portOf s port).perst = true) := by simp [hport, hperst]
  refine ⟨modPort (resetConfig s fun e => e.1 == port) port PciePort.held, (if_neg hgo).trans ?_, rfl, rfl, rfl, rfl,
    fun f => ?_, fun q f hq => ?_⟩
  · have hlink : ¬(portOf (resetConfig s fun e => e.1 == port) port).linkUp = true := ne_true_of_eq_false hdown
    exact congrArg (fun t => Host.Outcome.next (modPort t port PciePort.held)) (if_neg hlink)
  · have hzero : cfgAt (resetConfig s fun e => e.1 == port) port f = FnConfig.zero := cfgAt_resetConfig (beq_self_eq_true port)
    exact ⟨congrArg FnConfig.busMaster hzero, congrArg FnConfig.msix hzero, congrArg FnConfig.timeoutNs hzero⟩
  · exact cfgAt_resetConfig_other (p := fun e => e.1 == port) (beq_false_of_ne hq)

end

/-! ### Function level reset (R405) -/

section

variable {s : State} {fn : Nat}

/-- No command has changed, and no kept pin is new. -/
structure FreesHoldings (s u : State) : Prop where
  cmds : u.cmds = s.cmds
  pins : u.keptPins ⊆ s.keptPins

theorem FreesHoldings.refl (s : State) : FreesHoldings s s := ⟨rfl, List.Subset.refl _⟩

theorem FreesHoldings.trans {u v : State} (a : FreesHoldings s u) (b : FreesHoldings u v) : FreesHoldings s v :=
  ⟨b.cmds.trans a.cmds, fun _ h => a.pins (b.pins h)⟩

theorem FreesHoldings.foldl {α : Type} {f : State → α → State} {z : State} (hf : ∀ s a, FreesHoldings s (f s a)) (l : List α)
    (h : FreesHoldings s z) : FreesHoldings s (l.foldl f z) :=
  foldl_keeps (P := FreesHoldings s) (fun _ _ h => h.trans (hf _ _)) l h

theorem freesHoldings_postEvent (s : State) (f code ctx detail word : Nat) : FreesHoldings s (postEvent s f code ctx detail word) := by
  obtain ⟨r, n, he⟩ := postEvent_eq s f code ctx detail word
  rw [he]
  exact ⟨rfl, List.Subset.refl _⟩

theorem freesHoldings_releaseVersions (s : State) (t : Nat) : FreesHoldings s (releaseVersions s t) :=
  FreesHoldings.foldl (fun _ _ => freesHoldings_postEvent _ _ _ _ _ _) _ ⟨rfl, List.Subset.refl _⟩

theorem freesHoldings_freeUnits (s : State) (L : Nat) (p : UnitUse → Bool) : FreesHoldings s (freeUnits s L p) :=
  ⟨rfl, List.Subset.refl _⟩

theorem freesHoldings_dropAreas (s : State) (base n : Nat) : FreesHoldings s (dropAreas s base n) :=
  FreesHoldings.foldl freesHoldings_releaseVersions _ ⟨rfl, List.filter_subset_self _⟩

theorem freesHoldings_dropAlloc (s : State) (h : Nat) : FreesHoldings s (dropAlloc s h) := by
  unfold dropAlloc
  split
  · exact .refl s
  · next x _ =>
    have hunits : FreesHoldings s ((s.logs.map (·.1)).foldl (fun s L => freeUnits s L fun u => u == .pinned h || u == .home h)
        { s with allocs := s.allocs.filter fun y => y.handle != h, objects := s.objects.filter fun o => o.handle != h }) :=
      FreesHoldings.foldl (fun _ _ => freesHoldings_freeUnits _ _ _) _ ⟨rfl, List.Subset.refl _⟩
    dsimp only
    split
    · exact hunits.trans (freesHoldings_dropAreas _ _ _)
    · exact hunits

theorem dropHoldings_frees (s : State) (fn : Nat) : (dropHoldings s fn).cmds = s.cmds ∧
    ∀ k ∈ (dropHoldings s fn).keptPins, k.fn ≠ fn := by
  have hfrees := FreesHoldings.foldl (s := { s with
    keptPins := s.keptPins.filter fun k => k.fn != fn
    tables := s.tables.filter fun e => e.2.fn != fn
    loans := s.loans.filter fun l => l.lender != fn }) freesHoldings_dropAlloc
    ((s.allocs.filter fun a => a.fn == fn).map (·.handle)) (.refl _)
  refine ⟨hfrees.cmds, fun k hk => ?_⟩
  obtain ⟨-, hother⟩ := List.mem_filter.mp (hfrees.pins hk)
  exact bne_iff_ne.mp hother

theorem dropCommands_cmds (s : State) (fn : Nat) : ∀ c ∈ (dropCommands s fn).cmds, c.fn ≠ fn := by
  intro c hc
  obtain ⟨-, hother⟩ := List.mem_filter.mp hc
  exact bne_iff_ne.mp hother

/-- What a function level reset leaves before it resets the configuration of the function. -/
def leftByFunction (s : State) (fn : Nat) : State :=
  dropHoldings (dropCommands ((contextsOf s fn).foldl (fun s c => destroyCtx s c fn 0) s) fn) fn

theorem leftByFunction_cfgs : (leftByFunction s fn).cfgs = s.cfgs := by simp [leftByFunction]

/-- The function as its reset leaves it. -/
def Function.reopened (x : Function) : Function := { x with open_ := StagedCopy.zero, frozen := none }

theorem exec_functionLevelReset (hfn : fnPresent s fn = true) : exec (.functionLevelReset fn) s =
    .next (modFn (resetConfig (leftByFunction s fn) fun e => e.2 == fn) fn Function.reopened) :=
  if_neg (by simp [hfn])

theorem leftByFunction_frees : (∀ c ∈ (leftByFunction s fn).cmds, c.fn ≠ fn) ∧ ∀ k ∈ (leftByFunction s fn).keptPins, k.fn ≠ fn := by
  obtain ⟨hcmds, hpins⟩ := dropHoldings_frees (dropCommands ((contextsOf s fn).foldl (fun s c => destroyCtx s c fn 0) s) fn) fn
  exact ⟨fun c hc => dropCommands_cmds _ fn c (hcmds ▸ hc), hpins⟩

theorem completes_functionLevelReset (hfn : fnPresent s fn = true) : Completes (.functionLevelReset fn) s fun u =>
    (∀ q, (cfgAt u q fn).busMaster = false ∧ (cfgAt u q fn).timeoutNs = 50000000 ∧ (cfgAt u q fn).msix = []) ∧
    (∀ q f, f ≠ fn → cfgAt u q f = cfgAt s q f) ∧
    (fnOf u fn).open_ = StagedCopy.zero ∧ (fnOf u fn).frozen = none ∧ (∀ c ∈ u.cmds, c.fn ≠ fn) ∧
    ∀ k ∈ u.keptPins, k.fn ≠ fn := by
  refine ⟨_, exec_functionLevelReset hfn, ?_⟩
  obtain ⟨hcmds, hpins⟩ := leftByFunction_frees (s := s) (fn := fn)
  have hcfgs := leftByFunction_cfgs (s := s) (fn := fn)
  generalize leftByFunction s fn = t at *
  have hfnOf : fnOf (modFn (resetConfig t fun e => e.2 == fn) fn Function.reopened) fn = (fnOf t fn).reopened := fnOf_modFn
  refine ⟨fun q => ?_, fun q f hf => ?_, congrArg Function.open_ hfnOf, congrArg Function.frozen hfnOf, hcmds, hpins⟩
  · have hzero : cfgAt (resetConfig t fun e => e.2 == fn) q fn = FnConfig.zero := cfgAt_resetConfig (beq_self_eq_true fn)
    exact ⟨congrArg FnConfig.busMaster hzero, congrArg FnConfig.timeoutNs hzero, congrArg FnConfig.msix hzero⟩
  · exact (cfgAt_resetConfig_other (p := fun e => e.2 == fn) (beq_false_of_ne hf)).trans (cfgAt_congr hcfgs)

end

/-! ### Test access and configuration requests (R402, R404, R406, R493) -/

section

variable {s : State} {port fn : Nat}

theorem completes_tapInstruction {i : TapOp} (hv : s.board.vaon = true) : Completes (.tapInstruction i) s fun u =>
    u.board.tap = (if (i = .samplePreload ∨ i = .extest ∨ i = .extestPulse) ∧ s.keels.formed = true then .bypass else i) ∧
    { u with board := s.board } = s := by
  have hgo : ¬(!s.board.vaon) = true := by simp [hv]
  refine ⟨{ s with board := { s.board with tap := if drivesPins i && s.keels.formed then .bypass else i } }, if_neg hgo, ?_, rfl⟩
  cases i <;> simp [drivesPins]

/-- Only the configuration space of a function at a port has changed. -/
def OnlyConfigures (port fn : Nat) (s u : State) : Prop :=
  (∀ q g, (q, g) ≠ (port, fn) → cfgAt u q g = cfgAt s q g) ∧ { u with cfgs := s.cfgs } = s

theorem cfgAt_modCfgAt {f : FnConfig → FnConfig} : cfgAt (modCfgAt s port fn f) port fn = f (cfgAt s port fn) :=
  mget_mset_same _ _ _ _

theorem onlyConfigures_modCfgAt {f : FnConfig → FnConfig} : OnlyConfigures port fn s (modCfgAt s port fn f) :=
  ⟨fun _ _ h => mget_mset_other _ _ _ h, rfl⟩

/-- A port is up, and a function that it presents is asked. -/
structure Asked (s : State) (port fn : Nat) : Prop where
  lt : port < 2
  presented : presents s port fn = true
  released : (portOf s port).perst = false
  up : (portOf s port).linkUp = true

namespace Asked

variable {op : ConfigOp}

theorem exec_notReady (h : Asked s port fn) (hop : configPort op = port) (hr : portReady s port = false) :
    exec (.configurationRequest fn op) s = .next (emit s (.retryStatus fn)) := by
  subst hop
  obtain ⟨hport, hpresents, hreleased, hup⟩ := h
  exact (if_neg (by simp [hport, hpresents, hreleased, hup])).trans (if_pos (by simp [hr]))

theorem exec_ready (h : Asked s port fn) (hop : configPort op = port) (hr : portReady s port = true) :
    exec (.configurationRequest fn op) s = .next (configure s fn op) := by
  subst hop
  obtain ⟨hport, hpresents, hreleased, hup⟩ := h
  exact (if_neg (by simp [hport, hpresents, hreleased, hup])).trans (if_neg (by simp [hr]))

theorem completes_setBusMaster (h : Asked s port fn) (hr : portReady s port = true) (on : Bool) :
    Completes (.configurationRequest fn (.setBusMaster port on)) s fun u =>
      (cfgAt u port fn).busMaster = on ∧ OnlyConfigures port fn s u :=
  ⟨_, h.exec_ready rfl hr, congrArg FnConfig.busMaster cfgAt_modCfgAt, onlyConfigures_modCfgAt⟩

theorem completes_setCompletionTimeout (h : Asked s port fn) (hr : portReady s port = true) (ns : Nat) :
    Completes (.configurationRequest fn (.setCompletionTimeout port ns)) s fun u =>
      50000 ≤ (cfgAt u port fn).timeoutNs ∧ (cfgAt u port fn).timeoutNs ≤ 64000000000 ∧
      (50000 ≤ ns → ns ≤ 64000000000 → (cfgAt u port fn).timeoutNs = ns) ∧ OnlyConfigures port fn s u := by
  refine ⟨configure s fn (.setCompletionTimeout port ns), h.exec_ready rfl hr, ?_⟩
  have hns : (cfgAt (configure s fn (.setCompletionTimeout port ns)) port fn).timeoutNs = min 64000000000 (max 50000 ns) :=
    congrArg FnConfig.timeoutNs cfgAt_modCfgAt
  beta_reduce
  rw [hns]
  exact ⟨by omega, by omega, by omega, onlyConfigures_modCfgAt⟩

/-- AER status is cleared by ones (log entry 162). -/
theorem testBit_cleared (a mask n : Nat) (hn : n < 32) :
    ((BitVec.ofNat 32 a &&& ~~~(BitVec.ofNat 32 mask)).toNat).testBit n = (a.testBit n && !mask.testBit n) := by
  rw [BitVec.testBit_toNat, BitVec.getLsbD_and, BitVec.getLsbD_not, BitVec.getLsbD_ofNat, BitVec.getLsbD_ofNat]
  simp [hn]

theorem completes_clearAer (h : Asked s port fn) (hr : portReady s port = true) (mask : Nat) :
    Completes (.configurationRequest fn (.clearAer port mask)) s fun u =>
      (∀ n, n < 32 → (cfgAt u port fn).aer.testBit n = ((cfgAt s port fn).aer.testBit n && !mask.testBit n)) ∧
      OnlyConfigures port fn s u := by
  refine ⟨configure s fn (.clearAer port mask), h.exec_ready rfl hr, fun n hn => ?_, onlyConfigures_modCfgAt⟩
  have haer : (cfgAt (configure s fn (.clearAer port mask)) port fn).aer =
      (BitVec.ofNat 32 (cfgAt s port fn).aer &&& ~~~(BitVec.ofNat 32 mask)).toNat := congrArg FnConfig.aer cfgAt_modCfgAt
  rw [haer, testBit_cleared _ mask n hn]

theorem completes_readSerial (h : Asked s port fn) (hr : portReady s port = true) :
    Completes (.configurationRequest fn (.readSerial port)) s fun u =>
      u.out = s.out ++ [.configData port fn 0 s.part.serial] ∧ { u with out := s.out } = s :=
  ⟨_, h.exec_ready rfl hr, rfl, rfl⟩

end Asked

end

end Sys2Proof.Machine
end

section
/-! SUPPORT. A host read that times out (R406), and the management interface (R407, R464). -/

namespace Sys2Proof.Machine

open Sys2Proof

/-! ### A completion timeout (R406) -/

section

variable {s : State} {id : Nat} {r : Request} {t : ThreadId} {th : Thread} {n : Nat} {signed : Bool} {dst : Fin 32}

theorem leNat_zeros (k : Nat) : leNat (List.replicate k 0) = 0 := by
  induction k with
  | zero => rfl
  | succ k ih => rw [List.replicate_succ, leNat, ih]; rfl

theorem loadValue_zeros (n k : Nat) (signed : Bool) : loadValue n signed (List.replicate k 0) = 0 := by
  unfold loadValue
  rw [leNat_zeros]
  cases signed <;> simp [toSigned, ofSigned]

theorem KeepsItems.aerError {z : State} {f bit : Nat} (h : KeepsItems z s) : KeepsItems z (aerError s f bit) :=
  h.other rfl rfl rfl rfl rfl

theorem KeepsItems.ctxEvent {z : State} {c code word : Nat} (h : KeepsItems z s) : KeepsItems z (ctxEvent s c code word) :=
  h.postEvent

theorem KeepsItems.poisonEvent {z : State} {c a : Nat} (h : KeepsItems z s) : KeepsItems z (poisonEvent s c a) :=
  h.limited fun _ hu => hu.ctxEvent

theorem KeepsItems.threadOf {u : State} (h : KeepsItems s u) (t : ThreadId) : threadOf u t = Machine.threadOf s t := by
  unfold Machine.threadOf
  rw [h.threads]

theorem KeepsItems.ctxOf {u : State} (h : KeepsItems s u) (c : Nat) : ctxOf u c = Machine.ctxOf s c := by
  unfold Machine.ctxOf
  rw [h.contexts]

/-- A load that is lost before it is performed: its thread takes zeros, and the request leaves (R438). -/
theorem lost_load (hk : r.kind = .load n signed dst) (hn : n ≠ 8) (hs : r.stage = .accepted) (ho : r.origin = .thread t) :
    ∃ y, KeepsItems s y ∧ lost s r = finishRequest (poisonEvent (modThread y t fun th => th.wr dst 0) r.ctx r.devAddr) r := by
  refine ⟨judgeJob (checkPromise s r) r.ctx r.judge, (KeepsItems.refl s).checkPromise.judgeJob, ?_⟩
  have hdeliver (u : State) : deliver u r (List.replicate (kindBytes r.kind) 0) = modThread u t fun th => th.wr dst 0 := by
    unfold deliver
    rw [ho, hk]
    simp only [if_neg hn, loadValue_zeros]
    rfl
  unfold lost
  dsimp only
  rw [hdeliver, hs, hk]
  rfl

theorem completes_completionTimeout (hf : findRequest s id = some r) (hk : r.kind = .load n signed dst) (hn : n ≠ 8)
    (hs : r.stage = .accepted) (ha : spaceOf r.devAddr = 5) (hdue : r.accepted + (cfgOf s (ctxOf s r.ctx).fn).timeoutNs ≤ now s)
    (ho : r.origin = .thread t) (ht : threadOf s t = some th) (hw : th.run = .waitReq id) (hp : th.pc < codeWords (ctxOf s t.ctx)) :
    Completes (.completionTimeout id) s fun u => findRequest u id = none ∧ u.mem = s.mem ∧
      threadOf u t = some { th.wr dst 0 with run := .ready, readyAt := now s } := by
  obtain rfl := findRequest_id hf
  have hexec : exec (.completionTimeout r.id) s =
      .next (ctxEvent (lost (aerError s (ctxOf s r.ctx).fn 14) r) r.ctx 0x0E (r.devAddr % 2 ^ 48)) := by
    change execCompletionTimeout r.id s = _
    unfold execCompletionTimeout
    rw [hf]
    exact if_neg (by simp [hk, isRead, hs, ha, hdue])
  obtain ⟨y, hy, hlost⟩ := lost_load (s := aerError s (ctxOf s r.ctx).fn 14) hk hn hs ho
  have hsy : KeepsItems s y := (KeepsItems.refl s).aerError.trans hy
  rw [hlost] at hexec
  have hyt : threadOf y t = some th := (hsy.threadOf t).trans ht
  have hmod : modThread y t (fun th => th.wr dst 0) = { y with threads := mset y.threads t (th.wr dst 0) } := modThread_eq hyt
  have hz : KeepsItems (modThread y t fun th => th.wr dst 0) (poisonEvent (modThread y t fun th => th.wr dst 0) r.ctx r.devAddr) :=
    (KeepsItems.refl _).poisonEvent
  generalize poisonEvent (modThread y t fun th => th.wr dst 0) r.ctx r.devAddr = z at *
  have hzt : threadOf z t = some (th.wr dst 0) := (hz.threadOf t).trans (threadOf_modThread_same hyt)
  have hctx : ctxOf z t.ctx = ctxOf s t.ctx := (hz.ctxOf _).trans (by rw [hmod]; exact hsy.ctxOf _)
  have hnow : now z = now s := congrArg Clock.time (hz.clock.trans (by rw [hmod]; exact hsy.clock))
  have hmem : z.mem = s.mem := hz.mem.trans (by rw [hmod]; exact hsy.mem)
  obtain ⟨hthread, hkept, hgone⟩ := finishRequest_resumes ho hzt hw (by rw [hctx]; exact hp)
  have hu : KeepsItems (finishRequest z r) (ctxEvent (finishRequest z r) r.ctx 0x0E (r.devAddr % 2 ^ 48)) :=
    (KeepsItems.refl _).ctxEvent
  refine ⟨_, hexec, ?_, (hu.mem.trans hkept).trans hmem, ?_⟩
  · unfold findRequest
    rw [hu.requests]
    exact hgone
  · rw [hu.threadOf, hthread, hnow]

end

/-! ### The management interface (R407, R464) -/

section

variable {s : State}

/-- With a valid slot of no lower SEQ beside it the first slot is not used, and with none it is. -/
theorem firstNewer_of_le {ok : Bool} {m n : Nat} (h : m ≤ n) : firstNewer ok true m n = false := by
  simp [firstNewer, h]

theorem firstNewer_of_lt {ok : Bool} {m n : Nat} (h : ok = true → n < m) : firstNewer true ok m n = true := by
  cases ok
  · rfl
  · simpa [firstNewer] using h

/-- The flash after a lifetime write that succeeds, into the first slot or into the second (R464). -/
theorem writeLifetime_flash (hpresent : s.flash.present = true) {n : Nat} (hn : ((newestLife s.flash).map (·.seq)).getD 0 = n)
    (hlt : n + 1 < 2 ^ 32) : (writeLifetime s true).flash =
      if firstNewer s.flash.slot0.crcOk s.flash.slot1.crcOk s.flash.slot0.seq s.flash.slot1.seq then
        { s.flash with slot1 := lifeImage s (n + 1), lastLifeWrite := now s, retryAt := none }
      else { s.flash with slot0 := lifeImage s (n + 1), lastLifeWrite := now s, retryAt := none } := by
  have hgo : true = true ∧ s.flash.present = true := ⟨rfl, hpresent⟩
  unfold writeLifetime
  dsimp only
  rw [if_pos hgo, hn, Nat.mod_eq_of_lt hlt]
  cases firstNewer s.flash.slot0.crcOk s.flash.slot1.crcOk s.flash.slot0.seq s.flash.slot1.seq <;> rfl

/-- A lifetime write that succeeds leaves its image as the one that a power-on uses: it goes into the older slot, with the next SEQ. -/
theorem newestLife_writeLifetime (hpresent : s.flash.present = true) {n : Nat} (hn : ((newestLife s.flash).map (·.seq)).getD 0 = n)
    (hlt : n + 1 < 2 ^ 32) : newestLife (writeLifetime s true).flash = some (lifeImage s (n + 1)) := by
  rw [writeLifetime_flash hpresent hn hlt]
  by_cases hfirst : firstNewer s.flash.slot0.crcOk s.flash.slot1.crcOk s.flash.slot0.seq s.flash.slot1.seq = true
  · have hnewest : newestLife s.flash = some s.flash.slot0 := if_pos hfirst
    rw [hnewest] at hn
    have hle : s.flash.slot0.seq ≤ n + 1 := hn.le.trans (Nat.le_succ n)
    rw [if_pos hfirst]
    exact (if_neg (ne_true_of_eq_false (firstNewer_of_le (ok := s.flash.slot0.crcOk) hle))).trans (if_pos rfl)
  · have hlt : s.flash.slot1.crcOk = true → s.flash.slot1.seq < n + 1 := by
      intro hsecond
      have hnewest : newestLife s.flash = some s.flash.slot1 := (if_neg hfirst).trans (if_pos hsecond)
      rw [hnewest] at hn
      exact hn.le.trans_lt (Nat.lt_succ_self n)
    rw [if_neg hfirst]
    exact if_pos (firstNewer_of_lt hlt)

/-- An answer has left, and a free value is used. -/
def mctpAnswered (s : State) (m : MctpRequest) : State := { emit s (.mctp m (mctpAnswer s m)) with freeCounter := s.freeCounter + 1 }

theorem exec_mctpMessage_lifetimeRecord (hv : s.board.vaon = true) :
    exec (.mctpMessage .lifetimeRecord) s = .next (writeLifetime (mctpAnswered s .lifetimeRecord) true) :=
  if_neg (by simp [hv])

/-- Of the other messages those that give an address change the board, and none changes more. -/
theorem exec_mctpMessage_other {m : MctpRequest} (hv : s.board.vaon = true) (hm : m ≠ .lifetimeRecord) :
    ∃ b, exec (.mctpMessage m) s = .next { mctpAnswered s m with board := b } := by
  have hgo : ¬(!s.board.vaon) = true := by simp [hv]
  cases m with
  | lifetimeRecord => exact absurd rfl hm
  | setdasa a => exact ⟨_, if_neg hgo⟩
  | entdaa a => exact ⟨_, if_neg hgo⟩
  | _ => exact ⟨s.board, if_neg hgo⟩

/-- A lifetime write changes the flash alone, when there is one, and otherwise writes the fault log. -/
theorem writeLifetime_frame (ok : Bool) : (writeLifetime s ok).out = s.out ∧ (writeLifetime s ok).contexts = s.contexts ∧
    (writeLifetime s ok).mem = s.mem := by
  unfold writeLifetime
  dsimp only
  split <;> exact ⟨rfl, rfl, rfl⟩

theorem completes_mctpMessage {m : MctpRequest} (hv : s.board.vaon = true) : Completes (.mctpMessage m) s fun u =>
    u.out = s.out ++ [.mctp m (mctpAnswer s m)] ∧ u.contexts = s.contexts ∧ u.mem = s.mem ∧
    (m ≠ .lifetimeRecord → u.flash = s.flash) ∧
    (m = .lifetimeRecord → s.flash.present = true → ((newestLife s.flash).map (·.seq)).getD 0 + 1 < 2 ^ 32 →
      ∃ x, newestLife u.flash = some x ∧ x.seq = ((newestLife s.flash).map (·.seq)).getD 0 + 1 ∧ x.device = s.life) := by
  by_cases hm : m = .lifetimeRecord
  · subst hm
    obtain ⟨hout, hcontexts, hmem⟩ := writeLifetime_frame (s := mctpAnswered s .lifetimeRecord) true
    exact ⟨_, exec_mctpMessage_lifetimeRecord hv, hout, hcontexts, hmem, fun h => absurd rfl h,
      fun _ hpresent hn => ⟨_, newestLife_writeLifetime (s := mctpAnswered s .lifetimeRecord) hpresent rfl hn, rfl, rfl⟩⟩
  · obtain ⟨b, hexec⟩ := exec_mctpMessage_other hv hm
    exact ⟨_, hexec, rfl, rfl, rfl, fun _ => rfl, fun h => absurd h hm⟩

end

end Sys2Proof.Machine
end

section
open Sys2Proof Sys2Proof.Machine

/-- Settles O55, by what each event of a host port, of the management interface and of the test access comes to. -/
theorem hostPorts : Obligations.HostPorts := by
  intro s
  refine ⟨fun port hup hone => completes_pcieLinkDown hup hone,
    fun port t hport hperst hclk hpower => completes_perstDeassert hport hperst hclk hpower,
    fun port hport hperst => completes_perstAssert hport hperst,
    fun port hport hperst hdown => completes_perstAssert_noLink hport hperst hdown,
    fun fn hfn => completes_functionLevelReset hfn,
    fun id r t th n signed dst hf hk hn hs ha hdue ho ht hw hp => completes_completionTimeout hf hk hn hs ha hdue ho ht hw hp,
    fun m hv => completes_mctpMessage hv, fun i hv => completes_tapInstruction hv,
    fun port fn hport hpresents hreleased hup => ?_⟩
  have hasked : Asked s port fn := ⟨hport, hpresents, hreleased, hup⟩
  refine ⟨fun op hop hr => ⟨_, hasked.exec_notReady hop hr, rfl, rfl⟩, fun hr => ?_⟩
  exact ⟨hasked.completes_setBusMaster hr, hasked.completes_setCompletionTimeout hr, hasked.completes_clearAer hr,
    hasked.completes_readSerial hr⟩

end

section
/-! SUPPORT. The Keels (R446 to R450): a voter that is lost, and hold. -/

namespace Sys2Proof.Machine

open Sys2Proof

section Keels

variable {s : State} {k votes : Nat}

/-- The redundancy record goes into a slot of the flash, and nothing else of the state changes. -/
theorem storeRecord_eq (s : State) : ∃ a b, storeRecord s = { s with flash := { s.flash with record0 := a, record1 := b } } := by
  unfold storeRecord
  dsimp only
  split
  · exact ⟨_, _, rfl⟩
  · split
    · exact ⟨s.flash.record0, _, rfl⟩
    · exact ⟨_, s.flash.record1, rfl⟩

/-- A Keel that is recorded failed changes only what lists the failed, and the fault log. -/
theorem failKeel_eq (s : State) (k votes : Nat) : ∃ f l n, failKeel s k votes =
      { s with keels := { s.keels with failed := s.keels.failed ++ [k] }, flash := f, faultLog := l, logTotal := n } ∧
    f.failedKeels = s.flash.failedKeels ++ [k] := by
  unfold failKeel
  dsimp only
  generalize ht : ({ s with keels := _, flash := _ } : State) = t
  obtain ⟨a, b, he⟩ := storeRecord_eq t
  rw [he, ← ht]
  exact ⟨_, _, _, rfl, rfl⟩

/-- A voter that leaves while at least two others vote: only those vote on, and the standby that is there is to join. -/
theorem loseKeel_voting (h : 2 ≤ (s.keels.voting.filter (· != k)).length) :
    (loseKeel s k votes).keels.voting = s.keels.voting.filter (· != k) ∧
      (loseKeel s k votes).flash.failedKeels = s.flash.failedKeels ++ [k] ∧ (loseKeel s k votes).hold = s.hold ∧
      (s.keels.standby ≠ none → s.keels.joinBy = none → (loseKeel s k votes).keels.joinBy = some (now s + 10000000)) := by
  obtain ⟨f, l, n, he, hf⟩ := failKeel_eq { s with keels := { s.keels with voting := s.keels.voting.filter (· != k) } } k votes
  have hmany : ¬(s.keels.voting.filter (· != k)).length ≤ 1 := by omega
  unfold loseKeel
  dsimp only
  rw [he]
  by_cases hjoin : s.keels.standby.isSome = true ∧ s.keels.joinBy.isNone = true
  · rw [if_pos hjoin, if_neg hmany]
    exact ⟨rfl, hf, rfl, fun _ _ => rfl⟩
  · rw [if_neg hjoin, if_neg hmany]
    refine ⟨rfl, hf, rfl, fun hs hj => absurd ⟨Option.isSome_iff_ne_none.mpr hs, by rw [hj]; rfl⟩ hjoin⟩

/-- A voter is out, recorded in the board flash, and the others vote on. -/
def VotedOut (s : State) (k : Nat) (u : State) : Prop :=
  k ∉ u.keels.voting ∧ k ∈ u.flash.failedKeels ∧ u.hold = false ∧ (∀ j ∈ s.keels.voting, j ≠ k → j ∈ u.keels.voting) ∧
    (s.keels.standby ≠ none → s.keels.joinBy = none → u.keels.joinBy = some (now s + 10000000))

theorem loseKeel_votedOut (hn : s.keels.voting.Nodup) (h : 3 ≤ s.keels.voting.length) (hhold : s.hold = false) :
    VotedOut s k (loseKeel s k votes) := by
  have hlen : s.keels.voting.length ≤ (s.keels.voting.filter (· != k)).length + 1 := by
    have hc : s.keels.voting.count k ≤ 1 := List.nodup_iff_count_le_one.mp hn k
    have := List.length_eq_length_filter_add (l := s.keels.voting) (· != k)
    simp only [bne, Bool.not_not] at this
    rw [List.count, List.countP_eq_length_filter] at hc
    have e : (fun x : Nat => x != k) = fun x => !(x == k) := rfl
    rw [e]
    omega
  obtain ⟨hvoting, hflash, hh, hjoin⟩ := loseKeel_voting (s := s) (k := k) (votes := votes) (by omega)
  refine ⟨?_, ?_, hh.trans hhold, fun j hj hne => ?_, hjoin⟩
  · rw [hvoting]; simp
  · rw [hflash]; simp
  · rw [hvoting]; simp [hj, hne]

/-- A lifetime write changes the flash, or logs that it failed. -/
theorem writeLifetime_eq (s : State) (ok : Bool) : ∃ f l n, writeLifetime s ok = { s with flash := f, faultLog := l, logTotal := n } := by
  unfold writeLifetime
  dsimp only
  split
  · exact ⟨_, s.faultLog, s.logTotal, rfl⟩
  · exact ⟨_, _, _, rfl⟩

/-- A device that enters hold drives the epoch pulse no longer and counts its hold. -/
theorem enterHold_eq (h : s.hold = false) : ∃ r n o f l t, enterHold s =
    { s with hold := true, clock := { s.clock with master := false }, life := { s.life with holds := s.life.holds + 1 }
             records := r, fns := n, out := o, flash := f, faultLog := l, logTotal := t } := by
  unfold enterHold
  rw [if_neg (by simp [h])]
  dsimp only
  generalize ht : ({ s with hold := _, clock := _, life := _ } : State) = t
  obtain ⟨r, n, hevent⟩ := deviceEvent_eq t 0x0F (quorumBits s)
  rw [hevent, ← ht]
  obtain ⟨f, l, m, hwrite⟩ := writeLifetime_eq (emit (emit (logFault
    { s with hold := true, clock := { s.clock with master := false }, life := { s.life with holds := s.life.holds + 1 }
             records := r, fns := n } 0x09 0xFF 0xFF 0xFF (quorumBits s)) .heldReport) .inBandInterrupt) true
  exact ⟨_, _, _, _, _, _, hwrite⟩

/-- Of two voters the one that is lost leaves the other alone, and the device is to hold. -/
theorem loseKeel_alone {j : Nat} (hv : s.keels.voting = [k, j]) (hne : k ≠ j) (hhold : s.hold = false) :
    ∃ u, loseKeel s k votes = enterHold u ∧ u.keels.voting = [j] ∧ u.hold = false ∧ u.life = s.life := by
  have hleft : s.keels.voting.filter (· != k) = [j] := by rw [hv]; simp [Ne.symm hne]
  obtain ⟨f, l, n, he, -⟩ := failKeel_eq { s with keels := { s.keels with voting := s.keels.voting.filter (· != k) } } k votes
  have halone : (s.keels.voting.filter (· != k)).length ≤ 1 := by rw [hleft]; exact Nat.le_refl 1
  unfold loseKeel
  dsimp only
  rw [he]
  by_cases hjoin : s.keels.standby.isSome = true ∧ s.keels.joinBy.isNone = true
  · rw [if_pos hjoin, if_pos halone]
    exact ⟨_, rfl, hleft, hhold, rfl⟩
  · rw [if_neg hjoin, if_pos halone]
    exact ⟨_, rfl, hleft, hhold, rfl⟩

theorem loseKeel_holds {j : Nat} (hv : s.keels.voting = [k, j]) (hne : k ≠ j) (hhold : s.hold = false) :
    (loseKeel s k votes).keels.voting = [j] ∧ (loseKeel s k votes).hold = true ∧ (loseKeel s k votes).clock.master = false ∧
      (loseKeel s k votes).life.holds = s.life.holds + 1 := by
  obtain ⟨u, he, hvoting, hh, hlife⟩ := loseKeel_alone (votes := votes) hv hne hhold
  obtain ⟨_, _, _, _, _, _, heq⟩ := enterHold_eq hh
  rw [he, heq]
  exact ⟨hvoting, rfl, rfl, by rw [hlife]⟩

/-! ### Heartbeats, rotation and self-checks -/

theorem exec_keelPeriodicSelfCheck (hf : s.keels.formed = true) (hk : k ∈ s.keels.voting) :
    exec (.keelPeriodicSelfCheck k false) s = .next (loseKeel s k 0) := by
  change execKeelPeriodicSelfCheck k false s = _
  unfold execKeelPeriodicSelfCheck
  rw [if_neg (by simp [hf]), if_pos (List.contains_iff_mem.mpr hk)]

/-- A map that lists a function's value at each of some keys. -/
theorem mget_tabulate {α β : Type} [DecidableEq α] (d : β) (f : α → β) (l : List α) (k : α) :
    mget d (l.map fun x => (x, f x)) k = if k ∈ l then f k else d := by
  induction l with
  | nil => rfl
  | cons a r ih =>
    by_cases h : a = k
    · simp [mget, mget?, h]
    · have hk : (k ∈ a :: r) = (k ∈ r) := by simp [Ne.symm h]
      simp only [hk, ← ih]
      simp [mget, mget?, h]

/-- Only the Keel that is silent misses a heartbeat; the others' counts start anew. -/
theorem missed_countMissed (hk : k < 4) (j : Nat) :
    mget 0 (countMissed s [k]).keels.missed j = if j = k then mget 0 s.keels.missed k + 1 else 0 := by
  refine (mget_tabulate 0 (fun x => if [k].contains x then mget 0 s.keels.missed x + 1 else 0) (List.range 4) j).trans ?_
  by_cases hj : j = k
  · subst hj; simp [hk]
  · simp [hj]

/-- A voter that is silent for the third time in a row is lost, and no other Keel with it. -/
theorem exec_keelHeartbeat (hf : s.keels.formed = true) (hn : s.keels.voting.Nodup) (hv : k ∈ s.keels.voting) (hk : k < 4)
    (hm : mget 0 s.keels.missed k = 2) (hs : ∀ j, s.keels.standby = some j → j ≠ k) :
    ∃ votes, exec (.keelHeartbeat [k] []) s = .next (loseKeel (countMissed s [k]) k votes) := by
  have hlate (j : Nat) : (decide (3 ≤ mget 0 (countMissed s [k]).keels.missed j) || ([] : List Nat).contains j) = (j == k) := by
    rw [missed_countMissed hk, hm]
    by_cases hj : j = k
    · simp [hj]
    · simp [hj]
  have hbad : s.keels.voting.filter (· == k) = [k] := by
    rw [List.filter_beq, List.count_eq_one_of_mem hn hv]; rfl
  have hstandby : ∀ j, s.keels.standby = some j → ¬ 3 ≤ mget 0 (countMissed s [k]).keels.missed j := fun j hj => by
    rw [missed_countMissed hk, if_neg (hs j hj)]; omega
  refine ⟨(s.keels.voting.filter fun j => !List.contains [k] j).length, ?_⟩
  change execKeelHeartbeat [k] [] s = _
  unfold execKeelHeartbeat
  rw [if_neg (by simp [hf])]
  dsimp only
  simp only [hlate]
  have hvoting : (countMissed s [k]).keels.voting = s.keels.voting := rfl
  have hst : (countMissed s [k]).keels.standby = s.keels.standby := rfl
  rw [hvoting, hbad, hst]
  split
  · next j hj => rw [if_neg (hstandby j hj)]; rfl
  · rfl

/-- A voter that misses its third heartbeat in a row, or fails its own check, is voted out (R446). -/
theorem completes_votedOut (hf : s.keels.formed = true) (hn : s.keels.voting.Nodup) (hv : k ∈ s.keels.voting)
    (h : 3 ≤ s.keels.voting.length) (hhold : s.hold = false) :
    Completes (.keelPeriodicSelfCheck k false) s (VotedOut s k) ∧
      (k < 4 → mget 0 s.keels.missed k = 2 → (∀ j, s.keels.standby = some j → j ≠ k) →
        Completes (.keelHeartbeat [k] []) s (VotedOut s k)) := by
  refine ⟨⟨_, exec_keelPeriodicSelfCheck hf hv, loseKeel_votedOut hn h hhold⟩, fun hk hm hs => ?_⟩
  obtain ⟨votes, hexec⟩ := exec_keelHeartbeat hf hn hv hk hm hs
  exact ⟨_, hexec, loseKeel_votedOut (s := countMissed s [k]) hn h hhold⟩

theorem exec_keelStandbyJoin {t : Nat} (hs : s.keels.standby = some k) (hj : s.keels.joinBy = some t)
    (hb : isBoundary (now s) = true) (hhold : s.hold = false) : exec .keelStandbyJoin s = .next (joinKeel s k) := by
  change execKeelStandbyJoin s = _
  unfold execKeelStandbyJoin
  rw [hs, hj]
  exact if_pos ⟨hb, by simp [hhold]⟩

/-- A rotation at its time: the standby joins, and the Keel that has voted longest stands by. -/
theorem exec_keelRotation {a b c : Nat} (hs : s.keels.standby = some k) (hv : s.keels.voting = [a, b, c])
    (hj : s.keels.joinBy = none) (hhold : s.hold = false) (hb : isBoundary (now s) = true)
    (ht : s.keels.lastRotation + 86400000000000 ≤ now s) : exec (.keelRotation true) s =
      .next { joinKeel { s with keels := { s.keels with voting := [b, c], lastRotation := now s } } k with
        keels := { s.keels with voting := [b, c, k], lastRotation := now s, standby := some a, joinBy := none } } := by
  change execKeelRotation true s = _
  unfold execKeelRotation
  rw [hs, hv]
  exact if_neg (by simp [hj, hhold, hb, ht])

end Keels

/-! ### The lifetime record and the retirement list (R464, R465) -/

section Life

variable {s : State}

/-- A write that succeeds stands in the slot that is not the newest good one, under the next SEQ. -/
def LifeWritten (s u : State) : Prop :=
  let n := ((newestLife s.flash).map (·.seq)).getD 0
  let first := firstNewer s.flash.slot0.crcOk s.flash.slot1.crcOk s.flash.slot0.seq s.flash.slot1.seq
  (n + 1 < 2 ^ 32 → ∃ x, newestLife u.flash = some x ∧ x.seq = n + 1 ∧ x.device = s.life ∧ x.time = now s) ∧
    u.flash.lastLifeWrite = now s ∧ u.flash.retryAt = none ∧
    (first = true → u.flash.slot0 = s.flash.slot0) ∧ (first = false → u.flash.slot1 = s.flash.slot1)

theorem writeLifetime_written (hpresent : s.flash.present = true) : LifeWritten s (writeLifetime s true) := by
  refine ⟨fun hn => ⟨_, newestLife_writeLifetime hpresent rfl hn, rfl, rfl, rfl⟩, ?_⟩
  have hgo : true = true ∧ s.flash.present = true := ⟨rfl, hpresent⟩
  unfold writeLifetime
  dsimp only
  rw [if_pos hgo]
  cases firstNewer s.flash.slot0.crcOk s.flash.slot1.crcOk s.flash.slot0.seq s.flash.slot1.seq
  · exact ⟨rfl, rfl, fun h => Bool.noConfusion h, fun _ => rfl⟩
  · exact ⟨rfl, rfl, fun _ => rfl, fun h => Bool.noConfusion h⟩

/-- An hour after the last one a lifetime write is made. -/
theorem exec_lifetimeWrite {ok : Bool} (h : s.flash.lastLifeWrite + 3600000000000 ≤ now s) :
    exec (.lifetimeWrite ok) s = .next (writeLifetime s ok) := if_neg (by omega)

theorem exec_lifetimeWriteRetry {ok : Bool} {t : Nat} (hr : s.flash.retryAt = some t) (ht : t ≤ now s) :
    exec (.lifetimeWriteRetry ok) s = .next (writeLifetime s ok) := by
  change execLifetimeWriteRetry ok s = _
  unfold execLifetimeWriteRetry
  rw [hr]
  exact if_neg (by omega)

/-- The oldest retirement that waits is listed while the list has room. -/
theorem exec_retirementListAppend {r : Retirement} {rest : List Retirement} (hp : s.flash.pendingRetirements = r :: rest)
    (hpresent : s.flash.present = true) (hroom : s.flash.retirements.length < 524288) : exec .retirementListAppend s =
      .next { s with flash := { s.flash with pendingRetirements := rest, retirements := s.flash.retirements ++ [r] } } := by
  change execRetirementListAppend s = _
  unfold execRetirementListAppend
  rw [hp]
  exact if_pos ⟨hpresent, hroom⟩

end Life

end Sys2Proof.Machine
end

section
open Sys2Proof Sys2Proof.Machine

/-- Settles O58, by what becomes of a Keel that is lost, of one that joins, and of the older slot of the lifetime record. -/
theorem keelsAndLifetime : Obligations.KeelsAndLifetime := by
  intro s
  refine ⟨fun k hf hn hv h hhold => completes_votedOut hf hn hv h hhold, fun k j hf hv hne hhold => ?_,
    fun k t hs hj hb hhold => ⟨_, exec_keelStandbyJoin hs hj hb hhold, rfl, rfl, rfl, rfl⟩,
    fun k a b c hs hv hj hhold hb ht => ⟨_, exec_keelRotation hs hv hj hhold hb ht, rfl, rfl, rfl, rfl⟩,
    fun hpresent => ?_, fun r rest hp hpresent hroom => ⟨_, exec_retirementListAppend hp hpresent hroom, rfl, rfl, rfl⟩⟩
  · exact ⟨_, exec_keelPeriodicSelfCheck hf (by simp [hv]), loseKeel_holds hv hne hhold⟩
  · have hwritten := writeLifetime_written hpresent
    refine ⟨fun hdue => ⟨⟨_, exec_lifetimeWrite hdue, hwritten⟩, _, exec_lifetimeWrite hdue, rfl, rfl, rfl, rfl⟩,
      fun t hr ht => ⟨_, exec_lifetimeWriteRetry hr ht, hwritten⟩⟩

end

section
/-! SUPPORT. Entries that are fetched and accepted (R411 to R414), and the records that their commands leave (R415, R417). -/

namespace Sys2Proof.Machine

open Sys2Proof

/-! ### What an acceptance leaves alone -/

/-- Every queue of every function is as it was, and so are memory, the contexts and the turn of the queues. -/
structure KeepsQueues (s u : State) : Prop where
  queue : ∀ f q, queueOf u f q = queueOf s f q
  mem : u.mem = s.mem
  contexts : u.contexts = s.contexts
  cmdTurn : u.cmdTurn = s.cmdTurn
  nextCmd : u.nextCmd = s.nextCmd

namespace KeepsQueues

variable {z s u : State}

theorem refl (s : State) : KeepsQueues s s := ⟨fun _ _ => rfl, rfl, rfl, rfl, rfl⟩

theorem trans (a : KeepsQueues z s) (b : KeepsQueues s u) : KeepsQueues z u :=
  ⟨fun f q => (b.queue f q).trans (a.queue f q), b.mem.trans a.mem, b.contexts.trans a.contexts, b.cmdTurn.trans a.cmdTurn,
    b.nextCmd.trans a.nextCmd⟩

/-- A function that changes outside its queues. -/
theorem modFn {f : Nat} {g : Function → Function} (h : KeepsQueues z s) (hg : ∀ y, (g y).queues = y.queues) :
    KeepsQueues z (modFn s f g) := by
  refine h.trans ⟨fun i q => ?_, rfl, rfl, rfl, rfl⟩
  unfold queueOf
  by_cases hi : i = f
  · subst hi; rw [fnOf_modFn, hg]
  · rw [fnOf_modFn_other hi]

theorem setCmd {c : Cmd} (h : KeepsQueues z s) : KeepsQueues z (setCmd s c) := h.trans ⟨fun _ _ => rfl, rfl, rfl, rfl, rfl⟩

theorem endCmd {c : Cmd} {a b r : Nat} (h : KeepsQueues z s) : KeepsQueues z (endCmd s c a b r) := h.setCmd

theorem markApply {c : Cmd} {a : Nat} (h : KeepsQueues z s) : KeepsQueues z (markApply s c a) := by
  unfold Machine.markApply
  split
  · exact h.modFn fun _ => rfl
  · exact h

theorem freezeCopy {c : Cmd} (h : KeepsQueues z s) : KeepsQueues z (freezeCopy s c) := by
  unfold Machine.freezeCopy
  split
  · exact h
  · exact h.modFn fun _ => rfl

end KeepsQueues

section Accept

variable {s : State} {c e : Cmd} {n a : Nat}

theorem findCmd_markApply (i : Nat) : findCmd (markApply s c a) i = findCmd s i := by
  unfold markApply; split <;> rfl

theorem findCmd_freezeCopy (i : Nat) : findCmd (freezeCopy s c) i = findCmd s i := by
  unfold freezeCopy; split <;> rfl

/-- The state in which an accepted command starts: its queue has counted it. -/
def counted (s : State) (c : Cmd) (n : Nat) : State :=
  { modQueue s c.fn c.queue fun x => { x with started := n } with freeCounter := s.freeCounter + 1 }

/-- The count of the command is all that its acceptance does to the queues. -/
theorem acceptCmd_counted (s : State) (c : Cmd) (n : Nat) : KeepsQueues (counted s c n) (acceptCmd s c n) := by
  unfold acceptCmd
  dsimp only
  split
  · exact (KeepsQueues.refl (counted s c n)).markApply.endCmd
  · exact (KeepsQueues.refl (counted s c n)).setCmd.freezeCopy

/-- A command as its acceptance leaves it: at work, or ended when its header fails (R412, R414). -/
def acceptedAs (s : State) (c : Cmd) (n : Nat) : Cmd :=
  let d := c.accepted (modQueue s c.fn c.queue fun x => { x with started := n }) n
  match entryFault s c with
  | some off => { d with stage := .ended, status := 1, detail := off, result := 0 }
  | none => d

theorem acceptedAs_number : (acceptedAs s c n).number = n := by unfold acceptedAs; split <;> rfl
theorem acceptedAs_tAccept : (acceptedAs s c n).tAccept = now s := by unfold acceptedAs; split <;> rfl
theorem acceptedAs_entry : (acceptedAs s c n).entry = c.entry := by unfold acceptedAs; split <;> rfl
theorem acceptedAs_fn : (acceptedAs s c n).fn = c.fn := by unfold acceptedAs; split <;> rfl
theorem acceptedAs_queue : (acceptedAs s c n).queue = c.queue := by unfold acceptedAs; split <;> rfl

theorem acceptedAs_accepted (h : entryFault s c = none) : (acceptedAs s c n).stage = .accepted := by
  unfold acceptedAs; rw [h]; rfl

theorem acceptedAs_rejected {off : Nat} (h : entryFault s c = some off) :
    (acceptedAs s c n).stage = .ended ∧ (acceptedAs s c n).status = 1 ∧ (acceptedAs s c n).detail = off := by
  unfold acceptedAs; rw [h]; exact ⟨rfl, rfl, rfl⟩

/-- A listed command is found as its acceptance leaves it. -/
theorem findCmd_acceptCmd (h : findCmd s c.id = some e) : findCmd (acceptCmd s c n) c.id = some (acceptedAs s c n) := by
  unfold acceptCmd acceptedAs
  dsimp only
  split
  · next off hoff =>
    rw [show entryFault s c = some off from hoff]
    exact findCmd_endCmd ((findCmd_markApply _).trans h)
  · next hoff =>
    rw [show entryFault s c = none from hoff]
    exact (findCmd_freezeCopy _).trans (findCmd_setCmd h)

/-- The number of the next command of a queue (R412). -/
def nextNumber (s : State) (fn queue : Nat) : Nat := ((queueOf s fn queue).started + 1) % 2 ^ 32

/-- An entry on which the Keels agree, and which breaks no context, is accepted once its order allows it (R412, R448). -/
theorem tryAccept_agreed {v : Votes} (hv : quorumAgrees s v = true)
    (hb : breakingContexts s c.fn c.queue (nextNumber s c.fn c.queue) = []) :
    tryAccept s c v = if orderAllows s c then acceptCmd s c (nextNumber s c.fn c.queue) else s := by
  unfold tryAccept
  unfold nextNumber at hb ⊢
  dsimp only
  rw [hv, hb]
  cases orderAllows s c <;> rfl

end Accept

section Fetch

variable {s : State} {fn queue : Nat} {v : Votes} {c : Cmd}

/-- The command that a fetched entry becomes: it waits for its acceptance (R411). -/
def entryCmd (s : State) (fn queue : Nat) : Cmd :=
  { id := s.nextCmd, fn := fn, queue := queue
    entry := hostRead s fn ((queueOf s fn queue).sqBase.toNat + 64 * (queueOf s fn queue).sqHead) 64, number := 0
    stage := .fetched, tAccept := 0, promised := none, status := 0, detail := 0, result := 0, retried := false, rev := 0
    regs := [], intervals := [], energyPj := 0, size := 0, phase := 0 }

theorem fetchEntry_cmds : (fetchEntry s fn queue).cmds = s.cmds ++ [entryCmd s fn queue] := rfl

/-- A queue of which no entry was fetched has the entry that is fetched now. -/
theorem fetchedOf_fetchEntry (h : fetchedOf s fn queue = none) :
    fetchedOf (fetchEntry s fn queue) fn queue = some (entryCmd s fn queue) := by
  have hself : (fn == fn && queue == queue && CmdStage.fetched == CmdStage.fetched) = true := by simp
  unfold fetchedOf at h ⊢
  rw [fetchEntry_cmds, List.find?_append, h, Option.none_or, List.find?_singleton]
  exact if_pos hself

/-- No earlier command has the number of the command that is fetched. -/
theorem findCmd_fetchEntry (hs : Sound s) : findCmd (fetchEntry s fn queue) s.nextCmd = some (entryCmd s fn queue) := by
  have hnone : s.cmds.find? (fun c => c.id == s.nextCmd) = none :=
    List.find?_eq_none.mpr fun c hc => by
      have hlt : c.id < s.nextCmd := hs.cmds.2 c hc
      simpa using Nat.ne_of_lt hlt
  unfold findCmd
  rw [fetchEntry_cmds, List.find?_append, hnone, Option.none_or, List.find?_singleton]
  exact if_pos (beq_self_eq_true _)

theorem fetchedOf_mem (h : fetchedOf s fn queue = some c) : c.fn = fn ∧ c.queue = queue ∧ ∃ e, findCmd s c.id = some e := by
  have hp := List.find?_some h
  simp only [Bool.and_eq_true, beq_iff_eq] at hp
  obtain ⟨⟨hf, hq⟩, -⟩ := hp
  have hsome : (s.cmds.find? fun d => d.id == c.id).isSome := List.find?_isSome.mpr ⟨c, List.mem_of_find?_eq_some h, by simp⟩
  exact ⟨hf, hq, Option.isSome_iff_exists.mp hsome⟩

/-- A fetched entry keeps the queue from having another one to fetch. -/
theorem entryWaits_of_fetched (h : fetchedOf s fn queue = some c) : entryWaits s fn queue = false := by
  unfold entryWaits
  rw [h]
  simp

theorem fetchedOf_of_entryWaits (h : entryWaits s fn queue = true) : fetchedOf s fn queue = none := by
  cases hf : fetchedOf s fn queue with
  | none => rfl
  | some c => rw [entryWaits_of_fetched hf] at h; cases h

/-- The state in which the entry of a queue is served: it is the queue's turn. -/
def servedTurn (s : State) (fn queue : Nat) : State := { s with cmdTurn := (fn, queue) }

theorem counted_mem {n : Nat} : (counted s c n).mem = s.mem := rfl
theorem counted_nextCmd {n : Nat} : (counted s c n).nextCmd = s.nextCmd := rfl
theorem fetchEntry_mem : (fetchEntry s fn queue).mem = s.mem := modQueue_mem
theorem fetchEntry_nextCmd : (fetchEntry s fn queue).nextCmd = s.nextCmd + 1 := modQueue_nextCmd

theorem exec_commandAccept_fetched (hturn : queueTurn s fn queue = true) (hc : fetchedOf s fn queue = some c)
    (ho : orderAllows s c = true) :
    exec (.commandAccept fn queue v) s = .next (tryAccept (servedTurn s fn queue) c v) := by
  have hready : queueReady s fn queue = true := by
    unfold queueReady
    rw [hc]
    simp [ho]
  have hserved : fetchedOf (servedTurn s fn queue) fn queue = some c := hc
  change execCommandAccept fn queue v s = _
  unfold execCommandAccept
  rw [hready, hturn, if_neg (by simp), entryWaits_of_fetched hc]
  dsimp only [Bool.false_eq_true, if_false]
  change (match fetchedOf (servedTurn s fn queue) fn queue with
    | some c => Host.Outcome.next (tryAccept (servedTurn s fn queue) c v)
    | none => .next (servedTurn s fn queue)) = _
  rw [hserved]

theorem exec_commandAccept_waiting (hturn : queueTurn s fn queue = true) (hw : entryWaits s fn queue = true) :
    exec (.commandAccept fn queue v) s =
      .next (tryAccept (servedTurn (fetchEntry s fn queue) fn queue) (entryCmd s fn queue) v) := by
  have hready : queueReady s fn queue = true := by
    unfold queueReady
    rw [hw]
    rfl
  have hserved : fetchedOf (servedTurn (fetchEntry s fn queue) fn queue) fn queue = some (entryCmd s fn queue) :=
    fetchedOf_fetchEntry (fetchedOf_of_entryWaits hw)
  change execCommandAccept fn queue v s = _
  unfold execCommandAccept
  rw [hready, hturn, if_neg (by simp), hw, if_pos rfl]
  change (match fetchedOf (servedTurn (fetchEntry s fn queue) fn queue) fn queue with
    | some c => Host.Outcome.next (tryAccept (servedTurn (fetchEntry s fn queue) fn queue) c v)
    | none => .next (servedTurn (fetchEntry s fn queue) fn queue)) = _
  rw [hserved]

/-- R411, R412: a fetched entry whose order allows it is accepted. -/
theorem completes_commandAccept_fetched (hturn : queueTurn s fn queue = true) (hv : quorumAgrees s v = true)
    (hb : breakingContexts s fn queue (nextNumber s fn queue) = [])
    (hc : fetchedOf s fn queue = some c) (ho : orderAllows s c = true) :
    Completes (.commandAccept fn queue v) s fun u =>
      queueOf u fn queue = { queueOf s fn queue with started := nextNumber s fn queue } ∧
      u.mem = s.mem ∧ u.contexts = s.contexts ∧ u.cmdTurn = (fn, queue) ∧
      findCmd u c.id = some (acceptedAs s c (nextNumber s fn queue)) := by
  obtain ⟨rfl, rfl, e, he⟩ := fetchedOf_mem hc
  refine ⟨_, exec_commandAccept_fetched hturn hc ho, ?_⟩
  have hallow : orderAllows (servedTurn s c.fn c.queue) c = true := ho
  have haccept := tryAccept_agreed (s := servedTurn s c.fn c.queue) (v := v) hv hb
  rw [if_pos hallow] at haccept
  rw [haccept]
  have hkeep := acceptCmd_counted (servedTurn s c.fn c.queue) c (nextNumber s c.fn c.queue)
  exact ⟨(hkeep.queue _ _).trans queueOf_modQueue, hkeep.mem, hkeep.contexts, hkeep.cmdTurn, findCmd_acceptCmd he⟩

/-- R411: an entry that stands in its queue is fetched, and accepted if its order allows it. -/
theorem completes_commandAccept_waiting (hs : Sound s) (hturn : queueTurn s fn queue = true) (hv : quorumAgrees s v = true)
    (hb : breakingContexts s fn queue (nextNumber s fn queue) = [])
    (hw : entryWaits s fn queue = true) :
    Completes (.commandAccept fn queue v) s fun u =>
      (queueOf u fn queue).sqHead = ((queueOf s fn queue).sqHead + 1) % 2 ^ (queueOf s fn queue).sqLog2 ∧
      u.mem = s.mem ∧ u.nextCmd = s.nextCmd + 1 ∧
      ∃ d, findCmd u s.nextCmd = some d ∧ d.fn = fn ∧ d.queue = queue ∧ d.entry = (entryCmd s fn queue).entry := by
  refine ⟨_, exec_commandAccept_waiting hturn hw, ?_⟩
  have hqueue : queueOf (servedTurn (fetchEntry s fn queue) fn queue) fn queue
      = { queueOf s fn queue with sqHead := ((queueOf s fn queue).sqHead + 1) % 2 ^ (queueOf s fn queue).sqLog2 } :=
    queueOf_modQueue
  have hfound : findCmd (servedTurn (fetchEntry s fn queue) fn queue) (entryCmd s fn queue).id = some (entryCmd s fn queue) :=
    findCmd_fetchEntry hs
  have hnumber : nextNumber (servedTurn (fetchEntry s fn queue) fn queue) fn queue = nextNumber s fn queue := by
    unfold nextNumber
    rw [hqueue]
  have haccept := tryAccept_agreed (s := servedTurn (fetchEntry s fn queue) fn queue) (c := entryCmd s fn queue) (v := v) hv
    (hnumber.symm ▸ hb)
  rw [show nextNumber _ (entryCmd s fn queue).fn (entryCmd s fn queue).queue = nextNumber s fn queue from hnumber] at haccept
  rw [haccept]
  split
  · have hkeep := acceptCmd_counted (servedTurn (fetchEntry s fn queue) fn queue) (entryCmd s fn queue)
      (nextNumber s fn queue)
    have hmem := (hkeep.mem.trans counted_mem).trans (fetchEntry_mem (fn := fn) (queue := queue))
    have hnext := (hkeep.nextCmd.trans counted_nextCmd).trans (fetchEntry_nextCmd (fn := fn) (queue := queue))
    have hhead := congrArg Queue.sqHead ((hkeep.queue fn queue).trans queueOf_modQueue)
    refine ⟨hhead.trans (congrArg Queue.sqHead hqueue), hmem, hnext, acceptedAs _ (entryCmd s fn queue) _,
      findCmd_acceptCmd hfound, ?_, ?_, ?_⟩
    · exact acceptedAs_fn
    · exact acceptedAs_queue
    · exact acceptedAs_entry
  · exact ⟨congrArg Queue.sqHead hqueue, rfl, rfl, _, hfound, rfl, rfl, rfl⟩

end Fetch

section Completion

variable {s : State} {c : Cmd} {id : Nat}

/-- A missed promise is reported, and nothing that a record holds changes (R63, R415). -/
theorem commandMiss_reports (s : State) (c : Cmd) : OnlyReports s (commandMiss s c) :=
  OnlyReports.limited (OnlyReports.limited (OnlyReports.refl s) fun _ h => h.logFault) fun _ h => h.postEvent

theorem commandMiss_records (s : State) (c : Cmd) : s.records <+: (commandMiss s c).records := by
  have hlog : OnlyAddsRecords s (limited s (0x100, 0xFF) fun s => logFault s 0x0C 0xFF 0xFF c.ctx 17) :=
    (OnlyAddsRecords.refl s).limited fun _ h => h.other rfl rfl
  exact (hlog.limited (key := (0x0C, c.ctx)) (f := fun s => postEvent s c.fn 0x0C c.ctx 17 17) fun _ h => h.postEvent).records

/-- Only a COPY completes late (R371, R421). -/
theorem lateCopy_of_not_copy (hop : c.opcode ≠ 0x0E) : lateCopy s c = c := if_neg fun h => hop h.1

/-- The state in which the record of a command is posted. -/
def missReported (s : State) (c : Cmd) : State := if (cmdRecord s c).missed then commandMiss s c else s

theorem missReported_mem : (missReported s c).mem = s.mem := by
  unfold missReported
  split
  · obtain ⟨_, _, _, _, _, _, _, _, he⟩ := (commandMiss_reports s c).form
    rw [he]
  · rfl

/-- What a missed promise reports goes before the record; a promise that is kept reports nothing. -/
theorem missReported_records : ∃ more, (missReported s c).records = s.records ++ more ∧
    ((cmdRecord s c).missed = false → more = []) := by
  unfold missReported
  split
  · next hm =>
    obtain ⟨more, he⟩ := commandMiss_records s c
    exact ⟨more, he.symm, fun hn => absurd (hm.symm.trans hn) (by decide)⟩
  · exact ⟨[], (List.append_nil _).symm, fun _ => rfl⟩

theorem exec_commandCompletion (hc : findCmd s id = some c) (hend : c.stage = .ended) (hop : c.opcode ≠ 0x0E) :
    exec (.commandCompletion id) s = .next (postRecord (endCmdTransfers
      { missReported s c with cmds := (missReported s c).cmds.filter fun x => x.id != c.id } c.id) (cmdRecord s c)) := by
  change execCommandCompletion id s = _
  unfold execCommandCompletion
  rw [hc]
  dsimp only
  rw [if_neg (fun h => h hend), lateCopy_of_not_copy hop]
  rfl

/-- R415: a command whose work has ended leaves, and its record is the newest. -/
theorem completes_commandCompletion (hc : findCmd s id = some c) (hend : c.stage = .ended) (hop : c.opcode ≠ 0x0E) :
    Completes (.commandCompletion id) s fun u => findCmd u id = none ∧ u.mem = s.mem ∧
      ∃ more, u.records = s.records ++ more ++ [cmdRecord s c] ∧ ((cmdRecord s c).missed = false → more = []) := by
  refine ⟨_, exec_commandCompletion hc hend hop, ?_, missReported_mem, ?_⟩
  · have hid : c.id = id := findCmd_id hc
    subst hid
    exact List.find?_eq_none.mpr fun d hd => by simpa using (List.mem_filter.mp hd).2
  · obtain ⟨more, hr, hkept⟩ := missReported_records (s := s) (c := c)
    exact ⟨more, (postRecord_records (r := cmdRecord s c)).trans (congrArg (· ++ [cmdRecord s c]) hr), hkept⟩

end Completion

section Post

variable {s : State} {fn queue : Nat} {r : Record}

theorem length_recordBytes (r : Record) (head : Nat) (phase : Bool) : (recordBytes r head phase).length = 32 := by
  unfold recordBytes
  cases r.word <;> simp only [List.length_append, length_leBytes]

/-- The state in which a queue has its record written: the interrupt is still to be raised. -/
def recordWritten (s : State) (fn queue : Nat) (r : Record) : State :=
  let x := queueOf s fn queue
  modQueue (hostWrite { s with records := s.records.erase r } fn (x.cqBase.toNat + 32 * x.cqTail)
    (recordBytes r x.sqHead x.phase)) fn queue fun y =>
      { y with cqTail := (y.cqTail + 1) % queueSize x.cqLog2, phase := if y.cqTail + 1 = queueSize x.cqLog2 then !y.phase else y.phase }

theorem recordWritten_mem : (recordWritten s fn queue r).mem =
    s.mem.store (memKey s (hostAddr (fnPort s fn) ((queueOf s fn queue).cqBase.toNat + 32 * (queueOf s fn queue).cqTail)))
      (recordBytes r (queueOf s fn queue).sqHead (queueOf s fn queue).phase) := modQueue_mem.trans hostWrite_mem

theorem recordWritten_out : (recordWritten s fn queue r).out =
    let a := hostAddr (fnPort s fn) ((queueOf s fn queue).cqBase.toNat + 32 * (queueOf s fn queue).cqTail)
    s.out ++ [.hostRequest (hostPort s a) fn true (a % 2 ^ 48) 32] := by
  have hlen := length_recordBytes r (queueOf s fn queue).sqHead (queueOf s fn queue).phase
  unfold recordWritten
  rw [modQueue_out]
  unfold hostWrite
  rw [hlen]
  rfl

theorem modQueue_cfgOf {g : Queue → Queue} {f : Nat} : cfgOf (modQueue s fn queue g) f = cfgOf s f := rfl

theorem hostWrite_cfgOf {a f : Nat} {l : List Byte} : cfgOf (hostWrite s fn a l) f = cfgOf s f := rfl

theorem recordWritten_vectorMasked (v : Nat) :
    vectorMasked (cfgOf (recordWritten s fn queue r) fn) v = vectorMasked (cfgOf s fn) v := by
  unfold recordWritten
  rw [modQueue_cfgOf, hostWrite_cfgOf]
  rfl

theorem exec_completionPost (hr : s.records.find? (fun r => r.fn == fn && r.queue == queue) = some r)
    (hroom : ((queueOf s fn queue).cqTail + 1) % 2 ^ (queueOf s fn queue).cqLog2 ≠ (queueOf s fn queue).cqHead)
    (hreach : hostReach s fn = true) : exec (.completionPost fn queue) s = .next (if (queueOf s fn queue).irqEn
      then signalVector (recordWritten s fn queue r) fn (queueOf s fn queue).vector else recordWritten s fn queue r) := by
  change execCompletionPost fn queue s = _
  unfold execCompletionPost
  dsimp only
  rw [hr]
  dsimp only
  rw [if_neg (by rw [hreach]; simpa [queueSize] using hroom)]
  rfl

theorem signalVector_keeps (s : State) (f v : Nat) : (signalVector s f v).records = s.records ∧
    (signalVector s f v).mem = s.mem ∧ ∀ q, queueOf (signalVector s f v) f q = queueOf s f q := by
  unfold signalVector
  split <;> exact ⟨rfl, rfl, fun _ => rfl⟩

theorem signalVector_sent {f v : Nat} (h : vectorMasked (cfgOf s f) v = false) :
    (signalVector s f v).out = s.out ++ [.msix f v] := by
  unfold signalVector
  rw [h]
  rfl

/-- A masked vector pends (Table 14.8). -/
theorem signalVector_pends {f v : Nat} (h : vectorMasked (cfgOf s f) v = true) :
    (signalVector s f v).out = s.out ∧ v ∈ (cfgOf (signalVector s f v) f).msixPending := by
  unfold signalVector
  rw [if_pos h]
  refine ⟨rfl, ?_⟩
  rw [show cfgOf (modCfg s f _) f = _ from cfgAt_modCfgAt]
  dsimp only
  split
  · next hc => exact List.contains_iff_mem.mp hc
  · exact List.mem_append_right _ (List.mem_singleton.mpr rfl)

theorem recordWritten_sends {v : Nat} (h : vectorMasked (cfgOf s fn) v = false) :
    (signalVector (recordWritten s fn queue r) fn v).out = (recordWritten s fn queue r).out ++ [.msix fn v] :=
  signalVector_sent ((recordWritten_vectorMasked v).trans h)

theorem recordWritten_pends {v : Nat} (h : vectorMasked (cfgOf s fn) v = true) :
    (signalVector (recordWritten s fn queue r) fn v).out = (recordWritten s fn queue r).out ∧
      v ∈ (cfgOf (signalVector (recordWritten s fn queue r) fn v) fn).msixPending :=
  signalVector_pends ((recordWritten_vectorMasked v).trans h)

end Post

end Sys2Proof.Machine
end

section
open Sys2Proof Sys2Proof.Machine

/-- Settles O44, from what a served entry becomes (`acceptedAs`, `entryCmd`), the record that an ended command leaves and the
state in which a queue has a record written (`recordWritten`); that a masked vector pends is log entry 70. -/
theorem commandsAndRecords : Obligations.CommandsAndRecords := by
  refine ⟨fun s fn queue v hs hturn hv => ?_, fun s id c hc hend hop => ?_, fun s fn queue r => ?_⟩
  · intro x n hb
    constructor
    · intro c hc ho
      obtain ⟨u, hu, hqueue, hmem, hctx, hcmdTurn, hfound⟩ := completes_commandAccept_fetched hturn hv hb hc ho
      exact ⟨u, hu, hqueue, hmem, hctx, hcmdTurn, _, hfound, acceptedAs_number, acceptedAs_tAccept, acceptedAs_entry,
        acceptedAs_accepted, fun off hoff => acceptedAs_rejected hoff⟩
    · exact completes_commandAccept_waiting hs hturn hv hb
  · obtain ⟨u, hu, hgone, hmem, more, hrecords, hkept⟩ := completes_commandCompletion hc hend hop
    exact ⟨u, hu, hgone, hmem, more, _, hrecords, rfl, rfl, rfl, rfl, rfl, rfl, rfl, rfl, hkept⟩
  · intro x n hr hroom hreach
    refine ⟨_, exec_completionPost hr hroom hreach, ?_⟩
    have hwritten : queueOf (recordWritten s fn queue r) fn queue = { x with
        cqTail := (x.cqTail + 1) % n, phase := if x.cqTail + 1 = n then !x.phase else x.phase } := queueOf_modQueue
    by_cases hirq : x.irqEn = true
    · rw [if_pos hirq]
      obtain ⟨hrecords, hmem, hqueue⟩ := signalVector_keeps (recordWritten s fn queue r) fn x.vector
      refine ⟨hrecords, hmem.trans recordWritten_mem, (hqueue queue).trans hwritten, fun h => absurd (hirq.symm.trans h) (by decide),
        fun _ hopen => ?_, fun _ hmasked => ?_⟩
      · rw [recordWritten_sends hopen, recordWritten_out]
      · obtain ⟨hout, hpends⟩ := recordWritten_pends (queue := queue) (r := r) hmasked
        exact ⟨hout.trans recordWritten_out, hpends⟩
    · rw [if_neg hirq]
      exact ⟨rfl, recordWritten_mem, hwritten, fun _ => recordWritten_out, fun h => absurd h hirq, fun h => absurd h hirq⟩

end

section
/-! SUPPORT. What leaves the course of the regions alone: no exchange begins or ends, no reduction job comes or goes, no physical region
gets another role, and no command changes, while slots are emptied, work is withdrawn, events are posted and memory is written. -/

namespace Sys2Proof.Machine

open Sys2Proof

-- One proof at a time: each that waits for another holds a thread, whose stack counts toward the memory limit.
set_option Elab.async false

/-- What a physical region is for: its role, its service, and whether it stands. -/
def PhysRegion.standing (x : PhysRegion) : Role × Bool × Bool × Option (Nat × Nat) := (x.role, x.corePg, x.failing, x.service)

section Standing

variable {x y : PhysRegion} (h : x.standing = y.standing)
include h

theorem PhysRegion.standing_role : x.role = y.role := congrArg (fun z : Role × Bool × Bool × Option (Nat × Nat) => z.1) h
theorem PhysRegion.standing_corePg : x.corePg = y.corePg := congrArg (fun z : Role × Bool × Bool × Option (Nat × Nat) => z.2.1) h
theorem PhysRegion.standing_failing : x.failing = y.failing :=
  congrArg (fun z : Role × Bool × Bool × Option (Nat × Nat) => z.2.2.1) h
end Standing

/-- The exchanges, the reduction jobs, the standing of the physical regions, the clock, the commands, the checkpoints and the
contexts' counts of restores are as they were. -/
structure KeepsCourse (s u : State) : Prop where
  exchange : ∀ L, (regionOf u L).exchange = (regionOf s L).exchange
  jobs : ∀ L, (regionOf u L).seqr.jobs = (regionOf s L).seqr.jobs
  standing : ∀ p, (physOf u p).standing = (physOf s p).standing
  clock : u.clock = s.clock
  cmds : u.cmds = s.cmds
  checkpoints : u.checkpoints = s.checkpoints
  restores : ∀ c, (ctxOf u c).restores = (ctxOf s c).restores

namespace KeepsCourse

variable {z s u : State}

theorem refl (s : State) : KeepsCourse s s := ⟨fun _ => rfl, fun _ => rfl, fun _ => rfl, rfl, rfl, rfl, fun _ => rfl⟩

theorem trans (a : KeepsCourse z s) (b : KeepsCourse s u) : KeepsCourse z u :=
  ⟨fun L => (b.exchange L).trans (a.exchange L), fun L => (b.jobs L).trans (a.jobs L),
    fun p => (b.standing p).trans (a.standing p), b.clock.trans a.clock, b.cmds.trans a.cmds,
    b.checkpoints.trans a.checkpoints, fun c => (b.restores c).trans (a.restores c)⟩

/-- An update of other fields of the state. -/
theorem other (h : KeepsCourse z s) (hl : u.logs = s.logs := by rfl) (hp : u.phys = s.phys := by rfl)
    (hg : u.part = s.part := by rfl) (ht : u.clock = s.clock := by rfl) (hc : u.cmds = s.cmds := by rfl)
    (hk : u.checkpoints = s.checkpoints := by rfl) (hx : u.contexts = s.contexts := by rfl) : KeepsCourse z u :=
  h.trans ⟨fun L => by unfold regionOf; rw [hl], fun L => by unfold regionOf; rw [hl],
    fun p => by unfold physOf; rw [hp, hg], ht, hc, hk, fun c => by unfold ctxOf; rw [hx]⟩

theorem ite {a b : State} {c : Prop} [Decidable c] (ha : KeepsCourse z a) (hb : KeepsCourse z b) :
    KeepsCourse z (if c then a else b) := by
  split
  · exact ha
  · exact hb

theorem foldl {α : Type} {f : State → α → State} {l : List α} (hf : ∀ s a, KeepsCourse z s → KeepsCourse z (f s a))
    (h : KeepsCourse z s) : KeepsCourse z (l.foldl f s) := foldl_keeps (P := KeepsCourse z) hf l h

theorem setRegion {L : Nat} {R : LogRegion} (h : KeepsCourse z s) (he : R.exchange = (regionOf s L).exchange)
    (hj : R.seqr.jobs = (regionOf s L).seqr.jobs) : KeepsCourse z (setRegion s L R) := by
  refine h.trans ⟨fun M => ?_, fun M => ?_, fun _ => rfl, rfl, rfl, rfl, fun _ => rfl⟩
  · by_cases hM : M = L
    · subst hM; exact (congrArg LogRegion.exchange (mget_mset_same _ _ _ _)).trans he
    · exact congrArg LogRegion.exchange (mget_mset_other _ _ _ hM)
  · by_cases hM : M = L
    · subst hM; exact (congrArg (fun R : LogRegion => R.seqr.jobs) (mget_mset_same _ _ _ _)).trans hj
    · exact congrArg (fun R : LogRegion => R.seqr.jobs) (mget_mset_other _ _ _ hM)

theorem modRegion {L : Nat} {f : LogRegion → LogRegion} (h : KeepsCourse z s)
    (hf : ∀ R, (f R).exchange = R.exchange ∧ (f R).seqr.jobs = R.seqr.jobs := by exact fun _ => ⟨rfl, rfl⟩) :
    KeepsCourse z (modRegion s L f) := h.setRegion (hf _).1 (hf _).2

/-- An update of every region alike. -/
theorem mapRegions {f : LogRegion → LogRegion} (h : KeepsCourse z s) (hl : u.logs = s.logs.map fun e => (e.1, f e.2))
    (hf : ∀ R, (f R).exchange = R.exchange ∧ (f R).seqr.jobs = R.seqr.jobs) (hz : f LogRegion.zero = LogRegion.zero)
    (hp : u.phys = s.phys := by rfl) (hg : u.part = s.part := by rfl) (ht : u.clock = s.clock := by rfl)
    (hc : u.cmds = s.cmds := by rfl) (hk : u.checkpoints = s.checkpoints := by rfl) (hx : u.contexts = s.contexts := by rfl) :
    KeepsCourse z u := by
  have hr (L : Nat) : regionOf u L = f (regionOf s L) := by
    unfold regionOf
    rw [hl]
    exact mget_map hz _ _
  exact h.trans ⟨fun L => (congrArg LogRegion.exchange (hr L)).trans (hf _).1,
    fun L => (congrArg (fun R : LogRegion => R.seqr.jobs) (hr L)).trans (hf _).2,
    fun p => by unfold physOf; rw [hp, hg], ht, hc, hk, fun c => by unfold ctxOf; rw [hx]⟩

theorem modPhys {p : Nat} {f : PhysRegion → PhysRegion} (h : KeepsCourse z s)
    (hf : ∀ x, (f x).standing = x.standing := by exact fun _ => rfl) : KeepsCourse z (modPhys s p f) := by
  refine h.trans ⟨fun _ => rfl, fun _ => rfl, fun q => ?_, rfl, rfl, rfl, fun _ => rfl⟩
  by_cases hq : q = p
  · subst hq; rw [physOf_modPhys, hf]
  · rw [physOf_modPhys_other hq]

theorem modCtx {c : Nat} {f : Context → Context} (h : KeepsCourse z s)
    (hf : ∀ x, (f x).restores = x.restores := by exact fun _ => rfl) : KeepsCourse z (modCtx s c f) := by
  refine h.trans ⟨fun _ => rfl, fun _ => rfl, fun _ => rfl, rfl, rfl, rfl, fun d => ?_⟩
  by_cases hd : d = c
  · subst hd; rw [ctxOf_modCtx, hf]
  · rw [ctxOf_modCtx_other hd]

/-! ### Credits, links and activity -/

theorem sends (h : KeepsCourse z s) (hs : OnlySends s u) : KeepsCourse z u := by
  obtain ⟨_, _, _, _, rfl⟩ := hs
  exact h.other

theorem activity (h : KeepsCourse z s) (ha : OnlyActivity s u) : KeepsCourse z u := by
  obtain ⟨_, rfl⟩ := ha
  exact h.other

theorem askPeer {fn a n : Nat} (h : KeepsCourse z s) : KeepsCourse z (askPeer s fn a n) := h.sends (OnlySends.refl s).askPeer

theorem countAccess {own a n : Nat} {c : Option Nat} (h : KeepsCourse z s) : KeepsCourse z (countAccess s own c a n) :=
  h.activity (OnlyActivity.refl s).countAccess

theorem addStall {p c n : Nat} (h : KeepsCourse z s) : KeepsCourse z (addStall s p c n) := h.modPhys

theorem giveBack {res : Resource} {n : Nat} (h : KeepsCourse z s) : KeepsCourse z (giveBack s res n) := by
  obtain ⟨d, l, he⟩ := giveBack_eq s res n
  exact he ▸ h.other

theorem returnCredits {l : List (Resource × Nat)} (h : KeepsCourse z s) : KeepsCourse z (returnCredits s l) :=
  foldl (fun _ _ h => ite h h.giveBack) h

theorem sweepWakes (h : KeepsCourse z s) : KeepsCourse z (sweepWakes s) := ite h (returnCredits h.other)

/-! ### Events and versions -/

theorem postEvent {f code ctx detail word : Nat} (h : KeepsCourse z s) : KeepsCourse z (postEvent s f code ctx detail word) := by
  obtain ⟨r, n, he⟩ := postEvent_eq s f code ctx detail word
  exact he ▸ h.other

theorem ctxEvent {c code word : Nat} (h : KeepsCourse z s) : KeepsCourse z (ctxEvent s c code word) := h.postEvent

theorem limited {key : Nat × Nat} {f : State → State} (h : KeepsCourse z s) (hf : ∀ u, KeepsCourse z u → KeepsCourse z (f u)) :
    KeepsCourse z (limited s key f) := by
  rcases limited_cases s key f with he | he
  · rw [he]; exact h
  · rw [he]; exact hf _ h.other

theorem poisonEvent {c a : Nat} (h : KeepsCourse z s) : KeepsCourse z (poisonEvent s c a) := limited h fun _ hu => hu.ctxEvent

theorem windowFault {c ca : Nat} (h : KeepsCourse z s) : KeepsCourse z (windowFault s c ca) :=
  have hm : KeepsCourse z (Machine.modCtx s c fun x => { x with winFaults := satAdd 0xFFFF x.winFaults 1 }) := h.modCtx
  ite hm hm.modCtx.postEvent

theorem releaseVersions {t : Nat} (h : KeepsCourse z s) : KeepsCourse z (releaseVersions s t) :=
  foldl (fun _ _ => postEvent) h.other

/-! ### Writes of memory -/

theorem updatePage {page : Nat} (h : KeepsCourse z s) : KeepsCourse z (updatePage s page) := by
  unfold Machine.updatePage
  dsimp only
  refine ite h (ite (postEvent ?_) ?_)
  all_goals
    split
    · exact ite (postEvent h.other) h.other
    · exact h.other

theorem markWritten {a n : Nat} (h : KeepsCourse z s) : KeepsCourse z (markWritten s a n) :=
  h.mapRegions (f := fun R => { R with gates := R.gates.map fun g => (g.1, g.2.mark a n) }) rfl (fun _ => ⟨rfl, rfl⟩) rfl

theorem devWrite {fn a : Nat} {bs : List Byte} (h : KeepsCourse z s) : KeepsCourse z (devWrite s fn a bs) := by
  have hm : KeepsCourse z { s with mem := s.mem.store (memKey s a) bs } := h.other
  exact ite h (ite h (ite (ite h (h.sends (OnlySends.refl s).sendPieces))
    (ite (foldl (fun _ _ => updatePage) hm) (ite hm.other hm.markWritten))))

theorem winWrite {c ca : Nat} {bs : List Byte} (h : KeepsCourse z s) : KeepsCourse z (winWrite s c none ca bs) := by
  unfold Machine.winWrite
  split
  · exact h.devWrite
  · exact h.windowFault

theorem poisonOut {a n : Nat} (h : KeepsCourse z s) : KeepsCourse z (poisonOut s a n) := ite h.other h

theorem hostMove {fn src dst n : Nat} (h : KeepsCourse z s) : KeepsCourse z (hostMove s fn src dst n) :=
  foldl (fun _ _ h => ite h.other h.other) h.other

theorem devMove {fn src dst n : Nat} (h : KeepsCourse z s) : KeepsCourse z (devMove s fn src dst n) := by
  have hs : KeepsCourse z (if spaceOf src = 5 then hostRequest s fn false src n else Machine.askPeer s fn src n) :=
    ite h.other h.askPeer
  unfold Machine.devMove
  revert hs
  generalize (if spaceOf src = 5 then hostRequest s fn false src n else Machine.askPeer s fn src n) = t
  intro hs
  have hw : KeepsCourse z { t with freeCounter := t.freeCounter + 1 } := hs.other
  have hm : KeepsCourse z { t with mem := t.mem.move (memKey t src) (memKey t dst) n } := hs.other
  exact ite h (ite hs.hostMove (ite (ite hw.devWrite.poisonOut hw.devWrite)
    (ite (foldl (fun _ _ => updatePage) hm) hm.markWritten)))

theorem addRequest {r : Request} (h : KeepsCourse z s) : KeepsCourse z (addRequest s r) := h.other

theorem remotePiece {ctx a : Nat} {o : Origin} {bs payload : List Byte} {p : Option Nat} {cr : List (Resource × Nat)}
    (h : KeepsCourse z s) : KeepsCourse z (remotePiece s ctx o a bs payload p cr) := by
  have hr (r : Request) : KeepsCourse z (countRequest (Machine.addRequest s r) r) :=
    h.addRequest.activity (countRequest_onlyActivity _ r)
  unfold Machine.remotePiece
  dsimp only
  split
  · exact (hr _).sends (OnlySends.refl _).queueOp
  · exact hr _

theorem remoteStore {ctx k : Nat} {o : Origin} : ∀ {s : State} {a : Nat} {bs : List Byte}, KeepsCourse z s →
    KeepsCourse z (remoteStore s ctx o a bs k) := by
  induction k with
  | zero => exact id
  | succ k ih => exact fun h => ite h (ih h.remotePiece)

theorem engineStore {o : Origin} {fn a : Nat} {c : Option Nat} {bs : List Byte} (h : KeepsCourse z s) :
    KeepsCourse z (engineStore s o fn c a bs) := ite (ite h h.remoteStore) h.countAccess.devWrite

/-! ### A slot that is emptied (R358) -/

theorem takeUnits {H u n : Nat} {x : UnitUse} (h : KeepsCourse z s) : KeepsCourse z (takeUnits s H u n x) := h.modRegion

theorem modObject {n : Nat} {f : PoolObject → PoolObject} (h : KeepsCourse z s) : KeepsCourse z (modObject s n f) := h.other

theorem moveRun {L tag : Nat} {r : Option (Nat × Nat)} (h : KeepsCourse z s) : KeepsCourse z (moveRun s L tag r) := h.modRegion

theorem leaveSlot {slot : Nat} {o : PoolObject} (h : KeepsCourse z s) : KeepsCourse z (leaveSlot slot s o) := by
  unfold Machine.leaveSlot
  split
  · exact h
  · refine ite h.modObject ?_
    split
    · exact h.takeUnits.devMove.modObject
    · dsimp only
      split
      · exact h.modObject.ctxEvent
      · exact h.modObject

theorem leaveRun {slot : Nat} {x : Nat × WinchEntry} (h : KeepsCourse z s) : KeepsCourse z (leaveRun slot s x) := by
  unfold Machine.leaveRun
  split
  · refine ite h ?_
    dsimp only
    split
    · exact ite h.modRegion.takeUnits.devMove.moveRun.modObject h.modRegion.takeUnits.moveRun
    · exact h.modRegion.moveRun.modObject.ctxEvent
  · exact h

theorem emptySlot {slot : Nat} (h : KeepsCourse z s) : KeepsCourse z (emptySlot s slot) :=
  foldl (fun _ _ => leaveRun) (foldl (fun _ _ => leaveSlot) h)

theorem emptyStandby {p : Nat} (h : KeepsCourse z s) : KeepsCourse z (emptyStandby s p) := by
  unfold Machine.emptyStandby
  split
  · exact h.emptySlot
  · exact h

/-! ### Threads and tasks -/

theorem modThread {t : ThreadId} {f : Thread → Thread} (h : KeepsCourse z s) : KeepsCourse z (modThread s t f) := by
  unfold Machine.modThread
  split
  · exact h.other
  · exact h

theorem giveTask {L : Nat} {k : Taker} {x : ReadyTask} (h : KeepsCourse z s) : KeepsCourse z (giveTask s L k x) :=
  have hm := h.modRegion.modThread
  ite hm.sweepWakes hm

theorem serveTakers {L ctx l n : Nat} : ∀ {s : State}, KeepsCourse z s → KeepsCourse z (serveTakers s L ctx l n) := by
  induction n with
  | zero => exact id
  | succ n ih =>
    intro s h
    unfold Machine.serveTakers
    refine ite h ?_
    split
    · exact ih h.modRegion.giveTask
    · exact h

theorem releaseFlows {L ctx : Nat} {p : FlowHeld → Bool} (h : KeepsCourse z s) : KeepsCourse z (releaseFlows s L ctx p) :=
  ite (foldl (fun _ _ => serveTakers) h.modRegion) h

theorem settle {t : ThreadId} (h : KeepsCourse z s) : KeepsCourse z (settle s t) := by
  unfold Machine.settle
  split
  · exact ite h.modThread.sweepWakes.releaseFlows h
  · exact h

theorem wake {t : ThreadId} (h : KeepsCourse z s) : KeepsCourse z (wake s t) := h.modThread.settle

theorem dropTakers {p : ThreadId → Bool} (h : KeepsCourse z s) : KeepsCourse z (dropTakers s p) :=
  h.mapRegions (f := fun R => { R with takers := R.takers.filter fun k => !p k.t }) rfl (fun _ => ⟨rfl, rfl⟩) rfl

theorem dropTasks {L ctx : Nat} (h : KeepsCourse z s) : KeepsCourse z (dropTasks s L ctx) := by
  unfold Machine.dropTasks
  exact h.modRegion

/-! ### Requests and operations that leave -/

theorem issueFeeds {op n : Nat} : ∀ {s : State}, KeepsCourse z s → KeepsCourse z (issueFeeds s op n) := by
  induction n with
  | zero => exact id
  | succ n ih =>
    intro s h
    unfold Machine.issueFeeds
    split
    · split
      · exact ih h.other
      · exact h
    · exact h

theorem feedDone {op : Nat} {r : Request} (h : KeepsCourse z s) : KeepsCourse z (feedDone s op r) := by
  unfold Machine.feedDone
  split
  · split
    · exact foldl (fun _ _ => issueFeeds) h.other
    · exact h
  · exact h

theorem wakeRecord {req : Nat} (h : KeepsCourse z s) : KeepsCourse z (wakeRecord s req) :=
  foldl (fun _ _ h => ite h.wake h) h

theorem fenceCheck {t : ThreadId} (h : KeepsCourse z s) : KeepsCourse z (fenceCheck s t) := by
  unfold Machine.fenceCheck
  split
  · exact ite h.wake h
  · exact h

theorem finishRequest {r : Request} (h : KeepsCourse z s) : KeepsCourse z (finishRequest s r) := by
  let t := Machine.returnCredits { s with requests := s.requests.filter fun q => q.id ≠ r.id } r.credits
  have hc : KeepsCourse z t := returnCredits h.other
  have ht : KeepsCourse z (releaseAfter t r.id) := hc.other
  unfold Machine.finishRequest
  dsimp only
  split
  · exact ht.feedDone
  · refine fenceCheck (wakeRecord ?_)
    split
    · exact ite ht.wake ht
    · exact ht
  · exact ht.modRegion
  · exact ht

theorem dropRequests {p : Request → Bool} (h : KeepsCourse z s) : KeepsCourse z (dropRequests s p) :=
  foldl (fun _ _ => finishRequest) h

theorem withdrawWait {q : TensorOp} (h : KeepsCourse z s) : KeepsCourse z (withdrawWait s q) := by
  unfold Machine.withdrawWait
  split
  · unfold countRigWait modBlock
    dsimp only
    split
    · exact h.modRegion.addStall
    · exact h.modRegion
  · exact h

theorem loseOps {p : TensorOp → Bool} (h : KeepsCourse z s) : KeepsCourse z (loseOps s p) :=
  have hd : KeepsCourse z (dropOps s p) := (foldl (fun _ _ => withdrawWait) h).other
  hd.dropRequests

theorem loseThreads {L : Nat} {p : Nat → Bool} (h : KeepsCourse z s) : KeepsCourse z (loseThreads s L p) :=
  sweepWakes (dropTakers (other h.loseOps))

theorem endGate {L ctx : Nat} (h : KeepsCourse z s) : KeepsCourse z (endGate s L ctx) := by
  unfold Machine.endGate
  split
  · exact h.modRegion.returnCredits
  · exact h

theorem dropWatches {L : Nat} (h : KeepsCourse z s) : KeepsCourse z (dropWatches s L) :=
  sweepWakes (foldl (fun _ _ => endGate) h.other)

end KeepsCourse

end Sys2Proof.Machine
end

section
/-! SUPPORT. The rails and the clocks of the board (R485 to R490): what a loss leaves, and the power-on sequence. -/

namespace Sys2Proof.Machine

open Sys2Proof

/-! ### What a loss of shared power leaves (R485, R486) -/

/-- What is kept of canonical data by address reads as before, and the rest reads zero. -/
theorem cellsRead_filter {p : Nat → Bool} {a : Nat} {l : List Host.Cell} : ∀ {lo : Nat}, cellsWf lo l = true →
    cellsRead (l.filter fun c => p c.1) a = if p a then cellsRead l a else 0 := by
  induction l with
  | nil => intro _ _; split <;> rfl
  | cons c r ih =>
    obtain ⟨b, v⟩ := c
    intro lo h
    simp only [cellsWf, Bool.and_eq_true, decide_eq_true_eq] at h
    obtain ⟨-, hr⟩ := h
    have hbelow (hab : a < b) : cellsRead (r.filter fun c => p c.1) a = 0 :=
      cellsRead_below (cellsWf_filter _ hr) (by omega)
    rw [List.filter_cons]
    by_cases hb : b = a
    · subst hb
      cases hp : p b with
      | true => simp [cellsRead]
      | false => simpa [hp, cellsRead] using cellsRead_below (cellsWf_filter (fun c => p c.1) hr) (Nat.lt_succ_self b)
    · by_cases hab : a < b
      · cases p b <;> simp [cellsRead, hb, hab, hbelow hab]
      · cases p b <;> simp [cellsRead, hb, hab, ih hr]

/-- Of memory only the host's is left. -/
theorem readByte_hostMemory {m : Memory} (h : m.wf = true) (a : Nat) :
    (hostMemory m).readByte a = if spaceOf a = 5 then m.readByte a else 0 := by
  have hread : (hostMemory m).readByte a = if (spaceOf a == 5) = true then cellsRead m.cells a else 0 :=
    cellsRead_filter (p := fun a => spaceOf a == 5) h
  rw [hread]
  simp only [beq_iff_eq]
  rfl

section Losses

variable {s : State}

theorem completes_vaonValid (n : Fin 8) (h : s.board.vaon = false) : Completes (.vaonValid n) s fun u =>
    u.part.device = n.val ∧ u.board.vaon = true ∧ u.clock = Clock.reset ∧ u.mem = s.mem ∧ u.flash = s.flash ∧
    u.contexts = s.contexts ∧ u.out = s.out ++ [.hotJoin] :=
  ⟨_, if_neg (by simp [h]), rfl, rfl, rfl, rfl, rfl, rfl, rfl⟩

theorem completes_sharedPgLoss (h : s.board.sharedPg = true) : Completes .sharedPgLoss s fun u =>
    u.board.sharedPg = false ∧ u.contexts = [] ∧ u.threads = [] ∧ u.requests = [] ∧ u.cmds = [] ∧
    u.clock.time = s.clock.time ∧ u.clock.bootCount = s.clock.bootCount ∧
    u.flash = { s.flash with pendingRetirements := [], retryAt := none } ∧ (∀ off, rawReg u off = regReset off) ∧
    ∀ a, s.mem.wf = true → u.mem.readByte a = if spaceOf a = 5 then s.mem.readByte a else 0 :=
  ⟨coreReset s, if_neg (by simp [h]), rfl, rfl, rfl, rfl, rfl, rfl, rfl, rfl, fun _ => rfl,
    fun a hwf => readByte_hostMemory hwf a⟩

theorem completes_vaonLoss (h : s.board.vaon = true) : Completes .vaonLoss s fun u =>
    u.board.vaon = false ∧ u.board.sharedPg = false ∧ u.clock = Clock.reset ∧ u.contexts = [] ∧
    u.flash = { s.flash with pendingRetirements := [], retryAt := none, lastLifeWrite := 0 } :=
  ⟨_, if_neg (by simp [h]), rfl, rfl, rfl, rfl, rfl⟩

end Losses

/-! ### Clocks (R490) -/

section Clocks

variable {s : State} {p : Nat}

theorem moveHalves_links (s : State) (p : Nat) : (moveHalves s p).links = s.links ∧ (moveHalves s p).mem = s.mem := by
  unfold moveHalves
  split <;> exact ⟨rfl, rfl⟩

/-- A link whose reference clock is gone: its port is down. -/
def clockless (s : State) (p : Nat) : State :=
  let s := modLink s p fun l => { l with refclk := false }
  if (linkOf s p).up then logFault (portGoesDown s p) 0x0A 0xFF p 0xFF 0xFF else portGoesDown s p

theorem clockless_links (s : State) (p : Nat) : (clockless s p).mem = s.mem ∧
    (linkOf (clockless s p) p).up = false ∧ (linkOf (clockless s p) p).refclk = false ∧
    ∀ q, q ≠ p → linkOf (clockless s p) q = linkOf s q := by
  have hdown : (portGoesDown (modLink s p fun l => { l with refclk := false }) p).mem = s.mem ∧
      (linkOf (portGoesDown (modLink s p fun l => { l with refclk := false }) p) p).up = false ∧
      (linkOf (portGoesDown (modLink s p fun l => { l with refclk := false }) p) p).refclk = false ∧
      ∀ q, q ≠ p → linkOf (portGoesDown (modLink s p fun l => { l with refclk := false }) p) q = linkOf s q := by
    unfold portGoesDown
    generalize ht : modLink (modLink s p _) p _ = t
    obtain ⟨hlinks, hmem⟩ := moveHalves_links t p
    have hlink (q : Nat) : linkOf (moveHalves t p) q = linkOf t q := by unfold linkOf; rw [hlinks]
    rw [hmem, hlink]
    subst ht
    refine ⟨rfl, by rw [linkOf_modLink], by rw [linkOf_modLink, linkOf_modLink], fun q hq => ?_⟩
    rw [hlink, linkOf_modLink_other hq, linkOf_modLink_other hq]
  unfold clockless
  dsimp only
  split
  · exact hdown
  · exact hdown

theorem completes_lrefclkLoss {die : Nat} (h : die < 4) : Completes (.lrefclkLoss die) s fun u => u.mem = s.mem ∧
    (∀ p, p = 2 * die ∨ p = 2 * die + 1 → (linkOf u p).up = false ∧ (linkOf u p).refclk = false) ∧
    ∀ p, p ≠ 2 * die → p ≠ 2 * die + 1 → linkOf u p = linkOf s p := by
  refine ⟨clockless (clockless s (2 * die)) (2 * die + 1), if_neg (by omega), ?_⟩
  obtain ⟨hmem0, hup0, hclk0, hother0⟩ := clockless_links s (2 * die)
  obtain ⟨hmem1, hup1, hclk1, hother1⟩ := clockless_links (clockless s (2 * die)) (2 * die + 1)
  refine ⟨hmem1.trans hmem0, ?_, fun p hp hq => (hother1 p hq).trans (hother0 p hp)⟩
  rintro p (rfl | rfl)
  · rw [hother1 _ (by omega)]
    exact ⟨hup0, hclk0⟩
  · exact ⟨hup1, hclk1⟩

theorem switchServing_keeps (s : State) (port : Nat) : (switchServing s port).ports = s.ports ∧ (switchServing s port).mem = s.mem := by
  unfold switchServing
  split <;> exact ⟨rfl, rfl⟩

theorem completes_prefclkLoss {port : Nat} (h : port < 2) (hmode : twoHosts s = false) : Completes (.prefclkLoss port) s fun u =>
    (portOf u port).refclk = false ∧ (portOf u port).linkUp = false ∧ (portOf u port).readyAt = none ∧ u.mem = s.mem := by
  let t := modPort s port fun x => { x with refclk := false, readyAt := none }
  have hexec : exec (.prefclkLoss port) s = if (portOf t port).linkUp then .next (portLost t port) else .next t :=
    if_neg (by omega)
  cases hup : (portOf t port).linkUp with
  | false =>
    refine ⟨t, by rw [hexec, hup]; rfl, ?_, hup, ?_, rfl⟩
    · exact congrArg PciePort.refclk portOf_modPort
    · exact congrArg PciePort.readyAt portOf_modPort
  | true =>
    let v := modPort t port fun x => { x with linkUp := false, speed := 0, width := 0 }
    have hlost : portLost t port = switchServing v port := if_neg (fun hm => Bool.false_ne_true (hmode.symm.trans hm))
    obtain ⟨hports, hmem⟩ := switchServing_keeps v port
    have hport : portOf (switchServing v port) port = portOf v port := by unfold portOf; rw [hports]
    refine ⟨switchServing v port, by rw [hexec, hup, ← hlost]; rfl, ?_⟩
    beta_reduce
    rw [hport, hmem]
    simp [v, t]

end Clocks

/-! ### The power-on sequence (R487) -/

/-- The Keels, the hold and the board are as they were. -/
structure KeepsQuorum (s u : State) : Prop where
  keels : u.keels = s.keels
  hold : u.hold = s.hold
  board : u.board = s.board

namespace KeepsQuorum

variable {z s u : State}

theorem refl (s : State) : KeepsQuorum s s := ⟨rfl, rfl, rfl⟩

/-- An update of other fields of the state. -/
theorem other (h : KeepsQuorum z s) (hk : u.keels = s.keels := by rfl) (hh : u.hold = s.hold := by rfl)
    (hb : u.board = s.board := by rfl) : KeepsQuorum z u := ⟨hk.trans h.keels, hh.trans h.hold, hb.trans h.board⟩

theorem ite {a b : State} {c : Prop} [Decidable c] (ha : KeepsQuorum z a) (hb : KeepsQuorum z b) :
    KeepsQuorum z (if c then a else b) := by
  split
  · exact ha
  · exact hb

theorem foldl {α : Type} {f : State → α → State} {l : List α} (hf : ∀ s a, KeepsQuorum z s → KeepsQuorum z (f s a))
    (h : KeepsQuorum z s) : KeepsQuorum z (l.foldl f s) := foldl_keeps (P := KeepsQuorum z) hf l h

theorem checkStored (h : KeepsQuorum z s) : KeepsQuorum z (checkStored s) := by
  unfold Machine.checkStored
  split
  · exact h
  · split
    · exact h.other
    · exact ite h.other h.other

theorem restoreMap (h : KeepsQuorum z s) : KeepsQuorum z (restoreMap s) := by
  unfold Machine.restoreMap
  exact foldl (fun _ _ hu => hu.other) h

theorem restoreRetirement {r : Retirement} (h : KeepsQuorum z s) : KeepsQuorum z (restoreRetirement s r) :=
  ite h.other (ite h.other (ite h.other h))

theorem raiseRails (h : KeepsQuorum z s) : KeepsQuorum z (raiseRails s) := foldl (fun _ _ hu => hu.other) h

theorem markVacant (h : KeepsQuorum z s) : KeepsQuorum z (markVacant s) := foldl (fun _ _ hu => ite hu.other hu) h

theorem mapObject {o : PoolObject} (h : KeepsQuorum z s) : KeepsQuorum z (mapObject s o) := foldl (fun _ _ hu => hu.other) h

theorem orderSlots (h : KeepsQuorum z s) : KeepsQuorum z (orderSlots s) := by
  unfold Machine.orderSlots
  split
  · exact ite (foldl (fun _ _ => mapObject) h.other) h
  · exact h

theorem storeMap (h : KeepsQuorum z s) : KeepsQuorum z (storeMap s) := by
  unfold Machine.storeMap
  obtain ⟨a, b, he⟩ := storeRecord_eq
    { s with flash := { s.flash with regionMap := some ((List.range 18).map fun p => (physOf s p).role) } }
  exact he ▸ h.other

theorem loneMaster (h : KeepsQuorum z s) : KeepsQuorum z (loneMaster s) := ite h (ite h.other h.other)

theorem trainPort {port : Nat} (h : KeepsQuorum z s) : KeepsQuorum z (trainPort s port) := by
  unfold Machine.trainPort
  dsimp only
  split
  · exact h
  · exact ite h h.other

end KeepsQuorum

section PowerOn

variable {s : State}

/-- The sequence goes on without a failed region: the quorum stays as it was, and the device has started. -/
theorem powerOn_quorum (s : State) : (powerOn s []).keels = s.keels ∧ (powerOn s []).hold = s.hold ∧
    (powerOn s []).board.sharedPg = s.board.sharedPg ∧ (powerOn s []).board.poweredAt = s.board.poweredAt ∧
    (powerOn s []).board.started = true := by
  have hstored : KeepsQuorum s (if s.flash.present then checkStored s else s) := (KeepsQuorum.refl s).checkStored.ite (.refl s)
  have hmap := hstored.restoreMap
  unfold powerOn
  dsimp only
  generalize restoreMap (if s.flash.present then checkStored s else s) = t at hmap
  have hlisted : KeepsQuorum s (if t.flash.present then t.flash.retirements.foldl restoreRetirement t else t) :=
    KeepsQuorum.ite (hmap.foldl fun _ _ => KeepsQuorum.restoreRetirement) hmap
  have hdone := hlisted.raiseRails.markVacant.orderSlots.storeMap.loneMaster
  rw [List.foldl_nil]
  generalize loneMaster _ = v at hdone
  exact ⟨hdone.keels, hdone.hold, congrArg Board.sharedPg hdone.board, congrArg Board.poweredAt hdone.board, rfl⟩

/-- Keels that are recorded failed leave the voters as they stand. -/
theorem foldl_failKeel (l : List Nat) : ∀ s : State, ∃ x f g n,
    l.foldl (fun s k => failKeel s k 0) s = { s with keels := { s.keels with failed := x }, flash := f, faultLog := g, logTotal := n } := by
  induction l with
  | nil => exact fun s => ⟨s.keels.failed, s.flash, s.faultLog, s.logTotal, rfl⟩
  | cons k r ih =>
    intro s
    obtain ⟨f, g, n, he, -⟩ := failKeel_eq s k 0
    obtain ⟨x', f', g', n', he'⟩ := ih (failKeel s k 0)
    exact ⟨x', f', g', n', by rw [List.foldl_cons, he', he]⟩

/-- The quorum forms of the first three well Keels, or not at all. -/
theorem formQuorum_eq (s : State) (fail : List Nat) : ∃ x b f g n c, formQuorum s fail = { s with
    keels := { Keels.reset with voting := (healthyKeels s fail).take 3, standby := (healthyKeels s fail)[3]?, failed := x,
                                formed := decide (3 ≤ (healthyKeels s fail).length), ballot := b }
    flash := f, faultLog := g, logTotal := n, freeCounter := c } := by
  unfold formQuorum
  dsimp only
  generalize (fail.filter fun k => decide (k < 4) && !s.flash.failedKeels.contains k) = gone
  obtain ⟨x, f, g, n, he⟩ := foldl_failKeel gone { s with keels := { Keels.reset with
    voting := (healthyKeels s fail).take 3, standby := (healthyKeels s fail)[3]?, failed := s.flash.failedKeels
    formed := decide (3 ≤ (healthyKeels s fail).length) } }
  rw [he]
  exact ⟨_, _, _, _, _, _, rfl⟩

/-- The state in which the quorum forms at a power-on. -/
def powered (s : State) : State :=
  { s with
    board := { s.board with sharedPg := true, poweredAt := some s.clock.bootCount }
    flash := readRecord (if s.flash.present then s.flash else { s.flash with boardSerial := 0 })
    life := { s.life with powerCycles := s.life.powerCycles + 1 }
    power := { s.power with energyAt := s.clock.bootCount } }

/-- A flash that does not answer has no record, whatever else it holds. -/
theorem powered_failedKeels : (powered s).flash.failedKeels = (readRecord s.flash).failedKeels := by
  unfold powered
  dsimp only
  split
  · rfl
  · next h =>
    unfold readRecord
    dsimp only
    rw [if_neg h, if_neg h]

theorem enterHold_keeps (s : State) : (enterHold s).keels = s.keels ∧ (enterHold s).hold = true ∧ (enterHold s).board = s.board := by
  cases hh : s.hold with
  | true =>
    rw [show enterHold s = s from if_pos hh]
    exact ⟨rfl, hh, rfl⟩
  | false =>
    obtain ⟨r, n, o, f, l, t, he⟩ := enterHold_eq hh
    rw [he]
    exact ⟨rfl, rfl, rfl⟩

theorem startInHold_keeps (s : State) : (startInHold s).keels = s.keels ∧ (startInHold s).hold = true ∧
    (startInHold s).board = { s.board with started := true } := enterHold_keeps _

theorem completes_powerGoodRise (fail : List Nat) (hv : s.board.vaon = true) (hpg : s.board.sharedPg = false) :
    let well := (List.range 4).filter fun k => !(readRecord s.flash).failedKeels.contains k && !fail.contains k
    Completes (.powerGoodRise fail []) s fun u => u.board.sharedPg = true ∧ u.board.started = true ∧
      u.board.poweredAt = some s.clock.bootCount ∧
      (3 ≤ well.length → u.keels.voting = well.take 3 ∧ u.keels.standby = well[3]? ∧ u.keels.formed = true ∧ u.hold = s.hold) ∧
      (well.length < 3 → u.keels.formed = false ∧ u.hold = true) := by
  intro well
  have hwell : healthyKeels (powered s) fail = well := by
    unfold healthyKeels
    rw [powered_failedKeels]
  obtain ⟨x, b, f, g, n, c, hquorum⟩ := formQuorum_eq (powered s) fail
  rw [hwell] at hquorum
  generalize hq : formQuorum (powered s) fail = q at hquorum
  have hports : KeepsQuorum q (trainPort (trainPort q 0) 1) := (KeepsQuorum.refl q).trainPort.trainPort
  generalize ht : trainPort (trainPort q 0) 1 = t at hports
  have hexec : exec (.powerGoodRise fail []) s = if t.keels.formed then .next (powerOn t []) else .next (startInHold t) := by
    rw [← ht, ← hq]
    exact if_neg (by simp [hv, hpg])
  have hkeels : t.keels = q.keels := hports.keels
  have hformed : t.keels.formed = decide (3 ≤ well.length) := by rw [hkeels, hquorum]
  have hboard : t.board = (powered s).board := by rw [hports.board, hquorum]
  have hhold : t.hold = s.hold := by rw [hports.hold, hquorum]; rfl
  by_cases hmany : 3 ≤ well.length
  · obtain ⟨hk, hh, hs, hp, hstarted⟩ := powerOn_quorum t
    refine ⟨powerOn t [], by rw [hexec, if_pos (by rw [hformed]; exact decide_eq_true hmany)], ?_⟩
    refine ⟨by rw [hs, hboard]; rfl, hstarted, by rw [hp, hboard]; rfl, fun _ => ?_, fun hfew => absurd hmany (by omega)⟩
    rw [hk, hh, hformed, hkeels, hquorum]
    exact ⟨rfl, rfl, decide_eq_true hmany, hhold⟩
  · obtain ⟨hk, hh, hb⟩ := startInHold_keeps t
    refine ⟨startInHold t, by rw [hexec, if_neg (by rw [hformed]; simpa using hmany)], ?_⟩
    refine ⟨by rw [hb, hboard]; rfl, by rw [hb], by rw [hb, hboard]; rfl, fun h => absurd h hmany, fun _ => ?_⟩
    rw [hk, hformed]
    exact ⟨decide_eq_false hmany, hh⟩

end PowerOn

end Sys2Proof.Machine
end

section
/-! SUPPORT. Exchanges of regions that begin and change: a region that is fenced or fails, and a standby that is lost (R36, R37, R443,
R444, R484). -/

namespace Sys2Proof.Machine

open Sys2Proof

namespace KeepsCourse

variable {z s u : State}

theorem endTransfer {x : XferUse} (h : KeepsCourse z s) : KeepsCourse z (endTransfer s x) := h.other

theorem askTransfer {x : XferUse} {c into : Option Nat} {hops : List (Hop × Nat)} (h : KeepsCourse z s) :
    KeepsCourse z (askTransfer s x c into hops) := by
  unfold Machine.askTransfer
  split
  · exact ite h h.other
  · exact h.other

theorem askCopy {L p : Nat} {e : Option Nat} (h : KeepsCourse z s) : KeepsCourse z (askCopy s L p e) := by
  unfold Machine.askCopy
  dsimp only
  split
  · exact h.endTransfer.askTransfer
  · exact h.endTransfer

theorem logFault {code p v c d : Nat} (h : KeepsCourse z s) : KeepsCourse z (logFault s code p v c d) := h.other

end KeepsCourse

/-! ### The region that an exchange is set for -/

section SetExchange

variable {s : State} {L p : Nat}

theorem exchange_modRegion {x : Option RegionExchange} :
    (regionOf (modRegion s L fun R => { R with exchange := x }) L).exchange = x := by rw [regionOf_modRegion]

theorem exchange_modRegion_other {x : Option RegionExchange} {M : Nat} (h : M ≠ L) :
    (regionOf (modRegion s L fun R => { R with exchange := x }) M).exchange = (regionOf s M).exchange := by
  rw [regionOf_modRegion_other h]

/-- The slot of the standby that is chosen, if there is one, is emptied (R358). -/
def emptyChosen (s : State) (e : Option Nat) : State :=
  match e with
  | some q => emptyStandby s q
  | none => s

theorem KeepsCourse.emptyChosen {z : State} {e : Option Nat} (h : KeepsCourse z s) : KeepsCourse z (emptyChosen s e) := by
  unfold Machine.emptyChosen
  split
  · exact h.emptyStandby
  · exact h

/-- The exchange that a region which is fenced has (R37). -/
def fenced (s : State) (p : Nat) (kind : ExchangeKind) : RegionExchange :=
  { kind := kind, leaving := p, entering := freeStandby s, fencedAt := now s, copied := (freeStandby s).isNone
    boundary := if (freeStandby s).isSome then none else some (boundaryAfter (now s)) }

theorem fence_eq (kind : ExchangeKind) : fence L p kind s = askCopy (modRegion (emptyChosen s (freeStandby s)) L fun R =>
    { R with exchange := some { fenced s p kind with
        fencedAt := now (emptyChosen s (freeStandby s))
        boundary := if (freeStandby s).isSome then none else some (boundaryAfter (now (emptyChosen s (freeStandby s)))) } })
    L p (freeStandby s) := by
  unfold fence fenced
  cases freeStandby s <;> rfl

/-- A region that is fenced has its exchange, and no physical region has moved (R37). -/
theorem fence_spec (L p : Nat) (kind : ExchangeKind) (s : State) :
    (regionOf (fence L p kind s) L).exchange = some (fenced s p kind) ∧
    ∀ q, (physOf (fence L p kind s) q).standing = (physOf s q).standing := by
  have hempty : KeepsCourse s (emptyChosen s (freeStandby s)) := (KeepsCourse.refl s).emptyChosen
  have hnow : now (emptyChosen s (freeStandby s)) = now s := congrArg Clock.time hempty.clock
  rw [fence_eq, hnow]
  have hcopy := (KeepsCourse.refl (modRegion (emptyChosen s (freeStandby s)) L fun R =>
    { R with exchange := some (fenced s p kind) })).askCopy (L := L) (p := p) (e := freeStandby s)
  exact ⟨(hcopy.exchange L).trans exchange_modRegion, fun q => (hcopy.standing q).trans (hempty.standing q)⟩

end SetExchange

/-! ### A standby that is lost (R444, R484) -/

section LoseStandby

variable {s : State} {L M p : Nat} {x : RegionExchange}

/-- The exchange of a region that waits for a standby that is lost chooses another. -/
def enterOther (p : Nat) (s : State) (L : Nat) : State :=
  match (regionOf s L).exchange with
  | some x =>
    if x.entering ≠ some p then s
    else
      let e := freeStandby s
      let s := emptyChosen s e
      let s := modRegion s L fun R => { R with exchange := some (x.enterOther e (now s)) }
      if x.kind = .failure then s else askCopy s L x.leaving e
  | none => s

theorem enterOthers_eq : enterOthers s p = (s.logs.map (·.1)).foldl (enterOther p) s := rfl

/-- A region whose exchange does not wait for the standby that is lost stays as it is. -/
theorem enterOther_of_ne (h : ∀ x, (regionOf s L).exchange = some x → x.entering ≠ some p) : enterOther p s L = s := by
  unfold enterOther
  split
  · next x hx => exact if_pos (h x hx)
  · rfl

/-- A standby that fails is not chosen. -/
theorem freeStandby_ne (h : (physOf s p).failing = true) : freeStandby s ≠ some p := by
  intro hp
  have hfree := List.find?_some hp
  unfold standbyFree at hfree
  simp [h] at hfree

/-- What an exchange keeps when its standby is lost: what it is for, and it waits for that standby no more. -/
def EntersAnew (p : Nat) (x y : RegionExchange) : Prop := y.kind = x.kind ∧ y.leaving = x.leaving ∧ y.entering ≠ some p

theorem entersAnew_enterOther {e : Option Nat} {t : Nat} (h : e ≠ some p) : EntersAnew p x (x.enterOther e t) := by
  unfold RegionExchange.enterOther
  split <;> exact ⟨rfl, rfl, h⟩

/-- The exchange of the region waits for another standby, or for none. -/
theorem enterOther_entersAnew (hf : (physOf s p).failing = true) (hx : (regionOf s L).exchange = some x)
    (he : x.entering = some p) :
    (∃ y, (regionOf (enterOther p s L) L).exchange = some y ∧ EntersAnew p x y) ∧
    (∀ M, M ≠ L → (regionOf (enterOther p s L) M).exchange = (regionOf s M).exchange) ∧
    ∀ q, (physOf (enterOther p s L) q).standing = (physOf s q).standing := by
  have hempty : KeepsCourse s (emptyChosen s (freeStandby s)) := (KeepsCourse.refl s).emptyChosen
  unfold enterOther
  rw [hx]
  dsimp only
  rw [if_neg (fun h => h he)]
  generalize emptyChosen s (freeStandby s) = v at hempty
  let w := modRegion v L fun R => { R with exchange := some (x.enterOther (freeStandby s) (now v)) }
  have hset : KeepsCourse w (if x.kind = .failure then w else askCopy w L x.leaving (freeStandby s)) :=
    (KeepsCourse.refl w).ite (KeepsCourse.refl w).askCopy
  refine ⟨⟨_, (hset.exchange L).trans exchange_modRegion, entersAnew_enterOther (freeStandby_ne hf)⟩, fun M hM => ?_, fun q => ?_⟩
  · exact (hset.exchange M).trans ((exchange_modRegion_other hM).trans (hempty.exchange M))
  · exact (hset.standing q).trans (hempty.standing q)

/-- A region that is gone through stays as it is, or its exchange waits for the standby. -/
theorem enterOther_cases :
    enterOther p s M = s ∨ ∃ x, (regionOf s M).exchange = some x ∧ x.entering = some p := by
  by_cases h : ∃ x, (regionOf s M).exchange = some x ∧ x.entering = some p
  · exact .inr h
  · exact .inl (enterOther_of_ne fun x hx he => h ⟨x, hx, he⟩)

theorem enterOther_standing (hf : (physOf s p).failing = true) (q : Nat) :
    (physOf (enterOther p s M) q).standing = (physOf s q).standing := by
  rcases enterOther_cases (s := s) (p := p) (M := M) with he | ⟨x, hx, he⟩
  · rw [he]
  · obtain ⟨-, -, hstanding⟩ := enterOther_entersAnew hf hx he
    exact hstanding q

/-- An exchange that does not wait for the standby, or is another region's, stays. -/
theorem enterOther_exchange (hf : (physOf s p).failing = true) (hx : (regionOf s L).exchange = some x)
    (hother : L = M → x.entering ≠ some p) : (regionOf (enterOther p s M) L).exchange = some x := by
  rcases enterOther_cases (s := s) (p := p) (M := M) with he | ⟨y, hy, he⟩
  · rw [he, hx]
  · have hLM : L ≠ M := by
      rintro rfl
      exact hother rfl (Option.some.inj (hx.symm.trans hy) ▸ he)
    obtain ⟨-, hothers, -⟩ := enterOther_entersAnew hf hy he
    rw [hothers L hLM, hx]

theorem foldl_enterOther_standing (l : List Nat) : ∀ {s : State}, (physOf s p).failing = true → ∀ q,
    (physOf (l.foldl (enterOther p) s) q).standing = (physOf s q).standing := by
  induction l with
  | nil => exact fun _ _ => rfl
  | cons M r ih =>
    intro s hf q
    have hstep := enterOther_standing (M := M) hf
    have hf' : (physOf (enterOther p s M) p).failing = true := (PhysRegion.standing_failing (hstep p)).trans hf
    exact (ih hf' q).trans (hstep q)

/-- The exchange of a region that is gone through waits for the standby no more. -/
theorem foldl_enterOther_entersAnew (l : List Nat) : ∀ {s : State} {x : RegionExchange}, (physOf s p).failing = true →
    (regionOf s L).exchange = some x → (x.entering = some p → L ∈ l) →
    ∃ y, (regionOf (l.foldl (enterOther p) s) L).exchange = some y ∧ EntersAnew p x y := by
  induction l with
  | nil => exact fun _ hx hin => ⟨_, hx, rfl, rfl, fun he => List.not_mem_nil (hin he)⟩
  | cons M r ih =>
    intro s x hf hx hin
    have hf' : (physOf (enterOther p s M) p).failing = true :=
      (PhysRegion.standing_failing (enterOther_standing (M := M) hf p)).trans hf
    by_cases hme : L = M ∧ x.entering = some p
    · obtain ⟨rfl, he⟩ := hme
      obtain ⟨⟨y, hy, hkind, hleaving, hne⟩, -, -⟩ := enterOther_entersAnew hf hx he
      obtain ⟨w, hw, hkind', hleaving', hne'⟩ := ih hf' hy fun h => absurd h hne
      exact ⟨w, hw, hkind'.trans hkind, hleaving'.trans hleaving, hne'⟩
    · exact ih hf' (enterOther_exchange hf hx fun hLM he => hme ⟨hLM, he⟩)
        fun he => (List.mem_cons.mp (hin he)).resolve_left fun hLM => hme ⟨hLM, he⟩

/-- No exchange waits for the standby: nothing changes. -/
theorem enterOthers_of_none (h : ∀ L x, (regionOf s L).exchange = some x → x.entering ≠ some p) : enterOthers s p = s := by
  rw [enterOthers_eq]
  induction s.logs.map (·.1) with
  | nil => rfl
  | cons M r ih => rw [List.foldl_cons, enterOther_of_ne (h M), ih]

/-- A region with an exchange is listed. -/
theorem mem_logs_of_exchange (h : (regionOf s L).exchange = some x) : ∃ R, (L, R) ∈ s.logs ∧ R.exchange = some x := by
  unfold regionOf at h
  generalize s.logs = l at h ⊢
  induction l with
  | nil => cases h
  | cons e r ih =>
    obtain ⟨M, R⟩ := e
    by_cases hM : M = L
    · subst hM
      exact ⟨R, List.mem_cons_self, by simpa [mget, mget?] using h⟩
    · obtain ⟨R', hR', hx⟩ := ih (by simpa [mget, mget?, hM] using h)
      exact ⟨R', List.mem_cons_of_mem _ hR', hx⟩

theorem entering_ne_of_enters (h : enters s p = false) (hx : (regionOf s L).exchange = some x) : x.entering ≠ some p := by
  obtain ⟨R, hR, hRx⟩ := mem_logs_of_exchange hx
  have hnone := List.any_eq_false.mp h (L, R) hR
  simpa [hRx] using hnone

end LoseStandby

end Sys2Proof.Machine
end

section
/-! SUPPORT. A region that fails, and core power that is lost (R443, R484). -/

namespace Sys2Proof.Machine

open Sys2Proof

section Failure

variable {s : State} {L p : Nat}

theorem KeepsCourse.tellContexts {z : State} (h : KeepsCourse z s) : KeepsCourse z (tellContexts s L) :=
  foldl (fun _ _ => ctxEvent) h

theorem KeepsCourse.markContexts {z : State} (h : KeepsCourse z s) : KeepsCourse z (markContexts s L) :=
  foldl (fun _ _ hu => hu.other) h

theorem failed_exchange (R : LogRegion) : R.failed.exchange = R.exchange := rfl

/-- A failed region without reductions loses its work, and keeps its exchange. -/
theorem endRegionWork_course (hj : (regionOf s L).seqr.jobs = []) : KeepsCourse s (endRegionWork s L) := by
  have hends : KeepsCourse s (endUnitTransfers (dropUnitRequests (loseOps s fun q => q.region == L) L) L) :=
    ((KeepsCourse.refl s).loseOps.dropRequests).other
  unfold endRegionWork
  dsimp only
  rw [hj, List.map_nil, List.foldl_nil]
  refine KeepsCourse.foldl (fun _ _ => KeepsCourse.releaseVersions) ?_
  have hwork := hends.loseThreads (L := L) (p := fun _ => true) |>.dropWatches (L := L)
  exact hwork.setRegion (failed_exchange _) ((hwork.jobs L).trans hj).symm

/-- The exchange of a region that fails without another one (R443). -/
def failed (s : State) (p : Nat) (e : Option Nat) : RegionExchange :=
  { kind := .failure, leaving := p, entering := e, fencedAt := now s, copied := true, boundary := some (boundaryAt (now s + 500000)) }

/-- The copy of a migration that the failure overtakes ends. -/
def copyEnded (s : State) (L : Nat) : State := endTransfer s (.migration L)

theorem failRegion_eq (h : (regionOf s L).exchange = none) : failRegion L p s =
    endRegionWork (markContexts (tellContexts (logFault
      (modRegion (emptyChosen (copyEnded s L) (freeStandby (copyEnded s L))) L fun R =>
        { R with exchange := some (failed (emptyChosen (copyEnded s L) (freeStandby (copyEnded s L))) p
          (freeStandby (copyEnded s L))) }) 0x04 p 0xFF 0xFF ((freeStandby (copyEnded s L)).getD 0xFF)) L) L) L := by
  have hnone : (regionOf (endTransfer s (.migration L)) L).exchange = none := h
  unfold failRegion copyEnded
  dsimp only
  rw [hnone]
  cases freeStandby (endTransfer s (.migration L)) <;> rfl

/-- A region that fails is fenced until the first boundary at least 500,000 ns later, and no physical region moves. -/
theorem failRegion_spec (hx : (regionOf s L).exchange = none) (hj : (regionOf s L).seqr.jobs = []) :
    (regionOf (failRegion L p s) L).exchange = some (failed s p (freeStandby (copyEnded s L))) ∧
    ∀ q, (physOf (failRegion L p s) q).standing = (physOf s q).standing := by
  have hempty : KeepsCourse s (emptyChosen (copyEnded s L) (freeStandby (copyEnded s L))) :=
    (KeepsCourse.refl s).endTransfer.emptyChosen
  rw [failRegion_eq hx]
  generalize emptyChosen (copyEnded s L) (freeStandby (copyEnded s L)) = v at hempty
  have hnow : now v = now s := congrArg Clock.time hempty.clock
  generalize hw : (modRegion v L fun R => { R with exchange := some (failed v p (freeStandby (copyEnded s L))) }) = w
  have hfaulted : KeepsCourse w (markContexts (tellContexts (logFault w 0x04 p 0xFF 0xFF
      ((freeStandby (copyEnded s L)).getD 0xFF)) L) L) := (KeepsCourse.refl w).logFault.tellContexts.markContexts
  have hjobs : (regionOf w L).seqr.jobs = [] := by
    rw [← hw, regionOf_modRegion]
    exact (hempty.jobs L).trans hj
  have hdone := hfaulted.trans (endRegionWork_course (L := L) ((hfaulted.jobs L).trans hjobs))
  constructor
  · rw [hdone.exchange L, ← hw, exchange_modRegion]
    unfold failed
    rw [hnow]
  · intro q
    rw [hdone.standing q, ← hw]
    exact hempty.standing q

end Failure

section CorePower

variable {s : State} {L p k : Nat}

/-- A physical region whose core power is gone. -/
def unpowered (s : State) (p : Nat) : State := modPhys s p fun y => { y with corePg := false }

theorem exec_corePgLoss_active (hen : (physOf s p).coreEn = true) (hpg : (physOf s p).corePg = true)
    (hr : (physOf s p).role = .active L) (hx : (regionOf s L).exchange = none) (hv : (regionOf s L).vacant = false) :
    exec (.corePgLoss p) s = .next (quorumAct (unpowered s p) (failRegion L p)) := by
  have hmay : mayFail (unpowered s p) L = true := by
    have hregion : regionOf (unpowered s p) L = regionOf s L := rfl
    unfold mayFail
    rw [hregion, hv, hx]
    rfl
  change execCorePgLoss p s = _
  unfold execCorePgLoss
  dsimp only
  rw [if_neg (by simp [hen, hpg]), hr]
  exact if_pos hmay

/-- The quorum can't act: the region is as it was, but without power. -/
theorem completes_corePgLoss_held (hen : (physOf s p).coreEn = true) (hpg : (physOf s p).corePg = true)
    (hr : (physOf s p).role = .active L) (hx : (regionOf s L).exchange = none) (hv : (regionOf s L).vacant = false)
    (hq : quorumActs s = false) : Completes (.corePgLoss p) s fun u => (physOf u p).corePg = false ∧ u.logs = s.logs := by
  have hquorum : quorumActs (unpowered s p) = false := hq
  refine ⟨unpowered s p, ?_, congrArg PhysRegion.corePg physOf_modPhys, rfl⟩
  rw [exec_corePgLoss_active hen hpg hr hx hv]
  exact congrArg _ (if_pos (by simp [hquorum]))

/-- R443: the region fails. -/
theorem completes_corePgLoss_active (hen : (physOf s p).coreEn = true) (hpg : (physOf s p).corePg = true)
    (hr : (physOf s p).role = .active L) (hx : (regionOf s L).exchange = none) (hv : (regionOf s L).vacant = false)
    (hq : quorumActs s = true) (ha : quorumAgrees s s.keels.ballot = true) (hj : (seqOf s L).jobs = []) :
    Completes (.corePgLoss p) s fun u => (physOf u p).corePg = false ∧
      ∃ x, (regionOf u L).exchange = some x ∧ x.kind = .failure ∧ x.leaving = p ∧
        x.boundary = some (boundaryAt (now s + 500000)) := by
  have hquorum : quorumActs (unpowered s p) = true := hq
  have hagrees : quorumAgrees (unpowered s p) (unpowered s p).keels.ballot = true := ha
  have hact : quorumAct (unpowered s p) (failRegion L p) = failRegion L p (newBallot (unpowered s p)) := by
    unfold quorumAct
    rw [hquorum, hagrees]
    rfl
  obtain ⟨hexchange, hstanding⟩ := failRegion_spec (s := newBallot (unpowered s p)) (L := L) (p := p) hx hj
  refine ⟨_, (exec_corePgLoss_active hen hpg hr hx hv).trans (congrArg _ hact), ?_, _, hexchange, rfl, rfl, rfl⟩
  have hdown : (physOf (unpowered s p) p).corePg = false := congrArg PhysRegion.corePg physOf_modPhys
  exact (PhysRegion.standing_corePg (hstanding p)).trans hdown

/-! ### The standby (R484) -/

/-- An object of the slot maps its backing from the next boundary; a held one is told of. -/
def backObject (s : State) (o : PoolObject) : State :=
  let s := modObject s o.handle fun x => { x with evicting := true }
  match o.windows with
  | (c, w) :: _ => if o.hold = 0 then s else ctxEvent s c 5 w
  | [] => s

theorem backObject_keeps {z : State} {o : PoolObject} (hc : KeepsCourse z s) (hm : KeepsPlaces z s) :
    KeepsCourse z (backObject s o) ∧ KeepsPlaces z (backObject s o) := by
  have hobject : KeepsPlaces z (modObject s o.handle fun x => { x with evicting := true }) := hm.other rfl rfl rfl rfl rfl rfl
  unfold backObject
  dsimp only
  split
  · exact ⟨.ite hc.modObject hc.modObject.ctxEvent, .ite hobject hobject.postEvent⟩
  · exact ⟨hc.modObject, hobject⟩

/-- The objects of a slot. -/
def homedIn (s : State) (k : Nat) : List PoolObject := s.objects.filter fun o => match o.home with
  | some h => h.1 == k
  | none => false

/-- The standby is without power and about to leave, its slot's objects told of. -/
def standbyDown (s : State) (p k : Nat) : State :=
  logFault (modPhys ((homedIn s k).foldl backObject s) p fun x => { x with failing := true, corePg := false }) 0x04 p 0xFF 0xFF 0xFF

theorem standbyDown_spec (hr : (physOf s p).role = .standby k) : (physOf (standbyDown s p k) p).role = .standby k ∧
    (physOf (standbyDown s p k) p).corePg = false ∧ (physOf (standbyDown s p k) p).failing = true ∧
    (∀ L, (regionOf (standbyDown s p k) L).exchange = (regionOf s L).exchange) ∧ (standbyDown s p k).mem = s.mem := by
  obtain ⟨hcourse, hplaces⟩ := foldl_keeps (P := fun u => KeepsCourse s u ∧ KeepsPlaces s u)
    (fun _ _ h => backObject_keeps h.1 h.2) (homedIn s k) ⟨.refl s, .refl s⟩
  have hrole := (PhysRegion.standing_role (hcourse.standing p)).trans hr
  have hphys : physOf (standbyDown s p k) p =
    { physOf ((homedIn s k).foldl backObject s) p with failing := true, corePg := false } := by
    unfold standbyDown
    rw [logFault_physOf, physOf_modPhys]
  rw [hphys]
  exact ⟨hrole, rfl, rfl, hcourse.exchange, hplaces.mem⟩

/-- R444, R484: the standby leaves, and the exchange that waits for it chooses another. -/
theorem completes_corePgLoss_standby (hen : (physOf s p).coreEn = true) (hpg : (physOf s p).corePg = true)
    (hr : (physOf s p).role = .standby k) : Completes (.corePgLoss p) s fun u =>
      (physOf u p).corePg = false ∧ (physOf u p).failing = true ∧ (physOf u p).role = .standby k ∧
      (enters s p = false → u.mem = s.mem) ∧
      ∀ L x, (regionOf s L).exchange = some x → x.entering = some p →
        ∃ y, (regionOf u L).exchange = some y ∧ y.kind = x.kind ∧ y.leaving = x.leaving ∧ y.entering ≠ some p := by
  obtain ⟨hrole, hdown, hfailing, hexchange, hmem⟩ := standbyDown_spec hr
  have hexec : exec (.corePgLoss p) s = .next (enterOthers (standbyDown s p k) p) := by
    change execCorePgLoss p s = _
    unfold execCorePgLoss
    dsimp only
    rw [if_neg (by simp [hen, hpg]), hr]
    rfl
  have hstanding : (physOf (enterOthers (standbyDown s p k) p) p).standing = (physOf (standbyDown s p k) p).standing := by
    rw [enterOthers_eq]
    exact foldl_enterOther_standing _ hfailing p
  refine ⟨_, hexec, (PhysRegion.standing_corePg hstanding).trans hdown, (PhysRegion.standing_failing hstanding).trans hfailing,
    (PhysRegion.standing_role hstanding).trans hrole, fun hnone => ?_, fun L x hx he => ?_⟩
  · rw [enterOthers_of_none fun L x hx => entering_ne_of_enters hnone ((hexchange L).symm.trans hx), hmem]
  · have hx' := (hexchange L).trans hx
    obtain ⟨R, hR, -⟩ := mem_logs_of_exchange hx'
    rw [enterOthers_eq]
    exact foldl_enterOther_entersAnew _ hfailing hx' fun _ => List.mem_map_of_mem hR

end CorePower

end Sys2Proof.Machine
end

section
open Sys2Proof Sys2Proof.Machine

/-- Settles O56, clause by clause: a Keel that the flash records as failed is not well (log entry 139), and what still waits to be written
to the flash is lost (log entry 163). -/
theorem railsAndClocks : Obligations.RailsAndClocks := by
  intro s
  refine ⟨completes_vaonValid, completes_sharedPgLoss, completes_vaonLoss, completes_powerGoodRise, fun p hen hpg => ⟨?_, ?_⟩,
    fun die => completes_lrefclkLoss, fun port => completes_prefclkLoss⟩
  · exact fun L hr hx hv => ⟨completes_corePgLoss_held hen hpg hr hx hv, completes_corePgLoss_active hen hpg hr hx hv⟩
  · exact fun k => completes_corePgLoss_standby hen hpg

end

section
/-! SUPPORT. SERVICE, CHECKPOINT and RESTORE (R451 to R458): the region that a service fences, what a checkpoint leaves alone, and
what a restored context takes over. -/

namespace Sys2Proof.Machine

open Sys2Proof

/-! ### SERVICE (R451, R452) -/

section Service

variable {s : State} {id L q : Nat} {c : Cmd} {i : Instr}

/-- A physical region that a SERVICE command has taken, to be worked on. -/
def taken (s : State) (c : Cmd) : State :=
  modPhys (setCmd s { c with phase := 1 }) (c.field 9 1) fun x => { x with service := some (c.field 8 1, c.id) }

theorem taken_physOf : physOf (taken s c) (c.field 9 1) = { physOf s (c.field 9 1) with service := some (c.field 8 1, c.id) } := by
  unfold taken
  rw [physOf_modPhys, setCmd_physOf]

/-- A withdrawal on which the quorum agrees fences the region. -/
theorem withdraw_agreed {p : Nat} {kind : ExchangeKind} (hp : physOfLogical s L = some p) (hx : (regionOf s L).exchange = none)
    (hv : (regionOf s L).vacant = false) (hq : quorumActs s = true) (ha : quorumAgrees s s.keels.ballot = true) :
    withdraw s L kind = fence L p kind (newBallot s) := by
  unfold withdraw quorumAct
  rw [hp, hq, ha]
  dsimp only
  rw [if_neg (by simp [hx, hv])]
  rfl

/-- A SERVICE command has been accepted, and the region that it names is in no service. -/
structure Serves (s : State) (id : Nat) (c : Cmd) (i : Instr) : Prop where
  atWork : AtWork s id 0x10 c
  idle : (physOf s (c.field 9 1)).service = none
  starts : ∃ f, exec i s = atCmd s id 0x10 f ∧ f c = startService s c (c.field 8 1) (c.field 9 1)

theorem serviceCmd_starts (hp : c.field 9 1 < 18) (h0 : c.phase = 0) :
    serviceCmd s (c.field 8 1) c = startService s c (c.field 8 1) (c.field 9 1) := by
  unfold serviceCmd
  rw [if_neg (by simp [h0]), if_neg (by omega)]

/-- An active region is fenced for the standby that is to enter; the map does not change yet. -/
theorem Serves.completes_active (h : Serves s id c i) (hr : (physOf s (c.field 9 1)).role = .active L)
    (hp : physOfLogical s L = some (c.field 9 1)) (hf : freeStandby s = some q) (hx : (regionOf s L).exchange = none)
    (hv : (regionOf s L).vacant = false) (hq : quorumActs s = true) (ha : quorumAgrees s s.keels.ballot = true) :
    Completes i s fun u => (physOf u (c.field 9 1)).service = some (c.field 8 1, id) ∧ (physOf u (c.field 9 1)).role = .active L ∧
      ∃ x, (regionOf u L).exchange = some x ∧ x.kind = .service ∧ x.leaving = c.field 9 1 ∧ x.entering = some q ∧
        x.fencedAt = now s ∧ x.copied = false := by
  obtain ⟨f, hexec, hstart⟩ := h.starts
  obtain ⟨hexchange, hstanding⟩ := fence_spec L (c.field 9 1) .service (newBallot s)
  have hfree : freeStandby (newBallot s) = some q := hf
  have hstarted : f c = taken (fence L (c.field 9 1) .service (newBallot s)) c := by
    rw [hstart]
    unfold startService
    dsimp only
    rw [if_neg (by simp [h.idle]), hr]
    dsimp only
    rw [if_neg (by simp [hf, hx]), withdraw_agreed hp hx hv hq ha, hexchange]
    rfl
  refine h.atWork.completes hexec ?_
  rw [hstarted]
  generalize fence L (c.field 9 1) .service (newBallot s) = t at hexchange hstanding
  have hid : c.id = id := findCmd_id h.atWork.found
  have hphys : physOf (chargeWork s (taken t c) c.id) (c.field 9 1) =
    { physOf t (c.field 9 1) with service := some (c.field 8 1, c.id) } := taken_physOf
  rw [hphys, hid]
  refine ⟨rfl, (PhysRegion.standing_role (hstanding _)).trans hr, _, hexchange, rfl, rfl, hfree, rfl, ?_⟩
  exact congrArg Option.isNone hfree

/-- Without a standby the command is deferred. -/
theorem Serves.completes_deferred (h : Serves s id c i) (hr : (physOf s (c.field 9 1)).role = .active L)
    (hf : freeStandby s = none) : Completes i s fun u => { u with cmds := s.cmds } = s ∧ Ended u id 3 0 0 := by
  obtain ⟨f, hexec, hstart⟩ := h.starts
  refine h.atWork.completes_ended hexec ?_
  rw [hstart]
  unfold startService
  dsimp only
  rw [if_neg (by simp [h.idle]), hr]
  dsimp only
  rw [if_pos (by simp [hf])]
  rfl

/-- A failed region is taken as it is. -/
theorem Serves.completes_failed (h : Serves s id c i) (hr : (physOf s (c.field 9 1)).role = .failed) :
    Completes i s fun u => physOf u (c.field 9 1) = { physOf s (c.field 9 1) with service := some (c.field 8 1, id) } ∧
      u.mem = s.mem := by
  obtain ⟨f, hexec, hstart⟩ := h.starts
  have hstarted : f c = taken s c := by
    rw [hstart]
    unfold startService
    dsimp only
    rw [if_neg (by simp [h.idle]), hr]
    rfl
  refine h.atWork.completes hexec ?_
  rw [hstarted]
  have hphys : physOf (chargeWork s (taken s c) c.id) (c.field 9 1) =
    { physOf s (c.field 9 1) with service := some (c.field 8 1, c.id) } := taken_physOf
  rw [hphys, findCmd_id h.atWork.found]
  exact ⟨rfl, rfl⟩

end Service

/-! ### CHECKPOINT (R454 to R457) -/

section Checkpoint

variable {s : State} {id : Nat} {c : Cmd} {im : Image} {p : CheckpointParts}

theorem KeepsHeld.releaseVersions {z : State} {t : Nat} (h : KeepsHeld z s) : KeepsHeld z (releaseVersions s t) :=
  foldl (fun _ _ => postEvent) (h.other rfl rfl)

theorem KeepsHeld.poisonEvent {z : State} {k a : Nat} (h : KeepsHeld z s) : KeepsHeld z (poisonEvent s k a) := by
  unfold Machine.poisonEvent
  rcases limited_cases s (8, k) (fun s => ctxEvent s k 8 a) with he | he
  · rw [he]
    exact h
  · rw [he]
    exact postEvent (h.other rfl rfl)

/-- What a checkpoint reads changes neither the course of the regions nor a context. -/
theorem readHeld_keeps {z : State} {w : WindowPart} (hc : KeepsCourse z s) (hh : KeepsHeld z s) :
    KeepsCourse z (readHeld c s w) ∧ KeepsHeld z (readHeld c s w) := by
  have hsent (fn a n : Nat) : KeepsHeld z (askPeer s fn a n) := hh.sends (OnlySends.refl s).askPeer
  unfold readHeld
  dsimp only
  split
  · exact ⟨hc.askPeer.poisonEvent, (hsent _ _ _).poisonEvent⟩
  · exact ⟨hc.askPeer, hsent _ _ _⟩

theorem pinCheckpoint_keeps {z : State} (hc : KeepsCourse z s) (hh : KeepsHeld z s) :
    KeepsCourse z (pinCheckpoint s c) ∧ KeepsHeld z (pinCheckpoint s c) := by
  have hareas : KeepsCourse z (dropAreas s c.area 1) := KeepsCourse.foldl (fun _ _ => KeepsCourse.releaseVersions) hc.other
  have hheld : KeepsHeld z (dropAreas s c.area 1) := KeepsHeld.foldl (fun _ _ => KeepsHeld.releaseVersions) (hh.other rfl rfl)
  exact ⟨hareas.other, hheld.other rfl rfl⟩

/-- A checkpoint that is written is one more checkpoint, of a body of its size, and no context and no command changes. -/
theorem writeCheckpoint_spec (s : State) (c : Cmd) (im : Image) (p : CheckpointParts) :
    (writeCheckpoint s c im p).contexts = s.contexts ∧ (writeCheckpoint s c im p).cmds = s.cmds ∧
    ∃ body, body.length = c.size - 256 ∧ (writeCheckpoint s c im p).checkpoints = s.checkpoints ++ [(body, p)] := by
  obtain ⟨hcourse, hheld⟩ := foldl_keeps (P := fun u => KeepsCourse s u ∧ KeepsHeld s u)
    (fun _ _ h => readHeld_keeps (c := c) h.1 h.2) p.windows ⟨.refl s, .refl s⟩
  unfold writeCheckpoint
  dsimp only
  generalize p.windows.foldl (readHeld c) s = t at hcourse hheld
  generalize hbody : (List.range (c.size - 256)).map (Config.checkpointByte t.freeCounter) = body
  generalize headerOf t (ctxOf t c.ctx) im c.size body p.pins.length = head
  have hwritten := (hcourse.devWrite (fn := c.fn) (a := c.area + 256) (bs := body)).devWrite (fn := c.fn) (a := c.area) (bs := head)
  have hkept := (hheld.devWrite (fn := c.fn) (a := c.area + 256) (bs := body)).devWrite (fn := c.fn) (a := c.area) (bs := head)
  generalize devWrite (devWrite t c.fn (c.area + 256) body) c.fn c.area head = v at hwritten hkept
  let w : State := { v with checkpoints := v.checkpoints ++ [(body, p)], freeCounter := v.freeCounter + 1 }
  obtain ⟨hcourse', hheld'⟩ := pinCheckpoint_keeps (c := c) (KeepsCourse.refl w) (KeepsHeld.refl w)
  refine ⟨hheld'.contexts.trans hkept.contexts, hcourse'.cmds.trans hwritten.cmds, body, ?_, ?_⟩
  · rw [← hbody, List.length_map, List.length_range]
  · exact hcourse'.checkpoints.trans (congrArg (· ++ [(body, p)]) hwritten.checkpoints)

/-- The bytes of a checkpoint of the command's context. -/
def checkpointBytes (s : State) (c : Cmd) : Nat := if c.size = 0 then checkpointSize (c.view s) c.ctx else c.size

/-- The command as its copy keeps it: with the size of the checkpoint. -/
def sized (c : Cmd) (B : Nat) : Cmd := { c with size := B }

/-- A command that has paused no context only ends. -/
theorem endCheckpoint_unpaused {a b r : Nat} (h0 : c.phase = 0) : endCheckpoint s c a b r = endCmd s c a b r := by
  unfold endCheckpoint
  rw [if_neg (by simp [h0])]

theorem checkpointCmd_paused (hfault : areaFault s c 256 = none) (hs : (ctxOf s c.ctx).state = .paused)
    (him : (ctxOf s c.ctx).image = some im) : checkpointCmd s c =
      if isQuiet s c.ctx then copyCheckpoint s c im else endCheckpoint s c stDeferred 0 0 := by
  unfold checkpointCmd
  dsimp only
  rw [hfault]
  dsimp only
  rw [if_neg (by simp [hs]), him]

/-- The rates that the copy of a checkpoint asks for. -/
def checkpointRates (s : State) (c : Cmd) (B : Nat) : State :=
  reserveRates (setCmd s (sized c B)) (.copyCmd c.id) none (stackAt c.area)
    (copyPath s (windowBases (c.view s) (sized c B) (heldWindows (ctxOf s c.ctx))) [c.area] c.rate)

theorem copyCheckpoint_limited (h : c.limit < checkpointBytes s c) : copyCheckpoint s c im = endCheckpoint s c stRejected 0x10 0 :=
  if_pos h

/-- The copy goes ahead once its bytes fit and its rates are reserved. -/
theorem copyCheckpoint_reserved {B t : Nat} (hB : checkpointBytes s c = B) (hfits : B ≤ c.limit)
    (hfault : areaFault s c B = none) (hroom : keptCount s + (heldParts (c.view s) c.ctx).pins.length ≤ 4096)
    (hrates : ratesSince (checkpointRates s c B) (.copyCmd c.id) = some t) :
    copyCheckpoint s c im = endCheckpoint (writeCheckpoint (checkpointRates s c B) (sized c B) im (heldParts (c.view s) c.ctx))
      (sized c B) stOk 0 (ceilDiv B 65536) := by
  have hreserved : (match ratesSince (checkpointRates s c B) (.copyCmd c.id) with
      | none => checkpointRates s c B
      | some _ => endCheckpoint (writeCheckpoint (checkpointRates s c B) (sized c B) im (heldParts (c.view s) c.ctx))
        (sized c B) stOk 0 (ceilDiv B 65536)) =
      endCheckpoint (writeCheckpoint (checkpointRates s c B) (sized c B) im (heldParts (c.view s) c.ctx))
        (sized c B) stOk 0 (ceilDiv B 65536) := by rw [hrates]
  unfold checkpointBytes at hB
  unfold copyCheckpoint
  dsimp only
  rw [hB, if_neg (Nat.not_lt.mpr hfits), hfault]
  dsimp only
  rw [if_neg (Nat.not_lt.mpr hroom)]
  exact hreserved

/-- R455, R456: the copy of a quiet context ends with its size in units of 64 KiB. -/
theorem completes_checkpoint {B t : Nat} (h : AtWork s id 0x11 c) (h0 : c.phase = 0) (hfault : areaFault s c 256 = none)
    (hs : (ctxOf s c.ctx).state = .paused) (him : (ctxOf s c.ctx).image = some im) (hquiet : isQuiet s c.ctx = true)
    (hB : checkpointBytes s c = B) (hfits : B ≤ c.limit) (hfault' : areaFault s c B = none)
    (hroom : keptCount s + (heldParts (c.view s) c.ctx).pins.length ≤ 4096)
    (hrates : ratesSince (checkpointRates s c B) (.copyCmd c.id) = some t) :
    Completes (.checkpoint id) s fun u => Ended u id 0 0 (ceilDiv B 65536) ∧ u.contexts = s.contexts ∧
      ∃ body, body.length = B - 256 ∧ u.checkpoints = s.checkpoints ++ [(body, heldParts (c.view s) c.ctx)] := by
  have hf : checkpointCmd s c = endCmd (writeCheckpoint (checkpointRates s c B) (sized c B) im (heldParts (c.view s) c.ctx))
      (sized c B) stOk 0 (ceilDiv B 65536) := by
    rw [checkpointCmd_paused hfault hs him, if_pos hquiet, copyCheckpoint_reserved hB hfits hfault' hroom hrates]
    exact endCheckpoint_unpaused h0
  have hid : c.id = id := findCmd_id h.found
  obtain ⟨x, n, hreserved⟩ := reserveRates_eq (setCmd s (sized c B)) (.copyCmd c.id) none (stackAt c.area)
    (copyPath s (windowBases (c.view s) (sized c B) (heldWindows (ctxOf s c.ctx))) [c.area] c.rate)
  obtain ⟨hcontexts, hcmds, body, hlength, hcheckpoints⟩ :=
    writeCheckpoint_spec (checkpointRates s c B) (sized c B) im (heldParts (c.view s) c.ctx)
  have hlisted : findCmd (setCmd s (sized c B)) (sized c B).id = some (sized c B) := findCmd_setCmd (d := sized c B) h.listed
  refine h.completes rfl ?_
  rw [hf, ← hid]
  generalize writeCheckpoint (checkpointRates s c B) (sized c B) im (heldParts (c.view s) c.ctx) = v at hcontexts hcmds hcheckpoints
  unfold checkpointRates at hcontexts hcmds hcheckpoints
  rw [hreserved] at hcontexts hcmds hcheckpoints
  have hfound : findCmd v (sized c B).id = some (sized c B) := by
    unfold findCmd
    rw [hcmds]
    exact hlisted
  exact ⟨ended_of_endCmd hfound, hcontexts, body, hlength, hcheckpoints⟩

end Checkpoint

end Sys2Proof.Machine
end

section
/-! SUPPORT. RESTORE (R458, R459): what a checkpoint brings back changes no command and no count of restores, until the context takes
over the checkpoint's own counts. -/

namespace Sys2Proof.Machine

open Sys2Proof

namespace KeepsCourse

variable {z s : State}

theorem setRaw {off : Nat} {v : DWord} (h : KeepsCourse z s) : KeepsCourse z (setRaw s off v) := h.other

theorem restoreWindow {c : Cmd} {w : WindowPart} (h : KeepsCourse z s) : KeepsCourse z (restoreWindow s c w) := by
  unfold Machine.restoreWindow
  dsimp only
  refine ite (devWrite h.other) (ite (foldl (fun _ _ => updatePage) h.other) (ite h.other (markWritten h.other)))

theorem restoreRow {L t : Nat} {v : TableVersion} {x : Nat × List Byte × List Byte} (h : KeepsCourse z s) :
    KeepsCourse z (restoreRow s L t v x) := ite h.engineStore.engineStore h.engineStore

theorem restoreTable {L : Nat} {x : TablePart} (h : KeepsCourse z s) : KeepsCourse z (restoreTable L s x) := by
  unfold Machine.restoreTable
  split
  · exact foldl (fun _ _ => restoreRow) h
  · exact h

theorem restorePins {ctx fn : Nat} {pins : List (Nat × Nat)} (h : KeepsCourse z s) : KeepsCourse z (restorePins s ctx fn pins) :=
  foldl (fun _ _ => releaseVersions) h.other

theorem restoreEntry {ctx : Nat} {e : Nat × Nat × MatchEntry} (h : KeepsCourse z s) : KeepsCourse z (restoreEntry ctx s e) := by
  unfold Machine.restoreEntry
  split
  · exact h.modRegion
  · exact h

theorem zeroRings {ctx L : Nat} (h : KeepsCourse z s) : KeepsCourse z (zeroRings ctx s L) :=
  foldl (fun _ _ hu => ite hu.winWrite hu) h.modCtx

theorem restoreNumerics {ctx : Nat} {p : CheckpointParts} (h : KeepsCourse z s) : KeepsCourse z (restoreNumerics s ctx p) :=
  h.setRaw.setRaw.setRaw

end KeepsCourse

section Restore

variable {s : State} {id : Nat} {c : Cmd} {p : CheckpointParts}

/-- What RESTORE writes goes before the counts that the context takes over. -/
theorem restoreAll_eq (s : State) (c : Cmd) (h : List Byte) (p : CheckpointParts) : ∃ v left, KeepsCourse s v ∧
    restoreAll s c h p = modCtx v c.ctx fun x => { x with
      recipeLeft := p.recipeLeft, restoredLeft := left, restores := satAdd 0xFFFF x.restores 1
      lastOutcomes := fieldAt h 0x18 4 % 2 ^ 20 } := by
  refine ⟨_, _, ?_, rfl⟩
  have hrows (u : State) (hu : KeepsCourse s u) : KeepsCourse s (restorePins
      (p.tables.foldl (restoreTable ((ctxRegions s c.ctx).headD 0)) u) c.ctx c.fn p.pins) :=
    KeepsCourse.restorePins (KeepsCourse.foldl (fun _ _ => KeepsCourse.restoreTable) hu)
  refine KeepsCourse.setRaw (KeepsCourse.restoreNumerics (KeepsCourse.foldl (fun _ _ => KeepsCourse.zeroRings)
    (KeepsCourse.sweepWakes (KeepsCourse.other (KeepsCourse.foldl (fun _ _ => KeepsCourse.restoreEntry)
      (KeepsCourse.foldl (fun _ _ => KeepsCourse.dropTasks) ?_))))))
  exact KeepsCourse.foldl (fun _ _ hu => hu.modRegion)
    (hrows _ (KeepsCourse.foldl (fun _ _ => KeepsCourse.restoreWindow) (KeepsCourse.refl s)))

/-- The rates that the copy of a checkpoint back asks for. -/
def restoreRates (s : State) (c : Cmd) (B : Nat) (p : CheckpointParts) : State :=
  reserveRates (setCmd s (sized c B)) (.copyCmd c.id) none none
    (copyPath s [c.area] (windowBases (c.view s) (sized c B) (p.windows.map (·.window))) c.rate)

variable {h body : List Byte}

theorem restoreCmd_fails {d : Nat} (harea : areaFault s c 256 = none) (hh : devRead s c.area 256 = h)
    (hbody : devRead s (c.area + 256) (fieldAt h 8 8 - 256) = body) (hfault : restoreFault s c h body = some d) :
    restoreCmd s c = endCmd s c 1 d 0 := by
  unfold restoreCmd
  rw [harea]
  dsimp only
  rw [hh, hbody, hfault]
  rfl

theorem restoreCmd_passes (harea : areaFault s c 256 = none) (hh : devRead s c.area 256 = h)
    (hbody : devRead s (c.area + 256) (fieldAt h 8 8 - 256) = body) (hfault : restoreFault s c h body = none) :
    restoreCmd s c = if (ratesSince (restoreRates s c (fieldAt h 8 8) (partsOf s body)) (.copyCmd c.id)).isSome then
      endCmd (restoreAll (restoreRates s c (fieldAt h 8 8) (partsOf s body)) (sized c (fieldAt h 8 8)) h (partsOf s body))
        (sized c (fieldAt h 8 8)) 0 0 0
    else restoreRates s c (fieldAt h 8 8) (partsOf s body) := by
  have hrates : (match ratesSince (restoreRates s c (fieldAt h 8 8) (partsOf s body)) (.copyCmd c.id) with
      | none => restoreRates s c (fieldAt h 8 8) (partsOf s body)
      | some _ => endCmd (restoreAll (restoreRates s c (fieldAt h 8 8) (partsOf s body)) (sized c (fieldAt h 8 8)) h
          (partsOf s body)) (sized c (fieldAt h 8 8)) 0 0 0) = _ := rfl
  unfold restoreCmd
  rw [harea]
  dsimp only
  rw [hh, hbody, hfault]
  refine hrates.trans ?_
  cases ratesSince (restoreRates s c (fieldAt h 8 8) (partsOf s body)) (.copyCmd c.id) <;> rfl

/-- The energy of a command is all that its charge changes. -/
theorem chargeWork_but_cmds (s t : State) (id : Nat) : { chargeWork s t id with cmds := t.cmds } = t := rfl

/-- A checkpoint that fails a check changes nothing. -/
theorem completes_restore_fails {d : Nat} (hw : AtWork s id 0x12 c) (harea : areaFault s c 256 = none)
    (hh : devRead s c.area 256 = h) (hbody : devRead s (c.area + 256) (fieldAt h 8 8 - 256) = body)
    (hfault : restoreFault s c h body = some d) :
    Completes (.restore id) s fun u => { u with cmds := s.cmds } = s ∧ Ended u id 1 d 0 :=
  hw.completes_ended rfl (restoreCmd_fails harea hh hbody hfault)

/-- One that passes waits for its rates, and then the context takes over its counts. -/
theorem completes_restore_passes (hw : AtWork s id 0x12 c) (harea : areaFault s c 256 = none)
    (hh : devRead s c.area 256 = h) (hbody : devRead s (c.area + 256) (fieldAt h 8 8 - 256) = body)
    (hfault : restoreFault s c h body = none) :
    let r := restoreRates s c (fieldAt h 8 8) (partsOf s body)
    Completes (.restore id) s fun u => (ratesSince r (.copyCmd c.id) = none → { u with cmds := r.cmds } = r) ∧
      (∀ t, ratesSince r (.copyCmd c.id) = some t → (ctxOf u c.ctx).lastOutcomes = fieldAt h 0x18 4 % 2 ^ 20 ∧
        (ctxOf u c.ctx).recipeLeft = (partsOf s body).recipeLeft ∧
        (ctxOf u c.ctx).restores = Nat.min 0xFFFF ((ctxOf s c.ctx).restores + 1) ∧ Ended u id 0 0 0) := by
  intro r
  refine hw.completes rfl ?_
  rw [restoreCmd_passes harea hh hbody hfault]
  by_cases hsome : (ratesSince r (.copyCmd c.id)).isSome = true
  · rw [if_pos hsome]
    refine ⟨fun hnone => absurd hsome (by rw [hnone]; decide), fun t ht => ?_⟩
    obtain ⟨x, n, hr⟩ := reserveRates_eq (setCmd s (sized c (fieldAt h 8 8))) (.copyCmd c.id) none none
      (copyPath s [c.area] (windowBases (c.view s) (sized c (fieldAt h 8 8)) ((partsOf s body).windows.map (·.window))) c.rate)
    obtain ⟨v, left, hv, hall⟩ := restoreAll_eq r (sized c (fieldAt h 8 8)) h (partsOf s body)
    have hctx : ctxOf r c.ctx = ctxOf s c.ctx := by
      unfold r restoreRates
      rw [hr]
      rfl
    have hcmds : v.cmds = (setCmd s (sized c (fieldAt h 8 8))).cmds := by
      rw [hv.cmds]
      unfold r restoreRates
      rw [hr]
    have hfound : findCmd v c.id = some (sized c (fieldAt h 8 8)) := by
      unfold findCmd
      rw [hcmds]
      exact findCmd_setCmd (d := sized c (fieldAt h 8 8)) hw.listed
    have hended : Ended (chargeWork s (endCmd (restoreAll r (sized c (fieldAt h 8 8)) h (partsOf s body))
        (sized c (fieldAt h 8 8)) 0 0 0) c.id) id 0 0 0 := by
      rw [← findCmd_id hw.found, hall]
      exact ended_of_endCmd (c := sized c (fieldAt h 8 8)) hfound
    have hnew : ctxOf (restoreAll r (sized c (fieldAt h 8 8)) h (partsOf s body)) c.ctx = { ctxOf v c.ctx with
        recipeLeft := (partsOf s body).recipeLeft, restoredLeft := left, restores := satAdd 0xFFFF (ctxOf v c.ctx).restores 1
        lastOutcomes := fieldAt h 0x18 4 % 2 ^ 20 } := by
      rw [hall]
      exact ctxOf_modCtx
    generalize restoreAll r (sized c (fieldAt h 8 8)) h (partsOf s body) = w at hended hnew
    have hlast : ctxOf (chargeWork s (endCmd w (sized c (fieldAt h 8 8)) 0 0 0) c.id) c.ctx = ctxOf w c.ctx := rfl
    rw [hlast, hnew, hv.restores c.ctx, hctx]
    exact ⟨rfl, rfl, rfl, hended⟩
  · rw [if_neg hsome]
    exact ⟨fun _ => chargeWork_but_cmds s r c.id, fun t ht => absurd (by rw [ht]; rfl) hsome⟩

end Restore

end Sys2Proof.Machine
end

section
open Sys2Proof Sys2Proof.Machine

/-- Settles O50, from what the work of each command comes to: a failed region is taken as it is (log entry 92), a withdrawal on
which the quorum agrees fences, a checkpoint leaves every context alone, and a restored one takes over the checkpoint's counts. -/
theorem serviceAndCheckpointCommands : Obligations.ServiceAndCheckpointCommands := by
  refine ⟨fun s id c hw h0 hq => ?_, fun s id c => ⟨fun im hw h0 harea hs him => ⟨fun hbusy => ?_, fun hquiet => ?_⟩,
    fun hw harea => ?_⟩⟩
  · intro p hp hidle ha goes
    have hgoes {i : Instr} (hi : Serves s id c i) : goes i :=
      ⟨fun L q hr hL hf hx hv => hi.completes_active hr hL hf hx hv hq ha, fun L hr hf => hi.completes_deferred hr hf,
        hi.completes_failed⟩
    refine ⟨fun h => hgoes ⟨hw, hidle, _, rfl, ?_⟩, fun h => hgoes ⟨hw, hidle, _, rfl, ?_⟩, fun h => hgoes ⟨hw, hidle, _, rfl, ?_⟩⟩
    · rw [if_neg (by omega), ← serviceCmd_starts hp h0, h]
    · rw [← serviceCmd_starts hp h0, h]
    · rw [← serviceCmd_starts hp h0, h]
  · refine hw.completes_ended rfl ?_
    rw [checkpointCmd_paused harea hs him, if_neg (by simp [hbusy])]
    exact endCheckpoint_unpaused h0
  · intro p B
    refine ⟨fun hlimit => hw.completes_ended rfl ?_, fun hfits hfault hroom _ => ?_⟩
    · rw [checkpointCmd_paused harea hs him, if_pos hquiet, copyCheckpoint_limited hlimit]
      exact endCheckpoint_unpaused h0
    · rintro d ⟨t, ht⟩
      exact completes_checkpoint hw h0 harea hs him hquiet rfl hfits hfault hroom ht
  · intro h body
    cases hfault : restoreFault s c h body with
    | some d => exact completes_restore_fails hw harea rfl rfl hfault
    | none => exact completes_restore_passes hw harea rfl rfl hfault

end
